-- ==== Sys2Proof/Word.lean ====
section
/-!
DEFINITION. The word types of the model: dictionary values, addresses, times and counts are natural numbers, register
contents and landing words are bit vectors, and every sparse store is a list of key and value pairs (R5, R78).
-/

namespace Sys2Proof

/-- A 64-bit register or landing word. -/
abbrev Word := BitVec 64

/-- One byte of memory or of a BLOB. -/
abbrev Byte := BitVec 8

/-- One 32-bit lane of a vector register or accumulator element. -/
abbrev Lane := BitVec 32

/-- A sparse store: the keys that differ from the default, strictly rising, each with its value. -/
abbrev Sparse (α : Type) := List (Nat × α)

end Sys2Proof
end

