-- ==== Sys2Proof/Syntax.lean ====
section
/-!
DEFINITION. The commands of the CG4860: one constructor per row of spec/opcode_table.json, with the operands the row's
chapter gives it, those with operands first. A command is an operation or an event that is whole and indivisible (95_what_each_step_holds.md).
-/

namespace Sys2Proof

/-- A controller's path into the dictionary (R98, R115): the PF0 window, tenancy t's window, the GQ bus, the firmware
path with the Newel core that uses it, and the debug port's register view. -/
inductive Path where
  | pf0
  | ten (t : Fin 16)
  | gq
  | fw (core : Fin 4)
  | dbg
  deriving DecidableEq, Repr

/-- Who issues a landing operation: its agent ID and the tenancy context the access carries, if any (R242). -/
structure Requester where
  agent : Fin 70
  ctx : Option (Fin 16)
  deriving DecidableEq, Repr

/-- A wake source (Table POWR-4); for a pin, the GPIO that was held low. -/
inductive WakeSource where
  | colonnade
  | link
  | pin (g : Fin 16)
  | alarm
  deriving DecidableEq, Repr

/-- What a descriptor read brings back: the 64 bytes, poisoned data, or an error (R177, R196). -/
inductive FetchResult where
  | data (d : BitVec 512)
  | poisoned
  | error
  deriving DecidableEq, Repr

/-- How a function comes to send a pending message (R192): one vector unmasked, Bus Master Enable set, MSI-X enabled
or the function mask lifted. -/
inductive MsixEvent where
  | vector (v : Fin 64)
  | busMaster
  | enable
  deriving DecidableEq, Repr

/-- What an engine reports at the end of a stage (R272, R279, R282): the marks and the output byte count, and the shape values
that a Newel core's routine wrote, by value number (R323, R426). -/
structure StageReport where
  empty : Bool
  concealed : Bool
  bytes : BitVec 32
  shapes : List (Fin 4 × BitVec 32)
  deriving DecidableEq, Repr

/-- Where an uncorrectable error of D0's fault memory lies (R1029): log record n, list entry n, or a slot's mirror. -/
inductive EccPlace where
  | record (n : Nat)
  | entry (n : Nat)
  | mirror (slot : Fin 1024)
  deriving DecidableEq, Repr

/-- How an MMA's rows were fed: slots waited or bubbles sent; the lengths in hall cycles of the gaps before and within it
that no ramp down ended; whether a row has entered since the last ramp down (R359, R360, R367); and whether a weight
register row failed its parity check (R389). -/
structure MmaReport where
  late : BitVec 32
  gaps : List (BitVec 32)
  fed : Bool
  parity : Bool
  deriving DecidableEq, Repr

/-- What a scrubber comes to: a pass completes, or the word at an address holds an error. -/
inductive ScrubFind where
  | passDone
  | correctable (a : BitVec 48)
  | uncorrectable (a : BitVec 48)
  deriving DecidableEq, Repr

/-- What comes to a regulated target in a window (R462 to R470), in order: concourse cycles pass; a master port's request is
accepted; the target grants its next access, at a gallery pair in one slice; an access of a port has taken that many cycles
from its acceptance to its first data or its response. -/
inductive BalEvent where
  | cycles (n : BitVec 32)
  | request (port : Fin 48) (addr : BitVec 48) (bytes : Byte)
  | grant (slice : Fin 16)
  | took (port : Fin 48) (cycles : BitVec 32)
  deriving DecidableEq, Repr

/-- Where an uncorrectable error of the cloakroom lies: claim record i, or entry i of a pool's cache (R524). -/
inductive ClaimPlace where
  | record (i : Nat)
  | entry (q : Fin 8) (i : Nat)
  deriving DecidableEq, Repr

/-- A CSI-2 packet that is no Frame Start, line or Frame End of its port: a header that does not match, good or
corrected; an uncorrectable header; a burst whose start of transmission is not recognised (R527, R529). -/
inductive PacketKind where
  | mismatch (fixed : Bool)
  | badHeader
  | badStart
  deriving DecidableEq, Repr

/-- What the active sequence header of a coded unit declares (R621): whether profile, level and sample format are those of
Table VDEC-2, the picture size, and the references it needs. -/
structure SeqHeader where
  supported : Bool
  w : BitVec 16
  h : BitVec 16
  refs : Byte
  deriving DecidableEq, Repr

/-- What a decoder parses in the headers of a coded unit (R620, R625, R626): whether it holds a picture, its sequence
header, whether it is a key picture, its geometry if that parses, its bit depth, and the values its record shows. -/
structure UnitHeaders where
  picture : Bool
  seq : Option SeqHeader
  key : Bool
  geometry : Option (BitVec 16 × BitVec 16)
  tenBit : Bool
  shown : Bool
  grain : Bool
  order : BitVec 32
  deriving DecidableEq, Repr

/-- What a decoder reconstructs of a picture (R633, R634, R639): the 8×8 blocks it could not decode and why, the output
picture's bytes, the motion field's entries, and the bytes and slot of the reconstruction in the frame store. -/
structure DecReport where
  concealed : List (BitVec 32)
  syntaxBad : Bool
  truncated : Bool
  refMissing : Bool
  samples : List Byte
  field : List Word
  recon : List Byte
  slot : Byte
  deriving DecidableEq, Repr

/-- A partition that the encoder's mode decision has chosen in an inter picture: its place, its size and its reference, by
age. -/
structure EncPart where
  x : BitVec 16
  y : BitVec 16
  w : Byte
  h : Byte
  ref : Nat
  deriving DecidableEq, Repr

/-- What the encoder makes of a picture (R665, R671 to R675): the bitstream, the bits so far after each superblock or CTU
row, whether R675 cut coding short, and the reconstruction's bytes. -/
structure EncReport where
  stream : List Byte
  rows : List (BitVec 32)
  capped : Bool
  recon : List Byte
  parts : List EncPart
  deriving DecidableEq, Repr

/-- Where an uncorrectable error of the colonnade's stores lies (R723): a 64-bit word of the synapse store, a neuron state,
a fan entry of a core, or an entry of a router's bank in force. -/
inductive ColnPlace where
  | syn (word : Fin 2097152)
  | neuron (n : Fin 65536)
  | fan (core : Fin 16) (i : Fin 512)
  | route (r : Fin 16) (i : Fin 64)
  deriving DecidableEq, Repr

/-- What the checks of a DRAM access find (R769, R770): nothing; a link error that link ECC corrects, or does not; an error
in the array that inline ECC corrects, or does not. -/
inductive DramFind where
  | clean
  | linkCorrected
  | linkBad
  | correctable
  | uncorrectable
  deriving DecidableEq, Repr

/-- A received GQ telegram: header, body and CRC as received, and whether its start delimiter is right and no Manchester
violation occurred before its end (R813, R815, R816). -/
structure Telegram where
  bytes : List Byte
  clean : Bool
  deriving DecidableEq, Repr

/-- How a transmission of the node's own ends: sent whole, stopped by a collision (R817), or stopped by a line fault
(R803, R845). -/
inductive TxEnd where
  | sent
  | collision
  | lineFault (c : Fin 4)
  deriving DecidableEq, Repr

/-- How a persist commit ends (R910, R911). -/
inductive CommitEnd where
  | ok
  | flashError
  | verify
  deriving DecidableEq, Repr

/-- The commands. -/
inductive Instr where
  /-- A write of TICK_STRIKE (R18). -/
  | tickStrike (p : Path) (v : Byte)
  /-- A write of TICK_OUT_MODE (R19). -/
  | tickOutModeWrite (p : Path) (v : Byte)
  /-- A write of TICK_COMMIT (R27, R60). -/
  | tickCommit (p : Path) (v : Byte)
  /-- The copy of layer l ends, well or in the error named (R736, R760). -/
  | layerCopyDone (l : Fin 32) (ok : Bool)
  /-- The grace of layer l ends (R736). -/
  | layerGraceExpiry (l : Fin 32)
  /-- An expedited access on a path (R104): direction, object, view, length and data, and for a dictionary window
  whether DW_CMD.IRQ asks for the done vector. -/
  | expeditedAccess (p : Path) (wr : Bool) (idx : BitVec 16) (sub : Byte) (stagedView : Bool) (len : BitVec 32)
      (data : Word) (irq : Bool)
  /-- A segmented open on a path (R107). -/
  | segmentedOpen (p : Path) (wr : Bool) (idx : BitVec 16) (sub : Byte) (stagedView : Bool) (len : BitVec 32)
      (irq : Bool)
  /-- A segment on a path (R108): toggle, last flag and the data of a write segment. -/
  | segment (p : Path) (toggle last : Bool) (data : List Byte) (irq : Bool)
  /-- A controller aborts its own open transfer (R114). -/
  | abortOwnTransfer (p : Path) (irq : Bool)
  /-- More than 10 ms since the last response of an open transfer (R112). -/
  | segmentTimeout (p : Path)
  /-- The owning unit does not answer an access within 0.8 µs (R147). -/
  | unitAnswerTimeout (p : Path) (wr : Bool) (idx : BitVec 16) (sub : Byte) (data : Word)
  /-- A write to an RW object that has no row of its own (R127). -/
  | registerWrite (p : Path) (idx : BitVec 16) (sub : Byte) (data : Word)
  /-- A write to an RS object (R121). -/
  | stagedWrite (p : Path) (idx : BitVec 16) (sub : Byte) (data : Word)
  /-- A non-quiet read of an RC object (R97). -/
  | rcRead (p : Path) (idx : BitVec 16) (sub : Byte)
  /-- The dictionary engine answers the step of a window (R156). -/
  | dwStepDone (p : Path)
  /-- The link reaches UP at a width and a speed code (R868, Table HOST-13). -/
  | linkUp (width : BitVec 8) (speed : BitVec 8)
  /-- A vector is unmasked, or the function becomes able to send (R192). -/
  | msixUnmask (pf1 : Bool) (e : MsixEvent)
  /-- A write to SQ_TAIL of tenancy t; `whole` is a single naturally aligned 32-bit write (R168, R171). -/
  | sqTail (t : Fin 16) (v : BitVec 32) (whole : Bool)
  /-- A write to CQ_HEAD of tenancy t (R170, R171). -/
  | cqHead (t : Fin 16) (v : BitVec 32) (whole : Bool)
  /-- A descriptor of tenancy t comes back and is checked (R177). -/
  | descriptorCheck (t : Fin 16) (r : FetchResult)
  /-- CQ_IRQ_DELAY µs after tenancy t's first unsignalled record (R191). -/
  | cqIrqDelayExpiry (t : Fin 16)
  /-- READ on landing L (Tables LAND-3 and LAND-4). -/
  | landingRead (q : Requester) (L : BitVec 16)
  /-- INIT on landing L (Tables LAND-3 and LAND-4). -/
  | landingInit (q : Requester) (L : BitVec 16) (w : Word)
  /-- ADD on landing L (Tables LAND-3 and LAND-4). -/
  | landingAdd (q : Requester) (L : BitVec 16) (d : Word)
  /-- SET on landing L (Tables LAND-3 and LAND-4). -/
  | landingSet (q : Requester) (L : BitVec 16)
  /-- CLEAR on landing L (Tables LAND-3 and LAND-4). -/
  | landingClear (q : Requester) (L : BitVec 16)
  /-- ACQUIRE on landing L (Tables LAND-3 and LAND-4). -/
  | landingAcquire (q : Requester) (L : BitVec 16)
  /-- TRY on landing L (Tables LAND-3 and LAND-4). -/
  | landingTry (q : Requester) (L : BitVec 16)
  /-- RELEASE on landing L (Tables LAND-3 and LAND-4). -/
  | landingRelease (q : Requester) (L : BitVec 16)
  /-- ARRIVE on landing L (Tables LAND-3 and LAND-4). -/
  | landingArrive (q : Requester) (L : BitVec 16)
  /-- WAIT on landing L (Tables LAND-3 and LAND-4). -/
  | landingWait (q : Requester) (L : BitVec 16)
  /-- ACK on landing L (Tables LAND-3 and LAND-4). -/
  | landingAck (q : Requester) (L : BitVec 16) (d : Word)
  /-- FORCE on landing L (Tables LAND-3 and LAND-4). -/
  | landingForce (q : Requester) (L : BitVec 16)
  /-- PUSH on landing L (Tables LAND-3 and LAND-4). -/
  | landingPush (q : Requester) (L : BitVec 16) (d : Word)
  /-- TAKE on landing L (Tables LAND-3 and LAND-4). -/
  | landingTake (q : Requester) (L : BitVec 16)
  /-- PORT_STATUS on landing L (Tables LAND-3 and LAND-4). -/
  | landingPortStatus (q : Requester) (L : BitVec 16)
  /-- PEEK on landing L (Tables LAND-3 and LAND-4). -/
  | landingPeek (q : Requester) (L : BitVec 16) (k : Fin 4)
  /-- HOLD_TIME of the lock on landing L reaches HOLD_LIMIT (R236). -/
  | holdLimitExpiry (L : BitVec 16)
  /-- The word of landing L holds an error, corrected when `fixed` (R262). -/
  | landingEccError (fixed : Bool) (L : BitVec 16)
  /-- A released stage entry whose engine is idle is selected and issued (R274). -/
  | stageIssue (unit : UnitHeaders)
  /-- An engine reports the end of its stage; the report is the firmware's own for a Newel core (R272). -/
  | stageComplete (engine : Fin 70) (rep : StageReport)
  /-- Every engine has let go of the stopped item in a slot (R277). -/
  | itemStopDone (slot : Fin 1024)
  /-- A background stage on an engine has run past BG_QUANTUM (R287). -/
  | bgQuantumExpiry (engine : Fin 70)
  /-- The slot table's entry of a slot holds an error, corrected when `fixed` (R302, R1015). -/
  | slotTableEccError (fixed : Bool) (slot : Fin 1024)
  /-- A write of LOAD to LOAD_CMD (R305, R306). -/
  | load (p : Path)
  /-- A write of EVICT to LOAD_CMD (R317). -/
  | evict (p : Path)
  /-- A write of CANCEL to LOAD_CMD (R318). -/
  | cancel (p : Path)
  /-- Firmware makes the tile plan of a stage map entry for an item-run (R324 to R328). -/
  | tilePlan (slot : Fin 1024) (run : Byte) (stage : Fin 32)
  /-- NOP on core n: no effect (Table CORE-5). -/
  | nop (n : Fin 32) (imm : BitVec 32)
  /-- END on core n: the stage ends; IMM 0 OK, 1 EMPTY (R428). -/
  | endStage (n : Fin 32) (imm : BitVec 32)
  /-- FENCE on core n: waits for the earlier loads and stores (Table CORE-5). -/
  | fence (n : Fin 32) (imm : BitVec 32)
  /-- FAIL on core n: raises USER (Table CORE-5). -/
  | fail (n : Fin 32) (imm : BitVec 32)
  /-- TMARK on core n: a trace marker (R432). -/
  | tmark (n : Fin 32) (imm : BitVec 32)
  /-- OUTADD: adds S[RA][31:0] to the output byte count (R429). -/
  | outadd (n : Fin 32) (rd ra : Fin 32) (imm : BitVec 32)
  /-- SHGET: S[RD] from a shape value of the item-run. -/
  | shget (n : Fin 32) (rd ra : Fin 32) (imm : BitVec 32)
  /-- SHSET: a shape value from S[RA][31:0] (R430). -/
  | shset (n : Fin 32) (rd ra : Fin 32) (imm : BitVec 32)
  /-- PLANRD: S[RD] from a field of the stage's tile plan (R431). -/
  | planrd (n : Fin 32) (rd ra : Fin 32) (imm : BitVec 32)
  /-- ADD: S[RD] from S[RA] and S[RB] (Table CORE-5). -/
  | add (n : Fin 32) (rd ra rb : Fin 32)
  /-- SUB: S[RD] from S[RA] and S[RB] (Table CORE-5). -/
  | sub (n : Fin 32) (rd ra rb : Fin 32)
  /-- MUL: S[RD] from S[RA] and S[RB] (Table CORE-5). -/
  | mul (n : Fin 32) (rd ra rb : Fin 32)
  /-- AND: S[RD] from S[RA] and S[RB] (Table CORE-5). -/
  | and (n : Fin 32) (rd ra rb : Fin 32)
  /-- OR: S[RD] from S[RA] and S[RB] (Table CORE-5). -/
  | or (n : Fin 32) (rd ra rb : Fin 32)
  /-- XOR: S[RD] from S[RA] and S[RB] (Table CORE-5). -/
  | xor (n : Fin 32) (rd ra rb : Fin 32)
  /-- SHL: S[RD] from S[RA] and S[RB] (Table CORE-5). -/
  | shl (n : Fin 32) (rd ra rb : Fin 32)
  /-- SHR: S[RD] from S[RA] and S[RB] (Table CORE-5). -/
  | shr (n : Fin 32) (rd ra rb : Fin 32)
  /-- SRA: S[RD] from S[RA] and S[RB] (Table CORE-5). -/
  | sra (n : Fin 32) (rd ra rb : Fin 32)
  /-- SLT: S[RD] from S[RA] and S[RB] (Table CORE-5). -/
  | slt (n : Fin 32) (rd ra rb : Fin 32)
  /-- SLTU: S[RD] from S[RA] and S[RB] (Table CORE-5). -/
  | sltu (n : Fin 32) (rd ra rb : Fin 32)
  /-- MIN: S[RD] from S[RA] and S[RB] (Table CORE-5). -/
  | min (n : Fin 32) (rd ra rb : Fin 32)
  /-- MAX: S[RD] from S[RA] and S[RB] (Table CORE-5). -/
  | max (n : Fin 32) (rd ra rb : Fin 32)
  /-- ADDI: S[RD] from S[RA] and IMM (Table CORE-5). -/
  | addi (n : Fin 32) (rd ra : Fin 32) (imm : BitVec 32)
  /-- ANDI: S[RD] from S[RA] and IMM (Table CORE-5). -/
  | andi (n : Fin 32) (rd ra : Fin 32) (imm : BitVec 32)
  /-- ORI: S[RD] from S[RA] and IMM (Table CORE-5). -/
  | ori (n : Fin 32) (rd ra : Fin 32) (imm : BitVec 32)
  /-- XORI: S[RD] from S[RA] and IMM (Table CORE-5). -/
  | xori (n : Fin 32) (rd ra : Fin 32) (imm : BitVec 32)
  /-- SHLI: S[RD] from S[RA] and IMM (Table CORE-5). -/
  | shli (n : Fin 32) (rd ra : Fin 32) (imm : BitVec 32)
  /-- SHRI: S[RD] from S[RA] and IMM (Table CORE-5). -/
  | shri (n : Fin 32) (rd ra : Fin 32) (imm : BitVec 32)
  /-- SRAI: S[RD] from S[RA] and IMM (Table CORE-5). -/
  | srai (n : Fin 32) (rd ra : Fin 32) (imm : BitVec 32)
  /-- LUI: S[RD] from IMM shifted left by 32. -/
  | lui (n : Fin 32) (rd ra : Fin 32) (imm : BitVec 32)
  /-- BEQ: branch if S[RA] compares equal with S[RB]. -/
  | beq (n : Fin 32) (ra rb : Fin 32) (off : BitVec 32)
  /-- BNE: branch if S[RA] compares not equal with S[RB]. -/
  | bne (n : Fin 32) (ra rb : Fin 32) (off : BitVec 32)
  /-- BLT: branch if S[RA] compares less, signed with S[RB]. -/
  | blt (n : Fin 32) (ra rb : Fin 32) (off : BitVec 32)
  /-- BGE: branch if S[RA] compares not less, signed with S[RB]. -/
  | bge (n : Fin 32) (ra rb : Fin 32) (off : BitVec 32)
  /-- BLTU: branch if S[RA] compares less, unsigned with S[RB]. -/
  | bltu (n : Fin 32) (ra rb : Fin 32) (off : BitVec 32)
  /-- BGEU: branch if S[RA] compares not less, unsigned with S[RB]. -/
  | bgeu (n : Fin 32) (ra rb : Fin 32) (off : BitVec 32)
  /-- JMP: jump by OFF instructions. -/
  | jmp (n : Fin 32) (ra rb : Fin 32) (off : BitVec 32)
  /-- JAL: jump by IMM instructions and link. -/
  | jal (n : Fin 32) (rd ra : Fin 32) (imm : BitVec 32)
  /-- JR: jump to S[RA]. -/
  | jr (n : Fin 32) (rd ra rb : Fin 32)
  /-- LD: S[RD] from SIZE bytes, zero-extended (R411). -/
  | ld (n : Fin 32) (rd ra : Fin 32) (size : Fin 4) (imm : BitVec 32)
  /-- LDS: S[RD] from SIZE bytes, sign-extended (R411). -/
  | lds (n : Fin 32) (rd ra : Fin 32) (size : Fin 4) (imm : BitVec 32)
  /-- ST: the low SIZE bytes of S[RD] to memory (R411, R412). -/
  | st (n : Fin 32) (rd ra : Fin 32) (size : Fin 4) (imm : BitVec 32)
  /-- VADD: lane by lane under TYPE (Table CORE-5). -/
  | vadd (n : Fin 32) (vd va vb : Fin 32) (pred ty func : Fin 8) (imm : BitVec 32)
  /-- VSUB: lane by lane under TYPE (Table CORE-5). -/
  | vsub (n : Fin 32) (vd va vb : Fin 32) (pred ty func : Fin 8) (imm : BitVec 32)
  /-- VMUL: lane by lane under TYPE (Table CORE-5). -/
  | vmul (n : Fin 32) (vd va vb : Fin 32) (pred ty func : Fin 8) (imm : BitVec 32)
  /-- VFMA: lane by lane under TYPE (Table CORE-5). -/
  | vfma (n : Fin 32) (vd va vb : Fin 32) (pred ty func : Fin 8) (imm : BitVec 32)
  /-- VMIN: lane by lane under TYPE (Table CORE-5). -/
  | vmin (n : Fin 32) (vd va vb : Fin 32) (pred ty func : Fin 8) (imm : BitVec 32)
  /-- VMAX: lane by lane under TYPE (Table CORE-5). -/
  | vmax (n : Fin 32) (vd va vb : Fin 32) (pred ty func : Fin 8) (imm : BitVec 32)
  /-- VAND: lane by lane, bitwise. -/
  | vand (n : Fin 32) (vd va vb : Fin 32) (pred ty func : Fin 8) (imm : BitVec 32)
  /-- VOR: lane by lane, bitwise. -/
  | vor (n : Fin 32) (vd va vb : Fin 32) (pred ty func : Fin 8) (imm : BitVec 32)
  /-- VXOR: lane by lane, bitwise. -/
  | vxor (n : Fin 32) (vd va vb : Fin 32) (pred ty func : Fin 8) (imm : BitVec 32)
  /-- VSRA: arithmetic right shift of I32 lanes by IMM[4:0]. -/
  | vsra (n : Fin 32) (vd va vb : Fin 32) (pred ty func : Fin 8) (imm : BitVec 32)
  /-- VCVT: conversion between I32 and FP32 by FUNC. -/
  | vcvt (n : Fin 32) (vd va vb : Fin 32) (pred ty func : Fin 8) (imm : BitVec 32)
  /-- VCMP: P[VD[2:0]] from a comparison by FUNC. -/
  | vcmp (n : Fin 32) (vd va vb : Fin 32) (pred ty func : Fin 8) (imm : BitVec 32)
  /-- VSEL: select by P[VB[2:0]]. -/
  | vsel (n : Fin 32) (vd va vb : Fin 32) (pred ty func : Fin 8) (imm : BitVec 32)
  /-- VACT: an FP32 function by FUNC (R410). -/
  | vact (n : Fin 32) (vd va vb : Fin 32) (pred ty func : Fin 8) (imm : BitVec 32)
  /-- VRED: reduction of the selected lanes into lane 0. -/
  | vred (n : Fin 32) (vd va vb : Fin 32) (pred ty func : Fin 8) (imm : BitVec 32)
  /-- VLD: 64 elements of DTYPE from memory. -/
  | vld (n : Fin 32) (vd ra : Fin 32) (dtype pred : Fin 8) (imm : BitVec 32)
  /-- VST: 64 lanes to memory as DTYPE (R409, R413). -/
  | vst (n : Fin 32) (vd ra : Fin 32) (dtype pred : Fin 8) (imm : BitVec 32)
  /-- VBCAST: S[RA][31:0] to every lane. -/
  | vbcast (n : Fin 32) (vd ra : Fin 32) (dtype pred : Fin 8) (imm : BitVec 32)
  /-- VEXT: S[VD] from lane IMM[5:0] of V[RA], sign-extended. -/
  | vext (n : Fin 32) (vd ra : Fin 32) (dtype pred : Fin 8) (imm : BitVec 32)
  /-- ACCRD: V[VD] from flat accumulator row S[RA][7:0]. -/
  | accrd (n : Fin 32) (vd ra : Fin 32) (dtype pred : Fin 8) (imm : BitVec 32)
  /-- ACCWR: flat accumulator row S[RA][7:0] from V[VD]. -/
  | accwr (n : Fin 32) (vd ra : Fin 32) (dtype pred : Fin 8) (imm : BitVec 32)
  /-- AFLAGS: S[RC] from the sticky flags of tile ACC, which clear. -/
  | aflags (n : Fin 32) (rc ra rb : Fin 32) (dtype : Fin 8) (acc : Fin 4) (accum rsrc : Bool) (rows : Byte)
  /-- WLOAD: the shadow tile from memory (R351, R406, R408). -/
  | wload (n : Fin 32) (rc ra rb : Fin 32) (dtype : Fin 8) (acc : Fin 4) (accum rsrc : Bool) (rows : Byte)
  /-- WLOADT: the shadow tile through the transposed load path. -/
  | wloadt (n : Fin 32) (rc ra rb : Fin 32) (dtype : Fin 8) (acc : Fin 4) (accum rsrc : Bool) (rows : Byte)
  /-- MMA: activation rows stream through the array into tile ACC (R354, R407). -/
  | mma (n : Fin 32) (rc ra rb : Fin 32) (dtype : Fin 8) (acc : Fin 4) (accum rsrc : Bool) (rows : Byte)
  /-- The oldest MMA of core n completes; the report says how its rows were fed and what its checks found (R356 to R361). -/
  | mmaComplete (n : Fin 32) (rep : MmaReport)
  /-- DMA: queues the descriptor at S[RA] (R414). -/
  | dma (n : Fin 32) (rd ra rb : Fin 32)
  /-- DMAWAIT: waits until at most IMM[1:0] DMAs are queued or running. -/
  | dmawait (n : Fin 32) (imm : BitVec 32)
  /-- LREAD: READ on landing S[RA] + IMM (R420). -/
  | lread (n : Fin 32) (rd ra rb : Fin 32) (imm : BitVec 16)
  /-- LINIT: INIT on landing S[RA] + IMM (R420). -/
  | linit (n : Fin 32) (rd ra rb : Fin 32) (imm : BitVec 16)
  /-- LADD: ADD on landing S[RA] + IMM (R420). -/
  | ladd (n : Fin 32) (rd ra rb : Fin 32) (imm : BitVec 16)
  /-- LSET: SET on landing S[RA] + IMM (R420). -/
  | lset (n : Fin 32) (rd ra rb : Fin 32) (imm : BitVec 16)
  /-- LCLR: CLEAR on landing S[RA] + IMM (R420). -/
  | lclr (n : Fin 32) (rd ra rb : Fin 32) (imm : BitVec 16)
  /-- LACQ: ACQUIRE on landing S[RA] + IMM (R420). -/
  | lacq (n : Fin 32) (rd ra rb : Fin 32) (imm : BitVec 16)
  /-- LTRY: TRY on landing S[RA] + IMM (R420). -/
  | ltry (n : Fin 32) (rd ra rb : Fin 32) (imm : BitVec 16)
  /-- LREL: RELEASE on landing S[RA] + IMM (R420). -/
  | lrel (n : Fin 32) (rd ra rb : Fin 32) (imm : BitVec 16)
  /-- LARR: ARRIVE on landing S[RA] + IMM (R420). -/
  | larr (n : Fin 32) (rd ra rb : Fin 32) (imm : BitVec 16)
  /-- LWAIT: WAIT on landing S[RA] + IMM (R420). -/
  | lwait (n : Fin 32) (rd ra rb : Fin 32) (imm : BitVec 16)
  /-- LACK: ACK on landing S[RA] + IMM (R420). -/
  | lack (n : Fin 32) (rd ra rb : Fin 32) (imm : BitVec 16)
  /-- LPUSH: PUSH on landing S[RA] + IMM (R420). -/
  | lpush (n : Fin 32) (rd ra rb : Fin 32) (imm : BitVec 16)
  /-- LTAKE: TAKE on landing S[RA] + IMM (R420). -/
  | ltake (n : Fin 32) (rd ra rb : Fin 32) (imm : BitVec 16)
  /-- LPORT: PORT_STATUS on landing S[RA] + IMM (R420). -/
  | lport (n : Fin 32) (rd ra rb : Fin 32) (imm : BitVec 16)
  /-- LPEEK: PEEK on landing S[RA] + IMM (R420). -/
  | lpeek (n : Fin 32) (rd ra rb : Fin 32) (imm : BitVec 16)
  /-- The DMA engine of core n starts the next queued descriptor and copies its rows (R416). -/
  | dmaDescriptorRun (n : Fin 32)
  /-- The running descriptor of core n completes and applies its signal (R417). -/
  | dmaDescriptorDone (n : Fin 32)
  /-- A gap of core n longer than KEEPER_GAP ends its keeper cycles and ramps the array down (R367). -/
  | keeperRampDown (n : Fin 32)
  /-- An instruction of core n whose OP is reserved (R402). -/
  | reservedOp (n : Fin 32) (op : Byte)
  /-- The zero-fill of gallery pair p ends (R448). -/
  | pairFillDone (p : Fin 8)
  /-- The gallery scrubber completes a pass, or finds an error in a word (R453, R454). -/
  | galleryScrub (find : ScrubFind)
  /-- A regulation window ends at a target, gallery pair 0 to 7 or the DRAM port 8, with what each busy master got
  (R467 to R470). -/
  | balustradeWindowEnd (target : Fin 9) (masters : List BalEvent)
  /-- The initial ring fill of pool q ends (R485). -/
  | poolFillDone (q : Fin 8)
  /-- Pool q's cache reads tickets from its ring (R491, R492) and serves the requests that wait (R497). -/
  | cacheRefill (q : Fin 8)
  /-- Pool q's cache writes its 32 oldest tickets to the ring (R491, R493). -/
  | cacheWriteback (q : Fin 8)
  /-- Newel core k writes an ALLOC request to its CLK_REQUEST (R497, R510, Table CLOK-5); OP is taken as ALLOC. -/
  | alloc (k : Fin 4) (v : Word)
  /-- Newel core k writes a RELEASE of a ticket to its CLK_REQUEST (R507, R510). -/
  | release (k : Fin 4) (ticket : BitVec 32)
  /-- A claim record or cache entry holds an error, corrected when `fixed` (R524). -/
  | claimEccError (fixed : Bool) (what : ClaimPlace)
  /-- A Frame Start of sensor port c's channel; `fixed` says that its header was corrected (R527, R533). -/
  | frameStart (c : Fin 4) (fixed : Bool)
  /-- A matching long packet of port c, with the result of its payload CRC (R527, R528, R535). -/
  | linePacket (c : Fin 4) (fixed crcOk : Bool) (payload : List Byte)
  /-- A matching Frame End (R536). -/
  | frameEnd (c : Fin 4) (fixed : Bool)
  /-- FRAME_TIMEOUT ms after the Frame Start (R537). -/
  | frameTimeout (c : Fin 4)
  /-- Every write of a closed frame of port c has completed (R538). -/
  | frameDelivery (c : Fin 4)
  /-- A skew calibration sequence on port c (R530). -/
  | skewCalibration (c : Fin 4)
  /-- A ULPS exit on port c (R530). -/
  | ulpsExit (c : Fin 4)
  /-- 500 ms after port c's last header (R540). -/
  | streamHoldExpiry (c : Fin 4)
  /-- A packet or burst of port c that matches nothing or is lost (R527, R529, R533). -/
  | otherPacket (c : Fin 4) (k : PacketKind)
  /-- A TDM frame of port n: whether its BCLK count is right, and its slots, left-justified (R546 to R548). -/
  | tdmFrame (n : Fin 2) (good : Bool) (slots : List (BitVec 32))
  /-- A write of ROUTE_SWAP (R551). -/
  | audioRouteSwapWrite (p : Path) (v : Byte)
  /-- Scaler k takes its source: it waits if asked, takes the ticket, numbers the sample and gets its place (R569, R578,
  R592). -/
  | scalerSourceTake (k : Fin 8)
  /-- The sample of scaler k is written; it is delivered and the stage ends (R580, R581). -/
  | scalerJobEnd (k : Fin 8)
  /-- PK_LINGER µs after the oldest reservation of stream t's open batch (R594). -/
  | pkLingerExpiry (t : Fin 4)
  /-- The batch queue delivers the oldest waiting batch of stream t (R599). -/
  | batchDelivery (t : Fin 4)
  /-- The zero-fill of the oldest returned slot of sealed stream t ends (R601). -/
  | batchSlotFillDone (t : Fin 4)
  /-- Entry i of stream t's waiting batches holds an error, corrected when `fixed` (R614). -/
  | batchQueueEccError (fixed : Bool) (t : Fin 4) (i : Byte)
  /-- The picture of decoder e's job reaches its cycle budget (R632). -/
  | decodeBudgetExpiry (e : Fin 2)
  /-- Decoder e writes its picture and its record, pushes the picture and ends its stage (R625). -/
  | decodeJobEnd (e : Fin 2) (rep : DecReport)
  /-- The state of decoder context x holds an error, corrected when `fixed` (R651). -/
  | decoderContextEccError (fixed : Bool) (x : Fin 64)
  /-- The encoder writes its bitstream and its record and ends its stage (R665). -/
  | encodeJobEnd (rep : EncReport)
  /-- A write of KEY_REQUEST of encoder context x (R669). -/
  | keyRequest (p : Path) (x : Fin 16) (v : Byte)
  /-- The state of encoder context x holds an error, corrected when `fixed` (R685). -/
  | encoderContextEccError (fixed : Bool) (x : Fin 16)
  /-- A write of LOAD to NET_CMD (R688). -/
  | netLoad (p : Path) (v : Byte)
  /-- Event i of those in the mesh reaches its router (R699). -/
  | eventRoute (i : BitVec 32)
  /-- A write of the colonnade's ROUTE_SWAP (R703). -/
  | netRouteSwapWrite (p : Path) (v : Byte)
  /-- A write of INJECT (R720). -/
  | inject (p : Path) (v : BitVec 32)
  /-- An error of the colonnade's stores, corrected when `fixed` (R723). -/
  | colonnadeEccError (fixed : Bool) (what : ColnPlace)
  /-- A write of UNSEAL_CORE (R749). -/
  | unsealCore (p : Path) (n : Byte)
  /-- The unseal fill of core n ends (R749). -/
  | unsealFillDone (n : Fin 32)
  /-- A write of CH_CMD of channel ch (R784). -/
  | chCmdInit (p : Path) (ch : Fin 8) (v : Byte)
  /-- The initialisation of channel ch ends, or finds the device unresponsive (R784, R785). -/
  | channelInitDone (ch : Fin 8) (ok : Bool)
  /-- A write of TRIM_ARM of channel ch (R786). -/
  | trimArm (p : Path) (ch : Fin 8) (v : Byte)
  /-- An armed trim of channel ch is applied while the tick unit is STOPPED (R786). -/
  | trimApply (ch : Fin 8)
  /-- A requester writes bytes to DRAM from an address on, or reads as many; what the error checks find at that address
  (R765, R769, R770). -/
  | dramAccess (q : Requester) (a : BitVec 48) (wr : Bool) (bytes : List Byte) (find : DramFind)
  /-- A row of a bank of channel ch has been idle for 64 ns (R772). -/
  | rowClose (ch : Fin 8) (bank : Fin 16)
  /-- Channel ch has been idle for 1 µs (Table DMEM-1). -/
  | channelPowerDownIdle (ch : Fin 8)
  /-- A refresh of a bank of channel ch falls due (R774, R775). -/
  | refresh (ch : Fin 8) (bank : Fin 16)
  /-- The refresh-rate status and the PHY's temperature of channel ch are read (R774, R776, R789). -/
  | refreshRatePoll (ch : Fin 8) (status : Byte) (temp : BitVec 32)
  /-- The 32 ms ZQ latch of channel ch (Table DMEM-1). -/
  | zqLatch (ch : Fin 8)
  /-- What the DRAM scrubber comes to (R771). -/
  | dramScrub (find : ScrubFind)
  /-- Real-time port r's level falls below its panic mark (R777, R779). -/
  | rtPanicEntry (r : Fin 4) (level : BitVec 16)
  /-- Real-time port r's level reaches its recover mark (R777). -/
  | rtPanicExit (r : Fin 4) (level : BitVec 16)
  /-- Condition c of Table GQBS-2 holds for its persistence: 0 OPEN, 1 SHORT_GND, 2 SHORT_SUPPLY, 3 SHORT_LINES (R802,
  R803). -/
  | lineFaultDetect (c : Fin 4)
  /-- The node drives a probe; `found` is the conditions it finds (R804). -/
  | probe (found : BitVec 4)
  /-- A telegram arrives that is a REQUEST or is taken for one; how the response's transmission ends (R815, R824,
  R829). -/
  | gqRequest (t : Telegram) (tx : TxEnd)
  /-- A tick telegram arrives (R815, R836). -/
  | tickTelegramRx (t : Telegram)
  /-- A RESPONSE arrives (R815, R823, R832). -/
  | gqResponseRx (t : Telegram)
  /-- A write of GQM_GO (R832, R834). -/
  | gqmGo (p : Path) (v : Byte)
  /-- The mailbox transmits its request after its idle wait (R820). -/
  | mailboxTx (tx : TxEnd)
  /-- The emitter sends its tick telegram (R835). -/
  | tickTelegramTx (tx : TxEnd)
  /-- A write of DOMAIN_REQ (R855 to R857). -/
  | domainReqWrite (p : Path) (v : BitVec 32)
  /-- A write of POWER_CMD (R862). -/
  | powerCmd (p : Path) (v : Byte)
  /-- A write of GATE (R861). -/
  | gateWrite (p : Path) (v : Byte)
  /-- Domain d reaches power-good (R852, R855). -/
  | domainReady (d : Fin 28)
  /-- Domain d has not reached power-good within twice its ramp time (R854). -/
  | domainRampFail (d : Fin 28)
  /-- A wake request of a source of Table POWR-4 (R867). -/
  | wakeRequest (src : WakeSource)
  /-- A write of PACE_REQ (R870). -/
  | paceReq (p : Path) (v : Byte)
  /-- The 1 ms sample of the hottest junction sensor, in 1/16 °C (R872, R873). -/
  | tjSample (t : BitVec 32)
  /-- A write of AGENT_RESET (R874). -/
  | agentReset (p : Path) (n : Byte)
  /-- A write of FULL to RESET_CMD (R875). -/
  | resetCmdFull (p : Path)
  /-- A write of COLD to RESET_CMD (R876). -/
  | resetCmdCold (p : Path)
  /-- VIN below 10.2 V, or above 14.0 V when `high`, for 10 µs (R877, R984). -/
  | vinLoss (high : Bool) (mv : BitVec 16)
  /-- VIN enters a marginal band (R983). -/
  | vinBandEntry (mv : BitVec 16)
  /-- A read of FLASH_DATA (R891, R892). -/
  | flashRead (p : Path)
  /-- A write of FLASH_DATA (R891, R892). -/
  | flashProgram (p : Path) (data : List Byte)
  /-- A write of FLASH_ERASE (R891, R892). -/
  | flashErase (p : Path) (v : BitVec 32)
  /-- A write of LIFECYCLE_ADVANCE (R896). -/
  | lifecycleAdvance (p : Path) (v : BitVec 32)
  /-- A write of KEY_PROVISION of slot k (R898). -/
  | keyProvision (p : Path) (k : Fin 4) (data : List Byte)
  /-- A write of KEY_REVOKE of slot k (R899). -/
  | keyRevoke (p : Path) (k : Fin 4) (v : Byte)
  /-- A write of SEC_EPOCH_COMMIT (R900). -/
  | secEpochCommit (p : Path) (v : Byte)
  /-- A write of PERSIST_ENTRY n (R909). -/
  | persistEntry (p : Path) (n : Fin 32) (data : List Byte)
  /-- A write of PERSIST_CLEAR (R909). -/
  | persistClear (p : Path) (v : Byte)
  /-- A write of PERSIST_COMMIT (R910). -/
  | persistCommit (p : Path) (v : Byte)
  /-- A persist commit ends (R910, R911). -/
  | persistCommitDone (res : CommitEnd)
  /-- A write of CAL_NOW (R913). -/
  | calNow (p : Path) (v : Word)
  /-- A write of ALARM_ENABLE (R914). -/
  | alarmEnable (p : Path) (v : Byte)
  /-- A write of TRC_FLUSH (R942). -/
  | trcFlush (p : Path) (v : Byte)
  /-- An error of the trace buffer: corrected when `fixed`, or uncorrectable in a packet of type ty, whose `len` bytes begin `off`
  bytes into the buffer (R970). -/
  | traceBufferEccError (fixed : Bool) (ty : Fin 16) (off : BitVec 14) (len : BitVec 5)
  /-- TAP instruction SAMPLE/PRELOAD: the pin levels sampled and the cells preloaded, in pin order (R947). -/
  | samplePreload (pins pre : BitVec 58)
  /-- DAP operation READ (R949, R950). -/
  | dapRead (quiet : Bool) (size : Fin 8) (a : BitVec 48)
  /-- DAP operation WRITE (R949). -/
  | dapWrite (size : Fin 8) (a : BitVec 48) (d : Word)
  /-- DAP operation HALT (R953). -/
  | dapHalt (agent : Fin 128)
  /-- A halt that was asked for takes effect (R953). -/
  | haltTakesEffect (agent : Fin 36)
  /-- DAP operation RESUME (R956). -/
  | dapResume (agent : Fin 128)
  /-- DAP operation STEP (R955). -/
  | dapStep (agent : Fin 128)
  /-- DAP operation REG_READ (R958). -/
  | dapRegRead (agent : Fin 128) (sel : BitVec 16)
  /-- DAP operation REG_WRITE (R958). -/
  | dapRegWrite (agent : Fin 128) (sel : BitVec 16) (d : Word)
  /-- DAP operation CHALLENGE (R960). -/
  | dapChallenge (i : Fin 4)
  /-- DAP operation RESPOND (R961). -/
  | dapRespond (d : Word)
  /-- A write of DBG_END (R963). -/
  | dbgEnd (p : Path) (v : Byte)
  /-- A write of GPIO_FUNC of pin g (R979). -/
  | gpioFunc (p : Path) (g : Fin 16) (v : Byte)
  /-- Pin g's park ends (R979). -/
  | pinParkEnd (g : Fin 16)
  /-- A write of GPIO_PULL of pin g (R977). -/
  | gpioPull (p : Path) (g : Fin 16) (v : Byte)
  /-- A read of FAULT_NEXT (R1010). -/
  | faultNext (p : Path)
  /-- A read of LOST_NEXT (R1023). -/
  | lostNext (p : Path)
  /-- A read of LOST_ALL (R1023). -/
  | lostAll (p : Path)
  /-- A log record, lost-item entry or mirror entry holds an error, corrected when `fixed` (R1029). -/
  | faultLogEccError (fixed : Bool) (what : EccPlace)
  /-- A qualified rising edge on TICK_IN (R17). -/
  | tickInEdge
  /-- The tick point of the accepted GQ tick telegram (R836). -/
  | gqTickPoint
  /-- The INTERNAL counter reaches the period (R15). -/
  | periodExpiry
  /-- No arrival by c = U (R23). -/
  | flywheelPoint
  /-- No arrival in ACQUIRE by c = 3T/2 (R32). -/
  | acquireSynthetic
  /-- TICK_OUT falls (R19, R20). -/
  | tickOutPulseEnd
  /-- The sweep of the epoch starts (R49). -/
  | sweepStart
  /-- PE_RST_N is asserted (R150). -/
  | peRstNAssert
  /-- A PCI Express hot reset (R150). -/
  | hotReset
  /-- The link goes to DL_Down (R150). -/
  | linkDown
  /-- Bus Master Enable of PF1 is cleared (R197). -/
  | bmeClear
  /-- The ring engine issues descriptor reads for the next tenancy with work (R172, R173). -/
  | descriptorFetch
  /-- A correctable PCI Express link error (R215). -/
  | correctableLinkError
  /-- The loader has read the header and the tables and makes checks 1 to 11 (R312). -/
  | loadTablesRead
  /-- The loader has copied the next section and makes check 12 (R310, R312). -/
  | loadSectionCopied
  /-- The loader makes check 13 and the image becomes resident (R311, R314). -/
  | loadSignatureCheck
  /-- The zero-fill of the oldest freed sealed buffer ends (R509). -/
  | sealedBufferFillDone
  /-- Four expected FSYNCs of the audio clock's source have been missed (R543). -/
  | holdover
  /-- The end of an audio sample period (R55, R552, R553). -/
  | audioSamplePeriod
  /-- The 48th sample period makes a timestep mark (R545). -/
  | timestepMark
  /-- Audio ingress writes the timestep just ended into the rings (R554). -/
  | audioRingWrite
  /-- The net load ends (R689). -/
  | netLoadDone
  /-- The zero-fill of the oldest range that leaves the sealed set ends (R747). -/
  | sealFillDone
  /-- The line is REVERSED for its persistence (R805). -/
  | polaritySwap
  /-- No line condition has held for 1 ms (R804). -/
  | lineRecovery
  /-- 150 bit times after the mailbox's request no response has started (R822). -/
  | masterTimeout
  /-- A tick telegram has not started its SD within 640 cycles (R835). -/
  | tickTelegramAbandon
  /-- The power controller starts the next ramp (R853). -/
  | domainRampStart
  /-- The power controller isolates the next domain and removes its supply (R853). -/
  | domainPowerDown
  /-- PE_RST_N rises (Table POWR-4, R152). -/
  | peRstNRelease
  /-- The core supply finishes its ramp (R870). -/
  | paceRampDone
  /-- A cold reset that was ordered is carried out (R876). -/
  | coldReset
  /-- Step 1 of a full device reset ends (R200, R201). -/
  | resetTakesHold
  /-- Step 2 of a full device reset ends (R747). -/
  | resetFillEnd
  /-- Step 3 of a full device reset ends. -/
  | resetHoldEnd
  /-- Step 4 of a full device reset ends. -/
  | resetDone
  /-- MOD_RST_N has been low past the full-reset threshold (R991). -/
  | modRstNFullThreshold
  /-- MOD_RST_N has been low past the cold-reset threshold (R991). -/
  | modRstNColdThreshold
  /-- MOD_RST_N rises (R991). -/
  | modRstNRise
  /-- VIN has stayed in range for 1 ms (R982). -/
  | vinValid
  /-- VAON becomes valid (R981, R902). -/
  | vaonValid
  /-- VAON becomes invalid (R986). -/
  | vaonLoss
  /-- SYSREF has been absent for 10 µs (R888). -/
  | sysrefAbsent
  /-- SYSREF has run for 10 µs again (R888). -/
  | sysrefReturn
  /-- D1 is ready: the headers of both firmware slots are read (R903, Table BOOT-6). -/
  | firmwareBoot
  /-- The verification of the present candidate ends (R904, R905). -/
  | firmwareVerifyDone
  /-- Step 7 of the boot sequence (R903, R782). -/
  | firmwareRunning
  /-- A flash program or erase ends (R892). -/
  | flashOpDone
  /-- A fuse burn ends (R901). -/
  | fuseBurnDone
  /-- The calendar's second ends (R912). -/
  | calendarSecond
  /-- The trace unit writes its oldest complete line to the sink (R941, R943). -/
  | sinkLineWrite
  /-- The open line has held packets for 100 µs (R942). -/
  | lineFlushTimeout
  /-- TAP instruction BYPASS (R946). -/
  | bypass
  /-- TAP instruction IDCODE (R946). -/
  | idcode
  /-- TAP instruction EXTEST (R1002). -/
  | extest
  /-- TAP instruction CLAMP (R1002). -/
  | clamp
  /-- TAP instruction HIGHZ (R1002). -/
  | highz
  /-- TAP instruction DAP (R948). -/
  | dap
  /-- Test-Logic-Reset (R946). -/
  | testLogicReset
  /-- TRST_N goes low (R963). -/
  | trstNLow
  /-- DAP operation NOP (Table CHRN-5). -/
  | dapNop
  /-- DAP operation LOCK (R963). -/
  | dapLock
  /-- The verification of a response ends (R962). -/
  | authVerifyDone
  /-- 1 s after a failed response (R962). -/
  | authLockoutEnd
  deriving DecidableEq, Repr

end Sys2Proof
end

