-- ==== Sys2Proof/Decode.lean ====
section
/-!
DEFINITION. Commands read from the opcode table's bits. The table gives no row of this block any bits: commands arrive on
pins, buses and registers, so no word spells one (notes/assumptions/1.md). The instructions of a matrix core are words of
its program: `coreInstr` reads them.
-/

namespace Sys2Proof

/-- The command that a word of the opcode table spells: none, as no row has bits. -/
def decodeTableWord (_nbits _w : Nat) : Option Instr := none

/-- The field of an instruction word that starts at bit `lo` and takes m values, m a power of two. -/
def wordField (w : Word) (lo m : Nat) [NeZero m] : Fin m := Fin.ofNat m (w.toNat / 2 ^ lo)

/-- The instruction of core n that a 64-bit word spells: OP in bits [63:56], the other fields by the format of OP
(R401, Tables CORE-4 and CORE-5). Reserved fields are not looked at, and an OP without a row is a reserved OP (R402).
A format with fewer fields takes them from the same places: r1, r2 and r3 are [55:51], [50:46] and [45:41]. -/
def coreInstr (n : Fin 32) (w : Word) : Instr :=
  let r1 : Fin 32 := wordField w 51 32
  let r2 : Fin 32 := wordField w 46 32
  let r3 : Fin 32 := wordField w 41 32
  let imm := w.extractLsb' 0 32
  match w.toNat / 2 ^ 56 with
  | 0x00 => .nop n imm
  | 0x01 => .endStage n imm
  | 0x02 => .fence n imm
  | 0x03 => .fail n imm
  | 0x04 => .tmark n imm
  | 0x05 => .outadd n r1 r2 imm
  | 0x06 => .shget n r1 r2 imm
  | 0x07 => .shset n r1 r2 imm
  | 0x08 => .planrd n r1 r2 imm
  | 0x10 => .add n r1 r2 r3
  | 0x11 => .sub n r1 r2 r3
  | 0x12 => .mul n r1 r2 r3
  | 0x13 => .and n r1 r2 r3
  | 0x14 => .or n r1 r2 r3
  | 0x15 => .xor n r1 r2 r3
  | 0x16 => .shl n r1 r2 r3
  | 0x17 => .shr n r1 r2 r3
  | 0x18 => .sra n r1 r2 r3
  | 0x19 => .slt n r1 r2 r3
  | 0x1A => .sltu n r1 r2 r3
  | 0x1B => .min n r1 r2 r3
  | 0x1C => .max n r1 r2 r3
  | 0x20 => .addi n r1 r2 imm
  | 0x21 => .andi n r1 r2 imm
  | 0x22 => .ori n r1 r2 imm
  | 0x23 => .xori n r1 r2 imm
  | 0x24 => .shli n r1 r2 imm
  | 0x25 => .shri n r1 r2 imm
  | 0x26 => .srai n r1 r2 imm
  | 0x27 => .lui n r1 r2 imm
  | 0x30 => .beq n r2 r3 imm
  | 0x31 => .bne n r2 r3 imm
  | 0x32 => .blt n r2 r3 imm
  | 0x33 => .bge n r2 r3 imm
  | 0x34 => .bltu n r2 r3 imm
  | 0x35 => .bgeu n r2 r3 imm
  | 0x36 => .jmp n r2 r3 imm
  | 0x37 => .jal n r1 r2 imm
  | 0x38 => .jr n r1 r2 r3
  | 0x40 => .ld n r1 r2 (wordField w 44 4) imm
  | 0x41 => .lds n r1 r2 (wordField w 44 4) imm
  | 0x42 => .st n r1 r2 (wordField w 44 4) imm
  | 0x50 => .vadd n r1 r2 r3 (wordField w 38 8) (wordField w 35 8) (wordField w 32 8) imm
  | 0x51 => .vsub n r1 r2 r3 (wordField w 38 8) (wordField w 35 8) (wordField w 32 8) imm
  | 0x52 => .vmul n r1 r2 r3 (wordField w 38 8) (wordField w 35 8) (wordField w 32 8) imm
  | 0x53 => .vfma n r1 r2 r3 (wordField w 38 8) (wordField w 35 8) (wordField w 32 8) imm
  | 0x54 => .vmin n r1 r2 r3 (wordField w 38 8) (wordField w 35 8) (wordField w 32 8) imm
  | 0x55 => .vmax n r1 r2 r3 (wordField w 38 8) (wordField w 35 8) (wordField w 32 8) imm
  | 0x56 => .vand n r1 r2 r3 (wordField w 38 8) (wordField w 35 8) (wordField w 32 8) imm
  | 0x57 => .vor n r1 r2 r3 (wordField w 38 8) (wordField w 35 8) (wordField w 32 8) imm
  | 0x58 => .vxor n r1 r2 r3 (wordField w 38 8) (wordField w 35 8) (wordField w 32 8) imm
  | 0x59 => .vsra n r1 r2 r3 (wordField w 38 8) (wordField w 35 8) (wordField w 32 8) imm
  | 0x5A => .vcvt n r1 r2 r3 (wordField w 38 8) (wordField w 35 8) (wordField w 32 8) imm
  | 0x5B => .vcmp n r1 r2 r3 (wordField w 38 8) (wordField w 35 8) (wordField w 32 8) imm
  | 0x5C => .vsel n r1 r2 r3 (wordField w 38 8) (wordField w 35 8) (wordField w 32 8) imm
  | 0x5D => .vact n r1 r2 r3 (wordField w 38 8) (wordField w 35 8) (wordField w 32 8) imm
  | 0x5E => .vred n r1 r2 r3 (wordField w 38 8) (wordField w 35 8) (wordField w 32 8) imm
  | 0x60 => .vld n r1 r2 (wordField w 43 8) (wordField w 40 8) imm
  | 0x61 => .vst n r1 r2 (wordField w 43 8) (wordField w 40 8) imm
  | 0x62 => .vbcast n r1 r2 (wordField w 43 8) (wordField w 40 8) imm
  | 0x63 => .vext n r1 r2 (wordField w 43 8) (wordField w 40 8) imm
  | 0x64 => .accrd n r1 r2 (wordField w 43 8) (wordField w 40 8) imm
  | 0x65 => .accwr n r1 r2 (wordField w 43 8) (wordField w 40 8) imm
  | 0x66 => .aflags n r1 r2 r3 (wordField w 38 8) (wordField w 36 4) (w.getLsbD 35) (w.getLsbD 34) (w.extractLsb' 26 8)
  | 0x70 => .wload n r1 r2 r3 (wordField w 38 8) (wordField w 36 4) (w.getLsbD 35) (w.getLsbD 34) (w.extractLsb' 26 8)
  | 0x71 => .wloadt n r1 r2 r3 (wordField w 38 8) (wordField w 36 4) (w.getLsbD 35) (w.getLsbD 34) (w.extractLsb' 26 8)
  | 0x72 => .mma n r1 r2 r3 (wordField w 38 8) (wordField w 36 4) (w.getLsbD 35) (w.getLsbD 34) (w.extractLsb' 26 8)
  | 0x80 => .dma n r1 r2 r3
  | 0x81 => .dmawait n imm
  | 0x90 => .lread n r1 r2 r3 (w.extractLsb' 0 16)
  | 0x91 => .linit n r1 r2 r3 (w.extractLsb' 0 16)
  | 0x92 => .ladd n r1 r2 r3 (w.extractLsb' 0 16)
  | 0x93 => .lset n r1 r2 r3 (w.extractLsb' 0 16)
  | 0x94 => .lclr n r1 r2 r3 (w.extractLsb' 0 16)
  | 0x95 => .lacq n r1 r2 r3 (w.extractLsb' 0 16)
  | 0x96 => .ltry n r1 r2 r3 (w.extractLsb' 0 16)
  | 0x97 => .lrel n r1 r2 r3 (w.extractLsb' 0 16)
  | 0x98 => .larr n r1 r2 r3 (w.extractLsb' 0 16)
  | 0x99 => .lwait n r1 r2 r3 (w.extractLsb' 0 16)
  | 0x9A => .lack n r1 r2 r3 (w.extractLsb' 0 16)
  | 0x9B => .lpush n r1 r2 r3 (w.extractLsb' 0 16)
  | 0x9C => .ltake n r1 r2 r3 (w.extractLsb' 0 16)
  | 0x9D => .lport n r1 r2 r3 (w.extractLsb' 0 16)
  | 0x9E => .lpeek n r1 r2 r3 (w.extractLsb' 0 16)
  | _ => .reservedOp n (w.extractLsb' 56 8)

end Sys2Proof
end

