-- ==== Sys2Proof/Config.lean ====
section
/-!
DEFINITION. What an implementation fixes and what the spec leaves open: constants without a body. No proof can see
their values, so a statement holds whatever they are. Each has its entry in notes/assumptions.
-/

namespace Sys2Proof

/-- A value the spec leaves open, drawn at a free-value counter (fresh each time the counter has advanced). -/
opaque Config.freeNat : Nat → Nat

/-- The free lanes of a vector or array instruction: drawn at the free-value counter, by lane. -/
opaque Config.freeLane : Nat → Nat → BitVec 32

/-- The fused serial number (R890, Table BOOT-3). -/
opaque Config.serial : BitVec 128

/-- The fused vendor ID's module data that the factory block holds: MODULE_ID and BUILD_DATE (Table BOOT-1). -/
opaque Config.moduleId : List (BitVec 8)

opaque Config.buildDate : Nat

/-- The GQ_ADDR pins: the node's address, 0 to 31 (R807). -/
opaque Config.gqAddr : Fin 32

/-- The bit errors that come to words of gallery, alcove and DRAM on each SYSREF edge, by address ÷ 8: whether one is
uncorrectable (R450, R397, R769). -/
opaque Config.upsets : Nat → List (Nat × Bool)

/-- The bit errors that come to accumulator entries on each SYSREF edge: core, entry, whether one is uncorrectable (R390). -/
opaque Config.accUpsets : Nat → List (Nat × Nat × Bool)

/-- What the next concourse transfers after each SYSREF edge meet: no error, a corrected one (true) or an uncorrectable one
(R480). -/
opaque Config.transfers : Nat → List (Option Bool)

/-- The pairs of arrays whose seam check would fail after each SYSREF edge, one bit each (R374). -/
opaque Config.seamBad : Nat → Nat

/-- The level of TICK_IN at the pin on each SYSREF edge (R17). -/
opaque Config.tickIn : Nat → Bool

/-- The BOOT_SEL pin: which flash the AON controller boots from (R890). -/
opaque Config.bootSel : Bool

/-- The encoder's λ of a QP, the bits of the vector difference of a vector for the partition at a place, the filter of a level, a
codec's filter between samples, and the luma samples of a reconstruction in its slot: the spec names them and does not state
them (R671, R672). -/
opaque Config.encLambda : Nat → Nat
opaque Config.encVectorBits : (codec x y : Nat) → (vx vy : Int) → Nat
opaque Config.encLevel : List Nat → (w h : Nat) → List Nat
opaque Config.encFilter : (codec : Nat) → List Nat → (fx fy : Nat) → Nat
opaque Config.encLuma : (codec : Nat) → List (BitVec 8) → (w h : Nat) → List Nat

/-- The off-module flash on the board, as R993 asks of it: it answers, its bytes, and what its SFDP tables show. -/
structure OffFlash where
  answers : Bool
  bytes : Nat
  quadDdr : Bool
  pageProgram : Bool
  sectorErase : Bool
  deriving DecidableEq, Repr, Inhabited

/-- The flash that the board gives the EXTFL pins. -/
opaque Config.offFlash : OffFlash

end Sys2Proof
end

