-- ==== Sys2Proof/Machine/Objects.lean ====
section
/-!
DEFINITION. The object dictionary's table: every object of Tables INDX-2 to INDX-6 with its type, access right,
roles, default and range (R1030 to R1034, and the object tables of the owning chapters), the key of each object by
its name, and the checks a single write meets (R93 to R96, R103, R1037). Nothing here depends on the machine's state.
-/
namespace Sys2Proof.Machine

/-- The data types of Table DICT-2. -/
inductive ObjTy where
  | u8 | u16 | u32 | u64 | i32 | bool | enum8 | date | str32 | blob
  deriving DecidableEq, Repr

/-- The access rights of Table DICT-4. -/
inductive Access where
  | RO | WO | RW | RS | RC | CONST
  deriving DecidableEq, Repr

/-- The role codes of Table INDX-1; `N` is PERSIST_ENTRY's own rule (roles A for n 0 to 23, F for n 24 to 31). -/
inductive Roles where
  | A | B | C | D | E | H | G | P | F | K | N
  deriving DecidableEq, Repr

/-- The range of an object, as its owning chapter's Range column or the rule it names gives it. -/
inductive Rng where
  /-- Any value of the type. -/
  | any
  /-- From `lo` to `hi`, a multiple of `step`. -/
  | span (lo hi step : Nat)
  /-- One of the listed values. -/
  | set (l : List Nat)
  /-- A power of two from `lo` to `hi`. -/
  | pow2 (lo hi : Nat)
  /-- Zero, or a value of the range. -/
  | orZero (r : Rng)
  /-- A multiple of `step` in the gallery or DRAM region (Table TOUR-3). -/
  | galDram (step : Nat)
  /-- A multiple of `step` in the DRAM region. -/
  | dram (step : Nat)
  /-- A multiple of `step` in the DRAM region or the host window range. -/
  | dramWin (step : Nat)
  /-- A landing word whose landing must carry a payload port (0x0000 to 0x0FFF). -/
  | landing12
  /-- A two's complement value from -m to m. -/
  | i32 (m : Nat)
  /-- A valid instant (R94). -/
  | date
  /-- A domain set (R856). -/
  | domains
  /-- A stage word (R266). -/
  | stage
  /-- An owner entry (Table CLOK-4). -/
  | owner
  /-- An audio route word (Table PORT-7). -/
  | audRoute
  /-- A cloakroom request word (Table CLOK-5). -/
  | clkReq
  /-- A real-time port's mark: 0 to its buffer size (Table DMEM-5). -/
  | rtMark
  /-- An agent that AGENT_RESET may name (0 to 38, 40 to 47). -/
  | agentReset
  deriving DecidableEq, Repr

/-- What the dictionary knows of one object; `mask` holds the bits that are not reserved (R6, R1037). -/
structure ObjDef where
  ty : ObjTy
  acc : Access
  roles : Roles
  dflt : Nat
  rng : Rng
  mask : Nat
  deriving DecidableEq, Repr

/-- A family of objects: indices `base` to `base + count - 1`, subindices `lo` to `hi` (R1034). -/
structure ObjRow where
  base : Nat
  count : Nat
  lo : Nat
  hi : Nat
  d : ObjDef
  deriving DecidableEq, Repr

/-- Objects of range 0x1000. -/
def objRows10 : List ObjRow := [
  ⟨0x1000, 1, 0x1, 0x1, ⟨.str32, .CONST, .B, 0x0, .any, 0xffffffffffffffffffffffffffffffffffffffffffffffffffffffffffffffff⟩⟩,
  ⟨0x1000, 1, 0x2, 0x2, ⟨.str32, .CONST, .B, 0x0, .any, 0xffffffffffffffffffffffffffffffffffffffffffffffffffffffffffffffff⟩⟩,
  ⟨0x1000, 1, 0x3, 0x3, ⟨.u16, .CONST, .B, 0xA1A0, .any, 0xffff⟩⟩,
  ⟨0x1000, 1, 0x4, 0x4, ⟨.u32, .CONST, .B, 0x48614860, .any, 0xffffffff⟩⟩,
  ⟨0x1000, 1, 0x5, 0x5, ⟨.u8, .CONST, .B, 0x10, .any, 0xff⟩⟩,
  ⟨0x1000, 1, 0x6, 0x6, ⟨.blob, .CONST, .B, 0x0, .any, 0x0⟩⟩,
  ⟨0x1000, 1, 0x7, 0x7, ⟨.str32, .RO, .B, 0x0, .any, 0xffffffffffffffffffffffffffffffffffffffffffffffffffffffffffffffff⟩⟩,
  ⟨0x1000, 1, 0x8, 0x8, ⟨.date, .RO, .B, 0x0, .any, 0xffffffffffffffff⟩⟩,
  ⟨0x1000, 1, 0x9, 0x9, ⟨.u32, .RO, .B, 0x0, .any, 0xffffffff⟩⟩,
  ⟨0x1000, 1, 0xA, 0xA, ⟨.enum8, .RO, .B, 0x0, .any, 0xff⟩⟩,
  ⟨0x1000, 1, 0xB, 0xB, ⟨.u16, .CONST, .B, 0x1, .any, 0xffff⟩⟩,
  ⟨0x1000, 1, 0xC, 0xC, ⟨.u8, .CONST, .B, 0x8, .any, 0xff⟩⟩,
  ⟨0x1000, 1, 0xD, 0xD, ⟨.bool, .RO, .A, 0x0, .any, 0xff⟩⟩]

/-- Objects of range 0x1100. -/
def objRows11 : List ObjRow := [
  ⟨0x1100, 1, 0x1, 0x1, ⟨.date, .RW, .C, 0x10107D0, .date, 0x00FFFFFFFFFFFFFF⟩⟩,
  ⟨0x1100, 1, 0x2, 0x2, ⟨.u8, .RO, .B, 0x0, .any, 0xff⟩⟩,
  ⟨0x1100, 1, 0x3, 0x3, ⟨.date, .RW, .A, 0x10107D0, .date, 0x00FFFFFFFFFFFFFF⟩⟩,
  ⟨0x1100, 1, 0x4, 0x4, ⟨.bool, .RW, .A, 0x0, .span 0 1 1, 0xff⟩⟩,
  ⟨0x1100, 1, 0x5, 0x5, ⟨.i32, .RW, .A, 0x0, .i32 1023, 0xffffffff⟩⟩,
  ⟨0x1100, 1, 0x6, 0x6, ⟨.u16, .RO, .A, 0x0, .any, 0xffff⟩⟩,
  ⟨0x1100, 1, 0x7, 0x7, ⟨.u32, .RC, .A, 0x0, .any, 0xffffffff⟩⟩]

/-- Objects of range 0x1200. -/
def objRows12 : List ObjRow := [
  ⟨0x1200, 1, 0x1, 0x1, ⟨.enum8, .RO, .A, 0x0, .any, 0xff⟩⟩,
  ⟨0x1200, 1, 0x2, 0x2, ⟨.enum8, .RO, .A, 0x0, .any, 0xff⟩⟩,
  ⟨0x1200, 1, 0x3, 0x3, ⟨.u32, .RO, .A, 0x0, .any, 0xffffffff⟩⟩,
  ⟨0x1200, 1, 0x4, 0x4, ⟨.bool, .WO, .A, 0x0, .set [1], 0xff⟩⟩,
  ⟨0x1200, 1, 0x5, 0x5, ⟨.enum8, .RO, .A, 0x0, .any, 0xff⟩⟩,
  ⟨0x1200, 1, 0x6, 0x6, ⟨.u32, .RO, .A, 0x0, .any, 0xffffffff⟩⟩,
  ⟨0x1200, 1, 0x7, 0x7, ⟨.bool, .RO, .A, 0x0, .any, 0xff⟩⟩,
  ⟨0x1200, 1, 0x8, 0x8, ⟨.u8, .WO, .A, 0x0, .span 0 31 1, 0xff⟩⟩,
  ⟨0x1210, 32, 0x1, 0x1, ⟨.blob, .RW, .N, 0x0, .any, 0x0⟩⟩]

/-- Objects of range 0x1F00. -/
def objRows1F : List ObjRow := [
  ⟨0x1F00, 1, 0x1, 0x1, ⟨.u16, .CONST, .A, 0x100, .any, 0xffff⟩⟩,
  ⟨0x1F00, 1, 0x2, 0x2, ⟨.u16, .RO, .A, 0x0, .any, 0xffff⟩⟩,
  ⟨0x1F00, 1, 0x3, 0x3, ⟨.blob, .RC, .A, 0x0, .any, 0x0⟩⟩,
  ⟨0x1F00, 1, 0x4, 0x4, ⟨.u32, .RC, .A, 0x0, .any, 0xffffffff⟩⟩,
  ⟨0x1F00, 1, 0x5, 0x5, ⟨.bool, .RW, .P, 0x1, .span 0 1 1, 0xff⟩⟩,
  ⟨0x1F00, 1, 0x6, 0x6, ⟨.enum8, .RW, .P, 0x0, .span 0 4 1, 0xff⟩⟩,
  ⟨0x1F00, 1, 0x7, 0x7, ⟨.blob, .RO, .A, 0x0, .any, 0x0⟩⟩,
  ⟨0x1F10, 1, 0x1, 0x5, ⟨.u32, .RC, .A, 0x0, .any, 0xffffffff⟩⟩,
  ⟨0x1F40, 1, 0x1, 0x1, ⟨.u16, .RO, .A, 0x0, .any, 0xffff⟩⟩,
  ⟨0x1F40, 1, 0x2, 0x2, ⟨.blob, .RC, .A, 0x0, .any, 0x0⟩⟩,
  ⟨0x1F40, 1, 0x3, 0x3, ⟨.blob, .RC, .A, 0x0, .any, 0x0⟩⟩,
  ⟨0x1F40, 1, 0x4, 0x4, ⟨.u32, .RC, .A, 0x0, .any, 0xffffffff⟩⟩]

/-- Objects of range 0x2000. -/
def objRows20 : List ObjRow := [
  ⟨0x2000, 1, 0x1, 0x1, ⟨.enum8, .RO, .B, 0x1, .any, 0xff⟩⟩,
  ⟨0x2000, 1, 0x2, 0x2, ⟨.enum8, .WO, .A, 0x0, .span 1 4 1, 0xff⟩⟩,
  ⟨0x2000, 1, 0x3, 0x3, ⟨.u32, .RW, .A, 0x1, .domains, 0x0FFFFFFF⟩⟩,
  ⟨0x2000, 1, 0x4, 0x4, ⟨.bool, .RW, .A, 0x1, .span 0 1 1, 0xff⟩⟩,
  ⟨0x2000, 1, 0x5, 0x5, ⟨.u32, .RO, .B, 0x1, .any, 0xffffffff⟩⟩,
  ⟨0x2000, 1, 0x6, 0x6, ⟨.u32, .RO, .A, 0x0, .any, 0xffffffff⟩⟩,
  ⟨0x2000, 1, 0x7, 0x7, ⟨.u32, .RW, .A, 0x7FFFFFF, .domains, 0x0FFFFFFF⟩⟩,
  ⟨0x2000, 1, 0x8, 0x8, ⟨.enum8, .RW, .A, 0x3, .set [1, 2, 3], 0xff⟩⟩,
  ⟨0x2000, 1, 0x9, 0x9, ⟨.u8, .RW, .A, 0xF, .any, 0x0F⟩⟩,
  ⟨0x2000, 1, 0xA, 0xA, ⟨.enum8, .RW, .A, 0x3, .set [0, 3, 4], 0xff⟩⟩,
  ⟨0x2000, 1, 0xB, 0xB, ⟨.u8, .RC, .A, 0x0, .any, 0xff⟩⟩,
  ⟨0x2000, 1, 0xC, 0xC, ⟨.enum8, .WO, .A, 0x0, .set [1, 2], 0xff⟩⟩,
  ⟨0x2000, 1, 0xD, 0xD, ⟨.u8, .WO, .A, 0x0, .agentReset, 0xff⟩⟩,
  ⟨0x2000, 1, 0xE, 0xE, ⟨.enum8, .RO, .A, 0x0, .any, 0xff⟩⟩,
  ⟨0x2000, 1, 0xF, 0xF, ⟨.enum8, .RC, .A, 0x0, .any, 0xff⟩⟩,
  ⟨0x2000, 1, 0x10, 0x10, ⟨.u32, .RC, .A, 0x0, .any, 0xffffffff⟩⟩,
  ⟨0x2000, 1, 0x11, 0x11, ⟨.i32, .RO, .B, 0x0, .any, 0xffffffff⟩⟩,
  ⟨0x2000, 1, 0x12, 0x12, ⟨.u16, .RO, .A, 0x0, .any, 0xffff⟩⟩,
  ⟨0x2000, 1, 0x13, 0x13, ⟨.u16, .RO, .A, 0x0, .any, 0xffff⟩⟩,
  ⟨0x2000, 1, 0x14, 0x14, ⟨.u32, .RO, .A, 0x0, .any, 0xffffffff⟩⟩,
  ⟨0x2000, 1, 0x15, 0x15, ⟨.u16, .RO, .A, 0x0, .any, 0xffff⟩⟩,
  ⟨0x2000, 1, 0x16, 0x16, ⟨.u32, .RO, .A, 0x0, .any, 0xffffffff⟩⟩]

/-- Objects of range 0x2100. -/
def objRows21 : List ObjRow := [
  ⟨0x2100, 1, 0x1, 0x1, ⟨.u8, .RW, .A, 0x3, .span 0 3 1, 0xff⟩⟩,
  ⟨0x2100, 1, 0x2, 0x2, ⟨.u8, .RO, .B, 0x3, .any, 0xff⟩⟩,
  ⟨0x2100, 1, 0x3, 0x3, ⟨.u8, .RO, .B, 0x3, .any, 0xff⟩⟩,
  ⟨0x2100, 1, 0x4, 0x4, ⟨.u16, .RO, .B, 0x4B0, .any, 0xffff⟩⟩,
  ⟨0x2100, 1, 0x5, 0x5, ⟨.u16, .RO, .B, 0x3E8, .any, 0xffff⟩⟩,
  ⟨0x2100, 1, 0x6, 0x6, ⟨.u8, .RW, .A, 0x69, .span 85 115 1, 0xff⟩⟩,
  ⟨0x2100, 1, 0x7, 0x7, ⟨.u32, .RC, .A, 0x0, .any, 0xffffffff⟩⟩,
  ⟨0x2100, 1, 0x8, 0x8, ⟨.u32, .RC, .A, 0x0, .any, 0xffffffff⟩⟩,
  ⟨0x2100, 1, 0x9, 0x9, ⟨.bool, .RO, .A, 0x1, .any, 0xff⟩⟩]

/-- Objects of range 0x2200. -/
def objRows22 : List ObjRow := [
  ⟨0x2200, 1, 0x1, 0x1, ⟨.u8, .CONST, .B, 0x10, .any, 0xff⟩⟩,
  ⟨0x2200, 1, 0x2, 0x2, ⟨.u16, .RO, .A, 0x0, .any, 0xffff⟩⟩,
  ⟨0x2200, 1, 0x3, 0x3, ⟨.u16, .RW, .A, 0x0, .any, 0xffff⟩⟩,
  ⟨0x2200, 1, 0x4, 0x4, ⟨.u32, .RC, .A, 0x0, .any, 0xffffffff⟩⟩,
  ⟨0x2210, 16, 0x1, 0x1, ⟨.enum8, .RW, .A, 0x0, .span 0 5 1, 0xff⟩⟩,
  ⟨0x2210, 16, 0x2, 0x2, ⟨.enum8, .RW, .A, 0x1, .set [0, 1, 2], 0xff⟩⟩]

/-- Objects of range 0x2800. -/
def objRows28 : List ObjRow := [
  ⟨0x2800, 1, 0x1, 0x1, ⟨.u32, .RS, .A, 0x411B, .span 4000 100000 1, 0xffffffff⟩⟩,
  ⟨0x2800, 1, 0x2, 0x2, ⟨.enum8, .RS, .A, 0x0, .span 0 3 1, 0xff⟩⟩,
  ⟨0x2800, 1, 0x3, 0x3, ⟨.u32, .RS, .A, 0x190, .span 0 2000 1, 0xffffffff⟩⟩,
  ⟨0x2800, 1, 0x4, 0x4, ⟨.enum8, .RW, .A, 0x1, .span 0 2 1, 0xff⟩⟩,
  ⟨0x2800, 1, 0x5, 0x5, ⟨.bool, .RS, .A, 0x0, .span 0 1 1, 0xff⟩⟩,
  ⟨0x2800, 1, 0x6, 0x6, ⟨.enum8, .RO, .B, 0x0, .any, 0xff⟩⟩,
  ⟨0x2800, 1, 0x7, 0x7, ⟨.u32, .RO, .B, 0xFFFFFFFF, .any, 0xffffffff⟩⟩,
  ⟨0x2800, 1, 0x9, 0x9, ⟨.bool, .WO, .G, 0x0, .set [1], 0xff⟩⟩,
  ⟨0x2800, 1, 0xA, 0xA, ⟨.bool, .RS, .A, 0x0, .span 0 1 1, 0xff⟩⟩,
  ⟨0x2800, 1, 0xB, 0xB, ⟨.u64, .RO, .A, 0x0, .any, 0xffffffffffffffff⟩⟩,
  ⟨0x2800, 1, 0xC, 0xC, ⟨.u32, .RO, .A, 0x0, .any, 0xffffffff⟩⟩,
  ⟨0x2800, 1, 0xD, 0xD, ⟨.u32, .RO, .A, 0x0, .any, 0xffffffff⟩⟩,
  ⟨0x2800, 1, 0xE, 0xE, ⟨.u8, .RO, .B, 0x0, .any, 0xff⟩⟩,
  ⟨0x2800, 1, 0xF, 0xF, ⟨.u16, .RO, .A, 0x0, .any, 0xffff⟩⟩,
  ⟨0x2800, 1, 0x10, 0x10, ⟨.bool, .RW, .A, 0x0, .span 0 1 1, 0xff⟩⟩,
  ⟨0x2800, 1, 0x11, 0x11, ⟨.u32, .RO, .A, 0xFFFFFFFF, .any, 0xffffffff⟩⟩,
  ⟨0x2800, 1, 0x12, 0x12, ⟨.u32, .RC, .A, 0x0, .any, 0xffffffff⟩⟩,
  ⟨0x2800, 1, 0x13, 0x13, ⟨.u32, .RC, .A, 0x0, .any, 0xffffffff⟩⟩,
  ⟨0x2800, 1, 0x14, 0x14, ⟨.u32, .RC, .A, 0x0, .any, 0xffffffff⟩⟩,
  ⟨0x2800, 1, 0x15, 0x15, ⟨.u32, .RC, .A, 0x0, .any, 0xffffffff⟩⟩]

/-- Objects of range 0x3000. -/
def objRows30 : List ObjRow := [
  ⟨0x3000, 1, 0x1, 0x1, ⟨.enum8, .RO, .A, 0x0, .any, 0xff⟩⟩,
  ⟨0x3000, 1, 0x2, 0x2, ⟨.u8, .RO, .A, 0x0, .any, 0xff⟩⟩,
  ⟨0x3000, 1, 0x3, 0x3, ⟨.enum8, .RO, .A, 0x0, .any, 0xff⟩⟩,
  ⟨0x3000, 1, 0x4, 0x4, ⟨.u32, .RC, .A, 0x0, .any, 0xffffffff⟩⟩,
  ⟨0x3000, 1, 0x5, 0x5, ⟨.u32, .RC, .A, 0x0, .any, 0xffffffff⟩⟩,
  ⟨0x3000, 1, 0x6, 0x6, ⟨.enum8, .RO, .A, 0x0, .any, 0xff⟩⟩,
  ⟨0x3000, 1, 0x7, 0x7, ⟨.bool, .RW, .P, 0x0, .span 0 1 1, 0xff⟩⟩,
  ⟨0x3000, 1, 0x8, 0x8, ⟨.u16, .RO, .A, 0x0, .any, 0xffff⟩⟩]

/-- Objects of range 0x3100. -/
def objRows31 : List ObjRow := [
  ⟨0x3100, 1, 0x1, 0x1, ⟨.u8, .CONST, .B, 0x10, .any, 0xff⟩⟩,
  ⟨0x3110, 16, 0x1, 0x1, ⟨.bool, .RS, .D, 0x0, .span 0 1 1, 0xff⟩⟩,
  ⟨0x3110, 16, 0x2, 0x2, ⟨.enum8, .RO, .E, 0x0, .any, 0xff⟩⟩,
  ⟨0x3110, 16, 0x3, 0x3, ⟨.u64, .RS, .D, 0x0, .span 0 0xFFFFFFFFFFFFF000 4096, 0xffffffffffffffff⟩⟩,
  ⟨0x3110, 16, 0x4, 0x4, ⟨.u16, .RS, .D, 0x40, .pow2 16 1024, 0xffff⟩⟩,
  ⟨0x3110, 16, 0x5, 0x5, ⟨.u64, .RS, .D, 0x0, .span 0 0xFFFFFFFFFFFFF000 4096, 0xffffffffffffffff⟩⟩,
  ⟨0x3110, 16, 0x6, 0x6, ⟨.u16, .RS, .D, 0x100, .pow2 16 4096, 0xffff⟩⟩,
  ⟨0x3110, 16, 0x7, 0x7, ⟨.u16, .RS, .D, 0x40, .span 0 1024 1, 0xffff⟩⟩,
  ⟨0x3110, 16, 0x8, 0x8, ⟨.u16, .RW, .H, 0x1, .span 1 256 1, 0xffff⟩⟩,
  ⟨0x3110, 16, 0x9, 0x9, ⟨.u16, .RW, .H, 0x0, .span 0 1000 1, 0xffff⟩⟩,
  ⟨0x3110, 16, 0xA, 0xA, ⟨.u16, .RO, .E, 0x0, .any, 0xffff⟩⟩,
  ⟨0x3110, 16, 0xB, 0xB, ⟨.u16, .RO, .E, 0x0, .any, 0xffff⟩⟩,
  ⟨0x3110, 16, 0xC, 0xC, ⟨.u16, .RO, .E, 0x0, .any, 0xffff⟩⟩,
  ⟨0x3110, 16, 0xD, 0xD, ⟨.u32, .RC, .E, 0x0, .any, 0xffffffff⟩⟩,
  ⟨0x3110, 16, 0xE, 0xE, ⟨.u32, .RC, .E, 0x0, .any, 0xffffffff⟩⟩,
  ⟨0x3110, 16, 0xF, 0xF, ⟨.u64, .RO, .E, 0x0, .any, 0xffffffffffffffff⟩⟩,
  ⟨0x3110, 16, 0x10, 0x10, ⟨.u32, .RC, .E, 0x0, .any, 0xffffffff⟩⟩,
  ⟨0x3110, 16, 0x11, 0x11, ⟨.enum8, .RO, .E, 0x0, .any, 0xff⟩⟩]

/-- Objects of range 0x4000. -/
def objRows40 : List ObjRow := [
  ⟨0x4000, 1, 0x1, 0x1, ⟨.u32, .CONST, .B, 0x10000, .any, 0xffffffff⟩⟩,
  ⟨0x4000, 1, 0x2, 0x2, ⟨.u16, .CONST, .B, 0x1000, .any, 0xffff⟩⟩,
  ⟨0x4000, 1, 0x3, 0x3, ⟨.u32, .RC, .A, 0x0, .any, 0xffffffff⟩⟩,
  ⟨0x4000, 1, 0x4, 0x4, ⟨.u32, .RC, .A, 0x0, .any, 0xffffffff⟩⟩,
  ⟨0x4000, 1, 0x5, 0x5, ⟨.u32, .RC, .A, 0x0, .any, 0xffffffff⟩⟩,
  ⟨0x4000, 1, 0x6, 0x6, ⟨.u32, .RC, .A, 0x0, .any, 0xffffffff⟩⟩,
  ⟨0x4000, 1, 0x7, 0x7, ⟨.u32, .RC, .A, 0x0, .any, 0xffffffff⟩⟩,
  ⟨0x4000, 1, 0x8, 0x8, ⟨.u32, .RC, .A, 0x0, .any, 0xffffffff⟩⟩,
  ⟨0x4000, 1, 0x9, 0x9, ⟨.u16, .RW, .A, 0x0, .span 0 65535 1, 0xffff⟩⟩,
  ⟨0x4000, 1, 0xA, 0xA, ⟨.u64, .RO, .A, 0x1000000, .any, 0xffffffffffffffff⟩⟩,
  ⟨0x4000, 1, 0xB, 0xB, ⟨.u64, .RO, .A, 0x0, .any, 0xffffffffffffffff⟩⟩,
  ⟨0x4010, 16, 0x1, 0x1, ⟨.u16, .RS, .D, 0x0, .span 0 65535 1, 0xffff⟩⟩,
  ⟨0x4010, 16, 0x2, 0x2, ⟨.u32, .RS, .D, 0x0, .span 0 65536 1, 0xffffffff⟩⟩]

/-- Objects of range 0x4100. -/
def objRows41 : List ObjRow := [
  ⟨0x4100, 1, 0x1, 0x1, ⟨.u8, .CONST, .B, 0x40, .any, 0xff⟩⟩,
  ⟨0x4100, 1, 0x2, 0x2, ⟨.u16, .CONST, .B, 0x400, .any, 0xffff⟩⟩,
  ⟨0x4100, 1, 0x3, 0x3, ⟨.u32, .RS, .A, 0x1F4, .span 1 100000 1, 0xffffffff⟩⟩,
  ⟨0x4100, 1, 0x4, 0x4, ⟨.u16, .RS, .A, 0x8, .span 1 1024 1, 0xffff⟩⟩,
  ⟨0x4100, 1, 0x5, 0x5, ⟨.u32, .RC, .A, 0x0, .any, 0xffffffff⟩⟩,
  ⟨0x4100, 1, 0x6, 0x6, ⟨.u32, .RC, .A, 0x0, .any, 0xffffffff⟩⟩,
  ⟨0x4100, 1, 0x7, 0x7, ⟨.u32, .RC, .A, 0x0, .any, 0xffffffff⟩⟩,
  ⟨0x4100, 1, 0x8, 0x8, ⟨.u32, .RC, .A, 0x0, .any, 0xffffffff⟩⟩,
  ⟨0x4100, 1, 0x9, 0x9, ⟨.u16, .RO, .B, 0x0, .any, 0xffff⟩⟩,
  ⟨0x4100, 1, 0xA, 0xA, ⟨.u16, .RW, .A, 0x0, .span 0 1023 1, 0xffff⟩⟩,
  ⟨0x4100, 1, 0xB, 0xB, ⟨.u64, .RO, .A, 0x0, .any, 0xffffffffffffffff⟩⟩,
  ⟨0x4140, 64, 0x1, 0x1, ⟨.u8, .RS, .C, 0x0, .span 0 32 1, 0xff⟩⟩,
  ⟨0x4140, 64, 0x2, 0x2, ⟨.u8, .RS, .C, 0x4, .span 0 7 1, 0xff⟩⟩,
  ⟨0x4140, 64, 0x3, 0x3, ⟨.u16, .RO, .B, 0x0, .any, 0xffff⟩⟩,
  ⟨0x4140, 64, 0x10, 0x2F, ⟨.u64, .RS, .C, 0x0, .stage, 0xFFFFFF8F007F⟩⟩]

/-- Objects of range 0x4200. -/
def objRows42a : List ObjRow := [
  ⟨0x4200, 1, 0x1, 0x1, ⟨.u8, .RW, .A, 0x0, .span 0 15 1, 0xff⟩⟩,
  ⟨0x4200, 1, 0x2, 0x2, ⟨.u64, .RW, .A, 0x0, .any, 0xFFFFFFFFFFFF⟩⟩,
  ⟨0x4200, 1, 0x3, 0x3, ⟨.u32, .RW, .A, 0x100, .span 256 402653184 1, 0xffffffff⟩⟩,
  ⟨0x4200, 1, 0x4, 0x4, ⟨.u32, .RW, .A, 0x0, .span 0 0xffff000 4096, 0xffffffff⟩⟩,
  ⟨0x4200, 1, 0x5, 0x5, ⟨.u32, .RW, .A, 0x0, .span 0 0x1ff000 4096, 0xffffffff⟩⟩,
  ⟨0x4200, 1, 0x6, 0x6, ⟨.u32, .RW, .A, 0x0, .any, 0xffffffff⟩⟩,
  ⟨0x4200, 1, 0x7, 0x7, ⟨.u8, .RW, .A, 0xFF, .set [0, 1, 2, 3, 4, 5, 6, 7, 8, 9, 10, 11, 12, 13, 14, 15, 255], 0xff⟩⟩,
  ⟨0x4200, 1, 0x8, 0x8, ⟨.enum8, .WO, .A, 0x0, .set [1, 2, 3], 0xff⟩⟩,
  ⟨0x4200, 1, 0x9, 0x9, ⟨.enum8, .RO, .A, 0x0, .any, 0xff⟩⟩,
  ⟨0x4200, 1, 0xA, 0xA, ⟨.u8, .RO, .A, 0x0, .any, 0xff⟩⟩,
  ⟨0x4200, 1, 0xB, 0xB, ⟨.u32, .RO, .A, 0xFFFFFFFF, .any, 0xffffffff⟩⟩,
  ⟨0x4200, 1, 0xC, 0xC, ⟨.u32, .RO, .A, 0x0, .any, 0xffffffff⟩⟩,
  ⟨0x4200, 1, 0xD, 0xD, ⟨.u32, .RC, .A, 0x0, .any, 0xffffffff⟩⟩,
  ⟨0x4200, 1, 0xE, 0xE, ⟨.u32, .RC, .A, 0x0, .any, 0xffffffff⟩⟩,
  ⟨0x4210, 16, 0x1, 0x1, ⟨.enum8, .RO, .B, 0x0, .any, 0xff⟩⟩,
  ⟨0x4210, 16, 0x2, 0x2, ⟨.blob, .RO, .B, 0x0, .any, 0x0⟩⟩,
  ⟨0x4210, 16, 0x3, 0x3, ⟨.str32, .RO, .B, 0x0, .any, 0xffffffffffffffffffffffffffffffffffffffffffffffffffffffffffffffff⟩⟩,
  ⟨0x4210, 16, 0x4, 0x4, ⟨.u32, .RO, .A, 0x0, .any, 0xffffffff⟩⟩,
  ⟨0x4210, 16, 0x5, 0x5, ⟨.u32, .RO, .A, 0x0, .any, 0xffffffff⟩⟩,
  ⟨0x4210, 16, 0x6, 0x6, ⟨.u32, .RO, .A, 0x0, .any, 0xffffffff⟩⟩,
  ⟨0x4210, 16, 0x7, 0x7, ⟨.u32, .RO, .A, 0x0, .any, 0xffffffff⟩⟩,
  ⟨0x4210, 16, 0x8, 0x8, ⟨.u32, .RO, .A, 0x0, .any, 0xffffffff⟩⟩,
  ⟨0x4210, 16, 0x9, 0x9, ⟨.u16, .RS, .C, 0xFFFF, .any, 0xffff⟩⟩,
  ⟨0x4210, 16, 0xA, 0xA, ⟨.u32, .RO, .A, 0xFFFFFFFF, .any, 0xffffffff⟩⟩]

/-- Objects of range 0x4200. -/
def objRows42b : List ObjRow := [
  ⟨0x4210, 16, 0xB, 0xB, ⟨.u8, .RO, .A, 0x0, .any, 0xff⟩⟩,
  ⟨0x4210, 16, 0xC, 0xC, ⟨.u16, .RO, .B, 0x0, .any, 0xffff⟩⟩]

/-- Objects of range 0x4800. -/
def objRows48a : List ObjRow := [
  ⟨0x4800, 1, 0x1, 0x1, ⟨.u8, .CONST, .B, 0x40, .any, 0xff⟩⟩,
  ⟨0x4800, 1, 0x2, 0x2, ⟨.u8, .RS, .A, 0x40, .span 0 255 1, 0xff⟩⟩,
  ⟨0x4800, 1, 0x3, 0x3, ⟨.bool, .RS, .A, 0x1, .span 0 1 1, 0xff⟩⟩,
  ⟨0x4800, 1, 0x4, 0x4, ⟨.u16, .RS, .A, 0x100, .span 64 4096 1, 0xffff⟩⟩,
  ⟨0x4800, 1, 0x5, 0x5, ⟨.u32, .RC, .A, 0x0, .any, 0xffffffff⟩⟩,
  ⟨0x4810, 16, 0x1, 0x1, ⟨.enum8, .RS, .C, 0x0, .set [0, 1], 0xff⟩⟩,
  ⟨0x4810, 16, 0x2, 0x2, ⟨.enum8, .RO, .B, 0x0, .any, 0xff⟩⟩,
  ⟨0x4810, 16, 0x3, 0x3, ⟨.bool, .RO, .B, 0x0, .any, 0xff⟩⟩,
  ⟨0x4820, 32, 0x1, 0x1, ⟨.enum8, .RS, .C, 0x0, .set [0, 1], 0xff⟩⟩,
  ⟨0x4820, 32, 0x2, 0x2, ⟨.u32, .RC, .A, 0x0, .any, 0xffffffff⟩⟩,
  ⟨0x4820, 32, 0x3, 0x3, ⟨.u32, .RC, .A, 0x0, .any, 0xffffffff⟩⟩,
  ⟨0x4820, 32, 0x4, 0x4, ⟨.u32, .RC, .A, 0x0, .any, 0xffffffff⟩⟩,
  ⟨0x4820, 32, 0x5, 0x5, ⟨.u32, .RC, .A, 0x0, .any, 0xffffffff⟩⟩,
  ⟨0x4820, 32, 0x6, 0x6, ⟨.u32, .RC, .A, 0x0, .any, 0xffffffff⟩⟩,
  ⟨0x4860, 1, 0x1, 0x1, ⟨.u32, .CONST, .B, 0x200000, .any, 0xffffffff⟩⟩,
  ⟨0x4860, 1, 0x2, 0x2, ⟨.u8, .CONST, .B, 0x10, .any, 0xff⟩⟩,
  ⟨0x4860, 1, 0x3, 0x3, ⟨.u8, .CONST, .B, 0x4, .any, 0xff⟩⟩,
  ⟨0x4860, 1, 0x4, 0x4, ⟨.u16, .CONST, .B, 0x1, .any, 0xffff⟩⟩,
  ⟨0x4840, 32, 0x1, 0x1, ⟨.enum8, .RO, .B, 0x0, .any, 0xff⟩⟩,
  ⟨0x4840, 32, 0x2, 0x2, ⟨.u32, .RC, .A, 0x0, .any, 0xffffffff⟩⟩,
  ⟨0x4840, 32, 0x3, 0x3, ⟨.u64, .RC, .A, 0x0, .any, 0xffffffffffffffff⟩⟩,
  ⟨0x4840, 32, 0x4, 0x4, ⟨.u32, .RC, .A, 0x0, .any, 0xffffffff⟩⟩,
  ⟨0x4840, 32, 0x5, 0x5, ⟨.u64, .RO, .A, 0x0, .any, 0xffffffffffffffff⟩⟩,
  ⟨0x4840, 32, 0x6, 0x6, ⟨.u64, .RO, .A, 0x0, .any, 0xffffffffffffffff⟩⟩]

/-- Objects of range 0x4800. -/
def objRows48b : List ObjRow := [
  ⟨0x4840, 32, 0x7, 0x7, ⟨.u32, .RC, .A, 0x0, .any, 0xffffffff⟩⟩,
  ⟨0x4840, 32, 0x8, 0x8, ⟨.u32, .RC, .A, 0x0, .any, 0xffffffff⟩⟩,
  ⟨0x4840, 32, 0x9, 0x9, ⟨.u64, .RC, .A, 0x0, .any, 0xffffffffffffffff⟩⟩]

/-- Objects of range 0x5000. -/
def objRows50 : List ObjRow := [
  ⟨0x5000, 1, 0x1, 0x1, ⟨.u32, .CONST, .B, 0x10000000, .any, 0xffffffff⟩⟩,
  ⟨0x5000, 1, 0x2, 0x2, ⟨.u8, .CONST, .B, 0x10, .any, 0xff⟩⟩,
  ⟨0x5000, 1, 0x3, 0x3, ⟨.u32, .RS, .A, 0x258, .span 0 86400 1, 0xffffffff⟩⟩,
  ⟨0x5000, 1, 0x4, 0x4, ⟨.u32, .RC, .A, 0x0, .any, 0xffffffff⟩⟩,
  ⟨0x5000, 1, 0x5, 0x5, ⟨.u32, .RC, .A, 0x0, .any, 0xffffffff⟩⟩,
  ⟨0x5000, 1, 0x6, 0x6, ⟨.u64, .RO, .A, 0x0, .any, 0xffffffffffffffff⟩⟩,
  ⟨0x5000, 1, 0x7, 0x7, ⟨.u32, .RC, .A, 0x0, .any, 0xffffffff⟩⟩,
  ⟨0x5010, 8, 0x1, 0x1, ⟨.bool, .RO, .B, 0x0, .any, 0xff⟩⟩,
  ⟨0x5010, 8, 0x2, 0x2, ⟨.u32, .RC, .A, 0x0, .any, 0xffffffff⟩⟩,
  ⟨0x5010, 8, 0x3, 0x3, ⟨.u32, .RC, .A, 0x0, .any, 0xffffffff⟩⟩,
  ⟨0x5020, 16, 0x1, 0x1, ⟨.u32, .RS, .D, 0x0, .span 0 0xff00000 1048576, 0xffffffff⟩⟩,
  ⟨0x5020, 16, 0x2, 0x2, ⟨.u32, .RS, .D, 0x0, .span 0 0x10000000 1048576, 0xffffffff⟩⟩]

/-- Objects of range 0x5100. -/
def objRows51 : List ObjRow := [
  ⟨0x5100, 1, 0x1, 0x1, ⟨.u8, .CONST, .B, 0x30, .any, 0xff⟩⟩,
  ⟨0x5100, 1, 0x2, 0x2, ⟨.u32, .RS, .A, 0x1000, .span 256 65536 1, 0xffffffff⟩⟩,
  ⟨0x5100, 1, 0x3, 0x3, ⟨.u64, .RC, .A, 0x0, .any, 0xffffffffffffffff⟩⟩,
  ⟨0x5100, 1, 0x4, 0x4, ⟨.bool, .RW, .P, 0x1, .span 0 1 1, 0xff⟩⟩,
  ⟨0x5100, 1, 0x5, 0x5, ⟨.u16, .RO, .A, 0x0, .any, 0xffff⟩⟩,
  ⟨0x5100, 1, 0x6, 0x6, ⟨.u16, .RO, .A, 0x0, .any, 0xffff⟩⟩,
  ⟨0x5100, 1, 0x7, 0x7, ⟨.u32, .RC, .A, 0x0, .any, 0xffffffff⟩⟩,
  ⟨0x5110, 48, 0x1, 0x1, ⟨.u16, .RS, .A, 0x0, .span 0 256 1, 0xffff⟩⟩,
  ⟨0x5110, 48, 0x2, 0x2, ⟨.u16, .RS, .A, 0x0, .span 0 256 1, 0xffff⟩⟩,
  ⟨0x5110, 48, 0x3, 0x3, ⟨.u8, .RS, .A, 0x1, .span 0 15 1, 0xff⟩⟩,
  ⟨0x5110, 48, 0x4, 0x4, ⟨.u16, .RS, .A, 0x0, .span 0 65535 1, 0xffff⟩⟩,
  ⟨0x5110, 48, 0x5, 0x5, ⟨.u16, .RO, .A, 0x0, .any, 0xffff⟩⟩,
  ⟨0x5110, 48, 0x6, 0x6, ⟨.u16, .RO, .A, 0x0, .any, 0xffff⟩⟩,
  ⟨0x5110, 48, 0x7, 0x7, ⟨.u32, .RC, .A, 0x0, .any, 0xffffffff⟩⟩,
  ⟨0x5110, 48, 0x8, 0x8, ⟨.u32, .RC, .A, 0x0, .any, 0xffffffff⟩⟩,
  ⟨0x5110, 48, 0x9, 0x9, ⟨.u64, .RC, .A, 0x0, .any, 0xffffffffffffffff⟩⟩]

/-- Objects of range 0x5800. -/
def objRows58a : List ObjRow := [
  ⟨0x5800, 1, 0x1, 0x1, ⟨.u8, .CONST, .B, 0x8, .any, 0xff⟩⟩,
  ⟨0x5800, 1, 0x2, 0x2, ⟨.u16, .CONST, .B, 0x4000, .any, 0xffff⟩⟩,
  ⟨0x5800, 1, 0x3, 0x3, ⟨.u16, .RO, .A, 0x0, .any, 0xffff⟩⟩,
  ⟨0x5800, 1, 0x4, 0x4, ⟨.u32, .RC, .A, 0x0, .any, 0xffffffff⟩⟩,
  ⟨0x5800, 1, 0x5, 0x5, ⟨.u32, .RC, .A, 0x0, .any, 0xffffffff⟩⟩,
  ⟨0x5800, 1, 0x6, 0x6, ⟨.u32, .RC, .A, 0x0, .any, 0xffffffff⟩⟩,
  ⟨0x5800, 1, 0x7, 0x7, ⟨.u32, .RC, .A, 0x0, .any, 0xffffffff⟩⟩,
  ⟨0x5800, 1, 0x8, 0x8, ⟨.u32, .RC, .A, 0x0, .any, 0xffffffff⟩⟩,
  ⟨0x5800, 1, 0x9, 0x9, ⟨.u32, .RC, .A, 0x0, .any, 0xffffffff⟩⟩,
  ⟨0x5800, 1, 0xA, 0xA, ⟨.u32, .RC, .A, 0x0, .any, 0xffffffff⟩⟩,
  ⟨0x5800, 1, 0xB, 0xB, ⟨.bool, .RW, .P, 0x1, .span 0 1 1, 0xff⟩⟩,
  ⟨0x5801, 4, 0x1, 0x1, ⟨.u64, .WO, .F, 0x0, .clkReq, 0xffffffffffffffff⟩⟩,
  ⟨0x5801, 4, 0x2, 0x2, ⟨.u64, .RO, .F, 0x0, .any, 0xffffffffffffffff⟩⟩,
  ⟨0x5810, 8, 0x1, 0x1, ⟨.bool, .RS, .A, 0x0, .span 0 1 1, 0xff⟩⟩,
  ⟨0x5810, 8, 0x2, 0x2, ⟨.u8, .RS, .A, 0xC, .span 8 24 1, 0xff⟩⟩,
  ⟨0x5810, 8, 0x3, 0x3, ⟨.u64, .RS, .A, 0x0, .galDram 4096, 0xFFFFFFFFFFFF⟩⟩,
  ⟨0x5810, 8, 0x4, 0x4, ⟨.u32, .RS, .A, 0x0, .span 0 67108864 1, 0xffffffff⟩⟩,
  ⟨0x5810, 8, 0x5, 0x5, ⟨.u64, .RS, .A, 0x1000000000, .dram 4096, 0xFFFFFFFFFFFF⟩⟩,
  ⟨0x5810, 8, 0x6, 0x6, ⟨.u32, .RS, .A, 0x40, .pow2 64 67108864, 0xffffffff⟩⟩,
  ⟨0x5810, 8, 0x7, 0x7, ⟨.bool, .RS, .A, 0x0, .span 0 1 1, 0xff⟩⟩,
  ⟨0x5810, 8, 0x8, 0x8, ⟨.u32, .RS, .A, 0x0, .span 0 67108864 1, 0xffffffff⟩⟩,
  ⟨0x5810, 8, 0x9, 0x9, ⟨.enum8, .RO, .B, 0x0, .any, 0xff⟩⟩,
  ⟨0x5810, 8, 0xA, 0xA, ⟨.u32, .RO, .B, 0x0, .any, 0xffffffff⟩⟩,
  ⟨0x5810, 8, 0xB, 0xB, ⟨.u32, .RO, .A, 0x0, .any, 0xffffffff⟩⟩]

/-- Objects of range 0x5800. -/
def objRows58b : List ObjRow := [
  ⟨0x5810, 8, 0xC, 0xC, ⟨.u32, .RC, .A, 0x0, .any, 0xffffffff⟩⟩,
  ⟨0x5810, 8, 0xD, 0xD, ⟨.u32, .RO, .A, 0x0, .any, 0xffffffff⟩⟩,
  ⟨0x5840, 64, 0x1, 0xF, ⟨.u16, .RS, .A, 0x0, .owner, 0x9FFF⟩⟩]

/-- Objects of range 0x6000. -/
def objRows60a : List ObjRow := [
  ⟨0x6000, 1, 0x1, 0x1, ⟨.u8, .CONST, .B, 0x4, .any, 0xff⟩⟩,
  ⟨0x6000, 1, 0x2, 0x2, ⟨.bool, .RO, .B, 0x0, .any, 0xff⟩⟩,
  ⟨0x6000, 1, 0x3, 0x3, ⟨.u8, .RO, .B, 0x0, .any, 0xff⟩⟩,
  ⟨0x6010, 4, 0x1, 0x1, ⟨.bool, .RS, .A, 0x0, .span 0 1 1, 0xff⟩⟩,
  ⟨0x6010, 4, 0x2, 0x2, ⟨.u8, .RS, .A, 0x4, .set [1, 2, 4], 0xff⟩⟩,
  ⟨0x6010, 4, 0x3, 0x3, ⟨.u16, .RS, .A, 0x9C4, .span 80 2500 1, 0xffff⟩⟩,
  ⟨0x6010, 4, 0x4, 0x4, ⟨.u8, .RS, .A, 0x0, .span 0 3 1, 0xff⟩⟩,
  ⟨0x6010, 4, 0x5, 0x5, ⟨.enum8, .RS, .A, 0x2B, .set [30, 42, 43, 44], 0xff⟩⟩,
  ⟨0x6010, 4, 0x6, 0x6, ⟨.u16, .RS, .A, 0x780, .span 1 8192 1, 0xffff⟩⟩,
  ⟨0x6010, 4, 0x7, 0x7, ⟨.u16, .RS, .A, 0x438, .span 1 8192 1, 0xffff⟩⟩,
  ⟨0x6010, 4, 0x8, 0x8, ⟨.u8, .RS, .A, 0x0, .any, 0xff⟩⟩,
  ⟨0x6010, 4, 0x9, 0x9, ⟨.u8, .RS, .A, 0x0, .span 0 63 1, 0xff⟩⟩,
  ⟨0x6010, 4, 0xA, 0xA, ⟨.bool, .RS, .A, 0x0, .span 0 1 1, 0xff⟩⟩,
  ⟨0x6010, 4, 0xB, 0xB, ⟨.u32, .RS, .A, 0x0, .landing12, 0x1FFFF⟩⟩,
  ⟨0x6010, 4, 0xC, 0xC, ⟨.u16, .RS, .A, 0x64, .span 1 1000 1, 0xffff⟩⟩,
  ⟨0x6020, 4, 0x1, 0x1, ⟨.enum8, .RO, .B, 0x0, .any, 0xff⟩⟩,
  ⟨0x6020, 4, 0x2, 0x2, ⟨.u64, .RO, .A, 0x0, .any, 0xffffffffffffffff⟩⟩,
  ⟨0x6020, 4, 0x3, 0x3, ⟨.u64, .RO, .A, 0x0, .any, 0xffffffffffffffff⟩⟩,
  ⟨0x6020, 4, 0x4, 0x4, ⟨.u64, .RO, .A, 0x0, .any, 0xffffffffffffffff⟩⟩,
  ⟨0x6020, 4, 0x5, 0x5, ⟨.u32, .RO, .A, 0xFFFFFFFF, .any, 0xffffffff⟩⟩,
  ⟨0x6020, 4, 0x6, 0x6, ⟨.u32, .RC, .A, 0x0, .any, 0xffffffff⟩⟩,
  ⟨0x6020, 4, 0x7, 0x7, ⟨.u32, .RC, .A, 0x0, .any, 0xffffffff⟩⟩,
  ⟨0x6020, 4, 0x8, 0x8, ⟨.u32, .RC, .A, 0x0, .any, 0xffffffff⟩⟩,
  ⟨0x6020, 4, 0x9, 0x9, ⟨.u32, .RC, .A, 0x0, .any, 0xffffffff⟩⟩]

/-- Objects of range 0x6000. -/
def objRows60b : List ObjRow := [
  ⟨0x6020, 4, 0xA, 0xA, ⟨.u32, .RC, .A, 0x0, .any, 0xffffffff⟩⟩,
  ⟨0x6020, 4, 0xB, 0xB, ⟨.u32, .RC, .A, 0x0, .any, 0xffffffff⟩⟩,
  ⟨0x6020, 4, 0xC, 0xC, ⟨.u32, .RC, .A, 0x0, .any, 0xffffffff⟩⟩,
  ⟨0x6020, 4, 0xD, 0xD, ⟨.u32, .RC, .A, 0x0, .any, 0xffffffff⟩⟩,
  ⟨0x6020, 4, 0xE, 0xE, ⟨.u32, .RC, .A, 0x0, .any, 0xffffffff⟩⟩,
  ⟨0x6020, 4, 0xF, 0xF, ⟨.u32, .RC, .A, 0x0, .any, 0xffffffff⟩⟩]

/-- Objects of range 0x6100. -/
def objRows61a : List ObjRow := [
  ⟨0x6100, 1, 0x1, 0x1, ⟨.enum8, .RS, .A, 0x0, .set [0, 1, 2], 0xff⟩⟩,
  ⟨0x6100, 1, 0x2, 0x2, ⟨.enum8, .RO, .A, 0x0, .any, 0xff⟩⟩,
  ⟨0x6100, 1, 0x3, 0x3, ⟨.u32, .RC, .A, 0x0, .any, 0xffffffff⟩⟩,
  ⟨0x6100, 1, 0x4, 0x4, ⟨.bool, .RW, .A, 0x0, .span 0 1 1, 0xff⟩⟩,
  ⟨0x6100, 1, 0x5, 0x5, ⟨.u32, .RC, .A, 0x0, .any, 0xffffffff⟩⟩,
  ⟨0x6100, 1, 0x6, 0x6, ⟨.u8, .RS, .A, 0x0, .any, 0xff⟩⟩,
  ⟨0x6100, 1, 0x7, 0x7, ⟨.enum8, .RS, .A, 0x0, .set [0, 1], 0xff⟩⟩,
  ⟨0x6100, 1, 0x8, 0x8, ⟨.bool, .RS, .A, 0x1, .span 0 1 1, 0xff⟩⟩,
  ⟨0x6100, 1, 0x9, 0x9, ⟨.u8, .RS, .A, 0x0, .any, 0xff⟩⟩,
  ⟨0x6110, 2, 0x1, 0x1, ⟨.bool, .RS, .A, 0x0, .span 0 1 1, 0xff⟩⟩,
  ⟨0x6110, 2, 0x2, 0x2, ⟨.u8, .RS, .A, 0x8, .span 1 16 1, 0xff⟩⟩,
  ⟨0x6110, 2, 0x3, 0x3, ⟨.enum8, .RS, .A, 0x0, .set [0, 1], 0xff⟩⟩,
  ⟨0x6110, 2, 0x4, 0x4, ⟨.enum8, .RS, .A, 0x1, .set [0, 1, 2], 0xff⟩⟩,
  ⟨0x6110, 2, 0x5, 0x5, ⟨.u8, .RS, .A, 0x1, .any, 0x07⟩⟩,
  ⟨0x6110, 2, 0x6, 0x6, ⟨.u32, .RC, .A, 0x0, .any, 0xffffffff⟩⟩,
  ⟨0x6110, 2, 0x7, 0x7, ⟨.u32, .RC, .A, 0x0, .any, 0xffffffff⟩⟩,
  ⟨0x6120, 32, 0x1, 0x1, ⟨.u32, .RW, .A, 0x0, .audRoute, 0xFFFC003F⟩⟩,
  ⟨0x6120, 32, 0x2, 0x2, ⟨.u32, .RO, .A, 0x0, .any, 0xffffffff⟩⟩,
  ⟨0x6140, 8, 0x1, 0x1, ⟨.u64, .RS, .A, 0x0, .galDram 64, 0xFFFFFFFFFFFF⟩⟩,
  ⟨0x6140, 8, 0x2, 0x2, ⟨.u32, .RS, .A, 0x0, .span 0 1048560 48, 0xffffffff⟩⟩,
  ⟨0x6140, 8, 0x3, 0x3, ⟨.u8, .RS, .A, 0x1, .span 1 32 1, 0xff⟩⟩,
  ⟨0x6140, 8, 0x4, 0x4, ⟨.u32, .RS, .A, 0x0, .any, 0x1FFFF⟩⟩,
  ⟨0x6140, 8, 0x5, 0x5, ⟨.u32, .RO, .A, 0x0, .any, 0xffffffff⟩⟩,
  ⟨0x6140, 8, 0x6, 0x6, ⟨.u32, .RO, .A, 0x0, .any, 0xffffffff⟩⟩]

/-- Objects of range 0x6100. -/
def objRows61b : List ObjRow := [
  ⟨0x6140, 8, 0x7, 0x7, ⟨.u32, .RC, .A, 0x0, .any, 0xffffffff⟩⟩]

/-- Objects of range 0x6400. -/
def objRows64a : List ObjRow := [
  ⟨0x6400, 1, 0x1, 0x1, ⟨.u8, .CONST, .B, 0x8, .any, 0xff⟩⟩,
  ⟨0x6400, 1, 0x2, 0x2, ⟨.u32, .RO, .B, 0x0, .any, 0xffffffff⟩⟩,
  ⟨0x6400, 1, 0x3, 0x3, ⟨.u16, .RO, .B, 0x0, .any, 0xffff⟩⟩,
  ⟨0x6400, 1, 0x4, 0x4, ⟨.u16, .RS, .A, 0x0, .span 0 256 1, 0xffff⟩⟩,
  ⟨0x6400, 1, 0x5, 0x5, ⟨.u8, .RC, .A, 0x0, .any, 0xff⟩⟩,
  ⟨0x6400, 1, 0x6, 0x6, ⟨.bool, .RW, .P, 0x1, .span 0 1 1, 0xff⟩⟩,
  ⟨0x6400, 1, 0x7, 0x7, ⟨.u32, .RC, .A, 0x0, .any, 0xffffffff⟩⟩,
  ⟨0x6410, 8, 0x1, 0x1, ⟨.enum8, .RO, .B, 0x0, .any, 0xff⟩⟩,
  ⟨0x6410, 8, 0x2, 0x2, ⟨.u32, .RC, .A, 0x0, .any, 0xffffffff⟩⟩,
  ⟨0x6410, 8, 0x3, 0x3, ⟨.u64, .RO, .A, 0x0, .any, 0xffffffffffffffff⟩⟩,
  ⟨0x6410, 8, 0x4, 0x4, ⟨.u64, .RC, .A, 0x0, .any, 0xffffffffffffffff⟩⟩,
  ⟨0x6420, 4, 0x1, 0x1, ⟨.bool, .RS, .C, 0x0, .span 0 1 1, 0xff⟩⟩,
  ⟨0x6420, 4, 0x2, 0x2, ⟨.enum8, .RS, .C, 0x1, .set [0, 1, 3, 4, 5, 7], 0xff⟩⟩,
  ⟨0x6420, 4, 0x3, 0x3, ⟨.u16, .RS, .C, 0x1000, .span 1 4096 1, 0xffff⟩⟩,
  ⟨0x6420, 4, 0x4, 0x4, ⟨.u16, .RS, .C, 0x10, .span 1 256 1, 0xffff⟩⟩,
  ⟨0x6420, 4, 0x5, 0x5, ⟨.u16, .RS, .C, 0x100, .span 1 65535 1, 0xffff⟩⟩,
  ⟨0x6420, 4, 0x6, 0x6, ⟨.u64, .RS, .C, 0x0, .galDram 4096, 0xFFFFFFFFFFFF⟩⟩,
  ⟨0x6420, 4, 0x7, 0x7, ⟨.u8, .RS, .C, 0x4, .span 1 64 1, 0xff⟩⟩,
  ⟨0x6420, 4, 0x8, 0x8, ⟨.bool, .RS, .C, 0x0, .span 0 1 1, 0xff⟩⟩,
  ⟨0x6420, 4, 0x9, 0x9, ⟨.u8, .RS, .C, 0x0, .span 0 15 1, 0xff⟩⟩,
  ⟨0x6420, 4, 0xA, 0xA, ⟨.u32, .RS, .C, 0x0, .landing12, 0x1FFFF⟩⟩,
  ⟨0x6420, 4, 0xB, 0xB, ⟨.u16, .RS, .C, 0x0, .span 0 65535 1, 0xffff⟩⟩,
  ⟨0x6420, 4, 0xC, 0xC, ⟨.u8, .RS, .C, 0x2, .span 1 4 1, 0xff⟩⟩,
  ⟨0x6420, 4, 0xD, 0xD, ⟨.u16, .RS, .C, 0x0, .span 0 10000 1, 0xffff⟩⟩]

/-- Objects of range 0x6400. -/
def objRows64b : List ObjRow := [
  ⟨0x6420, 4, 0xE, 0xE, ⟨.enum8, .RO, .B, 0x0, .any, 0xff⟩⟩,
  ⟨0x6420, 4, 0xF, 0xF, ⟨.u8, .RO, .B, 0x0, .any, 0xff⟩⟩,
  ⟨0x6420, 4, 0x10, 0x10, ⟨.u32, .RC, .A, 0x0, .any, 0xffffffff⟩⟩,
  ⟨0x6420, 4, 0x11, 0x11, ⟨.u32, .RC, .A, 0x0, .any, 0xffffffff⟩⟩]

/-- Objects of range 0x7000. -/
def objRows70a : List ObjRow := [
  ⟨0x7000, 1, 0x1, 0x1, ⟨.u8, .CONST, .B, 0x40, .any, 0xff⟩⟩,
  ⟨0x7000, 1, 0x2, 0x2, ⟨.u64, .RC, .A, 0x0, .any, 0xffffffffffffffff⟩⟩,
  ⟨0x7000, 1, 0x3, 0x3, ⟨.bool, .RW, .P, 0x1, .span 0 1 1, 0xff⟩⟩,
  ⟨0x7000, 1, 0x4, 0x4, ⟨.u32, .RC, .A, 0x0, .any, 0xffffffff⟩⟩,
  ⟨0x7000, 1, 0x5, 0x5, ⟨.u32, .RC, .A, 0x0, .any, 0xffffffff⟩⟩,
  ⟨0x7000, 1, 0x6, 0x6, ⟨.u32, .RC, .A, 0x0, .any, 0xffffffff⟩⟩,
  ⟨0x7000, 1, 0x7, 0x7, ⟨.u32, .RC, .A, 0x0, .any, 0xffffffff⟩⟩,
  ⟨0x7010, 2, 0x1, 0x1, ⟨.enum8, .RO, .B, 0x0, .any, 0xff⟩⟩,
  ⟨0x7010, 2, 0x2, 0x2, ⟨.u64, .RO, .A, 0x0, .any, 0xffffffffffffffff⟩⟩,
  ⟨0x7010, 2, 0x3, 0x3, ⟨.u64, .RC, .A, 0x0, .any, 0xffffffffffffffff⟩⟩,
  ⟨0x7010, 2, 0x4, 0x4, ⟨.u64, .RC, .A, 0x0, .any, 0xffffffffffffffff⟩⟩,
  ⟨0x7040, 64, 0x1, 0x1, ⟨.bool, .RS, .C, 0x0, .span 0 1 1, 0xff⟩⟩,
  ⟨0x7040, 64, 0x2, 0x2, ⟨.enum8, .RS, .C, 0x0, .set [0, 1, 2], 0xff⟩⟩,
  ⟨0x7040, 64, 0x3, 0x3, ⟨.u8, .RS, .C, 0x0, .span 0 15 1, 0xff⟩⟩,
  ⟨0x7040, 64, 0x4, 0x4, ⟨.u16, .RS, .C, 0x780, .span 16 8192 1, 0xffff⟩⟩,
  ⟨0x7040, 64, 0x5, 0x5, ⟨.u16, .RS, .C, 0x440, .span 16 4352 1, 0xffff⟩⟩,
  ⟨0x7040, 64, 0x6, 0x6, ⟨.u64, .RS, .C, 0x0, .galDram 4096, 0xFFFFFFFFFFFF⟩⟩,
  ⟨0x7040, 64, 0x7, 0x7, ⟨.u32, .RS, .C, 0x0, .span 0 0xFFFFFFFF 4096, 0xffffffff⟩⟩,
  ⟨0x7040, 64, 0x8, 0x8, ⟨.u8, .RS, .C, 0x9, .span 2 17 1, 0xff⟩⟩,
  ⟨0x7040, 64, 0x9, 0x9, ⟨.u64, .RS, .C, 0x0, .galDram 64, 0xFFFFFFFFFFFF⟩⟩,
  ⟨0x7040, 64, 0xA, 0xA, ⟨.u8, .RS, .C, 0x0, .span 0 8 1, 0xff⟩⟩,
  ⟨0x7040, 64, 0xB, 0xB, ⟨.u32, .RS, .C, 0x40, .span 0x40 0x4000000 64, 0xffffffff⟩⟩,
  ⟨0x7040, 64, 0xC, 0xC, ⟨.enum8, .RS, .C, 0x2, .set [0, 1, 2], 0xff⟩⟩,
  ⟨0x7040, 64, 0xD, 0xD, ⟨.u8, .RS, .C, 0x10, .span 4 64 1, 0xff⟩⟩]

/-- Objects of range 0x7000. -/
def objRows70b : List ObjRow := [
  ⟨0x7040, 64, 0xE, 0xE, ⟨.bool, .RS, .C, 0x0, .span 0 1 1, 0xff⟩⟩,
  ⟨0x7040, 64, 0xF, 0xF, ⟨.enum8, .RO, .B, 0x0, .any, 0xff⟩⟩,
  ⟨0x7040, 64, 0x10, 0x10, ⟨.u8, .RO, .B, 0x0, .any, 0xff⟩⟩,
  ⟨0x7040, 64, 0x11, 0x11, ⟨.u32, .RO, .B, 0x0, .any, 0xffffffff⟩⟩,
  ⟨0x7040, 64, 0x12, 0x12, ⟨.u32, .RO, .B, 0x0, .any, 0xffffffff⟩⟩,
  ⟨0x7040, 64, 0x13, 0x13, ⟨.u32, .RC, .A, 0x0, .any, 0xffffffff⟩⟩]

/-- Objects of range 0x7400. -/
def objRows74a : List ObjRow := [
  ⟨0x7400, 1, 0x1, 0x1, ⟨.u8, .CONST, .B, 0x10, .any, 0xff⟩⟩,
  ⟨0x7400, 1, 0x2, 0x2, ⟨.u16, .RC, .A, 0x0, .any, 0xffff⟩⟩,
  ⟨0x7400, 1, 0x3, 0x3, ⟨.bool, .RW, .P, 0x1, .span 0 1 1, 0xff⟩⟩,
  ⟨0x7400, 1, 0x4, 0x4, ⟨.u32, .RC, .A, 0x0, .any, 0xffffffff⟩⟩,
  ⟨0x7400, 1, 0x5, 0x5, ⟨.u32, .RC, .A, 0x0, .any, 0xffffffff⟩⟩,
  ⟨0x7400, 1, 0x6, 0x6, ⟨.u32, .RC, .A, 0x0, .any, 0xffffffff⟩⟩,
  ⟨0x7400, 1, 0x7, 0x7, ⟨.u32, .RC, .A, 0x0, .any, 0xffffffff⟩⟩,
  ⟨0x7401, 1, 0x1, 0x1, ⟨.enum8, .RO, .B, 0x0, .any, 0xff⟩⟩,
  ⟨0x7401, 1, 0x2, 0x2, ⟨.u64, .RO, .A, 0x0, .any, 0xffffffffffffffff⟩⟩,
  ⟨0x7401, 1, 0x3, 0x3, ⟨.u64, .RC, .A, 0x0, .any, 0xffffffffffffffff⟩⟩,
  ⟨0x7401, 1, 0x4, 0x4, ⟨.u64, .RC, .A, 0x0, .any, 0xffffffffffffffff⟩⟩,
  ⟨0x7410, 16, 0x1, 0x1, ⟨.bool, .RS, .D, 0x0, .span 0 1 1, 0xff⟩⟩,
  ⟨0x7410, 16, 0x2, 0x2, ⟨.enum8, .RS, .D, 0x0, .set [0, 1], 0xff⟩⟩,
  ⟨0x7410, 16, 0x3, 0x3, ⟨.u8, .RS, .D, 0x0, .span 0 15 1, 0xff⟩⟩,
  ⟨0x7410, 16, 0x4, 0x4, ⟨.u16, .RS, .D, 0x500, .span 64 4096 2, 0xffff⟩⟩,
  ⟨0x7410, 16, 0x5, 0x5, ⟨.u16, .RS, .D, 0x2D0, .span 64 2304 2, 0xffff⟩⟩,
  ⟨0x7410, 16, 0x6, 0x6, ⟨.u8, .RS, .D, 0x1, .span 1 2 1, 0xff⟩⟩,
  ⟨0x7410, 16, 0x7, 0x7, ⟨.u64, .RS, .D, 0x0, .galDram 4096, 0xFFFFFFFFFFFF⟩⟩,
  ⟨0x7410, 16, 0x8, 0x8, ⟨.u32, .RS, .D, 0x0, .span 0 0xFFFFFFFF 4096, 0xffffffff⟩⟩,
  ⟨0x7410, 16, 0x9, 0x9, ⟨.u8, .RS, .D, 0x20, .span 4 64 1, 0xff⟩⟩,
  ⟨0x7410, 16, 0xA, 0xA, ⟨.u8, .RS, .D, 0x10, .span 4 32 1, 0xff⟩⟩,
  ⟨0x7410, 16, 0xB, 0xB, ⟨.enum8, .RS, .D, 0x1, .span 0 2 1, 0xff⟩⟩,
  ⟨0x7410, 16, 0xC, 0xC, ⟨.u32, .RS, .D, 0x186A0, .span 1000 100000000 1, 0xffffffff⟩⟩,
  ⟨0x7410, 16, 0xD, 0xD, ⟨.u32, .RS, .D, 0x30D40, .span 1000 1000000000 1, 0xffffffff⟩⟩]

/-- Objects of range 0x7400. -/
def objRows74b : List ObjRow := [
  ⟨0x7410, 16, 0xE, 0xE, ⟨.u32, .RS, .D, 0x0, .orZero (.span 1000 1000000000 1), 0xffffffff⟩⟩,
  ⟨0x7410, 16, 0xF, 0xF, ⟨.u8, .RS, .D, 0x64, .span 0 255 1, 0xff⟩⟩,
  ⟨0x7410, 16, 0x10, 0x10, ⟨.u8, .RS, .D, 0x78, .span 0 255 1, 0xff⟩⟩,
  ⟨0x7410, 16, 0x11, 0x11, ⟨.u8, .RS, .D, 0x0, .span 0 255 1, 0xff⟩⟩,
  ⟨0x7410, 16, 0x12, 0x12, ⟨.u8, .RS, .D, 0xFF, .span 0 255 1, 0xff⟩⟩,
  ⟨0x7410, 16, 0x13, 0x13, ⟨.u16, .RS, .D, 0x0, .span 0 65535 1, 0xffff⟩⟩,
  ⟨0x7410, 16, 0x14, 0x14, ⟨.bool, .RS, .D, 0x0, .span 0 1 1, 0xff⟩⟩,
  ⟨0x7410, 16, 0x15, 0x15, ⟨.bool, .RS, .D, 0x0, .span 0 1 1, 0xff⟩⟩,
  ⟨0x7410, 16, 0x16, 0x16, ⟨.u8, .RS, .D, 0x0, .span 0 63 1, 0xff⟩⟩,
  ⟨0x7410, 16, 0x17, 0x17, ⟨.u64, .RS, .D, 0x0, .orZero (.galDram 8), 0xFFFFFFFFFFFF⟩⟩,
  ⟨0x7410, 16, 0x18, 0x18, ⟨.bool, .WO, .E, 0x0, .set [1], 0xff⟩⟩,
  ⟨0x7410, 16, 0x19, 0x19, ⟨.bool, .RO, .E, 0x0, .any, 0xff⟩⟩,
  ⟨0x7410, 16, 0x1A, 0x1A, ⟨.enum8, .RO, .E, 0x0, .any, 0xff⟩⟩,
  ⟨0x7410, 16, 0x1B, 0x1B, ⟨.u32, .RO, .E, 0x0, .any, 0xffffffff⟩⟩,
  ⟨0x7410, 16, 0x1C, 0x1C, ⟨.u32, .RO, .E, 0xFFFFFFFF, .any, 0xffffffff⟩⟩,
  ⟨0x7410, 16, 0x1D, 0x1D, ⟨.u32, .RO, .E, 0x0, .any, 0xffffffff⟩⟩,
  ⟨0x7410, 16, 0x1E, 0x1E, ⟨.u8, .RO, .E, 0x0, .any, 0xff⟩⟩]

/-- Objects of range 0x7800. -/
def objRows78a : List ObjRow := [
  ⟨0x7800, 1, 0x1, 0x1, ⟨.u32, .CONST, .B, 0x10000, .any, 0xffffffff⟩⟩,
  ⟨0x7800, 1, 0x2, 0x2, ⟨.u32, .CONST, .B, 0x1000000, .any, 0xffffffff⟩⟩,
  ⟨0x7800, 1, 0x3, 0x3, ⟨.bool, .RS, .A, 0x0, .span 0 1 1, 0xff⟩⟩,
  ⟨0x7800, 1, 0x4, 0x4, ⟨.enum8, .RO, .B, 0x0, .any, 0xff⟩⟩,
  ⟨0x7800, 1, 0x5, 0x5, ⟨.u64, .RW, .A, 0x0, .galDram 64, 0xFFFFFFFFFFFF⟩⟩,
  ⟨0x7800, 1, 0x6, 0x6, ⟨.u32, .RW, .A, 0x3040, .span 12352 17444928 1, 0xffffffff⟩⟩,
  ⟨0x7800, 1, 0x7, 0x7, ⟨.enum8, .WO, .A, 0x0, .set [1], 0xff⟩⟩,
  ⟨0x7800, 1, 0x8, 0x8, ⟨.u8, .RO, .A, 0x0, .any, 0xff⟩⟩,
  ⟨0x7800, 1, 0x9, 0x9, ⟨.u32, .RO, .B, 0x0, .any, 0xffffffff⟩⟩,
  ⟨0x7800, 1, 0xA, 0xA, ⟨.bool, .RW, .A, 0x0, .span 0 1 1, 0xff⟩⟩,
  ⟨0x7800, 1, 0xB, 0xB, ⟨.u32, .RC, .A, 0x0, .any, 0xffffffff⟩⟩,
  ⟨0x7800, 1, 0xC, 0xC, ⟨.u32, .WO, .A, 0x0, .any, 0xFFFFFF⟩⟩,
  ⟨0x7800, 1, 0xD, 0xD, ⟨.u8, .RS, .A, 0x0, .any, 0xff⟩⟩,
  ⟨0x7800, 1, 0xE, 0xE, ⟨.u8, .RS, .A, 0x6, .span 1 60 1, 0xff⟩⟩,
  ⟨0x7800, 1, 0xF, 0xF, ⟨.u8, .RS, .A, 0x5A, .span 30 120 1, 0xff⟩⟩,
  ⟨0x7800, 1, 0x10, 0x10, ⟨.u64, .RS, .A, 0x0, .galDram 64, 0xFFFFFFFFFFFF⟩⟩,
  ⟨0x7800, 1, 0x11, 0x11, ⟨.u32, .RS, .A, 0x0, .orZero (.pow2 64 1048576), 0xffffffff⟩⟩,
  ⟨0x7800, 1, 0x12, 0x12, ⟨.u32, .RS, .A, 0x0, .any, 0x1FFFF⟩⟩,
  ⟨0x7800, 1, 0x13, 0x13, ⟨.u32, .RO, .A, 0x0, .any, 0xffffffff⟩⟩,
  ⟨0x7800, 1, 0x14, 0x14, ⟨.u64, .RC, .A, 0x0, .any, 0xffffffffffffffff⟩⟩,
  ⟨0x7800, 1, 0x15, 0x15, ⟨.u32, .RC, .A, 0x0, .any, 0xffffffff⟩⟩,
  ⟨0x7800, 1, 0x16, 0x16, ⟨.u16, .RW, .A, 0x0, .any, 0xffff⟩⟩,
  ⟨0x7800, 1, 0x17, 0x17, ⟨.u64, .RO, .A, 0x0, .any, 0xffffffffffffffff⟩⟩,
  ⟨0x7800, 1, 0x18, 0x18, ⟨.u32, .RC, .A, 0x0, .any, 0xffffffff⟩⟩]

/-- Objects of range 0x7800. -/
def objRows78b : List ObjRow := [
  ⟨0x7800, 1, 0x19, 0x19, ⟨.u32, .RC, .A, 0x0, .any, 0xffffffff⟩⟩,
  ⟨0x7800, 1, 0x1A, 0x1A, ⟨.u32, .RC, .A, 0x0, .any, 0xffffffff⟩⟩,
  ⟨0x7800, 1, 0x1B, 0x1B, ⟨.u32, .RC, .A, 0x0, .any, 0xffffffff⟩⟩,
  ⟨0x7800, 1, 0x1C, 0x1C, ⟨.u32, .RC, .A, 0x0, .any, 0xffffffff⟩⟩,
  ⟨0x7800, 1, 0x1D, 0x1D, ⟨.u32, .RC, .A, 0x0, .any, 0xffffffff⟩⟩,
  ⟨0x7800, 1, 0x1E, 0x1E, ⟨.u32, .RC, .A, 0x0, .any, 0xffffffff⟩⟩,
  ⟨0x7800, 1, 0x1F, 0x1F, ⟨.u32, .RC, .A, 0x0, .any, 0xffffffff⟩⟩,
  ⟨0x7800, 1, 0x20, 0x20, ⟨.u32, .RC, .A, 0x0, .any, 0xffffffff⟩⟩,
  ⟨0x7800, 1, 0x21, 0x21, ⟨.u32, .RC, .A, 0x0, .any, 0xffffffff⟩⟩,
  ⟨0x7800, 1, 0x22, 0x22, ⟨.u32, .RC, .A, 0x0, .any, 0xffffffff⟩⟩,
  ⟨0x7810, 16, 0x1, 0x40, ⟨.u64, .RW, .A, 0x0, .any, 0xBF00FFFFFFFFFFFF⟩⟩,
  ⟨0x7810, 16, 0x41, 0x80, ⟨.u64, .RO, .A, 0x0, .any, 0xffffffffffffffff⟩⟩,
  ⟨0x7820, 4, 0x1, 0x1, ⟨.bool, .RS, .A, 0x0, .span 0 1 1, 0xff⟩⟩,
  ⟨0x7820, 4, 0x2, 0x2, ⟨.u32, .RS, .A, 0x0, .any, 0xFFFFFF⟩⟩,
  ⟨0x7820, 4, 0x3, 0x3, ⟨.u32, .RS, .A, 0xFFFFFF, .any, 0xFFFFFF⟩⟩,
  ⟨0x7820, 4, 0x4, 0x4, ⟨.u16, .RS, .A, 0x3E8, .span 1 4096 1, 0xffff⟩⟩,
  ⟨0x7820, 4, 0x5, 0x5, ⟨.u16, .RS, .A, 0x1, .span 1 65535 1, 0xffff⟩⟩,
  ⟨0x7820, 4, 0x6, 0x6, ⟨.u16, .RO, .A, 0x0, .any, 0xffff⟩⟩]

/-- Objects of range 0x7C00. -/
def objRows7Ca : List ObjRow := [
  ⟨0x7C00, 1, 0x1, 0x1, ⟨.u8, .CONST, .B, 0x20, .any, 0xff⟩⟩,
  ⟨0x7C00, 1, 0x2, 0x2, ⟨.u16, .CONST, .B, 0x1000, .any, 0xffff⟩⟩,
  ⟨0x7C00, 1, 0x3, 0x3, ⟨.bool, .RW, .P, 0x1, .span 0 1 1, 0xff⟩⟩,
  ⟨0x7C00, 1, 0x4, 0x4, ⟨.u32, .RC, .A, 0x0, .any, 0xffffffff⟩⟩,
  ⟨0x7C00, 1, 0x5, 0x5, ⟨.u32, .RC, .A, 0x0, .any, 0xffffffff⟩⟩,
  ⟨0x7C00, 1, 0x6, 0x6, ⟨.u32, .RC, .A, 0x0, .any, 0xffffffff⟩⟩,
  ⟨0x7C00, 1, 0x7, 0x7, ⟨.u32, .RC, .A, 0x0, .any, 0xffffffff⟩⟩,
  ⟨0x7C00, 1, 0x8, 0x8, ⟨.u32, .RC, .A, 0x0, .any, 0xffffffff⟩⟩,
  ⟨0x7C00, 1, 0x9, 0x9, ⟨.u32, .RC, .A, 0x0, .any, 0xffffffff⟩⟩,
  ⟨0x7C00, 1, 0xA, 0xA, ⟨.u32, .RC, .A, 0x0, .any, 0xffffffff⟩⟩,
  ⟨0x7C00, 1, 0xB, 0xB, ⟨.u32, .RC, .A, 0x0, .any, 0xffffffff⟩⟩,
  ⟨0x7C00, 1, 0xC, 0xC, ⟨.u32, .RS, .A, 0x0, .any, 0xffffffff⟩⟩,
  ⟨0x7C00, 1, 0xD, 0xD, ⟨.u32, .RO, .B, 0x0, .any, 0xffffffff⟩⟩,
  ⟨0x7C00, 1, 0xE, 0xE, ⟨.u8, .WO, .A, 0x0, .span 0 31 1, 0xff⟩⟩,
  ⟨0x7C00, 1, 0xF, 0xF, ⟨.u64, .RO, .A, 0x0, .any, 0xffffffffffffffff⟩⟩,
  ⟨0x7C00, 1, 0x10, 0x10, ⟨.u32, .RC, .A, 0x0, .any, 0xffffffff⟩⟩,
  ⟨0x7C20, 16, 0x1, 0x1, ⟨.u64, .RS, .D, 0x0, .span 0 0xFFFFFFFFFFFF 4096, 0xFFFFFFFFFFFF⟩⟩,
  ⟨0x7C20, 16, 0x2, 0x2, ⟨.u8, .RS, .D, 0x4, .span 1 64 1, 0xff⟩⟩,
  ⟨0x7C20, 16, 0x3, 0x3, ⟨.u32, .RO, .E, 0xFFFFFFFF, .any, 0xffffffff⟩⟩,
  ⟨0x7C40, 32, 0x1, 0x1, ⟨.bool, .RS, .C, 0x0, .span 0 1 1, 0xff⟩⟩,
  ⟨0x7C40, 32, 0x2, 0x2, ⟨.u8, .RS, .C, 0x0, .span 0 15 1, 0xff⟩⟩,
  ⟨0x7C40, 32, 0x3, 0x3, ⟨.enum8, .RS, .C, 0x0, .set [0, 1], 0xff⟩⟩,
  ⟨0x7C40, 32, 0x4, 0x4, ⟨.u16, .RS, .C, 0x0, .span 0 500 1, 0xffff⟩⟩,
  ⟨0x7C40, 32, 0x5, 0x5, ⟨.u8, .RS, .C, 0x1, .span 1 64 1, 0xff⟩⟩,
  ⟨0x7C40, 32, 0x6, 0x6, ⟨.u32, .RS, .C, 0x1000, .span 0x40 0x1000000 64, 0xffffffff⟩⟩]

/-- Objects of range 0x7C00. -/
def objRows7Cb : List ObjRow := [
  ⟨0x7C40, 32, 0x7, 0x7, ⟨.u64, .RS, .C, 0x0, .span 0 0xFFFFFFFFFFFF 4096, 0xFFFFFFFFFFFF⟩⟩,
  ⟨0x7C40, 32, 0x8, 0x8, ⟨.u8, .RS, .C, 0x2, .span 2 4 1, 0xff⟩⟩,
  ⟨0x7C40, 32, 0x9, 0x9, ⟨.u32, .RS, .C, 0x2000, .span 0x1000 0x40000000 4096, 0xffffffff⟩⟩,
  ⟨0x7C40, 32, 0xA, 0xA, ⟨.u32, .RS, .C, 0x0, .any, 0x1FFFF⟩⟩,
  ⟨0x7C40, 32, 0xB, 0xB, ⟨.u8, .RO, .B, 0x0, .any, 0xff⟩⟩,
  ⟨0x7C60, 16, 0x1, 0x1, ⟨.u64, .RS, .A, 0x0, .galDram 4096, 0xFFFFFFFFFFFF⟩⟩,
  ⟨0x7C60, 16, 0x2, 0x2, ⟨.u64, .RS, .A, 0x0, .span 0 0x400000000 4096, 0xffffffffffffffff⟩⟩]

/-- Objects of range 0x8000. -/
def objRows80a : List ObjRow := [
  ⟨0x8000, 1, 0x1, 0x1, ⟨.u8, .CONST, .B, 0x8, .any, 0xff⟩⟩,
  ⟨0x8000, 1, 0x2, 0x2, ⟨.u64, .CONST, .B, 0x400000000, .any, 0xffffffffffffffff⟩⟩,
  ⟨0x8000, 1, 0x3, 0x3, ⟨.enum8, .RS, .A, 0x0, .set [0, 1, 2, 3, 4, 5], 0xff⟩⟩,
  ⟨0x8000, 1, 0x4, 0x4, ⟨.u8, .RS, .A, 0xC, .span 8 16 1, 0xff⟩⟩,
  ⟨0x8000, 1, 0x5, 0x5, ⟨.enum8, .RS, .A, 0x0, .set [0, 1], 0xff⟩⟩,
  ⟨0x8000, 1, 0x6, 0x6, ⟨.bool, .RS, .A, 0x1, .span 0 1 1, 0xff⟩⟩,
  ⟨0x8000, 1, 0x7, 0x7, ⟨.enum8, .RS, .A, 0x1, .set [0, 1], 0xff⟩⟩,
  ⟨0x8000, 1, 0x8, 0x8, ⟨.u32, .RO, .B, 0x0, .any, 0xffffffff⟩⟩,
  ⟨0x8000, 1, 0x9, 0x9, ⟨.u64, .RO, .B, 0x0, .any, 0xffffffffffffffff⟩⟩,
  ⟨0x8000, 1, 0xA, 0xA, ⟨.u32, .RC, .A, 0x0, .any, 0xffffffff⟩⟩,
  ⟨0x8000, 1, 0xB, 0xB, ⟨.u32, .RC, .A, 0x0, .any, 0xffffffff⟩⟩,
  ⟨0x8000, 1, 0xC, 0xC, ⟨.u64, .RO, .A, 0x0, .any, 0xffffffffffffffff⟩⟩,
  ⟨0x8000, 1, 0xD, 0xD, ⟨.u32, .RS, .A, 0xE10, .span 0 86400 1, 0xffffffff⟩⟩,
  ⟨0x8000, 1, 0xE, 0xE, ⟨.bool, .RW, .P, 0x1, .span 0 1 1, 0xff⟩⟩,
  ⟨0x8000, 1, 0xF, 0xF, ⟨.u8, .RS, .A, 0x4, .span 1 20 1, 0xff⟩⟩,
  ⟨0x8010, 8, 0x1, 0x1, ⟨.enum8, .RO, .B, 0x0, .any, 0xff⟩⟩,
  ⟨0x8010, 8, 0x2, 0x2, ⟨.enum8, .WO, .F, 0x0, .set [1], 0xff⟩⟩,
  ⟨0x8010, 8, 0x3, 0x3, ⟨.bool, .RW, .F, 0x0, .span 0 1 1, 0xff⟩⟩,
  ⟨0x8010, 8, 0x4, 0x4, ⟨.u32, .RO, .A, 0xFFFFFFFF, .any, 0xffffffff⟩⟩,
  ⟨0x8010, 8, 0x5, 0x5, ⟨.i32, .RO, .A, 0x0, .any, 0xffffffff⟩⟩,
  ⟨0x8010, 8, 0x6, 0x6, ⟨.i32, .RO, .B, 0x0, .any, 0xffffffff⟩⟩,
  ⟨0x8010, 8, 0x7, 0x7, ⟨.u8, .RO, .A, 0x1, .any, 0xff⟩⟩,
  ⟨0x8010, 8, 0x8, 0x8, ⟨.bool, .RO, .A, 0x0, .any, 0xff⟩⟩,
  ⟨0x8010, 8, 0x9, 0x9, ⟨.u32, .RC, .A, 0x0, .any, 0xffffffff⟩⟩]

/-- Objects of range 0x8000. -/
def objRows80b : List ObjRow := [
  ⟨0x8010, 8, 0xA, 0xA, ⟨.u32, .RC, .A, 0x0, .any, 0xffffffff⟩⟩,
  ⟨0x8020, 4, 0x1, 0x1, ⟨.bool, .RS, .A, 0x0, .span 0 1 1, 0xff⟩⟩,
  ⟨0x8020, 4, 0x2, 0x2, ⟨.u16, .RS, .A, 0x0, .rtMark, 0xffff⟩⟩,
  ⟨0x8020, 4, 0x3, 0x3, ⟨.u16, .RS, .A, 0x0, .rtMark, 0xffff⟩⟩,
  ⟨0x8020, 4, 0x4, 0x4, ⟨.u16, .RO, .A, 0x0, .any, 0xffff⟩⟩,
  ⟨0x8020, 4, 0x5, 0x5, ⟨.enum8, .RO, .A, 0x0, .any, 0xff⟩⟩,
  ⟨0x8020, 4, 0x6, 0x6, ⟨.u32, .RC, .A, 0x0, .any, 0xffffffff⟩⟩,
  ⟨0x8020, 4, 0x7, 0x7, ⟨.u64, .RC, .A, 0x0, .any, 0xffffffffffffffff⟩⟩,
  ⟨0x8020, 4, 0x8, 0x8, ⟨.u64, .RO, .A, 0x0, .any, 0xffffffffffffffff⟩⟩,
  ⟨0x8040, 8, 0x1, 0x31, ⟨.u16, .RW, .K, 0x0, .any, 0x1FF⟩⟩,
  ⟨0x8040, 8, 0x32, 0x34, ⟨.u16, .RW, .K, 0x0, .any, 0x7F⟩⟩,
  ⟨0x8080, 8, 0x1, 0x34, ⟨.u16, .RO, .A, 0x0, .any, 0xffff⟩⟩]

/-- Objects of range 0x8800. -/
def objRows88a : List ObjRow := [
  ⟨0x8800, 1, 0x1, 0x1, ⟨.u8, .RO, .B, 0x0, .any, 0xff⟩⟩,
  ⟨0x8800, 1, 0x2, 0x2, ⟨.u32, .CONST, .B, 0x2FAF080, .any, 0xffffffff⟩⟩,
  ⟨0x8800, 1, 0x3, 0x3, ⟨.enum8, .RO, .A, 0x0, .any, 0xff⟩⟩,
  ⟨0x8800, 1, 0x4, 0x4, ⟨.u8, .RO, .A, 0x0, .any, 0xff⟩⟩,
  ⟨0x8800, 1, 0x5, 0x5, ⟨.u8, .RC, .A, 0x0, .any, 0xff⟩⟩,
  ⟨0x8800, 1, 0x6, 0x6, ⟨.enum8, .RO, .A, 0x0, .any, 0xff⟩⟩,
  ⟨0x8800, 1, 0x7, 0x7, ⟨.bool, .RW, .P, 0x1, .span 0 1 1, 0xff⟩⟩,
  ⟨0x8800, 1, 0x8, 0x8, ⟨.u16, .CONST, .B, 0x320, .any, 0xffff⟩⟩,
  ⟨0x8800, 1, 0x9, 0x9, ⟨.u8, .RO, .A, 0x0, .any, 0xff⟩⟩,
  ⟨0x8800, 1, 0xA, 0xA, ⟨.u16, .RO, .A, 0x0, .any, 0xffff⟩⟩,
  ⟨0x8800, 1, 0x10, 0x10, ⟨.u32, .RC, .A, 0x0, .any, 0xffffffff⟩⟩,
  ⟨0x8800, 1, 0x11, 0x11, ⟨.u32, .RC, .A, 0x0, .any, 0xffffffff⟩⟩,
  ⟨0x8800, 1, 0x12, 0x12, ⟨.u32, .RC, .A, 0x0, .any, 0xffffffff⟩⟩,
  ⟨0x8800, 1, 0x13, 0x13, ⟨.u32, .RC, .A, 0x0, .any, 0xffffffff⟩⟩,
  ⟨0x8800, 1, 0x14, 0x14, ⟨.u32, .RC, .A, 0x0, .any, 0xffffffff⟩⟩,
  ⟨0x8800, 1, 0x15, 0x15, ⟨.u32, .RC, .A, 0x0, .any, 0xffffffff⟩⟩,
  ⟨0x8800, 1, 0x16, 0x16, ⟨.u32, .RC, .A, 0x0, .any, 0xffffffff⟩⟩,
  ⟨0x8800, 1, 0x17, 0x17, ⟨.u32, .RC, .A, 0x0, .any, 0xffffffff⟩⟩,
  ⟨0x8800, 1, 0x18, 0x18, ⟨.u32, .RC, .A, 0x0, .any, 0xffffffff⟩⟩,
  ⟨0x8800, 1, 0x19, 0x19, ⟨.u32, .RC, .A, 0x0, .any, 0xffffffff⟩⟩,
  ⟨0x8800, 1, 0x1A, 0x1A, ⟨.u32, .RC, .A, 0x0, .any, 0xffffffff⟩⟩,
  ⟨0x8800, 1, 0x1B, 0x1B, ⟨.u32, .RC, .A, 0x0, .any, 0xffffffff⟩⟩,
  ⟨0x8800, 1, 0x1C, 0x1C, ⟨.u32, .RC, .A, 0x0, .any, 0xffffffff⟩⟩,
  ⟨0x8810, 1, 0x1, 0x1, ⟨.u8, .RW, .P, 0x0, .span 0 31 1, 0xff⟩⟩]

/-- Objects of range 0x8800. -/
def objRows88b : List ObjRow := [
  ⟨0x8810, 1, 0x2, 0x2, ⟨.blob, .RW, .P, 0x0, .any, 0x0⟩⟩,
  ⟨0x8810, 1, 0x3, 0x3, ⟨.bool, .WO, .P, 0x0, .set [1], 0xff⟩⟩,
  ⟨0x8810, 1, 0x4, 0x4, ⟨.enum8, .RO, .P, 0x0, .any, 0xff⟩⟩,
  ⟨0x8810, 1, 0x5, 0x5, ⟨.blob, .RO, .P, 0x0, .any, 0x0⟩⟩,
  ⟨0x8810, 1, 0x6, 0x6, ⟨.enum8, .RO, .P, 0x0, .any, 0xff⟩⟩,
  ⟨0x8810, 1, 0x7, 0x7, ⟨.u8, .RO, .P, 0x0, .any, 0xff⟩⟩]

/-- Objects of range 0x9000. -/
def objRows90a : List ObjRow := [
  ⟨0x9000, 1, 0x1, 0x1, ⟨.bool, .RS, .A, 0x0, .span 0 1 1, 0xff⟩⟩,
  ⟨0x9000, 1, 0x2, 0x2, ⟨.u8, .RS, .A, 0x0, .any, 0x1F⟩⟩,
  ⟨0x9000, 1, 0x3, 0x3, ⟨.u64, .RS, .A, 0x0, .any, 0xFFFFFFFFF⟩⟩,
  ⟨0x9000, 1, 0x4, 0x4, ⟨.u64, .RS, .A, 0xFFFFFFFFFFFFFFFF, .any, 0xffffffffffffffff⟩⟩,
  ⟨0x9000, 1, 0x5, 0x5, ⟨.u16, .RS, .A, 0x0, .span 0 65535 1, 0xffff⟩⟩,
  ⟨0x9000, 1, 0x6, 0x6, ⟨.u16, .RS, .A, 0xFFFF, .span 0 65535 1, 0xffff⟩⟩,
  ⟨0x9000, 1, 0x7, 0x7, ⟨.u64, .RS, .A, 0x0, .dramWin 4096, 0xFFFFFFFFFFFF⟩⟩,
  ⟨0x9000, 1, 0x8, 0x8, ⟨.u32, .RS, .A, 0x0, .span 0 0x40000000 4096, 0xffffffff⟩⟩,
  ⟨0x9000, 1, 0x9, 0x9, ⟨.u8, .RS, .A, 0xFF, .set [0, 1, 2, 3, 4, 5, 6, 7, 8, 9, 10, 11, 12, 13, 14, 15, 255], 0xff⟩⟩,
  ⟨0x9000, 1, 0xA, 0xA, ⟨.enum8, .RS, .A, 0x0, .set [0, 1], 0xff⟩⟩,
  ⟨0x9000, 1, 0xB, 0xB, ⟨.u32, .RS, .A, 0x0, .span 0 0xFFFFFFFF 64, 0xffffffff⟩⟩,
  ⟨0x9000, 1, 0xC, 0xC, ⟨.u32, .RS, .A, 0x1000, .span 0x100 0x10000 64, 0xffffffff⟩⟩,
  ⟨0x9000, 1, 0xD, 0xD, ⟨.u16, .RS, .A, 0x64, .span 1 10000 1, 0xffff⟩⟩,
  ⟨0x9000, 1, 0xE, 0xE, ⟨.u32, .RO, .A, 0x0, .any, 0xffffffff⟩⟩,
  ⟨0x9000, 1, 0xF, 0xF, ⟨.u32, .RW, .A, 0x0, .span 0 0xFFFFFFFF 64, 0xffffffff⟩⟩,
  ⟨0x9000, 1, 0x10, 0x10, ⟨.bool, .WO, .A, 0x0, .set [1], 0xff⟩⟩,
  ⟨0x9000, 1, 0x11, 0x11, ⟨.u8, .RC, .A, 0x0, .any, 0xff⟩⟩,
  ⟨0x9000, 1, 0x12, 0x12, ⟨.bool, .RW, .P, 0x1, .span 0 1 1, 0xff⟩⟩,
  ⟨0x9000, 1, 0x13, 0x13, ⟨.u64, .RO, .B, 0x0, .any, 0xffffffffffffffff⟩⟩,
  ⟨0x9000, 1, 0x14, 0x14, ⟨.enum8, .RO, .A, 0x0, .any, 0xff⟩⟩,
  ⟨0x9000, 1, 0x15, 0x15, ⟨.u32, .RC, .A, 0x0, .any, 0xffffffff⟩⟩,
  ⟨0x9000, 1, 0x16, 0x16, ⟨.u64, .RC, .A, 0x0, .any, 0xffffffffffffffff⟩⟩,
  ⟨0x9000, 1, 0x17, 0x17, ⟨.u32, .RC, .A, 0x0, .any, 0xffffffff⟩⟩,
  ⟨0x9000, 1, 0x18, 0x18, ⟨.u32, .RC, .A, 0x0, .any, 0xffffffff⟩⟩]

/-- Objects of range 0x9000. -/
def objRows90b : List ObjRow := [
  ⟨0x9000, 1, 0x19, 0x19, ⟨.u32, .RC, .A, 0x0, .any, 0xffffffff⟩⟩]

/-- Objects of range 0x9400. -/
def objRows94 : List ObjRow := [
  ⟨0x9400, 1, 0x1, 0x1, ⟨.enum8, .RO, .A, 0x0, .any, 0xff⟩⟩,
  ⟨0x9400, 1, 0x2, 0x2, ⟨.u8, .RO, .A, 0xFF, .any, 0xff⟩⟩,
  ⟨0x9400, 1, 0x3, 0x3, ⟨.u64, .RO, .A, 0x0, .any, 0xffffffffffffffff⟩⟩,
  ⟨0x9400, 1, 0x4, 0x4, ⟨.u32, .RC, .A, 0x0, .any, 0xffffffff⟩⟩,
  ⟨0x9400, 1, 0x5, 0x5, ⟨.u32, .RC, .A, 0x0, .any, 0xffffffff⟩⟩,
  ⟨0x9400, 1, 0x6, 0x6, ⟨.u32, .CONST, .B, 0x0, .any, 0xffffffff⟩⟩,
  ⟨0x9400, 1, 0x7, 0x7, ⟨.bool, .WO, .A, 0x0, .set [1], 0xff⟩⟩,
  ⟨0x9400, 1, 0x8, 0x8, ⟨.bool, .RS, .G, 0x1, .span 0 1 1, 0xff⟩⟩]

/-- Objects of range 0xA000. -/
def objRowsA0 : List ObjRow := [
  ⟨0xA000, 1, 0x1, 0x1, ⟨.enum8, .RO, .B, 0x0, .any, 0xff⟩⟩,
  ⟨0xA000, 1, 0x2, 0x2, ⟨.u32, .WO, .G, 0x0, .any, 0xffffffff⟩⟩,
  ⟨0xA000, 1, 0x3, 0x3, ⟨.u8, .RO, .A, 0x0, .any, 0xff⟩⟩,
  ⟨0xA000, 1, 0x4, 0x4, ⟨.u8, .WO, .A, 0x0, .any, 0xff⟩⟩,
  ⟨0xA000, 1, 0x5, 0x5, ⟨.enum8, .RO, .A, 0x0, .any, 0xff⟩⟩,
  ⟨0xA000, 1, 0x6, 0x6, ⟨.u16, .RO, .A, 0x0, .any, 0xffff⟩⟩,
  ⟨0xA000, 1, 0x7, 0x7, ⟨.u32, .RC, .A, 0x0, .any, 0xffffffff⟩⟩,
  ⟨0xA000, 1, 0x8, 0x8, ⟨.u32, .RW, .A, 0x0, .span 0 67108863 1, 0xffffffff⟩⟩,
  ⟨0xA000, 1, 0x9, 0x9, ⟨.u16, .RW, .A, 0x1000, .span 1 4096 1, 0xffff⟩⟩,
  ⟨0xA000, 1, 0xA, 0xA, ⟨.blob, .RW, .A, 0x0, .any, 0x0⟩⟩,
  ⟨0xA000, 1, 0xB, 0xB, ⟨.u32, .WO, .A, 0x0, .any, 0xffffffff⟩⟩,
  ⟨0xA000, 1, 0xC, 0xC, ⟨.enum8, .RO, .A, 0x0, .any, 0xff⟩⟩,
  ⟨0xA010, 4, 0x1, 0x1, ⟨.enum8, .RO, .B, 0x0, .any, 0xff⟩⟩,
  ⟨0xA010, 4, 0x2, 0x2, ⟨.u8, .RO, .B, 0x0, .any, 0xff⟩⟩,
  ⟨0xA010, 4, 0x3, 0x3, ⟨.blob, .RO, .B, 0x0, .any, 0x0⟩⟩,
  ⟨0xA010, 4, 0x4, 0x4, ⟨.blob, .WO, .G, 0x0, .any, 0x0⟩⟩,
  ⟨0xA010, 4, 0x5, 0x5, ⟨.bool, .WO, .G, 0x0, .set [1], 0xff⟩⟩]

/-- Objects of range 0xE000. -/
def objRowsE0 : List ObjRow := [
  ⟨0xE000, 1, 0x1, 0x1, ⟨.u16, .RO, .B, 0x0, .any, 0xffff⟩⟩,
  ⟨0xE000, 1, 0x2, 0x2, ⟨.blob, .RO, .A, 0x0, .any, 0x0⟩⟩]

/-- The rows of the range that holds an index (R91): ranges are told apart by bits [15:8]. -/
def objRows (idx : Nat) : List ObjRow :=
  match idx / 256 with
  | 0x10 => objRows10
  | 0x11 => objRows11
  | 0x12 => objRows12
  | 0x1F => objRows1F
  | 0x20 => objRows20
  | 0x21 => objRows21
  | 0x22 => objRows22
  | 0x28 => objRows28
  | 0x30 => objRows30
  | 0x31 => objRows31
  | 0x40 => objRows40
  | 0x41 => objRows41
  | 0x42 => objRows42a ++ objRows42b
  | 0x48 => objRows48a ++ objRows48b
  | 0x50 => objRows50
  | 0x51 => objRows51
  | 0x58 => objRows58a ++ objRows58b
  | 0x60 => objRows60a ++ objRows60b
  | 0x61 => objRows61a ++ objRows61b
  | 0x64 => objRows64a ++ objRows64b
  | 0x70 => objRows70a ++ objRows70b
  | 0x74 => objRows74a ++ objRows74b
  | 0x78 => objRows78a ++ objRows78b
  | 0x7C => objRows7Ca ++ objRows7Cb
  | 0x80 => objRows80a ++ objRows80b
  | 0x88 => objRows88a ++ objRows88b
  | 0x90 => objRows90a ++ objRows90b
  | 0x94 => objRows94
  | 0xA0 => objRowsA0
  | 0xE0 => objRowsE0
  | _ => []

/-- The rows of index 0x3140 + t: windows w with their base, length and flags (Table HOST-15). -/
def windowObj (sub : Nat) : Option ObjDef :=
  match sub % 4 with
  | 0 => some ⟨.u64, .RS, .D, 0, .span 0 0xFFFFFFFFFFFFF000 4096, 0xFFFFFFFFFFFFFFFF⟩
  | 1 => some ⟨.u64, .RS, .D, 0, .span 0 0x40000000 4096, 0xFFFFFFFFFFFFFFFF⟩
  | 2 => some ⟨.u8, .RS, .D, 0, .any, 0x0F⟩
  | _ => none

/-- The first row that covers an index and subindex. -/
def objFind : List ObjRow → Nat → Nat → Option ObjDef
  | [], _, _ => none
  | r :: rs, idx, sub =>
    if r.base ≤ idx ∧ idx < r.base + r.count ∧ r.lo ≤ sub ∧ sub ≤ r.hi then some r.d else objFind rs idx sub

/-- Whether an index is that of a window family member. -/
def isWindowIdx (idx : Nat) : Bool := decide (0x3140 ≤ idx ∧ idx < 0x3150)

/-- The object of an index and subindex, if the dictionary defines it (R1030). -/
def objLookup (idx sub : Nat) : Option ObjDef :=
  if isWindowIdx idx then windowObj sub else objFind (objRows idx) idx sub

/-- Whether any object has this index (check 1 of Table DICT-5). -/
def idxExists (idx : Nat) : Bool :=
  isWindowIdx idx || (objRows idx).any (fun r => decide (r.base ≤ idx ∧ idx < r.base + r.count))

/-- The key of an object in the value stores. -/
abbrev odKey (idx sub : Nat) : Nat := idx * 256 + sub

/-- The size in bytes of a fixed-size type (Table DICT-2); 0 for STR32 and BLOB, which have no expedited form. -/
def ObjTy.size : ObjTy → Nat
  | .u8 | .bool | .enum8 => 1
  | .u16 => 2
  | .u32 | .i32 => 4
  | .u64 | .date => 8
  | .str32 | .blob => 0

/-- The buffer size in lines of a real-time port (Table DMEM-5). -/
def rtBuffer : Nat → Nat
  | 0 => 1024
  | 1 => 64
  | 2 => 512
  | 3 => 512
  | _ => 0

/-- The default of an object (R1033), with the per-instance defaults of GPIO0 and of the real-time ports. -/
def odDefault (k : Nat) : Nat :=
  match k with
  | 0x221001 => 3
  | 0x221002 => 2
  | 0x802001 => 1
  | 0x802101 => 1
  | 0x802301 => 1
  | 0x802002 => 256
  | 0x802102 => 16
  | 0x802202 => 64
  | 0x802302 => 64
  | 0x802003 => 768
  | 0x802103 => 48
  | 0x802203 => 256
  | 0x802303 => 256
  | 0x802004 => 1024
  | 0x802104 => 64
  | 0x802204 => 512
  | 0x802304 => 512
  | k =>
    match objLookup (k / 256) (k % 256) with
    | some o => o.dflt
    | none => 0

/-! ### Domains and requirements (Tables TOUR-1 and POWR-1, R90) -/

/-- The domains that a domain requires (Table POWR-1). D0 requires VAON alone. -/
def domainNeeds (d : Nat) : List Nat :=
  if d = 0 then [] else if d = 1 ∨ d = 22 ∨ d = 23 then [0] else [1]

/-- The domain that holds an object (R90 and the object tables' own sentences). -/
def domainOf (k : Nat) : Nat :=
  let idx := k / 256
  match idx / 256 with
  | 0x10 | 0x11 | 0x12 | 0x1F | 0x20 | 0x88 | 0xA0 => 0
  | 0x30 | 0x31 => 26
  | 0x48 =>
    if 0x4810 ≤ idx ∧ idx < 0x4820 then 2 + (idx - 0x4810) / 2
    else if 0x4820 ≤ idx ∧ idx < 0x4840 then 2 + (idx - 0x4820) / 4
    else if 0x4840 ≤ idx ∧ idx < 0x4860 then 2 + (idx - 0x4840) / 4
    else 1
  | 0x60 | 0x61 => 23
  | 0x64 => 21
  | 0x70 =>
    if idx = 0x7010 then 18 else if idx = 0x7011 then 19
    else if 0x7040 ≤ idx then (if idx < 0x7060 then 18 else 19) else 1
  | 0x74 => if idx = 0x7400 then 1 else 20
  | 0x78 => 22
  | 0x80 =>
    if 0x8010 ≤ idx ∧ idx < 0x8018 then 24 + (idx - 0x8010) / 4
    else if 0x8040 ≤ idx ∧ idx < 0x8048 then 24 + (idx - 0x8040) / 4
    else if 0x8080 ≤ idx ∧ idx < 0x8088 then 24 + (idx - 0x8080) / 4
    else 1
  | 0x90 | 0x94 => 27
  | _ => 1

/-! ### Range checks (R93, R94, R103, R1037) -/

/-- A leap year of the Gregorian calendar (R912). -/
def leapYear (y : Nat) : Bool := y % 4 = 0 && (y % 100 ≠ 0 || y % 400 = 0)

/-- The days of a month (R912). -/
def monthLength (y m : Nat) : Nat :=
  if m = 2 then (if leapYear y then 29 else 28)
  else if m = 4 ∨ m = 6 ∨ m = 9 ∨ m = 11 then 30 else 31

/-- A valid instant of Table DICT-3 (R94). -/
def dateOk (v : Nat) : Bool :=
  let year := v % 65536
  let month := v / 2 ^ 16 % 256
  let day := v / 2 ^ 24 % 256
  let hour := v / 2 ^ 32 % 256
  let minute := v / 2 ^ 40 % 256
  let second := v / 2 ^ 48 % 256
  decide (2000 ≤ year ∧ year ≤ 2399 ∧ 1 ≤ month ∧ month ≤ 12 ∧ 1 ≤ day ∧ day ≤ monthLength year month ∧
    hour ≤ 23 ∧ minute ≤ 59 ∧ second ≤ 59)

/-- The engine kind of an agent ID in a stage word (R266): 0 matrix core, 1 Newel core, 2 decoder, 3 encoder,
4 scaler; none where no stage engine has the ID. -/
def engineKind (e : Nat) : Option Nat :=
  if e < 32 then some 0 else if e < 36 then some 1 else if e < 38 then some 2 else if e = 38 then some 3
  else if 40 ≤ e ∧ e < 48 then some 4 else none

/-- R266: the checks of one stage word. -/
def stageWordOk (v : Nat) : Bool :=
  let engine := v % 128
  let dh := v / 2 ^ 16 % 2
  let lanes := v / 2 ^ 17 % 8
  let gateValid := v / 2 ^ 23 % 2
  let gate := v / 2 ^ 24 % 65536
  let last := if dh = 1 then engine + 2 * lanes else engine + lanes
  (engineKind engine).isSome &&
  (dh = 0 || (engine < 32 && engine % 2 = 0)) &&
  decide (engineKind last = engineKind engine) &&
  (gateValid = 0 || decide (gate + lanes ≤ 0xFFFF))

/-- R856: bit 0 is set, and no set bit's domain requires a domain whose bit is clear. -/
def domainSetOk (v : Nat) : Bool :=
  v % 2 = 1 &&
  (List.range 28).all (fun d => v / 2 ^ d % 2 = 0 || (domainNeeds d).all (fun r => v / 2 ^ r % 2 = 1))

/-- An address in the gallery or DRAM region (Table TOUR-3). -/
def inGalDram (a : Nat) : Bool := decide (a < 0x10000000 ∨ (0x1000000000 ≤ a ∧ a < 0x1400000000))

/-- Whether a value lies in a range, for the instance `inst` of its family. -/
def Rng.ok : Rng → Nat → Nat → Bool
  | .any, _, _ => true
  | .span lo hi step, _, v => decide (lo ≤ v ∧ v ≤ hi ∧ v % step = 0)
  | .set l, _, v => l.contains v
  | .pow2 lo hi, _, v => decide (lo ≤ v ∧ v ≤ hi) && (List.range 32).any (fun k => v = 2 ^ k)
  | .orZero r, i, v => v = 0 || r.ok i v
  | .galDram step, _, v => v % step = 0 && inGalDram v
  | .dram step, _, v => v % step = 0 && decide (0x1000000000 ≤ v ∧ v < 0x1400000000)
  | .dramWin step, _, v =>
    v % step = 0 && decide ((0x1000000000 ≤ v ∧ v < 0x1400000000) ∨ (0x8000000000 ≤ v ∧ v < 0x18000000000))
  | .landing12, _, v => decide (v % 65536 ≤ 0x0FFF)
  | .i32 m, _, v => decide (v ≤ m ∨ (2 ^ 32 - m ≤ v ∧ v < 2 ^ 32))
  | .date, _, v => dateOk v
  | .domains, _, v => domainSetOk v
  | .stage, _, v => stageWordOk v
  | .owner, _, v => v / 2 ^ 15 % 2 = 0 || v / 2 ^ 12 % 2 = 1 || decide (v % 128 < 70)
  | .audRoute, _, v => decide (v / 16 % 4 < 3) && (decide (v / 16 % 4 < 2) || decide (v % 16 < 8))
  | .clkReq, _, v => v / 2 ^ 60 = 1 || v / 2 ^ 60 = 2
  | .rtMark, i, v => decide (v ≤ rtBuffer i)
  | .agentReset, _, v => decide (v ≤ 38 ∨ (40 ≤ v ∧ v ≤ 47))

/-- The printable-then-zero content of a STR32 (R95), of any length up to 32 bytes. -/
def str32Ok : List Byte → Bool
  | [] => true
  | b :: bs => if b = 0#8 then bs.all (fun c => c = 0#8) else (0x20 ≤ b.toNat && b.toNat ≤ 0x7E) && str32Ok bs

/-! ### The keys of the objects, by name -/

abbrev OD.TICK_PERIOD : Nat := 0x280001
abbrev OD.TICK_SOURCE : Nat := 0x280002
abbrev OD.PUBLISH_MARGIN : Nat := 0x280003
abbrev OD.TICK_OUT_MODE : Nat := 0x280004
abbrev OD.TELEGRAM_EMIT : Nat := 0x280005
abbrev OD.TICK_STATE : Nat := 0x280006
abbrev OD.EPOCH : Nat := 0x280007
abbrev OD.TICK_STRIKE : Nat := 0x280009
abbrev OD.TICK_RUN : Nat := 0x28000A
abbrev OD.BOUNDARY_STAMP : Nat := 0x28000B
abbrev OD.AUDIO_STAMP : Nat := 0x28000C
abbrev OD.LAST_LENGTH : Nat := 0x28000D
abbrev OD.BOUNDARY_FLAGS : Nat := 0x28000E
abbrev OD.FLYWHEEL_RUN : Nat := 0x28000F
abbrev OD.TICK_COMMIT : Nat := 0x280010
abbrev OD.LAST_COMMIT_EPOCH : Nat := 0x280011
abbrev OD.EARLY_ARRIVALS : Nat := 0x280012
abbrev OD.SYNTHETIC_TICKS : Nat := 0x280013
abbrev OD.LATE_ITEMS : Nat := 0x280014
abbrev OD.EPOCH_MISMATCHES : Nat := 0x280015
abbrev OD.LINK_STATE : Nat := 0x300001
abbrev OD.LINK_WIDTH : Nat := 0x300002
abbrev OD.LINK_SPEED : Nat := 0x300003
abbrev OD.CORR_ERRORS : Nat := 0x300004
abbrev OD.UNCORR_ERRORS : Nat := 0x300005
abbrev OD.PF1_STATE : Nat := 0x300006
abbrev OD.BOUNDARY_IRQ : Nat := 0x300007
abbrev OD.SLOTS_IN_USE : Nat := 0x300008
abbrev OD.TENANCY_COUNT : Nat := 0x310001
abbrev OD.TEN_ENABLE (i : Nat) : Nat := 0x311001 + 256 * i
abbrev OD.TEN_STATE (i : Nat) : Nat := 0x311002 + 256 * i
abbrev OD.SQ_BASE (i : Nat) : Nat := 0x311003 + 256 * i
abbrev OD.SQ_SIZE (i : Nat) : Nat := 0x311004 + 256 * i
abbrev OD.CQ_BASE (i : Nat) : Nat := 0x311005 + 256 * i
abbrev OD.CQ_SIZE (i : Nat) : Nat := 0x311006 + 256 * i
abbrev OD.SLOT_LIMIT (i : Nat) : Nat := 0x311007 + 256 * i
abbrev OD.CQ_IRQ_COUNT (i : Nat) : Nat := 0x311008 + 256 * i
abbrev OD.CQ_IRQ_DELAY (i : Nat) : Nat := 0x311009 + 256 * i
abbrev OD.SQ_HEAD (i : Nat) : Nat := 0x31100A + 256 * i
abbrev OD.CQ_TAIL (i : Nat) : Nat := 0x31100B + 256 * i
abbrev OD.SLOTS_HELD (i : Nat) : Nat := 0x31100C + 256 * i
abbrev OD.BAD_DESCRIPTORS (i : Nat) : Nat := 0x31100D + 256 * i
abbrev OD.WINDOW_FAULTS (i : Nat) : Nat := 0x31100E + 256 * i
abbrev OD.WINDOW_FAULT_ADDR (i : Nat) : Nat := 0x31100F + 256 * i
abbrev OD.DOORBELL_ERRORS (i : Nat) : Nat := 0x311010 + 256 * i
abbrev OD.WEDGE_CAUSE (i : Nat) : Nat := 0x311011 + 256 * i
abbrev OD.LANDING_COUNT : Nat := 0x400001
abbrev OD.PAYLOAD_PORTS : Nat := 0x400002
abbrev OD.OVERFLOWS : Nat := 0x400003
abbrev OD.PAYLOAD_DROPS : Nat := 0x400004
abbrev OD.OP_ERRORS : Nat := 0x400005
abbrev OD.ABANDONS : Nat := 0x400006
abbrev OD.FORCED_RELEASES : Nat := 0x400007
abbrev OD.HOLD_EXPIRIES : Nat := 0x400008
abbrev OD.PROBE_INDEX : Nat := 0x400009
abbrev OD.PROBE_WORD : Nat := 0x40000A
abbrev OD.PROBE_PORT : Nat := 0x40000B
abbrev OD.LAND_BASE (i : Nat) : Nat := 0x401001 + 256 * i
abbrev OD.LAND_COUNT (i : Nat) : Nat := 0x401002 + 256 * i
abbrev OD.FLIGHT_COUNT : Nat := 0x410001
abbrev OD.SLOT_COUNT : Nat := 0x410002
abbrev OD.BG_QUANTUM : Nat := 0x410003
abbrev OD.BG_ACTIVE_LIMIT : Nat := 0x410004
abbrev OD.ITEMS_ADMITTED : Nat := 0x410005
abbrev OD.STAGE_FAULTS : Nat := 0x410006
abbrev OD.IMAGE_ABSENTS : Nat := 0x410007
abbrev OD.BG_OVERRUNS : Nat := 0x410008
abbrev OD.BG_RUNNING : Nat := 0x410009
abbrev OD.PROBE_SLOT : Nat := 0x41000A
abbrev OD.FLIT_PROBE_STATE : Nat := 0x41000B
abbrev OD.FLT_STAGES (i : Nat) : Nat := 0x414001 + 256 * i
abbrev OD.FLT_PRIORITY (i : Nat) : Nat := 0x414002 + 256 * i
abbrev OD.FLT_ITEMS (i : Nat) : Nat := 0x414003 + 256 * i
abbrev OD.STAGE (i j : Nat) : Nat := 0x414010 + 256 * i + j
abbrev OD.LOAD_SLOT : Nat := 0x420001
abbrev OD.LOAD_SOURCE : Nat := 0x420002
abbrev OD.LOAD_LENGTH : Nat := 0x420003
abbrev OD.LOAD_GALLERY_BASE : Nat := 0x420004
abbrev OD.LOAD_ALCOVE_BASE : Nat := 0x420005
abbrev OD.LOAD_CORES : Nat := 0x420006
abbrev OD.LOAD_CONTEXT : Nat := 0x420007
abbrev OD.LOAD_CMD : Nat := 0x420008
abbrev OD.LOAD_STATE : Nat := 0x420009
abbrev OD.LOAD_RESULT : Nat := 0x42000A
abbrev OD.LOAD_FAIL_OFFSET : Nat := 0x42000B
abbrev OD.LOAD_PROGRESS : Nat := 0x42000C
abbrev OD.LOADS_FAILED : Nat := 0x42000D
abbrev OD.TILING_CLAMPS : Nat := 0x42000E
abbrev OD.IMG_STATE (i : Nat) : Nat := 0x421001 + 256 * i
abbrev OD.IMG_ID (i : Nat) : Nat := 0x421002 + 256 * i
abbrev OD.IMG_NAME (i : Nat) : Nat := 0x421003 + 256 * i
abbrev OD.IMG_GALLERY_BASE (i : Nat) : Nat := 0x421004 + 256 * i
abbrev OD.IMG_GALLERY_SIZE (i : Nat) : Nat := 0x421005 + 256 * i
abbrev OD.IMG_ALCOVE_BASE (i : Nat) : Nat := 0x421006 + 256 * i
abbrev OD.IMG_ALCOVE_SIZE (i : Nat) : Nat := 0x421007 + 256 * i
abbrev OD.IMG_CORES (i : Nat) : Nat := 0x421008 + 256 * i
abbrev OD.IMG_TENANTS (i : Nat) : Nat := 0x421009 + 256 * i
abbrev OD.IMG_LOAD_EPOCH (i : Nat) : Nat := 0x42100A + 256 * i
abbrev OD.IMG_KEY_SLOT (i : Nat) : Nat := 0x42100B + 256 * i
abbrev OD.IMG_ITEMS (i : Nat) : Nat := 0x42100C + 256 * i
abbrev OD.ARRAY_DIM : Nat := 0x480001
abbrev OD.KEEPER_GAP : Nat := 0x480002
abbrev OD.ZERO_GATE : Nat := 0x480003
abbrev OD.GATE_SLEW : Nat := 0x480004
abbrev OD.PAIR_DEFERRALS : Nat := 0x480005
abbrev OD.PAIR_MODE (i : Nat) : Nat := 0x481001 + 256 * i
abbrev OD.PAIR_STATE (i : Nat) : Nat := 0x481002 + 256 * i
abbrev OD.PAIR_PENDING (i : Nat) : Nat := 0x481003 + 256 * i
abbrev OD.FEEDER_MODE (i : Nat) : Nat := 0x482001 + 256 * i
abbrev OD.FEED_STALL_CYCLES (i : Nat) : Nat := 0x482002 + 256 * i
abbrev OD.FEED_BUBBLES (i : Nat) : Nat := 0x482003 + 256 * i
abbrev OD.KEEPER_CYCLES (i : Nat) : Nat := 0x482004 + 256 * i
abbrev OD.SAT_EVENTS (i : Nat) : Nat := 0x482005 + 256 * i
abbrev OD.ARRAY_EXCEPTIONS (i : Nat) : Nat := 0x482006 + 256 * i
abbrev OD.ALCOVE_SIZE : Nat := 0x486001
abbrev OD.ALCOVE_BANKS : Nat := 0x486002
abbrev OD.DMA_QUEUE_DEPTH : Nat := 0x486003
abbrev OD.ISA_VERSION : Nat := 0x486004
abbrev OD.CORE_STATE (i : Nat) : Nat := 0x484001 + 256 * i
abbrev OD.STAGES_RUN (i : Nat) : Nat := 0x484002 + 256 * i
abbrev OD.INSTRUCTIONS (i : Nat) : Nat := 0x484003 + 256 * i
abbrev OD.CORE_EXCEPTIONS (i : Nat) : Nat := 0x484004 + 256 * i
abbrev OD.LAST_EXCEPTION (i : Nat) : Nat := 0x484005 + 256 * i
abbrev OD.LAST_EXC_ADDR (i : Nat) : Nat := 0x484006 + 256 * i
abbrev OD.ALCOVE_CORRECTED (i : Nat) : Nat := 0x484007 + 256 * i
abbrev OD.BANK_WAIT_CYCLES (i : Nat) : Nat := 0x484008 + 256 * i
abbrev OD.DMA_BYTES (i : Nat) : Nat := 0x484009 + 256 * i
abbrev OD.GALLERY_BYTES : Nat := 0x500001
abbrev OD.GALLERY_BANKS : Nat := 0x500002
abbrev OD.SCRUB_PERIOD : Nat := 0x500003
abbrev OD.GALL_CORRECTED : Nat := 0x500004
abbrev OD.GALL_UNCORRECTABLE : Nat := 0x500005
abbrev OD.GALL_LAST_UNCORR_ADDR : Nat := 0x500006
abbrev OD.SCRUB_PASSES : Nat := 0x500007
abbrev OD.PAIR_READY (i : Nat) : Nat := 0x501001 + 256 * i
abbrev OD.PAIR_CORRECTED (i : Nat) : Nat := 0x501002 + 256 * i
abbrev OD.PAIR_UNCORR (i : Nat) : Nat := 0x501003 + 256 * i
abbrev OD.TEN_GAL_BASE (i : Nat) : Nat := 0x502001 + 256 * i
abbrev OD.TEN_GAL_SIZE (i : Nat) : Nat := 0x502002 + 256 * i
abbrev OD.MASTER_PORTS : Nat := 0x510001
abbrev OD.BAL_WINDOW : Nat := 0x510002
abbrev OD.MISS_MASK : Nat := 0x510003
abbrev OD.MISS_IRQ : Nat := 0x510004
abbrev OD.GAL_GUAR_SUM : Nat := 0x510005
abbrev OD.DRAM_GUAR_SUM : Nat := 0x510006
abbrev OD.PANIC_WINDOWS : Nat := 0x510007
abbrev OD.GUAR_GAL (i : Nat) : Nat := 0x511001 + 256 * i
abbrev OD.GUAR_DRAM (i : Nat) : Nat := 0x511002 + 256 * i
abbrev OD.SHARE (i : Nat) : Nat := 0x511003 + 256 * i
abbrev OD.LAT_LIMIT (i : Nat) : Nat := 0x511004 + 256 * i
abbrev OD.EFF_GUAR_GAL (i : Nat) : Nat := 0x511005 + 256 * i
abbrev OD.EFF_GUAR_DRAM (i : Nat) : Nat := 0x511006 + 256 * i
abbrev OD.MISSES (i : Nat) : Nat := 0x511007 + 256 * i
abbrev OD.MAX_LAT (i : Nat) : Nat := 0x511008 + 256 * i
abbrev OD.BYTES_SERVED (i : Nat) : Nat := 0x511009 + 256 * i
abbrev OD.POOL_COUNT : Nat := 0x580001
abbrev OD.CLAIM_RECORDS : Nat := 0x580002
abbrev OD.CLAIMS_IN_USE : Nat := 0x580003
abbrev OD.ALLOCATIONS : Nat := 0x580004
abbrev OD.POOL_EMPTIES : Nat := 0x580005
abbrev OD.SPILLS : Nat := 0x580006
abbrev OD.RELEASE_ERRORS : Nat := 0x580007
abbrev OD.RING_DISCARDS : Nat := 0x580008
abbrev OD.LEAKS : Nat := 0x580009
abbrev OD.POOL_EVENTS : Nat := 0x58000A
abbrev OD.POOL_IRQ : Nat := 0x58000B
abbrev OD.CLK_REQUEST (i : Nat) : Nat := 0x580101 + 256 * i
abbrev OD.CLK_RESULT (i : Nat) : Nat := 0x580102 + 256 * i
abbrev OD.POOL_ENABLE (i : Nat) : Nat := 0x581001 + 256 * i
abbrev OD.POOL_SIZE_LOG2 (i : Nat) : Nat := 0x581002 + 256 * i
abbrev OD.POOL_BASE (i : Nat) : Nat := 0x581003 + 256 * i
abbrev OD.POOL_BUFFERS (i : Nat) : Nat := 0x581004 + 256 * i
abbrev OD.RING_BASE (i : Nat) : Nat := 0x581005 + 256 * i
abbrev OD.RING_ENTRIES (i : Nat) : Nat := 0x581006 + 256 * i
abbrev OD.POOL_SEALED (i : Nat) : Nat := 0x581007 + 256 * i
abbrev OD.POOL_LOW (i : Nat) : Nat := 0x581008 + 256 * i
abbrev OD.POOL_STATE (i : Nat) : Nat := 0x581009 + 256 * i
abbrev OD.FREE_TICKETS (i : Nat) : Nat := 0x58100A + 256 * i
abbrev OD.IN_USE (i : Nat) : Nat := 0x58100B + 256 * i
abbrev OD.MIN_FREE (i : Nat) : Nat := 0x58100C + 256 * i
abbrev OD.SCRUB_PENDING (i : Nat) : Nat := 0x58100D + 256 * i
abbrev OD.OWNER (i j : Nat) : Nat := 0x584001 + 256 * i + j
abbrev OD.SENSOR_PORTS : Nat := 0x600001
abbrev OD.SENS_LED_STATE : Nat := 0x600002
abbrev OD.STREAMING : Nat := 0x600003
abbrev OD.SENS_ENABLE (i : Nat) : Nat := 0x601001 + 256 * i
abbrev OD.LANES (i : Nat) : Nat := 0x601002 + 256 * i
abbrev OD.LANE_RATE (i : Nat) : Nat := 0x601003 + 256 * i
abbrev OD.VC (i : Nat) : Nat := 0x601004 + 256 * i
abbrev OD.DATA_TYPE (i : Nat) : Nat := 0x601005 + 256 * i
abbrev OD.WIDTH (i : Nat) : Nat := 0x601006 + 256 * i
abbrev OD.HEIGHT (i : Nat) : Nat := 0x601007 + 256 * i
abbrev OD.PAD_BYTE (i : Nat) : Nat := 0x601008 + 256 * i
abbrev OD.FRAME_OWNERS (i : Nat) : Nat := 0x601009 + 256 * i
abbrev OD.FRAME_SPILL (i : Nat) : Nat := 0x60100A + 256 * i
abbrev OD.FRAME_LANDING (i : Nat) : Nat := 0x60100B + 256 * i
abbrev OD.FRAME_TIMEOUT (i : Nat) : Nat := 0x60100C + 256 * i
abbrev OD.PORT_STATE (i : Nat) : Nat := 0x602001 + 256 * i
abbrev OD.FRAME_INFO (i : Nat) : Nat := 0x602002 + 256 * i
abbrev OD.FRAME_START_TIME (i : Nat) : Nat := 0x602003 + 256 * i
abbrev OD.FRAME_END_TIME (i : Nat) : Nat := 0x602004 + 256 * i
abbrev OD.FRAME_EPOCH (i : Nat) : Nat := 0x602005 + 256 * i
abbrev OD.FRAMES_DELIVERED (i : Nat) : Nat := 0x602006 + 256 * i
abbrev OD.FRAMES_FLAGGED (i : Nat) : Nat := 0x602007 + 256 * i
abbrev OD.FRAMES_DROPPED (i : Nat) : Nat := 0x602008 + 256 * i
abbrev OD.SOT_ERRORS (i : Nat) : Nat := 0x602009 + 256 * i
abbrev OD.HDR_CORRECTED (i : Nat) : Nat := 0x60200A + 256 * i
abbrev OD.HDR_DISCARDS (i : Nat) : Nat := 0x60200B + 256 * i
abbrev OD.CRC_ERRORS (i : Nat) : Nat := 0x60200C + 256 * i
abbrev OD.OTHER_PACKETS (i : Nat) : Nat := 0x60200D + 256 * i
abbrev OD.DESKEWS (i : Nat) : Nat := 0x60200E + 256 * i
abbrev OD.SYNC_ERRORS (i : Nat) : Nat := 0x60200F + 256 * i
abbrev OD.AUD_CLOCK_SOURCE : Nat := 0x610001
abbrev OD.CLOCK_STATE : Nat := 0x610002
abbrev OD.HOLDOVERS : Nat := 0x610003
abbrev OD.PORT_ROUTE_SWAP : Nat := 0x610004
abbrev OD.PORT_ROUTE_SWAPS : Nat := 0x610005
abbrev OD.PDM_ENABLE : Nat := 0x610006
abbrev OD.PDM_CLOCK : Nat := 0x610007
abbrev OD.PDM_HPF : Nat := 0x610008
abbrev OD.PDM_EDGE : Nat := 0x610009
abbrev OD.TDM_ENABLE (i : Nat) : Nat := 0x611001 + 256 * i
abbrev OD.TDM_SLOTS (i : Nat) : Nat := 0x611002 + 256 * i
abbrev OD.TDM_ROLE (i : Nat) : Nat := 0x611003 + 256 * i
abbrev OD.TDM_WIDTH (i : Nat) : Nat := 0x611004 + 256 * i
abbrev OD.TDM_FORMAT (i : Nat) : Nat := 0x611005 + 256 * i
abbrev OD.TDM_FRAME_ERRORS (i : Nat) : Nat := 0x611006 + 256 * i
abbrev OD.TDM_SLIPS (i : Nat) : Nat := 0x611007 + 256 * i
abbrev OD.PORT_ROUTE (i : Nat) : Nat := 0x612001 + 256 * i
abbrev OD.PORT_ROUTE_LIVE (i : Nat) : Nat := 0x612002 + 256 * i
abbrev OD.AR_BASE (i : Nat) : Nat := 0x614001 + 256 * i
abbrev OD.AR_FRAMES (i : Nat) : Nat := 0x614002 + 256 * i
abbrev OD.AR_CHANNELS (i : Nat) : Nat := 0x614003 + 256 * i
abbrev OD.AR_LANDING (i : Nat) : Nat := 0x614004 + 256 * i
abbrev OD.AR_POS (i : Nat) : Nat := 0x614005 + 256 * i
abbrev OD.AR_WRITTEN (i : Nat) : Nat := 0x614006 + 256 * i
abbrev OD.AR_FAULTS (i : Nat) : Nat := 0x614007 + 256 * i
abbrev OD.SCALERS : Nat := 0x640001
abbrev OD.SAMPLE_NEXT : Nat := 0x640002
abbrev OD.BQ_DEPTH : Nat := 0x640003
abbrev OD.BQ_LOW_WATER : Nat := 0x640004
abbrev OD.BQ_EVENTS : Nat := 0x640005
abbrev OD.BQ_IRQ : Nat := 0x640006
abbrev OD.VEST_JOB_EXCEPTIONS : Nat := 0x640007
abbrev OD.SCALER_STATE (i : Nat) : Nat := 0x641001 + 256 * i
abbrev OD.JOBS_RUN (i : Nat) : Nat := 0x641002 + 256 * i
abbrev OD.VEST_LAST_JOB_EXC (i : Nat) : Nat := 0x641003 + 256 * i
abbrev OD.VEST_PIXELS (i : Nat) : Nat := 0x641004 + 256 * i
abbrev OD.PK_ENABLE (i : Nat) : Nat := 0x642001 + 256 * i
abbrev OD.PK_DTYPE (i : Nat) : Nat := 0x642002 + 256 * i
abbrev OD.PK_ROW_ELEMS (i : Nat) : Nat := 0x642003 + 256 * i
abbrev OD.PK_ROWS (i : Nat) : Nat := 0x642004 + 256 * i
abbrev OD.PK_MAX_SEGMENTS (i : Nat) : Nat := 0x642005 + 256 * i
abbrev OD.PK_BASE (i : Nat) : Nat := 0x642006 + 256 * i
abbrev OD.PK_SLOTS (i : Nat) : Nat := 0x642007 + 256 * i
abbrev OD.PK_SEALED (i : Nat) : Nat := 0x642008 + 256 * i
abbrev OD.PK_CONTEXT (i : Nat) : Nat := 0x642009 + 256 * i
abbrev OD.PK_DELIVER (i : Nat) : Nat := 0x64200A + 256 * i
abbrev OD.PK_RETURN (i : Nat) : Nat := 0x64200B + 256 * i
abbrev OD.PK_DEAL (i : Nat) : Nat := 0x64200C + 256 * i
abbrev OD.PK_LINGER (i : Nat) : Nat := 0x64200D + 256 * i
abbrev OD.PK_STATE (i : Nat) : Nat := 0x64200E + 256 * i
abbrev OD.PK_WAITING (i : Nat) : Nat := 0x64200F + 256 * i
abbrev OD.BATCHES (i : Nat) : Nat := 0x642010 + 256 * i
abbrev OD.PK_VOIDS (i : Nat) : Nat := 0x642011 + 256 * i
abbrev OD.DEC_CONTEXTS : Nat := 0x700001
abbrev OD.DEC_EVENTS : Nat := 0x700002
abbrev OD.DEC_IRQ : Nat := 0x700003
abbrev OD.PICTURES_DECODED : Nat := 0x700004
abbrev OD.PICTURES_CONCEALED : Nat := 0x700005
abbrev OD.BUDGET_OVERRUNS : Nat := 0x700006
abbrev OD.VDEC_JOB_EXCEPTIONS : Nat := 0x700007
abbrev OD.VDEC_ENGINE_STATE (i : Nat) : Nat := 0x701001 + 256 * i
abbrev OD.VDEC_LAST_JOB_EXC (i : Nat) : Nat := 0x701002 + 256 * i
abbrev OD.VDEC_PIXELS (i : Nat) : Nat := 0x701003 + 256 * i
abbrev OD.VDEC_BUSY_CYCLES (i : Nat) : Nat := 0x701004 + 256 * i
abbrev OD.CTX_ENABLE (i : Nat) : Nat := 0x704001 + 256 * i
abbrev OD.CTX_CODEC (i : Nat) : Nat := 0x704002 + 256 * i
abbrev OD.CTX_TENANCY (i : Nat) : Nat := 0x704003 + 256 * i
abbrev OD.CTX_MAX_W (i : Nat) : Nat := 0x704004 + 256 * i
abbrev OD.CTX_MAX_H (i : Nat) : Nat := 0x704005 + 256 * i
abbrev OD.FS_BASE (i : Nat) : Nat := 0x704006 + 256 * i
abbrev OD.FS_BYTES (i : Nat) : Nat := 0x704007 + 256 * i
abbrev OD.FS_SLOTS (i : Nat) : Nat := 0x704008 + 256 * i
abbrev OD.MF_BASE (i : Nat) : Nat := 0x704009 + 256 * i
abbrev OD.MF_SLOTS (i : Nat) : Nat := 0x70400A + 256 * i
abbrev OD.MF_SLOT_BYTES (i : Nat) : Nat := 0x70400B + 256 * i
abbrev OD.OUT_FORMAT (i : Nat) : Nat := 0x70400C + 256 * i
abbrev OD.BUDGET_X4 (i : Nat) : Nat := 0x70400D + 256 * i
abbrev OD.GRAIN (i : Nat) : Nat := 0x70400E + 256 * i
abbrev OD.CTX_STATE (i : Nat) : Nat := 0x70400F + 256 * i
abbrev OD.CTX_REASON (i : Nat) : Nat := 0x704010 + 256 * i
abbrev OD.DECODE_COUNT (i : Nat) : Nat := 0x704011 + 256 * i
abbrev OD.CUR_GEOMETRY (i : Nat) : Nat := 0x704012 + 256 * i
abbrev OD.CTX_CONCEALED (i : Nat) : Nat := 0x704013 + 256 * i
abbrev OD.ENC_CONTEXTS : Nat := 0x740001
abbrev OD.ENC_EVENTS : Nat := 0x740002
abbrev OD.ENC_IRQ : Nat := 0x740003
abbrev OD.PICTURES_ENCODED : Nat := 0x740004
abbrev OD.KEYS_PRODUCED : Nat := 0x740005
abbrev OD.PICTURES_DROPPED : Nat := 0x740006
abbrev OD.VENC_JOB_EXCEPTIONS : Nat := 0x740007
abbrev OD.VENC_ENGINE_STATE : Nat := 0x740101
abbrev OD.VENC_LAST_JOB_EXC : Nat := 0x740102
abbrev OD.VENC_PIXELS : Nat := 0x740103
abbrev OD.VENC_BUSY_CYCLES : Nat := 0x740104
abbrev OD.ENC_ENABLE (i : Nat) : Nat := 0x741001 + 256 * i
abbrev OD.ENC_CODEC (i : Nat) : Nat := 0x741002 + 256 * i
abbrev OD.ENC_TENANCY (i : Nat) : Nat := 0x741003 + 256 * i
abbrev OD.ENC_WIDTH (i : Nat) : Nat := 0x741004 + 256 * i
abbrev OD.ENC_HEIGHT (i : Nat) : Nat := 0x741005 + 256 * i
abbrev OD.ENC_REFS (i : Nat) : Nat := 0x741006 + 256 * i
abbrev OD.ENC_FS_BASE (i : Nat) : Nat := 0x741007 + 256 * i
abbrev OD.ENC_FS_BYTES (i : Nat) : Nat := 0x741008 + 256 * i
abbrev OD.ME_RANGE_X (i : Nat) : Nat := 0x741009 + 256 * i
abbrev OD.ME_RANGE_Y (i : Nat) : Nat := 0x74100A + 256 * i
abbrev OD.RC_MODE (i : Nat) : Nat := 0x74100B + 256 * i
abbrev OD.RC_TARGET (i : Nat) : Nat := 0x74100C + 256 * i
abbrev OD.RC_BUFFER (i : Nat) : Nat := 0x74100D + 256 * i
abbrev OD.RC_MAX_PIC (i : Nat) : Nat := 0x74100E + 256 * i
abbrev OD.QP_KEY (i : Nat) : Nat := 0x74100F + 256 * i
abbrev OD.QP_INTER (i : Nat) : Nat := 0x741010 + 256 * i
abbrev OD.QP_MIN (i : Nat) : Nat := 0x741011 + 256 * i
abbrev OD.QP_MAX (i : Nat) : Nat := 0x741012 + 256 * i
abbrev OD.KEY_INTERVAL (i : Nat) : Nat := 0x741013 + 256 * i
abbrev OD.SRC_HOLD (i : Nat) : Nat := 0x741014 + 256 * i
abbrev OD.SRC_SEAL (i : Nat) : Nat := 0x741015 + 256 * i
abbrev OD.SRC_OWNERS (i : Nat) : Nat := 0x741016 + 256 * i
abbrev OD.SRC_WORD (i : Nat) : Nat := 0x741017 + 256 * i
abbrev OD.KEY_REQUEST (i : Nat) : Nat := 0x741018 + 256 * i
abbrev OD.KEY_PENDING (i : Nat) : Nat := 0x741019 + 256 * i
abbrev OD.ENC_STATE (i : Nat) : Nat := 0x74101A + 256 * i
abbrev OD.ENC_COUNT (i : Nat) : Nat := 0x74101B + 256 * i
abbrev OD.SRC_TICKET (i : Nat) : Nat := 0x74101C + 256 * i
abbrev OD.RC_FULLNESS (i : Nat) : Nat := 0x74101D + 256 * i
abbrev OD.LAST_QP (i : Nat) : Nat := 0x74101E + 256 * i
abbrev OD.NEURONS : Nat := 0x780001
abbrev OD.SYNAPSE_BYTES : Nat := 0x780002
abbrev OD.COL_RUN : Nat := 0x780003
abbrev OD.COL_STATE : Nat := 0x780004
abbrev OD.NET_SOURCE : Nat := 0x780005
abbrev OD.NET_LENGTH : Nat := 0x780006
abbrev OD.NET_CMD : Nat := 0x780007
abbrev OD.NET_RESULT : Nat := 0x780008
abbrev OD.TIMESTEPS : Nat := 0x780009
abbrev OD.COLN_ROUTE_SWAP : Nat := 0x78000A
abbrev OD.COLN_ROUTE_SWAPS : Nat := 0x78000B
abbrev OD.INJECT : Nat := 0x78000C
abbrev OD.FE_ENABLE : Nat := 0x78000D
abbrev OD.FE_DELTA : Nat := 0x78000E
abbrev OD.FE_FLOOR : Nat := 0x78000F
abbrev OD.OUT_BASE : Nat := 0x780010
abbrev OD.OUT_ENTRIES : Nat := 0x780011
abbrev OD.OUT_LANDING : Nat := 0x780012
abbrev OD.OUT_POS : Nat := 0x780013
abbrev OD.WAKE_CAUSE : Nat := 0x780014
abbrev OD.WAKES : Nat := 0x780015
abbrev OD.PROBE_NEURON : Nat := 0x780016
abbrev OD.COLN_PROBE_STATE : Nat := 0x780017
abbrev OD.EVENTS_INJECTED : Nat := 0x780018
abbrev OD.SYNOPS : Nat := 0x780019
abbrev OD.ROUTE_MISSES : Nat := 0x78001A
abbrev OD.HOP_DROPS : Nat := 0x78001B
abbrev OD.QUEUE_DROPS : Nat := 0x78001C
abbrev OD.LATE_EVENTS : Nat := 0x78001D
abbrev OD.STALE_DROPS : Nat := 0x78001E
abbrev OD.FAN_MISSES : Nat := 0x78001F
abbrev OD.OUT_DROPS : Nat := 0x780020
abbrev OD.SYN_CORRECTED : Nat := 0x780021
abbrev OD.SYN_UNCORR : Nat := 0x780022
abbrev OD.COLN_ROUTE (i j : Nat) : Nat := 0x781001 + 256 * i + j
abbrev OD.COLN_ROUTE_LIVE (i j : Nat) : Nat := 0x781041 + 256 * i + j
abbrev OD.COLN_WAKE_ENABLE (i : Nat) : Nat := 0x782001 + 256 * i
abbrev OD.WAKE_KEY (i : Nat) : Nat := 0x782002 + 256 * i
abbrev OD.WAKE_MASK (i : Nat) : Nat := 0x782003 + 256 * i
abbrev OD.WAKE_WINDOW (i : Nat) : Nat := 0x782004 + 256 * i
abbrev OD.WAKE_COUNT (i : Nat) : Nat := 0x782005 + 256 * i
abbrev OD.WAKE_LEVEL (i : Nat) : Nat := 0x782006 + 256 * i
abbrev OD.LAYER_COUNT : Nat := 0x7C0001
abbrev OD.EMIT_CAP : Nat := 0x7C0002
abbrev OD.BUNDLE_IRQ : Nat := 0x7C0003
abbrev OD.PUBLISHES : Nat := 0x7C0004
abbrev OD.LAYERS_HELD : Nat := 0x7C0005
abbrev OD.LAYERS_DROPPED : Nat := 0x7C0006
abbrev OD.PARTS_REFUSED : Nat := 0x7C0007
abbrev OD.PARTS_EXTRA : Nat := 0x7C0008
abbrev OD.SEALED_FAILS : Nat := 0x7C0009
abbrev OD.EMITTED : Nat := 0x7C000A
abbrev OD.SEAL_DENIALS : Nat := 0x7C000B
abbrev OD.CORE_SEAL : Nat := 0x7C000C
abbrev OD.CORES_SEALED : Nat := 0x7C000D
abbrev OD.UNSEAL_CORE : Nat := 0x7C000E
abbrev OD.SEAL_FILL_PENDING : Nat := 0x7C000F
abbrev OD.BUNDLE_FAULTS : Nat := 0x7C0010
abbrev OD.BND_BASE (i : Nat) : Nat := 0x7C2001 + 256 * i
abbrev OD.BND_SLOTS (i : Nat) : Nat := 0x7C2002 + 256 * i
abbrev OD.BND_LAST_EPOCH (i : Nat) : Nat := 0x7C2003 + 256 * i
abbrev OD.LAYER_ENABLE (i : Nat) : Nat := 0x7C4001 + 256 * i
abbrev OD.LAYER_TENANCY (i : Nat) : Nat := 0x7C4002 + 256 * i
abbrev OD.LAYER_POLICY (i : Nat) : Nat := 0x7C4003 + 256 * i
abbrev OD.LAYER_GRACE (i : Nat) : Nat := 0x7C4004 + 256 * i
abbrev OD.LAYER_PARTS (i : Nat) : Nat := 0x7C4005 + 256 * i
abbrev OD.PART_BYTES (i : Nat) : Nat := 0x7C4006 + 256 * i
abbrev OD.LAYER_BASE (i : Nat) : Nat := 0x7C4007 + 256 * i
abbrev OD.LAYER_BUFS (i : Nat) : Nat := 0x7C4008 + 256 * i
abbrev OD.LAYER_BUF_BYTES (i : Nat) : Nat := 0x7C4009 + 256 * i
abbrev OD.LAYER_LANDING (i : Nat) : Nat := 0x7C400A + 256 * i
abbrev OD.LAYER_LAST (i : Nat) : Nat := 0x7C400B + 256 * i
abbrev OD.SEAL_BASE (i : Nat) : Nat := 0x7C6001 + 256 * i
abbrev OD.SEAL_SIZE (i : Nat) : Nat := 0x7C6002 + 256 * i
abbrev OD.DRAM_CHANNELS : Nat := 0x800001
abbrev OD.DRAM_BYTES : Nat := 0x800002
abbrev OD.DRAM_RATE : Nat := 0x800003
abbrev OD.GRAIN_LOG2 : Nat := 0x800004
abbrev OD.INTERLEAVE : Nat := 0x800005
abbrev OD.CH_HASH : Nat := 0x800006
abbrev OD.ECC_MODE : Nat := 0x800007
abbrev OD.LATCHED : Nat := 0x800008
abbrev OD.DRAM_USABLE : Nat := 0x800009
abbrev OD.DMEM_CORRECTED : Nat := 0x80000A
abbrev OD.DMEM_UNCORRECTABLE : Nat := 0x80000B
abbrev OD.DMEM_LAST_UNCORR_ADDR : Nat := 0x80000C
abbrev OD.DRAM_SCRUB_PERIOD : Nat := 0x80000D
abbrev OD.PANIC_IRQ : Nat := 0x80000E
abbrev OD.TRIM_DRIFT_LIMIT : Nat := 0x80000F
abbrev OD.CH_STATE (i : Nat) : Nat := 0x801001 + 256 * i
abbrev OD.CH_CMD (i : Nat) : Nat := 0x801002 + 256 * i
abbrev OD.TRIM_ARM (i : Nat) : Nat := 0x801003 + 256 * i
abbrev OD.TRIM_EPOCH (i : Nat) : Nat := 0x801004 + 256 * i
abbrev OD.TRIM_TEMP (i : Nat) : Nat := 0x801005 + 256 * i
abbrev OD.CH_TEMP (i : Nat) : Nat := 0x801006 + 256 * i
abbrev OD.DRAM_RR (i : Nat) : Nat := 0x801007 + 256 * i
abbrev OD.TRIM_STALE (i : Nat) : Nat := 0x801008 + 256 * i
abbrev OD.LINK_CORRECTED (i : Nat) : Nat := 0x801009 + 256 * i
abbrev OD.TRIMS (i : Nat) : Nat := 0x80100A + 256 * i
abbrev OD.RT_ENABLE (i : Nat) : Nat := 0x802001 + 256 * i
abbrev OD.RT_PANIC_MARK (i : Nat) : Nat := 0x802002 + 256 * i
abbrev OD.RT_RECOVER_MARK (i : Nat) : Nat := 0x802003 + 256 * i
abbrev OD.RT_LEVEL (i : Nat) : Nat := 0x802004 + 256 * i
abbrev OD.RT_STATE (i : Nat) : Nat := 0x802005 + 256 * i
abbrev OD.RT_PANICS (i : Nat) : Nat := 0x802006 + 256 * i
abbrev OD.RT_PANIC_TIME (i : Nat) : Nat := 0x802007 + 256 * i
abbrev OD.RT_LAST_PANIC (i : Nat) : Nat := 0x802008 + 256 * i
abbrev OD.SHADOW_DELAY (i j : Nat) : Nat := 0x804001 + 256 * i + j
abbrev OD.LIVE_DELAY (i j : Nat) : Nat := 0x808001 + 256 * i + j
abbrev OD.GQ_NODE : Nat := 0x880001
abbrev OD.GQ_BIT_RATE : Nat := 0x880002
abbrev OD.GQ_MODE : Nat := 0x880003
abbrev OD.LINE_NOW : Nat := 0x880004
abbrev OD.LINE_SEEN : Nat := 0x880005
abbrev OD.POLARITY : Nat := 0x880006
abbrev OD.GQ_IRQ : Nat := 0x880007
abbrev OD.TICK_LATENCY : Nat := 0x880008
abbrev OD.TICK_RX_FLAGS : Nat := 0x880009
abbrev OD.TICK_RX_DELAY : Nat := 0x88000A
abbrev OD.TX_TELEGRAMS : Nat := 0x880010
abbrev OD.RX_TELEGRAMS : Nat := 0x880011
abbrev OD.RX_DISCARDS : Nat := 0x880012
abbrev OD.COLLISIONS : Nat := 0x880013
abbrev OD.ADDR_CLASHES : Nat := 0x880014
abbrev OD.REPLAYS : Nat := 0x880015
abbrev OD.STRAY_RESPONSES : Nat := 0x880016
abbrev OD.TIMEOUTS : Nat := 0x880017
abbrev OD.TICKS_SENT : Nat := 0x880018
abbrev OD.TICKS_UNSENT : Nat := 0x880019
abbrev OD.TICK_CONFLICTS : Nat := 0x88001A
abbrev OD.LINE_FAULTS : Nat := 0x88001B
abbrev OD.POLARITY_SWAPS : Nat := 0x88001C
abbrev OD.GQM_DEST : Nat := 0x881001
abbrev OD.GQM_BODY : Nat := 0x881002
abbrev OD.GQM_GO : Nat := 0x881003
abbrev OD.GQM_STATE : Nat := 0x881004
abbrev OD.GQM_REPLY : Nat := 0x881005
abbrev OD.GQM_FAIL : Nat := 0x881006
abbrev OD.GQM_SEQ : Nat := 0x881007
abbrev OD.POWER_STATE : Nat := 0x200001
abbrev OD.POWER_CMD : Nat := 0x200002
abbrev OD.DOMAIN_REQ : Nat := 0x200003
abbrev OD.GATE : Nat := 0x200004
abbrev OD.DOMAIN_ON : Nat := 0x200005
abbrev OD.DOMAIN_FAIL : Nat := 0x200006
abbrev OD.RUN_SET : Nat := 0x200007
abbrev OD.POWERUP_TARGET : Nat := 0x200008
abbrev OD.POWR_WAKE_ENABLE : Nat := 0x200009
abbrev OD.WAKE_TARGET : Nat := 0x20000A
abbrev OD.WAKE_SOURCE : Nat := 0x20000B
abbrev OD.RESET_CMD : Nat := 0x20000C
abbrev OD.AGENT_RESET : Nat := 0x20000D
abbrev OD.RESET_STATE : Nat := 0x20000E
abbrev OD.RESET_CAUSE : Nat := 0x20000F
abbrev OD.RESETS : Nat := 0x200010
abbrev OD.TJ : Nat := 0x200011
abbrev OD.VIN_MV : Nat := 0x200012
abbrev OD.VIN_MA : Nat := 0x200013
abbrev OD.POWER_MW : Nat := 0x200014
abbrev OD.VDDQ_MV : Nat := 0x200015
abbrev OD.TRANSITION_US : Nat := 0x200016
abbrev OD.PACE_REQ : Nat := 0x210001
abbrev OD.PACE : Nat := 0x210002
abbrev OD.PACE_CAP : Nat := 0x210003
abbrev OD.HALL_MHZ : Nat := 0x210004
abbrev OD.SPINE_MHZ : Nat := 0x210005
abbrev OD.TJ_THROTTLE : Nat := 0x210006
abbrev OD.THROTTLE_EVENTS : Nat := 0x210007
abbrev OD.PACE_CHANGES : Nat := 0x210008
abbrev OD.SYSREF_OK : Nat := 0x210009
abbrev OD.VENDOR_NAME : Nat := 0x100001
abbrev OD.PRODUCT : Nat := 0x100002
abbrev OD.PCI_VENDOR_ID : Nat := 0x100003
abbrev OD.PCI_DEVICE_IDS : Nat := 0x100004
abbrev OD.STEPPING : Nat := 0x100005
abbrev OD.SERIAL : Nat := 0x100006
abbrev OD.MODULE_ID : Nat := 0x100007
abbrev OD.BUILD_DATE : Nat := 0x100008
abbrev OD.FW_VERSION : Nat := 0x100009
abbrev OD.FW_SLOT : Nat := 0x10000A
abbrev OD.ROM_VERSION : Nat := 0x10000B
abbrev OD.HALLS : Nat := 0x10000C
abbrev OD.DEBUGGED : Nat := 0x10000D
abbrev OD.CAL_NOW : Nat := 0x110001
abbrev OD.CAL_STATE : Nat := 0x110002
abbrev OD.CAL_ALARM : Nat := 0x110003
abbrev OD.ALARM_ENABLE : Nat := 0x110004
abbrev OD.CAL_TRIM : Nat := 0x110005
abbrev OD.CAL_SUBSEC : Nat := 0x110006
abbrev OD.CAL_REJECTS : Nat := 0x110007
abbrev OD.PERSIST_STATE : Nat := 0x120001
abbrev OD.PERSIST_BANK : Nat := 0x120002
abbrev OD.PERSIST_GENERATION : Nat := 0x120003
abbrev OD.PERSIST_COMMIT : Nat := 0x120004
abbrev OD.PERSIST_RESULT : Nat := 0x120005
abbrev OD.PERSIST_COMMITS : Nat := 0x120006
abbrev OD.PERSIST_DIRTY : Nat := 0x120007
abbrev OD.PERSIST_CLEAR : Nat := 0x120008
abbrev OD.PERSIST_ENTRY (i : Nat) : Nat := 0x121001 + 256 * i
abbrev OD.LIFECYCLE : Nat := 0xA00001
abbrev OD.LIFECYCLE_ADVANCE : Nat := 0xA00002
abbrev OD.SEC_EPOCH_FLOOR : Nat := 0xA00003
abbrev OD.SEC_EPOCH_COMMIT : Nat := 0xA00004
abbrev OD.FLASH_SOURCE : Nat := 0xA00005
abbrev OD.BOOT_STATUS : Nat := 0xA00006
abbrev OD.SIG_FAILS : Nat := 0xA00007
abbrev OD.FLASH_OFFSET : Nat := 0xA00008
abbrev OD.FLASH_LENGTH : Nat := 0xA00009
abbrev OD.FLASH_DATA : Nat := 0xA0000A
abbrev OD.FLASH_ERASE : Nat := 0xA0000B
abbrev OD.FLASH_STATE : Nat := 0xA0000C
abbrev OD.KEY_STATE (i : Nat) : Nat := 0xA01001 + 256 * i
abbrev OD.KEY_USAGE (i : Nat) : Nat := 0xA01002 + 256 * i
abbrev OD.KEY_PUBLIC (i : Nat) : Nat := 0xA01003 + 256 * i
abbrev OD.KEY_PROVISION (i : Nat) : Nat := 0xA01004 + 256 * i
abbrev OD.KEY_REVOKE (i : Nat) : Nat := 0xA01005 + 256 * i
abbrev OD.TRC_ENABLE : Nat := 0x900001
abbrev OD.TRC_SOURCES : Nat := 0x900002
abbrev OD.INSTR_AGENTS : Nat := 0x900003
abbrev OD.FLIGHT_MASK : Nat := 0x900004
abbrev OD.LAND_LO : Nat := 0x900005
abbrev OD.LAND_HI : Nat := 0x900006
abbrev OD.SINK_BASE : Nat := 0x900007
abbrev OD.SINK_SIZE : Nat := 0x900008
abbrev OD.SINK_CONTEXT : Nat := 0x900009
abbrev OD.SINK_MODE : Nat := 0x90000A
abbrev OD.SINK_THRESHOLD : Nat := 0x90000B
abbrev OD.SYNC_INTERVAL : Nat := 0x90000C
abbrev OD.TS_INTERVAL : Nat := 0x90000D
abbrev OD.SINK_WRITE : Nat := 0x90000E
abbrev OD.SINK_READ : Nat := 0x90000F
abbrev OD.TRC_FLUSH : Nat := 0x900010
abbrev OD.TRC_EVENTS : Nat := 0x900011
abbrev OD.TRC_IRQ : Nat := 0x900012
abbrev OD.GLOBAL_TIME : Nat := 0x900013
abbrev OD.TRC_STATE : Nat := 0x900014
abbrev OD.PACKETS : Nat := 0x900015
abbrev OD.TRC_BYTES : Nat := 0x900016
abbrev OD.LOST_PACKETS : Nat := 0x900017
abbrev OD.OVERFLOW_EVENTS : Nat := 0x900018
abbrev OD.SINK_FAULTS : Nat := 0x900019
abbrev OD.DBG_LEVEL : Nat := 0x940001
abbrev OD.DBG_KEY_SLOT : Nat := 0x940002
abbrev OD.DBG_HALTED : Nat := 0x940003
abbrev OD.AUTH_FAILS : Nat := 0x940004
abbrev OD.DBG_SESSIONS : Nat := 0x940005
abbrev OD.IDCODE : Nat := 0x940006
abbrev OD.DBG_END : Nat := 0x940007
abbrev OD.DBG_ALLOW : Nat := 0x940008
abbrev OD.GPIO_COUNT : Nat := 0x220001
abbrev OD.GPIO_IN : Nat := 0x220002
abbrev OD.GPIO_OUT : Nat := 0x220003
abbrev OD.PIN_SWITCHES : Nat := 0x220004
abbrev OD.GPIO_FUNC (i : Nat) : Nat := 0x221001 + 256 * i
abbrev OD.GPIO_PULL (i : Nat) : Nat := 0x221002 + 256 * i
abbrev OD.FAULT_CAPACITY : Nat := 0x1F0001
abbrev OD.FAULT_COUNT : Nat := 0x1F0002
abbrev OD.FAULT_NEXT : Nat := 0x1F0003
abbrev OD.FAULTS_LOST : Nat := 0x1F0004
abbrev OD.FAULT_IRQ : Nat := 0x1F0005
abbrev OD.FAULT_IRQ_MIN : Nat := 0x1F0006
abbrev OD.LAST_DEVICE_FAULT : Nat := 0x1F0007
abbrev OD.CLASS_COUNTS (j : Nat) : Nat := 0x1F1001 + j
abbrev OD.LOST_COUNT : Nat := 0x1F4001
abbrev OD.LOST_NEXT : Nat := 0x1F4002
abbrev OD.LOST_ALL : Nat := 0x1F4003
abbrev OD.LOST_OVERFLOW : Nat := 0x1F4004
abbrev OD.WEDGED_MASK : Nat := 0xE00001
abbrev OD.LAST_STAGE_RECORD : Nat := 0xE00002
abbrev OD.WIN_BASE (t w : Nat) : Nat := 0x314000 + 256 * t + 4 * w
abbrev OD.WIN_LENGTH (t w : Nat) : Nat := 0x314001 + 256 * t + 4 * w
abbrev OD.WIN_FLAGS (t w : Nat) : Nat := 0x314002 + 256 * t + 4 * w

end Sys2Proof.Machine
end

