-- ==== Sys2Proof/Machine/State.lean ====
section
/-!
DEFINITION. The state of the CG4860: the dictionary's value store, one record per unit for what no object holds, device
and host memory, and the queue of commands that wait. Everything is plain data; sparse stores list only what differs
from a default, so that equal states are equal data. The reasons a step can stop stand here too.
-/

namespace Sys2Proof.Machine

/-! ### Clocks and the tick unit (chapters 01 and 22) -/

/-- Time: `now` counts SYSREF edges of 20 ns (R11), `gtime` is the global time in ns (R928), `lf` is the
32.768 kHz clock in parts of 1/1,000,000,000 of a cycle, and `lfAcc` the accumulator that paces the global time while SYSREF
is absent (R929). -/
structure Clock where
  now : Nat := 0
  gtime : Nat := 0
  lf : Nat := 0
  lfAcc : Nat := 0
  deriving DecidableEq, Repr

/-- The tick unit's states (R13). -/
inductive TickSt where
  | stopped | acquire | locked | flywheel
  deriving DecidableEq, Repr

/-- The tick unit (chapter 01); its dictionary objects stand in the dictionary's value store. -/
structure Tick where
  st : TickSt := .stopped
  /-- A start commit waits for its start boundary (R28). -/
  startPending : Bool := false
  /-- The epoch counter (R40); 0xFFFF_FFFF after any device reset (R14). -/
  epoch : BitVec 32 := 0xFFFFFFFF#32
  /-- The SYSREF edge of the last boundary, real or synthetic. -/
  last : Nat := 0
  /-- The SYSREF edge of the last boundary made by an arrival: B of the sweep's expected end. -/
  lastReal : Nat := 0
  /-- The commit is armed (TICK_COMMIT, R60), as it stood at the end of the previous SYSREF edge. -/
  armed : Bool := false
  /-- The last write of TICK_COMMIT on the present edge (R68). -/
  armFresh : Option Bool := none
  /-- A write of 1 has reached the STOPPED unit on the present edge: the commit is applied once every access of the edge has
  been served (R27). -/
  commitDue : Bool := false
  /-- The level of TICK_OUT (R19). -/
  out : Bool := false
  /-- The edge on which TICK_OUT marks the last boundary (R19), and whether that was a stop or a start boundary. -/
  outMark : Option Nat := none
  outStop : Bool := false
  outStart : Bool := false
  /-- The edge on which TICK_OUT falls again (R19, R20). -/
  outEnd : Option Nat := none
  /-- The last boundary belongs to a run of synthetic boundaries; the record of the run's end is still to be written (R25). -/
  runOpen : Bool := false
  runOwed : Bool := false
  /-- The sweep of the present epoch has started (R49). -/
  swept : Bool := false
  /-- The last boundary was a flywheel or acquire point (SYNTHETIC). -/
  lastSynth : Bool := false
  /-- The count of audio sample periods (R55). -/
  audio : BitVec 32 := 0#32
  /-- TICK_IN's two synchroniser stages, its consecutive high samples, and the edge on which the boundary of a qualified
  edge falls (R17, Table TICK-2). -/
  sync1 : Bool := false
  sync2 : Bool := false
  highs : Nat := 0
  inEdge : Option Nat := none
  deriving DecidableEq, Repr

/-! ### The object dictionary's transfers (chapters 03 and 04) -/

/-- An open segmented transfer of one path (R107 to R114). -/
structure Xfer where
  wr : Bool
  key : Nat
  staged : Bool
  len : Nat
  /-- The toggle the next segment must carry (R108). -/
  toggle : Bool := false
  /-- For a write, the bytes received; for a read, the snapshot's bytes not yet delivered. -/
  buf : List Byte := []
  /-- The whole snapshot of a read (R111). -/
  snap : List Byte := []
  /-- The SYSREF edge of the last response (R112). -/
  since : Nat := 0
  /-- The object's domain has powered down since the open (R142). -/
  cut : Bool := false
  deriving DecidableEq, Repr

/-- The last response on a path: the abort code (0 for OK), the value of an expedited read, the bytes of a segment with
its toggle and last flag. -/
structure Resp where
  code : Nat := 0
  val : Nat := 0
  bytes : List Byte := []
  toggle : Bool := false
  last : Bool := false
  deriving DecidableEq, Repr

/-- A dictionary window's registers (Table HOST-5); `answer` is the answer of the step in progress. -/
structure DictWindow where
  cmd : Nat := 0
  object : Nat := 0
  length : Nat := 0
  data : List Byte := []
  busy : Bool := false
  done : Bool := false
  overrun : Bool := false
  irq : Bool := false
  toggle : Bool := false
  last : Bool := false
  valid : Nat := 0
  abort : Nat := 0
  answer : Option Resp := none
  deriving DecidableEq, Repr

/-- The dictionary engine: the staged set as it stood at the end of the previous SYSREF edge and the staged writes of
the present edge (R120 to R124, R68), the open transfer and last response of each path, the dictionary windows. -/
structure Dict where
  staged : Sparse Nat := []
  fresh : Sparse Nat := []
  xfer : Sparse (Option Xfer) := []
  resp : Sparse Resp := []
  win : Sparse DictWindow := []
  deriving DecidableEq, Repr

/-! ### Faults and recovery (chapter 24) -/

/-- A fault record (Table FALT-2). -/
structure FaultRec where
  time : Nat
  cls : Nat
  agent : Nat
  role : Nat
  domain : Nat
  obj : Nat
  status : Nat
  wa : Nat
  wb : Nat
  deriving DecidableEq, Repr

/-- A lost-item entry (Table FALT-7). -/
structure LostEntry where
  tag : Nat
  epoch : Nat
  slot : Nat
  ten : Nat
  status : Nat
  cause : Nat
  flags : Nat
  deriving DecidableEq, Repr

/-- The slot mirror's entry of an occupied slot (R1019). -/
structure Mirror where
  tag : Nat
  ten : Nat
  epoch : Nat
  flags : Nat
  deriving DecidableEq, Repr

/-- The fault log, the lost-item list and the slot mirror, all in D0 (R1008, R1019, R1022). -/
structure FaultUnit where
  log : List FaultRec := []
  lost : List LostEntry := []
  /-- How many of the last entries of `lost` have arrived on the present edge (R1026). -/
  lostFresh : Nat := 0
  mirror : Sparse (Option Mirror) := []
  lastDevice : Option FaultRec := none
  lastStage : Option FaultRec := none
  deriving DecidableEq, Repr

/-! ### The host link (chapter 04) -/

/-- Tenancy states (Table HOST-6). -/
inductive TenSt where
  | disabled | active | draining | wedged
  deriving DecidableEq, Repr

/-- One tenancy's ring engine: the values latched at ACTIVE (R161), the pointers and the unsignalled records (R191). -/
structure Tenancy where
  st : TenSt := .disabled
  sqBase : Nat := 0
  sqSize : Nat := 0
  cqBase : Nat := 0
  cqSize : Nat := 0
  sqTail : Nat := 0
  sqHead : Nat := 0
  cqTail : Nat := 0
  cqHead : Nat := 0
  phase : Bool := true
  /-- Entries of the CQ that hold records the host has not released (R170, R172). -/
  cqUsed : Nat := 0
  /-- The descriptors still to come of each read request outstanding, oldest first (R173). -/
  fetching : List Nat := []
  /-- Records written and not yet signalled, and the edge of the first of them (R191). -/
  unsignalled : Nat := 0
  unsigSince : Nat := 0
  deriving DecidableEq, Repr

/-- A function's message-signalled state: whether it can send (link up, Bus Master Enable, MSI-X enabled and not
masked), each vector's mask and pending bit, and the count of messages sent on each vector (R192). -/
structure Msix where
  bme : Bool := false
  enabled : Bool := false
  mask : BitVec 64 := BitVec.allOnes 64
  pend : BitVec 64 := 0#64
  sent : Sparse Nat := []
  deriving DecidableEq, Repr

/-- A range of host bus addresses whose requests the host ends in error, with the cause code of Table HOST-10. -/
structure HostBad where
  lo : Nat
  hi : Nat
  cause : Nat
  deriving DecidableEq, Repr

/-- The PCI Express endpoint, the rings and the tenancies. `mem` holds the bytes the device has written to host memory;
`bad` says which host addresses the host answers with an error. -/
structure HostLink where
  tens : Sparse Tenancy := []
  pf0 : Msix := {}
  pf1 : Msix := {}
  /-- The tenancy served last by the fetch arbiter (R173). -/
  rr : Nat := 15
  /-- PE_RST_N is low at the pin. -/
  perstLow : Bool := true
  mem : List Host.Cell := []
  bad : List HostBad := []
  deriving DecidableEq, Repr

/-! ### The landing store (chapter 05) -/

/-- A payload entry (Table LAND-5): the pushing agent, the payload and the sealed mark held beside it (R743). -/
structure Payload where
  agent : Nat
  val : Nat
  sealed : Bool := false
  deriving DecidableEq, Repr

/-- A payload port (Table LAND-5): the queue, oldest first, and the drop count. -/
structure LandPort where
  q : List Payload := []
  drops : Nat := 0
  deriving DecidableEq, Repr

/-- A parked operation: ACQUIRE or WAIT of an agent on a landing (R229); `gen` is the barrier generation at
registration (R223), `rd` the destination register of a matrix core's instruction. -/
structure Waiter where
  agent : Nat
  landing : Nat
  acquire : Bool
  gen : Nat := 0
  rd : Nat := 0
  /-- Its place in the order of parking (R237). -/
  since : Nat := 0
  deriving DecidableEq, Repr

/-- What the last landing operation of an agent returned: the word of a load, or an error response. -/
inductive LandResp where
  | none
  | word (w : Word)
  | done
  | error
  deriving DecidableEq, Repr

/-- The landing store: words that differ from the reset word, payload ports, parked operations in order of parking, the next
place in that order (R237), and the agents whose reset or stop runs, to which no lock is granted (R255, R256). -/
structure Landings where
  words : Sparse Word := []
  ports : Sparse LandPort := []
  waiters : List Waiter := []
  resp : Sparse LandResp := []
  parks : Nat := 0
  barred : List Nat := []
  deriving DecidableEq, Repr

/-! ### Flights and the dispatcher (chapter 06) -/

/-- The states of an item slot (Table FLIT-3). -/
inductive ItemSt where
  | free | checked | queued | admitted | running | stopping | closing
  deriving DecidableEq, Repr

/-- An item slot: the descriptor's fields (Table HOST-7), what admission latched (R267, R268), the accounting. -/
structure Item where
  st : ItemSt := .free
  ten : Nat := 0
  bg : Bool := false
  irqNow : Bool := false
  tag : Nat := 0
  flight : Nat := 0
  image : Nat := 0
  runs : Nat := 0
  done : Option Nat := none
  shapes : List Nat := []
  input : Nat := 0
  output : Nat := 0
  inLen : Nat := 0
  outLen : Nat := 0
  layer : Option Nat := none
  /-- The SYSREF edge on which the fetch completed (R42). -/
  fetched : Nat := 0
  epoch : BitVec 32 := 0#32
  /-- The boundary that began `epoch` (FINISH_TIME). -/
  began : Nat := 0
  seq : Nat := 0
  ordinal : Nat := 0
  prio : Nat := 0
  stages : List Nat := []
  /-- Shape values that SHSET wrote, by run × 4 + value number (R430). -/
  runShapes : Sparse Nat := []
  /-- Shape values that a sealed stage wrote, by run × 4 + value number (R743). -/
  shapeSealed : Sparse Bool := []
  /-- Tile plans made, by run × 256 + stage of the flight: the eight fields of Table LOAD-10, the sealed mark and the stage map
  entry, and the load of the image they were made from (R324, R742). -/
  plans : Sparse (List Nat) := []
  planGen : Nat := 0
  outBytes : Nat := 0
  /-- Output bytes that the last stage of the flight reported, over all runs (R729). -/
  partBytes : Nat := 0
  empty : Bool := false
  concealed : Bool := false
  /-- Bytes the item's emitter stages wrote outside the sealed set (R745). -/
  emitted : Nat := 0
  status : Nat := 0
  faultStage : Nat := 0xFF
  faultAgent : Nat := 0xFF
  detail : Nat := 0
  /-- The SYSREF edge on which the status was fixed (R282). -/
  fixedAt : Nat := 0
  /-- The lowest run and stage not completed when its entries left the lane queues (Table FLIT-9). -/
  reached : Nat × Nat := (0, 0)
  deriving DecidableEq, Repr

/-- The life of one stage entry in its lane queue (R270 to R275). -/
inductive EntrySt where
  | queued | armed | released | issued | ended
  deriving DecidableEq, Repr

/-- A stage entry: item-run, stage, lane, engine and gate. -/
structure Entry where
  slot : Nat
  run : Nat
  stage : Nat
  lane : Nat
  engine : Nat
  dh : Bool
  gate : Option Nat
  flight : Nat
  bg : Bool
  prio : Nat
  seq : Nat
  mapEntry : Nat
  st : EntrySt := .queued
  gen : Nat := 0
  /-- The entry's place in the order of parking when it was armed (R237), and the edge on which it was issued. -/
  parked : Nat := 0
  issuedAt : Nat := 0
  /-- What the engine reported at the end of the stage (R272, R279, R282). -/
  repEmpty : Bool := false
  repConcealed : Bool := false
  repBytes : Nat := 0
  deriving DecidableEq, Repr

/-- The dispatcher: the slots, the admission queue, every lane queue's entries in queue order, the engines that a
stopped stage has not yet let go of (R277). -/
structure Flights where
  slots : Sparse Item := []
  admission : List Nat := []
  entries : List Entry := []
  nextSeq : Nat := 0
  /-- Engine and slot of stages being stopped. -/
  letting : List (Nat × Nat) := []
  deriving DecidableEq, Repr

/-! ### Images and the loader (chapter 07) -/

/-- A section table entry (Table LOAD-2). -/
structure SectionDef where
  kind : Nat
  compression : Nat
  fileOff : Nat
  fileLen : Nat
  destOff : Nat
  destLen : Nat
  crc : Nat
  deriving DecidableEq, Repr

/-- A stage map entry (Table LOAD-4). -/
structure StageDef where
  kind : Nat
  flags : Nat
  section_ : Nat
  tensors : Nat
  entryOff : Nat
  tensorFirst : Nat
  shapeSel : Nat
  rowsPerUnit : Nat
  maxShape : Nat
  workOff : Nat
  workBytes : Nat
  deriving DecidableEq, Repr

/-- A tensor table entry (Table LOAD-5). -/
structure TensorDef where
  dtype : Nat
  rank : Nat
  place : Nat
  dims : List Nat
  section_ : Nat
  off : Nat
  bytes : Nat
  deriving DecidableEq, Repr

/-- An image's tables; `gen` tells one load of a slot from the next (R324). -/
structure Image where
  sections : List SectionDef := []
  stages : List StageDef := []
  tensors : List TensorDef := []
  gen : Nat := 0
  deriving DecidableEq, Repr

/-- A load in progress (R305): the slot, the parameters as they stood, the header's fields, the image bytes read so far
by offset, and the next section to copy. -/
structure LoadRun where
  slot : Nat
  source : Nat
  length : Nat
  gbase : Nat
  abase : Nat
  cores : Nat
  ctx : Option Nat
  tables : Bool := false
  gsize : Nat := 0
  asize : Nat := 0
  key : Nat := 0
  sigOff : Nat := 0
  bytes : Sparse (Option Byte) := []
  img : Image := {}
  next : Nat := 0
  deriving DecidableEq, Repr

/-- The loader: the load in progress, each slot's image, the number of loads begun, and the slot and SYSREF edge of the last load
that ended with an image resident (R338). -/
structure Loader where
  run : Option LoadRun := none
  images : Sparse Image := []
  loads : Nat := 0
  ended : Option (Nat × Nat) := none
  deriving DecidableEq, Repr


/-! ### Matrix cores and their arrays (chapters 08 and 09) -/

/-- A weight tile (R351): its data type code (Table LOAD-5), its rows (64, or 128 on a joined pair) and the raw codes of
its elements by k × 64 + n. -/
structure WTile where
  dtype : Nat
  rows : Nat
  w : Sparse Nat
  deriving DecidableEq, Repr

/-- An MMA that has issued and not completed (R354, R356): activation rows of raw codes, the weight tile they meet, the
first accumulator tile, the ACCUM flag, and the MMA's own alcove offset for an array exception. -/
structure Mma where
  rows : List (List Nat)
  dtype : Nat
  tile : WTile
  acc : Nat
  accum : Bool
  pc : Nat
  /-- The feeder mode in which it issued (R358). -/
  bubble : Bool := false
  /-- The stage that issued it (R434). -/
  ent : Option Entry := none
  deriving DecidableEq, Repr

/-- A DMA descriptor in the queue (Table CORE-6). -/
structure DmaDesc where
  src : Nat
  dst : Nat
  rowBytes : Nat
  rows : Nat
  signal : Bool
  op : Nat
  srcStride : Nat
  dstStride : Nat
  landing : Nat
  payload : Nat
  /-- The address of the DMA instruction that queued it (R434). -/
  pc : Nat := 0
  deriving DecidableEq, Repr

/-- What a core does (CORE_STATE, Table CORE-12); HELD is core 2p + 1 of a joined pair. -/
inductive CoreSt where
  | idle | running | parked | halted
  deriving DecidableEq, Repr

/-- One matrix core: registers (S0 and P0 are hard-wired where they are read), array, DMA queue and stage bookkeeping. -/
structure Core where
  st : CoreSt := .idle
  pc : Nat := 0
  s : Sparse Word := []
  v : Sparse Lane := []
  p : Sparse Word := []
  acc : Sparse Lane := []
  /-- Accumulator entries that hold an error: 1 correctable, 2 uncorrectable (R390). -/
  accMarks : Sparse Nat := []
  /-- Sticky flags of each tile: bit 0 SAT, bit 1 INF, bit 2 NAN. -/
  flags : Sparse Nat := []
  active : Option WTile := none
  shadow : Option WTile := none
  mmas : List Mma := []
  /-- The array stands at gated idle (R367). -/
  gated : Bool := true
  dmaq : List DmaDesc := []
  running : Option DmaDesc := none
  outBytes : BitVec 32 := 0#32
  /-- A zero-length DMA has marked the stage EMPTY (R418). -/
  emptyMark : Bool := false
  /-- The program's destination on this core, as device addresses (R425). -/
  progLo : Nat := 0
  progHi : Nat := 0
  /-- The image slot of the running stage, its working area as alcove offsets, and the tile plan in force. -/
  image : Nat := 0
  tiled : Bool := false
  workLo : Nat := 0
  workHi : Nat := 0
  plan : List Nat := []
  /-- The stage is sealed (R742), and it is a signed emitter stage (R745). -/
  sealed : Bool := false
  emitter : Bool := false
  /-- The debug port has asked for a halt that waits for the instruction boundary (R953). -/
  haltReq : Bool := false
  /-- The state to which a halted core returns: it was parked. -/
  wasParked : Bool := false
  /-- The stage was stopped while the core was halted (R259, R956). -/
  stopped : Bool := false
  /-- The released word of a parked operation whose core is halted; it retires at the first STEP or RESUME (R955). -/
  grant : Option (Nat × Word) := none
  /-- A STEP lets exactly one instruction retire (R955). -/
  stepping : Bool := false
  /-- Register writes of the debug port that take effect at the next retirement, by selector (R958). -/
  regw : List (Nat × Nat) := []
  deriving DecidableEq, Repr

/-- A Newel core, as far as the part's own rules give it: a stage that runs on it, and its debug state. Its registers
are read and written through the debug port alone. -/
structure Newel where
  halted : Bool := false
  haltReq : Bool := false
  stopped : Bool := false
  /-- The stage it runs is sealed (R742). -/
  sealed : Bool := false
  /-- The values that firmware's routine interface hands to its stage, by register of Table CORE-8 (R426). -/
  args : List (Nat × Nat) := []
  pc : Nat := 0
  regs : Sparse Word := []
  regw : List (Nat × Nat) := []
  deriving DecidableEq, Repr

/-- The arrays' pairs: the changes that failed their seam check, and the pairs whose check would fail now, by pair (R374);
the latter is the device's own and is drawn anew on each SYSREF edge. -/
structure ArrayPairs where
  failed : Nat := 0
  seamBad : Nat := 0
  deriving DecidableEq, Repr

/-! ### Device memory (chapters 02, 09, 10, 18) -/

/-- Gallery, alcoves and DRAM by device address, and the 64-bit words that hold an error: 1 correctable, 2
uncorrectable, by address ÷ 8. A byte that nothing has written reads 0. `scrubbed` lists the words with an error that a
scrubber has come to in its present pass (R453). -/
structure DevMem where
  cells : List Host.Cell := []
  marks : Sparse Nat := []
  scrubbed : List Nat := []
  deriving DecidableEq, Repr

/-! ### The concourse and the balustrade (chapter 10) -/

/-- A request that waits at a regulated target: its master port, the concourse cycle of its acceptance, its address and its
bytes (R465). -/
structure BalReq where
  port : Nat
  since : Nat
  addr : Nat
  bytes : Nat
  deriving DecidableEq, Repr

/-- One regulated target: the requests that wait there, oldest first, its concourse cycles, the ports that tiers 2, 3 and 4
served last, and the grants of each port in the present round of tier 3 (Table GALL-7). -/
structure BalTarget where
  waiting : List BalReq := []
  now : Nat := 0
  last2 : Nat := 47
  last3 : Nat := 47
  last4 : Nat := 47
  round : Sparse Nat := []
  deriving DecidableEq, Repr

/-- The concourse and the balustrade: whether a real-time port was in panic for a cycle of the present DRAM window (R469), the
lines granted in the present windows by target × 48 + port (R462), the bytes served since the last SYSREF edge by port, the
targets, and what the next concourse transfers meet: no error, a corrected one (true) or an uncorrectable one (R480). -/
structure Balustrade where
  panicSeen : Bool := false
  lines : Sparse Nat := []
  served : Sparse Nat := []
  targets : Sparse BalTarget := []
  transfers : List (Option Bool) := []
  deriving DecidableEq, Repr

/-! ### The cloakroom (chapter 11) -/

/-- A pool: the values latched when it left DISABLED (R483), its ring and its cache, newest ticket first (R490, R491). -/
structure Pool where
  szLog : Nat := 0
  base : Nat := 0
  buffers : Nat := 0
  ringBase : Nat := 0
  ringEntries : Nat := 0
  sealed : Bool := false
  head : Nat := 0
  count : Nat := 0
  cache : List Nat := []
  deriving DecidableEq, Repr

/-- A claim: a stage claim on a stage of the bound item-run, or an agent claim (Table CLOK-4). `kept` marks the claim
of a stopped stage that a halted core keeps until it resumes (R523). -/
structure Claim where
  stage : Option Nat
  agent : Nat
  kept : Bool := false
  deriving DecidableEq, Repr

/-- A claim record (R499): the ticket, the bound item-run as slot and run, the claims that remain in subindex order. -/
structure ClaimRec where
  ticket : Nat
  bound : Option (Nat × Nat)
  claims : List Claim
  deriving DecidableEq, Repr

/-- An allocation request; `bound` is the item-run and stage it is tied to, as slot, run and stage. -/
structure AllocReq where
  agent : Nat
  len : Nat
  sealFlag : Bool
  spill : Bool
  set : Nat
  bound : Option (Nat × Nat × Nat)
  deriving DecidableEq, Repr

/-- A freed buffer of a sealed pool that waits for its zero-fill: its ticket, its bytes, and whether the ticket returns to
the pool's cache afterwards (R509). -/
structure ScrubBuf where
  ticket : Nat
  addr : Nat
  len : Nat
  back : Bool
  deriving DecidableEq, Repr

/-- The cloakroom: pools, the claim table oldest first, buffers that wait for zero-fill (R509), firmware requests that
wait for a refill, each with its Newel core (R497). -/
structure Cloak where
  pools : Sparse Pool := []
  recs : List ClaimRec := []
  scrub : List ScrubBuf := []
  waiting : List (Nat × AllocReq) := []
  deriving DecidableEq, Repr



/-! ### Sensor and audio ports (chapter 12) -/

/-- The configuration that a sensor port latches at a Frame Start (R532), and the frame it captures. -/
structure Frame where
  width : Nat
  height : Nat
  dtype : Nat
  pad : Nat
  landing : Nat
  timeout : Nat
  ticket : Nat
  seq : Nat
  /-- The next line, and the lines received. -/
  line : Nat := 0
  flags : Nat := 0
  /-- SYSREF edge and global time of the Frame Start; global time and epoch of the close. -/
  since : Nat := 0
  startTime : Nat := 0
  endTime : Nat := 0
  epoch : Nat := 0
  deriving DecidableEq, Repr

/-- A sensor port: its frame sequence number, the frame in capture, whether it discards a dropped frame, frames closed
and not yet delivered, the edge of its last accepted header, whether it is calibrated, and its lanes and lane rate in
effect (R530, R532). -/
structure SensorPort where
  seq : Nat := 0
  frame : Option Frame := none
  dropping : Bool := false
  closed : List Frame := []
  header : Option Nat := none
  /-- The SYSREF edge on which FRAME_TIMEOUT closed the last frame (R559). -/
  timedOut : Option Nat := none
  calibrated : Bool := false
  lanes : Nat := 4
  rate : Nat := 2500
  deriving DecidableEq, Repr

/-- A TDM port's receive side: frames in the elastic buffer and the frame delivered last (R546, R547). -/
structure TdmPort where
  buf : List (List Nat) := []
  last : List Nat := []
  deriving DecidableEq, Repr

/-- The audio ports: the sample period within the timestep, the ring block being filled by ring, frame and position, the
colonnade's samples by channel and frame, the block that a mark completed with its sample count, PDM delays that remain
(R550), rings whose last block failed (R555), ROUTE_SWAP and the shadow table as they stood at the end of the previous SYSREF edge,
and whether ROUTE_SWAP has been written since (R560). -/
structure AudioUnit where
  period : Nat := 0
  tdm : Sparse TdmPort := []
  pdm : Sparse Nat := []
  block : Sparse Nat := []
  coln : Sparse Nat := []
  ready : Option (Sparse Nat × Nat) := none
  failed : Nat := 0
  markDue : Bool := false
  swapWas : Nat := 0
  swapFresh : Bool := false
  routesWas : List Nat := []
  deriving DecidableEq, Repr

/-- Sensor and audio ports. -/
structure Ports where
  sens : Sparse SensorPort := []
  aud : AudioUnit := {}
  deriving DecidableEq, Repr

/-! ### The vestibule (chapter 13) -/

/-- A segment of a batch: its sample, place and length, and whether it has completed or been voided (R592, R593). -/
structure Segment where
  sample : Nat
  row : Nat
  start : Nat
  len : Nat
  done : Bool := false
  void : Bool := false
  deriving DecidableEq, Repr

/-- A batch: its slot, sequence number, rows used, free place in the open row, segments in reservation order, the edge
of its first reservation, header flags and the epoch at its close (Table VEST-5). -/
structure Batch where
  slot : Nat
  seq : Nat
  rows : Nat := 0
  fill : Nat := 0
  segs : List Segment := []
  since : Nat := 0
  flags : Nat := 0
  epoch : Nat := 0
  deriving DecidableEq, Repr

/-- A packer stream: the values latched when it was enabled (R589), the open batch, closed batches that wait for their
segments, then slots in the batch queue, delivered, being zero-filled and out of service (R614). -/
structure Stream where
  dtype : Nat := 1
  rowElems : Nat := 4096
  rows : Nat := 16
  maxSegs : Nat := 256
  base : Nat := 0
  slots : Nat := 4
  sealed : Bool := false
  ctx : Nat := 0
  deliver : Nat := 0
  ret : Nat := 0
  deal : Nat := 2
  linger : Nat := 0
  seq : Nat := 0
  opened : Option Batch := none
  closed : List Batch := []
  waiting : List Nat := []
  delivered : List Nat := []
  filling : List Nat := []
  dead : List Nat := []
  deriving DecidableEq, Repr

/-- How far a scaler's job is. -/
inductive JobPhase where
  | start | waiting | taken | stalled
  deriving DecidableEq, Repr

/-- A scaler's job: the stage it serves, its descriptor, the source taken, the sample's ID and the place reserved. -/
structure ScalerJob where
  slot : Nat
  run : Nat
  stage : Nat
  desc : List Byte
  phase : JobPhase := .start
  src : Nat := 0
  ticket : Option Nat := none
  tag : Nat := 0
  sample : Nat := 0xFFFFFFFF
  sealed : Bool := false
  crop : List Nat := []
  out : Nat := 0
  outTicket : Nat := 0xFFFFFFFF
  /-- A PACK sample's batch sequence number and segment index. -/
  seg : Option (Nat × Nat) := none
  epoch : Nat := 0
  time : Nat := 0
  deriving DecidableEq, Repr

/-- The vestibule. -/
structure Vestibule where
  jobs : Sparse (Option ScalerJob) := []
  streams : Sparse Stream := []
  deriving DecidableEq, Repr



/-! ### Video decoders and encoder (chapters 14 and 15) -/

/-- A decoder's output picture: geometry, format (true P010) and bytes (R633). -/
structure Picture where
  w : Nat
  h : Nat
  p010 : Bool
  bytes : List Byte
  deriving DecidableEq, Repr

/-- A decoder context: the values latched when it was enabled (R618), whether it has decoded a sealed job (R630), the bit
depth last parsed and its last output picture. -/
structure DecCtx where
  codec : Nat := 0
  ten : Nat := 0
  maxW : Nat := 0
  maxH : Nat := 0
  fsBase : Nat := 0
  fsBytes : Nat := 0
  fsSlots : Nat := 2
  mfBase : Nat := 0
  mfSlots : Nat := 0
  mfBytes : Nat := 64
  outFormat : Nat := 2
  sealed : Bool := false
  tenBit : Bool := false
  prev : Option Picture := none
  deriving DecidableEq, Repr

/-- The picture of a decode job: geometry, format, output, whether it is concealed whole, its reason so far, and what its
record shows. -/
structure DecPic where
  w : Nat
  h : Nat
  p010 : Bool
  ticket : Nat
  whole : Bool
  reason : Nat := 0
  key : Bool
  shown : Bool
  grain : Bool
  order : Nat
  sealed : Bool
  epoch : Nat
  budget : Nat
  overrun : Bool := false
  deriving DecidableEq, Repr

/-- A decoder's job; a job without a picture ends as R643 states. -/
structure DecJob where
  slot : Nat
  run : Nat
  stage : Nat
  ctx : Nat
  outValid : Bool
  landing : Nat
  pic : Option DecPic := none
  deriving DecidableEq, Repr

/-- An encoder context: the values latched when it was enabled (R654), whether it has encoded a sealed job (R677), the
frame store slots that hold references, newest first, the ORDER of the last picture written, and the last QP of key and
inter pictures (R673, R674). -/
structure EncCtx where
  codec : Nat := 0
  ten : Nat := 0
  w : Nat := 1280
  h : Nat := 720
  refs : Nat := 1
  fsBase : Nat := 0
  fsBytes : Nat := 0
  hold : Bool := false
  sealSrc : Bool := false
  owners : Nat := 0
  word : Nat := 0
  sealed : Bool := false
  slots : List Nat := []
  order : Nat := 0
  qpKey : Option Nat := none
  qpInter : Option Nat := none
  /-- The last picture's vectors in quarter samples, by 64 × 64 block (Table VENC-4). -/
  motion : Sparse (Int × Int) := []
  deriving DecidableEq, Repr

/-- The encoder's job: its context, whether its picture is a key picture and was requested, its budget and starting QP. -/
structure EncJob where
  slot : Nat
  run : Nat
  stage : Nat
  ctx : Nat
  key : Bool
  requested : Bool
  sealed : Bool
  budget : Nat
  qp : Nat
  epoch : Nat
  /-- The job encodes nothing and marks its stage EMPTY (R662). -/
  empty : Bool := false
  /-- The source picture as the job took it (R663). -/
  src : List Byte := []
  deriving DecidableEq, Repr

/-- The decoders and the encoder. -/
structure Video where
  dec : Sparse DecCtx := []
  jobs : Sparse (Option DecJob) := []
  enc : Sparse EncCtx := []
  job : Option EncJob := none
  deriving DecidableEq, Repr


/-! ### The colonnade (chapter 16) -/

/-- An event in the mesh or in a core's queue: its key, the bank it is routed under, its hops, the timestep of its
injection (R700, R702, R707), and where it is. -/
structure ColnEvent where
  key : Nat
  bank : Nat
  hops : Nat := 0
  ts : Nat
  at_ : Nat
  deriving DecidableEq, Repr

/-- A wake detector: the counts of past timesteps, latest first, the count of the present one, and whether it is armed
(R711). -/
structure WakeDet where
  hist : List Nat := []
  cur : Nat := 0
  armed : Bool := true
  deriving DecidableEq, Repr

/-- A detector's configuration in force. -/
structure DetCfg where
  enable : Bool := false
  key : Nat := 0
  mask : Nat := 0xFFFFFF
  window : Nat := 1000
  count : Nat := 1
  deriving DecidableEq, Repr

/-- The configuration in force, which a mark's step 5 renews (R706). -/
structure ColnCfg where
  fe : Nat := 0
  delta : Nat := 6
  floor : Nat := 90
  outBase : Nat := 0
  outEntries : Nat := 0
  outLanding : Nat := 0
  dets : Sparse DetCfg := []
  deriving DecidableEq, Repr

/-- The colonnade: the load in progress (source and length); profiles by core × 16 + p, neuron states by core × 4096 + j,
fan entries by core × 512 + i, synapse bytes; the two live banks by bank × 1024 + router × 64 + i; synaptic sums and
operation counts of the timestep; events in the mesh, core queues, the output queue as router and key, the INJECT key
that waits; detectors; sent band levels by channel × 32 + band; the configuration in force; the number of the present
timestep; synapse words with an uncorrectable error (R723). -/
structure Colonnade where
  load : Option (Nat × Nat) := none
  profiles : Sparse Nat := []
  neurons : Sparse Nat := []
  fans : Sparse Nat := []
  syn : List Host.Cell := []
  banks : Sparse Nat := []
  bank : Nat := 0
  sums : Sparse Int := []
  ops : Sparse Nat := []
  mesh : List ColnEvent := []
  queues : Sparse (List ColnEvent) := []
  outq : List (Nat × Nat) := []
  inject : Option Nat := none
  /-- INJECT and ROUTE_SWAP have been written on this SYSREF edge; ROUTE_SWAP and the shadow routes as the edge found them (R719). -/
  injectFresh : Bool := false
  swapFresh : Bool := false
  swapWas : Bool := false
  routesWas : Sparse Nat := []
  dets : Sparse WakeDet := []
  sent : Sparse Nat := []
  cfg : ColnCfg := {}
  ts : Nat := 0
  badSyn : List Nat := []
  deriving DecidableEq, Repr

/-! ### The bundle unit and sealing (chapter 17) -/

/-- A layer's configuration as latched for an epoch (R725). -/
structure LayerCfg where
  enable : Bool := false
  ten : Nat := 0
  drop : Bool := false
  grace : Nat := 0
  parts : Nat := 1
  partBytes : Nat := 4096
  base : Nat := 0
  bufs : Nat := 2
  bufBytes : Nat := 8192
  landing : Nat := 0
  deriving DecidableEq, Repr

/-- A settled part (R727, R730): its index, its item's tag and status, whether it is present, the host bus address of a
reference part, the device address and length of its data. -/
structure Part where
  p : Nat
  tag : Nat
  status : Nat
  present : Bool
  ref : Option Nat
  dev : Nat
  len : Nat
  deriving DecidableEq, Repr

/-- How far a layer's copy is (R735, R760). -/
inductive CopySt where
  | idle | running | copied | failed
  deriving DecidableEq, Repr

/-- A layer's last FRESH publication (R735, R736): its buffer with its device address, the epoch, and the entry's flags,
parts present and bytes; `held` says that the layer has been enabled since. -/
structure LastFresh where
  buf : Nat
  epoch : Nat
  addr : Nat
  flags : Nat
  present : Nat
  bytes : Nat
  held : Bool := true
  deriving DecidableEq, Repr

/-- One layer in one epoch: the items that are its parts, the parts settled, the edge on which it became ready, its copy
with what the copied buffer's entry will say, whether data were cut or the copy failed, and the state fixed for it (0
ABSENT, 1 FRESH, 2 STALE). -/
structure LayerRun where
  cfg : LayerCfg := {}
  next : Nat := 0
  items : List (Nat × Nat) := []
  parts : List Part := []
  ready : Option Nat := none
  copy : CopySt := .idle
  made : Option LastFresh := none
  fault : Bool := false
  fixed : Option Nat := none
  deriving DecidableEq, Repr

/-- The publication of one epoch: its layers, each tenancy's BND_BASE and BND_SLOTS, the edge of its sweep's start, and for the publishing epoch the publish point's stamps and the tenancies whose header is still to be written. -/
structure BundleEpoch where
  epoch : Nat := 0
  layers : Sparse LayerRun := []
  bnd : Sparse (Nat × Nat) := []
  sweep : Option Nat := none
  point : Nat := 0
  synthetic : Bool := false
  stamp : Nat := 0
  audio : Nat := 0
  headers : List Nat := []
  deriving DecidableEq, Repr

/-- The bundle unit: the epoch in progress, the one being published (R725), each layer's last FRESH publication
(R735), the zero-fills that bytes leaving the sealed set wait for (R747), the cores tainted by a sealed stage (R741) and
those whose unseal fill runs (R749), the gallery bytes a reset leaves sealed until their fill (R747). -/
structure Bundle where
  cur : BundleEpoch := {}
  pub : Option BundleEpoch := none
  fresh : Sparse (Option LastFresh) := []
  fills : List (Nat × Nat) := []
  tainted : Nat := 0
  unsealing : Nat := 0
  resetHeld : List (Nat × Nat) := []
  deriving DecidableEq, Repr



/-! ### The memory controller (chapter 18) -/

/-- The memory controller: the open row of each bank by channel × 16 + bank, as row + 1, and the edge of its last use;
the edge of each channel's last access; channels in power-down; postponed refreshes by bank (R775); the edge of each
channel's last ZQ latch; whether firmware found no usable boot delay table (R782). -/
structure Dmem where
  rows : Sparse Nat := []
  used : Sparse Nat := []
  last : Sparse Nat := []
  down : Nat := 0
  postponed : Sparse Nat := []
  zq : Sparse Nat := []
  /-- The channels whose TRIM_ARM has been written on this SYSREF edge (R793). -/
  trimFresh : Nat := 0
  noTable : Bool := false
  deriving DecidableEq, Repr


/-! ### The GQ unit (chapter 19) -/

/-- A replay entry: the SEQ and CRC of the last unicast request of a source that was answered, and the response's body
(R829). -/
structure GqEntry where
  seq : Nat
  crc : Nat
  body : List Byte
  deriving DecidableEq, Repr

/-- A tick telegram: for one to send, the boundary's edge; for one received, its tick point; the epoch it carries and its
SYNTHETIC flag (R835, R836). -/
structure GqTick where
  edge : Nat
  epoch : Nat
  synth : Bool
  deriving DecidableEq, Repr

/-- The mailbox's request: the telegram without its CRC, the attempts made, and the edge on which the last attempt's ED
ended while it waits for a response (R832, R833). -/
structure GqMail where
  body : List Byte
  tries : Nat := 0
  sent : Option Nat := none
  deriving DecidableEq, Repr

/-- The GQ unit: the replay cache by source, the tick telegram to send, the tick point scheduled, the mailbox's request,
since when no line condition holds in LISTEN_ONLY and the last probe (R804), and the last telegram transmitted; the edge since which
the bus is idle, the edge until which a reply window is open unless its response ends before, and whether the mailbox owes the
courtesy of a completed transaction (R819 to R821). -/
structure Gq where
  cache : Sparse (Option GqEntry) := []
  emit : Option GqTick := none
  point : Option GqTick := none
  mail : Option GqMail := none
  clear : Nat := 0
  probe : Nat := 0
  tx : List Byte := []
  idleAt : Nat := 0
  window : Nat := 0
  courtesy : Bool := false
  deriving DecidableEq, Repr



/-! ### Power, Pace and resets (chapter 20) -/

/-- A full device reset in progress (R875): its cause, the edge of the order, whether PCI Express configuration is kept
(R151), and whether the module powers to FLOOR when it takes hold (R873, R897). -/
structure ResetRun where
  cause : Nat
  since : Nat
  keepPcie : Bool
  floor : Bool := false
  deriving DecidableEq, Repr

/-- The level of MOD_RST_N and how long it has been low: below 1 µs, from 1 µs, from 10 ms (R875, R876). -/
inductive ModRst where
  | high | low | full | cold
  deriving DecidableEq, Repr

/-- The power controller: rails, ramps in progress with their starting edges, the edge of the last ramp start
(R853), the wake pin, the transition in progress, the Pace change in progress as target and whether its supply
is ready (R870), since when the module is too hot or cool (R872), the reset in progress, a cold reset ordered (R876),
MOD_RST_N, whether SYSREF runs (R888), and the edge of the last POWER_CMD (R883). `await` says that the module is still to power to POWERUP_TARGET (R866). -/
structure Power where
  vaon : Bool := true
  vin : Bool := false
  await : Bool := true
  ramp : Sparse (Option Nat) := []
  lastRamp : Option Nat := none
  wakeLow : Bool := false
  moving : Option Nat := none
  paceTo : Option (Nat × Bool) := none
  supply : Nat := 3
  hot : Option Nat := none
  cool : Option Nat := none
  reset : Option ResetRun := none
  cold : Option Nat := none
  mod_ : ModRst := .high
  sysref : Bool := true
  cmdEdge : Option Nat := none
  deriving DecidableEq, Repr


/-! ### Boot, fuses, flash, persist store and calendar (chapter 21) -/

/-- A key slot's fuses: the usage byte, the point (x in the low 384 bits, y above), the valid and revoke marks, and
whether bits were burnt without the valid mark (R898, R925). -/
structure KeySlot where
  usage : Nat := 0
  point : Nat := 0
  valid : Bool := false
  revoked : Bool := false
  defect : Bool := false
  deriving DecidableEq, Repr

/-- A fuse burn in progress (R896 to R901): of a lifecycle state, whose new value governs at once, with the old one; of the
SEC_EPOCH floor; of a key slot; of a revoke mark. -/
inductive Burn where
  | life (old : Nat)
  | floor (v : Nat)
  | key (k usage point : Nat)
  | revoke (k : Nat)
  deriving DecidableEq, Repr

/-- A flash operation in progress (R891, R892): a program with its bytes, or an erase. -/
inductive FlashOp where
  | program (off : Nat) (bs : List Byte)
  | erase (off : Nat)
  deriving DecidableEq, Repr

/-- How far the boot of steps 4 to 7 is (Table BOOT-6): not begun, the slots still to try, best first (0 A, 1 B), core 0
released from a slot, firmware running, or no slot verified (R905). -/
inductive BootPhase where
  | idle
  | verify (slots : List Nat)
  | released (slot : Nat)
  | running
  | gaveUp
  deriving DecidableEq, Repr

/-- The AON controller's store: fuses, the two flashes (a byte that nothing has written reads 0xFF), operations in
progress, the persist working copy's snapshot, the boot, and the calendar's seconds. -/
structure Boot where
  life : Nat := 0
  floor : Nat := 0
  keys : Sparse KeySlot := []
  burn : Option Burn := none
  flash : List Host.Cell := []
  offFlash : List Host.Cell := []
  /-- The off-module flash answered at D0 power-up, and its SFDP tables show what R993 asks. -/
  offUsable : Bool := false
  op : Option FlashOp := none
  /-- The snapshot that a persist commit writes, by entry, and its bank (0 A, 1 B). -/
  snap : Sparse (List Byte) := []
  bank : Nat := 0
  phase : BootPhase := .idle
  /-- The key slot that verified the running firmware and its SEC_EPOCH (R899, R900). -/
  runKey : Option Nat := none
  runEpoch : Nat := 0
  /-- The calendar: the 32.768 kHz cycle with which the current second began, its length, and its number in its group of
  32 (R912). -/
  secStart : Nat := 0
  secLen : Nat := 32768
  group : Nat := 0
  deriving DecidableEq, Repr

/-! ### The trace unit (chapter 22) -/

/-- A line of the trace buffer: its bytes, the count of events' packets that begin in it, and the loss bits of their types. -/
structure TraceLine where
  bytes : List Byte
  packets : Nat
  types : Nat := 0
  deriving DecidableEq, Repr

/-- The trace unit: the complete lines that wait for the sink, the open line, the ordering and loss bookkeeping. -/
structure Trace where
  lines : List TraceLine := []
  line : List Byte := []
  openPackets : Nat := 0
  openTypes : Nat := 0
  /-- The SYSREF edge since which the open line holds packets (R942). -/
  openSince : Nat := 0
  /-- The SYSREF edges of the last packet's instant and of the last TIME packet; packets since that TIME (R935). -/
  lastInstant : Nat := 0
  lastTime : Nat := 0
  sinceTime : Bool := false
  /-- Bytes written since the last SYNC, the next SYNC's sequence number, and whether a SYNC is due (R938). -/
  sinceSync : Nat := 0
  syncSeq : BitVec 32 := 0#32
  needSync : Bool := true
  /-- The pending loss record: packets lost and the bits of the types lost (R939). -/
  lost : Nat := 0
  lostTypes : Nat := 0
  /-- The last sink write failed (R943). -/
  failed : Bool := false
  /-- Instructions retired since the last INSTR packet, by agent. -/
  retired : Sparse Nat := []
  /-- A SEALED packet has been written for the agent's present stage (R932). -/
  quiet : Sparse Bool := []
  deriving DecidableEq, Repr


/-! ### The debug port (chapter 22) -/

/-- The boundary-scan instruction in force (Table CHRN-3). -/
inductive TapInstr where
  | bypass | idcode | sample | extest | clamp | highz | dap
  deriving DecidableEq, Repr

/-- A response whose verification runs: the level requested, the key slot, and r and s as one number, r below (R961). -/
structure AuthRun where
  level : Nat
  slot : Nat
  sig : Nat
  msg : List Byte
  deriving DecidableEq, Repr

/-- The debug port: the TAP instruction, the boundary register's captured and preloaded cells in pin order (R947), the
DAP's result, the agent whose HALT or STEP is pending, the nonce's words, the words of a response, its verification, and
the edge of the last failed response (R962). -/
structure Debug where
  tap : TapInstr := .idcode
  sample : BitVec 58 := 0#58
  preload : BitVec 58 := 0#58
  status : Nat := 0
  data : Nat := 0
  waits : Option Nat := none
  nonce : List Nat := []
  words : List Nat := []
  auth : Option AuthRun := none
  lockout : Option Nat := none
  deriving DecidableEq, Repr



/-! ### Pins (chapter 23) -/

/-- The pin multiplexer: the switch in progress of each GPIO, as S0 and whether the new function has taken the pin (R979), and
the level each GPIO was driven to last, which a keeper holds (R977). -/
structure Pins where
  sw : Sparse (Option (Nat × Bool)) := []
  kept : Nat := 0
  deriving DecidableEq, Repr


/-! ### The whole machine -/

/-- The machine's state. -/
structure State where
  /-- The commands that wait, first in, first out. -/
  pending : List Instr := []
  clk : Clock := {}
  /-- The value of every numeric object that differs from its default, by index × 256 + subindex. -/
  od : Sparse Nat := []
  /-- The bytes of every STR32 or BLOB object that differ from its default. -/
  odb : Sparse (List Byte) := []
  dict : Dict := {}
  tick : Tick := {}
  host : HostLink := {}
  land : Landings := {}
  flit : Flights := {}
  falt : FaultUnit := {}
  trc : Trace := {}
  cores : Sparse Core := []
  newels : Sparse Newel := []
  arr : ArrayPairs := {}
  mem : DevMem := {}
  bal : Balustrade := {}
  ldr : Loader := {}
  clok : Cloak := {}
  ports : Ports := {}
  ledg : Bundle := {}
  vest : Vestibule := {}
  vid : Video := {}
  coln : Colonnade := {}
  dmem : Dmem := {}
  pow : Power := {}
  boot : Boot := {}
  gq : Gq := {}
  dbg : Debug := {}
  pins : Pins := {}
  /-- The number of free values drawn so far (the model's own). -/
  free : Nat := 0
  deriving DecidableEq, Repr

/-- A fault of the model. No command ends in one (NOTES.md, Stops); the constructor is there because the interface asks
for a type. Safe: it is never raised. -/
inductive Fault where
  | none
  deriving DecidableEq, Repr

/-- A refusal of the model: the dispatch raises `notModelled` for a command that has no meaning yet. Safe: the machine
stops. -/
inductive Refusal where
  | notModelled (mnemonic : String)
  deriving DecidableEq, Repr

/-- What a command answers. -/
abbrev Out := Host.Outcome State Fault Refusal

/-- The machine right after power-on reset: every object at its default, every unit at rest, D0 alone powered (R14,
R129, R876); registers without a stated reset value stand at zero (notes/assumptions). -/
def State.reset : State := {}

end Sys2Proof.Machine
end

