-- ==== Sys2Proof/Machine/Ops.lean ====
section
/-!
DEFINITION. The shared operations of the machine: sparse stores, bit fields, byte order, the dictionary's value store,
power, free values, message signals and the fault log.
-/

namespace Sys2Proof.Machine

/-! ### Sparse stores -/

/-- The value at a key: the listed one, or the default. -/
def Sparse.get {α : Type} (d : Nat → α) : Sparse α → Nat → α
  | [], k => d k
  | (k', v) :: r, k => if k = k' then v else Sparse.get d r k

/-- Drop every entry whose key satisfies a test: those keys return to the default. -/
def Sparse.clear {α : Type} (p : Nat → Bool) (m : Sparse α) : Sparse α := m.filter (fun e => !p e.1)

/-- List a value at its key's place. -/
def Sparse.insert {α : Type} : Sparse α → Nat → α → Sparse α
  | [], k, v => [(k, v)]
  | (k', v') :: r, k, v =>
    if k < k' then (k, v) :: (k', v') :: r
    else if k = k' then (k, v) :: r
    else (k', v') :: Sparse.insert r k v

/-- Write a key. Writing the default removes the entry, so equal stores are equal lists. -/
def Sparse.put {α : Type} [DecidableEq α] (d : Nat → α) (m : Sparse α) (k : Nat) (v : α) : Sparse α :=
  if v = d k then Sparse.clear (fun j => decide (j = k)) m else Sparse.insert m k v

/-- The canonical form: keys strictly rising, and no entry equal to the default. -/
def Sparse.wf {α : Type} [DecidableEq α] (d : Nat → α) : Sparse α → Bool
  | [] => true
  | [(k, v)] => !(decide (v = d k))
  | (k, v) :: (k', v') :: r => !(decide (v = d k)) && decide (k < k') && Sparse.wf d ((k', v') :: r)

/-! ### Bit fields and byte order (R5) -/

/-- `n` bits of a number from bit `lo`. -/
def bits (v lo n : Nat) : Nat := v / 2 ^ lo % 2 ^ n

/-- One bit of a number. -/
def bit (v i : Nat) : Bool := v / 2 ^ i % 2 = 1

/-- A number with one bit set or cleared. -/
def setBit (v i : Nat) (b : Bool) : Nat :=
  if bit v i = b then v else if b then v + 2 ^ i else v - 2 ^ i

/-- A Boolean as a bit. -/
def b2n (b : Bool) : Nat := if b then 1 else 0

/-- A number's `n` low bytes, lowest first. -/
def leBytes : Nat → Nat → List Byte
  | 0, _ => []
  | n + 1, v => BitVec.ofNat 8 v :: leBytes n (v / 256)

/-- The number that bytes hold, lowest first. -/
def ofLe : List Byte → Nat
  | [] => 0
  | b :: bs => b.toNat + 256 * ofLe bs

/-- `k` rounded up to a multiple of `m`. -/
def alignUp (k m : Nat) : Nat := (k + m - 1) / m * m

/-- A two's complement value of `n` bits as an integer. -/
def toSigned (n v : Nat) : Int := if v < 2 ^ (n - 1) then (v : Int) else (v : Int) - 2 ^ n

/-- An integer as a two's complement value of `n` bits. -/
def ofSigned (n : Nat) (i : Int) : Nat := (i % (2 ^ n : Nat)).toNat

/-- Zero bytes. -/
def zeros (n : Nat) : List Byte := List.replicate n 0#8

/-- A byte string cut or zero-filled to `n` bytes. -/
def fitBytes (n : Nat) (bs : List Byte) : List Byte := (bs ++ zeros (n - bs.length)).take n

/-! ### The dictionary's value store -/

/-- The value of a numeric object (its default where nothing else is stored). -/
def State.rd (s : State) (k : Nat) : Nat := Sparse.get odDefault s.od k

/-- Store a numeric object's value. -/
def State.wr (s : State) (k v : Nat) : State := { s with od := Sparse.put odDefault s.od k v }

/-- The bytes of a BLOB or STR32 object; its default is the empty list here (R1033, its reader pads it). -/
def State.rdBytes (s : State) (k : Nat) : List Byte := Sparse.get (fun _ => []) s.odb k

/-- Store the bytes of a BLOB or STR32 object. -/
def State.wrBytes (s : State) (k : Nat) (bs : List Byte) : State :=
  { s with odb := Sparse.put (fun _ => []) s.odb k bs }

/-- Whether a Boolean object reads 1. -/
def State.flag (s : State) (k : Nat) : Bool := s.rd k = 1

/-- Add to a counter that saturates at `top`. -/
def State.bumpTo (s : State) (top k n : Nat) : State := s.wr k (min (s.rd k + n) top)

/-- Count once in a 32-bit counter that saturates at 0xFFFF_FFFF. -/
def State.bump (s : State) (k : Nat) : State := s.bumpTo 0xFFFFFFFF k 1

/-- Count `n` in a saturating 32-bit counter. -/
def State.bumpN (s : State) (k n : Nat) : State := s.bumpTo 0xFFFFFFFF k n

/-- Count `n` in a saturating 64-bit counter. -/
def State.bump64 (s : State) (k n : Nat) : State := s.bumpTo 0xFFFFFFFFFFFFFFFF k n

/-- Set a bit of an object. -/
def State.setOdBit (s : State) (k i : Nat) (b : Bool) : State := s.wr k (setBit (s.rd k) i b)

/-! ### Power -/

/-- Whether a domain is ready (DOMAIN_ON, R855). -/
def State.powered (s : State) (d : Nat) : Bool := bit (s.rd OD.DOMAIN_ON) d

/-! ### Time -/

/-- The SYSREF edges in `us` microseconds (R11). -/
def usEdges (us : Nat) : Nat := 50 * us

/-- The period in SYSREF cycles (R11) and the bounds of the acceptance window. -/
def State.period (s : State) : Nat := 50 * s.rd OD.TICK_PERIOD
def State.lowerBound (s : State) : Nat := 7 * s.period / 8
def State.upperBound (s : State) : Nat := (9 * s.period + 7) / 8

/-- The tick unit works and follows a source. -/
def State.sourceIs (s : State) (v : Nat) : Bool := s.powered 1 && decide (s.rd OD.TICK_SOURCE = v)

/-- The boundary register drives the pins, and the functions behind them see inactive levels (R1002). -/
def State.scanning (s : State) : Bool :=
  s.powered 27 && (s.dbg.tap = .extest || s.dbg.tap = .clamp || s.dbg.tap = .highz)

/-- An arrival of the active source on the present edge makes a boundary (R21, R22, R28, R32). -/
def State.arrivalTakes (s : State) : Bool :=
  match s.tick.st with
  | .stopped => s.tick.startPending
  | .acquire => decide (s.period ≤ 2 * (s.clk.now - s.tick.last))
  | _ => decide (s.lowerBound ≤ s.clk.now - s.tick.last)

/-- A synthetic point falls on the present edge (R23, R32). -/
def State.synthPoint (s : State) : Bool :=
  s.powered 1 && decide (s.rd OD.TICK_SOURCE ≠ 0) &&
  (match s.tick.st with
  | .stopped => false
  | .acquire => decide (3 * s.period ≤ 2 * (s.clk.now - s.tick.last))
  | _ => decide (s.tick.last + s.upperBound ≤ s.clk.now))

/-- A command is a write of 1 to TICK_STRIKE. -/
def strikes : Instr → Bool
  | .tickStrike _ v => v = 1
  | .expeditedAccess _ true idx sub _ _ data _ => idx = 0x2800 && sub = 9 && data = 1
  | .registerWrite _ idx sub data => idx = 0x2800 && sub = 9 && data = 1
  | _ => false

/-- The present edge is a boundary cycle, and its boundary is still to be made: the boundary that time makes comes after the
edge's commands, an arrival that the outside commands in its turn among those that wait. What reaches the dispatcher before
it on this edge has reached it on the boundary cycle (R45, R255, R295, R296). -/
def State.boundaryAhead (s : State) : Bool :=
  s.synthPoint ||
  (s.sourceIs 0 && decide (s.tick.st ≠ .stopped) && decide (s.tick.last + s.period ≤ s.clk.now)) ||
  (s.arrivalTakes &&
    ((s.sourceIs 1 && !s.scanning && (decide (s.tick.inEdge = some s.clk.now) || s.pending.contains .tickInEdge)) ||
    (s.sourceIs 2 && (match s.gq.point with | some g => decide (g.edge ≤ s.clk.now) | none => false)) ||
    (s.sourceIs 3 && s.pending.any strikes)))

/-! ### Free values -/

/-- Draw a free value: the value at the counter, and the counter advanced. -/
def State.drawFree (s : State) : Nat × State := (Config.freeNat s.free, { s with free := s.free + 1 })

/-! ### Message signals (R189 to R192) -/

/-- A function's message state. -/
def State.msix (s : State) (pf1 : Bool) : Msix := if pf1 then s.host.pf1 else s.host.pf0

/-- Replace a function's message state. -/
def State.setMsix (s : State) (pf1 : Bool) (m : Msix) : State :=
  if pf1 then { s with host := { s.host with pf1 := m } } else { s with host := { s.host with pf0 := m } }

/-- The link is UP (Table HOST-13). -/
def State.linkUp (s : State) : Bool := s.rd OD.LINK_STATE = 2

/-- Whether a function can send a message now (R192). -/
def State.canSend (s : State) (pf1 : Bool) : Bool :=
  s.linkUp && (s.msix pf1).bme && (s.msix pf1).enabled

/-- A message goes out on a vector. -/
def Msix.send (m : Msix) (v : Nat) : Msix :=
  { m with
    pend := m.pend &&& ~~~(BitVec.twoPow 64 v)
    sent := Sparse.put (fun _ => 0) m.sent v (Sparse.get (fun _ => 0) m.sent v + 1) }

/-- Signal a vector (R192): one message if it can be sent and the vector is unmasked, else its pending bit. -/
def State.signal (s : State) (pf1 : Bool) (v : Nat) : State :=
  if !s.powered 26 then s
  else
    let m := s.msix pf1
    if s.canSend pf1 && !m.mask.getLsbD v then s.setMsix pf1 (m.send v)
    else s.setMsix pf1 { m with pend := m.pend ||| BitVec.twoPow 64 v }

/-- Signal vector `k` of tenancy `t` (R190). -/
def State.signalTen (s : State) (t k : Nat) : State := s.signal true (4 * t + k)

/-! ### The fault log (R1004 to R1011) -/

/-- The fault classes (Table FALT-1). -/
abbrev FaultClass.corrected : Nat := 0
abbrev FaultClass.item : Nat := 1
abbrev FaultClass.stage : Nat := 2
abbrev FaultClass.tenancy : Nat := 3
abbrev FaultClass.device : Nat := 4

/-- The lowest class present in a log. -/
def lowestClass : List FaultRec → Nat
  | [] => 0
  | [r] => r.cls
  | r :: r' :: rs => min r.cls (lowestClass (r' :: rs))

/-- Remove the oldest record of a class. -/
def dropOldest (c : Nat) : List FaultRec → List FaultRec
  | [] => []
  | r :: rs => if r.cls = c then rs else r :: dropOldest c rs

/-- A record stands before one that reached D0 on the same edge: those of agents in ascending AGENT order, those without
an agent (0xFF) after them in ascending OBJECT order (R1008). -/
def FaultRec.before (r x : FaultRec) : Bool :=
  decide (x.time = r.time ∧ (r.agent < x.agent ∨ r.agent = 0xFF ∧ x.agent = 0xFF ∧ r.obj < x.obj))

/-- Put a record at its place in the log: last but for those of its own edge that come after it. -/
def placeRec (r : FaultRec) : List FaultRec → List FaultRec
  | [] => [r]
  | x :: xs => if r.before x then r :: x :: xs else x :: placeRec r xs

/-- Enter a record into a log of 256 places (R1008, R1009): the new log, and whether a record was lost. -/
def logInsert (log : List FaultRec) (r : FaultRec) : List FaultRec × Bool :=
  if log.length < 256 then (placeRec r log, false)
  else if lowestClass log ≤ r.cls then (placeRec r (dropOldest (lowestClass log) log), true)
  else (log, true)

/-- A fault record reaches D0 (R1008 to R1011). -/
def State.logFault (s : State) (r0 : FaultRec) : State :=
  let r := { r0 with time := s.clk.gtime }
  let (log, lost) := logInsert s.falt.log r
  let s := { s with falt :=
    { s.falt with
      log := log
      lastDevice := if r.cls = FaultClass.device then some r else s.falt.lastDevice
      lastStage := if r.cls = FaultClass.stage then some r else s.falt.lastStage } }
  let s := if lost then s.bump OD.FAULTS_LOST else s
  let s := s.bump (OD.CLASS_COUNTS r.cls)
  if s.flag OD.FAULT_IRQ && decide (s.rd OD.FAULT_IRQ_MIN ≤ r.cls) then s.signal false 0 else s

/-- A record that concerns no item, with an address and an instance (last row of Table FALT-3). -/
def State.record (s : State) (cls agent domain obj addr inst : Nat) : State :=
  s.logFault ⟨0, cls, agent, 0, domain, obj, 0xFF, addr, inst⟩

/-- The role byte of a path (Table FALT-2). -/
def pathRole : Path → Nat
  | .pf0 => 1 * 32
  | .ten t => 2 * 32 + t.val
  | .gq => 3 * 32
  | .fw _ => 4 * 32
  | .dbg => 5 * 32

/-- The agent a path's accesses are attributed to: PF0 to the AON controller (Table HOST-2), a tenancy, the GQ bus, the
Newel core, the debug port. -/
def pathAgent : Path → Nat
  | .pf0 => 64
  | .ten t => 48 + t.val
  | .gq => 65
  | .fw c => 32 + c.val
  | .dbg => 66

/-- The path's number in the transfer and response stores. -/
def pathId : Path → Nat
  | .pf0 => 0
  | .ten t => 1 + t.val
  | .gq => 17
  | .fw _ => 18
  | .dbg => 19

/-- The CORRECTED record of a failed dictionary access (R94, R118, R147; Table FALT-3). -/
def State.recordAccess (s : State) (p : Path) (domain idx sub code rejected : Nat) : State :=
  s.logFault ⟨0, FaultClass.corrected, pathAgent p, pathRole p, domain, idx * 256 + sub, 0xFF,
    idx * 2 ^ 24 + sub * 2 ^ 16 + code, rejected⟩

/-- The bytes of a fault record (Table FALT-2). -/
def FaultRec.toBytes (r : FaultRec) : List Byte :=
  leBytes 8 r.time ++ leBytes 1 r.cls ++ leBytes 1 r.agent ++ leBytes 1 r.role ++ leBytes 1 r.domain ++
  leBytes 3 r.obj ++ leBytes 1 r.status ++ leBytes 8 r.wa ++ leBytes 8 r.wb

/-- The bytes of a lost-item entry (Table FALT-7). -/
def LostEntry.toBytes (e : LostEntry) : List Byte :=
  leBytes 4 e.tag ++ leBytes 4 e.epoch ++ leBytes 2 e.slot ++ leBytes 1 e.ten ++ leBytes 1 e.status ++
  leBytes 1 e.cause ++ leBytes 1 e.flags ++ leBytes 2 0

/-! ### Applying a list of updates -/

/-- Fold an update over the first `n` numbers. -/
def foldN {α : Type} (n : Nat) (f : α → Nat → α) (a : α) : α := (List.range n).foldl f a

end Sys2Proof.Machine
end

