-- ==== Sys2Proof/Machine/Ranges.lean ====
section
/-!
DEFINITION. The device's address regions (Table TOUR-3) and the ranges that configuration puts into the sealed set
(R740, R747): pools, packer streams and seal regions.
-/

namespace Sys2Proof.Machine

/-- Start and size of the regions. -/
abbrev galleryBytes : Nat := 0x10000000
abbrev alcoveBase : Nat := 0x100000000
abbrev alcoveBytes : Nat := 0x200000
abbrev landBase : Nat := 0x200000000
abbrev regBase : Nat := 0x300000000
abbrev dramBase : Nat := 0x1000000000
abbrev dramEnd : Nat := 0x1400000000
abbrev windowBase : Nat := 0x8000000000
abbrev windowEnd : Nat := 0x18000000000

/-- A pool's record. -/
def State.pool (s : State) (q : Nat) : Pool := Sparse.get (fun _ => {}) s.clok.pools q

/-- A packer stream's record. -/
def State.stream (s : State) (k : Nat) : Stream := Sparse.get (fun _ => {}) s.vest.streams k

/-- The element size in bytes of a data type (Table LOAD-5); INT4 has none of its own. -/
def dtypeBytes (d : Nat) : Nat := if d = 5 then 2 else if d = 6 ∨ d = 7 then 4 else 1

/-- The size in bits of a data type (Table LOAD-5). -/
def dtypeBits (d : Nat) : Nat := if d = 2 then 4 else if d ≤ 4 then 8 else if d = 5 then 16 else 32

/-- Offsets of a batch's parts (Table VEST-5): data rows, mark rows, segment table, and the whole slot (R591). -/
def Stream.rowBytes (t : Stream) : Nat := alignUp (t.rowElems * dtypeBytes t.dtype) 64
def Stream.markBytes (t : Stream) : Nat := alignUp (2 * t.rowElems) 64
def Stream.markBase (t : Stream) : Nat := 64 + t.rows * t.rowBytes
def Stream.tableBase (t : Stream) : Nat := t.markBase + t.rows * t.markBytes
def Stream.slotBytes (t : Stream) : Nat := alignUp (t.tableBase + alignUp (16 * t.maxSegs) 64) 4096

/-- A byte lies in a range given by its start and its end. -/
def inRange (r : Nat × Nat) (a : Nat) : Bool := decide (r.1 ≤ a ∧ a < r.2)

/-- The range of a seal region, cut at the ends of the gallery and DRAM regions (R740). -/
def sealRegion (base size : Nat) : Nat × Nat :=
  if base < galleryBytes then (base, min (base + size) galleryBytes)
  else if dramBase ≤ base ∧ base < dramEnd then (base, min (base + size) dramEnd)
  else (0, 0)

/-- The ranges that configuration puts into the sealed set: pools, streams and seal regions (R740). -/
def State.sealRanges (s : State) : List (Nat × Nat) :=
  ((List.range 8).filter (fun q => decide (s.rd (OD.POOL_STATE q) ≠ 0) && (s.pool q).sealed)).map
    (fun q => ((s.pool q).base, (s.pool q).base + (s.pool q).buffers * 2 ^ (s.pool q).szLog)) ++
  ((List.range 4).filter (fun k => decide (s.rd (OD.PK_STATE k) ≠ 0) && (s.stream k).sealed)).map
    (fun k => ((s.stream k).base, (s.stream k).base + (s.stream k).slots * (s.stream k).slotBytes)) ++
  (List.range 16).map (fun r => sealRegion (s.rd (OD.SEAL_BASE r)) (s.rd (OD.SEAL_SIZE r)))

/-- The bytes of a range that are in none of the given ranges, as ranges in ascending order. -/
def cutOne (r x : Nat × Nat) : List (Nat × Nat) :=
  if x.2 ≤ r.1 ∨ r.2 ≤ x.1 then [r]
  else (if r.1 < x.1 then [(r.1, x.1)] else []) ++ (if x.2 < r.2 then [(x.2, r.2)] else [])

/-- Ranges with others cut out. -/
def cutAll (rs xs : List (Nat × Nat)) : List (Nat × Nat) :=
  xs.foldl (fun acc x => acc.flatMap (fun r => cutOne r x)) (rs.filter (fun r => decide (r.1 < r.2)))

/-- Bytes that a change takes out of the configured ranges start their zero-fill (R747): those of `before` that are in
no range now, nor in a fill already. -/
def State.sealLeave (s : State) (before : List (Nat × Nat)) : State :=
  { s with ledg := { s.ledg with
    fills := before.foldl (fun fills r => fills ++ cutAll [r] (s.sealRanges ++ fills)) s.ledg.fills } }

end Sys2Proof.Machine
end

