-- ==== Sys2Proof/Machine/Trace.lean ====
section
/-!
DEFINITION. The trace unit's packet stream (R931 to R940): how a source event becomes packets, with SYNC, TIME,
OVERFLOW and PAD packets around it. The sink and its rows stand in Machine/Sink.lean.
-/

namespace Sys2Proof.Machine

/-- The bytes the trace buffer holds. -/
def Trace.used (t : Trace) : Nat := 64 * t.lines.length + t.line.length

/-- The loss bit of a packet type (Table CHRN-2, OVERFLOW). -/
def lossBit (ty : Nat) : Nat := if ty = 9 then 5 else if ty = 8 then 4 else ty - 4

/-- A packet of an event, which the loss record can name: every type but PAD, SYNC, TIME and OVERFLOW. -/
def eventType (ty : Nat) : Bool := decide (4 ≤ ty ∧ ty ≤ 9)

/-- A packet's bytes go into the stream; a line that reaches 64 bytes is complete. -/
def Trace.put (t : Trace) (now ty : Nat) (bs : List Byte) : Trace :=
  let t := if t.line = [] then { t with openSince := now } else t
  let all := t.line ++ bs
  let n := if eventType ty then t.openPackets + 1 else t.openPackets
  let k := if eventType ty then setBit t.openTypes (lossBit ty) true else t.openTypes
  if all.length < 64 then
    { t with line := all, openPackets := n, openTypes := k, sinceSync := t.sinceSync + bs.length }
  else
    { t with
      lines := t.lines ++ [⟨all.take 64, n, k⟩]
      line := all.drop 64
      openPackets := 0
      openTypes := 0
      openSince := now
      sinceSync := t.sinceSync + bs.length }

/-- The open line is filled with PAD and becomes complete (R942); an empty line stays. -/
def Trace.pad (t : Trace) : Trace :=
  if t.line = [] then t
  else
    { t with
      lines := t.lines ++ [⟨fitBytes 64 t.line, t.openPackets, t.openTypes⟩]
      sinceSync := t.sinceSync + (64 - t.line.length)
      line := []
      openPackets := 0
      openTypes := 0 }

/-- A packet: type, delta and payload (R937). -/
def packet (ty delta : Nat) (payload : List Byte) : List Byte := leBytes 1 ty ++ leBytes 1 delta ++ payload

/-- The spine cycles of a number of SYSREF edges at the present Pace (R934, Table POWR-5). -/
def State.spineCycles (s : State) (edges : Nat) : Nat := edges * s.rd OD.SPINE_MHZ / 50

/-- Set bits of TRC_EVENTS; a bit that goes from 0 to 1 signals vector 8 when TRC_IRQ is 1 (R944). -/
def State.trcEvent (s : State) (i : Nat) : State :=
  let was := bit (s.rd OD.TRC_EVENTS) i
  let s := s.setOdBit OD.TRC_EVENTS i true
  if !was && s.flag OD.TRC_IRQ then s.signal false 8 else s

/-- One TIME packet at the present instant. -/
def Trace.time (t : Trace) (now gtime : Nat) : Trace :=
  { t.put now 2 (packet 2 0 (leBytes 8 gtime)) with lastTime := now, sinceTime := false, lastInstant := now }

/-- The SYNC that begins a line, and its TIME (R935, R938). -/
def Trace.sync (t : Trace) (now gtime : Nat) : Trace :=
  let t := t.pad
  let t := t.put now 1 (packet 1 0 (leBytes 8 0x434E595352544743 ++ leBytes 4 t.syncSeq.toNat ++ leBytes 2 0))
  Trace.time { t with syncSeq := t.syncSeq + 1, needSync := false, sinceSync := 16 } now gtime

/-- The trace unit writes packets: it is powered and enabled, with a sink and a source (R965). -/
def State.tracing (s : State) : Bool :=
  s.powered 27 && s.flag OD.TRC_ENABLE && decide (s.rd OD.SINK_SIZE ≠ 0) && decide (s.rd OD.TRC_SOURCES ≠ 0)

/-- The buffer with the packet in it, and before it whatever SYNC, OVERFLOW and TIME packets are due. -/
def State.traceWith (s : State) (ty : Nat) (payload : List Byte) : Trace :=
  let t := s.trc
  let now := s.clk.now
  let t := if t.needSync || decide (s.rd OD.SYNC_INTERVAL ≤ t.sinceSync) then t.sync now s.clk.gtime else t
  let t := if 0 < s.trc.lost then
      Trace.time { t.put now 3 (packet 3 0 (leBytes 4 t.lost ++ leBytes 2 t.lostTypes)) with
        lost := 0, lostTypes := 0 } now s.clk.gtime
    else t
  let delta := s.spineCycles (now - t.lastInstant)
  let t := if decide (254 < delta) || (t.sinceTime && decide (usEdges (s.rd OD.TS_INTERVAL) ≤ now - t.lastTime))
    then t.time now s.clk.gtime else t
  let delta := s.spineCycles (now - t.lastInstant)
  { t.put now ty (packet ty delta payload) with lastInstant := now, sinceTime := true }

/-- A packet of type `ty` with its payload joins the stream at the present instant (R933 to R939). -/
def State.tracePacket (s : State) (ty : Nat) (payload : List Byte) : State :=
  if !s.tracing then s
  else if 16384 < s.trc.used + (2 + payload.length) + 18 then
    State.bump { s with trc :=
      { s.trc with
        lost := min (s.trc.lost + 1) 0xFFFFFFFF
        lostTypes := setBit s.trc.lostTypes (lossBit ty) true } } OD.LOST_PACKETS
  else
    let t := s.traceWith ty payload
    let n := t.used - s.trc.used
    let had := decide (0 < s.trc.lost)
    let s := { s with trc := t }
    let s := (s.bump OD.PACKETS).bump64 OD.TRC_BYTES n
    if had then (s.bump OD.OVERFLOW_EVENTS).trcEvent 1 else s

/-- Whether a source is on (Table CHRN-1). -/
def State.traceOn (s : State) (src : Nat) : Bool := s.flag OD.TRC_ENABLE && bit (s.rd OD.TRC_SOURCES) src

/-- A FLIGHT packet: events 0 ADMIT, 1 RELEASE, 2 ISSUE, 3 COMPLETE, 4 STOP, 5 CLOSE. -/
def State.traceFlight (s : State) (slot stage run event engine flight status : Nat) : State :=
  if s.traceOn 0 && bit (s.rd OD.FLIGHT_MASK) flight then
    s.tracePacket 4 (leBytes 8 (slot % 1024 + stage % 32 * 2 ^ 10 + run % 256 * 2 ^ 15 + event * 2 ^ 23 +
      engine % 128 * 2 ^ 26 + flight % 64 * 2 ^ 33 + status % 256 * 2 ^ 39))
  else s

/-- A LANDING packet. -/
def State.traceLanding (s : State) (landing op agent : Nat) (sat released err : Bool) (word : Nat) : State :=
  if s.traceOn 1 && decide (s.rd OD.LAND_LO ≤ landing ∧ landing ≤ s.rd OD.LAND_HI) then
    s.tracePacket 5 (leBytes 8 (landing + op % 16 * 2 ^ 16 + agent % 128 * 2 ^ 20 + b2n sat * 2 ^ 27 +
      b2n released * 2 ^ 28 + b2n err * 2 ^ 29 + bits word 0 24 * 2 ^ 32 + bits word 61 2 * 2 ^ 56))
  else s

/-- An INSTR packet: kinds 0 BRANCH, 1 JUMP, 2 ENTRY, 3 EXCEPTION, 4 HALT, 5 RESUME, 6 SEALED. -/
def State.traceInstr (s : State) (agent off kind : Nat) : State :=
  if s.traceOn 2 && bit (s.rd OD.INSTR_AGENTS) agent &&
      !(Sparse.get (fun _ => false) s.trc.quiet agent) then
    let n := min (Sparse.get (fun _ => 0) s.trc.retired agent) 0xFFFF
    let s := { s with trc := { s.trc with retired := Sparse.put (fun _ => 0) s.trc.retired agent 0 } }
    s.tracePacket 6 (leBytes 8 (agent + off % 2 ^ 21 * 2 ^ 8 + kind * 2 ^ 29 + n * 2 ^ 32))
  else s

/-- A MARKER packet of a TMARK (R432). -/
def State.traceMarker (s : State) (agent imm stage flight : Nat) : State :=
  if s.traceOn 3 && !(Sparse.get (fun _ => false) s.trc.quiet agent) then
    s.tracePacket 7 (leBytes 6 (agent + imm % 65536 * 2 ^ 8 + stage % 32 * 2 ^ 24 + flight % 64 * 2 ^ 29))
  else s

/-- A BOUNDARY packet. -/
def State.traceBoundary (s : State) (epoch flags : Nat) : State :=
  if s.traceOn 4 then s.tracePacket 8 (leBytes 6 (epoch + flags * 2 ^ 32)) else s

/-- A PACE packet and its TIME packet (R936); a PACE packet that is dropped has none. -/
def State.tracePace (s : State) (pace : Nat) : State :=
  if s.tracing then
    let s := s.tracePacket 9 (leBytes 2 pace)
    if s.trc.lost = 0 then { s with trc := s.trc.time s.clk.now s.clk.gtime } else s
  else s

end Sys2Proof.Machine
end

