-- ==== Sys2Proof/Machine/CoreRegs.lean ====
section
/-!
DEFINITION. A matrix core's registers (Table CORE-1): S0 and P0 are hard-wired here, where they are read and written; the
accumulator file as 256 flat rows; and the retirement of one instruction (R434, R955, R958).
-/

namespace Sys2Proof.Machine

/-- A core's record. -/
def State.core (s : State) (n : Nat) : Core := Sparse.get (fun _ => {}) s.cores n

/-- Store a core's record. -/
def State.setCore (s : State) (n : Nat) (c : Core) : State :=
  { s with cores := Sparse.put (fun _ => {}) s.cores n c }

/-! ### Register files -/

/-- S register i; S0 reads 0. -/
def Core.sreg (c : Core) (i : Nat) : Word := if i = 0 then 0#64 else Sparse.get (fun _ => 0#64) c.s i

/-- Write S register i; a write of S0 is discarded. -/
def Core.setS (c : Core) (i : Nat) (v : Word) : Core :=
  if i = 0 then c else { c with s := Sparse.put (fun _ => 0#64) c.s i v }

/-- Predicate register i; P0 reads all ones. -/
def Core.preg (c : Core) (i : Nat) : Word :=
  if i = 0 then BitVec.allOnes 64 else Sparse.get (fun _ => 0#64) c.p i

/-- Write predicate register i; a write of P0 is discarded. -/
def Core.setP (c : Core) (i : Nat) (v : Word) : Core :=
  if i = 0 then c else { c with p := Sparse.put (fun _ => 0#64) c.p i v }

/-- Lane l of V register v. -/
def Core.lane (c : Core) (v l : Nat) : Lane := Sparse.get (fun _ => 0#32) c.v (64 * v + l)

/-- Write lane l of V register v. -/
def Core.setLane (c : Core) (v l : Nat) (x : Lane) : Core :=
  { c with v := Sparse.put (fun _ => 0#32) c.v (64 * v + l) x }

/-- Write the lanes of V register v that a predicate selects; the others keep their value (R403). -/
def Core.setLanes (c : Core) (v pred : Nat) (f : Nat → Lane) : Core :=
  let p := c.preg pred
  foldN 64 (fun c l => if p.getLsbD l then c.setLane v l (f l) else c) c

/-- Entry (row, col) of the accumulator file by flat row. -/
def Core.accAt (c : Core) (row col : Nat) : Lane := Sparse.get (fun _ => 0#32) c.acc (64 * row + col)

/-- Write an accumulator entry; an error that it held is replaced (R390). -/
def Core.setAcc (c : Core) (row col : Nat) (x : Lane) : Core :=
  { c with
    acc := Sparse.put (fun _ => 0#32) c.acc (64 * row + col) x
    accMarks := Sparse.clear (fun k => decide (k = 64 * row + col)) c.accMarks }

/-- The accumulator entries of a set are read (R390): each corrected error is recorded and written back. Answers whether an
entry holds an uncorrectable one. -/
def State.accRead (s : State) (n : Nat) (p : Nat → Bool) : Bool × State :=
  let c := s.core n
  let hits := c.accMarks.filter (fun e => p e.1)
  let s := s.setCore n { c with accMarks := c.accMarks.filter (fun e => !(p e.1 && decide (e.2 = 1))) }
  let s := (hits.filter (fun e => e.2 = 1)).foldl (fun s _ => s.record FaultClass.corrected n (2 + n / 4) 0 0 0) s
  (hits.any (fun e => e.2 = 2), s)

/-- The sticky flags of an accumulator tile: [0] SAT, [1] INF, [2] NAN. -/
def Core.tileFlags (c : Core) (t : Nat) : Nat := Sparse.get (fun _ => 0) c.flags t

/-- Replace a tile's sticky flags. -/
def Core.setTileFlags (c : Core) (t f : Nat) : Core := { c with flags := Sparse.put (fun _ => 0) c.flags t f }

/-! ### Debug register writes (Table CHRN-7) -/

/-- The value that a register selector reads; weight rows and the stage word are read elsewhere. -/
def Core.selRead (c : Core) (sel : Nat) : Nat :=
  if sel < 0x20 then (c.sreg sel).toNat
  else if 0x100 ≤ sel ∧ sel < 0x900 then (Sparse.get (fun _ => 0#32) c.v (sel - 0x100)).toNat
  else if 0x900 ≤ sel ∧ sel < 0x908 then (c.preg (sel - 0x900)).toNat
  else if sel = 0xA00 then c.pc
  else if 0x1000 ≤ sel ∧ sel < 0x5000 then (Sparse.get (fun _ => 0#32) c.acc (sel - 0x1000)).toNat
  else 0

/-- A register write by selector. -/
def Core.selWrite (c : Core) (sel v : Nat) : Core :=
  if sel < 0x20 then c.setS sel (BitVec.ofNat 64 v)
  else if 0x100 ≤ sel ∧ sel < 0x900 then
    { c with v := Sparse.put (fun _ => 0#32) c.v (sel - 0x100) (BitVec.ofNat 32 v) }
  else if 0x900 ≤ sel ∧ sel < 0x908 then c.setP (sel - 0x900) (BitVec.ofNat 64 v)
  else if sel = 0xA00 then { c with pc := v % 2 ^ 64 }
  else if 0x1000 ≤ sel ∧ sel < 0x5000 then
    c.setAcc ((sel - 0x1000) / 64) ((sel - 0x1000) % 64) (BitVec.ofNat 32 v)
  else c

/-- The debug port's register writes take effect (R958). -/
def Core.applyRegw (c : Core) : Core :=
  { (c.regw.foldl (fun c e => c.selWrite e.1 e.2) c) with regw := [] }

/-! ### Retirement -/

/-- A retired instruction of core n is counted. -/
def State.countInstr (s : State) (n : Nat) : State :=
  let s := s.bump64 (OD.INSTRUCTIONS n) 1
  { s with trc := { s.trc with
    retired := Sparse.put (fun _ => 0) s.trc.retired n (Sparse.get (fun _ => 0) s.trc.retired n + 1) } }

/-- One instruction of core n retires and the program counter goes to `pc`: it is counted, the debug port's register
writes take effect, and a STEP ends (INSTRUCTIONS, R955, R958). -/
def State.retire (s : State) (n pc : Nat) : State :=
  let c := s.core n
  let c := ({ c with pc := pc }).applyRegw
  let c := if c.stepping then { c with stepping := false, st := .halted } else c
  (s.setCore n c).countInstr n

end Sys2Proof.Machine
end

