-- ==== Sys2Proof/Machine/Landings.lean ====
section
/-!
DEFINITION. The landing store (chapter 05): the landing word's fields, satisfaction and release, payload ports, locks and
every operation of Tables LAND-3 and LAND-4 as one function from a requester's operation to its result.
-/

namespace Sys2Proof.Machine

/-! ### The landing word (Tables LAND-1 and LAND-2) -/

/-- The reset word (R218). -/
def resetWord : Word := 0x0000000001000000#64

/-- A word with `n` bits from `lo` replaced. -/
def setField (w : Nat) (lo n x : Nat) : Nat := w - bits w lo n * 2 ^ lo + x % 2 ^ n * 2 ^ lo

/-- MODE: 0 COUNT, 1 EVENT, 2 LOCK, 3 BARRIER. -/
def modeOf (w : Nat) : Nat := bits w 61 3

/-- AGENT (Table LAND-1). -/
def agentOf (w : Nat) : Nat := bits w 48 7

/-- HELD of a LOCK word. -/
def heldOf (w : Nat) : Bool := modeOf w = 2 && bit w 0

/-- A word with AGENT naming an agent. -/
def withAgent (w a : Nat) : Nat := setField (setField w 48 7 a) 57 1 1

/-- OVERFLOW set or cleared. -/
def withOverflow (w : Nat) (b : Bool) : Nat := setBit w 60 b

/-- The stored word of a landing, without SAT and WAITERS, which are computed. -/
def State.landRaw (s : State) (L : Nat) : Nat := (Sparse.get (fun _ => resetWord) s.land.words L).toNat

/-- Store a landing's word. -/
def State.setLand (s : State) (L w : Nat) : State :=
  { s with land := { s.land with words := Sparse.put (fun _ => resetWord) s.land.words L (BitVec.ofNat 64 w) } }

/-- The stage entries registered on a landing: armed entries that it gates (R271). -/
def State.gated (s : State) (L : Nat) : List Entry :=
  s.flit.entries.filter (fun e => e.st = .armed && e.gate = some L)

/-- Parked acquires of a landing, stages gated by a LOCK among them (R223, WAITERS). -/
def State.acquires (s : State) (L : Nat) : List Waiter :=
  s.land.waiters.filter (fun x => x.landing = L && x.acquire) ++
  (s.gated L).map (fun e => { agent := e.engine, landing := L, acquire := true, since := e.parked })

/-- The condition of R223 for a waiter registered at generation `gen`. -/
def satisfied (w gen : Nat) : Bool :=
  if modeOf w = 0 then decide (bits w 24 23 ≤ bits w 0 24)
  else if modeOf w = 1 then bit w 0
  else if modeOf w = 3 then bits w 16 16 ≠ gen
  else false

/-- SAT as a read shows it: the condition of the mode; for a LOCK the grant stands, for a BARRIER no waiter is
registered by the read (R223). -/
def satShown (w : Nat) : Bool :=
  if modeOf w = 2 then bit w 0 else if modeOf w = 3 then false else satisfied w 0

/-- The word as a load returns it: SAT and, in LOCK mode, WAITERS (Table LAND-2). -/
def State.landWord (s : State) (L : Nat) : Word :=
  let w := s.landRaw L
  let w := if modeOf w = 2 then setField w 8 8 (s.acquires L).length else w
  BitVec.ofNat 64 (setBit w 58 (satShown w))

/-- The GENERATION a waiter is registered with (R223). -/
def genOf (w : Nat) : Nat := if modeOf w = 3 then bits w 16 16 else 0

/-! ### Waiters -/

/-- Remember what an agent's last landing operation returned. -/
def State.landResp (s : State) (a : Nat) (r : LandResp) : State :=
  { s with land := { s.land with resp := Sparse.put (fun _ => .none) s.land.resp a r } }

/-- A parked operation ends with a word: a matrix core writes its destination register, the instruction retires and the
core goes on (R229, R420); on a core that the debug port holds it retires when the core steps or resumes (R258, R955). -/
def State.resumeWaiter (s : State) (x : Waiter) (w : Word) : State :=
  let s := s.landResp x.agent (.word w)
  if x.agent < 32 then
    let c := s.core x.agent
    if c.st = .halted then s.setCore x.agent { c with grant := some (x.rd, w) }
    else (s.setCore x.agent { c.setS x.rd w with st := .running }).retire x.agent (c.pc + 8)
  else s

/-- A stage entry is released (R271). -/
def Entry.release (e : Entry) : Entry := { e with st := .released }

/-- Whether two entries are the same queue entry. -/
def Entry.same (a b : Entry) : Bool := a.slot = b.slot && a.run = b.run && a.stage = b.stage

/-- Release one armed entry. -/
def State.releaseEntry (s : State) (e : Entry) : State :=
  let s := { s with flit := { s.flit with
    entries := s.flit.entries.map (fun x : Entry => if x.same e then x.release else x) } }
  s.traceFlight e.slot e.stage e.run 1 e.engine e.flight 0xFF

/-- The release action of a word (R224). A saturated COUNT stays saturated (R251). -/
def releaseAction (w : Nat) : Nat :=
  if modeOf w = 0 ∧ bit w 47 ∧ bits w 0 24 ≠ 0xFFFFFF then setField w 0 24 (bits w 0 24 - bits w 24 23)
  else if modeOf w = 1 ∧ bit w 1 then setBit w 0 false
  else w

/-- The packer streams registered on a landing as their PK_RETURN (R600). -/
def State.returners (s : State) (L : Nat) : List Nat :=
  (List.range 4).filter (fun k => decide (s.rd (OD.PK_STATE k) ≠ 0) && (Sparse.get (fun _ => {}) s.vest.streams k).ret = L)

/-- Store a stream. -/
def State.setStream (s : State) (k : Nat) (t : Stream) : State :=
  { s with vest := { s.vest with streams := Sparse.put (fun _ => {}) s.vest.streams k t } }

/-- A CLOSING stream with nothing waiting or unreturned becomes DISABLED (R606); the bytes of a sealed one are filled
before they leave the sealed set (R747). -/
def State.streamSettle (s : State) (k : Nat) : State :=
  let t := s.stream k
  if s.rd (OD.PK_STATE k) = 2 ∧ t.opened = none ∧ t.closed = [] ∧ t.waiting = [] ∧ t.delivered = [] then
    let before := s.sealRanges
    ((s.setStream k { t with filling := [], dead := [] }).wr (OD.PK_STATE k) 0).sealLeave before
  else s

/-- A stream's oldest delivered batch is returned: a sealed stream's slot is filled first (R600, R601). -/
def State.returnSlot (s : State) (k : Nat) : State :=
  let t := s.stream k
  match t.delivered with
  | [] => s
  | x :: rest =>
    (s.setStream k { t with delivered := rest, filling := if t.sealed then t.filling ++ [x] else t.filling }).streamSettle k

/-- Satisfaction of an operation once (R224): every registered waiter whose condition holds is released, then the
release action is applied. Answers whether a waiter was released. A released WAIT gets the word as it stood before the release
action (DESIGN CHOICE, notes/assumptions/36.md). -/
def State.landEvaluate1 (s : State) (L : Nat) : State × Bool :=
  let w := s.landRaw L
  let shown := s.landWord L
  let ws := s.land.waiters.filter (fun x => x.landing = L && !x.acquire && satisfied w x.gen)
  let es := (s.gated L).filter (fun e => satisfied w e.gen)
  let rs := if modeOf w ≤ 1 && satisfied w 0 then s.returners L else []
  if ws = [] ∧ es = [] ∧ rs = [] then (s, false)
  else
    let s := { s with land := { s.land with
      waiters := s.land.waiters.filter (fun x => !(x.landing = L && !x.acquire && satisfied w x.gen)) } }
    let s := ws.foldl (fun s x => s.resumeWaiter x shown) s
    let s := es.foldl (fun s e => s.releaseEntry e) s
    let s := rs.foldl (fun s k => s.returnSlot k) s
    (s.setLand L (releaseAction w), true)

/-- Satisfaction after an operation (R224). A stream's waiter registers again at once (R600), so a COUNT landing that
consumes is judged again while its count lasts. -/
def State.landEvaluateN (L : Nat) : Nat → State → State × Bool
  | 0, s => (s, false)
  | n + 1, s =>
    let (s, r) := s.landEvaluate1 L
    if !r then (s, false)
    else if s.returners L = [] then (s, true)
    else ((State.landEvaluateN L n s).1, true)

/-- Satisfaction after an operation (R224). -/
def State.landEvaluate (s : State) (L : Nat) : State × Bool :=
  let w := s.landRaw L
  let times := if modeOf w = 0 ∧ bit w 47 ∧ 0 < bits w 24 23 then bits w 0 24 / bits w 24 23 else 1
  s.landEvaluateN L (max times 1)

/-! ### Locks (R234 to R238) -/

/-- The lock of a LOCK word is granted to an agent (Table LAND-4, R220): HELD, AGENT, HOLD_TIME 0. -/
def grantWord (w a : Nat) : Nat := setField (withAgent (setBit w 0 true) a) 16 16 0

/-- The waiter that parked earliest, the lowest agent ID among those that parked together (R237). -/
def earliest : List Waiter → Option Waiter
  | [] => none
  | x :: xs =>
    match earliest xs with
    | none => some x
    | some y => if y.since < x.since || (y.since = x.since && decide (y.agent < x.agent)) then some y else some x

/-- Grant a free lock to the waiter that parked earliest, if there is one (R237); an agent that is being reset or whose item is
being stopped gets none (R255, R256). -/
def State.landGrant (s : State) (L : Nat) : State × Bool :=
  match earliest ((s.acquires L).filter (fun x => !s.land.barred.contains x.agent)) with
  | none => (s, false)
  | some x =>
    let s := s.setLand L (grantWord (s.landRaw L) x.agent)
    match s.land.waiters.find? (fun y => y.landing = L && y.acquire && y.agent = x.agent) with
    | some y =>
      let s := { s with land := { s.land with
        waiters := s.land.waiters.filter (fun z => !(z.landing = L && z.acquire && z.agent = x.agent)) } }
      (s.resumeWaiter y (s.landWord L), true)
    | none =>
      match (s.gated L).find? (fun e => e.engine = x.agent && e.parked = x.since) with
      | some e => (s.releaseEntry e, true)
      | none => (s, true)

/-- A lock is released with ABANDONED set and granted on (R234, R246). -/
def State.landAbandon (s : State) (L : Nat) : State :=
  let w := setBit (setBit (s.landRaw L) 0 false) 59 true
  let s := (s.setLand L w).bump OD.ABANDONS
  (s.landGrant L).1

/-- The landings that an agent holds as locks. -/
def State.locksOf (s : State) (a : Nat) : List Nat :=
  (s.land.words.filter (fun e => heldOf e.2.toNat && agentOf e.2.toNat = a)).map (·.1)

/-- An agent has a parked operation: it is stalled and issues no other (R229). -/
def State.parkedAgent (s : State) (a : Nat) : Bool := s.land.waiters.any (fun x => x.agent = a)

/-- An agent's parked operation is withdrawn (R235). -/
def State.withdraw (s : State) (a : Nat) : State :=
  { s with land := { s.land with waiters := s.land.waiters.filter (fun x => x.agent ≠ a) } }

/-- An agent's stage is stopped, the agent is reset or powers down: its parked operation is withdrawn, then its locks are
released abandoned (R234, R235). -/
def State.dropLocks (s : State) (a : Nat) : State :=
  let s := s.withdraw a
  (s.locksOf a).foldl (fun s L => s.landAbandon L) s

/-! ### Payload ports (R231 to R233) -/

/-- A landing's payload port. -/
def State.port (s : State) (L : Nat) : LandPort := Sparse.get (fun _ => {}) s.land.ports L

/-- Store a payload port. -/
def State.setPort (s : State) (L : Nat) (p : LandPort) : State :=
  { s with land := { s.land with ports := Sparse.put (fun _ => {}) s.land.ports L p } }

/-- A payload entry as TAKE and PEEK return it (Table LAND-5). -/
def payloadWord (e : Payload) : Word := BitVec.ofNat 64 (2 ^ 63 + e.agent * 2 ^ 56 + e.val)

/-- PORT_STATUS (Table LAND-4). -/
def LandPort.status (p : LandPort) : Word := BitVec.ofNat 64 (p.q.length + min p.drops 255 * 256)

/-- Entry k of a port counted from the oldest, or 0 (PEEK). -/
def LandPort.peek (p : LandPort) (k : Nat) : Word :=
  match p.q[k]? with
  | some e => payloadWord e
  | none => 0

/-! ### Operations (Tables LAND-3 and LAND-4) -/

/-- The operations of Table LAND-3. -/
inductive LandOp where
  | read
  | init (w : Word)
  | add (d : Word)
  | set
  | clear
  | acquire
  | tryLock
  | release
  | arrive
  | wait
  | ack (d : Word)
  | force
  | push (d : Word) (mark : Bool)
  | take
  | portStatus
  | peek (k : Nat)
  deriving DecidableEq, Repr

/-- An operation's offset in the landing's slot (Table LAND-3). -/
def LandOp.offset : LandOp → Nat
  | .read => 0x00
  | .init _ => 0x08
  | .add _ => 0x10
  | .set => 0x18
  | .clear => 0x20
  | .acquire => 0x28
  | .tryLock => 0x30
  | .release => 0x38
  | .arrive => 0x40
  | .wait => 0x48
  | .ack _ => 0x50
  | .force => 0x58
  | .push _ _ => 0x60
  | .take => 0x68
  | .portStatus => 0x70
  | .peek k => 0x80 + 8 * k

/-- What an operation answers its requester. -/
inductive LandRes where
  | word (w : Word)
  | done
  | parked
  | error
  deriving DecidableEq, Repr

/-- A saturating count field goes up by one. -/
def countUp (w lo n : Nat) : Nat := setField w lo n (min (bits w lo n + 1) (2 ^ n - 1))

/-- ADD: the sum saturates with OVERFLOW (R227). -/
def addWord (w d : Nat) : Nat :=
  if 0xFFFFFF < bits w 0 24 + d then withOverflow (setField w 0 24 0xFFFFFF) true
  else setField w 0 24 (bits w 0 24 + d)

/-- SET: FLAG, and REPEATS when it was set (R227). -/
def setWord (w : Nat) : Nat :=
  if bit w 0 then (if bits w 8 8 = 255 then withOverflow w true else countUp w 8 8)
  else setBit w 0 true

/-- ARRIVE: ARRIVED, and GENERATION on reaching PARTIES (R228). -/
def arriveWord (w : Nat) : Nat :=
  if bits w 40 8 ≤ bits w 32 8 + 1 then setField (setField w 32 8 0) 16 16 (bits w 16 16 + 1)
  else setField w 32 8 (bits w 32 8 + 1)

/-- The arrival of a PUSH: ADD of 1, SET or ARRIVE (Table LAND-4). -/
def arrival (w : Nat) : Nat := if modeOf w = 0 then addWord w 1 else if modeOf w = 1 then setWord w else arriveWord w

/-- The word INIT stores: reserved fields 0, SAT and WAITERS computed, ABANDONED in LOCK alone (R219, R226). A LOCK word takes
AGENT_VALID and AGENT as 0 whatever the data hold: no lock is held yet (DESIGN CHOICE, notes/assumptions/36.md). -/
def initWord (d a : Nat) : Nat :=
  let m := modeOf d
  let head := m * 2 ^ 61 + bits d 60 1 * 2 ^ 60 + (if m = 2 then bits d 59 1 * 2 ^ 59 else 0)
  let fields :=
    if m = 0 then bits d 0 48
    else if m = 1 then bits d 8 8 * 2 ^ 8 + bits d 0 2
    else if m = 2 then bits d 16 32 * 2 ^ 16
    else bits d 16 32 * 2 ^ 16
  if m = 2 then head + fields else withAgent (head + fields) a

/-- Whether INIT is an operation error (Table LAND-4, R222). -/
def initBad (old d : Nat) : Bool :=
  decide (4 ≤ modeOf d) || (modeOf d = 3 && (bits d 40 8 = 0 || decide (bits d 40 8 ≤ bits d 32 8))) ||
  (modeOf d = 2 && bit d 0) || heldOf old

/-- A changed word takes effect: AGENT except in LOCK mode, OVERFLOWS, then satisfaction (R224, R226, R246). `ovf` says
that the operation set OVERFLOW. -/
def State.landChange (s : State) (L a w' : Nat) (ovf : Bool) : State × Bool :=
  let w := s.landRaw L
  let w' := if w' = w ∨ modeOf w' = 2 then w' else withAgent w' a
  let s := s.setLand L w'
  let s := if ovf then s.bump OD.OVERFLOWS else s
  s.landEvaluate L

/-- Whether an ADD or SET or arrival sets OVERFLOW. -/
def overflows (w : Nat) (d : Nat) : Bool :=
  (modeOf w = 0 && decide (0xFFFFFF < bits w 0 24 + d)) || (modeOf w = 1 && bit w 0 && bits w 8 8 = 255)

/-- One operation of an agent on a landing: its result, the state, and whether waiters were released. The spec leaves open
which generation the waiters of a landing take that INIT turns into a BARRIER (the new word's here), whether INIT to LOCK
grants the free lock to a stage already armed (it does not), and whether a WAIT released at once names its agent in AGENT when
its release action changes the word (it does not): DESIGN CHOICE, notes/assumptions/36.md. -/
def State.landApply (s : State) (a L : Nat) (op : LandOp) (rd : Nat) : LandRes × State × Bool :=
  let w := s.landRaw L
  let m := modeOf w
  let noRelease (r : LandRes) (s : State) : LandRes × State × Bool := (r, s, false)
  let done (p : State × Bool) : LandRes × State × Bool := (.done, p.1, p.2)
  match op with
  | .read => noRelease (.word (s.landWord L)) s
  | .init d =>
    let d := d.toNat
    if initBad w d then noRelease .error s
    else
      let w' := initWord d a
      let fresh := modeOf w' = 3 ∧ m ≠ 3
      let g := bits w' 16 16
      let s := if L < 0x1000 then s.setPort L {} else s
      let s := if bit w' 60 then s.bump OD.OVERFLOWS else s
      let s := if fresh then
          { s with
            land := { s.land with
              waiters := s.land.waiters.map (fun x => if x.landing = L then { x with gen := g } else x) }
            flit := { s.flit with
              entries := s.flit.entries.map (fun e =>
                if e.st = .armed && e.gate = some L then { e with gen := g } else e) } }
        else s
      done ((s.setLand L w').landEvaluate L)
  | .add d =>
    if m ≠ 0 ∨ bits d.toNat 24 40 ≠ 0 then noRelease .error s
    else done (s.landChange L a (addWord w d.toNat) (overflows w d.toNat))
  | .set => if m ≠ 1 then noRelease .error s else done (s.landChange L a (setWord w) (overflows w 0))
  | .clear => if m ≠ 1 then noRelease .error s else done (s.landChange L a (setBit w 0 false) false)
  | .acquire =>
    if m ≠ 2 ∨ (heldOf w ∧ agentOf w = a) then noRelease .error s
    else if bit w 0 then
      noRelease .parked { s with land := { s.land with
        waiters := s.land.waiters ++
          [{ agent := a, landing := L, acquire := true, rd := rd, since := s.land.parks }]
        parks := s.land.parks + 1 } }
    else
      let s := s.setLand L (grantWord w a)
      noRelease (.word (s.landWord L)) s
  | .tryLock =>
    if m ≠ 2 then noRelease .error s
    else
      let s := if bit w 0 then s else s.setLand L (grantWord w a)
      noRelease (.word (s.landWord L)) s
  | .release =>
    if !(heldOf w) ∨ agentOf w ≠ a then noRelease .error s
    else done ((s.setLand L (setBit w 0 false)).landGrant L)
  | .arrive => if m ≠ 3 then noRelease .error s else done (s.landChange L a (arriveWord w) false)
  | .wait =>
    if m = 2 then noRelease .error s
    else
      let s := { s with land := { s.land with
        waiters := s.land.waiters ++
          [{ agent := a, landing := L, acquire := false, gen := genOf w, rd := rd, since := s.land.parks }] } }
      if satisfied w (genOf w) then
        let shown := s.landWord L
        let s := { s with land := { s.land with
          waiters := s.land.waiters.filter (fun x => !(x.agent = a && x.landing = L && !x.acquire)) } }
        (.word shown, s.setLand L (releaseAction w), true)
      else noRelease .parked s
  | .ack d =>
    let d := d.toNat
    if bit d 1 ∧ !(heldOf w && agentOf w = a) then noRelease .error s
    else
      let w' := if bit d 0 then setBit w 60 false else w
      let w' := if bit d 1 then setBit w' 59 false else w'
      done (s.landChange L a w' false)
  | .force =>
    if !(heldOf w) then noRelease .error s
    else
      let s := s.setLand L (setBit (setBit w 0 false) 59 true)
      let s := (s.bump OD.ABANDONS).bump OD.FORCED_RELEASES
      let s := s.record FaultClass.corrected (agentOf w) 1 OD.FORCED_RELEASES
        (0x200000000 + L * 0x100) L
      done (s.landGrant L)
  | .push d mark =>
    if m = 2 ∨ 0x1000 ≤ L then noRelease .error s
    else
      let p := s.port L
      if 4 ≤ p.q.length then
        let s := s.setPort L { p with drops := min (p.drops + 1) 255 }
        let s := s.bump OD.PAYLOAD_DROPS
        done (s.landChange L a (withOverflow w true) true)
      else
        let s := s.setPort L { p with q := p.q ++ [{ agent := a, val := bits d.toNat 0 48, sealed := mark }] }
        done (s.landChange L a (arrival w) (overflows w 1))
  | .take =>
    if 0x1000 ≤ L then noRelease .error s
    else
      let p := s.port L
      match p.q with
      | [] => noRelease (.word 0) s
      | e :: rest => noRelease (.word (payloadWord e)) (s.setPort L { p with q := rest })
  | .portStatus => if 0x1000 ≤ L then noRelease .error s else noRelease (.word (s.port L).status) s
  | .peek k => if 0x1000 ≤ L then noRelease .error s else noRelease (.word ((s.port L).peek k)) s

/-- Whether a requester's context reaches a landing (R242, R243). -/
def State.landReach (s : State) (q : Requester) (L : Nat) : Bool :=
  match q.ctx with
  | none => true
  | some t =>
    let lo := s.rd (OD.LAND_BASE t.val)
    decide (lo ≤ L ∧ L < lo + s.rd (OD.LAND_COUNT t.val) ∧ L ≤ 0xFFFF)

/-- The context that a requester's operations carry (R242): a tenancy's is its own; Newel cores, the colonnade, the AON controller
with the ports' ingress, the GQ unit and the debug port carry none; the others' is what they run under. -/
def carriedCtx (q : Requester) : Option (Fin 16) :=
  if 48 ≤ q.agent.val ∧ q.agent.val < 64 then some (Fin.ofNat 16 q.agent.val)
  else if [32, 33, 34, 35, 39, 64, 65, 66].contains q.agent.val then none
  else q.ctx

/-- The device address of an operation on a landing (R216). -/
def landAddr (L : Nat) (op : LandOp) : Nat := 0x200000000 + L * 0x100 + op.offset

/-- An operation reaches the store: unreachable landings answer `none` (R81, R242); FORCE comes from the debug port with
write authority alone; an operation error is counted (R230); every applied operation may be traced (R931). -/
def State.landOp (s : State) (q : Requester) (L : Nat) (op : LandOp) (rd : Nat) : Option LandRes × State :=
  if !s.powered 1 || !s.landReach q L ||
      (decide (op = .force) && !(decide (q.agent.val = 66) && decide (s.rd OD.DBG_LEVEL = 2))) then (none, s)
  else
    let (r, s, rel) := s.landApply q.agent.val L op rd
    let s := if r = .error then s.bump OD.OP_ERRORS else s
    let s := s.traceLanding L (min (op.offset / 8) 15) q.agent.val (satShown (s.landRaw L)) rel (r = .error) (s.landRaw L)
    (some r, s)

end Sys2Proof.Machine
end

