-- ==== Sys2Proof/Machine/Mem.lean ====
section
/-!
DEFINITION. Device memory as every agent reaches it: the regions of Table TOUR-3, power, tenancy contexts, host windows,
the DRAM map, and SECDED errors (R80 to R86, R183 to R186, R446 to R457, R765 to R770, R1038).
-/

namespace Sys2Proof.Machine

/-- An access's agent and the tenancy context it carries (R164); `port` names the master port of a unit without an agent ID of
its own (Table GALL-5). -/
structure Acc where
  agent : Nat
  ctx : Option Nat
  port : Option Nat := none
  deriving DecidableEq, Repr

/-- The master port of an agent (Table GALL-5). -/
def agentPort (agent : Nat) : Nat :=
  if agent < 32 then agent
  else if agent < 36 then 32
  else if agent < 40 then agent - 3
  else if agent < 44 then 37
  else if agent < 48 then 38
  else if agent < 64 then 41
  else if agent < 66 then 42
  else agent - 23

/-- The master port through which an access enters the concourse (R461). -/
def Acc.masterPort (q : Acc) : Nat := q.port.getD (agentPort q.agent)

/-- The regulated target of an address: a gallery pair's port, or 8, the DRAM port. -/
def regulated (a : Nat) : Option Nat :=
  if a < galleryBytes then some (a / 2 ^ 25) else if dramBase ≤ a ∧ a < dramEnd then some 8 else none

/-- The 64-byte lines that a range touches, by their addresses. -/
def linesOf (a n : Nat) : List Nat :=
  if n = 0 then [] else (List.range ((a % 64 + n + 63) / 64)).map (fun i => (a / 64 + i) * 64)

/-- A line, or a part of one, is granted to a master at its regulated target (R462). -/
def Balustrade.grantLine (b : Balustrade) (port a : Nat) : Balustrade :=
  match regulated a with
  | none => b
  | some g =>
    let k := 48 * g + port
    { b with lines := Sparse.put (fun _ => 0) b.lines k (Sparse.get (fun _ => 0) b.lines k + 1) }

/-- Bytes are served to a master. -/
def Balustrade.serve (b : Balustrade) (port n : Nat) : Balustrade :=
  { b with served := Sparse.put (fun _ => 0) b.served port (Sparse.get (fun _ => 0) b.served port + n) }

/-- An access of some ranges, each an address and a length, is granted as it comes: its lines and its bytes count for its
master (R462, R465). -/
def State.note (s : State) (q : Acc) (rs : List (Nat × Nat)) : State :=
  let own := rs.filter (fun r => (regulated r.1).isSome)
  if own = [] then s
  else
    let b := ((own.flatMap (fun r => linesOf r.1 r.2)).eraseDups).foldl (fun b x => b.grantLine q.masterPort x) s.bal
    { s with bal := b.serve q.masterPort ((own.map (·.2)).foldl (· + ·) 0) }

/-- What one byte address is for one access: device memory, a host bus address, an error response, or a window failure
with its cause. -/
inductive Place where
  | mem
  | host (bus : Nat)
  | bad
  | win (cause : Nat)
  deriving DecidableEq, Repr

/-! ### The DRAM map (R765) -/

/-- Grain, interleave, hash and ECC mode in use (LATCHED). -/
def State.latGrain (s : State) : Nat := bits (s.rd OD.LATCHED) 0 8
def State.latSplit (s : State) : Bool := bit (s.rd OD.LATCHED) 11
def State.latHash (s : State) : Bool := bit (s.rd OD.LATCHED) 12
def State.latEcc (s : State) : Bool := bit (s.rd OD.LATCHED) 13

/-- The XOR of two numbers. -/
def xorN (a b : Nat) : Nat := Nat.xor a b

/-- The channel and the channel offset of a DRAM region offset (the function of R765). -/
def dramMap (g : Nat) (split hash : Bool) (a : Nat) : Nat × Nat :=
  let k := if split then 2 else 3
  let a2 := if split then a % 2 ^ 33 else a
  let base := if split then 4 * (a / 2 ^ 33) else 0
  let x := a2 / 2 ^ g
  let sel := x % 2 ^ k
  let sel := if hash then xorN (xorN sel (x / 2 ^ k % 2 ^ k)) (a2 / 2 ^ 20 % 2 ^ k) else sel
  (base + sel, a2 / 2 ^ (g + k) * 2 ^ g + a2 % 2 ^ g)

/-- The row and bank of a channel offset (R765). -/
def dramRow (c : Nat) : Nat := bits c 15 16
def dramBank (c : Nat) : Nat := xorN (bits c 11 4) (bits c 15 4)

/-- The channel that serves a DRAM region offset under the latched map. -/
def State.dramChannel (s : State) (a : Nat) : Nat := (dramMap s.latGrain s.latSplit s.latHash a).1

/-- Whether a DRAM region offset is unmapped under the latched mode (Table DMEM-3). -/
def State.dramHole (s : State) (a : Nat) : Bool :=
  s.latEcc &&
  (if s.latSplit then decide (0x1C0000000 ≤ a % 2 ^ 33) else decide (0x380000000 ≤ a))

/-! ### Places -/

/-- The extents of the image in slot i: gallery base and size, alcove base and size, cores. A LOADING image's are those
of the load in progress, once its header has been read (R310, R456). -/
structure Extents where
  gbase : Nat := 0
  gsize : Nat := 0
  abase : Nat := 0
  asize : Nat := 0
  cores : Nat := 0
  deriving DecidableEq, Repr

/-- The extents of image slot i in LOADING, RESIDENT or RETIRING. -/
def State.extents (s : State) (i : Nat) : Extents :=
  if s.rd (OD.IMG_STATE i) = 0 then {}
  else if s.rd (OD.IMG_STATE i) = 1 then
    match s.ldr.run with
    | some r => if r.slot = i then ⟨r.gbase, r.gsize, r.abase, r.asize, r.cores⟩ else {}
    | none => {}
  else ⟨s.rd (OD.IMG_GALLERY_BASE i), s.rd (OD.IMG_GALLERY_SIZE i), s.rd (OD.IMG_ALCOVE_BASE i),
    s.rd (OD.IMG_ALCOVE_SIZE i), s.rd (OD.IMG_CORES i)⟩

/-- Whether image slot i holds gallery address a in LOADING, RESIDENT or RETIRING (R456). -/
def State.inGalleryExtent (s : State) (i a : Nat) : Bool :=
  decide ((s.extents i).gbase ≤ a) && decide (a < (s.extents i).gbase + (s.extents i).gsize)

/-- The core whose alcove holds an address, and the address's offset there. -/
def alcoveCore (a : Nat) : Nat := (a - alcoveBase) / alcoveBytes
def alcoveOff (a : Nat) : Nat := a % alcoveBytes

/-- Whether image slot i holds an alcove address in LOADING, RESIDENT or RETIRING (R322). -/
def State.inAlcoveExtent (s : State) (i a : Nat) : Bool :=
  let x := s.extents i
  decide (alcoveBase ≤ a ∧ a < alcoveBase + 32 * alcoveBytes) && bit x.cores (alcoveCore a) &&
  decide (x.abase ≤ alcoveOff a) && decide (alcoveOff a < x.abase + x.asize)

/-- A write of an engine's stage that R322 forbids: to the alcove extent of an image. A matrix core's stage takes PROTECT instead
(R412), and every other engine an error response (DEDUCED, notes/assumptions/43.md). -/
def State.extentBars (s : State) (q : Acc) (wr : Bool) (a : Nat) : Bool :=
  wr && q.ctx.isSome && decide (32 ≤ q.agent ∧ q.agent < 48) && (List.range 16).any (fun i => s.inAlcoveExtent i a)

/-- The gallery rule for an access with tenancy context t (R456, R457). -/
def State.galleryAllows (s : State) (t a : Nat) (wr : Bool) : Bool :=
  (!wr && (List.range 16).any (fun i =>
    s.inGalleryExtent i a && decide (2 ≤ s.rd (OD.IMG_STATE i)) && bit (s.rd (OD.IMG_TENANTS i)) t)) ||
  (decide (s.rd (OD.TEN_GAL_BASE t) ≤ a) && decide (a < s.rd (OD.TEN_GAL_BASE t) + s.rd (OD.TEN_GAL_SIZE t)) &&
    decide (a < galleryBytes) && !((List.range 16).any (fun i => s.inGalleryExtent i a)))

/-- The host's answer for a bus address: the cause of an error it answers with, if any (Table HOST-10). -/
def State.hostCause (s : State) (bus : Nat) : Option Nat :=
  (s.host.bad.find? (fun r => decide (r.lo ≤ bus ∧ bus ≤ r.hi))).map (·.cause)

/-- A window access's place (R183, R186), the causes in the order given there. -/
def State.windowPlace (s : State) (q : Acc) (wr : Bool) (a : Nat) : Place :=
  let slot := (a - windowBase) / 0x40000000
  let o := (a - windowBase) % 0x40000000
  let t := slot / 64
  let w := slot % 64
  if q.ctx ≠ some t then .win 3
  else if s.rd (OD.WIN_LENGTH t w) ≤ o then .win 1
  else if !(bit (s.rd (OD.WIN_FLAGS t w)) (if wr then 1 else 0)) then .win 2
  else if !(s.linkUp && s.host.pf1.bme) then .win 8
  else
    let bus := s.rd (OD.WIN_BASE t w) + o
    match s.hostCause bus with
    | some c => .win c
    | none => .host bus

/-- The place of one byte address for an access (Table TOUR-3, R80, R81, R448, R783). -/
def State.place (s : State) (q : Acc) (wr : Bool) (a : Nat) : Place :=
  if !s.powered 1 then .bad
  else if a < galleryBytes then
    let p := a / 2 ^ 25
    if s.powered (10 + p) && s.flag (OD.PAIR_READY p) &&
        (match q.ctx with
        | none => true
        | some t => s.galleryAllows t a wr) then .mem else .bad
  else if alcoveBase ≤ a ∧ a < alcoveBase + 32 * alcoveBytes then
    if s.powered (2 + (a - alcoveBase) / alcoveBytes / 4) && !s.extentBars q wr a then .mem else .bad
  else if dramBase ≤ a ∧ a < dramEnd then
    let o := a - dramBase
    let ch := s.dramChannel o
    if s.powered (24 + ch / 4) && decide (s.rd (OD.CH_STATE ch) = 3) && !s.dramHole o then .mem else .bad
  else if windowBase ≤ a ∧ a < windowEnd then
    if s.powered 26 then s.windowPlace q wr a else .bad
  else .bad

/-- The source code of an ECC record (Table GALL-2). -/
def eccSource (a : Nat) : Nat := if a < galleryBytes then 1 else if a < dramBase then 2 else 3

/-- The gallery bank of an address (Table GALL-1). -/
def galleryBank (a : Nat) : Nat := 2 * (a / 2 ^ 25) + bits a 6 1

/-- DETAIL of an ECC completion record (Table GALL-2). -/
def eccDetail (a : Nat) : Nat :=
  let a := a / 8 * 8
  eccSource a * 2 ^ 56 + (if eccSource a = 1 then galleryBank a else 0xFF) * 2 ^ 48 + a

/-- DETAIL of a WINDOW record (Table HOST-10). -/
def windowDetail (a cause : Nat) : Nat :=
  a + cause * 2 ^ 48 + ((a - windowBase) / 0x40000000 % 64) * 2 ^ 56

/-! ### Error marks (R450 to R452, R397, R769) -/

/-- The error mark of the word at an address: 0 none, 1 correctable, 2 uncorrectable. -/
def State.mark (s : State) (a : Nat) : Nat := Sparse.get (fun _ => 0) s.mem.marks (a / 8)

/-- Set the error mark of a word. -/
def State.setMark (s : State) (a m : Nat) : State :=
  { s with mem := { s.mem with marks := Sparse.put (fun _ => 0) s.mem.marks (a / 8) m } }

/-- Whether the pair of core n is joined. -/
def State.joined (s : State) (n : Nat) : Bool := s.rd (OD.PAIR_STATE (n / 2)) = 1

/-- The core whose counters count for core n: while a pair is joined core 2p counts for it (Table CORE-12). -/
def State.countCore (s : State) (n : Nat) : Nat := if s.joined n then n / 2 * 2 else n

/-- A correctable error is found: counted, recorded and written back (R450, R397, R769). `agent` is 0xFF for a
scrubber. -/
def State.eccCorrected (s : State) (agent a : Nat) : State :=
  let w := a / 8 * 8
  let s := s.setMark a 0
  if a < galleryBytes then
    let s := (s.bump OD.GALL_CORRECTED).bump (OD.PAIR_CORRECTED (a / 2 ^ 25))
    s.record FaultClass.corrected agent (10 + a / 2 ^ 25) OD.GALL_CORRECTED w (galleryBank a)
  else if a < dramBase then
    let n := s.countCore (alcoveCore a)
    let s := s.bump (OD.ALCOVE_CORRECTED n)
    s.record FaultClass.corrected agent (2 + n / 4) (OD.ALCOVE_CORRECTED n) w 0
  else
    let ch := s.dramChannel (a - dramBase)
    let s := s.bump OD.DMEM_CORRECTED
    s.record FaultClass.corrected agent (24 + ch / 4) OD.DMEM_CORRECTED w ch

/-- An uncorrectable error is found: counted and its address kept; the alcove keeps no counter (R451, R397, R769). -/
def State.eccUncorrectable (s : State) (a : Nat) : State :=
  let w := a / 8 * 8
  if a < galleryBytes then
    ((s.bump OD.GALL_UNCORRECTABLE).bump (OD.PAIR_UNCORR (a / 2 ^ 25))).wr OD.GALL_LAST_UNCORR_ADDR w
  else if a < dramBase then s
  else (s.bump OD.DMEM_UNCORRECTABLE).wr OD.DMEM_LAST_UNCORR_ADDR w

/-! ### The scrubbers (R453, R454, R771) -/

/-- A scrubber reads a word: a correctable error is written back, an uncorrectable one is counted and recorded. -/
def State.scrubWord (s : State) (a : Nat) : State :=
  if s.mark a = 1 then s.eccCorrected 0xFF a
  else if s.mark a = 2 then
    let s := s.eccUncorrectable a
    if a < galleryBytes then
      s.record FaultClass.item 0xFF (10 + a / 2 ^ 25) OD.GALL_UNCORRECTABLE (a / 8 * 8) (galleryBank a)
    else
      let ch := s.dramChannel (a - dramBase)
      s.record FaultClass.item 0xFF (24 + ch / 4) OD.DMEM_UNCORRECTABLE (a / 8 * 8) ch
  else s

/-- A scrubber comes to an error in the word at an address, which holds at least that error. -/
def State.scrubFind (s : State) (a m : Nat) : State :=
  let s := (s.setMark a (max m (s.mark a))).scrubWord a
  { s with mem := { s.mem with scrubbed := s.mem.scrubbed ++ [a / 8] } }

/-- The rest of a scrubber's pass: every word with an error that it reads and has not come to. -/
def State.scrubRest (s : State) (reads : Nat → Bool) : State :=
  let ws := s.mem.marks.filter (fun e => reads (8 * e.1) && !s.mem.scrubbed.contains e.1)
  let s := ws.foldl (fun s e => s.scrubWord (8 * e.1)) s
  { s with mem := { s.mem with scrubbed := s.mem.scrubbed.filter (fun w => !reads (8 * w)) } }

/-! ### Bytes -/

/-- A stored byte. -/
def State.memByte (s : State) (a : Nat) : Byte := Sparse.get (fun _ => 0#8) s.mem.cells a

/-- Store a byte. -/
def State.setMemByte (s : State) (a : Nat) (b : Byte) : State :=
  { s with mem := { s.mem with cells := Sparse.put (fun _ => 0#8) s.mem.cells a b } }

/-- Store bytes from an address on. -/
def State.setMemBytes : State → Nat → List Byte → State
  | s, _, [] => s
  | s, a, b :: bs => State.setMemBytes (s.setMemByte a b) (a + 1) bs

/-- Stored bytes, `n` of them. -/
def State.memBytes (s : State) (a : Nat) : Nat → List Byte
  | 0 => []
  | n + 1 => s.memByte a :: State.memBytes s (a + 1) n

/-- Every byte whose address satisfies a test returns to zero and every error mark there clears: a zero fill, or
contents lost. -/
def State.memClear (s : State) (p : Nat → Bool) : State :=
  { s with mem := { s.mem with
    cells := Sparse.clear p s.mem.cells, marks := Sparse.clear (fun w => p (8 * w)) s.mem.marks } }

/-- A byte reaches host memory. -/
def State.setHostByte (s : State) (bus : Nat) (b : Byte) : State :=
  { s with host := { s.host with mem := Sparse.put (fun _ => 0#8) s.host.mem bus b } }

/-- Bytes reach host memory. -/
def State.setHostBytes : State → Nat → List Byte → State
  | s, _, [] => s
  | s, bus, b :: bs => State.setHostBytes (s.setHostByte bus b) (bus + 1) bs

/-! ### Accesses -/

/-- What an access answers: its bytes, and the lowest failing byte of each kind: an error response, a window failure's
DETAIL, poisoned data (R1038). -/
structure MemRes where
  bytes : List Byte := []
  err : Option Nat := none
  win : Option Nat := none
  poison : Option Nat := none
  deriving DecidableEq, Repr

/-- Whether an access completed normally. -/
def MemRes.ok (r : MemRes) : Bool := r.err = none && r.win = none && r.poison = none

/-- The first of two optional addresses. -/
def orElse (a b : Option Nat) : Option Nat := match a with | some x => some x | none => b

/-- Read `n` bytes in ascending order; `start` says that the byte is the first of the access in its word. -/
def State.readFrom (q : Acc) : Nat → State → Nat → Bool → MemRes → MemRes × State
  | 0, s, _, _, r => ({ r with bytes := r.bytes.reverse }, s)
  | n + 1, s, a, start, r =>
    let next := (a + 1) % 8 = 0
    match s.place q false a with
    | .bad => State.readFrom q n s (a + 1) next { r with bytes := 0#8 :: r.bytes, err := orElse r.err (some a) }
    | .win c =>
      State.readFrom q n s (a + 1) next
        { r with bytes := 0#8 :: r.bytes, win := orElse r.win (some (windowDetail a c)) }
    | .host _ =>
      let (v, s) := s.drawFree
      State.readFrom q n s (a + 1) next { r with bytes := BitVec.ofNat 8 v :: r.bytes }
    | .mem =>
      let m := s.mark a
      let s := if start && decide (m = 1) then s.eccCorrected q.agent a
        else if start && decide (m = 2) then s.eccUncorrectable a else s
      State.readFrom q n s (a + 1) next
        { r with
          bytes := s.memByte a :: r.bytes
          poison := if m = 2 then orElse r.poison (some (a / 8 * 8)) else r.poison }

/-- The tenancy in whose counters a window failure counts (R186). -/
def Acc.winTen (q : Acc) (a : Nat) : Nat :=
  match q.ctx with
  | some t => t
  | none => (a - windowBase) / 0x40000000 / 64

/-- A window failure counts in its tenancy and signals its error vector (R186, R190); one whose request ended in an error at
the host is an uncorrectable link error (R215). -/
def State.countWin (s : State) (q : Acc) (r : MemRes) : State :=
  match r.win with
  | none => s
  | some d =>
    let s := if 4 ≤ bits d 48 8 ∧ bits d 48 8 ≤ 7 then s.bump OD.UNCORR_ERRORS else s
    let t := q.winTen (bits d 0 48)
    ((s.bump (OD.WINDOW_FAULTS t)).wr (OD.WINDOW_FAULT_ADDR t) d).signalTen t 1

/-! ### Concourse transfers (R480) -/

/-- An access goes over the concourse: all but a core's accesses to its own alcove. -/
def crosses (q : Acc) (a : Nat) : Bool :=
  !(decide (q.agent < 32) && decide (alcoveBase ≤ a ∧ a < alcoveBase + 32 * alcoveBytes) && decide (alcoveCore a = q.agent))

/-- The transfer of an access: a corrected error is recorded; an uncorrectable one answers the access with an error response
(the first component) before it is performed. -/
def State.transfer (s : State) (q : Acc) (a : Nat) : Bool × State :=
  match s.bal.transfers, crosses q a with
  | t :: r, true =>
    let s := { s with bal := { s.bal with transfers := r } }
    match t with
    | none => (false, s)
    | some true => (false, s.record FaultClass.corrected q.agent 1 0 a 0)
    | some false => (true, s)
  | _, _ => (false, s)

/-- An access that has not failed is noted. -/
def State.noteIf (s : State) (q : Acc) (r : MemRes) (rs : List (Nat × Nat)) : State :=
  if r.err = none ∧ r.win = none then s.note q rs else s

/-- A read access that has been transferred. -/
def State.readDone (s : State) (q : Acc) (a n : Nat) : MemRes × State :=
  let (r, s) := s.readFrom q n a true {}
  (r, (s.countWin q r).noteIf q r [(a, n)])

/-- A read access. -/
def State.memRead (s : State) (q : Acc) (a n : Nat) : MemRes × State :=
  match s.transfer q a with
  | (true, s) => ({ bytes := zeros n, err := some a }, s)
  | (false, s) => s.readDone q a n

/-- The next byte of a read that goes on from line to line: the first byte of each line is an access, which the others belong
to. -/
def State.readOn (s : State) (q : Acc) (a : Nat) (first : Bool) : MemRes × State :=
  if first || decide (a % 64 = 0) then s.memRead q a 1
  else
    let (r, s) := s.readFrom q 1 a true {}
    let s := s.countWin q r
    (r, if r.ok && (regulated a).isSome then { s with bal := s.bal.serve q.masterPort 1 } else s)

/-- A byte of a write lies in a word with an uncorrectable error of which the write covers a part only (R452); `cov` says
which bytes the write covers. -/
def State.partialAt (s : State) (q : Acc) (cov : Nat → Bool) (x : Nat) : Bool :=
  decide (s.place q true x = .mem) && decide (s.mark x = 2) && !((List.range 8).all (fun j => cov (x / 8 * 8 + j)))

/-- A byte of a write fails: it gets an error response by its place, or by R452. -/
def State.failsAt (s : State) (q : Acc) (cov : Nat → Bool) (x : Nat) : Bool :=
  s.partialAt q cov x || decide (s.place q true x = .bad)

/-- The lowest failing byte of a write that R452 discards whole, or none where it does not (R1038). -/
def State.partialBad (s : State) (q : Acc) (cov : Nat → Bool) (xs : List Nat) : Option Nat :=
  if xs.any (s.partialAt q cov) then xs.find? (s.failsAt q cov) else none

/-- The bytes of a range, and whether one is among them. -/
def rangeFrom (a n : Nat) : List Nat := (List.range n).map (fun i => a + i)
def inSpan (a n x : Nat) : Bool := decide (a ≤ x) && decide (x < a + n)

/-- Write bytes in ascending order. A window failure stops what reaches host memory behind it (R186). -/
def State.writeFrom (q : Acc) : State → Nat → List Byte → MemRes → MemRes × State
  | s, _, [], r => (r, s)
  | s, a, b :: bs, r =>
    match s.place q true a with
    | .bad => State.writeFrom q s (a + 1) bs { r with err := orElse r.err (some a) }
    | .win c => State.writeFrom q s (a + 1) bs { r with win := orElse r.win (some (windowDetail a c)) }
    | .host bus => State.writeFrom q (if r.win = none then s.setHostByte bus b else s) (a + 1) bs r
    | .mem => State.writeFrom q ((s.setMark a 0).setMemByte a b) (a + 1) bs r

/-- A write access that has been transferred (R84, R452, R1038). -/
def State.writeDone (s : State) (q : Acc) (a : Nat) (bs : List Byte) : MemRes × State :=
  match s.partialBad q (inSpan a bs.length) (rangeFrom a bs.length) with
  | some x => ({ err := some x }, s)
  | none =>
    let (r, s) := s.writeFrom q a bs {}
    (r, (s.countWin q r).noteIf q r [(a, bs.length)])

/-- A write access. -/
def State.memWrite (s : State) (q : Acc) (a : Nat) (bs : List Byte) : MemRes × State :=
  match s.transfer q a with
  | (true, s) => ({ err := some a }, s)
  | (false, s) => s.writeDone q a bs

/-- The concourse's record of an error response that ends no item and no stage (R80); `n` is what the record carries beside the
address, where the agent's chapter names it. -/
def State.errorRecord (s : State) (q : Acc) (a : Nat) (n : Nat := 0) : State :=
  s.record FaultClass.item q.agent 1 0 a n

/-- The record of an access by an agent that acts for no item: an error response or a window failure (R80, R186). -/
def State.memRecord (s : State) (q : Acc) (r : MemRes) (n : Nat := 0) : State :=
  match r.win, r.err, r.poison with
  | some d, _, _ => s.record FaultClass.item q.agent 26
      (OD.WINDOW_FAULTS (q.winTen (bits d 0 48))) (bits d 0 48) (q.winTen (bits d 0 48))
  | none, some a, _ => s.errorRecord q a n
  | none, none, some a => s.record FaultClass.item q.agent 1 0 a n
  | none, none, none => s

/-- The lowest failing byte of an access, or its start (R1038). -/
def MemRes.failAt (r : MemRes) (a : Nat) : Nat :=
  match r.win.map (bits · 0 48), r.err with
  | some x, some y => min x y
  | some x, none => x
  | none, some y => y
  | none, none => r.poison.getD a

/-- What a write would meet by the places of its bytes, before any is written. -/
def State.wouldFail (s : State) (q : Acc) (a n : Nat) : MemRes :=
  (rangeFrom a n).foldl (fun r x =>
    match s.place q true x with
    | .bad => { r with err := orElse r.err (some x) }
    | .win c => { r with win := orElse r.win (some (windowDetail x c)) }
    | _ => r) {}

/-- A write that is made whole or not at all (R555, R943). -/
def State.wholeWrite (s : State) (q : Acc) (a : Nat) (bs : List Byte) : MemRes × State :=
  if (s.wouldFail q a bs.length).ok then s.memWrite q a bs
  else (s.wouldFail q a bs.length, s.countWin q (s.wouldFail q a bs.length))

/-- The record that the concourse writes of an error response, where the requester's own report stands beside it (R80). -/
def State.errReported (s : State) (q : Acc) (r : MemRes) : State :=
  match r.win, r.err with
  | none, some a => s.errorRecord q a
  | _, _ => s

end Sys2Proof.Machine
end

