-- ==== Sys2Proof/Machine/Balustrade.lean ====
section
/-!
DEFINITION. The concourse's stops and round trips, and the balustrade: guarantees, the tiers in which a regulated target
grants its requests, windows and monitors (R458 to R480).
-/

namespace Sys2Proof.Machine

/-! ### The concourse (R458, R459) -/

/-- The stop of a master port (Tables GALL-3 and GALL-5). -/
def portStop (m : Nat) : Nat :=
  if m < 32 then (if m / 4 < 4 then m / 4 else m / 4 + 1)
  else if m = 32 ∨ m = 44 ∨ 46 ≤ m then 4
  else if m < 41 then 9
  else 11

/-- The stop of a regulated target: the hall of a pair, or Memory. -/
def targetStop (target : Nat) : Nat := if target < 4 then target else if target < 8 then target + 1 else 10

/-- The hop distance between two stops (R458). -/
def hopDistance (x y : Nat) : Nat := min (max x y - min x y) (12 - (max x y - min x y))

/-- The longest unloaded round trip of an access to a regulated target, as its hall cycles and its spine cycles; to DRAM the
access time is added (Table GALL-4). -/
def roundTrip (m target : Nat) : Nat × Nat :=
  (if target < 8 then 12 else 0, 4 * hopDistance (portStop m) (targetStop target))

/-! ### Guarantees (R462 to R464) -/

/-- DRAM_RATE by code, in MT/s (Table DMEM-9). -/
def dramRate (code : Nat) : Nat := [8533, 7500, 6400, 5500, 4266, 3200].getD code 3200

/-- The lines of a window at a target, from the capacities at the present Pace (R462, R463, R773). -/
def State.windowLines (s : State) (target : Nat) : Nat :=
  let w := s.rd OD.BAL_WINDOW
  let spine := s.rd OD.SPINE_MHZ
  if target < 8 then w * (s.rd OD.HALL_MHZ * 1024) / (spine * 64)
  else w * (16 * dramRate (bits (s.rd OD.LATCHED) 8 3)) / (spine * 64)

/-- A guarantee object of a master at a target class. -/
def guarKey (target m : Nat) : Nat := if target < 8 then OD.GUAR_GAL m else OD.GUAR_DRAM m

/-- An effective guarantee of a master at a target class. -/
def effKey (target m : Nat) : Nat := if target < 8 then OD.EFF_GUAR_GAL m else OD.EFF_GUAR_DRAM m

/-- The configured entitlement E (R462). -/
def State.entitlement (s : State) (target m : Nat) : Nat := s.rd (guarKey target m) * s.windowLines target / 256

/-- The effective entitlement E' (R462). -/
def State.effEntitlement (s : State) (target m : Nat) : Nat := s.rd (effKey target m) * s.windowLines target / 256

/-- Effective guarantees of one class, in port order (R464): the running sum and the list. -/
def effGuar (gs : List Nat) : List Nat :=
  (gs.foldl (fun (p : Nat × List Nat) g =>
    let e := min g (256 - p.1)
    (p.1 + e, p.2 ++ [if p.1 < 256 then e else 0])) (0, [])).2

/-- The effective guarantees and sums, recomputed at each commit (R464). -/
def State.guarantees (s : State) : State :=
  let gal := (List.range 48).map (fun m => s.rd (OD.GUAR_GAL m))
  let dram := (List.range 48).map (fun m => s.rd (OD.GUAR_DRAM m))
  let s := (s.wr OD.GAL_GUAR_SUM (gal.foldl (· + ·) 0)).wr OD.DRAM_GUAR_SUM (dram.foldl (· + ·) 0)
  foldN 48 (fun s m =>
    (s.wr (OD.EFF_GUAR_GAL m) ((effGuar gal).getD m 0)).wr (OD.EFF_GUAR_DRAM m) ((effGuar dram).getD m 0)) s

/-! ### The tiers of a regulated target (R465, R476, R479) -/

/-- A regulated target. -/
def State.balTarget (s : State) (g : Nat) : BalTarget := Sparse.get (fun _ => {}) s.bal.targets g

/-- Change a regulated target. -/
def State.setBalTarget (s : State) (g : Nat) (t : BalTarget) : State :=
  { s with bal := { s.bal with targets := Sparse.put (fun _ => {}) s.bal.targets g t } }

/-- The lines granted to a master at a target in the present window. -/
def State.granted (s : State) (g m : Nat) : Nat := Sparse.get (fun _ => 0) s.bal.lines (48 * g + m)

/-- A request of a master waits at a target (R467). -/
def State.waits (s : State) (g m : Nat) : Bool := (s.balTarget g).waiting.any (fun r => decide (r.port = m))

/-- The slice of its pair that an address names (Table GALL-1); the DRAM port has no slices. -/
def sliceOf (g a : Nat) : Nat := if g < 8 then bits a 6 4 else 0

/-- The requests that a target can grant in a slice, oldest first: those of a halted core stay waiting (R479). -/
def State.candidates (s : State) (g slice : Nat) : List BalReq :=
  (s.balTarget g).waiting.filter (fun r =>
    (decide (8 ≤ g) || decide (sliceOf g r.addr = slice)) && !(decide (r.port < 32) && decide ((s.core r.port).st = .halted)))

/-- The master port of a real-time port (Table DMEM-5). -/
def rtMaster (r : Nat) : Nat := [39, 40, 45, 46].getD r 48

/-- The first request of a port. -/
def firstOf (rs : List BalReq) (m : Nat) : Option BalReq := rs.find? (fun r => decide (r.port = m))

/-- The first request in port order, starting after the port served last, among the ports that pass a test. -/
def roundRobin (rs : List BalReq) (last : Nat) (p : Nat → Bool) : Option BalReq :=
  ((List.range 48).filterMap (fun i =>
    if p ((last + 1 + i) % 48) then firstOf rs ((last + 1 + i) % 48) else none)).head?

/-- Tier 0: DRAM requests of ports in panic, ascending real-time number, then oldest first (R778). -/
def State.tier0 (s : State) (g : Nat) (rs : List BalReq) : Option BalReq :=
  if g < 8 then none
  else ((List.range 4).filterMap (fun r => if s.rd (OD.RT_STATE r) = 1 then firstOf rs (rtMaster r) else none)).head?

/-- Tier 1: requests that have waited longer than their master's LAT_LIMIT, oldest first. -/
def State.tier1 (s : State) (g : Nat) (rs : List BalReq) : Option BalReq :=
  rs.find? (fun r => decide (s.rd (OD.LAT_LIMIT r.port) ≠ 0) &&
    decide (s.rd (OD.LAT_LIMIT r.port) < (s.balTarget g).now - r.since))

/-- Tier 2: masters with effective entitlement left in the window. -/
def State.tier2 (s : State) (g : Nat) (rs : List BalReq) : Option BalReq :=
  roundRobin rs (s.balTarget g).last2 (fun m => decide (s.granted g m < s.effEntitlement g m))

/-- A master with SHARE 1 to 15 has grants left in the round of tier 3. -/
def State.shareLeft (s : State) (round : Sparse Nat) (m : Nat) : Bool :=
  decide (Sparse.get (fun _ => 0) round m < s.rd (OD.SHARE m))

/-- Tier 3: masters whose SHARE is 1 to 15, each SHARE grants in a round: the port served last goes on until it has had them
(DESIGN CHOICE, notes/assumptions/41.md). The answer says whether a new round begins. -/
def State.tier3 (s : State) (g : Nat) (rs : List BalReq) : Option (BalReq × Bool) :=
  let t := s.balTarget g
  match roundRobin rs ((t.last3 + 47) % 48) (s.shareLeft t.round) with
  | some r => some (r, false)
  | none => (roundRobin rs t.last3 (s.shareLeft [])).map (fun r => (r, true))

/-- Tier 4: masters whose SHARE is 0. -/
def State.tier4 (s : State) (g : Nat) (rs : List BalReq) : Option BalReq :=
  roundRobin rs (s.balTarget g).last4 (fun m => decide (s.rd (OD.SHARE m) = 0))

/-- The next grant of a target in a slice (R465), from the first tier that has a request, and the target with that tier's order
brought forward; a request counts once, in the lowest tier that it is eligible for (R476). -/
def State.nextGrant (s : State) (g slice : Nat) : Option (BalReq × BalTarget) :=
  let rs := s.candidates g slice
  let t := s.balTarget g
  match s.tier0 g rs, s.tier1 g rs, s.tier2 g rs, s.tier3 g rs, s.tier4 g rs with
  | some r, _, _, _, _ => some (r, t)
  | _, some r, _, _, _ => some (r, t)
  | _, _, some r, _, _ => some (r, { t with last2 := r.port })
  | _, _, _, some (r, new), _ =>
    let round := if new then [] else t.round
    some (r, { t with
      last3 := r.port, round := Sparse.put (fun _ => 0) round r.port (Sparse.get (fun _ => 0) round r.port + 1) })
  | _, _, _, _, some r => some (r, { t with last4 := r.port })
  | _, _, _, _, _ => none

/-- A target grants its next access: the request leaves the queue, its lines count against its master's entitlement and its
bytes in BYTES_SERVED. -/
def State.grantNext (s : State) (g slice : Nat) : State :=
  match s.nextGrant g slice with
  | none => s
  | some (r, t) =>
    let s := s.setBalTarget g { t with waiting := t.waiting.erase r }
    { s with bal := ((linesOf r.addr r.bytes).foldl (fun b x => b.grantLine r.port x) s.bal).serve r.port r.bytes }

/-- One event of a window. -/
def State.balEvent (s : State) (g : Nat) (e : BalEvent) : State :=
  let t := s.balTarget g
  match e with
  | .cycles n => s.setBalTarget g { t with now := t.now + n.toNat }
  | .request m a n =>
    if regulated a.toNat = some g then s.setBalTarget g { t with waiting := t.waiting ++ [⟨m, t.now, a.toNat, n.toNat⟩] } else s
  | .grant slice => s.grantNext g slice
  | .took m n => s.wr (OD.MAX_LAT m) (max (s.rd (OD.MAX_LAT m)) n.toNat)

/-! ### Windows and monitors (R466 to R470, R477) -/

/-- One master at the end of a window: whether it was short (R467, R468, R472). -/
def State.balMaster (s : State) (target : Nat) (judge : Bool) (m : Nat) : State :=
  if judge && s.waits target m && decide (s.granted target m < s.entitlement target m) then
    let was := bit (s.rd OD.MISS_MASK) m
    let s := (s.bump (OD.MISSES m)).setOdBit OD.MISS_MASK m true
    if !was && s.flag OD.MISS_IRQ then s.signal false 6 else s
  else s

/-- A real-time port is in panic. -/
def State.rtPanic (s : State) : Bool := (List.range 4).any (fun r => s.rd (OD.RT_STATE r) = 1)

/-- New windows start at the targets that pass a test: no line has been granted in them. -/
def State.newWindows (s : State) (p : Nat → Bool) : State :=
  { s with bal := { s.bal with
    lines := Sparse.clear (fun k => p (k / 48)) s.bal.lines
    panicSeen := if p 8 then s.rtPanic else s.bal.panicSeen } }

/-- A DRAM window that ends counts if a real-time port was in panic for a cycle of it (R469). -/
def State.panicWindow (s : State) : State := if s.bal.panicSeen then s.bump OD.PANIC_WINDOWS else s

/-- A window ends at a target; a DRAM window with panic judges no master (R469). -/
def State.judgeWindow (s : State) (target : Nat) : State :=
  let panic := decide (target = 8) && s.bal.panicSeen
  let s := if target = 8 then s.panicWindow else s
  (foldN 48 (fun s m => s.balMaster target (!panic) m) s).newWindows (fun g => decide (g = target))

/-- A window with what came to its target in it. -/
def State.closeWindow (s : State) (target : Nat) (es : List BalEvent) : State :=
  if !s.powered 1 then s else (es.foldl (fun s e => s.balEvent target e) s).judgeWindow target

/-- BALUSTRADE_WINDOW_END. -/
def execBalustradeWindowEnd (target : Fin 9) (masters : List BalEvent) (s : State) : Out :=
  .next (s.closeWindow target masters)

/-- Step 5 for the balustrade: effective guarantees (R464), and new windows at every target where a staged object of range
0x5100 has changed (R466); the DRAM window that so ends counts under R469 (DEDUCED, notes/assumptions/42.md). -/
def State.balCommit (s old : State) (set : Sparse Nat) : State :=
  let s := s.guarantees
  if set.any (fun e => decide (0x5100 * 256 ≤ e.1 ∧ e.1 < 0x5140 * 256) && decide (s.rd e.1 ≠ old.rd e.1)) then
    s.panicWindow.newWindows (fun _ => true)
  else s

/-- The domain of a master port's agents. -/
def portDomain (m : Nat) : Nat :=
  if m < 32 then 2 + m / 4
  else if m = 33 ∨ m = 34 then m - 15
  else if m = 35 then 20
  else if m = 36 then 22
  else if m = 37 ∨ m = 38 then 21
  else if m = 39 ∨ m = 40 then 23
  else if m = 41 then 26
  else if m = 42 then 0
  else if m = 43 ∨ m = 45 then 27
  else 1

/-- A domain powers down: the waiting requests of its masters are withdrawn (R477). -/
def State.withdrawRequests (s : State) (d : Nat) : State :=
  { s with bal := { s.bal with targets := s.bal.targets.map (fun e =>
    (e.1, { e.2 with waiting := e.2.waiting.filter (fun r => decide (portDomain r.port ≠ d)) })) } }

/-- The bytes served since the last edge enter BYTES_SERVED (Table GALL-9). -/
def State.countServed (s : State) : State :=
  let ps := s.bal.served
  ps.foldl (fun s e => s.bump64 (OD.BYTES_SERVED e.1) e.2) { s with bal := { s.bal with served := [] } }

end Sys2Proof.Machine
end

