-- ==== Sys2Proof/Machine/Dict.lean ====
section
/-!
DEFINITION. The dictionary engine's checks on one access (Table DICT-5), the responses of the paths, the dictionary
windows and the staged set (chapter 03, R156 to R158). What a write does in its unit stands with the unit.
-/

namespace Sys2Proof.Machine

/-! ### Abort codes (Table DICT-5) -/

abbrev Abort.noObject : Nat := 1
abbrev Abort.noSubindex : Nat := 2
abbrev Abort.readOnly : Nat := 3
abbrev Abort.writeOnly : Nat := 4
abbrev Abort.typeLength : Nat := 5
abbrev Abort.range : Nat := 6
abbrev Abort.state : Nat := 7
abbrev Abort.denied : Nat := 8
abbrev Abort.timeout : Nat := 9
abbrev Abort.zeroLength : Nat := 10
abbrev Abort.badDate : Nat := 11
abbrev Abort.busy : Nat := 12

/-! ### Roles (R98, R99, R952) -/

/-- Whether an access right takes writes. -/
def Access.takesWrites (a : Access) : Bool := a = .RW || a = .WO || a = .RS

/-- A tenancy's own instance of a per-tenancy object: its index ends in the tenancy's number. -/
def ownInstance (t idx : Nat) : Bool := idx % 16 = t

/-- Whether the role codes of Table INDX-1 let a path read or, where the object takes writes, write; `own` says that the
instance is the path's tenancy's own, and `inst` is the entry's number for PERSIST_ENTRY. -/
def roleOk (r : Roles) (own : Bool) (p : Path) (inst : Nat) (wr : Bool) : Bool :=
  match p with
  | .dbg => true
  | .pf0 =>
    (match r with
    | .F => false
    | .K => !wr
    | .N => decide (inst < 24)
    | _ => true)
  | .gq =>
    (match r with
    | .F | .H | .P => false
    | .K => !wr
    | .N => decide (inst < 24)
    | _ => true)
  | .fw _ => (match r with | .G => false | _ => true)
  | .ten _ =>
    (match r with
    | .B => true
    | .C => !wr
    | .D => own && !wr
    | .E | .H => own
    | _ => false)

/-- The level that the debug port holds: none without power or while DBG_ALLOW is 0 (R959). -/
def State.dbgLevel (s : State) : Nat := if s.powered 27 && s.flag OD.DBG_ALLOW then s.rd OD.DBG_LEVEL else 0

/-- The debug port's rights on the register view: OBSERVE reads, FULL writes (R952). -/
def State.dbgRight (s : State) (wr : Bool) : Bool := decide ((if wr then 2 else 1) ≤ s.dbgLevel)

/-- Whether a path reaches objects by the register view, where an access has exactly the object's size (R115 to R117). -/
def byRegister : Path → Bool
  | .fw _ | .dbg => true
  | _ => false

/-- Values that the owning table permits only to other roles (R98): PERSIST_CLEAR, a U8, of 24 to 31. -/
def valueDenied (p : Path) (key v : Nat) : Bool :=
  decide (key = OD.PERSIST_CLEAR) && !byRegister p && decide (24 ≤ v % 256 ∧ v % 256 ≤ 31)

/-- Whether an instance is a path's tenancy's own: an encoder context belongs to its ENC_TENANCY (R656). -/
def State.ownInst (s : State) (p : Path) (idx : Nat) : Bool :=
  match p with
  | .ten t =>
    if 0x7410 ≤ idx ∧ idx < 0x7420 then s.rd (OD.ENC_TENANCY (idx - 0x7410)) = t.val else ownInstance t.val idx
  | _ => false

/-! ### Checks 1 to 4 -/

/-- Checks 1 to 4 of Table DICT-5: the object, or the abort code. `v` is the value of an expedited write. -/
def State.checkObject (s : State) (p : Path) (wr : Bool) (idx sub v : Nat) : Except Nat ObjDef :=
  if !idxExists idx then .error Abort.noObject
  else
    match objLookup idx sub with
    | none => .error Abort.noSubindex
    | some o =>
      if (decide (p = .dbg) && !s.dbgRight wr) || !roleOk o.roles (s.ownInst p idx) p (idx - 0x1210) (wr && o.acc.takesWrites) ||
          (wr && valueDenied p (odKey idx sub) v) then .error Abort.denied
      else if wr && !o.acc.takesWrites then .error Abort.readOnly
      else if !wr && decide (o.acc = .WO) then .error Abort.writeOnly
      else .ok o

/-- The instance number of an object in its family, as the range checks need it. -/
def instanceOf (idx : Nat) : Nat := idx % 16

/-- Checks 6 and 7 of an expedited write. -/
def checkValue (o : ObjDef) (idx len v : Nat) : Except Nat Nat :=
  if o.ty.size = 0 ∨ len ≠ o.ty.size then .error Abort.typeLength
  else
    let v := v % 2 ^ (8 * o.ty.size)
    let m := Nat.land v o.mask
    if o.ty = .bool ∧ 1 < v then .error Abort.range
    else if o.rng = .date ∧ !dateOk m then .error Abort.badDate
    else if !o.rng.ok (instanceOf idx) m then .error Abort.range
    else .ok m

/-! ### Checks 8 and 9 -/

/-- The transfer that a path holds open. -/
def State.xfer (s : State) (p : Path) : Option Xfer := Sparse.get (fun _ => none) s.dict.xfer (pathId p)

/-- Replace a path's open transfer. -/
def State.setXfer (s : State) (p : Path) (x : Option Xfer) : State :=
  { s with dict := { s.dict with xfer := Sparse.put (fun _ => none) s.dict.xfer (pathId p) x } }

/-- Another path's open segmented write holds the object (R113). -/
def State.heldByOther (s : State) (p : Path) (key : Nat) : Bool :=
  s.dict.xfer.any (fun e => e.1 ≠ pathId p &&
    (match e.2 with | some x => x.wr && decide (x.key = key) | none => false))

/-- The staged entry of an object as the dictionary holds it now. -/
def State.stagedEntry (s : State) (key : Nat) : Option Nat :=
  match s.dict.fresh.find? (fun e => e.1 = key) with
  | some e => some e.2
  | none => (s.dict.staged.find? (fun e => e.1 = key)).map (·.2)

/-- The number of staged entries (R123). -/
def State.stagedCount (s : State) : Nat :=
  s.dict.staged.length + (s.dict.fresh.filter (fun e => !(s.dict.staged.any (fun x => x.1 = e.1)))).length

/-- Insert or replace an entry of a keyed list, in ascending order. -/
def keyedPut {α : Type} : List (Nat × α) → Nat → α → List (Nat × α)
  | [], k, v => [(k, v)]
  | (k', v') :: r, k, v =>
    if k < k' then (k, v) :: (k', v') :: r
    else if k = k' then (k, v) :: r
    else (k', v') :: keyedPut r k v

/-- A staged write joins the staged set (R121). -/
def State.stage (s : State) (key v : Nat) : State :=
  { s with dict := { s.dict with fresh := keyedPut s.dict.fresh key v } }

/-- The object's domain is ready (R128). -/
def State.objPowered (s : State) (key : Nat) : Bool := s.powered (domainOf key)

/-- The common checks of an expedited write: the value that may go on to the unit, or the abort code. -/
def State.checkWrite (s : State) (p : Path) (idx sub len v : Nat) : Except Nat (ObjDef × Nat) :=
  match s.checkObject p true idx sub v with
  | .error c => .error c
  | .ok o =>
    match checkValue o idx len v with
    | .error c => .error c
    | .ok m =>
      let key := odKey idx sub
      if s.heldByOther p key then .error Abort.busy
      else if o.acc = .RS ∧ s.stagedEntry key = none ∧ 1024 ≤ s.stagedCount then .error Abort.busy
      else if o.acc ≠ .RS ∧ !s.objPowered key then .error Abort.state
      else .ok (o, m)

/-! ### Responses, windows and records -/

/-- Whether a path reaches the dictionary engine: a window while the link is up and no reset discards BAR accesses
(R152), firmware while D1 is on and its core is neither parked (R229) nor halted, the debug port while D27 is on. -/
def State.pathLive (s : State) (p : Path) : Bool :=
  match p with
  | .pf0 | .ten _ => s.powered 26 && s.linkUp && decide (s.rd OD.RESET_STATE = 0)
  | .gq => s.pow.vaon
  | .fw c => s.powered 1 && !s.parkedAgent (32 + c.val) && !(Sparse.get (fun _ => {}) s.newels c.val).halted
  | .dbg => s.powered 27

/-- Whether a path is a dictionary window. -/
def isWindow : Path → Bool
  | .pf0 | .ten _ => true
  | _ => false

/-- A path's dictionary window. -/
def State.win (s : State) (p : Path) : DictWindow := Sparse.get (fun _ => {}) s.dict.win (pathId p)

/-- Store a dictionary window. -/
def State.setWin (s : State) (p : Path) (w : DictWindow) : State :=
  { s with dict := { s.dict with win := Sparse.put (fun _ => {}) s.dict.win (pathId p) w } }

/-- Record the last response of a path. -/
def State.setResp (s : State) (p : Path) (r : Resp) : State :=
  { s with dict := { s.dict with resp := Sparse.put (fun _ => {}) s.dict.resp (pathId p) r } }

/-- Serve one step of a path (R156, R157): a busy window only notes the overrun; else the step runs, and a window holds
its answer until the engine's answer arrives. -/
def State.serve (s : State) (p : Path) (irq : Bool) (f : State → Resp × State) : State :=
  if !s.pathLive p then s
  else if isWindow p && (s.win p).busy then s.setWin p { s.win p with overrun := true }
  else
    let (r, s) := f s
    let s := s.setResp p r
    if isWindow p then
      s.setWin p { s.win p with busy := true, done := false, overrun := false, irq := irq, answer := some r }
    else s

/-- The record of a failed access, where one is written: BAD_DATE on every path (R94), every failed register-view
access (R118). A rejected CAL_NOW counts in CAL_REJECTS (R913). -/
def State.failRecord (s : State) (p : Path) (idx sub code v : Nat) : State :=
  let s := if code = Abort.badDate ∧ odKey idx sub = OD.CAL_NOW then s.bump OD.CAL_REJECTS else s
  if code = Abort.badDate || byRegister p then s.recordAccess p (domainOf (odKey idx sub)) idx sub code v else s

/-- An aborted step of an expedited access; of the firmware path and the debug port it is a register-view access. -/
def State.abort (s : State) (p : Path) (idx sub code v : Nat) : Resp × State :=
  ({ code := code }, s.failRecord p idx sub code v)

/-- An aborted step of a segmented transfer, which leaves no record (R102): on the firmware path it is none of the register
view's accesses. The debug port has the register view alone, so there it is one (R117, R118). -/
def State.abortSeg (s : State) (p : Path) (key code : Nat) : Resp × State :=
  if p = .dbg then s.abort p (key / 256) (key % 256) code 0 else ({ code := code }, s)

/-- DW_CMD of a window step (Table HOST-5). -/
def dwCmd (irq last toggle : Bool) (kind : Nat) (view dir : Bool) : Nat :=
  1 + 2 * b2n dir + 4 * b2n view + 8 * kind + 32 * b2n toggle + 64 * b2n last + 128 * b2n irq

/-- The registers that the host writes before a step, which a step in progress discards (R158). -/
def State.dwSet (s : State) (p : Path) (cmd obj len : Nat) (bs : List Byte) : State :=
  if isWindow p && s.pathLive p && !(s.win p).busy then
    s.setWin p { s.win p with cmd := cmd, object := obj, length := len, data := bs ++ (s.win p).data.drop bs.length }
  else s

/-- An expedited write of one object whose unit acts by `act`, which answers an abort code or 0 (R104, R127). -/
def State.dictWrite (s : State) (p : Path) (irq : Bool) (key len v : Nat) (act : Nat → State → Nat × State) : State :=
  (s.dwSet p (dwCmd irq false false 0 false true) key len (leBytes 8 v)).serve p irq (fun s =>
    match s.checkWrite p (key / 256) (key % 256) len v with
    | .error c => s.abort p (key / 256) (key % 256) c v
    | .ok (_, m) =>
      let (c, s') := act m s
      if c = 0 then ({}, s') else s.abort p (key / 256) (key % 256) c v)

end Sys2Proof.Machine
end

