-- ==== Sys2Proof/Machine/Seal.lean ====
section
/-!
DEFINITION. The sealed set and the marks that sealing leaves on stages (R740 to R750): membership of a byte, sealed cores
and stages, and the zero-fills that bytes leaving the set wait for.
-/

namespace Sys2Proof.Machine

/-- Whether core n is sealed (R741). -/
def State.coreSealed (s : State) (n : Nat) : Bool := bit (s.rd OD.CORE_SEAL) n || bit s.ledg.tainted n

/-- CORES_SEALED (R741). -/
def State.coresSealed (s : State) : Nat :=
  foldN 32 (fun v n => if s.coreSealed n then v + 2 ^ n else v) 0

/-- Whether a byte lies in the sealed set (R740): a configured range, a byte whose fill is still to come, or the alcove
of a sealed core; never a host window address. -/
def State.sealedByte (s : State) (a : Nat) : Bool :=
  decide (a < windowBase) &&
  (s.sealRanges.any (fun r => inRange r a) || s.ledg.fills.any (fun r => inRange r a) ||
   s.ledg.resetHeld.any (fun r => inRange r a) ||
   (decide (alcoveBase ≤ a ∧ a < alcoveBase + 32 * alcoveBytes) && s.coreSealed (alcoveCore a)))

/-- The first byte of a range that is not in the sealed set. -/
def State.firstUnsealed (s : State) (a : Nat) : Nat → Option Nat
  | 0 => none
  | n + 1 => if s.sealedByte a then State.firstUnsealed s (a + 1) n else some a

/-- The first byte of a range that is in the sealed set. -/
def State.firstSealed (s : State) (a : Nat) : Nat → Option Nat
  | 0 => none
  | n + 1 => if s.sealedByte a then some a else State.firstSealed s (a + 1) n

/-- DETAIL of a SEALED record (Table LEDG-5). -/
def sealedDetail (cause a : Nat) : Nat := cause * 2 ^ 56 + a % 2 ^ 48

/-- The alcove range of a core. -/
def alcoveRange (n : Nat) : Nat × Nat := (alcoveBase + n * alcoveBytes, alcoveBase + (n + 1) * alcoveBytes)

/-- SEAL_FILL_PENDING (R747). -/
def State.sealPending (s : State) : Nat := (s.ledg.fills.map (fun r => r.2 - r.1)).foldl (· + ·) 0

/-- A byte that no ring, sink or output write reaches: it lies in the sealed set or in an image's gallery extent (R555, R710,
R943). -/
def State.ringBarred (s : State) (a : Nat) : Bool :=
  s.sealedByte a || (List.range 16).any (fun i => s.inGalleryExtent i a)

/-- A write that R555 governs: the byte that keeps it from being made, or none where it was made; an error response has the
concourse's record (R80). -/
def State.ringPut (s : State) (q : Acc) (a : Nat) (bs : List Byte) : Option Nat × State :=
  match (rangeFrom a bs.length).find? s.ringBarred with
  | some x => (some x, s)
  | none =>
    let (r, s) := s.wholeWrite q a bs
    (if r.ok then none else some (r.failAt a), s.errReported q r)

end Sys2Proof.Machine
end

