-- ==== Sys2Proof/Machine/Cloak.lean ====
section
/-!
DEFINITION. The cloakroom (chapter 11): pools and their free stores, allocation, claims, release, and what its events do.
-/

namespace Sys2Proof.Machine

/-- NO_TICKET (R488). -/
abbrev noTicket : Nat := 0xFFFFFFFF

/-- A ticket's pool and index (Table CLOK-2). -/
def ticketPool (t : Nat) : Nat := bits t 29 3
def ticketIndex (t : Nat) : Nat := bits t 0 29

/-- The cloakroom's accesses carry agent 32 and no context (R494). -/
def clokAcc : Acc := { agent := 32, ctx := none, port := some 47 }

/-- Store a pool's record. -/
def State.setPool (s : State) (q : Nat) (p : Pool) : State :=
  { s with clok := { s.clok with pools := Sparse.put (fun _ => {}) s.clok.pools q p } }

/-- The address of a ticket's buffer (R489). -/
def State.bufferAddr (s : State) (t : Nat) : Nat :=
  (s.pool (ticketPool t)).base + ticketIndex t * 2 ^ (s.pool (ticketPool t)).szLog

/-- FREE_TICKETS: the ring count plus the cache count. -/
def State.freeTickets (s : State) (q : Nat) : Nat := (s.pool q).count + (s.pool q).cache.length

/-- An event of Table CLOK-7; a bit that rises signals vector 12 when POOL_IRQ is 1 (R512). -/
def State.poolEvent (s : State) (b : Nat) : State :=
  let was := bit (s.rd OD.POOL_EVENTS) b
  let s := s.setOdBit OD.POOL_EVENTS b true
  if !was && s.flag OD.POOL_IRQ then s.signal false 12 else s

/-- After a pool's free tickets have changed from `before`: the low-water event and MIN_FREE (Tables CLOK-7, CLOK-9). -/
def State.poolChanged (s : State) (q before : Nat) : State :=
  let now := s.freeTickets q
  let low := s.rd (OD.POOL_LOW q)
  let s := s.wr (OD.MIN_FREE q) (min (s.rd (OD.MIN_FREE q)) now)
  if low ≠ 0 ∧ low ≤ before ∧ now < low then s.poolEvent q else s

/-- A record of class ITEM that names a pool (R494, R501, R524). -/
def State.poolRecord (s : State) (q addr : Nat) : State := s.record FaultClass.item 32 1 (OD.POOL_STATE q) addr q

/-! ### The ring and the cache (R490 to R495) -/

/-- Read `n` ring entries from the head on: the good tickets, latest first, and the lowest failing byte of a read that ended
in an error. -/
def State.ringRead (q : Nat) : Nat → State → List Nat → List Nat × Option Nat × State
  | 0, s, acc => (acc, none, s)
  | n + 1, s, acc =>
    let p := s.pool q
    let a := p.ringBase + 4 * (p.head % p.ringEntries)
    let (r, s) := s.memRead clokAcc a 4
    if r.err ≠ none ∨ r.win ≠ none then (acc, some (r.failAt a), s)
    else
      let t := ofLe r.bytes
      let s := s.setPool q { s.pool q with head := (p.head + 1) % p.ringEntries, count := p.count - 1 }
      if r.poison ≠ none ∨ ticketPool t ≠ q ∨ p.buffers ≤ ticketIndex t then
        State.ringRead q n (s.bump OD.RING_DISCARDS) acc
      else State.ringRead q n s (t :: acc)

/-- The cache reads up to 32 tickets from the ring head (R491, R492, R501). Answers whether the ring failed. -/
def State.refill (s : State) (q : Nat) : Bool × State :=
  let p := s.pool q
  let (ts, bad, s) := s.ringRead q (min 32 p.count) []
  let s := s.setPool q { s.pool q with cache := ts ++ (s.pool q).cache }
  (bad.isSome, match bad with | some a => s.poolRecord q a | none => s)

/-- A zero-fill or other cloakroom write that meets an image's gallery extent is not made (R495). -/
def State.meetsImage (s : State) (a n : Nat) : Bool :=
  decide (a < galleryBytes) && (List.range 16).any (fun i =>
    decide ((s.extents i).gbase < a + n) && decide (a < (s.extents i).gbase + (s.extents i).gsize) &&
    decide (0 < (s.extents i).gsize))

/-- A cloakroom write: one that meets an image is not made, counts in LEAKS and writes a CORRECTED record (R495); one that
fails writes an ITEM record (R494). -/
def State.clokWrite (s : State) (q a : Nat) (bs : List Byte) : State :=
  if s.meetsImage a bs.length then (s.bump OD.LEAKS).record FaultClass.corrected 32 1 OD.LEAKS a q
  else
    let (r, s) := s.memWrite clokAcc a bs
    if r.ok then s else s.poolRecord q (r.failAt a)

/-- The gallery extents of the images that have one. -/
def State.imageRanges (s : State) : List (Nat × Nat) :=
  (List.range 16).filterMap (fun i =>
    if 0 < (s.extents i).gsize then some ((s.extents i).gbase, (s.extents i).gbase + (s.extents i).gsize) else none)

/-- The zero-fill of a freed buffer (R509): the parts that meet an image are not written and count once (R495). -/
def State.zeroFill (s : State) (q a n : Nat) : State :=
  if s.meetsImage a n then
    let s := (cutAll [(a, a + n)] s.imageRanges).foldl (fun s r => s.clokWrite q r.1 (zeros (r.2 - r.1))) s
    (s.bump OD.LEAKS).record FaultClass.corrected 32 1 OD.LEAKS a q
  else s.clokWrite q a (zeros n)

/-- Write tickets to the ring's end, as many as fit (R493). -/
def State.ringWrite (q : Nat) : List Nat → State → State
  | [], s => s
  | t :: ts, s =>
    let p := s.pool q
    if p.ringEntries ≤ p.count then State.ringWrite q ts (s.bump OD.LEAKS)
    else
      let a := p.ringBase + 4 * ((p.head + p.count) % p.ringEntries)
      State.ringWrite q ts ((s.clokWrite q a (leBytes 4 t)).setPool q { p with count := p.count + 1 })

/-- The 32 tickets longest in the cache go to the ring (R491). -/
def State.writeback (s : State) (q : Nat) : State :=
  let p := s.pool q
  let before := s.freeTickets q
  let keep := p.cache.length - 32
  let s := s.setPool q { p with cache := p.cache.take keep }
  (s.ringWrite q (p.cache.drop keep).reverse).poolChanged q before

/-- Take a free ticket of a pool: from the cache, after the refill it waits for when the cache is empty (R491, R497). -/
def State.takeTicket (q : Nat) : Nat → State → Option Nat × Bool × State
  | 0, s => (none, false, s)
  | n + 1, s =>
    let p := s.pool q
    match p.cache with
    | t :: rest =>
      let before := s.freeTickets q
      (some t, false, (s.setPool q { p with cache := rest }).poolChanged q before)
    | [] =>
      if p.count = 0 then (none, false, s)
      else
        let before := s.freeTickets q
        let (bad, s) := s.refill q
        if bad then (none, true, s) else State.takeTicket q n (s.poolChanged q before)

/-! ### Claims (R499 to R508) -/

/-- A pool leaves DISABLED: it latches its objects and fills (R483, R485). -/
def State.poolStart (s : State) (q : Nat) : State :=
  let p : Pool := {
    szLog := s.rd (OD.POOL_SIZE_LOG2 q)
    base := s.rd (OD.POOL_BASE q)
    buffers := s.rd (OD.POOL_BUFFERS q)
    ringBase := s.rd (OD.RING_BASE q)
    ringEntries := s.rd (OD.RING_ENTRIES q)
    sealed := s.flag (OD.POOL_SEALED q) }
  (s.setPool q p).wr (OD.POOL_STATE q) 1

/-- A CLOSING pool without claim records becomes DISABLED: its bytes leave the sealed set, and it fills again if it is
enabled (R486, R487, R747). -/
def State.poolSettle (s : State) (q : Nat) : State :=
  if s.rd (OD.POOL_STATE q) = 3 ∧ !(s.clok.recs.any (fun r => ticketPool r.ticket = q)) then
    let before := s.sealRanges
    let s := (s.wr (OD.POOL_STATE q) 0).sealLeave before
    if s.flag (OD.POOL_ENABLE q) then s.poolStart q else s
  else s

/-- A buffer is freed (R508, R509). -/
def State.freeBuffer (s : State) (t : Nat) : State :=
  let q := ticketPool t
  let p := s.pool q
  if p.sealed then
    let b : ScrubBuf := ⟨t, s.bufferAddr t, 2 ^ p.szLog, decide (s.rd (OD.POOL_STATE q) = 2)⟩
    { s with clok := { s.clok with scrub := s.clok.scrub ++ [b] } }.poolSettle q
  else if s.rd (OD.POOL_STATE q) = 2 then
    let before := s.freeTickets q
    (s.setPool q { p with cache := t :: p.cache }).poolChanged q before
  else s.poolSettle q

/-- Records whose claims have all dropped leave the table and free their buffers (R508). -/
def State.sweepClaims (s : State) : State :=
  let gone := s.clok.recs.filter (fun r => r.claims = [])
  let s := { s with clok := { s.clok with recs := s.clok.recs.filter (fun r => r.claims ≠ []) } }
  gone.foldl (fun s r => s.freeBuffer r.ticket) s

/-- Change every claim record, then free what has no claim left. -/
def State.mapClaims (s : State) (f : ClaimRec → ClaimRec) : State :=
  State.sweepClaims { s with clok := { s.clok with recs := s.clok.recs.map f } }

/-- The agent claims of an agent drop: an explicit reset or power-down (R504). -/
def State.dropAgentClaims (s : State) (a : Nat) : State :=
  s.mapClaims (fun r => { r with claims := r.claims.filter (fun c => !(c.stage = none && c.agent = a && !c.kept)) })

/-- Stage claims on one stage of an item-run drop, or are kept by a halted core (R505, R523). -/
def State.dropStageClaims (s : State) (slot run stage : Nat) (keeper : Option Nat) : State :=
  s.mapClaims (fun r =>
    if r.bound = some (slot, run) then
      { r with claims := r.claims.filterMap (fun c =>
          if c.stage = some stage then
            (match keeper with
            | some n => some ⟨none, n, true⟩
            | none => none)
          else some c) }
    else r)

/-- Every claim bound to an item drops when it closes, but for those a halted core keeps (R506, R523). -/
def State.dropItemClaims (s : State) (slot : Nat) : State :=
  s.mapClaims (fun r =>
    match r.bound with
    | some (sl, _) => if sl = slot then { r with bound := none, claims := r.claims.filter (·.kept) } else r
    | none => r)

/-- The claims that a halted core kept end when it resumes (R523). -/
def State.dropKept (s : State) (n : Nat) : State :=
  s.mapClaims (fun r => { r with claims := r.claims.filter (fun c => !(c.kept && c.agent = n)) })

/-! ### Allocation (R496 to R503, R514) -/

/-- How a request ends: EMPTY, a ticket, or POOL_EMPTY with its DETAIL. -/
inductive AllocRes where
  | empty
  | ticket (t : Nat)
  | poolEmpty (detail : Nat)
  deriving DecidableEq, Repr

/-- Insert a pool into the fit order (R496). -/
def fitInsert (s : State) (q : Nat) : List Nat → List Nat
  | [] => [q]
  | x :: xs => if (s.pool q).szLog < (s.pool x).szLog then q :: x :: xs else x :: fitInsert s q xs

/-- The fit order of a request (R496). -/
def State.fitOrder (s : State) (sealFlag : Bool) : List Nat :=
  ((List.range 8).filter (fun q => decide (s.rd (OD.POOL_STATE q) = 2) && (s.pool q).sealed == sealFlag)).foldl
    (fun l q => fitInsert s q l) []

/-- The claims of an owner set (R502, R503). -/
def State.ownerClaims (s : State) (r : AllocReq) : List Claim :=
  let es := ((List.range 15).map (fun j => s.rd (OD.OWNER r.set j))).filter (fun e => bit e 15)
  if es = [] then
    (match r.bound with
    | some (_, _, st) => [⟨some st, r.agent, false⟩]
    | none => [⟨none, r.agent, false⟩])
  else
    (es.map (fun e => if bit e 12 then (⟨some (bits e 7 5), 0, false⟩ : Claim) else ⟨none, bits e 0 7, false⟩)).filter
      (fun c => !(decide (r.bound = none) && c.stage.isSome))

/-- DETAIL of a POOL_EMPTY record (Table CLOK-3). -/
def emptyDetail (r : AllocReq) (reason q : Nat) : Nat := reason * 2 ^ 56 + q * 2 ^ 48 + r.set * 2 ^ 32 + r.len % 2 ^ 32

/-- A request ends with POOL_EMPTY: counted, and an event at the last pool tried (R500, R512). -/
def State.allocFail (s : State) (r : AllocReq) (reason q : Nat) : AllocRes × State :=
  let s := s.bump OD.POOL_EMPTIES
  (.poolEmpty (emptyDetail r reason q), if q < 8 then s.poolEvent (8 + q) else s)

/-- A ticket is handed out: the claim record (R499, R502). -/
def State.allocDone (s : State) (r : AllocReq) (t : Nat) : AllocRes × State :=
  let recd : ClaimRec := ⟨t, r.bound.map (fun b => (b.1, b.2.1)), s.ownerClaims r⟩
  let s := (s.bump OD.ALLOCATIONS)
  (.ticket t, State.sweepClaims { s with clok := { s.clok with recs := s.clok.recs ++ [recd] } })

/-- The pool after another in a fit order. -/
def nextIn : List Nat → Nat → Option Nat
  | x :: y :: xs, q => if x = q then some y else nextIn (y :: xs) q
  | _, _ => none

/-- Serve an allocation request (R497, R499, R500, R514). -/
def State.alloc (s : State) (r : AllocReq) : AllocRes × State :=
  if r.len = 0 then (.empty, s)
  else
    let order := s.fitOrder r.sealFlag
    match order.find? (fun q => decide (r.len ≤ 2 ^ (s.pool q).szLog)) with
    | none => s.allocFail r 1 0xFF
    | some q =>
      if 16384 ≤ s.clok.recs.length then s.allocFail r 5 q
      else
        match s.takeTicket q ((s.pool q).count + 1) with
        | (some t, _, s) => s.allocDone r t
        | (none, true, s) => s.allocFail r 4 q
        | (none, false, s) =>
          if !r.spill then s.allocFail r 2 q
          else
            match nextIn order q with
            | none => s.allocFail r 3 q
            | some q2 =>
              match s.takeTicket q2 ((s.pool q2).count + 1) with
              | (some t, _, s) => (s.bump OD.SPILLS).allocDone r t
              | (none, true, s) => s.allocFail r 4 q2
              | (none, false, s) => s.allocFail r 3 q2

/-! ### Release (R507, R516) -/

/-- The stage that an agent is running for an item-run, if any. -/
def State.runs (s : State) (a slot run stage : Nat) : Bool :=
  s.flit.entries.any (fun e => e.st = .issued && e.engine = a && e.slot = slot && e.run = run && e.stage = stage)

/-- Whether an agent holds a claim of a record (R507). -/
def State.holdsClaim (s : State) (a : Nat) (r : ClaimRec) (c : Claim) : Bool :=
  !c.kept &&
  (match c.stage, r.bound with
  | none, _ => decide (c.agent = a)
  | some st, some (sl, ru) => s.runs a sl ru st
  | some _, none => false)

/-- Drop the first claim that an agent holds in a list. -/
def dropFirst (p : Claim → Bool) : List Claim → List Claim
  | [] => []
  | c :: cs => if p c then cs else c :: dropFirst p cs

/-- Change the first record of a ticket. -/
def mapFirstRec (t : Nat) (f : ClaimRec → ClaimRec) : List ClaimRec → List ClaimRec
  | [] => []
  | r :: rs => if r.ticket = t then f r :: rs else r :: mapFirstRec t f rs

/-- An explicit release of a ticket by an agent (R507). Answers whether it dropped a claim. -/
def State.release (s : State) (a t : Nat) : Bool × State :=
  if t = noTicket then (true, s)
  else
    match s.clok.recs.find? (fun r => r.ticket = t) with
    | none => (false, (s.bump OD.RELEASE_ERRORS).record FaultClass.corrected a 1 OD.RELEASE_ERRORS (s.bufferAddr t) (ticketPool t))
    | some r =>
      if r.claims.any (fun c => s.holdsClaim a r c) then
        (true, State.sweepClaims { s with clok := { s.clok with
          recs := mapFirstRec t (fun r => { r with claims := dropFirst (fun c => s.holdsClaim a r c) r.claims })
            s.clok.recs } })
      else (false, (s.bump OD.RELEASE_ERRORS).record FaultClass.corrected a 1 OD.RELEASE_ERRORS (s.bufferAddr t) (ticketPool t))

/-! ### Firmware requests (R510, R511) -/

/-- The stage that Newel core k runs: slot, run and stage. -/
def State.newelStage (s : State) (k : Nat) : Option (Nat × Nat × Nat) :=
  (s.flit.entries.find? (fun e => e.st = .issued && e.engine = 32 + k)).map (fun e => (e.slot, e.run, e.stage))

/-- A CLK_RESULT word in state DONE (Table CLOK-6). -/
def clkDone (status reason t : Nat) : Nat := 2 * 2 ^ 62 + status * 2 ^ 48 + reason * 2 ^ 40 + t

/-- The request of a CLK_REQUEST word (Table CLOK-5). -/
def State.clkReq (s : State) (k v : Nat) : AllocReq where
  agent := 32 + k
  len := bits v 0 25
  sealFlag := bit v 58
  spill := bit v 59
  set := bits v 51 6
  bound := if bit v 57 then s.newelStage k else none

/-- The CLK_RESULT word of an allocation that has ended (Table CLOK-6). -/
def clkWord : AllocRes → Nat
  | .empty => clkDone 1 0 noTicket
  | .ticket t => clkDone 0 0 t
  | .poolEmpty d => clkDone 7 (bits d 56 8) noTicket

/-- The fit pool of a request (R496). -/
def State.fitPool (s : State) (r : AllocReq) : Option Nat :=
  (s.fitOrder r.sealFlag).find? (fun q => decide (r.len ≤ 2 ^ (s.pool q).szLog))

/-- Whether a request waits for a refill: its fit pool has an empty cache and a ring that holds tickets (R497). -/
def State.allocWaits (s : State) (r : AllocReq) : Bool :=
  decide (r.len ≠ 0) &&
  (match s.fitPool r with
  | none => false
  | some q => (s.pool q).cache = [] && decide ((s.pool q).count ≠ 0))

/-! ### Commits and events -/

/-- POOL_ENABLE changes at a commit (R485 to R487). -/
def State.poolCommit (s : State) (q : Nat) : State :=
  let st := s.rd (OD.POOL_STATE q)
  if s.flag (OD.POOL_ENABLE q) then (if st = 0 then s.poolStart q else s)
  else if st = 2 then
    let s := s.setPool q { s.pool q with cache := [], count := 0, head := 0 }
    let s := { s with clok := { s.clok with
      scrub := s.clok.scrub.map (fun (b : ScrubBuf) => if ticketPool b.ticket = q then { b with back := false } else b) } }
    (s.wr (OD.POOL_STATE q) 3).poolSettle q
  else if st = 1 then
    (s.wr (OD.POOL_STATE q) 3).poolSettle q
  else s

/-- The initial ring fill ends (R485): the tickets in the ring, head 0, count n, READY. -/
def State.poolFillDone (s : State) (q : Nat) : State :=
  if s.rd (OD.POOL_STATE q) ≠ 1 then s
  else
    let p := s.pool q
    let n := min p.buffers p.ringEntries
    let before := s.freeTickets q
    let s := s.setPool q { p with head := 0, count := 0 }
    let s := s.ringWrite q ((List.range n).map (fun i => q * 2 ^ 29 + i))
    ((s.wr (OD.POOL_STATE q) 2).poolChanged q before).poolEvent (16 + q)

/-- The zero-fill of the oldest waiting sealed buffer ends; its ticket returns unless its pool has closed (R509). -/
def State.scrubDone (s : State) : State :=
  match s.clok.scrub with
  | [] => s
  | b :: rest =>
    let q := ticketPool b.ticket
    let s := State.zeroFill { s with clok := { s.clok with scrub := rest } } q b.addr b.len
    if b.back then
      let before := s.freeTickets q
      (s.setPool q { s.pool q with cache := b.ticket :: (s.pool q).cache }).poolChanged q before
    else s

end Sys2Proof.Machine
end

