-- ==== Sys2Proof/Machine/VideoCtx.lean ====
section
/-!
DEFINITION. The contexts of the decoders and the encoder: their states, their events, and what a stopped job leaves
behind (R619, R636, R655, R660 to R662, R680).
-/

namespace Sys2Proof.Machine

/-! ### Decoder contexts -/

/-- A decoder context. -/
def State.decCtx (s : State) (x : Nat) : DecCtx := Sparse.get (fun _ => {}) s.vid.dec x

/-- Store a decoder context. -/
def State.setDecCtx (s : State) (x : Nat) (c : DecCtx) : State :=
  { s with vid := { s.vid with dec := Sparse.put (fun _ => {}) s.vid.dec x c } }

/-- A decoder's job. -/
def State.decJob (s : State) (e : Nat) : Option DecJob := Sparse.get (fun _ => none) s.vid.jobs e

/-- Store or clear a decoder's job. -/
def State.setDecJob (s : State) (e : Nat) (j : Option DecJob) : State :=
  { s with vid := { s.vid with jobs := Sparse.put (fun _ => none) s.vid.jobs e j } }

/-- Context states (Table VDEC-1). -/
abbrev CtxSt.disabled : Nat := 0
abbrev CtxSt.seek : Nat := 1
abbrev CtxSt.decoding : Nat := 2
abbrev CtxSt.resync : Nat := 3

/-- Set a context's bit in DEC_EVENTS; a bit that rises signals vector 11 when DEC_IRQ is 1 (R642). -/
def State.decEvent (s : State) (x : Nat) : State :=
  let was := bit (s.rd OD.DEC_EVENTS) x
  let s := s.setOdBit OD.DEC_EVENTS x true
  if !was && s.flag OD.DEC_IRQ then s.signal false 11 else s

/-- A context changes state; entering SEEK or RESYNC is an event. -/
def State.setCtxSt (s : State) (x st : Nat) : State :=
  if s.rd (OD.CTX_STATE x) = st then s
  else
    let s := s.wr (OD.CTX_STATE x) st
    if st = CtxSt.seek ∨ st = CtxSt.resync then s.decEvent x else s

/-- A DECODING or RESYNC context enters RESYNC (R624, R636). -/
def State.ctxResync (s : State) (x : Nat) : State :=
  if s.rd (OD.CTX_STATE x) = CtxSt.decoding then s.setCtxSt x CtxSt.resync else s

/-- The engine of a context (R615), and whether a job of it runs. -/
def ctxEngine (x : Nat) : Nat := x / 32
def State.ctxBusy (s : State) (x : Nat) : Bool := (s.decJob (ctxEngine x)).any (fun j => j.ctx = x)

/-- A context whose enable is 0 and of which no job runs becomes DISABLED and keeps nothing (R619). -/
def State.decSettle (s : State) (x : Nat) : State :=
  if s.flag (OD.CTX_ENABLE x) ∨ s.rd (OD.CTX_STATE x) = 0 ∨ s.ctxBusy x then s
  else (s.wr (OD.CTX_STATE x) 0).setDecCtx x {}

/-- A commit of a decoder context's objects (R618, R619). -/
def State.decCommit (s : State) (x : Nat) : State :=
  if s.flag (OD.CTX_ENABLE x) ∧ s.rd (OD.CTX_STATE x) = 0 then
    let c : DecCtx := {
      codec := s.rd (OD.CTX_CODEC x), ten := s.rd (OD.CTX_TENANCY x), maxW := s.rd (OD.CTX_MAX_W x)
      maxH := s.rd (OD.CTX_MAX_H x), fsBase := s.rd (OD.FS_BASE x), fsBytes := s.rd (OD.FS_BYTES x)
      fsSlots := s.rd (OD.FS_SLOTS x), mfBase := s.rd (OD.MF_BASE x), mfSlots := s.rd (OD.MF_SLOTS x)
      mfBytes := s.rd (OD.MF_SLOT_BYTES x), outFormat := s.rd (OD.OUT_FORMAT x) }
    (s.setDecCtx x c).setCtxSt x CtxSt.seek
  else s.decSettle x

/-- The spine cycles since an entry was issued count as busy. -/
def State.busySince (s : State) (key issuedAt : Nat) : State := s.bump64 key (s.spineCycles (s.clk.now - issuedAt))

/-- A decoder lets go of a stopped job (R636, R646): no PUSH, no reference updated. -/
def State.decStop (s : State) (e issuedAt : Nat) : State :=
  match s.decJob e with
  | none => s
  | some j =>
    let s := ((s.setDecJob e none).wr (OD.VDEC_ENGINE_STATE e) 0).busySince (OD.VDEC_BUSY_CYCLES e) issuedAt
    (s.ctxResync j.ctx).decSettle j.ctx

/-! ### Encoder contexts -/

/-- An encoder context. -/
def State.encCtx (s : State) (x : Nat) : EncCtx := Sparse.get (fun _ => {}) s.vid.enc x

/-- Store an encoder context. -/
def State.setEncCtx (s : State) (x : Nat) (c : EncCtx) : State :=
  { s with vid := { s.vid with enc := Sparse.put (fun _ => {}) s.vid.enc x c } }

/-- Store or clear the encoder's job. -/
def State.setEncJob (s : State) (j : Option EncJob) : State := { s with vid := { s.vid with job := j } }

/-- Set a context's bit in ENC_EVENTS; a bit that rises signals vector 11 when ENC_IRQ is 1 (R678). -/
def State.encEvent (s : State) (x : Nat) : State :=
  let was := bit (s.rd OD.ENC_EVENTS) x
  let s := s.setOdBit OD.ENC_EVENTS x true
  if !was && s.flag OD.ENC_IRQ then s.signal false 11 else s

/-- STRIDE and P of a source picture. -/
def EncCtx.stride (c : EncCtx) : Nat := alignUp c.w 64
def EncCtx.srcBytes (c : EncCtx) : Nat := c.stride * (c.h + c.h / 2)

/-- VENC's accesses outside a job (R653). -/
def EncCtx.acc (c : EncCtx) : Acc := { agent := 38, ctx := some c.ten }

/-- The ticket is published in SRC_TICKET and, where there is one, in the source word (R660). -/
def State.encPublish (s : State) (x t : Nat) : State :=
  let c := s.encCtx x
  let s := s.wr (OD.SRC_TICKET x) t
  if c.word = 0 then s
  else
    let (r, s) := s.memWrite c.acc c.word (leBytes 8 t)
    s.memRecord c.acc r

/-- The held-source request (R660, R662): whether it succeeded, and its DETAIL if not. -/
def State.encHold (s : State) (x : Nat) : Option Nat × State :=
  let c := s.encCtx x
  match s.alloc ⟨38, c.srcBytes, c.sealSrc, false, c.owners, none⟩ with
  | (.ticket t, s) => (none, s.encPublish x t)
  | (.poolEmpty d, s) => (some d, (s.encPublish x noTicket).encEvent x)
  | (.empty, s) => (none, s)

/-- Whether a job of a context runs. -/
def State.encBusy (s : State) (x : Nat) : Bool := s.vid.job.any (fun j => j.ctx = x)

/-- A context whose enable is 0 and of which no job runs becomes DISABLED: it releases its held source and keeps nothing
(R655). -/
def State.encSettle (s : State) (x : Nat) : State :=
  if s.flag (OD.ENC_ENABLE x) ∨ s.rd (OD.ENC_STATE x) = 0 ∨ s.encBusy x then s
  else
    let t := s.rd (OD.SRC_TICKET x)
    let s := if t = noTicket then s else (s.release 38 t).2
    let s := (s.wr (OD.ENC_STATE x) 0).wr (OD.SRC_TICKET x) noTicket
    ((s.wr (OD.RC_FULLNESS x) 0).wr (OD.LAST_QP x) 0).setEncCtx x {}

/-- A context returns to START with its rate control as at enabling (R655, R674, R682). -/
def State.encStart (s : State) (x : Nat) : State :=
  let c := s.encCtx x
  ((s.setEncCtx x { c with slots := [], order := 0, qpKey := none, qpInter := none, motion := [] }).wr (OD.ENC_STATE x) 1).wr
    (OD.RC_FULLNESS x) (s.rd (OD.RC_BUFFER x) / 2)

/-- A commit of an encoder context's objects (R654, R655, R660). -/
def State.encCommit (s : State) (x : Nat) : State :=
  if s.flag (OD.ENC_ENABLE x) ∧ s.rd (OD.ENC_STATE x) = 0 then
    let c : EncCtx := {
      codec := s.rd (OD.ENC_CODEC x), ten := s.rd (OD.ENC_TENANCY x), w := s.rd (OD.ENC_WIDTH x)
      h := s.rd (OD.ENC_HEIGHT x), refs := s.rd (OD.ENC_REFS x), fsBase := s.rd (OD.ENC_FS_BASE x)
      fsBytes := s.rd (OD.ENC_FS_BYTES x), hold := s.flag (OD.SRC_HOLD x), sealSrc := s.flag (OD.SRC_SEAL x)
      owners := s.rd (OD.SRC_OWNERS x), word := s.rd (OD.SRC_WORD x) }
    let s := (s.setEncCtx x c).encStart x
    if c.hold then (s.encHold x).2 else s
  else s.encSettle x

/-- VENC lets go of a stopped job (R680): nothing of its context changes. -/
def State.encStop (s : State) (issuedAt : Nat) : State :=
  match s.vid.job with
  | none => s
  | some j =>
    (((s.setEncJob none).wr OD.VENC_ENGINE_STATE 0).busySince OD.VENC_BUSY_CYCLES issuedAt).encSettle j.ctx

/-- A reset of VENC (R682): every enabled context starts again, with a new held source where it holds one. Its agent
claims have dropped before. -/
def State.encReset (s : State) : State :=
  foldN 16 (fun s x =>
    if s.rd (OD.ENC_STATE x) = 0 then s
    else
      let s := s.encStart x
      if (s.encCtx x).hold then (s.encHold x).2 else s) s

end Sys2Proof.Machine
end

