-- ==== Sys2Proof/Machine/Stops.lean ====
section
/-!
DEFINITION. How an engine lets go of a stage that is stopped (R277, R433, R572, R583, R593): a core, a scaler, a decoder
or encoder, and what each leaves behind. Agents and their domains stand here too.
-/

namespace Sys2Proof.Machine

/-- The power domain of an agent (Table TOUR-1). -/
def agentDomain (a : Nat) : Nat :=
  if a < 32 then 2 + a / 4 else if a < 36 then 1 else if a = 36 then 18 else if a = 37 then 19 else if a = 38 then 20
  else if a = 39 then 22 else if a < 48 then 21 else if a < 64 then 26 else if a < 66 then 0
  else if a = 66 ∨ a = 68 then 27 else 1

/-- A Newel core's record. -/
def State.newel (s : State) (k : Nat) : Newel := Sparse.get (fun _ => {}) s.newels k

/-- Store a Newel core's record. -/
def State.setNewel (s : State) (k : Nat) (n : Newel) : State :=
  { s with newels := Sparse.put (fun _ => {}) s.newels k n }

/-- Whether the debug port holds an agent halted (DBG_HALTED). -/
def State.halted (s : State) (a : Nat) : Bool :=
  if a < 32 then (s.core a).st = .halted else if a < 36 then (s.newel (a - 32)).halted else false

/-- A core goes idle: its DMA queue and its array work are abandoned, its stage's marks end; the weight tiles stay
(R277, R424, R433). -/
def Core.letGo (c : Core) : Core :=
  { c with
    st := .idle, mmas := [], dmaq := [], running := none, emptyMark := false, sealed := false, emitter := false
    plan := [], tiled := false, wasParked := false, stopped := false }

/-! ### The packer's side of a stop -/

/-- The packer's own accesses: agent 64 under the stream's context (R602). -/
def Stream.acc (t : Stream) : Acc := { agent := 64, ctx := some t.ctx, port := some 38 }

/-- The address of a stream's slot (R591). -/
def Stream.slotBase (t : Stream) (slot : Nat) : Nat := t.base + slot * t.slotBytes

/-- A write of the packer; one that fails acts for no item and is recorded (R80). -/
def State.packWrite (s : State) (t : Stream) (a : Nat) (bs : List Byte) : State :=
  let (r, s) := s.memWrite t.acc a bs
  s.memRecord t.acc r

/-- Write a segment's table entry (Table VEST-5). -/
def State.writeSegEntry (s : State) (t : Stream) (slot g : Nat) (x : Segment) : State :=
  s.packWrite t (t.slotBase slot + t.tableBase + 16 * g)
    (leBytes 4 x.sample ++ leBytes 2 x.row ++ leBytes 2 x.start ++ leBytes 2 x.len ++ leBytes 2 (b2n x.void) ++
     leBytes 4 0)

/-- Every segment reserved in a batch has completed or been voided (R595). -/
def Batch.settled (b : Batch) : Bool := b.segs.all (fun x => x.done || x.void)

/-- A closed batch whose segments are settled enters the batch queue, after its header (R595). -/
def State.enqueueBatch (s : State) (k : Nat) (b : Batch) : State :=
  let t := s.stream k
  let hdr := leBytes 4 b.seq ++ leBytes 2 b.rows ++ leBytes 2 b.segs.length ++
    leBytes 1 (b2n t.sealed + 2 * b.flags) ++ zeros 3 ++ leBytes 4 b.epoch ++ zeros 48
  let s := s.packWrite t (t.slotBase b.slot) hdr
  let s := s.bump (OD.BATCHES k)
  s.setStream k { s.stream k with waiting := (s.stream k).waiting ++ [b.slot] }

/-- Move every settled closed batch of a stream into the queue, oldest first. -/
def State.flushClosed (s : State) (k : Nat) : State :=
  let t := s.stream k
  let ready := t.closed.filter (·.settled)
  let s := s.setStream k { t with closed := t.closed.filter (fun b => !b.settled) }
  ready.foldl (fun s b => s.enqueueBatch k b) s

/-- The open batch closes with header flags `flags` (1 FULL, 2 FLUSH, 4 LINGER; R594). -/
def State.closeBatch (s : State) (k flags : Nat) : State :=
  let t := s.stream k
  match t.opened with
  | none => s
  | some b =>
    let b := { b with flags := flags, epoch := s.tick.epoch.toNat }
    (s.setStream k { t with opened := none, closed := t.closed ++ [b] }).flushClosed k

/-- Change segment g of a batch. -/
def Batch.setSeg (b : Batch) (g : Nat) (f : Segment → Segment) : Batch :=
  { b with segs := b.segs.zipIdx.map (fun e => if e.2 = g then f e.1 else e.1) }

/-- Change a segment of the batch with a sequence number, open or closed. -/
def State.setSegment (s : State) (k q g : Nat) (f : Segment → Segment) : State :=
  let t := s.stream k
  s.setStream k { t with
    opened := t.opened.map (fun b => if b.seq = q then b.setSeg g f else b)
    closed := t.closed.map (fun b => if b.seq = q then b.setSeg g f else b) }

/-- The batch of a stream with a sequence number. -/
def Stream.batch (t : Stream) (q : Nat) : Option Batch :=
  match t.opened with
  | some b => if b.seq = q then some b else t.closed.find? (fun b => b.seq = q)
  | none => t.closed.find? (fun b => b.seq = q)

/-- A segment whose job stops is voided (R593). -/
def State.voidSegment (s : State) (k q g : Nat) : State :=
  let s := s.setSegment k q g (fun x => { x with void := true })
  let s := match (s.stream k).batch q with
    | some b => (match b.segs[g]? with
      | some x => s.writeSegEntry (s.stream k) b.slot g x
      | none => s)
    | none => s
  (s.bump (OD.PK_VOIDS k)).flushClosed k

/-- A scaler's job. -/
def State.scalerJob (s : State) (k : Nat) : Option ScalerJob := Sparse.get (fun _ => none) s.vest.jobs k

/-- Store or clear a scaler's job. -/
def State.setScalerJob (s : State) (k : Nat) (j : Option ScalerJob) : State :=
  { s with vest := { s.vest with jobs := Sparse.put (fun _ => none) s.vest.jobs k j } }

/-- A scaler releases its source on its way out (R572): RELEASE_SRC is FLAGS[3]. -/
def State.scalerRelease (s : State) (k : Nat) (j : ScalerJob) : State :=
  match j.ticket with
  | some t => if bit (ofLe (j.desc.drop 2 |>.take 2)) 3 then (s.release (40 + k) t).2 else s
  | none => s

/-- A scaler's job is abandoned: its segment voided, its source released, no PUSH (R583, R593). -/
def State.scalerStop (s : State) (k : Nat) : State :=
  match s.scalerJob k with
  | none => s
  | some j =>
    let s := match j.seg with
      | some (q, g) => s.voidSegment (ofLe (j.desc.drop 0x1F |>.take 1)) q g
      | none => s
    ((s.scalerRelease k j).setScalerJob k none).wr (OD.SCALER_STATE k) 0

/-! ### Engines -/

/-- An engine lets go of a stopped stage. A halted core keeps its state, its locks and its claims until it is resumed
(R259, R300, R523); every other engine drops its locks and its parked operation (R234, R235). -/
def State.engineStop (s : State) (e : Entry) : State :=
  if s.halted e.engine then
    let s := s.dropStageClaims e.slot e.run e.stage (some e.engine)
    if e.engine < 32 then s.setCore e.engine { s.core e.engine with stopped := true }
    else s.setNewel (e.engine - 32) { s.newel (e.engine - 32) with stopped := true }
  else
    let s := s.dropLocks e.engine
    let s :=
      if e.engine < 32 then s.setCore e.engine (s.core e.engine).letGo
      else if e.engine < 36 then s.setNewel (e.engine - 32) { s.newel (e.engine - 32) with sealed := false }
      else if e.engine < 38 then s.decStop (e.engine - 36) e.issuedAt
      else if e.engine = 38 then s.encStop e.issuedAt
      else if 40 ≤ e.engine ∧ e.engine < 48 then s.scalerStop (e.engine - 40)
      else s
    s.dropStageClaims e.slot e.run e.stage none

end Sys2Proof.Machine
end

