-- ==== Sys2Proof/Machine/Items.lean ====
section
/-!
DEFINITION. Items from their slots to their records (chapter 06, R160 to R212, R726 to R730, R1019 to R1022): completion
records, wedges, the lost-item list, parts of layers, lane queues, arming and release, stopping and closing.
-/

namespace Sys2Proof.Machine

/-! ### Statuses (Table FALT-4) -/

abbrev Status.ok : Nat := 0
abbrev Status.empty : Nat := 1
abbrev Status.late : Nat := 2
abbrev Status.window : Nat := 3
abbrev Status.ecc : Nat := 4
abbrev Status.concealed : Nat := 5
abbrev Status.resetFlush : Nat := 6
abbrev Status.poolEmpty : Nat := 7
abbrev Status.sealed : Nat := 8
abbrev Status.stageFault : Nat := 9
abbrev Status.wedged : Nat := 10
abbrev Status.badDescriptor : Nat := 11
abbrev Status.imageAbsent : Nat := 12

/-! ### Slots, tenancies, layers -/

/-- An item slot. -/
def State.item (s : State) (i : Nat) : Item := Sparse.get (fun _ => {}) s.flit.slots i

/-- Store an item slot. -/
def State.setItem (s : State) (i : Nat) (x : Item) : State :=
  { s with flit := { s.flit with slots := Sparse.put (fun _ => {}) s.flit.slots i x } }

/-- A tenancy's ring engine. -/
def State.tenancy (s : State) (t : Nat) : Tenancy := Sparse.get (fun _ => {}) s.host.tens t

/-- Store a tenancy's ring engine. -/
def State.setTenancy (s : State) (t : Nat) (x : Tenancy) : State :=
  { s with host := { s.host with tens := Sparse.put (fun _ => {}) s.host.tens t x } }

/-- The occupied slots (R172, SLOTS_IN_USE). -/
def State.slotsInUse (s : State) : Nat := (s.flit.slots.filter (fun e => e.2.st ≠ .free)).length

/-- The occupied slots of a tenancy. -/
def State.slotsHeld (s : State) (t : Nat) : Nat :=
  (s.flit.slots.filter (fun e => e.2.st ≠ .free && e.2.ten = t)).length

/-- The lowest-numbered free slot (R269). -/
def State.freeSlot (s : State) : Option Nat := (List.range 1024).find? (fun i => (s.item i).st = .free)

/-- Items naming an image slot in ADMITTED, RUNNING or STOPPING (IMG_ITEMS). -/
def State.imgItems (s : State) (i : Nat) : Nat :=
  (s.flit.slots.filter (fun e =>
    (e.2.st = .admitted || e.2.st = .running || e.2.st = .stopping) && e.2.image = i)).length

/-- Background items RUNNING (BG_RUNNING). -/
def State.bgRunning (s : State) : Nat := (s.flit.slots.filter (fun e => e.2.st = .running && e.2.bg)).length

/-- A tenancy changes state and signals its state vector (R190). -/
def State.setTenSt (s : State) (t : Nat) (st : TenSt) : State :=
  if (s.tenancy t).st = st then s
  else (s.setTenancy t { s.tenancy t with st := st }).signalTen t 2

/-- A tenancy becomes ACTIVE: heads, tail and phase restart and its ring objects are latched (R160, R161); records not yet
signalled stay so (R191). Both doorbells restart at 0 with the heads (DESIGN CHOICE, notes/assumptions/35.md). -/
def State.tenActivate (s : State) (t : Nat) : State :=
  let x : Tenancy := {
    st := .active
    unsignalled := (s.tenancy t).unsignalled
    unsigSince := (s.tenancy t).unsigSince
    sqBase := s.rd (OD.SQ_BASE t)
    sqSize := s.rd (OD.SQ_SIZE t)
    cqBase := s.rd (OD.CQ_BASE t)
    cqSize := s.rd (OD.CQ_SIZE t) }
  (s.setTenancy t x).signalTen t 2

/-- A DRAINING tenancy without occupied slots becomes DISABLED, and ACTIVE again if it is enabled (R162, R163). -/
def State.tenSettle (s : State) (t : Nat) : State :=
  if (s.tenancy t).st = .draining ∧ s.slotsHeld t = 0 ∧ (s.tenancy t).fetching = [] then
    let s := s.setTenSt t .disabled
    if s.flag (OD.TEN_ENABLE t) then s.tenActivate t else s
  else s

/-- An image slot becomes ABSENT: its objects but IMG_TENANTS return to their defaults (R332). -/
def State.imgAbsent (s : State) (i : Nat) : State :=
  let base := 0x421000 + 256 * i
  let s := { s with
    od := Sparse.clear (fun k => decide (base ≤ k ∧ k < base + 256) && decide (k ≠ OD.IMG_TENANTS i)) s.od
    odb := Sparse.clear (fun k => decide (base ≤ k ∧ k < base + 256)) s.odb }
  { s with ldr := { s.ldr with images := Sparse.put (fun _ => {}) s.ldr.images i {} } }

/-- A RETIRING slot whose last item has ended becomes ABSENT and fires vector 5 (R315, R317). -/
def State.imgSettle (s : State) (i : Nat) : State :=
  if s.rd (OD.IMG_STATE i) = 3 ∧ s.imgItems i = 0 then (s.imgAbsent i).signal false 5 else s

/-- Every image slot settles. -/
def State.imgSettleAll (s : State) : State := foldN 16 (fun s i => s.imgSettle i) s

/-! ### The slot mirror and the lost-item list (R1019 to R1022) -/

/-- Write or clear a slot's mirror entry. -/
def State.setMirror (s : State) (i : Nat) (m : Option Mirror) : State :=
  { s with falt := { s.falt with mirror := Sparse.put (fun _ => none) s.falt.mirror i m } }

/-- Make a slot's lost-item entry from its mirror (R1022). An item not yet admitted carries the epoch counter. -/
def State.loseSlot (s : State) (i status cause : Nat) : State :=
  match Sparse.get (fun _ => none) s.falt.mirror i with
  | none => s
  | some m =>
    let epoch := if bit m.flags 1 then s.tick.epoch.toNat else m.epoch
    let s := s.setMirror i none
    if 1024 ≤ s.falt.lost.length then s.bump OD.LOST_OVERFLOW
    else { s with falt :=
      { s.falt with
        lost := s.falt.lost ++ [⟨m.tag, epoch, i, m.ten, status, cause, m.flags⟩]
        lostFresh := s.falt.lostFresh + 1 } }

/-- The occupied slots, by tenancy and then slot (R1022). -/
def State.lostOrder (s : State) : List Nat :=
  (List.range 16).flatMap (fun t => (s.falt.mirror.filter (fun e =>
    match e.2 with | some m => m.ten = t | none => false)).map (·.1))

/-! ### Records (R179 to R181, R191) -/

/-- The bytes of a completion record (Table HOST-9). -/
def recordBytes (tag status flags slot epoch finish out fstage fagent sqHead detail : Nat) : List Byte :=
  leBytes 4 tag ++ leBytes 1 status ++ leBytes 1 flags ++ leBytes 2 slot ++ leBytes 4 epoch ++ leBytes 4 finish ++
  leBytes 4 out ++ leBytes 1 fstage ++ leBytes 1 fagent ++ leBytes 2 sqHead ++ leBytes 8 detail

/-- A record joins the unsignalled ones; the completion vector is signalled when R191 says so. -/
def State.countRecord (s : State) (t : Nat) (now : Bool) : State :=
  let x := s.tenancy t
  let n := x.unsignalled + 1
  if now || decide (s.rd (OD.CQ_IRQ_COUNT t) ≤ n) then
    (s.setTenancy t { x with unsignalled := 0 }).signalTen t 0
  else s.setTenancy t { x with unsignalled := n, unsigSince := if x.unsignalled = 0 then s.clk.now else x.unsigSince }

/-- Whether the host answers a bus range without error, and the cause if not. -/
def State.hostRange (s : State) (bus : Nat) : Nat → Option Nat
  | 0 => none
  | n + 1 =>
    match s.hostCause bus with
    | some c => some c
    | none => State.hostRange s (bus + 1) n

/-- How the write of a record ended. -/
inductive RecordRes where
  | written
  | failed
  | unsent
  deriving DecidableEq, Repr

/-- Records of tenancy t can be sent to the host. -/
def State.recordsGo (s : State) (t : Nat) : Bool :=
  ((s.tenancy t).st = .active || (s.tenancy t).st = .draining) && s.linkUp && s.host.pf1.bme && s.powered 26

/-- The ring engine writes a slot's record to its tenancy's CQ (R180). `slotNo` is 0xFFFF for NOP and BAD_DESCRIPTOR
records, whose epoch is the counter and whose finish time is 0 (Table HOST-9). FINISH_TIME runs to the edge on which the status
was fixed (R282); OUT_BYTES is the sum modulo 2^32 (DESIGN CHOICE, notes/assumptions/37.md). -/
def State.writeRecord (s : State) (i : Nat) (plain : Bool) : RecordRes × State :=
  let it := s.item i
  let t := it.ten
  let x := s.tenancy t
  if !s.recordsGo t then (.unsent, s)
  else
    let a := x.cqBase + 32 * x.cqTail
    if (s.hostRange a 32).isSome then (.failed, s)
    else
      let synth := it.status = Status.late && s.tick.lastSynth
      let flags := b2n x.phase + 2 * b2n synth + 4 * b2n it.bg
      let epoch := if plain then s.tick.epoch.toNat else it.epoch.toNat
      let finish := if plain then 0 else min (it.fixedAt - it.began) 0xFFFFFFFF
      let bs := recordBytes it.tag it.status flags (if plain then 0xFFFF else i) epoch finish
        (it.outBytes % 2 ^ 32) it.faultStage it.faultAgent x.sqHead it.detail
      let s := s.setHostBytes a bs
      let tail := (x.cqTail + 1) % x.cqSize
      let s := s.setTenancy t { x with cqTail := tail, cqUsed := x.cqUsed + 1, phase := if tail = 0 then !x.phase else x.phase }
      (.written, s.countRecord t it.irqNow)

/-- A slot is freed: its mirror clears, its image and its tenancy may settle (R269, R317, R162, R1019). -/
def State.freeItem (s : State) (i : Nat) : State :=
  let it := s.item i
  let s := { (s.setItem i {}) with flit := { (s.setItem i {}).flit with
    admission := s.flit.admission.filter (· ≠ i)
    entries := s.flit.entries.filter (fun e => e.slot ≠ i) } }
  (((s.setMirror i none).dropItemClaims i).imgSettle it.image).tenSettle it.ten

/-! ### Parts of layers (R726 to R730) -/

/-- The run of a layer in the epoch in progress. -/
def State.layer (s : State) (l : Nat) : LayerRun := Sparse.get (fun _ => {}) s.ledg.cur.layers l

/-- Store the run of a layer in the epoch in progress. -/
def State.setLayer (s : State) (l : Nat) (x : LayerRun) : State :=
  { s with ledg := { s.ledg with cur := { s.ledg.cur with layers := Sparse.put (fun _ => {}) s.ledg.cur.layers l x } } }

/-- The layer and part index of an item's slot (R726). -/
def State.partOf (s : State) (i : Nat) : Option (Nat × Nat) :=
  match (s.item i).layer with
  | none => none
  | some l => ((s.layer l).items.find? (fun e => e.1 = i)).map (fun e => (l, e.2))

/-- The first byte of a range that lies outside a mapped window of tenancy t, with its cause (R730). -/
def State.badWindowByte (s : State) (t a : Nat) : Nat → Option (Nat × Nat)
  | 0 => none
  | n + 1 =>
    let slot := (a - windowBase) / 0x40000000
    let o := (a - windowBase) % 0x40000000
    if a < windowBase ∨ windowEnd ≤ a then some (a, 1)
    else if slot / 64 ≠ t then some (a, 3)
    else if s.rd (OD.WIN_LENGTH t (slot % 64)) ≤ o then some (a, 1)
    else State.badWindowByte s t (a + 1) n

/-- The check of an item's part (R730): the status and DETAIL that refuse it, if any. -/
def State.partCheck (s : State) (i : Nat) : Option (Nat × Nat) :=
  match s.partOf i with
  | none => none
  | some (l, _) =>
    let it := s.item i
    match s.firstSealed it.output it.partBytes with
    | some a => some (Status.sealed, sealedDetail 4 a)
    | none =>
      if windowBase ≤ it.output ∧ it.output < windowEnd then
        (s.badWindowByte (s.layer l).cfg.ten it.output it.partBytes).map
          (fun e => (Status.window, windowDetail e.1 e.2))
      else none

/-- The ready layer of an epoch whose copy comes next: the earliest ready, the lowest layer among those (R735). -/
def BundleEpoch.nextCopy (e : BundleEpoch) : Option Nat :=
  ((e.layers.filterMap (fun x =>
    match x.2.ready with
    | some r => if x.2.copy = .idle ∧ x.2.fixed = none then some (r, x.1) else none
    | none => none)).foldl (fun b x =>
      match b with
      | none => some x
      | some y => if x.1 < y.1 then some x else some y) none).map (·.2)

/-- A copy of an epoch's layers runs. -/
def BundleEpoch.copying (e : BundleEpoch) : Bool := e.layers.any (fun x => x.2.copy = .running)

/-- Change a layer of an epoch. -/
def BundleEpoch.set (e : BundleEpoch) (l : Nat) (x : LayerRun) : BundleEpoch :=
  { e with layers := Sparse.put (fun _ => {}) e.layers l x }

/-- A layer of an epoch. -/
def BundleEpoch.layer (e : BundleEpoch) (l : Nat) : LayerRun := Sparse.get (fun _ => {}) e.layers l

/-- The copy of an epoch's next layer starts, if there is one. -/
def BundleEpoch.copyNext (e : BundleEpoch) : BundleEpoch :=
  match e.nextCopy with
  | none => e
  | some l => e.set l { e.layer l with copy := .running }

/-- One copy at a time: the next one starts when none runs, in the epoch being published before the one in progress,
whose copies begin with its sweep (R49, R735). -/
def State.copyNext (s : State) : State :=
  let publishing := match s.ledg.pub with
    | some e => e.copying || e.nextCopy.isSome
    | none => false
  if s.ledg.cur.copying then s
  else if publishing then
    { s with ledg := { s.ledg with pub := s.ledg.pub.map (fun e => if e.copying then e else e.copyNext) } }
  else if s.tick.swept then { s with ledg := { s.ledg with cur := s.ledg.cur.copyNext } }
  else s

/-- A part settles as its item closes; the layer is ready when its settled parts reach LAYER_PARTS (R727, R728). An
item that closes at step 3 settles none. -/
def State.settlePart (s : State) (i : Nat) : State :=
  let it := s.item i
  match s.partOf i with
  | none => s
  | some (l, p) =>
    if it.status = Status.late then s
    else
      let x := s.layer l
      let ok := it.status = Status.ok || it.status = Status.empty || it.status = Status.concealed
      let ref := if windowBase ≤ it.output ∧ it.output < windowEnd then
          some (s.rd (OD.WIN_BASE x.cfg.ten ((it.output - windowBase) / 0x40000000 % 64)) +
            (it.output - windowBase) % 0x40000000)
        else none
      let part : Part := ⟨p, it.tag, it.status, ok, ref, it.output, it.partBytes⟩
      let x := { x with parts := x.parts ++ [part], items := x.items.filter (fun e => e.1 ≠ i) }
      if x.parts.length = x.cfg.parts ∧ x.ready = none then
        (s.setLayer l { x with ready := some s.clk.now }).copyNext
      else s.setLayer l x

/-! ### DONE_LANDING (R244) -/

/-- The host link signals a landing under a tenancy's agent and context: ADD of 1, SET or ARRIVE by mode; a LOCK is an
operation error, and a landing outside the range is treated as unmapped (R230, R242). -/
def signalOp (mode : Nat) : LandOp := if mode = 1 then .set else if mode = 3 then .arrive else .add 1
def State.signalLanding (s : State) (agent : Fin 70) (ctx : Option (Fin 16)) (L : Nat) : Bool × State :=
  match s.landOp ⟨agent, ctx⟩ L (signalOp (modeOf (s.landRaw L))) 0 with
  | (some .done, s) => (true, s)
  | (_, s) => (false, s)

/-- An item ends and its DONE_LANDING is signalled, unless its status is BAD_DESCRIPTOR or RESET_FLUSH. -/
def State.signalDone (s : State) (i : Nat) : State :=
  let it := s.item i
  match it.done with
  | none => s
  | some L =>
    if it.status = Status.badDescriptor ∨ it.status = Status.resetFlush then s
    else
      let t := it.ten % 16
      let (ok, s) := s.signalLanding (Fin.ofNat 70 (48 + t)) (some (Fin.ofNat 16 t)) L
      if ok then s else s.record FaultClass.item (48 + t) 1 OD.OP_ERRORS (landAddr L (signalOp (modeOf (s.landRaw L)))) L

/-! ### Arming and release (R271, R276) -/

/-- The matrix cores that an entry's engine covers: a pair covers two. -/
def Entry.covers (e : Entry) (a : Nat) : Bool := e.engine = a || (e.dh && decide (a = e.engine + 1))

/-- Two entries are served by overlapping engines. -/
def Entry.shares (e f : Entry) : Bool := e.covers f.engine || f.covers e.engine

/-- An entry precedes another of its lane queue (R270). -/
def Entry.before (a b : Entry) : Bool := decide (a.seq < b.seq) || (a.seq = b.seq && decide (a.run < b.run))

/-- An entry is the head of its lane queue. -/
def State.isHead (s : State) (e : Entry) : Bool :=
  !(s.flit.entries.any (fun f => f.flight = e.flight && f.stage = e.stage && f.lane = e.lane && f.before e))

/-- A background entry is armed only while no ticked RUNNING item has an entry in a queue of its engine (R276). -/
def State.bgMayArm (s : State) (e : Entry) : Bool :=
  !e.bg || !(s.flit.entries.any (fun f => !f.bg && f.shares e))

/-- Change the entry that is the same as e. -/
def State.mapEntry (s : State) (e : Entry) (f : Entry → Entry) : State :=
  { s with flit := { s.flit with entries := s.flit.entries.map (fun x => if x.same e then f x else x) } }

/-- The stage before e's in its run has completed. -/
def State.predDone (s : State) (e : Entry) : Bool :=
  e.stage = 0 || !(s.flit.entries.any (fun f => f.slot = e.slot && f.run = e.run && f.stage + 1 = e.stage))

/-- Arm one entry that may be armed, and release it if its landing is satisfied or it has none to wait for (R225,
R271). -/
def State.armEntry (s : State) (e : Entry) : State :=
  match s.flit.entries.find? (fun x => x.same e) with
  | none => s
  | some e =>
    let s :=
      if e.st = .queued && s.isHead e && s.bgMayArm e then
        let gen := match e.gate with | some L => genOf (s.landRaw L) | none => 0
        let s := s.mapEntry e (fun x => { x with st := .armed, gen := gen, parked := s.land.parks })
        match e.gate with
        | none => s
        | some L =>
          if modeOf (s.landRaw L) = 2 then (if bit (s.landRaw L) 0 then s else (s.landGrant L).1)
          else (s.landEvaluate L).1
      else s
    match s.flit.entries.find? (fun x => x.same e) with
    | none => s
    | some e => if e.st = .armed && e.gate = none && s.predDone e then s.releaseEntry e else s

/-- Armed entries have taken the present place in the order of parking: the next comes after it (R237). -/
def State.nextPark (s : State) : State :=
  if s.flit.entries.any (fun e => e.st = .armed && e.gate.isSome && e.parked = s.land.parks) then
    { s with land := { s.land with parks := s.land.parks + 1 } }
  else s

/-- The dispatcher arms and releases what it may. -/
def State.armAll (s : State) : State := (s.flit.entries.foldl (fun s e => s.armEntry e) s).nextPark

/-! ### Entering RUNNING (R267, R270) -/

/-- LANES, ENGINE, DH and the gate of a stage word (Table FLIT-1). -/
def stageLanes (w : Nat) : Nat := bits w 17 3 + 1
def stageEntry (it : Item) (slot run stage w : Nat) : Entry :=
  let lane := it.ordinal % stageLanes w
  let dh := bit w 16
  { slot := slot, run := run, stage := stage, lane := lane
    engine := bits w 0 7 + lane * (if dh then 2 else 1)
    dh := dh
    gate := if bit w 23 then some (bits w 24 16 + lane) else none
    flight := it.flight, bg := it.bg, prio := it.prio, seq := it.seq, mapEntry := bits w 40 8 }

/-- An item enters RUNNING: one entry per run in the queue of its lane of every stage. -/
def State.enterRunning (s : State) (i : Nat) : State :=
  let it := s.item i
  let es := (List.range it.runs).flatMap (fun r => it.stages.zipIdx.map (fun w => stageEntry it i r w.2 w.1))
  let s := s.setItem i { it with st := .running }
  State.armAll { s with flit := { s.flit with entries := s.flit.entries ++ es } }

/-- The ADMITTED background item of lowest admission sequence. -/
def State.nextBackground (s : State) : Option Nat :=
  ((s.flit.slots.filter (fun e => e.2.st = .admitted && e.2.bg)).foldl (fun r e =>
    match r with
    | none => some e
    | some x => if e.2.seq < x.2.seq then some e else some x) none).map (·.1)

/-- Background items run while fewer than BG_ACTIVE_LIMIT do (R286), and none once a reset is ordered (R875). -/
def State.startBackground : Nat → State → State
  | 0, s => s
  | n + 1, s =>
    if s.rd OD.BG_ACTIVE_LIMIT ≤ s.bgRunning ∨ s.rd OD.RESET_STATE ≠ 0 then s
    else
      match s.nextBackground with
      | none => s
      | some i => State.startBackground n (s.enterRunning i)

/-! ### Wedges (R196 to R199, R1021) -/

/-- The lowest run with an entry left, and its lowest stage. -/
def State.progress (s : State) (i : Nat) : Nat × Nat :=
  let es := s.flit.entries.filter (fun e => e.slot = i)
  match es with
  | [] => (s.item i).reached
  | e :: rest =>
    let r := rest.foldl (fun m x => min m x.run) e.run
    (r, (es.filter (fun x => x.run = r)).foldl (fun m x => min m x.stage) 31)

/-- A lock that a gated entry was granted before it issued is released abandoned with its entry (R234, R255). -/
def State.dropGrant (s : State) (e : Entry) : State :=
  match e.gate with
  | some L =>
    if e.st = .released && heldOf (s.landRaw L) && decide (agentOf (s.landRaw L) = e.engine) then s.landAbandon L else s
  | none => s

/-- An item's entries leave the lane queues; the engines that run its stages let go, and locks granted to stages that had not
issued are released. -/
def State.dropEntries (s : State) (i : Nat) : State :=
  let es := s.flit.entries.filter (fun e => e.slot = i)
  let s := s.setItem i { s.item i with reached := s.progress i }
  let s := { s with flit := { s.flit with entries := s.flit.entries.filter (fun e => e.slot ≠ i) } }
  let s := (es.filter (fun e => e.st = .issued)).foldl (fun s e => s.engineStop e) s
  es.foldl (fun s e => s.dropGrant e) s

/-- A tenancy becomes WEDGED with a cause: it fetches nothing more, its items are aborted, each slot gets a lost-item entry and is freed, one
TENANCY record is written, and the tenancy's state vector and PF0 vector 1 are signalled. -/
def State.wedge (s : State) (t cause : Nat) : State :=
  if (s.tenancy t).st = .wedged then s
  else
    let slots := (s.flit.slots.filter (fun e => e.2.st ≠ .free && e.2.ten = t)).map (·.1)
    let s := if cause ≤ 2 then s.bump OD.UNCORR_ERRORS else s
    let s := (s.setTenSt t .wedged).wr (OD.WEDGE_CAUSE t) cause
    let s := s.setTenancy t { s.tenancy t with fetching := [] }
    let s := slots.foldl (fun s i =>
      let s := s.setItem i { s.item i with status := Status.wedged, faultStage := 0xFF, faultAgent := 0xFF, detail := 0 }
      let s := s.dropEntries i
      let s := (s.settlePart i).signalDone i
      (s.loseSlot i Status.wedged cause).freeItem i) s
    let s := s.logFault ⟨0, FaultClass.tenancy, 48 + t, 2 * 32 + t, 26, OD.WEDGE_CAUSE t, 0xFF, cause, slots.length⟩
    (s.signal false 1).armAll.startBackground 1024

/-! ### Closing (R269, R279, R282) -/

/-- A slot whose status is fixed closes: the part settles, DONE_LANDING is signalled, the record is written and the slot freed. A
record that cannot be sent leaves its slot CLOSING for the reset that follows (R201); one that the host refuses wedges
the tenancy (R196). -/
def State.closeItem (s : State) (i : Nat) : State :=
  let it := s.item i
  let s := s.setItem i { it with st := .closing }
  let s := s.traceFlight i 0 0 5 it.faultAgent it.flight it.status
  let s := (s.settlePart i).signalDone i
  match s.writeRecord i false with
  | (.written, s) => (s.freeItem i).armAll.startBackground 1024
  | (.failed, s) => s.wedge it.ten 2
  | (.unsent, s) => (s.dropItemClaims i).imgSettle it.image

/-- A NOP or a refused descriptor closes with its record alone (R174). -/
def State.closePlain (s : State) (i : Nat) : State :=
  match s.writeRecord i true with
  | (.written, s) => s.freeItem i
  | (.failed, s) => s.wedge (s.item i).ten 2
  | (.unsent, s) => s

/-- The object that an item's ITEM or STAGE record names: the counter that the event counts in (Table FALT-2). -/
def statusObject (status detail t : Nat) : Nat :=
  if status = Status.window then OD.WINDOW_FAULTS t
  else if status = Status.ecc then
    (if bits detail 56 8 = 1 then OD.GALL_UNCORRECTABLE else if bits detail 56 8 = 3 then OD.DMEM_UNCORRECTABLE else 0)
  else if status = Status.poolEmpty then OD.POOL_EMPTIES
  else if status = Status.sealed then OD.SEALED_FAILS
  else OD.STAGE_FAULTS

/-- The record of an item's abnormal status (R280, R1007, R1013): class STAGE for STAGE_FAULT, else ITEM. `words` are
the exception words of a stage ended by cause 0x09. -/
def State.itemRecord (s : State) (i : Nat) (words : Option (Nat × Nat)) : State :=
  let it := s.item i
  let wb := it.tag * 2 ^ 32 + i * 2 ^ 22 + it.flight * 2 ^ 16 + it.faultStage * 2 ^ 8
  let cls := if it.status = Status.stageFault then FaultClass.stage else FaultClass.item
  let dom := if it.faultAgent < 70 then agentDomain it.faultAgent else 0xFF
  let (wa, wb) := match words with | some w => w | none => (it.detail, wb)
  s.logFault ⟨0, cls, it.faultAgent, it.ten, dom, statusObject it.status it.detail it.ten, it.status, wa, wb⟩

/-- Counters that a closing status adds to. -/
def State.countStatus (s : State) (status : Nat) : State :=
  if status = Status.late then s.bump OD.LATE_ITEMS
  else if status = Status.stageFault then s.bump OD.STAGE_FAULTS
  else if status = Status.imageAbsent then s.bump OD.IMAGE_ABSENTS
  else if status = Status.badDescriptor then s
  else if status = Status.sealed then s.bump OD.SEALED_FAILS
  else s

/-- An item stops at its first stopping cause (R277, R278): its status, stage, agent and DETAIL are fixed, its record
of class ITEM or STAGE is written, its entries leave the queues and it is STOPPING until its engines have let go. On the
boundary cycle of a ticked item's epoch the cause loses to step 3: its fault record alone is written, and the item closes LATE
(R296). -/
def State.stopItem (s : State) (i status stage agent detail : Nat) (words : Option (Nat × Nat)) : State :=
  let it := s.item i
  let hit : Item := { it with
    st := .stopping, status := status, faultStage := stage, faultAgent := agent, detail := detail, fixedAt := s.clk.now }
  if !(it.st = .running || it.st = .admitted) then s
  else if !it.bg && s.boundaryAhead then
    ((((s.setItem i hit).itemRecord i words).countStatus status)).setItem i it
  else
    let s := s.setItem i hit
    let s := (s.itemRecord i words).countStatus status
    let s := s.traceFlight i (min stage 31) (bits detail 8 8) 4 agent it.flight status
    let letting := (s.flit.entries.filter (fun e => e.slot = i && e.st = .issued)).map (fun e => (e.engine, i))
    let s := s.dropEntries i
    (State.armAll { s with flit := { s.flit with letting := s.flit.letting ++ letting } }).startBackground 1024

/-- DETAIL of a STAGE_FAULT (Table FLIT-6). -/
def faultDetail (cause run addr : Nat) : Nat := cause + run * 2 ^ 8 + (if cause = 4 then addr % 2 ^ 48 * 2 ^ 16 else 0)

/-- A stage faults with a cause of Table FLIT-6. -/
def State.stageFault (s : State) (e : Entry) (cause addr : Nat) (words : Option (Nat × Nat)) : State :=
  s.stopItem e.slot Status.stageFault e.stage e.engine (faultDetail cause e.run addr) words

/-- The entry that an agent's engine is running. -/
def State.runningOn (s : State) (a : Nat) : Option Entry := s.flit.entries.find? (fun e => e.st = .issued && e.covers a)

/-- Whatever access of a running stage failed ends its item (R82, R186, R451, R584): a window failure with WINDOW, an
error response with cause 0x04, poisoned data with ECC. Answers whether the access failed. -/
def State.accessFails (s : State) (e : Entry) (r : MemRes) : Bool × State :=
  match r.win, r.err, r.poison with
  | some d, _, _ => (true, s.stopItem e.slot Status.window e.stage e.engine d none)
  | none, some a, _ => (true, s.stageFault e 4 a none)
  | none, none, some a => (true, s.stopItem e.slot Status.ecc e.stage e.engine (eccDetail a) none)
  | none, none, none => (false, s)

/-! ### Finishing -/

/-- The runs of an item with no entry left. -/
def State.runsDone (s : State) (i : Nat) : Nat :=
  (List.range (s.item i).runs).countP (fun r => !(s.flit.entries.any (fun e => e.slot = i && e.run = r)))

/-- An item whose last stage has completed finishes: its part is checked, then its status fixed (R279, R730). -/
def State.finishItem (s : State) (i : Nat) : State :=
  let it := s.item i
  match s.partCheck i with
  | some (st, d) =>
    let last := it.stages.length - 1
    let agent := (stageEntry it i 0 last (it.stages.getD last 0)).engine
    let s := s.bump OD.PARTS_REFUSED
    let s := s.setItem i { it with
      status := st, faultStage := last, faultAgent := agent, detail := d, fixedAt := s.clk.now }
    let wb := it.tag * 2 ^ 32 + i * 2 ^ 22 + it.flight * 2 ^ 16 + last * 2 ^ 8
    let s := s.logFault ⟨0, FaultClass.item, 69, it.ten, 1, OD.PARTS_REFUSED, st, d, wb⟩
    (s.countStatus st).closeItem i
  | none =>
    let st := if it.concealed then Status.concealed else if it.empty then Status.empty else Status.ok
    (s.setItem i { it with
      status := st, detail := if it.concealed then it.detail else 0, fixedAt := s.clk.now }).closeItem i

/-- A stage ends (R272, R282): its entry leaves the lane queue with what the engine reported, its claims drop, later
entries are armed, and the item finishes if nothing is left. On the boundary cycle of a ticked item's epoch the completion does
not count (R45, R295). -/
def State.stageDone (s : State) (e : Entry) (empty concealed : Bool) (bytes : Nat) : State :=
  let it := s.item e.slot
  if !e.bg && s.boundaryAhead then s
  else
  let last := e.stage + 1 = it.stages.length
  let s := s.setItem e.slot { it with
    empty := it.empty || empty
    concealed := it.concealed || concealed
    outBytes := it.outBytes + bytes
    partBytes := if last then it.partBytes + bytes else it.partBytes }
  let s := { s with flit := { s.flit with entries := s.flit.entries.filter (fun x => !(x.same e)) } }
  let s := s.traceFlight e.slot e.stage e.run 3 e.engine e.flight 0xFF
  let s := s.dropStageClaims e.slot e.run e.stage none
  let s := if s.flit.entries.any (fun x => x.slot = e.slot) then s else s.finishItem e.slot
  s.armAll

end Sys2Proof.Machine
end

