-- ==== Sys2Proof/Machine/Operands.lean ====
section
/-!
DEFINITION. The operand forms of the matrix core: element codes of each data type (Table LOAD-5) as exact values, FP32
arithmetic with round-to-nearest-even (R349, R405), the conversions of VLD, VST and VCVT (R409, Table CORE-5), and the
functions of VACT (R410). The bits of a NaN and the results that the spec leaves open are free values.
-/

namespace Sys2Proof.Machine

/-! ### Exact values -/

/-- A floating-point value: NaN, an infinity, or ±m × 2^e exactly. -/
inductive Fp where
  | nan
  | inf (neg : Bool)
  | fin (neg : Bool) (m : Nat) (e : Int)
  deriving DecidableEq, Repr

/-- A zero value. -/
def Fp.isZero : Fp → Bool
  | .fin _ m _ => m = 0
  | _ => false

/-- A finite value. -/
def Fp.isFinite : Fp → Bool
  | .fin _ _ _ => true
  | _ => false

/-- The other sign. -/
def Fp.neg : Fp → Fp
  | .nan => .nan
  | .inf s => .inf (!s)
  | .fin s m e => .fin (!s) m e

/-- The exact product (R349). -/
def Fp.mul : Fp → Fp → Fp
  | .nan, _ => .nan
  | _, .nan => .nan
  | .inf a, .inf b => .inf (a != b)
  | .inf a, .fin b m _ => if m = 0 then .nan else .inf (a != b)
  | .fin a m _, .inf b => if m = 0 then .nan else .inf (a != b)
  | .fin a m e, .fin b n f => .fin (a != b) (m * n) (e + f)

/-- A significand brought to a smaller exponent. -/
def scaled (neg : Bool) (m : Nat) (e lo : Int) : Int :=
  let x : Int := (m * 2 ^ (e - lo).toNat : Nat)
  if neg then -x else x

/-- The exact sum; an exact zero is −0 only where both terms are −0 (round-to-nearest-even). -/
def Fp.add : Fp → Fp → Fp
  | .nan, _ => .nan
  | _, .nan => .nan
  | .inf a, .inf b => if a = b then .inf a else .nan
  | .inf a, .fin _ _ _ => .inf a
  | .fin _ _ _, .inf b => .inf b
  | .fin a m e, .fin b n f =>
    let lo := min e f
    let x := scaled a m e lo + scaled b n f lo
    if x = 0 then .fin (a && b && decide (m = 0) && decide (n = 0)) 0 0
    else .fin (decide (x < 0)) x.natAbs lo

/-- Order of two values that are not NaN: a < b. -/
def Fp.lt : Fp → Fp → Bool
  | .nan, _ => false
  | _, .nan => false
  | .inf a, .inf b => a && !b
  | .inf a, .fin _ _ _ => a
  | .fin _ _ _, .inf b => !b
  | .fin a m e, .fin b n f =>
    let lo := min e f
    decide (scaled a m e lo < scaled b n f lo)

/-- Equality of value: +0 equals −0, NaN equals nothing. -/
def Fp.eq : Fp → Fp → Bool
  | .nan, _ => false
  | _, .nan => false
  | a, b => !(a.lt b) && !(b.lt a)

/-! ### Formats -/

/-- A floating-point format: exponent and fraction bits, the bias, and whether it has infinities (OCP E4M3 has none). -/
structure FpFormat where
  eBits : Nat
  mBits : Nat
  bias : Nat
  hasInf : Bool
  deriving DecidableEq, Repr

/-- FP32, bfloat16 and the OCP 8-bit formats (R347). -/
def fp32 : FpFormat := ⟨8, 23, 127, true⟩
def bf16 : FpFormat := ⟨8, 7, 127, true⟩
def e4m3 : FpFormat := ⟨4, 3, 7, false⟩
def e5m2 : FpFormat := ⟨5, 2, 15, true⟩

/-- The value of a code. -/
def FpFormat.decode (f : FpFormat) (c : Nat) : Fp :=
  let neg := bit c (f.eBits + f.mBits)
  let ex := bits c f.mBits f.eBits
  let fr := bits c 0 f.mBits
  let top := 2 ^ f.eBits - 1
  if ex = top ∧ f.hasInf then (if fr = 0 then .inf neg else .nan)
  else if ex = top ∧ fr = 2 ^ f.mBits - 1 then .nan
  else if ex = 0 then .fin neg fr (1 - (f.bias : Int) - f.mBits)
  else .fin neg (2 ^ f.mBits + fr) ((ex : Int) - f.bias - f.mBits)

/-- m ÷ 2^k rounded to nearest, ties to even. -/
def roundShift (m k : Nat) : Nat :=
  let q := m / 2 ^ k
  let r := 2 * (m % 2 ^ k)
  if 2 ^ k < r ∨ (r = 2 ^ k ∧ q % 2 = 1) then q + 1 else q

/-- The largest finite magnitude code of a format without infinities. -/
def FpFormat.maxCode (f : FpFormat) : Nat := 2 ^ (f.eBits + f.mBits) - 2

/-- The code of infinity. -/
def FpFormat.infCode (f : FpFormat) : Nat := (2 ^ f.eBits - 1) * 2 ^ f.mBits

/-- The magnitude code of m × 2^e rounded to nearest even, subnormals kept; overflow gives infinity, or the largest
finite value in a format without infinities (R349, R409). -/
def FpFormat.roundMag (f : FpFormat) (m : Nat) (e : Int) : Nat :=
  if m = 0 then 0
  else
    let emin : Int := 1 - (f.bias : Int) - f.mBits
    let len : Int := (Nat.log2 m : Int) + 1
    let q := max (e + len - (f.mBits + 1 : Nat)) emin
    let r := if q ≤ e then m * 2 ^ (e - q).toNat else roundShift m (q - e).toNat
    -- a carry out of the significand moves into the exponent field by itself
    let code := if r < 2 ^ f.mBits then r else (q - emin).toNat * 2 ^ f.mBits + r
    let limit := if f.hasInf then f.infCode else f.maxCode + 1
    if limit ≤ code then (if f.hasInf then f.infCode else f.maxCode) else code

/-- A NaN of a format made from free bits: exponent all ones and a fraction that is NaN's. -/
def FpFormat.nanCode (f : FpFormat) (x : Nat) : Nat :=
  let fr := x % 2 ^ f.mBits
  let fr := if f.hasInf then (if fr = 0 then 1 else fr) else 2 ^ f.mBits - 1
  b2n (bit x (f.eBits + f.mBits)) * 2 ^ (f.eBits + f.mBits) + f.infCode + fr

/-- The code of a value; `x` supplies the free bits of a NaN. -/
def FpFormat.encode (f : FpFormat) (x : Nat) : Fp → Nat
  | .nan => f.nanCode x
  | .inf n => b2n n * 2 ^ (f.eBits + f.mBits) + (if f.hasInf then f.infCode else f.maxCode)
  | .fin n m e => b2n n * 2 ^ (f.eBits + f.mBits) + f.roundMag m e

/-- A value rounded to FP32, as every addition does (R349). -/
def Fp.round32 (v : Fp) : Fp :=
  match v with
  | .fin _ _ _ => fp32.decode (fp32.encode 0 v)
  | v => v

/-! ### FP32 lanes -/

/-- A lane's FP32 value. -/
def laneFp (x : Lane) : Fp := fp32.decode x.toNat

/-- An FP32 value as a lane; `free` supplies a NaN's bits. -/
def fpLane (free : Lane) (v : Fp) : Lane := BitVec.ofNat 32 (fp32.encode free.toNat v)

/-- Lane operations of format V. -/
inductive LaneOp where
  | add | sub | mul | fma | min | max
  deriving DecidableEq, Repr

/-- I32 lane arithmetic modulo 2^32 (R405); `d` is the old lane of V[VD]. -/
def laneI32 (op : LaneOp) (d a b : Lane) : Lane :=
  match op with
  | .add => a + b
  | .sub => a - b
  | .mul => a * b
  | .fma => d + a * b
  | .min => if a.slt b then a else b
  | .max => if a.slt b then b else a

/-- The lesser (or greater) of two FP32 lanes. With a NaN, or between +0 and −0, the spec states no result: free. -/
def laneMin (free a b : Lane) (takeMax : Bool) : Lane :=
  let x := laneFp a
  let y := laneFp b
  if x = .nan ∨ y = .nan then free
  else if x.lt y then (if takeMax then b else a)
  else if y.lt x then (if takeMax then a else b)
  else if free.getLsbD 0 then a else b

/-- FP32 lane arithmetic, rounded once (R349, R405). -/
def laneF32 (op : LaneOp) (free d a b : Lane) : Lane :=
  match op with
  | .add => fpLane free ((laneFp a).add (laneFp b))
  | .sub => fpLane free ((laneFp a).add (laneFp b).neg)
  | .mul => fpLane free ((laneFp a).mul (laneFp b))
  | .fma => fpLane free ((laneFp d).add ((laneFp a).mul (laneFp b)))
  | .min => laneMin free a b false
  | .max => laneMin free a b true

/-- The comparisons of VCMP. -/
def laneCmp (fp : Bool) (f : Nat) (a b : Lane) : Bool :=
  let eq := if fp then (laneFp a).eq (laneFp b) else decide (a = b)
  let lt := if fp then (laneFp a).lt (laneFp b) else a.slt b
  if f = 0 then eq else if f = 1 then !eq else if f = 2 then lt else lt || eq

/-- An integer as an exact value. -/
def intFp (i : Int) : Fp := .fin (decide (i < 0)) i.natAbs 0

/-- An integer saturated to a range. -/
def clampInt (lo hi i : Int) : Int := max lo (min hi i)

/-- An FP value to I32: round to nearest even, saturating, NaN to 0 (VCVT FUNC 1). -/
def fpToI32 (v : Fp) : Lane :=
  match v with
  | .nan => 0#32
  | .inf n => BitVec.ofInt 32 (if n then -2147483648 else 2147483647)
  | .fin n m e =>
    let r : Int := if 0 ≤ e then (m * 2 ^ (min e 64).toNat : Nat) else (roundShift m (-e).toNat : Nat)
    BitVec.ofInt 32 (clampInt (-2147483648) 2147483647 (if n then -r else r))

/-- VCVT of one lane. -/
def laneCvt (f : Nat) (free x : Lane) : Lane :=
  if f = 0 then fpLane free (intFp x.toInt) else fpToI32 (laneFp x)

/-- The magnitude code of 1 ÷ (m × 2^e), correctly rounded. -/
def recipCode (m : Nat) (e : Int) : Nat :=
  let k := Nat.log2 m + 40
  fp32.roundMag (2 * (2 ^ k / m) + b2n (2 ^ k % m ≠ 0)) (-(k : Int) - 1 - e)

/-- The magnitude code of 1 ÷ √(m × 2^e), correctly rounded. -/
def rsqrtCode (m : Nat) (e : Int) : Nat :=
  let (m, e) := if e % 2 = 0 then (m, e) else (2 * m, e - 1)
  let k := Nat.log2 m + 40
  let q := Nat.sqrt (2 ^ (2 * k) / m)
  fp32.roundMag (2 * q + b2n (q * q * m ≠ 2 ^ (2 * k))) (-(k : Int) - 1 - e / 2)

/-- A magnitude code within 2 units in the last place of a correctly rounded one (R410); which one is free. -/
def within2 (free : Lane) (neg : Bool) (code : Nat) : Lane :=
  BitVec.ofNat 32 (b2n neg * 2 ^ 31 + min (code + free.toNat % 5 - 2) 0x7F800000)

/-! The exponential, logistic, hyperbolic tangent and GELU, in fixed point with 512 fraction bits: enough for the rounding to
FP32 that follows each. -/

/-- The fraction bits of the fixed-point values, and 1. -/
def fixBits : Nat := 512
def fixOne : Int := 2 ^ 512

/-- m × 2^e in fixed point, cut at a bound beyond which the function asked for no longer changes. -/
def fixOf (m : Nat) (e : Int) (bound : Nat) : Nat :=
  if 8 < e then bound * 2 ^ fixBits
  else
    let k := e + fixBits
    min (if 0 ≤ k then m * 2 ^ k.toNat else m / 2 ^ (-k).toNat) (bound * 2 ^ fixBits)

/-- The exponential of a fixed-point value of magnitude at most 128: the series of a 128th of it, squared seven times. -/
def expFix (x : Int) : Int :=
  let t := x / 128
  let y := (List.range 112).foldl (fun acc i => fixOne + t * acc / (((112 - i : Nat) : Int) * fixOne)) fixOne
  (List.range 7).foldl (fun y _ => y * y / fixOne) y

/-- The magnitude code of a positive fixed-point value over 2^k; the odd bit keeps it off the ties. -/
def fixCode (v : Int) (k : Int) : Nat := fp32.roundMag (2 * v.toNat + 1) (-(fixBits : Int) - 1 + k)

/-- The magnitude code of e^x. -/
def expCode (neg : Bool) (m : Nat) (e : Int) : Nat :=
  let x : Int := fixOf m e 128
  fixCode (expFix (if neg then -x else x)) 0

/-- The magnitude code of the logistic function, 1 ÷ (1 + e^−x). -/
def sigmoidCode (neg : Bool) (m : Nat) (e : Int) : Nat :=
  let y := expFix (-(fixOf m e 128 : Int))
  fixCode ((if neg then y else fixOne) * fixOne / (fixOne + y)) 0

/-- The magnitude code of the hyperbolic tangent. -/
def tanhCode (m : Nat) (e : Int) : Nat :=
  let y := expFix (-(2 * fixOf m e 64 : Int))
  fixCode ((fixOne - y) * fixOne / (fixOne + y)) 0

/-- 1 ÷ √(2π) in fixed point. -/
def invSqrtTwoPi : Int :=
  53489414707557121986467500076821774438351153763925924441389957924602494384820 * 10 ^ 77 +
  6689649181438381986101946420819632906916886095183257957789698649401813142783

/-- The normal distribution function of a fixed-point z from 0 to 15: 1/2 + φ(z) (z + z³/3 + z⁵/15 + ...). -/
def normalCdf (z : Int) : Int :=
  let z2 := z * z / fixOne
  let r := (List.range 1000).foldl (fun (p : Int × Int) i =>
    (p.1 + p.2, p.2 * z2 / (((2 * i + 3 : Nat) : Int) * fixOne))) (0, z)
  fixOne / 2 + invSqrtTwoPi * expFix (-(z2 / 2)) / fixOne * r.1 / fixOne

/-- The magnitude code of GELU, x times the normal distribution function of x (DEDUCED, notes/assumptions/39.md). -/
def geluCode (neg : Bool) (m : Nat) (e : Int) : Nat :=
  let z := fixOf m e 15
  if 15 * 2 ^ fixBits ≤ z then (if neg then 0 else fp32.roundMag m e)
  else
    let c := normalCdf z
    if m = 0 then 0 else fixCode ((m : Int) * (if neg then fixOne - c else c)) e

/-- VACT of one lane (R410): RELU exactly; every other function within 2 units in the last place of the correctly rounded
value, RECIP of a zero an infinity, a NaN outside the domain. The result for an infinity or for RSQRT of a zero is free. -/
def laneAct (f : Nat) (free x : Lane) : Lane :=
  let v := laneFp x
  if f = 0 then
    (if v = .nan ∨ x = 0x80000000#32 then (if v = .nan then free else free &&& 0x80000000#32)
     else if (Fp.fin false 0 0).lt v then x else 0#32)
  else
    match v with
    | .nan => fpLane free .nan
    | .inf _ => free
    | .fin neg m e =>
      if f = 4 then (if m = 0 then fpLane free (.inf neg) else within2 free neg (recipCode m e))
      else if f = 5 then
        (if m = 0 then free else if neg then fpLane free .nan else within2 free false (rsqrtCode m e))
      else if f = 1 then within2 free false (sigmoidCode neg m e)
      else if f = 2 then within2 free neg (tanhCode m e)
      else if f = 3 then within2 free false (expCode neg m e)
      else within2 free neg (geluCode neg m e)

/-! ### Elements in memory (Tables LOAD-5 and ARRY-1, R409) -/

/-- The codes of packed elements: two per byte in INT4, else little-endian. -/
def unpackCodes (dtype : Nat) (bs : List Byte) : Nat → List Nat
  | 0 => []
  | n + 1 =>
    if dtype = 2 then
      match bs with
      | [] => 0 :: unpackCodes dtype [] n
      | b :: rest =>
        match n with
        | 0 => [b.toNat % 16]
        | k + 1 => b.toNat % 16 :: b.toNat / 16 :: unpackCodes dtype rest k
    else ofLe (bs.take (dtypeBytes dtype)) :: unpackCodes dtype (bs.drop (dtypeBytes dtype)) n

/-- Pack codes into bytes. -/
def packCodes (dtype : Nat) : List Nat → List Byte
  | [] => []
  | [c] => if dtype = 2 then [BitVec.ofNat 8 (c % 16)] else leBytes (dtypeBytes dtype) c
  | c :: d :: rest =>
    if dtype = 2 then BitVec.ofNat 8 (c % 16 + 16 * (d % 16)) :: packCodes dtype rest
    else leBytes (dtypeBytes dtype) c ++ packCodes dtype (d :: rest)

/-- The integer value of a code of an integer type. -/
def codeInt (dtype c : Nat) : Int :=
  if dtype = 1 then (c : Int) else toSigned (if dtype = 2 then 4 else if dtype = 0 then 8 else 32) c

/-- The value of a code of a floating-point type. -/
def codeFp (dtype c : Nat) : Fp :=
  if dtype = 3 then e4m3.decode c else if dtype = 4 then e5m2.decode c else if dtype = 5 then bf16.decode c
  else fp32.decode c

/-- A lane from a loaded code: integers to I32, others to FP32 (VLD); `free` supplies a NaN's bits. -/
def codeLane (dtype : Nat) (free : Lane) (c : Nat) : Lane :=
  if dtype = 7 ∨ dtype = 6 then BitVec.ofNat 32 c
  else if dtype ≤ 2 then BitVec.ofInt 32 (codeInt dtype c)
  else fpLane free (codeFp dtype c)

/-- A lane's code as VST stores it (R409). -/
def laneCode (dtype : Nat) (free x : Lane) : Nat :=
  if dtype = 0 then ofSigned 8 (clampInt (-128) 127 x.toInt)
  else if dtype = 1 then ofSigned 8 (clampInt 0 255 x.toInt)
  else if dtype = 2 then ofSigned 4 (clampInt (-8) 7 x.toInt)
  else if dtype = 3 then e4m3.encode free.toNat (laneFp x)
  else if dtype = 4 then e5m2.encode free.toNat (laneFp x)
  else if dtype = 5 then bf16.encode free.toNat (laneFp x)
  else x.toNat

end Sys2Proof.Machine
end

