-- ==== Sys2Proof/Machine/Flags.lean ====
section
/-!
DEFINITION. The sticky flags of the accumulator tiles and the arithmetic that sets them: column sums in ascending order of
k, and the addition into the accumulator (R346, R348 to R350, R354).
-/

namespace Sys2Proof.Machine

/-- SAT, INF and NAN of AFLAGS (Table CORE-5). -/
abbrev flagSat : Nat := 1
abbrev flagInf : Nat := 2
abbrev flagNan : Nat := 4

/-- The union of two flag sets. -/
def flagsOr (a b : Nat) : Nat := Nat.lor a b

/-- Whether a data type code is an integer type (Table LOAD-5). -/
def isInt (dtype : Nat) : Bool := dtype ≤ 2 || dtype = 6

/-- The flags of an addition's result (R349). -/
def fpFlags : Fp → Nat
  | .nan => flagNan
  | .inf _ => flagInf
  | .fin _ _ _ => 0

/-- One cell's addition (R345, R349, R350): a product of finite factors of which one is zero contributes nothing. -/
def cellAdd (x w : Fp) (p : Fp × Nat) : Fp × Nat :=
  if x.isFinite && w.isFinite && (x.isZero || w.isZero) then p
  else
    let r := (p.1.add (x.mul w)).round32
    (r, flagsOr p.2 (fpFlags r))

/-- A weight of a tile. -/
def WTile.at (t : WTile) (k n : Nat) : Nat := Sparse.get (fun _ => 0) t.w (64 * k + n)

/-- The floating-point sum of column n in ascending order of k, from +0, and the flags it sets. -/
def colSumFp (xs : List Nat) (xType : Nat) (t : WTile) (n : Nat) : Fp × Nat :=
  xs.zipIdx.foldl (fun p e => cellAdd (codeFp xType e.1) (codeFp t.dtype (t.at e.2 n)) p) (.fin false 0 0, 0)

/-- The exact integer sum of column n. -/
def colSumInt (xs : List Nat) (xType : Nat) (t : WTile) (n : Nat) : Int :=
  xs.zipIdx.foldl (fun p e => p + codeInt xType e.1 * codeInt t.dtype (t.at e.2 n)) 0

/-- The accumulator entry that a row's column result leaves, and the flags it sets (R346, R348, R349, R354); `free`
supplies a NaN's bits. -/
def accumulate (accum : Bool) (old free : Lane) (xs : List Nat) (xType : Nat) (t : WTile) (n : Nat) : Lane × Nat :=
  if isInt xType then
    let v := colSumInt xs xType t n
    let v := if accum then old.toInt + v else v
    let w := clampInt (-2147483648) 2147483647 v
    (BitVec.ofInt 32 w, if w = v then 0 else flagSat)
  else
    let (v, f) := colSumFp xs xType t n
    if accum then
      let r := ((laneFp old).add v).round32
      (fpLane free r, flagsOr f (fpFlags r))
    else (fpLane free v, f)

/-- Whether a weight type and an activation type go together (Table ARRY-1). -/
def typesMatch (w x : Nat) : Bool :=
  (w = 0 && x ≤ 1) || (w = 2 && x = 2) || ((w = 3 || w = 4) && (x = 3 || x = 4)) || (w = 5 && x = 5)

/-- Column n of an activation row reaches its accumulator entry; the flags join those of the columns before it. -/
def Core.mmaCell (seed row m : Nat) (x : Mma) (xs : List Nat) (p : Core × Nat) (n : Nat) : Core × Nat :=
  let r := accumulate x.accum (p.1.accAt row n) (Config.freeLane seed (64 * m + n)) xs x.dtype x.tile n
  (p.1.setAcc row n r.1, flagsOr p.2 r.2)

/-- One activation row of an MMA reaches the accumulator: row m writes flat row 64a + m modulo 256, its tile's flags are
set (R354). -/
def Core.mmaRow (c : Core) (seed : Nat) (x : Mma) (m : Nat) (xs : List Nat) : Core × Nat :=
  let row := (64 * x.acc + m) % 256
  let r := foldN 64 (Core.mmaCell seed row m x xs) (c, 0)
  (r.1.setTileFlags (row / 64) (flagsOr (r.1.tileFlags (row / 64)) r.2), r.2)

/-- Every row of an MMA, in any order of entry (R361): the core and the flags set. -/
def Core.mmaRows (c : Core) (seed : Nat) (x : Mma) : Core × Nat :=
  x.rows.zipIdx.foldl (fun p e => let r := p.1.mmaRow seed x e.2 e.1; (r.1, flagsOr p.2 r.2)) (c, 0)

end Sys2Proof.Machine
end

