-- ==== Sys2Proof/Machine/CoreIssue.lean ====
section
/-!
DEFINITION. How a matrix core runs a stage (chapter 09): the entry registers, issue and fetch, exceptions, and its reads and
writes of memory with protection and sealing (R322, R391 to R452, R740 to R745).
-/

namespace Sys2Proof.Machine

/-! ### Addresses and pairs -/

/-- Core 2p + 1 of a joined pair is held idle (R369). -/
def State.held (s : State) (n : Nat) : Bool := s.joined n && n % 2 = 1

/-- The elements of a weight tile's column or an activation row (R392). -/
def State.depth (s : State) (n : Nat) : Nat := if s.joined n then 128 else 64

/-- The tenancy whose context a stage's accesses carry (R164). -/
def State.stageTen (s : State) (e : Entry) : Nat := (s.item e.slot).ten

/-- The requester of a stage's landing operations. -/
def State.stageReq (s : State) (n : Nat) (e : Entry) : Requester := ⟨Fin.ofNat 70 n, some (Fin.ofNat 16 (s.stageTen e))⟩

/-! ### Sealing a stage (R742, R932) -/

/-- A core joins the cores that a sealed stage has run on (R741). -/
def State.taint (s : State) (n : Nat) : State := { s with ledg := { s.ledg with tainted := setBit s.ledg.tainted n true } }

/-- A core's INSTR and MARKER packets stop until its next stage, after one SEALED packet (R932). -/
def State.traceSealed (s : State) (n : Nat) : State :=
  let s := s.traceInstr n 0 6
  { s with trc := { s.trc with quiet := Sparse.put (fun _ => false) s.trc.quiet n true } }

/-- The stage on core n becomes sealed; a sealed pair stage seals both of its cores. -/
def State.sealStage (s : State) (n : Nat) : State :=
  if (s.core n).sealed then s
  else
    let s := (s.setCore n { s.core n with sealed := true }).taint n
    let s := if s.joined n then s.taint (n + 1) else s
    s.traceSealed n

/-! ### Exceptions (R433, R434, Tables CORE-9 and CORE-10) -/

abbrev Exc.illegal : Nat := 1
abbrev Exc.misaligned : Nat := 2
abbrev Exc.pcRange : Nat := 3
abbrev Exc.protect : Nat := 4
abbrev Exc.planAbsent : Nat := 5
abbrev Exc.dmaParam : Nat := 6
abbrev Exc.user : Nat := 7
abbrev ArrayExc.noTile : Nat := 1
abbrev ArrayExc.typeMismatch : Nat := 2
abbrev ArrayExc.transposeInt4 : Nat := 3
abbrev ArrayExc.weightParity : Nat := 4
abbrev ArrayExc.accUncorrectable : Nat := 5

/-- The exception word of Table CORE-9; `array` chooses CLASS. -/
def excWord (array : Bool) (code pc run stage flight user : Nat) : Nat :=
  (if array then 1 else 2) * 2 ^ 62 + code % 256 * 2 ^ 54 + alcoveOff pc * 2 ^ 33 + run % 256 * 2 ^ 25 +
  stage % 32 * 2 ^ 20 + flight % 64 * 2 ^ 14 + user % 256

/-- The words and the counters of an exception (R434), and its EXC packet. -/
def State.excNoted (s : State) (n : Nat) (array : Bool) (w pc addr : Nat) : State :=
  let s := ((s.wr (OD.LAST_EXCEPTION n) w).wr (OD.LAST_EXC_ADDR n) addr).bump (OD.CORE_EXCEPTIONS n)
  let s := if array then s.bump (OD.ARRAY_EXCEPTIONS n) else s
  s.traceInstr n (alcoveOff pc) 3

/-- An exception of the stage that core n runs: the words, the counters, the DMA queue abandoned, the parked operation
withdrawn, the stage stopped with STAGE_FAULT cause 0x09. -/
def State.exception (s : State) (n : Nat) (e : Entry) (array : Bool) (code pc user addr : Nat) : State :=
  let w := excWord array code pc e.run e.stage e.flight user
  let addr := addr % 2 ^ 48
  let s := s.excNoted n array w pc addr
  let s := (s.setCore n { s.core n with dmaq := [], running := none, stepping := false }).withdraw n
  s.stageFault e 9 0 (some (w, addr))

/-- A core exception at the current instruction. -/
def State.coreExc (s : State) (n : Nat) (e : Entry) (code addr : Nat) : State :=
  s.exception n e false code (s.core n).pc 0 addr

/-- An array exception at the current instruction. -/
def State.arrayExc (s : State) (n : Nat) (e : Entry) (code : Nat) : State :=
  s.exception n e true code (s.core n).pc 0 0

/-! ### Issue (R391, R399, R425, R445) -/

/-- Whether core n can issue an instruction now: it runs, or a STEP lets one retire, and no halt waits. -/
def State.canIssue (s : State) (n : Nat) : Bool :=
  let c := s.core n
  s.powered (2 + n / 4) && s.rd OD.GATE = 0 && !s.held n && !c.haltReq && c.grant = none &&
  (c.st = .running || (c.st = .halted && c.stepping && !c.wasParked))

/-- Whether an address is one that the running program may be fetched from (R425). -/
def Core.inProgram (c : Core) (pc : Nat) : Bool := c.progLo ≤ pc && decide (pc < c.progHi)

/-- The instruction that the bytes at core n's PC spell, little-endian (R401): the command of the table with which core n
goes on. -/
def State.coreFetch (s : State) (n : Fin 32) : Instr :=
  coreInstr n (BitVec.ofNat 64 (ofLe (s.memBytes (s.core n).pc 8)))

/-- Core n issues its current instruction: the stage's entry and the machine go to `f` once the fetch is good. -/
def State.issue (s : State) (n : Nat) (f : Entry → State → State) : State :=
  if !s.canIssue n then s
  else
    match s.runningOn n with
    | none => s
    | some e =>
      let s := if s.coreSealed n then s.sealStage n else s
      let pc := (s.core n).pc
      if !(s.core n).inProgram pc then s.coreExc n e Exc.pcRange 0
      else if s.mark pc = 2 then s.stopItem e.slot Status.ecc e.stage n (eccDetail pc) none
      else if s.mark pc = 1 then f e (s.eccCorrected n pc)
      else f e s

/-- The current instruction retires and the next one follows. -/
def State.next (s : State) (n : Nat) : State := s.retire n ((s.core n).pc + 8)

/-- The current instruction changes the core and retires. -/
def State.nextWith (s : State) (n : Nat) (f : Core → Core) : State := (s.setCore n (f (s.core n))).next n

/-- A taken branch or jump to a device address: MISALIGNED and PC_RANGE by Table CORE-5, else the target, with its trace
packet (kind 0 BRANCH, 1 JUMP). -/
def State.jump (s : State) (n : Nat) (e : Entry) (target kind : Nat) (f : Core → Core) : State :=
  if target % 8 ≠ 0 then s.coreExc n e Exc.misaligned target
  else if !(s.core n).inProgram target then s.coreExc n e Exc.pcRange 0
  else ((s.setCore n (f (s.core n))).retire n target).traceInstr n (alcoveOff target) kind

/-! ### Reads and writes of a stage -/

/-- The sign-extended 32-bit immediate. -/
def immS (i : BitVec 32) : Word := i.signExtend 64

/-- The effective address S[RA] + IMM modulo 2^64 (R404). -/
def Core.ea (c : Core) (ra : Nat) (imm : BitVec 32) : Nat := (c.sreg ra + immS imm).toNat

/-- A read of a stage on core n: a sealed byte seals the stage (R742). -/
def State.stageRead (s : State) (n : Nat) (e : Entry) (a len : Nat) : MemRes × State :=
  let s := if (s.firstSealed a len).isSome then s.sealStage n else s
  s.memRead { agent := n, ctx := some (s.stageTen e) } a len

/-- A read that the stage goes on from only if it completed normally (R82, R186, R397, R451). -/
def State.stageLoad (s : State) (n : Nat) (e : Entry) (a len : Nat) : Option (List Byte) × State :=
  let (r, s) := s.stageRead n e a len
  if r.ok then (some r.bytes, s)
  else
    let (_, s) := s.accessFails e r
    (none, s)

/-- Whether image slot i holds a byte in its gallery or alcove extent, in LOADING, RESIDENT or RETIRING. -/
def State.inImage (s : State) (i a : Nat) : Bool :=
  s.inGalleryExtent i a || s.inAlcoveExtent i a

/-- Whether a byte is in the working area of the stage on core n. -/
def State.inWork (s : State) (n a : Nat) : Bool :=
  decide (alcoveBase ≤ a ∧ a < alcoveBase + 32 * alcoveBytes) && decide (alcoveCore a = n) &&
  decide ((s.core n).workLo ≤ alcoveOff a) && decide (alcoveOff a < (s.core n).workHi)

/-- Whether a stage on core n may not write a byte (R322, R412). -/
def State.protects (s : State) (n a : Nat) : Bool :=
  (List.range 16).any (fun i => s.inImage i a) && !s.inWork n a

/-- The first byte of a write that satisfies a test. -/
def firstByte (p : Nat → Bool) (a : Nat) : Nat → Option Nat
  | 0 => none
  | n + 1 => if p a then some a else firstByte p (a + 1) n

/-- The first byte of a write in several parts that satisfies a test. -/
def firstInParts (p : Nat → Bool) : List (Nat × List Byte) → Option Nat
  | [] => none
  | x :: xs =>
    match firstByte p x.1 x.2.length with
    | some a => some a
    | none => firstInParts p xs

/-- The bytes of a write that satisfy a test. -/
def countInParts (p : Nat → Bool) (parts : List (Nat × List Byte)) : Nat :=
  (parts.map (fun x => (List.range x.2.length).countP (fun i => p (x.1 + i)))).foldl (· + ·) 0

/-- Whether an access performs a written byte. -/
def State.performs (s : State) (q : Acc) (a : Nat) : Bool :=
  match s.place q true a with
  | .mem | .host _ => true
  | _ => false

/-- One write access in several parts (a VST writes no byte for a lane that is not selected). -/
def State.partsDone (s : State) (q : Acc) (parts : List (Nat × List Byte)) : MemRes × State :=
  match s.partialBad q (fun y => parts.any (fun x => inSpan x.1 x.2.length y))
      (parts.flatMap (fun x => rangeFrom x.1 x.2.length)) with
  | some x => ({ err := some x }, s)
  | none =>
    let (r, s) := parts.foldl (fun p x => State.writeFrom q p.2 x.1 x.2 p.1) (({} : MemRes), s)
    (r, (s.countWin q r).noteIf q r (parts.map (fun x => (x.1, x.2.length))))

/-- That access over the concourse, where it crosses it. -/
def State.writeParts (s : State) (q : Acc) (parts : List (Nat × List Byte)) : MemRes × State :=
  match parts with
  | [] => ({}, s)
  | x :: _ =>
    match s.transfer q x.1 with
    | (true, s) => ({ err := some x.1 }, s)
    | (false, s) => s.partsDone q parts

/-- A store, VST or DMA row of the stage on core n (R412, R744, R745): PROTECT, SEALED, then the write itself. Answers
whether the stage goes on. -/
def State.stageWriteParts (s : State) (n : Nat) (e : Entry) (parts : List (Nat × List Byte)) : Bool × State :=
  let q : Acc := { agent := n, ctx := some (s.stageTen e) }
  let c := s.core n
  match firstInParts (fun x => s.protects n x) parts with
  | some x => (false, s.coreExc n e Exc.protect x)
  | none =>
    let outside := countInParts (fun x => !s.sealedByte x) parts
    let done := if c.emitter then countInParts (fun x => !s.sealedByte x && s.performs q x) parts else 0
    let stop := match firstInParts (fun x => !s.sealedByte x) parts with
      | none => none
      | some x =>
        if c.emitter then
          (if s.rd OD.EMIT_CAP < (s.item e.slot).emitted + outside then some (sealedDetail 2 x) else none)
        else if c.sealed then some (sealedDetail 1 x)
        else none
    match stop with
    | some d => (false, s.stopItem e.slot Status.sealed e.stage n d none)
    | none =>
      let (r, s) := s.writeParts q parts
      let s := if done = 0 then s
        else (s.setItem e.slot { s.item e.slot with emitted := (s.item e.slot).emitted + done }).bumpN OD.EMITTED done
      let (bad, s) := s.accessFails e r
      (!bad, s)

/-- A write of one range. -/
def State.stageWrite (s : State) (n : Nat) (e : Entry) (a : Nat) (bs : List Byte) : Bool × State :=
  s.stageWriteParts n e [(a, bs)]

/-! ### Landing accesses of a stage (R420, R217) -/

/-- The oldest payload entry that TAKE or PEEK k returns carries the sealed mark (R742). -/
def State.sealedEntry (s : State) (L k : Nat) : Bool :=
  match (s.port L).q[k]? with
  | some x => x.sealed
  | none => false

/-- A landing operation of the stage on core n: a word goes to S[RD]; an operation error faults the stage with cause
0x05, one that R242 refuses with 0x04; a blocking operation parks the core (R421). -/
def State.stageLanding (s : State) (n : Nat) (e : Entry) (L : Nat) (op : LandOp) (rd : Nat) : State :=
  let marked := match op with
    | .take => s.sealedEntry L 0
    | .peek k => s.sealedEntry L k
    | _ => false
  let s := if marked && s.landReach (s.stageReq n e) L then s.sealStage n else s
  match s.landOp (s.stageReq n e) L op rd with
  | (none, s) => s.stageFault e 4 (landAddr L op) none
  | (some .error, s) => s.stageFault e 5 0 none
  | (some .done, s) => s.next n
  | (some (.word w), s) => s.nextWith n (fun c => c.setS rd w)
  | (some .parked, s) =>
    let c := s.core n
    if c.stepping then s.setCore n { c with stepping := false, wasParked := true }
    else s.setCore n { c with st := .parked }

/-- The operation that a load or store of 8 bytes at an offset of a landing's slot performs (Table LAND-3). -/
def landLoadOp (off : Nat) : Option LandOp :=
  if off = 0x00 then some .read else if off = 0x28 then some .acquire else if off = 0x30 then some .tryLock
  else if off = 0x48 then some .wait else if off = 0x68 then some .take else if off = 0x70 then some .portStatus
  else if off = 0x80 then some (.peek 0) else if off = 0x88 then some (.peek 1) else if off = 0x90 then some (.peek 2)
  else if off = 0x98 then some (.peek 3) else none

/-- The operation of an 8-byte store; `mark` is the storing stage's sealed mark (R743). -/
def landStoreOp (off : Nat) (d : Word) (mark : Bool) : Option LandOp :=
  if off = 0x08 then some (.init d) else if off = 0x10 then some (.add d) else if off = 0x18 then some .set
  else if off = 0x20 then some .clear else if off = 0x38 then some .release else if off = 0x40 then some .arrive
  else if off = 0x50 then some (.ack d) else if off = 0x58 then some .force
  else if off = 0x60 then some (.push d mark) else none

/-- Whether an address lies in the landing window (R216). -/
def inLandWindow (a : Nat) : Bool := decide (landBase ≤ a) && decide (a < landBase + 0x1000000)

/-! ### Stage entry (R422 to R425, Table CORE-8) -/

/-- The stage map entry that a queue entry names. -/
def State.stageDef (s : State) (e : Entry) : Option StageDef :=
  (Sparse.get (fun _ => ({} : Image)) s.ldr.images (s.item e.slot).image).stages[e.mapEntry]?

/-- The shape value k of an item-run (R323, R430). -/
def Item.shape (it : Item) (run k : Nat) : Nat := Sparse.get (fun i => it.shapes.getD (i % 4) 0) it.runShapes (4 * run + k)

/-- The entry registers of Table CORE-8. -/
def State.entryRegs (s : State) (n : Nat) (e : Entry) (d : StageDef) : List (Nat × Nat) :=
  let it := s.item e.slot
  let i := it.image
  let s9 := alcoveBase + n * alcoveBytes + s.rd (OD.IMG_ALCOVE_BASE i)
  [(1, it.input % 2 ^ 48), (2, it.output % 2 ^ 48), (3, it.inLen), (4, it.outLen), (5, e.run), (6, e.lane), (7, e.stage),
   (8, s.rd (OD.IMG_GALLERY_BASE i)), (9, s9), (10, if bit d.flags 1 then s9 + d.workOff else 0),
   (11, match e.gate with | some L => L | none => 2 ^ 64 - 1)]

/-- The registers of R423: S, V, P and the accumulator file as a stage starts with them. -/
def Core.cleared (c : Core) : Core :=
  let c := { c with s := [], v := [], p := [], acc := [], accMarks := [], flags := [] }
  foldN 7 (fun c i => c.setP (i + 1) (BitVec.allOnes 64)) c

/-- Core n takes the stage of an entry (R422 to R425): registers, program, plan, sealing, and the ENTRY packet. -/
def State.coreEnter (s : State) (n : Nat) (e : Entry) (d : StageDef) : State :=
  let it := s.item e.slot
  let i := it.image
  let img : Image := Sparse.get (fun _ => {}) s.ldr.images i
  let sec := img.sections.getD d.section_ ⟨0, 0, 0, 0, 0, 0, 0⟩
  let abase := s.rd (OD.IMG_ALCOVE_BASE i)
  let s9 := alcoveBase + n * alcoveBytes + abase
  let plan := Sparse.get (fun _ => []) it.plans (256 * e.run + e.stage)
  let c := (s.core n).cleared
  let c := (s.entryRegs n e d).foldl (fun c r => c.setS r.1 (BitVec.ofNat 64 r.2)) c
  let c := { c with
    st := .running
    pc := s9 + sec.destOff + d.entryOff
    progLo := s9 + sec.destOff
    progHi := s9 + sec.destOff + sec.destLen
    mmas := []
    outBytes := 0
    emptyMark := false
    image := i
    tiled := bit d.flags 1
    workLo := if bit d.flags 1 then abase + d.workOff else 0
    workHi := if bit d.flags 1 then abase + d.workOff + d.workBytes else 0
    plan := plan
    sealed := false
    emitter := bit d.flags 0
    stopped := false
    wasParked := false }
  let s := (s.setCore n c).bump (OD.STAGES_RUN n)
  let s := { s with trc := { s.trc with quiet := Sparse.put (fun _ => false) s.trc.quiet n false } }
  if s.coreSealed n || (s.joined n && s.coreSealed (n + 1)) || decide (plan.getD 8 0 = 1) then s.sealStage n
  else s.traceInstr n (alcoveOff c.pc) 2

end Sys2Proof.Machine
end

