-- ==== Sys2Proof/Machine/CoreScalar.lean ====
section
/-!
DEFINITION. The scalar instructions of a matrix core (Table CORE-5, OP 0x00 to 0x42): stage control, scalar arithmetic,
branches and jumps, loads and stores.
-/

namespace Sys2Proof.Machine

/-! ### Stage control (R428 to R432) -/

/-- NOP. -/
def execNop (n : Fin 32) (_imm : BitVec 32) (s : State) : Out := .next (s.issue n (fun _ s => s.next n))

/-- The stage of an entry ends with what its engine reports; the dispatcher takes the report with STAGE_COMPLETE. -/
def State.reportEnd (s : State) (e : Entry) (empty concealed : Bool) (bytes : Nat) : State :=
  s.mapEntry e (fun x => { x with st := .ended, repEmpty := empty, repConcealed := concealed, repBytes := bytes })

/-- END: waits for the stage's DMAs, then reports (R428, Table CORE-2). IMM 2 and above is reserved. -/
def State.endStage (s : State) (n imm : Nat) (e : Entry) : State :=
  let c := s.core n
  if 2 ≤ imm then s.coreExc n e Exc.illegal 0
  else if c.dmaq ≠ [] ∨ c.running ≠ none then s
  else
    let s := s.reportEnd e (decide (imm = 1) || c.emptyMark) false c.outBytes.toNat
    let s := s.setCore n { c with
      st := if c.st = .halted then .halted else .idle, sealed := false, emitter := false, emptyMark := false }
    s.retire n c.pc

/-- END. -/
def execEndStage (n : Fin 32) (imm : BitVec 32) (s : State) : Out :=
  .next (s.issue n (fun e s => s.endStage n imm.toNat e))

/-- FENCE: in one core whose loads and stores complete in order it only advances. -/
def execFence (n : Fin 32) (_imm : BitVec 32) (s : State) : Out := .next (s.issue n (fun _ s => s.next n))

/-- FAIL: USER with its code (Table CORE-9). -/
def execFail (n : Fin 32) (imm : BitVec 32) (s : State) : Out :=
  .next (s.issue n (fun e s => s.exception n e false Exc.user (s.core n).pc imm.toNat 0))

/-- TMARK (R432). -/
def execTmark (n : Fin 32) (imm : BitVec 32) (s : State) : Out :=
  .next (s.issue n (fun e s => (s.traceMarker n imm.toNat e.stage e.flight).next n))

/-- OUTADD (R429). -/
def execOutadd (n : Fin 32) (_rd ra : Fin 32) (_imm : BitVec 32) (s : State) : Out :=
  .next (s.issue n (fun _ s => s.nextWith n (fun c =>
    { c with outBytes := c.outBytes + (c.sreg ra).setWidth 32 })))

/-- SHGET: a marked shape value seals the stage (R742). -/
def execShget (n : Fin 32) (rd _ra : Fin 32) (imm : BitVec 32) (s : State) : Out :=
  .next (s.issue n (fun e s =>
    let it := s.item e.slot
    let k := imm.toNat % 4
    let s := if Sparse.get (fun _ => false) it.shapeSealed (4 * e.run + k) then s.sealStage n else s
    s.nextWith n (fun c => c.setS rd (BitVec.ofNat 64 (it.shape e.run k)))))

/-- A stage overwrites shape value k of its item-run: later TILED stages that it drives are planned again (R325, R430);
a sealed stage's value carries the mark (R743). -/
def State.setShape (s : State) (e : Entry) (k v : Nat) (mark : Bool) : State :=
  let it := s.item e.slot
  let img : Image := Sparse.get (fun _ => {}) s.ldr.images it.image
  let later := s.flit.entries.filter (fun x => x.slot = e.slot && x.run = e.run && decide (e.stage < x.stage))
  let drop := (later.filter (fun x =>
    match img.stages[x.mapEntry]? with
    | some d => bit d.flags 1 && d.shapeSel = k
    | none => false)).map (fun x => 256 * x.run + x.stage)
  let key := 4 * e.run + k
  s.setItem e.slot { it with
    runShapes := keyedPut it.runShapes key (v % 2 ^ 32)
    shapeSealed := if mark then keyedPut it.shapeSealed key true else it.shapeSealed
    plans := it.plans.filter (fun p => !(drop.contains p.1)) }

/-- SHSET (R430). -/
def execShset (n : Fin 32) (_rd ra : Fin 32) (imm : BitVec 32) (s : State) : Out :=
  .next (s.issue n (fun e s =>
    let c := s.core n
    (s.setShape e (imm.toNat % 4) (c.sreg ra).toNat c.sealed).next n))

/-- PLANRD (R431). -/
def execPlanrd (n : Fin 32) (rd _ra : Fin 32) (imm : BitVec 32) (s : State) : Out :=
  .next (s.issue n (fun e s =>
    if (s.core n).tiled then
      s.nextWith n (fun c => c.setS rd (BitVec.ofNat 64 (c.plan.getD (imm.toNat % 8) 0)))
    else s.coreExc n e Exc.planAbsent 0))

/-! ### Scalar arithmetic, modulo 2^64 (R405) -/

/-- S[RD] ← S[RA] op S[RB]. -/
def State.aluR (s : State) (n rd ra rb : Nat) (f : Word → Word → Word) : State :=
  s.issue n (fun _ s => s.nextWith n (fun c => c.setS rd (f (c.sreg ra) (c.sreg rb))))

/-- S[RD] ← S[RA] op IMM. -/
def State.aluI (s : State) (n rd ra : Nat) (f : Word → Word) : State :=
  s.issue n (fun _ s => s.nextWith n (fun c => c.setS rd (f (c.sreg ra))))

/-- A comparison as 1 or 0. -/
def asWord (b : Bool) : Word := if b then 1#64 else 0#64

/-- ADD. -/
def execAdd (n : Fin 32) (rd ra rb : Fin 32) (s : State) : Out :=
  .next (s.aluR n rd ra rb (fun a b => a + b))

/-- SUB. -/
def execSub (n : Fin 32) (rd ra rb : Fin 32) (s : State) : Out :=
  .next (s.aluR n rd ra rb (fun a b => a - b))

/-- MUL. -/
def execMul (n : Fin 32) (rd ra rb : Fin 32) (s : State) : Out :=
  .next (s.aluR n rd ra rb (fun a b => a * b))

/-- AND. -/
def execAnd (n : Fin 32) (rd ra rb : Fin 32) (s : State) : Out :=
  .next (s.aluR n rd ra rb (fun a b => a &&& b))

/-- OR. -/
def execOr (n : Fin 32) (rd ra rb : Fin 32) (s : State) : Out :=
  .next (s.aluR n rd ra rb (fun a b => a ||| b))

/-- XOR. -/
def execXor (n : Fin 32) (rd ra rb : Fin 32) (s : State) : Out :=
  .next (s.aluR n rd ra rb (fun a b => a ^^^ b))

/-- SHL. -/
def execShl (n : Fin 32) (rd ra rb : Fin 32) (s : State) : Out :=
  .next (s.aluR n rd ra rb (fun a b => a <<< (b.toNat % 64)))

/-- SHR. -/
def execShr (n : Fin 32) (rd ra rb : Fin 32) (s : State) : Out :=
  .next (s.aluR n rd ra rb (fun a b => a >>> (b.toNat % 64)))

/-- SRA. -/
def execSra (n : Fin 32) (rd ra rb : Fin 32) (s : State) : Out :=
  .next (s.aluR n rd ra rb (fun a b => a.sshiftRight (b.toNat % 64)))

/-- SLT. -/
def execSlt (n : Fin 32) (rd ra rb : Fin 32) (s : State) : Out :=
  .next (s.aluR n rd ra rb (fun a b => asWord (a.slt b)))

/-- SLTU. -/
def execSltu (n : Fin 32) (rd ra rb : Fin 32) (s : State) : Out :=
  .next (s.aluR n rd ra rb (fun a b => asWord (a.ult b)))

/-- MIN. -/
def execMin (n : Fin 32) (rd ra rb : Fin 32) (s : State) : Out :=
  .next (s.aluR n rd ra rb (fun a b => if a.slt b then a else b))

/-- MAX. -/
def execMax (n : Fin 32) (rd ra rb : Fin 32) (s : State) : Out :=
  .next (s.aluR n rd ra rb (fun a b => if a.slt b then b else a))

/-- The zero-extended 32-bit immediate. -/
def immZ (i : BitVec 32) : Word := i.setWidth 64

/-- ADDI. -/
def execAddi (n : Fin 32) (rd ra : Fin 32) (imm : BitVec 32) (s : State) : Out :=
  .next (s.aluI n rd ra (fun a => a + immS imm))

/-- ANDI. -/
def execAndi (n : Fin 32) (rd ra : Fin 32) (imm : BitVec 32) (s : State) : Out :=
  .next (s.aluI n rd ra (fun a => a &&& immZ imm))

/-- ORI. -/
def execOri (n : Fin 32) (rd ra : Fin 32) (imm : BitVec 32) (s : State) : Out :=
  .next (s.aluI n rd ra (fun a => a ||| immZ imm))

/-- XORI. -/
def execXori (n : Fin 32) (rd ra : Fin 32) (imm : BitVec 32) (s : State) : Out :=
  .next (s.aluI n rd ra (fun a => a ^^^ immZ imm))

/-- SHLI. -/
def execShli (n : Fin 32) (rd ra : Fin 32) (imm : BitVec 32) (s : State) : Out :=
  .next (s.aluI n rd ra (fun a => a <<< (imm.toNat % 64)))

/-- SHRI. -/
def execShri (n : Fin 32) (rd ra : Fin 32) (imm : BitVec 32) (s : State) : Out :=
  .next (s.aluI n rd ra (fun a => a >>> (imm.toNat % 64)))

/-- SRAI. -/
def execSrai (n : Fin 32) (rd ra : Fin 32) (imm : BitVec 32) (s : State) : Out :=
  .next (s.aluI n rd ra (fun a => a.sshiftRight (imm.toNat % 64)))

/-- LUI. -/
def execLui (n : Fin 32) (rd ra : Fin 32) (imm : BitVec 32) (s : State) : Out :=
  .next (s.aluI n rd ra (fun _ => immZ imm <<< 32))

/-! ### Branches and jumps -/

/-- The address OFF instructions from the current one. -/
def Core.rel (c : Core) (off : BitVec 32) : Nat := (BitVec.ofNat 64 c.pc + 8#64 * immS off).toNat

/-- A branch on S[RA] and S[RB]. -/
def State.branch (s : State) (n ra rb : Nat) (off : BitVec 32) (p : Word → Word → Bool) : State :=
  s.issue n (fun e s =>
    let c := s.core n
    if p (c.sreg ra) (c.sreg rb) then s.jump n e (c.rel off) 0 id else s.next n)

/-- BEQ. -/
def execBeq (n : Fin 32) (ra rb : Fin 32) (off : BitVec 32) (s : State) : Out :=
  .next (s.branch n ra rb off (fun a b => a == b))

/-- BNE. -/
def execBne (n : Fin 32) (ra rb : Fin 32) (off : BitVec 32) (s : State) : Out :=
  .next (s.branch n ra rb off (fun a b => a != b))

/-- BLT. -/
def execBlt (n : Fin 32) (ra rb : Fin 32) (off : BitVec 32) (s : State) : Out :=
  .next (s.branch n ra rb off (fun a b => a.slt b))

/-- BGE. -/
def execBge (n : Fin 32) (ra rb : Fin 32) (off : BitVec 32) (s : State) : Out :=
  .next (s.branch n ra rb off (fun a b => !(a.slt b)))

/-- BLTU. -/
def execBltu (n : Fin 32) (ra rb : Fin 32) (off : BitVec 32) (s : State) : Out :=
  .next (s.branch n ra rb off (fun a b => a.ult b))

/-- BGEU. -/
def execBgeu (n : Fin 32) (ra rb : Fin 32) (off : BitVec 32) (s : State) : Out :=
  .next (s.branch n ra rb off (fun a b => !(a.ult b)))

/-- JMP. -/
def execJmp (n : Fin 32) (_ra _rb : Fin 32) (off : BitVec 32) (s : State) : Out :=
  .next (s.issue n (fun e s => s.jump n e ((s.core n).rel off) 1 id))

/-- JAL. -/
def execJal (n : Fin 32) (rd _ra : Fin 32) (imm : BitVec 32) (s : State) : Out :=
  .next (s.issue n (fun e s =>
    let pc := (s.core n).pc
    s.jump n e ((s.core n).rel imm) 1 (fun c => c.setS rd (BitVec.ofNat 64 (pc + 8)))))

/-- JR. -/
def execJr (n : Fin 32) (_rd ra _rb : Fin 32) (s : State) : Out :=
  .next (s.issue n (fun e s => s.jump n e ((s.core n).sreg ra).toNat 1 id))

/-! ### Loads and stores (R404, R411, R412, R420) -/

/-- The bytes of SIZE. -/
def sizeBytes (size : Fin 4) : Nat := 2 ^ size.val

/-- A loaded value, zero- or sign-extended. -/
def loadedWord (signed : Bool) (bs : List Byte) : Word :=
  if signed then BitVec.ofInt 64 (toSigned (8 * bs.length) (ofLe bs)) else BitVec.ofNat 64 (ofLe bs)

/-- LD and LDS: memory, or a landing operation in the landing window (R217). -/
def State.load (s : State) (n rd ra len : Nat) (imm : BitVec 32) (signed : Bool) : State :=
  s.issue n (fun e s =>
    let a := (s.core n).ea ra imm
    if a % len ≠ 0 then s.coreExc n e Exc.misaligned a
    else if inLandWindow a then
      match (if len = 8 then landLoadOp (a % 0x100) else none) with
      | some op => s.stageLanding n e ((a - landBase) / 0x100) op rd
      | none => s.stageFault e 4 a none
    else
      match s.stageLoad n e a len with
      | (some bs, s) => s.nextWith n (fun c => c.setS rd (loadedWord signed bs))
      | (none, s) => s)

/-- LD. -/
def execLd (n : Fin 32) (rd ra : Fin 32) (size : Fin 4) (imm : BitVec 32) (s : State) : Out :=
  .next (s.load n rd ra (sizeBytes size) imm false)

/-- LDS. -/
def execLds (n : Fin 32) (rd ra : Fin 32) (size : Fin 4) (imm : BitVec 32) (s : State) : Out :=
  .next (s.load n rd ra (sizeBytes size) imm true)

/-- ST: memory under R412 and R744, or a landing operation in the landing window; a plain store to FORCE is refused. -/
def State.store (s : State) (n rs ra len : Nat) (imm : BitVec 32) : State :=
  s.issue n (fun e s =>
    let c := s.core n
    let a := c.ea ra imm
    if a % len ≠ 0 then s.coreExc n e Exc.misaligned a
    else if inLandWindow a then
      match (if len = 8 then landStoreOp (a % 0x100) (c.sreg rs) c.sealed else none) with
      | some op => s.stageLanding n e ((a - landBase) / 0x100) op 0
      | none => s.stageFault e 4 a none
    else
      match s.stageWrite n e a (leBytes len (c.sreg rs).toNat) with
      | (true, s) => s.next n
      | (false, s) => s)

/-- ST. -/
def execSt (n : Fin 32) (rd ra : Fin 32) (size : Fin 4) (imm : BitVec 32) (s : State) : Out :=
  .next (s.store n rd ra (sizeBytes size) imm)

/-- An OP that Table CORE-5 marks reserved. -/
def reservedOp (op : Nat) : Bool :=
  !(op ≤ 0x08 || (0x10 ≤ op && op ≤ 0x1C) || (0x20 ≤ op && op ≤ 0x27) || (0x30 ≤ op && op ≤ 0x38) ||
    (0x40 ≤ op && op ≤ 0x42) || (0x50 ≤ op && op ≤ 0x5E) || (0x60 ≤ op && op ≤ 0x66) || (0x70 ≤ op && op ≤ 0x72) ||
    (0x80 ≤ op && op ≤ 0x81) || (0x90 ≤ op && op ≤ 0x9E))

/-- RESERVED_OP: ILLEGAL (R402, R405). An OP that is not reserved is no such instruction. -/
def execReservedOp (n : Fin 32) (op : Byte) (s : State) : Out :=
  .next (if reservedOp op.toNat then s.issue n (fun e s => s.coreExc n e Exc.illegal 0) else s)

end Sys2Proof.Machine
end

