-- ==== Sys2Proof/Machine/CoreVector.lean ====
section
/-!
DEFINITION. The vector instructions of a matrix core (Table CORE-5, OP 0x50 to 0x66): lane arithmetic under a predicate,
conversions, comparisons, reductions, loads and stores, and the accumulator file (R403, R405, R409 to R413).
-/

namespace Sys2Proof.Machine

/-- A vector instruction writes lanes of V[VD] under PRED: `f` gets the instruction's free lane, the old lane of VD and the
lanes of VA and VB. A TYPE or FUNC beyond its list raises ILLEGAL (R402). -/
def State.vecOp (s : State) (n vd va vb pred : Nat) (legal : Bool) (f : Lane → Lane → Lane → Lane → Lane) : State :=
  s.issue n (fun e s =>
    if !legal then s.coreExc n e Exc.illegal 0
    else
      let seed := s.free
      State.nextWith { s with free := seed + 1 } n (fun c =>
        c.setLanes vd pred (fun l => f (Config.freeLane seed l) (c.lane vd l) (c.lane va l) (c.lane vb l))))

/-- Lane arithmetic under TYPE. -/
def State.vecArith (s : State) (n vd va vb pred ty : Nat) (op : LaneOp) : State :=
  s.vecOp n vd va vb pred (decide (ty ≤ 1)) (fun free d a b =>
    if ty = 0 then laneI32 op d a b else laneF32 op free d a b)

/-- VADD. -/
def execVadd (n : Fin 32) (vd va vb : Fin 32) (pred ty _func : Fin 8) (_imm : BitVec 32) (s : State) : Out :=
  .next (s.vecArith n vd va vb pred ty .add)

/-- VSUB. -/
def execVsub (n : Fin 32) (vd va vb : Fin 32) (pred ty _func : Fin 8) (_imm : BitVec 32) (s : State) : Out :=
  .next (s.vecArith n vd va vb pred ty .sub)

/-- VMUL. -/
def execVmul (n : Fin 32) (vd va vb : Fin 32) (pred ty _func : Fin 8) (_imm : BitVec 32) (s : State) : Out :=
  .next (s.vecArith n vd va vb pred ty .mul)

/-- VFMA. -/
def execVfma (n : Fin 32) (vd va vb : Fin 32) (pred ty _func : Fin 8) (_imm : BitVec 32) (s : State) : Out :=
  .next (s.vecArith n vd va vb pred ty .fma)

/-- VMIN. -/
def execVmin (n : Fin 32) (vd va vb : Fin 32) (pred ty _func : Fin 8) (_imm : BitVec 32) (s : State) : Out :=
  .next (s.vecArith n vd va vb pred ty .min)

/-- VMAX. -/
def execVmax (n : Fin 32) (vd va vb : Fin 32) (pred ty _func : Fin 8) (_imm : BitVec 32) (s : State) : Out :=
  .next (s.vecArith n vd va vb pred ty .max)

/-- VAND: bitwise; TYPE is ignored. -/
def execVand (n : Fin 32) (vd va vb : Fin 32) (pred _ty _func : Fin 8) (_imm : BitVec 32) (s : State) : Out :=
  .next (s.vecOp n vd va vb pred true (fun _ _ a b => a &&& b))

/-- VOR: bitwise; TYPE is ignored. -/
def execVor (n : Fin 32) (vd va vb : Fin 32) (pred _ty _func : Fin 8) (_imm : BitVec 32) (s : State) : Out :=
  .next (s.vecOp n vd va vb pred true (fun _ _ a b => a ||| b))

/-- VXOR: bitwise; TYPE is ignored. -/
def execVxor (n : Fin 32) (vd va vb : Fin 32) (pred _ty _func : Fin 8) (_imm : BitVec 32) (s : State) : Out :=
  .next (s.vecOp n vd va vb pred true (fun _ _ a b => a ^^^ b))

/-- VSRA: TYPE must be I32. -/
def execVsra (n : Fin 32) (vd va vb : Fin 32) (pred ty _func : Fin 8) (imm : BitVec 32) (s : State) : Out :=
  .next (s.vecOp n vd va vb pred (decide (ty.val = 0)) (fun _ _ a _ => a.sshiftRight (imm.toNat % 32)))

/-- VCVT. -/
def execVcvt (n : Fin 32) (vd va vb : Fin 32) (pred ty func : Fin 8) (_imm : BitVec 32) (s : State) : Out :=
  .next (s.vecOp n vd va vb pred (decide (ty.val ≤ 1) && decide (func.val ≤ 1)) (fun free _ a _ =>
    laneCvt func.val free a))

/-- The bits that lanes give. -/
def laneMask (p : Nat → Bool) : Word := BitVec.ofNat 64 (foldN 64 (fun v l => if p l then v + 2 ^ l else v) 0)

/-- VCMP: a lane false under PRED gives 0. -/
def execVcmp (n : Fin 32) (vd va vb : Fin 32) (pred ty func : Fin 8) (_imm : BitVec 32) (s : State) : Out :=
  .next (s.issue n (fun e s =>
    if 2 ≤ ty.val ∨ 4 ≤ func.val then s.coreExc n e Exc.illegal 0
    else s.nextWith n (fun c =>
      c.setP (vd.val % 8) (laneMask (fun l =>
        (c.preg pred).getLsbD l && laneCmp (decide (ty.val = 1)) func.val (c.lane va l) (c.lane vb l))))))

/-- VSEL. -/
def execVsel (n : Fin 32) (vd va vb : Fin 32) (pred _ty _func : Fin 8) (_imm : BitVec 32) (s : State) : Out :=
  .next (s.issue n (fun _ s => s.nextWith n (fun c =>
    let p := c.preg (vb.val % 8)
    c.setLanes vd pred (fun l => if p.getLsbD l then c.lane va l else c.lane vd l))))

/-- VACT (R410). -/
def execVact (n : Fin 32) (vd va vb : Fin 32) (pred ty func : Fin 8) (_imm : BitVec 32) (s : State) : Out :=
  .next (s.vecOp n vd va vb pred (decide (ty.val ≤ 1) && decide (func.val ≤ 6)) (fun free _ a _ =>
    laneAct func.val free a))

/-- The reduction of lanes in ascending order, by TYPE and FUNC. -/
def reduceLanes (fp : Bool) (f : Nat) (free : Lane) : List Lane → Lane
  | [] => if f = 0 then 0#32 else free
  | x :: xs =>
    xs.foldl (fun acc y =>
      if f = 0 then (if fp then laneF32 .add free 0#32 acc y else acc + y)
      else if f = 1 then (if fp then laneMin free acc y true else laneI32 .max 0#32 acc y)
      else (if fp then laneMin free acc y false else laneI32 .min 0#32 acc y)) x

/-- VRED: lane 0 gets the reduction, the other lanes 0. -/
def execVred (n : Fin 32) (vd va _vb : Fin 32) (pred ty func : Fin 8) (_imm : BitVec 32) (s : State) : Out :=
  .next (s.issue n (fun e s =>
    if 2 ≤ ty.val ∨ 3 ≤ func.val then s.coreExc n e Exc.illegal 0
    else
      let seed := s.free
      State.nextWith { s with free := seed + 1 } n (fun c =>
        let ls := ((List.range 64).filter (fun l => (c.preg pred).getLsbD l)).map (fun l => c.lane va l)
        let r := reduceLanes (decide (ty.val = 1)) func.val (Config.freeLane seed 0) ls
        c.setLanes vd 0 (fun l => if l = 0 then r else 0#32))))

/-! ### Vector loads and stores -/

/-- The bytes of 64 elements. -/
def vecBytes (dtype : Nat) : Nat := 64 * dtypeBits dtype / 8

/-- VLD: 64 elements of DTYPE, integers to I32, others to FP32. -/
def execVld (n : Fin 32) (vd ra : Fin 32) (dtype pred : Fin 8) (imm : BitVec 32) (s : State) : Out :=
  .next (s.issue n (fun e s =>
    let a := (s.core n).ea ra imm
    let d := dtype.val
    if a % dtypeBytes d ≠ 0 then s.coreExc n e Exc.misaligned a
    else
      match s.stageLoad n e a (vecBytes d) with
      | (none, s) => s
      | (some bs, s) =>
        let seed := s.free
        let cs := unpackCodes d bs 64
        State.nextWith { s with free := seed + 1 } n (fun c =>
          c.setLanes vd pred (fun l => codeLane d (Config.freeLane seed l) (cs.getD l 0)))))

/-- The bytes that a VST writes, as one-element parts: an INT4 element shares its byte with its neighbour, whose half
stays when it is not selected (R403, R409); in host memory, which the part does not hold, that half is a free value. -/
def State.vstParts (s : State) (c : Core) (d vs pred seed a : Nat) : List (Nat × List Byte) :=
  let p := c.preg pred
  let code := fun l => laneCode d (Config.freeLane seed l) (c.lane vs l)
  if d = 2 then
    (List.range 32).filterMap (fun i =>
      let lo := p.getLsbD (2 * i)
      let hi := p.getLsbD (2 * i + 1)
      if !lo && !hi then none
      else
        let old := if windowBase ≤ a + i then (Config.freeLane seed (64 + i)).toNat % 256 else (s.memByte (a + i)).toNat
        some (a + i, [BitVec.ofNat 8 ((if lo then code (2 * i) else old % 16) +
          16 * (if hi then code (2 * i + 1) else old / 16))]))
  else
    (List.range 64).filterMap (fun l =>
      if p.getLsbD l then some (a + l * dtypeBytes d, leBytes (dtypeBytes d) (code l)) else none)

/-- VST: a misaligned address is found first; a predicate that selects no lane makes no access (R411, R413). -/
def execVst (n : Fin 32) (vd ra : Fin 32) (dtype pred : Fin 8) (imm : BitVec 32) (s : State) : Out :=
  .next (s.issue n (fun e s =>
    let c := s.core n
    let a := c.ea ra imm
    let d := dtype.val
    if c.preg pred.val = 0#64 then s.next n
    else if a % dtypeBytes d ≠ 0 then s.coreExc n e Exc.misaligned a
    else
      let seed := s.free
      let parts := s.vstParts c d vd pred seed a
      match State.stageWriteParts { s with free := seed + 1 } n e parts with
      | (true, s) => s.next n
      | (false, s) => s))

/-- VBCAST. -/
def execVbcast (n : Fin 32) (vd ra : Fin 32) (_dtype pred : Fin 8) (_imm : BitVec 32) (s : State) : Out :=
  .next (s.issue n (fun _ s => s.nextWith n (fun c =>
    c.setLanes vd pred (fun _ => (c.sreg ra).setWidth 32))))

/-- VEXT. -/
def execVext (n : Fin 32) (vd ra : Fin 32) (_dtype _pred : Fin 8) (imm : BitVec 32) (s : State) : Out :=
  .next (s.issue n (fun _ s => s.nextWith n (fun c =>
    c.setS vd ((c.lane ra (imm.toNat % 64)).signExtend 64))))

/-! ### The accumulator file (Table CORE-2) -/

/-- The tiles that an MMA writes (R354). -/
def Mma.writes (x : Mma) (tile : Nat) : Bool := (List.range x.rows.length).any (fun m => (x.acc + m / 64) % 4 = tile)

/-- An earlier MMA that writes a tile has not completed. -/
def Core.tileBusy (c : Core) (tile : Nat) : Bool := c.mmas.any (fun x => x.writes tile)

/-- ACCRD: waits for the MMAs that write the row's tile; the entries that it reads are checked (R390). -/
def execAccrd (n : Fin 32) (vd ra : Fin 32) (_dtype pred : Fin 8) (_imm : BitVec 32) (s : State) : Out :=
  .next (s.issue n (fun e s =>
    let row := ((s.core n).sreg ra).toNat % 256
    if (s.core n).tileBusy (row / 64) then s
    else
      match s.accRead n (fun k => decide (k / 64 = row) && ((s.core n).preg pred).getLsbD (k % 64)) with
      | (true, s) => s.arrayExc n e ArrayExc.accUncorrectable
      | (false, s) => s.nextWith n (fun c => c.setLanes vd pred (fun l => c.accAt row l))))

/-- ACCWR, under PRED. -/
def execAccwr (n : Fin 32) (vd ra : Fin 32) (_dtype pred : Fin 8) (_imm : BitVec 32) (s : State) : Out :=
  .next (s.issue n (fun _ s =>
    let row := ((s.core n).sreg ra).toNat % 256
    if (s.core n).tileBusy (row / 64) then s
    else s.nextWith n (fun c =>
      foldN 64 (fun x l => if (c.preg pred).getLsbD l then x.setAcc row l (c.lane vd l) else x) c)))

/-- AFLAGS: the sticky flags of a tile, which then clear. -/
def execAflags (n : Fin 32) (rc _ra _rb : Fin 32) (_dtype : Fin 8) (acc : Fin 4) (_accum _rsrc : Bool) (_rows : Byte)
    (s : State) : Out :=
  .next (s.issue n (fun _ s =>
    if (s.core n).tileBusy acc.val then s
    else s.nextWith n (fun c => (c.setS rc (BitVec.ofNat 64 (c.tileFlags acc))).setTileFlags acc 0)))

end Sys2Proof.Machine
end

