-- ==== Sys2Proof/Machine/CoreArray.lean ====
section
/-!
DEFINITION. The matrix array (chapter 08): weight loads, MMAs and their completion, keeper operations, the joining and
splitting of pairs, and what a reset does to a core (R345 to R390, R442).
-/

namespace Sys2Proof.Machine

/-! ### Weight loads (R351, R353, R355, R406, R408) -/

/-- The bytes of a row of elements. -/
def rowBytesOf (dtype elems : Nat) : Nat := elems * dtypeBits dtype / 8

/-- Read rows of memory, one every `stride` bytes, as codes; the first that fails ends the reading. -/
def State.readRows (n : Nat) (e : Entry) (dtype elems stride : Nat) : Nat → State → Nat → List (List Nat) →
    Option (List (List Nat)) × State
  | 0, s, _, acc => (some acc.reverse, s)
  | k + 1, s, a, acc =>
    match s.stageLoad n e a (rowBytesOf dtype elems) with
    | (none, s) => (none, s)
    | (some bs, s) =>
      State.readRows n e dtype elems stride k s ((a + stride) % 2 ^ 64) (unpackCodes dtype bs elems :: acc)

/-- The codes of a tile by k × 64 + n; transposed, cell (k, n) receives row n, column k. -/
def tileCodes (rows : List (List Nat)) (transposed : Bool) (depth : Nat) : Sparse Nat :=
  foldN (64 * depth) (fun m i =>
    let k := i / 64
    let n := i % 64
    let c := if transposed then (rows.getD n []).getD k 0 else (rows.getD k []).getD n 0
    if c = 0 then m else m ++ [(i, c)]) []

/-- WLOAD and WLOADT. -/
def State.weightLoad (s : State) (n ra rb dtype : Nat) (transposed : Bool) : State :=
  s.issue n (fun e s =>
    let c := s.core n
    let a := (c.sreg ra).toNat
    let stride := (c.sreg rb).toNat
    if dtype = 1 ∨ 6 ≤ dtype then s.coreExc n e Exc.illegal 0
    else if a % 32 ≠ 0 ∨ stride % 32 ≠ 0 then s.coreExc n e Exc.misaligned a
    else if transposed ∧ dtype = 2 then s.arrayExc n e ArrayExc.transposeInt4
    else
      let depth := s.depth n
      let (rows, elems) := if transposed then (64, depth) else (depth, 64)
      match s.readRows n e dtype elems stride rows a [] with
      | (none, s) => s
      | (some rs, s) => s.nextWith n (fun c =>
        { c with shadow := some ⟨dtype, depth, tileCodes rs transposed depth⟩ }))

/-- WLOAD. -/
def execWload (n : Fin 32) (_rc ra rb : Fin 32) (dtype : Fin 8) (_acc : Fin 4) (_accum _rsrc : Bool) (_rows : Byte)
    (s : State) : Out := .next (s.weightLoad n ra rb dtype false)

/-- WLOADT. -/
def execWloadt (n : Fin 32) (_rc ra rb : Fin 32) (dtype : Fin 8) (_acc : Fin 4) (_accum _rsrc : Bool) (_rows : Byte)
    (s : State) : Out := .next (s.weightLoad n ra rb dtype true)

/-! ### MMA (R352, R354, R356 to R361, R406 to R408) -/

/-- The rows an MMA streams (R407). -/
def mmaCount (c : Core) (rc : Nat) (rsrc : Bool) (rows : Byte) : Nat :=
  if rsrc then (c.sreg rc).toNat % 256 + 1 else rows.toNat + 1

/-- The tile that an MMA uses: the shadow tile, which becomes active, else the active one (R352). -/
def Core.mmaTile (c : Core) : Option WTile := if c.shadow.isSome then c.shadow else c.active

/-- An MMA whose rows have been read issues: its tile is active, and it joins the MMAs that have not completed. The next
instruction follows; the MMA itself retires as its rows have drained (R955). -/
def State.mmaStart (s : State) (n : Nat) (e : Entry) (dtype acc : Nat) (accum : Bool) (t : WTile) (rows : List (List Nat)) :
    State :=
  let c := s.core n
  let x : Mma := { rows := rows, dtype := dtype, tile := t, acc := acc, accum := accum, pc := c.pc
                   bubble := s.rd (OD.FEEDER_MODE n) = 1, ent := some e }
  s.setCore n { c with
    active := some t, shadow := none, mmas := c.mmas ++ [x], gated := false, pc := if c.stepping then c.pc else c.pc + 8 }

/-- MMA: the rows and the tile they meet are taken as it issues; its results reach the accumulator as it completes. -/
def State.mma (s : State) (n rc ra rb dtype acc : Nat) (accum rsrc : Bool) (rows : Byte) : State :=
  s.issue n (fun e s =>
    let c := s.core n
    let a := (c.sreg ra).toNat
    let stride := (c.sreg rb).toNat
    if c.stepping ∧ c.mmas ≠ [] then s
    else if 6 ≤ dtype then s.coreExc n e Exc.illegal 0
    else if a % 32 ≠ 0 ∨ stride % 32 ≠ 0 then s.coreExc n e Exc.misaligned a
    else
      match c.mmaTile with
      | none => s.arrayExc n e ArrayExc.noTile
      | some t =>
        if !typesMatch t.dtype dtype then s.arrayExc n e ArrayExc.typeMismatch
        else
          match s.readRows n e dtype (s.depth n) stride (mmaCount c rc rsrc rows) a [] with
          | (none, s) => s
          | (some rs, s) => s.mmaStart n e dtype acc accum t rs)

/-- MMA. -/
def execMma (n : Fin 32) (rc ra rb : Fin 32) (dtype : Fin 8) (acc : Fin 4) (accum rsrc : Bool) (rows : Byte)
    (s : State) : Out := .next (s.mma n rc ra rb dtype acc accum rsrc rows)

/-- The item of an entry is still in flight: the slot holds it and it runs. -/
def State.entryLive (s : State) (e : Entry) : Bool :=
  decide ((s.item e.slot).seq = e.seq) && ((s.item e.slot).st = .running || (s.item e.slot).st = .admitted)

/-- An array exception found after issue, with its MMA's own address (R433, R434): it stops the stage that issued the MMA,
and with it the item; where the item has ended meanwhile, its words, counters and record remain. -/
def State.lateArrayExc (s : State) (n code : Nat) (x : Mma) : State :=
  match x.ent with
  | none => s
  | some e =>
    if s.entryLive e then s.exception n e true code x.pc 0 0
    else
      let w := excWord true code x.pc e.run e.stage e.flight 0
      (s.excNoted n true w x.pc 0).logFault
        ⟨0, FaultClass.stage, n, 0, 2 + n / 4, OD.ARRAY_EXCEPTIONS n, 0xFF, w, 0⟩

/-- The keeper cycles of gaps that no ramp down ended (Table ARRY-5): each fills whole, up to KEEPER_GAP. -/
def State.keeperCycles (s : State) (gaps : List (BitVec 32)) : Nat :=
  (gaps.map (fun g => min g.toNat (s.rd OD.KEEPER_GAP))).foldl (· + ·) 0

/-- The feeder and keeper counters of a completed MMA (R358 to R360, R366, R367). -/
def State.mmaCounted (s : State) (n : Nat) (rep : MmaReport) (bubble : Bool) : State :=
  (if bubble then s.bumpN (OD.FEED_BUBBLES n) rep.late.toNat
    else s.bumpN (OD.FEED_STALL_CYCLES n) rep.late.toNat).bumpN (OD.KEEPER_CYCLES n) (s.keeperCycles rep.gaps)

/-- The results of a completed MMA reach the accumulator (R354), and it retires (R955). -/
def State.mmaAdd (s : State) (n : Nat) (x : Mma) : State :=
  let r := (s.core n).mmaRows s.free x
  let s := State.setCore { s with free := s.free + 1 } n r.1
  let s := if r.2 = 0 then s else s.bump (OD.SAT_EVENTS n)
  if r.1.stepping && decide (r.1.pc = x.pc) then s.next n else (s.setCore n (s.core n).applyRegw).countInstr n

/-- The accumulator entries that an MMA reads: those that it adds to (R354). -/
def Mma.reads (x : Mma) (k : Nat) : Bool :=
  x.accum && decide ((k / 64 + 256 - 64 * x.acc % 256) % 256 < x.rows.length)

/-- The oldest MMA of a core completes: feeder and keeper counters, the checks' findings, the results (R354 to R361, R366,
R389, R390). -/
def State.mmaDone (s : State) (n : Nat) (rep : MmaReport) : State :=
  let c := s.core n
  match c.mmas with
  | [] => s
  | x :: rest =>
    let s := (s.setCore n { c with mmas := rest, gated := c.gated && !rep.fed }).mmaCounted n rep x.bubble
    if rep.parity then
      State.lateArrayExc (s.setCore n { s.core n with active := none, shadow := none }) n ArrayExc.weightParity x
    else
      match s.accRead n x.reads with
      | (true, s) => s.lateArrayExc n ArrayExc.accUncorrectable x
      | (false, s) => s.mmaAdd n x

/-- MMA_COMPLETE. -/
def execMmaComplete (n : Fin 32) (rep : MmaReport) (s : State) : Out :=
  .next (if s.flag OD.GATE ∨ s.held n then s else s.mmaDone n rep)

/-- KEEPER_RAMP_DOWN: a gap has outlasted KEEPER_GAP, between MMAs, within one or while one drains: KEEPER_GAP keeper cycles,
then a ramp down to gated idle (R366, R367, Table ARRY-5). -/
def execKeeperRampDown (n : Fin 32) (s : State) : Out :=
  .next (
    let c := s.core n
    if !s.powered (2 + n / 4) ∨ s.flag OD.GATE ∨ s.held n ∨ (c.gated ∧ c.mmas = []) then s
    else (s.setCore n { c with gated := true }).bumpN (OD.KEEPER_CYCLES n) (s.rd OD.KEEPER_GAP))

/-! ### Double-height pairs (R369 to R375) -/

/-- A core has no stage and no MMA in its array, and is not halted. -/
def State.coreFree (s : State) (n : Nat) : Bool :=
  (s.core n).st = .idle && (s.core n).mmas.isEmpty && !(s.flit.entries.any (fun e => e.st = .issued && e.covers n))

/-- A core's tiles become invalid and its array stands at gated idle. -/
def State.dropTiles (s : State) (n : Nat) : State :=
  s.setCore n { s.core n with active := none, shadow := none, gated := true }

/-- Carry out, defer or drop a change of pair p (R372 to R374). The seam check of a pair fails while its bit of `seamBad`
is set; a failed change is not attempted again until PAIR_MODE is committed again. -/
def State.pairAttempt (s : State) (p : Nat) : State :=
  if s.rd (OD.PAIR_MODE p) = s.rd (OD.PAIR_STATE p) ∨ !s.powered (2 + p / 2) then s.wr (OD.PAIR_PENDING p) 0
  else if bit s.arr.failed p then s
  else if !(s.coreFree (2 * p) && s.coreFree (2 * p + 1)) then (s.wr (OD.PAIR_PENDING p) 1).bump OD.PAIR_DEFERRALS
  else
    let s := ((s.dropTiles (2 * p)).dropTiles (2 * p + 1)).wr (OD.PAIR_PENDING p) 0
    if bit s.arr.seamBad p then
      State.record { s with arr := { s.arr with failed := setBit s.arr.failed p true } }
        FaultClass.stage (2 * p) (2 + p / 2) (OD.PAIR_STATE p) 0 p
    else s.wr (OD.PAIR_STATE p) (s.rd (OD.PAIR_MODE p))

/-- Every pair whose change is due (step 6, or a commit while STOPPED). -/
def State.pairsAll (s : State) : State := foldN 16 (fun s p => s.pairAttempt p) s

/-- A commit of PAIR_MODE lets a failed change be attempted again (R374). -/
def State.pairCommitted (s : State) (p : Nat) : State :=
  { s with arr := { s.arr with failed := setBit s.arr.failed p false } }

/-! ### Reset of a core (R385, R442) -/

/-- A core's registers after a reset: the values of R423, tiles invalid, nothing queued. -/
def Core.afterReset (c : Core) : Core :=
  { c.cleared with
    st := .idle, active := none, shadow := none, mmas := [], gated := true, dmaq := [], running := none
    outBytes := 0, emptyMark := false, plan := [], tiled := false, sealed := false, emitter := false
    haltReq := false, wasParked := false, stopped := false, grant := none, stepping := false, regw := [] }

/-- The array and the registers of a core are reset; a reset of either core of a joined pair resets both. -/
def State.resetCore (s : State) (n : Nat) : State :=
  let one := fun (s : State) (m : Nat) => s.setCore m (s.core m).afterReset
  if s.joined n then one (one s (n / 2 * 2)) (n / 2 * 2 + 1) else one s n

end Sys2Proof.Machine
end

