-- ==== Sys2Proof/Machine/CoreDma.lean ====
section
/-!
DEFINITION. The core DMA engine (R414 to R419) and the landing instructions (R420, R421, Table CORE-7).
-/

namespace Sys2Proof.Machine

/-! ### DMA -/

/-- A DMA descriptor from its 64 bytes (Table CORE-6). -/
def dmaDesc (bs : List Byte) : DmaDesc :=
  let v := ofLe bs
  let flags := bits v (8 * 0x16) 16
  { src := bits v 0 48, dst := bits v 64 48, rowBytes := bits v (8 * 0x10) 32, rows := bits v (8 * 0x14) 16
    signal := bit flags 0, op := bits flags 1 2, srcStride := bits v (8 * 0x18) 32, dstStride := bits v (8 * 0x1C) 32
    landing := bits v (8 * 0x20) 16, payload := bits v (8 * 0x28) 48 }

/-- DMA: waits while the queue holds four descriptors; DMA_PARAM outside the own alcove or above the row limit,
MISALIGNED off a multiple of 64 (R414, R415). -/
def execDma (n : Fin 32) (_rd ra _rb : Fin 32) (s : State) : Out :=
  .next (s.issue n (fun e s =>
    let c := s.core n
    let a := (c.sreg ra).toNat
    if 4 ≤ c.dmaq.length then s
    else if a < (alcoveRange n).1 ∨ (alcoveRange n).2 ≤ a then s.coreExc n e Exc.dmaParam a
    else if a % 64 ≠ 0 then s.coreExc n e Exc.misaligned a
    else
      match s.stageLoad n e a 64 with
      | (none, s) => s
      | (some bs, s) =>
        let d := dmaDesc bs
        if 0x1000000 < d.rowBytes then s.coreExc n e Exc.dmaParam a
        else s.nextWith n (fun c => { c with dmaq := c.dmaq ++ [{ d with pc := c.pc }] })))

/-- DMAWAIT. -/
def execDmawait (n : Fin 32) (imm : BitVec 32) (s : State) : Out :=
  .next (s.issue n (fun _ s =>
    let c := s.core n
    if imm.toNat % 4 < c.dmaq.length + b2n c.running.isSome then s else s.next n))

/-- The bytes that a row copy leaves, source and destination overlapping: in ascending byte order a destination that
follows the source by `d` repeats its first `d` bytes (R416). -/
def overlapCopy (src dst : Nat) (bs : List Byte) : List Byte :=
  let d := dst - src
  if 0 < d ∧ d < bs.length then (List.range bs.length).map (fun i => bs.getD (i % d) 0#8) else bs

/-- The bytes of a copy's next access: up to the end of the source's and of the destination's 64-byte line. -/
def dmaPiece (src dst left : Nat) : Nat := min left (min (64 - src % 64) (64 - dst % 64))

/-- Copy the `left` bytes of a row that remain, one access after another; the first error response ends the descriptor there
(R416, R419). Answers whether the row was copied. -/
def State.dmaBytes (n : Nat) (e : Entry) : Nat → Nat → Nat → Nat → State → Bool × State
  | 0, _, _, _, s => (true, s)
  | fuel + 1, src, dst, left, s =>
    if left = 0 then (true, s)
    else
      let k := dmaPiece src dst left
      match s.stageLoad n e src k with
      | (none, s) => (false, s)
      | (some bs, s) =>
        match s.stageWrite n e dst (overlapCopy src dst bs) with
        | (false, s) => (false, s)
        | (true, s) => State.dmaBytes n e fuel (src + k) (dst + k) (left - k) (s.bump64 (OD.DMA_BYTES n) k)

/-- Copy `k` rows from row i on; a row is checked for PROTECT before any of it is written (R412, R416, R419). Answers whether
every row was copied. -/
def State.dmaRows (n : Nat) (e : Entry) (d : DmaDesc) : Nat → Nat → State → Bool × State
  | 0, _, s => (true, s)
  | k + 1, i, s =>
    let dst := d.dst + i * d.dstStride
    match firstByte (fun x => s.protects n x) dst d.rowBytes with
    | some x => (false, s.exception n e false Exc.protect d.pc 0 x)
    | none =>
      match State.dmaBytes n e d.rowBytes (d.src + i * d.srcStride) dst d.rowBytes s with
      | (false, s) => (false, s)
      | (true, s) => State.dmaRows n e d k (i + 1) s

/-- The DMA engine starts the next queued descriptor and copies its rows; a halted core's queued descriptors wait (R416,
R444); a zero length marks the stage EMPTY and makes no access (R418). -/
def execDmaDescriptorRun (n : Fin 32) (s : State) : Out :=
  .next (
    let c := s.core n
    match c.running, c.dmaq, s.runningOn n with
    | none, d :: rest, some e =>
      if c.st = .halted ∨ s.flag OD.GATE then s
      else if d.rowBytes * d.rows = 0 then
        s.setCore n { c with dmaq := rest, running := some d, emptyMark := true }
      else
        (State.dmaRows n e d d.rows 0 (s.setCore n { c with dmaq := rest, running := some d })).2
    | _, _, _ => s)

/-- The landing operation that a descriptor applies (Table CORE-6); a sealed stage's PUSH carries the mark (R743). -/
def DmaDesc.landOp (d : DmaDesc) (mark : Bool) : LandOp :=
  if d.op = 0 then .add 1 else if d.op = 1 then .set else if d.op = 2 then .arrive
  else .push (BitVec.ofNat 64 d.payload) mark

/-- The running descriptor completes and applies its signal as the core (R417); an operation error faults the stage with
cause 0x05, a refused one with 0x04. -/
def execDmaDescriptorDone (n : Fin 32) (s : State) : Out :=
  .next (
    let c := s.core n
    match c.running, s.runningOn n with
    | some d, some e =>
      if s.flag OD.GATE then s else
      let s := s.setCore n { c with running := none }
      if !d.signal then s
      else
        let op := d.landOp c.sealed
        match s.landOp (s.stageReq n e) d.landing op 0 with
        | (none, s) => s.stageFault e 4 (landAddr d.landing op) none
        | (some .error, s) => s.stageFault e 5 0 none
        | (some _, s) => s
    | _, _ => s)

/-! ### Landing instructions (Table CORE-7) -/

/-- A landing instruction on landing S[RA] + IMM; `op` gets the data S[RB] and the stage's sealed mark. -/
def State.landingInstr (s : State) (n rd ra rb : Nat) (imm : BitVec 16) (op : Word → Bool → LandOp) : State :=
  s.issue n (fun e s =>
    let c := s.core n
    s.stageLanding n e (((c.sreg ra).toNat + imm.toNat) % 65536) (op (c.sreg rb) c.sealed) rd)

/-- LREAD. -/
def execLread (n : Fin 32) (rd ra rb : Fin 32) (imm : BitVec 16) (s : State) : Out :=
  .next (s.landingInstr n rd ra rb imm (fun _ _ => .read))

/-- LINIT. -/
def execLinit (n : Fin 32) (_rd ra rb : Fin 32) (imm : BitVec 16) (s : State) : Out :=
  .next (s.landingInstr n 0 ra rb imm (fun d _ => .init d))

/-- LADD. -/
def execLadd (n : Fin 32) (_rd ra rb : Fin 32) (imm : BitVec 16) (s : State) : Out :=
  .next (s.landingInstr n 0 ra rb imm (fun d _ => .add d))

/-- LSET. -/
def execLset (n : Fin 32) (_rd ra rb : Fin 32) (imm : BitVec 16) (s : State) : Out :=
  .next (s.landingInstr n 0 ra rb imm (fun _ _ => .set))

/-- LCLR. -/
def execLclr (n : Fin 32) (_rd ra rb : Fin 32) (imm : BitVec 16) (s : State) : Out :=
  .next (s.landingInstr n 0 ra rb imm (fun _ _ => .clear))

/-- LACQ. -/
def execLacq (n : Fin 32) (rd ra rb : Fin 32) (imm : BitVec 16) (s : State) : Out :=
  .next (s.landingInstr n rd ra rb imm (fun _ _ => .acquire))

/-- LTRY. -/
def execLtry (n : Fin 32) (rd ra rb : Fin 32) (imm : BitVec 16) (s : State) : Out :=
  .next (s.landingInstr n rd ra rb imm (fun _ _ => .tryLock))

/-- LREL. -/
def execLrel (n : Fin 32) (_rd ra rb : Fin 32) (imm : BitVec 16) (s : State) : Out :=
  .next (s.landingInstr n 0 ra rb imm (fun _ _ => .release))

/-- LARR. -/
def execLarr (n : Fin 32) (_rd ra rb : Fin 32) (imm : BitVec 16) (s : State) : Out :=
  .next (s.landingInstr n 0 ra rb imm (fun _ _ => .arrive))

/-- LWAIT. -/
def execLwait (n : Fin 32) (rd ra rb : Fin 32) (imm : BitVec 16) (s : State) : Out :=
  .next (s.landingInstr n rd ra rb imm (fun _ _ => .wait))

/-- LACK. -/
def execLack (n : Fin 32) (_rd ra rb : Fin 32) (imm : BitVec 16) (s : State) : Out :=
  .next (s.landingInstr n 0 ra rb imm (fun d _ => .ack d))

/-- LPUSH. -/
def execLpush (n : Fin 32) (_rd ra rb : Fin 32) (imm : BitVec 16) (s : State) : Out :=
  .next (s.landingInstr n 0 ra rb imm (fun d mark => .push d mark))

/-- LTAKE. -/
def execLtake (n : Fin 32) (rd ra rb : Fin 32) (imm : BitVec 16) (s : State) : Out :=
  .next (s.landingInstr n rd ra rb imm (fun _ _ => .take))

/-- LPORT. -/
def execLport (n : Fin 32) (rd ra rb : Fin 32) (imm : BitVec 16) (s : State) : Out :=
  .next (s.landingInstr n rd ra rb imm (fun _ _ => .portStatus))

/-- LPEEK. -/
def execLpeek (n : Fin 32) (rd ra rb : Fin 32) (imm : BitVec 16) (s : State) : Out :=
  .next (s.landingInstr n rd ra rb imm (fun d _ => .peek (d.toNat % 4)))

end Sys2Proof.Machine
end

