-- ==== Sys2Proof/Machine/Crypto.lean ====
section
/-!
DEFINITION. SHA-384 and ECDSA P-384 as FIPS 180-4 and FIPS 186-5 define them, which R304, R309 and R893 name. Their constants are
taken from those texts (PRESUMED, notes/assumptions/9.md).
-/

namespace Sys2Proof.Machine

/-! ### SHA-384 (R304, R309, R893, R962) -/

/-- The round constants: the first 64 bits of the fractional parts of the cube roots of the first 80 primes. -/
def shaK : List Nat :=
  [0x428A2F98D728AE22, 0x7137449123EF65CD, 0xB5C0FBCFEC4D3B2F,
   0xE9B5DBA58189DBBC, 0x3956C25BF348B538, 0x59F111F1B605D019,
   0x923F82A4AF194F9B, 0xAB1C5ED5DA6D8118, 0xD807AA98A3030242,
   0x12835B0145706FBE, 0x243185BE4EE4B28C, 0x550C7DC3D5FFB4E2,
   0x72BE5D74F27B896F, 0x80DEB1FE3B1696B1, 0x9BDC06A725C71235,
   0xC19BF174CF692694, 0xE49B69C19EF14AD2, 0xEFBE4786384F25E3,
   0x0FC19DC68B8CD5B5, 0x240CA1CC77AC9C65] ++
  [0x2DE92C6F592B0275, 0x4A7484AA6EA6E483, 0x5CB0A9DCBD41FBD4,
   0x76F988DA831153B5, 0x983E5152EE66DFAB, 0xA831C66D2DB43210,
   0xB00327C898FB213F, 0xBF597FC7BEEF0EE4, 0xC6E00BF33DA88FC2,
   0xD5A79147930AA725, 0x06CA6351E003826F, 0x142929670A0E6E70,
   0x27B70A8546D22FFC, 0x2E1B21385C26C926, 0x4D2C6DFC5AC42AED,
   0x53380D139D95B3DF, 0x650A73548BAF63DE, 0x766A0ABB3C77B2A8,
   0x81C2C92E47EDAEE6, 0x92722C851482353B] ++
  [0xA2BFE8A14CF10364, 0xA81A664BBC423001, 0xC24B8B70D0F89791,
   0xC76C51A30654BE30, 0xD192E819D6EF5218, 0xD69906245565A910,
   0xF40E35855771202A, 0x106AA07032BBD1B8, 0x19A4C116B8D2D0C8,
   0x1E376C085141AB53, 0x2748774CDF8EEB99, 0x34B0BCB5E19B48A8,
   0x391C0CB3C5C95A63, 0x4ED8AA4AE3418ACB, 0x5B9CCA4F7763E373,
   0x682E6FF3D6B2B8A3, 0x748F82EE5DEFB2FC, 0x78A5636F43172F60,
   0x84C87814A1F0AB72, 0x8CC702081A6439EC] ++
  [0x90BEFFFA23631E28, 0xA4506CEBDE82BDE9, 0xBEF9A3F7B2C67915,
   0xC67178F2E372532B, 0xCA273ECEEA26619C, 0xD186B8C721C0C207,
   0xEADA7DD6CDE0EB1E, 0xF57D4F7FEE6ED178, 0x06F067AA72176FBA,
   0x0A637DC5A2C898A6, 0x113F9804BEF90DAE, 0x1B710B35131C471B,
   0x28DB77F523047D84, 0x32CAAB7B40C72493, 0x3C9EBE0A15C9BEBC,
   0x431D67C49C100D4C, 0x4CC5D4BECB3E42B6, 0x597F299CFC657E2A,
   0x5FCB6FAB3AD6FAEC, 0x6C44198C4A475817]

/-- The initial hash value of SHA-384. -/
def shaInit : List Nat :=
  [0xCBBB9D5DC1059ED8, 0x629A292A367CD507, 0x9159015A3070DD17,
   0x152FECD8F70E5939, 0x67332667FFC00B31, 0x8EB44A8768581511,
   0xDB0C2E0D64F98FA7, 0x47B5481DBEFA4FA4]

/-- A number as a 64-bit word. -/
def word64 (x : Nat) : Nat := x % 2 ^ 64

/-- A 64-bit word rotated right. -/
def rotr64 (x k : Nat) : Nat := Nat.lor (x / 2 ^ k) (word64 (x * 2 ^ (64 - k)))

/-- The exclusive or of three words. -/
def xor3 (a b c : Nat) : Nat := Nat.xor (Nat.xor a b) c

/-- The functions of FIPS 180-4. -/
def shaCh (x y z : Nat) : Nat := Nat.xor (Nat.land x y) (Nat.land (Nat.xor x (2 ^ 64 - 1)) z)
def shaMaj (x y z : Nat) : Nat := xor3 (Nat.land x y) (Nat.land x z) (Nat.land y z)
def shaBig0 (x : Nat) : Nat := xor3 (rotr64 x 28) (rotr64 x 34) (rotr64 x 39)
def shaBig1 (x : Nat) : Nat := xor3 (rotr64 x 14) (rotr64 x 18) (rotr64 x 41)
def shaSmall0 (x : Nat) : Nat := xor3 (rotr64 x 1) (rotr64 x 8) (x / 2 ^ 7)
def shaSmall1 (x : Nat) : Nat := xor3 (rotr64 x 19) (rotr64 x 61) (x / 2 ^ 6)

/-- The working variables of a block. -/
structure ShaVars where
  a : Nat
  b : Nat
  c : Nat
  d : Nat
  e : Nat
  f : Nat
  g : Nat
  h : Nat
  deriving DecidableEq, Repr

/-- One round. -/
def shaRound (v : ShaVars) (k w : Nat) : ShaVars :=
  let t1 := v.h + shaBig1 v.e + shaCh v.e v.f v.g + k + w
  let t2 := shaBig0 v.a + shaMaj v.a v.b v.c
  ⟨word64 (t1 + t2), v.a, v.b, v.c, word64 (v.d + t1), v.e, v.f, v.g⟩

/-- The next word of the message schedule, from the sixteen before it, oldest first. -/
def shaNextWord (ws : List Nat) : Nat :=
  word64 (shaSmall1 (ws.getD 14 0) + ws.getD 9 0 + shaSmall0 (ws.getD 1 0) + ws.getD 0 0)

/-- The rounds of a block: each takes the oldest word of the schedule's window and puts the next one behind it. -/
def shaRounds : List Nat → List Nat → ShaVars → ShaVars
  | [], _, v => v
  | k :: ks, ws, v => shaRounds ks (ws.tail ++ [shaNextWord ws]) (shaRound v k (ws.getD 0 0))

/-- A byte string as a big-endian number. -/
def ofBe (bs : List (BitVec 8)) : Nat := bs.foldl (fun n b => n * 256 + b.toNat) 0

/-- The hash value after a block of 128 bytes. -/
def shaBlock (h : List Nat) (bs : List (BitVec 8)) : List Nat :=
  let ws := (List.range 16).map (fun i => ofBe ((bs.drop (8 * i)).take 8))
  let g := fun i => h.getD i 0
  let v := shaRounds shaK ws ⟨g 0, g 1, g 2, g 3, g 4, g 5, g 6, g 7⟩
  [word64 (g 0 + v.a), word64 (g 1 + v.b), word64 (g 2 + v.c), word64 (g 3 + v.d), word64 (g 4 + v.e), word64 (g 5 + v.f),
   word64 (g 6 + v.g), word64 (g 7 + v.h)]

/-- The blocks of a padded message. -/
def shaBlocks : Nat → List Nat → List (BitVec 8) → List Nat
  | 0, h, _ => h
  | n + 1, h, bs => shaBlocks n (shaBlock h (bs.take 128)) (bs.drop 128)

/-- The padding of a message of n bytes: a one bit, zeros, and the length in bits as 128 bits. -/
def shaPad (n : Nat) : List (BitVec 8) :=
  0x80#8 :: List.replicate ((239 - n % 128) % 128) 0#8 ++
    ((List.range 16).map (fun i => BitVec.ofNat 8 (8 * n / 256 ^ (15 - i))))

/-- SHA-384 of a byte string, as a number. -/
def sha384 (bs : List (BitVec 8)) : Nat :=
  let h := shaBlocks ((bs.length + 144) / 128) shaInit (bs ++ shaPad bs.length)
  (h.take 6).foldl (fun n w => n * 2 ^ 64 + w) 0

/-! ### The curve P-384 -/

/-- The field's prime, the coefficient b (a is -3), the order of the base point, and the base point. -/
def p384 : Nat := 2 ^ 384 - 2 ^ 128 - 2 ^ 96 + 2 ^ 32 - 1
def p384b : Nat := 0xB3312FA7E23EE7E4988E056BE3F82D19181D9C6EFE8141120314088F5013875AC656398D8A2ED19D2A85C8EDD3EC2AEF
def p384n : Nat := 0xFFFFFFFFFFFFFFFFFFFFFFFFFFFFFFFFFFFFFFFFFFFFFFFFC7634D81F4372DDF581A0DB248B0A77AECEC196ACCC52973
def p384x : Nat := 0xAA87CA22BE8B05378EB1C71EF320AD746E1D3B628BA79B9859F741E082542A385502F25DBF55296C3A545E3872760AB7
def p384y : Nat := 0x3617DE4A96262C6F5D9E98BF9292DC29F8F41DBD289A147CE9DA3113B5F0B8C00A60B1CE1D7E819D7A431D7C90EA0E5F

/-- A point (x, y) lies on the curve (R898). -/
def onCurve (x y : Nat) : Bool :=
  decide (x < p384) && decide (y < p384) && y * y % p384 = (x * x * x + (p384 - 3) * x + p384b) % p384

/-- A difference modulo the prime. -/
def subP (a b : Nat) : Nat := (a + p384 - b % p384) % p384

/-- A point in Jacobian coordinates: (X / Z², Y / Z³), at infinity where Z is 0. -/
structure CurvePoint where
  x : Nat
  y : Nat
  z : Nat
  deriving DecidableEq, Repr

/-- Twice a point. -/
def CurvePoint.dbl (p : CurvePoint) : CurvePoint :=
  let zz := p.z * p.z % p384
  let yy := p.y * p.y % p384
  let s := 4 * p.x * yy % p384
  let m := 3 * (subP p.x zz) * (p.x + zz) % p384
  let x := subP (m * m) (2 * s)
  ⟨x, subP (m * subP s x) (8 * yy * yy), 2 * p.y * p.z % p384⟩

/-- The sum of two points. -/
def CurvePoint.add (p q : CurvePoint) : CurvePoint :=
  if p.z = 0 then q
  else if q.z = 0 then p
  else
    let pz := p.z * p.z % p384
    let qz := q.z * q.z % p384
    let u := p.x * qz % p384
    let s := p.y * qz % p384 * q.z % p384
    let h := subP (q.x * pz) u
    let r := subP (q.y * pz % p384 * p.z) s
    if h = 0 then (if r = 0 then p.dbl else ⟨1, 1, 0⟩)
    else
      let hh := h * h % p384
      let hhh := hh * h % p384
      let x := subP (r * r) (hhh + 2 * u * hh)
      ⟨x, subP (r * subP (u * hh) x) (s * hhh), p.z * q.z % p384 * h % p384⟩

/-- A multiple of a point, by the bits of the number from bit n - 1 down. -/
def CurvePoint.mul (p : CurvePoint) (k : Nat) : Nat → CurvePoint → CurvePoint
  | 0, acc => acc
  | n + 1, acc => CurvePoint.mul p k n (if k / 2 ^ n % 2 = 1 then acc.dbl.add p else acc.dbl)

/-- A power modulo m, by the bits of the exponent from bit n - 1 down. -/
def powMod (b e m : Nat) : Nat → Nat → Nat
  | 0, acc => acc
  | n + 1, acc => powMod b e m n (if e / 2 ^ n % 2 = 1 then acc * acc % m * b % m else acc * acc % m)

/-- The inverse modulo a prime of 384 bits. -/
def invMod (b m : Nat) : Nat := powMod (b % m) (m - 2) m 384 1

/-- ECDSA P-384 verification of a signature (r, s) over a digest under the public key (x, y) (FIPS 186-5). -/
def ecdsaVerify (x y digest r s : Nat) : Bool :=
  if r = 0 ∨ p384n ≤ r ∨ s = 0 ∨ p384n ≤ s ∨ !onCurve x y then false
  else
    let w := invMod s p384n
    let inf : CurvePoint := ⟨1, 1, 0⟩
    let p := (CurvePoint.mul ⟨p384x, p384y, 1⟩ (digest * w % p384n) 384 inf).add
      (CurvePoint.mul ⟨x, y, 1⟩ (r * w % p384n) 384 inf)
    if p.z = 0 then false
    else
      let zi := invMod p.z p384
      decide (p.x * (zi * zi % p384) % p384 % p384n = r)

end Sys2Proof.Machine
end

