-- ==== Sys2Proof/Machine/Keys.lean ====
section
/-!
DEFINITION. Key slots and what a check asks of them (R895, R925), CRC-32C, the signature check that images and firmware
share (R304, R893), the boot flash's bytes (R889 to R891), and what a reset that cuts the AON controller's operations off
leaves of them (R922 to R925).
-/

namespace Sys2Proof.Machine

/-- A key slot's fuses. -/
def State.keySlot (s : State) (k : Nat) : KeySlot := Sparse.get (fun _ => {}) s.boot.keys k

/-- Store a key slot's fuses. -/
def State.setKeySlot (s : State) (k : Nat) (x : KeySlot) : State :=
  { s with boot := { s.boot with keys := Sparse.put (fun _ => {}) s.boot.keys k x } }

/-- KEY_STATE: 0 EMPTY, 1 ACTIVE, 2 REVOKED, 3 DEFECT. -/
def KeySlot.state (x : KeySlot) : Nat := if x.valid then (if x.revoked then 2 else 1) else if x.defect then 3 else 0

/-- The lifecycle states (Table BOOT-5). -/
abbrev Life.manufacture : Nat := 0
abbrev Life.develop : Nat := 1
abbrev Life.secure : Nat := 2
abbrev Life.retired : Nat := 3

/-- Usage bits (Table BOOT-4). -/
abbrev KeyUse.firmware : Nat := 0
abbrev KeyUse.image : Nat := 1
abbrev KeyUse.debug : Nat := 2

/-- A key is usable for a purpose (R895). -/
def State.keyUsable (s : State) (k use : Nat) : Bool :=
  let x := s.keySlot k
  decide (x.state = 1) && bit x.usage use && (!bit x.usage 3 || decide (s.boot.life ≤ Life.develop)) &&
  decide (s.boot.life ≠ Life.retired)

/-- One bit of CRC-32C, reflected. -/
def crcBit (c : BitVec 32) : BitVec 32 := if c.getLsbD 0 then (c >>> 1) ^^^ 0x82F63B78#32 else c >>> 1

/-- One byte of CRC-32C. -/
def crcByte (c : BitVec 32) (b : Byte) : BitVec 32 :=
  foldN 8 (fun c _ => crcBit c) (c ^^^ b.setWidth 32)

/-- CRC-32C of a byte string. -/
def crc32c (bs : List Byte) : Nat := ((bs.foldl crcByte 0xFFFFFFFF#32) ^^^ 0xFFFFFFFF#32).toNat

/-- A field of a byte string: `n` bytes from an offset, little-endian. -/
def fieldAt (bs : List Byte) (off n : Nat) : Nat := ofLe ((bs.drop off).take n)

/-- A signature (r, s) over the SHA-384 digest of a message verifies under a key slot's point, x below y (R304, R893, R962). -/
def KeySlot.verifies (x : KeySlot) (msg : List Byte) (r s : Nat) : Bool :=
  ecdsaVerify (x.point % 2 ^ 384) (x.point / 2 ^ 384) (sha384 msg) r s

/-- A message verifies under the key of slot k with the signature of a signature block (Table LOAD-6, R304, R893). -/
def State.verifies (s : State) (k : Nat) (msg block : List Byte) : Bool :=
  (s.keySlot k).verifies msg (fieldAt block 8 48) (fieldAt block 0x38 48)

/-! ### The boot flash's bytes (R889 to R891) -/

/-- Change the AON controller's store. -/
def State.setBoot (s : State) (b : Boot) : State := { s with boot := b }

/-- The firmware slots' part of the flash. -/
def inSlots (a : Nat) : Bool := decide (0x100000 ≤ a ∧ a < 0x300000)

/-- A byte of the flash: the slots are those of the off-module flash when BOOT_SEL read high (R890). -/
def State.flashByte (s : State) (a : Nat) : Byte :=
  if inSlots a && Config.bootSel then Sparse.get (fun _ => 0xFF#8) s.boot.offFlash a
  else Sparse.get (fun _ => 0xFF#8) s.boot.flash a

/-- `n` bytes of the flash. -/
def State.flashBytes (s : State) (a n : Nat) : List Byte := (List.range n).map (fun i => s.flashByte (a + i))

/-- Store one byte of the flash. -/
def State.setFlashByte (s : State) (a : Nat) (b : Byte) : State :=
  if inSlots a && Config.bootSel then
    s.setBoot { s.boot with offFlash := Sparse.put (fun _ => 0xFF#8) s.boot.offFlash a b }
  else s.setBoot { s.boot with flash := Sparse.put (fun _ => 0xFF#8) s.boot.flash a b }

/-- Program bytes: each becomes the AND of its old value and the written one (R891). -/
def State.flashAnd (s : State) (a : Nat) : List Byte → State
  | [] => s
  | b :: bs => State.flashAnd (s.setFlashByte a (s.flashByte a &&& b)) (a + 1) bs

/-- Erase the bytes from `lo` to below `hi`. -/
def State.flashErase (s : State) (lo hi : Nat) : State :=
  let p := fun a => decide (lo ≤ a ∧ a < hi)
  s.setBoot { s.boot with
    flash := Sparse.clear (fun a => p a && !(inSlots a && Config.bootSel)) s.boot.flash
    offFlash := Sparse.clear (fun a => p a && inSlots a && Config.bootSel) s.boot.offFlash }

/-! ### Operations cut off (R922 to R925) -/

/-- Free bytes, drawn one by one. -/
def State.freeBytes (s : State) (n : Nat) : List Byte × State :=
  ((List.range n).map (fun i => BitVec.ofNat 8 (Config.freeNat (s.free + i))), { s with free := s.free + n })

/-- A flash operation is cut off: some bits of the bytes concerned have changed, which ones is open. -/
def State.cutFlash (s : State) : State :=
  match s.boot.op with
  | none => s
  | some (.program off bs) =>
    let (fs, s) := s.freeBytes bs.length
    let s := s.flashAnd off ((bs.zip fs).map (fun x => x.1 ||| x.2))
    s.setBoot { s.boot with op := none }
  | some (.erase off) =>
    let (fs, s) := s.freeBytes 65536
    let s := (s.flashErase off (off + 65536)).flashAnd off fs
    s.setBoot { s.boot with op := none }

/-- A fuse burn is cut off: a thermometer or a revoke mark keeps its old value or has its new one, a key slot is DEFECT
(R925). -/
def State.cutBurn (s : State) : State :=
  let (v, t) := s.drawFree
  let new := decide (v % 2 = 1)
  match s.boot.burn with
  | none => s
  | some (.life old) => t.setBoot { t.boot with burn := none, life := if new then t.boot.life else old }
  | some (.floor f) => t.setBoot { t.boot with burn := none, floor := if new then f else t.boot.floor }
  | some (.revoke k) =>
    let t := if new then t.setKeySlot k { t.keySlot k with revoked := true } else t
    t.setBoot { t.boot with burn := none }
  | some (.key k usage point) =>
    let (w, t) := t.drawFree
    let t := t.setKeySlot k { usage := Nat.land usage v, point := Nat.land point w, defect := true }
    t.setBoot { t.boot with burn := none }

/-- A persist commit is cut off: the target bank has no valid commit record, the earlier bank stays active, and the working
copy still differs from it (R911, R924). -/
def State.cutCommit (s : State) : State :=
  if s.rd OD.PERSIST_STATE ≠ 2 then s
  else
    let s := (s.wr OD.PERSIST_STATE (if s.rd OD.PERSIST_BANK = 0 then 0 else 1)).wr OD.PERSIST_DIRTY 1
    s.setBoot { s.boot with snap := [] }

end Sys2Proof.Machine
end

