-- ==== Sys2Proof/Machine/Loader.lean ====
section
/-!
DEFINITION. Images, the loader and run-time tiling (chapter 07): the loader's commands, its checks in the order of Table
LOAD-7, the copy of sections, the signature, and firmware's tile plans.
-/

namespace Sys2Proof.Machine

/-! ### Reading the image (R308, R309, SOURCE and SEALED of Table LOAD-7) -/

/-- A load's failure: the result code and the image offset. -/
abbrev LoadFail := Nat × Nat

/-- The loader reads `n` image bytes from an offset, each once. -/
def State.loadRead : Nat → State → LoadRun → Nat → List Byte → Except LoadFail (List Byte) × LoadRun × State
  | 0, s, r, _, acc => (.ok acc.reverse, r, s)
  | n + 1, s, r, off, acc =>
    match Sparse.get (fun _ => none) r.bytes off with
    | some b => State.loadRead n s r (off + 1) (b :: acc)
    | none =>
      let a := r.source + off
      if s.sealedByte a then (.error (3, off), r, s)
      else
        let (m, s) := s.readOn { agent := 67, ctx := r.ctx } a acc.isEmpty
        match m.ok, m.bytes with
        | true, b :: _ =>
          let s := s.wr OD.LOAD_PROGRESS (s.rd OD.LOAD_PROGRESS + 1)
          State.loadRead n s { r with bytes := Sparse.put (fun _ => none) r.bytes off (some b) } (off + 1) (b :: acc)
        | _, _ => (.error (2, off), r, s.errReported { agent := 67, ctx := r.ctx } m)

/-! ### Tables (Tables LOAD-2, LOAD-4, LOAD-5) -/

/-- A section table entry. -/
def sectionDef (bs : List Byte) : SectionDef :=
  ⟨fieldAt bs 0 1, fieldAt bs 1 1, fieldAt bs 4 4, fieldAt bs 8 4, fieldAt bs 0xC 4, fieldAt bs 0x10 4, fieldAt bs 0x14 4⟩

/-- A stage map entry. -/
def stageDefOf (bs : List Byte) : StageDef :=
  ⟨fieldAt bs 0 1, fieldAt bs 1 1, fieldAt bs 2 1, fieldAt bs 3 1, fieldAt bs 4 4, fieldAt bs 8 2, fieldAt bs 0xA 1,
   fieldAt bs 0xC 2, fieldAt bs 0xE 2, fieldAt bs 0x10 4, fieldAt bs 0x14 4⟩

/-- A tensor table entry. -/
def tensorDef (bs : List Byte) : TensorDef :=
  ⟨fieldAt bs 0 1, fieldAt bs 1 1, fieldAt bs 2 1, (List.range 4).map (fun i => fieldAt bs (4 + 2 * i) 2),
   fieldAt bs 0xC 1, fieldAt bs 0x10 4, fieldAt bs 0x14 4⟩

/-- The entries of a table of 32-byte rows. -/
def rows32 {α : Type} (f : List Byte → α) (bs : List Byte) (n : Nat) : List α :=
  (List.range n).map (fun i => f ((bs.drop (32 * i)).take 32))

/-- Whether a section's destination is the gallery (Table LOAD-3). -/
def SectionDef.gallery (x : SectionDef) : Bool := x.kind ≠ 2 && x.kind ≠ 3

/-- Two ranges of bytes share one. -/
def meets (a n b m : Nat) : Bool := decide (a < b + m) && decide (b < a + n)

/-- Check 9 for one section. -/
def SectionDef.bad (x : SectionDef) (sigOff gsize asize : Nat) (before : List SectionDef) : Bool :=
  x.kind = 0 || decide (7 < x.kind) || x.compression ≠ 0 ||
  (x.fileLen ≠ 0 && (decide (x.fileOff < 128) || decide (sigOff < x.fileOff + x.fileLen))) ||
  x.destOff % 64 ≠ 0 || decide ((if x.gallery then gsize else asize) < x.destOff + x.destLen) ||
  x.destLen = 0 || decide (x.destLen < x.fileLen) || (x.kind = 7 && x.fileLen ≠ 0) ||
  before.any (fun y => y.gallery == x.gallery && meets y.destOff y.destLen x.destOff x.destLen)

/-- The elements of a tensor. -/
def TensorDef.elems (t : TensorDef) : Nat := t.dims.foldl (· * ·) 1

/-- Check 10 for one tensor (R333). -/
def TensorDef.bad (t : TensorDef) (secs : List SectionDef) : Bool :=
  decide (7 < t.dtype) || decide (2 < t.place) || t.rank = 0 || decide (4 < t.rank) ||
  (t.dims.take t.rank).any (· = 0) || (t.dims.drop t.rank).any (· ≠ 1) ||
  t.bytes ≠ (t.elems * dtypeBits t.dtype + 7) / 8 ||
  (decide (t.place ≤ 1) &&
    (match secs[t.section_]? with
    | none => true
    | some x => x.gallery != decide (t.place = 0) || decide (x.destLen < t.off + t.bytes)))

/-- One row of a TILED stage in its working area (R329). -/
def tileRow (k n inBits outBits : Nat) : Nat := alignUp ((k * inBits + 7) / 8) 64 + alignUp ((n * outBits + 7) / 8) 64

/-- A TILED entry's tensors: weight, input, output. -/
def StageDef.tiledTensors (d : StageDef) (ts : List TensorDef) : Option (TensorDef × TensorDef × TensorDef) :=
  match ts[d.tensorFirst]?, ts[d.tensorFirst + 1]?, ts[d.tensorFirst + 2]? with
  | some w, some i, some o => some (w, i, o)
  | _, _, _ => none

/-- A TILED entry passes R313. -/
def StageDef.tiledOk (d : StageDef) (ts : List TensorDef) (asize : Nat) : Bool :=
  decide (d.kind ≤ 1) && decide (3 ≤ d.tensors) &&
  (match d.tiledTensors ts with
  | none => false
  | some (w, i, o) =>
    let k := w.dims.getD 0 0
    let n := w.dims.getD 1 0
    let m := i.dims.getD 0 0
    w.rank = 2 && i.rank = 2 && o.rank = 2 && i.dims.getD 1 0 = k && o.dims.getD 0 0 = m && o.dims.getD 1 0 = n &&
    decide (w.place ≤ 1) && i.place = 2 && o.place = 2 && decide (d.shapeSel ≤ 3) &&
    d.rowsPerUnit ≠ 0 && d.maxShape ≠ 0 && decide (d.maxShape * d.rowsPerUnit ≤ m) &&
    decide (d.workOff + d.workBytes ≤ asize) &&
    decide (tileRow k n (dtypeBits i.dtype) (dtypeBits o.dtype) ≤ d.workBytes))

/-- The section kind that a stage map KIND allows (Table LOAD-8). -/
def sectionOf (kind : Nat) : Nat := if kind ≤ 1 then 3 else if kind = 2 then 4 else 5

/-- Check 11 for one stage map entry. -/
def StageDef.bad (d : StageDef) (secs : List SectionDef) (ts : List TensorDef) (asize : Nat) : Bool :=
  decide (5 < d.kind) || d.flags / 4 ≠ 0 ||
  (match secs[d.section_]? with
  | none => true
  | some x => x.kind ≠ sectionOf d.kind || decide (x.destLen ≤ d.entryOff)) ||
  decide (ts.length < d.tensorFirst + d.tensors) || (bit d.flags 0 && decide (3 ≤ d.kind)) ||
  (bit d.flags 1 && !d.tiledOk ts asize)

/-- The first index of a list whose element fails a check that sees the elements before it. -/
def firstBad {α : Type} (p : List α → α → Bool) : List α → List α → Nat → Option Nat
  | _, [], _ => none
  | seen, x :: xs, i => if p seen x then some i else firstBad p (seen ++ [x]) xs (i + 1)

/-! ### Checks 1 to 11 (Table LOAD-7) -/

/-- The first failing condition of a list, as its result code and offset. -/
def firstFail : List (Bool × Nat × Nat) → Option LoadFail
  | [] => none
  | (b, c, o) :: r => if b then some (c, o) else firstFail r

/-- Whether a gallery extent or the hall of a core lies in an unpowered domain (check 7). -/
def State.loadUnpowered (s : State) (gbase gsize cores : Nat) : Bool :=
  (gsize ≠ 0 && (List.range 8).any (fun p => meets gbase gsize (p * 2 ^ 25) (2 ^ 25) && !s.powered (10 + p))) ||
  (List.range 32).any (fun n => bit cores n && !s.powered (2 + n / 4))

/-- Check 8: the offset of the field whose extent overlaps another image's. -/
def State.loadOverlap (s : State) (slot gbase gsize abase asize cores : Nat) : Option Nat :=
  let others := (List.range 16).filter (fun i => i ≠ slot)
  if others.any (fun i => let x := s.extents i; gsize ≠ 0 && x.gsize ≠ 0 && meets gbase gsize x.gbase x.gsize) then some 0x14
  else if others.any (fun i =>
      let x := s.extents i
      asize ≠ 0 && x.asize ≠ 0 && Nat.land cores x.cores ≠ 0 && meets abase asize x.abase x.asize) then some 0x18
  else none

/-- Checks 1 to 3 on the header alone. -/
def headerFail (h : List Byte) (len : Nat) : Option LoadFail :=
  let f := fieldAt h
  let sig := f 0x5C 4
  let tabs := [(f 0x50 4, 32 * f 0xC 2, 0x50), (f 0x54 4, 32 * f 0xE 2, 0x54), (f 0x58 4, 32 * f 0x10 2, 0x58)]
  let out := tabs.map (fun t => (t.2.1 ≠ 0 && (decide (t.1 < 128) || decide (sig < t.1 + t.2.1)), 6, t.2.2))
  let pairs := [((f 0x50 4, 32 * f 0xC 2), (f 0x54 4, 32 * f 0xE 2), 0x54),
    ((f 0x50 4, 32 * f 0xC 2), (f 0x58 4, 32 * f 0x10 2), 0x58), ((f 0x54 4, 32 * f 0xE 2), (f 0x58 4, 32 * f 0x10 2), 0x58)]
  let cross := pairs.map (fun t => (meets t.1.1 t.1.2 t.2.1.1 t.2.1.2 && t.1.2 ≠ 0 && t.2.1.2 ≠ 0, 6, t.2.2))
  firstFail (([
    (f 0 4 ≠ 0x52555242, 4, 0x00),
    (f 4 2 ≠ 1, 5, 0x04),
    (f 6 2 ≠ 128, 5, 0x06),
    (f 8 4 ≠ len, 6, 0x08),
    (sig + 128 ≠ f 8 4, 6, 0x5C),
    (f 0xC 2 = 0 || decide (64 < f 0xC 2), 6, 0x0C),
    (f 0xE 2 = 0 || decide (256 < f 0xE 2), 6, 0x0E),
    (decide (4096 < f 0x10 2), 6, 0x10)] : List (Bool × Nat × Nat)) ++ out ++ cross ++ ([
    (f 0x14 4 % 4096 ≠ 0 || decide (0x10000000 < f 0x14 4), 6, 0x14),
    (f 0x18 4 % 4096 ≠ 0 || decide (0x200000 < f 0x18 4), 6, 0x18),
    (f 0x14 4 = 0 && f 0x18 4 = 0, 6, 0x14),
    (f 0x13 1 ≠ 0, 6, 0x13),
    (f 0x60 32 ≠ 0, 6, 0x60)] : List (Bool × Nat × Nat)))

/-- Checks 3 (SIG_MAGIC) to 8. -/
def State.loadFail38 (s : State) (r : LoadRun) (h sigBlock : List Byte) : Option LoadFail :=
  let f := fieldAt h
  let g := f 0x14 4
  let a := f 0x18 4
  let over8 := s.loadOverlap r.slot r.gbase g r.abase a r.cores
  firstFail [
    (fieldAt sigBlock 0 4 ≠ 0x47495342, 6, f 0x5C 4),
    (!(decide (f 0x12 1 ≤ 3) && s.keyUsable (f 0x12 1) KeyUse.image), 7, 0x12),
    (decide (s.rd OD.FW_VERSION < f 0x1C 4), 8, 0x1C),
    (decide (galleryBytes < r.gbase + g), 9, 0x14),
    (decide (alcoveBytes < r.abase + a) || (a ≠ 0 && r.cores = 0), 9, 0x18),
    (s.loadUnpowered r.gbase g r.cores, 0xA, 0xFFFFFFFF),
    (over8.isSome, 0xB, match over8 with | some o => o | none => 0)]

/-- Checks 9 to 11. -/
def loadFail911 (img : Image) (h : List Byte) : Option LoadFail :=
  let f := fieldAt h
  let sig := f 0x5C 4
  match firstBad (fun seen x => SectionDef.bad x sig (f 0x14 4) (f 0x18 4) seen) [] img.sections 0 with
  | some i => some (0xC, f 0x50 4 + 32 * i)
  | none =>
    match firstBad (fun _ t => TensorDef.bad t img.sections) [] img.tensors 0 with
    | some i => some (0xD, f 0x58 4 + 32 * i)
    | none =>
      match firstBad (fun _ d => StageDef.bad d img.sections img.tensors (f 0x18 4)) [] img.stages 0 with
      | some i => some (0xE, f 0x54 4 + 32 * i)
      | none => none

/-! ### Ending a load (R312, R314, R315) -/

/-- Replace the load in progress. -/
def State.setLoad (s : State) (r : Option LoadRun) : State := { s with ldr := { s.ldr with run := r } }

/-- A load fails: its result and offset are recorded, it is counted, the slot returns to ABSENT, vector 5 fires. -/
def State.loadEnd (s : State) (r : LoadRun) (f : LoadFail) : State :=
  let s := (((s.setLoad none).imgAbsent r.slot).wr OD.LOAD_RESULT f.1).wr OD.LOAD_FAIL_OFFSET f.2
  ((s.bump OD.LOADS_FAILED).wr OD.LOAD_STATE 0).signal false 5

/-- The image becomes resident with its record objects (R314). -/
def State.loadOk (s : State) (r : LoadRun) (h : List Byte) : State :=
  let i := r.slot
  let s := s.setLoad none
  let s := { s with ldr := { s.ldr with
    images := Sparse.put (fun _ => {}) s.ldr.images i { r.img with gen := s.ldr.loads }, ended := some (i, s.clk.now) } }
  let s := (s.wrBytes (OD.IMG_ID i) ((h.drop 0x20).take 16)).wrBytes (OD.IMG_NAME i) ((h.drop 0x30).take 32)
  let s := (s.wr (OD.IMG_GALLERY_BASE i) r.gbase).wr (OD.IMG_GALLERY_SIZE i) r.gsize
  let s := (s.wr (OD.IMG_ALCOVE_BASE i) r.abase).wr (OD.IMG_ALCOVE_SIZE i) r.asize
  let s := (s.wr (OD.IMG_CORES i) r.cores).wr (OD.IMG_KEY_SLOT i) r.key
  let s := (s.wr (OD.IMG_LOAD_EPOCH i) s.tick.epoch.toNat).wr (OD.IMG_STATE i) 2
  let s := ((s.wr OD.LOAD_RESULT 1).wr OD.LOAD_FAIL_OFFSET 0xFFFFFFFF).wr OD.LOAD_STATE 0
  s.signal false 5

/-- A load in progress takes a step that may fail. -/
def State.loadStep (s : State) (f : LoadRun → State → Except LoadFail Unit × LoadRun × State) : State :=
  match s.ldr.run with
  | none => s
  | some r =>
    match f r s with
    | (.error e, r, s) => s.loadEnd r e
    | (.ok _, r, s) => s.setLoad (some r)

/-- Read the header and the three tables, and make checks 1 to 11. -/
def loadTables (r : LoadRun) (s : State) : Except LoadFail Unit × LoadRun × State :=
  match s.loadRead 128 r 0 [] with
  | (.error e, r, s) => (.error e, r, s)
  | (.ok h, r, s) =>
    match headerFail h r.length with
    | some e => (.error e, r, s)
    | none =>
      let f := fieldAt h
      match s.loadRead (32 * f 0xC 2) r (f 0x50 4) [] with
      | (.error e, r, s) => (.error e, r, s)
      | (.ok secs, r, s) =>
        match s.loadRead (32 * f 0xE 2) r (f 0x54 4) [] with
        | (.error e, r, s) => (.error e, r, s)
        | (.ok stgs, r, s) =>
          match s.loadRead (32 * f 0x10 2) r (f 0x58 4) [] with
          | (.error e, r, s) => (.error e, r, s)
          | (.ok tens, r, s) =>
            match s.loadRead 128 r (f 0x5C 4) [] with
            | (.error e, r, s) => (.error e, r, s)
            | (.ok sig, r, s) =>
              let img : Image := {
                sections := rows32 sectionDef secs (f 0xC 2)
                stages := rows32 stageDefOf stgs (f 0xE 2)
                tensors := rows32 tensorDef tens (f 0x10 2) }
              match s.loadFail38 r h sig with
              | some e => (.error e, r, s)
              | none =>
                match loadFail911 img h with
                | some e => (.error e, r, s)
                | none =>
                  (.ok (), { r with
                    tables := true, gsize := f 0x14 4, asize := f 0x18 4, key := f 0x12 1, sigOff := f 0x5C 4, img := img }, s)

/-- The destinations of a section (R310). -/
def LoadRun.dests (r : LoadRun) (x : SectionDef) : List Nat :=
  if x.gallery then [r.gbase + x.destOff]
  else ((List.range 32).filter (fun n => bit r.cores n)).map (fun n => alcoveBase + n * alcoveBytes + r.abase + x.destOff)

/-- Write a section to its destinations: the first write that fails finds its domain unpowered (check 7). -/
def State.loadWrite (s : State) (bs : List Byte) : List Nat → Bool × State
  | [] => (true, s)
  | a :: rest =>
    let (m, s) := s.memWrite { agent := 67, ctx := none } a bs
    if m.ok then State.loadWrite s bs rest else (false, s)

/-- Copy the next section and make checks 7 and 12: a part of the extents that has lost power fails every later write (R312). -/
def loadSection (r : LoadRun) (s : State) : Except LoadFail Unit × LoadRun × State :=
  match r.tables, r.img.sections[r.next]? with
  | true, some x =>
    match s.loadRead x.fileLen r x.fileOff [] with
    | (.error e, r, s) => (.error e, r, s)
    | (.ok bs, r, s) =>
      if s.loadUnpowered r.gbase r.gsize r.cores then (.error (0xA, 0xFFFFFFFF), r, s)
      else
      match s.loadWrite (fitBytes x.destLen bs) (r.dests x) with
      | (false, s) => (.error (0xA, 0xFFFFFFFF), r, s)
      | (true, s) =>
        if crc32c bs ≠ x.crc then (.error (0xF, x.fileOff), r, s) else (.ok (), { r with next := r.next + 1 }, s)
  | _, _ => (.ok (), r, s)

/-- Read what is left, make check 13, and end the load (R304, R314, R927). -/
def State.loadSign (s : State) : State :=
  match s.ldr.run with
  | none => s
  | some r =>
    if !r.tables ∨ r.next < r.img.sections.length then s
    else
      match s.loadRead (r.sigOff + 128) r 0 [] with
      | (.error e, r, s) => s.loadEnd r e
      | (.ok bs, r, s) =>
        if s.loadUnpowered r.gbase r.gsize r.cores then s.loadEnd r (0xA, 0xFFFFFFFF)
        else if s.verifies r.key (bs.take r.sigOff) (bs.drop r.sigOff) then s.loadOk r bs
        else
          State.loadEnd ((s.bump OD.SIG_FAILS).record FaultClass.corrected 67 1 OD.SIG_FAILS 0 r.slot) r (0x10, r.sigOff)

/-! ### LOAD_CMD (R305, R306, R317, R318) -/

/-- A write of LOAD_CMD. -/
def State.loadCmd (v : Nat) (s : State) : Nat × State :=
  let slot := s.rd OD.LOAD_SLOT
  if v = 3 then
    match s.ldr.run with
    | some r => (0, s.loadEnd r (0x11, 0xFFFFFFFF))
    | none => (Abort.state, s)
  else if s.rd OD.LOAD_STATE = 1 then (Abort.busy, s)
  else if v = 1 then
    if s.rd (OD.IMG_STATE slot) ≠ 0 then (Abort.state, s)
    else
      let ctx := s.rd OD.LOAD_CONTEXT
      let r : LoadRun := {
        slot := slot, source := s.rd OD.LOAD_SOURCE, length := s.rd OD.LOAD_LENGTH, gbase := s.rd OD.LOAD_GALLERY_BASE
        abase := s.rd OD.LOAD_ALCOVE_BASE, cores := s.rd OD.LOAD_CORES, ctx := if ctx = 0xFF then none else some ctx }
      let s := { s with ldr := { s.ldr with run := some r, loads := s.ldr.loads + 1 } }
      (0, ((s.wr (OD.IMG_STATE slot) 1).wr OD.LOAD_STATE 1).wr OD.LOAD_PROGRESS 0)
  else if s.rd (OD.IMG_STATE slot) ≠ 2 then (Abort.state, s)
  else (0, (s.wr (OD.IMG_STATE slot) 3).imgSettle slot)

/-- LOAD. -/
def execLoad (p : Path) (s : State) : Out := .next (s.dictWrite p false OD.LOAD_CMD 1 1 State.loadCmd)

/-- EVICT. -/
def execEvict (p : Path) (s : State) : Out := .next (s.dictWrite p false OD.LOAD_CMD 1 2 State.loadCmd)

/-- CANCEL. -/
def execCancel (p : Path) (s : State) : Out := .next (s.dictWrite p false OD.LOAD_CMD 1 3 State.loadCmd)

/-- LOAD_TABLES_READ. -/
def execLoadTablesRead (s : State) : Out :=
  .next (s.loadStep (fun r s => if r.tables then (.ok (), r, s) else loadTables r s))

/-- LOAD_SECTION_COPIED. -/
def execLoadSectionCopied (s : State) : Out := .next (s.loadStep loadSection)

/-- LOAD_SIGNATURE_CHECK. -/
def execLoadSignatureCheck (s : State) : Out := .next s.loadSign

/-! ### Tile plans (R324 to R330) -/

/-- The plan of one TILED stage: UNITS, CHUNKS, BASE_ROWS, EXTRA, NK, NN, CAP and the flags of Table LOAD-10. -/
def makePlan (d : StageDef) (w i o : TensorDef) (shape : Nat) : List Nat :=
  if shape = 0 then [0, 0, 0, 0, 0, 0, 0, 1]
  else
    let units := min shape d.maxShape
    let clamped := b2n (d.maxShape < shape)
    let k := w.dims.getD 0 0
    let n := w.dims.getD 1 0
    let m := units * d.rowsPerUnit
    let kt := if d.kind = 1 then 128 else 64
    let cap := min 256 (d.workBytes / tileRow k n (dtypeBits i.dtype) (dtypeBits o.dtype))
    let c := (m + cap - 1) / cap
    let base := m / c
    [units, c, base, m - base * c, (k + kt - 1) / kt, (n + 63) / 64, cap, 2 * clamped]

/-- Whether firmware runs and a Newel core is not halted (R343, R957). -/
def State.firmwareServes (s : State) : Bool :=
  decide (s.rd OD.FW_VERSION ≠ 0) && (List.range 4).any (fun k => !(s.newel k).halted)

/-- The stage words of an item: as admission latched them, or as its flight defines them before that. -/
def State.stageWords (s : State) (it : Item) : List Nat :=
  if it.st = .queued then (List.range (s.rd (OD.FLT_STAGES it.flight))).map (fun k => s.rd (OD.STAGE it.flight k))
  else it.stages

/-- Firmware makes the plan of a stage for a run of the item in a slot (R324 to R330). -/
def State.planStage (s : State) (slot run stage : Nat) : State :=
  let it := s.item slot
  let img : Image := Sparse.get (fun _ => {}) s.ldr.images it.image
  let ready := it.st = .queued || it.st = .admitted || it.st = .running
  let key := 256 * run + stage
  let words := s.stageWords it
  let entry := bits (words.getD stage 0) 40 8
  if !ready || !s.firmwareServes || decide (it.runs ≤ run) || decide (words.length ≤ stage) ||
      (it.plans.any (fun p => p.1 = key)) then s
  else
    match img.stages[entry]? with
    | none => s
    | some d =>
      match bit d.flags 1, d.tiledTensors img.tensors with
      | true, some (w, i, o) =>
        let shape := it.shape run d.shapeSel
        let mark := Sparse.get (fun _ => false) it.shapeSealed (4 * run + d.shapeSel)
        let plan := makePlan d w i o shape ++ [b2n mark, entry]
        let s := s.setItem slot { it with
          plans := keyedPut it.plans key plan, planGen := if it.plans.isEmpty then img.gen else it.planGen }
        if d.maxShape < shape then
          (s.bump OD.TILING_CLAMPS).record FaultClass.corrected 32 1 OD.TILING_CLAMPS shape (slot * 32 + stage)
        else s
      | _, _ => s

/-- TILE_PLAN. -/
def execTilePlan (slot : Fin 1024) (run : Byte) (stage : Fin 32) (s : State) : Out :=
  .next (s.planStage slot run.toNat stage)

end Sys2Proof.Machine
end

