-- ==== Sys2Proof/Machine/Pins.lean ====
section
/-!
DEFINITION. The GPIO multiplexer (chapter 23): what drives a pin, what a function sees, and the switch of a pin's function
(R976 to R980, R996 to R1002). The boundary-scan instruction in force stands here because it takes the pins over.
-/

namespace Sys2Proof.Machine

/-! ### Boundary scan (R946, R947, R1002) -/

/-- The boundary cell of GPIO g, in the pin order of J1 (R947). -/
def gpioCell (g : Nat) : Nat := 42 + g

/-! ### Levels -/

/-- The switch in progress of a pin. -/
def State.pinSwitch (s : State) (g : Nat) : Option (Nat × Bool) := Sparse.get (fun _ => none) s.pins.sw g

/-- The function of a pin has taken it (S4 of R979). -/
def State.pinTaken (s : State) (g : Nat) : Bool :=
  match s.pinSwitch g with
  | some (_, taken) => taken
  | none => true

/-- An input function sees its pin (S6 of R979). -/
def State.pinSeen (s : State) (g : Nat) : Bool :=
  !s.scanning && (match s.pinSwitch g with
    | some (s0, taken) => taken && decide (s0 + 6 ≤ s.clk.now)
    | none => true)

/-- THERM_N asserts (Table MODL-4). -/
def State.thermLow (s : State) : Bool :=
  decide (16 * (s.rd OD.TJ_THROTTLE : Int) ≤ toSigned 32 (s.rd OD.TJ)) || decide (s.rd OD.PACE_CAP < 3)

/-- The level that a pin's function drives, or none where it drives nothing (Table MODL-4). -/
def State.funcDrive (s : State) (g : Nat) : Option Bool :=
  let f := s.rd (OD.GPIO_FUNC g)
  let out := bit (s.rd OD.GPIO_OUT) g
  if f = 1 then some out
  else if f = 2 then (if out then none else some false)
  else if f = 4 then (if s.thermLow then some false else none)
  else if f = 5 then some s.tick.out
  else none

/-- The level that the module drives onto GPIO g. -/
def State.gpioDrive (s : State) (g : Nat) : Option Bool :=
  if s.scanning then (if s.dbg.tap = .highz then none else some (s.dbg.preload.getLsbD (gpioCell g)))
  else if s.pinTaken g then s.funcDrive g
  else none

/-- The pin of the WAKE_IN function: of several that select it, the lower-numbered GPIO (Table DICT-8). -/
def State.wakePin (s : State) : Option Nat := (List.range 16).find? (fun g => decide (s.rd (OD.GPIO_FUNC g) = 3))

/-- The WAKE_IN function sees its pin (R868, R978). -/
def State.wakeSeen (s : State) : Bool :=
  match s.wakePin with
  | some g => s.pinSeen g
  | none => false

/-- The pins that GPIO_IN reports (R976). -/
def State.gpioInMask (s : State) : Nat :=
  foldN 16 (fun v g => if s.rd (OD.GPIO_FUNC g) = 0 ∧ s.pinSeen g then v + 2 ^ g else v) 0

/-! ### Switching (R979, R998) -/

/-- A pin switches on the present edge: it is parked, its keeper holds what was driven last, and the switch is counted. -/
def State.switchPin (s : State) (g : Nat) : State :=
  let kept := match s.gpioDrive g with
    | some b => setBit s.pins.kept g b
    | none => s.pins.kept
  let s := { s with pins := { sw := Sparse.put (fun _ => none) s.pins.sw g (some (s.clk.now, false)), kept := kept } }
  if s.powered 1 then s.bump OD.PIN_SWITCHES else s

/-- Every GPIO takes its default function and pull; the pins whose function changes switch (R978, R980, R1001). -/
def State.pinsDefault (s : State) : State :=
  foldN 16 (fun s g =>
    let f := odDefault (OD.GPIO_FUNC g)
    let s := if s.rd (OD.GPIO_FUNC g) = f then s else s.switchPin g
    (s.wr (OD.GPIO_FUNC g) f).wr (OD.GPIO_PULL g) (odDefault (OD.GPIO_PULL g))) s

/-- A boundary-scan instruction comes into force; when the pins come back from EXTEST, CLAMP or HIGHZ, each GPIO switches to
its function (R1002). -/
def State.setTap (s : State) (t : TapInstr) : State :=
  let was := s.scanning
  let s' := { s with dbg := { s.dbg with tap := t } }
  if was && !s'.scanning then foldN 16 (fun s g => s.switchPin g) s' else s'

/-! ### The rows -/

/-- A write of GPIO_FUNC (R979, R996). -/
def State.funcOrder (g : Nat) (v : Nat) (s : State) : Nat × State :=
  if s.rd (OD.GPIO_FUNC g) = v then (0, s) else (0, (s.switchPin g).wr (OD.GPIO_FUNC g) v)

/-- GPIO_FUNC. -/
def execGpioFunc (p : Path) (g : Fin 16) (v : Byte) (s : State) : Out :=
  .next (s.dictWrite p false (OD.GPIO_FUNC g) 1 v.toNat (State.funcOrder g))

/-- A write of GPIO_PULL (R977). -/
def State.pullOrder (g : Nat) (v : Nat) (s : State) : Nat × State := (0, s.wr (OD.GPIO_PULL g) v)

/-- GPIO_PULL. -/
def execGpioPull (p : Path) (g : Fin 16) (v : Byte) (s : State) : Out :=
  .next (s.dictWrite p false (OD.GPIO_PULL g) 1 v.toNat (State.pullOrder g))

/-- PIN_PARK_END: at S4 the new function takes the pin; at S6 the switch is over (R979). -/
def execPinParkEnd (g : Fin 16) (s : State) : Out :=
  .next (
    match s.pinSwitch g with
    | none => s
    | some (s0, _) =>
      if s.clk.now < s0 + 4 then s
      else
        let x := if s.clk.now < s0 + 6 then some (s0, true) else none
        { s with pins := { s.pins with sw := Sparse.put (fun _ => none) s.pins.sw g x } })

end Sys2Proof.Machine
end

