-- ==== Sys2Proof/Machine/Wake.lean ====
section
/-!
DEFINITION. What the power controller reports and what orders it takes (R855 to R868): POWER_STATE, the targets of DOMAIN_REQ
and POWER_CMD, wake requests. How it carries orders out stands in Machine/Power.lean.
-/

namespace Sys2Proof.Machine

/-! ### POWER_STATE (R863) -/

/-- Firmware has started, or its start has been given up (Table POWR-1, R905). -/
def State.fwSettled (s : State) : Bool := s.boot.phase = .running || s.boot.phase = .gaveUp

/-- A domain that a failed one keeps from counting: it has failed, or it requires one that has. -/
def State.domainOut (s : State) (d : Nat) : Bool :=
  bit (s.rd OD.DOMAIN_FAIL) d || (domainNeeds d).any (fun r => bit (s.rd OD.DOMAIN_FAIL) r)

/-- A channel holds the module in MOVING: INIT, or UNTRIMMED without having been given up (R782, R905). -/
def State.channelMoving (s : State) (ch : Nat) : Bool :=
  decide (s.rd (OD.CH_STATE ch) = 2) ||
  (decide (s.rd (OD.CH_STATE ch) = 1) && !s.dmem.noTable && decide (s.boot.phase ≠ .gaveUp))

/-- A transition is in progress. -/
def State.movingNow (s : State) : Bool :=
  (List.range 28).any (fun d => !s.domainOut d && (bit (s.rd OD.DOMAIN_ON) d != bit (s.rd OD.DOMAIN_REQ) d)) ||
  (s.powered 1 && !s.fwSettled) ||
  (List.range 8).any (fun p => s.powered (10 + p) && !s.flag (OD.PAIR_READY p)) ||
  (List.range 8).any (fun ch => s.channelMoving ch)

/-- POWER_STATE: 0 MOVING, 1 FLOOR, 2 LISTEN, 3 READY, 4 RUN, 5 OTHER. -/
def State.powerState (s : State) : Nat :=
  if s.movingNow then 0
  else if s.rd OD.DOMAIN_ON = 1 then 1
  else if s.rd OD.DOMAIN_ON = 0x00C00001 then 2
  else if s.powered 1 then (if s.flag OD.GATE then 3 else 4)
  else 5

/-- Note the beginning and the end of a transition (TRANSITION_US, in µs, saturating). -/
def State.powerNote (s : State) : State :=
  if s.movingNow then
    (match s.pow.moving with
    | none => { s with pow := { s.pow with moving := some s.clk.now } }
    | some _ => s)
  else
    match s.pow.moving with
    | none => s
    | some t =>
      { s.wr OD.TRANSITION_US (min ((s.clk.now - t) / 50) 0xFFFFFFFF) with pow := { s.pow with moving := none } }

/-! ### Orders (R855 to R862, R873, R897, R988) -/

/-- An order would take away a domain that is powered, ramping or wanted. -/
def State.wouldDrop (s : State) (req d : Nat) : Bool :=
  !bit req d && (s.powered d || bit (s.rd OD.DOMAIN_REQ) d || (Sparse.get (fun _ => none) s.pow.ramp d).isSome)

/-- What R857 forbids: D1 down while a slot is occupied, D26 down while a tenancy is not DISABLED. -/
def State.dropForbidden (s : State) (req : Nat) : Bool :=
  (s.wouldDrop req 1 && decide (s.slotsInUse ≠ 0)) ||
  (s.wouldDrop req 26 && (List.range 16).any (fun t => (s.tenancy t).st ≠ .disabled))

/-- The junction reads below -5 °C (R988). -/
def State.tooCold (s : State) : Bool := decide (toSigned 32 (s.rd OD.TJ) < -80)

/-- Clear the bits of `b` in `a`. -/
def clearBits (a b : Nat) : Nat := foldN 32 (fun v i => if bit b i then setBit v i false else v) a

/-- A new target: the wanted domains, the gate, failed domains asked for again (R854, R882). -/
def State.setTarget (s : State) (req gate : Nat) : State :=
  let s := ((s.wr OD.DOMAIN_REQ req).wr OD.GATE gate).wr OD.DOMAIN_FAIL (clearBits (s.rd OD.DOMAIN_FAIL) req)
  State.powerNote { s with pow := { s.pow with await := false } }

/-- DOMAIN_REQ and GATE of a POWER_CMD value (Table POWR-2). -/
def State.cmdTarget (s : State) (v : Nat) : Nat × Nat :=
  if v = 1 then (1, 1) else if v = 2 then (0x00C00001, 1) else (s.rd OD.RUN_SET, if v = 4 then 0 else 1)

/-- A write of POWER_CMD. -/
def State.powerOrder (v : Nat) (s : State) : Nat × State :=
  if v = 0 ∨ 4 < v then (Abort.range, s)
  else if v = 3 ∧ s.tick.st ≠ .stopped then (Abort.state, s)
  else if 3 ≤ v ∧ (s.rd OD.RESET_CAUSE = 7 ∨ s.boot.life = Life.retired ∨ s.tooCold) then (Abort.state, s)
  else
    let (req, gate) := s.cmdTarget v
    if s.dropForbidden req then (Abort.state, s) else (0, s.setTarget req gate)

/-- A write of POWER_CMD over the dictionary; a wake request on its edge gives way to it (R883). -/
def State.powerWrite (v : Nat) (s : State) : Nat × State :=
  let (c, t) := s.powerOrder v
  (c, if c = 0 then { t with pow := { t.pow with cmdEdge := some s.clk.now } } else t)

/-- A write of DOMAIN_REQ; its range (R856) is the dictionary's check. -/
def State.domainOrder (v : Nat) (s : State) : Nat × State :=
  if bit v 1 ∧ s.boot.life = Life.retired then (Abort.state, s)
  else if s.dropForbidden v then (Abort.state, s)
  else (0, s.setTarget v (s.rd OD.GATE))

/-- A write of GATE (R861). -/
def State.gateOrder (v : Nat) (s : State) : Nat × State :=
  if v = 1 ∧ s.tick.st ≠ .stopped then (Abort.state, s) else (0, s.wr OD.GATE v)

/-- POWER_CMD. -/
def execPowerCmd (p : Path) (v : Byte) (s : State) : Out :=
  .next (s.dictWrite p false OD.POWER_CMD 1 v.toNat State.powerWrite)

/-- DOMAIN_REQ_WRITE. -/
def execDomainReqWrite (p : Path) (v : BitVec 32) (s : State) : Out :=
  .next (s.dictWrite p false OD.DOMAIN_REQ 4 v.toNat State.domainOrder)

/-- GATE_WRITE. -/
def execGateWrite (p : Path) (v : Byte) (s : State) : Out :=
  .next (s.dictWrite p false OD.GATE 1 v.toNat State.gateOrder)

/-! ### Wake (R867, R868) -/

/-- A wake request from a source of Table POWR-4 (R867, R883). -/
def State.wake (s : State) (src : Nat) : State :=
  if !bit (s.rd OD.POWR_WAKE_ENABLE) src then s
  else
    let s := s.setOdBit OD.WAKE_SOURCE src true
    let s := if s.linkUp then s else { s with pow := { s.pow with wakeLow := true } }
    let target := s.rd OD.WAKE_TARGET
    let st := s.powerState
    let s := if 3 ≤ target ∧ (st = 1 ∨ st = 2 ∨ st = 5) ∧ s.pow.cmdEdge ≠ some s.clk.now then (s.powerOrder target).2 else s
    if s.linkUp then s.signal false 10 else s

/-- A source's bit in WAKE_SOURCE and WAKE_ENABLE (Table POWR-4). -/
def wakeBit : WakeSource → Nat
  | .colonnade => 0
  | .link => 1
  | .pin _ => 2
  | .alarm => 3

/-- A source raises its request: a pin does where WAKE_IN takes its input from it (Table DICT-8, R978). -/
def State.wakeRaised (s : State) : WakeSource → Bool
  | .pin g => s.wakeSeen && decide (s.wakePin = some g.val)
  | _ => true

/-- WAKE_REQUEST. -/
def execWakeRequest (src : WakeSource) (s : State) : Out :=
  .next (if s.wakeRaised src then s.wake (wakeBit src) else s)

end Sys2Proof.Machine
end

