-- ==== Sys2Proof/Machine/Gallery.lean ====
section
/-!
DEFINITION. The gallery's fills and scrubber (chapter 10); the cloakroom's commands (chapter 11).
-/

namespace Sys2Proof.Machine

/-! ### The gallery (R448 to R454) -/

/-- A pair's zero-fill ends: every byte and error of the pair is gone, PAIR_READY reads 1, and gallery bytes that a reset
left in the sealed set leave it (R747). -/
def State.pairFill (s : State) (p : Nat) : State :=
  if !s.powered (10 + p) ∨ s.flag (OD.PAIR_READY p) then s
  else
    let lo := p * 2 ^ 25
    let s := s.memClear (fun a => decide (lo ≤ a ∧ a < lo + 2 ^ 25))
    let s := { s with ledg := { s.ledg with resetHeld := cutAll s.ledg.resetHeld [(lo, lo + 2 ^ 25)] } }
    s.wr (OD.PAIR_READY p) 1

/-- PAIR_FILL_DONE. -/
def execPairFillDone (p : Fin 8) (s : State) : Out := .next (s.pairFill p).powerNote

/-- The gallery scrubber reads the word at an address. -/
def State.scrubsGallery (s : State) (a : Nat) : Bool := decide (a < galleryBytes) && s.flag (OD.PAIR_READY (a / 2 ^ 25))

/-- What the gallery scrubber comes to (R453, R454). A pass that ends has read every word. -/
def State.scrubGallery (s : State) (f : ScrubFind) : State :=
  if s.rd OD.SCRUB_PERIOD = 0 ∨ !s.powered 1 then s
  else
    match f with
    | .passDone => (s.scrubRest s.scrubsGallery).bump OD.SCRUB_PASSES
    | .correctable a => if s.scrubsGallery a.toNat then s.scrubFind a.toNat 1 else s
    | .uncorrectable a => if s.scrubsGallery a.toNat then s.scrubFind a.toNat 2 else s

/-- GALLERY_SCRUB. -/
def execGalleryScrub (find : ScrubFind) (s : State) : Out := .next (s.scrubGallery find)

/-! ### Cloakroom commands (chapter 11) -/

/-- POOL_FILL_DONE. -/
def execPoolFillDone (q : Fin 8) (s : State) : Out := .next (s.poolFillDone q)

/-- A firmware request ends: its result word, the EMPTY mark of its stage, and a bound failure stops its item (R500, R510,
R514). -/
def State.endClk (s : State) (k : Nat) (r : AllocReq) (a : AllocRes) : State :=
  let s := s.wr (OD.CLK_RESULT k) (clkWord a)
  match r.bound, a with
  | some (slot, _, stage), .poolEmpty d => s.stopItem slot Status.poolEmpty stage (32 + k) d none
  | some (slot, run, stage), .empty =>
    match s.flit.entries.find? (fun e => e.slot = slot && e.run = run && e.stage = stage) with
    | some e => s.mapEntry e (fun x => { x with repEmpty := true })
    | none => s
  | _, _ => s

/-- A bound request whose stage no longer runs (R519). -/
def State.clkOrphan (s : State) (r : AllocReq) : Bool :=
  match r.bound with
  | some (slot, run, stage) => !s.runs r.agent slot run stage
  | none => false

/-- Serve a firmware ALLOC. One whose stage has been stopped is not served: CLK_RESULT reads NONE again (R519; DESIGN CHOICE,
notes/assumptions/45.md). -/
def State.serveClk (s : State) (k : Nat) (r : AllocReq) : State :=
  if s.clkOrphan r then s.wr (OD.CLK_RESULT k) 0
  else
    match s.alloc r with
    | (a, s) => s.endClk k r a

/-- A write of CLK_REQUEST (R510, R511). -/
def State.clkRequest (k v : Nat) (s : State) : Nat × State :=
  if bits (s.rd (OD.CLK_RESULT k)) 62 2 = 1 then (Abort.busy, s)
  else if bits v 60 4 = 1 then
    let s := s.wr (OD.CLK_RESULT k) (2 ^ 62)
    let r := s.clkReq k v
    if s.allocWaits r then (0, { s with clok := { s.clok with waiting := s.clok.waiting ++ [(k, r)] } })
    else (0, s.serveClk k r)
  else if bits v 60 4 = 2 then
    let (ok, s) := s.release (32 + k) (bits v 0 32)
    (0, s.wr (OD.CLK_RESULT k) (clkDone (if ok then 0 else 0xF0) 0 noTicket))
  else (Abort.range, s)

/-- ALLOC. -/
def execAlloc (k : Fin 4) (v : Word) (s : State) : Out :=
  .next (s.dictWrite (.fw k) false (OD.CLK_REQUEST k) 8 (setField v.toNat 60 4 1) (State.clkRequest k))

/-- RELEASE. -/
def execRelease (k : Fin 4) (ticket : BitVec 32) (s : State) : Out :=
  .next (s.dictWrite (.fw k) false (OD.CLK_REQUEST k) 8 (2 * 2 ^ 60 + ticket.toNat) (State.clkRequest k))

/-- Requests that wait are served, in order, once their pool no longer makes them wait (R497). -/
def State.serveWaiting : List (Nat × AllocReq) → State → State
  | [], s => s
  | (k, r) :: rest, s =>
    if s.allocWaits r && !s.clkOrphan r then
      State.serveWaiting rest { s with clok := { s.clok with waiting := s.clok.waiting ++ [(k, r)] } }
    else State.serveWaiting rest (s.serveClk k r)

/-- Every firmware request that waits is served or waits on. -/
def State.drainClk (s : State) : State :=
  State.serveWaiting s.clok.waiting { s with clok := { s.clok with waiting := [] } }

/-- A ring read that ended in an error ends the oldest request that waits for the pool's refill (R501). -/
def State.failWaiting (s : State) (q : Nat) : State :=
  match s.clok.waiting.find? (fun w => s.fitPool w.2 = some q) with
  | none => s
  | some (k, r) =>
    match State.allocFail { s with clok := { s.clok with waiting := s.clok.waiting.erase (k, r) } } r 4 q with
    | (a, s) => s.endClk k r a

/-- CACHE_REFILL: a READY pool whose cache holds 16 tickets or fewer reads its ring (R491, R492, R501). A ring that fails
ends the request that waits for it; else the requests that need not wait any longer are served. -/
def execCacheRefill (q : Fin 8) (s : State) : Out :=
  .next (
    if s.rd (OD.POOL_STATE q) ≠ 2 ∨ 16 < (s.pool q).cache.length ∨ (s.pool q).count = 0 then s.drainClk
    else
      let before := s.freeTickets q
      let (bad, s) := s.refill q
      let s := s.poolChanged q before
      if bad then s.failWaiting q else s.drainClk)

/-- CACHE_WRITEBACK: a READY pool whose cache has reached 56 tickets writes its 32 oldest to the ring. -/
def execCacheWriteback (q : Fin 8) (s : State) : Out :=
  .next (if s.rd (OD.POOL_STATE q) ≠ 2 ∨ (s.pool q).cache.length < 56 then s else s.writeback q)

/-- SEALED_BUFFER_FILL_DONE. -/
def execSealedBufferFillDone (s : State) : Out := .next s.scrubDone

/-- Remove the element at an index. -/
def dropAt {α : Type} (l : List α) (i : Nat) : List α := l.take i ++ l.drop (i + 1)

/-- CLAIM_ECC_ERROR: the record or entry is discarded, counted in LEAKS and recorded (R524). -/
def execClaimEccError (fixed : Bool) (what : ClaimPlace) (s : State) : Out :=
  .next (
    if fixed then s.record FaultClass.corrected 32 1 OD.LEAKS 0 0 else
    match what with
    | .record i =>
      match s.clok.recs[i]? with
      | none => s
      | some r =>
        let q := ticketPool r.ticket
        let s := { s with clok := { s.clok with recs := dropAt s.clok.recs i } }
        ((s.bump OD.LEAKS).poolRecord q 0).poolSettle q
    | .entry q i =>
      let p := s.pool q
      if p.cache.length ≤ i then s
      else
        let before := s.freeTickets q
        let s := (s.setPool q { p with cache := dropAt p.cache i }).poolChanged q before
        (s.bump OD.LEAKS).poolRecord q 0)

end Sys2Proof.Machine
end

