-- ==== Sys2Proof/Machine/Ports.lean ====
section
/-!
DEFINITION. Sensor and audio ports (chapter 12): frame capture and delivery, the camera indicator, the audio clock, TDM and
PDM samples, routes and audio rings.
-/

namespace Sys2Proof.Machine

/-! ### Sensor ports -/

/-- A sensor port's record. -/
def State.sens (s : State) (c : Nat) : SensorPort := Sparse.get (fun _ => {}) s.ports.sens c

/-- Store a sensor port's record. -/
def State.setSens (s : State) (c : Nat) (x : SensorPort) : State :=
  { s with ports := { s.ports with sens := Sparse.put (fun _ => {}) s.ports.sens c x } }

/-- The ingress' accesses carry agent 64 and no context (R525). -/
def portAcc : Acc := { agent := 64, ctx := none, port := some 39 }
/-- The accesses of audio ingress (R525). -/
def audioAcc : Acc := { portAcc with port := some 40 }
def portReq : Requester := ⟨64, none⟩

/-- Count an event whose first count after a consuming read writes a CORRECTED record naming the port (R565). -/
def State.countFirst (s : State) (key inst : Nat) : State :=
  let first := s.rd key = 0
  let s := s.bump key
  if first then s.record FaultClass.corrected 64 23 key 0 inst else s

/-- Bits per pixel of a data type code. -/
def pixelBits (dt : Nat) : Nat := if dt = 0x1E then 16 else if dt = 0x2A then 8 else if dt = 0x2B then 10 else 12

/-- LINE_BYTES, STRIDE and FRAME_BYTES of a geometry. -/
def lineBytes (width dt : Nat) : Nat := (width * pixelBits dt + 7) / 8
def lineStride (width dt : Nat) : Nat := alignUp (lineBytes width dt) 64
def Frame.lineBytes (f : Frame) : Nat := Machine.lineBytes f.width f.dtype
def Frame.stride (f : Frame) : Nat := lineStride f.width f.dtype

/-- The ports that stream (STREAMING), after a header of port c (R540). -/
def State.streams (s : State) (c : Nat) : State :=
  let s := s.setSens c { s.sens c with header := some s.clk.now }
  (s.setOdBit OD.STREAMING c true).wr OD.SENS_LED_STATE 1

/-- A port is enabled and its domain is on. -/
def State.portOn (s : State) (c : Nat) : Bool := s.powered 23 && decide (s.rd (OD.PORT_STATE c) ≠ 0)

/-- A burst arrives: at a high lane rate it is discarded until a calibration has completed (R530). -/
def State.burst (s : State) (c : Nat) (f : State → State) : State :=
  if !s.portOn c then s
  else if 1500 < (s.sens c).rate ∧ !(s.sens c).calibrated then s.countFirst (OD.SOT_ERRORS c) c
  else f s

/-- A header that is good or corrected is accepted: it is counted if it was corrected, and the port streams. -/
def State.header (s : State) (c : Nat) (fixed : Bool) : State :=
  let s := if fixed then s.bump (OD.HDR_CORRECTED c) else s
  s.streams c

/-- Change the frame in capture. -/
def State.mapFrame (s : State) (c : Nat) (f : Frame → Frame) : State :=
  s.setSens c { s.sens c with frame := (s.sens c).frame.map f }

/-- Set a bit of the frame's flags (Table PORT-2). -/
def Frame.flag (f : Frame) (i : Nat) : Frame := { f with flags := setBit f.flags i true }

/-- The ingress of sensor port c writes bytes; an access that fails is recorded with the port (R80, R525). -/
def State.portWrite (s : State) (c a : Nat) (bs : List Byte) : State :=
  let (r, s) := s.memWrite portAcc a bs
  s.memRecord portAcc r c

/-- LANES and LANE_RATE take effect while no frame is captured (R532). -/
def State.applyLanes (s : State) (c : Nat) : State :=
  if (s.sens c).frame.isSome then s
  else s.setSens c { s.sens c with lanes := s.rd (OD.LANES c), rate := s.rd (OD.LANE_RATE c) }

/-- The frame in capture closes (R536, R537): missing lines are padded. -/
def State.closeFrame (s : State) (c : Nat) (unended : Bool) : State :=
  match (s.sens c).frame with
  | none => s
  | some f =>
    let f := if f.line < f.height then f.flag 0 else f
    let f := if unended then f.flag 6 else f
    let base := s.bufferAddr f.ticket
    let s := foldN f.height (fun s j =>
      if j < f.line then s else s.portWrite c (base + j * f.stride) (List.replicate f.stride (BitVec.ofNat 8 f.pad))) s
    let f := { f with endTime := s.clk.gtime, epoch := s.tick.epoch.toNat }
    let x := s.sens c
    let s := s.setSens c { x with frame := none, closed := x.closed ++ [f] }
    let s := if s.rd (OD.PORT_STATE c) = 2 then s.wr (OD.PORT_STATE c) 1 else s
    s.applyLanes c

/-- FRAME_INFO (Table PORT-4). -/
def frameInfo (lines seq flags reason : Nat) : Nat :=
  min lines 65535 * 2 ^ 48 + seq % 65536 * 2 ^ 32 + flags * 2 ^ 24 + reason * 2 ^ 16

/-- A frame is dropped with a reason (R534). -/
def State.dropFrame (s : State) (c seq reason : Nat) : State :=
  let s := s.setSens c { s.sens c with dropping := true }
  (s.bump (OD.FRAMES_DROPPED c)).wr (OD.FRAME_INFO c) (frameInfo 0 seq 0 reason)

/-- A Frame Start that the port takes (R533). -/
def State.takeFrame (s : State) (c : Nat) : State :=
  let x := s.sens c
  let seq := (x.seq + 1) % 65536
  let s := s.setSens c { x with seq := seq, dropping := false }
  let landing := s.rd (OD.FRAME_LANDING c)
  let L := bits landing 0 16
  let width := s.rd (OD.WIDTH c)
  let dt := s.rd (OD.DATA_TYPE c)
  let height := s.rd (OD.HEIGHT c)
  if !bit landing 16 then s.dropFrame c seq 1
  else if 4 ≤ (s.port L).q.length then s.dropFrame c seq 2
  else if !s.powered 1 then s.dropFrame c seq 3
  else
    match s.alloc ⟨64, lineStride width dt * height, true, s.flag (OD.FRAME_SPILL c), s.rd (OD.FRAME_OWNERS c), none⟩ with
    | (.ticket t, s) =>
      let f : Frame := {
        width := width, height := height, dtype := dt, pad := s.rd (OD.PAD_BYTE c), landing := L
        timeout := s.rd (OD.FRAME_TIMEOUT c), ticket := t, seq := seq, since := s.clk.now, startTime := s.clk.gtime }
      (s.setSens c { s.sens c with frame := some f }).wr (OD.PORT_STATE c) 2
    | (_, s) => s.dropFrame c seq 3

/-- FRAME_START: one that arrives in CAPTURING closes the frame first (R537). -/
def execFrameStart (c : Fin 4) (fixed : Bool) (s : State) : Out :=
  .next (s.burst c (fun s => ((s.header c fixed).closeFrame c true).takeFrame c))

/-- LINE_PACKET (R528, R535, R558). -/
def execLinePacket (c : Fin 4) (fixed crcOk : Bool) (payload : List Byte) (s : State) : Out :=
  .next (s.burst c (fun s =>
    let s := s.header c fixed
    match (s.sens c).frame with
    | none => if (s.sens c).dropping then s else s.countFirst (OD.SYNC_ERRORS c) c
    | some f =>
      let s := if crcOk then s else (s.countFirst (OD.CRC_ERRORS c) c).mapFrame c (fun f => f.flag 4)
      let j := f.line
      if f.height ≤ j then s.mapFrame c (fun f => { f.flag 1 with line := f.line + 1 })
      else
        let lb := f.lineBytes
        let pad := BitVec.ofNat 8 f.pad
        let pix := payload.take lb
        let bs := pix ++ List.replicate (f.stride - pix.length) pad
        let s := s.portWrite c (s.bufferAddr f.ticket + j * f.stride) bs
        s.mapFrame c (fun f =>
          let f := { f with line := f.line + 1 }
          if payload.length < lb then f.flag 2 else if lb < payload.length then f.flag 3 else f)))

/-- The frame that FRAME_TIMEOUT has closed on the present edge closes without UNENDED after all (R559). -/
def SensorPort.endInTime (x : SensorPort) : SensorPort :=
  { x with
    timedOut := none
    closed := x.closed.dropLast ++ (x.closed.getLast?.map (fun f => { f with flags := setBit f.flags 6 false })).toList }

/-- FRAME_END (R536, R558, R559). -/
def execFrameEnd (c : Fin 4) (fixed : Bool) (s : State) : Out :=
  .next (s.burst c (fun s =>
    let s := s.header c fixed
    let x := s.sens c
    if x.frame.isSome then s.closeFrame c false
    else if x.timedOut = some s.clk.now then s.setSens c x.endInTime
    else if x.dropping then s.setSens c { x with dropping := false }
    else s.countFirst (OD.SYNC_ERRORS c) c))

/-- FRAME_TIMEOUT (R537). -/
def execFrameTimeout (c : Fin 4) (s : State) : Out :=
  .next (
    match (s.sens c).frame with
    | some f =>
      if f.since + usEdges (1000 * f.timeout) ≤ s.clk.now then
        let s := s.closeFrame c true
        s.setSens c { s.sens c with timedOut := some s.clk.now }
      else s
    | none => s)

/-- A closed frame is delivered (R538, R539): its objects, its counters and the PUSH of Table PORT-3. -/
def State.deliverFrame (s : State) (c : Nat) : State :=
  let x := s.sens c
  match x.closed with
  | [] => s
  | f :: rest =>
    let s := s.setSens c { x with closed := rest }
    let s := (s.wr (OD.FRAME_START_TIME c) f.startTime).wr (OD.FRAME_END_TIME c) f.endTime
    let s := s.wr (OD.FRAME_EPOCH c) f.epoch
    let room := decide ((s.port f.landing).q.length < 4)
    let payload := f.seq % 256 * 2 ^ 40 + f.flags * 2 ^ 32 + f.ticket
    let op := LandOp.push (BitVec.ofNat 64 payload) false
    let (r, s) := s.landOp portReq f.landing op 0
    let s := if r = some .done then s else s.record FaultClass.item 64 23 (OD.FRAMES_DROPPED c) (landAddr f.landing op) c
    if room && decide (r = some .done) then
      let s := (s.bump (OD.FRAMES_DELIVERED c)).wr (OD.FRAME_INFO c) (frameInfo f.line f.seq f.flags 0)
      if f.flags = 0 then s else s.bump (OD.FRAMES_FLAGGED c)
    else (s.bump (OD.FRAMES_DROPPED c)).wr (OD.FRAME_INFO c) (frameInfo f.line f.seq f.flags 4)

/-- FRAME_DELIVERY. -/
def execFrameDelivery (c : Fin 4) (s : State) : Out := .next (if s.powered 23 then s.deliverFrame c else s)

/-- SKEW_CALIBRATION. -/
def execSkewCalibration (c : Fin 4) (s : State) : Out :=
  .next (if s.portOn c then (s.setSens c { s.sens c with calibrated := true }).bump (OD.DESKEWS c) else s)

/-- ULPS_EXIT. -/
def execUlpsExit (c : Fin 4) (s : State) : Out :=
  .next (if s.portOn c then s.setSens c { s.sens c with calibrated := false } else s)

/-- STREAM_HOLD_EXPIRY (R540): SENS_LED falls when no port streams. -/
def execStreamHoldExpiry (c : Fin 4) (s : State) : Out :=
  .next (
    match (s.sens c).header with
    | some t =>
      if s.clk.now < t + usEdges 500000 then s
      else
        let s := (s.setSens c { s.sens c with header := none }).setOdBit OD.STREAMING c false
        if s.rd OD.STREAMING = 0 then s.wr OD.SENS_LED_STATE 0 else s
    | none => s)

/-- OTHER_PACKET (R527, R529, R533). -/
def execOtherPacket (c : Fin 4) (k : PacketKind) (s : State) : Out :=
  .next (
    match k with
    | .mismatch fixed => s.burst c (fun s => (s.header c fixed).bump (OD.OTHER_PACKETS c))
    | .badHeader => s.burst c (fun s => (s.countFirst (OD.HDR_DISCARDS c) c).mapFrame c (fun f => f.flag 5))
    | .badStart => if s.portOn c then s.countFirst (OD.SOT_ERRORS c) c else s)

/-- A commit of a sensor port's enable and lanes (R530, R532, R537). -/
def State.sensCommit (s : State) (c : Nat) : State :=
  let on := s.flag (OD.SENS_ENABLE c)
  let s :=
    if on ∧ s.rd (OD.PORT_STATE c) = 0 then
      (s.setSens c { s.sens c with calibrated := false, dropping := false }).wr (OD.PORT_STATE c) 1
    else if !on ∧ s.rd (OD.PORT_STATE c) ≠ 0 then (s.closeFrame c true).wr (OD.PORT_STATE c) 0
    else s
  s.applyLanes c

/-! ### The audio clock and its sources (R542 to R550) -/

/-- Change the audio unit. -/
def State.setAud (s : State) (a : AudioUnit) : State := { s with ports := { s.ports with aud := a } }

/-- The TDM port that the clock unit follows, if any (R542). -/
def State.clockPort (s : State) : Option Nat :=
  let src := s.rd OD.AUD_CLOCK_SOURCE
  if src = 0 ∨ s.rd (OD.TDM_ROLE (src - 1)) = 1 then none else some (src - 1)

/-- A commit of the clock source: CLOCK_STATE reports INTERNAL, or LOCKED until FSYNCs are missed. -/
def State.clockCommit (s : State) : State :=
  match s.clockPort with
  | none => s.wr OD.CLOCK_STATE 0
  | some _ => if s.rd OD.CLOCK_STATE = 0 then s.wr OD.CLOCK_STATE 1 else s

/-- A TDM port's record. -/
def AudioUnit.tdmPort (a : AudioUnit) (n : Nat) : TdmPort := Sparse.get (fun _ => {}) a.tdm n

/-- Store a TDM port's record. -/
def AudioUnit.setTdm (a : AudioUnit) (n : Nat) (t : TdmPort) : AudioUnit :=
  { a with tdm := Sparse.put (fun _ => {}) a.tdm n t }

/-- A slot's sample: the port's width of bits left-justified, the lower bits zero (R548). -/
def State.tdmSample (s : State) (n : Nat) (x : BitVec 32) : Nat :=
  let w := if s.rd (OD.TDM_WIDTH n) = 0 then 16 else if s.rd (OD.TDM_WIDTH n) = 1 then 24 else 32
  x.toNat / 2 ^ (32 - w) * 2 ^ (32 - w)

/-- A TDM frame (R546, R547): a bad one delivers zeros; a CONSUMER port that is not the clock source passes its frames
through two places, and drops one when they are full. A good frame of the source ends HOLDOVER (R543). -/
def State.tdmIn (s : State) (n : Nat) (good : Bool) (slots : List (BitVec 32)) : State :=
  if !(s.powered 23 && s.flag (OD.TDM_ENABLE n)) then s
  else
    let s := if good then s else s.countFirst (OD.TDM_FRAME_ERRORS n) n
    let frame := if good then (slots.take (s.rd (OD.TDM_SLOTS n))).map (fun x => s.tdmSample n x) else []
    let source := s.clockPort = some n
    let s := if good && source && decide (s.rd OD.CLOCK_STATE = 2) then s.wr OD.CLOCK_STATE 1 else s
    let a := s.ports.aud
    let t := a.tdmPort n
    if source ∨ s.rd (OD.TDM_ROLE n) = 1 then s.setAud (a.setTdm n { t with buf := [frame] })
    else if t.buf.length < 2 then s.setAud (a.setTdm n { t with buf := t.buf ++ [frame] })
    else s.countFirst (OD.TDM_SLIPS n) n

/-- TDM_FRAME. -/
def execTdmFrame (n : Fin 2) (good : Bool) (slots : List (BitVec 32)) (s : State) : Out := .next (s.tdmIn n good slots)

/-- HOLDOVER (R543). -/
def execHoldover (s : State) : Out :=
  .next (
    if s.powered 23 ∧ s.rd OD.CLOCK_STATE = 1 then
      ((s.wr OD.CLOCK_STATE 2).bump OD.HOLDOVERS).record FaultClass.corrected 64 23 OD.HOLDOVERS 0 0
    else s)

/-! ### Sample periods, routes and marks (R545, R551 to R553) -/

/-- A TDM port's frame of the present period: the next buffered one; a CONSUMER port that is not the clock source and
has none repeats its last, which is a slip (R547). -/
def State.tdmTake (s : State) (n : Nat) : List Nat × State :=
  let a := s.ports.aud
  let t := a.tdmPort n
  match t.buf with
  | f :: rest => (f, s.setAud (a.setTdm n { buf := rest, last := f }))
  | [] =>
    if s.flag (OD.TDM_ENABLE n) ∧ t.last ≠ [] then
      (t.last, if s.clockPort = some n ∨ s.rd (OD.TDM_ROLE n) = 1 then s else s.countFirst (OD.TDM_SLIPS n) n)
    else ([], s)

/-- The periods for which a PDM input delivers zero after it is enabled or PDM_CLOCK changes (R550). -/
def State.pdmDelay (s : State) : Nat := if s.rd OD.PDM_CLOCK = 0 then 29 else 24

/-- A PDM input's sample: zero for one group delay, then 24 significant bits that the decimation of R549 gives: a free
value here. -/
def State.pdmTake (s : State) (k : Nat) : Nat × State :=
  if !bit (s.rd OD.PDM_ENABLE) k then (0, s)
  else
    let a := s.ports.aud
    let d := Sparse.get (fun _ => 0) a.pdm k
    if 0 < d then (0, s.setAud { a with pdm := Sparse.put (fun _ => 0) a.pdm k (d - 1) })
    else
      let (v, s) := s.drawFree
      (v % 2 ^ 24 * 256, s)

/-- The samples of the present period: 32 TDM slots, then 8 PDM inputs. -/
def State.takeSamples (s : State) : List Nat × State :=
  let (f0, s) := s.tdmTake 0
  let (f1, s) := s.tdmTake 1
  let (ps, s) := foldN 8 (fun (p : List Nat × State) k => let (v, s) := p.2.pdmTake k; (p.1 ++ [v], s)) (([] : List Nat), s)
  ((List.range 16).map (fun i => f0.getD i 0) ++ (List.range 16).map (fun i => f1.getD i 0) ++ ps, s)

/-- The source that a route word names, as an index into the samples; a slot at or above TDM_SLOTS, or a disabled
source, delivers zero. -/
def State.routeSample (s : State) (w : Nat) (xs : List Nat) : Nat :=
  let kind := bits w 4 2
  let i := bits w 0 4
  if kind = 2 then (if bit (s.rd OD.PDM_ENABLE) i then xs.getD (32 + i) 0 else 0)
  else if kind ≤ 1 ∧ s.flag (OD.TDM_ENABLE kind) ∧ i < s.rd (OD.TDM_SLOTS kind) then xs.getD (16 * kind + i) 0
  else 0

/-- One live route delivers its sample; routes are taken from the highest number down, so that the lower one stands
(R553). -/
def State.routeDeliver (s : State) (xs : List Nat) (r : Nat) : State :=
  let w := s.rd (OD.PORT_ROUTE_LIVE r)
  if !bit w 31 then s
  else
    let v := s.routeSample w xs
    let a := s.ports.aud
    let a := if bit w 30 then { a with coln := Sparse.put (fun _ => 0) a.coln (48 * bits w 27 3 + a.period) v } else a
    let ring := bits w 23 3
    let a := if bit w 26 ∧ bits w 18 5 < s.rd (OD.AR_CHANNELS ring) then
        { a with block := Sparse.put (fun _ => 0) a.block ((48 * ring + a.period) * 32 + bits w 18 5) v }
      else a
    s.setAud a

/-- The end of a sample period (R55, R545): samples are delivered under the live table; the 48th makes a mark due. -/
def State.samplePeriod (s : State) : State :=
  if !s.powered 23 ∨ s.ports.aud.markDue then s
  else
    let (xs, s) := s.takeSamples
    let s := foldN 32 (fun s i => s.routeDeliver xs (31 - i)) s
    let s := if s.powered 1 then { s with tick := { s.tick with audio := s.tick.audio + 1 } } else s
    let a := s.ports.aud
    if a.period = 47 then s.setAud { a with period := 0, markDue := true } else s.setAud { a with period := a.period + 1 }

/-- AUDIO_SAMPLE_PERIOD. -/
def execAudioSamplePeriod (s : State) : Out := .next s.samplePeriod

/-- The routes as an edge finds them are kept for the mark that may come on it (R560). -/
def State.keepRoutes (s : State) : State :=
  s.setAud { s.ports.aud with
    swapWas := s.rd OD.PORT_ROUTE_SWAP, swapFresh := false, routesWas := (List.range 32).map (fun r => s.rd (OD.PORT_ROUTE r)) }

/-- The audio side of a timestep mark: the block is ready for the rings, and a swap armed before this edge copies the shadow
table as it stood then (R551, R554, R560). A write of 1 on the mark's own edge stays armed for the next. -/
def State.audioMark (s : State) : State :=
  let a := s.ports.aud
  let s := s.setAud { a with markDue := false, block := [], ready := some (a.block, s.tick.audio.toNat) }
  if a.swapWas = 1 then
    let s := foldN 32 (fun s r => s.wr (OD.PORT_ROUTE_LIVE r) (a.routesWas.getD r 0)) s
    let s := if a.swapFresh then s else s.wr OD.PORT_ROUTE_SWAP 0
    s.bump OD.PORT_ROUTE_SWAPS
  else s

/-- AUDIO_ROUTE_SWAP_WRITE (R551). -/
def execAudioRouteSwapWrite (p : Path) (v : Byte) (s : State) : Out :=
  .next (s.dictWrite p false OD.PORT_ROUTE_SWAP 1 v.toNat (fun m s =>
    (0, (s.wr OD.PORT_ROUTE_SWAP m).setAud { s.ports.aud with swapFresh := true })))

/-! ### Audio rings (R554, R555) -/

/-- The bytes of ring a's block. -/
def ringBytes (block : Sparse Nat) (a channels : Nat) : List Byte :=
  (List.range 48).flatMap (fun f => (List.range channels).flatMap (fun p =>
    leBytes 4 (Sparse.get (fun _ => 0) block ((48 * a + f) * 32 + p))))

/-- Ring a gets the block of a mark. -/
def State.ringWriteBlock (s : State) (block : Sparse Nat) (count a : Nat) : State :=
  let frames := s.rd (OD.AR_FRAMES a)
  if frames = 0 then s
  else
    let ch := s.rd (OD.AR_CHANNELS a)
    let pos := s.rd (OD.AR_POS a)
    let at_ := s.rd (OD.AR_BASE a) + pos * ch * 4
    let bs := ringBytes block a ch
    let failedBefore := bit s.ports.aud.failed a
    let (fail, s) := s.ringPut audioAcc at_ bs
    let bad := fail.isSome
    let s := s.setAud { s.ports.aud with failed := setBit s.ports.aud.failed a bad }
    let s :=
      match fail with
      | some x =>
        let s := s.bump (OD.AR_FAULTS a)
        if failedBefore then s else s.record FaultClass.corrected 64 23 (OD.AR_FAULTS a) x a
      | none => s
    let s := (s.wr (OD.AR_POS a) ((pos + 48) % frames)).wr (OD.AR_WRITTEN a) count
    let landing := s.rd (OD.AR_LANDING a)
    if !bad && bit landing 16 then
      match s.landOp portReq (bits landing 0 16) (.add 1) 0 with
      | (some .done, s) => s
      | (_, s) => s.record FaultClass.item 64 23 (OD.AR_LANDING a) (landBase + bits landing 0 16 * 0x100) a
    else s

/-- AUDIO_RING_WRITE. -/
def execAudioRingWrite (s : State) : Out :=
  .next (
    match s.ports.aud.ready with
    | none => s
    | some (block, count) =>
      foldN 8 (fun s a => s.ringWriteBlock block count a) (s.setAud { s.ports.aud with ready := none }))

/-- A commit that changes a ring's base, frames or channels restarts it at AR_POS 0. -/
def State.ringRestart (s : State) (a : Nat) : State := s.wr (OD.AR_POS a) 0

/-- A PDM input is enabled, or PDM_CLOCK changes: it delivers zero for one group delay (R550). -/
def State.pdmRestart (s : State) (k : Nat) : State :=
  s.setAud { s.ports.aud with pdm := Sparse.put (fun _ => 0) s.ports.aud.pdm k s.pdmDelay }

end Sys2Proof.Machine
end

