-- ==== Sys2Proof/Machine/Colonnade.lean ====
section
/-!
DEFINITION. The colonnade (chapter 16): loading a network, neurons, synapses, routers, the audio front end, the mark
sequence, the output ring, wake detectors, and the timestep mark that the audio clock makes for ports and colonnade.
-/

namespace Sys2Proof.Machine

/-- The colonnade's accesses and landing operations (R686). -/
def colnAcc : Acc := { agent := 39, ctx := none }
def colnReq : Requester := ⟨39, none⟩

/-- Change the colonnade. -/
def State.setColn (s : State) (c : Colonnade) : State := { s with coln := c }

/-- COL_STATE (Table COLN-10). -/
abbrev ColSt.empty : Nat := 0
abbrev ColSt.loading : Nat := 1
abbrev ColSt.ready : Nat := 2
abbrev ColSt.running : Nat := 3

/-! ### Loading a network (R688 to R690, Table COLN-2) -/

/-- The network is gone: every table, shadow and live, every event, queue and sum. -/
def State.netClear (s : State) : State :=
  let s := { s with od := Sparse.clear (fun k => decide (0x781001 ≤ k ∧ k < 0x782000)) s.od }
  s.setColn { s.coln with
    load := none, profiles := [], neurons := [], fans := [], syn := [], banks := [], sums := [], ops := [], mesh := []
    queues := [], outq := [], badSyn := [], routesWas := [] }

/-- A write of LOAD to NET_CMD. -/
def State.netOrder (v : Nat) (s : State) : Nat × State :=
  if v ≠ 1 then (Abort.range, s)
  else if s.rd OD.COL_STATE ≠ ColSt.empty ∧ s.rd OD.COL_STATE ≠ ColSt.ready then (Abort.state, s)
  else
    let s := (s.netClear).wr OD.COL_STATE ColSt.loading
    (0, s.setColn { s.coln with load := some (s.rd OD.NET_SOURCE, s.rd OD.NET_LENGTH) })

/-- NET_LOAD. -/
def execNetLoad (p : Path) (v : Byte) (s : State) : Out := .next (s.dictWrite p false OD.NET_CMD 1 v.toNat State.netOrder)

/-- Read `n` bytes of the block in ascending order, or the result code of the first that fails. -/
def State.netRead : Nat → State → Nat → List Byte → Except Nat (List Byte) × State
  | 0, s, _, acc => (.ok acc.reverse, s)
  | n + 1, s, a, acc =>
    if s.sealedByte a then (.error 3, s)
    else
      let (m, s) := s.readOn colnAcc a acc.isEmpty
      match m.ok, m.bytes with
      | true, b :: _ => State.netRead n s (a + 1) (b :: acc)
      | _, _ => (.error 2, s.errReported colnAcc m)

/-- A profile's fields (Table COLN-3). -/
def profThresh (p : Nat) : Int := toSigned 24 (bits p 0 24)
def profReset (p : Nat) : Nat := bits p 24 24
def profBias (p : Nat) : Int := toSigned 24 (bits p 48 24)
def profLeak (p : Nat) : Nat := bits p 72 5
def profTau (p : Nat) : Nat := bits p 77 5
def profRefract (p : Nat) : Nat := bits p 82 4

/-- A profile breaks its table. -/
def profBad (p : Nat) : Bool :=
  bits p 86 42 ≠ 0 || decide (24 < profTau p) || decide (24 < profLeak p) || decide (profThresh p < 1)

/-- A fan entry's fields (Table COLN-5); word 1 lies above word 0. -/
def fanValid (f : Nat) : Bool := bit f 63
def fanSparse (f : Nat) : Bool := bit f 62
def fanShift (f : Nat) : Nat := bits f 58 4
def fanWidth (f : Nat) : Nat := bits f 55 3 + 1
def fanNeg (f : Nat) : Bool := bit f 54
def fanTarget (f : Nat) : Nat := bits f 42 12
def fanRow (f : Nat) : Nat := bits f 24 18
def fanCount (f : Nat) : Nat := bits f 10 12 + 1
def fanWords (f : Nat) : Nat := bits f 0 10 + 1
def fanMask (f : Nat) : Nat := bits f 64 24
def fanKey (f : Nat) : Nat := bits f 88 24

/-- The bits of one synaptic entry. -/
def fanBits (f : Nat) : Nat := fanWidth f + (if fanSparse f then 12 else 0)

/-- The zero bits of a 24-bit mask. -/
def zeroBits (m : Nat) : Nat := (List.range 24).countP (fun i => !bit m i)

/-- A fan entry breaks its table or R697. -/
def fanBad (syn f : Nat) : Bool :=
  bits f 112 16 ≠ 0 || bits f 22 2 ≠ 0 ||
  (fanValid f &&
    ((fanNeg f && fanWidth f ≠ 1) || (fanSparse f && fanTarget f ≠ 0) ||
     decide (syn < 64 * fanRow f + 8 * fanWords f * 2 ^ zeroBits (fanMask f)) ||
     decide (64 * fanWords f < fanCount f * fanBits f) ||
     (!fanSparse f && decide (4096 < fanTarget f + fanCount f))))

/-- A route entry breaks its table. -/
def routeBad (r : Nat) : Bool := bit r 62 || bits r 48 8 ≠ 0

/-- Copy `n` entries of `size` bytes, each checked as it is copied (check 3). -/
def State.netEntries (size : Nat) (bad : Nat → Bool) (store : State → Nat → Nat → State) :
    Nat → Nat → Nat → State → Option Nat × State
  | 0, _, _, s => (none, s)
  | n + 1, i, a, s =>
    match s.netRead size a [] with
    | (.error c, s) => (some c, s)
    | (.ok bs, s) =>
      if bad (ofLe bs) then (some 6, s) else State.netEntries size bad store n (i + 1) (a + size) (store s i (ofLe bs))

/-- Store a profile, a neuron state, a fan entry, a route entry in the shadow table. -/
def State.putProfile (s : State) (i v : Nat) : State :=
  s.setColn { s.coln with profiles := Sparse.put (fun _ => 0) s.coln.profiles i v }
def State.putNeuron (s : State) (i v : Nat) : State :=
  s.setColn { s.coln with neurons := Sparse.put (fun _ => 0) s.coln.neurons i v }
def State.putFan (s : State) (i v : Nat) : State :=
  s.setColn { s.coln with fans := Sparse.put (fun _ => 0) s.coln.fans i v }
def State.putRoute (s : State) (i v : Nat) : State := s.wr (OD.COLN_ROUTE (i / 64) (i % 64)) v

/-- One core's sections: 4,096 neuron states, then 512 fan entries. -/
def State.netCore (s : State) (syn c a : Nat) : Option Nat × State :=
  match State.netEntries 8 (fun v => bits v 56 8 ≠ 0) (fun s i v => s.putNeuron (c * 4096 + i) v) 4096 0 a s with
  | (some e, s) => (some e, s)
  | (none, s) =>
    State.netEntries 16 (fun v => fanBad syn v) (fun s i v => s.putFan (c * 512 + i) v) 512 0 (a + 32768) s

/-- The sections of the given cores, from an address on. -/
def State.netCores (syn : Nat) : List Nat → Nat → State → Option Nat × State
  | [], _, s => (none, s)
  | c :: cs, a, s =>
    match s.netCore syn c a with
    | (some e, s) => (some e, s)
    | (none, s) => State.netCores syn cs (a + 40960) s

/-- Copy the synapse rows. -/
def State.netSyn (s : State) (a n : Nat) : Option Nat × State :=
  match s.netRead n a [] with
  | (.error c, s) => (some c, s)
  | (.ok bs, s) =>
    (none, s.setColn { s.coln with
      syn := (bs.zipIdx).foldl (fun m e => Sparse.put (fun _ => 0#8) m e.2 e.1) s.coln.syn })

/-- Copy shadow route tables into a bank. -/
def State.fillBank (s : State) (b : Nat) (shadow : Nat → Nat) : State :=
  s.setColn { s.coln with banks := foldN 1024 (fun m i =>
    Sparse.put (fun _ => 0) m (b * 1024 + i) (shadow (OD.COLN_ROUTE (i / 64) (i % 64)))) s.coln.banks }

/-- The shadow routes of the dictionary. -/
def shadowRoutes (od : Sparse Nat) : Sparse Nat := od.filter (fun e => decide (0x781001 ≤ e.1 ∧ e.1 < 0x782000))

/-- What an edge finds is kept for the mark that may come on it (R719). -/
def State.keepColn (s : State) : State :=
  s.setColn { s.coln with
    injectFresh := false, swapFresh := false, swapWas := s.flag OD.COLN_ROUTE_SWAP, routesWas := shadowRoutes s.od }

/-- The body of a block whose header has passed: profiles, routes, cores, rows, then the CRC. -/
def State.netBody (s : State) (src len cores syn crc : Nat) : Option Nat × State :=
  let cs := (List.range 16).filter (fun c => bit cores c)
  match State.netEntries 16 profBad State.putProfile 256 0 (src + 64) s with
  | (some e, s) => (some e, s)
  | (none, s) =>
    match State.netEntries 8 routeBad State.putRoute 1024 0 (src + 4160) s with
    | (some e, s) => (some e, s)
    | (none, s) =>
      match State.netCores syn cs (src + 12352) s with
      | (some e, s) => (some e, s)
      | (none, s) =>
        match s.netSyn (src + 12352 + 40960 * cs.length) syn with
        | (some e, s) => (some e, s)
        | (none, s) =>
          match s.netRead (len - 64) (src + 64) [] with
          | (.error c, s) => (some c, s)
          | (.ok bs, s) => (if crc32c bs = crc then none else some 7, s)

/-- The load reads the block and makes its checks (R689): the failing result code, if any. -/
def State.netCheck (s : State) (src len : Nat) : Option Nat × State :=
  match s.netRead 64 src [] with
  | (.error c, s) => (some c, s)
  | (.ok h, s) =>
    let cores := fieldAt h 6 2
    let syn := fieldAt h 0x10 4
    let n := (List.range 16).countP (fun c => bit cores c)
    if fieldAt h 0 4 ≠ 0x544E4C43 ∨ fieldAt h 4 2 ≠ 1 then (some 4, s)
    else if syn % 64 ≠ 0 ∨ 16777216 < syn ∨ fieldAt h 8 4 ≠ 12352 + 40960 * n + syn ∨ fieldAt h 8 4 ≠ len ∨
        h.drop 0x14 ≠ zeros 44 then (some 5, s)
    else s.netBody src len cores syn (fieldAt h 0xC 4)

/-- NET_LOAD_DONE. -/
def execNetLoadDone (s : State) : Out :=
  .next (
    match s.coln.load with
    | none => s
    | some (src, len) =>
      match s.netCheck src len with
      | (some e, s) => (s.netClear.wr OD.NET_RESULT e).wr OD.COL_STATE ColSt.empty
      | (none, s) =>
        let s := s.fillBank s.coln.bank s.rd
        (((s.setColn { s.coln with load := none, routesWas := shadowRoutes s.od }).wr OD.NET_RESULT 1).wr OD.COL_STATE ColSt.ready))

/-! ### Fan lookup (R694 to R698) -/

/-- The key and mask of a fan or route entry match an event's key. -/
def keyMatch (k key mask : Nat) : Bool := Nat.land k mask = Nat.land key mask

/-- The fan entry of a core. -/
def State.fan (s : State) (c i : Nat) : Nat := Sparse.get (fun _ => 0) s.coln.fans (c * 512 + i)

/-- The fan entries of a core. -/
@[irreducible] def fanEntries : Nat := 512

/-- The first VALID fan entry that matches a key. -/
def State.fanFor (s : State) (c key : Nat) : Option Nat :=
  ((List.range fanEntries).find? (fun i => fanValid (s.fan c i) && keyMatch key (fanKey (s.fan c i)) (fanMask (s.fan c i)))).map
    (fun i => s.fan c i)

/-- The row index: the key's bits at which MASK is 0, packed upward. -/
def rowIndex (key mask : Nat) : Nat :=
  ((List.range 24).foldl (fun (p : Nat × Nat) i =>
    if bit mask i then p else (p.1 + b2n (bit key i) * 2 ^ p.2, p.2 + 1)) (0, 0)).1

/-- `w` bits of the synapse store from a bit offset. -/
def State.synBits (s : State) (off w : Nat) : Nat :=
  ofLe ((List.range 4).map (fun i => Sparse.get (fun _ => 0#8) s.coln.syn (off / 8 + i))) / 2 ^ (off % 8) % 2 ^ w

/-- The weight of Table COLN-6. -/
def synWeight (b : Nat) (neg : Bool) (w : Nat) : Int :=
  if b = 1 then (if w = 0 then 0 else if neg then -1 else 1) else toSigned b w

/-- Synaptic operation i of a row that starts at a byte offset; one whose word is uncorrectable is skipped (R723). -/
def State.synOp (s : State) (c f row i : Nat) : State :=
  let off := 8 * row + i * fanBits f
  if s.coln.badSyn.any (fun w => decide (off / 64 ≤ w) && decide (w ≤ (off + fanBits f - 1) / 64)) then s
  else
    let e := s.synBits off (fanBits f)
    let target := if fanSparse f then e % 4096 else fanTarget f + i
    let w := synWeight (fanWidth f) (fanNeg f) (if fanSparse f then e / 4096 else e)
    let k := c * 4096 + target
    let s := s.setColn { s.coln with
      sums := Sparse.put (fun _ => 0) s.coln.sums k (Sparse.get (fun _ => 0) s.coln.sums k + w * 2 ^ fanShift f) }
    s.bump OD.SYNOPS

/-- Operations of core c so far in the timestep. -/
def State.colnOps (s : State) (c : Nat) : Nat := Sparse.get (fun _ => 0) s.coln.ops c

/-- A core's queue. -/
def State.colnQueue (s : State) (c : Nat) : List ColnEvent := Sparse.get (fun _ => []) s.coln.queues c

/-- Store a core's queue. -/
def State.setColnQueue (s : State) (c : Nat) (q : List ColnEvent) : State :=
  s.setColn { s.coln with queues := Sparse.put (fun _ => []) s.coln.queues c q }

/-- The synaptic operations that a core has for one timestep (R698). -/
def coreOps : Nat := 22528

/-- A core takes the event at its queue's front: none where its operations of the timestep do not reach (R698). -/
def State.colnTake (s : State) (c : Nat) (e : ColnEvent) (rest : List ColnEvent) : Option State :=
  match s.fanFor c e.key with
  | none => some ((s.setColnQueue c rest).bump OD.FAN_MISSES)
  | some f =>
    if coreOps < s.colnOps c + fanCount f then none
    else
      let s := s.setColnQueue c rest
      let s := s.setColn { s.coln with ops := Sparse.put (fun _ => 0) s.coln.ops c (s.colnOps c + fanCount f) }
      let s := if e.ts < s.coln.ts then s.bump OD.LATE_EVENTS else s
      let row := 64 * fanRow f + 8 * fanWords f * rowIndex e.key (fanMask f)
      some (foldN (fanCount f) (fun s i => s.synOp c f row i) s)

/-- A core takes the events of its queue in order, as far as the timestep's operations allow (R698, R707). -/
def State.colnDrain (c : Nat) : Nat → State → State
  | 0, s => s
  | n + 1, s =>
    match s.colnQueue c with
    | [] => s
    | e :: rest =>
      match s.colnTake c e rest with
      | none => s
      | some s => State.colnDrain c n s

/-- An event arrives at a core's queue (R701). -/
def State.colnArrive (s : State) (c : Nat) (e : ColnEvent) : State :=
  let q := s.colnQueue c
  if 4096 ≤ q.length then s.bump OD.QUEUE_DROPS
  else State.colnDrain c (q.length + 1) (s.setColnQueue c (q ++ [e]))

/-! ### Routers (R699 to R703) -/

/-- Entry i of router r in a bank. -/
def State.bankEntry (s : State) (b r i : Nat) : Nat := Sparse.get (fun _ => 0) s.coln.banks (b * 1024 + r * 64 + i)

/-- The first VALID entry of a router that matches an event under its bank. -/
def State.routeFor (s : State) (e : ColnEvent) : Option Nat :=
  ((List.range 64).find? (fun i =>
    let w := s.bankEntry e.bank e.at_ i
    bit w 63 && keyMatch e.key (bits w 24 24) (bits w 0 24))).map (fun i => s.bankEntry e.bank e.at_ i)

/-- The neighbour of a mesh position: 0 N, 1 E, 2 S, 3 W. -/
def meshNext (r dir : Nat) : Option Nat :=
  let x := r % 4
  let y := r / 4
  if dir = 0 then (if y = 0 then none else some (r - 4))
  else if dir = 1 then (if x = 3 then none else some (r + 1))
  else if dir = 2 then (if y = 3 then none else some (r + 4))
  else (if x = 0 then none else some (r - 1))

/-- A copy toward a neighbour (R699, R700). -/
def State.meshCopy (s : State) (e : ColnEvent) (dir : Nat) : State :=
  match meshNext e.at_ dir with
  | none => s.bump OD.ROUTE_MISSES
  | some r =>
    if 8 ≤ e.hops then s.bump OD.HOP_DROPS
    else s.setColn { s.coln with mesh := s.coln.mesh ++ [{ e with at_ := r, hops := e.hops + 1 }] }

/-- An event reaches its router: copies to its entry's outputs. -/
def State.routeEvent (s : State) (e : ColnEvent) : State :=
  match s.routeFor e with
  | none => s.bump OD.ROUTE_MISSES
  | some w =>
    let s := if bit w 60 then s.colnArrive e.at_ e else s
    let s := if bit w 56 then s.meshCopy e 0 else s
    let s := if bit w 57 then s.meshCopy e 1 else s
    let s := if bit w 58 then s.meshCopy e 2 else s
    let s := if bit w 59 then s.meshCopy e 3 else s
    if bit w 61 ∧ s.coln.cfg.outEntries ≠ 0 then s.setColn { s.coln with outq := s.coln.outq ++ [(e.at_, e.key)] } else s

/-- EVENT_ROUTE. -/
def execEventRoute (i : BitVec 32) (s : State) : Out :=
  .next (
    match s.coln.mesh[i.toNat]? with
    | none => s
    | some e => (s.setColn { s.coln with mesh := dropAt s.coln.mesh i.toNat }).routeEvent e)

/-- NET_ROUTE_SWAP_WRITE (R703). -/
def execNetRouteSwapWrite (p : Path) (v : Byte) (s : State) : Out :=
  .next (s.dictWrite p false OD.COLN_ROUTE_SWAP 1 v.toNat (fun m s =>
    (0, (s.wr OD.COLN_ROUTE_SWAP m).setColn { s.coln with swapFresh := true })))

/-- A write of INJECT (R719, R720). -/
def State.injectKey (v : Nat) (s : State) : Nat × State :=
  if s.coln.inject.isSome then (Abort.busy, s) else (0, s.setColn { s.coln with inject := some (bits v 0 24), injectFresh := true })

/-- INJECT. -/
def execInject (p : Path) (v : BitVec 32) (s : State) : Out :=
  .next (s.dictWrite p false OD.INJECT 4 v.toNat State.injectKey)

/-! ### Neurons (R691 to R693) -/

/-- sat and decay of the update. -/
def sat24 (x : Int) : Int := max (-8388608) (min x 8388607)
def decay24 (x : Int) (k : Nat) : Int := if k = 0 then 0 else x - x.tdiv (2 ^ k : Nat)

/-- A neuron's fields (Table COLN-4). -/
def neuronV (n : Nat) : Int := toSigned 24 (bits n 0 24)
def neuronI (n : Nat) : Int := toSigned 24 (bits n 24 24)
def neuronRef (n : Nat) : Nat := bits n 48 4
def neuronProfile (n : Nat) : Nat := bits n 52 4

/-- Pack a neuron state. -/
def neuronWord (v : Nat) (i : Int) (ref prof : Nat) : Nat :=
  v + ofSigned 24 i * 2 ^ 24 + ref * 2 ^ 48 + prof * 2 ^ 52

/-- The update of one neuron with its synaptic input: the new state, and whether it spikes. -/
def neuronUpdate (p n : Nat) (x : Int) : Nat × Bool :=
  let i := sat24 (decay24 (neuronI n) (profTau p) + x)
  if 0 < neuronRef n then (neuronWord (profReset p) i (neuronRef n - 1) (neuronProfile n), false)
  else
    let v := sat24 (decay24 (neuronV n) (profLeak p) + i + profBias p)
    if profThresh p ≤ v then (neuronWord (profReset p) i (profRefract p) (neuronProfile n), true)
    else (neuronWord (ofSigned 24 v) i 0 (neuronProfile n), false)

/-- A neuron's profile. -/
def State.profileOf (s : State) (k : Nat) : Nat :=
  Sparse.get (fun _ => 0) s.coln.profiles (k / 4096 * 16 + neuronProfile (Sparse.get (fun _ => 0) s.coln.neurons k))

/-- Neuron k is not skipped (R692). -/
def State.neuronDue (s : State) (sums : Sparse Int) (k : Nat) : Bool :=
  bits (Sparse.get (fun _ => 0) s.coln.neurons k) 0 52 ≠ 0 || profBias (s.profileOf k) ≠ 0 || sums.any (fun e => e.1 = k)

/-- The neurons of the colonnade. -/
def neurons : Nat := 65536

/-- Step 3 for one neuron, beside the spikes so far, latest first. -/
def State.neuronOne (sums : Sparse Int) (p : List Nat × State) (k : Nat) : List Nat × State :=
  if p.2.neuronDue sums k then
    let (n, spike) := neuronUpdate (p.2.profileOf k) (Sparse.get (fun _ => 0) p.2.coln.neurons k)
      (Sparse.get (fun _ => 0) sums k)
    (if spike then k :: p.1 else p.1, p.2.putNeuron k n)
  else p

/-- Step 3: every neuron once; the spikes in ascending order. -/
def State.neuronStep (s : State) (sums : Sparse Int) : List Nat × State :=
  let r := foldN neurons (State.neuronOne sums) (([] : List Nat), s)
  (r.1.reverse, r.2)

/-! ### Wake detectors (R711, R712) -/

/-- A detector. -/
def State.wakeDet (s : State) (d : Nat) : WakeDet := Sparse.get (fun _ => {}) s.coln.dets d

/-- Store a detector. -/
def State.setWakeDet (s : State) (d : Nat) (x : WakeDet) : State :=
  s.setColn { s.coln with dets := Sparse.put (fun _ => {}) s.coln.dets d x }

/-- A detector's configuration in force. -/
def State.detCfg (s : State) (d : Nat) : DetCfg := Sparse.get (fun _ => {}) s.coln.cfg.dets d

/-- Step 4 for one detector: its level, and whether it fires. -/
def State.judge (s : State) (d : Nat) : Bool × State :=
  let x := s.wakeDet d
  let c := s.detCfg d
  let hist := (x.cur :: x.hist).take 4096
  let level := min ((hist.take c.window).foldl (· + ·) 0) 65535
  let fires := c.enable && x.armed && decide (c.count ≤ level)
  let s := s.setWakeDet d { hist := hist, cur := 0, armed := !fires && (x.armed || decide (level < c.count)) }
  let s := s.wr (OD.WAKE_LEVEL d) level
  (fires, if fires then s.bump OD.WAKES else s)

/-- Step 4: the detectors are judged; one that fires writes WAKE_CAUSE and wakes (R712). -/
def State.judgeAll (s : State) : State :=
  let (mask, s) := foldN 4 (fun (p : Nat × State) d =>
    let (f, s) := p.2.judge d
    (if f then p.1 + 2 ^ d else p.1, s)) (0, s)
  match (List.range 4).find? (fun d => bit mask d) with
  | none => s
  | some d =>
    let s := s.wr OD.WAKE_CAUSE (mask * 2 ^ 56 + s.rd (OD.WAKE_LEVEL d) * 2 ^ 32 + s.rd OD.TIMESTEPS)
    s.wake 0

/-! ### The audio front end (R704, R705) -/

/-- A live route feeds a channel, or its block holds a sample other than zero. -/
def State.channelFed (s : State) (ch : Nat) : Bool :=
  (List.range 32).any (fun r => bit (s.rd (OD.PORT_ROUTE_LIVE r)) 31 && bit (s.rd (OD.PORT_ROUTE_LIVE r)) 30 &&
    bits (s.rd (OD.PORT_ROUTE_LIVE r)) 27 3 = ch) ||
  s.ports.aud.coln.any (fun e => e.1 / 48 = ch)

/-- The level of a band: max(0, round(2 × (E + FE_FLOOR))), where 2 × E, rounded, is a free integer (R704), but for a channel that
nothing feeds. -/
def State.bandLevel (s : State) (ch : Nat) : Nat × State :=
  if s.channelFed ch then
    let (v, s) := s.drawFree
    let e : Int := if v % 2 = 0 then (v / 2 : Nat) else -((v / 2 + 1 : Nat) : Int)
    ((e + 2 * (s.coln.cfg.floor : Int)).toNat, s)
  else (0, s)

/-- One band at a mark: the event it emits, if any (R705). -/
def State.bandStep (s : State) (ch k : Nat) : Option Nat × State :=
  let (l, s) := s.bandLevel ch
  let i := ch * 32 + k
  let ls := Sparse.get (fun _ => 0) s.coln.sent i
  let d := s.coln.cfg.delta
  let key := 0xF00000 + 64 * ch + 2 * k
  if ls + d ≤ l then (some key, s.setColn { s.coln with sent := Sparse.put (fun _ => 0) s.coln.sent i (ls + d) })
  else if l + d ≤ ls then (some (key + 1), s.setColn { s.coln with sent := Sparse.put (fun _ => 0) s.coln.sent i (ls - d) })
  else (none, s)

/-- Step 6: the front-end events of the timestep now ending, in key order. -/
def State.frontEnd (s : State) : List Nat × State :=
  foldN 256 (fun (p : List Nat × State) i =>
    if bit p.2.coln.cfg.fe (i / 32) then
      let (e, s) := p.2.bandStep (i / 32) (i % 32)
      (match e with | some k => p.1 ++ [k] | none => p.1, s)
    else p) (([] : List Nat), s)

/-! ### The mark sequence (R706 to R710, Table COLN-8) -/

/-- Step 5: a swap armed before this edge, of the shadow tables as they stood then, then the staged changes (R703, R719). A write of
ROUTE_SWAP on the mark's own edge stands for the next mark. -/
def State.colnConfigure (s : State) : State :=
  let s :=
    if s.coln.swapWas then
      let b := 1 - s.coln.bank
      let s := s.fillBank b (Sparse.get (fun _ => 0) s.coln.routesWas)
      let s := s.setColn { s.coln with bank := b }
      (if s.coln.swapFresh then s else s.wr OD.COLN_ROUTE_SWAP 0).bump OD.COLN_ROUTE_SWAPS
    else s
  let old := s.coln.cfg.fe
  let fe := s.rd OD.FE_ENABLE
  let cfg : ColnCfg := {
    fe := fe, delta := s.rd OD.FE_DELTA, floor := s.rd OD.FE_FLOOR, outBase := s.rd OD.OUT_BASE
    outEntries := s.rd OD.OUT_ENTRIES, outLanding := s.rd OD.OUT_LANDING
    dets := foldN 4 (fun m d => Sparse.put (fun _ => {}) m d
      { enable := s.flag (OD.COLN_WAKE_ENABLE d), key := s.rd (OD.WAKE_KEY d), mask := s.rd (OD.WAKE_MASK d)
        window := s.rd (OD.WAKE_WINDOW d), count := s.rd (OD.WAKE_COUNT d) }) [] }
  s.setColn { s.coln with
    cfg := cfg, sent := Sparse.clear (fun i => bit fe (i / 32) && !bit old (i / 32)) s.coln.sent }

/-- Step 7 for one event: it enters the mesh at a router, and the detectors that match count it. -/
def State.colnInject (s : State) (key router : Nat) : State :=
  let s := s.bump OD.EVENTS_INJECTED
  let s := foldN 4 (fun s d =>
    if keyMatch key (s.detCfg d).key (s.detCfg d).mask then s.setWakeDet d { s.wakeDet d with cur := (s.wakeDet d).cur + 1 }
    else s) s
  s.setColn { s.coln with
    mesh := s.coln.mesh ++ [{ key := key, bank := s.coln.bank, ts := s.coln.ts, at_ := router }] }

/-- Step 8 for one event: the entry is written, or counted in OUT_DROPS; OUT_POS advances. -/
def State.outWrite (c : ColnCfg) (p : Bool × State) (e : Nat × Nat) : Bool × State :=
  let s := p.2
  let a := c.outBase + 8 * (s.rd OD.OUT_POS % c.outEntries)
  let v := s.rd OD.TIMESTEPS * 2 ^ 32 + e.1 * 2 ^ 28 + e.2
  let (fail, s) := s.ringPut colnAcc a (leBytes 8 v)
  let s := if fail.isSome then s.bump OD.OUT_DROPS else s
  (p.1 || fail.isNone, s.wr OD.OUT_POS ((s.rd OD.OUT_POS + 1) % c.outEntries))

/-- Step 8: the ending timestep's output events, under the configuration that was in force (R709). -/
def State.outRing (s : State) (c : ColnCfg) (q : List (Nat × Nat)) : State :=
  if c.outEntries = 0 then s
  else
    let s := s.bumpN OD.OUT_DROPS (q.length - 1024)
    let (wrote, s) := (q.take 1024).foldl (State.outWrite c) (false, s)
    if wrote && bit c.outLanding 16 then
      let L := bits c.outLanding 0 16
      match s.landOp colnReq L (.add 1) 0 with
      | (some .done, s) => s
      | (_, s) => s.record FaultClass.item 39 22 OD.OUT_LANDING (landBase + L * 0x100) 0
    else s

/-- The colonnade stops (R708): events, queues, sums and detector windows go; the neuron states stay. -/
def State.colnStop (s : State) : State :=
  let s := foldN 4 (fun s d => s.wr (OD.WAKE_LEVEL d) 0) s
  (s.setColn { s.coln with
    mesh := [], queues := [], sums := [], ops := [], outq := []
    inject := if s.coln.injectFresh then s.coln.inject else none, dets := [] }).wr
    OD.COL_STATE ColSt.ready

/-- Step 1: events injected before the timestep now ending are discarded. -/
def State.staleDrop (s : State) : State :=
  let old (e : ColnEvent) : Bool := decide (e.ts < s.coln.ts)
  let n := s.coln.mesh.countP old + (s.coln.queues.map (fun q => q.2.countP old)).foldl (· + ·) 0
  let s := s.setColn { s.coln with
    mesh := s.coln.mesh.filter (fun e => !old e)
    queues := (s.coln.queues.map (fun q => (q.1, q.2.filter (fun e => !old e)))).filter (fun q => q.2 ≠ []) }
  s.bumpN OD.STALE_DROPS n

/-- The key that waits in INJECT since an earlier edge enters the mesh, at a router that is left open (R719, R720). -/
def State.injectWaiting (s : State) : State :=
  match s.coln.inject with
  | none => s
  | some k =>
    if s.coln.injectFresh then s else
    let (v, s) := s.drawFree
    (s.setColn { s.coln with inject := none }).colnInject k (v % 16)

/-- The new timestep's events: the spikes, the front end's, the INJECT key (steps 6 and 7). -/
def State.injectAll (s : State) (spikes fe : List Nat) : State :=
  let s := spikes.foldl (fun s k => s.colnInject k (k / 4096)) s
  (fe.foldl (fun s k => s.colnInject k 0) s).injectWaiting

/-- The steps that begin a timestep, once the spikes of the last are known. -/
def State.colnBegin (s : State) (spikes : List Nat) (out : List (Nat × Nat)) : State :=
  let s := s.judgeAll
  let r := s.frontEnd
  let s := r.2.colnConfigure
  let s := s.setColn { s.coln with ts := s.coln.ts + 1 }
  let s := (s.injectAll spikes r.1).outRing r.2.coln.cfg out
  foldN 16 (fun s c => State.colnDrain c (s.colnQueue c).length s) s

/-- The steps of Table COLN-8 of a RUNNING colonnade. -/
def State.colnRunMark (s : State) : State :=
  let s := s.wr OD.TIMESTEPS ((s.rd OD.TIMESTEPS + 1) % 2 ^ 32)
  let s := s.staleDrop
  let t := s.setColn { s.coln with sums := [], ops := [], outq := [] }
  let r := t.neuronStep s.coln.sums
  r.2.colnBegin r.1 s.coln.outq

/-- The colonnade at a timestep mark (R687, R706, R708): COL_RUN takes effect before step 1. -/
def State.colnMark (s : State) : State :=
  let run := s.flag OD.COL_RUN
  let s := if s.rd OD.COL_STATE = ColSt.running ∧ !run then s.colnStop
    else if s.rd OD.COL_STATE = ColSt.ready ∧ run then s.wr OD.COL_STATE ColSt.running else s
  if s.rd OD.COL_STATE = ColSt.running then s.colnRunMark else s.colnConfigure

/-- TIMESTEP_MARK (R545): the colonnade's mark sequence, then the ports' swap and ring blocks. -/
def execTimestepMark (s : State) : Out :=
  .next (
    if !s.ports.aud.markDue then s
    else
      let s := if s.powered 22 then s.colnMark else s
      let s := s.audioMark
      s.setAud { s.ports.aud with coln := [] })

/-! ### Errors (R723) -/

/-- The location that a record names: an address in the store concerned. -/
def colnPlaceAddr : ColnPlace → Nat
  | .syn w => 8 * w.val
  | .neuron n => 8 * n.val
  | .fan c i => 8192 * c.val + 16 * i.val
  | .route r i => 512 * r.val + 8 * i.val

/-- What an uncorrectable error does to its entry. -/
def State.colnLose (s : State) : ColnPlace → State
  | .syn w =>
    if s.coln.badSyn.any (· = w.val) then s else s.setColn { s.coln with badSyn := w.val :: s.coln.badSyn }
  | .neuron n => s.putNeuron n 0
  | .fan c i => s.putFan (c * 512 + i) 0
  | .route r i =>
    s.setColn { s.coln with banks := Sparse.put (fun _ => 0) s.coln.banks (s.coln.bank * 1024 + r * 64 + i) 0 }

/-- COLONNADE_ECC_ERROR. -/
def execColonnadeEccError (fixed : Bool) (what : ColnPlace) (s : State) : Out :=
  .next (
    if !s.powered 22 then s
    else if fixed then
      (s.bump OD.SYN_CORRECTED).record FaultClass.corrected 39 22 OD.SYN_CORRECTED (colnPlaceAddr what) 0
    else ((s.colnLose what).bump OD.SYN_UNCORR).record FaultClass.item 39 22 OD.SYN_UNCORR (colnPlaceAddr what) 0)

end Sys2Proof.Machine
end

