-- ==== Sys2Proof/Machine/Dmem.lean ====
section
/-!
DEFINITION. The memory controller (chapter 18): channels and their latch, bring-up, trims, DRAM accesses with their error
checks, rows and refresh, and the real-time ports' panic.
-/

namespace Sys2Proof.Machine

/-- Change the memory controller's record. -/
def State.setDmem (s : State) (d : Dmem) : State := { s with dmem := d }

/-- Channel states (Table DMEM-8). -/
abbrev ChSt.off : Nat := 0
abbrev ChSt.untrimmed : Nat := 1
abbrev ChSt.init : Nat := 2
abbrev ChSt.active : Nat := 3
abbrev ChSt.selfRefresh : Nat := 4
abbrev ChSt.failed : Nat := 5

/-- A channel's state. -/
def State.chSt (s : State) (ch : Nat) : Nat := s.rd (OD.CH_STATE ch)

/-! ### Leaving OFF (R764, R767, R783) -/

/-- Every channel is OFF. -/
def State.allOff (s : State) : Bool := (List.range 8).all (fun ch => s.chSt ch = ChSt.off)

/-- DRAM_USABLE of an ECC mode (Table DMEM-3). -/
def usableBytes (ecc : Bool) : Nat := if ecc then 15032385536 else 17179869184

/-- The configuration is latched as a channel leaves OFF while every channel is OFF. -/
def State.latchDram (s : State) : State :=
  if !s.allOff then s
  else
    (s.wr OD.LATCHED (s.rd OD.GRAIN_LOG2 + s.rd OD.DRAM_RATE * 2 ^ 8 + s.rd OD.INTERLEAVE * 2 ^ 11 +
      s.rd OD.CH_HASH * 2 ^ 12 + s.rd OD.ECC_MODE * 2 ^ 13)).wr OD.DRAM_USABLE (usableBytes (s.rd OD.ECC_MODE = 1))

/-- The four channels of D24 (k = 0) or D25 leave OFF for UNTRIMMED. -/
def State.channelsOn (s : State) (k : Nat) : State :=
  foldN 4 (fun s i => s.wr (OD.CH_STATE (4 * k + i)) ChSt.untrimmed) s.latchDram

/-- The rows, refreshes and idle marks of some channels are gone. -/
def Dmem.forget (d : Dmem) (p : Nat → Bool) : Dmem :=
  { d with
    rows := Sparse.clear (fun b => p (b / 16)) d.rows
    used := Sparse.clear (fun b => p (b / 16)) d.used
    postponed := Sparse.clear (fun b => p (b / 16)) d.postponed
    last := Sparse.clear p d.last
    zq := Sparse.clear p d.zq
    down := foldN 8 (fun v ch => if p ch then setBit v ch false else v) d.down }

/-- The channels of D24 or D25 lose their contents and go OFF (R796); their objects return to defaults with the domain's. -/
def State.channelsOff (s : State) (k : Nat) : State :=
  let s := s.memClear (fun a => decide (dramBase ≤ a ∧ a < dramEnd) && decide (s.dramChannel (a - dramBase) / 4 = k))
  let s := foldN 4 (fun s i => s.wr (OD.CH_STATE (4 * k + i)) ChSt.off) s
  let s := s.setDmem (s.dmem.forget (fun ch => ch / 4 = k))
  if s.allOff then s.wr OD.DRAM_USABLE 0 else s

/-! ### Bring-up (R784, R785) and trims (R786 to R789) -/

/-- The shadow file is copied whole into the live file. -/
def State.copyDelays (s : State) (ch : Nat) : State :=
  foldN 52 (fun s i => s.wr (OD.LIVE_DELAY ch i) (s.rd (OD.SHADOW_DELAY ch i))) s

/-- A write of CH_CMD. -/
def State.chOrder (ch v : Nat) (s : State) : Nat × State :=
  if v ≠ 1 then (Abort.range, s)
  else if s.chSt ch ≠ ChSt.untrimmed then (Abort.state, s)
  else (0, (s.copyDelays ch).wr (OD.CH_STATE ch) ChSt.init)

/-- CH_CMD_INIT. -/
def execChCmdInit (p : Path) (ch : Fin 8) (v : Byte) (s : State) : Out :=
  .next (s.dictWrite p false (OD.CH_CMD ch) 1 v.toNat (State.chOrder ch))

/-- CHANNEL_INIT_DONE. -/
def execChannelInitDone (ch : Fin 8) (ok : Bool) (s : State) : Out :=
  .next (
    if s.chSt ch ≠ ChSt.init then s
    else if ok then ((s.wr (OD.CH_STATE ch) ChSt.active).setDmem (s.dmem.forget (fun c => c = ch))).powerNote
    else
      ((s.wr (OD.CH_STATE ch) ChSt.failed).record FaultClass.device 0xFF (24 + ch / 4) (OD.CH_STATE ch) 0 ch).powerNote)

/-- A write of TRIM_ARM: one on a boundary's own edge stands for the following boundary (R793). -/
def State.trimOrder (ch v : Nat) (s : State) : Nat × State :=
  let fresh := !s.flag (OD.TRIM_ARM ch) || bit s.dmem.trimFresh ch
  (0, (s.wr (OD.TRIM_ARM ch) v).setDmem { s.dmem with trimFresh := setBit s.dmem.trimFresh ch fresh })

/-- TRIM_ARM. -/
def execTrimArm (p : Path) (ch : Fin 8) (v : Byte) (s : State) : Out :=
  .next (s.dictWrite p false (OD.TRIM_ARM ch) 1 v.toNat (State.trimOrder ch))

/-- Whether an armed trim of a channel can be applied: a channel in self-refresh keeps it (R787). -/
def State.trimDue (s : State) (ch : Nat) : Bool :=
  s.flag (OD.TRIM_ARM ch) && !bit s.dmem.trimFresh ch && decide (s.chSt ch ≠ ChSt.off) && decide (s.chSt ch ≠ ChSt.selfRefresh)

/-- An armed trim is applied. -/
def State.trim (s : State) (ch : Nat) : State :=
  if !s.trimDue ch then s
  else
    let s := (s.copyDelays ch).wr (OD.TRIM_EPOCH ch) s.tick.epoch.toNat
    let s := (s.wr (OD.TRIM_TEMP ch) (s.rd (OD.CH_TEMP ch))).bump (OD.TRIMS ch)
    (s.wr (OD.TRIM_ARM ch) 0).wr (OD.TRIM_STALE ch) 0

/-- TRIM_APPLY: while the tick unit is STOPPED; a boundary applies the others. -/
def execTrimApply (ch : Fin 8) (s : State) : Out := .next (if s.tick.st = .stopped then s.trim ch else s)

/-! ### Accesses (R765, R766, R769, R770, R772) -/

/-- One line of an access opens its row and ends power-down. -/
def State.rowTouch (s : State) (a : Nat) : State :=
  let (ch, c) := dramMap s.latGrain s.latSplit s.latHash (a - dramBase)
  let b := ch * 16 + dramBank c
  s.setDmem { s.dmem with
    rows := Sparse.put (fun _ => 0) s.dmem.rows b (dramRow c + 1)
    used := Sparse.put (fun _ => 0) s.dmem.used b s.clk.now
    last := Sparse.put (fun _ => 0) s.dmem.last ch s.clk.now
    down := setBit s.dmem.down ch false }

/-- What the error checks find at an access's first word becomes its mark; a link error that link ECC corrects counts, one
that it does not is an uncorrectable error of the read alone. Answers whether the read is poisoned. -/
def State.dramFind (s : State) (a : Nat) (find : DramFind) : Bool × State :=
  match find with
  | .clean => (false, s)
  | .linkCorrected => (false, s.bump (OD.LINK_CORRECTED (s.dramChannel (a - dramBase))))
  | .linkBad => (true, s.eccUncorrectable a)
  | .correctable => (false, if s.latEcc then s.setMark a 1 else s)
  | .uncorrectable => (false, if s.latEcc then s.setMark a 2 else s)

/-- A requester's read or write of DRAM. -/
def State.dramAccess (s : State) (q : Acc) (a : Nat) (wr : Bool) (bytes : List Byte) (find : DramFind) : State :=
  let n := bytes.length
  if n = 0 ∨ a < dramBase ∨ dramEnd < a + n then s
  else
    let served := s.place q wr a = .mem
    let s := if served then foldN ((a % 64 + n + 63) / 64) (fun s i => s.rowTouch ((a / 64 + i) * 64)) s else s
    let (bad, s) := if served && !wr then s.dramFind a find else (false, s)
    let (r, s) := if wr then s.memWrite q a bytes else s.memRead q a n
    s.memRecord q (if bad then { r with poison := orElse (some (a / 8 * 8)) r.poison } else r)

/-- DRAM_ACCESS. -/
def execDramAccess (q : Requester) (a : BitVec 48) (wr : Bool) (bytes : List Byte) (find : DramFind) (s : State) : Out :=
  .next (s.dramAccess { agent := q.agent, ctx := (carriedCtx q).map (·.val) } a.toNat wr bytes find)

/-- ROW_CLOSE (R772): 64 ns, in whole SYSREF cycles. -/
def execRowClose (ch : Fin 8) (bank : Fin 16) (s : State) : Out :=
  .next (
    let b := ch.val * 16 + bank.val
    if s.clk.now < Sparse.get (fun _ => 0) s.dmem.used b + 4 then s
    else s.setDmem { s.dmem with rows := Sparse.put (fun _ => 0) s.dmem.rows b 0 })

/-- CHANNEL_POWER_DOWN_IDLE (Table DMEM-1). -/
def execChannelPowerDownIdle (ch : Fin 8) (s : State) : Out :=
  .next (
    if s.chSt ch ≠ ChSt.active ∨ s.clk.now < Sparse.get (fun _ => 0) s.dmem.last ch + usEdges 1 then s
    else s.setDmem { s.dmem with down := setBit s.dmem.down ch true })

/-! ### Refresh and temperature (R774 to R776, R789) -/

/-- REFRESH: postponed up to 8 times while a port is in panic or the bank's row is in use (R775). -/
def execRefresh (ch : Fin 8) (bank : Fin 16) (s : State) : Out :=
  .next (
    if s.chSt ch ≠ ChSt.active then s
    else
      let b := ch.val * 16 + bank.val
      let n := Sparse.get (fun _ => 0) s.dmem.postponed b
      let cause := s.rtPanic || decide (Sparse.get (fun _ => 0) s.dmem.rows b ≠ 0)
      let rows := Sparse.put (fun _ => 0) s.dmem.rows b 0
      if cause ∧ n < 8 then s.setDmem { s.dmem with postponed := Sparse.put (fun _ => 0) s.dmem.postponed b (n + 1) }
      else if cause then s.setDmem { s.dmem with rows := rows }
      else s.setDmem { s.dmem with rows := rows, postponed := Sparse.put (fun _ => 0) s.dmem.postponed b 0 })

/-- DRAM_RR from the device's refresh-rate status: 0xFF writes one CORRECTED record (R776). -/
def State.setRr (s : State) (ch v : Nat) : State :=
  if s.chSt ch ≠ ChSt.active ∨ !(v = 1 ∨ v = 2 ∨ v = 4 ∨ v = 0xFF) then s
  else
    let was := s.rd (OD.DRAM_RR ch)
    let s := s.wr (OD.DRAM_RR ch) v
    if v = 0xFF ∧ was ≠ 0xFF then s.record FaultClass.corrected 0xFF (24 + ch / 4) (OD.DRAM_RR ch) 0 ch else s

/-- REFRESH_RATE_POLL. -/
def execRefreshRatePoll (ch : Fin 8) (status : Byte) (temp : BitVec 32) (s : State) : Out :=
  .next (
    if s.chSt ch = ChSt.off then s
    else
      let s := (s.wr (OD.CH_TEMP ch) temp.toNat).setRr ch status.toNat
      let drift := (toSigned 32 temp.toNat - toSigned 32 (s.rd (OD.TRIM_TEMP ch))).natAbs
      if s.chSt ch = ChSt.active ∧ 16 * s.rd OD.TRIM_DRIFT_LIMIT ≤ drift ∧ !s.flag (OD.TRIM_STALE ch) then
        (s.wr (OD.TRIM_STALE ch) 1).record FaultClass.corrected 0xFF (24 + ch / 4) (OD.TRIM_STALE ch) 0 ch
      else s)

/-- ZQ_LATCH. -/
def execZqLatch (ch : Fin 8) (s : State) : Out :=
  .next (
    if s.chSt ch ≠ ChSt.active then s
    else s.setDmem { s.dmem with zq := Sparse.put (fun _ => 0) s.dmem.zq ch s.clk.now })

/-- Whether the DRAM scrubber reads a word (R771). -/
def State.scrubsDram (s : State) (a : Nat) : Bool :=
  decide (s.rd OD.DRAM_SCRUB_PERIOD ≠ 0) && s.latEcc && decide (dramBase ≤ a ∧ a < dramEnd) &&
  !s.dramHole (a - dramBase) && decide (s.chSt (s.dramChannel (a - dramBase)) = ChSt.active)

/-- DRAM_SCRUB: as R454 states for the gallery scrubber. -/
def execDramScrub (find : ScrubFind) (s : State) : Out :=
  .next (
    match find with
    | .passDone => s.scrubRest s.scrubsDram
    | .correctable a => if s.scrubsDram a.toNat then s.scrubFind a.toNat 1 else s
    | .uncorrectable a => if s.scrubsDram a.toNat then s.scrubFind a.toNat 2 else s)

/-! ### Panic (R777 to R779, R791) -/

/-- A copy of a layer runs, as RT3 sees it. -/
def State.copyRuns (s : State) : Bool :=
  s.ledg.cur.layers.any (fun e => e.2.copy = .running) ||
  (match s.ledg.pub with | some p => p.layers.any (fun e => e.2.copy = .running) | none => false)

/-- RT_PANIC_ENTRY. -/
def execRtPanicEntry (r : Fin 4) (level : BitVec 16) (s : State) : Out :=
  .next (
    if !s.powered 1 ∨ !s.flag (OD.RT_ENABLE r) ∨ s.rd (OD.RT_STATE r) = 1 ∨ s.rd (OD.RT_PANIC_MARK r) ≤ level.toNat ∨
        (r.val = 3 ∧ !s.copyRuns) then s
    else
      let s := (s.wr (OD.RT_LEVEL r) level.toNat).wr (OD.RT_STATE r) 1
      let s := (s.bump (OD.RT_PANICS r)).wr (OD.RT_LAST_PANIC r) s.clk.gtime
      let s := { s with bal := { s.bal with panicSeen := true } }
      if s.flag OD.PANIC_IRQ then s.signal false 13 else s)

/-- RT_PANIC_EXIT. -/
def execRtPanicExit (r : Fin 4) (level : BitVec 16) (s : State) : Out :=
  .next (
    if s.rd (OD.RT_STATE r) ≠ 1 ∨
        level.toNat < max (s.rd (OD.RT_RECOVER_MARK r)) (s.rd (OD.RT_PANIC_MARK r) + 1) then s
    else (s.wr (OD.RT_LEVEL r) (min level.toNat (rtBuffer r))).wr (OD.RT_STATE r) 0)

/-- A commit that disables a port in panic ends its panic (R791). -/
def State.rtCommit (s : State) (r : Nat) : State :=
  if !s.flag (OD.RT_ENABLE r) ∧ s.rd (OD.RT_STATE r) = 1 then s.wr (OD.RT_STATE r) 0 else s

/-- RT3's level counts as full while no copy runs (R777). -/
def State.rtFull (s : State) : State :=
  if s.copyRuns then s
  else
    let s := s.wr (OD.RT_LEVEL 3) (rtBuffer 3)
    if s.rd (OD.RT_STATE 3) = 1 ∧ max (s.rd (OD.RT_RECOVER_MARK 3)) (s.rd (OD.RT_PANIC_MARK 3) + 1) ≤ rtBuffer 3 then
      s.wr (OD.RT_STATE 3) 0
    else s

/-- The panic time of one SYSREF cycle (RT_PANIC_TIME). -/
def State.panicTime (s : State) : State :=
  foldN 4 (fun s r => if s.rd (OD.RT_STATE r) = 1 then s.bump64 (OD.RT_PANIC_TIME r) 20 else s) s

end Sys2Proof.Machine
end

