-- ==== Sys2Proof/Machine/GqLine.lean ====
section
/-!
DEFINITION. The GQ unit (chapter 19) but for the requests it answers: the line monitor, reception, the master mailbox and tick
telegrams (R799 to R850). Requests from the bus stand in Machine/GqServe.lean.
-/

namespace Sys2Proof.Machine

/-- Change the GQ unit's record. -/
def State.setGq (s : State) (g : Gq) : State := { s with gq := g }

/-- The node's address (R807). -/
def gqNode : Nat := Config.gqAddr.val

/-- The node does not transmit (R803, R888). -/
def State.gqMute (s : State) : Bool := decide (s.rd OD.GQ_MODE = 1)

/-- Count in a counter whose first count after a consuming read is recorded (R850). -/
def State.gqCount (s : State) (k : Nat) : State :=
  if s.rd k = 0 then (s.bump k).record FaultClass.corrected 65 0 k 0 (k % 256) else s.bump k

/-! ### The bus (R819 to R821) -/

/-- The bus has been idle for `wait` bit times, outside a reply window, at an edge. -/
def State.busFree (s : State) (wait start : Nat) : Bool :=
  decide (s.gq.idleAt + wait ≤ start) && decide (s.gq.window ≤ start)

/-- The wait before a request or a probe, without the courtesy (R820). -/
def requestWait : Nat := 20 + 2 * gqNode

/-- A telegram or a probe has ended on the present edge. The bus has been idle since the cold reset's end (DESIGN CHOICE,
notes/assumptions/44.md). -/
def State.busIdle (s : State) : State := s.setGq { s.gq with idleAt := s.clk.now }

/-- A reply window is open for 150 bit times, or closes (R819). -/
def State.openWindow (s : State) : State := s.setGq { s.gq with window := s.clk.now + 150 }
def State.endWindow (s : State) : State := s.setGq { s.gq with window := min s.gq.window s.clk.now }

/-! ### Line faults (R802 to R806) -/

/-- A condition of Table GQBS-2 is detected (R806). -/
def State.lineDetected (s : State) (c : Nat) : State :=
  let was := bit (s.rd OD.LINE_SEEN) c
  let s := ((s.setOdBit OD.LINE_NOW c true).setOdBit OD.LINE_SEEN c true).bump OD.LINE_FAULTS
  let s := s.record FaultClass.corrected 65 0 OD.LINE_FAULTS 0 c
  if !was && s.flag OD.GQ_IRQ then s.signal false 9 else s

/-- OPEN, SHORT_GND, SHORT_SUPPLY or SHORT_LINES holds: the node goes to LISTEN_ONLY (R803). A condition that holds already is
not detected again. -/
def State.lineFault (s : State) (c : Nat) : State :=
  let s := if bit (s.rd OD.LINE_NOW) c then s else s.lineDetected c
  (s.wr OD.GQ_MODE 1).setGq { s.gq with clear := s.clk.now, probe := if s.rd OD.GQ_MODE = 1 then s.gq.probe else s.clk.now }

/-- LINE_FAULT_DETECT. -/
def execLineFaultDetect (c : Fin 4) (s : State) : Out := .next (s.lineFault c)

/-- POLARITY_SWAP: the wires are crossed (R805); the inversion ends the condition. -/
def execPolaritySwap (s : State) : Out :=
  .next (
    if bits (s.rd OD.LINE_NOW) 1 3 ≠ 0 then s
    else
      let s := (s.lineDetected 4).setOdBit OD.LINE_NOW 4 false
      (s.wr OD.POLARITY (1 - s.rd OD.POLARITY)).bump OD.POLARITY_SWAPS)

/-- PROBE: every 10 ms in LISTEN_ONLY, under the access rule for requests, 32 bit times of ones have been driven and the
conditions are checked again (R804, R820). -/
def execProbe (found : BitVec 4) (s : State) : Out :=
  .next (
    if s.rd OD.GQ_MODE = 0 ∨ s.clk.now < s.gq.probe + usEdges 10000 ∨ !s.busFree (requestWait + 32) s.clk.now then s
    else
      let s := s.busIdle
      let held := decide (s.rd OD.LINE_NOW ≠ 0)
      let s := foldN 4 (fun s c =>
        if found.getLsbD c then (if bit (s.rd OD.LINE_NOW) c then s else s.lineDetected c)
        else s.setOdBit OD.LINE_NOW c false) s
      s.setGq { s.gq with
        probe := s.clk.now
        clear := if held || decide (found ≠ 0#4) then s.clk.now else s.gq.clear })

/-- LINE_RECOVERY (R804). -/
def execLineRecovery (s : State) : Out :=
  .next (
    if s.rd OD.GQ_MODE = 0 ∨ s.rd OD.LINE_NOW ≠ 0 ∨ s.clk.now < s.gq.clear + usEdges 1000 then s
    else s.wr OD.GQ_MODE 0)

end Sys2Proof.Machine

namespace Sys2Proof

open Sys2Proof.Machine

/-! ### Telegrams (Tables GQBS-3 to GQBS-7, R814, R815) -/

/-- Fields of a telegram. -/
def Telegram.byte (t : Telegram) (i : Nat) : Nat := (t.bytes.getD i 0#8).toNat
def Telegram.ty (t : Telegram) : Nat := t.byte 0 / 32
def Telegram.dest (t : Telegram) : Nat := t.byte 0 % 32
def Telegram.src (t : Telegram) : Nat := t.byte 1 % 32
def Telegram.seq (t : Telegram) : Nat := t.byte 2
def Telegram.len (t : Telegram) : Nat := t.byte 3
def Telegram.body (t : Telegram) : List Byte := (t.bytes.drop 4).take t.len
def Telegram.crc (t : Telegram) : Nat := fieldAt t.bytes (4 + t.len) 4

/-- The bit times of a telegram from its preamble to its ED (Table GQBS-8). -/
def Telegram.times (t : Telegram) : Nat := 90 + 8 * t.len

/-- LEN fits its TYPE. -/
def Telegram.lenOk (t : Telegram) : Bool :=
  if t.ty = 0 then decide (8 ≤ t.len ∧ t.len ≤ 24)
  else if t.ty = 1 then decide (4 ≤ t.len ∧ t.len ≤ 20)
  else decide (t.ty = 2) && decide (t.len = 8) && decide (t.dest = 0) && decide (fieldAt t.body 5 2 ≤ 640)

/-- A telegram passes R815. -/
def Telegram.ok (t : Telegram) : Bool :=
  t.clean && decide (t.bytes.length = 8 + t.len) && decide (t.crc = crc32c (t.bytes.take (4 + t.len))) && t.lenOk

end Sys2Proof

namespace Sys2Proof.Machine

/-- A telegram as sent: header and body, and their CRC. -/
def withCrc (bs : List Byte) : List Byte := bs ++ leBytes 4 (crc32c bs)

/-- A header (Table GQBS-4). -/
def gqHeader (ty dest seq len : Nat) : List Byte :=
  leBytes 1 (32 * ty + dest) ++ leBytes 1 gqNode ++ leBytes 1 seq ++ leBytes 1 len

/-- A telegram is received: discarded under R815, or counted and checked for an address clash (R811, R841). -/
def State.gqReceive (s : State) (t : Telegram) : State :=
  let s := s.busIdle
  if !t.ok then s.gqCount OD.RX_DISCARDS
  else
    let s := s.bump OD.RX_TELEGRAMS
    if gqNode ≠ 0 ∧ t.src = gqNode then
      (s.bump OD.ADDR_CLASHES).record FaultClass.corrected 65 0 OD.ADDR_CLASHES 0 (OD.ADDR_CLASHES % 256)
    else s

/-- A telegram went out. -/
def State.gqSent (s : State) (bs : List Byte) : State := (s.bump OD.TX_TELEGRAMS).setGq { s.gq with tx := withCrc bs }

/-! ### The master mailbox (R832 to R834, R847) -/

abbrev GqmFail.timeout : Nat := 1
abbrev GqmFail.rxError : Nat := 2
abbrev GqmFail.collision : Nat := 3
abbrev GqmFail.lineFault : Nat := 4
abbrev GqmFail.noAddress : Nat := 5
abbrev GqmFail.reset : Nat := 6
abbrev GqmFail.self : Nat := 7

/-- The mailbox ends FAILED. -/
def State.mailFailed (s : State) (why : Nat) : State :=
  ((s.wr OD.GQM_STATE 3).wr OD.GQM_FAIL why).setGq { s.gq with mail := none }

/-- The mailbox ends DONE with a reply: its next request adds the courtesy (R821). -/
def State.mailDone (s : State) (reply : List Byte) : State :=
  ((s.wr OD.GQM_STATE 2).wrBytes OD.GQM_REPLY reply).setGq { s.gq with mail := none, courtesy := true }

/-- An attempt failed: the request is repeated, twice at most (R833). -/
def State.mailRetry (s : State) (m : GqMail) (why : Nat) : State :=
  let s := s.setGq { s.gq with courtesy := false }
  if 3 ≤ m.tries then s.mailFailed why else s.setGq { s.gq with mail := some { m with sent := none } }

/-- GQM_BODY; its default is 8 zero bytes. -/
def State.mailBody (s : State) : List Byte :=
  let b := s.rdBytes OD.GQM_BODY
  if b = [] then zeros 8 else b

/-- A write of GQM_GO. -/
def State.mailOrder (v : Nat) (s : State) : Nat × State :=
  if v ≠ 1 then (Abort.range, s)
  else if s.rd OD.GQM_STATE = 1 then (Abort.busy, s)
  else
    let s := (s.wr OD.GQM_FAIL 0).wrBytes OD.GQM_REPLY []
    let dest := s.rd OD.GQM_DEST
    if gqNode = 0 then (0, s.mailFailed GqmFail.noAddress)
    else if s.gqMute then (0, s.mailFailed GqmFail.lineFault)
    else if dest = gqNode then (0, s.mailFailed GqmFail.self)
    else
      let q := (s.rd OD.GQM_SEQ + 1) % 256
      let body := s.mailBody
      let s := (s.wr OD.GQM_SEQ q).wr OD.GQM_STATE 1
      (0, s.setGq { s.gq with mail := some { body := gqHeader 0 dest q body.length ++ body } })

/-- GQM_GO. -/
def execGqmGo (p : Path) (v : Byte) (s : State) : Out :=
  .next (s.dictWrite p false OD.GQM_GO 1 v.toNat State.mailOrder)

/-- The wait of the mailbox's next request (R820, R821). -/
def State.mailWait (s : State) : Nat := requestWait + (if s.gq.courtesy then 64 else 0)

/-- The bit times of the mailbox's request (Table GQBS-8). -/
def GqMail.times (m : GqMail) : Nat := 58 + 8 * m.body.length

/-- MAILBOX_TX: the row stands at the end of the request's ED; the request has started only if the bus had been idle for its wait
(R820, R821). A broadcast is done with that. -/
def execMailboxTx (tx : TxEnd) (s : State) : Out :=
  .next (
    match s.gq.mail with
    | none => s
    | some m =>
      if m.sent.isSome ∨ !s.pow.sysref then s
      else if s.gqMute then s.mailFailed GqmFail.lineFault
      else if !s.busFree (s.mailWait + m.times) s.clk.now then s
      else
        let s := s.busIdle
        let m := { m with tries := m.tries + 1 }
        match tx with
        | .sent =>
          let s := s.gqSent m.body
          if (m.body.getD 0 0#8).toNat % 32 = 0 then s.mailDone []
          else (s.setGq { s.gq with mail := some { m with sent := some s.clk.now } }).openWindow
        | .collision => (s.gqCount OD.COLLISIONS).mailRetry m GqmFail.collision
        | .lineFault c => (s.lineFault c).mailFailed GqmFail.lineFault)

/-- MASTER_TIMEOUT (R822). -/
def execMasterTimeout (s : State) : Out :=
  .next (
    match s.gq.mail with
    | some m => (match m.sent with
      | some e => if s.clk.now < e + 150 then s else (s.gqCount OD.TIMEOUTS).mailRetry m GqmFail.timeout
      | none => s)
    | none => s)

/-- The mailbox waits for a response in its reply window; a response that ends now began `times` bit times ago (R819). -/
def State.mailWaits (s : State) (times : Nat) : Option GqMail :=
  match s.gq.mail with
  | some m => (match m.sent with
    | some e => if s.clk.now ≤ e + 150 + times then some m else none
    | none => none)
  | none => none

/-- GQ_RESPONSE_RX: the mailbox's response, or a stray one (R822, R823, R832); it closes the reply window (R819). -/
def execGqResponseRx (t : Telegram) (s : State) : Out :=
  .next (
    let s := (s.gqReceive t).endWindow
    if !t.ok then
      (match s.mailWaits t.times with
      | some m => (s.gqCount OD.TIMEOUTS).mailRetry m GqmFail.rxError
      | none => s)
    else if t.ty ≠ 1 ∨ t.dest ≠ gqNode then s
    else
      match s.mailWaits t.times with
      | some m =>
        if t.seq = (m.body.getD 2 0#8).toNat ∧ t.src = (m.body.getD 0 0#8).toNat % 32 then s.mailDone t.body
        else s.bump OD.STRAY_RESPONSES
      | none => s.bump OD.STRAY_RESPONSES)

/-! ### Tick telegrams (R835 to R838) -/

/-- The body of a tick telegram (Table GQBS-7). -/
def tickBody (g : GqTick) (delay : Nat) : List Byte :=
  leBytes 4 g.epoch ++ leBytes 1 (b2n g.synth) ++ leBytes 2 delay ++ leBytes 1 0

/-- The waiting tick telegram goes unsent. -/
def State.tickUnsent (s : State) : State := (s.bump OD.TICKS_UNSENT).setGq { s.gq with emit := none }

/-- TICK_TELEGRAM_TX: the row stands at the start of the SD, 16 bit times after that of the preamble, which follows the boundary and
10 bit times of idle bus (R820). -/
def execTickTelegramTx (tx : TxEnd) (s : State) : Out :=
  .next (
    match s.gq.emit with
    | none => s
    | some g =>
      if gqNode = 0 ∨ s.gqMute then s.tickUnsent
      else if g.edge + 640 < s.clk.now ∨ !s.pow.sysref ∨ s.clk.now < g.edge + 16 ∨ !s.busFree 26 s.clk.now then s
      else
        let s := s.setGq { s.gq with idleAt := s.clk.now + 138 }
        match tx with
        | .sent =>
          let s := (s.gqSent (gqHeader 2 0 0 8 ++ tickBody g (s.clk.now - g.edge))).bump OD.TICKS_SENT
          s.setGq { s.gq with emit := none }
        | .collision => s.busIdle.gqCount OD.COLLISIONS
        | .lineFault c => (s.lineFault c).busIdle.tickUnsent)

/-- TICK_TELEGRAM_ABANDON. -/
def execTickTelegramAbandon (s : State) : Out :=
  .next (
    match s.gq.emit with
    | some g => if g.edge + 640 < s.clk.now ∨ gqNode = 0 ∨ s.gqMute then s.tickUnsent else s
    | none => s)

/-- TICK_TELEGRAM_RX: the row stands at the end of the ED, 138 bit times after the start of the SD. -/
def execTickTelegramRx (t : Telegram) (s : State) : Out :=
  .next (
    let s := s.gqReceive t
    if !t.ok ∨ t.ty ≠ 2 ∨ !s.powered 1 then s
    else if s.flag OD.TELEGRAM_EMIT then s.bump OD.TICK_CONFLICTS
    else if s.rd OD.TICK_SOURCE ≠ 2 then s
    else
      let delay := fieldAt t.body 5 2
      let s := (s.wr OD.TICK_RX_FLAGS (fieldAt t.body 4 1 % 2)).wr OD.TICK_RX_DELAY delay
      s.setGq { s.gq with point := some ⟨s.clk.now + 800 - delay - 138, fieldAt t.body 0 4, bit (fieldAt t.body 4 1) 0⟩ })

/-- A full device reset takes hold (R831, R847). -/
def State.gqHold (s : State) : State :=
  let s := if s.gq.mail.isSome then s.mailFailed GqmFail.reset else s
  s.setGq { s.gq with cache := [], emit := none, point := none }

end Sys2Proof.Machine
end

