-- ==== Sys2Proof/Machine/LandRows.lean ====
section
/-!
DEFINITION. The rows of the landing store (chapter 05): an operation of an agent that is no matrix core's instruction, the
hold limit, and errors of a landing's word.
-/

namespace Sys2Proof.Machine

/-! ### Operations (Tables LAND-3 and LAND-4) -/

/-- A load that may park. -/
def LandOp.blocks : LandOp → Bool
  | .acquire | .wait => true
  | _ => false

/-- The agent's stage is sealed, so its PUSH carries the mark (R743). -/
def State.agentSealed (s : State) (a : Nat) : Bool :=
  if a < 32 then (s.core a).sealed else if a < 36 then (s.newel (a - 32)).sealed else false

/-- A Newel core takes or peeks a marked entry: its stage is sealed (R742, R932). -/
def State.sealNewel (s : State) (a L : Nat) (op : LandOp) : State :=
  let marked := match op with
    | .take => s.sealedEntry L 0
    | .peek k => s.sealedEntry L k
    | _ => false
  if marked && decide (32 ≤ a ∧ a < 36) && (s.runningOn a).isSome && !(s.newel (a - 32)).sealed then
    (s.setNewel (a - 32) { s.newel (a - 32) with sealed := true }).traceSealed a
  else s

/-- An agent's operation met an error: its stage faults if it runs one, else a record names the agent and the address (R80,
R82, R230). -/
def State.landFail (s : State) (a addr cause obj : Nat) : State :=
  let s := s.landResp a .error
  match s.runningOn a with
  | some e => s.stageFault e cause addr none
  | none => s.record FaultClass.item a 1 obj addr (if obj = 0 then 0 else (addr - landBase) / 0x100)

/-- One row of Table LAND-3: what the requester is answered. A matrix core's blocking operations are its own instructions
(Table CORE-7); the debug port never parks (R951). -/
def State.landRow (s : State) (q : Requester) (L : Nat) (op : LandOp) : State :=
  let q : Requester := ⟨q.agent, carriedCtx q⟩
  let a := q.agent.val
  if s.parkedAgent a || (op.blocks && decide (a < 32)) then s
  else if op.blocks && decide (a = 66) then s.landResp a .error
  else
    let s := if s.landReach q L && s.powered 1 then s.sealNewel a L op else s
    match s.landOp q L op 0 with
    | (none, s) => s.landFail a (landAddr L op) 4 0
    | (some .error, s) => s.landFail a (landAddr L op) 5 OD.OP_ERRORS
    | (some .done, s) => s.landResp a .done
    | (some (.word w), s) => s.landResp a (.word w)
    | (some .parked, s) => s.landResp a .none

/-- LANDING_READ. -/
def execLandingRead (q : Requester) (L : BitVec 16) (s : State) : Out := .next (s.landRow q L.toNat .read)

/-- LANDING_INIT. -/
def execLandingInit (q : Requester) (L : BitVec 16) (w : Word) (s : State) : Out := .next (s.landRow q L.toNat (.init w))

/-- LANDING_ADD. -/
def execLandingAdd (q : Requester) (L : BitVec 16) (d : Word) (s : State) : Out := .next (s.landRow q L.toNat (.add d))

/-- LANDING_SET. -/
def execLandingSet (q : Requester) (L : BitVec 16) (s : State) : Out := .next (s.landRow q L.toNat .set)

/-- LANDING_CLEAR. -/
def execLandingClear (q : Requester) (L : BitVec 16) (s : State) : Out := .next (s.landRow q L.toNat .clear)

/-- LANDING_ACQUIRE. -/
def execLandingAcquire (q : Requester) (L : BitVec 16) (s : State) : Out := .next (s.landRow q L.toNat .acquire)

/-- LANDING_TRY. -/
def execLandingTry (q : Requester) (L : BitVec 16) (s : State) : Out := .next (s.landRow q L.toNat .tryLock)

/-- LANDING_RELEASE. -/
def execLandingRelease (q : Requester) (L : BitVec 16) (s : State) : Out := .next (s.landRow q L.toNat .release)

/-- LANDING_ARRIVE. -/
def execLandingArrive (q : Requester) (L : BitVec 16) (s : State) : Out := .next (s.landRow q L.toNat .arrive)

/-- LANDING_WAIT. -/
def execLandingWait (q : Requester) (L : BitVec 16) (s : State) : Out := .next (s.landRow q L.toNat .wait)

/-- LANDING_ACK. -/
def execLandingAck (q : Requester) (L : BitVec 16) (d : Word) (s : State) : Out := .next (s.landRow q L.toNat (.ack d))

/-- LANDING_FORCE. -/
def execLandingForce (q : Requester) (L : BitVec 16) (s : State) : Out := .next (s.landRow q L.toNat .force)

/-- LANDING_PUSH. -/
def execLandingPush (q : Requester) (L : BitVec 16) (d : Word) (s : State) : Out :=
  .next (s.landRow q L.toNat (.push d (s.agentSealed q.agent.val)))

/-- LANDING_TAKE. -/
def execLandingTake (q : Requester) (L : BitVec 16) (s : State) : Out := .next (s.landRow q L.toNat .take)

/-- LANDING_PORT_STATUS. -/
def execLandingPortStatus (q : Requester) (L : BitVec 16) (s : State) : Out := .next (s.landRow q L.toNat .portStatus)

/-- LANDING_PEEK. -/
def execLandingPeek (q : Requester) (L : BitVec 16) (k : Fin 4) (s : State) : Out := .next (s.landRow q L.toNat (.peek k.val))

/-! ### The hold limit (R220, R236) -/

/-- HOLD_LIMIT and HOLD_TIME of a LOCK word (Table LAND-2). -/
def holdLimit (w : Nat) : Nat := bits w 32 16
def holdTime (w : Nat) : Nat := bits w 16 16

/-- A microsecond of SYSREF time passes: every held lock counts, unless its holder is halted. -/
def State.holdTick (s : State) : State :=
  let up (w : Word) : Word :=
    if heldOf w.toNat && !s.halted (agentOf w.toNat) then
      BitVec.ofNat 64 (setField w.toNat 16 16 (min (holdTime w.toNat + 1) 0xFFFF))
    else w
  { s with land := { s.land with words := s.land.words.map (fun e => (e.1, up e.2)) } }

/-- The hold time of landing L has reached its limit. -/
def State.holdExpired (s : State) (L : Nat) : Bool :=
  let w := s.landRaw L
  heldOf w && decide (holdLimit w ≠ 0 ∧ holdLimit w ≤ holdTime w) && !s.halted (agentOf w)

/-- HOLD_LIMIT_EXPIRY: the lock is released abandoned; the one STAGE record is that of the holder's stage, if it runs
one. -/
def execHoldLimitExpiry (L : BitVec 16) (s : State) : Out :=
  .next (
    if !s.holdExpired L.toNat then s
    else
      let a := agentOf (s.landRaw L.toNat)
      let s := (s.landAbandon L.toNat).bump OD.HOLD_EXPIRIES
      match s.runningOn a with
      | some e => s.stageFault e 6 0 none
      | none => s.record FaultClass.stage a 1 OD.HOLD_EXPIRIES (landBase + L.toNat * 0x100) L.toNat)

/-! ### Errors of a landing's word (R262) -/

/-- LANDING_ECC_ERROR: an uncorrectable one resets the landing, faults every stage registered on it, and answers its parked
operations with an error. -/
def execLandingEccError (fixed : Bool) (L : BitVec 16) (s : State) : Out :=
  .next (
    let a := landBase + L.toNat * 0x100
    if !s.powered 1 then s
    else if fixed then s.record FaultClass.corrected 0xFF 1 0 a L.toNat
    else
      let parked := (s.land.waiters.filter (fun x => x.landing = L.toNat)).map (·.agent)
      let stages := s.gated L.toNat
      let s := s.setLand L.toNat (withOverflow resetWord.toNat true)
      let s := { s with land := { s.land with waiters := s.land.waiters.filter (fun x => x.landing ≠ L.toNat) } }
      let s := s.record FaultClass.stage 0xFF 1 0 a L.toNat
      let s := stages.foldl (fun s e => s.stageFault e 5 0 none) s
      parked.foldl (fun s x =>
        let s := s.landResp x .error
        match s.runningOn x with
        | some e => s.stageFault e 5 0 none
        | none => s) s)

end Sys2Proof.Machine
end

