-- ==== Sys2Proof/Machine/Bundle.lean ====
section
/-!
DEFINITION. The bundle unit (chapter 17, R49 to R54): the sweep, the copies, the publish point, layer entries and headers;
the latch of range 0x7C00; unseals and the zero-fills of bytes that leave the sealed set.
-/

namespace Sys2Proof.Machine

/-! ### Accesses and failures (R739, R760, R761) -/

/-- The bundle unit's accesses for a tenancy. -/
def bundleAcc (t : Nat) : Acc := { agent := 69, ctx := some t }

/-- A failed entry, header or ADD (R739, R761). -/
def State.bundleFault (s : State) (t a : Nat) : State :=
  (s.bump OD.BUNDLE_FAULTS).record FaultClass.item 69 1 OD.BUNDLE_FAULTS a t

/-- A write of a tenancy's bundle; answers whether it was made. -/
def State.bundleWrite (s : State) (t a : Nat) (bs : List Byte) : Bool × State :=
  let (r, s) := s.memWrite (bundleAcc t) a bs
  if r.ok then (true, s) else (false, s.bundleFault t (r.failAt a))

/-! ### Copies (R733 to R735, R760, Table LEDG-3) -/

/-- The buffer that a layer's next copy fills. -/
def State.nextBuffer (s : State) (l : Nat) (c : LayerCfg) : Nat :=
  match Sparse.get (fun _ => none) s.ledg.fresh l with
  | none => 0
  | some f => (f.buf + 1) % c.bufs

/-- A part's length in its buffer: a copied part is cut at PART_BYTES, a missing one holds nothing. -/
def Part.kept (x : Part) (c : LayerCfg) : Nat :=
  if !x.present then 0 else if x.ref.isSome then x.len else min x.len c.partBytes

/-- A part whose data were cut at PART_BYTES (R734). -/
def Part.cut (x : Part) (c : LayerCfg) : Bool := x.present && x.ref.isNone && decide (c.partBytes < x.len)

/-- A part's entry of the part table (Table LEDG-3). -/
def Part.entry (x : Part) (c : LayerCfg) : List Byte :=
  leBytes 4 x.tag ++ leBytes 4 (x.kept c) ++ leBytes 1 x.status ++
  leBytes 1 (b2n x.present + 2 * b2n (x.present && x.ref.isSome) + 4 * b2n (x.cut c)) ++ zeros 6 ++
  leBytes 8 (if x.present then x.ref.getD 0 else 0) ++ zeros 8

/-- The place of a part's data in its buffer. -/
def Part.place (x : Part) (c : LayerCfg) : Nat := alignUp (32 * c.parts) 64 + x.p * c.partBytes

/-- The bytes of a write from an offset on that stay inside the buffer (R734). -/
def insideBuffer (c : LayerCfg) (off n : Nat) : Nat := min n (c.bufBytes - off)

/-- The parts of a layer in the order of their indices. -/
def LayerRun.ordered (x : LayerRun) : List Part :=
  (List.range x.cfg.parts).filterMap (fun p => x.parts.find? (fun y => y.p = p))

/-- The parts whose data are copied. -/
def LayerRun.copied (x : LayerRun) : List Part := x.ordered.filter (fun y => y.present && y.ref.isNone)

/-- A copy would read a sealed byte (Table LEDG-4). -/
def State.copySealed (s : State) (x : LayerRun) : Bool :=
  x.copied.any (fun y => (s.firstSealed y.dev (insideBuffer x.cfg (y.place x.cfg) (y.kept x.cfg))).isSome)

/-- Copy one part's data; answers whether every access so far completed. -/
def State.copyPart (c : LayerCfg) (base : Nat) (r : Bool × State) (y : Part) : Bool × State :=
  let n := insideBuffer c (y.place c) (y.kept c)
  if !r.1 || n = 0 then r
  else
    let (x, s) := r.2.memRead (bundleAcc c.ten) y.dev n
    if !x.ok then (false, s.errReported (bundleAcc c.ten) x)
    else
      let (w, s) := s.memWrite (bundleAcc c.ten) (base + y.place c) x.bytes
      (w.ok, s.errReported (bundleAcc c.ten) w)

/-- The copy of a layer into its next buffer: the data of each copied part, then the part table; what the layer's entry
will say, or none where an access failed. -/
def State.copyLayer (s : State) (l epoch : Nat) (x : LayerRun) : Option LastFresh × State :=
  let c := x.cfg
  let b := s.nextBuffer l c
  let base := c.base + b * c.bufBytes
  let (ok, s) := x.copied.foldl (State.copyPart c base) (true, s)
  if !ok then (none, s)
  else
    let table := (x.ordered.flatMap (fun y => y.entry c)).take c.bufBytes
    let (w, s) := s.memWrite (bundleAcc c.ten) base table
    if !w.ok then (none, s.errReported (bundleAcc c.ten) w)
    else
      let total := (x.ordered.map (fun y => y.kept c)).foldl (· + ·) 0
      let trunc := x.ordered.any (fun y => y.cut c) ||
        x.copied.any (fun y => decide (insideBuffer c (y.place c) (y.kept c) < y.kept c)) ||
        decide (c.bufBytes < 32 * c.parts)
      let flags := b2n trunc + 2 * b2n (x.ordered.any (fun y => y.present && y.ref.isSome)) +
        4 * b2n (x.ordered.any (fun y => !y.present)) + 16 * b2n (decide (total = 0))
      (some ⟨b, epoch, base, flags, x.ordered.countP (fun y => y.present), total, true⟩, s)

/-! ### Fixing a layer's state (R736 to R738, Tables LEDG-1 and LEDG-2) -/

/-- The layers of an epoch configured for a tenancy (R724). -/
def BundleEpoch.layersOf (e : BundleEpoch) (t : Nat) : List Nat :=
  (List.range 32).filter (fun l => (e.layer l).cfg.enable && decide ((e.layer l).cfg.ten = t))

/-- The start of a tenancy's slot for an epoch (R732). -/
def BundleEpoch.slotBase (e : BundleEpoch) (t : Nat) : Nat :=
  let b := Sparse.get (fun _ => (0, 4)) e.bnd t
  b.1 + 4096 * (e.epoch % b.2)

/-- The bytes of a layer entry. -/
def layerEntry (st flags : Nat) (f : Option LastFresh) : List Byte :=
  match f with
  | none => leBytes 1 st ++ leBytes 1 flags ++ zeros 30
  | some f =>
    leBytes 1 st ++ leBytes 1 flags ++ leBytes 1 f.present ++ leBytes 1 f.buf ++ leBytes 4 f.epoch ++
    leBytes 8 f.addr ++ leBytes 4 f.bytes ++ zeros 12

/-- The mask of the layers of a tenancy fixed in a state. -/
def BundleEpoch.mask (e : BundleEpoch) (t st : Nat) : Nat :=
  ((e.layersOf t).filter (fun l => (e.layer l).fixed = some st)).foldl (fun m l => m + 2 ^ l) 0

/-- The bytes of a header written at global time `now`. -/
def BundleEpoch.header (e : BundleEpoch) (t now : Nat) : List Byte :=
  leBytes 4 e.epoch ++ leBytes 1 (b2n e.synthetic) ++ zeros 3 ++
  leBytes 4 ((e.layersOf t).foldl (fun m l => m + 2 ^ l) 0) ++ leBytes 4 (e.mask t 1) ++ leBytes 4 (e.mask t 2) ++
  leBytes 4 (e.mask t 0) ++ leBytes 8 e.stamp ++ leBytes 8 now ++ leBytes 4 e.audio ++ zeros 20

/-- A tenancy's header, once every layer of the tenancy is fixed: first the entries of layers that are not its own, as
zeros; after the last header, vector 4. -/
def State.bundleHeader (s : State) (t : Nat) : State :=
  match s.ledg.pub with
  | none => s
  | some e =>
    if !e.headers.contains t || (e.layersOf t).any (fun l => (e.layer l).fixed = none) then s
    else
      let base := e.slotBase t
      let others := (List.range 32).filter (fun l => !(e.layersOf t).contains l)
      let s := others.foldl (fun s l => (s.bundleWrite t (base + 64 + 32 * l) (zeros 32)).2) s
      let (ok, s) := s.bundleWrite t base (e.header t s.clk.gtime)
      let s := if ok then s.wr (OD.BND_LAST_EPOCH t) e.epoch else s
      let rest := e.headers.filter (· ≠ t)
      if rest = [] then
        let s := { s with ledg := { s.ledg with pub := none } }
        if s.flag OD.BUNDLE_IRQ then s.signal false 4 else s
      else { s with ledg := { s.ledg with pub := some { e with headers := rest } } }

/-- LAYER_LANDING takes an ADD of 1 (R738, R739). -/
def State.signalLayer (s : State) (c : LayerCfg) : State :=
  if !bit c.landing 16 then s
  else
    let L := bits c.landing 0 16
    match s.landOp ⟨69, some (Fin.ofNat 16 c.ten)⟩ L (.add 1) 0 with
    | (some .done, s) => s
    | (some _, s) => s.record FaultClass.item 69 1 OD.OP_ERRORS (landBase + L * 0x100) L
    | (none, s) => s.bundleFault c.ten (landBase + L * 0x100)

/-- A layer's state is fixed: its entry is written, its landing signalled, and its tenancy's header follows when it was the
last. -/
def State.fixLayer (s : State) (l st : Nat) (flags : Nat) (f : Option LastFresh) : State :=
  match s.ledg.pub with
  | none => s
  | some e =>
    let x := e.layer l
    if x.fixed.isSome then s
    else
      let copy : CopySt := if x.copy = .running then .idle else x.copy
      let s := { s with ledg := { s.ledg with pub := some (e.set l { x with fixed := some st, copy := copy }) } }
      let s := if st = 1 then { s with ledg := { s.ledg with fresh := Sparse.put (fun _ => none) s.ledg.fresh l f } } else s
      let s := if st = 2 then s.bump OD.LAYERS_HELD else if st = 0 then s.bump OD.LAYERS_DROPPED else s
      let (_, s) := s.bundleWrite x.cfg.ten (e.slotBase x.cfg.ten + 64 + 32 * l) (layerEntry st flags f)
      let s := s.wr (OD.LAYER_LAST l) st
      ((s.signalLayer x.cfg).bundleHeader x.cfg.ten).copyNext

/-- A copied layer is FRESH; `grace` says that the publish point has passed. -/
def State.fixFresh (s : State) (l : Nat) (grace : Bool) : State :=
  match s.ledg.pub with
  | none => s
  | some e =>
    match (e.layer l).made with
    | none => s
    | some f => s.fixLayer l 1 (f.flags + 8 * b2n grace) (some f)

/-- A layer's late policy: HOLD shows its last FRESH publication since it was enabled, if there is one (R736). -/
def State.fixLate (s : State) (l : Nat) : State :=
  match s.ledg.pub with
  | none => s
  | some e =>
    let x := e.layer l
    let fault := 32 * b2n x.fault
    match Sparse.get (fun _ => none) s.ledg.fresh l with
    | some f =>
      if f.held && !x.cfg.drop then s.fixLayer l 2 (f.flags + fault) (some f) else s.fixLayer l 0 fault none
    | none => s.fixLayer l 0 fault none

/-! ### The publish point (R50 to R54, R725, R1035) -/

/-- The layers that an epoch publishes. -/
def BundleEpoch.configured (e : BundleEpoch) : List Nat := (List.range 32).filter (fun l => (e.layer l).cfg.enable)

/-- A publication that its successor finds unfinished ends now: every layer not fixed falls to its late policy. -/
def State.finishPub (s : State) : State :=
  match s.ledg.pub with
  | none => s
  | some e => (e.configured.filter (fun l => (e.layer l).fixed = none)).foldl (fun s l => s.fixLate l) s

/-- The outcome of a copy enters its layer's run. -/
def LayerRun.copyEnd (x : LayerRun) (f : Option LastFresh) : LayerRun :=
  match f with
  | some f => { x with copy := .copied, made := some f }
  | none => { x with copy := .failed, fault := true }

/-- A layer marked ready before its epoch's sweep started, or as it did (R50, R754); none where no sweep started (R1035). -/
def BundleEpoch.early (e : BundleEpoch) (l : Nat) : Bool :=
  match e.sweep, (e.layer l).ready with
  | some w, some r => decide (r ≤ w)
  | _, _ => false

/-- A layer marked ready before the sweep is published at the publish point (R50): its copy has ended by then. -/
def State.copyEarly (s : State) (l : Nat) : State :=
  match s.ledg.pub with
  | none => s
  | some e =>
    let x := e.layer l
    if e.early l && (x.copy = .idle || x.copy = .running) then
      let (f, s) := if s.copySealed x then (none, s) else s.copyLayer l e.epoch x
      { s with ledg := { s.ledg with pub := s.ledg.pub.map (fun (e : BundleEpoch) => e.set l ((e.layer l).copyEnd f)) } }
    else s

/-- A layer at its publish point: FRESH when ready and copied; its policy when its copy failed or it has no grace (R736). -/
def State.publishLayer (s : State) (l : Nat) : State :=
  match s.ledg.pub with
  | none => s
  | some e =>
    let x := e.layer l
    if x.copy = .copied then s.fixFresh l false
    else if x.copy = .failed || x.cfg.grace = 0 then s.fixLate l
    else s

/-- Step 4 of a boundary that ends an epoch: layers that are ready and copied are FRESH, those whose copy failed and those
without grace fall to their policy, the others wait for their grace. The copies of an epoch whose sweep has not started
start now. -/
def State.publishPoint (s : State) (synthetic : Bool) : State :=
  let s := s.finishPub.bump OD.PUBLISHES
  let e := s.ledg.cur
  let tens := (List.range 16).filter (fun t => e.layersOf t ≠ [])
  let e := { e with
    point := s.clk.now, synthetic := synthetic, stamp := s.rd OD.BOUNDARY_STAMP, audio := s.rd OD.AUDIO_STAMP
    headers := tens }
  let fresh := s.ledg.fresh.map (fun x => (x.1, x.2.map (fun f => { f with held := f.held && (e.layer x.1).cfg.enable })))
  let s := { s with ledg := { s.ledg with pub := if tens = [] then none else some e, cur := {}, fresh := fresh } }
  let s := (e.configured.foldl State.copyEarly s).copyNext
  e.configured.foldl State.publishLayer s

/-- The end of step 5: range 0x7C00 is latched for the epoch that begins (R725). -/
def State.bundleLatch (s : State) (epoch : Nat) : State :=
  let layer (l : Nat) : LayerRun := { cfg := {
    enable := s.flag (OD.LAYER_ENABLE l), ten := s.rd (OD.LAYER_TENANCY l), drop := s.flag (OD.LAYER_POLICY l)
    grace := s.rd (OD.LAYER_GRACE l), parts := s.rd (OD.LAYER_PARTS l), partBytes := s.rd (OD.PART_BYTES l)
    base := s.rd (OD.LAYER_BASE l), bufs := s.rd (OD.LAYER_BUFS l), bufBytes := s.rd (OD.LAYER_BUF_BYTES l)
    landing := s.rd (OD.LAYER_LANDING l) } }
  let cur : BundleEpoch := {
    epoch := epoch
    layers := foldN 32 (fun m l => Sparse.put (fun _ => {}) m l (layer l)) []
    bnd := foldN 16 (fun m t => Sparse.put (fun _ => (0, 4)) m t (s.rd (OD.BND_BASE t), s.rd (OD.BND_SLOTS t))) [] }
  { s with ledg := { s.ledg with cur := cur } }

/-- An item admitted at the boundary takes its place among its layer's parts (R726). -/
def State.takePart (s : State) (i : Nat) : State :=
  match (s.item i).layer with
  | none => s
  | some l =>
    let x := s.layer l
    if !x.cfg.enable then s
    else if x.cfg.parts ≤ x.next then s.bump OD.PARTS_EXTRA
    else s.setLayer l { x with next := x.next + 1, items := x.items ++ [(i, x.next)] }

/-- SWEEP_START (R49): its instant is M before the expected end, or the epoch's start if that is later. -/
def State.sweepAt (s : State) : Nat :=
  let t := 50 * s.rd OD.TICK_PERIOD
  let src := s.rd OD.TICK_SOURCE
  let lower := s.tick.last + 7 * t / 8
  let expected :=
    if src = 0 ∨ s.tick.st = .acquire then s.tick.last + t
    else s.tick.lastReal + (lower - s.tick.lastReal + t - 1) / t * t
  max s.tick.last (expected - 50 * s.rd OD.PUBLISH_MARGIN)

/-- SWEEP_START. -/
def execSweepStart (s : State) : Out :=
  .next (
    if s.tick.st = .stopped ∨ s.tick.swept ∨ s.clk.now < s.sweepAt then s
    else State.copyNext { s with
      tick := { s.tick with swept := true }, ledg := { s.ledg with cur := { s.ledg.cur with sweep := some s.clk.now } } })

/-- LAYER_COPY_DONE: the copy of layer l ends; `ok` is false where it ended in an error that the copy's source or target
answered. A copy that would read a sealed byte is not made. -/
def execLayerCopyDone (l : Fin 32) (ok : Bool) (s : State) : Out :=
  .next (
    match s.ledg.pub with
    | some e =>
      if (e.layer l).copy = .running then
        let (f, s) := if !ok || s.copySealed (e.layer l) then (none, s) else s.copyLayer l e.epoch (e.layer l)
        let s := { s with ledg := { s.ledg with pub := s.ledg.pub.map (fun (e : BundleEpoch) => e.set l ((e.layer l).copyEnd f)) } }
        let s := if f.isSome then s.fixFresh l true else s.fixLate l
        s.copyNext
      else current s
    | none => current s)
where
  /-- The copy is one of the epoch in progress. -/
  current (s : State) : State :=
    let x := s.layer l
    if x.copy = .running then
      let (f, s) := if !ok || s.copySealed x then (none, s) else s.copyLayer l s.ledg.cur.epoch x
      (s.setLayer l ((s.layer l).copyEnd f)).copyNext
    else s

/-- LAYER_GRACE_EXPIRY. -/
def execLayerGraceExpiry (l : Fin 32) (s : State) : Out :=
  .next (
    match s.ledg.pub with
    | none => s
    | some e =>
      let x := e.layer l
      if !x.cfg.enable || x.fixed.isSome || decide (s.clk.now < e.point + usEdges x.cfg.grace) then s
      else s.fixLate l)

/-! ### Unsealing and fills (R747, R749) -/

/-- A write of n to UNSEAL_CORE: the abort code, or the fill starts. -/
def State.unsealOrder (n : Nat) (s : State) : Nat × State :=
  if bit (s.rd OD.CORE_SEAL) n ∨ (s.core n).st ≠ .idle ∨ s.joined n then (Abort.state, s)
  else (0, { s with ledg := { s.ledg with unsealing := setBit s.ledg.unsealing n true } })

/-- UNSEAL_CORE. -/
def execUnsealCore (p : Path) (n : Byte) (s : State) : Out :=
  .next (s.dictWrite p false OD.UNSEAL_CORE 1 n.toNat State.unsealOrder)

/-- The alcove addresses that an image serving core n keeps through the core's unseal: its extent but its working areas. -/
def State.unsealKeeps (s : State) (n a : Nat) : Bool :=
  let off := (a - alcoveBase) % alcoveBytes
  let imgs := (List.range 16).filter (fun i => s.rd (OD.IMG_STATE i) ≠ 0 && bit (s.extents i).cores n)
  imgs.any (fun i => decide ((s.extents i).abase ≤ off ∧ off < (s.extents i).abase + (s.extents i).asize)) &&
  !(imgs.any (fun i => (Sparse.get (fun _ => {}) s.ldr.images i).stages.any (fun d =>
    bit d.flags 1 && decide ((s.extents i).abase + d.workOff ≤ off ∧ off < (s.extents i).abase + d.workOff + d.workBytes))))

/-- UNSEAL_FILL_DONE. -/
def execUnsealFillDone (n : Fin 32) (s : State) : Out :=
  .next (
    if !bit s.ledg.unsealing n then s
    else
      let r := alcoveRange n
      let s := s.memClear (fun a => inRange r a && !s.unsealKeeps n a)
      let s := s.setCore n { s.core n with active := none, shadow := none, acc := [], accMarks := [] }
      { s with ledg := { s.ledg with
        unsealing := setBit s.ledg.unsealing n false, tainted := setBit s.ledg.tainted n false } })

/-- SEAL_FILL_DONE: the oldest range that leaves the sealed set is zero-filled; a byte that another source keeps in the
set is not filled. -/
def execSealFillDone (s : State) : Out :=
  .next (
    match s.ledg.fills with
    | [] => s
    | r :: rest =>
      let s := { s with ledg := { s.ledg with fills := rest } }
      s.memClear (fun a => inRange r a && !s.sealedByte a))

end Sys2Proof.Machine
end

