-- ==== Sys2Proof/Machine/Rings.lean ====
section
/-!
DEFINITION. The rings (chapter 04): doorbells, descriptor fetches and checks, completion vectors, and what becomes of
message signals when a function can send again.
-/

namespace Sys2Proof.Machine

/-- The endpoint takes BAR writes (R152). -/
def State.barLive (s : State) : Bool := s.powered 26 && s.linkUp && decide (s.rd OD.RESET_STATE = 0)

/-! ### Doorbells (R168 to R171) -/

/-- An ignored doorbell (R171). -/
def State.doorbellError (s : State) (t : Nat) : State := (s.bump (OD.DOORBELL_ERRORS t)).signalTen t 1

/-- SQ_TAIL. -/
def execSqTail (t : Fin 16) (v : BitVec 32) (whole : Bool) (s : State) : Out :=
  .next (
    let x := s.tenancy t.val
    let tail := v.toNat % 2 ^ 16
    if !s.barLive then s
    else if !whole ∨ x.st ≠ .active ∨ x.sqSize ≤ tail then s.doorbellError t.val
    else s.setTenancy t.val { x with sqTail := tail })

/-- CQ_HEAD. -/
def execCqHead (t : Fin 16) (v : BitVec 32) (whole : Bool) (s : State) : Out :=
  .next (
    let x := s.tenancy t.val
    let head := v.toNat % 2 ^ 16
    let n := (head + x.cqSize - x.cqHead) % x.cqSize
    if !s.barLive then s
    else if !whole ∨ x.st ≠ .active ∨ x.cqSize ≤ head ∨ x.cqUsed < n then s.doorbellError t.val
    else s.setTenancy t.val { x with cqHead := head, cqUsed := x.cqUsed - n })

/-! ### Fetching (R172, R173, R203, R206) -/

/-- Descriptors requested and not yet checked. -/
def Tenancy.inFlight (x : Tenancy) : Nat := x.fetching.foldl (· + ·) 0

/-- All of them, over every tenancy. -/
def State.allInFlight (s : State) : Nat := (List.range 16).foldl (fun n t => n + (s.tenancy t).inFlight) 0

/-- The descriptors that tenancy t's next read request may ask for: at most 16, of those rung and not yet requested, within
its slots, the device's slots and its completion ring's free entries. -/
def State.fetchable (s : State) (t : Nat) : Nat :=
  let x := s.tenancy t
  if x.st ≠ .active ∨ 4 ≤ x.fetching.length then 0
  else
    let rung := (x.sqTail + x.sqSize - x.sqHead) % x.sqSize - x.inFlight
    let held := s.slotsHeld t + x.inFlight
    min (min 16 rung) (min (s.rd (OD.SLOT_LIMIT t) - held)
      (min (1024 - (s.slotsInUse + s.allInFlight)) (x.cqSize - x.cqUsed - held)))

/-- The tenancies in the arbiter's order, the one after the last served first. -/
def State.fetchOrder (s : State) : List Nat := (List.range 16).map (fun i => (s.host.rr + 1 + i) % 16)

/-- The ring engine fetches: the endpoint works, no reset stops it (R200). -/
def State.fetching (s : State) : Bool := s.barLive && s.host.pf1.bme && s.powered 1

/-- DESCRIPTOR_FETCH. -/
def execDescriptorFetch (s : State) : Out :=
  .next (
    match s.fetchOrder.find? (fun t => s.fetchable t ≠ 0) with
    | some t =>
      if s.fetching then
        let x := s.tenancy t
        let s := s.setTenancy t { x with fetching := x.fetching ++ [s.fetchable t] }
        { s with host := { s.host with rr := t } }
      else s
    | none => s)

/-! ### Checks (R177, Tables HOST-7 and HOST-8) -/

/-- One descriptor of the oldest request has come back: the head advances. -/
def Tenancy.arrive (x : Tenancy) : Tenancy :=
  { x with
    sqHead := (x.sqHead + 1) % x.sqSize
    fetching := match x.fetching with
      | [] => []
      | n :: rest => if n ≤ 1 then rest else (n - 1) :: rest }

/-- The slot's fields from a descriptor's bytes. -/
def itemOf (t now : Nat) (d : List Byte) : Item :=
  let done := fieldAt d 0x0C 4
  let layer := fieldAt d 0x38 4
  { st := .checked
    ten := t
    bg := fieldAt d 0 1 = 2
    irqNow := bit (fieldAt d 1 1) 0
    tag := fieldAt d 4 4
    flight := fieldAt d 2 1
    image := fieldAt d 3 1
    runs := fieldAt d 8 2
    done := if bit done 16 then some (bits done 0 16) else none
    shapes := (List.range 4).map (fun k => fieldAt d (0x10 + 4 * k) 4)
    input := fieldAt d 0x20 8 % 2 ^ 48
    output := fieldAt d 0x28 8 % 2 ^ 48
    inLen := fieldAt d 0x30 4
    outLen := fieldAt d 0x34 4
    layer := if bit layer 5 && !(fieldAt d 0 1 = 2) then some (bits layer 0 5) else none
    fetched := now }

/-- A flight is defined (R263). -/
def State.flightDefined (s : State) (f : Nat) : Bool := decide (1 ≤ s.rd (OD.FLT_STAGES f) ∧ s.rd (OD.FLT_STAGES f) ≤ 32)

/-- A layer is configured for a tenancy (R724). -/
def State.layerConfigured (s : State) (l t : Nat) : Bool :=
  s.flag (OD.LAYER_ENABLE l) && decide (s.rd (OD.LAYER_TENANCY l) = t)

/-- The reason of the first check that fails, or 0. -/
def State.badReason (s : State) (t : Nat) (poisoned : Bool) (d : List Byte) : Nat :=
  let kind := fieldAt d 0 1
  let layer := fieldAt d 0x38 4
  let done := fieldAt d 0x0C 4
  if poisoned then 7
  else if kind = 0 ∨ 4 ≤ kind then 1
  else if kind = 3 then 0
  else if fieldAt d 8 2 = 0 ∨ 256 < fieldAt d 8 2 then 2
  else if 63 < fieldAt d 2 1 ∨ !s.flightDefined (fieldAt d 2 1) then 3
  else if 15 < fieldAt d 3 1 then 4
  else if bit layer 5 ∧ !s.layerConfigured (bits layer 0 5) t then 5
  else if bit done 16 ∧ !s.landReach ⟨Fin.ofNat 70 (48 + t), some (Fin.ofNat 16 t)⟩ (bits done 0 16) then 6
  else 0

/-- A checked descriptor's slot goes on: to the admission queue, or to its record. -/
def State.placeItem (s : State) (i reason : Nat) (nop : Bool) (it : Item) : State :=
  let s := s.setItem i it
  let s := s.setMirror i (some ⟨it.tag, it.ten, s.tick.epoch.toNat, b2n it.bg + 2⟩)
  if reason ≠ 0 then
    let s := (s.bump (OD.BAD_DESCRIPTORS it.ten)).signalTen it.ten 1
    (s.setItem i { it with st := .closing, status := Status.badDescriptor, detail := reason }).closePlain i
  else if nop then (s.setItem i { it with st := .closing, status := Status.ok }).closePlain i
  else
    let s := s.setItem i { it with st := .queued }
    { s with flit := { s.flit with admission := s.flit.admission ++ [i] } }

/-- The bytes that a descriptor read brought back. -/
def fetchBytes : FetchResult → List Byte
  | .data d => leBytes 64 d.toNat
  | _ => zeros 64

/-- The read of tenancy t's next descriptor ended in an error: the host said so, or its range answers with one. -/
def State.fetchFailed (s : State) (x : Tenancy) (r : FetchResult) : Bool :=
  decide (r = .error) || (s.hostRange (x.sqBase + 64 * x.sqHead) 64).isSome

/-- DESCRIPTOR_CHECK: of poisoned data no field is taken but as zeros. -/
def execDescriptorCheck (t : Fin 16) (r : FetchResult) (s : State) : Out :=
  .next (
    let x := s.tenancy t.val
    if !(x.st = .active ∨ x.st = .draining) ∨ x.fetching = [] ∨ !s.fetching then s
    else if s.fetchFailed x r then s.wedge t.val 1
    else
      match s.freeSlot with
      | none => s
      | some i =>
        let s := if r = .poisoned then s.bump OD.UNCORR_ERRORS else s
        let d := fetchBytes r
        let reason := s.badReason t.val (r = .poisoned) d
        let it := itemOf t.val s.clk.now d
        ((s.setTenancy t.val x.arrive).placeItem i reason (fieldAt d 0 1 = 3) it).tenSettle t.val)

/-! ### Completion vectors (R191) -/

/-- CQ_IRQ_DELAY_EXPIRY. -/
def execCqIrqDelayExpiry (t : Fin 16) (s : State) : Out :=
  .next (
    let x := s.tenancy t.val
    let d := s.rd (OD.CQ_IRQ_DELAY t.val)
    if x.unsignalled = 0 ∨ d = 0 ∨ s.clk.now < x.unsigSince + usEdges d then s
    else (s.setTenancy t.val { x with unsignalled := 0 }).signalTen t.val 0)

/-! ### Functions (R192, R197, R215) -/

/-- Every pending vector that is unmasked is sent, once the function can send. -/
def State.sendPending (s : State) (pf1 : Bool) : State :=
  foldN 64 (fun s v =>
    let m := s.msix pf1
    if s.canSend pf1 && m.pend.getLsbD v && !m.mask.getLsbD v then s.setMsix pf1 (m.send v) else s) s

/-- What an event does to a function's message state. -/
def Msix.apply (m : Msix) : MsixEvent → Msix
  | .vector v => { m with mask := m.mask &&& ~~~(BitVec.twoPow 64 v.val) }
  | .busMaster => { m with bme := true }
  | .enable => { m with enabled := true }

/-- A change of a function's message state reaches it: a vector's mask lies behind a BAR, whose writes a full device reset discards;
Bus Master Enable and MSI-X Enable are configuration, which it does not (R152, R192). -/
def State.msixLive (s : State) : MsixEvent → Bool
  | .vector _ => s.barLive
  | _ => s.powered 26 && s.linkUp

/-- MSIX_UNMASK. -/
def execMsixUnmask (pf1 : Bool) (e : MsixEvent) (s : State) : Out :=
  .next (if !s.msixLive e then s else (s.setMsix pf1 ((s.msix pf1).apply e)).sendPending pf1)

/-- BME_CLEAR: with a tenancy ACTIVE or DRAINING, PF1 is a wedged function. -/
def execBmeClear (s : State) : Out :=
  .next (
    if !s.powered 26 ∨ !s.host.pf1.bme then s
    else
      let s := s.setMsix true { s.host.pf1 with bme := false }
      let live := (List.range 16).filter (fun t => (s.tenancy t).st = .active || (s.tenancy t).st = .draining)
      if live = [] then s
      else live.foldl (fun s t => s.wedge t 3) (s.wr OD.PF1_STATE 1))

/-- CORRECTABLE_LINK_ERROR. -/
def execCorrectableLinkError (s : State) : Out :=
  .next (
    if !s.powered 26 then s
    else (s.bump OD.CORR_ERRORS).record FaultClass.corrected 0xFF 26 OD.CORR_ERRORS 0 0)

end Sys2Proof.Machine
end

