-- ==== Sys2Proof/Machine/Vestibule.lean ====
section
/-!
DEFINITION. The vestibule (chapter 13): scaler jobs from issue to delivery, the packer's placement and batches, and the
batch queue.
-/

namespace Sys2Proof.Machine

/-! ### The job descriptor (Table VEST-1) -/

/-- Fields of a scaler job descriptor. -/
structure ScJob where
  kind : Nat
  format : Nat
  flags : Nat
  srcLanding : Nat
  outLanding : Nat
  width : Nat
  height : Nat
  stride : Nat
  crop : List Nat
  outW : Nat
  outH : Nat
  dtype : Nat
  layout : Nat
  filter : Nat
  outSel : Nat
  norm : List Nat
  channels : Nat
  mosaic : Nat
  color : Nat
  rest : Nat
  deriving DecidableEq, Repr

/-- The descriptor that 64 bytes hold. -/
def scJob (bs : List Byte) : ScJob where
  kind := fieldAt bs 0 1
  format := fieldAt bs 1 1
  flags := fieldAt bs 2 2
  srcLanding := fieldAt bs 4 2
  outLanding := fieldAt bs 6 2
  width := fieldAt bs 8 2
  height := fieldAt bs 0x0A 2
  stride := fieldAt bs 0x0C 4
  crop := [fieldAt bs 0x10 2, fieldAt bs 0x12 2, fieldAt bs 0x14 2, fieldAt bs 0x16 2]
  outW := fieldAt bs 0x18 2
  outH := fieldAt bs 0x1A 2
  dtype := fieldAt bs 0x1C 1
  layout := fieldAt bs 0x1D 1
  filter := fieldAt bs 0x1E 1
  outSel := fieldAt bs 0x1F 1
  norm := (List.range 6).map (fun i => fieldAt bs (0x20 + 2 * i) 2)
  channels := fieldAt bs 0x2C 1
  mosaic := fieldAt bs 0x2D 1
  color := fieldAt bs 0x2E 1
  rest := fieldAt bs 0x2F 17

/-- FLAGS (Table VEST-3). -/
def ScJob.srcPort (d : ScJob) : Bool := bit d.flags 0
def ScJob.srcWait (d : ScJob) : Bool := bit d.flags 1
def ScJob.srcLane (d : ScJob) : Bool := bit d.flags 2
def ScJob.outValid (d : ScJob) : Bool := bit d.flags 4
def ScJob.outLane (d : ScJob) : Bool := bit d.flags 5
def ScJob.cropShape (d : ScJob) : Bool := bit d.flags 6
def ScJob.forceSeal (d : ScJob) : Bool := bit d.flags 7
def ScJob.flush (d : ScJob) : Bool := bit d.flags 8
def ScJob.spill (d : ScJob) : Bool := bit d.flags 9
def ScJob.direct (d : ScJob) : Bool := bit d.flags 10

/-- Bytes of `w` pixels of a line (Table VEST-2, R531). -/
def scLine (format w : Nat) : Nat :=
  if format = 1 then (10 * w + 7) / 8 else if format = 2 then (12 * w + 7) / 8
  else if format = 3 ∨ format = 5 then 2 * w else if format = 6 then 4 * w else w

/-- Planes with half-height chroma. -/
def ScJob.planar (d : ScJob) : Bool := d.format = 4 || d.format = 5

/-- A RAW Bayer source. -/
def ScJob.bayer (d : ScJob) : Bool := decide (d.format ≤ 2) && decide (d.mosaic ≠ 4)

/-- The bytes from the source's first to its last (R568). -/
def ScJob.srcBytes (d : ScJob) : Nat :=
  let lines := if d.planar then d.height + d.height / 2 else d.height
  (lines - 1) * d.stride + scLine d.format d.width

/-- A descriptor that breaks a rule of Table VEST-1 (R567). -/
def ScJob.bad (d : ScJob) : Bool :=
  !(d.kind = 1 || d.kind = 2) || decide (6 < d.format) || decide (2 ^ 11 ≤ d.flags) || decide (0x0FFF < d.srcLanding) ||
  d.width = 0 || decide (8192 < d.width) || d.height = 0 || decide (8192 < d.height) ||
  decide (d.stride < scLine d.format d.width) || decide (4096 < d.outW) || decide (4096 < d.outH) ||
  !([0, 1, 3, 4, 5, 7].contains d.dtype) || decide (1 < d.layout) || decide (2 < d.filter) ||
  decide ((if d.kind = 1 then 63 else 3) < d.outSel) || !(d.channels = 1 || d.channels = 3) || decide (4 < d.mosaic) ||
  decide (2 < d.color) || decide (d.rest ≠ 0)

/-- Elements of the output, T, and the total of R579. -/
def ScJob.elems (d : ScJob) : Nat := d.outW * d.outH * d.channels
def ScJob.tensorBytes (d : ScJob) : Nat := d.elems * dtypeBytes d.dtype
def ScJob.total (d : ScJob) : Nat := alignUp d.tensorBytes 64 + 64

/-! ### Taps of the scaler (R574, R575) -/

/-- The working grid's width and height, and the crop on it. -/
def ScJob.grid (d : ScJob) : Nat × Nat := if d.bayer then (d.width / 2, d.height / 2) else (d.width, d.height)
def ScJob.gridCrop (d : ScJob) (crop : List Nat) : List Nat := if d.bayer then crop.map (· / 2) else crop

/-- The working-grid indices of one axis that output position `o` of `n` uses, unclamped: crop start `c`, crop size
`w`. -/
def axisTaps (filter c w n o : Nat) : List Int :=
  let den : Int := 2 * n
  let num : Int := 2 * c * n + (2 * o + 1) * w - n
  if filter = 0 then [-((den - 2 * num) / (2 * den))]
  else if filter = 1 then (if num % den = 0 then [num / den] else [num / den, num / den + 1])
  else
    let lo := (c * n + o * w) / n
    let hi := (c * n + (o + 1) * w + n - 1) / n
    (List.range (hi - lo)).map (fun i => ((lo + i : Nat) : Int))

/-- A tap moved to the nearest edge pixel. -/
def clampTap (size : Nat) (i : Int) : Nat := (clampInt 0 (size - 1 : Nat) i).toNat

/-- A tap lies outside the source. -/
def outside (size : Nat) (i : Int) : Bool := decide (i < 0) || decide ((size : Int) ≤ i)

/-- The first and last clamped index of one axis over all outputs. -/
def axisRange (filter c w n size : Nat) : Nat × Nat :=
  let all := (List.range n).flatMap (axisTaps filter c w n)
  (all.foldl (fun m i => min m (clampTap size i)) (size - 1), all.foldl (fun m i => max m (clampTap size i)) 0)

/-- EDGE: some output pixel used edge replication (Table VEST-4). -/
def ScJob.edge (d : ScJob) (crop : List Nat) : Bool :=
  let c := d.gridCrop crop
  let g := d.grid
  (List.range d.outW).any (fun o => (axisTaps d.filter (c.getD 0 0) (c.getD 2 0) d.outW o).any (outside g.1)) ||
  (List.range d.outH).any (fun o => (axisTaps d.filter (c.getD 1 0) (c.getD 3 0) d.outH o).any (outside g.2))

/-- The pixels of the crop's footprint on the source: first and last column, first and last line. -/
def ScJob.footprint (d : ScJob) (crop : List Nat) : Nat × Nat × Nat × Nat :=
  let c := d.gridCrop crop
  let g := d.grid
  let x := axisRange d.filter (c.getD 0 0) (c.getD 2 0) d.outW g.1
  let y := axisRange d.filter (c.getD 1 0) (c.getD 3 0) d.outH g.2
  if d.bayer then (2 * x.1, 2 * x.2 + 1, 2 * y.1, 2 * y.2 + 1) else (x.1, x.2, y.1, y.2)

/-- The bytes of columns xa to xb of a line, as offset and length; `uv` is the chroma plane of NV12 and P010. -/
def ScJob.span (d : ScJob) (uv : Bool) (xa xb : Nat) : Nat × Nat :=
  let cut (lo hi : Nat) : Nat × Nat := (lo, min hi (scLine d.format d.width) - lo)
  if d.format = 1 then cut (xa / 4 * 5) (xb / 4 * 5 + 5)
  else if d.format = 2 then cut (xa / 2 * 3) (xb / 2 * 3 + 3)
  else if d.format = 3 then cut (xa / 2 * 4) (xb / 2 * 4 + 4)
  else if d.format = 4 ∧ uv then cut (xa / 2 * 2) (xb / 2 * 2 + 2)
  else if d.format = 5 then (if uv then cut (xa / 2 * 4) (xb / 2 * 4 + 4) else cut (2 * xa) (2 * xb + 2))
  else if d.format = 6 then cut (4 * xa) (4 * xb + 4)
  else cut xa (xb + 1)

/-- The byte ranges that a job reads of its source: address and length. -/
def ScJob.reads (d : ScJob) (src : Nat) (crop : List Nat) : List (Nat × Nat) :=
  if d.elems = 0 ∨ crop.getD 2 0 = 0 ∨ crop.getD 3 0 = 0 then []
  else
    let (xa, xb, ya, yb) := d.footprint crop
    let luma := (List.range (yb + 1 - ya)).map (fun i =>
      let sp := d.span false xa xb
      (src + (ya + i) * d.stride + sp.1, sp.2))
    let chroma := if d.planar then (List.range (yb / 2 + 1 - ya / 2)).map (fun i =>
        let sp := d.span true xa xb
        (src + (d.height + ya / 2 + i) * d.stride + sp.1, sp.2))
      else []
    luma ++ chroma

/-! ### Pixels -/

/-- A byte of what was read. -/
def srcByte (rs : List (Nat × List Byte)) (a : Nat) : Nat :=
  match rs.find? (fun r => decide (r.1 ≤ a ∧ a < r.1 + r.2.length)) with
  | some r => (r.2.getD (a - r.1) 0#8).toNat
  | none => 0

/-- The code of one source sample: RAW, luma or S32 at (x, y), or chroma component `uv` (1 U, 2 V). -/
def ScJob.sample (d : ScJob) (rs : List (Nat × List Byte)) (src x y uv : Nat) : Int :=
  let b (a : Nat) : Nat := srcByte rs a
  let line := src + y * d.stride
  let cline := src + (d.height + y / 2) * d.stride
  if d.format = 1 then
    (4 * b (line + x / 4 * 5 + x % 4) + bits (b (line + x / 4 * 5 + 4)) (2 * (x % 4)) 2 : Nat)
  else if d.format = 2 then
    (16 * b (line + x / 2 * 3 + x % 2) + bits (b (line + x / 2 * 3 + 2)) (4 * (x % 2)) 4 : Nat)
  else if d.format = 3 then
    (b (line + x / 2 * 4 + (if uv = 0 then 1 + 2 * (x % 2) else 2 * (uv - 1))) : Nat)
  else if d.format = 4 then (if uv = 0 then b (line + x) else b (cline + x / 2 * 2 + (uv - 1)) : Nat)
  else if d.format = 5 then
    (let a := if uv = 0 then line + 2 * x else cline + x / 2 * 4 + 2 * (uv - 1)
     (b a + 256 * b (a + 1)) / 64 : Nat)
  else if d.format = 6 then toSigned 32 (b (line + 4 * x) + 256 * b (line + 4 * x + 1) + 65536 * b (line + 4 * x + 2) +
    16777216 * b (line + 4 * x + 3))
  else (b (line + x) : Nat)

/-- Native channels (Table VEST-2). -/
def ScJob.native (d : ScJob) : Nat := if d.bayer || decide (3 ≤ d.format ∧ d.format ≤ 5) then 3 else 1

/-- The colour of a position of a 2×2 quad: 0 R, 1 G, 2 B (MOSAIC). -/
def quadColor (mosaic dx dy : Nat) : Nat :=
  let i := 2 * dy + dx
  ([[0, 1, 1, 2], [1, 0, 2, 1], [1, 2, 0, 1], [2, 1, 1, 0]].getD mosaic []).getD i 1

/-- Channel c of a working-grid pixel, exactly. -/
def ScJob.pixel (d : ScJob) (rs : List (Nat × List Byte)) (src x y c : Nat) : Fp :=
  if d.bayer then
    let vs := [(0, 0), (1, 0), (0, 1), (1, 1)].filterMap (fun (p : Nat × Nat) =>
      if quadColor d.mosaic p.1 p.2 = c then some (d.sample rs src (2 * x + p.1) (2 * y + p.2) 0) else none)
    let sum := vs.foldl (· + ·) 0
    if c = 1 then .fin (decide (sum < 0)) sum.natAbs (-1) else intFp sum
  else intFp (d.sample rs src x y c)

/-- One output element before conversion: channel c at (ox, oy) as an FP32 lane. A value that takes part of more than one
pixel, a colour conversion, or a channel that the format does not have is free (R575, R576 give no order of
rounding). -/
def ScJob.lane (d : ScJob) (rs : List (Nat × List Byte)) (src : Nat) (crop : List Nat) (free : Lane) (ox oy c : Nat) :
    Lane :=
  let w := d.gridCrop crop
  let g := d.grid
  let xs := axisTaps d.filter (w.getD 0 0) (w.getD 2 0) d.outW ox
  let ys := axisTaps d.filter (w.getD 1 0) (w.getD 3 0) d.outH oy
  match xs, ys with
  | [x], [y] =>
    if d.color ≠ 0 ∨ d.native ≤ c then free
    else
      let v := d.pixel rs src (clampTap g.1 x) (clampTap g.2 y) c
      let p := v.mul (bf16.decode (d.norm.getD (2 * c) 0))
      if v.round32 = v ∧ p.round32 = p then fpLane free (p.add (bf16.decode (d.norm.getD (2 * c + 1) 0)).round32)
      else free
  | _, _ => free

/-- The output tensor's bytes (R576, R577); integer types round to nearest even before they saturate. -/
def ScJob.tensor (d : ScJob) (rs : List (Nat × List Byte)) (src : Nat) (crop : List Nat) (seed : Nat) : List Byte :=
  packCodes d.dtype ((List.range d.elems).map (fun i =>
    let (ox, oy, c) :=
      if d.layout = 0 then (i / d.channels % d.outW, i / d.channels / d.outW, i % d.channels)
      else (i % d.outW, i / d.outW % d.outH, i / (d.outW * d.outH))
    let free := Config.freeLane seed i
    let l := d.lane rs src crop free ox oy c
    laneCode d.dtype free (if d.dtype ≤ 1 then fpToI32 (laneFp l) else l)))

/-! ### Exceptions and accesses -/

/-- Job exception codes (Table VEST-6). -/
abbrev ScExc.badJob : Nat := 1
abbrev ScExc.srcRange : Nat := 2
abbrev ScExc.crop : Nat := 3
abbrev ScExc.emptyPort : Nat := 4
abbrev ScExc.outSpace : Nat := 5
abbrev ScExc.tooLong : Nat := 6
abbrev ScExc.stream : Nat := 7
abbrev ScExc.badTicket : Nat := 8

/-- The word of a job exception: code, flight, stage, run and the number of the sample or picture (R604). -/
def jobExcWord (e : Entry) (code n : Nat) : Nat :=
  code * 2 ^ 56 + e.flight % 64 * 2 ^ 48 + e.stage % 32 * 2 ^ 40 + e.run % 256 * 2 ^ 32 + n

/-- A job exception of scaler k (R604). -/
def State.scalerExc (s : State) (k : Nat) (e : Entry) (code : Nat) : State :=
  let n := match s.scalerJob k with | some j => j.sample | none => 0xFFFFFFFF
  let w := jobExcWord e code n
  ((s.wr (OD.VEST_LAST_JOB_EXC k) w).bump OD.VEST_JOB_EXCEPTIONS).stageFault e 9 0 (some (w, 0))

/-- A stage engine's accesses: its agent and the item's context. -/
def State.engineAcc (s : State) (a : Nat) (e : Entry) : Acc := { agent := a, ctx := some (s.stageTen e) }

/-- A landing operation of a job: its word, or the stage faults (R584). -/
def State.jobLand (s : State) (a : Nat) (e : Entry) (L : Nat) (op : LandOp) : Option LandRes × State :=
  if 0xFFFF < L then (none, s.stageFault e 4 (landAddr L op) none)
  else
    match s.landOp (s.stageReq a e) L op 0 with
    | (none, s) => (none, s.stageFault e 4 (landAddr L op) none)
    | (some .error, s) => (none, s.stageFault e 5 0 none)
    | (some r, s) => (some r, s)

/-- Read byte ranges in order, up to the first that fails. -/
def State.readRanges (q : Acc) : List (Nat × Nat) → State → List (Nat × List Byte) →
    (List (Nat × List Byte) ⊕ MemRes) × State
  | [], s, acc => (.inl acc.reverse, s)
  | (a, n) :: rest, s, acc =>
    match s.memRead q a n with
    | (r, s) => if r.ok then State.readRanges q rest s ((a, r.bytes) :: acc) else (.inr r, s)

/-- Where the entry of a job's stage lies: the section's place in the gallery and ENTRY_OFFSET (Table LOAD-4). -/
def State.jobAddr (s : State) (e : Entry) (d : StageDef) : Nat :=
  let i := (s.item e.slot).image
  let img : Image := Sparse.get (fun _ => {}) s.ldr.images i
  let sec := img.sections.getD d.section_ ⟨0, 0, 0, 0, 0, 0, 0⟩
  s.rd (OD.IMG_GALLERY_BASE i) + sec.destOff + d.entryOff

/-- A stage is issued to scaler k: it reads its descriptor and checks it (R567). -/
def State.scalerEnter (s : State) (k : Nat) (e : Entry) (d : StageDef) : State :=
  let a := s.jobAddr e d
  let (r, s) := s.memRead (s.engineAcc (40 + k) e) a 64
  let (bad, s) := s.accessFails e r
  if bad then s
  else
    let s := s.setScalerJob k (some { slot := e.slot, run := e.run, stage := e.stage, desc := r.bytes })
    let s := (s.bump (OD.JOBS_RUN k)).wr (OD.SCALER_STATE k) 2
    if a % 64 ≠ 0 ∨ (scJob r.bytes).bad then s.scalerExc k e ScExc.badJob else s

/-! ### The source (R568 to R573, R578, R585) -/

/-- The crop of a job (R573). -/
def State.scalerCrop (s : State) (e : Entry) (d : ScJob) : List Nat :=
  if d.cropShape then
    let it := s.item e.slot
    let a := it.shape e.run 2
    let b := it.shape e.run 3
    [bits a 0 16, bits a 16 16, bits b 0 16, bits b 16 16]
  else d.crop

/-- A source is taken: the sample's number, time and crop (R573, R578). -/
def State.scalerTaken (s : State) (k : Nat) (e : Entry) (j : ScalerJob) (d : ScJob) (src : Nat) (ticket : Option Nat)
    (tag : Nat) : State :=
  let n := s.rd OD.SAMPLE_NEXT
  let s := s.wr OD.SAMPLE_NEXT ((n + 1) % 2 ^ 32)
  let s := s.wr (OD.SCALER_STATE k) 2
  s.setScalerJob k (some { j with
    phase := .taken, src := src, ticket := ticket, tag := tag, sample := n, crop := s.scalerCrop e d
    epoch := s.tick.epoch.toNat, time := s.clk.gtime })

/-- Whether a ticket names a buffer in use: not NO_TICKET, its pool READY or CLOSING (R571). -/
def State.ticketOk (s : State) (t : Nat) : Bool :=
  decide (t ≠ noTicket) && (s.rd (OD.POOL_STATE (ticketPool t)) = 2 || s.rd (OD.POOL_STATE (ticketPool t)) = 3)

/-! ### The packer's placement (R590 to R596) -/

/-- A free slot of a stream. -/
def Stream.freeSlot (t : Stream) : Option Nat :=
  (List.range t.slots).find? (fun i =>
    !(t.opened.any (fun b => b.slot = i)) && !(t.closed.any (fun b => b.slot = i)) && !(t.waiting.contains i) &&
    !(t.delivered.contains i) && !(t.filling.contains i) && !(t.dead.contains i))

/-- Whether a sample of L elements needs a new batch: no batch is open, its segments are used up, or it needs a row that
the batch does not have. -/
def Stream.needsBatch (t : Stream) (len : Nat) : Bool :=
  match t.opened with
  | none => true
  | some b => decide (t.maxSegs ≤ b.segs.length) ||
      (decide (t.rows ≤ b.rows) && !(decide (b.fill + len ≤ t.rowElems)))

/-- A new batch opens in a free slot: its rows are zero and its marks are padding (Table VEST-5). -/
def State.openBatch (s : State) (k slot : Nat) : State :=
  let t := s.stream k
  let a := t.slotBase slot
  let s := s.packWrite t (a + 64) (zeros (t.rows * t.rowBytes))
  let s := s.packWrite t (a + t.markBase) (List.replicate (t.rows * t.markBytes) 0xFF#8)
  let t := s.stream k
  s.setStream k { t with
    opened := some { slot := slot, seq := t.seq, rows := 0, fill := t.rowElems, since := s.clk.now }
    seq := (t.seq + 1) % 2 ^ 32 }

/-- Place a sample next-fit in the open batch (R592): its sequence number and segment index. -/
def State.placeSample (s : State) (k sample len : Nat) : Option (Nat × Nat) × State :=
  let t := s.stream k
  match t.opened with
  | none => (none, s)
  | some b =>
    let fits := decide (0 < b.rows) && decide (b.fill + len ≤ t.rowElems)
    let row := if fits then b.rows - 1 else b.rows
    let start := if fits then b.fill else 0
    let b' : Batch := { b with
      rows := row + 1, fill := start + len
      segs := b.segs ++ [{ sample := sample, row := row, start := start, len := len }] }
    (some (b.seq, b.segs.length), s.setStream k { t with opened := some b' })

/-- Reserve a place: the full batch closes, a new one opens if a slot is free, else the job stalls (R592, R596). -/
def State.reserve (s : State) (k sample len : Nat) : Option (Nat × Nat) × State :=
  if !(s.stream k).needsBatch len then s.placeSample k sample len
  else
    let s := s.closeBatch k 1
    match (s.stream k).freeSlot with
    | none => (none, s)
    | some slot => (s.openBatch k slot).placeSample k sample len

/-! ### SCALER_SOURCE_TAKE -/

/-- An empty job: its output or its crop has no pixel (R607). -/
def ScJob.empty (d : ScJob) (crop : List Nat) : Bool := d.outW = 0 || d.outH = 0 || crop.getD 2 0 = 0 || crop.getD 3 0 = 0

/-- A PACK job reserves its place, or stalls until a slot is returned. -/
def State.scalerReserve (s : State) (k : Nat) (j : ScalerJob) (d : ScJob) : State :=
  match s.reserve d.outSel j.sample d.elems with
  | (none, s) => (s.setScalerJob k (some { j with phase := .stalled })).wr (OD.SCALER_STATE k) 3
  | (some g, s) => (s.setScalerJob k (some { j with phase := .taken, seg := some g })).wr (OD.SCALER_STATE k) 2

/-- The output of a taken sample is found (R579, R586, R587, R590, R608). -/
def State.scalerOutput (s : State) (k : Nat) (e : Entry) (j : ScalerJob) (d : ScJob) : State :=
  if d.empty j.crop then s
  else if d.kind = 1 then
    if d.direct then
      let it := s.item e.slot
      if it.outLen < d.total then s.scalerExc k e ScExc.outSpace
      else if j.sealed ∧ (s.firstUnsealed it.output it.outLen).isSome then
        s.stopItem e.slot Status.sealed e.stage e.engine (sealedDetail 3 it.output) none
      else s.setScalerJob k (some { j with out := it.output })
    else
      match s.alloc ⟨40 + k, d.total, j.sealed, d.spill, d.outSel, some (e.slot, e.run, e.stage)⟩ with
      | (.ticket t, s) => s.setScalerJob k (some { j with out := s.bufferAddr t, outTicket := t })
      | (.poolEmpty detail, s) => s.stopItem e.slot Status.poolEmpty e.stage e.engine detail none
      | (.empty, s) => s
  else
    let t := s.stream d.outSel
    if s.rd (OD.PK_STATE d.outSel) ≠ 1 then s.scalerExc k e ScExc.stream
    else if t.rowElems < d.elems then s.scalerExc k e ScExc.tooLong
    else if d.dtype ≠ t.dtype ∨ s.stageTen e ≠ t.ctx then s.scalerExc k e ScExc.stream
    else if j.sealed ∧ !t.sealed then s.stopItem e.slot Status.sealed e.stage e.engine (sealedDetail 3 t.base) none
    else s.scalerReserve k j d

/-- After the take: the crop's check, sealing, and the output. -/
def State.scalerPrepare (s : State) (k : Nat) (e : Entry) (d : ScJob) : State :=
  match s.scalerJob k with
  | none => s
  | some j =>
    if (d.bayer || d.planar) && j.crop.any (fun v => v % 2 = 1) then s.scalerExc k e ScExc.crop
    else
      let sealedNow := d.forceSeal || (d.reads j.src j.crop).any (fun r => (s.firstSealed r.1 r.2).isSome)
      let j := { j with sealed := sealedNow }
      (s.setScalerJob k (some j)).scalerOutput k e j d

/-- The payload of the source landing is taken (R569 to R571). -/
def State.scalerTakePort (s : State) (k : Nat) (e : Entry) (j : ScalerJob) (d : ScJob) (L : Nat) : State :=
  match s.jobLand (40 + k) e L .take with
  | (some (.word w), s) =>
    if !w.getLsbD 63 then s.scalerExc k e ScExc.emptyPort
    else
      let t := bits w.toNat 0 32
      let s := s.scalerTaken k e j d (s.bufferAddr t) (some t) (bits w.toNat 32 16)
      if !s.ticketOk t then s.scalerExc k e ScExc.badTicket
      else if 2 ^ (s.pool (ticketPool t)).szLog < d.srcBytes then s.scalerExc k e ScExc.srcRange
      else s.scalerPrepare k e d
  | (_, s) => s

/-- The source is taken, after the wait that the job may ask for. -/
def State.scalerTake (s : State) (k : Nat) (e : Entry) (j : ScalerJob) : State :=
  let d := scJob j.desc
  let L := d.srcLanding + (if d.srcLane then e.lane else 0)
  if j.phase = .stalled then s.scalerReserve k j d
  else if !d.srcPort then
    let it := s.item e.slot
    if it.inLen < d.srcBytes then s.scalerExc k e ScExc.srcRange
    else (s.scalerTaken k e j d it.input none 0).scalerPrepare k e d
  else if j.phase = .waiting then
    (if s.land.waiters.any (fun x => x.agent = 40 + k) then s else s.scalerTakePort k e j d L)
  else if d.srcWait then
    match s.jobLand (40 + k) e L .wait with
    | (some (.word _), s) => s.scalerTakePort k e j d L
    | (some .parked, s) => (s.setScalerJob k (some { j with phase := .waiting })).wr (OD.SCALER_STATE k) 1
    | (_, s) => s
  else s.scalerTakePort k e j d L

/-- SCALER_SOURCE_TAKE: no effect on a scaler without a job, or one that has its source and its place. -/
def execScalerSourceTake (k : Fin 8) (s : State) : Out :=
  .next (
    match s.scalerJob k, s.runningOn (40 + k) with
    | some j, some e => if s.flag OD.GATE then s else if j.phase = .taken then s else s.scalerTake k e j
    | _, _ => s)

/-! ### SCALER_JOB_END -/

/-- The sample record (Table VEST-4). -/
def ScalerJob.record (j : ScalerJob) (k : Nat) (d : ScJob) : List Byte :=
  leBytes 4 j.sample ++ leBytes 2 j.tag ++ leBytes 1 (b2n j.sealed + 2 * b2n (d.edge j.crop)) ++ leBytes 1 (40 + k) ++
  leBytes 4 j.epoch ++ j.crop.flatMap (leBytes 2) ++ leBytes 2 d.outW ++ leBytes 2 d.outH ++ leBytes 1 d.channels ++
  leBytes 1 d.dtype ++ leBytes 1 d.layout ++ zeros 1 ++ leBytes 8 j.time ++ zeros 28

/-- The sample is delivered (R572, R580, R581): the PUSH, the release of the source, the end of the stage. -/
def State.scalerDeliver (s : State) (k : Nat) (e : Entry) (j : ScalerJob) (d : ScJob) (empty : Bool) (bytes : Nat) :
    State :=
  let payload := j.sample % 65536 * 2 ^ 32 + (if empty || d.direct || decide (d.kind = 2) then noTicket else j.outTicket)
  let L := d.outLanding + (if d.outLane then e.lane else 0)
  let (r, s) := if d.outValid then s.jobLand (40 + k) e L (.push (BitVec.ofNat 64 payload) j.sealed)
    else (some LandRes.done, s)
  match r with
  | none => s
  | some _ =>
    let s := s.scalerRelease k j
    let s := (s.setScalerJob k none).wr (OD.SCALER_STATE k) 0
    s.reportEnd e empty false bytes

/-- The start of the first destination of an engine's sealed output that is not wholly in the sealed set (R134, R188,
Table LEDG-5). -/
def State.sealEscape (s : State) (isSealed : Bool) (pieces : List (Nat × Nat)) : Option Nat :=
  if isSealed then (pieces.find? (fun p => (s.firstUnsealed p.1 p.2).isSome)).map (·.1) else none

/-- A PACK sample completes (R593, R594): its elements, its marks and its table entry. -/
def State.packComplete (s : State) (k : Nat) (e : Entry) (j : ScalerJob) (d : ScJob) (bs : List Byte) : Bool × State :=
  match j.seg with
  | none => (false, s)
  | some (q, g) =>
    let t := s.stream d.outSel
    match (t.batch q).bind (fun b => (b.segs[g]?).map (fun x => (b.slot, x))) with
    | none => (false, s)
    | some (slot, x) =>
      let a := t.slotBase slot
      let dst := a + 64 + x.row * t.rowBytes + x.start * dtypeBytes t.dtype
      match s.sealEscape j.sealed [(dst, bs.length)] with
      | some y => (true, s.stopItem e.slot Status.sealed e.stage e.engine (sealedDetail 3 y) none)
      | none =>
      let (r, s) := s.memWrite (s.engineAcc (40 + k) e) dst bs
      let (bad, s) := s.accessFails e r
      if bad then (true, s)
      else
        let marks := (List.range x.len).flatMap (fun _ => leBytes 2 g)
        let s := s.packWrite t (a + t.markBase + x.row * t.markBytes + 2 * x.start) marks
        let x := { x with done := true }
        let s := (s.writeSegEntry t slot g x).setSegment d.outSel q g (fun _ => x)
        let s := if d.flush then s.closeBatch d.outSel 2 else s
        (false, s.flushClosed d.outSel)

/-- The sample is computed, written and delivered (R574 to R581, R584). -/
def State.scalerFinish (s : State) (k : Nat) (e : Entry) (j : ScalerJob) : State :=
  let d := scJob j.desc
  if d.empty j.crop then s.scalerDeliver k e j d true 0
  else
    let q := s.engineAcc (40 + k) e
    match State.readRanges q (d.reads j.src j.crop) s [] with
    | (.inr r, s) => (s.accessFails e r).2
    | (.inl rs, s) =>
      let (_, s') := s.drawFree
      let bs := d.tensor rs j.src j.crop s.free
      let s := s'
      let (xa, xb, ya, yb) := d.footprint j.crop
      let s := s.bump64 (OD.VEST_PIXELS k) ((xb + 1 - xa) * (yb + 1 - ya))
      if d.kind = 1 then
        let out := fitBytes (alignUp d.tensorBytes 64) bs
        match s.sealEscape j.sealed [(j.out, out.length + 64)] with
        | some y => s.stopItem e.slot Status.sealed e.stage e.engine (sealedDetail 3 y) none
        | none =>
        let (r, s) := s.memWrite q j.out bs
        let (bad, s) := s.accessFails e r
        if bad then s
        else
          let (r, s) := s.memWrite q (j.out + out.length) (j.record k d)
          let (bad, s) := s.accessFails e r
          if bad then s else s.scalerDeliver k e j d false d.total
      else
        let (bad, s) := s.packComplete k e j d bs
        if bad then s else s.scalerDeliver k e j d false 0

/-- SCALER_JOB_END: no effect unless the scaler has its source and its place. -/
def execScalerJobEnd (k : Fin 8) (s : State) : Out :=
  .next (
    match s.scalerJob k, s.runningOn (40 + k) with
    | some j, some e => if s.flag OD.GATE then s else if j.phase = .taken then s.scalerFinish k e j else s
    | _, _ => s)

/-! ### The packer and the batch queue -/

/-- PK_LINGER_EXPIRY (R594). -/
def execPkLingerExpiry (t : Fin 4) (s : State) : Out :=
  .next (
    match (s.stream t).opened with
    | some b =>
      if (s.stream t).linger ≠ 0 ∧ b.since + usEdges (s.stream t).linger ≤ s.clk.now then s.closeBatch t 4 else s
    | none => s)

/-- BQ_DEPTH (R603). -/
def State.bqDepth (s : State) : Nat := ((List.range 4).map (fun k => (s.stream k).waiting.length)).foldl (· + ·) 0

/-- The depth of the batch queue has changed from `before`: the low-water event (R603). -/
def State.bqChanged (s : State) (before : Nat) : State :=
  let low := s.rd OD.BQ_LOW_WATER
  if low ≠ 0 ∧ low ≤ before ∧ s.bqDepth < low then
    let was := bit (s.rd OD.BQ_EVENTS) 0
    let s := s.setOdBit OD.BQ_EVENTS 0 true
    if !was && s.flag OD.BQ_IRQ then s.signal false 7 else s
  else s

/-- BATCH_DELIVERY (R599, R602): no effect while the port has no room or nothing waits. A PUSH that the landing refuses is
recorded and the batch waits on. -/
def execBatchDelivery (t : Fin 4) (s : State) : Out :=
  .next (
    let x := s.stream t
    let L := bits x.deliver 0 16
    match x.waiting with
    | [] => s
    | slot :: rest =>
      if !bit x.deliver 16 ∨ s.rd (OD.PK_STATE t) = 0 ∨ x.deal ≤ (s.port L).q.length then s
      else
        let op : LandOp := .push (BitVec.ofNat 64 (x.slotBase slot)) x.sealed
        match s.landOp ⟨64, some (Fin.ofNat 16 x.ctx)⟩ L op 0 with
        | (some .done, s) =>
          let before := s.bqDepth
          let x := s.stream t
          ((s.setStream t { x with waiting := rest, delivered := x.delivered ++ [slot] })).bqChanged before
        | (_, s) => s.errorRecord x.acc (landAddr L op))

/-- BATCH_SLOT_FILL_DONE (R601). -/
def execBatchSlotFillDone (t : Fin 4) (s : State) : Out :=
  .next (
    let x := s.stream t
    match x.filling with
    | [] => s
    | slot :: rest => (s.packWrite x (x.slotBase slot) (zeros x.slotBytes)).setStream t { x with filling := rest })

/-- BATCH_QUEUE_ECC_ERROR (R614). -/
def execBatchQueueEccError (fixed : Bool) (t : Fin 4) (i : Byte) (s : State) : Out :=
  .next (
    if fixed then s.record FaultClass.corrected 64 21 (OD.PK_STATE t) 0 t else
    let x := s.stream t
    match x.waiting[i.toNat]? with
    | none => s
    | some slot =>
      let before := s.bqDepth
      let s := s.setStream t { x with waiting := dropAt x.waiting i.toNat, dead := x.dead ++ [slot] }
      ((s.bqChanged before).record FaultClass.item 64 21 (OD.PK_STATE t) (x.slotBase slot) t).streamSettle t)

/-- A commit of a stream's objects (R589, R600, R606). -/
def State.packCommit (s : State) (k : Nat) : State :=
  let on := s.flag (OD.PK_ENABLE k)
  if on ∧ s.rd (OD.PK_STATE k) = 0 then
    let t : Stream := {
      dtype := s.rd (OD.PK_DTYPE k), rowElems := s.rd (OD.PK_ROW_ELEMS k), rows := s.rd (OD.PK_ROWS k)
      maxSegs := s.rd (OD.PK_MAX_SEGMENTS k), base := s.rd (OD.PK_BASE k), slots := s.rd (OD.PK_SLOTS k)
      sealed := s.flag (OD.PK_SEALED k), ctx := s.rd (OD.PK_CONTEXT k), deliver := s.rd (OD.PK_DELIVER k)
      ret := s.rd (OD.PK_RETURN k), deal := s.rd (OD.PK_DEAL k), linger := s.rd (OD.PK_LINGER k)
      seq := (s.stream k).seq }
    (((s.setStream k t).wr (OD.PK_STATE k) 1).landEvaluate t.ret).1
  else if !on ∧ s.rd (OD.PK_STATE k) = 1 then ((s.wr (OD.PK_STATE k) 2).closeBatch k 0).streamSettle k
  else s

end Sys2Proof.Machine
end

