-- ==== Sys2Proof/Machine/VideoDecode.lean ====
section
/-!
DEFINITION. Decode jobs (chapter 14): what a decoder checks and fixes when a stage is issued to it, the budget, and the
picture, motion field and record that it writes.
-/

namespace Sys2Proof.Machine

/-- Concealment reasons (Table VDEC-8). -/
abbrev Conc.budget : Nat := 1
abbrev Conc.syntaxBad : Nat := 2
abbrev Conc.truncated : Nat := 3
abbrev Conc.resync : Nat := 4
abbrev Conc.seek : Nat := 5
abbrev Conc.unsupported : Nat := 6
abbrev Conc.fence : Nat := 7
abbrev Conc.refMissing : Nat := 8
abbrev Conc.stateLost : Nat := 9

/-! ### Issue (R622 to R625, R630) -/

/-- A job exception of decoder e (Table VDEC-11); `x` is the context or 0xFF. -/
def State.decExc (s : State) (e : Nat) (en : Entry) (code x : Nat) : State :=
  let w := jobExcWord en code x
  ((s.wr (OD.VDEC_LAST_JOB_EXC e) w).bump OD.VDEC_JOB_EXCEPTIONS).stageFault en 9 0 (some (w, 0))

/-- Whether an active sequence header lies outside the support (R621). -/
def seqUnsupported (h : SeqHeader) (c : DecCtx) : Bool :=
  !h.supported || decide (c.maxW < h.w.toNat) || decide (c.maxH < h.h.toNat) || decide (c.fsSlots < h.refs.toNat + 1)

/-- Rows of an output picture, chroma among them, its stride and P (R627). -/
def picStride (w : Nat) (p010 : Bool) : Nat := alignUp (w * (if p010 then 2 else 1)) 64
def picBytes (w h : Nat) (p010 : Bool) : Nat := picStride w p010 * (h + (h + 1) / 2)

/-- The context's areas that a sealed job needs wholly sealed: the base of the first that is not (R630). -/
def State.decUnsealed (s : State) (c : DecCtx) : Option Nat :=
  if (s.firstUnsealed c.fsBase c.fsBytes).isSome then some c.fsBase
  else if c.mfSlots ≠ 0 ∧ (s.firstUnsealed c.mfBase (c.mfSlots * c.mfBytes)).isSome then some c.mfBase
  else none

/-- Steps 1 and 2 of R625 for a unit with a picture: geometry, whether it is concealed whole, and the output buffer. -/
def State.decPicture (s : State) (e : Nat) (en : Entry) (j : DecJob) (desc : List Byte) (u : UnitHeaders)
    (unsupported sealedJob : Bool) : State :=
  let x := j.ctx
  let c := s.decCtx x
  let cur := s.rd (OD.CUR_GEOMETRY x)
  let (w, h) := match u.geometry with
    | some (w, h) => (w.toNat, h.toNat)
    | none => if cur ≠ 0 then (bits cur 0 16, bits cur 16 16) else (c.maxW, c.maxH)
  let ten := if u.geometry.isSome then u.tenBit else c.tenBit
  let p010 := if c.outFormat = 2 then ten else decide (c.outFormat = 1)
  let inSeek := decide (s.rd (OD.CTX_STATE x) = CtxSt.seek)
  let decodes := !unsupported && (!inSeek || (u.key && u.seq.isSome))
  let c' : DecCtx := { c with tenBit := ten, sealed := c.sealed || sealedJob }
  let sealedJob := sealedJob || c.sealed
  let dest := if sealedJob then s.decUnsealed c else none
  match dest with
  | some a => s.stopItem en.slot Status.sealed en.stage en.engine (sealedDetail 3 a) none
  | none =>
    let n := alignUp (picBytes w h p010) 64 + 64
    match s.alloc ⟨36 + e, n, sealedJob, bit (fieldAt desc 1 1) 1, fieldAt desc 2 1, some (en.slot, en.run, en.stage)⟩ with
    | (.poolEmpty d, s) => s.stopItem en.slot Status.poolEmpty en.stage en.engine d none
    | (.empty, s) => s
    | (.ticket t, s) =>
      let pic : DecPic := {
        w := w, h := h, p010 := p010, ticket := t, whole := !decodes
        reason := if decodes then 0 else if unsupported then Conc.unsupported else Conc.seek
        key := u.key, shown := u.shown, grain := decodes && u.grain && s.flag (OD.GRAIN x) && decide (c.codec = 0)
        order := u.order.toNat, sealed := sealedJob, epoch := s.tick.epoch.toNat
        budget := s.rd (OD.BUDGET_X4 x) * (w * h + 16000) / 4 }
      (s.setDecCtx x c').setDecJob e (some { j with pic := some pic })

/-- The unit is read and its headers act (R621, R624, R643, R644). -/
def State.decUnit (s : State) (e : Nat) (en : Entry) (j : DecJob) (desc req : List Byte) (u : UnitHeaders) : State :=
  let len := fieldAt req 4 4
  let addr := fieldAt req 8 8
  if len = 0 then s
  else
    let x := j.ctx
    let s := if bit (fieldAt req 1 1) 0 then s.setCtxSt x CtxSt.seek else s
    let (r, s) := s.memRead (s.engineAcc (36 + e) en) addr len
    let (bad, s) := s.accessFails en r
    if bad then s
    else
      let sealedJob := (s.firstSealed addr len).isSome
      let unsupported := u.seq.any (fun h => seqUnsupported h (s.decCtx x))
      let s := if unsupported then (s.setCtxSt x CtxSt.seek).wr (OD.CTX_REASON x) Conc.unsupported else s
      if u.picture then s.decPicture e en j desc u unsupported sealedJob else s

/-- A stage is issued to decoder e (R622, R623). -/
def State.decEnter (s : State) (e : Nat) (en : Entry) (d : StageDef) (u : UnitHeaders) : State :=
  let q := s.engineAcc (36 + e) en
  let it := s.item en.slot
  let (r, s) := s.memRead q (s.jobAddr en d) 64
  let (bad, s) := s.accessFails en r
  if bad then s
  else
    let desc := r.bytes
    if fieldAt desc 0 1 ≠ 1 ∨ 4 ≤ fieldAt desc 1 1 ∨ 64 ≤ fieldAt desc 2 1 ∨ fieldAt desc 3 61 ≠ 0 then
      s.decExc e en 1 0xFF
    else if it.inLen < 32 then s.decExc e en 2 0xFF
    else
      let (r, s) := s.memRead q it.input 32
      let (bad, s) := s.accessFails en r
      if bad then s
      else
        let req := r.bytes
        let x := fieldAt req 0 1
        if 64 ≤ x ∨ 2 ≤ fieldAt req 1 1 ∨ 0x04000000 < fieldAt req 4 4 ∨ 2 ^ 48 ≤ fieldAt req 8 8 ∨
            fieldAt req 0x10 16 ≠ 0 then s.decExc e en 2 0xFF
        else if ctxEngine x ≠ e ∨ s.rd (OD.CTX_STATE x) = 0 ∨ (s.decCtx x).ten ≠ s.stageTen en then s.decExc e en 3 x
        else
          let j : DecJob := {
            slot := en.slot, run := en.run, stage := en.stage, ctx := x, outValid := bit (fieldAt desc 1 1) 0
            landing := fieldAt req 2 2 }
          ((s.setDecJob e (some j)).wr (OD.VDEC_ENGINE_STATE e) 1).decUnit e en j desc req u

/-! ### The budget (R631, R632) -/

/-- DECODE_BUDGET_EXPIRY: no effect before the budget's cycles have passed, and once only. -/
def execDecodeBudgetExpiry (e : Fin 2) (s : State) : Out :=
  .next (
    match s.decJob e, s.runningOn (36 + e) with
    | some j, some en =>
      match j.pic with
      | some p =>
        if s.flag OD.GATE ∨ p.whole ∨ p.overrun ∨ s.spineCycles (s.clk.now - en.issuedAt) < p.budget then s
        else
          let s := s.setDecJob e (some { j with pic := some { p with overrun := true } })
          (s.bump OD.BUDGET_OVERRUNS).decEvent j.ctx
      | none => s
    | _, _ => s)

/-! ### The picture (R626 to R640) -/

/-- 8×8 blocks of a picture. -/
def DecPic.bw (p : DecPic) : Nat := (p.w + 7) / 8
def DecPic.bh (p : DecPic) : Nat := (p.h + 7) / 8

/-- The frame store slot size F, and what a picture needs of it by 64×64 block. -/
def DecCtx.slotSize (c : DecCtx) : Nat := c.fsBytes / c.fsSlots / 4096 * 4096
def DecPic.blockNeed (p : DecPic) : Nat := 6144 * (if p.p010 then 2 else 1) + 1024
def DecPic.need (p : DecPic) : Nat := (p.w + 63) / 64 * ((p.h + 63) / 64) * p.blockNeed

/-- A block whose writes would pass F or MF_SLOT_BYTES (R629): its 64×64 block's place in the frame store slot, or its
entry's place in the motion field slot. -/
def DecPic.fenced (p : DecPic) (c : DecCtx) (b : Nat) : Bool :=
  let k := b / p.bw / 8 * ((p.w + 63) / 64) + b % p.bw / 8
  decide (c.slotSize < (k + 1) * p.blockNeed) || (decide (c.mfSlots ≠ 0) && decide (c.mfBytes < 64 + 8 * (b + 1)))

/-- Whether block b of the picture is concealed. -/
def DecPic.conceals (p : DecPic) (c : DecCtx) (rep : DecReport) (b : Nat) : Bool :=
  p.whole || rep.concealed.any (fun x => x.toNat = b) || p.fenced c b

/-- The number of concealed blocks. -/
def DecPic.concCount (p : DecPic) (c : DecCtx) (rep : DecReport) : Nat :=
  (List.range (p.bw * p.bh)).countP (p.conceals c rep)

/-- The reason of a concealed picture: the first of Table VDEC-8 among those of its own blocks; RESYNC when it has
none. -/
def DecPic.why (p : DecPic) (c : DecCtx) (rep : DecReport) (count : Nat) : Nat :=
  if p.whole then p.reason
  else if count = 0 then Conc.resync
  else if p.overrun then Conc.budget
  else if rep.syntaxBad then Conc.syntaxBad
  else if rep.truncated then Conc.truncated
  else if (List.range (p.bw * p.bh)).any (p.fenced c) then Conc.fence
  else if rep.refMissing then Conc.refMissing
  else Conc.syntaxBad

/-- The 8×8 luma block that byte i of the output picture belongs to, if it is a sample of the picture. -/
def DecPic.blockOf (p : DecPic) (i : Nat) : Option Nat :=
  let e := if p.p010 then 2 else 1
  let stride := picStride p.w p.p010
  let row := i / stride
  let col := i % stride / e
  if row < p.h then (if col < p.w then some (row / 8 * p.bw + col / 8) else none)
  else
    let x := col / 2 * 2
    if x < p.w then some ((row - p.h) * 2 / 8 * p.bw + x / 8) else none

/-- A concealed byte (R633): the previous picture's at the same place, if it has the same geometry; else the mid value. -/
def DecPic.concealByte (p : DecPic) (c : DecCtx) (i : Nat) : Byte :=
  let mid : Byte := if p.p010 then (if i % 2 = 1 then 0x80#8 else 0#8) else 0x80#8
  match c.prev with
  | some v => if v.w = p.w ∧ v.h = p.h ∧ v.p010 = p.p010 then v.bytes.getD i mid else mid
  | none => mid

/-- The output picture's bytes. -/
def DecPic.output (p : DecPic) (c : DecCtx) (rep : DecReport) : List Byte :=
  (fitBytes (picBytes p.w p.h p.p010) rep.samples).zipIdx.map (fun e =>
    match p.blockOf e.2 with
    | some b => if p.conceals c rep b then p.concealByte c e.2 else e.1
    | none => e.1)

/-- The motion field's bytes (R639): header and entries; a concealed block's entry is 0, any other has VALID. -/
def DecPic.field (p : DecPic) (x count : Nat) (c : DecCtx) (rep : DecReport) : List Byte :=
  leBytes 4 count ++ leBytes 2 p.bw ++ leBytes 2 p.bh ++ leBytes 4 p.order ++ leBytes 1 x ++ zeros 51 ++
  (List.range (p.bw * p.bh)).flatMap (fun b =>
    leBytes 8 (if p.conceals c rep b then 0 else setBit (rep.field.getD b 0).toNat 35 true))

/-- The picture record (Table VDEC-6). -/
def State.decRecord (s : State) (x count : Nat) (p : DecPic) (c : DecCtx) (conc : Bool) (why frac mf : Nat) : List Byte :=
  let flags := b2n conc + 2 * b2n p.key + 4 * b2n p.shown + 8 * b2n p.grain + 16 * b2n p.sealed +
    32 * b2n (decide (c.mfSlots ≠ 0))
  leBytes 4 count ++ leBytes 1 x ++ leBytes 1 c.codec ++ leBytes 2 flags ++ leBytes 2 p.w ++ leBytes 2 p.h ++
  leBytes 1 (b2n p.p010) ++ leBytes 1 (if conc then why else 0) ++ leBytes 1 frac ++ zeros 1 ++
  leBytes 4 (picStride p.w p.p010) ++ leBytes 4 p.order ++ leBytes 8 mf ++ leBytes 4 p.epoch ++ zeros 4 ++
  leBytes 8 s.clk.gtime ++ zeros 16

/-- Write pieces in order, up to the first that fails. -/
def State.writePieces (q : Acc) (en : Entry) : List (Nat × List Byte) → State → Bool × State
  | [], s => (false, s)
  | (a, bs) :: rest, s =>
    let (r, s) := s.memWrite q a bs
    let (bad, s) := s.accessFails en r
    if bad then (true, s) else State.writePieces q en rest s

/-- What the context becomes after a picture (Table VDEC-7), and whether the picture is CONCEALED. -/
def nextCtxSt (st : Nat) (p : DecPic) (count : Nat) : Nat × Bool :=
  if p.whole then ((if st = CtxSt.decoding then CtxSt.resync else st), true)
  else if st = CtxSt.seek then ((if count = 0 then CtxSt.decoding else CtxSt.resync), decide (count ≠ 0))
  else if st = CtxSt.decoding then ((if count = 0 then CtxSt.decoding else CtxSt.resync), decide (count ≠ 0))
  else if p.key ∧ count = 0 then (CtxSt.decoding, false)
  else (CtxSt.resync, true)

/-- The end of a job that reports: the PUSH, the engine idle, the report (R580's order for a decoder: R625 step 5, 6). -/
def State.decReport (s : State) (e : Nat) (en : Entry) (j : DecJob) (payload : Nat) (mark empty conc : Bool)
    (bytes : Nat) : Bool × State :=
  let (r, s) := if j.outValid then s.jobLand (36 + e) en j.landing (.push (BitVec.ofNat 64 payload) mark)
    else (some LandRes.done, s)
  match r with
  | none => (false, s)
  | some _ =>
    let s := ((s.setDecJob e none).wr (OD.VDEC_ENGINE_STATE e) 0).busySince (OD.VDEC_BUSY_CYCLES e) en.issuedAt
    (true, (s.reportEnd en empty conc bytes).decSettle j.ctx)

/-- DETAIL of a CONCEALED record stands in the item from its first concealed picture on (R637). -/
def State.concealItem (s : State) (i detail : Nat) : State :=
  let it := s.item i
  if it.concealed ∨ it.detail ≠ 0 then s else s.setItem i { it with detail := detail }

/-- A job with a picture ends (R625 steps 3 to 6). -/
def State.decFinish (s : State) (e : Nat) (en : Entry) (j : DecJob) (p : DecPic) (rep : DecReport) : State :=
  let x := j.ctx
  let c := s.decCtx x
  let n := s.rd (OD.DECODE_COUNT x)
  let count := p.concCount c rep
  let st := s.rd (OD.CTX_STATE x)
  let (st', conc) := nextCtxSt st p count
  let why := p.why c rep count
  let frac := if p.bw * p.bh = 0 then 0 else 255 * count / (p.bw * p.bh)
  let out := p.output c rep
  let a := s.bufferAddr p.ticket
  let total := alignUp out.length 64 + 64
  let mf := if c.mfSlots = 0 then 0 else c.mfBase + n % c.mfSlots * c.mfBytes
  let recon := if p.whole then [] else
    [(c.fsBase + rep.slot.toNat % c.fsSlots * c.slotSize, (fitBytes p.need rep.recon).take c.slotSize)]
  let field := if c.mfSlots = 0 then [] else [(mf, (p.field x n c rep).take c.mfBytes)]
  let recd := [(a + alignUp out.length 64, s.decRecord x n p c conc why frac mf)]
  let pieces := recon ++ [(a, out)] ++ field ++ recd
  match s.sealEscape p.sealed (pieces.map (fun q => (q.1, q.2.length))) with
  | some y => s.stopItem en.slot Status.sealed en.stage en.engine (sealedDetail 3 y) none
  | none =>
  match State.writePieces (s.engineAcc (36 + e) en) en pieces s with
  | (true, s) => s
  | (false, s) =>
    let s := s.wr (OD.DECODE_COUNT x) ((n + 1) % 2 ^ 32)
    let s := (s.bump OD.PICTURES_DECODED).bump64 (OD.VDEC_PIXELS e) (p.w * p.h)
    match s.decReport e en j (n % 65536 * 2 ^ 32 + p.ticket) p.sealed false conc total with
    | (false, s) => s
    | (true, s) =>
      let s := if conc then
          ((s.bump OD.PICTURES_CONCEALED).bump (OD.CTX_CONCEALED x)).concealItem en.slot
            (n % 65536 * 2 ^ 32 + frac * 2 ^ 24 + x * 2 ^ 8 + why)
        else s
      if s.rd (OD.CTX_STATE x) = 0 then s
      else
        let s := s.setDecCtx x { s.decCtx x with prev := some ⟨p.w, p.h, p.p010, out⟩ }
        let s := if p.whole then s else s.wr (OD.CUR_GEOMETRY x) (p.h * 65536 + p.w)
        let s := s.wr (OD.CTX_REASON x) (if conc then why else if st' = CtxSt.decoding then 0 else s.rd (OD.CTX_REASON x))
        s.setCtxSt x st'

/-- DECODE_JOB_END: no effect on a decoder without a job. -/
def execDecodeJobEnd (e : Fin 2) (rep : DecReport) (s : State) : Out :=
  .next (
    match s.decJob e, s.runningOn (36 + e) with
    | some j, some en =>
      if s.flag OD.GATE then s else
      match j.pic with
      | some p => s.decFinish e en j p rep
      | none => (s.decReport e en j noTicket false true false 0).2
    | _, _ => s)

/-- DECODER_CONTEXT_ECC_ERROR (R651). -/
def execDecoderContextEccError (fixed : Bool) (x : Fin 64) (s : State) : Out :=
  .next (
    if fixed then s.record FaultClass.corrected (36 + ctxEngine x) (18 + ctxEngine x) (OD.CTX_STATE x) 0 x
    else if s.rd (OD.CTX_STATE x) = 0 then s
    else
      let e := ctxEngine x
      let s := (s.setCtxSt x CtxSt.seek).wr (OD.CTX_REASON x) Conc.stateLost
      let s := match s.decJob e with
        | some j =>
          match j.pic with
          | some p =>
            if j.ctx = x then
              s.setDecJob e (some { j with pic := some { p with whole := true, reason := Conc.stateLost } })
            else s
          | none => s
        | none => s
      s.record FaultClass.item (36 + e) (18 + e) (OD.CTX_STATE x) 0 x)

end Sys2Proof.Machine
end

