-- ==== Sys2Proof/Machine/VideoMotion.lean ====
section
/-!
DEFINITION. The encoder's motion search (R671, R672, Table VENC-4): the vector of each partition of an inter picture.
-/

namespace Sys2Proof.Machine

/-- A plane of luma samples, in rows. -/
structure Plane where
  w : Nat
  h : Nat
  samples : List Nat
  deriving DecidableEq, Repr

/-- A vector, in samples of its level, or in quarter samples where that is said. -/
abbrev MotionVec := Int × Int

/-- The sample at a position; one past the edge is the edge's (R672). -/
def Plane.at (p : Plane) (x y : Int) : Nat :=
  let cx := (clampInt 0 ((p.w : Int) - 1) x).toNat
  let cy := (clampInt 0 ((p.h : Int) - 1) y).toNat
  p.samples.getD (cy * p.w + cx) 0

/-- The sum of absolute differences of a block of w × h at (x, y) against a prediction of each of its samples. -/
def Plane.sad (p : Plane) (x y w h : Nat) (pred : Int → Int → Nat) : Nat :=
  foldN h (fun t j => foldN w (fun t i =>
    t + ((p.at (x + i) (y + j) : Int) - pred (x + i) (y + j)).natAbs) t) 0

/-- A sample of a reference at a quarter-sample position: on whole samples the sample itself, elsewhere what the codec's filter
makes of the 8 × 8 samples around it (log 12). -/
def Plane.quarter (p : Plane) (codec : Nat) (x4 y4 : Int) : Nat :=
  let ix := x4 / 4
  let iy := y4 / 4
  if x4 % 4 = 0 ∧ y4 % 4 = 0 then p.at ix iy
  else
    let taps := (List.range 64).map (fun k => p.at (ix - 3 + (k % 8 : Nat)) (iy - 3 + (k / 8 : Nat)))
    Config.encFilter codec taps (x4 % 4).toNat (y4 % 4).toNat

/-- What a search knows: the codec, λ of the QP, the partition's place for the bits of a vector's difference. -/
structure SearchCtx where
  codec : Nat
  lambda : Nat
  x : Nat
  y : Nat
  deriving DecidableEq, Repr

/-- λ × the bits of a candidate's vector difference (R671); the vector is in quarter samples of the full picture. -/
def SearchCtx.rate (c : SearchCtx) (v : MotionVec) : Nat := c.lambda * Config.encVectorBits c.codec c.x c.y v.1 v.2

/-- A candidate comes before another: its cost is lower, or equal and it is earlier in raster order (R671). -/
def candBefore (a b : Nat × MotionVec) : Bool :=
  decide (a.1 < b.1) || (a.1 = b.1 && (decide (a.2.2 < b.2.2) || (a.2.2 = b.2.2 && decide (a.2.1 < b.2.1))))

/-- The best of some candidates. -/
def bestCand : List (Nat × MotionVec) → Option (Nat × MotionVec)
  | [] => none
  | a :: r =>
    match bestCand r with
    | none => some a
    | some b => some (if candBefore b a then b else a)

/-- The positions within ±rx, ±ry of a vector, in raster order. -/
def around (v : MotionVec) (rx ry step : Nat) : List MotionVec :=
  (List.range (2 * ry + 1)).flatMap (fun j => (List.range (2 * rx + 1)).map (fun i =>
    (v.1 + ((i : Int) - rx) * step, v.2 + ((j : Int) - ry) * step)))

/-- The candidates of whole samples of a level, with their costs; `scale` takes a vector of the level to quarter samples of the
full picture. -/
def SearchCtx.costs (c : SearchCtx) (cur ref : Plane) (x y w h scale : Nat) (vs : List MotionVec) : List (Nat × MotionVec) :=
  vs.map (fun v =>
    (cur.sad x y w h (fun i j => ref.at (i + v.1) (j + v.2)) + c.rate (v.1 * scale, v.2 * scale), v))

/-- Level 2: the two best of every position around the zero vector and of the previous picture's vector, scaled. -/
def SearchCtx.level2 (c : SearchCtx) (cur ref : Plane) (rx ry : Nat) (prev : MotionVec) : List MotionVec :=
  let all := c.costs cur ref (c.x / 64 * 16) (c.y / 64 * 16) 16 16 16
    ((around (0, 0) rx ry 1 ++ [(Int.tdiv prev.1 16, Int.tdiv prev.2 16)]).eraseDups)
  match bestCand all with
  | none => []
  | some a => a.2 :: ((bestCand (all.filter (fun b => decide (b.2 ≠ a.2)))).map (·.2)).toList

/-- Level 1: the best within ±4 of the level-2 candidates, doubled, for the 32 × 32 samples of the partition's corner. -/
def SearchCtx.level1 (c : SearchCtx) (cur ref : Plane) (vs : List MotionVec) : MotionVec :=
  ((bestCand (c.costs cur ref (c.x / 32 * 16) (c.y / 32 * 16) 16 16 8
    ((vs.flatMap (fun v => around (2 * v.1, 2 * v.2) 4 4 1)).eraseDups))).map (·.2)).getD (0, 0)

/-- Level 0: the best within ±2 of the level-1 vector, doubled, for the partition. -/
def SearchCtx.level0 (c : SearchCtx) (cur ref : Plane) (w h : Nat) (v : MotionVec) : MotionVec :=
  ((bestCand (c.costs cur ref c.x c.y w h 4 (around (2 * v.1, 2 * v.2) 2 2 1))).map (·.2)).getD (0, 0)

/-- One step of the refinement: the best of a vector and its eight neighbours at a distance, in quarter samples. -/
def SearchCtx.refine (c : SearchCtx) (cur ref : Plane) (w h step : Nat) (v : MotionVec) : MotionVec :=
  ((bestCand ((around v 1 1 step).map (fun u =>
    (cur.sad c.x c.y w h (fun i j => ref.quarter c.codec (4 * i + u.1) (4 * j + u.2)) + c.rate u, u)))).map (·.2)).getD v

/-- The planes of a picture: full, 1/4 and 1/16 of its samples. The filter that makes a level is open (log 12). -/
def levels (p : Plane) : Plane × Plane × Plane :=
  let l1 : Plane := ⟨(p.w + 1) / 2, (p.h + 1) / 2, Config.encLevel p.samples p.w p.h⟩
  (p, l1, ⟨(l1.w + 1) / 2, (l1.h + 1) / 2, Config.encLevel l1.samples l1.w l1.h⟩)

/-- The vector of a partition in quarter samples: the four passes of Table VENC-4. -/
def SearchCtx.search (c : SearchCtx) (cur ref : Plane × Plane × Plane) (w h rx ry : Nat) (prev : MotionVec) : MotionVec :=
  let v := c.level0 cur.1 ref.1 w h (c.level1 cur.2.1 ref.2.1 (c.level2 cur.2.2 ref.2.2 rx ry prev))
  c.refine cur.1 ref.1 w h 1 (c.refine cur.1 ref.1 w h 2 (4 * v.1, 4 * v.2))

/-- The luma plane of an NV12 source picture. -/
def sourcePlane (c : EncCtx) (src : List Byte) : Plane :=
  let stride := alignUp c.w 64
  ⟨c.w, c.h, (List.range c.h).flatMap (fun y => ((src.drop (y * stride)).take c.w).map (·.toNat))⟩

/-- The vectors of an inter picture's partitions, and from them the vector of each 64 × 64 block, for the next picture's search:
that of the partition at its corner. The source's levels and the references' are those of Table VENC-4. -/
def State.encMotion (s : State) (j : EncJob) (c : EncCtx) (qp slotSize : Nat) (parts : List EncPart) : Sparse MotionVec :=
  let cols := (c.w + 63) / 64
  let cur := levels (sourcePlane c j.src)
  parts.foldl (fun m p =>
    let block := p.y.toNat / 64 * cols + p.x.toNat / 64
    let slot := c.slots.getD p.ref 0
    let ref := levels ⟨c.w, c.h, Config.encLuma c.codec (s.memBytes (c.fsBase + slot * slotSize) slotSize) c.w c.h⟩
    let k : SearchCtx := ⟨c.codec, Config.encLambda qp, p.x.toNat, p.y.toNat⟩
    let prev := Sparse.get (fun _ => (0, 0)) c.motion block
    let v := k.search cur ref p.w.toNat p.h.toNat (s.rd (OD.ME_RANGE_X j.ctx)) (s.rd (OD.ME_RANGE_Y j.ctx)) prev
    if p.x.toNat % 64 = 0 ∧ p.y.toNat % 64 = 0 then Sparse.put (fun _ => (0, 0)) m block v else m) []

end Sys2Proof.Machine
end

