-- ==== Sys2Proof/Machine/VideoEncode.lean ====
section
/-!
DEFINITION. Encode jobs (chapter 15): what VENC checks and takes when a stage is issued to it, rate control, and the
bitstream and record that it writes.
-/

namespace Sys2Proof.Machine

/-! ### Rate control (R673) -/

/-- clamp(v, lo, hi). -/
def clampNat (v : Int) (lo hi : Nat) : Nat := (clampInt lo hi v).toNat

/-- The parameters of a context that take effect at its next job. -/
structure RcParams where
  mode : Nat
  target : Nat
  buffer : Nat
  maxPic : Nat
  qpKey : Nat
  qpInter : Nat
  qpMin : Nat
  qpMax : Nat
  deriving DecidableEq, Repr

/-- A context's rate-control parameters. -/
def State.rcParams (s : State) (x : Nat) : RcParams :=
  ⟨s.rd (OD.RC_MODE x), s.rd (OD.RC_TARGET x), s.rd (OD.RC_BUFFER x), s.rd (OD.RC_MAX_PIC x), s.rd (OD.QP_KEY x),
   s.rd (OD.QP_INTER x), s.rd (OD.QP_MIN x), s.rd (OD.QP_MAX x)⟩

/-- start_picture: the budget and the starting QP. Divisions truncate toward zero. -/
def RcParams.start (r : RcParams) (key : Bool) (fullness : Nat) (last : Option Nat) : Nat × Nat :=
  let q0 := if key then r.qpKey else r.qpInter
  if r.mode = 0 then (0xFFFFFFFF, q0)
  else if r.mode = 1 then
    let cap := if r.maxPic ≠ 0 then r.maxPic else 8 * r.target
    let b : Int := r.target + Int.tdiv ((r.buffer / 2 : Nat) - (fullness : Int)) 4
    let b := if key then 4 * b else b
    (clampNat b (r.target / 4) cap, clampNat (last.getD q0 : Nat) r.qpMin r.qpMax)
  else (if r.maxPic ≠ 0 then r.maxPic else 0xFFFFFFFF, q0)

/-- after_row. -/
def RcParams.row (r : RcParams) (budget rows : Nat) (qp : Nat) (e : Nat × Nat) : Nat :=
  if r.mode = 0 then qp
  else
    let projected := e.1 * rows / (e.2 + 1)
    if budget < projected then min (qp + 4) r.qpMax
    else if r.mode = 1 ∧ projected < budget * 7 / 8 then max (qp - 4) r.qpMin
    else qp

/-- The QPs of a picture's rows: each row's own, and the one after the last row. -/
def RcParams.qps (r : RcParams) (budget rows : Nat) : Nat → List (Nat × Nat) → List Nat × Nat
  | qp, [] => ([], qp)
  | qp, e :: es =>
    let (qs, last) := RcParams.qps r budget rows (r.row budget rows qp e) es
    (qp :: qs, last)

/-- end_picture. -/
def RcParams.fullness (r : RcParams) (fullness bits : Nat) : Nat :=
  if r.mode = 1 then clampNat ((fullness : Int) + bits - r.target) 0 r.buffer else fullness

/-! ### Issue (R658 to R663, R665, R668, R677) -/

/-- A job exception of VENC (Table VENC-7). -/
def State.encExc (s : State) (en : Entry) (code x : Nat) : State :=
  let w := jobExcWord en code x
  ((s.wr OD.VENC_LAST_JOB_EXC w).bump OD.VENC_JOB_EXCEPTIONS).stageFault en 9 0 (some (w, 0))

/-- Frame store slot size F, and what a picture needs (R672). -/
def EncCtx.slotSize (c : EncCtx) : Nat := c.fsBytes / (c.refs + 1) / 4096 * 4096
def EncCtx.blocks (c : EncCtx) : Nat := (c.w + 63) / 64 * ((c.h + 63) / 64)
def EncCtx.need (c : EncCtx) : Nat := c.blocks * 8704

/-- The source is taken (R663, R665 step 1, R668, R677). -/
def State.encTake (s : State) (en : Entry) (j : EncJob) (force : Bool) (src : Nat) : State :=
  let x := j.ctx
  let c := s.encCtx x
  let it := s.item en.slot
  let (r, s) := s.memRead (s.engineAcc 38 en) src c.srcBytes
  let (bad, s) := s.accessFails en r
  if bad then s
  else
    let sealedJob := c.sealed || (s.firstSealed src c.srcBytes).isSome
    let dest := if !sealedJob then none
      else if (s.firstUnsealed it.output it.outLen).isSome then some it.output
      else if (s.firstUnsealed c.fsBase c.fsBytes).isSome then some c.fsBase else none
    match dest with
    | some a => s.stopItem en.slot Status.sealed en.stage en.engine (sealedDetail 3 a) none
    | none =>
      let pending := s.flag (OD.KEY_PENDING x)
      let interval := s.rd (OD.KEY_INTERVAL x)
      let key := s.rd (OD.ENC_STATE x) = 1 || force || pending || (decide (interval ≠ 0) && decide (interval ≤ c.order + 1))
      let rc := s.rcParams x
      let (budget, qp) := rc.start key (s.rd (OD.RC_FULLNESS x)) (if key then c.qpKey else c.qpInter)
      (s.setEncCtx x { c with sealed := sealedJob }).setEncJob (some { j with
        key := key, requested := force || pending, sealed := sealedJob, budget := budget, qp := qp, src := r.bytes })

/-- A HELD job's source (R662, R663): the held buffer, after a retry of the request that failed. -/
def State.encHeld (s : State) (en : Entry) (j : EncJob) (force : Bool) : State :=
  let t := s.rd (OD.SRC_TICKET j.ctx)
  if t ≠ noTicket then s.encTake en j force (s.bufferAddr t)
  else
    match s.encHold j.ctx with
    | (some d, s) => s.stopItem en.slot Status.poolEmpty en.stage en.engine d none
    | (none, s) => s.setEncJob (some { j with empty := true })

/-- A stage is issued to VENC (R658, R659). -/
def State.encEnter (s : State) (en : Entry) (d : StageDef) : State :=
  let q := s.engineAcc 38 en
  let it := s.item en.slot
  let (r, s) := s.memRead q (s.jobAddr en d) 64
  let (bad, s) := s.accessFails en r
  if bad then s
  else if fieldAt r.bytes 0 1 ≠ 1 ∨ fieldAt r.bytes 1 63 ≠ 0 then s.encExc en 1 0xFF
  else if it.inLen < 32 then s.encExc en 2 0xFF
  else
    let (r, s) := s.memRead q it.input 32
    let (bad, s) := s.accessFails en r
    if bad then s
    else
      let req := r.bytes
      let x := fieldAt req 0 1
      let held := bit (fieldAt req 1 1) 1
      let src := fieldAt req 8 8
      let c := s.encCtx x
      if 16 ≤ x ∨ 4 ≤ fieldAt req 1 1 ∨ fieldAt req 2 6 ≠ 0 ∨ fieldAt req 0x10 16 ≠ 0 ∨
          (!held ∧ (2 ^ 48 ≤ src ∨ src % 64 ≠ 0)) then s.encExc en 2 0xFF
      else if s.rd (OD.ENC_STATE x) = 0 ∨ c.ten ≠ s.stageTen en then s.encExc en 3 x
      else if it.outLen < 64 then s.encExc en 4 x
      else if c.slotSize < c.need then s.encExc en 5 x
      else
        let j : EncJob := {
          slot := en.slot, run := en.run, stage := en.stage, ctx := x, key := false, requested := false
          sealed := false, budget := 0, qp := 0, epoch := s.tick.epoch.toNat }
        let s := (s.setEncJob (some j)).wr OD.VENC_ENGINE_STATE 1
        let force := bit (fieldAt req 1 1) 0
        if held then s.encHeld en j force else s.encTake en j force src

/-! ### The end of a picture (R665 to R667, R674, R675) -/

/-- The encode record (Table VENC-3). -/
def State.encRecord (s : State) (j : EncJob) (c : EncCtx) (dropped capped : Bool) (count bytes order qpAvg full : Nat) :
    List Byte :=
  let flags := b2n j.key + 2 * b2n (j.key && j.requested) + 4 * b2n dropped + 8 * b2n capped + 16 * b2n j.sealed
  leBytes 4 count ++ leBytes 1 j.ctx ++ leBytes 1 c.codec ++ leBytes 2 flags ++ leBytes 4 bytes ++ leBytes 2 c.w ++
  leBytes 2 c.h ++ leBytes 4 order ++ leBytes 1 qpAvg ++ zeros 3 ++ leBytes 4 j.budget ++ leBytes 4 full ++
  leBytes 4 j.epoch ++ zeros 4 ++ leBytes 8 s.clk.gtime ++ zeros 16

/-- The lowest frame store slot that holds no reference. -/
def EncCtx.freeSlot (c : EncCtx) : Nat := ((List.range (c.refs + 1)).find? (fun i => !c.slots.contains i)).getD 0

/-- The mean QP of a picture: its rows' QP where all are equal; which value lies between otherwise is free. -/
def meanQp (qps : List Nat) (free : Nat) : Nat :=
  match qps with
  | [] => free % 256
  | q :: rest => if rest.all (· = q) then q else free % 256

/-- VENC's job ends and is reported. -/
def State.encReport (s : State) (en : Entry) (j : EncJob) (empty : Bool) (bytes : Nat) : State :=
  let s := ((s.setEncJob none).wr OD.VENC_ENGINE_STATE 0).busySince OD.VENC_BUSY_CYCLES en.issuedAt
  (s.reportEnd en empty false bytes).encSettle j.ctx

/-- A picture that is not dropped leaves its counts, its rate control and its reference (R665, R673, R674). -/
def State.encDone (s : State) (en : Entry) (j : EncJob) (n full qp order : Nat) (motion : Sparse MotionVec) : State :=
  let x := j.ctx
  let c := s.encCtx x
  let slot := c.freeSlot
  let s := (s.bump OD.PICTURES_ENCODED).wr (OD.ENC_COUNT x) ((s.rd (OD.ENC_COUNT x) + 1) % 2 ^ 32)
  let s := if j.key then (s.bump OD.KEYS_PRODUCED).wr (OD.KEY_PENDING x) 0 else s
  let s := ((s.wr (OD.RC_FULLNESS x) full).wr (OD.LAST_QP x) qp).wr (OD.ENC_STATE x) 2
  let s := s.setEncCtx x { c with
    slots := if j.key then [slot] else (slot :: c.slots).take c.refs
    order := order
    motion := motion
    qpKey := if j.key then some qp else c.qpKey
    qpInter := if j.key then c.qpInter else some qp }
  s.encReport en j false (64 + n)

/-- The picture's writes end: a failed one has stopped the stage. -/
def State.encWritten (s : State) (en : Entry) (j : EncJob) (dropped : Bool) (n full qp order : Nat)
    (motion : Sparse MotionVec) (pieces : List (Nat × List Byte)) : State :=
  match State.writePieces (s.engineAcc 38 en) en pieces s with
  | (true, s) => s
  | (false, s) =>
    let s := s.bump64 OD.VENC_PIXELS (4096 * (s.encCtx j.ctx).blocks)
    if dropped then ((s.bump OD.PICTURES_DROPPED).encEvent j.ctx).encReport en j true 64
    else s.encDone en j n full qp order motion

/-- Whether some row of a picture ended with the bits so far plus 16 × the remaining blocks at the budget (R675). -/
def EncCtx.capReached (c : EncCtx) (budget : Nat) (bits : List Nat) : Bool :=
  let rows := (c.h + 63) / 64
  (bits.take rows).zipIdx.any (fun e =>
    decide (e.2 + 1 < rows) && decide (budget ≤ e.1 + 16 * ((rows - (e.2 + 1)) * ((c.w + 63) / 64))))

/-- A picture is written, or dropped when its bitstream would pass its block (R665 to R667). An inter picture with a budget
exceeds it by 512 bits at most, and is CAPPED where the skip coding began (R675). -/
def State.encFinish (s : State) (en : Entry) (j : EncJob) (rep : EncReport) : State :=
  let x := j.ctx
  let c := s.encCtx x
  let it := s.item en.slot
  let rc := s.rcParams x
  let room := it.outLen - 64
  let budgeted := !j.key && decide (j.budget ≠ 0xFFFFFFFF)
  let stream := if budgeted then rep.stream.take ((j.budget + 512) / 8) else rep.stream
  let n := stream.length
  let dropped := decide (room < n)
  let rows := (c.h + 63) / 64
  let r := rc.qps j.budget rows j.qp (((rep.rows.map (·.toNat)).take rows).zipIdx)
  let full0 := s.rd (OD.RC_FULLNESS x)
  let full := if dropped then full0 else rc.fullness full0 (8 * n)
  let order := if j.key then 0 else (c.order + 1) % 2 ^ 32
  let capped := budgeted && (rep.capped || c.capReached j.budget (rep.rows.map (·.toNat)))
  let free := s.drawFree
  let recd := free.2.encRecord j c dropped capped (s.rd (OD.ENC_COUNT x)) (if dropped then 0 else n) order (meanQp r.1 free.1)
    full
  let motion := if j.key then [] else s.encMotion j c j.qp c.slotSize rep.parts
  free.2.encWritten en j dropped n full r.2 order motion
    [(it.output + 64, stream.take room), (c.fsBase + c.freeSlot * c.slotSize, fitBytes c.need rep.recon),
     (it.output, recd)]

/-- ENCODE_JOB_END: no effect on an encoder without a job. -/
def execEncodeJobEnd (rep : EncReport) (s : State) : Out :=
  .next (
    match s.vid.job, s.runningOn 38 with
    | some j, some en => if s.flag OD.GATE then s else if j.empty then s.encReport en j true 0 else s.encFinish en j rep
    | _, _ => s)

/-- A write of KEY_REQUEST (R669). -/
def State.keyRequest (x v : Nat) (s : State) : Nat × State :=
  if v = 0 then (Abort.range, s) else (0, s.wr (OD.KEY_PENDING x) 1)

/-- KEY_REQUEST. -/
def execKeyRequest (p : Path) (x : Fin 16) (v : Byte) (s : State) : Out :=
  .next (s.dictWrite p false (OD.KEY_REQUEST x) 1 v.toNat (State.keyRequest x))

/-- ENCODER_CONTEXT_ECC_ERROR (R685). -/
def execEncoderContextEccError (fixed : Bool) (x : Fin 16) (s : State) : Out :=
  .next (
    if fixed then s.record FaultClass.corrected 38 20 (OD.ENC_STATE x) 0 x
    else if s.rd (OD.ENC_STATE x) = 0 then s
    else ((s.encStart x).encEvent x).record FaultClass.item 38 20 (OD.ENC_STATE x) 0 x)

end Sys2Proof.Machine
end

