-- ==== Sys2Proof/Machine/Dispatcher.lean ====
section
/-!
DEFINITION. The flight dispatcher's rows and its steps of a boundary (chapter 06): issue, completion, stops, the LATE abort
and admission.
-/

namespace Sys2Proof.Machine

/-! ### Engines (R275, R277, R749) -/

/-- The engine of an entry is idle: it runs nothing, has let go of every stopped stage, is not halted, and its core is not
being unsealed. -/
def State.engineIdle (s : State) (e : Entry) : Bool :=
  let free (a : Nat) : Bool :=
    (s.runningOn a).isNone && !(s.flit.letting.any (fun x => x.1 = a)) && !s.halted a &&
    (decide (32 ≤ a) || (decide ((s.core a).st = .idle) && !(s.core a).haltReq && !bit s.ledg.unsealing a))
  free e.engine && (!e.dh || free (e.engine + 1))

/-- The engine of an entry can work at all: its domain is powered and its clocks are not gated (R298, R860). -/
def State.engineUp (s : State) (e : Entry) : Bool :=
  s.powered (agentDomain e.engine) && !(s.flag OD.GATE && !(decide (32 ≤ e.engine ∧ e.engine < 36)))

/-- The stage map KIND that an entry's engine needs (Table LOAD-4). -/
def Entry.kind (e : Entry) : Nat :=
  if e.engine < 32 then (if e.dh then 1 else 0) else if e.engine < 36 then 2 else if e.engine < 38 then 3
  else if e.engine = 38 then 4 else 5

/-- The cause of Table FLIT-6 for which an entry faults at issue, the lowest that holds (R281). -/
def State.issueCause (s : State) (e : Entry) : Option Nat :=
  let cores := s.rd (OD.IMG_CORES (s.item e.slot).image)
  let joined := decide (e.engine < 32) && s.joined e.engine
  if !s.engineUp e then some 1
  else if e.dh != joined then some 2
  else
    match s.stageDef e with
    | none => some 3
    | some d =>
      if d.kind ≠ e.kind || (decide (e.engine < 32) && !(bit cores e.engine && (!e.dh || bit cores (e.engine + 1)))) then some 3
      else none

/-- The arbitration key, as a list compared field by field (R274). -/
def Entry.key (e : Entry) : List Nat := [b2n e.bg, e.prio, e.seq, e.run, e.stage]

/-- One list of numbers comes before another. -/
def keyBefore : List Nat → List Nat → Bool
  | a :: as, b :: bs => decide (a < b) || (a = b && keyBefore as bs)
  | _, _ => false

/-- An entry's stage is not TILED, or firmware has made its plan (R326, R431). -/
def State.planned (s : State) (e : Entry) : Bool :=
  match s.stageDef e with
  | none => true
  | some d => !bit d.flags 1 || (s.item e.slot).plans.any (fun p => p.1 = 256 * e.run + e.stage)

/-- The entry that the dispatcher selects: of those released whose plan is made and whose engine is idle, or cannot work, the
first by key. On a boundary cycle no stage of an item of the ending epoch issues (R255). -/
def State.nextIssue (s : State) : Option Entry :=
  (s.flit.entries.filter (fun e =>
    e.st = .released && s.planned e && (s.engineIdle e || !s.engineUp e) && (e.bg || !s.boundaryAhead))).foldl (fun b e =>
    match b with
    | none => some e
    | some x => if keyBefore e.key x.key then some e else some x) none

/-- A Newel core takes a stage, unsealed, with the values of Table CORE-8 but S9 and S10 and with its ENTRY packet (R426, R746,
R932). -/
def State.newelEnter (s : State) (k : Nat) (e : Entry) (d : StageDef) : State :=
  let args := (s.entryRegs 0 e d).filter (fun r => decide (r.1 ≠ 9 ∧ r.1 ≠ 10))
  let s := s.setNewel k { s.newel k with sealed := false, args := args }
  let s := { s with trc := { s.trc with quiet := Sparse.put (fun _ => false) s.trc.quiet (32 + k) false } }
  s.traceInstr (32 + k) d.entryOff 2

/-- STAGE_ISSUE; `unit` is what a decoder's job will parse in its coded unit. -/
def execStageIssue (unit : UnitHeaders) (s : State) : Out :=
  .next (
    match s.nextIssue with
    | none => s
    | some e =>
      match s.issueCause e, s.stageDef e with
      | some c, _ => s.stageFault e c 0 none
      | none, none => s
      | none, some d =>
        let s := s.mapEntry e (fun x => { x with st := .issued, issuedAt := s.clk.now })
        let e := { e with st := .issued, issuedAt := s.clk.now }
        let s := s.traceFlight e.slot e.stage e.run 2 e.engine e.flight 0xFF
        if e.engine < 32 then s.coreEnter e.engine e d
        else if e.engine < 36 then s.newelEnter (e.engine - 32) e d
        else if e.engine < 38 then s.decEnter (e.engine - 36) e d unit
        else if e.engine = 38 then s.encEnter e d
        else s.scalerEnter (e.engine - 40) e d)

/-! ### Completion and stops (R272, R277, R287) -/

/-- STAGE_COMPLETE: an engine's own report, or firmware's for a Newel core's stage, which a parked or halted core does not
make (R229); the shape values that the routine wrote count before the stage ends (R340, R426). -/
def execStageComplete (engine : Fin 70) (rep : StageReport) (s : State) : Out :=
  .next (
    match s.flit.entries.find? (fun e => e.st = .ended && e.engine = engine.val) with
    | some e => s.stageDone e e.repEmpty e.repConcealed e.repBytes
    | none =>
      if 32 ≤ engine.val ∧ engine.val < 36 ∧ !s.halted engine.val ∧ !s.parkedAgent engine.val then
        match s.runningOn engine.val with
        | some e =>
          let mark := (s.newel (engine.val - 32)).sealed
          (rep.shapes.foldl (fun s x => s.setShape e x.1 x.2.toNat mark) s).stageDone e rep.empty rep.concealed
            rep.bytes.toNat
        | none => s
      else s)

/-- ITEM_STOP_DONE: every engine has let go of what the slot's stopped item ran; the item's record follows, unless a boundary has
had it written already (R210). -/
def execItemStopDone (slot : Fin 1024) (s : State) : Out :=
  .next (
    let s := { s with flit := { s.flit with letting := s.flit.letting.filter (fun x => x.2 ≠ slot.val) } }
    if (s.item slot.val).st ≠ .stopping then s else s.closeItem slot.val)

/-- BG_QUANTUM_EXPIRY. -/
def execBgQuantumExpiry (engine : Fin 70) (s : State) : Out :=
  .next (
    match s.runningOn engine.val with
    | some e =>
      if !e.bg ∨ s.clk.now ≤ e.issuedAt + usEdges (s.rd OD.BG_QUANTUM) then s
      else (s.bump OD.BG_OVERRUNS).stageFault e 7 0 none
    | none => s)

/-! ### Step 3 of a boundary (R44, R191, R283) -/

/-- An item that a boundary finds unfinished: a ticked one that runs. -/
def Item.unfinished (it : Item) : Bool := (it.st = .running || it.st = .admitted) && !it.bg

/-- The unfinished items, in slot order. -/
def State.lateItems (s : State) : List Nat := (s.flit.slots.filter (fun e => e.2.unfinished)).map (·.1)

/-- A slot takes its place among others by the edge on which its status was fixed. -/
def byFixed : List (Nat × Item) → Nat × Item → List (Nat × Item)
  | [], x => [x]
  | y :: ys, x => if x.2.fixedAt < y.2.fixedAt then x :: y :: ys else y :: byFixed ys x

/-- The stopping items, in the order in which their status was fixed. -/
def State.stoppingItems (s : State) : List Nat :=
  ((s.flit.slots.filter (fun e => e.2.st = .stopping)).foldl byFixed []).map (·.1)

/-- One item is aborted LATE: its stages stop, its record is written. An item that a wedge within this step has ended is left
alone (R44, R198). -/
def State.lateItem (s : State) (i : Nat) : State :=
  let it := s.item i
  if !it.unfinished then s
  else
  let (run, stage) := s.progress i
  let agent := match s.flit.entries.find? (fun e => e.slot = i && e.run = run && e.stage = stage) with
    | some e => e.engine
    | none => 0xFF
  let done := s.runsDone i
  let s := s.setItem i { it with
    st := .closing, status := Status.late, faultStage := stage, faultAgent := agent, detail := done, fixedAt := s.clk.now }
  let s := s.bump OD.LATE_ITEMS
  let s := s.traceFlight i stage run 4 agent it.flight Status.late
  (s.dropEntries i).closeItem i

/-- Step 3: the records of items whose status was fixed before the boundary come first, though their engines let go only later
(R210; DESIGN CHOICE, notes/assumptions/37.md); then every unfinished item of the ending epoch; then the completion vector of
each tenancy that got a LATE record (R191). -/
def State.lateAbort (s : State) : State :=
  let s := s.stoppingItems.foldl (fun s i => if (s.item i).st = .stopping then s.closeItem i else s) s
  let is := s.lateItems
  let tens := (is.map (fun i => (s.item i).ten)).filter (fun t => s.recordsGo t)
  let s := is.foldl (fun s i => s.lateItem i) s
  foldN 16 (fun s t =>
    if tens.contains t && decide ((s.tenancy t).st ≠ .wedged) then
      (s.setTenancy t { s.tenancy t with unsignalled := 0 }).signalTen t 0
    else s) s

/-! ### Step 7 of a boundary (R42, R267, R268, R273, R284) -/

/-- A slot of the admission queue closes with a status of its own at admission. -/
def State.refuseItem (s : State) (i status agent stage detail : Nat) : State :=
  let it := s.item i
  let s := s.setItem i { it with
    st := .closing, status := status, faultStage := stage, faultAgent := agent, detail := detail
    epoch := s.tick.epoch, began := s.tick.last, fixedAt := s.clk.now }
  let s := if status = Status.stageFault then s.itemRecord i none else s
  (s.countStatus status).closeItem i

/-- Step 7 may admit an item of tenancy t to image slot i (Table LOAD-9): RESIDENT, but not by a load that has ended on this very
cycle (R338), and open to the tenancy. -/
def State.imageReady (s : State) (i t : Nat) : Bool :=
  decide (s.rd (OD.IMG_STATE i) = 2) && bit (s.rd (OD.IMG_TENANTS i)) t && decide (s.ldr.ended ≠ some (i, s.clk.now))

/-- The dispatcher takes one item: it is judged, then admitted or accepted. `n` is its admission sequence number and `o` its
ordinal in its flight. Plans made from an earlier load of the image, or for another stage map entry, are dropped, so that firmware makes them again
(R324). -/
def State.admitItem (s : State) (i o : Nat) : State :=
  let it := s.item i
  if !s.imageReady it.image it.ten then s.refuseItem i Status.imageAbsent 0xFF 0xFF it.image
  else if !s.flightDefined it.flight then s.refuseItem i Status.stageFault 0xFF 0xFF 10
  else
    let n := s.flit.nextSeq
    let stages := (List.range (s.rd (OD.FLT_STAGES it.flight))).map (fun k => s.rd (OD.STAGE it.flight k))
    let img : Image := Sparse.get (fun _ => {}) s.ldr.images it.image
    let s := s.setItem i { it with
      plans := if it.planGen = img.gen then it.plans.filter (fun p =>
          p.2.getD 9 0 = bits (stages.getD (p.1 % 256) 0) 40 8) else []
      st := .admitted, epoch := s.tick.epoch, began := s.tick.last, seq := n, ordinal := o
      prio := s.rd (OD.FLT_PRIORITY it.flight), stages := stages }
    let s := { s with flit := { s.flit with nextSeq := n + 1 } }
    let s := s.setMirror i (some ⟨it.tag, it.ten, s.tick.epoch.toNat, b2n it.bg⟩)
    let s := s.bump OD.ITEMS_ADMITTED
    let s := s.traceFlight i 0 0 0 0xFF it.flight 0xFF
    if it.bg then s else (s.takePart i).enterRunning i

/-- Step 7: the items whose fetch completed before the boundary, in queue order. -/
def State.admission (s : State) : State :=
  let now := s.clk.now
  let take := s.flit.admission.filter (fun i => decide ((s.item i).fetched < now))
  let flights := take.map (fun i => (s.item i).flight)
  let s := { s with flit := { s.flit with
    admission := s.flit.admission.filter (fun i => !take.contains i) } }
  let s := take.zipIdx.foldl (fun s e =>
    s.admitItem e.1 ((flights.take e.2).countP (fun f => f = (s.item e.1).flight))) s
  s.startBackground 1024

end Sys2Proof.Machine
end

