-- ==== Sys2Proof/Machine/Pace.lean ====
section
/-!
DEFINITION. Pace (R869 to R873, Table POWR-5): requests, the supply, the switch, and the thermal cap.
-/

namespace Sys2Proof.Machine

/-- Hall and spine clocks of a Pace in MHz (Table POWR-5). -/
def paceHall (p : Nat) : Nat := [500, 800, 1000, 1200].getD p 1200
def paceSpine (p : Nat) : Nat := [400, 600, 800, 1000].getD p 1000

/-- Change the power controller's record. -/
def State.setPow (s : State) (p : Power) : State := { s with pow := p }

/-- The target: the lower of PACE_REQ and PACE_CAP. -/
def State.paceTarget (s : State) : Nat := min (s.rd OD.PACE_REQ) (s.rd OD.PACE_CAP)

/-- The clocks switch, if a change is ready for it: PACE, its clocks, PACE_CHANGES, the trace's PACE packet. The supply of a
lower Pace follows. -/
def State.paceSwitch (s : State) : State :=
  match s.pow.paceTo with
  | some (t, true) =>
    let s := s.setPow { s.pow with paceTo := none, supply := t }
    let s := ((s.wr OD.PACE t).wr OD.HALL_MHZ (paceHall t)).wr OD.SPINE_MHZ (paceSpine t)
    (s.bump OD.PACE_CHANGES).tracePace t
  | _ => s

/-- The target may have changed: a higher one waits for the supply, a lower one for the next boundary; while the tick unit is
STOPPED the clocks switch as soon as the supply allows (R870). -/
def State.paceUpdate (s : State) : State :=
  let t := s.paceTarget
  let s := s.setPow { s.pow with paceTo := if t = s.rd OD.PACE then none else some (t, decide (t ≤ s.pow.supply)) }
  if s.tick.st = .stopped then s.paceSwitch else s

/-- A write of PACE_REQ. -/
def State.paceOrder (v : Nat) (s : State) : Nat × State := (0, (s.wr OD.PACE_REQ v).paceUpdate)

/-- PACE_REQ. -/
def execPaceReq (p : Path) (v : Byte) (s : State) : Out :=
  .next (s.dictWrite p false OD.PACE_REQ 1 v.toNat State.paceOrder)

/-- PACE_RAMP_DONE. -/
def execPaceRampDone (s : State) : Out :=
  .next (
    match s.pow.paceTo with
    | some (t, false) =>
      let s := s.setPow { s.pow with supply := t, paceTo := some (t, true) }
      if s.tick.st = .stopped then s.paceSwitch else s
    | _ => s)

/-! ### The thermal cap (R872) -/

/-- PACE_CAP goes down by one, if it can: counted, recorded. -/
def State.capLower (s : State) : State :=
  if s.rd OD.PACE_CAP = 0 then s
  else
    let s := (s.wr OD.PACE_CAP (s.rd OD.PACE_CAP - 1)).bump OD.THROTTLE_EVENTS
    (s.record FaultClass.corrected 64 0 OD.THROTTLE_EVENTS 0 0).paceUpdate

/-- PACE_CAP goes up by one, to 3 at most. -/
def State.capRaise (s : State) : State := (s.wr OD.PACE_CAP (min 3 (s.rd OD.PACE_CAP + 1))).paceUpdate

/-- The SYSREF edges in a second. -/
abbrev secondEdges : Nat := 50000000

/-- A channel's refresh-rate status asks for throttling (R776). -/
def State.dramHot (s : State) : Bool := (List.range 8).any (fun ch => s.rd (OD.DRAM_RR ch) = 0xFF)

/-- The response to a sample: at once when the module becomes too hot, and once more for each second that it stays so; one step
up for each second that it stays cool. -/
def State.throttle (s : State) : State :=
  let tj := toSigned 32 (s.rd OD.TJ)
  let lim : Int := s.rd OD.TJ_THROTTLE * 16
  let now := s.clk.now
  if !s.powered 1 then s.setPow { s.pow with hot := none, cool := none }
  else if lim ≤ tj ∨ s.dramHot then
    match s.pow.hot with
    | none => (s.setPow { s.pow with hot := some now, cool := none }).capLower
    | some h =>
      if now < h + secondEdges then s.setPow { s.pow with cool := none }
      else (s.setPow { s.pow with hot := some (h + secondEdges), cool := none }).capLower
  else if tj < lim - 80 then
    match s.pow.cool with
    | none => s.setPow { s.pow with hot := none, cool := some now }
    | some c =>
      if now < c + secondEdges then s.setPow { s.pow with hot := none }
      else (s.setPow { s.pow with hot := none, cool := some (c + secondEdges) }).capRaise
  else s.setPow { s.pow with hot := none, cool := none }

end Sys2Proof.Machine
end

