-- ==== Sys2Proof/Machine/Session.lean ====
section
/-!
DEFINITION. Halting and resuming agents, and the end of a debug session (R953 to R956, R958, R963). The debug port's operations
stand in Machine/Debug.lean.
-/

namespace Sys2Proof.Machine

/-! ### Resuming (R955, R956) -/

/-- A released operation of a halted core retires: its word is written and the core stands behind it. -/
def State.takeGrant (s : State) (n : Nat) : State :=
  match (s.core n).grant with
  | none => s
  | some (rd, w) =>
    let c := s.core n
    (s.setCore n { c.setS rd w with grant := none, wasParked := false }).retire n (c.pc + 8)

/-- A halted core whose stage was stopped lets go of it (R234, R235, R523, R956). -/
def State.abandonStage (s : State) (n : Nat) : State :=
  let s := (s.dropLocks n).dropKept n
  s.setCore n { (s.core n).letGo with grant := none, stepping := false }

/-- Core n goes on from its halt. -/
def State.resumeCore (s : State) (n : Nat) : State :=
  if (s.core n).st ≠ .halted then s.setCore n { s.core n with haltReq := false }
  else
    let s := s.traceInstr n (alcoveOffset (s.core n).pc) 5
    if (s.core n).stopped then s.abandonStage n
    else
      let s := s.takeGrant n
      let c := s.core n
      let st : CoreSt := if (s.runningOn n).isNone then .idle else if c.wasParked then .parked else .running
      s.setCore n { c with st := st, wasParked := false, stepping := false }
where
  /-- The offset of a program counter in its alcove. -/
  alcoveOffset (pc : Nat) : Nat := pc % 0x200000

/-- Newel core k goes on from its halt. -/
def State.resumeNewel (s : State) (k : Nat) : State :=
  let x := s.newel k
  if !x.halted then s.setNewel k { x with haltReq := false }
  else
    let s := s.traceInstr (32 + k) x.pc 5
    let s := if x.stopped then (s.dropLocks (32 + k)).dropKept (32 + k) else s
    s.setNewel k { s.newel k with
      halted := false, stopped := false, sealed := if x.stopped then false else x.sealed, regw := [] }

/-- An agent is resumed (R956). -/
def State.resumeAgent (s : State) (a : Nat) : State := if a < 32 then s.resumeCore a else s.resumeNewel (a - 32)

/-! ### The session's end (R963) -/

/-- A boundary-scan instruction that needs FULL. -/
def TapInstr.needsFull : TapInstr → Bool
  | .sample | .extest | .clamp | .highz => true
  | .bypass | .idcode | .dap => false

/-- The session ends: every halted agent is resumed, the locks of agent 66 are released abandoned, the level is NONE. -/
def State.endSession (s : State) : State :=
  let s := foldN 36 (fun s a => s.resumeAgent a) s
  let s := s.dropLocks 66
  let s := if s.dbg.tap.needsFull then s.setTap .bypass else s
  let s := { s with dbg := { s.dbg with waits := none } }
  (s.wr OD.DBG_LEVEL 0).wr OD.DBG_KEY_SLOT 0xFF

/-- TRST_N low: Test-Logic-Reset, and the session ends. -/
def execTrstNLow (s : State) : Out := .next (if s.powered 27 then s.endSession.setTap .idcode else s)

/-- A write of DBG_END; its range is 1. -/
def State.dbgEndOrder (v : Nat) (s : State) : Nat × State := if v ≠ 1 then (Abort.range, s) else (0, s.endSession)

/-- DBG_END. -/
def execDbgEnd (p : Path) (v : Byte) (s : State) : Out :=
  .next (s.dictWrite p false OD.DBG_END 1 v.toNat State.dbgEndOrder)

/-- The debug port as D27 powers up: FULL in MANUFACTURE, else NONE (R959). -/
def State.debugUp (s : State) : State :=
  let s := { s with dbg := {} }
  if s.boot.life = 0 then s.wr OD.DBG_LEVEL 2 else s

end Sys2Proof.Machine
end

