-- ==== Sys2Proof/Machine/Sink.lean ====
section
/-!
DEFINITION. The trace unit's sink (R941 to R944, R968, R970): lines written to the ring, the flush of the open line, and
errors of the trace buffer.
-/

namespace Sys2Proof.Machine

/-- The trace unit's accesses (agent 68). -/
def State.traceAcc (s : State) : Acc :=
  { agent := 68, ctx := if s.rd OD.SINK_CONTEXT < 16 then some (s.rd OD.SINK_CONTEXT) else none }

/-- TRC_STATE: 0 OFF, 1 RUNNING, 2 FLUSHING. -/
def State.traceState (s : State) : Nat :=
  if s.flag OD.TRC_ENABLE then 1 else if s.trc.used = 0 then 0 else 2

/-- Packets of events are lost (R939). -/
def State.tracesLost (s : State) (n types : Nat) : State :=
  let t := s.trc
  State.bumpN { s with trc :=
    { t with lost := min (t.lost + n) 0xFFFFFFFF, lostTypes := Nat.lor t.lostTypes types } } OD.LOST_PACKETS n

/-- A sink line that must not be written: a byte of it lies in the sealed set or in the gallery extent of an image (R943). -/
def State.sinkBarred (s : State) (a : Nat) : Bool := (rangeFrom a 64).any s.ringBarred

/-- THRESHOLD of TRC_EVENTS after SINK_WRITE has gone from `w` to `w'` (R944). -/
def State.sinkThreshold (s : State) (w w' : Nat) : State :=
  let size := s.rd OD.SINK_SIZE
  let th := s.rd OD.SINK_THRESHOLD
  if th = 0 then s
  else if s.rd OD.SINK_MODE = 1 then
    let unread := (w' + size - s.rd OD.SINK_READ % size) % size
    let before := (w + size - s.rd OD.SINK_READ % size) % size
    if before < th ∧ th ≤ unread then s.trcEvent 0 else s
  else if w' % th = 0 ∨ (w' ≠ 0 ∧ w / th ≠ w' / th) then s.trcEvent 0 else s

/-- SINK_WRITE goes on by one line. -/
def State.sinkAdvance (s : State) : State :=
  let w := s.rd OD.SINK_WRITE
  let w' := (w + 64) % s.rd OD.SINK_SIZE
  (s.wr OD.SINK_WRITE w').sinkThreshold w w'

/-- A sink write that is not performed (R943): the concourse records an error response (R80), the trace unit the first
failure after a success. -/
def State.sinkFails (s : State) (x : TraceLine) (a : Nat) (r : MemRes) : State :=
  let s := s.errReported s.traceAcc r
  let s := (s.bumpN OD.LOST_PACKETS x.packets).bump OD.SINK_FAULTS
  let s := if s.trc.failed then s else s.record FaultClass.corrected 68 27 OD.SINK_FAULTS (r.failAt a) 0
  let s := { s with trc := { s.trc with failed := true } }
  (s.trcEvent 2).sinkAdvance

/-- The oldest complete line goes to the sink. -/
def State.sinkLine (s : State) : State :=
  match s.trc.lines with
  | [] => s
  | x :: xs =>
    let s := { s with trc := { s.trc with lines := xs } }
    let size := s.rd OD.SINK_SIZE
    let w := s.rd OD.SINK_WRITE
    if size = 0 then s.tracesLost x.packets x.types
    else if s.rd OD.SINK_MODE = 1 ∧ (w + 64) % size = s.rd OD.SINK_READ % size then s.tracesLost x.packets x.types
    else
      let a := s.rd OD.SINK_BASE + w
      if s.sinkBarred a then s.sinkFails x a {}
      else
        let (r, s) := s.wholeWrite s.traceAcc a x.bytes
        if r.ok then State.sinkAdvance { s with trc := { s.trc with failed := false } } else s.sinkFails x a r

/-- SINK_LINE_WRITE. -/
def execSinkLineWrite (s : State) : Out := .next (if s.powered 27 then s.sinkLine else s)

/-- The open line is filled with PAD and waits for the sink (R942). -/
def State.flushLine (s : State) : State := { s with trc := s.trc.pad }

/-- LINE_FLUSH_TIMEOUT. -/
def execLineFlushTimeout (s : State) : Out :=
  .next (
    if !s.powered 27 ∨ s.trc.line = [] ∨ s.clk.now < s.trc.openSince + usEdges 100 then s else s.flushLine)

/-- A write of TRC_FLUSH; its range is 1. -/
def State.flushOrder (v : Nat) (s : State) : Nat × State := if v ≠ 1 then (Abort.range, s) else (0, s.flushLine)

/-- TRC_FLUSH. -/
def execTrcFlush (p : Path) (v : Byte) (s : State) : Out :=
  .next (s.dictWrite p false OD.TRC_FLUSH 1 v.toNat State.flushOrder)

/-- A commit of the trace objects: a new sink starts afresh; tracing that ends flushes the open line, and tracing that begins
begins with SYNC (R938, R941, R942). -/
def State.sinkCommit (s old : State) : State :=
  if !s.powered 27 then s
  else
    let s := if s.rd OD.SINK_BASE = old.rd OD.SINK_BASE ∧ s.rd OD.SINK_SIZE = old.rd OD.SINK_SIZE ∧
        s.rd OD.SINK_MODE = old.rd OD.SINK_MODE then s
      else (s.wr OD.SINK_WRITE 0).wr OD.SINK_READ 0
    if old.flag OD.TRC_ENABLE && !s.flag OD.TRC_ENABLE then s.flushLine
    else if !old.flag OD.TRC_ENABLE && s.flag OD.TRC_ENABLE then { s with trc := { s.trc with needSync := true } }
    else s

/-- A reset writes what the buffer holds, as far as the sink takes it, and loses the rest (R968). -/
def State.traceReset (s : State) : State :=
  if !s.powered 27 then s
  else
    let s := s.flushLine
    let s := foldN 256 (fun s _ => s.sinkLine) s
    { s with trc := {} }

/-- Bytes `lo` to `hi` of the buffer become PAD, in a piece of it that begins at `base`. -/
def padBytes (lo hi base : Nat) (bs : List Byte) : List Byte :=
  bs.zipIdx.map (fun e => if lo ≤ base + e.2 ∧ base + e.2 < hi then 0#8 else e.1)

/-- A line with those bytes become PAD. -/
def TraceLine.padBytes (x : TraceLine) (lo hi base : Nat) : TraceLine :=
  ⟨Sys2Proof.Machine.padBytes lo hi base x.bytes, x.packets, x.types⟩

/-- The buffer with `len` bytes at `off` become PAD. -/
def Trace.padAt (t : Trace) (off len : Nat) : Trace :=
  { t with
    lines := t.lines.zipIdx.map (fun e => e.1.padBytes off (off + len) (64 * e.2))
    line := padBytes off (off + len) (64 * t.lines.length) t.line }

/-- TRACE_BUFFER_ECC_ERROR: a packet with an uncorrectable error is dropped under R939 (R970). -/
def execTraceBufferEccError (fixed : Bool) (ty : Fin 16) (off : BitVec 14) (len : BitVec 5) (s : State) : Out :=
  .next (
    if !s.powered 27 then s
    else if fixed then s.record FaultClass.corrected 68 27 0 0 0
    else
      let s := { s with trc := s.trc.padAt off.toNat len.toNat }
      s.tracesLost 1 (if eventType ty.val then 2 ^ lossBit ty.val else 0))

end Sys2Proof.Machine
end

