-- ==== Sys2Proof/Machine/Tick.lean ====
section
/-!
DEFINITION. The tick unit (chapter 01): commits, the boundary sequence, arrivals and synthetic boundaries, TICK_OUT.
-/

namespace Sys2Proof.Machine

/-- Change the tick unit's record. -/
def State.setTick (s : State) (t : Tick) : State := { s with tick := t }

/-! ### Commits (R27, R124 to R126, R136) -/

/-- The value that a staged set gives an object, if it has an entry. -/
def setValue (set : Sparse Nat) (k : Nat) : Option Nat := (set.find? (fun e => e.1 = k)).map (·.2)

/-- An applied set changes an object from what `old` holds. -/
def changedKey (set : Sparse Nat) (old : State) (k : Nat) : Bool :=
  match setValue set k with
  | some v => v ≠ old.rd k
  | none => false

/-- What a commit does in the host link: tenancies that it enables or disables (R160, R162, R163). -/
def State.tenCommit (s : State) (t : Nat) : State :=
  let on := s.flag (OD.TEN_ENABLE t)
  if on ∧ (s.tenancy t).st = .disabled then s.tenActivate t
  else if !on ∧ (s.tenancy t).st = .active then (s.setTenSt t .draining).tenSettle t
  else s

/-- What a commit does in the ports: sensor ports, the audio clock, rings and PDM inputs. -/
def State.portsCommit (s old : State) (set : Sparse Nat) : State :=
  if !s.powered 23 then s
  else
    let s := foldN 4 (fun s c => s.sensCommit c) s
    let s := s.clockCommit
    let s := foldN 8 (fun s a =>
      if changedKey set old (OD.AR_BASE a) || changedKey set old (OD.AR_FRAMES a) || changedKey set old (OD.AR_CHANNELS a) then
        s.ringRestart a
      else s) s
    foldN 8 (fun s k =>
      if (bit (s.rd OD.PDM_ENABLE) k && !bit (old.rd OD.PDM_ENABLE) k) || changedKey set old OD.PDM_CLOCK then
        s.pdmRestart k
      else s) s

/-- Bytes that a commit takes out of the sealed set: those of seal regions, and the alcoves of cores that CORE_SEAL no longer
names and that no sealed stage has run on (R747). -/
def State.sealCommit (s old : State) : State :=
  let s := s.sealLeave old.sealRanges
  let cores := (List.range 32).filter (fun n => old.coreSealed n && !s.coreSealed n && s.powered (2 + n / 4))
  { s with ledg := { s.ledg with fills := s.ledg.fills ++ cores.map alcoveRange } }

/-- Every unit acts on the set that has been applied. -/
def State.unitsCommit (s old : State) (set : Sparse Nat) : State :=
  let s := s.sealCommit old
  let s := if s.powered 1 then s.balCommit old set else s
  let s := s.portsCommit old set
  let s := foldN 8 (fun s q => s.poolCommit q) s
  let s := if s.powered 21 then foldN 4 (fun s k => s.packCommit k) s else s
  let s := foldN 64 (fun s x => s.decCommit x) s
  let s := if s.powered 20 then foldN 16 (fun s x => s.encCommit x) s else s
  let s := foldN 4 (fun s r => s.rtCommit r) s
  let s := foldN 16 (fun s p => if (setValue set (OD.PAIR_MODE p)).isSome then s.pairCommitted p else s) s
  let s := s.sinkCommit old
  foldN 16 (fun s t => s.tenCommit t) s

/-- A staged set is applied: entries of powered domains take effect in ascending order, the others stay staged. -/
def State.applySet (s : State) (set : Sparse Nat) : State :=
  let go := set.filter (fun e => s.objPowered e.1)
  let stay := set.filter (fun e => !s.objPowered e.1)
  let old := s
  let s := { s with dict := { s.dict with staged := stay } }
  let s := go.foldl (fun s e => s.wr e.1 e.2) s
  let s := s.unitsCommit old go
  s.wr OD.LAST_COMMIT_EPOCH s.tick.epoch.toNat

/-- Two staged sets as one; the entries of the later one count. -/
def joinSets (a b : Sparse Nat) : Sparse Nat := b.foldl (fun m e => keyedPut m e.1 e.2) a

/-! ### The boundary sequence (R46, Table TICK-3) -/

/-- What makes a boundary: an arrival or the INTERNAL counter, a synthetic point, or the start. `epoch` is the epoch that a GQ
telegram carries. -/
structure Boundary where
  synthetic : Bool := false
  start : Bool := false
  arrival : Bool := false
  epoch : Option Nat := none
  deriving DecidableEq, Repr

/-- The CORRECTED record of a flywheel run (R25, Table FALT-3). -/
def State.runRecord (s : State) (obj run : Nat) : State :=
  s.logFault ⟨0, FaultClass.corrected, 0xFF, 0, 1, obj, 0xFF, s.tick.epoch.toNat, run⟩

/-- The run of synthetic boundaries (R24, R25, R66). A boundary of the INTERNAL counter ends the sequence; the record of its end
waits for the first boundary made by an arrival, and a run that begins before that counts from 1 (notes/assumptions/32.md). -/
def State.countRun (s : State) (b : Boundary) : State :=
  if b.synthetic then
    let s := s.bump OD.SYNTHETIC_TICKS
    if s.tick.runOpen then s.bumpTo 0xFFFF OD.FLYWHEEL_RUN 1
    else ((s.wr OD.FLYWHEEL_RUN 1).setTick { s.tick with runOpen := true, runOwed := true }).runRecord OD.SYNTHETIC_TICKS 0
  else if b.arrival then
    let run := s.rd OD.FLYWHEEL_RUN
    let owed := s.tick.runOwed
    let s := (s.wr OD.FLYWHEEL_RUN 0).setTick { s.tick with runOpen := false, runOwed := false }
    if owed then s.runRecord OD.FLYWHEEL_RUN run else s
  else s.setTick { s.tick with runOpen := false }

/-- The state after a boundary. -/
def nextTickSt (st : TickSt) (b : Boundary) (stop switch : Bool) : TickSt :=
  if stop then .stopped else if switch then .acquire
  else if b.synthetic then (if st = .acquire then .acquire else .flywheel) else .locked

/-- What a boundary decides before its first step: whether it applies a commit and which set, whether that stops the unit or
changes its source, whether a telegram's epoch does not fit, the next state and the epoch counter's next value. -/
structure BoundaryPlan where
  commit : Bool
  set : Sparse Nat
  stop : Bool
  switch : Bool
  mismatch : Bool
  next : TickSt
  epoch : BitVec 32
  deriving DecidableEq, Repr

/-- The epoch counter after a boundary (R38, R40): held at a stop boundary, a telegram's at a start or in ACQUIRE. Where a GQ
telegram makes a stop boundary in ACQUIRE, R38 would adopt its epoch and R29 holds the counter: the model holds it (DESIGN
CHOICE, notes/assumptions/33.md). -/
def Tick.nextEpoch (t : Tick) (b : Boundary) (stop : Bool) : BitVec 32 :=
  if stop then t.epoch
  else match b.epoch with
    | some e => if t.st = .acquire ∨ b.start then BitVec.ofNat 32 e else t.epoch + 1
    | none => t.epoch + 1

/-- A telegram's epoch differs from the epoch that its boundary begins (R39). -/
def Tick.mismatch (t : Tick) (b : Boundary) (stop : Bool) : Bool :=
  !(decide (t.st = .acquire) || b.start) && !stop && (match b.epoch with
    | some e => decide (BitVec.ofNat 32 e ≠ t.epoch + 1)
    | none => false)

/-- The plan of a boundary: an armed commit is applied by the following boundary, a start boundary too (R68). -/
def State.planBoundary (s : State) (b : Boundary) : BoundaryPlan :=
  let commit := s.tick.armed
  let set := s.dict.staged
  let stop := commit && decide ((setValue set OD.TICK_RUN).getD (s.rd OD.TICK_RUN) = 0)
  let switch := commit && !stop && changedKey set s OD.TICK_SOURCE
  { commit := commit, set := set, stop := stop, switch := switch, mismatch := s.tick.mismatch b stop
    next := nextTickSt s.tick.st b stop switch, epoch := s.tick.nextEpoch b stop }

/-- BOUNDARY_FLAGS (Table TICK-4). -/
def State.boundaryFlags (s : State) (b : Boundary) (p : BoundaryPlan) : Nat :=
  b2n b.synthetic + 2 * b2n (decide (s.tick.st = .acquire) && !b.synthetic) + 4 * b2n p.switch + 8 * b2n p.commit +
  16 * b2n p.mismatch + 32 * b2n b.start

/-- Step 1: the length of the epoch that ends, the epoch counter, the stamps and the flags. -/
def State.boundaryStamp (s : State) (b : Boundary) (p : BoundaryPlan) : State :=
  let flags := s.boundaryFlags b p
  let t := s.tick
  let s := if b.start then s else s.wr OD.LAST_LENGTH (s.clk.now - t.last)
  let s := s.setTick { t with
    epoch := p.epoch, last := s.clk.now, lastReal := if b.synthetic then t.lastReal else s.clk.now
    lastSynth := b.synthetic, outMark := some (s.clk.now + 1), outStop := p.stop, outStart := b.start }
  ((s.wr OD.BOUNDARY_STAMP s.clk.gtime).wr OD.AUDIO_STAMP s.tick.audio.toNat).wr OD.BOUNDARY_FLAGS flags

/-- The telegram that a boundary sends (R835). -/
def State.boundaryTelegram (s : State) (b : Boundary) (stop : Bool) : State :=
  if s.flag OD.TELEGRAM_EMIT && !stop then
    { s with gq := { s.gq with emit := some ⟨s.clk.now, s.tick.epoch.toNat, b.synthetic⟩ } }
  else s

/-- Steps 1 and 2: the stamps, the run of synthetic boundaries, the telegram, vector 2 and the trace. -/
def State.boundaryHead (s : State) (b : Boundary) (p : BoundaryPlan) : State :=
  let flags := s.boundaryFlags b p
  let s := (s.boundaryStamp b p).countRun b
  let s := if p.mismatch then s.bump OD.EPOCH_MISMATCHES else s
  let s := s.boundaryTelegram b p.stop
  let s := if s.flag OD.BOUNDARY_IRQ then s.signal false 2 else s
  s.traceBoundary p.epoch.toNat flags

/-- Steps 3 to 5: late items, the publish point, the commit. -/
def State.boundaryClose (s : State) (b : Boundary) (p : BoundaryPlan) : State :=
  let s := s.lateAbort
  let s := if b.start then s else s.publishPoint b.synthetic
  if p.commit then (s.setTick { s.tick with armed := false }).applySet p.set else s

/-- Steps 6 and 7: what waits for a boundary takes effect; the new epoch's items are admitted. -/
def State.boundaryOpen (s : State) (p : BoundaryPlan) : State :=
  let s := s.setTick { s.tick with st := p.next, startPending := false, swept := false }
  let s := if p.stop then s else s.bundleLatch s.tick.epoch.toNat
  let s := foldN 8 (fun s ch => s.trim ch) s.pairsAll
  let s := s.paceSwitch
  if p.stop then s.startBackground 1024 else s.admission

/-- A boundary of the tick unit, all seven steps. -/
def State.boundary (s : State) (b : Boundary) : State :=
  let p := s.planBoundary b
  ((s.boundaryHead b p).boundaryClose b p).boundaryOpen p

/-! ### Arrivals (R16, R21, R22, R28, R32, R38, R39) -/

/-- An arrival of the active source on the present edge; `epoch` is a GQ telegram's. -/
def State.arrival (s : State) (epoch : Option Nat) : State :=
  let c := s.clk.now - s.tick.last
  let b : Boundary := { arrival := true, epoch := epoch }
  match s.tick.st with
  | .stopped => if s.tick.startPending then s.boundary { b with start := true } else s
  | .acquire => if 2 * c < s.period then s.bump OD.EARLY_ARRIVALS else s.boundary b
  | _ => if c < s.lowerBound then s.bump OD.EARLY_ARRIVALS else s.boundary b

/-- TICK_IN_EDGE: the edge on which the boundary of a qualified edge falls; under boundary scan the function sees its inactive
level (R1002). -/
def execTickInEdge (s : State) : Out :=
  .next (
    let s := s.setTick { s.tick with inEdge := none }
    if s.sourceIs 1 && !s.scanning then s.arrival none else s)

/-- TICK_IN is sampled on a SYSREF edge: two synchroniser stages, then four consecutive high samples after a low one qualify,
and the boundary falls on the next edge (R17, Table TICK-2). The level at the pin is the outside's (notes/assumptions/34.md). -/
def State.sampleTickIn (s : State) : State :=
  let t := s.tick
  let pin := Config.tickIn s.clk.now && !s.scanning
  let highs := if t.sync1 then min (t.highs + 1) 5 else 0
  s.setTick { t with
    sync1 := pin, sync2 := t.sync1, highs := highs, inEdge := if highs = 4 then some (s.clk.now + 1) else t.inEdge }

/-- A write of TICK_STRIKE; its range is 1. -/
def State.strikeOrder (v : Nat) (s : State) : Nat × State :=
  if v ≠ 1 then (Abort.range, s) else if s.sourceIs 3 then (0, s.arrival none) else (Abort.state, s)

/-- TICK_STRIKE. -/
def execTickStrike (p : Path) (v : Byte) (s : State) : Out :=
  .next (s.dictWrite p false OD.TICK_STRIKE 1 v.toNat State.strikeOrder)

/-- GQ_TICK_POINT: the point that an accepted telegram scheduled. -/
def execGqTickPoint (s : State) : Out :=
  .next (
    match s.gq.point with
    | none => s
    | some g =>
      if s.clk.now < g.edge then s
      else
        let s := { s with gq := { s.gq with point := none } }
        if s.sourceIs 2 then s.arrival (some g.epoch) else s)

/-- PERIOD_EXPIRY. -/
def execPeriodExpiry (s : State) : Out :=
  .next (
    if !s.sourceIs 0 ∨ s.tick.st = .stopped ∨ s.clk.now < s.tick.last + s.period then s else s.boundary {})

/-- FLYWHEEL_POINT. -/
def execFlywheelPoint (s : State) : Out :=
  .next (
    if !s.powered 1 ∨ s.rd OD.TICK_SOURCE = 0 ∨ !(s.tick.st = .locked ∨ s.tick.st = .flywheel) ∨
        s.clk.now < s.tick.last + s.upperBound then s
    else s.boundary { synthetic := true })

/-- ACQUIRE_SYNTHETIC. -/
def execAcquireSynthetic (s : State) : Out :=
  .next (
    if !s.powered 1 ∨ s.rd OD.TICK_SOURCE = 0 ∨ s.tick.st ≠ .acquire ∨
        2 * (s.clk.now - s.tick.last) < 3 * s.period then s
    else s.boundary { synthetic := true })

/-! ### TICK_COMMIT (R27, R28, R60, R68, R69) -/

/-- A commit while the tick unit is STOPPED: the staged set with every staged write of this edge is applied; a start it
requests is pending, or made on this edge under INTERNAL. -/
def State.commitNow (s : State) : State :=
  let set := joinSets s.dict.staged s.dict.fresh
  let s := { s with dict := { s.dict with fresh := [] } }
  let s := s.setTick { s.tick with commitDue := false }
  let s := ((s.applySet set).pairsAll).startBackground 1024
  let run := s.flag OD.TICK_RUN
  let s := s.setTick { s.tick with startPending := run }
  if run && s.sourceIs 0 then s.boundary { start := true } else s

/-- The present edge carries the stop boundary that led to STOPPED. -/
def State.stopEdge (s : State) : Bool := s.tick.outStop && decide (s.tick.last = s.clk.now)

/-- A write of TICK_COMMIT. In STOPPED a write of 1 applies on this edge, once its accesses have been served (R27); on the
cycle of a stop boundary it arms the following boundary (R68). -/
def State.commitOrder (v : Nat) (s : State) : Nat × State :=
  if v = 1 ∧ s.tick.st = .stopped ∧ s.stopEdge = false then (0, s.setTick { s.tick with commitDue := true })
  else (0, s.setTick { s.tick with armFresh := some (decide (v = 1)) })

/-- Every access of the edge has been served: the commit of a STOPPED unit is applied (R27, R69, R140). -/
def State.commitEnd (s : State) : State := if s.tick.commitDue then s.commitNow else s

/-- TICK_COMMIT. -/
def execTickCommit (p : Path) (v : Byte) (s : State) : Out :=
  .next (s.dictWrite p false OD.TICK_COMMIT 1 v.toNat State.commitOrder)

/-! ### TICK_OUT (R19, R20) -/

/-- What TICK_OUT does on a new edge: the mark of the last boundary, one edge after it; a start boundary drives a TOGGLE high. -/
def State.tickOutEdge (s : State) : State :=
  let t := s.tick
  if t.outMark ≠ some s.clk.now then s
  else
    let t := { t with outMark := none }
    let mode := s.rd OD.TICK_OUT_MODE
    if mode = 1 then s.setTick { t with out := true, outEnd := some (s.clk.now + 100) }
    else if mode = 2 then
      let v := t.outStart || !t.out
      s.setTick { t with out := v, outEnd := if t.outStop && v then some (s.clk.now + 100) else none }
    else s.setTick t

/-- TICK_OUT_PULSE_END. -/
def execTickOutPulseEnd (s : State) : Out :=
  .next (
    match s.tick.outEnd with
    | some e => if s.clk.now < e then s else s.setTick { s.tick with out := false, outEnd := none }
    | none => s)

/-- A write of TICK_OUT_MODE: OFF and PULSE drive TICK_OUT low; TOGGLE keeps its level. -/
def State.outModeOrder (v : Nat) (s : State) : Nat × State :=
  if s.rd OD.TICK_OUT_MODE = v then (0, s)
  else
    let s := s.wr OD.TICK_OUT_MODE v
    if v = 2 then (0, s.setTick { s.tick with outEnd := if s.tick.st = .stopped then s.tick.outEnd else none })
    else (0, s.setTick { s.tick with out := false, outEnd := none })

/-- TICK_OUT_MODE_WRITE. -/
def execTickOutModeWrite (p : Path) (v : Byte) (s : State) : Out :=
  .next (s.dictWrite p false OD.TICK_OUT_MODE 1 v.toNat State.outModeOrder)

end Sys2Proof.Machine
end

