-- ==== Sys2Proof/Machine/Power.lean ====
section
/-!
DEFINITION. How the power controller carries out orders (chapter 20): domains up and down, failed domains, the steps of a full
device reset, agent resets, cold resets, supplies and temperature, SYSREF, and the events of the PCI Express link that order
resets (R150 to R152).
-/

namespace Sys2Proof.Machine

/-! ### Losing a domain's contents -/

/-- Every object of the domains that satisfy a test returns to its default (R129), but for the keys that `keep` names. -/
def State.clearObjects (s : State) (p : Nat → Bool) (keep : Nat → Bool) : State :=
  { s with
    od := Sparse.clear (fun k => p (domainOf k) && !keep k) s.od
    odb := Sparse.clear (fun k => p (domainOf k) && !keep k) s.odb }

/-- No lock is granted to agent a while it is being reset (R256). -/
def State.bar (s : State) (a : Nat) : State := { s with land := { s.land with barred := a :: s.land.barred } }

/-- The reset is done. -/
def State.unbar (s : State) : State := { s with land := { s.land with barred := [] } }

/-- An agent is reset or loses power: its stage ends with cause 0x08, its locks, its parked operation and its claims go (R234,
R235, R298, R504). -/
def State.agentGone (s : State) (a : Nat) : State :=
  let s := match s.runningOn a with
    | some e => ((s.bar a).stageFault e 8 0 none).unbar
    | none => s
  (((s.bar a).dropLocks a).unbar.dropKept a).dropAgentClaims a

/-- A core's record is forgotten, then its agent is gone. -/
def State.coreGone (s : State) (n : Nat) : State := (s.setCore n {}).agentGone n

/-- The image in slot i has part of its gallery extent in a range. -/
def State.imgInGallery (s : State) (i lo hi : Nat) : Bool :=
  let x := s.extents i
  decide (x.gsize ≠ 0) && decide (x.gbase < hi) && decide (lo < x.gbase + x.gsize)

/-- Resident and retiring images that satisfy a test become ABSENT (R319). -/
def State.imagesLost (s : State) (p : Nat → Bool) : State :=
  foldN 16 (fun s i =>
    if 2 ≤ s.rd (OD.IMG_STATE i) && p i then
      let retiring := decide (s.rd (OD.IMG_STATE i) = 3)
      let s := s.imgAbsent i
      if retiring then s.signal false 5 else s
    else s) s

/-- A hall loses power: its cores, its alcoves, its pairs and what is sealed there (R298, R319, R398, R748). -/
def State.hallDown (s : State) (h : Nat) : State :=
  let n := 4 * h
  let s := s.imagesLost (fun i => (List.range 4).any (fun k => bit (s.rd (OD.IMG_CORES i)) (n + k)))
  let s := foldN 4 (fun s k => s.coreGone (n + k)) s
  let s := s.memClear (fun a => decide (alcoveBase + n * alcoveBytes ≤ a ∧ a < alcoveBase + (n + 4) * alcoveBytes))
  { s with
    arr := { s.arr with failed := foldN 2 (fun v k => setBit v (2 * h + k) false) s.arr.failed }
    ledg := { s.ledg with
      tainted := foldN 4 (fun v k => setBit v (n + k) false) s.ledg.tainted
      unsealing := foldN 4 (fun v k => setBit v (n + k) false) s.ledg.unsealing
      fills := cutAll s.ledg.fills [(alcoveBase + n * alcoveBytes, alcoveBase + (n + 4) * alcoveBytes)] } }

/-- A gallery pair loses power: its contents and the images in it (R319, R748). -/
def State.pairDown (s : State) (p : Nat) : State :=
  let lo := p * 2 ^ 25
  let hi := lo + 2 ^ 25
  let s := s.imagesLost (fun i => s.imgInGallery i lo hi)
  let s := (s.memClear (fun a => decide (lo ≤ a ∧ a < hi))).wr (OD.PAIR_READY p) 0
  { s with ledg := { s.ledg with
    fills := cutAll s.ledg.fills [(lo, hi)], resetHeld := cutAll s.ledg.resetHeld [(lo, hi)] } }

/-- A decoder loses power: its contexts lose their state (R649). -/
def State.decoderDown (s : State) (e : Nat) : State :=
  let s := s.agentGone (36 + e)
  { s with vid := { s.vid with
    dec := Sparse.clear (fun x => decide (ctxEngine x = e)) s.vid.dec
    jobs := Sparse.clear (fun x => decide (x = e)) s.vid.jobs } }

/-- VENC loses power (R683). -/
def State.encoderDown (s : State) : State :=
  let s := s.agentGone 38
  { s with vid := { s.vid with enc := [], job := none } }

/-- D21 loses power: the scalers and the packer (R611, R612); batch areas leave the sealed set through a fill (R747). -/
def State.vestibuleDown (s : State) : State :=
  let before := s.sealRanges
  let s := foldN 8 (fun s k => s.agentGone (40 + k)) s
  let s := { s with vest := {} }
  (s.clearObjects (fun d => d = 21) (fun _ => false)).sealLeave before

/-- D23 is ordered down: frames in progress close and are delivered first (R537, R538). -/
def State.portsDeliver (s : State) : State :=
  foldN 4 (fun s c => ((s.closeFrame c true).deliverFrame c).deliverFrame c) s

/-- Every occupied slot goes to the lost-item list with a cause, and the slots are free (R201, R877). -/
def State.loseAll (s : State) (cause : Nat) : State :=
  let s := s.lostOrder.foldl (fun s i => s.loseSlot i Status.resetFlush cause) s
  State.imgSettleAll { s with flit := { s.flit with slots := [], admission := [], entries := [], letting := [] } }

/-- The endpoint is gone: the rings, the windows, the functions' message state (R859, Table POWR-8). -/
def State.endpointDown (s : State) : State :=
  let s := if s.slotsInUse = 0 then s else s.loseAll 0x11
  { s with
    host := { s.host with tens := [], pf0 := {}, pf1 := {}, rr := 15 }
    dict := { s.dict with win := [], xfer := Sparse.clear (fun k => decide (k < 17)) s.dict.xfer } }

/-- D1 loses power. -/
def State.spineDown (s : State) : State :=
  let s := if s.slotsInUse = 0 then s else s.loseAll 0x11
  let s := s.pinsDefault
  { ((s.wr OD.FW_VERSION 0).wr OD.FW_SLOT 0) with
    tick := {}, land := {}, flit := {}, ldr := {}, clok := {}, ledg := {}, bal := {}, newels := []
    falt := { s.falt with lastStage := none }
    dict := { s.dict with xfer := Sparse.clear (fun k => decide (k = 18)) s.dict.xfer }
    boot := { s.boot with phase := .idle, runKey := none, runEpoch := 0 }
    pow := { s.pow with paceTo := none, supply := 3, hot := none, cool := none } }

/-- A domain's units end as it loses power (R886, R887). -/
def State.unitsDown (s : State) (d : Nat) : State :=
  if d = 1 then s.spineDown
  else if 2 ≤ d ∧ d < 10 then s.hallDown (d - 2)
  else if 10 ≤ d ∧ d < 18 then s.pairDown (d - 10)
  else if d = 18 ∨ d = 19 then s.decoderDown (d - 18)
  else if d = 20 then s.encoderDown
  else if d = 21 then s.vestibuleDown
  else if d = 22 then { s.netClear with coln := {} }
  else if d = 23 then { s with ports := {} }
  else if d = 24 ∨ d = 25 then s.channelsOff (d - 24)
  else if d = 26 then s.endpointDown
  else if d = 27 then { s.endSession with trc := {}, dbg := {} }
  else s

/-- The open transfers on objects of domain d will abort with STATE at their next segment (R142). -/
def State.cutTransfers (s : State) (d : Nat) : State :=
  { s with dict := { s.dict with xfer := s.dict.xfer.map (fun e =>
      (e.1, e.2.map (fun x => if domainOf x.key = d then { x with cut := true } else x))) } }

/-- Domain d is off. -/
def State.domainDown (s : State) (d : Nat) : State :=
  let s := (((s.unitsDown d).withdrawRequests d).cutTransfers d).clearObjects (fun x => x = d) (fun _ => false)
  { s.setOdBit OD.DOMAIN_ON d false with pow := { s.pow with ramp := Sparse.put (fun _ => none) s.pow.ramp d none } }

/-- Every domain but D0 is off, the highest first. -/
def State.allDown (s : State) : State :=
  (List.range 27).foldl (fun s i => s.domainDown (27 - i)) s

/-! ### Ramps and power-downs (R852 to R854) -/

/-- The ramp of a domain in µs (Table POWR-1). -/
def rampUs (d : Nat) : Nat := if d = 1 ∨ d = 24 ∨ d = 25 then 100 else if d = 26 then 60 else if 22 ≤ d then 20 else 40

/-- The edge on which a domain's ramp began. -/
def State.rampOf (s : State) (d : Nat) : Option Nat := Sparse.get (fun _ => none) s.pow.ramp d

/-- Record or forget a ramp. -/
def State.setRamp (s : State) (d : Nat) (x : Option Nat) : State :=
  s.setPow { s.pow with ramp := Sparse.put (fun _ => none) s.pow.ramp d x }

/-- The power controller moves domains: no step of a reset holds it (R885), and MOD_RST_N does not hold the AON controller
(R991). -/
def State.mayMove (s : State) : Bool :=
  s.pow.vaon && (decide (s.rd OD.RESET_STATE = 0) || decide (s.rd OD.RESET_STATE = 4)) && decide (s.pow.mod_ ≠ .cold)

/-- Whether a domain's ramp may begin (R852, R854, R988). -/
def State.mayRamp (s : State) (d : Nat) : Bool :=
  bit (s.rd OD.DOMAIN_REQ) d && !s.powered d && (s.rampOf d).isNone && !s.domainOut d &&
  (domainNeeds d).all (fun r => s.powered r) && !(decide (d = 1) && s.tooCold)

/-- DOMAIN_RAMP_START. -/
def execDomainRampStart (s : State) : Out :=
  .next (
    let wait := match s.pow.lastRamp with | some t => decide (s.clk.now < t + usEdges 10) | none => false
    if !s.mayMove || !s.pow.vin || wait then s
    else
      match (List.range 28).find? (fun d => decide (d ≠ 0) && s.mayRamp d) with
      | none => s
      | some d =>
        let s := s.setRamp d (some s.clk.now)
        (s.setPow { s.pow with lastRamp := some s.clk.now }).powerNote)

/-- What begins in a domain that is ready (Table POWR-1). -/
def State.domainUp (s : State) (d : Nat) : State :=
  if d = 1 then { s with boot := { s.boot with phase := .idle }, dmem := { s.dmem with noTable := false } }
  else if d = 23 then { s with ports := {} }
  else if d = 24 ∨ d = 25 then s.channelsOn (d - 24)
  else if d = 26 then s.wr OD.LINK_STATE (if s.host.perstLow then 0 else 1)
  else if d = 27 then s.debugUp
  else s

/-- DOMAIN_READY. -/
def execDomainReady (d : Fin 28) (s : State) : Out :=
  .next (
    if (s.rampOf d).isNone || !(domainNeeds d).all (fun r => s.powered r) then s
    else (((s.setRamp d none).setOdBit OD.DOMAIN_ON d true).domainUp d).powerNote)

/-- DOMAIN_RAMP_FAIL. -/
def execDomainRampFail (d : Fin 28) (s : State) : Out :=
  .next (
    match s.rampOf d with
    | none => s
    | some t =>
      if s.clk.now < t + usEdges (2 * rampUs d) then s
      else
        let s := (s.setRamp d none).setOdBit OD.DOMAIN_FAIL d true
        (s.record FaultClass.device 64 d OD.DOMAIN_FAIL 0 d).powerNote)

/-- DOMAIN_POWER_DOWN: the highest powered domain that is not wanted, once no domain in mid-ramp needs it (R853, R882). -/
def execDomainPowerDown (s : State) : Out :=
  .next (
    if !s.mayMove then s
    else
      match ((List.range 28).reverse).find? (fun d =>
        decide (d ≠ 0) && s.powered d && !bit (s.rd OD.DOMAIN_REQ) d) with
      | none => s
      | some d =>
        if (List.range 28).any (fun x => (s.rampOf x).isSome && (domainNeeds x).contains d) then s
        else
          let s := if d = 23 then s.portsDeliver else s
          let s := s.domainDown d
          s.powerNote)

/-! ### Ordering a full device reset (R70, R200, R875) -/

/-- One occupied slot's RESET_FLUSH record; a slot whose record cannot be written stays for the lost-item list. Of an item not yet
admitted the record shows the epoch counter and FINISH_TIME 0 (DESIGN CHOICE, notes/assumptions/37.md). -/
def State.flushSlot (s : State) (i : Nat) : State :=
  let it := s.item i
  if it.st = .free then s
  else
    let plain := it.st = .queued || it.st = .checked
    let s := s.setItem i { it with
      status := Status.resetFlush, faultStage := 0xFF, faultAgent := 0xFF, detail := 0
      epoch := if plain then s.tick.epoch else it.epoch, began := if plain then s.clk.now else it.began
      fixedAt := s.clk.now }
    let s := s.traceFlight i 0 0 5 0xFF it.flight Status.resetFlush
    match s.writeRecord i false with
    | (.written, s) => ((s.setItem i {}).setMirror i none).imgSettle it.image
    | (.failed, s) => s.wedge it.ten 2
    | (.unsent, s) => s

/-- Every item is aborted: the stages that run stop. -/
def State.abortAll (s : State) : State :=
  let run := s.flit.entries.filter (fun e => e.st = .issued)
  let s := { s with flit := { s.flit with entries := [], admission := [] } }
  run.foldl (fun s e => s.engineStop e) s

/-- A full device reset is ordered: a further order merges into the one in progress. `lost` is a slot whose record is not to
be written (R1015). -/
def State.orderReset (s : State) (cause : Nat) (floor : Bool) (lost : Option Nat) : State :=
  match s.pow.reset with
  | some r => s.setPow { s.pow with reset := some { r with floor := r.floor || floor } }
  | none =>
    let keep := s.linkUp && decide (cause = 4)
    let flush := s.linkUp && decide (cause ≠ 1 ∧ cause ≠ 2 ∧ cause ≠ 3)
    let s := s.setPow { s.pow with reset := some ⟨cause, s.clk.now, keep, floor⟩ }
    let s := s.wr OD.RESET_STATE 1
    let s := s.setTick { s.tick with st := .stopped, startPending := false, commitDue := false, armed := false, armFresh := none, out := false, outMark := none, outEnd := none, inEdge := none }
    let s := s.abortAll
    if flush then (s.lostOrder.filter (fun i => lost ≠ some i)).foldl (fun s i => s.flushSlot i) s else s

/-! ### The steps (Table POWR-7) -/

/-- The parts of ranges that step 2 fills (DRAM, and fills of alcoves already in progress), and those that lie in powered
gallery pairs. -/
def fillPart (rs : List (Nat × Nat)) : List (Nat × Nat) := rs.filter (fun r => decide (galleryBytes ≤ r.1))
def galleryPart (s : State) (rs : List (Nat × Nat)) : List (Nat × Nat) :=
  let off := (List.range 8).filter (fun p => !s.powered (10 + p))
  cutAll (rs.filter (fun r => decide (r.1 < galleryBytes))) (off.map (fun p => (p * 2 ^ 25, (p + 1) * 2 ^ 25)))

/-- RESET_TAKES_HOLD: what is left goes to the lost-item list, the transfers close, and the DRAM fills begin (R141, R201, R747,
R831, R968). -/
def execResetTakesHold (s : State) : Out :=
  .next (
    match s.pow.reset with
    | none => s
    | some r =>
      if s.rd OD.RESET_STATE ≠ 1 then s
      else
        let s := (s.loseAll r.cause).gqHold
        let s := s.traceReset
        let s := if r.floor then s.setTarget 1 1 else s
        let all := s.sealRanges ++ s.ledg.fills
        let tainted := s.coresSealed
        let s := { s with
          dict := { s.dict with staged := [], fresh := [], xfer := [] }
          ledg := { s.ledg with
            fills := fillPart all, resetHeld := s.ledg.resetHeld ++ galleryPart s all, tainted := tainted } }
        s.wr OD.RESET_STATE 2)

/-- A window whose step the reset closed reports TIMEOUT (R159). -/
def DictWindow.close (w : DictWindow) : DictWindow :=
  if w.busy then { w with busy := false, done := true, abort := Abort.timeout, answer := none } else w

/-- The objects of powered domains that a full device reset keeps: the DRAM values in use, and the link when it stays up. -/
def resetKeeps (link : Bool) (k : Nat) : Bool :=
  decide (k = OD.LATCHED ∨ k = OD.DRAM_USABLE) || (List.range 8).any (fun ch => k = OD.CH_STATE ch) ||
  (link && decide (k = OD.LINK_STATE ∨ k = OD.LINK_WIDTH ∨ k = OD.LINK_SPEED))

/-- The endpoint's record after a full device reset: PCI Express configuration stays where the link does (R151). -/
def HostLink.afterReset (h : HostLink) (link : Bool) : HostLink :=
  if link then { h with tens := [], rr := 15 } else { h with tens := [], rr := 15, pf0 := {}, pf1 := {} }

/-- The units' records after a full device reset. A tenancy that so returns to DISABLED while the link and the MSI-X state are
kept signals no vector 4t+2 (DESIGN CHOICE, notes/assumptions/35.md). -/
def State.recordsReset (s : State) (link : Bool) : State :=
  { s with
    host := s.host.afterReset link
    dict := { s.dict with win := s.dict.win.map (fun e => (e.1, e.2.close)) }
    tick := {}, land := {}, flit := {}, ldr := {}, clok := {}, bal := {}, newels := [], trc := {}, dbg := {}
    cores := s.cores.map (fun e => (e.1, e.2.afterReset))
    arr := { s.arr with failed := 0 }
    vest := {}, vid := {}, coln := {}
    ports := { aud := { period := s.ports.aud.period } }
    ledg := { fills := [], tainted := s.ledg.tainted, resetHeld := s.ledg.resetHeld }
    falt := { s.falt with lastStage := none }
    boot := { s.boot with phase := .idle, runKey := none, runEpoch := 0 }
    pow := { s.pow with paceTo := none, supply := 3, hot := none, cool := none } }

/-- The logic of every domain but D0 is reset (step 3). -/
def State.logicReset (s : State) (keep : Bool) : State :=
  let link := keep && s.linkUp
  let s := s.endSession
  let was := s.rd OD.PIN_SWITCHES
  let s := s.pinsDefault
  let n := s.rd OD.PIN_SWITCHES - was
  let s := s.clearObjects (fun d => d ≠ 0) (resetKeeps link)
  let s := s.wr OD.PIN_SWITCHES n
  s.recordsReset link

/-- RESET_FILL_END: the DRAM bytes are zero, the channels refresh themselves, and the logic is held in reset. -/
def execResetFillEnd (s : State) : Out :=
  .next (
    match s.pow.reset with
    | none => s
    | some r =>
      if s.rd OD.RESET_STATE ≠ 2 then s
      else
        let fills := s.ledg.fills
        let s := s.memClear (fun a => fills.any (fun x => inRange x a))
        let s := foldN 8 (fun s ch =>
          if s.chSt ch = ChSt.active then s.wr (OD.CH_STATE ch) ChSt.selfRefresh
          else if s.chSt ch = ChSt.init then s.wr (OD.CH_STATE ch) ChSt.untrimmed else s) s
        (s.logicReset r.keepPcie).wr OD.RESET_STATE 3)

/-- RESET_HOLD_END: once SYSREF runs, firmware starts again, pairs fill, channels are brought up (R449, R795, R888, R903). -/
def execResetHoldEnd (s : State) : Out :=
  .next (
    if s.pow.reset.isNone ∨ s.rd OD.RESET_STATE ≠ 3 ∨ !s.pow.sysref then s
    else
      let s := foldN 8 (fun s p => s.wr (OD.PAIR_READY p) 0) s
      let s := foldN 8 (fun s ch =>
        if s.chSt ch = ChSt.selfRefresh then s.wr (OD.CH_STATE ch) ChSt.untrimmed else s) s
      let s := s.setDmem { s.dmem with noTable := false }
      let s := if s.powered 26 ∧ !s.linkUp then s.wr OD.LINK_STATE (if s.host.perstLow then 0 else 1) else s
      (((s.wr OD.FW_VERSION 0).wr OD.FW_SLOT 0).wr OD.GATE 1 |>.wr OD.RESET_STATE 4).powerNote)

/-- RESET_DONE: every action of step 4 has ended or has been given up. -/
def execResetDone (s : State) : Out :=
  .next (
    match s.pow.reset with
    | none => s
    | some r =>
      if s.rd OD.RESET_STATE ≠ 4 || s.movingNow then s
      else
        let s := ((s.wr OD.RESET_STATE 0).wr OD.RESET_CAUSE r.cause).bump OD.RESETS
        s.setPow { s.pow with reset := none })

/-! ### Orders over the dictionary (R857, R874 to R876) -/

/-- A write of RESET_CMD: 1 FULL, 2 COLD. -/
def State.resetOrder (v : Nat) (s : State) : Nat × State :=
  if v = 1 then (0, s.orderReset 4 false none)
  else if v = 2 then
    (if s.dropForbidden 1 then (Abort.state, s) else (0, s.setPow { s.pow with cold := some s.clk.now }))
  else (Abort.range, s)

/-- RESET_CMD_FULL. -/
def execResetCmdFull (p : Path) (s : State) : Out := .next (s.dictWrite p false OD.RESET_CMD 1 1 State.resetOrder)

/-- RESET_CMD_COLD. -/
def execResetCmdCold (p : Path) (s : State) : Out := .next (s.dictWrite p false OD.RESET_CMD 1 2 State.resetOrder)

/-- An agent is reset (R385, R442, R611, R648, R682, R874). -/
def State.resetAgent (s : State) (n : Nat) : State :=
  if n < 32 then
    let s := s.resetCore n
    let s := if s.joined n then s.agentGone (n / 2 * 2) else s
    s.agentGone n
  else if n < 36 then (s.setNewel (n - 32) {}).agentGone n
  else
    let s := s.agentGone n
    if n = 38 then s.encReset else s

/-- A write of AGENT_RESET. -/
def State.agentOrder (n : Nat) (s : State) : Nat × State :=
  if !(decide (n ≤ 38) || decide (40 ≤ n ∧ n ≤ 47)) then (Abort.range, s)
  else if !s.powered (agentDomain n) then (Abort.state, s)
  else (0, s.resetAgent n)

/-- AGENT_RESET. -/
def execAgentReset (p : Path) (n : Byte) (s : State) : Out :=
  .next (s.dictWrite p false OD.AGENT_RESET 1 n.toNat State.agentOrder)

/-! ### Cold reset (R876, R991) -/

/-- The powering to POWERUP_TARGET that follows a cold start (R866, R897). -/
def State.powerUp (s : State) : State :=
  if !s.pow.await || !s.pow.vin || s.boot.life = 3 then s
  else
    let t := s.cmdTarget (s.rd OD.POWERUP_TARGET)
    s.setTarget t.1 t.2

/-- The objects that a cold reset keeps: the calendar, the persist store and the fault and lost-item counts. -/
def coldKeeps (k : Nat) : Bool :=
  decide (k / 65536 = 0x11 ∨ k / 65536 = 0x12) || decide (k = OD.FAULTS_LOST ∨ k = OD.LOST_OVERFLOW) ||
  (List.range 5).any (fun c => k = OD.CLASS_COUNTS c)

/-- The units' records after a cold reset. -/
def State.recordsCold (s : State) : State :=
  { s with
    dict := {}, gq := { idleAt := s.clk.now }
    falt := { s.falt with lastDevice := none, lastStage := none }
    boot := { s.boot with phase := .idle, runKey := none, runEpoch := 0 }
    pow := { vaon := s.pow.vaon, vin := s.pow.vin, mod_ := s.pow.mod_, sysref := s.pow.sysref } }

/-- The AON controller is reset and boots again from ROM. -/
def State.coldReset (s : State) : State :=
  let s := (s.loseAll 8).allDown
  let s := s.cutBurn.cutFlash.cutCommit
  let s := s.clearObjects (fun d => d = 0) coldKeeps
  (s.recordsCold.wr OD.RESET_CAUSE 8).powerUp

/-- COLD_RESET: 10 µs after a command's response, at once for the pin. -/
def execColdReset (s : State) : Out :=
  .next (
    match s.pow.cold with
    | none => s
    | some t => if s.clk.now < t + usEdges 10 ∧ s.pow.mod_ ≠ .cold then s else s.coldReset)

/-- MOD_RST_N_FULL_THRESHOLD. -/
def execModRstNFullThreshold (s : State) : Out :=
  .next (if s.scanning then s else (s.setPow { s.pow with mod_ := .full }).orderReset 5 false none)

/-- MOD_RST_N_COLD_THRESHOLD. -/
def execModRstNColdThreshold (s : State) : Out :=
  .next (if s.scanning then s else s.setPow { s.pow with mod_ := .cold, cold := some s.clk.now })

/-- MOD_RST_N_RISE. -/
def execModRstNRise (s : State) : Out := .next (s.setPow { s.pow with mod_ := .high })

/-! ### Supplies (R866, R877, R982 to R984) -/

/-- VIN_LOSS: every domain but D0 is gone at once. -/
def execVinLoss (high : Bool) (mv : BitVec 16) (s : State) : Out :=
  .next (
    let s := (s.loseAll 0x10).allDown
    let s := s.setPow { s.pow with
      vin := false, await := false, ramp := [], moving := none, reset := none }
    let s := (s.wr OD.VIN_MV mv.toNat).wr OD.RESET_STATE 0
    let s := s.logFault ⟨0, FaultClass.device, 64, 0, 0, OD.VIN_MV, 0xFF, mv.toNat, if high then 2 else 1⟩
    (s.wr OD.DOMAIN_REQ 1).wr OD.GATE 1)

/-- VIN_VALID. -/
def execVinValid (s : State) : Out := .next (s.setPow { s.pow with vin := true }).powerUp

/-- VIN_BAND_ENTRY (R983). -/
def execVinBandEntry (mv : BitVec 16) (s : State) : Out :=
  .next ((s.wr OD.VIN_MV mv.toNat).logFault ⟨0, FaultClass.corrected, 64, 0, 0, OD.VIN_MV, 0xFF, mv.toNat, 0⟩)

/-! ### Temperature (R872, R873) -/

/-- TJ_SAMPLE: the throttling, and the reset when TJ reaches 125 °C. -/
def execTjSample (t : BitVec 32) (s : State) : Out :=
  .next (
    let was := toSigned 32 (s.rd OD.TJ)
    let s := (s.wr OD.TJ t.toNat).throttle
    if was < 2000 ∧ 2000 ≤ toSigned 32 t.toNat then s.orderReset 7 true none else s)

/-! ### SYSREF (R888) -/

/-- SYSREF_ABSENT. -/
def execSysrefAbsent (s : State) : Out :=
  .next ({ s.setPow { s.pow with sysref := false } with clk := { s.clk with lfAcc := 0 } }.orderReset 6 false none)

/-- SYSREF_RETURN. -/
def execSysrefReturn (s : State) : Out := .next (s.setPow { s.pow with sysref := true })

/-! ### The link (R150 to R152, R867, R868) -/

/-- The link is lost: its state falls and the functions' configuration is reset. -/
def State.linkLost (s : State) (state cause : Nat) : State :=
  let s := s.orderReset cause false none
  let s := ((s.wr OD.LINK_STATE state).wr OD.LINK_WIDTH 0).wr OD.LINK_SPEED 0
  { s with host := { s.host with pf0 := {}, pf1 := {} } }

/-- PE_RST_N_ASSERT; it is not observed while D26 is unpowered (R859). -/
def execPeRstNAssert (s : State) : Out :=
  .next (
    if s.scanning then s
    else
      let s := { s with host := { s.host with perstLow := true } }
      if s.powered 26 then s.linkLost 0 1 else s)

/-- HOT_RESET: the link trains again. -/
def execHotReset (s : State) : Out := .next (if s.powered 26 && s.linkUp then s.linkLost 1 2 else s)

/-- LINK_DOWN. -/
def execLinkDown (s : State) : Out := .next (if s.powered 26 && s.linkUp then s.linkLost 0 3 else s)

/-- LINK_UP. -/
def execLinkUp (width speed : BitVec 8) (s : State) : Out :=
  .next (
    if !s.powered 26 ∨ s.host.perstLow then s
    else
      let s := ((s.wr OD.LINK_STATE 2).wr OD.LINK_WIDTH width.toNat).wr OD.LINK_SPEED speed.toNat
      s.setPow { s.pow with wakeLow := false })

/-- PE_RST_N_RELEASE: the endpoint trains, or a wake request is raised while D26 is unpowered (Table POWR-4). -/
def execPeRstNRelease (s : State) : Out :=
  .next (
    if s.scanning then s
    else
      let s := { s with host := { s.host with perstLow := false } }
      if s.powered 26 then (if s.linkUp then s else s.wr OD.LINK_STATE 1) else s.wake 1)

/-- SLOT_TABLE_ECC_ERROR (R302, R1015). -/
def execSlotTableEccError (fixed : Bool) (slot : Fin 1024) (s : State) : Out :=
  .next (
    if !s.powered 1 then s
    else if fixed then s.record FaultClass.corrected 67 1 0 0 slot.val
    else if (s.item slot.val).st = .free then s
    else (s.record FaultClass.device 67 1 0 0 slot.val).orderReset 6 false (some slot.val))

end Sys2Proof.Machine
end

