-- ==== Sys2Proof/Machine/Boot.lean ====
section
/-!
DEFINITION. Boot, fuses, keys, the boot flash, the persist store and the calendar (chapter 21), and what VAON brings and takes
(R981, R986).
-/

namespace Sys2Proof.Machine

/-! ### BLOB writes -/

/-- The longest value of a writable BLOB object; none where a key has no such object. -/
def blobMax (k : Nat) : Option Nat :=
  if OD.PERSIST_ENTRY 0 ≤ k ∧ k ≤ OD.PERSIST_ENTRY 31 then some 4096
  else if k = OD.FLASH_DATA then some 4096
  else if k = OD.GQM_BODY then some 24
  else if (List.range 4).any (fun i => k = OD.KEY_PROVISION i) then some 97
  else none

/-- The checks of a whole BLOB write before its unit's own (Table DICT-5, R105, R117, R138). -/
def State.checkBlob (s : State) (p : Path) (idx sub len : Nat) : Except Nat Unit :=
  match s.checkObject p true idx sub 0 with
  | .error c => .error c
  | .ok _ =>
    let key := odKey idx sub
    if len = 0 then .error Abort.zeroLength
    else
    match blobMax key with
    | none => .error Abort.typeLength
    | some m =>
      if p = .dbg ∨ m < len then .error Abort.typeLength
      else if s.heldByOther p key || (s.xfer p).isSome then .error Abort.busy
      else if !s.objPowered key then .error Abort.state
      else .ok ()

/-- The last of the segments in which a window carries a byte string (Table DICT-6), and DW_CMD of that segment: segments'
toggles alternate from 0 (R108). -/
def lastSegment (bs : List Byte) : List Byte := bs.drop ((bs.length - 1) / 64 * 64)
def segCmd (wr : Bool) (n : Nat) : Nat := dwCmd false wr (decide ((n - 1) / 64 % 2 = 1)) 2 false wr

/-- A whole BLOB write, from its open to its last segment. -/
def State.blobWrite (s : State) (p : Path) (key : Nat) (bs : List Byte) (act : List Byte → State → Nat × State) : State :=
  (s.dwSet p (segCmd true bs.length) key bs.length (lastSegment bs)).serve p false (fun s =>
    match s.checkBlob p (key / 256) (key % 256) bs.length with
    | .error c => s.abortSeg p key c
    | .ok () =>
      let (c, s') := act bs s
      if c = 0 then ({}, s') else s.abortSeg p key c)

/-- The snapshot of a segmented read, or the abort code, in the order of Table DICT-5; `get` answers the object's bytes or its
unit's abort code (R101, R105, R107, R128, R135). -/
def State.readSnap (s : State) (p : Path) (key : Nat) (get : State → Except Nat (List Byte)) : Except Nat (List Byte) :=
  match s.checkObject p false (key / 256) (key % 256) 0 with
  | .error c => .error c
  | .ok o =>
    match get s with
    | .ok [] => .error (if o.ty.size = 0 then Abort.zeroLength else Abort.typeLength)
    | r =>
      if o.ty.size ≠ 0 ∨ p = .dbg then .error Abort.typeLength
      else if (s.xfer p).isSome || decide (r = .error Abort.busy) then .error Abort.busy
      else if !s.objPowered key then .error Abort.state
      else r

/-- A whole BLOB read, from its open to its last segment: `use` is what the delivery of the snapshot does. -/
def State.blobRead (s : State) (p : Path) (key : Nat) (get : State → Except Nat (List Byte)) (use : List Byte → State → State) :
    State :=
  (s.dwSet p (segCmd false (match s.readSnap p key get with | .ok bs => bs.length | .error _ => 0)) key 0 []).serve p false
    (fun s =>
      match s.readSnap p key get with
      | .error c => s.abortSeg p key c
      | .ok bs => ({ bytes := bs, last := true }, use bs s))

/-! ### The boot flash through FLASH_DATA and FLASH_ERASE (R889 to R892, R922) -/

/-- FLASH_STATE is BUSY. -/
def State.flashBusy (s : State) : Bool := s.boot.op.isSome

/-- A burn runs: every other write to range 0xA000 aborts with BUSY (R901). -/
def State.burning (s : State) : Bool := s.boot.burn.isSome

/-- A firmware slot (0 A, 1 B) that the boot is reading, or whose firmware runs. -/
def State.slotInUse (s : State) (k : Nat) : Bool :=
  match s.boot.phase with
  | .verify (i :: _) => i = k
  | .released i => i = k
  | .running => s.rd OD.FW_SLOT = k + 1
  | _ => false

/-- Whether the flash may be read from `lo` to below `hi` (Table BOOT-1). -/
def flashReadable (lo hi : Nat) : Bool :=
  decide (hi ≤ 0x4000000) && (decide (hi ≤ 0x300000) || decide (0x500000 ≤ lo))

/-- Two ranges share a byte. -/
def overlaps (lo hi a b : Nat) : Bool := decide (lo < b ∧ a < hi)

/-- Whether the flash may be programmed or erased from `lo` to below `hi` (Table BOOT-1). -/
def State.flashWritable (s : State) (lo hi : Nat) : Bool :=
  decide (hi ≤ 0x4000000) && !overlaps lo hi 0x30000 0x100000 && !overlaps lo hi 0x300000 0x500000 &&
  (!overlaps lo hi 0 0x30000 || decide (s.boot.life = Life.manufacture)) &&
  !(overlaps lo hi 0x100000 0x200000 && s.slotInUse 0) && !(overlaps lo hi 0x200000 0x300000 && s.slotInUse 1)

/-- FLASH_DATA as a read finds it. -/
def State.flashGet (s : State) : Except Nat (List Byte) :=
  let a := s.rd OD.FLASH_OFFSET
  let n := s.rd OD.FLASH_LENGTH
  if n = 0 then .ok []
  else if s.flashBusy then .error Abort.busy
  else if !flashReadable a (a + n) then .error Abort.state
  else .ok (s.flashBytes a n)

/-- FLASH_OFFSET advances by the bytes moved. -/
def State.flashMoved (s : State) (n : Nat) : State := s.wr OD.FLASH_OFFSET (s.rd OD.FLASH_OFFSET + n)

/-- FLASH_READ. -/
def execFlashRead (p : Path) (s : State) : Out :=
  .next (s.blobRead p OD.FLASH_DATA State.flashGet (fun bs s => s.flashMoved bs.length))

/-- A write of FLASH_DATA: as many bytes as FLASH_LENGTH says. -/
def State.flashProgram (bs : List Byte) (s : State) : Nat × State :=
  let a := s.rd OD.FLASH_OFFSET
  if bs.length ≠ s.rd OD.FLASH_LENGTH then (Abort.typeLength, s)
  else if s.burning || s.flashBusy then (Abort.busy, s)
  else if !s.flashWritable a (a + bs.length) then (Abort.state, s)
  else
    let s := (s.wr OD.FLASH_STATE 1).flashMoved bs.length
    (0, s.setBoot { s.boot with op := some (.program a bs) })

/-- FLASH_PROGRAM. -/
def execFlashProgram (p : Path) (data : List Byte) (s : State) : Out :=
  .next (s.blobWrite p OD.FLASH_DATA data State.flashProgram)

/-- A write of FLASH_ERASE. -/
def State.eraseOrder (v : Nat) (s : State) : Nat × State :=
  if v % 65536 ≠ 0 then (Abort.range, s)
  else if s.burning || s.flashBusy then (Abort.busy, s)
  else if !s.flashWritable v (v + 65536) then (Abort.state, s)
  else
    let s := s.wr OD.FLASH_STATE 1
    (0, s.setBoot { s.boot with op := some (.erase v) })

/-- FLASH_ERASE. -/
def execFlashErase (p : Path) (v : BitVec 32) (s : State) : Out :=
  .next (s.dictWrite p false OD.FLASH_ERASE 4 v.toNat State.eraseOrder)

/-- A write of FLASH_OFFSET or FLASH_LENGTH, which aborts while a burn runs (R901). -/
def State.flashParam (k v : Nat) (s : State) : Nat × State := if s.burning then (Abort.busy, s) else (0, s.wr k v)

/-- FLASH_OP_DONE. -/
def execFlashOpDone (s : State) : Out :=
  .next (
    match s.boot.op with
    | none => s
    | some x =>
      let s := match x with
        | .program off bs => s.flashAnd off bs
        | .erase off => s.flashErase off (off + 65536)
      (s.wr OD.FLASH_STATE 0).setBoot { (s.wr OD.FLASH_STATE 0).boot with op := none })

/-! ### Fuses (R895 to R901, R907) -/

/-- The state allows the level that the debug port holds: FULL without a key in MANUFACTURE, else by a usable DEBUG key. -/
def State.levelStands (s : State) : Bool :=
  decide (s.rd OD.DBG_LEVEL = 0) || decide (s.boot.life = Life.manufacture) ||
  (decide (s.rd OD.DBG_KEY_SLOT < 4) && s.keyUsable (s.rd OD.DBG_KEY_SLOT) KeyUse.debug)

/-- A write of LIFECYCLE_ADVANCE. -/
def State.lifeOrder (v : Nat) (s : State) : Nat × State :=
  let n := v - 0x4C430000
  if v < 0x4C430000 ∨ 3 < n then (Abort.range, s)
  else if s.burning then (Abort.busy, s)
  else if n ≤ s.boot.life then (Abort.state, s)
  else if n = Life.secure ∧ !((List.range 4).any (fun k =>
      s.keyUsable k KeyUse.firmware && !bit (s.keySlot k).usage 3)) then (Abort.state, s)
  else
    let s := s.setBoot { s.boot with life := n, burn := some (.life s.boot.life) }
    let s := if s.powered 27 && !s.levelStands then s.endSession else s
    (0, if n = Life.retired then s.orderReset 4 true none else s)

/-- LIFECYCLE_ADVANCE. -/
def execLifecycleAdvance (p : Path) (v : BitVec 32) (s : State) : Out :=
  .next (s.dictWrite p false OD.LIFECYCLE_ADVANCE 4 v.toNat State.lifeOrder)

/-- A write of KEY_PROVISION of slot k (R898). -/
def State.provision (k : Nat) (bs : List Byte) (s : State) : Nat × State :=
  let usage := fieldAt bs 0 1
  let x := fieldAt bs 1 48
  let y := fieldAt bs 49 48
  if bs.length ≠ 97 then (Abort.typeLength, s)
  else if 16 ≤ usage ∨ !onCurve x y then (Abort.range, s)
  else if s.burning then (Abort.busy, s)
  else if s.boot.life ≠ Life.manufacture ∨ (s.keySlot k).state ≠ 0 then (Abort.state, s)
  else (0, s.setBoot { s.boot with burn := some (.key k usage (x + 2 ^ 384 * y)) })

/-- KEY_PROVISION. -/
def execKeyProvision (p : Path) (k : Fin 4) (data : List Byte) (s : State) : Out :=
  .next (s.blobWrite p (OD.KEY_PROVISION k.val) data (State.provision k.val))

/-- A write of KEY_REVOKE of slot k; its range is 1 (R899). -/
def State.revoke (k v : Nat) (s : State) : Nat × State :=
  if v ≠ 1 then (Abort.range, s)
  else if s.burning then (Abort.busy, s)
  else if (s.keySlot k).state ≠ 1 ∨ s.boot.runKey = some k then (Abort.state, s)
  else (0, s.setBoot { s.boot with burn := some (.revoke k) })

/-- KEY_REVOKE. -/
def execKeyRevoke (p : Path) (k : Fin 4) (v : Byte) (s : State) : Out :=
  .next (s.dictWrite p false (OD.KEY_REVOKE k.val) 1 v.toNat (State.revoke k.val))

/-- A write of SEC_EPOCH_COMMIT (R900). -/
def State.floorOrder (v : Nat) (s : State) : Nat × State :=
  if 64 < v ∨ v ≤ s.boot.floor then (Abort.range, s)
  else if s.burning then (Abort.busy, s)
  else if s.rd OD.FW_VERSION = 0 ∨ s.boot.runEpoch < v then (Abort.state, s)
  else (0, s.setBoot { s.boot with burn := some (.floor v) })

/-- SEC_EPOCH_COMMIT. -/
def execSecEpochCommit (p : Path) (v : Byte) (s : State) : Out :=
  .next (s.dictWrite p false OD.SEC_EPOCH_COMMIT 1 v.toNat State.floorOrder)

/-- FUSE_BURN_DONE. -/
def execFuseBurnDone (s : State) : Out :=
  .next (
    let t := s.setBoot { s.boot with burn := none }
    match s.boot.burn with
    | none => s
    | some (.life _) => t
    | some (.floor v) => t.setBoot { t.boot with floor := v }
    | some (.key k usage point) => t.setKeySlot k { usage := usage, point := point, valid := true }
    | some (.revoke k) => t.setKeySlot k { t.keySlot k with revoked := true })

/-! ### Booting firmware (R893, R902 to R905) -/

/-- The offset of a firmware slot. -/
def slotBase (k : Nat) : Nat := if k = 0 then 0x100000 else 0x200000

/-- A firmware header (Table BOOT-2). -/
structure FwHeader where
  key : Nat
  epoch : Nat
  version : Nat
  length : Nat
  entry : Nat
  deriving DecidableEq, Repr

/-- The fields of a header. -/
def fwHeader (h : List Byte) : FwHeader := ⟨fieldAt h 6 1, fieldAt h 7 1, fieldAt h 8 4, fieldAt h 12 4, fieldAt h 16 4⟩

/-- The off-module flash meets R993. -/
def offUsable (f : OffFlash) : Bool :=
  f.answers && decide (4194304 ≤ f.bytes) && f.quadDdr && f.pageProgram && f.sectorErase

/-- The checks of Table BOOT-7 that come before SIGNATURE: the code of the first that fails, or 0. A slot in an off-module flash
that does not meet R993 is READ_ERROR. -/
def State.headerCode (s : State) (h : List Byte) : Nat :=
  let f := fwHeader h
  if Config.bootSel && !s.boot.offUsable then 7
  else if fieldAt h 0 4 ≠ 0x5746484D ∨ fieldAt h 4 2 ≠ 1 ∨ fieldAt h 20 44 ≠ 0 then 2
  else if f.length % 64 ≠ 0 ∨ f.length < 256 ∨ 524288 < f.length ∨ f.length ≤ f.entry + 128 ∨ f.entry % 4 ≠ 0 then 3
  else if 3 < f.key || !s.keyUsable f.key KeyUse.firmware then 4
  else if f.epoch < s.boot.floor then 5
  else 0

/-- The header of a slot, as the flash holds it. -/
def State.slotHeader (s : State) (k : Nat) : List Byte := s.flashBytes (slotBase k) 64

/-- No slot verifies (R905): D1 stays powered without firmware. -/
def State.bootFails (s : State) : State :=
  let s := s.setBoot { s.boot with phase := .gaveUp }
  (s.record FaultClass.device 64 0 OD.BOOT_STATUS 0 0).powerNote

/-- Slots still to try: the next, or none. -/
def State.bootNext (s : State) (slots : List Nat) : State :=
  if slots = [] then s.bootFails else s.setBoot { s.boot with phase := .verify slots }

/-- Set a slot's byte of BOOT_STATUS. -/
def State.setBootCode (s : State) (k c : Nat) : State :=
  let v := s.rd OD.BOOT_STATUS
  s.wr OD.BOOT_STATUS (if k = 0 then bits v 8 8 * 256 + c else v % 256 + 256 * c)

/-- FIRMWARE_BOOT: steps 4 and 5 begin. -/
def execFirmwareBoot (s : State) : Out :=
  .next (
    if !s.powered 1 ∨ s.boot.phase ≠ .idle ∨ s.boot.life = Life.retired ∨
        (s.rd OD.RESET_STATE ≠ 0 ∧ s.rd OD.RESET_STATE ≠ 4) then s
    else
      let a := s.slotHeader 0
      let b := s.slotHeader 1
      let ca := s.headerCode a
      let cb := s.headerCode b
      let order := if (fwHeader a).version < (fwHeader b).version then [1, 0] else [0, 1]
      let slots := order.filter (fun k => if k = 0 then ca = 0 else cb = 0)
      let s := { s with newels := [] }
      (s.wr OD.BOOT_STATUS (ca + 256 * cb)).bootNext slots)

/-- The image in a firmware slot verifies (R893, R304). -/
def State.slotVerifies (s : State) (k : Nat) : Bool :=
  let f := fwHeader (s.slotHeader k)
  s.verifies f.key (s.flashBytes (slotBase k) (f.length - 128)) (s.flashBytes (slotBase k + f.length - 128) 128)

/-- FIRMWARE_VERIFY_DONE: core 0 is released at ENTRY, or the next candidate is tried. -/
def execFirmwareVerifyDone (s : State) : Out :=
  .next (
    match s.boot.phase with
    | .verify (k :: rest) =>
      if s.slotVerifies k then
        let s := (s.setBootCode k 1).setNewel 0 { pc := (fwHeader (s.slotHeader k)).entry }
        s.setBoot { s.boot with phase := .released k }
      else
        let s := ((s.setBootCode k 6).bump OD.SIG_FAILS).record FaultClass.corrected 64 0 OD.SIG_FAILS 0 (k + 1)
        s.bootNext rest
    | _ => s)

/-! ### The boot delay table (R782) -/

/-- A copy of the boot delay table qualifies: MAGIC, VERSION, CRC, and an entry for every channel at the latched rate. -/
def State.tableOk (s : State) (off : Nat) : Bool :=
  let h := s.flashBytes off 64
  let n := fieldAt h 6 2
  let rate := bits (s.rd OD.LATCHED) 8 3
  decide (fieldAt h 0 4 = 0x4C425444) && decide (fieldAt h 4 2 = 1) &&
  decide (crc32c (s.flashBytes (off + 64) (256 * n)) = fieldAt h 8 4) &&
  (List.range 8).all (fun ch => (List.range n).any (fun e =>
    (s.flashByte (off + 64 + 256 * e)).toNat = rate && (s.flashByte (off + 65 + 256 * e)).toNat = ch))

/-- Firmware reads the boot delay table. -/
def State.readTable (s : State) : State :=
  if s.tableOk 0x10000 || s.tableOk 0x20000 then s
  else
    let mask := foldN 8 (fun v ch => if s.chSt ch = ChSt.untrimmed then setBit v ch true else v) 0
    let s := s.setDmem { s.dmem with noTable := true }
    s.record FaultClass.device 0xFF 0xFF OD.DRAM_USABLE 0 mask

/-- FIRMWARE_RUNNING: step 7, once Newel core 0 is not halted (R926). -/
def execFirmwareRunning (s : State) : Out :=
  .next (
    match s.boot.phase with
    | .released k =>
      if !s.powered 1 || (s.newel 0).halted then s
      else
        let f := fwHeader (s.slotHeader k)
        let s := (s.wr OD.FW_VERSION f.version).wr OD.FW_SLOT (k + 1)
        let s := s.setBoot { s.boot with phase := .running, runKey := some f.key, runEpoch := f.epoch }
        s.readTable.powerNote
    | _ => s)

/-! ### The persist store (R908 to R911, R917, R918) -/

/-- The offset of a persist bank (0 A, 1 B). -/
def bankBase (b : Nat) : Nat := if b = 0 then 0x300000 else 0x400000

/-- The length that a bank's directory gives entry n. -/
def State.bankLen (s : State) (b n : Nat) : Nat := fieldAt (s.flashBytes (bankBase b + 0x40 + 16 * n) 16) 0 2

/-- The data of entry n in a bank. -/
def State.bankData (s : State) (b n : Nat) : List Byte := s.flashBytes (bankBase b + 0x1000 + 0x1000 * n) (s.bankLen b n)

/-- The GENERATION in a bank's header. -/
def State.bankGen (s : State) (b : Nat) : Nat := fieldAt (s.flashBytes (bankBase b) 64) 8 4

/-- A bank is valid (R908). -/
def State.bankValid (s : State) (b : Nat) : Bool :=
  let base := bankBase b
  let rec_ := s.flashBytes (base + 0xF0000) 64
  decide (fieldAt rec_ 0 4 = 0x544D4350) && decide (fieldAt rec_ 60 4 = crc32c (rec_.take 60)) &&
  decide (fieldAt rec_ 8 4 = crc32c (s.flashBytes base 0x21000)) &&
  decide (fieldAt (s.flashBytes base 64) 0 4 = 0x54535250) && decide (s.bankGen b = fieldAt rec_ 4 4) &&
  (List.range 32).all (fun n => decide (s.bankLen b n ≤ 4096) &&
    decide (crc32c (s.bankData b n) = fieldAt (s.flashBytes (base + 0x40 + 16 * n) 16) 4 4))

/-- Generation a precedes generation b under the rule of R41. -/
def precedes (a b : Nat) : Bool :=
  let d := (b + 2 ^ 32 - a) % 2 ^ 32
  decide (1 ≤ d ∧ d ≤ 0x7FFFFFFF)

/-- The active bank as D0 powers up. -/
def State.chooseBank (s : State) : Option Nat :=
  if s.bankValid 0 then
    (if s.bankValid 1 && precedes (s.bankGen 0) (s.bankGen 1) then some 1 else some 0)
  else if s.bankValid 1 then some 1
  else none

/-- The AON ROM loads the working copy (step 2). -/
def State.persistLoad (s : State) : State :=
  match s.chooseBank with
  | none => s.record FaultClass.corrected 64 0 OD.PERSIST_STATE 0 0
  | some b =>
    let s := foldN 32 (fun s n => s.wrBytes (OD.PERSIST_ENTRY n) (s.bankData b n)) s
    let s := ((s.wr OD.PERSIST_STATE 1).wr OD.PERSIST_BANK (b + 1)).wr OD.PERSIST_GENERATION (s.bankGen b)
    s.wr OD.PERSIST_COMMITS (fieldAt (s.flashBytes (bankBase b) 64) 12 4)

/-- A write of PERSIST_ENTRY n (R909, R921). -/
def State.persistWrite (n : Nat) (bs : List Byte) (s : State) : Nat × State :=
  (0, (s.wrBytes (OD.PERSIST_ENTRY n) bs).wr OD.PERSIST_DIRTY 1)

/-- PERSIST_ENTRY. -/
def execPersistEntry (p : Path) (n : Fin 32) (data : List Byte) (s : State) : Out :=
  .next (s.blobWrite p (OD.PERSIST_ENTRY n.val) data (State.persistWrite n.val))

/-- A write of PERSIST_CLEAR: the entry holds 0 bytes. -/
def State.persistEmpty (n : Nat) (s : State) : Nat × State :=
  (0, (s.wrBytes (OD.PERSIST_ENTRY n) []).wr OD.PERSIST_DIRTY 1)

/-- PERSIST_CLEAR. -/
def execPersistClear (p : Path) (v : Byte) (s : State) : Out :=
  .next (s.dictWrite p false OD.PERSIST_CLEAR 1 v.toNat State.persistEmpty)

/-- A write of PERSIST_COMMIT; its range is 1. The target's commit record is erased first (R910). -/
def State.persistOrder (v : Nat) (s : State) : Nat × State :=
  if v ≠ 1 then (Abort.range, s)
  else if s.rd OD.PERSIST_STATE = 2 then (Abort.busy, s)
  else if s.rd OD.PERSIST_DIRTY = 0 then (0, s.wr OD.PERSIST_RESULT 1)
  else
    let bank := if s.rd OD.PERSIST_BANK = 1 then 1 else 0
    let snap := s.odb.filter (fun e => decide (OD.PERSIST_ENTRY 0 ≤ e.1 ∧ e.1 ≤ OD.PERSIST_ENTRY 31))
    let s := (s.wr OD.PERSIST_STATE 2).wr OD.PERSIST_DIRTY 0
    let s := s.flashErase (bankBase bank + 0xF0000) (bankBase bank + 0x100000)
    (0, s.setBoot { s.boot with snap := snap, bank := bank })

/-- PERSIST_COMMIT. -/
def execPersistCommit (p : Path) (v : Byte) (s : State) : Out :=
  .next (s.dictWrite p false OD.PERSIST_COMMIT 1 v.toNat State.persistOrder)

/-- The header, the directory and the data sectors that a commit programs (Table BOOT-8): parts with their bank offsets. -/
def bankParts (gen commits : Nat) (entry : Nat → List Byte) : List (Nat × List Byte) :=
  (0, leBytes 4 0x54535250 ++ leBytes 2 1 ++ leBytes 2 0 ++ leBytes 4 gen ++ leBytes 4 commits ++ zeros 48) ::
  (List.range 32).flatMap (fun n =>
    [(0x40 + 16 * n, leBytes 2 (entry n).length ++ leBytes 2 0 ++ leBytes 4 (crc32c (entry n)) ++ zeros 8),
     (0x1000 + 0x1000 * n, entry n)])

/-- The commit record of a bank as the flash holds it. -/
def State.commitRecord (s : State) (base gen : Nat) : List Byte :=
  let r := leBytes 4 0x544D4350 ++ leBytes 4 gen ++ leBytes 4 (crc32c (s.flashBytes base 0x21000)) ++ zeros 48
  r ++ leBytes 4 (crc32c r)

/-- The snapshot is in the target bank, which becomes active. -/
def State.commitWritten (s : State) : State :=
  let base := bankBase s.boot.bank
  let none_ := decide (s.rd OD.PERSIST_BANK = 0)
  let gen := if none_ then 1 else (s.rd OD.PERSIST_GENERATION + 1) % 2 ^ 32
  let commits := (s.rd OD.PERSIST_COMMITS + 1) % 2 ^ 32
  let snap := s.boot.snap
  let s := (s.flashErase base (base + 0x30000)).flashErase (base + 0xF0000) (base + 0x100000)
  let s := (bankParts gen commits (fun n => Sparse.get (fun _ => []) snap (OD.PERSIST_ENTRY n))).foldl
    (fun s x => s.flashAnd (base + x.1) x.2) s
  let s := s.flashAnd (base + 0xF0000) (s.commitRecord base gen)
  let s := ((s.wr OD.PERSIST_STATE 1).wr OD.PERSIST_BANK (s.boot.bank + 1)).wr OD.PERSIST_GENERATION gen
  let s := (s.wr OD.PERSIST_COMMITS commits).wr OD.PERSIST_RESULT 1
  s.setBoot { s.boot with snap := [] }

/-- PERSIST_COMMIT_DONE. -/
def execPersistCommitDone (res : CommitEnd) (s : State) : Out :=
  .next (
    if s.rd OD.PERSIST_STATE ≠ 2 then s
    else
      match res with
      | .ok => s.commitWritten
      | .flashError => (s.cutCommit.wr OD.PERSIST_RESULT 2).record FaultClass.corrected 64 0 OD.PERSIST_RESULT 0 0
      | .verify => (s.cutCommit.wr OD.PERSIST_RESULT 3).record FaultClass.corrected 64 0 OD.PERSIST_RESULT 0 0)

/-! ### The calendar (R912 to R915) -/

/-- The whole cycles of the 32.768 kHz clock so far. -/
def State.lfNow (s : State) : Nat := s.clk.lf / 1000000000

/-- A DATE of Table DICT-3 from its fields. -/
def dateOf (y mo d h mi sec : Nat) : Nat := y + mo * 2 ^ 16 + d * 2 ^ 24 + h * 2 ^ 32 + mi * 2 ^ 40 + sec * 2 ^ 48

/-- A DATE as a number that orders instants. -/
def dateOrder (v : Nat) : Nat :=
  bits v 0 16 * 2 ^ 40 + bits v 16 8 * 2 ^ 32 + bits v 24 8 * 2 ^ 24 + bits v 32 8 * 2 ^ 16 + bits v 40 8 * 2 ^ 8 +
  bits v 48 8

/-- The last instant of the calendar. -/
def dateEnd : Nat := dateOf 2399 12 31 23 59 59

/-- The second after an instant before the last (R912). -/
def nextDate (v : Nat) : Nat :=
  let y := bits v 0 16
  let mo := bits v 16 8
  let d := bits v 24 8
  let h := bits v 32 8
  let mi := bits v 40 8
  let sec := bits v 48 8 + 1
  let (sec, mi) := if sec = 60 then (0, mi + 1) else (sec, mi)
  let (mi, h) := if mi = 60 then (0, h + 1) else (mi, h)
  let (h, d) := if h = 24 then (0, d + 1) else (h, d)
  let (d, mo) := if monthLength y mo < d then (1, mo + 1) else (d, mo)
  let (mo, y) := if mo = 13 then (1, y + 1) else (mo, y)
  dateOf y mo d h mi sec

/-- The alarm fires if it is due (R914). -/
def State.alarmCheck (s : State) : State :=
  if s.flag OD.ALARM_ENABLE ∧ dateOrder (s.rd OD.CAL_ALARM) ≤ dateOrder (s.rd OD.CAL_NOW) then
    ((s.setOdBit OD.CAL_STATE 2 true).wr OD.ALARM_ENABLE 0).wake 3
  else s

/-- The length of a group's first second (R912). -/
def State.trimmedSecond (s : State) : Nat := ((32768 : Int) - toSigned 32 (s.rd OD.CAL_TRIM)).toNat

/-- The calendar steps to its next second, or stops at the end of its range. -/
def State.nextSecond (s : State) : State :=
  if bit (s.rd OD.CAL_STATE) 1 then s
  else if s.rd OD.CAL_NOW = dateEnd then s.setOdBit OD.CAL_STATE 1 true
  else s.wr OD.CAL_NOW (nextDate (s.rd OD.CAL_NOW))

/-- CALENDAR_SECOND. -/
def execCalendarSecond (s : State) : Out :=
  .next (
    if !s.pow.vaon ∨ s.lfNow < s.boot.secStart + s.boot.secLen then s
    else
      let g := (s.boot.group + 1) % 32
      let s := s.setBoot { s.boot with
        secStart := s.boot.secStart + s.boot.secLen, group := g, secLen := if g = 0 then s.trimmedSecond else 32768 }
      s.nextSecond.alarmCheck)

/-- A write of CAL_NOW that R94 passes (R913). -/
def State.calOrder (v : Nat) (s : State) : Nat × State :=
  let s := ((s.wr OD.CAL_NOW v).setOdBit OD.CAL_STATE 0 true).setOdBit OD.CAL_STATE 1 false
  let s := s.setBoot { s.boot with secStart := s.lfNow, group := 0, secLen := s.trimmedSecond }
  (0, s.alarmCheck)

/-- CAL_NOW. -/
def execCalNow (p : Path) (v : Word) (s : State) : Out :=
  .next (s.dictWrite p false OD.CAL_NOW 8 v.toNat State.calOrder)

/-- A write of ALARM_ENABLE (R914). -/
def State.alarmOrder (v : Nat) (s : State) : Nat × State :=
  (0, (if v = 1 then s.setOdBit OD.CAL_STATE 2 false else s).wr OD.ALARM_ENABLE v)

/-- ALARM_ENABLE. -/
def execAlarmEnable (p : Path) (v : Byte) (s : State) : Out :=
  .next (s.dictWrite p false OD.ALARM_ENABLE 1 v.toNat State.alarmOrder)

/-! ### VAON (R902, R925, R981, R986) -/

/-- VAON_VALID: the AON controller boots from its ROM. -/
def execVaonValid (s : State) : Out :=
  .next (
    if s.pow.vaon then s
    else
      let s := s.setPow { s.pow with vaon := true }
      let s := s.setBoot { s.boot with offUsable := offUsable Config.offFlash }
      s.persistLoad.powerUp)

/-- VAON_LOSS: every domain and everything held in D0 is gone; the fuses and the flashes stay. -/
def execVaonLoss (s : State) : Out :=
  .next (
    let s := s.cutBurn.cutFlash
    { State.reset with
      pending := s.pending
      clk := { now := s.clk.now }
      host := { mem := s.host.mem, bad := s.host.bad, perstLow := s.host.perstLow }
      boot := { life := s.boot.life, floor := s.boot.floor, keys := s.boot.keys, flash := s.boot.flash,
                offFlash := s.boot.offFlash }
      pow := { vaon := false, vin := s.pow.vin, mod_ := s.pow.mod_, sysref := s.pow.sysref }
      arr := { seamBad := s.arr.seamBad }
      free := s.free })

end Sys2Proof.Machine
end

