-- ==== Sys2Proof/Machine/Access.lean ====
section
/-!
DEFINITION. Reads and writes of any object on any path (R101 to R119, R127, R128, R144): what a read returns, what it consumes,
what a write does in its unit, the segmented transfers, and the dictionary windows' answers (R156 to R158).
-/

namespace Sys2Proof.Machine

/-! ### Values that a read computes -/

/-- The states of Table FLIT-9. -/
def ItemSt.code : ItemSt → Nat
  | .free => 0 | .checked => 1 | .queued => 2 | .admitted => 3 | .running => 4 | .stopping => 5 | .closing => 6

/-- FLIT PROBE_STATE (Table FLIT-9). -/
def State.slotProbe (s : State) (i : Nat) : Nat :=
  let it := s.item i
  if it.st = .free then 0
  else
    let (run, stage) := s.progress i
    it.st.code + b2n it.bg * 2 ^ 8 + stage % 32 * 2 ^ 9 + run % 256 * 2 ^ 14 + it.flight % 64 * 2 ^ 22 + it.ten % 16 * 2 ^ 28 +
      it.tag * 2 ^ 32

/-- FLT_ITEMS: items of a flight in ADMITTED, RUNNING or STOPPING. -/
def State.fltItems (s : State) (f : Nat) : Nat :=
  (s.flit.slots.filter (fun e =>
    (e.2.st = .admitted || e.2.st = .running || e.2.st = .stopping) && e.2.flight = f)).length

/-- CORE_STATE. -/
def State.coreState (s : State) (n : Nat) : Nat :=
  if s.held n then 4
  else match (s.core n).st with | .idle => 0 | .running => 1 | .parked => 2 | .halted => 3

/-- TICK_STATE. -/
def TickSt.code : TickSt → Nat
  | .stopped => 0 | .acquire => 1 | .locked => 2 | .flywheel => 3

/-- TEN_STATE. -/
def TenSt.code : TenSt → Nat
  | .disabled => 0 | .active => 1 | .draining => 2 | .wedged => 3

/-- DBG_HALTED: bit a for each agent that is halted. -/
def State.haltedMask (s : State) : Nat := foldN 36 (fun v a => if s.halted a then v + 2 ^ a else v) 0

/-- WEDGED_MASK. -/
def State.wedgedMask (s : State) : Nat := foldN 16 (fun v t => if (s.tenancy t).st = .wedged then v + 2 ^ t else v) 0

/-- IDCODE of STEPPING 0x10 (R946). -/
def idcodeValue : Nat := 0x14860D55

/-- Objects held in D0 whose value a read computes. -/
def State.liveFloor (s : State) (k : Nat) : Option Nat :=
  if k = OD.BUILD_DATE then some (Config.buildDate % 2 ^ 56)
  else if k = OD.CAL_SUBSEC then some (s.lfNow - s.boot.secStart)
  else if k = OD.FAULT_COUNT then some s.falt.log.length
  else if k = OD.LOST_COUNT then some s.falt.lost.length
  else if k = OD.POWER_STATE then some s.powerState
  else if k = OD.GQ_NODE then some gqNode
  else if k = OD.LIFECYCLE then some s.boot.life
  else if k = OD.SEC_EPOCH_FLOOR then some s.boot.floor
  else if k = OD.FLASH_SOURCE then some (b2n Config.bootSel)
  else none

/-- Objects held in other domains, of one place each. -/
def State.liveUnit (s : State) (k : Nat) : Option Nat :=
  if k = OD.SYSREF_OK then some (b2n s.pow.sysref)
  else if k = OD.TICK_STATE then some s.tick.st.code
  else if k = OD.EPOCH then some s.tick.epoch.toNat
  else if k = OD.TICK_COMMIT then some (b2n (s.tick.armFresh.getD s.tick.armed))
  else if k = OD.SLOTS_IN_USE then some s.slotsInUse
  else if k = OD.PROBE_WORD then some (s.landWord (s.rd OD.PROBE_INDEX)).toNat
  else if k = OD.PROBE_PORT then
    some (if s.rd OD.PROBE_INDEX ≤ 0xFFF then (s.port (s.rd OD.PROBE_INDEX)).status.toNat else 0)
  else if k = OD.BG_RUNNING then some s.bgRunning
  else if k = OD.FLIT_PROBE_STATE then some (s.slotProbe (s.rd OD.PROBE_SLOT))
  else if k = OD.CLAIMS_IN_USE then some s.clok.recs.length
  else if k = OD.BQ_DEPTH then some s.bqDepth
  else if k = OD.COLN_PROBE_STATE then some (Sparse.get (fun _ => 0) s.coln.neurons (s.rd OD.PROBE_NEURON))
  else if k = OD.CORES_SEALED then some s.coresSealed
  else if k = OD.SEAL_FILL_PENDING then some s.sealPending
  else if k = OD.GLOBAL_TIME then some s.clk.gtime
  else if k = OD.TRC_STATE then some s.traceState
  else if k = OD.DBG_LEVEL then some s.dbgLevel
  else if k = OD.DBG_HALTED then some s.haltedMask
  else if k = OD.IDCODE then some idcodeValue
  else if k = OD.WEDGED_MASK then some s.wedgedMask
  else none

/-- Objects of families. -/
def State.liveFamily (s : State) (k : Nat) : Option Nat :=
  let i := k / 256 % 16
  if k / 256 / 16 = 0x311 then
    (if k = OD.TEN_STATE i then some (s.tenancy i).st.code
    else if k = OD.SQ_HEAD i then some (s.tenancy i).sqHead
    else if k = OD.CQ_TAIL i then some (s.tenancy i).cqTail
    else if k = OD.SLOTS_HELD i then some (s.slotsHeld i)
    else none)
  else if OD.FLT_ITEMS 0 ≤ k ∧ k ≤ OD.FLT_ITEMS 63 ∧ k % 256 = 3 then some (s.fltItems (k / 256 - 0x4140))
  else if k = OD.IMG_ITEMS i then some (s.imgItems i)
  else if OD.CORE_STATE 0 ≤ k ∧ k ≤ OD.CORE_STATE 31 ∧ k % 256 = 1 then some (s.coreState (k / 256 - 0x4840))
  else if k = OD.FREE_TICKETS i then some (s.freeTickets i)
  else if k = OD.IN_USE i then some ((s.clok.recs.filter (fun r => ticketPool r.ticket = i)).length)
  else if k = OD.SCRUB_PENDING i then some ((s.clok.scrub.filter (fun b => ticketPool b.ticket = i)).length)
  else if k = OD.PK_WAITING i then some (s.stream i).waiting.length
  else if k / 256 / 16 = 0x781 ∧ 0x41 ≤ k % 256 ∧ k % 256 ≤ 0x80 then
    some (s.bankEntry s.coln.bank i (k % 256 - 0x41))
  else if k = OD.KEY_STATE i then some (s.keySlot i).state
  else if k = OD.KEY_USAGE i then some (s.keySlot i).usage
  else none

/-- A measured quantity of the module, whose value the part's rules leave open. -/
def State.measured (s : State) (k : Nat) : Option Nat :=
  if k = OD.VIN_MA then some (2 ^ 16)
  else if k = OD.POWER_MW then some (2 ^ 32)
  else if k = OD.VDDQ_MV then some (if s.powered 24 || s.powered 25 then 2 ^ 16 else 1)
  else none

/-- The value of a numeric object in the active view. -/
def State.readVal (s : State) (k : Nat) : Nat × State :=
  match s.measured k with
  | some m =>
    let (v, s) := s.drawFree
    (v % m, s)
  | none =>
    if k = OD.GPIO_IN then
      let (v, s) := s.drawFree
      (Nat.land v s.gpioInMask, s)
    else ((((s.liveFloor k).orElse (fun _ => s.liveUnit k)).orElse (fun _ => s.liveFamily k)).getD (s.rd k), s)

/-! ### What a consuming read does (R97, R144) -/

/-- A numeric RC object is consumed: MIN_FREE goes to the present value, WAKE_SOURCE releases PE_WAKE_N (R868). -/
def State.consume (s : State) (k : Nat) : State :=
  if k = OD.MIN_FREE (k / 256 % 16) then s.wr k (s.freeTickets (k / 256 % 16))
  else if k = OD.WAKE_SOURCE then (s.wr k 0).setPow { s.pow with wakeLow := false }
  else s.wr k 0

/-! ### Bytes of BLOB and STR32 objects -/

/-- A text of ASCII characters, filled to 32 bytes. -/
def textBytes (t : String) : List Byte := fitBytes 32 (t.toList.map (fun c => BitVec.ofNat 8 c.toNat))

/-- A record's bytes, or zeros. -/
def recordOrZeros (r : Option FaultRec) : List Byte := match r with | some r => r.toBytes | none => zeros 32

/-- The oldest record, unless it has arrived on the present edge (R1010, R1026). -/
def State.logShown (s : State) : List FaultRec := (s.falt.log.filter (fun r => decide (r.time ≠ s.clk.gtime))).take 1

/-- The lost-item entries that have not arrived on the present edge (R1023, R1026). -/
def State.lostShown (s : State) : List LostEntry := s.falt.lost.take (s.falt.lost.length - s.falt.lostFresh)

/-- The bytes of a BLOB or STR32 object, or an abort code. -/
def State.readBytes (s : State) (k : Nat) : Except Nat (List Byte) :=
  let i := k / 256 % 16
  if k = OD.VENDOR_NAME then .ok (textBytes "Alaotte Microsystems")
  else if k = OD.PRODUCT then .ok (textBytes "CG4860")
  else if k = OD.SERIAL then .ok (leBytes 16 Config.serial.toNat)
  else if k = OD.MODULE_ID then .ok (fitBytes 32 Config.moduleId)
  else if k = OD.FAULT_NEXT then .ok (s.logShown.flatMap FaultRec.toBytes)
  else if k = OD.LAST_DEVICE_FAULT then .ok (recordOrZeros s.falt.lastDevice)
  else if k = OD.LOST_NEXT then .ok ((s.lostShown.take 1).flatMap LostEntry.toBytes)
  else if k = OD.LOST_ALL then .ok (s.lostShown.flatMap LostEntry.toBytes)
  else if k = OD.IMG_ID i then .ok (fitBytes 16 (s.rdBytes k))
  else if k = OD.IMG_NAME i then .ok (fitBytes 32 (s.rdBytes k))
  else if k = OD.GQM_BODY then .ok s.mailBody
  else if k = OD.KEY_PUBLIC i then .ok (leBytes 96 (s.keySlot i).point)
  else if k = OD.LAST_STAGE_RECORD then .ok (recordOrZeros s.falt.lastStage)
  else if k = OD.FLASH_DATA then s.flashGet
  else .ok (s.rdBytes k)

/-- A queue without the entries that a snapshot returned; an entry that has left it meanwhile takes no other with it (R111). -/
def dropReturned {α : Type} (w : α → List Byte) (width : Nat) : Nat → List Byte → List α → List α
  | 0, _, q => q
  | n + 1, snap, q => dropReturned w width n (snap.drop width) (q.eraseP (fun e => w e = snap.take width))

/-- What the delivery of a BLOB's snapshot does: queues lose the entries returned (R111, R1010, R1023), FLASH_OFFSET
advances (R891). -/
def State.consumeBytes (s : State) (k : Nat) (snap : List Byte) : State :=
  if k = OD.FAULT_NEXT then
    { s with falt := { s.falt with log := dropReturned FaultRec.toBytes 32 (snap.length / 32) snap s.falt.log } }
  else if k = OD.LOST_NEXT ∨ k = OD.LOST_ALL then
    { s with falt := { s.falt with lost := dropReturned LostEntry.toBytes 16 (snap.length / 16) snap s.falt.lost } }
  else if k = OD.FLASH_DATA then s.flashMoved snap.length
  else s

/-! ### What a write does in its unit -/

/-- A write of a load parameter, which aborts while a load runs (R307). -/
def State.loadParam (k v : Nat) (s : State) : Nat × State :=
  if s.rd OD.LOAD_STATE = 1 then (Abort.busy, s) else (0, s.wr k v)

/-- A write to an object held in D0. -/
def State.actFloor (k v : Nat) (s : State) : Option (Nat × State) :=
  let i := k / 256 % 16
  if k = OD.CAL_NOW then some (s.calOrder v)
  else if k = OD.ALARM_ENABLE then some (s.alarmOrder v)
  else if k = OD.PERSIST_COMMIT then some (s.persistOrder v)
  else if k = OD.PERSIST_CLEAR then some (s.persistEmpty v)
  else if k = OD.POWER_CMD then some (s.powerWrite v)
  else if k = OD.DOMAIN_REQ then some (s.domainOrder v)
  else if k = OD.GATE then some (s.gateOrder v)
  else if k = OD.RESET_CMD then some (s.resetOrder v)
  else if k = OD.AGENT_RESET then some (s.agentOrder v)
  else if k = OD.GQM_GO then some (s.mailOrder v)
  else if k = OD.LIFECYCLE_ADVANCE then some (s.lifeOrder v)
  else if k = OD.SEC_EPOCH_COMMIT then some (s.floorOrder v)
  else if k = OD.FLASH_OFFSET ∨ k = OD.FLASH_LENGTH then some (s.flashParam k v)
  else if k = OD.FLASH_ERASE then some (s.eraseOrder v)
  else if k = OD.KEY_REVOKE i then some (s.revoke i v)
  else none

/-- A write to an object of the spine or of a unit. -/
def State.actUnit (k v : Nat) (s : State) : Option (Nat × State) :=
  let i := k / 256 % 16
  if k = OD.PACE_REQ then some (s.paceOrder v)
  else if k = OD.GPIO_FUNC i then some (s.funcOrder i v)
  else if k = OD.GPIO_PULL i then some (s.pullOrder i v)
  else if k = OD.TICK_OUT_MODE then some (s.outModeOrder v)
  else if k = OD.TICK_STRIKE then some (s.strikeOrder v)
  else if k = OD.TICK_COMMIT then some (s.commitOrder v)
  else if OD.LOAD_SLOT ≤ k ∧ k ≤ OD.LOAD_CONTEXT then some (s.loadParam k v)
  else if k = OD.LOAD_CMD then some (s.loadCmd v)
  else if OD.CLK_REQUEST 0 = k - 0x100 * (i - 1) ∧ 1 ≤ i ∧ i ≤ 4 then some (s.clkRequest (i - 1) v)
  else if k = OD.KEY_REQUEST i then some (s.keyRequest i v)
  else if k = OD.NET_CMD then some (s.netOrder v)
  else if k = OD.INJECT then some (s.injectKey v)
  else if k = OD.UNSEAL_CORE then some (s.unsealOrder v)
  else if k = OD.CH_CMD i then some (s.chOrder i v)
  else if k = OD.TRC_FLUSH then some (s.flushOrder v)
  else if k = OD.DBG_END then some (s.dbgEndOrder v)
  else none

/-- What a write that has passed the checks does: a staged write joins the staged set, an object with an effect of its own has
it, any other keeps the value (R121, R127). -/
def State.act (o : ObjDef) (k v : Nat) (s : State) : Nat × State :=
  if o.acc = .RS then (0, s.stage k v)
  else ((s.actFloor k v).orElse (fun _ => s.actUnit k v)).getD (0, s.wr k v)

/-- An expedited write (R104). -/
def State.expWrite (s : State) (p : Path) (k len v : Nat) : Resp × State :=
  match s.checkWrite p (k / 256) (k % 256) len v with
  | .error c => s.abort p (k / 256) (k % 256) c v
  | .ok (o, m) =>
    let (c, s') := s.act o k m
    if c = 0 then ({}, s') else s.abort p (k / 256) (k % 256) c v

/-- The common checks of an expedited read: the object, or the abort code. -/
def State.checkExpRead (s : State) (p : Path) (k len : Nat) (staged : Bool) : Except Nat ObjDef :=
  match s.checkObject p false (k / 256) (k % 256) 0 with
  | .error c => .error c
  | .ok o =>
    if o.ty.size = 0 then .error Abort.typeLength
    else if byRegister p && decide (len ≠ o.ty.size) then .error Abort.typeLength
    else if !s.objPowered k && !(staged && decide (o.acc = .RS)) then .error Abort.state
    else .ok o

/-- The value that a view shows, without consuming it (R122). -/
def State.viewVal (s : State) (o : ObjDef) (k : Nat) (staged : Bool) : Nat × State :=
  if staged && decide (o.acc = .RS) then ((s.stagedEntry k).getD (s.rd k), s) else s.readVal k

/-- An expedited read; a quiet one consumes nothing (R144). -/
def State.expRead (s : State) (p : Path) (k len : Nat) (staged quiet : Bool) : Resp × State :=
  match s.checkExpRead p k len staged with
  | .error c => s.abort p (k / 256) (k % 256) c 0
  | .ok o =>
    let (v, s) := s.viewVal o k staged
    ({ val := v }, if o.acc = .RC ∧ !quiet then s.consume k else s)

/-! ### The rows of single accesses -/

/-- EXPEDITED_ACCESS. -/
def execExpeditedAccess (p : Path) (wr : Bool) (idx : BitVec 16) (sub : Byte) (stagedView : Bool) (len : BitVec 32)
    (data : Word) (irq : Bool) (s : State) : Out :=
  .next (
    let k := odKey idx.toNat sub.toNat
    let s := s.dwSet p (dwCmd irq false false 0 stagedView wr) k len.toNat (if wr then leBytes 8 data.toNat else [])
    s.serve p irq (fun s => if wr then s.expWrite p k len.toNat data.toNat else s.expRead p k len.toNat stagedView false))

/-- A write of a fixed-size object at its own size. -/
def State.writeRow (s : State) (p : Path) (k v : Nat) : State :=
  let n := match objLookup (k / 256) (k % 256) with | some o => o.ty.size | none => 0
  (s.dwSet p (dwCmd false false false 0 false true) k n (leBytes 8 v)).serve p false (fun s => s.expWrite p k n v)

/-- REGISTER_WRITE. -/
def execRegisterWrite (p : Path) (idx : BitVec 16) (sub : Byte) (data : Word) (s : State) : Out :=
  .next (s.writeRow p (odKey idx.toNat sub.toNat) data.toNat)

/-- STAGED_WRITE. -/
def execStagedWrite (p : Path) (idx : BitVec 16) (sub : Byte) (data : Word) (s : State) : Out :=
  .next (s.writeRow p (odKey idx.toNat sub.toNat) data.toNat)

/-- The bytes of a BLOB for a whole read, and its consumption. -/
def State.readBlobRow (s : State) (p : Path) (k : Nat) : State :=
  s.blobRead p k (fun s => s.readBytes k) (fun bs s => s.consumeBytes k bs)

/-- RC_READ: a non-quiet read of an RC object at its own size, a BLOB as a whole. -/
def execRcRead (p : Path) (idx : BitVec 16) (sub : Byte) (s : State) : Out :=
  .next (
    let k := odKey idx.toNat sub.toNat
    let n := match objLookup idx.toNat sub.toNat with | some o => o.ty.size | none => 8
    if n = 0 then s.readBlobRow p k
    else
      (s.dwSet p (dwCmd false false false 0 false false) k n []).serve p false (fun s => s.expRead p k n false false))

/-- FAULT_NEXT. -/
def execFaultNext (p : Path) (s : State) : Out := .next (s.readBlobRow p OD.FAULT_NEXT)

/-- LOST_NEXT. -/
def execLostNext (p : Path) (s : State) : Out := .next (s.readBlobRow p OD.LOST_NEXT)

/-- LOST_ALL. -/
def execLostAll (p : Path) (s : State) : Out := .next (s.readBlobRow p OD.LOST_ALL)

/-- UNIT_ANSWER_TIMEOUT: an access that has passed its checks aborts with TIMEOUT (R147). -/
def execUnitAnswerTimeout (p : Path) (wr : Bool) (idx : BitVec 16) (sub : Byte) (data : Word) (s : State) : Out :=
  .next (
    let i := idx.toNat
    let j := sub.toNat
    let v := if wr then data.toNat else 0
    (s.dwSet p (dwCmd false false false 0 false wr) (odKey i j) 0 (if wr then leBytes 8 v else [])).serve p false (fun s =>
    match s.checkObject p wr i j v with
    | .error c => s.abort p i j c v
    | .ok _ => ({ code := Abort.timeout }, s.recordAccess p (domainOf (odKey i j)) i j Abort.timeout v)))

/-! ### Segmented transfers (R107 to R114, R135, R138, R142) -/

/-- The segment size of a path (Table DICT-6). -/
def segSize : Path → Nat
  | .gq => 16
  | _ => 64

/-- What a whole BLOB write does in its unit. -/
def State.blobAct (k : Nat) (bs : List Byte) (s : State) : Nat × State :=
  if OD.PERSIST_ENTRY 0 ≤ k ∧ k ≤ OD.PERSIST_ENTRY 31 then s.persistWrite (k / 256 - 0x1210) bs
  else if k = OD.FLASH_DATA then s.flashProgram bs
  else if k / 256 / 4 = 0xA010 / 4 then s.provision (k / 256 - 0xA010) bs
  else if bs.length < 8 then (Abort.typeLength, s)
  else (0, s.wrBytes k bs)

/-- An open for writing. -/
def State.openWrite (s : State) (p : Path) (k len : Nat) : Resp × State :=
  match s.checkBlob p (k / 256) (k % 256) len with
  | .error c => s.abortSeg p k c
  | .ok () =>
    ({}, s.setXfer p (some { wr := true, key := k, staged := false, len := len, since := s.clk.now }))

/-- The snapshot of an open for reading. -/
def State.openSnap (s : State) (p : Path) (k : Nat) : Except Nat (List Byte) := s.readSnap p k (fun s => s.readBytes k)

/-- An open for reading. -/
def State.openRead (s : State) (p : Path) (k : Nat) (staged : Bool) : Resp × State :=
  match s.openSnap p k with
  | .error c => s.abortSeg p k c
  | .ok bs =>
    ({}, s.setXfer p (some
      { wr := false, key := k, staged := staged, len := bs.length, buf := bs, snap := bs, since := s.clk.now }))

/-- SEGMENTED_OPEN. -/
def execSegmentedOpen (p : Path) (wr : Bool) (idx : BitVec 16) (sub : Byte) (stagedView : Bool) (len : BitVec 32)
    (irq : Bool) (s : State) : Out :=
  .next (
    let k := odKey idx.toNat sub.toNat
    let s := s.dwSet p (dwCmd irq false false 1 stagedView wr) k len.toNat []
    s.serve p irq (fun s => if wr then s.openWrite p k len.toNat else s.openRead p k stagedView))

/-- A transfer is aborted by an error and closed. -/
def State.closeWith (s : State) (p : Path) (x : Xfer) (c : Nat) : Resp × State :=
  (s.setXfer p none).abortSeg p x.key c

/-- A write segment has a length that its transfer does not take (R109). -/
def Xfer.badLength (x : Xfer) (p : Path) (last : Bool) (bs : List Byte) : Bool :=
  x.wr && (bs.isEmpty || decide (segSize p < bs.length ∨ x.len < x.buf.length + bs.length) ||
    (last && decide (x.buf.length + bs.length < x.len)))

/-- A segment of an open write. -/
def State.segWrite (s : State) (p : Path) (x : Xfer) (last : Bool) (bs : List Byte) : Resp × State :=
  let buf := x.buf ++ bs
  if !last then
    ({ toggle := x.toggle }, s.setXfer p (some { x with buf := buf, toggle := !x.toggle, since := s.clk.now }))
  else
    let (c, s') := (s.setXfer p none).blobAct x.key buf
    if c = 0 then ({ toggle := x.toggle, last := true }, s') else s.closeWith p x c

/-- A segment of an open read: the next bytes of the snapshot; the last consumes what the snapshot holds (R111). -/
def State.segRead (s : State) (p : Path) (x : Xfer) : Resp × State :=
  let n := segSize p
  let r : Resp := { bytes := x.buf.take n, toggle := x.toggle, last := decide (x.buf.length ≤ n) }
  if x.buf.length ≤ n then (r, (s.setXfer p none).consumeBytes x.key x.snap)
  else (r, s.setXfer p (some { x with buf := x.buf.drop n, toggle := !x.toggle, since := s.clk.now }))

/-- A segment (R101, R108, R109, R142): its length comes before its toggle and the object's domain. -/
def State.segStep (s : State) (p : Path) (toggle last : Bool) (bs : List Byte) : Resp × State :=
  match s.xfer p with
  | none => ({ code := Abort.state }, s)
  | some x =>
    if x.badLength p last bs then s.closeWith p x Abort.typeLength
    else if toggle ≠ x.toggle ∨ x.cut ∨ !s.objPowered x.key then s.closeWith p x Abort.state
    else if x.wr then s.segWrite p x last bs
    else s.segRead p x

/-- SEGMENT. -/
def execSegment (p : Path) (toggle last : Bool) (data : List Byte) (irq : Bool) (s : State) : Out :=
  .next (
    let w := s.win p
    let wr := match s.xfer p with | some x => x.wr | none => false
    let s := s.dwSet p (dwCmd irq last toggle 2 false wr) w.object data.length (data.take 64)
    s.serve p irq (fun s => s.segStep p toggle last data))

/-- ABORT_OWN_TRANSFER. -/
def execAbortOwnTransfer (p : Path) (irq : Bool) (s : State) : Out :=
  .next (
    let w := s.win p
    let s := s.dwSet p (dwCmd irq false false 3 false false) w.object w.length []
    s.serve p irq (fun s =>
      match s.xfer p with
      | none => ({ code := Abort.state }, s)
      | some _ => ({}, s.setXfer p none)))

/-- SEGMENT_TIMEOUT: the transfer closes with TIMEOUT. -/
def execSegmentTimeout (p : Path) (s : State) : Out :=
  .next (
    match s.xfer p with
    | none => s
    | some x =>
      if s.clk.now ≤ x.since + usEdges 10000 then s
      else (s.setXfer p none).setResp p { code := Abort.timeout })

/-! ### The windows' answers (R156) -/

/-- The window's data after an answer: the bytes of a segment or of a value for a read, as they stood for a write. -/
def dwData (w : DictWindow) (r : Resp) : List Byte :=
  if bit w.cmd 1 then w.data
  else
    let bs := if r.bytes = [] then leBytes 8 r.val else lastSegment r.bytes
    bs ++ w.data.drop bs.length

/-- DW_STEP_DONE. -/
def execDwStepDone (p : Path) (s : State) : Out :=
  .next (
    let w := s.win p
    match w.answer with
    | none => s
    | some r =>
      if !isWindow p ∨ !w.busy then s
      else
        let s := s.setWin p { w with
          busy := false, done := true, answer := none, abort := r.code, toggle := r.toggle, last := r.last
          valid := (lastSegment r.bytes).length, data := if r.code = 0 then dwData w r else w.data }
        if !w.irq then s
        else
          match p with
          | .ten t => s.signalTen t.val 3
          | _ => s.signal false 3)

end Sys2Proof.Machine
end

