-- ==== Sys2Proof/Machine/Debug.lean ====
section
/-!
DEFINITION. The test access port and the debug port (R945 to R962): boundary-scan instructions, DAP operations, run control and
authentication.
-/

namespace Sys2Proof.Machine

/-! ### TAP instructions (R945 to R947, R1002) -/

/-- A TAP instruction: ignored while D27 is unpowered, BYPASS where it needs a level that the port does not hold. -/
def State.tapSelect (s : State) (t : TapInstr) : State :=
  if !s.powered 27 then s
  else s.setTap (if t.needsFull && decide (s.dbgLevel < 2) then .bypass else t)

/-- BYPASS. -/
def execBypass (s : State) : Out := .next (s.tapSelect .bypass)

/-- IDCODE. -/
def execIdcode (s : State) : Out := .next (s.tapSelect .idcode)

/-- SAMPLE/PRELOAD: the pins' levels are captured and the cells are loaded. -/
def execSamplePreload (pins pre : BitVec 58) (s : State) : Out :=
  .next (
    let s := s.tapSelect .sample
    if s.powered 27 && decide (s.dbg.tap = .sample) then { s with dbg := { s.dbg with sample := pins, preload := pre } } else s)

/-- EXTEST. -/
def execExtest (s : State) : Out := .next (s.tapSelect .extest)

/-- CLAMP. -/
def execClamp (s : State) : Out := .next (s.tapSelect .clamp)

/-- HIGHZ. -/
def execHighz (s : State) : Out := .next (s.tapSelect .highz)

/-- DAP. -/
def execDap (s : State) : Out := .next (s.tapSelect .dap)

/-- TEST_LOGIC_RESET: IDCODE is selected, the level is unchanged. -/
def execTestLogicReset (s : State) : Out := .next (s.tapSelect .idcode)

/-! ### The DAP register (Tables CHRN-4 to CHRN-6) -/

abbrev Dap.ok : Nat := 0
abbrev Dap.pending : Nat := 1
abbrev Dap.denied : Nat := 2
abbrev Dap.sealed : Nat := 3
abbrev Dap.error : Nat := 4
abbrev Dap.ecc : Nat := 5
abbrev Dap.notHalted : Nat := 6
abbrev Dap.badAgent : Nat := 7
abbrev Dap.badOp : Nat := 8
abbrev Dap.authFail : Nat := 9
abbrev Dap.busy : Nat := 10

/-- A halt that was asked for, or a STEP, of an agent has not finished. -/
def State.agentWaits (s : State) (a : Nat) : Bool :=
  if a < 32 then
    (s.core a).haltReq || ((s.core a).stepping && !(s.core a).stopped && (s.runningOn a).isSome)
  else (s.newel (a - 32)).haltReq

/-- The last operation is still PENDING (R948). -/
def State.dapPending (s : State) : Bool :=
  s.dbg.auth.isSome || (match s.dbg.waits with | some a => s.agentWaits a | none => false)

/-- STATUS as a capture shows it. -/
def State.dapStatus (s : State) : Nat :=
  if s.dapPending then Dap.pending else if s.dbg.waits.isSome then Dap.ok else s.dbg.status

/-- The result of an operation. -/
def State.dapResult (s : State) (status data : Nat) : State :=
  { s with dbg := { s.dbg with status := status, data := data, waits := none } }

/-- An operation that finishes when an agent's halt or step does. -/
def State.dapWait (s : State) (a : Nat) : State :=
  { s with dbg := { s.dbg with status := Dap.pending, data := 0, waits := some a } }

/-- An operation: the port must be powered and the DAP register selected, nothing may be PENDING, the level must be held. -/
def State.dapOp (s : State) (need : Nat) (f : State → State) : State :=
  if !s.powered 27 || decide (s.dbg.tap ≠ .dap) || s.dapPending then s
  else if s.dbgLevel < need then s.dapResult Dap.denied 0
  else f s

/-- DAP_NOP: the last result is captured again. -/
def execDapNop (s : State) : Out := .next s

/-! ### READ and WRITE (R949 to R952, R750) -/

/-- The debug port's accesses: agent 66, no tenancy context. -/
def dbgAcc : Acc := { agent := 66, ctx := none }
def dbgReq : Requester := ⟨66, none⟩

/-- An address in the register view (R115). -/
def inRegView (a : Nat) : Bool := decide (regBase ≤ a ∧ a < regBase + 0x10000000)

/-- An address in the landing window (R216). -/
def inLandings (a : Nat) : Bool := decide (landBase ≤ a ∧ a < landBase + 0x1000000)

/-- The object, and the length that an access of `n` bytes counts as: none of its own at an offset other than 0x0 or 0x8, and so
for one that is not aligned (R117). -/
def regKey (a : Nat) : Nat := odKey ((a - regBase) / 0x1000) (a / 0x10 % 256)
def regLen (a n : Nat) : Nat := if a % 8 = 0 then n else 0

/-- A dictionary answer as a result. -/
def State.dapDict (s : State) (r : Resp) : State :=
  (s.setResp .dbg r).dapResult (if r.code = 0 then Dap.ok else Dap.error) (if r.code = 0 then r.val else 0)

/-- The operation of a landing load; blocking and taking ones become reads when QUIET is 1 (R950, R951). -/
def landLoad (off : Nat) (quiet : Bool) : Option LandOp :=
  if off = 0x00 then some .read
  else if off = 0x28 then some (if quiet then .read else .acquire)
  else if off = 0x48 then some (if quiet then .read else .wait)
  else if off = 0x30 then some (if quiet then .read else .tryLock)
  else if off = 0x68 then some (if quiet then .peek 0 else .take)
  else if off = 0x70 then some .portStatus
  else if off = 0x80 then some (.peek 0)
  else if off = 0x88 then some (.peek 1)
  else if off = 0x90 then some (.peek 2)
  else if off = 0x98 then some (.peek 3)
  else none

/-- The operation of a landing store. -/
def landStore (off : Nat) (d : Word) : Option LandOp :=
  if off = 0x08 then some (.init d)
  else if off = 0x10 then some (.add d)
  else if off = 0x18 then some .set
  else if off = 0x20 then some .clear
  else if off = 0x38 then some .release
  else if off = 0x40 then some .arrive
  else if off = 0x50 then some (.ack d)
  else if off = 0x58 then some .force
  else if off = 0x60 then some (.push d false)
  else none

/-- A landing operation of the debug port; it must be one aligned access of 8 bytes at an offset of Table LAND-3. -/
def State.dapLand (s : State) (a n : Nat) (op : Option LandOp) : State :=
  match op with
  | none => (s.errorRecord dbgAcc a).dapResult Dap.error 0
  | some op =>
    if n ≠ 8 then (s.errorRecord dbgAcc a).dapResult Dap.error 0
    else
      let L := (a - landBase) / 0x100
      match s.landOp dbgReq L op 0 with
      | (some (.word w), s) => s.dapResult Dap.ok w.toNat
      | (some .done, s) => s.dapResult Dap.ok 0
      | (some .error, s) => (s.record FaultClass.item 66 1 OD.OP_ERRORS a L).dapResult Dap.error 0
      | (some .parked, s) => s.dapResult Dap.error 0
      | (none, s) => (s.errorRecord dbgAcc a).dapResult Dap.error 0

/-- A read of memory: a byte of the sealed set makes it read zero. -/
def State.dapMemRead (s : State) (a n : Nat) : State :=
  let (r, s) := s.memRead dbgAcc a n
  let s := s.memRecord dbgAcc r
  if r.err.isSome || r.win.isSome then s.dapResult Dap.error 0
  else if (s.firstSealed a n).isSome then (s.bump OD.SEAL_DENIALS).dapResult Dap.sealed 0
  else s.dapResult (if r.poison.isSome then Dap.ecc else Dap.ok) (ofLe r.bytes)

/-- A read of `n` bytes at an address, by the view that holds it (R950). -/
def State.dapReadAt (quiet : Bool) (a n : Nat) (s : State) : State :=
  if inRegView a then
    let (r, s) := s.expRead .dbg (regKey a) (regLen a n) (decide (a % 16 = 8)) quiet
    s.dapDict r
  else if inLandings a then
    if !quiet && decide (n = 8) && (decide (a % 0x100 = 0x28) || decide (a % 0x100 = 0x48)) then s.dapResult Dap.error 0
    else s.dapLand a n (landLoad (a % 0x100) quiet)
  else s.dapMemRead a n

/-- DAP_READ. -/
def execDapRead (quiet : Bool) (size : Fin 8) (a : BitVec 48) (s : State) : Out :=
  .next (s.dapOp (if quiet then 1 else 2) (fun s =>
    if 4 ≤ size.val then s.dapResult Dap.badOp 0
    else if decide (a.toNat % 2 ^ size.val ≠ 0) && !inRegView a.toNat then s.dapResult Dap.error 0
    else s.dapReadAt quiet a.toNat (2 ^ size.val)))

/-- A write of `n` bytes of memory through the port. -/
def State.dapMemWrite (a n d : Nat) (s : State) : State :=
  let (r, s) := s.memWrite dbgAcc a (leBytes n d)
  let s := s.memRecord dbgAcc r
  s.dapResult (if r.ok then Dap.ok else Dap.error) 0

/-- A write of `n` bytes at an address, by the view that holds it (R950). -/
def State.dapWriteAt (a n : Nat) (d : Word) (s : State) : State :=
  if inRegView a then
    let (r, s) := s.expWrite .dbg (regKey a) (regLen a n) (d.toNat % 2 ^ (8 * n))
    s.dapDict { r with val := 0 }
  else if inLandings a then s.dapLand a n (landStore (a % 0x100) d)
  else s.dapMemWrite a n d.toNat

/-- DAP_WRITE. -/
def execDapWrite (size : Fin 8) (a : BitVec 48) (d : Word) (s : State) : Out :=
  .next (s.dapOp 2 (fun s =>
    if 4 ≤ size.val then s.dapResult Dap.badOp 0
    else if decide (a.toNat % 2 ^ size.val ≠ 0) && !inRegView a.toNat then s.dapResult Dap.error 0
    else s.dapWriteAt a.toNat (2 ^ size.val) d))

/-! ### Run control (R953 to R956) -/

/-- The agents that run control accepts, with their domains powered. -/
def State.canHalt (s : State) (a : Nat) : Bool := decide (a < 36) && s.powered (if a < 32 then 2 + a / 4 else 1)

/-- The core that stands for an agent: 2p for either core of a joined pair (R954). -/
def State.runAgent (s : State) (a : Nat) : Nat := if a < 32 ∧ s.held a then a - 1 else a

/-- DAP_HALT. -/
def execDapHalt (agent : Fin 128) (s : State) : Out :=
  .next (s.dapOp 2 (fun s =>
    let a := s.runAgent agent.val
    if !s.canHalt agent.val then s.dapResult Dap.badAgent 0
    else if s.halted a then s.dapResult Dap.ok 0
    else if a < 32 then (s.setCore a { s.core a with haltReq := true }).dapWait a
    else (s.setNewel (a - 32) { s.newel (a - 32) with haltReq := true }).dapWait a))

/-- A Newel core's registers and program counter after an instruction of its own, which the part's rules leave open. -/
def State.newelRuns (s : State) (k : Nat) : State :=
  let (pc, s) := s.drawFree
  let x := s.newel k
  let s := s.setNewel k { x with pc := pc % 2 ^ 64 }
  foldN 32 (fun s i =>
    let (v, s) := s.drawFree
    let x := s.newel k
    s.setNewel k { x with regs := Sparse.put (fun _ => 0#64) x.regs i (BitVec.ofNat 64 v) }) s

/-- HALT_TAKES_EFFECT: at an instruction boundary, after any MMA drain (R387, R443). -/
def execHaltTakesEffect (agent : Fin 36) (s : State) : Out :=
  .next (
    let a := agent.val
    if a < 32 then
      let c := s.core a
      if !c.haltReq || decide (c.mmas ≠ []) then s
      else
        let s := s.setCore a { c with st := .halted, wasParked := decide (c.st = .parked), haltReq := false, gated := true }
        s.traceInstr a (alcoveOff c.pc) 4
    else
      let k := a - 32
      if !(s.newel k).haltReq then s
      else
        let s := s.newelRuns k
        let s := s.setNewel k { s.newel k with halted := true, haltReq := false }
        s.traceInstr a (s.newel k).pc 4)

/-- DAP_RESUME. -/
def execDapResume (agent : Fin 128) (s : State) : Out :=
  .next (s.dapOp 2 (fun s =>
    if !s.canHalt agent.val then s.dapResult Dap.badAgent 0
    else (s.resumeAgent (s.runAgent agent.val)).dapResult Dap.ok 0))

/-- Core n, halted, retires one instruction: of a stopped stage none, a released operation at once, a parked one not yet. -/
def State.stepCore (s : State) (n : Nat) : State :=
  let c := s.core n
  if c.stopped then (s.resumeCore n).dapResult Dap.ok 0
  else if c.grant.isSome then (s.takeGrant n).dapResult Dap.ok 0
  else if c.wasParked || (s.runningOn n).isNone then s.dapResult Dap.ok 0
  else (s.setCore n { c with stepping := true }).dapWait n

/-- The debug port's register writes of a Newel core take effect (R958). -/
def Newel.applyRegw (x : Newel) : Newel :=
  let y := x.regw.foldl (fun (x : Newel) e =>
    if e.1 = 0xA00 then { x with pc := e.2 % 2 ^ 64 }
    else { x with regs := Sparse.put (fun _ => 0#64) x.regs e.1 (BitVec.ofNat 64 e.2) }) x
  { y with regw := [] }

/-- Newel core k, halted, retires one instruction. -/
def State.stepNewel (s : State) (k : Nat) : State :=
  if (s.newel k).stopped then (s.resumeNewel k).dapResult Dap.ok 0
  else
    let s := s.newelRuns k
    (s.setNewel k (s.newel k).applyRegw).dapResult Dap.ok 0

/-- DAP_STEP. -/
def execDapStep (agent : Fin 128) (s : State) : Out :=
  .next (s.dapOp 2 (fun s =>
    let a := s.runAgent agent.val
    if !s.canHalt agent.val then s.dapResult Dap.badAgent 0
    else if !s.halted a then s.dapResult Dap.notHalted 0
    else if a < 32 then s.stepCore a
    else s.stepNewel (a - 32)))

/-! ### Registers (R958, Table CHRN-7) -/

/-- A selector that a matrix core has, and one that may be written. -/
def coreSel (sel : Nat) : Bool :=
  decide (sel < 0x20) || decide (0x100 ≤ sel ∧ sel < 0x908) || decide (sel = 0xA00 ∨ sel = 0xA01) ||
  decide (0x1000 ≤ sel ∧ sel < 0x5000) || decide (0x8000 ≤ sel ∧ sel < 0x8800)
def coreSelW (sel : Nat) : Bool :=
  coreSel sel && decide (sel ≠ 0 ∧ sel ≠ 0x900 ∧ sel ≠ 0xA01) && decide (sel < 0x8000)

/-- The same of a Newel core. -/
def newelSel (sel : Nat) : Bool := decide (sel < 0x20) || decide (sel = 0xA00 ∨ sel = 0xA01)

/-- Row k of a weight tile, its codes packed in column order from bit 0. -/
def WTile.rowBits (t : WTile) (k : Nat) : Nat :=
  foldN 64 (fun v j => v + t.at k j * 2 ^ (dtypeBits t.dtype * j)) 0

/-- A word of a weight row: core 2p + 1 of a joined pair holds rows 64 and up of the pair's tiles. -/
def State.weightWord (s : State) (n sel : Nat) : Nat :=
  let i := sel - 0x8000
  let c := s.core (s.runAgent n)
  let row := i / 16 % 64 + (if s.held n then 64 else 0)
  match (if i / 0x400 = 0 then c.active else c.shadow) with
  | some t => bits (t.rowBits row) (64 * (i % 16)) 64
  | none => 0

/-- The stage word of the stage that core n runs; 0 when idle. -/
def State.stageWordOf (s : State) (n : Nat) : Nat :=
  match s.runningOn (s.runAgent n) with
  | some e => (s.item e.slot).stages.getD e.stage 0
  | none => 0

/-- The value of a matrix core's selector. -/
def State.coreSelRead (s : State) (n sel : Nat) : Nat :=
  if 0x8000 ≤ sel then s.weightWord n sel
  else if sel = 0xA01 then s.stageWordOf n
  else (s.core n).selRead sel

/-- The value of a Newel core's selector; 0x0A01 is the entry of the routine that it runs. -/
def State.newelSelRead (s : State) (k sel : Nat) : Nat :=
  let x := s.newel k
  if sel = 0xA00 then x.pc
  else if sel = 0xA01 then
    (match s.runningOn (32 + k) with
    | some e => (match s.stageDef e with | some d => d.entryOff | none => 0)
    | none => 0)
  else (Sparse.get (fun _ => 0#64) x.regs sel).toNat

/-- The agent's registers are sealed (R750). -/
def State.regsSealed (s : State) (a : Nat) : Bool := if a < 32 then s.coreSealed a else (s.newel (a - 32)).sealed

/-- The checks of a register operation: the agent, that it is halted, the selector. -/
def State.dapReg (s : State) (a : Nat) (has : Bool) (f : State → State) : State :=
  if !s.canHalt a then s.dapResult Dap.badAgent 0
  else if !s.halted (s.runAgent a) then s.dapResult Dap.notHalted 0
  else if !has then s.dapResult Dap.badAgent 0
  else f s

/-- DAP_REG_READ. -/
def execDapRegRead (agent : Fin 128) (sel : BitVec 16) (s : State) : Out :=
  .next (s.dapOp 1 (fun s =>
    let a := agent.val
    let k := sel.toNat
    s.dapReg a (if a < 32 then coreSel k else newelSel k) (fun s =>
      if s.regsSealed a then (s.bump OD.SEAL_DENIALS).dapResult Dap.sealed 0
      else s.dapResult Dap.ok (if a < 32 then s.coreSelRead a k else s.newelSelRead (a - 32) k))))

/-- DAP_REG_WRITE: the write waits for the next retirement. -/
def execDapRegWrite (agent : Fin 128) (sel : BitVec 16) (d : Word) (s : State) : Out :=
  .next (s.dapOp 2 (fun s =>
    let a := agent.val
    let k := sel.toNat
    s.dapReg a (if a < 32 then coreSelW k else newelSel k && decide (k ≠ 0xA01)) (fun s =>
      let s := if a < 32 then s.setCore a { s.core a with regw := (s.core a).regw ++ [(k, d.toNat)] }
        else s.setNewel (a - 32) { s.newel (a - 32) with regw := (s.newel (a - 32)).regw ++ [(k, d.toNat)] }
      s.dapResult Dap.ok 0)))

/-! ### Authentication (R959 to R962) -/

/-- A lockout runs: 1 s from the last failed response. -/
def State.lockedOut (s : State) : Bool :=
  match s.dbg.lockout with
  | some t => decide (s.clk.now < t + usEdges 1000000)
  | none => false

/-- A fresh nonce of four words. -/
def State.newNonce (s : State) : State :=
  let s := { s with dbg := { s.dbg with nonce := [], words := [] } }
  foldN 4 (fun s _ =>
    let (v, s) := s.drawFree
    { s with dbg := { s.dbg with nonce := s.dbg.nonce ++ [v % 2 ^ 64] } }) s

/-- DAP_CHALLENGE. -/
def execDapChallenge (i : Fin 4) (s : State) : Out :=
  .next (s.dapOp 0 (fun s =>
    if !s.flag OD.DBG_ALLOW then s.dapResult Dap.denied 0
    else if s.lockedOut then s.dapResult Dap.busy 0
    else
      let s := if i.val = 0 then s.newNonce else s
      s.dapResult Dap.ok (s.dbg.nonce.getD i.val 0)))

/-- A response fails (R962). -/
def State.authFails (s : State) : State :=
  let s := { s with dbg := { s.dbg with nonce := [], words := [], auth := none, lockout := some s.clk.now } }
  let s := (s.bump OD.AUTH_FAILS).record FaultClass.corrected 66 27 OD.AUTH_FAILS 0 0
  s.dapResult Dap.authFail 0

/-- The signed message (R961). -/
def authMessage (nonce : List Nat) (level slot : Nat) : List Byte :=
  [0x43#8, 0x47#8, 0x44#8, 0x42#8] ++ leBytes 16 Config.serial.toNat ++ nonce.flatMap (leBytes 8) ++ leBytes 1 level ++
  leBytes 1 slot ++ zeros 6

/-- Words of 64 bits as one number, the first lowest. -/
def wordsNum : List Nat → Nat
  | [] => 0
  | w :: ws => w + 2 ^ 64 * wordsNum ws

/-- A response whose thirteen words have come. -/
def State.authOf (s : State) (ws : List Nat) : AuthRun :=
  let w := ws.getD 0 0
  { level := w % 256, slot := bits w 8 8, sig := wordsNum (ws.drop 1)
    msg := if s.dbg.nonce.length = 4 then authMessage s.dbg.nonce (w % 256) (bits w 8 8) else [] }

/-- The first word of a response has the layout of R961. -/
def respondHead (w : Nat) : Bool := decide (w < 65536) && decide (w % 256 = 1 ∨ w % 256 = 2)

/-- DAP_RESPOND. -/
def execDapRespond (d : Word) (s : State) : Out :=
  .next (s.dapOp 0 (fun s =>
    let ws := s.dbg.words ++ [d.toNat]
    if ws.length = 1 ∧ !respondHead d.toNat then s.authFails
    else if ws.length < 13 then { s with dbg := { s.dbg with words := ws } }.dapResult Dap.ok 0
    else
      let x := s.authOf ws
      { s with dbg := { s.dbg with words := [], nonce := [], auth := some x, status := Dap.pending, data := 0, waits := none } }))

/-- A response is granted (R962). -/
def State.authGranted (s : State) (x : AuthRun) : Bool :=
  decide (x.slot < 4) && s.keyUsable x.slot KeyUse.debug && decide (x.msg ≠ []) &&
  (s.keySlot x.slot).verifies x.msg (x.sig % 2 ^ 384) (x.sig / 2 ^ 384)

/-- AUTH_VERIFY_DONE. -/
def execAuthVerifyDone (s : State) : Out :=
  .next (
    match s.dbg.auth with
    | none => s
    | some x =>
      if !s.authGranted x then s.authFails
      else
        let s := { s with dbg := { s.dbg with auth := none } }
        let s := ((s.wr OD.DBG_LEVEL x.level).wr OD.DBG_KEY_SLOT x.slot).bump OD.DBG_SESSIONS
        let s := if x.level = 2 ∧ s.boot.life = Life.secure then s.wr OD.DEBUGGED 1 else s
        s.dapResult Dap.ok 0)

/-- AUTH_LOCKOUT_END. -/
def execAuthLockoutEnd (s : State) : Out :=
  .next (if s.lockedOut then s else { s with dbg := { s.dbg with lockout := none } })

/-- DAP_LOCK. -/
def execDapLock (s : State) : Out := .next (s.dapOp 0 (fun s => s.endSession.dapResult Dap.ok 0))

end Sys2Proof.Machine
end

