-- ==== Sys2Proof/Machine/FaultRows.lean ====
section
/-!
DEFINITION. The errors of the fault unit's stores: log records, lost-item entries and slot mirror entries (R1029).
-/

namespace Sys2Proof.Machine

/-- The mirror entry that an uncorrectable error leaves: the tag is gone, and the slot table gives the other fields
(R1029, R1019). -/
def State.mirrorFromSlot (s : State) (i : Nat) (m : Mirror) : Mirror :=
  { m with tag := 0xFFFFFFFF, ten := if (s.item i).st ≠ .free then (s.item i).ten else m.ten }

/-- An error of a log record, a lost-item entry or a mirror entry (R1029). A corrected error is written back, which
leaves every value. -/
def execFaultLogEccError (fixed : Bool) (what : EccPlace) (s : State) : Out :=
  if fixed then .next s
  else match what with
    | .record n =>
      if n < s.falt.log.length then
        .next ({ s with falt := { s.falt with log := s.falt.log.eraseIdx n } }.bump OD.FAULTS_LOST)
      else .next s
    | .entry n =>
      if n < s.falt.lost.length then
        .next ({ s with falt :=
          { s.falt with
            lost := s.falt.lost.eraseIdx n
            lostFresh := if n + s.falt.lostFresh < s.falt.lost.length then s.falt.lostFresh else s.falt.lostFresh - 1 } }.bump
          OD.LOST_OVERFLOW)
      else .next s
    | .mirror slot =>
      match Sparse.get (fun _ => none) s.falt.mirror slot.val with
      | none => .next s
      | some m => .next (s.setMirror slot.val (some (s.mirrorFromSlot slot.val m)))

end Sys2Proof.Machine
end

