-- ==== Sys2Proof/Machine/GqServe.lean ====
section
/-!
DEFINITION. Requests from the GQ bus (R808, R824 to R831, R842): the dictionary access that a request stands for, its response, and
the replay cache.
-/

namespace Sys2Proof

open Sys2Proof.Machine

/-! ### The fields of a REQUEST body (Table GQBS-5) -/

def Telegram.cmd (t : Telegram) : Nat := fieldAt t.body 0 1
def Telegram.wr (t : Telegram) : Bool := bit t.cmd 0
def Telegram.kind (t : Telegram) : Nat := bits t.cmd 1 2
def Telegram.key (t : Telegram) : Nat := odKey (fieldAt t.body 1 2) (fieldAt t.body 3 1)
def Telegram.length (t : Telegram) : Nat := fieldAt t.body 4 4
def Telegram.data (t : Telegram) : List Byte := t.body.drop 8

/-- A request whose body carries data: an expedited write or a write segment (R826). -/
def Telegram.carries (t : Telegram) : Bool := t.wr && (decide (t.kind = 0) || decide (t.kind = 2))

/-- LENGTH and DATA agree (R826). -/
def Telegram.dataOk (t : Telegram) : Bool :=
  if t.carries then decide (t.length = t.data.length) else decide (t.data = [])

end Sys2Proof

namespace Sys2Proof.Machine

/-- The dictionary access of a request (R824, R825). -/
def State.gqAccess (s : State) (t : Telegram) : Resp × State :=
  if !t.dataOk then ({ code := Abort.typeLength }, s)
  else if t.kind = 0 then
    (if t.wr then s.expWrite .gq t.key t.length (ofLe t.data)
    else s.expRead .gq t.key 0 (bit t.cmd 3) false)
  else if t.kind = 1 then (if t.wr then s.openWrite .gq t.key t.length else s.openRead .gq t.key (bit t.cmd 3))
  else if t.kind = 2 then s.segStep .gq (bit t.cmd 4) (bit t.cmd 5) t.data
  else
    match s.xfer .gq with
    | none => ({ code := Abort.state }, s)
    | some _ => ({}, s.setXfer .gq none)

/-- The data of a response: the value of an expedited read in exactly the type's size, the bytes of a read segment (R827). -/
def gqData (t : Telegram) (r : Resp) : List Byte :=
  if r.code ≠ 0 then []
  else if t.kind = 0 ∧ !t.wr then
    leBytes (match objLookup (t.key / 256) (t.key % 256) with | some o => o.ty.size | none => 0) r.val
  else r.bytes

/-- The body of a response (Table GQBS-6). -/
def gqBody (t : Telegram) (r : Resp) : List Byte :=
  let flags := if r.bytes = [] then 0 else b2n r.toggle + 2 * b2n r.last
  leBytes 2 r.code ++ leBytes 1 flags ++ leBytes 1 0 ++ gqData t r

/-- A response is transmitted, at once in the model, which leaves the reply delay of R818 out; it is stored for its source once it
has been sent (R829). The bus is idle again at its ED. -/
def State.gqAnswer (s : State) (t : Telegram) (body : List Byte) (tx : TxEnd) : State :=
  if s.gqMute then s
  else
    match tx with
    | .sent =>
      let s := s.gqSent (gqHeader 1 t.src t.seq body.length ++ body)
      s.setGq { s.gq with
        cache := Sparse.put (fun _ => none) s.gq.cache t.src (some ⟨t.seq, t.crc, body⟩)
        idleAt := s.clk.now + 90 + 8 * body.length, window := s.clk.now }
    | .collision => s.gqCount OD.COLLISIONS
    | .lineFault c => s.lineFault c

/-- The replay entry that a request matches. -/
def State.gqReplay (s : State) (t : Telegram) : Option GqEntry :=
  match Sparse.get (fun _ => none) s.gq.cache t.src with
  | some e => if e.seq = t.seq ∧ e.crc = t.crc then some e else none
  | none => none

/-- Serve the access of a request: the engine's response and the state behind it. -/
def State.gqServe (s : State) (t : Telegram) : Resp × State :=
  let (r, s) := s.gqAccess t
  (r, s.setResp .gq r)

/-- A unicast request to this node: replayed, or served and answered; none is answered during a full device reset or without
SYSREF (R831, R888). -/
def State.gqUnicast (s : State) (t : Telegram) (tx : TxEnd) : State :=
  if s.rd OD.RESET_STATE ≠ 0 ∨ !s.pow.sysref then s
  else
    match s.gqReplay t with
    | some e => (s.bump OD.REPLAYS).gqAnswer t e.body tx
    | none =>
      let (r, s) := s.gqServe t
      s.gqAnswer t (gqBody t r) tx

/-- GQ_REQUEST. -/
def execGqRequest (t : Telegram) (tx : TxEnd) (s : State) : Out :=
  .next (
    if !s.pow.vaon then s
    else
      let s := s.gqReceive t
      if !t.ok ∨ t.ty ≠ 0 then s
      else
      let s := if t.dest = 0 then s else s.openWindow
      if t.dest = 0 then
        (if t.kind = 0 ∧ t.wr then (s.gqServe t).2 else s.gqCount OD.RX_DISCARDS)
      else if t.dest = gqNode then s.gqUnicast t tx
      else s)

end Sys2Proof.Machine
end

