-- ==== Sys2Proof/Machine/Dispatch.lean ====
section
/-!
DEFINITION. The dispatch: one arm per command, one meaning per arm.
-/

namespace Sys2Proof.Machine

def exec (i : Instr) (s : State) : Host.Outcome State Fault Refusal :=
  match i with
  | .tickStrike p v => Sys2Proof.Machine.execTickStrike p v s
  | .tickOutModeWrite p v => Sys2Proof.Machine.execTickOutModeWrite p v s
  | .tickCommit p v => Sys2Proof.Machine.execTickCommit p v s
  | .layerCopyDone l ok => Sys2Proof.Machine.execLayerCopyDone l ok s
  | .layerGraceExpiry l => Sys2Proof.Machine.execLayerGraceExpiry l s
  | .expeditedAccess p wr idx sub stagedView len data irq => Sys2Proof.Machine.execExpeditedAccess p wr idx sub stagedView len data irq s
  | .segmentedOpen p wr idx sub stagedView len irq => Sys2Proof.Machine.execSegmentedOpen p wr idx sub stagedView len irq s
  | .segment p toggle last data irq => Sys2Proof.Machine.execSegment p toggle last data irq s
  | .abortOwnTransfer p irq => Sys2Proof.Machine.execAbortOwnTransfer p irq s
  | .segmentTimeout p => Sys2Proof.Machine.execSegmentTimeout p s
  | .unitAnswerTimeout p wr idx sub data => Sys2Proof.Machine.execUnitAnswerTimeout p wr idx sub data s
  | .registerWrite p idx sub data => Sys2Proof.Machine.execRegisterWrite p idx sub data s
  | .stagedWrite p idx sub data => Sys2Proof.Machine.execStagedWrite p idx sub data s
  | .rcRead p idx sub => Sys2Proof.Machine.execRcRead p idx sub s
  | .dwStepDone p => Sys2Proof.Machine.execDwStepDone p s
  | .linkUp width speed => Sys2Proof.Machine.execLinkUp width speed s
  | .msixUnmask pf1 e => Sys2Proof.Machine.execMsixUnmask pf1 e s
  | .sqTail t v whole => Sys2Proof.Machine.execSqTail t v whole s
  | .cqHead t v whole => Sys2Proof.Machine.execCqHead t v whole s
  | .descriptorCheck t r => Sys2Proof.Machine.execDescriptorCheck t r s
  | .cqIrqDelayExpiry t => Sys2Proof.Machine.execCqIrqDelayExpiry t s
  | .landingRead q L => Sys2Proof.Machine.execLandingRead q L s
  | .landingInit q L w => Sys2Proof.Machine.execLandingInit q L w s
  | .landingAdd q L d => Sys2Proof.Machine.execLandingAdd q L d s
  | .landingSet q L => Sys2Proof.Machine.execLandingSet q L s
  | .landingClear q L => Sys2Proof.Machine.execLandingClear q L s
  | .landingAcquire q L => Sys2Proof.Machine.execLandingAcquire q L s
  | .landingTry q L => Sys2Proof.Machine.execLandingTry q L s
  | .landingRelease q L => Sys2Proof.Machine.execLandingRelease q L s
  | .landingArrive q L => Sys2Proof.Machine.execLandingArrive q L s
  | .landingWait q L => Sys2Proof.Machine.execLandingWait q L s
  | .landingAck q L d => Sys2Proof.Machine.execLandingAck q L d s
  | .landingForce q L => Sys2Proof.Machine.execLandingForce q L s
  | .landingPush q L d => Sys2Proof.Machine.execLandingPush q L d s
  | .landingTake q L => Sys2Proof.Machine.execLandingTake q L s
  | .landingPortStatus q L => Sys2Proof.Machine.execLandingPortStatus q L s
  | .landingPeek q L k => Sys2Proof.Machine.execLandingPeek q L k s
  | .holdLimitExpiry L => Sys2Proof.Machine.execHoldLimitExpiry L s
  | .landingEccError fixed L => Sys2Proof.Machine.execLandingEccError fixed L s
  | .stageIssue unit => Sys2Proof.Machine.execStageIssue unit s
  | .stageComplete engine rep => Sys2Proof.Machine.execStageComplete engine rep s
  | .itemStopDone slot => Sys2Proof.Machine.execItemStopDone slot s
  | .bgQuantumExpiry engine => Sys2Proof.Machine.execBgQuantumExpiry engine s
  | .slotTableEccError fixed slot => Sys2Proof.Machine.execSlotTableEccError fixed slot s
  | .load p => Sys2Proof.Machine.execLoad p s
  | .evict p => Sys2Proof.Machine.execEvict p s
  | .cancel p => Sys2Proof.Machine.execCancel p s
  | .tilePlan slot run entry => Sys2Proof.Machine.execTilePlan slot run entry s
  | .nop n imm => Sys2Proof.Machine.execNop n imm s
  | .endStage n imm => Sys2Proof.Machine.execEndStage n imm s
  | .fence n imm => Sys2Proof.Machine.execFence n imm s
  | .fail n imm => Sys2Proof.Machine.execFail n imm s
  | .tmark n imm => Sys2Proof.Machine.execTmark n imm s
  | .outadd n rd ra imm => Sys2Proof.Machine.execOutadd n rd ra imm s
  | .shget n rd ra imm => Sys2Proof.Machine.execShget n rd ra imm s
  | .shset n rd ra imm => Sys2Proof.Machine.execShset n rd ra imm s
  | .planrd n rd ra imm => Sys2Proof.Machine.execPlanrd n rd ra imm s
  | .add n rd ra rb => Sys2Proof.Machine.execAdd n rd ra rb s
  | .sub n rd ra rb => Sys2Proof.Machine.execSub n rd ra rb s
  | .mul n rd ra rb => Sys2Proof.Machine.execMul n rd ra rb s
  | .and n rd ra rb => Sys2Proof.Machine.execAnd n rd ra rb s
  | .or n rd ra rb => Sys2Proof.Machine.execOr n rd ra rb s
  | .xor n rd ra rb => Sys2Proof.Machine.execXor n rd ra rb s
  | .shl n rd ra rb => Sys2Proof.Machine.execShl n rd ra rb s
  | .shr n rd ra rb => Sys2Proof.Machine.execShr n rd ra rb s
  | .sra n rd ra rb => Sys2Proof.Machine.execSra n rd ra rb s
  | .slt n rd ra rb => Sys2Proof.Machine.execSlt n rd ra rb s
  | .sltu n rd ra rb => Sys2Proof.Machine.execSltu n rd ra rb s
  | .min n rd ra rb => Sys2Proof.Machine.execMin n rd ra rb s
  | .max n rd ra rb => Sys2Proof.Machine.execMax n rd ra rb s
  | .addi n rd ra imm => Sys2Proof.Machine.execAddi n rd ra imm s
  | .andi n rd ra imm => Sys2Proof.Machine.execAndi n rd ra imm s
  | .ori n rd ra imm => Sys2Proof.Machine.execOri n rd ra imm s
  | .xori n rd ra imm => Sys2Proof.Machine.execXori n rd ra imm s
  | .shli n rd ra imm => Sys2Proof.Machine.execShli n rd ra imm s
  | .shri n rd ra imm => Sys2Proof.Machine.execShri n rd ra imm s
  | .srai n rd ra imm => Sys2Proof.Machine.execSrai n rd ra imm s
  | .lui n rd ra imm => Sys2Proof.Machine.execLui n rd ra imm s
  | .beq n ra rb off => Sys2Proof.Machine.execBeq n ra rb off s
  | .bne n ra rb off => Sys2Proof.Machine.execBne n ra rb off s
  | .blt n ra rb off => Sys2Proof.Machine.execBlt n ra rb off s
  | .bge n ra rb off => Sys2Proof.Machine.execBge n ra rb off s
  | .bltu n ra rb off => Sys2Proof.Machine.execBltu n ra rb off s
  | .bgeu n ra rb off => Sys2Proof.Machine.execBgeu n ra rb off s
  | .jmp n ra rb off => Sys2Proof.Machine.execJmp n ra rb off s
  | .jal n rd ra imm => Sys2Proof.Machine.execJal n rd ra imm s
  | .jr n rd ra rb => Sys2Proof.Machine.execJr n rd ra rb s
  | .ld n rd ra size imm => Sys2Proof.Machine.execLd n rd ra size imm s
  | .lds n rd ra size imm => Sys2Proof.Machine.execLds n rd ra size imm s
  | .st n rd ra size imm => Sys2Proof.Machine.execSt n rd ra size imm s
  | .vadd n vd va vb pred ty func imm => Sys2Proof.Machine.execVadd n vd va vb pred ty func imm s
  | .vsub n vd va vb pred ty func imm => Sys2Proof.Machine.execVsub n vd va vb pred ty func imm s
  | .vmul n vd va vb pred ty func imm => Sys2Proof.Machine.execVmul n vd va vb pred ty func imm s
  | .vfma n vd va vb pred ty func imm => Sys2Proof.Machine.execVfma n vd va vb pred ty func imm s
  | .vmin n vd va vb pred ty func imm => Sys2Proof.Machine.execVmin n vd va vb pred ty func imm s
  | .vmax n vd va vb pred ty func imm => Sys2Proof.Machine.execVmax n vd va vb pred ty func imm s
  | .vand n vd va vb pred ty func imm => Sys2Proof.Machine.execVand n vd va vb pred ty func imm s
  | .vor n vd va vb pred ty func imm => Sys2Proof.Machine.execVor n vd va vb pred ty func imm s
  | .vxor n vd va vb pred ty func imm => Sys2Proof.Machine.execVxor n vd va vb pred ty func imm s
  | .vsra n vd va vb pred ty func imm => Sys2Proof.Machine.execVsra n vd va vb pred ty func imm s
  | .vcvt n vd va vb pred ty func imm => Sys2Proof.Machine.execVcvt n vd va vb pred ty func imm s
  | .vcmp n vd va vb pred ty func imm => Sys2Proof.Machine.execVcmp n vd va vb pred ty func imm s
  | .vsel n vd va vb pred ty func imm => Sys2Proof.Machine.execVsel n vd va vb pred ty func imm s
  | .vact n vd va vb pred ty func imm => Sys2Proof.Machine.execVact n vd va vb pred ty func imm s
  | .vred n vd va vb pred ty func imm => Sys2Proof.Machine.execVred n vd va vb pred ty func imm s
  | .vld n vd ra dtype pred imm => Sys2Proof.Machine.execVld n vd ra dtype pred imm s
  | .vst n vd ra dtype pred imm => Sys2Proof.Machine.execVst n vd ra dtype pred imm s
  | .vbcast n vd ra dtype pred imm => Sys2Proof.Machine.execVbcast n vd ra dtype pred imm s
  | .vext n vd ra dtype pred imm => Sys2Proof.Machine.execVext n vd ra dtype pred imm s
  | .accrd n vd ra dtype pred imm => Sys2Proof.Machine.execAccrd n vd ra dtype pred imm s
  | .accwr n vd ra dtype pred imm => Sys2Proof.Machine.execAccwr n vd ra dtype pred imm s
  | .aflags n rc ra rb dtype acc accum rsrc rows => Sys2Proof.Machine.execAflags n rc ra rb dtype acc accum rsrc rows s
  | .wload n rc ra rb dtype acc accum rsrc rows => Sys2Proof.Machine.execWload n rc ra rb dtype acc accum rsrc rows s
  | .wloadt n rc ra rb dtype acc accum rsrc rows => Sys2Proof.Machine.execWloadt n rc ra rb dtype acc accum rsrc rows s
  | .mma n rc ra rb dtype acc accum rsrc rows => Sys2Proof.Machine.execMma n rc ra rb dtype acc accum rsrc rows s
  | .mmaComplete n rep => Sys2Proof.Machine.execMmaComplete n rep s
  | .dma n rd ra rb => Sys2Proof.Machine.execDma n rd ra rb s
  | .dmawait n imm => Sys2Proof.Machine.execDmawait n imm s
  | .lread n rd ra rb imm => Sys2Proof.Machine.execLread n rd ra rb imm s
  | .linit n rd ra rb imm => Sys2Proof.Machine.execLinit n rd ra rb imm s
  | .ladd n rd ra rb imm => Sys2Proof.Machine.execLadd n rd ra rb imm s
  | .lset n rd ra rb imm => Sys2Proof.Machine.execLset n rd ra rb imm s
  | .lclr n rd ra rb imm => Sys2Proof.Machine.execLclr n rd ra rb imm s
  | .lacq n rd ra rb imm => Sys2Proof.Machine.execLacq n rd ra rb imm s
  | .ltry n rd ra rb imm => Sys2Proof.Machine.execLtry n rd ra rb imm s
  | .lrel n rd ra rb imm => Sys2Proof.Machine.execLrel n rd ra rb imm s
  | .larr n rd ra rb imm => Sys2Proof.Machine.execLarr n rd ra rb imm s
  | .lwait n rd ra rb imm => Sys2Proof.Machine.execLwait n rd ra rb imm s
  | .lack n rd ra rb imm => Sys2Proof.Machine.execLack n rd ra rb imm s
  | .lpush n rd ra rb imm => Sys2Proof.Machine.execLpush n rd ra rb imm s
  | .ltake n rd ra rb imm => Sys2Proof.Machine.execLtake n rd ra rb imm s
  | .lport n rd ra rb imm => Sys2Proof.Machine.execLport n rd ra rb imm s
  | .lpeek n rd ra rb imm => Sys2Proof.Machine.execLpeek n rd ra rb imm s
  | .dmaDescriptorRun n => Sys2Proof.Machine.execDmaDescriptorRun n s
  | .dmaDescriptorDone n => Sys2Proof.Machine.execDmaDescriptorDone n s
  | .keeperRampDown n => Sys2Proof.Machine.execKeeperRampDown n s
  | .reservedOp n op => Sys2Proof.Machine.execReservedOp n op s
  | .pairFillDone p => Sys2Proof.Machine.execPairFillDone p s
  | .galleryScrub find => Sys2Proof.Machine.execGalleryScrub find s
  | .balustradeWindowEnd target masters => Sys2Proof.Machine.execBalustradeWindowEnd target masters s
  | .poolFillDone q => Sys2Proof.Machine.execPoolFillDone q s
  | .cacheRefill q => Sys2Proof.Machine.execCacheRefill q s
  | .cacheWriteback q => Sys2Proof.Machine.execCacheWriteback q s
  | .alloc k v => Sys2Proof.Machine.execAlloc k v s
  | .release k ticket => Sys2Proof.Machine.execRelease k ticket s
  | .claimEccError fixed what => Sys2Proof.Machine.execClaimEccError fixed what s
  | .frameStart c fixed => Sys2Proof.Machine.execFrameStart c fixed s
  | .linePacket c fixed crcOk payload => Sys2Proof.Machine.execLinePacket c fixed crcOk payload s
  | .frameEnd c fixed => Sys2Proof.Machine.execFrameEnd c fixed s
  | .frameTimeout c => Sys2Proof.Machine.execFrameTimeout c s
  | .frameDelivery c => Sys2Proof.Machine.execFrameDelivery c s
  | .skewCalibration c => Sys2Proof.Machine.execSkewCalibration c s
  | .ulpsExit c => Sys2Proof.Machine.execUlpsExit c s
  | .streamHoldExpiry c => Sys2Proof.Machine.execStreamHoldExpiry c s
  | .otherPacket c k => Sys2Proof.Machine.execOtherPacket c k s
  | .tdmFrame n good slots => Sys2Proof.Machine.execTdmFrame n good slots s
  | .audioRouteSwapWrite p v => Sys2Proof.Machine.execAudioRouteSwapWrite p v s
  | .scalerSourceTake k => Sys2Proof.Machine.execScalerSourceTake k s
  | .scalerJobEnd k => Sys2Proof.Machine.execScalerJobEnd k s
  | .pkLingerExpiry t => Sys2Proof.Machine.execPkLingerExpiry t s
  | .batchDelivery t => Sys2Proof.Machine.execBatchDelivery t s
  | .batchSlotFillDone t => Sys2Proof.Machine.execBatchSlotFillDone t s
  | .batchQueueEccError fixed t j => Sys2Proof.Machine.execBatchQueueEccError fixed t j s
  | .decodeBudgetExpiry e => Sys2Proof.Machine.execDecodeBudgetExpiry e s
  | .decodeJobEnd e rep => Sys2Proof.Machine.execDecodeJobEnd e rep s
  | .decoderContextEccError fixed x => Sys2Proof.Machine.execDecoderContextEccError fixed x s
  | .encodeJobEnd rep => Sys2Proof.Machine.execEncodeJobEnd rep s
  | .keyRequest p x v => Sys2Proof.Machine.execKeyRequest p x v s
  | .encoderContextEccError fixed x => Sys2Proof.Machine.execEncoderContextEccError fixed x s
  | .netLoad p v => Sys2Proof.Machine.execNetLoad p v s
  | .eventRoute j => Sys2Proof.Machine.execEventRoute j s
  | .netRouteSwapWrite p v => Sys2Proof.Machine.execNetRouteSwapWrite p v s
  | .inject p v => Sys2Proof.Machine.execInject p v s
  | .colonnadeEccError fixed what => Sys2Proof.Machine.execColonnadeEccError fixed what s
  | .unsealCore p n => Sys2Proof.Machine.execUnsealCore p n s
  | .unsealFillDone n => Sys2Proof.Machine.execUnsealFillDone n s
  | .chCmdInit p ch v => Sys2Proof.Machine.execChCmdInit p ch v s
  | .channelInitDone ch ok => Sys2Proof.Machine.execChannelInitDone ch ok s
  | .trimArm p ch v => Sys2Proof.Machine.execTrimArm p ch v s
  | .trimApply ch => Sys2Proof.Machine.execTrimApply ch s
  | .dramAccess q a wr bytes find => Sys2Proof.Machine.execDramAccess q a wr bytes find s
  | .rowClose ch bank => Sys2Proof.Machine.execRowClose ch bank s
  | .channelPowerDownIdle ch => Sys2Proof.Machine.execChannelPowerDownIdle ch s
  | .refresh ch bank => Sys2Proof.Machine.execRefresh ch bank s
  | .refreshRatePoll ch status temp => Sys2Proof.Machine.execRefreshRatePoll ch status temp s
  | .zqLatch ch => Sys2Proof.Machine.execZqLatch ch s
  | .dramScrub find => Sys2Proof.Machine.execDramScrub find s
  | .rtPanicEntry r level => Sys2Proof.Machine.execRtPanicEntry r level s
  | .rtPanicExit r level => Sys2Proof.Machine.execRtPanicExit r level s
  | .lineFaultDetect c => Sys2Proof.Machine.execLineFaultDetect c s
  | .probe found => Sys2Proof.Machine.execProbe found s
  | .gqRequest t tx => Sys2Proof.Machine.execGqRequest t tx s
  | .tickTelegramRx t => Sys2Proof.Machine.execTickTelegramRx t s
  | .gqResponseRx t => Sys2Proof.Machine.execGqResponseRx t s
  | .gqmGo p v => Sys2Proof.Machine.execGqmGo p v s
  | .mailboxTx tx => Sys2Proof.Machine.execMailboxTx tx s
  | .tickTelegramTx tx => Sys2Proof.Machine.execTickTelegramTx tx s
  | .domainReqWrite p v => Sys2Proof.Machine.execDomainReqWrite p v s
  | .powerCmd p v => Sys2Proof.Machine.execPowerCmd p v s
  | .gateWrite p v => Sys2Proof.Machine.execGateWrite p v s
  | .domainReady d => Sys2Proof.Machine.execDomainReady d s
  | .domainRampFail d => Sys2Proof.Machine.execDomainRampFail d s
  | .wakeRequest src => Sys2Proof.Machine.execWakeRequest src s
  | .paceReq p v => Sys2Proof.Machine.execPaceReq p v s
  | .tjSample t => Sys2Proof.Machine.execTjSample t s
  | .agentReset p n => Sys2Proof.Machine.execAgentReset p n s
  | .resetCmdFull p => Sys2Proof.Machine.execResetCmdFull p s
  | .resetCmdCold p => Sys2Proof.Machine.execResetCmdCold p s
  | .vinLoss high mv => Sys2Proof.Machine.execVinLoss high mv s
  | .vinBandEntry mv => Sys2Proof.Machine.execVinBandEntry mv s
  | .flashRead p => Sys2Proof.Machine.execFlashRead p s
  | .flashProgram p data => Sys2Proof.Machine.execFlashProgram p data s
  | .flashErase p v => Sys2Proof.Machine.execFlashErase p v s
  | .lifecycleAdvance p v => Sys2Proof.Machine.execLifecycleAdvance p v s
  | .keyProvision p k data => Sys2Proof.Machine.execKeyProvision p k data s
  | .keyRevoke p k v => Sys2Proof.Machine.execKeyRevoke p k v s
  | .secEpochCommit p v => Sys2Proof.Machine.execSecEpochCommit p v s
  | .persistEntry p n data => Sys2Proof.Machine.execPersistEntry p n data s
  | .persistClear p v => Sys2Proof.Machine.execPersistClear p v s
  | .persistCommit p v => Sys2Proof.Machine.execPersistCommit p v s
  | .persistCommitDone res => Sys2Proof.Machine.execPersistCommitDone res s
  | .calNow p v => Sys2Proof.Machine.execCalNow p v s
  | .alarmEnable p v => Sys2Proof.Machine.execAlarmEnable p v s
  | .trcFlush p v => Sys2Proof.Machine.execTrcFlush p v s
  | .traceBufferEccError fixed ty off len => Sys2Proof.Machine.execTraceBufferEccError fixed ty off len s
  | .samplePreload pins pre => Sys2Proof.Machine.execSamplePreload pins pre s
  | .dapRead quiet size a => Sys2Proof.Machine.execDapRead quiet size a s
  | .dapWrite size a d => Sys2Proof.Machine.execDapWrite size a d s
  | .dapHalt agent => Sys2Proof.Machine.execDapHalt agent s
  | .haltTakesEffect agent => Sys2Proof.Machine.execHaltTakesEffect agent s
  | .dapResume agent => Sys2Proof.Machine.execDapResume agent s
  | .dapStep agent => Sys2Proof.Machine.execDapStep agent s
  | .dapRegRead agent sel => Sys2Proof.Machine.execDapRegRead agent sel s
  | .dapRegWrite agent sel d => Sys2Proof.Machine.execDapRegWrite agent sel d s
  | .dapChallenge j => Sys2Proof.Machine.execDapChallenge j s
  | .dapRespond d => Sys2Proof.Machine.execDapRespond d s
  | .dbgEnd p v => Sys2Proof.Machine.execDbgEnd p v s
  | .gpioFunc p g v => Sys2Proof.Machine.execGpioFunc p g v s
  | .pinParkEnd g => Sys2Proof.Machine.execPinParkEnd g s
  | .gpioPull p g v => Sys2Proof.Machine.execGpioPull p g v s
  | .faultNext p => Sys2Proof.Machine.execFaultNext p s
  | .lostNext p => Sys2Proof.Machine.execLostNext p s
  | .lostAll p => Sys2Proof.Machine.execLostAll p s
  | .faultLogEccError fixed what => Sys2Proof.Machine.execFaultLogEccError fixed what s
  | .tickInEdge => Sys2Proof.Machine.execTickInEdge s
  | .gqTickPoint => Sys2Proof.Machine.execGqTickPoint s
  | .periodExpiry => Sys2Proof.Machine.execPeriodExpiry s
  | .flywheelPoint => Sys2Proof.Machine.execFlywheelPoint s
  | .acquireSynthetic => Sys2Proof.Machine.execAcquireSynthetic s
  | .tickOutPulseEnd => Sys2Proof.Machine.execTickOutPulseEnd s
  | .sweepStart => Sys2Proof.Machine.execSweepStart s
  | .peRstNAssert => Sys2Proof.Machine.execPeRstNAssert s
  | .hotReset => Sys2Proof.Machine.execHotReset s
  | .linkDown => Sys2Proof.Machine.execLinkDown s
  | .bmeClear => Sys2Proof.Machine.execBmeClear s
  | .descriptorFetch => Sys2Proof.Machine.execDescriptorFetch s
  | .correctableLinkError => Sys2Proof.Machine.execCorrectableLinkError s
  | .loadTablesRead => Sys2Proof.Machine.execLoadTablesRead s
  | .loadSectionCopied => Sys2Proof.Machine.execLoadSectionCopied s
  | .loadSignatureCheck => Sys2Proof.Machine.execLoadSignatureCheck s
  | .sealedBufferFillDone => Sys2Proof.Machine.execSealedBufferFillDone s
  | .holdover => Sys2Proof.Machine.execHoldover s
  | .audioSamplePeriod => Sys2Proof.Machine.execAudioSamplePeriod s
  | .timestepMark => Sys2Proof.Machine.execTimestepMark s
  | .audioRingWrite => Sys2Proof.Machine.execAudioRingWrite s
  | .netLoadDone => Sys2Proof.Machine.execNetLoadDone s
  | .sealFillDone => Sys2Proof.Machine.execSealFillDone s
  | .polaritySwap => Sys2Proof.Machine.execPolaritySwap s
  | .lineRecovery => Sys2Proof.Machine.execLineRecovery s
  | .masterTimeout => Sys2Proof.Machine.execMasterTimeout s
  | .tickTelegramAbandon => Sys2Proof.Machine.execTickTelegramAbandon s
  | .domainRampStart => Sys2Proof.Machine.execDomainRampStart s
  | .domainPowerDown => Sys2Proof.Machine.execDomainPowerDown s
  | .peRstNRelease => Sys2Proof.Machine.execPeRstNRelease s
  | .paceRampDone => Sys2Proof.Machine.execPaceRampDone s
  | .coldReset => Sys2Proof.Machine.execColdReset s
  | .resetTakesHold => Sys2Proof.Machine.execResetTakesHold s
  | .resetFillEnd => Sys2Proof.Machine.execResetFillEnd s
  | .resetHoldEnd => Sys2Proof.Machine.execResetHoldEnd s
  | .resetDone => Sys2Proof.Machine.execResetDone s
  | .modRstNFullThreshold => Sys2Proof.Machine.execModRstNFullThreshold s
  | .modRstNColdThreshold => Sys2Proof.Machine.execModRstNColdThreshold s
  | .modRstNRise => Sys2Proof.Machine.execModRstNRise s
  | .vinValid => Sys2Proof.Machine.execVinValid s
  | .vaonValid => Sys2Proof.Machine.execVaonValid s
  | .vaonLoss => Sys2Proof.Machine.execVaonLoss s
  | .sysrefAbsent => Sys2Proof.Machine.execSysrefAbsent s
  | .sysrefReturn => Sys2Proof.Machine.execSysrefReturn s
  | .firmwareBoot => Sys2Proof.Machine.execFirmwareBoot s
  | .firmwareVerifyDone => Sys2Proof.Machine.execFirmwareVerifyDone s
  | .firmwareRunning => Sys2Proof.Machine.execFirmwareRunning s
  | .flashOpDone => Sys2Proof.Machine.execFlashOpDone s
  | .fuseBurnDone => Sys2Proof.Machine.execFuseBurnDone s
  | .calendarSecond => Sys2Proof.Machine.execCalendarSecond s
  | .sinkLineWrite => Sys2Proof.Machine.execSinkLineWrite s
  | .lineFlushTimeout => Sys2Proof.Machine.execLineFlushTimeout s
  | .bypass => Sys2Proof.Machine.execBypass s
  | .idcode => Sys2Proof.Machine.execIdcode s
  | .extest => Sys2Proof.Machine.execExtest s
  | .clamp => Sys2Proof.Machine.execClamp s
  | .highz => Sys2Proof.Machine.execHighz s
  | .dap => Sys2Proof.Machine.execDap s
  | .testLogicReset => Sys2Proof.Machine.execTestLogicReset s
  | .trstNLow => Sys2Proof.Machine.execTrstNLow s
  | .dapNop => Sys2Proof.Machine.execDapNop s
  | .dapLock => Sys2Proof.Machine.execDapLock s
  | .authVerifyDone => Sys2Proof.Machine.execAuthVerifyDone s
  | .authLockoutEnd => Sys2Proof.Machine.execAuthLockoutEnd s

end Sys2Proof.Machine
end

