-- ==== Sys2Proof/Machine/Timers.lean ====
section
/-!
DEFINITION. Time: what an empty queue does. One SYSREF edge of 20 ns passes, the clocks advance, and every command that the
spec fixes to an instant which has come joins the queue. Commands of engines, of buses and of the outside, whose instants the
spec leaves open, come from outside.
-/

namespace Sys2Proof.Machine

/-! ### The clocks (R11, R928, R929) -/

/-- The clocks after one edge of SYSREF; while SYSREF is absent, after one cycle of the 32.768 kHz clock; without VAON the
model's own count alone. -/
def Clock.tick (c : Clock) (vaon sysref : Bool) : Clock :=
  if !vaon then { c with now := c.now + 1 }
  else if sysref then { c with now := c.now + 1, gtime := c.gtime + 20, lf := c.lf + 655360 }
  else
    let acc := c.lfAcc + 18944
    let lf := (c.lf / 1000000000 + 1) * 1000000000
    if 32768 ≤ acc then { c with gtime := c.gtime + 30518, lf := lf, lfAcc := acc - 32768 }
    else { c with gtime := c.gtime + 30517, lf := lf, lfAcc := acc }

/-- Every access of the edge that ends has been served: a commit of the STOPPED unit is applied (R27); then the staged writes
and the arming of the edge take their place (R68, R120). -/
def State.settle (s : State) : State :=
  let s := s.commitEnd.keepRoutes.keepColn
  { s with
    dict := { s.dict with staged := joinSets s.dict.staged s.dict.fresh, fresh := [] }
    falt := { s.falt with lostFresh := 0 }
    dmem := { s.dmem with trimFresh := 0 }
    tick := { s.tick with armed := s.tick.armFresh.getD s.tick.armed, armFresh := none } }

/-- The hall cycles of one edge, rounded up. -/
def State.hallCycles (s : State) : Nat := (s.rd OD.HALL_MHZ + 49) / 50

/-- Core n has a stage or an MMA, so its feeder, a WLOAD or its sequencer can lose a cycle on an alcove bank. -/
def State.banksUsed (s : State) (n : Nat) : Bool :=
  s.powered (2 + n / 4) && !s.held n && (decide ((s.core n).st ≠ .idle) || !(s.core n).mmas.isEmpty)

/-- The cycles that the feeder, a WLOAD and the sequencer of each core at work lose on its banks in one edge (R395): a free
number of the hall cycles that they have (notes/assumptions/10.md). -/
def State.bankWaits (s : State) : State :=
  foldN 32 (fun s n =>
    if s.banksUsed n then
      let (v, s) := s.drawFree
      s.bumpN (OD.BANK_WAIT_CYCLES n) (v % (3 * s.hallCycles + 1))
    else s) s

/-- A bit error comes to a word or an entry: a second one in it is uncorrectable. -/
def upsetMark (m : Sparse Nat) (k : Nat) (uncorrectable : Bool) : Sparse Nat :=
  Sparse.put (fun _ => 0) m k (if uncorrectable || decide (Sparse.get (fun _ => 0) m k ≠ 0) then 2 else 1)

/-- Bit errors come to device memory and to accumulator entries; the next concourse transfers and seam checks are drawn
(R374, R390, R450, R480). Which errors come is free (notes/assumptions/40.md). -/
def State.upsetEdge (s : State) : State :=
  let s := { s with
    mem := { s.mem with
      marks := (Config.upsets s.clk.now).foldl
        (fun m e => if 8 * e.1 < windowBase then upsetMark m e.1 e.2 else m) s.mem.marks }
    bal := { s.bal with transfers := Config.transfers s.clk.now }
    arr := { s.arr with seamBad := Config.seamBad s.clk.now } }
  (Config.accUpsets s.clk.now).foldl (fun s e =>
    if e.1 < 32 ∧ e.2.1 < 16384 then
      s.setCore e.1 { s.core e.1 with accMarks := upsetMark (s.core e.1).accMarks e.2.1 e.2.2 }
    else s) s

/-- What runs with the SYSREF edges themselves: bit errors, TICK_OUT, TICK_IN, the panic time, the cycles lost on alcove banks, the hold
times (each microsecond). -/
def State.edgeWork (s : State) : State :=
  if !s.powered 1 then s
  else
    let s := s.countServed.upsetEdge.tickOutEdge.sampleTickIn.rtFull.panicTime.bankWaits
    if s.clk.now % 50 = 0 then s.holdTick else s

/-! ### The commands that are due -/

/-- A command if it is due. -/
def due (b : Bool) (i : Instr) : List Instr := if b then [i] else []

/-- An instant that has come. -/
def State.past (s : State) (edge : Nat) : Bool := decide (edge ≤ s.clk.now)

/-- The tick unit's commands but boundaries. -/
def State.dueTick (s : State) : List Instr :=
  due (match s.tick.outEnd with | some e => s.past e | none => false) .tickOutPulseEnd ++
  due (s.powered 1 && decide (s.tick.st ≠ .stopped) && !s.tick.swept && s.past s.sweepAt) .sweepStart

/-- The bundle unit's and the dispatcher's commands. A layer's grace that ends on the edge on which its copy ends comes first, so
that layer is late (DESIGN CHOICE, notes/assumptions/38.md). -/
def State.dueItems (s : State) : List Instr :=
  (match s.ledg.pub with
  | none => []
  | some e => (List.finRange 32).flatMap (fun l : Fin 32 =>
      due ((e.layer l.val).cfg.enable && (e.layer l.val).fixed.isNone &&
        s.past (e.point + usEdges (e.layer l.val).cfg.grace)) (.layerGraceExpiry l))) ++
  (s.flit.entries.filter (fun e => decide (e.st = .issued) && e.bg && s.past (e.issuedAt + usEdges (s.rd OD.BG_QUANTUM) + 1))).map
    (fun e => .bgQuantumExpiry (Fin.ofNat 70 e.engine)) ++
  (s.land.words.filter (fun e => s.holdExpired e.1)).map (fun e => .holdLimitExpiry (BitVec.ofNat 16 e.1)) ++
  (List.finRange 16).flatMap (fun t : Fin 16 =>
    due (decide ((s.tenancy t.val).unsignalled ≠ 0 ∧ s.rd (OD.CQ_IRQ_DELAY t.val) ≠ 0) &&
      s.past ((s.tenancy t.val).unsigSince + usEdges (s.rd (OD.CQ_IRQ_DELAY t.val)))) (.cqIrqDelayExpiry t))

/-- Every path of the dictionary, in the order of service (R131). -/
def allPaths : List Path := .fw 0 :: (List.finRange 16).map .ten ++ [.gq, .dbg, .pf0]

/-- The dictionary's and the GQ unit's commands. -/
def State.dueAccess (s : State) : List Instr :=
  allPaths.flatMap (fun p : Path =>
    due (match s.xfer p with | some x => s.past (x.since + usEdges 10000 + 1) | none => false) (.segmentTimeout p)) ++
  due (match s.gq.mail with
    | some m => (match m.sent with | some e => s.past (e + 150) | none => false)
    | none => false) .masterTimeout ++
  due (match s.gq.emit with | some g => s.past (g.edge + 641) | none => false) .tickTelegramAbandon ++
  due (decide (s.rd OD.GQ_MODE ≠ 0 ∧ s.rd OD.LINE_NOW = 0) && s.past (s.gq.clear + usEdges 1000)) .lineRecovery

/-- The ports', the vestibule's and the decoders' commands. -/
def State.dueStreams (s : State) : List Instr :=
  (List.finRange 4).flatMap (fun c : Fin 4 =>
    due (match (s.sens c).frame with
      | some f => s.past (f.since + usEdges (1000 * f.timeout))
      | none => false) (.frameTimeout c) ++
    due (match (s.sens c).header with | some t => s.past (t + usEdges 500000) | none => false) (.streamHoldExpiry c)) ++
  due s.ports.aud.markDue .timestepMark ++
  (List.finRange 4).flatMap (fun t : Fin 4 =>
    due (match (s.stream t).opened with
      | some b => decide ((s.stream t).linger ≠ 0) && s.past (b.since + usEdges (s.stream t).linger)
      | none => false) (.pkLingerExpiry t)) ++
  (List.finRange 2).flatMap (fun e : Fin 2 =>
    due (match s.decJob e.val, s.runningOn (36 + e.val) with
      | some j, some en => (match j.pic with
        | some p => !s.flag OD.GATE && !p.whole && !p.overrun &&
            decide (p.budget ≤ s.spineCycles (s.clk.now - en.issuedAt))
        | none => false)
      | _, _ => false) (.decodeBudgetExpiry e))

/-- The memory controller's commands. -/
def State.dueDram (s : State) : List Instr :=
  (List.finRange 8).flatMap (fun ch : Fin 8 => due (decide (s.tick.st = .stopped) && s.trimDue ch) (.trimApply ch)) ++
  s.dmem.rows.filterMap (fun e =>
    if s.past (Sparse.get (fun _ => 0) s.dmem.used e.1 + 4) then
      some (.rowClose (Fin.ofNat 8 (e.1 / 16)) (Fin.ofNat 16 e.1))
    else none) ++
  (List.finRange 8).flatMap (fun ch : Fin 8 =>
    due (decide (s.chSt ch = ChSt.active) && !bit s.dmem.down ch &&
      s.past (Sparse.get (fun _ => 0) s.dmem.last ch + usEdges 1)) (.channelPowerDownIdle ch) ++
    due (decide (s.chSt ch = ChSt.active) && s.past (Sparse.get (fun _ => 0) s.dmem.zq ch + usEdges 32000)) (.zqLatch ch))

/-- The commands of D0, of the pins and of the debug port. -/
def State.dueAon (s : State) : List Instr :=
  due (s.powered 27 && !s.trc.line.isEmpty && s.past (s.trc.openSince + usEdges 100)) .lineFlushTimeout ++
  (List.finRange 28).flatMap (fun d : Fin 28 =>
    due (match s.rampOf d with | some t => s.past (t + usEdges (2 * rampUs d)) | none => false) (.domainRampFail d)) ++
  due (match s.pow.reset with
    | some r => decide (s.rd OD.RESET_STATE = 1) && s.past (r.since + usEdges 100)
    | none => false) .resetTakesHold ++
  due (match s.pow.cold with | some t => s.past (t + usEdges 10) || decide (s.pow.mod_ = .cold) | none => false)
    .coldReset ++
  (List.finRange 16).flatMap (fun g : Fin 16 =>
    due (match s.pinSwitch g with
      | some (t, taken) => s.past (t + 6) || (!taken && s.past (t + 4))
      | none => false) (.pinParkEnd g)) ++
  due (s.dbg.lockout.isSome && !s.lockedOut) .authLockoutEnd

/-- The refills that firmware requests wait for (R497, R498). -/
def State.dueClk (s : State) : List Instr :=
  s.clok.waiting.map (fun w => .cacheRefill (Fin.ofNat 8 ((s.fitPool w.2).getD 0)))

/-- Every command that is due. -/
def State.dueRows (s : State) : List Instr :=
  s.dueAon ++ s.dueClk ++ s.dueTick ++ s.dueItems ++ s.dueAccess ++ s.dueStreams ++ s.dueDram

/-! ### Accesses that reach the dictionary engine together (R131, R139) -/

/-- The place of a path in the order of service: firmware, tenancies 0 to 15, the GQ bus, the debug port, PF0. -/
def pathRank : Path → Nat
  | .fw _ => 0
  | .ten t => 1 + t.val
  | .gq => 17
  | .dbg => 18
  | .pf0 => 19

/-- Put an access behind every one that is served before it or came on the same path. -/
def insertByRank (a : Path × Instr) : List (Path × Instr) → List (Path × Instr)
  | [] => [a]
  | b :: r => if pathRank a.1 < pathRank b.1 then a :: b :: r else b :: insertByRank a r

/-- The order in which accesses of one cycle are served. -/
def serviceOrder (as : List (Path × Instr)) : List (Path × Instr) := as.foldl (fun l a => insertByRank a l) []

/-- Accesses that reach the dictionary engine on one cycle, each with its path, join the queue in their order of service. -/
def State.arrive (s : State) (as : List (Path × Instr)) : State :=
  { s with pending := s.pending ++ (serviceOrder as).map (·.2) }

/-! ### An empty queue -/

/-- The arrivals of the present edge and the INTERNAL counter's point. -/
def State.arrivalDue (s : State) : List Instr :=
  due (match s.gq.point with | some g => s.past g.edge | none => false) .gqTickPoint ++
  due (decide (s.tick.inEdge = some s.clk.now)) .tickInEdge ++
  due (s.sourceIs 0 && decide (s.tick.st ≠ .stopped) && s.past (s.tick.last + s.period)) .periodExpiry

/-- A synthetic point that is due on the present edge, on which no arrival has made a boundary (R23, R32, R67). -/
def State.synthDue (s : State) : List Instr :=
  due s.synthPoint (if s.tick.st = .acquire then .acquireSynthetic else .flywheelPoint)

/-- What time makes on the present edge after the edge's commands: the calendar's second, to which a write of CAL_NOW on its cycle
comes first (R920), and the boundary, an arrival's, else a synthetic one. -/
def State.boundaryDue (s : State) : List Instr :=
  due (s.pow.vaon && decide (s.boot.secStart + s.boot.secLen ≤ s.lfNow)) .calendarSecond ++
  (match s.arrivalDue with
  | [] => s.synthDue
  | is => is)

/-- Commands join the queue's end. -/
def State.post (s : State) (is : List Instr) : State := { s with pending := s.pending ++ is }

/-- The next edge. -/
def State.nextEdge (s : State) : State :=
  let s := s.settle
  let s := { s with clk := s.clk.tick s.pow.vaon s.pow.sysref }
  let s := if s.pow.vaon && s.pow.sysref then s.edgeWork else s
  s.post s.dueRows

/-- What the block does when no command waits. -/
def State.idle (s : State) : State :=
  match s.boundaryDue with
  | [] => s.nextEdge
  | is => s.post is

end Sys2Proof.Machine
end

