-- ==== Sys2Proof/Machine/Bar.lean ====
section
/-!
DEFINITION. What a read of BAR space returns (R152, R154, R155, R171): the dictionary windows, a tenancy's page, PF0's link
status page, and the vector controls and pending bits of MSI-X. No command reads them; these are the values the host sees.
-/

namespace Sys2Proof.Machine

/-- Every register of BAR space is read in 32-bit words; a byte of one. -/
def regByte (v off : Nat) : Byte := BitVec.ofNat 8 (v / 2 ^ (8 * (off % 4)))

/-- DW_STATUS (Table HOST-5). -/
def DictWindow.status (w : DictWindow) : Nat :=
  b2n w.busy + 2 * b2n w.done + 4 * b2n w.last + 8 * b2n w.toggle + 16 * b2n w.overrun + w.valid % 128 * 2 ^ 8 +
    w.abort % 2 ^ 16 * 2 ^ 16

/-- A byte of a dictionary window; GO of DW_CMD starts a step and is not kept. -/
def DictWindow.byteAt (w : DictWindow) (off : Nat) : Byte :=
  if off < 0x04 then regByte (w.cmd % 256 / 2 * 2) off
  else if off < 0x08 then regByte (w.object % 2 ^ 24) off
  else if off < 0x0C then regByte w.length off
  else if off < 0x10 then regByte w.status off
  else if 0x40 ≤ off ∧ off < 0x80 then w.data.getD (off - 0x40) 0#8
  else 0#8

/-- A byte of tenancy t's page (Table HOST-4). -/
def State.pageByte (s : State) (t : Fin 16) (off : Nat) : Byte :=
  let x := s.tenancy t.val
  if off < 0x80 then (s.win (.ten t)).byteAt off
  else if 0x1000 ≤ off ∧ off < 0x1004 then regByte x.sqTail off
  else if 0x1008 ≤ off ∧ off < 0x100C then regByte x.cqHead off
  else if 0x1010 ≤ off ∧ off < 0x1014 then regByte x.sqHead off
  else if 0x1018 ≤ off ∧ off < 0x101C then regByte (x.cqTail + b2n x.phase * 2 ^ 16) off
  else if 0x1020 ≤ off ∧ off < 0x1024 then regByte x.st.code off
  else 0#8

/-- A byte of PF0's management page: its window, and LINK_STATE, LINK_WIDTH and LINK_SPEED. -/
def State.mgmtByte (s : State) (off : Nat) : Byte :=
  if off < 0x80 then (s.win .pf0).byteAt off
  else if off = 0x1000 then BitVec.ofNat 8 (s.rd OD.LINK_STATE)
  else if off = 0x1001 then BitVec.ofNat 8 (s.rd OD.LINK_WIDTH)
  else if off = 0x1002 then BitVec.ofNat 8 (s.rd OD.LINK_SPEED)
  else 0#8

/-- A byte of a function's MSI-X table and pending bits, `none` where it is a message address or message data, which the host
keeps there and no rule of the part reads. -/
def Msix.byteAt (m : Msix) (off : Nat) : Option Byte :=
  if off < 0x400 then
    (if off % 16 < 12 then none else some (regByte (b2n (m.mask.getLsbD (off / 16))) off))
  else if 0x800 ≤ off ∧ off < 0x808 then some (BitVec.ofNat 8 (m.pend.toNat / 2 ^ (8 * (off - 0x800))))
  else some 0#8

/-- A BAR of a function (Table HOST-3). -/
inductive Bar where
  | pf0Page | pf0Msix | pf1Page | pf1Msix
  deriving DecidableEq, Repr

/-- A byte that a read of BAR space returns while the link is up: all ones while a full device reset is in progress (R152). -/
def State.barByte (s : State) (b : Bar) (off : Nat) : Option Byte :=
  if s.rd OD.RESET_STATE ≠ 0 then some 0xFF#8
  else
    match b with
    | .pf0Page => some (s.mgmtByte off)
    | .pf0Msix => s.host.pf0.byteAt off
    | .pf1Page => some (s.pageByte (Fin.ofNat 16 (off / 0x10000)) (off % 0x10000))
    | .pf1Msix => s.host.pf1.byteAt off

end Sys2Proof.Machine
end

