-- ==== Sys2Proof/Safety.lean ====
section
/-!
DEFINITION. The terms of the claims: a well-kept machine (stores in their one canonical form, the fault stores within
their places), what no command ever does to a state, when a write of an object reaches its unit, and what an answered step
leaves on its path.
-/

namespace Sys2Proof.Machine

/-- A memory is in its canonical form: addresses strictly rising, no entry equal to what an unlisted address reads as. -/
def Memory.wf (m : List Host.Cell) : Bool := Sparse.wf (fun _ => 0#8) m

/-- The stores that every access goes through are canonical: the dictionary's values and bytes, device memory with its error
marks, and host memory. -/
structure State.Canonical (s : State) : Prop where
  od : Sparse.wf odDefault s.od = true
  odb : Sparse.wf (fun _ => []) s.odb = true
  cells : Memory.wf s.mem.cells = true
  marks : Sparse.wf (fun _ => 0) s.mem.marks = true
  host : Memory.wf s.host.mem = true

/-- The fault log holds at most 256 records (R1008) and the lost-item list at most 1,024 entries (R1022). -/
structure State.Bounded (s : State) : Prop where
  log : s.falt.log.length ≤ 256
  lost : s.falt.lost.length ≤ 1024

/-- The state's parts, as a frame names them: one per field of `State` but the queue and the count of free values, and
host memory apart from the rest of the host link. -/
inductive Field where
  | clk | od | odb | dict | tick | host | hostMem | land | flit | falt | trc | cores | newels | arr | mem | bal | ldr | clok
  | ports | ledg | vest | vid | coln | dmem | pow | boot | gq | dbg | pins
  deriving DecidableEq, Repr

/-- A part of the state is the same in both. -/
def Field.same (f : Field) (s t : State) : Prop :=
  match f with
  | .hostMem => t.host.mem = s.host.mem
  | .clk => t.clk = s.clk
  | .od => t.od = s.od
  | .odb => t.odb = s.odb
  | .dict => t.dict = s.dict
  | .tick => t.tick = s.tick
  | .host => t.host = s.host
  | .land => t.land = s.land
  | .flit => t.flit = s.flit
  | .falt => t.falt = s.falt
  | .trc => t.trc = s.trc
  | .cores => t.cores = s.cores
  | .newels => t.newels = s.newels
  | .arr => t.arr = s.arr
  | .mem => t.mem = s.mem
  | .bal => t.bal = s.bal
  | .ldr => t.ldr = s.ldr
  | .clok => t.clok = s.clok
  | .ports => t.ports = s.ports
  | .ledg => t.ledg = s.ledg
  | .vest => t.vest = s.vest
  | .vid => t.vid = s.vid
  | .coln => t.coln = s.coln
  | .dmem => t.dmem = s.dmem
  | .pow => t.pow = s.pow
  | .boot => t.boot = s.boot
  | .gq => t.gq = s.gq
  | .dbg => t.dbg = s.dbg
  | .pins => t.pins = s.pins

/-- What holds between the state before a command and the state after it: the queue and the count of SYSREF edges are
untouched, canonical stores stay canonical, the fault stores stay within their places, no free value is drawn twice, and
every part that is not listed is the same. -/
structure Keep (fs : List Field) (s t : State) : Prop where
  pending : t.pending = s.pending
  now : t.clk.now = s.clk.now
  canonical : s.Canonical → t.Canonical
  bounded : s.Bounded → t.Bounded
  free : s.free ≤ t.free
  frame : ∀ f, f ∉ fs → f.same s t

/-! ### Accesses to the dictionary -/

/-- A step on a path is served: the path is live, and a window of its kind is not busy (R152, R156). -/
def State.open_ (s : State) (p : Path) : Bool := s.pathLive p && !(isWindow p && (s.win p).busy)

/-- A write of the number `v` in `len` bytes to the object of key `k` passes every check of Table DICT-5 that comes before
its unit, and reaches the unit as `m`. -/
def State.admits (s : State) (p : Path) (k len v m : Nat) : Bool :=
  s.open_ p &&
    (match s.checkWrite p (k / 256) (k % 256) len v with
    | .ok (_, m') => decide (m' = m)
    | .error _ => false)

/-- A whole write of a BLOB of `len` bytes passes every check before its unit (Table DICT-5, R107 to R110). -/
def State.admitsBlob (s : State) (p : Path) (k len : Nat) : Bool :=
  s.open_ p && (match s.checkBlob p (k / 256) (k % 256) len with | .ok () => true | .error _ => false)

/-- A whole read of a BLOB that holds bytes passes every check before its unit. -/
def State.admitsRead (s : State) (p : Path) (k : Nat) : Bool :=
  s.open_ p &&
    (match s.checkObject p false (k / 256) (k % 256) 0 with | .ok o => decide (o.ty.size = 0) | .error _ => false) &&
    (s.xfer p).isNone && decide (p ≠ .dbg) && s.objPowered k

/-- The last response on a path. -/
def State.lastResp (s : State) (p : Path) : Resp := Sparse.get (fun _ => {}) s.dict.resp (pathId p)

/-- The last step on a path was answered with `r`; a window holds the answer and is busy until it is delivered. -/
def State.answered (s : State) (p : Path) (r : Resp) : Bool :=
  decide (s.lastResp p = r) && (!isWindow p || ((s.win p).busy && decide ((s.win p).answer = some r)))

/-- The machine's stores of data are the same: device memory, host memory, the landings, the slots, the matrix cores. -/
structure State.SameData (s t : State) : Prop where
  mem : t.mem = s.mem
  host : t.host.mem = s.host.mem
  land : t.land = s.land
  flit : t.flit = s.flit
  cores : t.cores = s.cores

/-- Every numeric object but the listed ones reads as before. -/
structure State.SameBut (s t : State) (ks : List Nat) : Prop where
  rd : ∀ k, k ∉ ks → t.rd k = s.rd k


/-! ### Boundaries -/

/-- A boundary of the tick unit on which no commit is armed (R18, R23, R32, R38, R40): it falls on the present edge, the epoch
counter takes its next value, the unit's state is as Table TICK-2 says; the rest of the tick unit's record, but for the run of
synthetic boundaries, the sweep and TICK_OUT's mark, is as it was. -/
def BoundaryMade (s t : State) (epoch : BitVec 32) (st : TickSt) (synthetic : Bool) : Prop :=
  t.tick.epoch = epoch ∧ t.tick.st = st ∧ t.tick.last = s.clk.now ∧ t.tick.lastSynth = synthetic ∧
  t.tick.lastReal = (if synthetic then s.tick.lastReal else s.clk.now) ∧ t.tick.outMark = some (s.clk.now + 1) ∧
  t.tick.startPending = false ∧ t.tick.swept = false ∧ t.tick.out = s.tick.out ∧ t.tick.audio = s.tick.audio ∧
  t.clk = s.clk ∧ t.pending = s.pending

/-! ### Allocation answers -/

/-! ### Instructions of a matrix core -/

/-- The trace unit's own counts and events, which any traced operation may move (R937, R944). -/
def traceKeys : List Nat := [OD.PACKETS, OD.LOST_PACKETS, OD.TRC_BYTES, OD.OVERFLOW_EVENTS, OD.TRC_EVENTS]

/-! ### A matrix core's instructions -/

/-- The machine in which the instruction at core n's program counter starts: a core that must be sealed has its stage sealed
first (R742). -/
def State.readyCore (s : State) (n : Nat) : State := if s.coreSealed n then s.sealStage n else s

/-- Core n issues the instruction at its program counter for the stage of entry `e`, with the machine as `u` (R391, R399,
R425, R445): it can issue, the stage runs on it, the address is one of the program's, and no uncorrectable error stands in
the word; a correctable one is put right and recorded. -/
structure State.Issues (s : State) (n : Nat) (e : Entry) (u : State) : Prop where
  can : s.canIssue n = true
  runs : s.runningOn n = some e
  inside : ((s.readyCore n).core n).inProgram ((s.readyCore n).core n).pc = true
  sound : (s.readyCore n).mark ((s.readyCore n).core n).pc ≠ 2
  machine : u = if (s.readyCore n).mark ((s.readyCore n).core n).pc = 1
    then (s.readyCore n).eccCorrected n ((s.readyCore n).core n).pc else s.readyCore n

/-- A core after an instruction has retired: the program counter, the debug port's register writes, and the end of a STEP
(R955, R958). -/
def Core.retiredAt (c : Core) (pc : Nat) : Core :=
  let c := ({ c with pc := pc }).applyRegw
  if c.stepping then { c with stepping := false, st := .halted } else c

/-- From `u` to `t` one instruction of core n retires, the program counter goes to `pc`, and the core is otherwise left as
`c`: the other cores are as before, INSTRUCTIONS counts one (R434), no other numeric object changes, and only the
dictionary, the cores and the trace unit's counts are touched. -/
structure State.Retires (u t : State) (n pc : Nat) (c : Core) : Prop where
  core : t.core n = c.retiredAt pc
  others : ∀ m, m ≠ n → t.core m = u.core m
  count : t.rd (OD.INSTRUCTIONS n) = min (u.rd (OD.INSTRUCTIONS n) + 1) 0xFFFFFFFFFFFFFFFF
  numbers : u.SameBut t [OD.INSTRUCTIONS n]
  keeps : Keep [.od, .cores, .trc] u t

/-- The command completes: from `u` the instruction retires, the next one follows, and the core is left as `c`. -/
def State.Gives (s u : State) (n : Nat) (i : Instr) (c : Core) : Prop :=
  ∃ t, Sys2Proof.Machine.exec i s = .next t ∧ u.Retires t n ((u.core n).pc + 8) c

/-! ### Exceptions and jumps -/

/-- From `u`, the stage of entry `e` on core n raises an exception of CLASS 1 (array) or 2 (core) (R433, R434, Tables CORE-9
and CORE-10): the exception word and its address are written, the exception counts, the DMA queue is abandoned, a parked
operation is withdrawn, and the stage then ends with STAGE_FAULT, cause 0x09. -/
def State.Excepts (u t : State) (n : Nat) (e : Entry) (array : Bool) (code pc user addr : Nat) : Prop :=
  ∃ v, t = v.stageFault e 9 0 (some (excWord array code pc e.run e.stage e.flight user, addr)) ∧
    v.rd (OD.LAST_EXCEPTION n) = excWord array code pc e.run e.stage e.flight user ∧ v.rd (OD.LAST_EXC_ADDR n) = addr ∧
    v.rd (OD.CORE_EXCEPTIONS n) = min (u.rd (OD.CORE_EXCEPTIONS n) + 1) 0xFFFFFFFF ∧
    v.rd (OD.ARRAY_EXCEPTIONS n) = (if array then min (u.rd (OD.ARRAY_EXCEPTIONS n) + 1) 0xFFFFFFFF
      else u.rd (OD.ARRAY_EXCEPTIONS n)) ∧
    v.core n = { u.core n with dmaq := [], running := none, stepping := false } ∧
    v.land.waiters = u.land.waiters.filter (fun x => x.agent ≠ n) ∧ Keep [.od, .host, .land, .trc, .cores] u v

/-- The command raises a core exception at the current instruction. -/
def State.Raises (s u : State) (n : Nat) (e : Entry) (i : Instr) (code addr : Nat) : Prop :=
  ∃ t, Sys2Proof.Machine.exec i s = .next t ∧ u.Excepts t n e false code (u.core n).pc 0 (addr % 2 ^ 48)

/-- The command completes with a taken branch or a jump to `target`: the instruction retires there with the core left as `c`,
and its INSTR packet of kind `kind` follows (R935). -/
def State.Jumps (s u : State) (n : Nat) (i : Instr) (target kind : Nat) (c : Core) : Prop :=
  ∃ v, u.Retires v n target c ∧ Sys2Proof.Machine.exec i s = .next (v.traceInstr n (alcoveOff target) kind)

/-- A jump to `target` by Table CORE-5: it is taken where the target is a multiple of 8 inside the program; off a multiple of
8 it raises MISALIGNED with the target, outside the program PC_RANGE (R425, Table CORE-10). -/
def State.JumpsTo (s u : State) (n : Nat) (e : Entry) (i : Instr) (target kind : Nat) (c : Core) : Prop :=
  (target % 8 = 0 → (u.core n).inProgram target → s.Jumps u n i target kind c) ∧
  (target % 8 ≠ 0 → s.Raises u n e i Exc.misaligned target) ∧
  (target % 8 = 0 → ¬(u.core n).inProgram target → s.Raises u n e i Exc.pcRange 0)

/-- A branch: taken where `p` holds, else the next instruction follows. -/
def State.Branches (s u : State) (n : Nat) (e : Entry) (i : Instr) (target : Nat) (p : Prop) : Prop :=
  (p → s.JumpsTo u n e i target 0 (u.core n)) ∧ (¬p → s.Gives u n i (u.core n))

/-! ### Memory -/

/-- Every byte of a range is device memory for an access (Table TOUR-3). -/
def State.isMem (s : State) (q : Acc) (wr : Bool) (a len : Nat) : Prop := ∀ i, i < len → s.place q wr (a + i) = .mem

/-- No error awaits a transfer of the concourse (R480). -/
def State.smooth (s : State) : Prop := ∀ t ∈ s.bal.transfers, t = none

/-- A read of a range meets no error: no byte stands in a word with one (R450, R451), and no transfer has one. -/
def State.clean (s : State) (a len : Nat) : Prop := (∀ i, i < len → s.mark (a + i) = 0) ∧ s.smooth

/-- A write of a range meets no error: it covers a part of no word with an uncorrectable one (R452), and no transfer has
one. -/
def State.writable (s : State) (q : Acc) (a len : Nat) : Prop :=
  s.partialBad q (inSpan a len) (rangeFrom a len) = none ∧ s.smooth

/-- From `u` to `v` the bytes `bs` have been stored from address `a` on: they read back, every other byte of memory is as
before, and only device memory is touched, with the counts of the master port (R462). -/
structure State.Stored (u v : State) (a : Nat) (bs : List Byte) : Prop where
  bytes : v.memBytes a bs.length = bs
  others : ∀ x, (x < a ∨ a + bs.length ≤ x) → v.memByte x = u.memByte x
  keeps : Keep [.mem, .bal] u v

/-- The context of the accesses of a stage on core n (R164). -/
def State.stageAcc (s : State) (n : Nat) (e : Entry) : Acc := { agent := n, ctx := some (s.stageTen e) }

/-- The effective address S[RA] + IMM modulo 2^64, as the spec writes it (R404). -/
def Core.effective (c : Core) (ra : Nat) (imm : BitVec 32) : Nat := (BitVec.ofInt 64 ((c.sreg ra).toInt + imm.toInt)).toNat

/-! ### Vector lanes -/

/-- The command completes with lanes of V[vd] written where the predicate selects them, lane l with `f free l`, where `free`
gives the instruction's free lanes (R403). -/
def State.Lanes (s u : State) (n : Nat) (i : Instr) (vd pred : Nat) (f : (Nat → Lane) → Nat → Lane) : Prop :=
  ∃ t, Sys2Proof.Machine.exec i s = .next t ∧
    State.Retires { u with free := u.free + 1 } t n ((u.core n).pc + 8)
      ((u.core n).setLanes vd pred (f (Config.freeLane u.free)))

/-- The lanes of V[va] that a predicate selects, in ascending order. -/
def Core.selected (c : Core) (pred va : Nat) : List Lane :=
  ((List.range 64).filter (fun l => (c.preg pred).getLsbD l)).map (fun l => c.lane va l)

/-! ### The matrix array -/

/-- The command raises an array exception at the current instruction. -/
def State.RaisesArray (s u : State) (n : Nat) (e : Entry) (i : Instr) (code : Nat) : Prop :=
  ∃ t, Sys2Proof.Machine.exec i s = .next t ∧ u.Excepts t n e true code (u.core n).pc 0 0

/-- The first `k` rows are read where they stand, one every `stride` bytes from `a` on, and `rows` are their codes; `v` is the
machine after the reads (R351, R407, R408). -/
def State.Rows (u : State) (n : Nat) (e : Entry) (dtype elems stride k a : Nat) (rows : List (List Nat)) (v : State) : Prop :=
  State.readRows n e dtype elems stride k u a [] = (some rows, v)

/-! ### Landings -/

/-- Nothing is registered on a landing: no parked operation, no stage, no packer stream (R223, R271, R600). -/
def State.quiet (s : State) (L : Nat) : Prop :=
  (∀ x ∈ s.land.waiters, x.landing ≠ L) ∧ s.gated L = [] ∧ s.returners L = []

/-- An operation reaches the landing store (R81, R242); FORCE comes from the debug port with write authority. -/
def State.landsOn (s : State) (q : Requester) (L : Nat) (op : LandOp) : Prop :=
  s.powered 1 = true ∧ s.landReach q L = true ∧ (op = .force → q.agent.val = 66 ∧ s.rd OD.DBG_LEVEL = 2)

/-- From `s` to `t` an operation has left `w` as landing L's word and `p` as its payload port: the other landings are as
before, no numeric object but those named and the trace unit's counts has changed, and only the landing store, the
dictionary, the fault log, the host's message signals and the trace buffer are touched. -/
structure State.Lands (s t : State) (L w : Nat) (p : LandPort) (ks : List Nat) : Prop where
  word : t.landRaw L = w % 2 ^ 64
  port : t.port L = p
  words : ∀ M, M ≠ L → t.landRaw M = s.landRaw M
  ports : ∀ M, M ≠ L → t.port M = s.port M
  numbers : s.SameBut t (ks ++ traceKeys)
  keeps : Keep [.od, .host, .land, .falt, .trc, .flit] s t

/-- A landing word changed by an agent: outside LOCK mode AGENT names it (R226). -/
def changedBy (a w w' : Nat) : Nat := if w' = w ∨ modeOf w' = 2 then w' else withAgent w' a

/-! ### Landing rows -/

/-- A landing operation of the stage of `e` on core n that returns a marked payload entry seals the stage first (R742). -/
def State.entrySeen (s : State) (n : Nat) (e : Entry) (L : Nat) (op : LandOp) : State :=
  let marked := match op with
    | .take => s.sealedEntry L 0
    | .peek k => s.sealedEntry L k
    | _ => false
  if marked && s.landReach (s.stageReq n e) L then s.sealStage n else s

/-- A row of Table LAND-3 by an agent that is not parked, with the context that its operations carry (R242): what the
operation answers is the agent's answer; an operation error faults the agent's stage, or is recorded, with cause 0x05, an
access that the context does not reach with 0x04 (R80, R82, R230). A matrix core's blocking operations are its own
instructions, and the debug port never parks. -/
def State.RowAnswers (s : State) (i : Instr) (q : Requester) (L : Nat) (op : LandOp) : Prop :=
  let q : Requester := ⟨q.agent, carriedCtx q⟩
  let a := q.agent.val
  let u := if s.landReach q L && s.powered 1 then s.sealNewel a L op else s
  s.parkedAgent a = false → (op.blocks → 32 ≤ a ∧ a ≠ 66) →
    (∀ t, u.landOp q L op 0 = (some .done, t) → Sys2Proof.Machine.exec i s = .next (t.landResp a .done)) ∧
    (∀ t w, u.landOp q L op 0 = (some (.word w), t) → Sys2Proof.Machine.exec i s = .next (t.landResp a (.word w))) ∧
    (∀ t, u.landOp q L op 0 = (some .parked, t) → Sys2Proof.Machine.exec i s = .next (t.landResp a .none)) ∧
    (∀ t, u.landOp q L op 0 = (some .error, t) →
      Sys2Proof.Machine.exec i s = .next (t.landFail a (landAddr L op) 5 OD.OP_ERRORS)) ∧
    (∀ t, u.landOp q L op 0 = (none, t) → Sys2Proof.Machine.exec i s = .next (t.landFail a (landAddr L op) 4 0))

/-! ### Landing instructions -/

/-- A landing operation of the stage of `e` on core n by an instruction (R230, R242, R420, R421): a word goes to S[rd], the
instruction retires when the operation is complete, and a blocking one parks the core; an operation error faults the stage
with cause 0x05, an access that the context does not reach with 0x04 and the address. -/
def State.LandsBy (s u : State) (n : Nat) (e : Entry) (i : Instr) (L : Nat) (op : LandOp) (rd : Nat) : Prop :=
  let r := (u.entrySeen n e L op).landOp (u.stageReq n e) L op rd
  (∀ t, r = (some .done, t) →
    ∃ x, Sys2Proof.Machine.exec i s = .next x ∧ t.Retires x n ((t.core n).pc + 8) (t.core n)) ∧
  (∀ t w, r = (some (.word w), t) →
    ∃ x, Sys2Proof.Machine.exec i s = .next x ∧ t.Retires x n ((t.core n).pc + 8) ((t.core n).setS rd w)) ∧
  (∀ t, r = (some .parked, t) → Sys2Proof.Machine.exec i s = .next (t.setCore n
    (if (t.core n).stepping then { t.core n with stepping := false, wasParked := true }
     else { t.core n with st := .parked }))) ∧
  (∀ t, r = (some .error, t) → Sys2Proof.Machine.exec i s = .next (t.stageFault e 5 0 none)) ∧
  (∀ t, r = (none, t) → Sys2Proof.Machine.exec i s = .next (t.stageFault e 4 (landAddr L op) none))

/-! ### Issue -/

/-- The entries of the lane queues by slot, run and stage. -/
def Entry.id (e : Entry) : Nat × Nat × Nat := (e.slot, e.run, e.stage)

/-- The state as the dispatcher issues entry `e`: the entry is ISSUED now, and its FLIGHT packet follows (R271, R274, R936). -/
def State.issuing (s : State) (e : Entry) : State :=
  (s.mapEntry e (fun x => { x with st := .issued, issuedAt := s.clk.now })).traceFlight e.slot e.stage e.run 2 e.engine
    e.flight 0xFF

/-! ### Rings -/

/-- A byte of host memory on a bus address. -/
def State.hostByte (s : State) (bus : Nat) : Byte := Sparse.get (fun _ => 0#8) s.host.mem bus

/-- A tenancy's ring state but its counts of unsignalled records. -/
def Tenancy.ring (x : Tenancy) : Tenancy := { x with unsignalled := 0, unsigSince := 0 }

/-! ### Sensor ports -/

/-- A burst on port c is heard: the port is on, and a high lane rate has been calibrated (R530). -/
structure State.hears (s : State) (c : Nat) : Prop where
  on : s.portOn c = true
  cal : (s.sens c).rate ≤ 1500 ∨ (s.sens c).calibrated = true

/-- A frame as it is closed (R536, R537): flag 0 when lines are missing, flag 6 when no Frame End came. -/
def Frame.closedAs (f : Frame) (unended : Bool) (time epoch : Nat) : Frame :=
  let fl := if f.line < f.height then setBit f.flags 0 true else f.flags
  { f with flags := if unended then setBit fl 6 true else fl, endTime := time, epoch := epoch }

/-! ### The debug port -/

/-- The debug port takes an operation: it is powered, the DAP register is selected, and no operation is PENDING (R948). -/
def State.dapReady (s : State) : Bool := s.powered 27 && decide (s.dbg.tap = .dap) && !s.dapPending

end Sys2Proof.Machine

namespace Sys2Proof

/-- The parts of the state that a command may touch; every other part it leaves as it is. -/
def Instr.touches (i : Instr) : List Machine.Field :=
  match i with
  | .dapNop =>
    []
  | .trimApply .. | .rtPanicExit .. | .lineRecovery =>
    [.od]
  | .abortOwnTransfer .. | .segmentTimeout .. =>
    [.dict]
  | .tickOutPulseEnd =>
    [.tick]
  | .msixUnmask .. | .cqIrqDelayExpiry .. | .descriptorFetch =>
    [.host]
  | .lineFlushTimeout =>
    [.trc]
  | .ulpsExit .. =>
    [.ports]
  | .rowClose .. | .channelPowerDownIdle .. | .refresh .. | .zqLatch .. =>
    [.dmem]
  | .modRstNColdThreshold | .modRstNRise | .sysrefReturn =>
    [.pow]
  | .fuseBurnDone =>
    [.boot]
  | .dapChallenge .. | .authLockoutEnd =>
    [.dbg]
  | .pinParkEnd .. =>
    [.pins]
  | .sqTail .. | .cqHead .. =>
    [.od, .host]
  | .faultLogEccError .. =>
    [.od, .falt]
  | .keeperRampDown .. =>
    [.od, .cores]
  | .skewCalibration .. | .streamHoldExpiry .. =>
    [.od, .ports]
  | .eventRoute .. =>
    [.od, .coln]
  | .linkUp .. | .domainRampStart | .resetDone | .vinValid =>
    [.od, .pow]
  | .flashOpDone =>
    [.od, .boot]
  | .tickTelegramAbandon =>
    [.od, .gq]
  | .dapRegRead .. =>
    [.od, .dbg]
  | .dwStepDone .. =>
    [.dict, .host]
  | .sweepStart =>
    [.tick, .ledg]
  | .sealFillDone =>
    [.mem, .ledg]
  | .refreshRatePoll .. | .vinBandEntry .. | .correctableLinkError | .holdover | .polaritySwap =>
    [.od, .host, .falt]
  | .balustradeWindowEnd .. | .rtPanicEntry .. =>
    [.od, .host, .bal]
  | .decodeBudgetExpiry .. =>
    [.od, .host, .vid]
  | .wakeRequest .. | .peRstNRelease =>
    [.od, .host, .pow]
  | .resetHoldEnd =>
    [.od, .dmem, .pow]
  | .samplePreload .. | .bypass | .idcode | .extest | .clamp | .highz | .dap | .testLogicReset =>
    [.od, .dbg, .pins]
  | .dapHalt .. | .dapRegWrite .. =>
    [.cores, .newels, .dbg]
  | .unsealFillDone .. =>
    [.cores, .mem, .ledg]
  | .segmentedOpen .. | .unitAnswerTimeout .. | .keyRequest .. | .chCmdInit ..
  | .gateWrite .. | .flashRead .. | .alarmEnable .. | .gpioPull .. | .faultNext .. | .lostNext .. | .lostAll .. =>
    [.od, .dict, .host, .falt]
  | .tilePlan .. =>
    [.od, .host, .flit, .falt]
  | .traceBufferEccError .. =>
    [.od, .host, .falt, .trc]
  | .galleryScrub .. | .dramScrub .. =>
    [.od, .host, .falt, .mem]
  | .otherPacket .. | .tdmFrame .. =>
    [.od, .host, .falt, .ports]
  | .decoderContextEccError .. | .encoderContextEccError .. =>
    [.od, .host, .falt, .vid]
  | .colonnadeEccError .. =>
    [.od, .host, .falt, .coln]
  | .domainRampFail .. =>
    [.od, .host, .falt, .pow]
  | .persistCommitDone .. =>
    [.od, .host, .falt, .boot]
  | .lineFaultDetect .. | .probe .. | .tickTelegramRx .. | .tickTelegramTx .. | .masterTimeout =>
    [.od, .host, .falt, .gq]
  | .dapRespond .. | .authVerifyDone =>
    [.od, .host, .falt, .dbg]
  | .paceRampDone =>
    [.od, .host, .trc, .pow]
  | .calendarSecond =>
    [.od, .host, .pow, .boot]
  | .pairFillDone .. =>
    [.od, .mem, .ledg, .pow]
  | .persistEntry .. | .persistClear .. =>
    [.od, .odb, .dict, .host, .falt]
  | .gqResponseRx .. | .mailboxTx .. =>
    [.od, .odb, .host, .falt, .gq]
  | .tickOutModeWrite .. | .tickCommit .. =>
    [.od, .dict, .tick, .host, .falt]
  | .trcFlush .. =>
    [.od, .dict, .host, .falt, .trc]
  | .audioRouteSwapWrite .. =>
    [.od, .dict, .host, .falt, .ports]
  | .unsealCore .. =>
    [.od, .dict, .host, .falt, .ledg]
  | .netLoad .. | .inject .. | .netRouteSwapWrite .. =>
    [.od, .dict, .host, .falt, .coln]
  | .trimArm .. =>
    [.od, .dict, .host, .falt, .dmem]
  | .rcRead .. | .domainReqWrite .. | .powerCmd .. =>
    [.od, .dict, .host, .falt, .pow]
  | .flashProgram .. | .flashErase .. | .keyProvision .. | .keyRevoke .. | .secEpochCommit .. | .persistCommit .. =>
    [.od, .dict, .host, .falt, .boot]
  | .gpioFunc .. =>
    [.od, .dict, .host, .falt, .pins]
  | .audioSamplePeriod =>
    [.od, .tick, .host, .falt, .ports]
  | .claimEccError .. =>
    [.od, .host, .falt, .clok, .ledg]
  | .batchQueueEccError .. =>
    [.od, .host, .falt, .ledg, .vest]
  | .channelInitDone .. =>
    [.od, .host, .falt, .dmem, .pow]
  | .haltTakesEffect .. =>
    [.od, .host, .trc, .cores, .newels]
  | .load .. | .evict .. | .cancel .. =>
    [.od, .odb, .dict, .host, .falt, .ldr]
  | .segment .. =>
    [.od, .odb, .dict, .host, .falt, .boot]
  | .gqmGo .. =>
    [.od, .odb, .dict, .host, .falt, .gq]
  | .vaonValid =>
    [.od, .odb, .host, .falt, .pow, .boot]
  | .paceReq .. =>
    [.od, .dict, .host, .falt, .trc, .pow]
  | .calNow .. =>
    [.od, .dict, .host, .falt, .pow, .boot]
  | .firmwareBoot | .firmwareVerifyDone =>
    [.od, .host, .falt, .newels, .pow, .boot]
  | .netLoadDone =>
    [.od, .host, .falt, .mem, .bal, .coln]
  | .firmwareRunning =>
    [.od, .host, .falt, .dmem, .pow, .boot]
  | .domainReady .. =>
    [.od, .ports, .dmem, .pow, .boot, .dbg]
  | .loadTablesRead | .loadSignatureCheck =>
    [.od, .odb, .host, .falt, .mem, .bal, .ldr]
  | .sinkLineWrite =>
    [.od, .host, .hostMem, .falt, .trc, .mem, .bal]
  | .poolFillDone .. | .cacheWriteback .. | .sealedBufferFillDone =>
    [.od, .host, .hostMem, .falt, .mem, .bal, .clok]
  | .linePacket .. | .frameEnd .. | .frameTimeout .. =>
    [.od, .host, .hostMem, .falt, .mem, .bal, .ports]
  | .pkLingerExpiry .. | .batchSlotFillDone .. =>
    [.od, .host, .hostMem, .falt, .mem, .bal, .vest]
  | .dramAccess .. =>
    [.od, .host, .hostMem, .falt, .mem, .bal, .dmem]
  | .loadSectionCopied =>
    [.od, .odb, .host, .hostMem, .falt, .mem, .bal, .ldr]
  | .frameStart .. =>
    [.od, .host, .hostMem, .falt, .mem, .bal, .clok, .ports, .ledg]
  | .batchDelivery .. =>
    [.od, .host, .land, .flit, .falt, .trc, .cores, .ledg, .vest]
  | .frameDelivery .. =>
    [.od, .host, .land, .flit, .falt, .trc, .cores, .ports, .ledg, .vest]
  | .dapResume .. | .dapStep .. =>
    [.od, .host, .land, .flit, .trc, .cores, .newels, .clok, .ledg, .dbg]
  | .trstNLow | .dapLock =>
    [.od, .host, .land, .flit, .trc, .cores, .newels, .clok, .ledg, .dbg, .pins]
  | .layerCopyDone .. | .layerGraceExpiry .. =>
    [.od, .host, .hostMem, .land, .flit, .falt, .trc, .cores, .mem, .bal, .ledg, .vest]
  | .dbgEnd .. =>
    [.od, .dict, .host, .land, .flit, .falt, .trc, .cores, .newels, .clok, .ledg, .dbg, .pins]
  | .audioRingWrite =>
    [.od, .host, .hostMem, .land, .flit, .falt, .trc, .cores, .mem, .bal, .ports, .ledg, .vest]
  | .resetTakesHold =>
    [.od, .odb, .dict, .host, .hostMem, .flit, .falt, .trc, .mem, .bal, .ldr, .ledg, .pow, .gq]
  | .dapRead .. =>
    [.od, .dict, .host, .land, .flit, .falt, .trc, .cores, .mem, .bal, .ledg, .vest, .pow, .dbg]
  | .landingRead .. | .landingInit .. | .landingAdd .. | .landingSet .. | .landingClear .. | .landingAcquire ..
  | .landingTry .. | .landingRelease .. | .landingArrive .. | .landingWait .. | .landingAck .. | .landingForce ..
  | .landingPush .. | .landingTake .. | .landingPortStatus .. | .landingPeek .. | .holdLimitExpiry ..
  | .landingEccError .. | .stageIssue .. | .bgQuantumExpiry .. | .nop .. | .endStage .. | .fence .. | .fail ..
  | .tmark .. | .outadd .. | .shget .. | .shset .. | .planrd .. | .add .. | .sub .. | .mul .. | .and .. | .or ..
  | .xor .. | .shl .. | .shr .. | .sra .. | .slt .. | .sltu .. | .min .. | .max .. | .addi .. | .andi .. | .ori ..
  | .xori .. | .shli .. | .shri .. | .srai .. | .lui .. | .beq .. | .bne .. | .blt .. | .bge .. | .bltu ..
  | .bgeu .. | .jmp .. | .jal .. | .jr .. | .ld .. | .lds .. | .st .. | .vadd .. | .vsub .. | .vmul .. | .vfma ..
  | .vmin .. | .vmax .. | .vand .. | .vor .. | .vxor .. | .vsra .. | .vcvt .. | .vcmp .. | .vsel .. | .vact ..
  | .vred .. | .vld .. | .vst .. | .vbcast .. | .vext .. | .accrd .. | .accwr .. | .aflags .. | .wload ..
  | .wloadt .. | .mma .. | .mmaComplete .. | .dma .. | .dmawait .. | .lread .. | .linit .. | .ladd .. | .lset ..
  | .lclr .. | .lacq .. | .ltry .. | .lrel .. | .larr .. | .lwait .. | .lack .. | .lpush .. | .ltake .. | .lport ..
  | .lpeek .. | .dmaDescriptorRun .. | .dmaDescriptorDone .. | .reservedOp .. | .cacheRefill ..
  | .scalerSourceTake .. | .scalerJobEnd .. | .decodeJobEnd .. | .encodeJobEnd .. =>
    [.od, .host, .hostMem, .land, .flit, .falt, .trc, .cores, .newels, .mem, .bal, .clok, .ledg, .vest, .vid]
  | .timestepMark =>
    [.od, .host, .hostMem, .land, .flit, .falt, .trc, .cores, .mem, .bal, .ports, .ledg, .vest, .coln, .pow]
  | .alloc .. | .release .. | .agentReset .. =>
    [.od, .dict, .host, .hostMem, .land, .flit, .falt, .trc, .cores, .newels, .mem, .bal, .clok, .ledg, .vest,
      .vid]
  | .descriptorCheck .. | .stageComplete .. | .itemStopDone .. | .bmeClear =>
    [.od, .odb, .host, .hostMem, .land, .flit, .falt, .trc, .cores, .newels, .mem, .bal, .ldr, .clok, .ledg,
      .vest, .vid]
  | .slotTableEccError .. | .tjSample .. | .peRstNAssert | .hotReset | .linkDown | .modRstNFullThreshold =>
    [.od, .odb, .tick, .host, .hostMem, .land, .flit, .falt, .trc, .cores, .newels, .mem, .bal, .ldr, .clok,
      .ledg, .vest, .vid, .pow]
  | .sysrefAbsent =>
    [.clk, .od, .odb, .tick, .host, .hostMem, .land, .flit, .falt, .trc, .cores, .newels, .mem, .bal, .ldr, .clok,
      .ledg, .vest, .vid, .pow]
  | .resetCmdFull .. | .resetCmdCold .. =>
    [.od, .odb, .dict, .tick, .host, .hostMem, .land, .flit, .falt, .trc, .cores, .newels, .mem, .bal, .ldr,
      .clok, .ledg, .vest, .vid, .pow]
  | .tickStrike .. | .tickInEdge | .gqTickPoint | .periodExpiry | .flywheelPoint | .acquireSynthetic =>
    [.od, .odb, .dict, .tick, .host, .hostMem, .land, .flit, .falt, .trc, .cores, .newels, .arr, .mem, .bal, .ldr,
      .clok, .ports, .ledg, .vest, .vid, .pow, .gq]
  | .lifecycleAdvance .. =>
    [.od, .odb, .dict, .tick, .host, .hostMem, .land, .flit, .falt, .trc, .cores, .newels, .mem, .bal, .ldr,
      .clok, .ledg, .vest, .vid, .pow, .boot, .dbg, .pins]
  | .resetFillEnd =>
    [.od, .odb, .dict, .tick, .host, .land, .flit, .falt, .trc, .cores, .newels, .arr, .mem, .bal, .ldr, .clok,
      .ports, .ledg, .vest, .vid, .coln, .pow, .boot, .dbg, .pins]
  | .vinLoss .. | .domainPowerDown =>
    [.od, .odb, .dict, .tick, .host, .hostMem, .land, .flit, .falt, .trc, .cores, .newels, .arr, .mem, .bal, .ldr,
      .clok, .ports, .ledg, .vest, .vid, .coln, .dmem, .pow, .boot, .dbg, .pins]
  | .expeditedAccess .. | .registerWrite .. | .stagedWrite .. | .gqRequest .. | .dapWrite .. =>
    [.od, .odb, .dict, .tick, .host, .hostMem, .land, .flit, .falt, .trc, .cores, .newels, .arr, .mem, .bal, .ldr,
      .clok, .ports, .ledg, .vest, .vid, .coln, .pow, .boot, .gq, .dbg, .pins]
  | .coldReset =>
    [.od, .odb, .dict, .tick, .host, .hostMem, .land, .flit, .falt, .trc, .cores, .newels, .arr, .mem, .bal, .ldr,
      .clok, .ports, .ledg, .vest, .vid, .coln, .dmem, .pow, .boot, .gq, .dbg, .pins]
  | .vaonLoss =>
    [.clk, .od, .odb, .dict, .tick, .host, .hostMem, .land, .flit, .falt, .trc, .cores, .newels, .arr, .mem, .bal,
      .ldr, .clok, .ports, .ledg, .vest, .vid, .coln, .dmem, .pow, .boot, .gq, .dbg, .pins]

end Sys2Proof
end

