-- ==== Sys2Proof/Certificates/Slice0/Obligations.lean ====
section
/-!
DEFINITION. The statements for the provers: what the commands of the block do and leave alone, family by family, and what holds of
every command and every step. Their terms stand in Safety.lean.
-/

open Sys2Proof Sys2Proof.Machine

/-- An arrival below the window (R22): in LOCKED or FLYWHEEL, an edge, a telegram tick point or a strike with c < L counts in
EARLY_ARRIVALS and changes nothing of the tick unit but that the edge waits no longer. -/
def Obligations.EarlyArrivalsAreIgnored : Prop :=
  (∀ s : State, s.sourceIs 1 = true → s.scanning = false → s.tick.st = .locked ∨ s.tick.st = .flywheel →
    s.clk.now - s.tick.last < s.lowerBound →
    ∃ t, Sys2Proof.Machine.exec .tickInEdge s = .next t ∧ t.rd OD.EARLY_ARRIVALS = min (s.rd OD.EARLY_ARRIVALS + 1) 0xFFFFFFFF ∧
      t.tick = { s.tick with inEdge := none } ∧ s.SameBut t [OD.EARLY_ARRIVALS] ∧ Keep [.od, .tick] s t) ∧
  (∀ (g : GqTick) (s : State), s.gq.point = some g → g.edge ≤ s.clk.now → s.sourceIs 2 = true →
    s.tick.st = .locked ∨ s.tick.st = .flywheel → s.clk.now - s.tick.last < s.lowerBound →
    ∃ t, Sys2Proof.Machine.exec .gqTickPoint s = .next t ∧ t.rd OD.EARLY_ARRIVALS = min (s.rd OD.EARLY_ARRIVALS + 1) 0xFFFFFFFF ∧
      t.gq = { s.gq with point := none } ∧ s.SameBut t [OD.EARLY_ARRIVALS] ∧ Keep [.od, .gq] s t) ∧
  (∀ s : State, s.sourceIs 3 = true → s.tick.st = .locked ∨ s.tick.st = .flywheel → s.clk.now - s.tick.last < s.lowerBound →
    (s.strikeOrder 1).1 = 0 ∧ (s.strikeOrder 1).2.rd OD.EARLY_ARRIVALS = min (s.rd OD.EARLY_ARRIVALS + 1) 0xFFFFFFFF ∧
      s.SameBut (s.strikeOrder 1).2 [OD.EARLY_ARRIVALS] ∧ Keep [.od] s (s.strikeOrder 1).2)

/-- A step with a command at the front of the queue is that command on the state with the queue's rest. -/
def Obligations.AStepRunsTheFrontCommand : Prop :=
  ∀ (c : Instr) (rest : List Instr) (s : State),
    Sys2Proof.Machine.step { s with pending := c :: rest } = Sys2Proof.Machine.exec c { s with pending := rest }

/-- An empty queue lets time pass (the model's choice, notes/assumptions/1.md): the calendar's second and the boundary that time makes
on the present edge join the queue (R67, R920); else one edge passes, the clocks advance, a commit of the STOPPED unit is applied (R27), the writes and the
arming of the edge that ends take their place (R68), and every command whose instant has come waits. Where no such commit
waits, only the parts move that run with the edges themselves: TICK_OUT and TICK_IN, the counts of panic, of served bytes and
of bank waits, the hold times, what a mark or a trim of the edge would find (R560, R719, R793), and the free bit errors and their
like (notes/assumptions/40.md). -/
def Obligations.AnEmptyQueueLetsTimePass : Prop :=
  ∀ s : State, s.pending = [] →
    (s.boundaryDue ≠ [] → Sys2Proof.Machine.step s = .next { s with pending := s.boundaryDue }) ∧
    (s.boundaryDue = [] → ∃ t, Sys2Proof.Machine.step s = .next t ∧
      t.clk.now = s.clk.now + 1 ∧ t.pending = t.dueRows ∧ s.free ≤ t.free ∧
      t.tick.armFresh = none ∧ t.dict.fresh = [] ∧ t.falt.lostFresh = 0 ∧
      (s.tick.commitDue = false → t.clk = s.clk.tick s.pow.vaon s.pow.sysref ∧
        t.dict = { s.dict with staged := joinSets s.dict.staged s.dict.fresh, fresh := [] } ∧
        t.tick.armed = s.tick.armFresh.getD s.tick.armed ∧ t.falt = { s.falt with lostFresh := 0 } ∧
        (∀ f, f ∉ ([.clk, .od, .dict, .tick, .land, .falt, .cores, .arr, .mem, .bal, .ports, .coln, .dmem] : List Field) → f.same s t)))

/-- Every command completes, whatever the state, and touches only the parts that its entry of `Instr.touches` names: no command
stops the machine, none touches the queue or the count of edges, none draws a free value twice. -/
def Obligations.EveryCommandCompletesWithinItsParts : Prop :=
  ∀ (c : Instr) (s : State), ∃ t, Sys2Proof.Machine.exec c s = .next t ∧ Keep c.touches s t

/-- The state after power-on: nothing waits, every store is canonical, the fault stores are empty, only D0 is powered, the tick
unit is STOPPED, no firmware runs, and CAL_NOW reads 2000-01-01 00:00:00 (R912, R903, R853, R29). That the stores are empty and the
memory unwritten is the model's choice where the spec gives no reset value (notes/assumptions/4.md, 5.md). -/
def Obligations.ResetIsTheMachineAtPowerOn : Prop :=
  State.reset.Canonical ∧ State.reset.Bounded ∧ State.reset.pending = [] ∧ State.reset.falt.log = [] ∧ State.reset.falt.lost = [] ∧
  State.reset.mem.cells = [] ∧ State.reset.flit.entries = [] ∧ State.reset.tick.st = .stopped ∧
  State.reset.rd OD.DOMAIN_ON = 1 ∧ State.reset.rd OD.FW_VERSION = 0 ∧ State.reset.rd OD.FW_SLOT = 0 ∧
  State.reset.rd OD.CAL_NOW = dateOf 2000 1 1 0 0 0 ∧ State.reset.rd OD.CAL_STATE = 0 ∧ State.reset.rd OD.PERSIST_STATE = 0 ∧
  State.reset.rd OD.DBG_LEVEL = 0

/-- The stores stay canonical and the fault stores within their places: if they are so before a step, of whatever command or of
an empty queue, they are so after it (R1008, R1022). -/
def Obligations.EveryStepKeepsTheStores : Prop :=
  ∀ s t : State, s.Canonical → s.Bounded → Sys2Proof.Machine.step s = .next t → t.Canonical ∧ t.Bounded

/-- The orders of the power controller that firmware and the host write (R855, R861, Table POWR-2): an admitted write that no
rule of R857, R861, R897 or R988 turns away sets the target. DOMAIN_REQ takes the value and GATE stays; POWER_CMD sets both by
the command; GATE takes its value alone. A failed domain that the new target asks for is asked for again (R882). -/
def Obligations.PowerOrdersSetTheTarget : Prop :=
  (∀ (p : Path) (v : BitVec 32) (s : State),
    s.admits p OD.DOMAIN_REQ 4 v.toNat v.toNat → ¬(bit v.toNat 1 ∧ s.boot.life = Life.retired) →
    s.dropForbidden v.toNat = false →
    ∃ t, Sys2Proof.Machine.exec (.domainReqWrite p v) s = .next t ∧ t.answered p {} ∧
      t.rd OD.DOMAIN_REQ = v.toNat ∧ t.rd OD.GATE = s.rd OD.GATE ∧
      t.rd OD.DOMAIN_FAIL = clearBits (s.rd OD.DOMAIN_FAIL) v.toNat ∧
      (∀ k, k ≠ OD.DOMAIN_REQ → k ≠ OD.GATE → k ≠ OD.DOMAIN_FAIL → k ≠ OD.TRANSITION_US → t.rd k = s.rd k) ∧
      s.SameData t) ∧
  (∀ (p : Path) (v : Byte) (s : State),
    s.admits p OD.POWER_CMD 1 v.toNat v.toNat → 1 ≤ v.toNat → v.toNat ≤ 4 → (v.toNat = 3 → s.tick.st = .stopped) →
    (3 ≤ v.toNat → s.rd OD.RESET_CAUSE ≠ 7 ∧ s.boot.life ≠ Life.retired ∧ s.tooCold = false) →
    s.dropForbidden (s.cmdTarget v.toNat).1 = false →
    ∃ t, Sys2Proof.Machine.exec (.powerCmd p v) s = .next t ∧ t.answered p {} ∧
      t.rd OD.DOMAIN_REQ = (if v.toNat = 1 then 1 else if v.toNat = 2 then 0x00C00001 else s.rd OD.RUN_SET) ∧
      t.rd OD.GATE = (if v.toNat = 4 then 0 else 1) ∧
      (∀ k, k ≠ OD.DOMAIN_REQ → k ≠ OD.GATE → k ≠ OD.DOMAIN_FAIL → k ≠ OD.TRANSITION_US → t.rd k = s.rd k) ∧
      s.SameData t) ∧
  (∀ (p : Path) (v : Byte) (s : State),
    s.admits p OD.GATE 1 v.toNat v.toNat → (v.toNat = 1 → s.tick.st = .stopped) →
    ∃ t, Sys2Proof.Machine.exec (.gateWrite p v) s = .next t ∧ t.answered p {} ∧ t.rd OD.GATE = v.toNat ∧
      (∀ k, k ≠ OD.GATE → t.rd k = s.rd k) ∧ s.SameData t)

/-- Objects whose accepted write has no unit to ask (R60, R121, R560, R667, R716, R789, R911, R976): the object takes the
value, or the request is pending, and no other object, nor any store of data, changes. A write of a staged object joins the
staged set and changes no object (R121). -/
def Obligations.PlainWritesStore : Prop :=
  (∀ (p : Path) (v : Byte) (s : State), s.admits p OD.PORT_ROUTE_SWAP 1 v.toNat v.toNat →
    ∃ t, Sys2Proof.Machine.exec (.audioRouteSwapWrite p v) s = .next t ∧ t.answered p {} ∧
      t.rd OD.PORT_ROUTE_SWAP = v.toNat ∧ s.SameBut t [OD.PORT_ROUTE_SWAP] ∧ s.SameData t) ∧
  (∀ (p : Path) (v : Byte) (s : State), s.admits p OD.COLN_ROUTE_SWAP 1 v.toNat v.toNat →
    ∃ t, Sys2Proof.Machine.exec (.netRouteSwapWrite p v) s = .next t ∧ t.answered p {} ∧
      t.rd OD.COLN_ROUTE_SWAP = v.toNat ∧ s.SameBut t [OD.COLN_ROUTE_SWAP] ∧ s.SameData t) ∧
  (∀ (p : Path) (ch : Fin 8) (v : Byte) (s : State), s.admits p (OD.TRIM_ARM ch) 1 v.toNat v.toNat →
    ∃ t, Sys2Proof.Machine.exec (.trimArm p ch v) s = .next t ∧ t.answered p {} ∧
      t.rd (OD.TRIM_ARM ch) = v.toNat ∧ s.SameBut t [OD.TRIM_ARM ch] ∧ s.SameData t) ∧
  (∀ (p : Path) (g : Fin 16) (v : Byte) (s : State), s.admits p (OD.GPIO_PULL g) 1 v.toNat v.toNat →
    ∃ t, Sys2Proof.Machine.exec (.gpioPull p g v) s = .next t ∧ t.answered p {} ∧
      t.rd (OD.GPIO_PULL g) = v.toNat ∧ s.SameBut t [OD.GPIO_PULL g] ∧ s.SameData t) ∧
  (∀ (p : Path) (x : Fin 16) (s : State), s.admits p (OD.KEY_REQUEST x) 1 1 1 →
    ∃ t, Sys2Proof.Machine.exec (.keyRequest p x 1) s = .next t ∧ t.answered p {} ∧
      t.rd (OD.KEY_PENDING x) = 1 ∧ s.SameBut t [OD.KEY_PENDING x] ∧ s.SameData t) ∧
  (∀ (p : Path) (v : Byte) (s : State), s.admits p OD.ALARM_ENABLE 1 v.toNat v.toNat →
    ∃ t, Sys2Proof.Machine.exec (.alarmEnable p v) s = .next t ∧ t.answered p {} ∧
      t.rd OD.ALARM_ENABLE = v.toNat ∧
      t.rd OD.CAL_STATE = (if v.toNat = 1 then setBit (s.rd OD.CAL_STATE) 2 false else s.rd OD.CAL_STATE) ∧
      s.SameBut t [OD.ALARM_ENABLE, OD.CAL_STATE] ∧ s.SameData t) ∧
  (∀ (p : Path) (g : Fin 16) (v : Byte) (s : State), s.admits p (OD.GPIO_FUNC g) 1 v.toNat v.toNat →
    ∃ t, Sys2Proof.Machine.exec (.gpioFunc p g v) s = .next t ∧ t.answered p {} ∧
      t.rd (OD.GPIO_FUNC g) = v.toNat ∧ s.SameBut t [OD.GPIO_FUNC g, OD.PIN_SWITCHES] ∧ s.SameData t ∧
      (s.rd (OD.GPIO_FUNC g) ≠ v.toNat → t.pinSwitch g = some (s.clk.now, false)) ∧
      (s.rd (OD.GPIO_FUNC g) = v.toNat → t.pins = s.pins)) ∧
  (∀ (p : Path) (v : Byte) (s : State), s.admits p OD.TICK_OUT_MODE 1 v.toNat v.toNat →
    ∃ t, Sys2Proof.Machine.exec (.tickOutModeWrite p v) s = .next t ∧ t.answered p {} ∧
      t.rd OD.TICK_OUT_MODE = v.toNat ∧ s.SameBut t [OD.TICK_OUT_MODE] ∧ s.SameData t ∧
      (s.rd OD.TICK_OUT_MODE ≠ v.toNat → t.tick.out = (decide (v.toNat = 2) && s.tick.out))) ∧
  (∀ (p : Path) (idx : BitVec 16) (sub : Byte) (d : Word) (m : Nat) (o : ObjDef) (s : State), s.open_ p →
    objLookup idx.toNat sub.toNat = some o → o.acc = .RS →
    s.checkWrite p idx.toNat sub.toNat o.ty.size d.toNat = .ok (o, m) →
    ∃ t, Sys2Proof.Machine.exec (.stagedWrite p idx sub d) s = .next t ∧ t.answered p {} ∧
      t.stagedEntry (odKey idx.toNat sub.toNat) = some m ∧ s.SameBut t [] ∧ s.SameData t)

/-- Orders that the loader, the colonnade, the bundle unit, the memory controller, the trace unit and the debug port take by a
write (R305 to R308, R332, R686, R716, R747, R787, R942, R963): what an admitted order that its unit accepts sets going. -/
def Obligations.OrdersStartTheirWork : Prop :=
  (∀ (p : Path) (s : State), s.admits p OD.LOAD_CMD 1 1 1 → s.rd OD.LOAD_STATE ≠ 1 → s.rd OD.LOAD_SLOT < 16 →
    s.rd (OD.IMG_STATE (s.rd OD.LOAD_SLOT)) = 0 →
    ∃ t, Sys2Proof.Machine.exec (.load p) s = .next t ∧ t.answered p {} ∧
      t.rd (OD.IMG_STATE (s.rd OD.LOAD_SLOT)) = 1 ∧ t.rd OD.LOAD_STATE = 1 ∧ t.rd OD.LOAD_PROGRESS = 0 ∧
      (∃ r, t.ldr.run = some r ∧ r.slot = s.rd OD.LOAD_SLOT ∧ r.source = s.rd OD.LOAD_SOURCE ∧
        r.length = s.rd OD.LOAD_LENGTH ∧ r.cores = s.rd OD.LOAD_CORES) ∧
      s.SameBut t [OD.IMG_STATE (s.rd OD.LOAD_SLOT), OD.LOAD_STATE, OD.LOAD_PROGRESS] ∧ s.SameData t) ∧
  (∀ (p : Path) (s : State), s.admits p OD.LOAD_CMD 1 2 2 → s.rd OD.LOAD_STATE ≠ 1 →
    s.rd (OD.IMG_STATE (s.rd OD.LOAD_SLOT)) = 2 → s.imgItems (s.rd OD.LOAD_SLOT) ≠ 0 →
    ∃ t, Sys2Proof.Machine.exec (.evict p) s = .next t ∧ t.answered p {} ∧
      t.rd (OD.IMG_STATE (s.rd OD.LOAD_SLOT)) = 3 ∧ s.SameBut t [OD.IMG_STATE (s.rd OD.LOAD_SLOT)] ∧ s.SameData t) ∧
  (∀ (p : Path) (r : LoadRun) (s : State), s.admits p OD.LOAD_CMD 1 3 3 → s.ldr.run = some r →
    ∃ t, Sys2Proof.Machine.exec (.cancel p) s = .next t ∧ t.answered p {} ∧
      t.ldr.run = none ∧ t.rd OD.LOAD_STATE = 0 ∧ t.rd OD.LOAD_RESULT = 0x11 ∧ t.rd OD.LOAD_FAIL_OFFSET = 0xFFFFFFFF ∧
      s.SameData t) ∧
  (∀ (p : Path) (s : State), s.admits p OD.NET_CMD 1 1 1 →
    (s.rd OD.COL_STATE = ColSt.empty ∨ s.rd OD.COL_STATE = ColSt.ready) →
    ∃ t, Sys2Proof.Machine.exec (.netLoad p 1) s = .next t ∧ t.answered p {} ∧
      t.rd OD.COL_STATE = ColSt.loading ∧ t.coln.load = some (s.rd OD.NET_SOURCE, s.rd OD.NET_LENGTH) ∧
      t.coln.neurons = [] ∧ t.coln.fans = [] ∧ s.SameData t) ∧
  (∀ (p : Path) (v : BitVec 32) (s : State), s.admits p OD.INJECT 4 v.toNat v.toNat → s.coln.inject = none →
    ∃ t, Sys2Proof.Machine.exec (.inject p v) s = .next t ∧ t.answered p {} ∧
      t.coln.inject = some (v.toNat % 2 ^ 24) ∧ s.SameBut t [] ∧ s.SameData t) ∧
  (∀ (p : Path) (n : Byte) (s : State), s.admits p OD.UNSEAL_CORE 1 n.toNat n.toNat →
    bit (s.rd OD.CORE_SEAL) n.toNat = false → (s.core n.toNat).st = .idle → s.joined n.toNat = false →
    ∃ t, Sys2Proof.Machine.exec (.unsealCore p n) s = .next t ∧ t.answered p {} ∧
      t.ledg.unsealing = setBit s.ledg.unsealing n.toNat true ∧ s.SameBut t [] ∧ s.SameData t) ∧
  (∀ (p : Path) (ch : Fin 8) (s : State), s.admits p (OD.CH_CMD ch) 1 1 1 → s.chSt ch = ChSt.untrimmed →
    ∃ t, Sys2Proof.Machine.exec (.chCmdInit p ch 1) s = .next t ∧ t.answered p {} ∧
      t.rd (OD.CH_STATE ch) = ChSt.init ∧ s.SameData t) ∧
  (∀ (p : Path) (s : State), s.admits p OD.TRC_FLUSH 1 1 1 →
    ∃ t, Sys2Proof.Machine.exec (.trcFlush p 1) s = .next t ∧ t.answered p {} ∧
      t.trc = s.trc.pad ∧ s.SameBut t [] ∧ s.SameData t) ∧
  (∀ (p : Path) (s : State), s.admits p OD.DBG_END 1 1 1 →
    ∃ t, Sys2Proof.Machine.exec (.dbgEnd p 1) s = .next t ∧ t.answered p {} ∧
      t.rd OD.DBG_LEVEL = 0 ∧ t.rd OD.DBG_KEY_SLOT = 0xFF ∧ t.mem = s.mem ∧ t.host.mem = s.host.mem) ∧
  (∀ (p : Path) (v : Byte) (s : State), s.admits p OD.PACE_REQ 1 v.toNat v.toNat → s.tick.st ≠ .stopped →
    ∃ t, Sys2Proof.Machine.exec (.paceReq p v) s = .next t ∧ t.answered p {} ∧
      t.rd OD.PACE_REQ = v.toNat ∧ s.SameBut t [OD.PACE_REQ] ∧ s.SameData t ∧
      t.pow.paceTo = (if min v.toNat (s.rd OD.PACE_CAP) = s.rd OD.PACE then none
        else some (min v.toNat (s.rd OD.PACE_CAP), decide (min v.toNat (s.rd OD.PACE_CAP) ≤ s.pow.supply))))

/-- Orders to the AON controller's stores (R889 to R892, R895 to R900, R906 to R917): an admitted write that its unit accepts
starts the flash operation or the burn it asks for, or changes the persist store or the calendar. -/
def Obligations.FlashFuseAndPersistOrders : Prop :=
  (∀ (p : Path) (v : BitVec 32) (s : State), s.admits p OD.FLASH_ERASE 4 v.toNat v.toNat → v.toNat % 65536 = 0 →
    s.burning = false → s.flashBusy = false → s.flashWritable v.toNat (v.toNat + 65536) →
    ∃ t, Sys2Proof.Machine.exec (.flashErase p v) s = .next t ∧ t.answered p {} ∧ t.rd OD.FLASH_STATE = 1 ∧
      t.boot = { s.boot with op := some (.erase v.toNat) } ∧ s.SameBut t [OD.FLASH_STATE] ∧ s.SameData t) ∧
  (∀ (p : Path) (bs : List Byte) (s : State), s.admitsBlob p OD.FLASH_DATA bs.length →
    bs.length = s.rd OD.FLASH_LENGTH → s.burning = false → s.flashBusy = false →
    s.flashWritable (s.rd OD.FLASH_OFFSET) (s.rd OD.FLASH_OFFSET + bs.length) →
    ∃ t, Sys2Proof.Machine.exec (.flashProgram p bs) s = .next t ∧ t.answered p {} ∧ t.rd OD.FLASH_STATE = 1 ∧
      t.rd OD.FLASH_OFFSET = s.rd OD.FLASH_OFFSET + bs.length ∧
      t.boot = { s.boot with op := some (.program (s.rd OD.FLASH_OFFSET) bs) } ∧
      s.SameBut t [OD.FLASH_STATE, OD.FLASH_OFFSET] ∧ s.SameData t) ∧
  (∀ (p : Path) (s : State), s.admitsRead p OD.FLASH_DATA → s.flashBusy = false → 0 < s.rd OD.FLASH_LENGTH →
    flashReadable (s.rd OD.FLASH_OFFSET) (s.rd OD.FLASH_OFFSET + s.rd OD.FLASH_LENGTH) →
    ∃ t, Sys2Proof.Machine.exec (.flashRead p) s = .next t ∧
      (t.lastResp p).bytes = s.flashBytes (s.rd OD.FLASH_OFFSET) (s.rd OD.FLASH_LENGTH) ∧ (t.lastResp p).code = 0 ∧
      t.rd OD.FLASH_OFFSET = s.rd OD.FLASH_OFFSET + s.rd OD.FLASH_LENGTH ∧
      t.boot = s.boot ∧ s.SameBut t [OD.FLASH_OFFSET] ∧ s.SameData t) ∧
  (∀ (p : Path) (k : Fin 4) (s : State), s.admits p (OD.KEY_REVOKE k) 1 1 1 → s.burning = false →
    (s.keySlot k).state = 1 → s.boot.runKey ≠ some k.val →
    ∃ t, Sys2Proof.Machine.exec (.keyRevoke p k 1) s = .next t ∧ t.answered p {} ∧
      t.boot = { s.boot with burn := some (.revoke k) } ∧ s.SameBut t [] ∧ s.SameData t) ∧
  (∀ (p : Path) (v : Byte) (s : State), s.admits p OD.SEC_EPOCH_COMMIT 1 v.toNat v.toNat → v.toNat ≤ 64 →
    s.boot.floor < v.toNat → s.burning = false → s.rd OD.FW_VERSION ≠ 0 → v.toNat ≤ s.boot.runEpoch →
    ∃ t, Sys2Proof.Machine.exec (.secEpochCommit p v) s = .next t ∧ t.answered p {} ∧
      t.boot = { s.boot with burn := some (.floor v.toNat) } ∧ s.SameBut t [] ∧ s.SameData t) ∧
  (∀ (p : Path) (k : Fin 4) (bs : List Byte) (s : State), s.admitsBlob p (OD.KEY_PROVISION k) bs.length →
    bs.length = 97 → fieldAt bs 0 1 < 16 → onCurve (fieldAt bs 1 48) (fieldAt bs 49 48) → s.burning = false →
    s.boot.life = Life.manufacture → (s.keySlot k).state = 0 →
    ∃ t, Sys2Proof.Machine.exec (.keyProvision p k bs) s = .next t ∧ t.answered p {} ∧
      t.boot = { s.boot with burn := some (.key k (fieldAt bs 0 1) (fieldAt bs 1 48 + 2 ^ 384 * fieldAt bs 49 48)) } ∧
      s.SameBut t [] ∧ s.SameData t) ∧
  (∀ (p : Path) (n : Fin 32) (bs : List Byte) (s : State), s.admitsBlob p (OD.PERSIST_ENTRY n) bs.length →
    ∃ t, Sys2Proof.Machine.exec (.persistEntry p n bs) s = .next t ∧ t.answered p {} ∧
      t.rdBytes (OD.PERSIST_ENTRY n) = bs ∧ t.rd OD.PERSIST_DIRTY = 1 ∧ s.SameBut t [OD.PERSIST_DIRTY] ∧
      (∀ k, k ≠ OD.PERSIST_ENTRY n → t.rdBytes k = s.rdBytes k) ∧ s.SameData t) ∧
  (∀ (p : Path) (v : Byte) (s : State), s.admits p OD.PERSIST_CLEAR 1 v.toNat v.toNat →
    ∃ t, Sys2Proof.Machine.exec (.persistClear p v) s = .next t ∧ t.answered p {} ∧
      t.rdBytes (OD.PERSIST_ENTRY v.toNat) = [] ∧ t.rd OD.PERSIST_DIRTY = 1 ∧ s.SameBut t [OD.PERSIST_DIRTY] ∧
      (∀ k, k ≠ OD.PERSIST_ENTRY v.toNat → t.rdBytes k = s.rdBytes k) ∧ s.SameData t) ∧
  (∀ (p : Path) (s : State), s.admits p OD.PERSIST_COMMIT 1 1 1 → s.rd OD.PERSIST_STATE ≠ 2 →
    s.rd OD.PERSIST_DIRTY ≠ 0 →
    ∃ t, Sys2Proof.Machine.exec (.persistCommit p 1) s = .next t ∧ t.answered p {} ∧ t.rd OD.PERSIST_STATE = 2 ∧
      t.rd OD.PERSIST_DIRTY = 0 ∧ t.boot.bank = (if s.rd OD.PERSIST_BANK = 1 then 1 else 0) ∧
      s.SameBut t [OD.PERSIST_STATE, OD.PERSIST_DIRTY] ∧ s.SameData t) ∧
  (∀ (p : Path) (v : Word) (s : State), s.admits p OD.CAL_NOW 8 v.toNat v.toNat → s.flag OD.ALARM_ENABLE = false →
    ∃ t, Sys2Proof.Machine.exec (.calNow p v) s = .next t ∧ t.answered p {} ∧ t.rd OD.CAL_NOW = v.toNat ∧
      t.rd OD.CAL_STATE = setBit (setBit (s.rd OD.CAL_STATE) 0 true) 1 false ∧ t.boot.secStart = s.lfNow ∧
      s.SameBut t [OD.CAL_NOW, OD.CAL_STATE] ∧ s.SameData t)

/-- Orders of the cloakroom, the GQ master, the tick unit and the reset logic (R60, R68, R502 to R512, R845, R880, R883, R896,
R961): ALLOC answers with the outcome of its allocation, or waits where the pool's cache is empty; RELEASE drops the agent's
claim; GQM_GO forms the request, or fails at once; TICK_COMMIT arms, or is applied at the end of its edge while the unit is
STOPPED (R27); a reset is ordered; a lifecycle step burns and holds from the write on. -/
def Obligations.RequestsAndResetsAreOrdered : Prop :=
  (∀ (k : Fin 4) (v : Word) (w : Nat) (s u : State), w = setField v.toNat 60 4 1 → u = s.wr (OD.CLK_RESULT k) (2 ^ 62) →
    s.admits (.fw k) (OD.CLK_REQUEST k) 8 w w → bits (s.rd (OD.CLK_RESULT k)) 62 2 ≠ 1 → bit w 57 = false →
    ∃ t, Sys2Proof.Machine.exec (.alloc k v) s = .next t ∧ t.answered (.fw k) {} ∧
      (u.allocWaits (u.clkReq k w) = true → t.clok.waiting = s.clok.waiting ++ [(k.val, u.clkReq k w)] ∧ t.rd (OD.CLK_RESULT k) = 2 ^ 62) ∧
      (u.allocWaits (u.clkReq k w) = false → t.rd (OD.CLK_RESULT k) = clkWord (u.alloc (u.clkReq k w)).1)) ∧
  (∀ (k : Fin 4) (n : BitVec 32) (r : ClaimRec) (s : State),
    s.admits (.fw k) (OD.CLK_REQUEST k) 8 (2 * 2 ^ 60 + n.toNat) (2 * 2 ^ 60 + n.toNat) →
    bits (s.rd (OD.CLK_RESULT k)) 62 2 ≠ 1 → n.toNat ≠ noTicket →
    s.clok.recs.find? (fun r => r.ticket = n.toNat) = some r → r.claims.any (fun c => s.holdsClaim (32 + k) r c) →
    ∃ t, Sys2Proof.Machine.exec (.release k n) s = .next t ∧ t.answered (.fw k) {} ∧
      t.rd (OD.CLK_RESULT k) = clkDone 0 0 noTicket) ∧
  (∀ (p : Path) (s : State), s.admits p OD.GQM_GO 1 1 1 → s.rd OD.GQM_STATE ≠ 1 →
    ∃ t, Sys2Proof.Machine.exec (.gqmGo p 1) s = .next t ∧ t.answered p {} ∧ t.rdBytes OD.GQM_REPLY = [] ∧
      (if gqNode = 0 ∨ s.gqMute ∨ s.rd OD.GQM_DEST = gqNode then t.rd OD.GQM_STATE = 3 ∧ t.gq.mail = none
        else t.rd OD.GQM_STATE = 1 ∧ t.rd OD.GQM_FAIL = 0 ∧ t.rd OD.GQM_SEQ = (s.rd OD.GQM_SEQ + 1) % 256 ∧
          t.gq.mail = some { body := gqHeader 0 (s.rd OD.GQM_DEST) ((s.rd OD.GQM_SEQ + 1) % 256) s.mailBody.length ++
            s.mailBody }) ∧ s.SameData t) ∧
  (∀ (p : Path) (v : Byte) (s : State), s.admits p OD.TICK_COMMIT 1 v.toNat v.toNat →
    ∃ t, Sys2Proof.Machine.exec (.tickCommit p v) s = .next t ∧ t.answered p {} ∧
      t.tick = (if v.toNat = 1 ∧ s.tick.st = .stopped ∧ s.stopEdge = false then { s.tick with commitDue := true }
        else { s.tick with armFresh := some (decide (v.toNat = 1)) }) ∧ s.SameBut t [] ∧ s.SameData t) ∧
  (∀ (p : Path) (s : State), s.admits p OD.RESET_CMD 1 1 1 → s.pow.reset = none →
    ∃ t, Sys2Proof.Machine.exec (.resetCmdFull p) s = .next t ∧ t.answered p {} ∧
      t.pow.reset = some ⟨4, s.clk.now, s.linkUp, false⟩ ∧ t.tick.st = .stopped ∧ t.tick.armed = false ∧
      t.tick.out = false) ∧
  (∀ (p : Path) (s : State), s.admits p OD.RESET_CMD 1 2 2 → s.dropForbidden 1 = false →
    ∃ t, Sys2Proof.Machine.exec (.resetCmdCold p) s = .next t ∧ t.answered p {} ∧
      t.pow = { s.pow with cold := some s.clk.now } ∧ s.SameBut t [] ∧ s.SameData t) ∧
  (∀ (p : Path) (n : Byte) (s : State), s.admits p OD.AGENT_RESET 1 n.toNat n.toNat → 32 ≤ n.toNat → n.toNat ≤ 35 →
    s.powered 1 → s.runningOn n.toNat = none →
    ∃ t, Sys2Proof.Machine.exec (.agentReset p n) s = .next t ∧ t.answered p {} ∧ t.newel (n.toNat - 32) = {}) ∧
  (∀ (p : Path) (v : BitVec 32) (n : Nat) (s : State), s.admits p OD.LIFECYCLE_ADVANCE 4 v.toNat v.toNat →
    v.toNat = 0x4C430000 + n → n ≤ 3 → s.burning = false → s.boot.life < n →
    (n = Life.secure → (List.range 4).any (fun k => s.keyUsable k KeyUse.firmware && !bit (s.keySlot k).usage 3)) →
    ∃ t, Sys2Proof.Machine.exec (.lifecycleAdvance p v) s = .next t ∧ t.answered p {} ∧
      t.boot = { s.boot with life := n, burn := some (.life s.boot.life) })

/-- Reads and writes of objects on any path (R101 to R106, R119, R127, R131, R144, R147, R1010, R1023): accesses of one cycle are
served in the order firmware, tenancies, GQ, debug port, PF0; an admitted write has the effect of its unit; a read returns the value of the view it asks for; a read of an RC object leaves zero; the queues of fault
records and lost items show and lose what has arrived before the present edge (R1026); an access that no unit answers ends
with TIMEOUT and a CORRECTED record. In a window, `u` is the state once the step's registers are written (R158). -/
def Obligations.AccessesReadAndWriteObjects : Prop :=
  (∀ (as : List (Path × Instr)) (s : State), (s.arrive as).pending = s.pending ++ (serviceOrder as).map (·.2) ∧
    (serviceOrder as).Perm as ∧ (serviceOrder as).Pairwise (fun a b => pathRank a.1 ≤ pathRank b.1)) ∧
  (∀ (p : Path) (idx : BitVec 16) (sub : Byte) (st irq : Bool) (len : BitVec 32) (d : Word) (o : ObjDef) (s u : State),
    u = s.dwSet p (dwCmd irq false false 0 st false) (odKey idx.toNat sub.toNat) len.toNat [] → u.open_ p →
    u.checkExpRead p (odKey idx.toNat sub.toNat) len.toNat st = .ok o →
    ∃ t, Sys2Proof.Machine.exec (.expeditedAccess p false idx sub st len d irq) s = .next t ∧
      t.answered p { val := (u.viewVal o (odKey idx.toNat sub.toNat) st).1 } ∧
      (o.acc ≠ .RC → s.SameBut t [] ∧ s.SameData t)) ∧
  (∀ (p : Path) (idx : BitVec 16) (sub : Byte) (st irq : Bool) (len : BitVec 32) (d : Word) (o : ObjDef) (m : Nat)
      (s u v : State),
    u = s.dwSet p (dwCmd irq false false 0 st true) (odKey idx.toNat sub.toNat) len.toNat (leBytes 8 d.toNat) →
    u.open_ p → u.checkWrite p idx.toNat sub.toNat len.toNat d.toNat = .ok (o, m) →
    u.act o (odKey idx.toNat sub.toNat) m = (0, v) →
    ∃ t, Sys2Proof.Machine.exec (.expeditedAccess p true idx sub st len d irq) s = .next t ∧ t.answered p {} ∧
      v.SameBut t [] ∧ v.SameData t ∧ t.dict.fresh = v.dict.fresh) ∧
  (∀ (p : Path) (idx : BitVec 16) (sub : Byte) (d : Word) (o : ObjDef) (m : Nat) (s u v : State),
    objLookup idx.toNat sub.toNat = some o →
    u = s.dwSet p (dwCmd false false false 0 false true) (odKey idx.toNat sub.toNat) o.ty.size (leBytes 8 d.toNat) →
    u.open_ p → u.checkWrite p idx.toNat sub.toNat o.ty.size d.toNat = .ok (o, m) →
    u.act o (odKey idx.toNat sub.toNat) m = (0, v) →
    ∃ t, Sys2Proof.Machine.exec (.registerWrite p idx sub d) s = .next t ∧ t.answered p {} ∧
      v.SameBut t [] ∧ v.SameData t ∧ t.dict.fresh = v.dict.fresh) ∧
  (∀ (p : Path) (idx : BitVec 16) (sub : Byte) (o : ObjDef) (s u : State),
    objLookup idx.toNat sub.toNat = some o → o.ty.size ≠ 0 → o.acc = .RC →
    u = s.dwSet p (dwCmd false false false 0 false false) (odKey idx.toNat sub.toNat) o.ty.size [] → u.open_ p →
    u.checkExpRead p (odKey idx.toNat sub.toNat) o.ty.size false = .ok o →
    odKey idx.toNat sub.toNat ≠ OD.MIN_FREE (idx.toNat % 16) →
    ∃ t, Sys2Proof.Machine.exec (.rcRead p idx sub) s = .next t ∧
      t.answered p { val := (u.readVal (odKey idx.toNat sub.toNat)).1 } ∧
      t.rd (odKey idx.toNat sub.toNat) = 0 ∧ s.SameBut t [odKey idx.toNat sub.toNat] ∧ s.SameData t) ∧
  (∀ (p : Path) (r : FaultRec) (rs : List FaultRec) (s : State), s.admitsRead p OD.FAULT_NEXT → s.falt.log = r :: rs →
    r.time ≠ s.clk.gtime →
    ∃ t, Sys2Proof.Machine.exec (.faultNext p) s = .next t ∧ t.answered p { bytes := r.toBytes, last := true } ∧
      t.falt = { s.falt with log := rs } ∧ s.SameBut t [] ∧ s.SameData t) ∧
  (∀ (p : Path) (e : LostEntry) (es : List LostEntry) (s : State), s.admitsRead p OD.LOST_NEXT → s.falt.lost = e :: es →
    s.falt.lostFresh ≤ es.length →
    ∃ t, Sys2Proof.Machine.exec (.lostNext p) s = .next t ∧ t.answered p { bytes := e.toBytes, last := true } ∧
      t.falt = { s.falt with lost := es } ∧ s.SameBut t [] ∧ s.SameData t) ∧
  (∀ (p : Path) (s : State), s.admitsRead p OD.LOST_ALL → s.lostShown ≠ [] →
    ∃ t, Sys2Proof.Machine.exec (.lostAll p) s = .next t ∧
      t.answered p { bytes := s.lostShown.flatMap LostEntry.toBytes, last := true } ∧
      t.falt = { s.falt with lost := s.falt.lost.drop s.lostShown.length } ∧ s.SameBut t [] ∧ s.SameData t) ∧
  (∀ (p : Path) (wr : Bool) (idx : BitVec 16) (sub : Byte) (d : Word) (o : ObjDef) (s : State), s.open_ p →
    s.checkObject p wr idx.toNat sub.toNat (if wr then d.toNat else 0) = .ok o →
    ∃ t, Sys2Proof.Machine.exec (.unitAnswerTimeout p wr idx sub d) s = .next t ∧
      t.answered p { code := Abort.timeout } ∧ s.SameData t ∧
      t.rd (OD.CLASS_COUNTS 0) = min (s.rd (OD.CLASS_COUNTS 0) + 1) 0xFFFFFFFF)

/-- Segmented transfers and the windows' answers (R107 to R114, R142, R156, R157): an open is admitted and holds its object; each
segment continues the transfer under its toggle, and the last one completes it; a bad length, a wrong toggle or a domain that has
fallen since the open aborts it, in that order (R101, R109); a transfer ends by its own abort or after 10 ms;
a window delivers the answer it holds. `u` is the state once the step's registers are written (R158). -/
def Obligations.SegmentsCarryTransfers : Prop :=
  (∀ (p : Path) (idx : BitVec 16) (sub : Byte) (st irq : Bool) (len : BitVec 32) (s u : State),
    let k := odKey idx.toNat sub.toNat
    u = s.dwSet p (dwCmd irq false false 1 st true) k len.toNat [] → u.open_ p →
    u.checkBlob p idx.toNat sub.toNat len.toNat = .ok () →
    ∃ t, Sys2Proof.Machine.exec (.segmentedOpen p true idx sub st len irq) s = .next t ∧ t.answered p {} ∧
      t.xfer p = some { wr := true, key := k, staged := false, len := len.toNat, since := s.clk.now } ∧
      (∀ q, pathId q ≠ pathId p → t.xfer q = s.xfer q) ∧ Keep [.dict] s t) ∧
  (∀ (p : Path) (idx : BitVec 16) (sub : Byte) (st irq : Bool) (len : BitVec 32) (o : ObjDef) (bs : List Byte) (s u : State),
    let k := odKey idx.toNat sub.toNat
    u = s.dwSet p (dwCmd irq false false 1 st false) k len.toNat [] → u.open_ p →
    u.checkObject p false idx.toNat sub.toNat 0 = .ok o → o.ty.size = 0 → p ≠ .dbg → u.objPowered k → u.xfer p = none →
    u.readBytes k = .ok bs → bs ≠ [] →
    ∃ t, Sys2Proof.Machine.exec (.segmentedOpen p false idx sub st len irq) s = .next t ∧ t.answered p {} ∧
      t.xfer p = some { wr := false, key := k, staged := st, len := bs.length, buf := bs, snap := bs, since := s.clk.now } ∧
      (∀ q, pathId q ≠ pathId p → t.xfer q = s.xfer q) ∧ Keep [.dict] s t) ∧
  (∀ (p : Path) (g last irq : Bool) (bs : List Byte) (x : Xfer) (s u : State),
    u = s.dwSet p (dwCmd irq last g 2 false x.wr) (s.win p).object bs.length (bs.take 64) → u.open_ p →
    s.xfer p = some x →
    (g = x.toggle → x.cut = false → u.objPowered x.key → x.wr → bs ≠ [] → bs.length ≤ segSize p → last = false →
      (x.buf ++ bs).length ≤ x.len →
      ∃ t, Sys2Proof.Machine.exec (.segment p g last bs irq) s = .next t ∧ t.answered p { toggle := x.toggle } ∧
        t.xfer p = some { x with buf := x.buf ++ bs, toggle := !x.toggle, since := s.clk.now } ∧ Keep [.dict] s t) ∧
    (∀ v : State, g = x.toggle → x.cut = false → u.objPowered x.key → x.wr → bs ≠ [] → bs.length ≤ segSize p → last = true →
      (x.buf ++ bs).length = x.len → (u.setXfer p none).blobAct x.key (x.buf ++ bs) = (0, v) →
      ∃ t, Sys2Proof.Machine.exec (.segment p g last bs irq) s = .next t ∧
        t.answered p { toggle := x.toggle, last := true } ∧ v.SameBut t [] ∧ v.SameData t ∧ t.odb = v.odb ∧
        t.boot = v.boot) ∧
    (g = x.toggle → x.cut = false → u.objPowered x.key → x.wr = false → segSize p < x.buf.length →
      ∃ t, Sys2Proof.Machine.exec (.segment p g last bs irq) s = .next t ∧
        t.answered p { bytes := x.buf.take (segSize p), toggle := x.toggle } ∧
        t.xfer p = some { x with buf := x.buf.drop (segSize p), toggle := !x.toggle, since := s.clk.now } ∧
        Keep [.dict] s t) ∧
    (g = x.toggle → x.cut = false → u.objPowered x.key → x.wr = false → x.buf.length ≤ segSize p →
      ∃ t, Sys2Proof.Machine.exec (.segment p g last bs irq) s = .next t ∧
        t.answered p { bytes := x.buf, toggle := x.toggle, last := true } ∧
        t.falt = (s.consumeBytes x.key x.snap).falt ∧ t.xfer p = none ∧ s.SameData t) ∧
    (x.badLength p last bs = false → g ≠ x.toggle ∨ x.cut ∨ u.objPowered x.key = false →
      ∃ t, Sys2Proof.Machine.exec (.segment p g last bs irq) s = .next t ∧ t.answered p { code := Abort.state } ∧
        t.xfer p = none ∧ s.SameData t) ∧
    (x.badLength p last bs →
      ∃ t, Sys2Proof.Machine.exec (.segment p g last bs irq) s = .next t ∧ t.answered p { code := Abort.typeLength } ∧
        t.xfer p = none ∧ s.SameData t)) ∧
  (∀ (p : Path) (irq : Bool) (s u : State),
    u = s.dwSet p (dwCmd irq false false 3 false false) (s.win p).object (s.win p).length [] → u.open_ p →
    ∃ t, Sys2Proof.Machine.exec (.abortOwnTransfer p irq) s = .next t ∧ t.xfer p = none ∧
      t.answered p (if (s.xfer p).isSome then {} else { code := Abort.state }) ∧ Keep [.dict] s t) ∧
  (∀ (p : Path) (x : Xfer) (s : State), s.xfer p = some x →
    (x.since + 500000 < s.clk.now → ∃ t, Sys2Proof.Machine.exec (.segmentTimeout p) s = .next t ∧ t.xfer p = none ∧
      t.lastResp p = { code := Abort.timeout } ∧ Keep [.dict] s t) ∧
    (s.clk.now ≤ x.since + 500000 → Sys2Proof.Machine.exec (.segmentTimeout p) s = .next s)) ∧
  (∀ (p : Path) (r : Resp) (s : State), isWindow p → (s.win p).busy → (s.win p).answer = some r →
    ∃ t, Sys2Proof.Machine.exec (.dwStepDone p) s = .next t ∧ (t.win p).busy = false ∧ (t.win p).done = true ∧
      (t.win p).answer = none ∧ (t.win p).abort = r.code ∧ (t.win p).toggle = r.toggle ∧ (t.win p).last = r.last ∧
      (t.win p).valid = (lastSegment r.bytes).length ∧ (t.win p).data = (if r.code = 0 then dwData (s.win p) r else (s.win p).data) ∧
      t.host = (if (s.win p).irq then (match p with | .ten n => s.signalTen n.val 3 | _ => s.signal false 3).host else s.host) ∧
      Keep [.dict, .host] s t)

/-- The fault log (R1008 to R1011): a record with its time enters behind the others, but for those of its own edge that come
after it by agent or object, while the log has room; a full log gives up
the oldest record of its lowest class if that is not above the record's own, else the record is discarded, and either counts in
FAULTS_LOST; every record counts in its class, the last DEVICE and STAGE records are kept, and PF0 vector 0 is signalled. -/
def Obligations.FaultRecordsEnterTheLog : Prop :=
  ∀ (s : State) (r : FaultRec), r.cls ≤ 4 →
    let t := s.logFault r
    let r' := { r with time := s.clk.gtime }
    (s.falt.log.length < 256 → t.falt.log = placeRec r' s.falt.log ∧ t.rd OD.FAULTS_LOST = s.rd OD.FAULTS_LOST) ∧
    ((∀ x ∈ s.falt.log, x.time ≠ s.clk.gtime) → placeRec r' s.falt.log = s.falt.log ++ [r']) ∧
    (∀ pre x post, 256 ≤ s.falt.log.length → s.falt.log = pre ++ x :: post → (∀ y ∈ s.falt.log, x.cls ≤ y.cls) →
      (∀ y ∈ pre, y.cls ≠ x.cls) → x.cls ≤ r.cls →
      t.falt.log = placeRec r' (pre ++ post) ∧ t.rd OD.FAULTS_LOST = min (s.rd OD.FAULTS_LOST + 1) 0xFFFFFFFF) ∧
    (256 ≤ s.falt.log.length → (∀ y ∈ s.falt.log, r.cls < y.cls) →
      t.falt.log = s.falt.log ∧ t.rd OD.FAULTS_LOST = min (s.rd OD.FAULTS_LOST + 1) 0xFFFFFFFF) ∧
    t.rd (OD.CLASS_COUNTS r.cls) = min (s.rd (OD.CLASS_COUNTS r.cls) + 1) 0xFFFFFFFF ∧
    t.falt.lastDevice = (if r.cls = FaultClass.device then some r' else s.falt.lastDevice) ∧
    t.falt.lastStage = (if r.cls = FaultClass.stage then some r' else s.falt.lastStage) ∧
    t.host = (if s.rd OD.FAULT_IRQ = 1 ∧ s.rd OD.FAULT_IRQ_MIN ≤ r.cls then (s.signal false 0).host else s.host) ∧
    s.SameBut t [OD.FAULTS_LOST, OD.CLASS_COUNTS r.cls] ∧ Keep [.od, .host, .falt] s t
/-- Message signals (R192): while the link is up, Bus Master Enable and MSI-X are set and the vector is unmasked, a signal sends
one message and the vector is no longer pending; else the pending bit is set, so that signals merge. Unmasking a vector, or
enabling the function, sends each pending unmasked vector once. -/
def Obligations.VectorsAreSentOrPend : Prop :=
  (∀ (s : State) (pf1 : Bool) (v : Nat), v < 64 → s.powered 26 →
    let m := s.msix pf1
    let m' := (s.signal pf1 v).msix pf1
    (s.linkUp → m.bme → m.enabled → m.mask.getLsbD v = false →
      (∀ w, w < 64 → m'.pend.getLsbD w = (m.pend.getLsbD w && decide (w ≠ v))) ∧
      (∀ w, Sparse.get (fun _ => 0) m'.sent w = Sparse.get (fun _ => 0) m.sent w + (if w = v then 1 else 0))) ∧
    (s.linkUp = false ∨ m.bme = false ∨ m.enabled = false ∨ m.mask.getLsbD v = true →
      (∀ w, w < 64 → m'.pend.getLsbD w = (m.pend.getLsbD w || decide (w = v))) ∧ m'.sent = m.sent) ∧
    m'.mask = m.mask ∧ m'.bme = m.bme ∧ m'.enabled = m.enabled ∧
    (s.signal pf1 v).msix (!pf1) = s.msix (!pf1) ∧ Keep [.host] s (s.signal pf1 v)) ∧
  (∀ (pf1 : Bool) (e : MsixEvent) (s : State), s.msixLive e →
    let m := (s.msix pf1).apply e
    ∃ t, Sys2Proof.Machine.exec (.msixUnmask pf1 e) s = .next t ∧
      (t.msix pf1).mask = m.mask ∧ (t.msix pf1).bme = m.bme ∧ (t.msix pf1).enabled = m.enabled ∧
      (∀ w, w < 64 → (t.msix pf1).pend.getLsbD w =
        (m.pend.getLsbD w && !(m.bme && m.enabled && !m.mask.getLsbD w))) ∧
      (∀ w, w < 64 → Sparse.get (fun _ => 0) (t.msix pf1).sent w = Sparse.get (fun _ => 0) m.sent w +
        (if m.pend.getLsbD w && m.bme && m.enabled && !m.mask.getLsbD w then 1 else 0)) ∧
      t.msix (!pf1) = s.msix (!pf1) ∧ Keep [.host] s t)

/-- What makes a boundary, and of which kind (Table TICK-1, R16, R21 to R23, R28, R32): while no commit is armed, an arrival
within the window and a counted period lead to LOCKED, a point that no arrival made to FLYWHEEL, one in ACQUIRE stays in
ACQUIRE; an arrival starts a unit whose start is pending. -/
def Obligations.ArrivalsAndPointsMakeBoundaries : Prop :=
  (∀ s : State, s.sourceIs 1 → s.scanning = false → s.tick.armed = false →
    (s.tick.st = .locked ∨ s.tick.st = .flywheel) → s.lowerBound ≤ s.clk.now - s.tick.last →
    ∃ t, Sys2Proof.Machine.exec .tickInEdge s = .next t ∧ BoundaryMade s t (s.tick.epoch + 1) .locked false) ∧
  (∀ s : State, s.sourceIs 1 → s.scanning = false → s.tick.armed = false → s.tick.st = .stopped → s.tick.startPending →
    ∃ t, Sys2Proof.Machine.exec .tickInEdge s = .next t ∧ BoundaryMade s t (s.tick.epoch + 1) .locked false) ∧
  (∀ (p : Path) (s : State), s.admits p OD.TICK_STRIKE 1 1 1 → s.sourceIs 3 → s.tick.armed = false →
    s.tick.st = .acquire → s.period ≤ 2 * (s.clk.now - s.tick.last) →
    ∃ t, Sys2Proof.Machine.exec (.tickStrike p 1) s = .next t ∧ t.answered p {} ∧
      BoundaryMade s t (s.tick.epoch + 1) .locked false) ∧
  (∀ (g : GqTick) (s : State), s.gq.point = some g → g.edge ≤ s.clk.now → s.sourceIs 2 → s.tick.armed = false →
    s.tick.st = .acquire → s.period ≤ 2 * (s.clk.now - s.tick.last) →
    ∃ t, Sys2Proof.Machine.exec .gqTickPoint s = .next t ∧
      BoundaryMade s t (BitVec.ofNat 32 g.epoch) .locked false) ∧
  (∀ s : State, s.sourceIs 0 → s.tick.armed = false → s.tick.st ≠ .stopped → s.tick.last + s.period ≤ s.clk.now →
    ∃ t, Sys2Proof.Machine.exec .periodExpiry s = .next t ∧ BoundaryMade s t (s.tick.epoch + 1) .locked false) ∧
  (∀ s : State, s.powered 1 → s.rd OD.TICK_SOURCE ≠ 0 → s.tick.armed = false →
    (s.tick.st = .locked ∨ s.tick.st = .flywheel) → s.tick.last + s.upperBound ≤ s.clk.now →
    ∃ t, Sys2Proof.Machine.exec .flywheelPoint s = .next t ∧ BoundaryMade s t (s.tick.epoch + 1) .flywheel true) ∧
  (∀ s : State, s.powered 1 → s.rd OD.TICK_SOURCE ≠ 0 → s.tick.armed = false → s.tick.st = .acquire →
    3 * s.period ≤ 2 * (s.clk.now - s.tick.last) →
    ∃ t, Sys2Proof.Machine.exec .acquireSynthetic s = .next t ∧ BoundaryMade s t (s.tick.epoch + 1) .acquire true)

/-- Scalar arithmetic (R405, Table CORE-5, OP 0x10 to 0x27): an issued instruction writes S[RD] with the result below, all
modulo 2^64, the shift amount modulo 64, and retires; nothing else changes (a write of S0 is discarded by `setS`). -/
def Obligations.ScalarArithmeticWritesRd : Prop :=
  (∀ (n rd ra rb : Fin 32) (e : Entry) (s u : State), s.Issues n e u →
    let c := u.core n; let a := c.sreg ra; let b := c.sreg rb
    s.Gives u n (.add n rd ra rb) (c.setS rd (BitVec.ofNat 64 (a.toNat + b.toNat))) ∧
    s.Gives u n (.sub n rd ra rb) (c.setS rd (BitVec.ofInt 64 (a.toInt - b.toInt))) ∧
    s.Gives u n (.mul n rd ra rb) (c.setS rd (BitVec.ofNat 64 (a.toNat * b.toNat))) ∧
    s.Gives u n (.and n rd ra rb) (c.setS rd (a &&& b)) ∧
    s.Gives u n (.or n rd ra rb) (c.setS rd (a ||| b)) ∧
    s.Gives u n (.xor n rd ra rb) (c.setS rd (a ^^^ b)) ∧
    s.Gives u n (.shl n rd ra rb) (c.setS rd (BitVec.ofNat 64 (a.toNat * 2 ^ (b.toNat % 64)))) ∧
    s.Gives u n (.shr n rd ra rb) (c.setS rd (BitVec.ofNat 64 (a.toNat / 2 ^ (b.toNat % 64)))) ∧
    s.Gives u n (.sra n rd ra rb) (c.setS rd (BitVec.ofInt 64 (a.toInt / 2 ^ (b.toNat % 64)))) ∧
    s.Gives u n (.slt n rd ra rb) (c.setS rd (if a.toInt < b.toInt then 1#64 else 0#64)) ∧
    s.Gives u n (.sltu n rd ra rb) (c.setS rd (if a.toNat < b.toNat then 1#64 else 0#64)) ∧
    s.Gives u n (.min n rd ra rb) (c.setS rd (if a.toInt < b.toInt then a else b)) ∧
    s.Gives u n (.max n rd ra rb) (c.setS rd (if a.toInt < b.toInt then b else a))) ∧
  (∀ (n rd ra : Fin 32) (imm : BitVec 32) (e : Entry) (s u : State), s.Issues n e u →
    let c := u.core n; let a := c.sreg ra
    s.Gives u n (.addi n rd ra imm) (c.setS rd (BitVec.ofInt 64 (a.toInt + imm.toInt))) ∧
    s.Gives u n (.andi n rd ra imm) (c.setS rd (a &&& BitVec.ofNat 64 imm.toNat)) ∧
    s.Gives u n (.ori n rd ra imm) (c.setS rd (a ||| BitVec.ofNat 64 imm.toNat)) ∧
    s.Gives u n (.xori n rd ra imm) (c.setS rd (a ^^^ BitVec.ofNat 64 imm.toNat)) ∧
    s.Gives u n (.shli n rd ra imm) (c.setS rd (BitVec.ofNat 64 (a.toNat * 2 ^ (imm.toNat % 64)))) ∧
    s.Gives u n (.shri n rd ra imm) (c.setS rd (BitVec.ofNat 64 (a.toNat / 2 ^ (imm.toNat % 64)))) ∧
    s.Gives u n (.srai n rd ra imm) (c.setS rd (BitVec.ofInt 64 (a.toInt / 2 ^ (imm.toNat % 64)))) ∧
    s.Gives u n (.lui n rd ra imm) (c.setS rd (BitVec.ofNat 64 (imm.toNat * 2 ^ 32))))

/-- Branches and jumps (R405, R425, Table CORE-5, OP 0x30 to 0x38): the conditions, the target `OFF` instructions from the
current one modulo 2^64, the link in S[RD], and the two exceptions of a bad target. -/
def Obligations.BranchesAndJumpsReachTheirTargets : Prop :=
  (∀ (n ra rb : Fin 32) (off : BitVec 32) (e : Entry) (s u : State), s.Issues n e u →
    let c := u.core n; let a := c.sreg ra; let b := c.sreg rb
    let target := (BitVec.ofInt 64 (c.pc + 8 * off.toInt)).toNat
    s.Branches u n e (.beq n ra rb off) target (a = b) ∧
    s.Branches u n e (.bne n ra rb off) target (a ≠ b) ∧
    s.Branches u n e (.blt n ra rb off) target (a.toInt < b.toInt) ∧
    s.Branches u n e (.bge n ra rb off) target (b.toInt ≤ a.toInt) ∧
    s.Branches u n e (.bltu n ra rb off) target (a.toNat < b.toNat) ∧
    s.Branches u n e (.bgeu n ra rb off) target (b.toNat ≤ a.toNat) ∧
    s.JumpsTo u n e (.jmp n ra rb off) target 1 c ∧
    s.JumpsTo u n e (.jal n ra rb off) target 1 (c.setS ra (BitVec.ofNat 64 (c.pc + 8)))) ∧
  (∀ (n rd ra rb : Fin 32) (e : Entry) (s u : State), s.Issues n e u →
    s.JumpsTo u n e (.jr n rd ra rb) ((u.core n).sreg ra).toNat 1 (u.core n))
/-- Stage control (R402, R405, R428 to R434, R743, Table CORE-5, OP 0x00 to 0x08 and the reserved ones): NOP and FENCE only
advance; END reports and the core goes idle once the stage's DMAs are done; FAIL and a reserved OP raise their exceptions;
TMARK leaves its packet; OUTADD, SHGET, SHSET and PLANRD move what their rows say. -/
def Obligations.StageControlDoesWhatItsRowsSay : Prop :=
  (∀ (n : Fin 32) (imm : BitVec 32) (e : Entry) (s u : State), s.Issues n e u →
    let c := u.core n
    s.Gives u n (.nop n imm) c ∧ s.Gives u n (.fence n imm) c ∧
    (∃ t, Sys2Proof.Machine.exec (.tmark n imm) s = .next t ∧
      (u.traceMarker n imm.toNat e.stage e.flight).Retires t n (c.pc + 8) c) ∧
    (∃ t, Sys2Proof.Machine.exec (.fail n imm) s = .next t ∧ u.Excepts t n e false Exc.user c.pc imm.toNat 0) ∧
    (imm.toNat < 2 → c.dmaq = [] → c.running = none →
      ∃ v t, Sys2Proof.Machine.exec (.endStage n imm) s = .next t ∧
        v.Retires t n c.pc { c with
          st := if c.st = .halted then .halted else .idle, sealed := false, emitter := false, emptyMark := false } ∧
        Keep [.flit] u v ∧
        v.flit = { u.flit with entries := u.flit.entries.map (fun x =>
          if x.same e then
            { x with st := .ended, repEmpty := decide (imm.toNat = 1) || c.emptyMark, repConcealed := false,
                     repBytes := c.outBytes.toNat }
          else x) }) ∧
    (imm.toNat < 2 → (c.dmaq ≠ [] ∨ c.running ≠ none) → Sys2Proof.Machine.exec (.endStage n imm) s = .next u) ∧
    (2 ≤ imm.toNat →
      s.Raises u n e (.endStage n imm) Exc.illegal 0)) ∧
  (∀ (n : Fin 32) (op : Byte) (e : Entry) (s u : State), s.Issues n e u → Machine.reservedOp op.toNat = true →
    s.Raises u n e (.reservedOp n op) Exc.illegal 0) ∧
  (∀ (n rd ra : Fin 32) (imm : BitVec 32) (e : Entry) (s u : State), s.Issues n e u →
    let c := u.core n
    let it := u.item e.slot
    let k := imm.toNat % 4
    s.Gives u n (.outadd n rd ra imm) { c with outBytes := BitVec.ofNat 32 (c.outBytes.toNat + (c.sreg ra).toNat) } ∧
    (∃ v t, Sys2Proof.Machine.exec (.shget n rd ra imm) s = .next t ∧
      v = (if Sparse.get (fun _ => false) it.shapeSealed (4 * e.run + k) then u.sealStage n else u) ∧
      v.Retires t n ((v.core n).pc + 8) ((v.core n).setS rd (BitVec.ofNat 64 (it.shape e.run k)))) ∧
    (∃ v t, Sys2Proof.Machine.exec (.shset n rd ra imm) s = .next t ∧ v.Retires t n (c.pc + 8) c ∧ Keep [.flit] u v ∧
      (v.item e.slot).shape e.run k = (c.sreg ra).toNat % 2 ^ 32 ∧
      (c.sealed → Sparse.get (fun _ => false) (v.item e.slot).shapeSealed (4 * e.run + k) = true) ∧
      (∀ j, j ≠ e.slot → v.item j = u.item j)) ∧
    (c.tiled → s.Gives u n (.planrd n rd ra imm) (c.setS rd (BitVec.ofNat 64 (c.plan.getD (imm.toNat % 8) 0)))) ∧
    (c.tiled = false → s.Raises u n e (.planrd n rd ra imm) Exc.planAbsent 0))

/-- Device memory (R80, R84, R451, R452, R462, R480): a read of bytes that are memory and carry no error returns what is stored
and changes nothing but its master's counts; a write of such bytes stores them, and every other byte of memory stays as it
was; a write of a part of a word with an uncorrectable error stores nothing; a transfer of the concourse with a corrected
error is recorded and goes on, one with an uncorrectable error answers an error response and stores nothing. -/
def Obligations.MemoryReadsBackWhatWasWritten : Prop :=
  (∀ (q : Acc) (a len : Nat) (s : State), s.isMem q false a len → s.clean a len →
    ∃ b, s.memRead q a len = ({ bytes := s.memBytes a len }, { s with bal := b })) ∧
  (∀ (q : Acc) (a : Nat) (bs : List Byte) (s : State), s.isMem q true a bs.length → s.writable q a bs.length →
    ∃ t, s.memWrite q a bs = ({}, t) ∧ s.Stored t a bs) ∧
  (∀ (q : Acc) (a : Nat) (bs : List Byte) (x : Nat) (s : State), s.smooth →
    s.partialBad q (inSpan a bs.length) (rangeFrom a bs.length) = some x →
    ∃ b, s.memWrite q a bs = ({ err := some x }, { s with bal := b })) ∧
  (∀ (q : Acc) (a len : Nat) (bs : List Byte) (r : List (Option Bool)) (s : State), crosses q a →
    let u : State := { s with bal := { s.bal with transfers := r } }
    (s.bal.transfers = some false :: r →
      s.memRead q a len = ({ bytes := zeros len, err := some a }, u) ∧ s.memWrite q a bs = ({ err := some a }, u)) ∧
    (s.bal.transfers = some true :: r → s.isMem q true a bs.length → u.writable q a bs.length →
      ∃ t, s.memWrite q a bs = ({}, t) ∧ (u.record FaultClass.corrected q.agent 1 0 a 0).Stored t a bs))
/-- Loads and stores of a stage (R404, R411, R412, R420, R742, R744, Table CORE-5, OP 0x40 to 0x42): an aligned load writes
S[RD] with the bytes it reads, zero- or sign-extended; an aligned store of unprotected bytes stores the low bytes of its
register; off alignment both raise MISALIGNED; a store to a protected byte raises PROTECT and stores nothing. `v` is the
machine after the access. -/
def Obligations.LoadsAndStoresMoveTheirBytes : Prop :=
  (∀ (n rd ra : Fin 32) (size : Fin 4) (imm : BitVec 32) (e : Entry) (s u : State), s.Issues n e u →
    let a := (u.core n).effective ra imm
    let len := 2 ^ size.val
    (a % len ≠ 0 → s.Raises u n e (.ld n rd ra size imm) Exc.misaligned a ∧
      s.Raises u n e (.lds n rd ra size imm) Exc.misaligned a ∧ s.Raises u n e (.st n rd ra size imm) Exc.misaligned a) ∧
    (∀ bs v, a % len = 0 → inLandWindow a = false → u.stageLoad n e a len = (some bs, v) →
      (∃ t, Sys2Proof.Machine.exec (.ld n rd ra size imm) s = .next t ∧
        v.Retires t n ((v.core n).pc + 8) ((v.core n).setS rd (BitVec.ofNat 64 (ofLe bs)))) ∧
      (∃ t, Sys2Proof.Machine.exec (.lds n rd ra size imm) s = .next t ∧
        v.Retires t n ((v.core n).pc + 8) ((v.core n).setS rd (BitVec.ofInt 64 (toSigned (8 * bs.length) (ofLe bs)))))) ∧
    (∀ v, a % len = 0 → inLandWindow a = false → u.stageLoad n e a len = (none, v) →
      Sys2Proof.Machine.exec (.ld n rd ra size imm) s = .next v ∧ Sys2Proof.Machine.exec (.lds n rd ra size imm) s = .next v) ∧
    (u.isMem (u.stageAcc n e) false a len → u.clean a len → (u.firstSealed a len = none ∨ (u.core n).sealed) →
      ∃ b, u.stageLoad n e a len = (some (u.memBytes a len), { u with bal := b }))) ∧
  (∀ (n rs ra : Fin 32) (size : Fin 4) (imm : BitVec 32) (e : Entry) (s u : State), s.Issues n e u →
    let a := (u.core n).effective ra imm
    let len := 2 ^ size.val
    let bs := leBytes len ((u.core n).sreg rs).toNat
    a % len = 0 → inLandWindow a = false →
    (∀ v, u.stageWrite n e a bs = (true, v) →
      ∃ t, Sys2Proof.Machine.exec (.st n rs ra size imm) s = .next t ∧ v.Retires t n ((v.core n).pc + 8) (v.core n)) ∧
    (∀ v, u.stageWrite n e a bs = (false, v) → Sys2Proof.Machine.exec (.st n rs ra size imm) s = .next v) ∧
    ((∀ i, i < len → u.protects n (a + i) = false) → u.isMem (u.stageAcc n e) true a len →
      u.writable (u.stageAcc n e) a len →
      ((u.core n).sealed = false ∧ (u.core n).emitter = false ∨ (∀ i, i < len → u.sealedByte (a + i) = true)) →
      ∃ t v, u.stageWrite n e a bs = (true, v) ∧ u.Stored v a bs ∧
        Sys2Proof.Machine.exec (.st n rs ra size imm) s = .next t ∧ v.Retires t n ((u.core n).pc + 8) (u.core n)) ∧
    (∀ x, firstByte (fun x => u.protects n x) a len = some x → s.Raises u n e (.st n rs ra size imm) Exc.protect x))

/-- The register files of a matrix core (R403, Table CORE-1): a register reads what was last written to it, S0 reads zero and
P0 all ones whatever is written, a predicate chooses the lanes that a vector write changes, and no write reaches another
register. -/
def Obligations.CoreRegistersHoldWhatIsWritten : Prop :=
  (∀ (c : Core) (i j : Nat) (v : Word), (c.setS i v).sreg j = if j = 0 then 0#64 else if j = i then v else c.sreg j) ∧
  (∀ (c : Core) (i j : Nat) (v : Word),
    (c.setP i v).preg j = if j = 0 then BitVec.allOnes 64 else if j = i then v else c.preg j) ∧
  (∀ (c : Core) (vd pred w l : Nat) (f : Nat → Lane), l < 64 →
    (c.setLanes vd pred f).lane w l = if w = vd ∧ (c.preg pred).getLsbD l then f l else c.lane w l) ∧
  (∀ (c : Core) (r q k l : Nat) (x : Lane), k < 64 → l < 64 →
    (c.setAcc r k x).accAt q l = if q = r ∧ l = k then x else c.accAt q l) ∧
  (∀ (c : Core) (i : Nat) (v : Word) (w l : Nat), (c.setS i v).lane w l = c.lane w l ∧ (c.setS i v).preg w = c.preg w) ∧
  (∀ (c : Core) (vd pred i : Nat) (f : Nat → Lane),
    (c.setLanes vd pred f).sreg i = c.sreg i ∧ (c.setLanes vd pred f).preg i = c.preg i) ∧
  (∀ (c : Core) (pc : Nat), c.regw = [] → c.stepping = false → c.retiredAt pc = { c with pc := pc })
/-- Lane arithmetic (R402, R403, R405, R410, Table CORE-5, OP 0x50 to 0x5E): under TYPE 0 the lanes are 32-bit integers
modulo 2^32, under TYPE 1 FP32 values; a TYPE or FUNC beyond its list raises ILLEGAL. `free` is a free value, drawn once an
instruction. -/
def Obligations.VectorInstructionsWriteTheirLanes : Prop :=
  (∀ (n vd va vb : Fin 32) (pred ty func : Fin 8) (imm : BitVec 32) (e : Entry) (s u : State), s.Issues n e u →
    let c := u.core n
    let a := fun l => c.lane va l
    let b := fun l => c.lane vb l
    let d := fun l => c.lane vd l
    (ty.val = 0 →
      s.Lanes u n (.vadd n vd va vb pred ty func imm) vd pred (fun _ l => BitVec.ofInt 32 ((a l).toInt + (b l).toInt)) ∧
      s.Lanes u n (.vsub n vd va vb pred ty func imm) vd pred (fun _ l => BitVec.ofInt 32 ((a l).toInt - (b l).toInt)) ∧
      s.Lanes u n (.vmul n vd va vb pred ty func imm) vd pred (fun _ l => BitVec.ofInt 32 ((a l).toInt * (b l).toInt)) ∧
      s.Lanes u n (.vfma n vd va vb pred ty func imm) vd pred
        (fun _ l => BitVec.ofInt 32 ((d l).toInt + (a l).toInt * (b l).toInt)) ∧
      s.Lanes u n (.vmin n vd va vb pred ty func imm) vd pred
        (fun _ l => if (a l).toInt < (b l).toInt then a l else b l) ∧
      s.Lanes u n (.vmax n vd va vb pred ty func imm) vd pred
        (fun _ l => if (a l).toInt < (b l).toInt then b l else a l) ∧
      s.Lanes u n (.vsra n vd va vb pred ty func imm) vd pred
        (fun _ l => (a l).sshiftRight (imm.toNat % 32))) ∧
    (ty.val = 1 →
      s.Lanes u n (.vadd n vd va vb pred ty func imm) vd pred
        (fun free l => fpLane (free l) ((laneFp (a l)).add (laneFp (b l)))) ∧
      s.Lanes u n (.vsub n vd va vb pred ty func imm) vd pred
        (fun free l => fpLane (free l) ((laneFp (a l)).add (laneFp (b l)).neg)) ∧
      s.Lanes u n (.vmul n vd va vb pred ty func imm) vd pred
        (fun free l => fpLane (free l) ((laneFp (a l)).mul (laneFp (b l)))) ∧
      s.Lanes u n (.vfma n vd va vb pred ty func imm) vd pred
        (fun free l => fpLane (free l) ((laneFp (d l)).add ((laneFp (a l)).mul (laneFp (b l))))) ∧
      s.Lanes u n (.vmin n vd va vb pred ty func imm) vd pred (fun free l => laneMin (free l) (a l) (b l) false) ∧
      s.Lanes u n (.vmax n vd va vb pred ty func imm) vd pred (fun free l => laneMin (free l) (a l) (b l) true)) ∧
    (2 ≤ ty.val →
      s.Raises u n e (.vadd n vd va vb pred ty func imm) Exc.illegal 0 ∧
      s.Raises u n e (.vsub n vd va vb pred ty func imm) Exc.illegal 0 ∧
      s.Raises u n e (.vmul n vd va vb pred ty func imm) Exc.illegal 0 ∧
      s.Raises u n e (.vfma n vd va vb pred ty func imm) Exc.illegal 0 ∧
      s.Raises u n e (.vmin n vd va vb pred ty func imm) Exc.illegal 0 ∧
      s.Raises u n e (.vmax n vd va vb pred ty func imm) Exc.illegal 0) ∧
    (ty.val ≠ 0 → s.Raises u n e (.vsra n vd va vb pred ty func imm) Exc.illegal 0) ∧
    s.Lanes u n (.vand n vd va vb pred ty func imm) vd pred (fun _ l => a l &&& b l) ∧
    s.Lanes u n (.vor n vd va vb pred ty func imm) vd pred (fun _ l => a l ||| b l) ∧
    s.Lanes u n (.vxor n vd va vb pred ty func imm) vd pred (fun _ l => a l ^^^ b l) ∧
    s.Gives u n (.vsel n vd va vb pred ty func imm)
      (c.setLanes vd pred (fun l => if (c.preg (vb.val % 8)).getLsbD l then a l else d l)) ∧
    (ty.val ≤ 1 → func.val ≤ 1 →
      s.Lanes u n (.vcvt n vd va vb pred ty func imm) vd pred (fun free l =>
        if func.val = 0 then fpLane (free l) (intFp (a l).toInt) else fpToI32 (laneFp (a l)))) ∧
    (2 ≤ ty.val ∨ 2 ≤ func.val → s.Raises u n e (.vcvt n vd va vb pred ty func imm) Exc.illegal 0) ∧
    (ty.val ≤ 1 → func.val ≤ 6 →
      s.Lanes u n (.vact n vd va vb pred ty func imm) vd pred (fun free l => laneAct func.val (free l) (a l))) ∧
    (2 ≤ ty.val ∨ func.val = 7 → s.Raises u n e (.vact n vd va vb pred ty func imm) Exc.illegal 0) ∧
    (ty.val ≤ 1 → func.val ≤ 3 →
      ∃ w : Word, s.Gives u n (.vcmp n vd va vb pred ty func imm) (c.setP (vd.val % 8) w) ∧
        ∀ l, l < 64 → w.getLsbD l = ((c.preg pred).getLsbD l && laneCmp (decide (ty.val = 1)) func.val (a l) (b l))) ∧
    (2 ≤ ty.val ∨ 4 ≤ func.val → s.Raises u n e (.vcmp n vd va vb pred ty func imm) Exc.illegal 0) ∧
    (ty.val ≤ 1 → func.val ≤ 2 →
      s.Lanes u n (.vred n vd va vb pred ty func imm) vd 0 (fun free l =>
        if l = 0 then reduceLanes (decide (ty.val = 1)) func.val (free 0) (c.selected pred va) else 0#32)) ∧
    (2 ≤ ty.val ∨ 3 ≤ func.val → s.Raises u n e (.vred n vd va vb pred ty func imm) Exc.illegal 0)) ∧
  (∀ (n vd ra : Fin 32) (dtype pred : Fin 8) (imm : BitVec 32) (e : Entry) (s u : State), s.Issues n e u →
    let c := u.core n
    s.Gives u n (.vbcast n vd ra dtype pred imm)
      (c.setLanes vd pred (fun _ => BitVec.ofNat 32 (c.sreg ra).toNat)) ∧
    s.Gives u n (.vext n vd ra dtype pred imm)
      (c.setS vd (BitVec.ofInt 64 (c.lane ra (imm.toNat % 64)).toInt)))

/-- Vector loads and stores and the accumulator file (R403, R409, R411, R413, R427, Table CORE-5, OP 0x60 to 0x66): a load
converts 64 elements into the selected lanes, a store writes the selected lanes' codes, an access off alignment raises
MISALIGNED, an empty predicate stores nothing; ACCRD, ACCWR and AFLAGS wait for the MMAs that write their tile; ACCRD meets the
errors of the entries that it reads, and ACCWR replaces those that it writes (R390). -/
def Obligations.VectorMemoryAndAccumulatorMove : Prop :=
  (∀ (n vd ra : Fin 32) (dtype pred : Fin 8) (imm : BitVec 32) (e : Entry) (s u : State), s.Issues n e u →
    let c := u.core n
    let a := c.effective ra imm
    let size := dtypeBytes dtype.val
    let row := (c.sreg ra).toNat % 256
    let sel := fun k => decide (k / 64 = row) && (c.preg pred).getLsbD (k % 64)
    (a % size ≠ 0 → s.Raises u n e (.vld n vd ra dtype pred imm) Exc.misaligned a) ∧
    (∀ bs v, a % size = 0 → u.stageLoad n e a (vecBytes dtype.val) = (some bs, v) →
      ∃ t, Sys2Proof.Machine.exec (.vld n vd ra dtype pred imm) s = .next t ∧
        State.Retires { v with free := v.free + 1 } t n ((v.core n).pc + 8)
          ((v.core n).setLanes vd pred (fun l =>
            codeLane dtype.val (Config.freeLane v.free l) ((unpackCodes dtype.val bs 64).getD l 0)))) ∧
    (∀ v, a % size = 0 → u.stageLoad n e a (vecBytes dtype.val) = (none, v) →
      Sys2Proof.Machine.exec (.vld n vd ra dtype pred imm) s = .next v) ∧
    (c.preg pred = 0#64 → s.Gives u n (.vst n vd ra dtype pred imm) c) ∧
    (c.preg pred ≠ 0#64 → a % size ≠ 0 → s.Raises u n e (.vst n vd ra dtype pred imm) Exc.misaligned a) ∧
    (∀ v, c.preg pred ≠ 0#64 → a % size = 0 →
      State.stageWriteParts { u with free := u.free + 1 } n e (u.vstParts c dtype.val vd pred u.free a) = (true, v) →
      ∃ t, Sys2Proof.Machine.exec (.vst n vd ra dtype pred imm) s = .next t ∧ v.Retires t n ((v.core n).pc + 8) (v.core n)) ∧
    (∀ v, c.preg pred ≠ 0#64 → a % size = 0 →
      State.stageWriteParts { u with free := u.free + 1 } n e (u.vstParts c dtype.val vd pred u.free a) = (false, v) →
      Sys2Proof.Machine.exec (.vst n vd ra dtype pred imm) s = .next v) ∧
    (c.tileBusy (row / 64) = true → Sys2Proof.Machine.exec (.accrd n vd ra dtype pred imm) s = .next u ∧
      Sys2Proof.Machine.exec (.accwr n vd ra dtype pred imm) s = .next u) ∧
    (c.tileBusy (row / 64) = false →
      ((∀ x ∈ c.accMarks, ¬(sel x.1)) →
        s.Gives u n (.accrd n vd ra dtype pred imm) (c.setLanes vd pred (fun l => c.accAt row l))) ∧
      (∀ v, u.accRead n sel = (false, v) → ∃ t, Sys2Proof.Machine.exec (.accrd n vd ra dtype pred imm) s = .next t ∧
        v.Retires t n ((v.core n).pc + 8) ((v.core n).setLanes vd pred (fun l => (v.core n).accAt row l))) ∧
      (∀ v, u.accRead n sel = (true, v) → ∃ t, Sys2Proof.Machine.exec (.accrd n vd ra dtype pred imm) s = .next t ∧
        v.Excepts t n e true ArrayExc.accUncorrectable (v.core n).pc 0 0) ∧
      ∃ d : Core, s.Gives u n (.accwr n vd ra dtype pred imm) { c with acc := d.acc, accMarks := d.accMarks } ∧
        (∀ q l, l < 64 → d.accAt q l =
          if q = row ∧ (c.preg pred).getLsbD l then c.lane vd l else c.accAt q l) ∧
        (∀ x ∈ d.accMarks, x ∈ c.accMarks ∧ ¬(sel x.1)))) ∧
  (∀ (n rc ra rb : Fin 32) (dtype : Fin 8) (acc : Fin 4) (accum rsrc : Bool) (rows : Byte) (e : Entry) (s u : State),
    s.Issues n e u →
    ((u.core n).tileBusy acc = true →
      Sys2Proof.Machine.exec (.aflags n rc ra rb dtype acc accum rsrc rows) s = .next u) ∧
    ((u.core n).tileBusy acc = false → s.Gives u n (.aflags n rc ra rb dtype acc accum rsrc rows)
      (((u.core n).setS rc (BitVec.ofNat 64 ((u.core n).tileFlags acc))).setTileFlags acc 0)))
/-- The matrix array (R351 to R355, R358 to R361, R366, R367, R406 to R408, Table CORE-5, OP 0x70 to 0x72): a weight load fills
the shadow tile cell by cell; an MMA takes its tile and its rows as it issues and raises what Table ARRY-4 names; its completion
adds each row's results into the accumulator, counts and retires it (R955), or raises what its checks found, against the stage
that issued it (R389, R390, R433); a keeper ramp gates the array. -/
def Obligations.ArrayLoadsWeightsAndMultiplies : Prop :=
  (∀ (n rc ra rb : Fin 32) (dtype : Fin 8) (acc : Fin 4) (accum rsrc : Bool) (cnt : Byte) (e : Entry) (s u : State),
    s.Issues n e u →
    let c := u.core n
    let a := (c.sreg ra).toNat
    let stride := (c.sreg rb).toNat
    let bad := a % 32 ≠ 0 ∨ stride % 32 ≠ 0
    let ld := Instr.wload n rc ra rb dtype acc accum rsrc cnt
    let ldt := Instr.wloadt n rc ra rb dtype acc accum rsrc cnt
    let mm := Instr.mma n rc ra rb dtype acc accum rsrc cnt
    let loads := dtype.val ≠ 1 ∧ dtype.val < 6 ∧ ¬bad
    let count := if rsrc then (c.sreg rc).toNat % 256 + 1 else cnt.toNat + 1
    (dtype.val = 1 ∨ 6 ≤ dtype.val → s.Raises u n e ld Exc.illegal 0 ∧ s.Raises u n e ldt Exc.illegal 0) ∧
    (dtype.val ≠ 1 → dtype.val < 6 → bad → s.Raises u n e ld Exc.misaligned a ∧ s.Raises u n e ldt Exc.misaligned a) ∧
    (dtype.val = 2 → ¬bad → s.RaisesArray u n e ldt ArrayExc.transposeInt4) ∧
    (∀ rows v, loads → u.Rows n e dtype 64 stride (u.depth n) a rows v →
      ∃ t tile, Sys2Proof.Machine.exec ld s = .next t ∧
        v.Retires t n ((v.core n).pc + 8) { v.core n with shadow := some tile } ∧
        tile.dtype = dtype.val ∧ tile.rows = u.depth n ∧
        ∀ k l, k < u.depth n → l < 64 → tile.at k l = (rows.getD k []).getD l 0) ∧
    (∀ rows v, loads → dtype.val ≠ 2 → u.Rows n e dtype (u.depth n) stride 64 a rows v →
      ∃ t tile, Sys2Proof.Machine.exec ldt s = .next t ∧
        v.Retires t n ((v.core n).pc + 8) { v.core n with shadow := some tile } ∧
        tile.dtype = dtype.val ∧ tile.rows = u.depth n ∧
        ∀ k l, k < u.depth n → l < 64 → tile.at k l = (rows.getD l []).getD k 0) ∧
    (¬(c.stepping ∧ c.mmas ≠ []) →
      (6 ≤ dtype.val → s.Raises u n e mm Exc.illegal 0) ∧
      (dtype.val < 6 → bad → s.Raises u n e mm Exc.misaligned a) ∧
      (dtype.val < 6 → ¬bad → c.mmaTile = none → s.RaisesArray u n e mm ArrayExc.noTile) ∧
      (∀ tile, dtype.val < 6 → ¬bad → c.mmaTile = some tile → typesMatch tile.dtype dtype = false →
        s.RaisesArray u n e mm ArrayExc.typeMismatch) ∧
      (∀ tile rows v, dtype.val < 6 → ¬bad → c.mmaTile = some tile → typesMatch tile.dtype dtype = true →
        u.Rows n e dtype (u.depth n) stride count a rows v →
        Sys2Proof.Machine.exec mm s = .next (v.setCore n { v.core n with
          active := some tile, shadow := none, gated := false
          mmas := (v.core n).mmas ++
            [⟨rows, dtype, tile, acc, accum, (v.core n).pc, decide (v.rd (OD.FEEDER_MODE n) = 1), some e⟩]
          pc := if (v.core n).stepping then (v.core n).pc else (v.core n).pc + 8 })))) ∧
  (∀ (n : Fin 32) (rep : MmaReport) (x : Mma) (rest : List Mma) (s : State), s.rd OD.GATE = 0 → s.held n = false →
    (s.core n).mmas = x :: rest → rep.parity = false → (∀ y ∈ (s.core n).accMarks, x.reads y.1 = false) →
    let r := Core.mmaRows { s.core n with mmas := rest, gated := (s.core n).gated && !rep.fed } s.free x
    ((s.core n).stepping = true → (s.core n).pc = x.pc →
      ∃ t, Sys2Proof.Machine.exec (.mmaComplete n rep) s = .next t ∧ t.core n = r.1.retiredAt (x.pc + 8)) ∧
    ((s.core n).stepping = false → ∃ t, Sys2Proof.Machine.exec (.mmaComplete n rep) s = .next t ∧ t.core n = r.1.applyRegw ∧
      (∀ m, m ≠ n.val → t.core m = s.core m) ∧
      t.rd (OD.KEEPER_CYCLES n) = min (s.rd (OD.KEEPER_CYCLES n) + s.keeperCycles rep.gaps) 0xFFFFFFFF ∧
      t.rd (OD.FEED_BUBBLES n) = (if x.bubble then min (s.rd (OD.FEED_BUBBLES n) + rep.late.toNat) 0xFFFFFFFF
        else s.rd (OD.FEED_BUBBLES n)) ∧
      t.rd (OD.FEED_STALL_CYCLES n) = (if x.bubble then s.rd (OD.FEED_STALL_CYCLES n)
        else min (s.rd (OD.FEED_STALL_CYCLES n) + rep.late.toNat) 0xFFFFFFFF) ∧
      t.rd (OD.SAT_EVENTS n) = (if r.2 = 0 then s.rd (OD.SAT_EVENTS n)
        else min (s.rd (OD.SAT_EVENTS n) + 1) 0xFFFFFFFF) ∧
      t.rd (OD.INSTRUCTIONS n) = min (s.rd (OD.INSTRUCTIONS n) + 1) 0xFFFFFFFFFFFFFFFF ∧
      s.SameBut t [OD.KEEPER_CYCLES n, OD.FEED_BUBBLES n, OD.FEED_STALL_CYCLES n, OD.SAT_EVENTS n, OD.INSTRUCTIONS n])) ∧
  (∀ (n : Fin 32) (rep : MmaReport) (x : Mma) (rest : List Mma) (e : Entry) (s : State), s.rd OD.GATE = 0 →
    s.held n = false → (s.core n).mmas = x :: rest → x.ent = some e →
    let c : Core := { s.core n with mmas := rest, gated := (s.core n).gated && !rep.fed }
    (rep.parity → s.entryLive e → ∃ v t, Sys2Proof.Machine.exec (.mmaComplete n rep) s = .next t ∧
      v.Excepts t n e true ArrayExc.weightParity x.pc 0 0 ∧ Keep [.od, .cores] s v ∧
      v.core n = { c with active := none, shadow := none }) ∧
    (rep.parity → s.entryLive e = false → ∃ t, Sys2Proof.Machine.exec (.mmaComplete n rep) s = .next t ∧
      t.rd (OD.LAST_EXCEPTION n) = excWord true ArrayExc.weightParity x.pc e.run e.stage e.flight 0 ∧
      t.rd (OD.ARRAY_EXCEPTIONS n) = min (s.rd (OD.ARRAY_EXCEPTIONS n) + 1) 0xFFFFFFFF ∧
      t.core n = { c with active := none, shadow := none } ∧ Keep [.od, .host, .falt, .trc, .cores] s t) ∧
    (rep.parity = false → s.entryLive e → (∃ y ∈ (s.core n).accMarks, x.reads y.1 ∧ y.2 = 2) →
      ∃ v t, Sys2Proof.Machine.exec (.mmaComplete n rep) s = .next t ∧
        v.Excepts t n e true ArrayExc.accUncorrectable x.pc 0 0 ∧ Keep [.od, .host, .falt, .cores] s v ∧
        v.core n = { c with accMarks := (s.core n).accMarks.filter (fun y => !(x.reads y.1 && decide (y.2 = 1))) })) ∧
  (∀ (c : Core) (seed m : Nat) (x : Mma) (xs : List Nat) (q l : Nat), l < 64 →
    (c.mmaRow seed x m xs).1.accAt q l =
      if q = (64 * x.acc + m) % 256 then
        (accumulate x.accum (c.accAt q l) (Config.freeLane seed (64 * m + l)) xs x.dtype x.tile l).1
      else c.accAt q l) ∧
  (∀ (n : Fin 32) (s : State), s.powered (2 + n.val / 4) → s.rd OD.GATE = 0 → s.held n = false →
    ((s.core n).gated = false ∨ (s.core n).mmas ≠ []) →
    ∃ t, Sys2Proof.Machine.exec (.keeperRampDown n) s = .next t ∧ t.core n = { s.core n with gated := true } ∧
      (∀ m, m ≠ n.val → t.core m = s.core m) ∧
      t.rd (OD.KEEPER_CYCLES n) = min (s.rd (OD.KEEPER_CYCLES n) + s.rd OD.KEEPER_GAP) 0xFFFFFFFF ∧
      s.SameBut t [OD.KEEPER_CYCLES n] ∧ Keep [.od, .cores] s t)

/-- Landing instructions and the landing window (R216, R217, R420, R421, Table CORE-7, Table LAND-3): each instruction applies
its operation to landing S[RA] + IMM; an 8-byte load or store in the window applies the one of its offset, and any other access
there faults the stage with cause 0x04. -/
def Obligations.LandingInstructionsApplyTheirOperations : Prop :=
  (∀ (n rd ra rb : Fin 32) (imm : BitVec 16) (e : Entry) (s u : State), s.Issues n e u →
    let c := u.core n
    let L := ((c.sreg ra).toNat + imm.toNat) % 65536
    let d := c.sreg rb
    s.LandsBy u n e (.lread n rd ra rb imm) L .read rd ∧ s.LandsBy u n e (.linit n rd ra rb imm) L (.init d) 0 ∧
    s.LandsBy u n e (.ladd n rd ra rb imm) L (.add d) 0 ∧ s.LandsBy u n e (.lset n rd ra rb imm) L .set 0 ∧
    s.LandsBy u n e (.lclr n rd ra rb imm) L .clear 0 ∧ s.LandsBy u n e (.lacq n rd ra rb imm) L .acquire rd ∧
    s.LandsBy u n e (.ltry n rd ra rb imm) L .tryLock rd ∧ s.LandsBy u n e (.lrel n rd ra rb imm) L .release 0 ∧
    s.LandsBy u n e (.larr n rd ra rb imm) L .arrive 0 ∧ s.LandsBy u n e (.lwait n rd ra rb imm) L .wait rd ∧
    s.LandsBy u n e (.lack n rd ra rb imm) L (.ack d) 0 ∧
    s.LandsBy u n e (.lpush n rd ra rb imm) L (.push d c.sealed) 0 ∧
    s.LandsBy u n e (.ltake n rd ra rb imm) L .take rd ∧ s.LandsBy u n e (.lport n rd ra rb imm) L .portStatus rd ∧
    s.LandsBy u n e (.lpeek n rd ra rb imm) L (.peek (d.toNat % 4)) rd) ∧
  (∀ (n rd ra : Fin 32) (size : Fin 4) (imm : BitVec 32) (e : Entry) (s u : State), s.Issues n e u →
    let c := u.core n
    let a := c.effective ra imm
    let L := (a - 0x200000000) / 0x100
    a % 2 ^ size.val = 0 → inLandWindow a = true →
    (∀ op, size.val = 3 → landLoadOp (a % 0x100) = some op →
      s.LandsBy u n e (.ld n rd ra size imm) L op rd ∧ s.LandsBy u n e (.lds n rd ra size imm) L op rd) ∧
    (∀ op, size.val = 3 → landStoreOp (a % 0x100) (c.sreg rd) c.sealed = some op →
      s.LandsBy u n e (.st n rd ra size imm) L op 0) ∧
    (size.val ≠ 3 ∨ landLoadOp (a % 0x100) = none →
      Sys2Proof.Machine.exec (.ld n rd ra size imm) s = .next (u.stageFault e 4 a none) ∧
      Sys2Proof.Machine.exec (.lds n rd ra size imm) s = .next (u.stageFault e 4 a none)) ∧
    (size.val ≠ 3 ∨ landStoreOp (a % 0x100) (c.sreg rd) c.sealed = none →
      Sys2Proof.Machine.exec (.st n rd ra size imm) s = .next (u.stageFault e 4 a none)))
/-- The core DMA engine (R414 to R419, Table CORE-6): DMA queues the descriptor it reads, or waits, or raises; DMAWAIT waits for
the count; the engine starts the oldest descriptor and copies its rows, a zero length marks the stage EMPTY; its end applies
the signal. -/
def Obligations.CoreDmaQueuesCopiesAndSignals : Prop :=
  (∀ (n rd ra rb : Fin 32) (e : Entry) (s u : State), s.Issues n e u →
    let c := u.core n
    let a := (c.sreg ra).toNat
    let out := a < 0x100000000 + n.val * 0x200000 ∨ 0x100000000 + (n.val + 1) * 0x200000 ≤ a
    (4 ≤ c.dmaq.length → Sys2Proof.Machine.exec (.dma n rd ra rb) s = .next u) ∧
    (c.dmaq.length < 4 → out → s.Raises u n e (.dma n rd ra rb) Exc.dmaParam a) ∧
    (c.dmaq.length < 4 → ¬out → a % 64 ≠ 0 → s.Raises u n e (.dma n rd ra rb) Exc.misaligned a) ∧
    (∀ bs v, c.dmaq.length < 4 → ¬out → a % 64 = 0 → u.stageLoad n e a 64 = (some bs, v) →
      ((dmaDesc bs).rowBytes ≤ 0x1000000 → ∃ t, Sys2Proof.Machine.exec (.dma n rd ra rb) s = .next t ∧
        v.Retires t n ((v.core n).pc + 8) { v.core n with dmaq := (v.core n).dmaq ++ [{ dmaDesc bs with pc := (v.core n).pc }] }) ∧
      (0x1000000 < (dmaDesc bs).rowBytes → ∃ t, Sys2Proof.Machine.exec (.dma n rd ra rb) s = .next t ∧
        v.Excepts t n e false Exc.dmaParam (v.core n).pc 0 (a % 2 ^ 48)))) ∧
  (∀ (n : Fin 32) (imm : BitVec 32) (e : Entry) (s u : State), s.Issues n e u →
    let out := (u.core n).dmaq.length + (if (u.core n).running.isSome then 1 else 0)
    (imm.toNat % 4 < out → Sys2Proof.Machine.exec (.dmawait n imm) s = .next u) ∧
    (out ≤ imm.toNat % 4 → s.Gives u n (.dmawait n imm) (u.core n))) ∧
  (∀ (n : Fin 32) (d : DmaDesc) (rest : List DmaDesc) (e : Entry) (s : State), (s.core n).running = none →
    (s.core n).dmaq = d :: rest → s.runningOn n = some e → (s.core n).st ≠ .halted → s.rd OD.GATE = 0 →
    (d.rowBytes * d.rows = 0 → ∃ t, Sys2Proof.Machine.exec (.dmaDescriptorRun n) s = .next t ∧
      t.core n = { s.core n with dmaq := rest, running := some d, emptyMark := true } ∧
      (∀ m, m ≠ n.val → t.core m = s.core m) ∧ Keep [.cores] s t) ∧
    (∀ bs, d.rows = 1 → d.rowBytes ≠ 0 →
      let u := s.setCore n { s.core n with dmaq := rest, running := some d }
      bs = overlapCopy d.src d.dst (u.memBytes d.src d.rowBytes) →
      u.isMem (u.stageAcc n e) false d.src d.rowBytes → u.clean d.src d.rowBytes →
      (u.firstSealed d.src d.rowBytes = none ∨ (u.core n).sealed) →
      (∀ i, i < d.rowBytes → u.protects n (d.dst + i) = false) → u.isMem (u.stageAcc n e) true d.dst d.rowBytes →
      (∀ i, i < d.rowBytes → u.mark (d.dst + i) ≠ 2) →
      ((u.core n).sealed = false ∧ (u.core n).emitter = false ∨ (∀ i, i < d.rowBytes → u.sealedByte (d.dst + i) = true)) →
      ∃ t, Sys2Proof.Machine.exec (.dmaDescriptorRun n) s = .next t ∧ t.memBytes d.dst d.rowBytes = bs ∧
        (∀ x, (x < d.dst ∨ d.dst + d.rowBytes ≤ x) → t.memByte x = u.memByte x) ∧
        t.rd (OD.DMA_BYTES n) = min (s.rd (OD.DMA_BYTES n) + d.rowBytes) 0xFFFFFFFFFFFFFFFF ∧
        u.SameBut t [OD.DMA_BYTES n] ∧ Keep [.od, .mem, .bal] u t)) ∧
  (∀ (n : Fin 32) (d : DmaDesc) (e : Entry) (s u : State), (s.core n).running = some d → s.runningOn n = some e →
    s.rd OD.GATE = 0 → u = s.setCore n { s.core n with running := none } →
    let op : LandOp := if d.op = 0 then .add 1 else if d.op = 1 then .set else if d.op = 2 then .arrive
      else .push (BitVec.ofNat 64 d.payload) (s.core n).sealed
    (d.signal = false → Sys2Proof.Machine.exec (.dmaDescriptorDone n) s = .next u) ∧
    (∀ t, d.signal = true → u.landOp (u.stageReq n e) d.landing op 0 = (some .done, t) →
      Sys2Proof.Machine.exec (.dmaDescriptorDone n) s = .next t) ∧
    (∀ t, d.signal = true → u.landOp (u.stageReq n e) d.landing op 0 = (some .error, t) →
      Sys2Proof.Machine.exec (.dmaDescriptorDone n) s = .next (t.stageFault e 5 0 none)) ∧
    (∀ t, d.signal = true → u.landOp (u.stageReq n e) d.landing op 0 = (none, t) →
      Sys2Proof.Machine.exec (.dmaDescriptorDone n) s = .next (t.stageFault e 4 (landAddr d.landing op) none)))

/-- The operations of Tables LAND-3 and LAND-4 on a landing on which nothing is registered (R218, R219, R222, R224, R226 to
R233, R246): what the requester is answered, and the word and the payload port that the operation leaves. -/
def Obligations.LandingOperationsDoWhatTheirRowsSay : Prop :=
  ∀ (q : Requester) (L rd : Nat) (s : State), s.quiet L →
    let a := q.agent.val
    let w := s.landRaw L
    let m := modeOf w
    let p := s.port L
    (s.landsOn q L .read → ∃ t, s.landOp q L .read rd = (some (.word (s.landWord L)), t) ∧ s.Lands t L w p []) ∧
    (∀ d : Word, s.landsOn q L (.init d) → initBad w d.toNat = false →
      ∃ t, s.landOp q L (.init d) rd = (some .done, t) ∧
        s.Lands t L (initWord d.toNat a) (if L < 0x1000 then {} else p) [OD.OVERFLOWS] ∧
        t.rd OD.OVERFLOWS = (if bit (initWord d.toNat a) 60 then min (s.rd OD.OVERFLOWS + 1) 0xFFFFFFFF else s.rd OD.OVERFLOWS)) ∧
    (∀ d : Word, s.landsOn q L (.add d) → m = 0 → d.toNat < 2 ^ 24 →
      ∃ t, s.landOp q L (.add d) rd = (some .done, t) ∧
        s.Lands t L (changedBy a w (addWord w d.toNat)) p [OD.OVERFLOWS]) ∧
    (s.landsOn q L .set → m = 1 →
      ∃ t, s.landOp q L .set rd = (some .done, t) ∧ s.Lands t L (changedBy a w (setWord w)) p [OD.OVERFLOWS]) ∧
    (s.landsOn q L .clear → m = 1 →
      ∃ t, s.landOp q L .clear rd = (some .done, t) ∧ s.Lands t L (changedBy a w (setBit w 0 false)) p []) ∧
    (s.landsOn q L .acquire → m = 2 → bit w 0 = false →
      ∃ t, s.landOp q L .acquire rd = (some (.word (t.landWord L)), t) ∧ s.Lands t L (grantWord w a) p []) ∧
    (s.landsOn q L .acquire → m = 2 → bit w 0 = true → agentOf w ≠ a →
      ∃ t, s.landOp q L .acquire rd = (some .parked, t) ∧ s.Lands t L w p [] ∧
        t.land.waiters = s.land.waiters ++ [⟨a, L, true, 0, rd, s.land.parks⟩] ∧ t.land.parks = s.land.parks + 1) ∧
    (s.landsOn q L .tryLock → m = 2 →
      ∃ t, s.landOp q L .tryLock rd = (some (.word (t.landWord L)), t) ∧
        s.Lands t L (if bit w 0 then w else grantWord w a) p []) ∧
    (s.landsOn q L .release → m = 2 → bit w 0 = true → agentOf w = a →
      ∃ t, s.landOp q L .release rd = (some .done, t) ∧ s.Lands t L (setBit w 0 false) p []) ∧
    (s.landsOn q L .arrive → m = 3 →
      ∃ t, s.landOp q L .arrive rd = (some .done, t) ∧ s.Lands t L (changedBy a w (arriveWord w)) p []) ∧
    (s.landsOn q L .wait → m ≠ 2 → satisfied w (genOf w) = true →
      ∃ t, s.landOp q L .wait rd = (some (.word (s.landWord L)), t) ∧ s.Lands t L (releaseAction w) p [] ∧
        t.land.waiters = s.land.waiters) ∧
    (s.landsOn q L .wait → m ≠ 2 → satisfied w (genOf w) = false →
      ∃ t, s.landOp q L .wait rd = (some .parked, t) ∧ s.Lands t L w p [] ∧
        t.land.waiters = s.land.waiters ++ [⟨a, L, false, genOf w, rd, s.land.parks⟩]) ∧
    (∀ d : Word, s.landsOn q L (.ack d) → (bit d.toNat 1 = true → m = 2 ∧ bit w 0 = true ∧ agentOf w = a) →
      ∃ t, s.landOp q L (.ack d) rd = (some .done, t) ∧
        s.Lands t L (changedBy a w
          (let x := if bit d.toNat 0 then setBit w 60 false else w
           if bit d.toNat 1 then setBit x 59 false else x)) p []) ∧
    (s.landsOn q L .force → m = 2 → bit w 0 = true →
      ∃ t, s.landOp q L .force rd = (some .done, t) ∧
        s.Lands t L (setBit (setBit w 0 false) 59 true) p
          [OD.ABANDONS, OD.FORCED_RELEASES, OD.FAULTS_LOST, OD.CLASS_COUNTS FaultClass.corrected] ∧
        t.rd OD.FORCED_RELEASES = min (s.rd OD.FORCED_RELEASES + 1) 0xFFFFFFFF) ∧
    (∀ (d : Word) (mark : Bool), s.landsOn q L (.push d mark) → m ≠ 2 → L < 0x1000 → p.q.length < 4 →
      ∃ t, s.landOp q L (.push d mark) rd = (some .done, t) ∧
        s.Lands t L (changedBy a w (arrival w)) { p with q := p.q ++ [⟨a, d.toNat % 2 ^ 48, mark⟩] } [OD.OVERFLOWS]) ∧
    (∀ (d : Word) (mark : Bool), s.landsOn q L (.push d mark) → m ≠ 2 → L < 0x1000 → 4 ≤ p.q.length →
      ∃ t, s.landOp q L (.push d mark) rd = (some .done, t) ∧
        s.Lands t L (changedBy a w (withOverflow w true)) { p with drops := min (p.drops + 1) 255 }
          [OD.PAYLOAD_DROPS, OD.OVERFLOWS]) ∧
    (s.landsOn q L .take → L < 0x1000 →
      ∃ t, s.landOp q L .take rd = (some (.word (p.peek 0)), t) ∧ s.Lands t L w { p with q := p.q.tail } []) ∧
    (s.landsOn q L .portStatus → L < 0x1000 →
      ∃ t, s.landOp q L .portStatus rd = (some (.word (BitVec.ofNat 64 (p.q.length + 256 * min p.drops 255))), t) ∧
        s.Lands t L w p []) ∧
    (∀ k, s.landsOn q L (.peek k) → L < 0x1000 →
      ∃ t, s.landOp q L (.peek k) rd = (some (.word (p.peek k)), t) ∧ s.Lands t L w p [])

/-- The landing rows answer their agents (R229, R230, R242, Table LAND-3): each row applies its operation, and its agent's last
landing answer is what the operation returned; a failed one faults the agent's stage or leaves a record. -/
def Obligations.LandingRowsAnswerTheirAgents : Prop :=
  (∀ (q : Requester) (L : BitVec 16) (d : Word) (k : Fin 4) (s : State),
    s.RowAnswers (.landingRead q L) q L.toNat .read ∧
    s.RowAnswers (.landingInit q L d) q L.toNat (.init d) ∧
    s.RowAnswers (.landingAdd q L d) q L.toNat (.add d) ∧
    s.RowAnswers (.landingSet q L) q L.toNat .set ∧
    s.RowAnswers (.landingClear q L) q L.toNat .clear ∧
    s.RowAnswers (.landingAcquire q L) q L.toNat .acquire ∧
    s.RowAnswers (.landingTry q L) q L.toNat .tryLock ∧
    s.RowAnswers (.landingRelease q L) q L.toNat .release ∧
    s.RowAnswers (.landingArrive q L) q L.toNat .arrive ∧
    s.RowAnswers (.landingWait q L) q L.toNat .wait ∧
    s.RowAnswers (.landingAck q L d) q L.toNat (.ack d) ∧
    s.RowAnswers (.landingForce q L) q L.toNat .force ∧
    s.RowAnswers (.landingPush q L d) q L.toNat (.push d (s.agentSealed q.agent.val)) ∧
    s.RowAnswers (.landingTake q L) q L.toNat .take ∧
    s.RowAnswers (.landingPortStatus q L) q L.toNat .portStatus ∧
    s.RowAnswers (.landingPeek q L k) q L.toNat (.peek k.val)) ∧
  (∀ (a : Nat) (r : LandResp) (t : State), Sparse.get (fun _ => .none) (t.landResp a r).land.resp a = r ∧
    (t.landResp a r).land.words = t.land.words ∧ (t.landResp a r).land.waiters = t.land.waiters ∧
    Keep [.land] t (t.landResp a r)) ∧
  (∀ (a addr cause obj : Nat) (t : State),
    (∀ e, t.runningOn a = some e → t.landFail a addr cause obj = (t.landResp a .error).stageFault e cause addr none) ∧
    (t.runningOn a = none → t.landFail a addr cause obj = (t.landResp a .error).record FaultClass.item a 1 obj addr 0))
/-- Satisfaction, the hold limit and a landing's own errors (R218, R220, R223, R224, R234, R236, R246, R262): satisfaction
releases exactly the registered operations whose condition holds, and then applies the release action once; a lock held past
its limit is abandoned, and its holder's stage faults with cause 0x06 or a record names it; an uncorrectable word resets the
landing with OVERFLOW set. -/
def Obligations.LandingsReleaseExpireAndReset : Prop :=
  (∀ (L : Nat) (s : State), s.returners L = [] →
    let w := s.landRaw L
    let hit := fun x : Waiter => decide (x.landing = L) && !x.acquire && satisfied w x.gen
    ((∃ x ∈ s.land.waiters, hit x) ∨ (∃ e ∈ s.gated L, satisfied w e.gen) →
      (s.landEvaluate1 L).2 = true ∧ (s.landEvaluate1 L).1.landRaw L = releaseAction w % 2 ^ 64 ∧
      (s.landEvaluate1 L).1.land.waiters = s.land.waiters.filter (fun x => !hit x)) ∧
    (¬((∃ x ∈ s.land.waiters, hit x) ∨ (∃ e ∈ s.gated L, satisfied w e.gen)) → s.landEvaluate1 L = (s, false))) ∧
  (∀ (L : BitVec 16) (s : State), let w := s.landRaw L.toNat
    heldOf w = true → holdLimit w ≠ 0 → holdLimit w ≤ holdTime w → s.halted (agentOf w) = false → s.quiet L.toNat →
    ∃ v, v.landRaw L.toNat = setBit (setBit w 0 false) 59 true % 2 ^ 64 ∧
      v.rd OD.ABANDONS = min (s.rd OD.ABANDONS + 1) 0xFFFFFFFF ∧
      v.rd OD.HOLD_EXPIRIES = min (s.rd OD.HOLD_EXPIRIES + 1) 0xFFFFFFFF ∧ Keep [.od, .land] s v ∧
      (∀ e, s.runningOn (agentOf w) = some e →
        Sys2Proof.Machine.exec (.holdLimitExpiry L) s = .next (v.stageFault e 6 0 none)) ∧
      (s.runningOn (agentOf w) = none → Sys2Proof.Machine.exec (.holdLimitExpiry L) s =
        .next (v.record FaultClass.stage (agentOf w) 1 OD.HOLD_EXPIRIES (0x200000000 + L.toNat * 0x100) L.toNat))) ∧
  (∀ (L : BitVec 16) (s : State), s.powered 1 = true →
    Sys2Proof.Machine.exec (.landingEccError true L) s =
      .next (s.record FaultClass.corrected 0xFF 1 0 (0x200000000 + L.toNat * 0x100) L.toNat)) ∧
  (∀ (L : BitVec 16) (s : State), s.powered 1 = true → s.quiet L.toNat →
    ∃ t, Sys2Proof.Machine.exec (.landingEccError false L) s = .next t ∧
      t.landRaw L.toNat = 2 ^ 60 + 2 ^ 24 ∧ (∀ M, M ≠ L.toNat → t.landRaw M = s.landRaw M) ∧
      t.land.waiters = s.land.waiters ∧
      t.rd (OD.CLASS_COUNTS FaultClass.stage) = min (s.rd (OD.CLASS_COUNTS FaultClass.stage) + 1) 0xFFFFFFFF)

/-- The choice of the dispatcher (R274, R275, R295, R326, Table FLIT-6): what it selects is a released entry whose tile plan, where
its stage has one, is made and whose engine is idle or cannot work at all, no ticked one on a boundary cycle, and no other such
entry comes before it in the order background, priority, sequence, run, stage. -/
def Obligations.TheDispatcherSelectsByKey : Prop :=
  ∀ (s : State) (e : Entry), s.nextIssue = some e →
    let ready := fun f : Entry => f.st = .released ∧ s.planned f ∧ (s.engineIdle f ∨ ¬s.engineUp f) ∧
      (f.bg ∨ s.boundaryAhead = false)
    e ∈ s.flit.entries ∧ ready e ∧
    (∀ f ∈ s.flit.entries, ready f → keyBefore f.key e.key = false) ∧
    (∀ f ∈ s.flit.entries, ready f → keyBefore e.key f.key = false → f.key = e.key)
/-- Issue and completion (R271, R272, R281, R287, R749): the selected entry faults with the lowest cause of Table FLIT-6 that
holds, or is ISSUED and its engine starts; a core starts at the section's entry, a Newel core's stage with the values of Table
CORE-8 (R426); a stage's end is the engine's report, a Newel core's stage ends with firmware's, which writes its shape values
(R323); a background stage that runs longer than BG_QUANTUM ends with cause 0x07. -/
def Obligations.StagesAreIssuedAndEnd : Prop :=
  (∀ (unit : UnitHeaders) (s : State) (e : Entry) (c : Nat), s.nextIssue = some e → s.issueCause e = some c →
    Sys2Proof.Machine.exec (.stageIssue unit) s = .next (s.stageFault e c 0 none)) ∧
  (∀ (unit : UnitHeaders) (s : State) (e : Entry) (d : StageDef), s.nextIssue = some e → s.issueCause e = none →
    s.stageDef e = some d →
    let e' := { e with st := .issued, issuedAt := s.clk.now }
    let u := s.issuing e
    (e.engine < 32 → ∃ t, Sys2Proof.Machine.exec (.stageIssue unit) s = .next t ∧
      let sec := (Sparse.get (fun _ => {}) s.ldr.images (s.item e.slot).image : Image).sections.getD d.section_ ⟨0, 0, 0, 0, 0, 0, 0⟩
      let base := alcoveBase + e.engine * alcoveBytes + u.rd (OD.IMG_ALCOVE_BASE (s.item e.slot).image) + sec.destOff
      (t.core e.engine).st = .running ∧ (t.core e.engine).pc = base + d.entryOff ∧
      (t.core e.engine).progLo = base ∧ (t.core e.engine).progHi = base + sec.destLen ∧
      (t.core e.engine).emitter = bit d.flags 0 ∧
      t.flit.entries = s.flit.entries.map (fun x => if x.same e then { x with st := .issued, issuedAt := s.clk.now } else x) ∧
      Keep [.od, .host, .flit, .trc, .cores, .ledg] s t) ∧
    (32 ≤ e.engine → e.engine < 36 → ∃ t, Sys2Proof.Machine.exec (.stageIssue unit) s = .next t ∧
      (t.newel (e.engine - 32)).sealed = false ∧
      (t.newel (e.engine - 32)).args = (u.entryRegs 0 e' d).filter (fun r => decide (r.1 ≠ 9 ∧ r.1 ≠ 10)) ∧
      t.flit.entries = s.flit.entries.map (fun x => if x.same e then { x with st := .issued, issuedAt := s.clk.now } else x) ∧
      Keep [.od, .host, .flit, .trc, .newels] s t) ∧
    (36 ≤ e.engine → e.engine < 38 →
      Sys2Proof.Machine.exec (.stageIssue unit) s = .next (u.decEnter (e.engine - 36) e' d unit)) ∧
    (e.engine = 38 → Sys2Proof.Machine.exec (.stageIssue unit) s = .next (u.encEnter e' d)) ∧
    (40 ≤ e.engine → Sys2Proof.Machine.exec (.stageIssue unit) s = .next (u.scalerEnter (e.engine - 40) e' d))) ∧
  (∀ (a : Fin 70) (r : StageReport) (s : State) (e : Entry),
    s.flit.entries.find? (fun e => e.st = .ended && e.engine = a.val) = some e →
    Sys2Proof.Machine.exec (.stageComplete a r) s = .next (s.stageDone e e.repEmpty e.repConcealed e.repBytes)) ∧
  (∀ (a : Fin 70) (r : StageReport) (s : State) (e : Entry), (∀ x ∈ s.flit.entries, x.st = .ended → x.engine ≠ a.val) →
    32 ≤ a.val → a.val < 36 → s.halted a.val = false → s.parkedAgent a.val = false → s.runningOn a.val = some e →
    Sys2Proof.Machine.exec (.stageComplete a r) s = .next
      ((r.shapes.foldl (fun u x => u.setShape e x.1 x.2.toNat (s.newel (a.val - 32)).sealed) s).stageDone e
        r.empty r.concealed r.bytes.toNat)) ∧
  (∀ (a : Fin 70) (s : State) (e : Entry), s.runningOn a.val = some e → e.bg = true →
    e.issuedAt + usEdges (s.rd OD.BG_QUANTUM) < s.clk.now →
    Sys2Proof.Machine.exec (.bgQuantumExpiry a) s = .next ((s.bump OD.BG_OVERRUNS).stageFault e 7 0 none)) ∧
  (∀ (a : Fin 70) (s : State) (e : Entry), s.runningOn a.val = some e →
    (e.bg = false ∨ s.clk.now ≤ e.issuedAt + usEdges (s.rd OD.BG_QUANTUM)) →
    Sys2Proof.Machine.exec (.bgQuantumExpiry a) s = .next s)
/-- What a stop and a stage's end leave (R272, R277, R278, R282, R286, R295, R296): a RUNNING or ADMITTED item becomes STOPPING with
its status, stage, agent, DETAIL and the edge of it, no other slot changes, its entries are gone, and background items within
the limit start; on a boundary cycle a ticked item's cause leaves its record alone, for the item ends LATE; a later cause
changes nothing. A stage that is not its item's last to end adds its bytes and its marks, and its entry leaves the queue; on a
boundary cycle a ticked item's stage does not end. When every engine has let go, the item closes. -/
def Obligations.ItemsStopAtTheirFirstCause : Prop :=
  (∀ (s : State) (i status stage agent detail : Nat) (words : Option (Nat × Nat)),
    let t := s.stopItem i status stage agent detail words
    let live := (s.item i).st = .running ∨ (s.item i).st = .admitted
    (live → (s.item i).bg = true ∨ s.boundaryAhead = false →
      ∃ v : State, t = v.startBackground 1024 ∧
        v.item i = { s.item i with
          st := .stopping, status := status, faultStage := stage, faultAgent := agent, detail := detail
          fixedAt := s.clk.now, reached := s.progress i } ∧
        (∀ j, j ≠ i → v.item j = s.item j) ∧
        v.flit.entries.map Entry.id = (s.flit.entries.filter (fun e => e.slot ≠ i)).map Entry.id ∧
        v.flit.letting = s.flit.letting ++
          (s.flit.entries.filter (fun e => e.slot = i && e.st = .issued)).map (fun e => (e.engine, i))) ∧
    (live → (s.item i).bg = false → s.boundaryAhead = true →
      (∀ j, t.item j = s.item j) ∧ t.flit.entries = s.flit.entries ∧ t.flit.letting = s.flit.letting ∧
        Keep [.od, .host, .flit, .falt] s t) ∧
    (¬live → t = s)) ∧
  (∀ (s : State) (e : Entry) (empty concealed : Bool) (bytes : Nat),
    let t := s.stageDone e empty concealed bytes
    (e.bg = true ∨ s.boundaryAhead = false → (∃ x ∈ s.flit.entries, x.slot = e.slot ∧ x.same e = false) →
      t.item e.slot = { s.item e.slot with
        empty := (s.item e.slot).empty || empty
        concealed := (s.item e.slot).concealed || concealed
        outBytes := (s.item e.slot).outBytes + bytes
        partBytes := if e.stage + 1 = (s.item e.slot).stages.length then (s.item e.slot).partBytes + bytes
          else (s.item e.slot).partBytes } ∧
      (∀ j, j ≠ e.slot → t.item j = s.item j) ∧
      t.flit.entries.map Entry.id = (s.flit.entries.filter (fun x => !(x.same e))).map Entry.id) ∧
    (e.bg = false → s.boundaryAhead = true → t = s)) ∧
  (∀ (i : Fin 1024) (s : State), (s.item i.val).st = .stopping →
    Sys2Proof.Machine.exec (.itemStopDone i) s = .next
      (State.closeItem { s with flit := { s.flit with letting := s.flit.letting.filter (fun x => x.2 ≠ i.val) } } i.val)) ∧
  (∀ (i : Fin 1024) (s : State), (s.item i.val).st ≠ .stopping → Sys2Proof.Machine.exec (.itemStopDone i) s = .next s)

/-- Doorbells (R168, R170, R171, R205): a whole 32-bit write below the ring size in an ACTIVE tenancy moves the submission tail,
or releases completion entries up to the new head; any other is ignored, counts in DOORBELL_ERRORS and signals the error
vector. A doorbell reads back the value that took effect; every read of BAR space completes with all bits set while a full
device reset is in progress (R152, R155). CQ_IRQ_DELAY over, the completion vector is signalled (R191). -/
def Obligations.DoorbellsMoveTheRings : Prop :=
  (∀ (t : Fin 16) (v : BitVec 32) (s : State), s.barLive → (s.tenancy t.val).st = .active →
    v.toNat % 2 ^ 16 < (s.tenancy t.val).sqSize →
    ∃ u, Sys2Proof.Machine.exec (.sqTail t v true) s = .next u ∧
      u.tenancy t.val = { s.tenancy t.val with sqTail := v.toNat % 2 ^ 16 } ∧
      (∀ j, j < 4 → u.pageByte t (0x1000 + j) = BitVec.ofNat 8 (v.toNat % 2 ^ 16 / 2 ^ (8 * j))) ∧
      (∀ k, k ≠ t.val → u.tenancy k = s.tenancy k) ∧ u.host.pf1 = s.host.pf1 ∧ Keep [.host] s u) ∧
  (∀ (t : Fin 16) (v : BitVec 32) (s : State), s.barLive → (s.tenancy t.val).st = .active →
    let x := s.tenancy t.val
    let head := v.toNat % 2 ^ 16
    let n := (head + x.cqSize - x.cqHead) % x.cqSize
    head < x.cqSize → n ≤ x.cqUsed →
    ∃ u, Sys2Proof.Machine.exec (.cqHead t v true) s = .next u ∧
      u.tenancy t.val = { x with cqHead := head, cqUsed := x.cqUsed - n } ∧
      (∀ j, j < 4 → u.pageByte t (0x1008 + j) = BitVec.ofNat 8 (head / 2 ^ (8 * j))) ∧
      (∀ k, k ≠ t.val → u.tenancy k = s.tenancy k) ∧ u.host.pf1 = s.host.pf1 ∧ Keep [.host] s u) ∧
  (∀ (t : Fin 16) (v : BitVec 32) (whole : Bool) (s : State), s.barLive →
    let x := s.tenancy t.val
    let w := v.toNat % 2 ^ 16
    let e := (s.bump (OD.DOORBELL_ERRORS t.val)).signal true (4 * t.val + 1)
    (whole = false ∨ x.st ≠ .active ∨ x.sqSize ≤ w → Sys2Proof.Machine.exec (.sqTail t v whole) s = .next e) ∧
    (whole = false ∨ x.st ≠ .active ∨ x.cqSize ≤ w ∨ x.cqUsed < (w + x.cqSize - x.cqHead) % x.cqSize →
      Sys2Proof.Machine.exec (.cqHead t v whole) s = .next e)) ∧
  (∀ (t : Fin 16) (s : State), (s.tenancy t.val).unsignalled ≠ 0 → s.rd (OD.CQ_IRQ_DELAY t.val) ≠ 0 →
    (s.tenancy t.val).unsigSince + 50 * s.rd (OD.CQ_IRQ_DELAY t.val) ≤ s.clk.now →
    ∃ u, Sys2Proof.Machine.exec (.cqIrqDelayExpiry t) s = .next u ∧
      u = (s.setTenancy t.val { s.tenancy t.val with unsignalled := 0 }).signal true (4 * t.val)) ∧
  (∀ (b : Bar) (off : Nat) (s : State), s.rd OD.RESET_STATE ≠ 0 → s.barByte b off = some 0xFF#8)
/-- Fetching (R172, R173, R203, R206): the ring engine asks, for the first tenancy in round-robin order that may fetch, for at
most 16 descriptors, of those rung, within its SLOT_LIMIT, the device's 1,024 slots and the free entries of its completion
ring, with at most four requests outstanding. -/
def Obligations.DescriptorsAreFetchedInTurn : Prop :=
  (∀ (s : State) (t : Nat), s.fetchable t ≠ 0 →
    let x := s.tenancy t
    let held := s.slotsHeld t + x.inFlight
    x.st = .active ∧ x.fetching.length < 4 ∧ s.fetchable t ≤ 16 ∧
    x.inFlight + s.fetchable t ≤ (x.sqTail + x.sqSize - x.sqHead) % x.sqSize ∧
    held + s.fetchable t ≤ s.rd (OD.SLOT_LIMIT t) ∧
    s.slotsInUse + s.allInFlight + s.fetchable t ≤ 1024 ∧ x.cqUsed + held + s.fetchable t ≤ x.cqSize) ∧
  (∀ (s : State) (i : Nat), i < 16 → s.fetching →
    let t := (s.host.rr + 1 + i) % 16
    s.fetchable t ≠ 0 → (∀ j, j < i → s.fetchable ((s.host.rr + 1 + j) % 16) = 0) →
    ∃ u, Sys2Proof.Machine.exec .descriptorFetch s = .next u ∧ u.host.rr = t ∧
      u.tenancy t = { s.tenancy t with fetching := (s.tenancy t).fetching ++ [s.fetchable t] } ∧
      (∀ k, k ≠ t → u.tenancy k = s.tenancy k) ∧ Keep [.host] s u) ∧
  (∀ s : State, (∀ t, t < 16 → s.fetchable t = 0) → Sys2Proof.Machine.exec .descriptorFetch s = .next s)
/-- The check of a fetched descriptor (R172, R174, R177, R196, R1019, Table HOST-8): a read that ends in an error wedges the
tenancy; a sound ITEM or BACKGROUND descriptor takes the lowest free slot, with its mirror entry, and waits for admission; the
first check that fails closes it with BAD_DESCRIPTOR and the reason; a NOP closes with its record alone. -/
def Obligations.DescriptorsAreChecked : Prop :=
  (∀ (t : Fin 16) (r : FetchResult) (s : State),
    let x := s.tenancy t.val
    (x.st = .active ∨ x.st = .draining) → x.fetching ≠ [] → s.fetching → s.fetchFailed x r →
    Sys2Proof.Machine.exec (.descriptorCheck t r) s = .next (s.wedge t.val 1)) ∧
  (∀ (t : Fin 16) (w : BitVec 512) (s : State) (i : Nat),
    let x := s.tenancy t.val
    let d := leBytes 64 w.toNat
    (x.st = .active ∨ x.st = .draining) → x.fetching ≠ [] → s.fetching → s.fetchFailed x (.data w) = false →
    s.freeSlot = some i → s.badReason t.val false d = 0 → fieldAt d 0 1 ≠ 3 →
    ∃ u, Sys2Proof.Machine.exec (.descriptorCheck t (.data w)) s = .next u ∧
      u.item i = { itemOf t.val s.clk.now d with st := .queued } ∧ (∀ j, j ≠ i → u.item j = s.item j) ∧
      u.flit.admission = s.flit.admission ++ [i] ∧ u.flit.entries = s.flit.entries ∧
      Sparse.get (fun _ => none) u.falt.mirror i =
        some ⟨fieldAt d 4 4, t.val, s.tick.epoch.toNat, b2n (decide (fieldAt d 0 1 = 2)) + 2⟩ ∧
      (u.tenancy t.val).sqHead = (x.sqHead + 1) % x.sqSize ∧ (u.tenancy t.val).st = x.st ∧
      (∀ k, k ≠ t.val → u.tenancy k = s.tenancy k) ∧ Keep [.host, .flit, .falt] s u) ∧
  (∀ (t : Fin 16) (r : FetchResult) (s : State) (i : Nat),
    let x := s.tenancy t.val
    let d := fetchBytes r
    let reason := s.badReason t.val (r = .poisoned) d
    let it := itemOf t.val s.clk.now d
    let v := if r = .poisoned then s.bump OD.UNCORR_ERRORS else s
    let u := ((v.setTenancy t.val x.arrive).setItem i it).setMirror i (some ⟨it.tag, t.val, s.tick.epoch.toNat, b2n it.bg + 2⟩)
    (x.st = .active ∨ x.st = .draining) → x.fetching ≠ [] → s.fetching → s.fetchFailed x r = false →
    s.freeSlot = some i →
    (reason ≠ 0 → Sys2Proof.Machine.exec (.descriptorCheck t r) s = .next (State.tenSettle (State.closePlain
      ((((u.bump (OD.BAD_DESCRIPTORS t.val)).signal true (4 * t.val + 1)).setItem i
        { it with st := .closing, status := Status.badDescriptor, detail := reason })) i) t.val)) ∧
    (reason = 0 → fieldAt d 0 1 = 3 → Sys2Proof.Machine.exec (.descriptorCheck t r) s = .next (State.tenSettle
      (State.closePlain (u.setItem i { it with st := .closing, status := Status.ok }) i) t.val)))
/-- Completion records (R180, R191, Table HOST-9): a record is one write of 32 bytes at the completion tail; the tail advances
and wraps, PHASE inverts at each wrap; the vector is signalled at once, or at CQ_IRQ_COUNT records. Nothing is written for a
tenancy that is not ACTIVE or DRAINING, nor while the function cannot write; a host error writes nothing. -/
def Obligations.RecordsAreWrittenToTheRing : Prop :=
  (∀ (s : State) (i : Nat) (plain : Bool),
    let it := s.item i
    let x := s.tenancy it.ten
    let a := x.cqBase + 32 * x.cqTail
    (x.st = .active ∨ x.st = .draining) → s.linkUp → s.host.pf1.bme → s.powered 26 → s.hostRange a 32 = none →
    ∃ u, s.writeRecord i plain = (.written, u) ∧
      (∀ j, j < 32 → u.hostByte (a + j) = (recordBytes it.tag it.status
        (b2n x.phase + 2 * b2n (it.status = Status.late && s.tick.lastSynth) + 4 * b2n it.bg)
        (if plain then 0xFFFF else i) (if plain then s.tick.epoch.toNat else it.epoch.toNat)
        (if plain then 0 else min (it.fixedAt - it.began) 0xFFFFFFFF) (it.outBytes % 2 ^ 32) it.faultStage it.faultAgent
        x.sqHead it.detail).getD j 0#8) ∧
      (∀ b, b < a ∨ a + 32 ≤ b → u.hostByte b = s.hostByte b) ∧
      (u.tenancy it.ten).ring = { x.ring with
        cqTail := (x.cqTail + 1) % x.cqSize, cqUsed := x.cqUsed + 1
        phase := if (x.cqTail + 1) % x.cqSize = 0 then !x.phase else x.phase } ∧
      (u.tenancy it.ten).unsignalled =
        (if it.irqNow ∨ s.rd (OD.CQ_IRQ_COUNT it.ten) ≤ x.unsignalled + 1 then 0 else x.unsignalled + 1) ∧
      (∀ k, k ≠ it.ten → u.tenancy k = s.tenancy k) ∧ Keep [.host, .hostMem] s u) ∧
  (∀ (s : State) (i : Nat) (plain : Bool),
    let x := s.tenancy (s.item i).ten
    ((x.st ≠ .active ∧ x.st ≠ .draining) ∨ s.linkUp = false ∨ s.host.pf1.bme = false ∨ s.powered 26 = false →
      s.writeRecord i plain = (.unsent, s)) ∧
    ((x.st = .active ∨ x.st = .draining) → s.linkUp → s.host.pf1.bme → s.powered 26 →
      s.hostRange (x.cqBase + 32 * x.cqTail) 32 ≠ none → s.writeRecord i plain = (.failed, s)))
/-- Functions and the link (R197, R215): clearing Bus Master Enable wedges every ACTIVE or DRAINING tenancy with cause 3 and
makes PF1 a wedged function; a correctable link error counts and is recorded as CORRECTED. -/
def Obligations.BusMasterLossWedges : Prop :=
  (∀ s : State, s.powered 26 → s.host.pf1.bme → (∀ t, t < 16 → (s.tenancy t).st ≠ .active ∧ (s.tenancy t).st ≠ .draining) →
    ∃ t, Sys2Proof.Machine.exec .bmeClear s = .next t ∧ t.host = { s.host with pf1 := { s.host.pf1 with bme := false } } ∧
      Keep [.host] s t) ∧
  (∀ s : State, s.powered 26 → s.host.pf1.bme → (∃ t, t < 16 ∧ ((s.tenancy t).st = .active ∨ (s.tenancy t).st = .draining)) →
    let live := (List.range 16).filter (fun t => (s.tenancy t).st = .active || (s.tenancy t).st = .draining)
    Sys2Proof.Machine.exec .bmeClear s = .next (live.foldl (fun s t => s.wedge t 3)
      (State.wr { s with host := { s.host with pf1 := { s.host.pf1 with bme := false } } } OD.PF1_STATE 1))) ∧
  (∀ s : State, s.powered 26 → ∃ t, Sys2Proof.Machine.exec .correctableLinkError s = .next t ∧
    t = (s.bump OD.CORR_ERRORS).record FaultClass.corrected 0xFF 26 OD.CORR_ERRORS 0 0)

/-- The image loader and tile plans (R304, R310, R312, R314, R315, R324, R328, R330, Tables LOAD-7, LOAD-10): the tables, each
section and the signature are read and checked in order; the first failure ends the load, as a part of the extents that loses
power does (R312), and a verified image becomes resident; firmware makes the plan of a TILED stage, whose chunks meet their bounds. -/
def Obligations.ImagesLoadAndPlansAreMade : Prop :=
  (∀ (r r1 : LoadRun) (s u : State) (f : LoadFail), s.ldr.run = some r → r.tables = false →
    (loadTables r s = (.ok (), r1, u) → Sys2Proof.Machine.exec .loadTablesRead s = .next (u.setLoad (some r1))) ∧
    (loadTables r s = (.error f, r1, u) → Sys2Proof.Machine.exec .loadTablesRead s = .next (u.loadEnd r1 f))) ∧
  (∀ (r r1 : LoadRun) (h : List Byte) (s u : State), s.loadRead 128 r 0 [] = (.ok h, r1, u) →
    (∀ f, headerFail h r1.length = some f → loadTables r s = (.error f, r1, u)) ∧
    (fieldAt h 0 4 ≠ 0x52555242 → headerFail h r1.length = some (4, 0)) ∧
    (fieldAt h 0 4 = 0x52555242 → fieldAt h 4 2 ≠ 1 → headerFail h r1.length = some (5, 4)) ∧
    (fieldAt h 0 4 = 0x52555242 → fieldAt h 4 2 = 1 → fieldAt h 6 2 = 128 → fieldAt h 8 4 ≠ r1.length →
      headerFail h r1.length = some (6, 8))) ∧
  (∀ (r r1 : LoadRun) (x : SectionDef) (bs : List Byte) (s u v : State), s.ldr.run = some r → r.tables = true →
    r.img.sections[r.next]? = some x → s.loadRead x.fileLen r x.fileOff [] = (.ok bs, r1, u) →
    (u.loadUnpowered r1.gbase r1.gsize r1.cores →
      Sys2Proof.Machine.exec .loadSectionCopied s = .next (u.loadEnd r1 (0xA, 0xFFFFFFFF))) ∧
    (u.loadUnpowered r1.gbase r1.gsize r1.cores = false →
      u.loadWrite (fitBytes x.destLen bs) (r1.dests x) = (true, v) →
      Sys2Proof.Machine.exec .loadSectionCopied s = .next (
        if crc32c bs = x.crc then v.setLoad (some { r1 with next := r1.next + 1 }) else v.loadEnd r1 (0xF, x.fileOff))) ∧
    (u.loadUnpowered r1.gbase r1.gsize r1.cores = false →
      u.loadWrite (fitBytes x.destLen bs) (r1.dests x) = (false, v) →
      Sys2Proof.Machine.exec .loadSectionCopied s = .next (v.loadEnd r1 (0xA, 0xFFFFFFFF)))) ∧
  (∀ (s : State) (bs : List Byte) (a : Nat) (rest : List Nat), s.isMem { agent := 67, ctx := none } true a bs.length →
    s.writable { agent := 67, ctx := none } a bs.length →
    ∃ t, s.Stored t a bs ∧ s.loadWrite bs (a :: rest) = t.loadWrite bs rest) ∧
  (∀ (r r1 : LoadRun) (bs : List Byte) (s u : State), s.ldr.run = some r → r.tables = true → r.img.sections.length ≤ r.next →
    s.loadRead (r.sigOff + 128) r 0 [] = (.ok bs, r1, u) →
    Sys2Proof.Machine.exec .loadSignatureCheck s = .next (
      if u.loadUnpowered r1.gbase r1.gsize r1.cores then u.loadEnd r1 (0xA, 0xFFFFFFFF)
      else if u.verifies r1.key (bs.take r1.sigOff) (bs.drop r1.sigOff) then u.loadOk r1 bs
      else ((u.bump OD.SIG_FAILS).record FaultClass.corrected 67 1 OD.SIG_FAILS 0 r1.slot).loadEnd r1 (0x10, r1.sigOff))) ∧
  (∀ (r : LoadRun) (f : LoadFail) (u : State), r.slot < 16 →
    let t := u.loadEnd r f
    t.rd OD.LOAD_RESULT = f.1 ∧ t.rd OD.LOAD_FAIL_OFFSET = f.2 ∧ t.rd OD.LOAD_STATE = 0 ∧
    t.rd OD.LOADS_FAILED = min (u.rd OD.LOADS_FAILED + 1) 0xFFFFFFFF ∧ t.rd (OD.IMG_STATE r.slot) = 0 ∧
    t.ldr.run = none ∧ t.mem = u.mem ∧ t.host = (u.signal false 5).host) ∧
  (∀ (r : LoadRun) (h : List Byte) (u : State), r.slot < 16 →
    let t := u.loadOk r h
    t.rd OD.LOAD_RESULT = 1 ∧ t.rd OD.LOAD_FAIL_OFFSET = 0xFFFFFFFF ∧ t.rd OD.LOAD_STATE = 0 ∧
    t.rd (OD.IMG_STATE r.slot) = 2 ∧ t.rd (OD.IMG_LOAD_EPOCH r.slot) = u.tick.epoch.toNat ∧
    t.rd (OD.IMG_GALLERY_BASE r.slot) = r.gbase ∧ t.rd (OD.IMG_GALLERY_SIZE r.slot) = r.gsize ∧
    t.rd (OD.IMG_ALCOVE_BASE r.slot) = r.abase ∧ t.rd (OD.IMG_ALCOVE_SIZE r.slot) = r.asize ∧
    t.rd (OD.IMG_CORES r.slot) = r.cores ∧ t.rd (OD.IMG_KEY_SLOT r.slot) = r.key ∧
    t.ldr.run = none ∧ t.ldr.ended = some (r.slot, u.clk.now) ∧ t.mem = u.mem ∧ t.host = (u.signal false 5).host) ∧
  (∀ (slot : Fin 1024) (run : Byte) (stage : Fin 32) (d : StageDef) (w i o : TensorDef) (s : State),
    let it := s.item slot.val
    let img := Sparse.get (fun _ => {}) s.ldr.images it.image
    let key := 256 * run.toNat + stage.val
    let entry := bits ((s.stageWords it).getD stage 0) 40 8
    let shape := it.shape run.toNat d.shapeSel
    it.st = .queued ∨ it.st = .admitted ∨ it.st = .running → s.firmwareServes → run.toNat < it.runs →
    stage.val < (s.stageWords it).length → (∀ p ∈ it.plans, p.1 ≠ key) → img.stages[entry]? = some d → bit d.flags 1 = true →
    d.tiledTensors img.tensors = some (w, i, o) →
    let u := s.setItem slot { it with
      plans := keyedPut it.plans key (makePlan d w i o shape ++
        [b2n (Sparse.get (fun _ => false) it.shapeSealed (4 * run.toNat + d.shapeSel)), entry])
      planGen := if it.plans.isEmpty then img.gen else it.planGen }
    (shape ≤ d.maxShape → Sys2Proof.Machine.exec (.tilePlan slot run stage) s = .next u) ∧
    (d.maxShape < shape → ∃ t, Sys2Proof.Machine.exec (.tilePlan slot run stage) s = .next t ∧ t.flit = u.flit ∧
      t.rd OD.TILING_CLAMPS = min (s.rd OD.TILING_CLAMPS + 1) 0xFFFFFFFF ∧
      t.rd (OD.CLASS_COUNTS 0) = min (s.rd (OD.CLASS_COUNTS 0) + 1) 0xFFFFFFFF ∧ Keep [.od, .host, .flit, .falt] s t)) ∧
  (∀ (d : StageDef) (w i o : TensorDef) (shape : Nat),
    let p := makePlan d w i o shape
    let row := tileRow (w.dims.getD 0 0) (w.dims.getD 1 0) (dtypeBits i.dtype) (dtypeBits o.dtype)
    let c := p.getD 1 0
    let base := p.getD 2 0
    let extra := p.getD 3 0
    let cap := p.getD 6 0
    shape ≠ 0 → d.maxShape ≠ 0 → d.rowsPerUnit ≠ 0 → row ≠ 0 → row ≤ d.workBytes →
    p.getD 0 0 = min shape d.maxShape ∧ 1 ≤ cap ∧ cap ≤ 256 ∧ cap * row ≤ d.workBytes ∧
    base * c + extra = min shape d.maxShape * d.rowsPerUnit ∧ extra < c ∧ base ≤ cap ∧ (extra ≠ 0 → base + 1 ≤ cap) ∧
    (2 ≤ c → cap / 2 ≤ base))

/-- The bundle unit (R49, R50, R51, R735 to R738, R747, R749, R760, R761): the sweep starts the copies; the end of a copy makes its
layer FRESH or gives it its late policy, as the end of its grace does; fixing a layer writes its entry, and the last one of a
tenancy its header; a fill zeroes the bytes that leave the sealed set. -/
def Obligations.BundlesArePublished : Prop :=
  (∀ s : State, s.tick.st ≠ .stopped → s.tick.swept = false → s.sweepAt ≤ s.clk.now →
    ∃ t, Sys2Proof.Machine.exec .sweepStart s = .next t ∧ t = State.copyNext { s with
        tick := { s.tick with swept := true }, ledg := { s.ledg with cur := { s.ledg.cur with sweep := some s.clk.now } } } ∧
      t.tick = { s.tick with swept := true } ∧ Keep [.tick, .ledg] s t) ∧
  (∀ (l : Nat) (s : State), s.ledg.pub = none → s.ledg.cur.copying = false → s.tick.swept → s.ledg.cur.nextCopy = some l →
    s.copyNext = s.setLayer l { s.layer l with copy := .running }) ∧
  (∀ (l : Fin 32) (ok : Bool) (e : BundleEpoch) (s u : State) (f : LastFresh), s.ledg.pub = some e →
    (e.layer l).copy = .running →
    (ok = true → s.copySealed (e.layer l) = false → s.copyLayer l e.epoch (e.layer l) = (some f, u) →
      Sys2Proof.Machine.exec (.layerCopyDone l ok) s = .next (State.copyNext (State.fixFresh
        { u with ledg := { u.ledg with pub := some (e.set l { e.layer l with copy := .copied, made := some f }) } } l true))) ∧
    (ok = false ∨ s.copySealed (e.layer l) →
      Sys2Proof.Machine.exec (.layerCopyDone l ok) s = .next (State.copyNext (State.fixLate
        { s with ledg := { s.ledg with pub := some (e.set l { e.layer l with copy := .failed, fault := true }) } } l)))) ∧
  (∀ (l : Fin 32) (ok : Bool) (s u : State) (f : LastFresh), s.ledg.pub = none → (s.layer l).copy = .running →
    (ok = true → s.copySealed (s.layer l) = false → s.copyLayer l s.ledg.cur.epoch (s.layer l) = (some f, u) →
      Sys2Proof.Machine.exec (.layerCopyDone l ok) s = .next
        (u.setLayer l { s.layer l with copy := .copied, made := some f }).copyNext) ∧
    (ok = false ∨ s.copySealed (s.layer l) →
      Sys2Proof.Machine.exec (.layerCopyDone l ok) s = .next
        (s.setLayer l { s.layer l with copy := .failed, fault := true }).copyNext)) ∧
  (∀ (l : Fin 32) (e : BundleEpoch) (s : State), s.ledg.pub = some e → (e.layer l).cfg.enable → (e.layer l).fixed = none →
    (e.point + 50 * (e.layer l).cfg.grace ≤ s.clk.now → Sys2Proof.Machine.exec (.layerGraceExpiry l) s = .next (s.fixLate l)) ∧
    (s.clk.now < e.point + 50 * (e.layer l).cfg.grace → Sys2Proof.Machine.exec (.layerGraceExpiry l) s = .next s)) ∧
  (∀ (l : Nat) (e : BundleEpoch) (f : LastFresh) (s : State), s.ledg.pub = some e →
    let fault := if (e.layer l).fault then 32 else 0
    (Sparse.get (fun _ => none) s.ledg.fresh l = some f → f.held → (e.layer l).cfg.drop = false →
      s.fixLate l = s.fixLayer l 2 (f.flags + fault) (some f)) ∧
    (Sparse.get (fun _ => none) s.ledg.fresh l = none ∨ (e.layer l).cfg.drop → s.fixLate l = s.fixLayer l 0 fault none) ∧
    ((e.layer l).made = some f → ∀ g, s.fixFresh l g = s.fixLayer l 1 (f.flags + if g then 8 else 0) (some f))) ∧
  (∀ (l l2 st flags : Nat) (f : Option LastFresh) (e : BundleEpoch) (s : State), l < 32 → (e.layer l).cfg.ten < 16 → s.ledg.pub = some e →
    (e.layer l).fixed = none → st ≤ 2 → bit (e.layer l).cfg.landing 16 = false →
    l2 ≠ l → l2 ∈ e.layersOf (e.layer l).cfg.ten → (e.layer l2).fixed = none →
    let q := bundleAcc (e.layer l).cfg.ten
    let a := e.slotBase (e.layer l).cfg.ten + 64 + 32 * l
    s.isMem q true a 32 → s.writable q a 32 →
    let t := s.fixLayer l st flags f
    t.memBytes a 32 = layerEntry st flags f ∧ (∀ x, x < a ∨ a + 32 ≤ x → t.memByte x = s.memByte x) ∧
    t.rd (OD.LAYER_LAST l) = st ∧
    t.rd OD.LAYERS_HELD = (if st = 2 then min (s.rd OD.LAYERS_HELD + 1) 0xFFFFFFFF else s.rd OD.LAYERS_HELD) ∧
    t.rd OD.LAYERS_DROPPED = (if st = 0 then min (s.rd OD.LAYERS_DROPPED + 1) 0xFFFFFFFF else s.rd OD.LAYERS_DROPPED) ∧
    Keep [.od, .mem, .bal, .ledg] s t) ∧
  (∀ (n : Nat) (e : BundleEpoch) (s v : State), s.ledg.pub = some e → e.headers = [n] → n < 16 →
    (∀ l ∈ e.layersOf n, (e.layer l).fixed ≠ none) →
    let base := e.slotBase n
    v = ((List.range 32).filter (fun l => !(e.layersOf n).contains l)).foldl
      (fun s l => (s.bundleWrite n (base + 64 + 32 * l) (zeros 32)).2) s →
    v.isMem (bundleAcc n) true base 64 → v.writable (bundleAcc n) base 64 →
    let t := s.bundleHeader n
    t.memBytes base 64 = e.header n s.clk.gtime ∧ t.rd (OD.BND_LAST_EPOCH n) = e.epoch ∧ t.ledg.pub = none) ∧
  (∀ (n : Fin 32) (s : State), bit s.ledg.unsealing n = true →
    ∃ t, Sys2Proof.Machine.exec (.unsealFillDone n) s = .next t ∧ bit t.ledg.unsealing n = false ∧ bit t.ledg.tainted n = false ∧
      (∀ m, m ≠ n.val → bit t.ledg.unsealing m = bit s.ledg.unsealing m ∧ bit t.ledg.tainted m = bit s.ledg.tainted m) ∧
      (∀ a, t.memByte a = if inRange (alcoveRange n) a && !s.unsealKeeps n a then 0#8 else s.memByte a) ∧
      t.core n = { s.core n with active := none, shadow := none, acc := [], accMarks := [] } ∧ (∀ m, m ≠ n.val → t.core m = s.core m) ∧
      Keep [.mem, .cores, .ledg] s t) ∧
  (∀ (r : Nat × Nat) (rest : List (Nat × Nat)) (s : State), s.ledg.fills = r :: rest →
    let u : State := { s with ledg := { s.ledg with fills := rest } }
    ∃ t, Sys2Proof.Machine.exec .sealFillDone s = .next t ∧ t.ledg = u.ledg ∧
      (∀ a, t.memByte a = if inRange r a && !u.sealedByte a then 0#8 else s.memByte a) ∧ Keep [.mem, .ledg] s t)

/-- The cloakroom's pools (R485, R491 to R495, R501, R508, R509, R512, R524): a fill writes a ticket per entry and makes the
pool READY; a refill takes tickets from the ring's head and a write-back gives the 32 oldest of the cache to its end; a freed
sealed buffer is zeroed before its ticket returns; a record or entry with an error is discarded. -/
def Obligations.PoolsFillAndKeepTheirTickets : Prop :=
  (∀ (q t : Nat) (s : State), (s.pool q).count < (s.pool q).ringEntries →
    let a := (s.pool q).ringBase + 4 * (((s.pool q).head + (s.pool q).count) % (s.pool q).ringEntries)
    s.meetsImage a 4 = false → s.isMem clokAcc true a 4 → s.writable clokAcc a 4 →
    ∃ u, s.Stored u a (leBytes 4 t) ∧
      State.ringWrite q [t] s = u.setPool q { s.pool q with count := (s.pool q).count + 1 }) ∧
  (∀ (q n : Nat) (acc : List Nat) (s : State),
    let a := (s.pool q).ringBase + 4 * ((s.pool q).head % (s.pool q).ringEntries)
    let t := ofLe (s.memBytes a 4)
    s.isMem clokAcc false a 4 → s.clean a 4 →
    ∃ u : State, (∃ b, u = State.setPool { s with bal := b } q
        { s.pool q with head := ((s.pool q).head + 1) % (s.pool q).ringEntries, count := (s.pool q).count - 1 }) ∧
      State.ringRead q (n + 1) s acc =
        if ticketPool t = q ∧ ticketIndex t < (s.pool q).buffers then State.ringRead q n u (t :: acc)
        else State.ringRead q n (u.bump OD.RING_DISCARDS) acc) ∧
  (∀ (q : Fin 8) (s : State), s.rd (OD.POOL_STATE q) = 1 →
    let n := min (s.pool q).buffers (s.pool q).ringEntries
    let w := State.ringWrite q ((List.range n).map (fun i => q * 2 ^ 29 + i)) (s.setPool q { s.pool q with head := 0, count := 0 })
    ∃ t, Sys2Proof.Machine.exec (.poolFillDone q) s = .next t ∧ t.rd (OD.POOL_STATE q) = 2 ∧
      t.pool q = { s.pool q with head := 0, count := n } ∧ (∀ p, p ≠ q.val → t.pool p = s.pool p) ∧
      bit (t.rd OD.POOL_EVENTS) (16 + q) = true ∧ t.mem = w.mem ∧
      Keep [.od, .host, .hostMem, .falt, .mem, .bal, .clok] s t) ∧
  (∀ (q : Fin 8) (s u : State) (ts : List Nat), s.rd (OD.POOL_STATE q) = 2 → (s.pool q).cache.length ≤ 16 → (s.pool q).count ≠ 0 →
    (State.ringRead q (min 32 (s.pool q).count) s [] = (ts, none, u) →
      Sys2Proof.Machine.exec (.cacheRefill q) s =
        .next (State.drainClk ((u.setPool q { u.pool q with cache := ts ++ (u.pool q).cache }).poolChanged q (s.freeTickets q)))) ∧
    (∀ x, State.ringRead q (min 32 (s.pool q).count) s [] = (ts, some x, u) → s.clok.waiting = [] →
      ∃ t, Sys2Proof.Machine.exec (.cacheRefill q) s = .next t ∧ t.pool q = { u.pool q with cache := ts ++ (u.pool q).cache } ∧
        t.rd (OD.CLASS_COUNTS 1) = min (u.rd (OD.CLASS_COUNTS 1) + 1) 0xFFFFFFFF)) ∧
  (∀ s : State, s.clok.waiting = [] → s.drainClk = s) ∧
  (∀ (q : Fin 8) (s : State), s.rd (OD.POOL_STATE q) = 2 → 56 ≤ (s.pool q).cache.length →
    (s.pool q).count + 32 ≤ (s.pool q).ringEntries →
    let k := (s.pool q).cache.length - 32
    let w := State.ringWrite q ((s.pool q).cache.drop k).reverse (s.setPool q { s.pool q with cache := (s.pool q).cache.take k })
    ∃ t, Sys2Proof.Machine.exec (.cacheWriteback q) s = .next t ∧
      t.pool q = { s.pool q with cache := (s.pool q).cache.take k, count := (s.pool q).count + 32 } ∧
      (∀ p, p ≠ q.val → t.pool p = s.pool p) ∧ t.mem = w.mem ∧ t.freeTickets q = s.freeTickets q ∧
      Keep [.od, .host, .hostMem, .falt, .mem, .bal, .clok] s t) ∧
  (∀ (b : ScrubBuf) (rest : List ScrubBuf) (s : State), s.clok.scrub = b :: rest →
    let q := ticketPool b.ticket
    let a := b.addr
    let n := b.len
    s.meetsImage a n = false → s.isMem clokAcc true a n → s.writable clokAcc a n →
    ∃ t, Sys2Proof.Machine.exec .sealedBufferFillDone s = .next t ∧ t.clok.scrub = rest ∧
      (∀ x, t.memByte x = if a ≤ x ∧ x < a + n then 0#8 else s.memByte x) ∧
      t.pool q = (if b.back then { s.pool q with cache := b.ticket :: (s.pool q).cache } else s.pool q) ∧
      Keep [.od, .host, .mem, .bal, .clok] s t) ∧
  (∀ (w : ClaimPlace) (s : State), ∃ t, Sys2Proof.Machine.exec (.claimEccError true w) s = .next t ∧
    t.rd (OD.CLASS_COUNTS 0) = min (s.rd (OD.CLASS_COUNTS 0) + 1) 0xFFFFFFFF ∧ t.clok = s.clok ∧ Keep [.od, .host, .falt] s t) ∧
  (∀ (i : Nat) (r : ClaimRec) (s : State), s.clok.recs[i]? = some r → s.rd (OD.POOL_STATE (ticketPool r.ticket)) ≠ 3 →
    ∃ t, Sys2Proof.Machine.exec (.claimEccError false (.record i)) s = .next t ∧
      t.clok = { s.clok with recs := s.clok.recs.take i ++ s.clok.recs.drop (i + 1) } ∧
      t.rd OD.LEAKS = min (s.rd OD.LEAKS + 1) 0xFFFFFFFF ∧
      t.rd (OD.CLASS_COUNTS 1) = min (s.rd (OD.CLASS_COUNTS 1) + 1) 0xFFFFFFFF ∧ Keep [.od, .host, .falt, .clok] s t) ∧
  (∀ (q : Fin 8) (i : Nat) (s : State), i < (s.pool q).cache.length →
    ∃ t, Sys2Proof.Machine.exec (.claimEccError false (.entry q i)) s = .next t ∧
      t.pool q = { s.pool q with cache := (s.pool q).cache.take i ++ (s.pool q).cache.drop (i + 1) } ∧
      t.rd OD.LEAKS = min (s.rd OD.LEAKS + 1) 0xFFFFFFFF ∧
      t.rd (OD.CLASS_COUNTS 1) = min (s.rd (OD.CLASS_COUNTS 1) + 1) 0xFFFFFFFF ∧ Keep [.od, .host, .falt, .clok] s t)

/-- A sensor port (R527 to R530, R533 to R540, R558): what a burst and a header do, a Frame Start captures a frame or drops it with
its reason, a line is stored with its padding, a frame closes at its end, at a Frame Start and at its timeout with its missing
lines padded, and a closed frame is delivered. -/
def Obligations.FramesAreCapturedAndDelivered : Prop :=
  (∀ (c : Fin 4) (fixed crc : Bool) (bs : List Byte) (s : State),
    (s.hears c → Sys2Proof.Machine.exec (.frameStart c fixed) s = .next (((s.header c fixed).closeFrame c true).takeFrame c)) ∧
    (s.portOn c → 1500 < (s.sens c).rate → (s.sens c).calibrated = false → ∀ i ∈ ([.frameStart c fixed, .linePacket c fixed crc bs,
      .frameEnd c fixed, .otherPacket c (.mismatch fixed), .otherPacket c .badHeader] : List Instr),
      Sys2Proof.Machine.exec i s = .next (s.countFirst (OD.SOT_ERRORS c) c)) ∧
    (s.portOn c = false → ∀ i ∈ ([.frameStart c fixed, .linePacket c fixed crc bs, .frameEnd c fixed,
      .otherPacket c (.mismatch fixed), .otherPacket c .badHeader, .otherPacket c .badStart, .skewCalibration c, .ulpsExit c] :
      List Instr), Sys2Proof.Machine.exec i s = .next s)) ∧
  (∀ (c : Fin 4) (fixed : Bool) (s : State), let t := s.header c fixed
    t.rd OD.STREAMING = setBit (s.rd OD.STREAMING) c true ∧ t.rd OD.SENS_LED_STATE = 1 ∧
    t.rd (OD.HDR_CORRECTED c) = (if fixed then min (s.rd (OD.HDR_CORRECTED c) + 1) 0xFFFFFFFF else s.rd (OD.HDR_CORRECTED c)) ∧
    t.sens c = { s.sens c with header := some s.clk.now } ∧
    s.SameBut t [OD.STREAMING, OD.SENS_LED_STATE, OD.HDR_CORRECTED c] ∧ Keep [.od, .ports] s t) ∧
  (∀ (c : Fin 4) (s : State), let t := s.takeFrame c
    let landing := s.rd (OD.FRAME_LANDING c)
    let seq := ((s.sens c).seq + 1) % 65536
    let full := 4 ≤ (s.port (bits landing 0 16)).q.length
    let reason := if bit landing 16 = false then 1 else if full then 2 else 3
    (bit landing 16 = false ∨ full ∨ s.powered 1 = false →
      t.rd (OD.FRAMES_DROPPED c) = min (s.rd (OD.FRAMES_DROPPED c) + 1) 0xFFFFFFFF ∧
      t.rd (OD.FRAME_INFO c) = seq * 2 ^ 32 + reason * 2 ^ 16 ∧ t.sens c = { s.sens c with seq := seq, dropping := true } ∧
      s.SameBut t [OD.FRAMES_DROPPED c, OD.FRAME_INFO c] ∧ Keep [.od, .ports] s t) ∧
    (∀ (n : Nat) (u : State), bit landing 16 = true → ¬full → s.powered 1 = true →
      State.alloc (s.setSens c { s.sens c with seq := seq, dropping := false })
        ⟨64, alignUp ((s.rd (OD.WIDTH c) * pixelBits (s.rd (OD.DATA_TYPE c)) + 7) / 8) 64 * s.rd (OD.HEIGHT c),
          true, s.flag (OD.FRAME_SPILL c), s.rd (OD.FRAME_OWNERS c), none⟩ = (.ticket n, u) →
      t.rd (OD.PORT_STATE c) = 2 ∧ u.SameBut t [OD.PORT_STATE c] ∧ Keep [.od, .ports] u t ∧
      t.sens c = { u.sens c with frame := some {
        width := s.rd (OD.WIDTH c), height := s.rd (OD.HEIGHT c), dtype := s.rd (OD.DATA_TYPE c), pad := u.rd (OD.PAD_BYTE c)
        landing := bits landing 0 16, timeout := u.rd (OD.FRAME_TIMEOUT c), ticket := n, seq := seq, since := s.clk.now
        startTime := s.clk.gtime } })) ∧
  (∀ (c : Fin 4) (fixed : Bool) (bs : List Byte) (s : State), s.hears c →
    let u := s.header c fixed
    (∀ f : Frame, (s.sens c).frame = some f → f.line < f.height →
      let a := u.bufferAddr f.ticket + f.line * f.stride
      let pix := bs.take f.lineBytes
      let bytes := pix ++ List.replicate (f.stride - pix.length) (BitVec.ofNat 8 f.pad)
      let fl := if bs.length < f.lineBytes then setBit f.flags 2 true
        else if f.lineBytes < bs.length then setBit f.flags 3 true else f.flags
      u.isMem portAcc true a bytes.length → u.writable portAcc a bytes.length →
      ∃ t, Sys2Proof.Machine.exec (.linePacket c fixed true bs) s = .next t ∧ t.memBytes a bytes.length = bytes ∧
        (∀ x, x < a ∨ a + bytes.length ≤ x → t.memByte x = u.memByte x) ∧ Keep [.mem, .bal, .ports] u t ∧
        t.sens c = { u.sens c with frame := some { f with line := f.line + 1, flags := fl } }) ∧
    (∀ f : Frame, (s.sens c).frame = some f → f.height ≤ f.line →
      ∃ t, Sys2Proof.Machine.exec (.linePacket c fixed true bs) s = .next t ∧ Keep [.ports] u t ∧
        t.sens c = { u.sens c with frame := some { f with line := f.line + 1, flags := setBit f.flags 1 true } }) ∧
    (∀ f : Frame, (s.sens c).frame = some f →
      let w := (u.countFirst (OD.CRC_ERRORS c) c).mapFrame c (fun f => { f with flags := setBit f.flags 4 true })
      (w.sens c).frame = some { f with flags := setBit f.flags 4 true } ∧
      (f.height ≤ f.line → Sys2Proof.Machine.exec (.linePacket c fixed false bs) s =
        .next (w.mapFrame c (fun f => { f with line := f.line + 1, flags := setBit f.flags 1 true })))) ∧
    ((s.sens c).frame = none → ∀ crc : Bool, Sys2Proof.Machine.exec (.linePacket c fixed crc bs) s =
      .next (if (s.sens c).dropping then u else u.countFirst (OD.SYNC_ERRORS c) c))) ∧
  (∀ (c : Fin 4) (fixed : Bool) (s : State), s.hears c → Sys2Proof.Machine.exec (.frameEnd c fixed) s = .next (
    let u := s.header c fixed
    if (s.sens c).frame.isSome then u.closeFrame c false
    else if (s.sens c).timedOut = some s.clk.now then u.setSens c (u.sens c).endInTime
    else if (s.sens c).dropping then u.setSens c { u.sens c with dropping := false }
    else u.countFirst (OD.SYNC_ERRORS c) c)) ∧
  (∀ (c : Fin 4) (f : Frame) (s : State), (s.sens c).frame = some f →
    Sys2Proof.Machine.exec (.frameTimeout c) s =
      .next (if f.since + 50000 * f.timeout ≤ s.clk.now then
        (s.closeFrame c true).setSens c { (s.closeFrame c true).sens c with timedOut := some s.clk.now } else s)) ∧
  (∀ (c : Fin 4) (unended : Bool) (f : Frame) (s : State), (s.sens c).frame = some f → s.smooth →
    let base := s.bufferAddr f.ticket
    (∀ x, base + f.line * f.stride ≤ x → x < base + f.height * f.stride → s.place portAcc true x = .mem ∧ s.mark x ≠ 2) →
    let t := s.closeFrame c unended
    (∀ x, t.memByte x = if base + f.line * f.stride ≤ x ∧ x < base + f.height * f.stride then BitVec.ofNat 8 f.pad
      else s.memByte x) ∧
    t.sens c = { s.sens c with
      frame := none, closed := (s.sens c).closed ++ [f.closedAs unended s.clk.gtime s.tick.epoch.toNat]
      lanes := s.rd (OD.LANES c), rate := s.rd (OD.LANE_RATE c) } ∧
    t.rd (OD.PORT_STATE c) = (if s.rd (OD.PORT_STATE c) = 2 then 1 else s.rd (OD.PORT_STATE c)) ∧
    s.SameBut t [OD.PORT_STATE c] ∧ Keep [.od, .mem, .bal, .ports] s t) ∧
  (∀ (c : Fin 4) (f : Frame) (rest : List Frame) (s u : State) (r : Option LandRes), s.powered 23 = true →
    (s.sens c).closed = f :: rest →
    State.landOp ((((s.setSens c { s.sens c with closed := rest }).wr (OD.FRAME_START_TIME c) f.startTime).wr
      (OD.FRAME_END_TIME c) f.endTime).wr (OD.FRAME_EPOCH c) f.epoch) ⟨64, none⟩ f.landing
      (.push (BitVec.ofNat 64 (f.seq % 256 * 2 ^ 40 + f.flags * 2 ^ 32 + f.ticket)) false) 0 = (r, u) →
    let ok := (s.port f.landing).q.length < 4 ∧ r = some .done
    ∃ t, Sys2Proof.Machine.exec (.frameDelivery c) s = .next t ∧
      t.rd (OD.FRAME_INFO c) = frameInfo f.line f.seq f.flags (if ok then 0 else 4) ∧
      t.rd (OD.FRAMES_DELIVERED c) = (if ok then min (u.rd (OD.FRAMES_DELIVERED c) + 1) 0xFFFFFFFF else u.rd (OD.FRAMES_DELIVERED c)) ∧
      t.rd (OD.FRAMES_FLAGGED c) = (if ok ∧ f.flags ≠ 0 then min (u.rd (OD.FRAMES_FLAGGED c) + 1) 0xFFFFFFFF else
        u.rd (OD.FRAMES_FLAGGED c)) ∧
      t.rd (OD.FRAMES_DROPPED c) = (if ok then u.rd (OD.FRAMES_DROPPED c) else min (u.rd (OD.FRAMES_DROPPED c) + 1) 0xFFFFFFFF) ∧
      u.SameBut t [OD.FRAME_INFO c, OD.FRAMES_DELIVERED c, OD.FRAMES_FLAGGED c, OD.FRAMES_DROPPED c] ∧ Keep [.od] u t) ∧
  (∀ (c : Fin 4) (s : State), s.portOn c = true →
    (∃ t, Sys2Proof.Machine.exec (.skewCalibration c) s = .next t ∧ t.sens c = { s.sens c with calibrated := true } ∧
      t.rd (OD.DESKEWS c) = min (s.rd (OD.DESKEWS c) + 1) 0xFFFFFFFF ∧ s.SameBut t [OD.DESKEWS c] ∧ Keep [.od, .ports] s t) ∧
    (∃ t, Sys2Proof.Machine.exec (.ulpsExit c) s = .next t ∧ t.sens c = { s.sens c with calibrated := false } ∧
      Keep [.ports] s t) ∧
    Sys2Proof.Machine.exec (.otherPacket c .badStart) s = .next (s.countFirst (OD.SOT_ERRORS c) c)) ∧
  (∀ (c : Fin 4) (fixed : Bool) (s : State), s.hears c →
    Sys2Proof.Machine.exec (.otherPacket c (.mismatch fixed)) s = .next ((s.header c fixed).bump (OD.OTHER_PACKETS c)) ∧
    ∃ t, Sys2Proof.Machine.exec (.otherPacket c .badHeader) s = .next t ∧
      t.rd (OD.HDR_DISCARDS c) = min (s.rd (OD.HDR_DISCARDS c) + 1) 0xFFFFFFFF ∧
      t.sens c = { s.sens c with frame := (s.sens c).frame.map (fun f => { f with flags := setBit f.flags 5 true }) } ∧
      Keep [.od, .host, .falt, .ports] s t) ∧
  (∀ (c : Fin 4) (at_ : Nat) (s : State), (s.sens c).header = some at_ →
    (at_ + 25000000 ≤ s.clk.now → ∃ t, Sys2Proof.Machine.exec (.streamHoldExpiry c) s = .next t ∧
      t.sens c = { s.sens c with header := none } ∧ t.rd OD.STREAMING = setBit (s.rd OD.STREAMING) c false ∧
      t.rd OD.SENS_LED_STATE = (if setBit (s.rd OD.STREAMING) c false = 0 then 0 else s.rd OD.SENS_LED_STATE) ∧
      s.SameBut t [OD.STREAMING, OD.SENS_LED_STATE] ∧ Keep [.od, .ports] s t) ∧
    (s.clk.now < at_ + 25000000 → Sys2Proof.Machine.exec (.streamHoldExpiry c) s = .next s))

/-- The audio side (R543, R545 to R555): a TDM frame enters its buffer, missed FSYNCs start HOLDOVER, a sample period takes a sample of
each source and delivers it under the live routes, its 48th makes a mark due, and a ring gets a mark's block. -/
def Obligations.AudioIsSampledAndRung : Prop :=
  (∀ (n : Fin 2) (good : Bool) (slots : List (BitVec 32)) (s : State), s.powered 23 = true → s.flag (OD.TDM_ENABLE n) = true →
    let src := s.clockPort = some n.val
    let port := s.ports.aud.tdmPort n
    let frame := if good then (slots.take (s.rd (OD.TDM_SLOTS n))).map (fun x =>
      let w := if s.rd (OD.TDM_WIDTH n) = 0 then 16 else if s.rd (OD.TDM_WIDTH n) = 1 then 24 else 32
      x.toNat / 2 ^ (32 - w) * 2 ^ (32 - w)) else []
    let direct := src ∨ s.rd (OD.TDM_ROLE n) = 1
    ∃ t, Sys2Proof.Machine.exec (.tdmFrame n good slots) s = .next t ∧
      t.ports.aud.tdmPort n = { port with buf := if direct then [frame] else if port.buf.length < 2 then port.buf ++ [frame] else port.buf } ∧
      (∀ m, m ≠ n.val → t.ports.aud.tdmPort m = s.ports.aud.tdmPort m) ∧
      t.rd OD.CLOCK_STATE = (if good = true ∧ src ∧ s.rd OD.CLOCK_STATE = 2 then 1 else s.rd OD.CLOCK_STATE) ∧
      t.rd (OD.TDM_FRAME_ERRORS n) = (if good then s.rd (OD.TDM_FRAME_ERRORS n) else min (s.rd (OD.TDM_FRAME_ERRORS n) + 1) 0xFFFFFFFF) ∧
      t.rd (OD.TDM_SLIPS n) = (if direct ∨ port.buf.length < 2 then s.rd (OD.TDM_SLIPS n) else min (s.rd (OD.TDM_SLIPS n) + 1) 0xFFFFFFFF) ∧
      Keep [.od, .host, .falt, .ports] s t) ∧
  (∀ s : State, (s.powered 23 = true → s.rd OD.CLOCK_STATE = 1 →
      ∃ t, Sys2Proof.Machine.exec .holdover s = .next t ∧ t.rd OD.CLOCK_STATE = 2 ∧
        t.rd OD.HOLDOVERS = min (s.rd OD.HOLDOVERS + 1) 0xFFFFFFFF ∧
        t.rd (OD.CLASS_COUNTS FaultClass.corrected) = min (s.rd (OD.CLASS_COUNTS FaultClass.corrected) + 1) 0xFFFFFFFF ∧ Keep [.od, .host, .falt] s t) ∧
    (s.rd OD.CLOCK_STATE ≠ 1 → Sys2Proof.Machine.exec .holdover s = .next s)) ∧
  (∀ (s u v : State) (xs : List Nat), s.powered 23 = true → s.ports.aud.markDue = false → s.takeSamples = (xs, u) →
    v = foldN 32 (fun s i => s.routeDeliver xs (31 - i)) u →
    ∃ t, Sys2Proof.Machine.exec .audioSamplePeriod s = .next t ∧
      t.ports.aud = { v.ports.aud with
        period := if v.ports.aud.period = 47 then 0 else v.ports.aud.period + 1, markDue := decide (v.ports.aud.period = 47) || v.ports.aud.markDue } ∧
      t.tick = { v.tick with audio := if v.powered 1 then v.tick.audio + 1 else v.tick.audio } ∧ Keep [.tick, .ports] v t) ∧
  (∀ s : State, s.powered 23 = false ∨ s.ports.aud.markDue = true →
    Sys2Proof.Machine.exec .audioSamplePeriod s = .next s) ∧
  (∀ (xs : List Nat) (r : Nat) (s : State),
    let w := s.rd (OD.PORT_ROUTE_LIVE r)
    let i := bits w 0 4
    let kind := bits w 4 2
    let v := if kind = 2 ∧ bit (s.rd OD.PDM_ENABLE) i then xs.getD (32 + i) 0
      else if kind ≤ 1 ∧ s.flag (OD.TDM_ENABLE kind) ∧ i < s.rd (OD.TDM_SLOTS kind) then xs.getD (16 * kind + i) 0 else 0
    let t := s.routeDeliver xs r
    let per := s.ports.aud.period
    (bit w 31 = false → t = s) ∧
    (bit w 31 = true →
      (∀ k, Sparse.get (fun _ => 0) t.ports.aud.coln k =
        if bit w 30 ∧ k = 48 * bits w 27 3 + per then v else Sparse.get (fun _ => 0) s.ports.aud.coln k) ∧
      (∀ k, Sparse.get (fun _ => 0) t.ports.aud.block k =
        if bit w 26 ∧ bits w 18 5 < s.rd (OD.AR_CHANNELS (bits w 23 3)) ∧ k = (48 * bits w 23 3 + per) * 32 + bits w 18 5 then v
        else Sparse.get (fun _ => 0) s.ports.aud.block k) ∧ Keep [.ports] s t)) ∧
  (∀ (n : Nat) (s : State), let port := s.ports.aud.tdmPort n
    (∀ f rest, port.buf = f :: rest →
      s.tdmTake n = (f, s.setAud (s.ports.aud.setTdm n { buf := rest, last := f }))) ∧
    (port.buf = [] → (s.tdmTake n).1 = if s.flag (OD.TDM_ENABLE n) then port.last else []) ∧
    (port.buf = [] → s.flag (OD.TDM_ENABLE n) = true → port.last ≠ [] → s.clockPort ≠ some n → s.rd (OD.TDM_ROLE n) ≠ 1 →
      (s.tdmTake n).2 = s.countFirst (OD.TDM_SLIPS n) n)) ∧
  (∀ (k : Nat) (s : State), let d := Sparse.get (fun _ => 0) s.ports.aud.pdm k
    (s.pdmTake k).1 = (if bit (s.rd OD.PDM_ENABLE) k ∧ d = 0 then s.drawFree.1 % 2 ^ 24 * 256 else 0) ∧
    Sparse.get (fun _ => 0) (s.pdmTake k).2.ports.aud.pdm k = (if bit (s.rd OD.PDM_ENABLE) k then d - 1 else d)) ∧
  (∀ s : State, (s.ports.aud.ready = none → Sys2Proof.Machine.exec .audioRingWrite s = .next s) ∧
    (∀ block count, s.ports.aud.ready = some (block, count) → Sys2Proof.Machine.exec .audioRingWrite s = .next
      (foldN 8 (fun s a => s.ringWriteBlock block count a) (s.setAud { s.ports.aud with ready := none })))) ∧
  (∀ (block : Sparse Nat) (count a : Nat) (s : State), a < 8 →
    let ch := s.rd (OD.AR_CHANNELS a)
    let frames := s.rd (OD.AR_FRAMES a)
    let x := s.rd (OD.AR_BASE a) + s.rd (OD.AR_POS a) * ch * 4
    let bs := (List.range 48).flatMap (fun f => (List.range ch).flatMap (fun p =>
      leBytes 4 (Sparse.get (fun _ => 0) block ((48 * a + f) * 32 + p))))
    let t := s.ringWriteBlock block count a
    (frames = 0 → t = s) ∧
    (frames ≠ 0 → bit (s.rd (OD.AR_LANDING a)) 16 = false → s.smooth →
      (∀ i, i < bs.length → s.ringBarred (x + i) = false ∧ s.place audioAcc true (x + i) = .mem ∧ s.mark (x + i) ≠ 2) →
      t.memBytes x bs.length = bs ∧ (∀ y, y < x ∨ x + bs.length ≤ y → t.memByte y = s.memByte y) ∧
      t.rd (OD.AR_POS a) = (s.rd (OD.AR_POS a) + 48) % frames ∧ t.rd (OD.AR_WRITTEN a) = count ∧
      s.SameBut t [OD.AR_POS a, OD.AR_WRITTEN a] ∧ Keep [.od, .mem, .bal, .ports] s t) ∧
    (frames ≠ 0 → (∃ i, i < bs.length ∧ (s.ringBarred (x + i) = true ∨ s.place audioAcc true (x + i) = .bad)) →
      t.mem = s.mem ∧ t.rd (OD.AR_POS a) = (s.rd (OD.AR_POS a) + 48) % frames ∧ t.rd (OD.AR_WRITTEN a) = count ∧
      t.rd (OD.AR_FAULTS a) = min (s.rd (OD.AR_FAULTS a) + 1) 0xFFFFFFFF ∧ bit t.ports.aud.failed a = true ∧
      t.rd (OD.CLASS_COUNTS FaultClass.corrected) = (if bit s.ports.aud.failed a then s.rd (OD.CLASS_COUNTS FaultClass.corrected)
        else min (s.rd (OD.CLASS_COUNTS FaultClass.corrected) + 1) 0xFFFFFFFF) ∧ Keep [.od, .host, .falt, .ports] s t))

/-- The vestibule (R568 to R581, R584, R593, R594, R599 to R604, R607, R614): a job takes its source and finds its output, or raises
its exception; the job's end writes the tensor and the sample record and delivers them; a batch lingers, is delivered, has its
slot zeroed, and is dropped at an uncorrectable error. -/
def Obligations.SamplesAreScaledAndBatched : Prop :=
  (∀ (k : Fin 8) (e : Entry) (j : ScalerJob) (s : State), s.scalerJob k = some j → s.runningOn (40 + k) = some e →
    s.flag OD.GATE = false → j.phase = .start →
    let d := scJob j.desc
    let it := s.item e.slot
    let crop := s.scalerCrop e d
    d.srcPort = false →
    (it.inLen < d.srcBytes → Sys2Proof.Machine.exec (.scalerSourceTake k) s = .next (s.scalerExc k e ScExc.srcRange)) ∧
    (d.srcBytes ≤ it.inLen → ((d.bayer || d.planar) && crop.any (fun v => v % 2 = 1)) = false → d.kind = 1 → d.direct = true →
      d.forceSeal = false → (∀ r ∈ d.reads it.input crop, s.firstSealed r.1 r.2 = none) → d.total ≤ it.outLen ∨ d.empty crop →
      ∃ t, Sys2Proof.Machine.exec (.scalerSourceTake k) s = .next t ∧
        t.scalerJob k = some { j with phase := .taken, src := it.input, ticket := none, tag := 0, sample := s.rd OD.SAMPLE_NEXT, sealed := false
                                      crop := crop, epoch := s.tick.epoch.toNat, time := s.clk.gtime, out := if d.empty crop then j.out else it.output } ∧
        t.rd OD.SAMPLE_NEXT = (s.rd OD.SAMPLE_NEXT + 1) % 2 ^ 32 ∧ t.rd (OD.SCALER_STATE k) = 2 ∧
        (∀ m, m ≠ k.val → t.scalerJob m = s.scalerJob m) ∧ s.SameBut t [OD.SAMPLE_NEXT, OD.SCALER_STATE k] ∧
        Keep [.od, .vest] s t)) ∧
  (∀ (k : Fin 8) (e : Entry) (j : ScalerJob) (s u : State), s.scalerJob k = some j → s.runningOn (40 + k) = some e →
    s.flag OD.GATE = false → j.phase = .start →
    let d := scJob j.desc
    let L := d.srcLanding + (if d.srcLane then e.lane else 0)
    d.srcPort = true → d.srcWait = true →
    (s.jobLand (40 + k) e L .wait = (some .parked, u) →
      ∃ t, Sys2Proof.Machine.exec (.scalerSourceTake k) s = .next t ∧ t.scalerJob k = some { j with phase := .waiting } ∧
        t.rd (OD.SCALER_STATE k) = 1 ∧ u.SameBut t [OD.SCALER_STATE k] ∧ Keep [.od, .vest] u t) ∧
    (∀ w, s.jobLand (40 + k) e L .wait = (some (.word w), u) →
      Sys2Proof.Machine.exec (.scalerSourceTake k) s = .next (u.scalerTakePort k e j d L))) ∧
  (∀ (k L : Nat) (e : Entry) (j : ScalerJob) (d : ScJob) (w : BitVec 64) (s u : State),
    s.jobLand (40 + k) e L .take = (some (.word w), u) →
    let n := bits w.toNat 0 32
    let v := u.scalerTaken k e j d (u.bufferAddr n) (some n) (bits w.toNat 32 16)
    s.scalerTakePort k e j d L =
      if w.getLsbD 63 = false then u.scalerExc k e ScExc.emptyPort
      else if v.ticketOk n = false then v.scalerExc k e ScExc.badTicket
      else if 2 ^ (v.pool (ticketPool n)).szLog < d.srcBytes then v.scalerExc k e ScExc.srcRange
      else v.scalerPrepare k e d) ∧
  (∀ (k : Fin 8) (s : State), (s.scalerJob k = none ∨ s.runningOn (40 + k) = none ∨ s.flag OD.GATE = true) →
    Sys2Proof.Machine.exec (.scalerSourceTake k) s = .next s ∧ Sys2Proof.Machine.exec (.scalerJobEnd k) s = .next s) ∧
  (∀ (k : Fin 8) (e : Entry) (j : ScalerJob) (s : State), s.scalerJob k = some j → s.runningOn (40 + k) = some e →
    s.flag OD.GATE = false →
    let d := scJob j.desc
    (j.phase = .taken → Sys2Proof.Machine.exec (.scalerSourceTake k) s = .next s) ∧
    (j.phase ≠ .taken → Sys2Proof.Machine.exec (.scalerJobEnd k) s = .next s) ∧
    (j.phase = .taken → d.empty j.crop = true → Sys2Proof.Machine.exec (.scalerJobEnd k) s = .next (s.scalerDeliver k e j d true 0)) ∧
    (∀ (rs : List (Nat × List Byte)) (u : State), j.phase = .taken → d.empty j.crop = false →
      State.readRanges (s.engineAcc (40 + k) e) (d.reads j.src j.crop) s [] = (.inl rs, u) →
      let f := d.footprint j.crop
      let n := (f.2.1 + 1 - f.1) * (f.2.2.2 + 1 - f.2.2.1)
      let w := u.drawFree.2.bump64 (OD.VEST_PIXELS k) n
      (d.kind = 1 → s.stageTen e < 16 →
        let out := d.tensor rs j.src j.crop u.free
        let recd := j.record k d
        let at_ := j.out + alignUp d.tensorBytes 64
        let q := s.engineAcc (40 + k) e
        (∀ y, w.sealEscape j.sealed [(j.out, alignUp d.tensorBytes 64 + 64)] = some y →
          Sys2Proof.Machine.exec (.scalerJobEnd k) s =
            .next (w.stopItem e.slot Status.sealed e.stage e.engine (sealedDetail 3 y) none)) ∧
        (w.sealEscape j.sealed [(j.out, alignUp d.tensorBytes 64 + 64)] = none → u.smooth →
        (∀ x, j.out ≤ x → x < at_ + recd.length → u.place q true x = .mem ∧ u.mark x ≠ 2) →
        ∃ v, Sys2Proof.Machine.exec (.scalerJobEnd k) s = .next (v.scalerDeliver k e j d false d.total) ∧
          v.memBytes j.out out.length = out ∧ v.memBytes at_ recd.length = recd ∧
          (∀ x, x < j.out ∨ (j.out + out.length ≤ x ∧ x < at_) ∨ at_ + recd.length ≤ x → v.memByte x = u.memByte x) ∧
          v.rd (OD.VEST_PIXELS k) = min (u.rd (OD.VEST_PIXELS k) + n) 0xFFFFFFFFFFFFFFFF ∧ Keep [.mem, .bal] w v)) ∧
      (d.kind ≠ 1 → ∀ bad v, w.packComplete k e j d (d.tensor rs j.src j.crop u.free) = (bad, v) →
        Sys2Proof.Machine.exec (.scalerJobEnd k) s = .next (if bad then v else v.scalerDeliver k e j d false 0)))) ∧
  (∀ (k : Nat) (e : Entry) (j : ScalerJob) (d : ScJob) (empty : Bool) (bytes : Nat) (s : State),
    let done (s : State) := (((s.scalerRelease k j).setScalerJob k none).wr (OD.SCALER_STATE k) 0).reportEnd e empty false bytes
    (d.outValid = false → s.scalerDeliver k e j d empty bytes = done s) ∧
    (∀ r u, d.outValid = true → s.jobLand (40 + k) e (d.outLanding + if d.outLane then e.lane else 0)
        (.push (BitVec.ofNat 64 (j.sample % 65536 * 2 ^ 32 +
          if empty || d.direct || decide (d.kind = 2) then noTicket else j.outTicket)) j.sealed) = (r, u) →
      s.scalerDeliver k e j d empty bytes = if r = none then u else done u)) ∧
  (∀ (t : Fin 4) (b : Batch) (s : State), (s.stream t).opened = some b →
    let x := s.stream t
    (x.linger ≠ 0 → b.since + 50 * x.linger ≤ s.clk.now → Sys2Proof.Machine.exec (.pkLingerExpiry t) s = .next (State.flushClosed
      (s.setStream t { x with opened := none, closed := x.closed ++ [{ b with flags := 4, epoch := s.tick.epoch.toNat }] }) t)) ∧
    (x.linger = 0 ∨ s.clk.now < b.since + 50 * x.linger → Sys2Proof.Machine.exec (.pkLingerExpiry t) s = .next s)) ∧
  (∀ (t : Fin 4) (slot : Nat) (rest : List Nat) (s : State), (s.stream t).waiting = slot :: rest →
    let x := s.stream t
    let L := bits x.deliver 0 16
    (bit x.deliver 16 = false ∨ s.rd (OD.PK_STATE t) = 0 ∨ x.deal ≤ (s.port L).q.length →
      Sys2Proof.Machine.exec (.batchDelivery t) s = .next s) ∧
    (∀ u, bit x.deliver 16 = true → s.rd (OD.PK_STATE t) ≠ 0 → (s.port L).q.length < x.deal →
      s.landOp ⟨64, some (Fin.ofNat 16 x.ctx)⟩ L (.push (BitVec.ofNat 64 (x.base + slot * x.slotBytes)) x.sealed) 0 = (some .done, u) →
      ∃ v, Sys2Proof.Machine.exec (.batchDelivery t) s = .next v ∧
        v.stream t = { u.stream t with waiting := rest, delivered := (u.stream t).delivered ++ [slot] } ∧
        (∀ m, m ≠ t.val → v.stream m = u.stream m) ∧
        v.rd OD.BQ_EVENTS = (let low := u.rd OD.BQ_LOW_WATER
          if low ≠ 0 ∧ low ≤ u.bqDepth ∧ v.bqDepth < low then setBit (u.rd OD.BQ_EVENTS) 0 true else u.rd OD.BQ_EVENTS) ∧
        Keep [.od, .host, .vest] u v)) ∧
  (∀ (t : Fin 4) (slot : Nat) (rest : List Nat) (s : State), (s.stream t).filling = slot :: rest →
    let x := s.stream t
    let a := x.base + slot * x.slotBytes
    s.smooth → (∀ i, i < x.slotBytes → s.place x.acc true (a + i) = .mem ∧ s.mark (a + i) ≠ 2) →
    ∃ v, Sys2Proof.Machine.exec (.batchSlotFillDone t) s = .next v ∧
      (∀ y, v.memByte y = if a ≤ y ∧ y < a + x.slotBytes then 0 else s.memByte y) ∧
      v.stream t = { x with filling := rest } ∧ (∀ m, m ≠ t.val → v.stream m = s.stream m) ∧ Keep [.mem, .bal, .vest] s v) ∧
  (∀ (t : Fin 4) (i : Byte) (s : State),
    (∃ v, Sys2Proof.Machine.exec (.batchQueueEccError true t i) s = .next v ∧
      v.rd (OD.CLASS_COUNTS FaultClass.corrected) = min (s.rd (OD.CLASS_COUNTS FaultClass.corrected) + 1) 0xFFFFFFFF ∧
      Keep [.od, .host, .falt] s v) ∧
    (∀ slot, (s.stream t).waiting[i.toNat]? = some slot → s.rd (OD.PK_STATE t) ≠ 2 →
      ∃ v, Sys2Proof.Machine.exec (.batchQueueEccError false t i) s = .next v ∧
        v.stream t = { s.stream t with waiting := dropAt (s.stream t).waiting i.toNat, dead := (s.stream t).dead ++ [slot] } ∧
        v.rd (OD.CLASS_COUNTS FaultClass.item) = min (s.rd (OD.CLASS_COUNTS FaultClass.item) + 1) 0xFFFFFFFF ∧
        Keep [.od, .host, .falt, .vest] s v) ∧
    ((s.stream t).waiting[i.toNat]? = none → Sys2Proof.Machine.exec (.batchQueueEccError false t i) s = .next s))

/-- The decoders and the encoder (R625, R631 to R640, R643, R651, R662, R665, R666, R673, R674, R685): a budget runs out once; the end of
a job writes its pieces in order and then counts, reports and moves its context; an error of a context starts it again. -/
def Obligations.PicturesAreDecodedAndEncoded : Prop :=
  (∀ (e : Fin 2) (s : State) (j : DecJob) (en : Entry) (p : DecPic), s.decJob e = some j → s.runningOn (36 + e) = some en →
    j.pic = some p → s.flag OD.GATE = false → p.whole = false → p.overrun = false →
    (p.budget ≤ s.spineCycles (s.clk.now - en.issuedAt) →
      ∃ t, Sys2Proof.Machine.exec (.decodeBudgetExpiry e) s = .next t ∧
        t.decJob e = some { j with pic := some { p with overrun := true } } ∧ (∀ m, m ≠ e.val → t.decJob m = s.decJob m) ∧
        t.rd OD.BUDGET_OVERRUNS = min (s.rd OD.BUDGET_OVERRUNS + 1) 0xFFFFFFFF ∧
        t.rd OD.DEC_EVENTS = setBit (s.rd OD.DEC_EVENTS) j.ctx true ∧ s.SameBut t [OD.BUDGET_OVERRUNS, OD.DEC_EVENTS] ∧
        Keep [.od, .host, .vid] s t) ∧
    (s.spineCycles (s.clk.now - en.issuedAt) < p.budget → Sys2Proof.Machine.exec (.decodeBudgetExpiry e) s = .next s)) ∧
  (∀ (e : Fin 2) (rep : DecReport) (s : State) (j : DecJob) (en : Entry), s.decJob e = some j → s.runningOn (36 + e) = some en →
    s.flag OD.GATE = false →
    (j.pic = none → Sys2Proof.Machine.exec (.decodeJobEnd e rep) s = .next (s.decReport e en j noTicket false true false 0).2) ∧
    (∀ (p : DecPic) (v : State), j.pic = some p →
      let x := j.ctx
      let c := s.decCtx x
      let n := s.rd (OD.DECODE_COUNT x)
      let count := p.concCount c rep
      let st := s.rd (OD.CTX_STATE x)
      let conc := p.whole || (if st = 1 ∨ st = 2 then decide (count ≠ 0) else !(p.key && decide (count = 0)))
      let st' := if p.whole then (if st = 2 then 3 else st) else if conc then 3 else 2
      let why := p.why c rep count
      let frac := if p.bw * p.bh = 0 then 0 else 255 * count / (p.bw * p.bh)
      let out := p.output c rep
      let a := s.bufferAddr p.ticket
      let mf := if c.mfSlots = 0 then 0 else c.mfBase + n % c.mfSlots * c.mfBytes
      let pieces := (if p.whole then [] else
          [(c.fsBase + rep.slot.toNat % c.fsSlots * c.slotSize, (fitBytes p.need rep.recon).take c.slotSize)]) ++ [(a, out)] ++
        (if c.mfSlots = 0 then [] else [(mf, (p.field x n c rep).take c.mfBytes)]) ++
        [(a + alignUp out.length 64, s.decRecord x n p c conc why frac mf)]
      let escape := s.sealEscape p.sealed (pieces.map (fun q => (q.1, q.2.length)))
      (∀ y, escape = some y → Sys2Proof.Machine.exec (.decodeJobEnd e rep) s =
        .next (s.stopItem en.slot Status.sealed en.stage en.engine (sealedDetail 3 y) none)) ∧
      (escape = none → State.writePieces (s.engineAcc (36 + e) en) en pieces s = (true, v) →
        Sys2Proof.Machine.exec (.decodeJobEnd e rep) s = .next v) ∧
      (∀ w, escape = none → State.writePieces (s.engineAcc (36 + e) en) en pieces s = (false, v) →
        let v' := ((v.wr (OD.DECODE_COUNT x) ((n + 1) % 2 ^ 32)).bump OD.PICTURES_DECODED).bump64 (OD.VDEC_PIXELS e) (p.w * p.h)
        v'.rd (OD.DECODE_COUNT x) = (n + 1) % 2 ^ 32 ∧
        v'.rd OD.PICTURES_DECODED = min (v.rd OD.PICTURES_DECODED + 1) 0xFFFFFFFF ∧
        v'.rd (OD.VDEC_PIXELS e) = min (v.rd (OD.VDEC_PIXELS e) + p.w * p.h) 0xFFFFFFFFFFFFFFFF ∧
        (v'.decReport e en j (n % 65536 * 2 ^ 32 + p.ticket) p.sealed false conc (alignUp out.length 64 + 64) = (true, w) →
        w.rd (OD.CTX_STATE x) ≠ 0 →
        ∃ t, Sys2Proof.Machine.exec (.decodeJobEnd e rep) s = .next t ∧
          (∀ k ∈ [OD.DECODE_COUNT x, OD.PICTURES_DECODED, OD.VDEC_PIXELS e], t.rd k = w.rd k) ∧
          t.rd OD.PICTURES_CONCEALED = (if conc then min (w.rd OD.PICTURES_CONCEALED + 1) 0xFFFFFFFF else w.rd OD.PICTURES_CONCEALED) ∧
          t.rd (OD.CTX_CONCEALED x) = (if conc then min (w.rd (OD.CTX_CONCEALED x) + 1) 0xFFFFFFFF else w.rd (OD.CTX_CONCEALED x)) ∧
          t.rd (OD.CUR_GEOMETRY x) = (if p.whole then w.rd (OD.CUR_GEOMETRY x) else p.h * 65536 + p.w) ∧
          t.rd (OD.CTX_REASON x) = (if conc then why else if st' = 2 then 0 else w.rd (OD.CTX_REASON x)) ∧
          t.rd (OD.CTX_STATE x) = st' ∧ t.decCtx x = { w.decCtx x with prev := some ⟨p.w, p.h, p.p010, out⟩ } ∧
          Keep [.od, .host, .flit, .vid] w t)))) ∧
  (∀ (x : Fin 64) (s : State),
    (∃ t, Sys2Proof.Machine.exec (.decoderContextEccError true x) s = .next t ∧
      t.rd (OD.CLASS_COUNTS FaultClass.corrected) = min (s.rd (OD.CLASS_COUNTS FaultClass.corrected) + 1) 0xFFFFFFFF ∧
      Keep [.od, .host, .falt] s t) ∧
    (s.rd (OD.CTX_STATE x) = 0 → Sys2Proof.Machine.exec (.decoderContextEccError false x) s = .next s) ∧
    (s.rd (OD.CTX_STATE x) ≠ 0 → ∃ t, Sys2Proof.Machine.exec (.decoderContextEccError false x) s = .next t ∧
      t.rd (OD.CTX_STATE x) = 1 ∧ t.rd (OD.CTX_REASON x) = 9 ∧
      t.rd OD.DEC_EVENTS = (if s.rd (OD.CTX_STATE x) = 1 then s.rd OD.DEC_EVENTS else setBit (s.rd OD.DEC_EVENTS) x true) ∧
      t.rd (OD.CLASS_COUNTS FaultClass.item) = min (s.rd (OD.CLASS_COUNTS FaultClass.item) + 1) 0xFFFFFFFF ∧
      (∀ j p, s.decJob (x / 32) = some j → j.pic = some p → j.ctx = x →
        t.decJob (x / 32) = some { j with pic := some { p with whole := true, reason := 9 } }) ∧
      Keep [.od, .host, .falt, .vid] s t)) ∧
  (∀ (rep : EncReport) (s : State) (j : EncJob) (en : Entry), s.vid.job = some j → s.runningOn 38 = some en → s.flag OD.GATE = false →
    (j.empty = true → Sys2Proof.Machine.exec (.encodeJobEnd rep) s = .next (s.encReport en j true 0)) ∧
    (j.empty = false →
      let x := j.ctx
      let c := s.encCtx x
      let it := s.item en.slot
      let rc := s.rcParams x
      let budgeted := !j.key && decide (j.budget ≠ 0xFFFFFFFF)
      let stream := if budgeted then rep.stream.take ((j.budget + 512) / 8) else rep.stream
      let n := stream.length
      let dropped := decide (it.outLen - 64 < n)
      let r := rc.qps j.budget ((c.h + 63) / 64) j.qp (((rep.rows.map (·.toNat)).take ((c.h + 63) / 64)).zipIdx)
      let full := if dropped then s.rd (OD.RC_FULLNESS x) else
        if rc.mode = 1 then clampNat ((s.rd (OD.RC_FULLNESS x) : Int) + (8 * n : Nat) - rc.target) 0 rc.buffer else s.rd (OD.RC_FULLNESS x)
      let order := if j.key then 0 else (c.order + 1) % 2 ^ 32
      let u := s.drawFree.2
      let recd := u.encRecord j c dropped (budgeted && (rep.capped || c.capReached j.budget (rep.rows.map (·.toNat)))) (s.rd (OD.ENC_COUNT x))
        (if dropped then 0 else n) order (meanQp r.1 s.drawFree.1) full
      let pieces := [(it.output + 64, stream.take (it.outLen - 64)),
        (c.fsBase + c.freeSlot * c.slotSize, fitBytes c.need rep.recon), (it.output, recd)]
      ∀ v, (State.writePieces (u.engineAcc 38 en) en pieces u = (true, v) →
          Sys2Proof.Machine.exec (.encodeJobEnd rep) s = .next v) ∧
        (State.writePieces (u.engineAcc 38 en) en pieces u = (false, v) → v.flag (OD.ENC_ENABLE x) = true →
          ∃ t, Sys2Proof.Machine.exec (.encodeJobEnd rep) s = .next t ∧ t.vid.job = none ∧ t.rd OD.VENC_ENGINE_STATE = 0 ∧
            t.rd OD.VENC_PIXELS = min (v.rd OD.VENC_PIXELS + 4096 * (v.encCtx x).blocks) 0xFFFFFFFFFFFFFFFF ∧
            t.rd OD.PICTURES_DROPPED = (if dropped then min (v.rd OD.PICTURES_DROPPED + 1) 0xFFFFFFFF else v.rd OD.PICTURES_DROPPED) ∧
            t.rd OD.ENC_EVENTS = (if dropped then setBit (v.rd OD.ENC_EVENTS) x true else v.rd OD.ENC_EVENTS) ∧
            t.rd OD.PICTURES_ENCODED = (if dropped then v.rd OD.PICTURES_ENCODED else min (v.rd OD.PICTURES_ENCODED + 1) 0xFFFFFFFF) ∧
            t.rd (OD.ENC_COUNT x) = (if dropped then v.rd (OD.ENC_COUNT x) else (v.rd (OD.ENC_COUNT x) + 1) % 2 ^ 32) ∧
            t.rd (OD.RC_FULLNESS x) = (if dropped then v.rd (OD.RC_FULLNESS x) else full) ∧
            t.rd (OD.LAST_QP x) = (if dropped then v.rd (OD.LAST_QP x) else r.2) ∧
            t.rd (OD.ENC_STATE x) = (if dropped then v.rd (OD.ENC_STATE x) else 2) ∧
            t.rd OD.KEYS_PRODUCED = (if j.key ∧ dropped = false then min (v.rd OD.KEYS_PRODUCED + 1) 0xFFFFFFFF else v.rd OD.KEYS_PRODUCED) ∧
            t.rd (OD.KEY_PENDING x) = (if j.key ∧ dropped = false then 0 else v.rd (OD.KEY_PENDING x)) ∧
            t.encCtx x = (if dropped then v.encCtx x else { v.encCtx x with
              slots := if j.key then [(v.encCtx x).freeSlot] else ((v.encCtx x).freeSlot :: (v.encCtx x).slots).take (v.encCtx x).refs
              order := order
              motion := if j.key then [] else s.encMotion j c j.qp c.slotSize rep.parts
              qpKey := if j.key then some r.2 else (v.encCtx x).qpKey
              qpInter := if j.key then (v.encCtx x).qpInter else some r.2 }) ∧
            Keep [.od, .host, .flit, .vid] v t))) ∧
  (∀ (x : Fin 16) (s : State),
    (∃ t, Sys2Proof.Machine.exec (.encoderContextEccError true x) s = .next t ∧
      t.rd (OD.CLASS_COUNTS FaultClass.corrected) = min (s.rd (OD.CLASS_COUNTS FaultClass.corrected) + 1) 0xFFFFFFFF ∧
      Keep [.od, .host, .falt] s t) ∧
    (s.rd (OD.ENC_STATE x) = 0 → Sys2Proof.Machine.exec (.encoderContextEccError false x) s = .next s) ∧
    (s.rd (OD.ENC_STATE x) ≠ 0 → ∃ t, Sys2Proof.Machine.exec (.encoderContextEccError false x) s = .next t ∧
      t.rd (OD.ENC_STATE x) = 1 ∧ t.rd (OD.RC_FULLNESS x) = s.rd (OD.RC_BUFFER x) / 2 ∧
      t.rd OD.ENC_EVENTS = setBit (s.rd OD.ENC_EVENTS) x true ∧
      t.encCtx x = { s.encCtx x with slots := [], order := 0, qpKey := none, qpInter := none, motion := [] } ∧
      t.rd (OD.CLASS_COUNTS FaultClass.item) = min (s.rd (OD.CLASS_COUNTS FaultClass.item) + 1) 0xFFFFFFFF ∧
      Keep [.od, .host, .falt, .vid] s t))

/-- The colonnade (R689, R694 to R703, R706, R708, R723): a load ends with its result, an event is copied by its router's entry, a fan
entry adds its weights to the sums, a mark begins, runs or stops a timestep, and an uncorrectable error takes its entry. -/
def Obligations.TheColonnadeRunsItsTimesteps : Prop :=
  (∀ s : State, s.coln.load = none → Sys2Proof.Machine.exec .netLoadDone s = .next s) ∧
  (∀ (src len : Nat) (s u : State), s.coln.load = some (src, len) →
    (∀ e, s.netCheck src len = (some e, u) →
      ∃ t, Sys2Proof.Machine.exec .netLoadDone s = .next t ∧ t.rd OD.NET_RESULT = e ∧ t.rd OD.COL_STATE = 0 ∧
        t.coln = { u.coln with
          load := none, profiles := [], neurons := [], fans := [], syn := [], banks := [], sums := [], ops := []
          mesh := [], queues := [], outq := [], badSyn := [], routesWas := [] } ∧
        (∀ r i, r < 16 → i < 64 → t.rd (OD.COLN_ROUTE r i) = odDefault (OD.COLN_ROUTE r i)) ∧ Keep [.od, .coln] u t) ∧
    (s.netCheck src len = (none, u) →
      ∃ t, Sys2Proof.Machine.exec .netLoadDone s = .next t ∧ t.rd OD.NET_RESULT = 1 ∧ t.rd OD.COL_STATE = 2 ∧
        t.coln.load = none ∧ t.coln.neurons = u.coln.neurons ∧
        (∀ r i, r < 16 → i < 64 → t.bankEntry u.coln.bank r i = u.rd (OD.COLN_ROUTE r i)) ∧
        u.SameBut t [OD.NET_RESULT, OD.COL_STATE] ∧ Keep [.od, .coln] u t)) ∧
  (∀ (i : BitVec 32) (s : State), s.coln.mesh[i.toNat]? = none → Sys2Proof.Machine.exec (.eventRoute i) s = .next s) ∧
  (∀ (i : BitVec 32) (e : ColnEvent) (s : State), s.coln.mesh[i.toNat]? = some e →
    let rest := dropAt s.coln.mesh i.toNat
    (s.routeFor e = none → ∃ t, Sys2Proof.Machine.exec (.eventRoute i) s = .next t ∧ t.coln = { s.coln with mesh := rest } ∧
      t.rd OD.ROUTE_MISSES = min (s.rd OD.ROUTE_MISSES + 1) 0xFFFFFFFF ∧ s.SameBut t [OD.ROUTE_MISSES] ∧ Keep [.od, .coln] s t) ∧
    (∀ w, s.routeFor e = some w → bit w 60 = false →
      let out (d : Nat) : List ColnEvent := if bit w (56 + d) then
        (match meshNext e.at_ d with | some r => if e.hops < 8 then [{ e with at_ := r, hops := e.hops + 1 }] else [] | none => []) else []
      ∃ t, Sys2Proof.Machine.exec (.eventRoute i) s = .next t ∧
        t.coln = { s.coln with
          mesh := rest ++ out 0 ++ out 1 ++ out 2 ++ out 3
          outq := if bit w 61 ∧ s.coln.cfg.outEntries ≠ 0 then s.coln.outq ++ [(e.at_, e.key)] else s.coln.outq } ∧
        s.SameBut t [OD.ROUTE_MISSES, OD.HOP_DROPS] ∧ Keep [.od, .coln] s t) ∧
    (∀ w, s.routeFor e = some w → bit w 60 = true → bits w 56 4 = 0 → bit w 61 = false →
      Sys2Proof.Machine.exec (.eventRoute i) s = .next (State.colnArrive { s with coln := { s.coln with mesh := rest } } e.at_ e))) ∧
  (∀ (c : Nat) (e : ColnEvent) (s : State),
    (4096 ≤ (s.colnQueue c).length → s.colnArrive c e = s.bump OD.QUEUE_DROPS) ∧
    (∀ rest, s.fanFor c e.key = none → s.colnTake c e rest = some ((s.setColnQueue c rest).bump OD.FAN_MISSES)) ∧
    (∀ rest f, s.fanFor c e.key = some f → 22528 < s.colnOps c + fanCount f → s.colnTake c e rest = none)) ∧
  (∀ (c f row i : Nat) (s : State), let off := 8 * row + i * fanBits f
    let e := s.synBits off (fanBits f)
    let k := c * 4096 + if fanSparse f then e % 4096 else fanTarget f + i
    let w := synWeight (fanWidth f) (fanNeg f) (if fanSparse f then e / 4096 else e)
    let t := s.synOp c f row i
    (∀ b ∈ s.coln.badSyn, b < off / 64 ∨ (off + fanBits f - 1) / 64 < b) →
      Sparse.get (fun _ => 0) t.coln.sums k = Sparse.get (fun _ => 0) s.coln.sums k + w * 2 ^ fanShift f ∧
      (∀ j, j ≠ k → Sparse.get (fun _ => 0) t.coln.sums j = Sparse.get (fun _ => 0) s.coln.sums j) ∧
      t.rd OD.SYNOPS = min (s.rd OD.SYNOPS + 1) 0xFFFFFFFF ∧ Keep [.od, .coln] s t) ∧
  (∀ s : State, (s.ports.aud.markDue = false → Sys2Proof.Machine.exec .timestepMark s = .next s) ∧
    (s.ports.aud.markDue = true →
      let u := if s.powered 22 = false then s
        else if s.rd OD.COL_STATE = 3 ∧ s.flag OD.COL_RUN = false then s.colnStop.colnConfigure
        else if s.rd OD.COL_STATE = 3 then s.colnRunMark
        else if s.rd OD.COL_STATE = 2 ∧ s.flag OD.COL_RUN then (s.wr OD.COL_STATE 3).colnRunMark
        else s.colnConfigure
      ∃ t, Sys2Proof.Machine.exec .timestepMark s = .next t ∧ t.ports.sens = u.ports.sens ∧
        t.ports.aud = { u.ports.aud with
          markDue := false, block := [], coln := [], ready := some (u.ports.aud.block, u.tick.audio.toNat) } ∧
        Keep [.od, .ports] u t)) ∧
  (∀ s : State, let t := s.colnStop
    t.rd OD.COL_STATE = 2 ∧ (∀ d, d < 4 → t.rd (OD.WAKE_LEVEL d) = 0) ∧
    t.coln = { s.coln with
      mesh := [], queues := [], sums := [], ops := [], outq := []
      inject := if s.coln.injectFresh then s.coln.inject else none, dets := [] } ∧
    Keep [.od, .coln] s t) ∧
  (∀ s : State, let t := s.colnConfigure
    t.coln.cfg.fe = s.rd OD.FE_ENABLE ∧ t.coln.neurons = s.coln.neurons ∧ Keep [.od, .coln] s t ∧
    (s.coln.swapWas = false → t.coln.bank = s.coln.bank ∧ t.coln.banks = s.coln.banks ∧ s.SameBut t []) ∧
    (s.coln.swapWas = true → t.coln.bank = 1 - s.coln.bank ∧
      t.rd OD.COLN_ROUTE_SWAP = (if s.coln.swapFresh then s.rd OD.COLN_ROUTE_SWAP else 0) ∧
      t.rd OD.COLN_ROUTE_SWAPS = min (s.rd OD.COLN_ROUTE_SWAPS + 1) 0xFFFFFFFF ∧
      (∀ r i, r < 16 → i < 64 →
        t.bankEntry (1 - s.coln.bank) r i = Sparse.get (fun _ => 0) s.coln.routesWas (OD.COLN_ROUTE r i)))) ∧
  (∀ (what : ColnPlace) (s : State), s.powered 22 = true →
    (∃ t, Sys2Proof.Machine.exec (.colonnadeEccError true what) s = .next t ∧
      t.rd OD.SYN_CORRECTED = min (s.rd OD.SYN_CORRECTED + 1) 0xFFFFFFFF ∧
      t.rd (OD.CLASS_COUNTS FaultClass.corrected) = min (s.rd (OD.CLASS_COUNTS FaultClass.corrected) + 1) 0xFFFFFFFF ∧
      Keep [.od, .host, .falt] s t) ∧
    (∃ t, Sys2Proof.Machine.exec (.colonnadeEccError false what) s = .next t ∧
      t.rd OD.SYN_UNCORR = min (s.rd OD.SYN_UNCORR + 1) 0xFFFFFFFF ∧
      t.rd (OD.CLASS_COUNTS FaultClass.item) = min (s.rd (OD.CLASS_COUNTS FaultClass.item) + 1) 0xFFFFFFFF ∧
      (match what with
        | .syn w => w.val ∈ t.coln.badSyn
        | .neuron n => Sparse.get (fun _ => 0) t.coln.neurons n = 0
        | .fan c i => t.fan c i = 0
        | .route r i => t.bankEntry s.coln.bank r i = 0) ∧
      Keep [.od, .host, .falt, .coln] s t))

/-- DRAM channels, rows and accesses (R765, R769, R772, R774, R775, R784 to R787, R789, Tables DMEM-1, DMEM-8): what ends a
bring-up, applies a trim, closes a row, idles a channel, refreshes a bank; an access of a requester stores or reads its bytes. -/
def Obligations.DramChannelsServeAccesses : Prop :=
  (∀ (ch : Fin 8) (s : State), s.rd (OD.CH_STATE ch) = ChSt.init →
    (∃ t, Sys2Proof.Machine.exec (.channelInitDone ch true) s = .next t ∧ t.rd (OD.CH_STATE ch) = ChSt.active ∧
      s.SameBut t [OD.CH_STATE ch, OD.TRANSITION_US] ∧ Keep [.od, .dmem, .pow] s t) ∧
    (∃ t, Sys2Proof.Machine.exec (.channelInitDone ch false) s = .next t ∧ t.rd (OD.CH_STATE ch) = ChSt.failed ∧
      t.rd (OD.CLASS_COUNTS FaultClass.device) = min (s.rd (OD.CLASS_COUNTS FaultClass.device) + 1) 0xFFFFFFFF ∧
      Keep [.od, .host, .falt, .pow] s t)) ∧
  (∀ (ch : Fin 8) (s : State), s.tick.st = .stopped → s.rd (OD.TRIM_ARM ch) = 1 → bit s.dmem.trimFresh ch = false →
    s.rd (OD.CH_STATE ch) ≠ ChSt.off → s.rd (OD.CH_STATE ch) ≠ ChSt.selfRefresh →
    ∃ t, Sys2Proof.Machine.exec (.trimApply ch) s = .next t ∧ t.rd (OD.TRIM_ARM ch) = 0 ∧ t.rd (OD.TRIM_STALE ch) = 0 ∧
      t.rd (OD.TRIM_EPOCH ch) = s.tick.epoch.toNat ∧ t.rd (OD.TRIM_TEMP ch) = s.rd (OD.CH_TEMP ch) ∧
      t.rd (OD.TRIMS ch) = min (s.rd (OD.TRIMS ch) + 1) 0xFFFFFFFF ∧
      (∀ i, i < 52 → t.rd (OD.LIVE_DELAY ch i) = s.rd (OD.SHADOW_DELAY ch i)) ∧ Keep [.od] s t) ∧
  (∀ (ch : Fin 8) (s : State), s.tick.st ≠ .stopped → Sys2Proof.Machine.exec (.trimApply ch) s = .next s) ∧
  (∀ (q : Requester) (a : BitVec 48) (bytes : List Byte) (find : DramFind) (s : State),
    let c : Acc := { agent := q.agent, ctx := (carriedCtx q).map (·.val) }
    bytes ≠ [] → dramBase ≤ a.toNat → a.toNat + bytes.length ≤ dramEnd →
    (s.isMem c true a.toNat bytes.length → s.writable c a.toNat bytes.length →
      ∃ u t, Sys2Proof.Machine.exec (.dramAccess q a true bytes find) s = .next t ∧ Keep [.dmem] s u ∧
        u.Stored t a.toNat bytes) ∧
    (s.isMem c false a.toNat bytes.length → s.clean a.toNat bytes.length →
      ∃ t, Sys2Proof.Machine.exec (.dramAccess q a false bytes .clean) s = .next t ∧ Keep [.dmem, .bal] s t)) ∧
  (∀ (ch : Fin 8) (bank : Fin 16) (s : State),
    let b := ch.val * 16 + bank.val
    (Sparse.get (fun _ => 0) s.dmem.used b + 4 ≤ s.clk.now →
      ∃ t, Sys2Proof.Machine.exec (.rowClose ch bank) s = .next t ∧ Sparse.get (fun _ => 0) t.dmem.rows b = 0 ∧
        (∀ c, c ≠ b → Sparse.get (fun _ => 0) t.dmem.rows c = Sparse.get (fun _ => 0) s.dmem.rows c) ∧ Keep [.dmem] s t) ∧
    (s.clk.now < Sparse.get (fun _ => 0) s.dmem.used b + 4 →
      Sys2Proof.Machine.exec (.rowClose ch bank) s = .next s)) ∧
  (∀ (ch : Fin 8) (s : State), s.rd (OD.CH_STATE ch) = ChSt.active →
    Sparse.get (fun _ => 0) s.dmem.last ch.val + 50 ≤ s.clk.now →
    ∃ t, Sys2Proof.Machine.exec (.channelPowerDownIdle ch) s = .next t ∧
      t.dmem = { s.dmem with down := setBit s.dmem.down ch true } ∧ Keep [.dmem] s t) ∧
  (∀ (ch : Fin 8) (bank : Fin 16) (s : State), s.rd (OD.CH_STATE ch) = ChSt.active →
    let b := ch.val * 16 + bank.val
    let n := Sparse.get (fun _ => 0) s.dmem.postponed b
    let cause := s.rtPanic ∨ Sparse.get (fun _ => 0) s.dmem.rows b ≠ 0
    ∃ t, Sys2Proof.Machine.exec (.refresh ch bank) s = .next t ∧
      (cause → n < 8 → Sparse.get (fun _ => 0) t.dmem.postponed b = n + 1 ∧ t.dmem.rows = s.dmem.rows) ∧
      (cause → 8 ≤ n → Sparse.get (fun _ => 0) t.dmem.postponed b = n ∧ Sparse.get (fun _ => 0) t.dmem.rows b = 0) ∧
      (¬cause → Sparse.get (fun _ => 0) t.dmem.postponed b = 0 ∧ Sparse.get (fun _ => 0) t.dmem.rows b = 0) ∧
      Keep [.dmem] s t) ∧
  (∀ (ch : Fin 8) (s : State), s.rd (OD.CH_STATE ch) = ChSt.active →
    ∃ t, Sys2Proof.Machine.exec (.zqLatch ch) s = .next t ∧ Sparse.get (fun _ => 0) t.dmem.zq ch.val = s.clk.now ∧
      Keep [.dmem] s t)

/-- Scrubbers, temperature polls, panic and regulation windows (R448, R449, R453, R454, R467 to R470, R771, R776, R777, R779,
R789): a found error is put right or marked, counted and recorded; a poll sets the channel's temperature and stale mark; a port
enters and leaves panic at its marks; the end of a window counts every reported master. -/
def Obligations.ScrubbersPollsAndPanics : Prop :=
  (∀ s : State, s.rd OD.SCRUB_PERIOD ≠ 0 → s.powered 1 →
    (∃ t, Sys2Proof.Machine.exec (.galleryScrub .passDone) s = .next t ∧
      t.rd OD.SCRUB_PASSES = min (s.rd OD.SCRUB_PASSES + 1) 0xFFFFFFFF ∧ t.mem.cells = s.mem.cells ∧
      (s.Canonical → ∀ a, t.mark a = if s.mark a = 1 ∧ s.scrubsGallery a = true ∧ a / 8 ∉ s.mem.scrubbed then 0 else s.mark a) ∧
      Keep [.od, .host, .falt, .mem] s t) ∧
    (∀ a : BitVec 48, a.toNat < galleryBytes → s.flag (OD.PAIR_READY (a.toNat / 2 ^ 25)) →
      let p := a.toNat / 2 ^ 25
      (s.mark a.toNat ≠ 2 → ∃ t, Sys2Proof.Machine.exec (.galleryScrub (.correctable a)) s = .next t ∧
        t.mem.cells = s.mem.cells ∧ (∀ x, t.mark x = if x / 8 = a.toNat / 8 then 0 else s.mark x) ∧
        t.rd OD.GALL_CORRECTED = min (s.rd OD.GALL_CORRECTED + 1) 0xFFFFFFFF ∧
        t.rd (OD.PAIR_CORRECTED p) = min (s.rd (OD.PAIR_CORRECTED p) + 1) 0xFFFFFFFF ∧
        t.rd (OD.CLASS_COUNTS 0) = min (s.rd (OD.CLASS_COUNTS 0) + 1) 0xFFFFFFFF ∧ Keep [.od, .host, .falt, .mem] s t) ∧
      (∃ t, Sys2Proof.Machine.exec (.galleryScrub (.uncorrectable a)) s = .next t ∧
        t.mem.cells = s.mem.cells ∧ (∀ x, t.mark x = if x / 8 = a.toNat / 8 then 2 else s.mark x) ∧
        t.rd OD.GALL_UNCORRECTABLE = min (s.rd OD.GALL_UNCORRECTABLE + 1) 0xFFFFFFFF ∧
        t.rd (OD.PAIR_UNCORR p) = min (s.rd (OD.PAIR_UNCORR p) + 1) 0xFFFFFFFF ∧
        t.rd OD.GALL_LAST_UNCORR_ADDR = a.toNat / 8 * 8 ∧
        t.rd (OD.CLASS_COUNTS 1) = min (s.rd (OD.CLASS_COUNTS 1) + 1) 0xFFFFFFFF ∧ Keep [.od, .host, .falt, .mem] s t))) ∧
  (∀ s : State,
    (∃ t, Sys2Proof.Machine.exec (.dramScrub .passDone) s = .next t ∧ t.mem.cells = s.mem.cells ∧
      (s.Canonical → ∀ a, t.mark a = if s.mark a = 1 ∧ s.scrubsDram (a / 8 * 8) = true ∧ a / 8 ∉ s.mem.scrubbed then 0 else s.mark a) ∧
      Keep [.od, .host, .falt, .mem] s t) ∧
    (∀ a : BitVec 48, s.scrubsDram a.toNat →
      (s.mark a.toNat ≠ 2 → ∃ t, Sys2Proof.Machine.exec (.dramScrub (.correctable a)) s = .next t ∧
        t.mem.cells = s.mem.cells ∧ (∀ x, t.mark x = if x / 8 = a.toNat / 8 then 0 else s.mark x) ∧
        t.rd OD.DMEM_CORRECTED = min (s.rd OD.DMEM_CORRECTED + 1) 0xFFFFFFFF ∧
        t.rd (OD.CLASS_COUNTS 0) = min (s.rd (OD.CLASS_COUNTS 0) + 1) 0xFFFFFFFF ∧ Keep [.od, .host, .falt, .mem] s t) ∧
      (∃ t, Sys2Proof.Machine.exec (.dramScrub (.uncorrectable a)) s = .next t ∧
        t.mem.cells = s.mem.cells ∧ (∀ x, t.mark x = if x / 8 = a.toNat / 8 then 2 else s.mark x) ∧
        t.rd OD.DMEM_UNCORRECTABLE = min (s.rd OD.DMEM_UNCORRECTABLE + 1) 0xFFFFFFFF ∧
        t.rd OD.DMEM_LAST_UNCORR_ADDR = a.toNat / 8 * 8 ∧
        t.rd (OD.CLASS_COUNTS 1) = min (s.rd (OD.CLASS_COUNTS 1) + 1) 0xFFFFFFFF ∧ Keep [.od, .host, .falt, .mem] s t)) ∧
    (∀ f a, s.scrubsDram a.toNat = false → f = ScrubFind.correctable a ∨ f = ScrubFind.uncorrectable a →
      Sys2Proof.Machine.exec (.dramScrub f) s = .next s)) ∧
  (∀ (ch : Fin 8) (st : Byte) (v : BitVec 32) (s : State), s.rd (OD.CH_STATE ch) = ChSt.active →
    let drift := (toSigned 32 v.toNat - toSigned 32 (s.rd (OD.TRIM_TEMP ch))).natAbs
    let stale := 16 * s.rd OD.TRIM_DRIFT_LIMIT ≤ drift ∧ s.rd (OD.TRIM_STALE ch) ≠ 1
    let hot := st = 0xFF#8 ∧ s.rd (OD.DRAM_RR ch) ≠ 0xFF
    ∃ t, Sys2Proof.Machine.exec (.refreshRatePoll ch st v) s = .next t ∧ t.rd (OD.CH_TEMP ch) = v.toNat ∧
      t.rd (OD.DRAM_RR ch) = (if st = 1#8 ∨ st = 2#8 ∨ st = 4#8 ∨ st = 0xFF#8 then st.toNat else s.rd (OD.DRAM_RR ch)) ∧
      t.rd (OD.TRIM_STALE ch) = (if stale then 1 else s.rd (OD.TRIM_STALE ch)) ∧
      (hot → ¬stale → t.rd (OD.CLASS_COUNTS 0) = min (s.rd (OD.CLASS_COUNTS 0) + 1) 0xFFFFFFFF) ∧
      (¬hot → stale → t.rd (OD.CLASS_COUNTS 0) = min (s.rd (OD.CLASS_COUNTS 0) + 1) 0xFFFFFFFF) ∧
      (¬hot → ¬stale → t.falt = s.falt) ∧ Keep [.od, .host, .falt] s t) ∧
  (∀ (r : Fin 4) (lv : BitVec 16) (s : State), s.powered 1 → s.flag (OD.RT_ENABLE r) → s.rd (OD.RT_STATE r) ≠ 1 →
    lv.toNat < s.rd (OD.RT_PANIC_MARK r) → (r.val = 3 → s.copyRuns) →
    ∃ t, Sys2Proof.Machine.exec (.rtPanicEntry r lv) s = .next t ∧ t.rd (OD.RT_STATE r) = 1 ∧ t.rd (OD.RT_LEVEL r) = lv.toNat ∧
      t.rd (OD.RT_PANICS r) = min (s.rd (OD.RT_PANICS r) + 1) 0xFFFFFFFF ∧ t.rd (OD.RT_LAST_PANIC r) = s.clk.gtime ∧
      t.bal.panicSeen = true ∧ t.host = (if s.flag OD.PANIC_IRQ then (s.signal false 13).host else s.host) ∧
      s.SameBut t [OD.RT_STATE r, OD.RT_LEVEL r, OD.RT_PANICS r, OD.RT_LAST_PANIC r] ∧ Keep [.od, .host, .bal] s t) ∧
  (∀ (r : Fin 4) (lv : BitVec 16) (s : State), s.rd (OD.RT_STATE r) = 1 →
    let m := max (s.rd (OD.RT_RECOVER_MARK r)) (s.rd (OD.RT_PANIC_MARK r) + 1)
    (m ≤ lv.toNat → ∃ t, Sys2Proof.Machine.exec (.rtPanicExit r lv) s = .next t ∧ t.rd (OD.RT_STATE r) = 0 ∧
      t.rd (OD.RT_LEVEL r) = min lv.toNat (rtBuffer r) ∧ s.SameBut t [OD.RT_STATE r, OD.RT_LEVEL r] ∧ Keep [.od] s t) ∧
    (lv.toNat < m → Sys2Proof.Machine.exec (.rtPanicExit r lv) s = .next s)) ∧
  (∀ (g : Fin 9) (es : List BalEvent) (s : State), s.powered 1 →
    let u := es.foldl (fun s e => s.balEvent g e) s
    let panic := g.val = 8 ∧ u.bal.panicSeen
    let short (m : Nat) : Prop := ¬panic ∧ u.waits g m = true ∧ u.granted g m < u.entitlement g m
    ∃ t, Sys2Proof.Machine.exec (.balustradeWindowEnd g es) s = .next t ∧
      t.rd OD.PANIC_WINDOWS = (if panic then min (u.rd OD.PANIC_WINDOWS + 1) 0xFFFFFFFF else u.rd OD.PANIC_WINDOWS) ∧
      (∀ m : Fin 48, (short m → t.rd (OD.MISSES m) = min (u.rd (OD.MISSES m) + 1) 0xFFFFFFFF ∧ bit (t.rd OD.MISS_MASK) m = true) ∧
        (¬short m → t.rd (OD.MISSES m) = u.rd (OD.MISSES m) ∧ bit (t.rd OD.MISS_MASK) m = bit (u.rd OD.MISS_MASK) m) ∧
        t.granted g m = 0 ∧ (∀ h, h < 9 → h ≠ g.val → t.granted h m = u.granted h m)) ∧
      t.bal.targets = u.bal.targets ∧ t.bal.served = u.bal.served ∧ Keep [.od, .host, .bal] u t) ∧
  (∀ (g : Nat) (e : BalEvent) (s : State), g < 9 → let t := s.balEvent g e; let x := s.balTarget g
    (∀ n, e = .cycles n → t.balTarget g = { x with now := x.now + n.toNat }) ∧
    (∀ m a n, e = .request m a n → regulated a.toNat = some g →
      t.balTarget g = { x with waiting := x.waiting ++ [⟨m, x.now, a.toNat, n.toNat⟩] }) ∧
    (∀ m n, e = .took m n → t.rd (OD.MAX_LAT m) = max (s.rd (OD.MAX_LAT m)) n.toNat) ∧
    (∀ slice r y, e = .grant slice → s.nextGrant g slice = some (r, y) → r.addr % 64 + r.bytes ≤ 64 → r.bytes ≠ 0 →
      regulated r.addr = some g →
      t.balTarget g = { y with waiting := y.waiting.erase r } ∧ t.granted g r.port = s.granted g r.port + 1 ∧
      Sparse.get (fun _ => 0) t.bal.served r.port = Sparse.get (fun _ => 0) s.bal.served r.port + r.bytes) ∧
    (∀ slice, e = .grant slice → s.nextGrant g slice = none → t = s) ∧ Keep [.od, .bal] s t) ∧
  (∀ (g slice : Nat) (r : BalReq) (y : BalTarget) (s : State), s.nextGrant g slice = some (r, y) →
    let rs := s.candidates g slice
    (∀ q, s.tier0 g rs = some q → r = q) ∧
    (∀ q, s.tier0 g rs = none → s.tier1 g rs = some q → r = q) ∧
    (s.tier0 g rs = none → s.tier1 g rs = none → (∃ q ∈ rs, q.port < 48 ∧ s.granted g q.port < s.effEntitlement g q.port) →
      r ∈ rs ∧ s.granted g r.port < s.effEntitlement g r.port) ∧
    (s.tier0 g rs = none → s.tier1 g rs = none → s.tier2 g rs = none →
      (∃ q ∈ rs, q.port < 48 ∧ s.rd (OD.SHARE q.port) ≠ 0) → r ∈ rs ∧ s.rd (OD.SHARE r.port) ≠ 0)) ∧
  (∀ (p : Fin 8) (s : State), s.powered (10 + p) → s.rd (OD.PAIR_READY p) = 0 →
    ∃ t, Sys2Proof.Machine.exec (.pairFillDone p) s = .next t ∧ t.rd (OD.PAIR_READY p) = 1 ∧
      (∀ a, t.memByte a = if p * 2 ^ 25 ≤ a ∧ a < p * 2 ^ 25 + 2 ^ 25 then 0 else s.memByte a) ∧
      s.SameBut t [OD.PAIR_READY p, OD.TRANSITION_US] ∧ Keep [.od, .mem, .ledg, .pow] s t)

/-- Domains (R129, R852 to R854, R859, R882, Table POWR-1): ramps start one at a time, at least 10 µs apart, for the lowest
wanted domain that can; a domain whose requirements are ready becomes ready; one past twice its ramp time fails and is recorded;
the highest powered domain that is not wanted goes down, and its objects return to their defaults. -/
def Obligations.DomainsRampAndFall : Prop :=
  (∀ (s : State) (d : Nat), s.mayMove → s.pow.vin → (∀ t, s.pow.lastRamp = some t → t + 500 ≤ s.clk.now) →
    0 < d → d < 28 → s.mayRamp d → (∀ e, 0 < e → e < d → s.mayRamp e = false) →
    ∃ t, Sys2Proof.Machine.exec .domainRampStart s = .next t ∧ t.rampOf d = some s.clk.now ∧
      (∀ e, e ≠ d → t.rampOf e = s.rampOf e) ∧ t.pow.lastRamp = some s.clk.now ∧ s.SameBut t [OD.TRANSITION_US] ∧
      Keep [.od, .pow] s t) ∧
  (∀ (d : Fin 28) (s : State) (t0 : Nat), s.rampOf d = some t0 → (∀ r ∈ domainNeeds d, s.powered r) →
    ∃ t, Sys2Proof.Machine.exec (.domainReady d) s = .next t ∧ t.powered d ∧ (∀ e, e ≠ d.val → t.powered e = s.powered e) ∧
      t.rampOf d = none ∧ (d.val = 26 → t.rd OD.LINK_STATE = if s.host.perstLow then 0 else 1) ∧
      Keep [.od, .ports, .dmem, .boot, .dbg, .pow] s t) ∧
  (∀ (d : Fin 28) (s : State) (t0 : Nat), s.rampOf d = some t0 → t0 + usEdges (2 * rampUs d) ≤ s.clk.now →
    ∃ t, Sys2Proof.Machine.exec (.domainRampFail d) s = .next t ∧ t.rampOf d = none ∧
      (∀ e, bit (t.rd OD.DOMAIN_FAIL) e = (bit (s.rd OD.DOMAIN_FAIL) e || decide (e = d.val))) ∧
      t.rd (OD.CLASS_COUNTS FaultClass.device) = min (s.rd (OD.CLASS_COUNTS FaultClass.device) + 1) 0xFFFFFFFF ∧
      (∀ e, t.powered e = s.powered e) ∧ Keep [.od, .host, .falt, .pow] s t) ∧
  (∀ (s : State) (d : Nat), s.mayMove → 0 < d → d < 28 → s.powered d → bit (s.rd OD.DOMAIN_REQ) d = false →
    (∀ e, d < e → e < 28 → s.powered e → bit (s.rd OD.DOMAIN_REQ) e) →
    (∀ x, x < 28 → s.rampOf x ≠ none → d ∉ domainNeeds x) →
    ∃ t, Sys2Proof.Machine.exec .domainPowerDown s = .next t ∧ t.powered d = false ∧
      (∀ k, domainOf k = d → t.rd k = odDefault k) ∧ t.rampOf d = none) ∧
  (∀ (fixed : Bool) (i : Fin 1024) (s : State), s.powered 1 →
    (fixed = true → Sys2Proof.Machine.exec (.slotTableEccError fixed i) s =
      .next (s.record FaultClass.corrected 67 1 0 0 i.val)) ∧
    (fixed = false → (s.item i.val).st = .free → Sys2Proof.Machine.exec (.slotTableEccError fixed i) s = .next s) ∧
    (fixed = false → (s.item i.val).st ≠ .free → Sys2Proof.Machine.exec (.slotTableEccError fixed i) s =
      .next ((s.record FaultClass.device 67 1 0 0 i.val).orderReset 6 false (some i.val))))
/-- Supplies, temperature, SYSREF and wake (R866 to R873, R877, R888, R983, R988): what each event of the board does to the
power controller's record, the target, the Pace and the reset. -/
def Obligations.SuppliesTemperatureAndWake : Prop :=
  (∀ (high : Bool) (mv : BitVec 16) (s : State),
    ∃ t, Sys2Proof.Machine.exec (.vinLoss high mv) s = .next t ∧ t.rd OD.DOMAIN_REQ = 1 ∧ t.rd OD.GATE = 1 ∧
      t.rd OD.RESET_STATE = 0 ∧ t.rd OD.VIN_MV = mv.toNat ∧ t.powered 1 = false ∧ t.pow.vin = false ∧ t.pow.await = false ∧
      t.pow.reset = none ∧ t.pow.cold = s.pow.cold ∧ (∀ d, t.rampOf d = none)) ∧
  (∀ s : State, ∃ t, Sys2Proof.Machine.exec .vinValid s = .next t ∧ t.pow.vin = true ∧
    (s.pow.await = true → s.boot.life ≠ 3 → t.rd OD.DOMAIN_REQ = (s.cmdTarget (s.rd OD.POWERUP_TARGET)).1 ∧
      t.rd OD.GATE = (s.cmdTarget (s.rd OD.POWERUP_TARGET)).2 ∧ t.pow.await = false) ∧
    (s.pow.await = false ∨ s.boot.life = 3 → t.rd OD.DOMAIN_REQ = s.rd OD.DOMAIN_REQ ∧ t.rd OD.GATE = s.rd OD.GATE) ∧
    Keep [.od, .pow] s t) ∧
  (∀ (mv : BitVec 16) (s : State), ∃ t, Sys2Proof.Machine.exec (.vinBandEntry mv) s = .next t ∧ t.rd OD.VIN_MV = mv.toNat ∧
    t.rd (OD.CLASS_COUNTS FaultClass.corrected) = min (s.rd (OD.CLASS_COUNTS FaultClass.corrected) + 1) 0xFFFFFFFF ∧
    s.SameBut t [OD.VIN_MV, OD.FAULTS_LOST, OD.CLASS_COUNTS FaultClass.corrected] ∧ Keep [.od, .host, .falt] s t) ∧
  (∀ (v : BitVec 32) (s : State),
    let u := (s.wr OD.TJ v.toNat).throttle
    let crossed := toSigned 32 (s.rd OD.TJ) < 2000 ∧ 2000 ≤ toSigned 32 v.toNat
    (crossed → Sys2Proof.Machine.exec (.tjSample v) s = .next (u.orderReset 7 true none)) ∧
    (¬crossed → Sys2Proof.Machine.exec (.tjSample v) s = .next u)) ∧
  (∀ s : State, s.powered 1 → s.pow.hot = none → s.rd OD.PACE_CAP ≠ 0 →
    ((s.rd OD.TJ_THROTTLE : Int) * 16 ≤ toSigned 32 (s.rd OD.TJ) ∨ s.dramHot) →
    s.throttle = State.capLower { s with pow := { s.pow with hot := some s.clk.now, cool := none } } ∧
    s.throttle.rd OD.PACE_CAP = s.rd OD.PACE_CAP - 1 ∧
    s.throttle.rd OD.THROTTLE_EVENTS = min (s.rd OD.THROTTLE_EVENTS + 1) 0xFFFFFFFF) ∧
  (∀ s : State, Sys2Proof.Machine.exec .sysrefAbsent s = .next (State.orderReset
    { s with pow := { s.pow with sysref := false }, clk := { s.clk with lfAcc := 0 } } 6 false none)) ∧
  (∀ s : State, Sys2Proof.Machine.exec .sysrefReturn s = .next { s with pow := { s.pow with sysref := true } }) ∧
  (∀ (src : WakeSource) (s : State), let b := wakeBit src
    bit (s.rd OD.POWR_WAKE_ENABLE) b = true → (∀ g, src = .pin g → s.wakeSeen ∧ s.wakePin = some g.val) →
    ∃ t, Sys2Proof.Machine.exec (.wakeRequest src) s = .next t ∧ bit (t.rd OD.WAKE_SOURCE) b = true ∧
      (∀ i, i ≠ b → bit (t.rd OD.WAKE_SOURCE) i = bit (s.rd OD.WAKE_SOURCE) i) ∧
      (s.linkUp = false → t.pow.wakeLow = true ∧ t.host = s.host) ∧
      (s.linkUp = true → t.pow.wakeLow = s.pow.wakeLow ∧ t.host = (s.signal false 10).host) ∧
      (s.rd OD.WAKE_TARGET < 3 → t.rd OD.DOMAIN_REQ = s.rd OD.DOMAIN_REQ) ∧ Keep [.od, .host, .pow] s t) ∧
  (∀ (src : WakeSource) (s : State), bit (s.rd OD.POWR_WAKE_ENABLE) (wakeBit src) = false ∨
      (∃ g, src = .pin g ∧ (s.wakeSeen = false ∨ s.wakePin ≠ some g.val)) →
    Sys2Proof.Machine.exec (.wakeRequest src) s = .next s) ∧
  (∀ (s : State) (p : Nat), s.pow.paceTo = some (p, false) →
    (s.tick.st ≠ .stopped → Sys2Proof.Machine.exec .paceRampDone s =
      .next { s with pow := { s.pow with supply := p, paceTo := some (p, true) } }) ∧
    (s.tick.st = .stopped → ∃ t, Sys2Proof.Machine.exec .paceRampDone s = .next t ∧ t.rd OD.PACE = p ∧
      t.rd OD.HALL_MHZ = paceHall p ∧ t.rd OD.SPINE_MHZ = paceSpine p ∧
      t.rd OD.PACE_CHANGES = min (s.rd OD.PACE_CHANGES + 1) 0xFFFFFFFF ∧ t.pow.paceTo = none ∧ t.pow.supply = p)) ∧
  (∀ (g : Fin 16) (s : State) (s0 : Nat) (b : Bool), s.pinSwitch g = some (s0, b) →
    ∃ t, Sys2Proof.Machine.exec (.pinParkEnd g) s = .next t ∧
      t.pinSwitch g = (if s.clk.now < s0 + 4 then some (s0, b) else if s.clk.now < s0 + 6 then some (s0, true) else none) ∧
      (∀ h, h ≠ g.val → t.pinSwitch h = s.pinSwitch h) ∧ Keep [.pins] s t)

/-- What orders a full device reset (R70, R150, R151, R200, R875, Table POWR-7): the order sets RESET_STATE 1, stops the tick unit
and empties the lane queues, once; a further order keeps the first cause. PERST#, a hot reset and a lost link order one and
reset the functions' configuration; the pin orders one at 1 µs, and a cold reset at 10 ms. -/
def Obligations.ResetsAreOrdered : Prop :=
  (∀ (s : State) (cause : Nat) (floor : Bool) (lost : Option Nat), s.pow.reset = none →
    let t := s.orderReset cause floor lost
    t.pow = { s.pow with reset := some ⟨cause, s.clk.now, s.linkUp && decide (cause = 4), floor⟩ } ∧
    t.tick = { s.tick with st := .stopped, startPending := false, commitDue := false, armed := false, armFresh := none, out := false,
                             outMark := none, outEnd := none, inEdge := none } ∧
    ((s.linkUp = false ∨ cause = 1 ∨ cause = 2 ∨ cause = 3) → t.flit.entries = [] ∧ t.flit.admission = [] ∧
      t.flit.slots = s.flit.slots)) ∧
  (∀ (s : State) (cause : Nat) (floor : Bool) (lost : Option Nat) (r : ResetRun), s.pow.reset = some r →
    s.orderReset cause floor lost = { s with pow := { s.pow with reset := some { r with floor := r.floor || floor } } }) ∧
  (∀ (s : State) (state cause : Nat),
    let t := s.linkLost state cause
    t.rd OD.LINK_STATE = state ∧ t.rd OD.LINK_WIDTH = 0 ∧ t.rd OD.LINK_SPEED = 0 ∧ t.host.pf0 = {} ∧ t.host.pf1 = {} ∧
    t.pow = (s.orderReset cause false none).pow ∧ t.tick = (s.orderReset cause false none).tick ∧
    t.flit = (s.orderReset cause false none).flit) ∧
  (∀ s : State, s.scanning = false →
    let u : State := { s with host := { s.host with perstLow := true } }
    (s.powered 26 → Sys2Proof.Machine.exec .peRstNAssert s = .next (u.linkLost 0 1)) ∧
    (s.powered 26 = false → Sys2Proof.Machine.exec .peRstNAssert s = .next u)) ∧
  (∀ s : State, s.scanning = false →
    let u : State := { s with host := { s.host with perstLow := false } }
    (s.powered 26 → s.linkUp → Sys2Proof.Machine.exec .peRstNRelease s = .next u) ∧
    (s.powered 26 → s.linkUp = false → Sys2Proof.Machine.exec .peRstNRelease s = .next (u.wr OD.LINK_STATE 1)) ∧
    (s.powered 26 = false → Sys2Proof.Machine.exec .peRstNRelease s = .next (u.wake 1))) ∧
  (∀ s : State, s.powered 26 → s.linkUp → Sys2Proof.Machine.exec .hotReset s = .next (s.linkLost 1 2) ∧
    Sys2Proof.Machine.exec .linkDown s = .next (s.linkLost 0 3)) ∧
  (∀ (width speed : BitVec 8) (s : State), s.powered 26 → s.host.perstLow = false →
    ∃ t, Sys2Proof.Machine.exec (.linkUp width speed) s = .next t ∧ t.rd OD.LINK_STATE = 2 ∧ t.rd OD.LINK_WIDTH = width.toNat ∧
      t.rd OD.LINK_SPEED = speed.toNat ∧ t.pow = { s.pow with wakeLow := false } ∧
      s.SameBut t [OD.LINK_STATE, OD.LINK_WIDTH, OD.LINK_SPEED] ∧ Keep [.od, .pow] s t) ∧
  (∀ s : State, s.scanning = false →
    Sys2Proof.Machine.exec .modRstNFullThreshold s =
      .next (State.orderReset { s with pow := { s.pow with mod_ := .full } } 5 false none) ∧
    Sys2Proof.Machine.exec .modRstNColdThreshold s =
      .next { s with pow := { s.pow with mod_ := .cold, cold := some s.clk.now } }) ∧
  (∀ s : State, Sys2Proof.Machine.exec .modRstNRise s = .next { s with pow := { s.pow with mod_ := .high } })
/-- The steps of a full device reset (R129, R141, R201, R747, R831, R875, R888, Table POWR-7): what is left goes to the lost-item
list and the staged set empties; the DRAM fills end with zeros; every domain's objects but D0's return to their defaults; when
SYSREF runs the pairs fill and the channels come up; at the end RESET_CAUSE and RESETS tell of it. -/
def Obligations.ResetsRunTheirSteps : Prop :=
  (∀ (s : State) (r : ResetRun), s.pow.reset = some r → s.rd OD.RESET_STATE = 1 →
    ∃ t, Sys2Proof.Machine.exec .resetTakesHold s = .next t ∧ t.rd OD.RESET_STATE = 2 ∧
      t.flit.slots = [] ∧ t.flit.entries = [] ∧ t.flit.admission = [] ∧
      t.dict.staged = [] ∧ t.dict.fresh = [] ∧ t.dict.xfer = [] ∧ t.gq.point = none ∧
      (r.floor = true → t.rd OD.DOMAIN_REQ = 1 ∧ t.rd OD.GATE = 1)) ∧
  (∀ (s : State) (r : ResetRun), s.pow.reset = some r → s.rd OD.RESET_STATE = 2 →
    ∃ t, Sys2Proof.Machine.exec .resetFillEnd s = .next t ∧ t.rd OD.RESET_STATE = 3 ∧
      (∀ a, t.memByte a = if s.ledg.fills.any (fun x => inRange x a) then 0#8 else s.memByte a) ∧
      (∀ k, domainOf k ≠ 0 → k ≠ OD.PIN_SWITCHES → resetKeeps (r.keepPcie && s.linkUp) k = false → t.rd k = odDefault k) ∧
      t.tick = {} ∧ t.flit = {} ∧ t.land = {} ∧ t.clok = {} ∧ t.ldr = {} ∧ t.vest = {} ∧ t.vid = {} ∧ t.coln = {} ∧
      t.newels = [] ∧ t.bal = {} ∧ t.trc = {} ∧ t.dbg = {} ∧ t.ledg.fills = []) ∧
  (∀ s : State, s.pow.reset ≠ none → s.rd OD.RESET_STATE = 3 → s.pow.sysref →
    ∃ t, Sys2Proof.Machine.exec .resetHoldEnd s = .next t ∧ t.rd OD.RESET_STATE = 4 ∧ t.rd OD.GATE = 1 ∧
      (∀ p, p < 8 → t.rd (OD.PAIR_READY p) = 0) ∧
      (∀ ch, ch < 8 → t.rd (OD.CH_STATE ch) =
        if s.rd (OD.CH_STATE ch) = ChSt.selfRefresh then ChSt.untrimmed else s.rd (OD.CH_STATE ch)) ∧
      t.rd OD.LINK_STATE = (if s.powered 26 ∧ s.linkUp = false then (if s.host.perstLow then 0 else 1)
        else s.rd OD.LINK_STATE) ∧ Keep [.od, .dmem, .pow] s t) ∧
  (∀ (s : State) (r : ResetRun), s.pow.reset = some r → s.rd OD.RESET_STATE = 4 → s.movingNow = false →
    ∃ t, Sys2Proof.Machine.exec .resetDone s = .next t ∧ t.rd OD.RESET_STATE = 0 ∧ t.rd OD.RESET_CAUSE = r.cause ∧
      t.rd OD.RESETS = min (s.rd OD.RESETS + 1) 0xFFFFFFFF ∧ t.pow = { s.pow with reset := none } ∧
      s.SameBut t [OD.RESET_STATE, OD.RESET_CAUSE, OD.RESETS] ∧ Keep [.od, .pow] s t) ∧
  (∀ (s : State) (t0 : Nat), s.pow.cold = some t0 → (t0 + 500 ≤ s.clk.now ∨ s.pow.mod_ = .cold) →
    ∃ t, Sys2Proof.Machine.exec .coldReset s = .next t ∧ t.rd OD.RESET_CAUSE = 8 ∧
      (∀ k, domainOf k = 0 → coldKeeps k = false →
        k ∉ [OD.RESET_CAUSE, OD.DOMAIN_REQ, OD.GATE, OD.DOMAIN_FAIL, OD.TRANSITION_US] → t.rd k = odDefault k) ∧
      t.dict = {} ∧ t.gq = { idleAt := s.clk.now } ∧ t.pow.cold = none ∧ t.pow.reset = none ∧ t.pow.lastRamp = none)

/-- The line monitor and the master mailbox (R803 to R806, R822, R832 to R834): a condition stops the node from transmitting, a probe
checks again, a line clear for 1 ms restores it; the mailbox's request goes out and is repeated twice at most. -/
def Obligations.TheGqLineIsWatched : Prop :=
  (∀ (c : Fin 4) (s : State), ∃ t, Sys2Proof.Machine.exec (.lineFaultDetect c) s = .next t ∧ t.rd OD.GQ_MODE = 1 ∧
    t.gq = { s.gq with clear := s.clk.now, probe := if s.rd OD.GQ_MODE = 1 then s.gq.probe else s.clk.now } ∧
    (bit (s.rd OD.LINE_NOW) c = true → s.SameBut t [OD.GQ_MODE] ∧ Keep [.od, .gq] s t) ∧
    (bit (s.rd OD.LINE_NOW) c = false → t.rd OD.LINE_NOW = setBit (s.rd OD.LINE_NOW) c true ∧
      t.rd OD.LINE_SEEN = setBit (s.rd OD.LINE_SEEN) c true ∧ t.rd OD.LINE_FAULTS = min (s.rd OD.LINE_FAULTS + 1) 0xFFFFFFFF ∧
      t.rd (OD.CLASS_COUNTS FaultClass.corrected) = min (s.rd (OD.CLASS_COUNTS FaultClass.corrected) + 1) 0xFFFFFFFF ∧
      Keep [.od, .host, .falt, .gq] s t)) ∧
  (∀ s : State, (bits (s.rd OD.LINE_NOW) 1 3 ≠ 0 → Sys2Proof.Machine.exec .polaritySwap s = .next s) ∧
    (bits (s.rd OD.LINE_NOW) 1 3 = 0 → ∃ t, Sys2Proof.Machine.exec .polaritySwap s = .next t ∧
      t.rd OD.POLARITY = 1 - s.rd OD.POLARITY ∧ t.rd OD.POLARITY_SWAPS = min (s.rd OD.POLARITY_SWAPS + 1) 0xFFFFFFFF ∧
      t.rd OD.LINE_SEEN = setBit (s.rd OD.LINE_SEEN) 4 true ∧ bit (t.rd OD.LINE_NOW) 4 = false ∧
      t.rd OD.LINE_FAULTS = min (s.rd OD.LINE_FAULTS + 1) 0xFFFFFFFF ∧ Keep [.od, .host, .falt] s t)) ∧
  (∀ (found : BitVec 4) (s : State),
    let free := s.gq.idleAt + (52 + 2 * gqNode) ≤ s.clk.now ∧ s.gq.window ≤ s.clk.now
    (s.rd OD.GQ_MODE = 0 ∨ s.clk.now < s.gq.probe + 500000 ∨ ¬free → Sys2Proof.Machine.exec (.probe found) s = .next s) ∧
    (s.rd OD.GQ_MODE ≠ 0 → s.gq.probe + 500000 ≤ s.clk.now → free → ∃ t, Sys2Proof.Machine.exec (.probe found) s = .next t ∧
      (∀ c, c < 4 → bit (t.rd OD.LINE_NOW) c = found.getLsbD c) ∧
      t.gq = { s.gq with
        idleAt := s.clk.now, probe := s.clk.now, clear := if s.rd OD.LINE_NOW ≠ 0 ∨ found ≠ 0 then s.clk.now else s.gq.clear } ∧
      (found = 0 → s.SameBut t [OD.LINE_NOW]) ∧ Keep [.od, .host, .falt, .gq] s t)) ∧
  (∀ s : State, (s.rd OD.GQ_MODE ≠ 0 → s.rd OD.LINE_NOW = 0 → s.gq.clear + 50000 ≤ s.clk.now →
      ∃ t, Sys2Proof.Machine.exec .lineRecovery s = .next t ∧ t.rd OD.GQ_MODE = 0 ∧ s.SameBut t [OD.GQ_MODE] ∧ Keep [.od] s t) ∧
    (s.rd OD.GQ_MODE = 0 ∨ s.rd OD.LINE_NOW ≠ 0 ∨ s.clk.now < s.gq.clear + 50000 →
      Sys2Proof.Machine.exec .lineRecovery s = .next s)) ∧
  (∀ (m : GqMail) (s : State), s.gq.mail = some m → m.sent = none → s.pow.sysref = true →
    (s.rd OD.GQ_MODE = 1 → ∀ tx, ∃ t, Sys2Proof.Machine.exec (.mailboxTx tx) s = .next t ∧ t.rd OD.GQM_STATE = 3 ∧
      t.rd OD.GQM_FAIL = 4 ∧ t.gq = { s.gq with mail := none } ∧ s.SameBut t [OD.GQM_STATE, OD.GQM_FAIL] ∧ Keep [.od, .gq] s t) ∧
    let free := s.gq.idleAt + (20 + 2 * gqNode + (if s.gq.courtesy then 64 else 0)) + (58 + 8 * m.body.length) ≤ s.clk.now ∧
      s.gq.window ≤ s.clk.now
    (s.rd OD.GQ_MODE ≠ 1 → ¬free → ∀ tx, Sys2Proof.Machine.exec (.mailboxTx tx) s = .next s) ∧
    (s.rd OD.GQ_MODE ≠ 1 → free →
      (∃ t, Sys2Proof.Machine.exec (.mailboxTx .sent) s = .next t ∧
        t.rd OD.TX_TELEGRAMS = min (s.rd OD.TX_TELEGRAMS + 1) 0xFFFFFFFF ∧ t.gq.tx = m.body ++ leBytes 4 (crc32c m.body) ∧
        t.gq.idleAt = s.clk.now ∧
        (if (m.body.getD 0 0#8).toNat % 32 = 0 then t.gq.mail = none ∧ t.gq.courtesy = true ∧ t.rd OD.GQM_STATE = 2 ∧ t.rdBytes OD.GQM_REPLY = []
          else t.gq.mail = some { m with tries := m.tries + 1, sent := some s.clk.now } ∧ t.gq.window = s.clk.now + 150 ∧
            t.rd OD.GQM_STATE = s.rd OD.GQM_STATE) ∧
        Keep [.od, .odb, .gq] s t) ∧
      (∃ t, Sys2Proof.Machine.exec (.mailboxTx .collision) s = .next t ∧
        t.rd OD.COLLISIONS = min (s.rd OD.COLLISIONS + 1) 0xFFFFFFFF ∧
        (if m.tries < 2 then t.gq.mail = some { m with tries := m.tries + 1 } ∧ t.rd OD.GQM_STATE = s.rd OD.GQM_STATE
          else t.gq.mail = none ∧ t.rd OD.GQM_STATE = 3 ∧ t.rd OD.GQM_FAIL = 3) ∧
        Keep [.od, .host, .falt, .gq] s t) ∧
      (∀ c, ∃ t, Sys2Proof.Machine.exec (.mailboxTx (.lineFault c)) s = .next t ∧ t.rd OD.GQ_MODE = 1 ∧ t.rd OD.GQM_STATE = 3 ∧
        t.rd OD.GQM_FAIL = 4 ∧ t.gq.mail = none ∧ Keep [.od, .host, .falt, .gq] s t))) ∧
  (∀ s : State, (s.gq.mail = none ∨ (∃ m, s.gq.mail = some m ∧ m.sent.isSome) ∨ s.pow.sysref = false) →
    ∀ tx, Sys2Proof.Machine.exec (.mailboxTx tx) s = .next s) ∧
  (∀ (m : GqMail) (at_ : Nat) (s : State), s.gq.mail = some m → m.sent = some at_ →
    (s.clk.now < at_ + 150 → Sys2Proof.Machine.exec .masterTimeout s = .next s) ∧
    (at_ + 150 ≤ s.clk.now → ∃ t, Sys2Proof.Machine.exec .masterTimeout s = .next t ∧
      t.rd OD.TIMEOUTS = min (s.rd OD.TIMEOUTS + 1) 0xFFFFFFFF ∧
      (if m.tries < 3 then t.gq.mail = some { m with sent := none } ∧ t.rd OD.GQM_STATE = s.rd OD.GQM_STATE
        else t.gq.mail = none ∧ t.rd OD.GQM_STATE = 3 ∧ t.rd OD.GQM_FAIL = 1) ∧
      Keep [.od, .host, .falt, .gq] s t))

/-- Telegrams (R808, R811, R815, R822, R823, R826 to R831, R835 to R838, R841, R842): what reception counts, how a response ends the
mailbox, how a tick telegram is taken and sent, and how a request is replayed or served and answered. -/
def Obligations.GqTelegramsAreExchanged : Prop :=
  (∀ (g : Telegram) (s : State), let t := s.gqReceive g
    (g.ok = false → t.rd OD.RX_DISCARDS = min (s.rd OD.RX_DISCARDS + 1) 0xFFFFFFFF ∧ t.rd OD.RX_TELEGRAMS = s.rd OD.RX_TELEGRAMS) ∧
    (g.ok = true → t.rd OD.RX_TELEGRAMS = min (s.rd OD.RX_TELEGRAMS + 1) 0xFFFFFFFF ∧ t.rd OD.RX_DISCARDS = s.rd OD.RX_DISCARDS ∧
      t.rd OD.ADDR_CLASHES = if gqNode ≠ 0 ∧ g.src = gqNode then min (s.rd OD.ADDR_CLASHES + 1) 0xFFFFFFFF else s.rd OD.ADDR_CLASHES) ∧
    t.gq = { s.gq with idleAt := s.clk.now } ∧ Keep [.od, .host, .falt, .gq] s t) ∧
  (∀ (g : Telegram) (s : State), let u := (s.gqReceive g).endWindow
    u.gq.window = min s.gq.window s.clk.now ∧
    (g.ok = false → s.mailWaits g.times = none → Sys2Proof.Machine.exec (.gqResponseRx g) s = .next u) ∧
    (∀ m, g.ok = false → s.mailWaits g.times = some m → ∃ t, Sys2Proof.Machine.exec (.gqResponseRx g) s = .next t ∧
      t.rd OD.TIMEOUTS = min (u.rd OD.TIMEOUTS + 1) 0xFFFFFFFF ∧
      (if m.tries < 3 then t.gq = { u.gq with mail := some { m with sent := none }, courtesy := false }
        else t.gq = { u.gq with mail := none, courtesy := false } ∧ t.rd OD.GQM_STATE = 3 ∧ t.rd OD.GQM_FAIL = 2) ∧
      Keep [.od, .host, .falt, .gq] u t) ∧
    (g.ok = true → g.ty = 1 → ∃ t, Sys2Proof.Machine.exec (.gqResponseRx g) s = .next t ∧
      (if g.dest ≠ gqNode then t = u
        else match s.mailWaits g.times with
        | none => t = u.bump OD.STRAY_RESPONSES
        | some m =>
          if g.seq = (m.body.getD 2 0#8).toNat ∧ g.src = (m.body.getD 0 0#8).toNat % 32 then
            t.rd OD.GQM_STATE = 2 ∧ t.rdBytes OD.GQM_REPLY = g.body ∧ t.gq = { u.gq with mail := none, courtesy := true } ∧ Keep [.od, .odb, .gq] u t
          else t = u.bump OD.STRAY_RESPONSES))) ∧
  (∀ (g : Telegram) (s : State), let u := s.gqReceive g
    (g.ok = false ∨ g.ty ≠ 2 ∨ s.powered 1 = false → Sys2Proof.Machine.exec (.tickTelegramRx g) s = .next u) ∧
    (g.ok = true → g.ty = 2 → s.powered 1 = true → s.flag OD.TELEGRAM_EMIT = true →
      Sys2Proof.Machine.exec (.tickTelegramRx g) s = .next (u.bump OD.TICK_CONFLICTS)) ∧
    (g.ok = true → g.ty = 2 → s.powered 1 = true → s.flag OD.TELEGRAM_EMIT = false → s.rd OD.TICK_SOURCE = 2 →
      ∃ t, Sys2Proof.Machine.exec (.tickTelegramRx g) s = .next t ∧ t.rd OD.TICK_RX_FLAGS = fieldAt g.body 4 1 % 2 ∧
        t.rd OD.TICK_RX_DELAY = fieldAt g.body 5 2 ∧
        t.gq = { u.gq with point := some ⟨s.clk.now + 800 - fieldAt g.body 5 2 - 138, fieldAt g.body 0 4, bit (fieldAt g.body 4 1) 0⟩ } ∧
        u.SameBut t [OD.TICK_RX_FLAGS, OD.TICK_RX_DELAY] ∧ Keep [.od, .gq] u t)) ∧
  (∀ (g : GqTick) (s : State), s.gq.emit = some g → s.rd OD.GQ_MODE ≠ 1 →
    (gqNode = 0 → ∀ tx, ∃ t, Sys2Proof.Machine.exec (.tickTelegramTx tx) s = .next t ∧ t.gq.emit = none ∧
      t.rd OD.TICKS_UNSENT = min (s.rd OD.TICKS_UNSENT + 1) 0xFFFFFFFF ∧ t.rd OD.TICKS_SENT = s.rd OD.TICKS_SENT ∧ Keep [.od, .gq] s t) ∧
    let free := g.edge + 16 ≤ s.clk.now ∧ s.gq.idleAt + 26 ≤ s.clk.now ∧ s.gq.window ≤ s.clk.now
    (gqNode ≠ 0 → ¬free ∨ s.pow.sysref = false → ∀ tx, Sys2Proof.Machine.exec (.tickTelegramTx tx) s = .next s) ∧
    (gqNode ≠ 0 → free → s.clk.now ≤ g.edge + 640 → s.pow.sysref = true →
      ∃ t, Sys2Proof.Machine.exec (.tickTelegramTx .sent) s = .next t ∧ Keep [.od, .gq] s t ∧
        t.rd OD.TICKS_SENT = min (s.rd OD.TICKS_SENT + 1) 0xFFFFFFFF ∧
          t.rd OD.TX_TELEGRAMS = min (s.rd OD.TX_TELEGRAMS + 1) 0xFFFFFFFF ∧ t.gq.emit = none ∧ t.gq.idleAt = s.clk.now + 138 ∧
          t.gq.tx = withCrc (gqHeader 2 0 0 8 ++ leBytes 4 g.epoch ++ leBytes 1 (b2n g.synth) ++ leBytes 2 (s.clk.now - g.edge) ++ leBytes 1 0)) ∧
    (s.clk.now ≤ g.edge + 640 → Sys2Proof.Machine.exec .tickTelegramAbandon s =
      .next (if gqNode = 0 then (s.bump OD.TICKS_UNSENT).setGq { s.gq with emit := none } else s)) ∧
    (g.edge + 640 < s.clk.now → Sys2Proof.Machine.exec .tickTelegramAbandon s =
      .next ((s.bump OD.TICKS_UNSENT).setGq { s.gq with emit := none }))) ∧
  (∀ (g : Telegram) (tx : TxEnd) (s : State),
    (s.pow.vaon = false → Sys2Proof.Machine.exec (.gqRequest g tx) s = .next s) ∧
    (s.pow.vaon = true → g.ok = false ∨ g.ty ≠ 0 → Sys2Proof.Machine.exec (.gqRequest g tx) s = .next (s.gqReceive g)) ∧
    (s.pow.vaon = true → g.ok = true → g.ty = 0 → let u := s.gqReceive g
      Sys2Proof.Machine.exec (.gqRequest g tx) s = .next (
        if g.dest = 0 then (if g.kind = 0 ∧ g.wr then (u.gqServe g).2 else u.gqCount OD.RX_DISCARDS)
        else if g.dest = gqNode then u.openWindow.gqUnicast g tx else u.openWindow))) ∧
  (∀ (g : Telegram) (tx : TxEnd) (s : State),
    (s.rd OD.RESET_STATE ≠ 0 ∨ s.pow.sysref = false → s.gqUnicast g tx = s) ∧
    (∀ e, s.rd OD.RESET_STATE = 0 → s.pow.sysref = true → Sparse.get (fun _ => none) s.gq.cache g.src = some e →
      e.seq = g.seq → e.crc = g.crc → s.gqUnicast g tx = (s.bump OD.REPLAYS).gqAnswer g e.body tx) ∧
    (∀ r v, s.rd OD.RESET_STATE = 0 → s.pow.sysref = true → Sparse.get (fun _ => none) s.gq.cache g.src = none →
      s.gqAccess g = (r, v) → s.gqUnicast g tx = (v.setResp .gq r).gqAnswer g
        (leBytes 2 r.code ++ leBytes 1 (if r.bytes = [] then 0 else b2n r.toggle + 2 * b2n r.last) ++ leBytes 1 0 ++ gqData g r) tx)) ∧
  (∀ (g : Telegram) (body : List Byte) (s : State), s.rd OD.GQ_MODE ≠ 1 →
    let t := s.gqAnswer g body .sent
    t.gq.tx = withCrc (gqHeader 1 g.src g.seq body.length ++ body) ∧
    Sparse.get (fun _ => none) t.gq.cache g.src = some ⟨g.seq, g.crc, body⟩ ∧
    (∀ a, a ≠ g.src → Sparse.get (fun _ => none) t.gq.cache a = Sparse.get (fun _ => none) s.gq.cache a) ∧
    t.gq.idleAt = s.clk.now + 90 + 8 * body.length ∧ t.gq.window = s.clk.now ∧
    t.rd OD.TX_TELEGRAMS = min (s.rd OD.TX_TELEGRAMS + 1) 0xFFFFFFFF ∧ s.SameBut t [OD.TX_TELEGRAMS] ∧ Keep [.od, .gq] s t) ∧
  (∀ (g : Telegram) (body : List Byte) (tx : TxEnd) (s : State), s.rd OD.GQ_MODE = 1 → s.gqAnswer g body tx = s)

/-- Boot and the persist store (R902 to R905, R908 to R911, R924, R926): the choice of firmware slots, the end of a verification, what
running firmware sets, how a commit ends and which flash it writes, and the module's start when VAON is valid. -/
def Obligations.FirmwareBootsAndPersists : Prop :=
  (∀ s : State, (s.powered 1 = true → s.boot.phase = .idle → s.boot.life ≠ Life.retired → s.rd OD.RESET_STATE = 0 ∨ s.rd OD.RESET_STATE = 4 →
    ∃ t, Sys2Proof.Machine.exec .firmwareBoot s = .next t ∧
      t.rd OD.BOOT_STATUS = s.headerCode (s.slotHeader 0) + 256 * s.headerCode (s.slotHeader 1) ∧ t.newels = [] ∧
      (let slots := (if (fwHeader (s.slotHeader 0)).version < (fwHeader (s.slotHeader 1)).version then [1, 0] else [0, 1]).filter
        (fun k => decide (s.headerCode (s.slotHeader k) = 0))
       if slots = [] then t.boot.phase = .gaveUp ∧
          t.rd (OD.CLASS_COUNTS FaultClass.device) = min (s.rd (OD.CLASS_COUNTS FaultClass.device) + 1) 0xFFFFFFFF
        else t.boot = { s.boot with phase := .verify slots } ∧ s.SameBut t [OD.BOOT_STATUS]) ∧
      Keep [.od, .host, .falt, .newels, .pow, .boot] s t) ∧
    (s.powered 1 = false ∨ s.boot.life = Life.retired ∨ s.boot.phase ≠ .idle → Sys2Proof.Machine.exec .firmwareBoot s = .next s)) ∧
  (∀ (k : Nat) (rest : List Nat) (s : State), s.boot.phase = .verify (k :: rest) →
    ∃ t, Sys2Proof.Machine.exec .firmwareVerifyDone s = .next t ∧
      (if s.slotVerifies k then
        t.boot = { s.boot with phase := .released k } ∧ t.newel 0 = { pc := (fwHeader (s.slotHeader k)).entry } ∧
        t.rd OD.BOOT_STATUS = (s.setBootCode k 1).rd OD.BOOT_STATUS ∧ s.SameBut t [OD.BOOT_STATUS] ∧ Keep [.od, .newels, .boot] s t
       else
        t.boot = { s.boot with phase := if rest = [] then .gaveUp else .verify rest } ∧
        t.rd OD.SIG_FAILS = min (s.rd OD.SIG_FAILS + 1) 0xFFFFFFFF ∧
        t.rd OD.BOOT_STATUS = (s.setBootCode k 6).rd OD.BOOT_STATUS ∧
        t.rd (OD.CLASS_COUNTS FaultClass.corrected) = min (s.rd (OD.CLASS_COUNTS FaultClass.corrected) + 1) 0xFFFFFFFF ∧
        Keep [.od, .host, .falt, .pow, .boot] s t)) ∧
  (∀ (k : Nat) (s : State), s.boot.phase = .released k →
    (s.powered 1 = true → (s.newel 0).halted = false → ∃ t, Sys2Proof.Machine.exec .firmwareRunning s = .next t ∧
      t.rd OD.FW_VERSION = (fwHeader (s.slotHeader k)).version ∧ t.rd OD.FW_SLOT = k + 1 ∧
      t.boot = { s.boot with phase := .running, runKey := some (fwHeader (s.slotHeader k)).key,
                             runEpoch := (fwHeader (s.slotHeader k)).epoch } ∧
      t.dmem.noTable = (s.dmem.noTable || !(s.tableOk 0x10000 || s.tableOk 0x20000)) ∧
      Keep [.od, .host, .falt, .dmem, .pow, .boot] s t) ∧
    (s.powered 1 = false ∨ (s.newel 0).halted = true → Sys2Proof.Machine.exec .firmwareRunning s = .next s)) ∧
  (∀ (res : CommitEnd) (s : State), s.rd OD.PERSIST_STATE ≠ 2 → Sys2Proof.Machine.exec (.persistCommitDone res) s = .next s) ∧
  (∀ s : State, s.rd OD.PERSIST_STATE = 2 →
    (∃ t, Sys2Proof.Machine.exec (.persistCommitDone .ok) s = .next t ∧
      t.rd OD.PERSIST_STATE = 1 ∧ t.rd OD.PERSIST_BANK = s.boot.bank + 1 ∧ t.rd OD.PERSIST_RESULT = 1 ∧
      t.rd OD.PERSIST_GENERATION = (if s.rd OD.PERSIST_BANK = 0 then 1 else (s.rd OD.PERSIST_GENERATION + 1) % 2 ^ 32) ∧
      t.rd OD.PERSIST_COMMITS = (s.rd OD.PERSIST_COMMITS + 1) % 2 ^ 32 ∧ t.boot.snap = [] ∧
      ((∀ n, (Sparse.get (fun _ => []) s.boot.snap (OD.PERSIST_ENTRY n)).length ≤ 4096) →
        ∀ a, a < bankBase s.boot.bank ∨ bankBase s.boot.bank + 0x100000 ≤ a → t.flashByte a = s.flashByte a) ∧
      s.SameBut t [OD.PERSIST_STATE, OD.PERSIST_BANK, OD.PERSIST_RESULT, OD.PERSIST_GENERATION, OD.PERSIST_COMMITS] ∧
      Keep [.od, .boot] s t) ∧
    (∀ res, res ≠ CommitEnd.ok → ∃ t, Sys2Proof.Machine.exec (.persistCommitDone res) s = .next t ∧
      t.rd OD.PERSIST_RESULT = (if res = .flashError then 2 else 3) ∧ t.rd OD.PERSIST_DIRTY = 1 ∧
      t.rd OD.PERSIST_STATE = (if s.rd OD.PERSIST_BANK = 0 then 0 else 1) ∧ t.rd OD.PERSIST_BANK = s.rd OD.PERSIST_BANK ∧
      t.rd (OD.CLASS_COUNTS FaultClass.corrected) = min (s.rd (OD.CLASS_COUNTS FaultClass.corrected) + 1) 0xFFFFFFFF ∧
      t.boot = { s.boot with snap := [] } ∧ Keep [.od, .host, .falt, .boot] s t)) ∧
  (∀ s : State, (s.pow.vaon = true → Sys2Proof.Machine.exec .vaonValid s = .next s) ∧
    (s.pow.vaon = false → ∃ t, Sys2Proof.Machine.exec .vaonValid s = .next t ∧ t.pow.vaon = true ∧ t.boot = s.boot ∧
      (match s.chooseBank with
        | none => t.rd OD.PERSIST_STATE = s.rd OD.PERSIST_STATE ∧
            t.rd (OD.CLASS_COUNTS FaultClass.corrected) = min (s.rd (OD.CLASS_COUNTS FaultClass.corrected) + 1) 0xFFFFFFFF
        | some b => t.rd OD.PERSIST_STATE = 1 ∧ t.rd OD.PERSIST_BANK = b + 1 ∧ t.rd OD.PERSIST_GENERATION = s.bankGen b ∧
            ∀ n, n < 32 → t.rdBytes (OD.PERSIST_ENTRY n) = s.bankData b n) ∧
      (s.pow.await = true → s.pow.vin = true → s.boot.life ≠ 3 →
        let c := s.cmdTarget (s.rd OD.POWERUP_TARGET)
        t.rd OD.DOMAIN_REQ = c.1 ∧ t.rd OD.GATE = c.2) ∧
      Keep [.od, .odb, .host, .falt, .pow] s t))

/-- Flash, fuses and the calendar (R891, R899 to R901, R912, R914, R924, R925, R986): what the end of a flash order and of a burn leave,
how the calendar steps, and what the loss of VAON takes. -/
def Obligations.FlashFusesAndTheCalendar : Prop :=
  (∀ s : State, (s.boot.op = none → Sys2Proof.Machine.exec .flashOpDone s = .next s) ∧
    (∀ x, s.boot.op = some x → ∃ t, Sys2Proof.Machine.exec .flashOpDone s = .next t ∧ t.rd OD.FLASH_STATE = 0 ∧ t.boot.op = none ∧
      (∀ a, t.flashByte a = match x with
        | .program off bs => if off ≤ a ∧ a < off + bs.length then s.flashByte a &&& bs.getD (a - off) 0#8 else s.flashByte a
        | .erase off => if off ≤ a ∧ a < off + 65536 then 0xFF#8 else s.flashByte a) ∧
      t.boot = { s.boot with op := none, flash := t.boot.flash, offFlash := t.boot.offFlash } ∧
      s.SameBut t [OD.FLASH_STATE] ∧ Keep [.od, .boot] s t)) ∧
  (∀ s : State, (s.boot.burn = none → Sys2Proof.Machine.exec .fuseBurnDone s = .next s) ∧
    (∀ old, s.boot.burn = some (.life old) → Sys2Proof.Machine.exec .fuseBurnDone s = .next (s.setBoot { s.boot with burn := none })) ∧
    (∀ v, s.boot.burn = some (.floor v) → Sys2Proof.Machine.exec .fuseBurnDone s =
      .next (s.setBoot { s.boot with burn := none, floor := v })) ∧
    (∀ k x, (∃ usage point, s.boot.burn = some (.key k usage point) ∧ x = ({ usage := usage, point := point, valid := true } : KeySlot)) ∨
        (s.boot.burn = some (.revoke k) ∧ x = { s.keySlot k with revoked := true }) →
      ∃ t, Sys2Proof.Machine.exec .fuseBurnDone s = .next t ∧ t.keySlot k = x ∧ (∀ j, j ≠ k → t.keySlot j = s.keySlot j) ∧
        t.boot = { s.boot with burn := none, keys := t.boot.keys } ∧ Keep [.boot] s t)) ∧
  (∀ s : State,
    (s.pow.vaon = false ∨ s.lfNow < s.boot.secStart + s.boot.secLen → Sys2Proof.Machine.exec .calendarSecond s = .next s) ∧
    (s.pow.vaon = true → s.boot.secStart + s.boot.secLen ≤ s.lfNow → ∃ t, Sys2Proof.Machine.exec .calendarSecond s = .next t ∧
      t.boot = { s.boot with
        secStart := s.boot.secStart + s.boot.secLen, group := (s.boot.group + 1) % 32,
        secLen := if (s.boot.group + 1) % 32 = 0 then s.trimmedSecond else 32768 } ∧
      t.rd OD.CAL_NOW = (if bit (s.rd OD.CAL_STATE) 1 ∨ s.rd OD.CAL_NOW = dateEnd then s.rd OD.CAL_NOW else nextDate (s.rd OD.CAL_NOW)) ∧
      (bit (s.rd OD.CAL_STATE) 1 = false → s.rd OD.CAL_NOW = dateEnd → bit (t.rd OD.CAL_STATE) 1 = true) ∧
      (if s.flag OD.ALARM_ENABLE = true ∧ dateOrder (s.rd OD.CAL_ALARM) ≤ dateOrder (t.rd OD.CAL_NOW) then
          t.rd OD.ALARM_ENABLE = 0 ∧ bit (t.rd OD.CAL_STATE) 2 = true ∧
            (bit (s.rd OD.POWR_WAKE_ENABLE) 3 = true → bit (t.rd OD.WAKE_SOURCE) 3 = true)
        else s.SameBut t [OD.CAL_NOW, OD.CAL_STATE] ∧ t.pow = s.pow ∧ t.host = s.host) ∧
      Keep [.od, .host, .pow, .boot] s t)) ∧
  (∀ s : State, ∃ t, Sys2Proof.Machine.exec .vaonLoss s = .next t ∧
    t.pow.vaon = false ∧ t.pow.vin = s.pow.vin ∧ t.od = [] ∧ t.odb = [] ∧ t.falt = State.reset.falt ∧ t.flit = State.reset.flit ∧
    t.land = State.reset.land ∧ t.mem = State.reset.mem ∧ t.cores = State.reset.cores ∧ t.tick = State.reset.tick ∧ t.dict = State.reset.dict ∧
    t.host.mem = s.host.mem ∧ t.pending = s.pending ∧ t.clk.now = s.clk.now ∧
    t.boot.burn = none ∧ t.boot.op = none ∧ t.boot.phase = .idle ∧
    (s.boot.burn = none → t.boot.life = s.boot.life ∧ t.boot.floor = s.boot.floor ∧ t.boot.keys = s.boot.keys) ∧
    (∀ old, s.boot.burn = some (.life old) → t.boot.life = s.boot.life ∨ t.boot.life = old) ∧
    (∀ f, s.boot.burn = some (.floor f) → t.boot.floor = s.boot.floor ∨ t.boot.floor = f) ∧
    (∀ k, s.boot.burn = some (.revoke k) → t.keySlot k = s.keySlot k ∨ t.keySlot k = { s.keySlot k with revoked := true }) ∧
    (∀ k u p, s.boot.burn = some (.key k u p) → (t.keySlot k).defect = true ∧ (t.keySlot k).valid = false) ∧
    (s.boot.op = none → t.boot.flash = s.boot.flash ∧ t.boot.offFlash = s.boot.offFlash))

/-- The trace sink, the trace buffer's and the fault unit's errors, and the end of TICK_OUT's pulse (R19, R20, R939, R941 to R943, R970,
R1029): what each row leaves and changes. -/
def Obligations.TheTraceIsWrittenOut : Prop :=
  (∀ s : State, s.powered 27 = false ∨ s.trc.lines = [] → Sys2Proof.Machine.exec .sinkLineWrite s = .next s) ∧
  (∀ (s : State) (x : TraceLine) (xs : List TraceLine), s.powered 27 = true → s.trc.lines = x :: xs →
    let size := s.rd OD.SINK_SIZE
    let w := s.rd OD.SINK_WRITE
    let a := s.rd OD.SINK_BASE + w
    let full := s.rd OD.SINK_MODE = 1 ∧ (w + 64) % size = s.rd OD.SINK_READ % size
    (size = 0 ∨ full → ∃ t, Sys2Proof.Machine.exec .sinkLineWrite s = .next t ∧
      t.trc = { s.trc with lines := xs, lost := min (s.trc.lost + x.packets) 0xFFFFFFFF, lostTypes := Nat.lor s.trc.lostTypes x.types } ∧
      t.rd OD.LOST_PACKETS = min (s.rd OD.LOST_PACKETS + x.packets) 0xFFFFFFFF ∧ s.SameBut t [OD.LOST_PACKETS] ∧ Keep [.od, .trc] s t) ∧
    (size ≠ 0 → ¬ full → x.bytes.length = 64 → s.sinkBarred a = false → s.isMem s.traceAcc true a 64 → s.smooth →
      (∀ i, i < 64 → s.mark (a + i) ≠ 2) →
      ∃ t, Sys2Proof.Machine.exec .sinkLineWrite s = .next t ∧
        t.memBytes a 64 = x.bytes ∧ (∀ b, b < a ∨ a + 64 ≤ b → t.memByte b = s.memByte b) ∧
        t.rd OD.SINK_WRITE = (w + 64) % size ∧ t.trc = { s.trc with lines := xs, failed := false } ∧
        s.SameBut t [OD.SINK_WRITE, OD.TRC_EVENTS] ∧ Keep [.od, .host, .trc, .mem, .bal] s t) ∧
    (size ≠ 0 → ¬ full → x.bytes.length = 64 → s.sinkBarred a = true ∨ (∃ i, i < 64 ∧ s.place s.traceAcc true (a + i) = .bad) →
      ∃ t, Sys2Proof.Machine.exec .sinkLineWrite s = .next t ∧
        t.rd OD.SINK_WRITE = (w + 64) % size ∧ t.trc = { s.trc with lines := xs, failed := true } ∧
        t.rd OD.SINK_FAULTS = min (s.rd OD.SINK_FAULTS + 1) 0xFFFFFFFF ∧
        t.rd OD.LOST_PACKETS = min (s.rd OD.LOST_PACKETS + x.packets) 0xFFFFFFFF ∧ bit (t.rd OD.TRC_EVENTS) 2 = true ∧
        t.rd (OD.CLASS_COUNTS FaultClass.corrected) = (if s.trc.failed then s.rd (OD.CLASS_COUNTS FaultClass.corrected)
          else min (s.rd (OD.CLASS_COUNTS FaultClass.corrected) + 1) 0xFFFFFFFF) ∧
        Keep [.od, .host, .falt, .trc] s t)) ∧
  (∀ s : State,
    (s.powered 27 = false ∨ s.trc.line = [] ∨ s.clk.now < s.trc.openSince + usEdges 100 →
      Sys2Proof.Machine.exec .lineFlushTimeout s = .next s) ∧
    (s.powered 27 = true → s.trc.line ≠ [] → s.trc.openSince + usEdges 100 ≤ s.clk.now →
      ∃ t, Sys2Proof.Machine.exec .lineFlushTimeout s = .next t ∧
        t.trc.lines = s.trc.lines ++ [⟨fitBytes 64 s.trc.line, s.trc.openPackets, s.trc.openTypes⟩] ∧ t.trc.line = [] ∧ Keep [.trc] s t)) ∧
  (∀ (fixed : Bool) (ty : Fin 16) (off : BitVec 14) (len : BitVec 5) (s : State), s.powered 27 = true →
    ∃ t, Sys2Proof.Machine.exec (.traceBufferEccError fixed ty off len) s = .next t ∧ Keep [.od, .host, .falt, .trc] s t ∧
      (fixed = true → t.trc = s.trc ∧
        t.rd (OD.CLASS_COUNTS FaultClass.corrected) = min (s.rd (OD.CLASS_COUNTS FaultClass.corrected) + 1) 0xFFFFFFFF) ∧
      (fixed = false → t.rd OD.LOST_PACKETS = min (s.rd OD.LOST_PACKETS + 1) 0xFFFFFFFF ∧
        t.trc = { s.trc.padAt off.toNat len.toNat with
          lost := min (s.trc.lost + 1) 0xFFFFFFFF
          lostTypes := Nat.lor s.trc.lostTypes (if eventType ty.val then 2 ^ lossBit ty.val else 0) } ∧ s.SameBut t [OD.LOST_PACKETS])) ∧
  (∀ (what : EccPlace) (s : State), Sys2Proof.Machine.exec (.faultLogEccError true what) s = .next s) ∧
  (∀ (n : Nat) (s : State), n < s.falt.log.length → ∃ t, Sys2Proof.Machine.exec (.faultLogEccError false (.record n)) s = .next t ∧
    t.falt = { s.falt with log := s.falt.log.eraseIdx n } ∧ t.rd OD.FAULTS_LOST = min (s.rd OD.FAULTS_LOST + 1) 0xFFFFFFFF ∧
    s.SameBut t [OD.FAULTS_LOST] ∧ Keep [.od, .falt] s t) ∧
  (∀ (n : Nat) (s : State), n < s.falt.lost.length → ∃ t, Sys2Proof.Machine.exec (.faultLogEccError false (.entry n)) s = .next t ∧
    t.falt = { s.falt with lost := s.falt.lost.eraseIdx n } ∧ t.rd OD.LOST_OVERFLOW = min (s.rd OD.LOST_OVERFLOW + 1) 0xFFFFFFFF ∧
    s.SameBut t [OD.LOST_OVERFLOW] ∧ Keep [.od, .falt] s t) ∧
  (∀ (slot : Fin 1024) (m : Mirror) (s : State), Sparse.get (fun _ => none) s.falt.mirror slot.val = some m →
    ∃ t, Sys2Proof.Machine.exec (.faultLogEccError false (.mirror slot)) s = .next t ∧
      Sparse.get (fun _ => none) t.falt.mirror slot.val =
        some { m with tag := 0xFFFFFFFF, ten := if (s.item slot.val).st = .free then m.ten else (s.item slot.val).ten } ∧
      (∀ j, j ≠ slot.val → Sparse.get (fun _ => none) t.falt.mirror j = Sparse.get (fun _ => none) s.falt.mirror j) ∧
      t.falt.log = s.falt.log ∧ t.falt.lost = s.falt.lost ∧ Keep [.falt] s t) ∧
  (∀ s : State, (∀ e, s.tick.outEnd = some e → e ≤ s.clk.now →
      Sys2Proof.Machine.exec .tickOutPulseEnd s = .next (s.setTick { s.tick with out := false, outEnd := none })) ∧
    (∀ e, s.tick.outEnd = some e → s.clk.now < e → Sys2Proof.Machine.exec .tickOutPulseEnd s = .next s) ∧
    (s.tick.outEnd = none → Sys2Proof.Machine.exec .tickOutPulseEnd s = .next s))

/-- The test access port (R945 to R947, R958, R963, R1002): which instruction comes into force, what the pins do when they come back from
boundary scan, and what TRST_N and the end of a session leave. -/
def Obligations.TheTestPortSelectsItsInstruction : Prop :=
  (∀ (i : Instr) (x : TapInstr) (s : State), (i, x) ∈ [(Instr.bypass, TapInstr.bypass), (.idcode, .idcode), (.extest, .extest),
      (.clamp, .clamp), (.highz, .highz), (.dap, .dap), (.testLogicReset, .idcode)] →
    (s.powered 27 = false → Sys2Proof.Machine.exec i s = .next s) ∧
    (s.powered 27 = true → ∃ t, Sys2Proof.Machine.exec i s = .next t ∧
      t.dbg = { s.dbg with tap := if x.needsFull = true ∧ s.dbgLevel < 2 then .bypass else x } ∧
      (if s.scanning = true ∧ t.scanning = false then
          (∀ g, g < 16 → t.pinSwitch g = some (s.clk.now, false)) ∧
          t.rd OD.PIN_SWITCHES = (if s.powered 1 then min (s.rd OD.PIN_SWITCHES + 16) 0xFFFFFFFF else s.rd OD.PIN_SWITCHES) ∧
          s.SameBut t [OD.PIN_SWITCHES]
        else t.pins = s.pins ∧ t.od = s.od) ∧ Keep [.od, .dbg, .pins] s t)) ∧
  (∀ (pins pre : BitVec 58) (s : State),
    (s.powered 27 = false → Sys2Proof.Machine.exec (.samplePreload pins pre) s = .next s) ∧
    (s.powered 27 = true → ∃ t, Sys2Proof.Machine.exec (.samplePreload pins pre) s = .next t ∧
      t.dbg = (if s.dbgLevel < 2 then { s.dbg with tap := .bypass }
        else { s.dbg with tap := .sample, sample := pins, preload := pre }) ∧ Keep [.od, .dbg, .pins] s t)) ∧
  (∀ s : State, (s.powered 27 = false → Sys2Proof.Machine.exec .trstNLow s = .next s) ∧
    (s.powered 27 = true → ∃ t, Sys2Proof.Machine.exec .trstNLow s = .next t ∧
      t.dbg.tap = .idcode ∧ t.dbg.waits = none ∧ t.rd OD.DBG_LEVEL = 0 ∧ t.rd OD.DBG_KEY_SLOT = 0xFF ∧
      Keep [.od, .host, .land, .flit, .falt, .trc, .cores, .newels, .clok, .ledg, .dbg, .pins] s t)) ∧
  (∀ s : State, (s.dapReady = true → ∃ t, Sys2Proof.Machine.exec .dapLock s = .next t ∧
      t.rd OD.DBG_LEVEL = 0 ∧ t.rd OD.DBG_KEY_SLOT = 0xFF ∧ t.dbg.tap = .dap ∧ t.dbg.waits = none ∧ t.dbg.status = Dap.ok ∧ t.dbg.data = 0) ∧
    (s.dapReady = false → Sys2Proof.Machine.exec .dapLock s = .next s) ∧ Sys2Proof.Machine.exec .dapNop s = .next s)

/-- The debug port's operations (R115, R443, R750, R948 to R962): when the port takes one, reads and writes, run control, the register
operations, and authentication. -/
def Obligations.TheDebugPortRunsItsOperations : Prop :=
  (∀ (quiet : Bool) (size : Fin 8) (a : BitVec 48) (d : Word) (agent : Fin 128) (sel : BitVec 16) (i : Instr) (n : Nat) (s : State),
    (i, n) ∈ [(Instr.dapRead quiet size a, if quiet then 1 else 2), (.dapWrite size a d, 2), (.dapHalt agent, 2), (.dapResume agent, 2),
      (.dapStep agent, 2), (.dapRegRead agent sel, 1), (.dapRegWrite agent sel d, 2)] →
    (s.dapReady = false → Sys2Proof.Machine.exec i s = .next s) ∧
    (s.dapReady = true → s.dbgLevel < n → Sys2Proof.Machine.exec i s = .next (s.dapResult Dap.denied 0))) ∧
  (∀ (quiet : Bool) (size : Fin 8) (a : BitVec 48) (d : Word) (s : State), let n := 2 ^ size.val
    s.dapReady = true → 2 ≤ s.dbgLevel →
    (4 ≤ size.val → Sys2Proof.Machine.exec (.dapRead quiet size a) s = .next (s.dapResult Dap.badOp 0) ∧
      Sys2Proof.Machine.exec (.dapWrite size a d) s = .next (s.dapResult Dap.badOp 0)) ∧
    (size.val < 4 → a.toNat % n ≠ 0 → inRegView a.toNat = false → Sys2Proof.Machine.exec (.dapRead quiet size a) s = .next (s.dapResult Dap.error 0) ∧
      Sys2Proof.Machine.exec (.dapWrite size a d) s = .next (s.dapResult Dap.error 0)) ∧
    (size.val < 4 → inRegView a.toNat = true →
        (∃ r u, s.expRead .dbg (regKey a.toNat) (regLen a.toNat n) (decide (a.toNat % 16 = 8)) quiet = (r, u) ∧
          Sys2Proof.Machine.exec (.dapRead quiet size a) s = .next (u.dapDict r)) ∧
        (∃ r u, s.expWrite .dbg (regKey a.toNat) (regLen a.toNat n) (d.toNat % 2 ^ (8 * n)) = (r, u) ∧
          Sys2Proof.Machine.exec (.dapWrite size a d) s = .next (u.dapDict { r with val := 0 }))) ∧
    (size.val < 4 → a.toNat % n = 0 →
      (inRegView a.toNat = false → inLandings a.toNat = true →
        let blocks := quiet = false ∧ n = 8 ∧ (a.toNat % 0x100 = 0x28 ∨ a.toNat % 0x100 = 0x48)
        (blocks → Sys2Proof.Machine.exec (.dapRead quiet size a) s = .next (s.dapResult Dap.error 0)) ∧
        (¬blocks → Sys2Proof.Machine.exec (.dapRead quiet size a) s =
          .next (s.dapLand a.toNat n (landLoad (a.toNat % 0x100) quiet))) ∧
        Sys2Proof.Machine.exec (.dapWrite size a d) s = .next (s.dapLand a.toNat n (landStore (a.toNat % 0x100) d))) ∧
      (inRegView a.toNat = false → inLandings a.toNat = false → s.isMem dbgAcc false a.toNat n → s.clean a.toNat n →
        ∃ b, let v : State := { s with bal := b }
          Sys2Proof.Machine.exec (.dapRead quiet size a) s = .next (
            if (s.firstSealed a.toNat n).isSome then (v.bump OD.SEAL_DENIALS).dapResult Dap.sealed 0
            else v.dapResult Dap.ok (ofLe (s.memBytes a.toNat n)))) ∧
      (inRegView a.toNat = false → inLandings a.toNat = false → s.isMem dbgAcc true a.toNat n → s.smooth →
        (∀ i, i < n → s.mark (a.toNat + i) ≠ 2) →
        ∃ u, s.Stored u a.toNat (leBytes n d.toNat) ∧ Sys2Proof.Machine.exec (.dapWrite size a d) s = .next (u.dapResult Dap.ok 0)))) ∧
  (∀ (agent : Fin 128) (s : State), let a := s.runAgent agent.val
    s.dapReady = true → 2 ≤ s.dbgLevel →
    (s.canHalt agent.val = false → ∀ i, i ∈ [Instr.dapHalt agent, .dapResume agent, .dapStep agent] →
      Sys2Proof.Machine.exec i s = .next (s.dapResult Dap.badAgent 0)) ∧
    (s.canHalt agent.val = true →
      (s.halted a = true → Sys2Proof.Machine.exec (.dapHalt agent) s = .next (s.dapResult Dap.ok 0)) ∧
      (s.halted a = false → a < 32 → Sys2Proof.Machine.exec (.dapHalt agent) s =
        .next ((s.setCore a { s.core a with haltReq := true }).dapWait a)) ∧
      (s.halted a = false → 32 ≤ a → Sys2Proof.Machine.exec (.dapHalt agent) s =
        .next ((s.setNewel (a - 32) { s.newel (a - 32) with haltReq := true }).dapWait a)) ∧
      Sys2Proof.Machine.exec (.dapResume agent) s = .next ((s.resumeAgent a).dapResult Dap.ok 0) ∧
      (s.halted a = false → Sys2Proof.Machine.exec (.dapStep agent) s = .next (s.dapResult Dap.notHalted 0)) ∧
      (s.halted a = true → a < 32 → Sys2Proof.Machine.exec (.dapStep agent) s = .next (s.stepCore a)) ∧
      (s.halted a = true → 32 ≤ a → Sys2Proof.Machine.exec (.dapStep agent) s = .next (s.stepNewel (a - 32))))) ∧
  (∀ (n : Nat) (s : State), (s.core n).st = .halted → (s.core n).stopped = false → (s.core n).grant = none →
    (s.resumeCore n).core n = { s.core n with
      st := if (s.runningOn n).isNone then .idle else if (s.core n).wasParked then .parked else .running, wasParked := false, stepping := false } ∧
    (∀ m, m ≠ n → (s.resumeCore n).core m = s.core m) ∧
    s.stepCore n = (if (s.core n).wasParked ∨ (s.runningOn n).isNone then s.dapResult Dap.ok 0
      else (s.setCore n { s.core n with stepping := true }).dapWait n)) ∧
  (∀ (agent : Fin 36) (s : State), let a := agent.val
    (a < 32 → (s.core a).haltReq = true → (s.core a).mmas = [] → ∃ t, Sys2Proof.Machine.exec (.haltTakesEffect agent) s = .next t ∧
      t.core a = { s.core a with st := .halted, wasParked := decide ((s.core a).st = .parked), haltReq := false, gated := true } ∧
      (∀ m, m ≠ a → t.core m = s.core m) ∧ Keep [.od, .host, .trc, .cores] s t) ∧
    (a < 32 → (s.core a).haltReq = false ∨ (s.core a).mmas ≠ [] → Sys2Proof.Machine.exec (.haltTakesEffect agent) s = .next s) ∧
    (32 ≤ a → (s.newel (a - 32)).haltReq = true → ∃ t, Sys2Proof.Machine.exec (.haltTakesEffect agent) s = .next t ∧
      (t.newel (a - 32)).halted = true ∧ (t.newel (a - 32)).haltReq = false ∧ Keep [.od, .host, .trc, .newels] s t) ∧
    (32 ≤ a → (s.newel (a - 32)).haltReq = false → Sys2Proof.Machine.exec (.haltTakesEffect agent) s = .next s)) ∧
  (∀ (agent : Fin 128) (sel : BitVec 16) (d : Word) (s : State), let a := agent.val; let k := sel.toNat
    s.dapReady = true → 2 ≤ s.dbgLevel →
    (s.canHalt a = true → s.halted (s.runAgent a) = true →
      ((if a < 32 then coreSel k else newelSel k) = true → Sys2Proof.Machine.exec (.dapRegRead agent sel) s = .next (
        if s.regsSealed a then (s.bump OD.SEAL_DENIALS).dapResult Dap.sealed 0
        else s.dapResult Dap.ok (if a < 32 then s.coreSelRead a k else s.newelSelRead (a - 32) k))) ∧
      (a < 32 → coreSelW k = true → Sys2Proof.Machine.exec (.dapRegWrite agent sel d) s =
        .next ((s.setCore a { s.core a with regw := (s.core a).regw ++ [(k, d.toNat)] }).dapResult Dap.ok 0)) ∧
      (32 ≤ a → newelSel k = true → k ≠ 0xA01 → Sys2Proof.Machine.exec (.dapRegWrite agent sel d) s =
        .next ((s.setNewel (a - 32) { s.newel (a - 32) with regw := (s.newel (a - 32)).regw ++ [(k, d.toNat)] }).dapResult Dap.ok 0)) ∧
      (a < 32 → k = 0 ∨ k = 0x900 ∨ k = 0xA01 ∨ 0x8000 ≤ k →
        Sys2Proof.Machine.exec (.dapRegWrite agent sel d) s = .next (s.dapResult Dap.badAgent 0)))) ∧
  (∀ (i : Fin 4) (s : State), s.dapReady = true →
    (s.flag OD.DBG_ALLOW = false → Sys2Proof.Machine.exec (.dapChallenge i) s = .next (s.dapResult Dap.denied 0)) ∧
    (s.flag OD.DBG_ALLOW = true → s.lockedOut = true → Sys2Proof.Machine.exec (.dapChallenge i) s = .next (s.dapResult Dap.busy 0)) ∧
    (s.flag OD.DBG_ALLOW = true → s.lockedOut = false → i.val ≠ 0 →
      Sys2Proof.Machine.exec (.dapChallenge i) s = .next (s.dapResult Dap.ok (s.dbg.nonce.getD i.val 0))) ∧
    (s.flag OD.DBG_ALLOW = true → s.lockedOut = false → i.val = 0 → ∃ t, Sys2Proof.Machine.exec (.dapChallenge i) s = .next t ∧
      t.dbg.nonce.length = 4 ∧ t.dbg.words = [] ∧ t.dbg.status = Dap.ok ∧ t.dbg.data = t.dbg.nonce.getD 0 0 ∧ Keep [.dbg] s t)) ∧
  (∀ (d : Word) (s : State), s.dapReady = true → let ws := s.dbg.words ++ [d.toNat]
    (ws.length = 1 → respondHead d.toNat = false → Sys2Proof.Machine.exec (.dapRespond d) s = .next s.authFails) ∧
    (ws.length ≠ 1 ∨ respondHead d.toNat = true →
      (ws.length < 13 → Sys2Proof.Machine.exec (.dapRespond d) s =
        .next (State.dapResult { s with dbg := { s.dbg with words := ws } } Dap.ok 0)) ∧
      (13 ≤ ws.length → Sys2Proof.Machine.exec (.dapRespond d) s = .next { s with dbg :=
        { s.dbg with words := [], nonce := [], auth := some (s.authOf ws), status := Dap.pending, data := 0, waits := none } }))) ∧
  (∀ s : State, (s.dbg.auth = none → Sys2Proof.Machine.exec .authVerifyDone s = .next s) ∧
    (∀ x, s.dbg.auth = some x → ∃ t, Sys2Proof.Machine.exec .authVerifyDone s = .next t ∧ t.dbg.auth = none ∧
      (if s.authGranted x then
        t.rd OD.DBG_LEVEL = x.level ∧ t.rd OD.DBG_KEY_SLOT = x.slot ∧ t.rd OD.DBG_SESSIONS = min (s.rd OD.DBG_SESSIONS + 1) 0xFFFFFFFF ∧
        t.rd OD.DEBUGGED = (if x.level = 2 ∧ s.boot.life = Life.secure then 1 else s.rd OD.DEBUGGED) ∧ t.dbg.status = Dap.ok ∧ Keep [.od, .dbg] s t
       else
        t.rd OD.AUTH_FAILS = min (s.rd OD.AUTH_FAILS + 1) 0xFFFFFFFF ∧ t.dbg.status = Dap.authFail ∧ t.dbg.lockout = some s.clk.now ∧
        t.dbg.nonce = [] ∧ t.rd OD.DBG_LEVEL = s.rd OD.DBG_LEVEL ∧
        t.rd (OD.CLASS_COUNTS FaultClass.corrected) = min (s.rd (OD.CLASS_COUNTS FaultClass.corrected) + 1) 0xFFFFFFFF ∧
        Keep [.od, .host, .falt, .dbg] s t)) ∧
    (s.lockedOut = true → Sys2Proof.Machine.exec .authLockoutEnd s = .next s) ∧
    (s.lockedOut = false → Sys2Proof.Machine.exec .authLockoutEnd s = .next { s with dbg := { s.dbg with lockout := none } }))

/-- Forms that complete with their own effect, each wherever its conditions hold (R150, R197, R215 for the link; R271, R272, R281, R287
for stages; R689, R699, R706, R708, R723 for the colonnade; R765, R774, R785, R786, R789 for DRAM; R803 to R806, R822, R834 for the GQ line; R875 and Table
POWR-7 for resets): linkUp, peRstNAssert, peRstNRelease, hotReset, linkDown, bmeClear, correctableLinkError, modRstNFullThreshold,
modRstNColdThreshold, modRstNRise, stageIssue, stageComplete, bgQuantumExpiry, netLoadDone, eventRoute, timestepMark,
colonnadeEccError, channelInitDone, trimApply, rowClose, channelPowerDownIdle, refresh, zqLatch, lineFaultDetect, polaritySwap,
probe, lineRecovery, masterTimeout, resetTakesHold, resetFillEnd, resetHoldEnd, resetDone and coldReset. -/
def Obligations.FormsCompleteWithTheirEffect : Prop :=
  (∀ (width speed : BitVec 8) (s : State), s.powered 26 = true → s.host.perstLow = false →
    ∃ t, Sys2Proof.Machine.exec (.linkUp width speed) s = .next t ∧ t.linkUp = true ∧ t.rd OD.LINK_WIDTH = width.toNat ∧
      t.rd OD.LINK_SPEED = speed.toNat ∧ t.pow.wakeLow = false) ∧
  (∀ s : State, s.powered 26 = true → s.scanning = false →
    (∃ t, Sys2Proof.Machine.exec .peRstNAssert s = .next t ∧ t.rd OD.LINK_STATE = 0 ∧ t.rd OD.LINK_WIDTH = 0 ∧
      t.rd OD.LINK_SPEED = 0 ∧ t.host.pf0 = {} ∧ t.host.pf1 = {} ∧ t.pow.reset ≠ none) ∧
    (s.linkUp = false → ∃ t, Sys2Proof.Machine.exec .peRstNRelease s = .next t ∧ t.rd OD.LINK_STATE = 1 ∧ t.host.perstLow = false)) ∧
  (∀ s : State, s.powered 26 = true → s.linkUp = true →
    (∃ t, Sys2Proof.Machine.exec .hotReset s = .next t ∧ t.rd OD.LINK_STATE = 1 ∧ t.host.pf0 = {} ∧ t.host.pf1 = {} ∧
      t.pow.reset ≠ none) ∧
    (∃ t, Sys2Proof.Machine.exec .linkDown s = .next t ∧ t.rd OD.LINK_STATE = 0 ∧ t.host.pf0 = {} ∧ t.host.pf1 = {} ∧
      t.pow.reset ≠ none)) ∧
  (∀ s : State, s.powered 26 = true → s.host.pf1.bme = true →
    (∀ i, i < 16 → (s.tenancy i).st ≠ .active ∧ (s.tenancy i).st ≠ .draining) →
    ∃ t, Sys2Proof.Machine.exec .bmeClear s = .next t ∧ t.host.pf1 = { s.host.pf1 with bme := false } ∧ t.od = s.od) ∧
  (∀ s : State, s.powered 26 = true →
    ∃ t, Sys2Proof.Machine.exec .correctableLinkError s = .next t ∧
      t.rd OD.CORR_ERRORS = min (s.rd OD.CORR_ERRORS + 1) 0xFFFFFFFF ∧
      t.rd (OD.CLASS_COUNTS FaultClass.corrected) = min (s.rd (OD.CLASS_COUNTS FaultClass.corrected) + 1) 0xFFFFFFFF) ∧
  (∀ s : State, s.scanning = false →
    (∃ t, Sys2Proof.Machine.exec .modRstNFullThreshold s = .next t ∧ t.pow.mod_ = .full ∧ t.pow.reset ≠ none) ∧
    (∃ t, Sys2Proof.Machine.exec .modRstNColdThreshold s = .next t ∧ t.pow.mod_ = .cold ∧ t.pow.cold = some s.clk.now)) ∧
  (∀ s : State, ∃ t, Sys2Proof.Machine.exec .modRstNRise s = .next t ∧ t.pow = { s.pow with mod_ := .high }) ∧
  (∀ (unit : UnitHeaders) (s : State) (e : Entry) (d : StageDef), s.nextIssue = some e → s.issueCause e = none →
    s.stageDef e = some d → e.engine < 36 →
    ∃ t, Sys2Proof.Machine.exec (.stageIssue unit) s = .next t ∧
      t.flit.entries = s.flit.entries.map (fun x => if x.same e then { x with st := .issued, issuedAt := s.clk.now } else x) ∧
      (e.engine < 32 → (t.core e.engine).st = .running) ∧
      (32 ≤ e.engine →
        (t.newel (e.engine - 32)).args = ((s.issuing e).entryRegs 0 { e with st := .issued, issuedAt := s.clk.now } d).filter
          (fun r => decide (r.1 ≠ 9 ∧ r.1 ≠ 10)))) ∧
  (∀ (a : Fin 70) (r : StageReport) (s : State) (e : Entry), (e.bg = true ∨ s.boundaryAhead = false) →
    (∃ x ∈ s.flit.entries, x.slot = e.slot ∧ x.same e = false) →
    (s.flit.entries.find? (fun x => x.st = .ended && x.engine = a.val) = some e →
      ∃ t, Sys2Proof.Machine.exec (.stageComplete a r) s = .next t ∧
        (t.item e.slot).outBytes = (s.item e.slot).outBytes + e.repBytes ∧
        t.flit.entries.map Entry.id = (s.flit.entries.filter (fun x => !(x.same e))).map Entry.id) ∧
    ((∀ x ∈ s.flit.entries, x.st = .ended → x.engine ≠ a.val) → 32 ≤ a.val → a.val < 36 → s.halted a.val = false →
      s.parkedAgent a.val = false → s.runningOn a.val = some e → r.shapes = [] →
      ∃ t, Sys2Proof.Machine.exec (.stageComplete a r) s = .next t ∧
        (t.item e.slot).outBytes = (s.item e.slot).outBytes + r.bytes.toNat ∧
        t.flit.entries.map Entry.id = (s.flit.entries.filter (fun x => !(x.same e))).map Entry.id)) ∧
  (∀ (a : Fin 70) (s : State) (e : Entry), s.runningOn a.val = some e → e.bg = true →
    e.issuedAt + usEdges (s.rd OD.BG_QUANTUM) < s.clk.now → (s.item e.slot).st = .running → (s.item e.slot).bg = true →
    ∃ v : State, Sys2Proof.Machine.exec (.bgQuantumExpiry a) s = .next (v.startBackground 1024) ∧
      (v.item e.slot).st = .stopping ∧ (v.item e.slot).status = Status.stageFault ∧ (v.item e.slot).faultStage = e.stage ∧
      (v.item e.slot).faultAgent = a.val ∧ (v.item e.slot).detail = faultDetail 7 e.run 0) ∧
  (∀ (src len : Nat) (c : Nat) (u s : State), s.coln.load = some (src, len) →
    (s.netCheck src len = (some c, u) → ∃ t, Sys2Proof.Machine.exec .netLoadDone s = .next t ∧ t.rd OD.NET_RESULT = c ∧
      t.rd OD.COL_STATE = 0 ∧ t.coln.load = none) ∧
    (s.netCheck src len = (none, u) → ∃ t, Sys2Proof.Machine.exec .netLoadDone s = .next t ∧ t.rd OD.NET_RESULT = 1 ∧
      t.rd OD.COL_STATE = 2 ∧ t.coln.load = none)) ∧
  (∀ (i : BitVec 32) (e : ColnEvent) (s : State), s.coln.mesh[i.toNat]? = some e →
    (s.routeFor e = none → ∃ t, Sys2Proof.Machine.exec (.eventRoute i) s = .next t ∧
      t.rd OD.ROUTE_MISSES = min (s.rd OD.ROUTE_MISSES + 1) 0xFFFFFFFF ∧ t.coln.mesh = dropAt s.coln.mesh i.toNat) ∧
    (∀ w, s.routeFor e = some w → bits w 56 5 = 0 → bit w 61 = true → s.coln.cfg.outEntries ≠ 0 →
      ∃ t, Sys2Proof.Machine.exec (.eventRoute i) s = .next t ∧ t.coln.mesh = dropAt s.coln.mesh i.toNat ∧
        t.coln.outq = s.coln.outq ++ [(e.at_, e.key)])) ∧
  (∀ s : State, s.ports.aud.markDue = true → s.powered 22 = false →
    ∃ t, Sys2Proof.Machine.exec .timestepMark s = .next t ∧ t.ports.aud.markDue = false ∧ t.ports.aud.block = [] ∧
      t.ports.aud.ready = some (s.ports.aud.block, s.tick.audio.toNat)) ∧
  (∀ s : State, s.ports.aud.markDue = true → s.powered 22 = true → s.rd OD.COL_STATE = 3 → s.flag OD.COL_RUN = false →
    ∃ t, Sys2Proof.Machine.exec .timestepMark s = .next t ∧ t.ports.aud.markDue = false ∧ t.rd OD.COL_STATE = 2) ∧
  (∀ (fixed : Bool) (what : ColnPlace) (s : State), s.powered 22 = true →
    ∃ t, Sys2Proof.Machine.exec (.colonnadeEccError fixed what) s = .next t ∧
      t.rd (if fixed then OD.SYN_CORRECTED else OD.SYN_UNCORR) =
        min (s.rd (if fixed then OD.SYN_CORRECTED else OD.SYN_UNCORR) + 1) 0xFFFFFFFF) ∧
  (∀ (ch : Fin 8) (ok : Bool) (s : State), s.rd (OD.CH_STATE ch) = ChSt.init →
    ∃ t, Sys2Proof.Machine.exec (.channelInitDone ch ok) s = .next t ∧
      t.rd (OD.CH_STATE ch) = (if ok then ChSt.active else ChSt.failed)) ∧
  (∀ (ch : Fin 8) (s : State), s.tick.st = .stopped → s.rd (OD.TRIM_ARM ch) = 1 → bit s.dmem.trimFresh ch = false →
    s.rd (OD.CH_STATE ch) = ChSt.active →
    ∃ t, Sys2Proof.Machine.exec (.trimApply ch) s = .next t ∧ t.rd (OD.TRIM_ARM ch) = 0 ∧
      ∀ i, i < 52 → t.rd (OD.LIVE_DELAY ch i) = s.rd (OD.SHADOW_DELAY ch i)) ∧
  (∀ (ch : Fin 8) (bank : Fin 16) (s : State), Sparse.get (fun _ => 0) s.dmem.used (ch.val * 16 + bank.val) + 4 ≤ s.clk.now →
    ∃ t, Sys2Proof.Machine.exec (.rowClose ch bank) s = .next t ∧
      Sparse.get (fun _ => 0) t.dmem.rows (ch.val * 16 + bank.val) = 0) ∧
  (∀ (ch : Fin 8) (s : State), s.rd (OD.CH_STATE ch) = ChSt.active →
    (Sparse.get (fun _ => 0) s.dmem.last ch.val + 50 ≤ s.clk.now →
      ∃ t, Sys2Proof.Machine.exec (.channelPowerDownIdle ch) s = .next t ∧ bit t.dmem.down ch = true) ∧
    (∀ bank : Fin 16, s.rtPanic = false → Sparse.get (fun _ => 0) s.dmem.rows (ch.val * 16 + bank.val) = 0 →
      ∃ t, Sys2Proof.Machine.exec (.refresh ch bank) s = .next t ∧
        Sparse.get (fun _ => 0) t.dmem.postponed (ch.val * 16 + bank.val) = 0) ∧
    (∃ t, Sys2Proof.Machine.exec (.zqLatch ch) s = .next t ∧ Sparse.get (fun _ => 0) t.dmem.zq ch.val = s.clk.now)) ∧
  (∀ (c : Fin 4) (s : State), bit (s.rd OD.LINE_NOW) c = false →
    ∃ t, Sys2Proof.Machine.exec (.lineFaultDetect c) s = .next t ∧ t.rd OD.GQ_MODE = 1 ∧
      t.rd OD.LINE_FAULTS = min (s.rd OD.LINE_FAULTS + 1) 0xFFFFFFFF ∧ bit (t.rd OD.LINE_NOW) c = true) ∧
  (∀ s : State, bits (s.rd OD.LINE_NOW) 1 3 = 0 → ∃ t, Sys2Proof.Machine.exec .polaritySwap s = .next t ∧
    t.rd OD.POLARITY = 1 - s.rd OD.POLARITY ∧ t.rd OD.POLARITY_SWAPS = min (s.rd OD.POLARITY_SWAPS + 1) 0xFFFFFFFF) ∧
  (∀ (found : BitVec 4) (s : State), s.rd OD.GQ_MODE ≠ 0 → s.gq.probe + 500000 ≤ s.clk.now →
    s.gq.idleAt + (52 + 2 * gqNode) ≤ s.clk.now → s.gq.window ≤ s.clk.now →
    ∃ t, Sys2Proof.Machine.exec (.probe found) s = .next t ∧ t.gq.probe = s.clk.now ∧ t.gq.idleAt = s.clk.now ∧
      ∀ c, c < 4 → bit (t.rd OD.LINE_NOW) c = found.getLsbD c) ∧
  (∀ s : State, s.rd OD.GQ_MODE ≠ 0 → s.rd OD.LINE_NOW = 0 → s.gq.clear + 50000 ≤ s.clk.now →
    ∃ t, Sys2Proof.Machine.exec .lineRecovery s = .next t ∧ t.rd OD.GQ_MODE = 0) ∧
  (∀ (m : GqMail) (at_ : Nat) (s : State), s.gq.mail = some m → m.sent = some at_ → at_ + 150 ≤ s.clk.now → 3 ≤ m.tries →
    ∃ t, Sys2Proof.Machine.exec .masterTimeout s = .next t ∧ t.rd OD.TIMEOUTS = min (s.rd OD.TIMEOUTS + 1) 0xFFFFFFFF ∧
      t.gq.mail = none ∧ t.rd OD.GQM_STATE = 3 ∧ t.rd OD.GQM_FAIL = 1) ∧
  (∀ (s : State) (r : ResetRun), s.pow.reset = some r →
    (s.rd OD.RESET_STATE = 1 → ∃ t, Sys2Proof.Machine.exec .resetTakesHold s = .next t ∧ t.rd OD.RESET_STATE = 2 ∧
      t.flit.slots = [] ∧ t.dict.staged = []) ∧
    (s.rd OD.RESET_STATE = 2 → ∃ t, Sys2Proof.Machine.exec .resetFillEnd s = .next t ∧ t.rd OD.RESET_STATE = 3 ∧
      ∀ a, t.memByte a = if s.ledg.fills.any (fun x => inRange x a) then 0#8 else s.memByte a) ∧
    (s.rd OD.RESET_STATE = 3 → s.pow.sysref = true → ∃ t, Sys2Proof.Machine.exec .resetHoldEnd s = .next t ∧
      t.rd OD.RESET_STATE = 4 ∧ t.rd OD.GATE = 1) ∧
    (s.rd OD.RESET_STATE = 4 → s.movingNow = false → ∃ t, Sys2Proof.Machine.exec .resetDone s = .next t ∧
      t.rd OD.RESET_STATE = 0 ∧ t.rd OD.RESET_CAUSE = r.cause ∧ t.pow.reset = none)) ∧
  (∀ (s : State) (t0 : Nat), s.pow.cold = some t0 → t0 + 500 ≤ s.clk.now →
    ∃ t, Sys2Proof.Machine.exec .coldReset s = .next t ∧ t.rd OD.RESET_CAUSE = 8 ∧ t.pow.cold = none ∧ t.pow.reset = none)
end

