-- ==== Sys2Proof/Laws/Sparse.lean ====
section
/-!
SUPPORT. The laws of sparse stores: what a key reads after a write or a clearing, and that both keep the canonical form.
-/

set_option Elab.async false

namespace Sys2Proof.Machine

section Sparse
variable {α : Type} [DecidableEq α] (d : Nat → α)

/-- A head entry that is canonical before everything in a store. -/
def Sparse.below (k : Nat) : Sparse α → Prop
  | [] => True
  | (k', _) :: _ => k < k'

theorem Sparse.wf_cons (k : Nat) (v : α) (m : Sparse α) :
    Sparse.wf d ((k, v) :: m) = true ↔ v ≠ d k ∧ Sparse.below k m ∧ Sparse.wf d m = true := by
  cases m with
  | nil => simp [Sparse.wf, Sparse.below]
  | cons e r => obtain ⟨k', v'⟩ := e; simp [Sparse.wf, Sparse.below, and_assoc]

omit [DecidableEq α] in
theorem Sparse.below_trans {j k : Nat} {m : Sparse α} (h : j ≤ k) (b : Sparse.below k m) : Sparse.below j m := by
  cases m with
  | nil => trivial
  | cons e r => exact Nat.lt_of_le_of_lt h b

theorem Sparse.wf_clear {m : Sparse α} (w : Sparse.wf d m = true) (p : Nat → Bool) :
    Sparse.wf d (Sparse.clear p m) = true := by
  have aux : ∀ m : Sparse α, Sparse.wf d m = true →
      Sparse.wf d (Sparse.clear p m) = true ∧ ∀ j, Sparse.below j m → Sparse.below j (Sparse.clear p m) := by
    intro m
    induction m with
    | nil => intro _; exact ⟨rfl, fun _ h => h⟩
    | cons e r ih =>
      obtain ⟨k', v'⟩ := e
      intro w
      have w' := (Sparse.wf_cons d k' v' r).1 w
      obtain ⟨i1, i2⟩ := ih w'.2.2
      by_cases hp : p k' = true
      · have e : Sparse.clear p ((k', v') :: r) = Sparse.clear p r := by simp [Sparse.clear, hp]
        rw [e]
        exact ⟨i1, fun j hj => i2 j (Sparse.below_trans (Nat.le_of_lt hj) w'.2.1)⟩
      · have e : Sparse.clear p ((k', v') :: r) = (k', v') :: Sparse.clear p r := by simp [Sparse.clear, hp]
        rw [e]
        exact ⟨(Sparse.wf_cons d ..).2 ⟨w'.1, i2 _ w'.2.1, i1⟩, fun j hj => hj⟩
  exact (aux m w).1

omit [DecidableEq α] in
theorem Sparse.below_insert {j k : Nat} {v : α} {m : Sparse α} (h : j < k) (b : Sparse.below j m) :
    Sparse.below j (Sparse.insert m k v) := by
  cases m with
  | nil => exact h
  | cons e r =>
    unfold Sparse.insert
    repeat' split
    · exact h
    · exact h
    · exact b

theorem Sparse.wf_insert {m : Sparse α} (w : Sparse.wf d m = true) {k : Nat} {v : α} (hv : v ≠ d k) :
    Sparse.wf d (Sparse.insert m k v) = true := by
  induction m with
  | nil => simp [Sparse.insert, Sparse.wf, hv]
  | cons e r ih =>
    obtain ⟨k', v'⟩ := e
    have w' := (Sparse.wf_cons d k' v' r).1 w
    unfold Sparse.insert
    repeat' split
    · exact (Sparse.wf_cons d ..).2 ⟨hv, by simpa [Sparse.below], w⟩
    · exact (Sparse.wf_cons d ..).2 ⟨hv, by simp_all, w'.2.2⟩
    · exact (Sparse.wf_cons d ..).2 ⟨w'.1, Sparse.below_insert (by omega) w'.2.1, ih w'.2.2⟩

/-- A write keeps the canonical form. -/
theorem Sparse.wf_put {m : Sparse α} (w : Sparse.wf d m = true) (k : Nat) (v : α) :
    Sparse.wf d (Sparse.put d m k v) = true := by
  unfold Sparse.put
  split
  · exact Sparse.wf_clear d w _
  · exact Sparse.wf_insert d w ‹_›

omit [DecidableEq α] in
/-- What a key reads after a clearing. -/
theorem Sparse.get_clear (p : Nat → Bool) (m : Sparse α) (j : Nat) :
    Sparse.get d (Sparse.clear p m) j = if p j then d j else Sparse.get d m j := by
  induction m with
  | nil => simp [Sparse.clear, Sparse.get]
  | cons e r ih =>
    obtain ⟨k', v'⟩ := e
    unfold Sparse.clear at ih ⊢
    by_cases hp : p k' = true
    · by_cases hj : j = k'
      · subst hj; simp [Sparse.get, hp, ih]
      · simp [Sparse.get, hp, ih, hj]
    · by_cases hj : j = k'
      · subst hj; simp [Sparse.get, hp]
      · simp [Sparse.get, hp, ih, hj]

omit [DecidableEq α] in
theorem Sparse.get_insert (m : Sparse α) (k j : Nat) (v : α) :
    Sparse.get d (Sparse.insert m k v) j = if j = k then v else Sparse.get d m j := by
  induction m with
  | nil => simp [Sparse.insert, Sparse.get]
  | cons e r ih =>
    obtain ⟨k', v'⟩ := e
    unfold Sparse.insert
    by_cases h1 : k < k'
    · simp [h1, Sparse.get]
    · by_cases h2 : k = k'
      · subst h2
        by_cases hj : j = k <;> simp [Sparse.get, hj]
      · simp only [h1, h2, if_false, Sparse.get, ih]
        by_cases hj : j = k
        · simp [hj, h2]
        · simp [hj]

/-- What a key reads after a write: the written value at that key, the old one elsewhere; of any store. -/
theorem Sparse.get_put (m : Sparse α) (k j : Nat) (v : α) :
    Sparse.get d (Sparse.put d m k v) j = if j = k then v else Sparse.get d m j := by
  unfold Sparse.put
  split
  · rw [Sparse.get_clear]
    by_cases hj : j = k
    · subst hj; simp_all
    · simp [hj]
  · exact Sparse.get_insert d m k j v

@[simp] theorem Sparse.get_put_same (m : Sparse α) (k : Nat) (v : α) : Sparse.get d (Sparse.put d m k v) k = v := by
  simp [Sparse.get_put]

@[simp] theorem Sparse.get_put_ne (m : Sparse α) {k j : Nat} (h : j ≠ k) (v : α) :
    Sparse.get d (Sparse.put d m k v) j = Sparse.get d m j := by
  simp [Sparse.get_put, h]

@[simp] theorem Sparse.get_nil (k : Nat) : Sparse.get d [] k = d k := rfl

end Sparse

end Sys2Proof.Machine
end

