-- ==== Sys2Proof/Laws/Keep.lean ====
section
/-!
SUPPORT. The updates that every operation is made of keep the machine well.
-/

set_option Elab.async false

namespace Sys2Proof.Machine

/-! ### Searches that leave no record

The proofs that an operation keeps the machine well are searches over its branches.
Each search runs as the side condition of one rewriting step (`Shown.eq`), because the elaborator holds a record of every
step of a tactic block until the whole text is compiled and none of a side condition's. -/

/-- A proposition as the one target of a rewriting step. -/
def Shown (P : Prop) : Prop := P

theorem Shown.out {P : Prop} (h : Shown P) : P := h

theorem Shown.eq {P : Prop} (h : P) : Shown P = True := eq_true h

/-! ### The updates -/

/-- The parts that an operation may touch are among those of a frame. -/
def Within (l fs : List Field) : Prop := ∀ f, f ∈ l → f ∈ fs

theorem within_self (l : List Field) : Within l l := fun _ h => h

theorem within_trans {a b fs : List Field} (k : Within b fs) (h : a.all (fun f => decide (f ∈ b)) = true) : Within a fs :=
  fun f hf => k f (by simpa using List.all_eq_true.1 h f hf)

theorem within_of {a fs : List Field} (h : a.all (fun f => decide (f ∈ fs)) = true) : Within a fs :=
  within_trans (within_self fs) h

theorem within_mem {f : Field} {b fs : List Field} (k : Within b fs) (h : f ∈ b) : f ∈ fs := k f h

theorem Keep.rfl' {fs : List Field} (s : State) : Keep fs s s :=
  ⟨rfl, rfl, id, id, Nat.le_refl _, fun f _ => by cases f <;> rfl⟩

theorem Field.same_trans {f : Field} {s t u : State} (h : f.same s t) (k : f.same t u) : f.same s u := by
  cases f <;> exact Eq.trans k h

theorem Keep.trans {fs : List Field} {s t u : State} (h : Keep fs s t) (k : Keep fs t u) : Keep fs s u :=
  ⟨k.pending.trans h.pending, k.now.trans h.now, fun c => k.canonical (h.canonical c),
   fun b => k.bounded (h.bounded b), Nat.le_trans h.free k.free, fun f hf => Field.same_trans (h.frame f hf) (k.frame f hf)⟩

/-- A frame may list more. -/
theorem Keep.mono {fs gs : List Field} {s t : State} (h : Keep fs s t) (hs : Within fs gs) : Keep gs s t :=
  ⟨h.pending, h.now, h.canonical, h.bounded, h.free, fun f hf => h.frame f (fun m => hf (hs f m))⟩

/-- A part outside the frame is the same. -/
theorem Keep.part {fs : List Field} {s t : State} (h : Keep fs s t) (f : Field) (hf : f ∉ fs := by decide) : f.same s t :=
  h.frame f hf

/-- One part alone differs. -/
theorem Field.same_of_ne {s t : State} {g : Field} {fs : List Field} (hg : g ∈ fs) (h : ∀ f, f ≠ g → f.same s t) :
    ∀ f, f ∉ fs → f.same s t := fun f hf => h f (fun e => hf (e ▸ hg))

theorem Keep.wr {fs : List Field} {s0 s : State} (h : Keep fs s0 s) (k v : Nat) (hf : Field.od ∈ fs := by first | exact within_mem ‹Within _ _› (by decide) | decide) : Keep fs s0 (s.wr k v) :=
  h.trans ⟨rfl, rfl, fun c => { c with od := Sparse.wf_put _ c.od k v }, fun b => ⟨b.log, b.lost⟩, Nat.le_refl _,
    Field.same_of_ne hf (fun f e => by cases f <;> first | rfl | exact absurd rfl e)⟩

theorem Keep.wrBytes {fs : List Field} {s0 s : State} (h : Keep fs s0 s) (k : Nat) (bs : List Byte) (hf : Field.odb ∈ fs := by first | exact within_mem ‹Within _ _› (by decide) | decide) :
    Keep fs s0 (s.wrBytes k bs) :=
  h.trans ⟨rfl, rfl, fun c => { c with odb := Sparse.wf_put _ c.odb k bs }, fun b => ⟨b.log, b.lost⟩, Nat.le_refl _,
    Field.same_of_ne hf (fun f e => by cases f <;> first | rfl | exact absurd rfl e)⟩

theorem lengthDrop (c : Nat) (l : List FaultRec) (h : ∃ r ∈ l, r.cls = c) : (dropOldest c l).length + 1 = l.length := by
  induction l with
  | nil => simp at h
  | cons r rs ih =>
    simp only [dropOldest]
    split
    · simp
    · simp only [List.length_cons]
      have : ∃ r ∈ rs, r.cls = c := by simp_all
      rw [ih this]

theorem lowestClass_mem : (l : List FaultRec) → l ≠ [] → ∃ r ∈ l, r.cls = lowestClass l
  | [], h => absurd rfl h
  | [r], _ => ⟨r, by simp, rfl⟩
  | r :: r' :: rs, _ => by
    obtain ⟨x, hx, e⟩ := lowestClass_mem (r' :: rs) (by simp)
    rcases Nat.le_total r.cls (lowestClass (r' :: rs)) with g | g
    · exact ⟨r, by simp, by simp only [lowestClass]; omega⟩
    · exact ⟨x, List.mem_cons_of_mem _ hx, by simp only [lowestClass]; omega⟩

theorem placeRec_length (r : FaultRec) (l : List FaultRec) : (placeRec r l).length = l.length + 1 := by
  induction l with
  | nil => rfl
  | cons x xs ih => unfold placeRec; split <;> simp [ih]

/-- The log stays within its 256 places (R1008, R1009). -/
theorem logInsert_length (l : List FaultRec) (r : FaultRec) (h : l.length ≤ 256) : (logInsert l r).1.length ≤ 256 := by
  unfold logInsert
  repeat' split
  · simp only [placeRec_length]; omega
  · have := lengthDrop _ l (lowestClass_mem l (by intro e; simp [e] at *))
    simp only [placeRec_length]; omega
  · exact h

/-- Parts replaced, none of them a store that the invariants speak of. -/
theorem Keep.upd {fs : List Field} {s0 t : State} (h : Keep fs s0 t)
    {clk dict tick host land flit falt trc cores newels arr bal ldr clok ports ledg vest vid coln dmem pow boot gq
    dbg pins}
    (hn : clk.now = t.clk.now) (hh : host.mem = t.host.mem) (hl : falt.log = t.falt.log) (hm : falt.lost = t.falt.lost)
    (o_clk : Field.clk ∉ fs → clk = t.clk := by first | exact fun h => absurd (within_mem ‹Within _ _› (by decide)) h | exact fun h => absurd (by decide) h | exact fun _ => rfl)
    (o_dict : Field.dict ∉ fs → dict = t.dict := by first | exact fun h => absurd (within_mem ‹Within _ _› (by decide)) h | exact fun h => absurd (by decide) h | exact fun _ => rfl)
    (o_tick : Field.tick ∉ fs → tick = t.tick := by first | exact fun h => absurd (within_mem ‹Within _ _› (by decide)) h | exact fun h => absurd (by decide) h | exact fun _ => rfl)
    (o_host : Field.host ∉ fs → host = t.host := by first | exact fun h => absurd (within_mem ‹Within _ _› (by decide)) h | exact fun h => absurd (by decide) h | exact fun _ => rfl)
    (o_land : Field.land ∉ fs → land = t.land := by first | exact fun h => absurd (within_mem ‹Within _ _› (by decide)) h | exact fun h => absurd (by decide) h | exact fun _ => rfl)
    (o_flit : Field.flit ∉ fs → flit = t.flit := by first | exact fun h => absurd (within_mem ‹Within _ _› (by decide)) h | exact fun h => absurd (by decide) h | exact fun _ => rfl)
    (o_falt : Field.falt ∉ fs → falt = t.falt := by first | exact fun h => absurd (within_mem ‹Within _ _› (by decide)) h | exact fun h => absurd (by decide) h | exact fun _ => rfl)
    (o_trc : Field.trc ∉ fs → trc = t.trc := by first | exact fun h => absurd (within_mem ‹Within _ _› (by decide)) h | exact fun h => absurd (by decide) h | exact fun _ => rfl)
    (o_cores : Field.cores ∉ fs → cores = t.cores := by first | exact fun h => absurd (within_mem ‹Within _ _› (by decide)) h | exact fun h => absurd (by decide) h | exact fun _ => rfl)
    (o_newels : Field.newels ∉ fs → newels = t.newels := by first | exact fun h => absurd (within_mem ‹Within _ _› (by decide)) h | exact fun h => absurd (by decide) h | exact fun _ => rfl)
    (o_arr : Field.arr ∉ fs → arr = t.arr := by first | exact fun h => absurd (within_mem ‹Within _ _› (by decide)) h | exact fun h => absurd (by decide) h | exact fun _ => rfl)
    (o_bal : Field.bal ∉ fs → bal = t.bal := by first | exact fun h => absurd (within_mem ‹Within _ _› (by decide)) h | exact fun h => absurd (by decide) h | exact fun _ => rfl)
    (o_ldr : Field.ldr ∉ fs → ldr = t.ldr := by first | exact fun h => absurd (within_mem ‹Within _ _› (by decide)) h | exact fun h => absurd (by decide) h | exact fun _ => rfl)
    (o_clok : Field.clok ∉ fs → clok = t.clok := by first | exact fun h => absurd (within_mem ‹Within _ _› (by decide)) h | exact fun h => absurd (by decide) h | exact fun _ => rfl)
    (o_ports : Field.ports ∉ fs → ports = t.ports := by first | exact fun h => absurd (within_mem ‹Within _ _› (by decide)) h | exact fun h => absurd (by decide) h | exact fun _ => rfl)
    (o_ledg : Field.ledg ∉ fs → ledg = t.ledg := by first | exact fun h => absurd (within_mem ‹Within _ _› (by decide)) h | exact fun h => absurd (by decide) h | exact fun _ => rfl)
    (o_vest : Field.vest ∉ fs → vest = t.vest := by first | exact fun h => absurd (within_mem ‹Within _ _› (by decide)) h | exact fun h => absurd (by decide) h | exact fun _ => rfl)
    (o_vid : Field.vid ∉ fs → vid = t.vid := by first | exact fun h => absurd (within_mem ‹Within _ _› (by decide)) h | exact fun h => absurd (by decide) h | exact fun _ => rfl)
    (o_coln : Field.coln ∉ fs → coln = t.coln := by first | exact fun h => absurd (within_mem ‹Within _ _› (by decide)) h | exact fun h => absurd (by decide) h | exact fun _ => rfl)
    (o_dmem : Field.dmem ∉ fs → dmem = t.dmem := by first | exact fun h => absurd (within_mem ‹Within _ _› (by decide)) h | exact fun h => absurd (by decide) h | exact fun _ => rfl)
    (o_pow : Field.pow ∉ fs → pow = t.pow := by first | exact fun h => absurd (within_mem ‹Within _ _› (by decide)) h | exact fun h => absurd (by decide) h | exact fun _ => rfl)
    (o_boot : Field.boot ∉ fs → boot = t.boot := by first | exact fun h => absurd (within_mem ‹Within _ _› (by decide)) h | exact fun h => absurd (by decide) h | exact fun _ => rfl)
    (o_gq : Field.gq ∉ fs → gq = t.gq := by first | exact fun h => absurd (within_mem ‹Within _ _› (by decide)) h | exact fun h => absurd (by decide) h | exact fun _ => rfl)
    (o_dbg : Field.dbg ∉ fs → dbg = t.dbg := by first | exact fun h => absurd (within_mem ‹Within _ _› (by decide)) h | exact fun h => absurd (by decide) h | exact fun _ => rfl)
    (o_pins : Field.pins ∉ fs → pins = t.pins := by first | exact fun h => absurd (within_mem ‹Within _ _› (by decide)) h | exact fun h => absurd (by decide) h | exact fun _ => rfl) :
    Keep fs s0 ⟨t.pending, clk, t.od, t.odb, dict, tick, host, land, flit, falt, trc, cores, newels, arr, t.mem, bal, ldr,
      clok, ports, ledg, vest, vid, coln, dmem, pow, boot, gq, dbg, pins, t.free⟩ :=
  h.trans ⟨rfl, hn, fun c => ⟨c.od, c.odb, c.cells, c.marks, hh ▸ c.host⟩, fun b => ⟨hl ▸ b.log, hm ▸ b.lost⟩, Nat.le_refl _,
    fun f hf => by
      cases f
      case hostMem => exact hh
      case clk => exact o_clk hf
      case dict => exact o_dict hf
      case tick => exact o_tick hf
      case host => exact o_host hf
      case land => exact o_land hf
      case flit => exact o_flit hf
      case falt => exact o_falt hf
      case trc => exact o_trc hf
      case cores => exact o_cores hf
      case newels => exact o_newels hf
      case arr => exact o_arr hf
      case bal => exact o_bal hf
      case ldr => exact o_ldr hf
      case clok => exact o_clok hf
      case ports => exact o_ports hf
      case ledg => exact o_ledg hf
      case vest => exact o_vest hf
      case vid => exact o_vid hf
      case coln => exact o_coln hf
      case dmem => exact o_dmem hf
      case pow => exact o_pow hf
      case boot => exact o_boot hf
      case gq => exact o_gq hf
      case dbg => exact o_dbg hf
      case pins => exact o_pins hf
      all_goals rfl⟩

/-- The same, with free values drawn. -/
theorem Keep.draw {fs : List Field} {s0 t : State} (h : Keep fs s0 t)
    {clk dict tick host land flit falt trc cores newels arr bal ldr clok ports ledg vest vid coln dmem pow boot gq
    dbg pins} {n : Nat}
    (hn : clk.now = t.clk.now) (hh : host.mem = t.host.mem) (hl : falt.log = t.falt.log) (hm : falt.lost = t.falt.lost)
    (o_clk : Field.clk ∉ fs → clk = t.clk := by first | exact fun h => absurd (within_mem ‹Within _ _› (by decide)) h | exact fun h => absurd (by decide) h | exact fun _ => rfl)
    (o_dict : Field.dict ∉ fs → dict = t.dict := by first | exact fun h => absurd (within_mem ‹Within _ _› (by decide)) h | exact fun h => absurd (by decide) h | exact fun _ => rfl)
    (o_tick : Field.tick ∉ fs → tick = t.tick := by first | exact fun h => absurd (within_mem ‹Within _ _› (by decide)) h | exact fun h => absurd (by decide) h | exact fun _ => rfl)
    (o_host : Field.host ∉ fs → host = t.host := by first | exact fun h => absurd (within_mem ‹Within _ _› (by decide)) h | exact fun h => absurd (by decide) h | exact fun _ => rfl)
    (o_land : Field.land ∉ fs → land = t.land := by first | exact fun h => absurd (within_mem ‹Within _ _› (by decide)) h | exact fun h => absurd (by decide) h | exact fun _ => rfl)
    (o_flit : Field.flit ∉ fs → flit = t.flit := by first | exact fun h => absurd (within_mem ‹Within _ _› (by decide)) h | exact fun h => absurd (by decide) h | exact fun _ => rfl)
    (o_falt : Field.falt ∉ fs → falt = t.falt := by first | exact fun h => absurd (within_mem ‹Within _ _› (by decide)) h | exact fun h => absurd (by decide) h | exact fun _ => rfl)
    (o_trc : Field.trc ∉ fs → trc = t.trc := by first | exact fun h => absurd (within_mem ‹Within _ _› (by decide)) h | exact fun h => absurd (by decide) h | exact fun _ => rfl)
    (o_cores : Field.cores ∉ fs → cores = t.cores := by first | exact fun h => absurd (within_mem ‹Within _ _› (by decide)) h | exact fun h => absurd (by decide) h | exact fun _ => rfl)
    (o_newels : Field.newels ∉ fs → newels = t.newels := by first | exact fun h => absurd (within_mem ‹Within _ _› (by decide)) h | exact fun h => absurd (by decide) h | exact fun _ => rfl)
    (o_arr : Field.arr ∉ fs → arr = t.arr := by first | exact fun h => absurd (within_mem ‹Within _ _› (by decide)) h | exact fun h => absurd (by decide) h | exact fun _ => rfl)
    (o_bal : Field.bal ∉ fs → bal = t.bal := by first | exact fun h => absurd (within_mem ‹Within _ _› (by decide)) h | exact fun h => absurd (by decide) h | exact fun _ => rfl)
    (o_ldr : Field.ldr ∉ fs → ldr = t.ldr := by first | exact fun h => absurd (within_mem ‹Within _ _› (by decide)) h | exact fun h => absurd (by decide) h | exact fun _ => rfl)
    (o_clok : Field.clok ∉ fs → clok = t.clok := by first | exact fun h => absurd (within_mem ‹Within _ _› (by decide)) h | exact fun h => absurd (by decide) h | exact fun _ => rfl)
    (o_ports : Field.ports ∉ fs → ports = t.ports := by first | exact fun h => absurd (within_mem ‹Within _ _› (by decide)) h | exact fun h => absurd (by decide) h | exact fun _ => rfl)
    (o_ledg : Field.ledg ∉ fs → ledg = t.ledg := by first | exact fun h => absurd (within_mem ‹Within _ _› (by decide)) h | exact fun h => absurd (by decide) h | exact fun _ => rfl)
    (o_vest : Field.vest ∉ fs → vest = t.vest := by first | exact fun h => absurd (within_mem ‹Within _ _› (by decide)) h | exact fun h => absurd (by decide) h | exact fun _ => rfl)
    (o_vid : Field.vid ∉ fs → vid = t.vid := by first | exact fun h => absurd (within_mem ‹Within _ _› (by decide)) h | exact fun h => absurd (by decide) h | exact fun _ => rfl)
    (o_coln : Field.coln ∉ fs → coln = t.coln := by first | exact fun h => absurd (within_mem ‹Within _ _› (by decide)) h | exact fun h => absurd (by decide) h | exact fun _ => rfl)
    (o_dmem : Field.dmem ∉ fs → dmem = t.dmem := by first | exact fun h => absurd (within_mem ‹Within _ _› (by decide)) h | exact fun h => absurd (by decide) h | exact fun _ => rfl)
    (o_pow : Field.pow ∉ fs → pow = t.pow := by first | exact fun h => absurd (within_mem ‹Within _ _› (by decide)) h | exact fun h => absurd (by decide) h | exact fun _ => rfl)
    (o_boot : Field.boot ∉ fs → boot = t.boot := by first | exact fun h => absurd (within_mem ‹Within _ _› (by decide)) h | exact fun h => absurd (by decide) h | exact fun _ => rfl)
    (o_gq : Field.gq ∉ fs → gq = t.gq := by first | exact fun h => absurd (within_mem ‹Within _ _› (by decide)) h | exact fun h => absurd (by decide) h | exact fun _ => rfl)
    (o_dbg : Field.dbg ∉ fs → dbg = t.dbg := by first | exact fun h => absurd (within_mem ‹Within _ _› (by decide)) h | exact fun h => absurd (by decide) h | exact fun _ => rfl)
    (o_pins : Field.pins ∉ fs → pins = t.pins := by first | exact fun h => absurd (within_mem ‹Within _ _› (by decide)) h | exact fun h => absurd (by decide) h | exact fun _ => rfl) :
    Keep fs s0 ⟨t.pending, clk, t.od, t.odb, dict, tick, host, land, flit, falt, trc, cores, newels, arr, t.mem, bal, ldr,
      clok, ports, ledg, vest, vid, coln, dmem, pow, boot, gq, dbg, pins, t.free + n⟩ :=
  h.trans ⟨rfl, hn, fun c => ⟨c.od, c.odb, c.cells, c.marks, hh ▸ c.host⟩, fun b => ⟨hl ▸ b.log, hm ▸ b.lost⟩, Nat.le_add_right _ _,
    fun f hf => by
      cases f
      case hostMem => exact hh
      case clk => exact o_clk hf
      case dict => exact o_dict hf
      case tick => exact o_tick hf
      case host => exact o_host hf
      case land => exact o_land hf
      case flit => exact o_flit hf
      case falt => exact o_falt hf
      case trc => exact o_trc hf
      case cores => exact o_cores hf
      case newels => exact o_newels hf
      case arr => exact o_arr hf
      case bal => exact o_bal hf
      case ldr => exact o_ldr hf
      case clok => exact o_clok hf
      case ports => exact o_ports hf
      case ledg => exact o_ledg hf
      case vest => exact o_vest hf
      case vid => exact o_vid hf
      case coln => exact o_coln hf
      case dmem => exact o_dmem hf
      case pow => exact o_pow hf
      case boot => exact o_boot hf
      case gq => exact o_gq hf
      case dbg => exact o_dbg hf
      case pins => exact o_pins hf
      all_goals rfl⟩

/-- Any parts replaced. -/
theorem Keep.gen {fs : List Field} {s0 t : State} (h : Keep fs s0 t)
    {clk od odb dict tick host land flit falt trc cores newels arr mem bal ldr clok ports ledg vest vid coln dmem pow
    boot gq dbg pins} (hn : clk.now = t.clk.now)
    (ho : Sparse.wf odDefault t.od = true → Sparse.wf odDefault od = true)
    (hb : Sparse.wf (fun _ => []) t.odb = true → Sparse.wf (fun _ => []) odb = true)
    (hc : Sparse.wf (fun _ => 0#8) t.mem.cells = true → Sparse.wf (fun _ => 0#8) mem.cells = true)
    (hk : Sparse.wf (fun _ => 0) t.mem.marks = true → Sparse.wf (fun _ => 0) mem.marks = true)
    (hh : Sparse.wf (fun _ => 0#8) t.host.mem = true → Sparse.wf (fun _ => 0#8) host.mem = true)
    (hl : falt.log.length ≤ max 256 t.falt.log.length) (hm : falt.lost.length ≤ max 1024 t.falt.lost.length)
    (o_clk : Field.clk ∉ fs → clk = t.clk := by first | exact fun h => absurd (within_mem ‹Within _ _› (by decide)) h | exact fun h => absurd (by decide) h | exact fun _ => rfl)
    (o_od : Field.od ∉ fs → od = t.od := by first | exact fun h => absurd (within_mem ‹Within _ _› (by decide)) h | exact fun h => absurd (by decide) h | exact fun _ => rfl)
    (o_odb : Field.odb ∉ fs → odb = t.odb := by first | exact fun h => absurd (within_mem ‹Within _ _› (by decide)) h | exact fun h => absurd (by decide) h | exact fun _ => rfl)
    (o_dict : Field.dict ∉ fs → dict = t.dict := by first | exact fun h => absurd (within_mem ‹Within _ _› (by decide)) h | exact fun h => absurd (by decide) h | exact fun _ => rfl)
    (o_tick : Field.tick ∉ fs → tick = t.tick := by first | exact fun h => absurd (within_mem ‹Within _ _› (by decide)) h | exact fun h => absurd (by decide) h | exact fun _ => rfl)
    (o_host : Field.host ∉ fs → host = t.host := by first | exact fun h => absurd (within_mem ‹Within _ _› (by decide)) h | exact fun h => absurd (by decide) h | exact fun _ => rfl)
    (o_land : Field.land ∉ fs → land = t.land := by first | exact fun h => absurd (within_mem ‹Within _ _› (by decide)) h | exact fun h => absurd (by decide) h | exact fun _ => rfl)
    (o_flit : Field.flit ∉ fs → flit = t.flit := by first | exact fun h => absurd (within_mem ‹Within _ _› (by decide)) h | exact fun h => absurd (by decide) h | exact fun _ => rfl)
    (o_falt : Field.falt ∉ fs → falt = t.falt := by first | exact fun h => absurd (within_mem ‹Within _ _› (by decide)) h | exact fun h => absurd (by decide) h | exact fun _ => rfl)
    (o_trc : Field.trc ∉ fs → trc = t.trc := by first | exact fun h => absurd (within_mem ‹Within _ _› (by decide)) h | exact fun h => absurd (by decide) h | exact fun _ => rfl)
    (o_cores : Field.cores ∉ fs → cores = t.cores := by first | exact fun h => absurd (within_mem ‹Within _ _› (by decide)) h | exact fun h => absurd (by decide) h | exact fun _ => rfl)
    (o_newels : Field.newels ∉ fs → newels = t.newels := by first | exact fun h => absurd (within_mem ‹Within _ _› (by decide)) h | exact fun h => absurd (by decide) h | exact fun _ => rfl)
    (o_arr : Field.arr ∉ fs → arr = t.arr := by first | exact fun h => absurd (within_mem ‹Within _ _› (by decide)) h | exact fun h => absurd (by decide) h | exact fun _ => rfl)
    (o_mem : Field.mem ∉ fs → mem = t.mem := by first | exact fun h => absurd (within_mem ‹Within _ _› (by decide)) h | exact fun h => absurd (by decide) h | exact fun _ => rfl)
    (o_bal : Field.bal ∉ fs → bal = t.bal := by first | exact fun h => absurd (within_mem ‹Within _ _› (by decide)) h | exact fun h => absurd (by decide) h | exact fun _ => rfl)
    (o_ldr : Field.ldr ∉ fs → ldr = t.ldr := by first | exact fun h => absurd (within_mem ‹Within _ _› (by decide)) h | exact fun h => absurd (by decide) h | exact fun _ => rfl)
    (o_clok : Field.clok ∉ fs → clok = t.clok := by first | exact fun h => absurd (within_mem ‹Within _ _› (by decide)) h | exact fun h => absurd (by decide) h | exact fun _ => rfl)
    (o_ports : Field.ports ∉ fs → ports = t.ports := by first | exact fun h => absurd (within_mem ‹Within _ _› (by decide)) h | exact fun h => absurd (by decide) h | exact fun _ => rfl)
    (o_ledg : Field.ledg ∉ fs → ledg = t.ledg := by first | exact fun h => absurd (within_mem ‹Within _ _› (by decide)) h | exact fun h => absurd (by decide) h | exact fun _ => rfl)
    (o_vest : Field.vest ∉ fs → vest = t.vest := by first | exact fun h => absurd (within_mem ‹Within _ _› (by decide)) h | exact fun h => absurd (by decide) h | exact fun _ => rfl)
    (o_vid : Field.vid ∉ fs → vid = t.vid := by first | exact fun h => absurd (within_mem ‹Within _ _› (by decide)) h | exact fun h => absurd (by decide) h | exact fun _ => rfl)
    (o_coln : Field.coln ∉ fs → coln = t.coln := by first | exact fun h => absurd (within_mem ‹Within _ _› (by decide)) h | exact fun h => absurd (by decide) h | exact fun _ => rfl)
    (o_dmem : Field.dmem ∉ fs → dmem = t.dmem := by first | exact fun h => absurd (within_mem ‹Within _ _› (by decide)) h | exact fun h => absurd (by decide) h | exact fun _ => rfl)
    (o_pow : Field.pow ∉ fs → pow = t.pow := by first | exact fun h => absurd (within_mem ‹Within _ _› (by decide)) h | exact fun h => absurd (by decide) h | exact fun _ => rfl)
    (o_boot : Field.boot ∉ fs → boot = t.boot := by first | exact fun h => absurd (within_mem ‹Within _ _› (by decide)) h | exact fun h => absurd (by decide) h | exact fun _ => rfl)
    (o_gq : Field.gq ∉ fs → gq = t.gq := by first | exact fun h => absurd (within_mem ‹Within _ _› (by decide)) h | exact fun h => absurd (by decide) h | exact fun _ => rfl)
    (o_dbg : Field.dbg ∉ fs → dbg = t.dbg := by first | exact fun h => absurd (within_mem ‹Within _ _› (by decide)) h | exact fun h => absurd (by decide) h | exact fun _ => rfl)
    (o_pins : Field.pins ∉ fs → pins = t.pins := by first | exact fun h => absurd (within_mem ‹Within _ _› (by decide)) h | exact fun h => absurd (by decide) h | exact fun _ => rfl)
    (o_hostMem : Field.hostMem ∉ fs → host.mem = t.host.mem := by first | exact fun h => absurd (within_mem ‹Within _ _› (by decide)) h | exact fun h => absurd (by decide) h | exact fun _ => rfl) :
    Keep fs s0 ⟨t.pending, clk, od, odb, dict, tick, host, land, flit, falt, trc, cores, newels, arr, mem, bal, ldr, clok,
      ports, ledg, vest, vid, coln, dmem, pow, boot, gq, dbg, pins, t.free⟩ :=
  h.trans ⟨rfl, hn, fun c => ⟨ho c.od, hb c.odb, hc c.cells, hk c.marks, hh c.host⟩,
    fun b => ⟨by have := b.log; show falt.log.length ≤ 256; omega, by have := b.lost; show falt.lost.length ≤ 1024; omega⟩,
    Nat.le_refl _, fun f hf => by
      cases f
      case hostMem => exact o_hostMem hf
      case clk => exact o_clk hf
      case od => exact o_od hf
      case odb => exact o_odb hf
      case dict => exact o_dict hf
      case tick => exact o_tick hf
      case host => exact o_host hf
      case land => exact o_land hf
      case flit => exact o_flit hf
      case falt => exact o_falt hf
      case trc => exact o_trc hf
      case cores => exact o_cores hf
      case newels => exact o_newels hf
      case arr => exact o_arr hf
      case mem => exact o_mem hf
      case bal => exact o_bal hf
      case ldr => exact o_ldr hf
      case clok => exact o_clok hf
      case ports => exact o_ports hf
      case ledg => exact o_ledg hf
      case vest => exact o_vest hf
      case vid => exact o_vid hf
      case coln => exact o_coln hf
      case dmem => exact o_dmem hf
      case pow => exact o_pow hf
      case boot => exact o_boot hf
      case gq => exact o_gq hf
      case dbg => exact o_dbg hf
      case pins => exact o_pins hf⟩

theorem Keep.foldl {α : Type} {fs : List Field} {s0 : State} (f : State → α → State) (l : List α) (s : State)
    (hf : ∀ t a, Keep fs s0 t → Keep fs s0 (f t a)) (h : Keep fs s0 s) : Keep fs s0 (l.foldl f s) := by
  induction l generalizing s with
  | nil => exact h
  | cons a l ih => exact ih _ (hf _ _ h)

theorem Keep.foldN {fs : List Field} {s0 : State} (n : Nat) (f : State → Nat → State) (s : State)
    (hf : ∀ t a, Keep fs s0 t → Keep fs s0 (f t a)) (h : Keep fs s0 s) : Keep fs s0 (foldN n f s) :=
  Keep.foldl f _ s hf h

theorem Keep.ite {fs : List Field} {s0 a b : State} {c : Prop} [Decidable c] (ha : Keep fs s0 a) (hb : Keep fs s0 b) :
    Keep fs s0 (if c then a else b) := by
  split
  · exact ha
  · exact hb

theorem Keep.ofPair {α : Type} {fs : List Field} {s0 t : State} {p : α × State} {r : α} (e : p = (r, t)) (h : Keep fs s0 p.2) : Keep fs s0 t := by
  rw [e] at h
  exact h

theorem Keep.ofTriple {α β : Type} {fs : List Field} {s0 t : State} {p : α × β × State} {r : α} {r' : β} (e : p = (r, r', t))
    (h : Keep fs s0 p.2.2) : Keep fs s0 t := by
  rw [e] at h
  exact h

theorem Keep.foldlP {α β : Type} {fs : List Field} {s0 : State} (f : α × State → β → α × State) (l : List β) (p : α × State)
    (hf : ∀ p b, Keep fs s0 p.2 → Keep fs s0 (f p b).2) (h : Keep fs s0 p.2) : Keep fs s0 (l.foldl f p).2 := by
  induction l generalizing p with
  | nil => exact h
  | cons b l ih => exact ih _ (hf _ _ h)

theorem Keep.foldNP {α : Type} {fs : List Field} {s0 : State} (n : Nat) (f : α × State → Nat → α × State) (p : α × State)
    (hf : ∀ p b, Keep fs s0 p.2 → Keep fs s0 (f p b).2) (h : Keep fs s0 p.2) : Keep fs s0 (Sys2Proof.Machine.foldN n f p).2 :=
  Keep.foldlP f _ p hf h

theorem Keep.cells {fs : List Field} {s0 t : State} (h : Keep fs s0 t) (a : Nat) (b : Byte) (hf : Field.mem ∈ fs := by first | exact within_mem ‹Within _ _› (by decide) | decide) :
    Keep fs s0 { t with mem := { t.mem with cells := Sparse.put (fun _ => 0#8) t.mem.cells a b } } :=
  h.trans ⟨rfl, rfl, fun c => { c with cells := Sparse.wf_put _ c.cells a b }, fun b => ⟨b.log, b.lost⟩, Nat.le_refl _,
    Field.same_of_ne hf (fun f e => by cases f <;> first | rfl | exact absurd rfl e)⟩

theorem Keep.marks {fs : List Field} {s0 t : State} (h : Keep fs s0 t) (a m : Nat) (hf : Field.mem ∈ fs := by first | exact within_mem ‹Within _ _› (by decide) | decide) :
    Keep fs s0 { t with mem := { t.mem with marks := Sparse.put (fun _ => 0) t.mem.marks a m } } :=
  h.trans ⟨rfl, rfl, fun c => { c with marks := Sparse.wf_put _ c.marks a m }, fun b => ⟨b.log, b.lost⟩, Nat.le_refl _,
    Field.same_of_ne hf (fun f e => by cases f <;> first | rfl | exact absurd rfl e)⟩

theorem Keep.scrubbed {fs : List Field} {s0 t : State} (h : Keep fs s0 t) (l : List Nat) (hf : Field.mem ∈ fs := by first | exact within_mem ‹Within _ _› (by decide) | decide) :
    Keep fs s0 { t with mem := { t.mem with scrubbed := l } } :=
  h.trans ⟨rfl, rfl, fun c => { c with cells := c.cells, marks := c.marks }, fun b => ⟨b.log, b.lost⟩, Nat.le_refl _,
    Field.same_of_ne hf (fun f e => by cases f <;> first | rfl | exact absurd rfl e)⟩

theorem Keep.hostByte {fs : List Field} {s0 t : State} (h : Keep fs s0 t) (a : Nat) (b : Byte) (hf : Field.host ∈ fs := by first | exact within_mem ‹Within _ _› (by decide) | decide) (hf2 : Field.hostMem ∈ fs := by first | exact within_mem ‹Within _ _› (by decide) | decide) :
    Keep fs s0 { t with host := { t.host with mem := Sparse.put (fun _ => 0#8) t.host.mem a b } } :=
  h.trans ⟨rfl, rfl, fun c => { c with host := Sparse.wf_put _ c.host a b }, fun b => ⟨b.log, b.lost⟩, Nat.le_refl _,
    fun f h => by
      cases f
      case host => exact absurd hf h
      case hostMem => exact absurd hf2 h
      all_goals rfl⟩

theorem Keep.clearMem {fs : List Field} {s0 t : State} (h : Keep fs s0 t) (p q : Nat → Bool) (hf : Field.mem ∈ fs := by first | exact within_mem ‹Within _ _› (by decide) | decide) :
    Keep fs s0 { t with mem := { t.mem with cells := Sparse.clear p t.mem.cells, marks := Sparse.clear q t.mem.marks } } :=
  h.trans ⟨rfl, rfl, fun c => { c with cells := Sparse.wf_clear _ c.cells p, marks := Sparse.wf_clear _ c.marks q },
    fun b => ⟨b.log, b.lost⟩, Nat.le_refl _,
    Field.same_of_ne hf (fun f e => by cases f <;> first | rfl | exact absurd rfl e)⟩

theorem Keep.clearOd {fs : List Field} {s0 t : State} (h : Keep fs s0 t) (p q : Nat → Bool) (hf : Field.od ∈ fs := by first | exact within_mem ‹Within _ _› (by decide) | decide) (hf2 : Field.odb ∈ fs := by first | exact within_mem ‹Within _ _› (by decide) | decide) :
    Keep fs s0 { t with od := Sparse.clear p t.od, odb := Sparse.clear q t.odb } :=
  h.trans ⟨rfl, rfl, fun c => { c with od := Sparse.wf_clear _ c.od p, odb := Sparse.wf_clear _ c.odb q },
    fun b => ⟨b.log, b.lost⟩, Nat.le_refl _,
    fun f h => by
      cases f
      case od => exact absurd hf h
      case odb => exact absurd hf2 h
      all_goals rfl⟩

end Sys2Proof.Machine
end

