-- ==== Sys2Proof/Laws/State.lean ====
section
/-!
SUPPORT. What each named update of the state leaves untouched, one lemma per field and update.
-/

set_option Elab.async false

namespace Sys2Proof.Machine

variable (s : State)

section wr
variable (k v : Nat)
@[simp] theorem wr_pending : (s.wr k v).pending = s.pending := rfl
@[simp] theorem wr_clk : (s.wr k v).clk = s.clk := rfl
@[simp] theorem wr_odb : (s.wr k v).odb = s.odb := rfl
@[simp] theorem wr_dict : (s.wr k v).dict = s.dict := rfl
@[simp] theorem wr_tick : (s.wr k v).tick = s.tick := rfl
@[simp] theorem wr_host : (s.wr k v).host = s.host := rfl
@[simp] theorem wr_land : (s.wr k v).land = s.land := rfl
@[simp] theorem wr_flit : (s.wr k v).flit = s.flit := rfl
@[simp] theorem wr_falt : (s.wr k v).falt = s.falt := rfl
@[simp] theorem wr_trc : (s.wr k v).trc = s.trc := rfl
@[simp] theorem wr_cores : (s.wr k v).cores = s.cores := rfl
@[simp] theorem wr_newels : (s.wr k v).newels = s.newels := rfl
@[simp] theorem wr_arr : (s.wr k v).arr = s.arr := rfl
@[simp] theorem wr_mem : (s.wr k v).mem = s.mem := rfl
@[simp] theorem wr_bal : (s.wr k v).bal = s.bal := rfl
@[simp] theorem wr_ldr : (s.wr k v).ldr = s.ldr := rfl
@[simp] theorem wr_clok : (s.wr k v).clok = s.clok := rfl
@[simp] theorem wr_ports : (s.wr k v).ports = s.ports := rfl
@[simp] theorem wr_ledg : (s.wr k v).ledg = s.ledg := rfl
@[simp] theorem wr_vest : (s.wr k v).vest = s.vest := rfl
@[simp] theorem wr_vid : (s.wr k v).vid = s.vid := rfl
@[simp] theorem wr_coln : (s.wr k v).coln = s.coln := rfl
@[simp] theorem wr_dmem : (s.wr k v).dmem = s.dmem := rfl
@[simp] theorem wr_pow : (s.wr k v).pow = s.pow := rfl
@[simp] theorem wr_boot : (s.wr k v).boot = s.boot := rfl
@[simp] theorem wr_gq : (s.wr k v).gq = s.gq := rfl
@[simp] theorem wr_dbg : (s.wr k v).dbg = s.dbg := rfl
@[simp] theorem wr_pins : (s.wr k v).pins = s.pins := rfl
@[simp] theorem wr_free : (s.wr k v).free = s.free := rfl
end wr

section wrBytes
variable (k : Nat) (bs : List Byte)
@[simp] theorem wrBytes_pending : (s.wrBytes k bs).pending = s.pending := rfl
@[simp] theorem wrBytes_clk : (s.wrBytes k bs).clk = s.clk := rfl
@[simp] theorem wrBytes_od : (s.wrBytes k bs).od = s.od := rfl
@[simp] theorem wrBytes_dict : (s.wrBytes k bs).dict = s.dict := rfl
@[simp] theorem wrBytes_tick : (s.wrBytes k bs).tick = s.tick := rfl
@[simp] theorem wrBytes_host : (s.wrBytes k bs).host = s.host := rfl
@[simp] theorem wrBytes_land : (s.wrBytes k bs).land = s.land := rfl
@[simp] theorem wrBytes_flit : (s.wrBytes k bs).flit = s.flit := rfl
@[simp] theorem wrBytes_falt : (s.wrBytes k bs).falt = s.falt := rfl
@[simp] theorem wrBytes_trc : (s.wrBytes k bs).trc = s.trc := rfl
@[simp] theorem wrBytes_cores : (s.wrBytes k bs).cores = s.cores := rfl
@[simp] theorem wrBytes_newels : (s.wrBytes k bs).newels = s.newels := rfl
@[simp] theorem wrBytes_arr : (s.wrBytes k bs).arr = s.arr := rfl
@[simp] theorem wrBytes_mem : (s.wrBytes k bs).mem = s.mem := rfl
@[simp] theorem wrBytes_bal : (s.wrBytes k bs).bal = s.bal := rfl
@[simp] theorem wrBytes_ldr : (s.wrBytes k bs).ldr = s.ldr := rfl
@[simp] theorem wrBytes_clok : (s.wrBytes k bs).clok = s.clok := rfl
@[simp] theorem wrBytes_ports : (s.wrBytes k bs).ports = s.ports := rfl
@[simp] theorem wrBytes_ledg : (s.wrBytes k bs).ledg = s.ledg := rfl
@[simp] theorem wrBytes_vest : (s.wrBytes k bs).vest = s.vest := rfl
@[simp] theorem wrBytes_vid : (s.wrBytes k bs).vid = s.vid := rfl
@[simp] theorem wrBytes_coln : (s.wrBytes k bs).coln = s.coln := rfl
@[simp] theorem wrBytes_dmem : (s.wrBytes k bs).dmem = s.dmem := rfl
@[simp] theorem wrBytes_pow : (s.wrBytes k bs).pow = s.pow := rfl
@[simp] theorem wrBytes_boot : (s.wrBytes k bs).boot = s.boot := rfl
@[simp] theorem wrBytes_gq : (s.wrBytes k bs).gq = s.gq := rfl
@[simp] theorem wrBytes_dbg : (s.wrBytes k bs).dbg = s.dbg := rfl
@[simp] theorem wrBytes_pins : (s.wrBytes k bs).pins = s.pins := rfl
@[simp] theorem wrBytes_free : (s.wrBytes k bs).free = s.free := rfl
end wrBytes

section bumpTo
variable (m k n : Nat)
@[simp] theorem bumpTo_pending : (s.bumpTo m k n).pending = s.pending := rfl
@[simp] theorem bumpTo_clk : (s.bumpTo m k n).clk = s.clk := rfl
@[simp] theorem bumpTo_odb : (s.bumpTo m k n).odb = s.odb := rfl
@[simp] theorem bumpTo_dict : (s.bumpTo m k n).dict = s.dict := rfl
@[simp] theorem bumpTo_tick : (s.bumpTo m k n).tick = s.tick := rfl
@[simp] theorem bumpTo_host : (s.bumpTo m k n).host = s.host := rfl
@[simp] theorem bumpTo_land : (s.bumpTo m k n).land = s.land := rfl
@[simp] theorem bumpTo_flit : (s.bumpTo m k n).flit = s.flit := rfl
@[simp] theorem bumpTo_falt : (s.bumpTo m k n).falt = s.falt := rfl
@[simp] theorem bumpTo_trc : (s.bumpTo m k n).trc = s.trc := rfl
@[simp] theorem bumpTo_cores : (s.bumpTo m k n).cores = s.cores := rfl
@[simp] theorem bumpTo_newels : (s.bumpTo m k n).newels = s.newels := rfl
@[simp] theorem bumpTo_arr : (s.bumpTo m k n).arr = s.arr := rfl
@[simp] theorem bumpTo_mem : (s.bumpTo m k n).mem = s.mem := rfl
@[simp] theorem bumpTo_bal : (s.bumpTo m k n).bal = s.bal := rfl
@[simp] theorem bumpTo_ldr : (s.bumpTo m k n).ldr = s.ldr := rfl
@[simp] theorem bumpTo_clok : (s.bumpTo m k n).clok = s.clok := rfl
@[simp] theorem bumpTo_ports : (s.bumpTo m k n).ports = s.ports := rfl
@[simp] theorem bumpTo_ledg : (s.bumpTo m k n).ledg = s.ledg := rfl
@[simp] theorem bumpTo_vest : (s.bumpTo m k n).vest = s.vest := rfl
@[simp] theorem bumpTo_vid : (s.bumpTo m k n).vid = s.vid := rfl
@[simp] theorem bumpTo_coln : (s.bumpTo m k n).coln = s.coln := rfl
@[simp] theorem bumpTo_dmem : (s.bumpTo m k n).dmem = s.dmem := rfl
@[simp] theorem bumpTo_pow : (s.bumpTo m k n).pow = s.pow := rfl
@[simp] theorem bumpTo_boot : (s.bumpTo m k n).boot = s.boot := rfl
@[simp] theorem bumpTo_gq : (s.bumpTo m k n).gq = s.gq := rfl
@[simp] theorem bumpTo_dbg : (s.bumpTo m k n).dbg = s.dbg := rfl
@[simp] theorem bumpTo_pins : (s.bumpTo m k n).pins = s.pins := rfl
@[simp] theorem bumpTo_free : (s.bumpTo m k n).free = s.free := rfl
end bumpTo

section bump
variable (k : Nat)
@[simp] theorem bump_pending : (s.bump k).pending = s.pending := rfl
@[simp] theorem bump_clk : (s.bump k).clk = s.clk := rfl
@[simp] theorem bump_odb : (s.bump k).odb = s.odb := rfl
@[simp] theorem bump_dict : (s.bump k).dict = s.dict := rfl
@[simp] theorem bump_tick : (s.bump k).tick = s.tick := rfl
@[simp] theorem bump_host : (s.bump k).host = s.host := rfl
@[simp] theorem bump_land : (s.bump k).land = s.land := rfl
@[simp] theorem bump_flit : (s.bump k).flit = s.flit := rfl
@[simp] theorem bump_falt : (s.bump k).falt = s.falt := rfl
@[simp] theorem bump_trc : (s.bump k).trc = s.trc := rfl
@[simp] theorem bump_cores : (s.bump k).cores = s.cores := rfl
@[simp] theorem bump_newels : (s.bump k).newels = s.newels := rfl
@[simp] theorem bump_arr : (s.bump k).arr = s.arr := rfl
@[simp] theorem bump_mem : (s.bump k).mem = s.mem := rfl
@[simp] theorem bump_bal : (s.bump k).bal = s.bal := rfl
@[simp] theorem bump_ldr : (s.bump k).ldr = s.ldr := rfl
@[simp] theorem bump_clok : (s.bump k).clok = s.clok := rfl
@[simp] theorem bump_ports : (s.bump k).ports = s.ports := rfl
@[simp] theorem bump_ledg : (s.bump k).ledg = s.ledg := rfl
@[simp] theorem bump_vest : (s.bump k).vest = s.vest := rfl
@[simp] theorem bump_vid : (s.bump k).vid = s.vid := rfl
@[simp] theorem bump_coln : (s.bump k).coln = s.coln := rfl
@[simp] theorem bump_dmem : (s.bump k).dmem = s.dmem := rfl
@[simp] theorem bump_pow : (s.bump k).pow = s.pow := rfl
@[simp] theorem bump_boot : (s.bump k).boot = s.boot := rfl
@[simp] theorem bump_gq : (s.bump k).gq = s.gq := rfl
@[simp] theorem bump_dbg : (s.bump k).dbg = s.dbg := rfl
@[simp] theorem bump_pins : (s.bump k).pins = s.pins := rfl
@[simp] theorem bump_free : (s.bump k).free = s.free := rfl
end bump

section setOdBit
variable (k i : Nat) (b : Bool)
@[simp] theorem setOdBit_pending : (s.setOdBit k i b).pending = s.pending := rfl
@[simp] theorem setOdBit_clk : (s.setOdBit k i b).clk = s.clk := rfl
@[simp] theorem setOdBit_odb : (s.setOdBit k i b).odb = s.odb := rfl
@[simp] theorem setOdBit_dict : (s.setOdBit k i b).dict = s.dict := rfl
@[simp] theorem setOdBit_tick : (s.setOdBit k i b).tick = s.tick := rfl
@[simp] theorem setOdBit_host : (s.setOdBit k i b).host = s.host := rfl
@[simp] theorem setOdBit_land : (s.setOdBit k i b).land = s.land := rfl
@[simp] theorem setOdBit_flit : (s.setOdBit k i b).flit = s.flit := rfl
@[simp] theorem setOdBit_falt : (s.setOdBit k i b).falt = s.falt := rfl
@[simp] theorem setOdBit_trc : (s.setOdBit k i b).trc = s.trc := rfl
@[simp] theorem setOdBit_cores : (s.setOdBit k i b).cores = s.cores := rfl
@[simp] theorem setOdBit_newels : (s.setOdBit k i b).newels = s.newels := rfl
@[simp] theorem setOdBit_arr : (s.setOdBit k i b).arr = s.arr := rfl
@[simp] theorem setOdBit_mem : (s.setOdBit k i b).mem = s.mem := rfl
@[simp] theorem setOdBit_bal : (s.setOdBit k i b).bal = s.bal := rfl
@[simp] theorem setOdBit_ldr : (s.setOdBit k i b).ldr = s.ldr := rfl
@[simp] theorem setOdBit_clok : (s.setOdBit k i b).clok = s.clok := rfl
@[simp] theorem setOdBit_ports : (s.setOdBit k i b).ports = s.ports := rfl
@[simp] theorem setOdBit_ledg : (s.setOdBit k i b).ledg = s.ledg := rfl
@[simp] theorem setOdBit_vest : (s.setOdBit k i b).vest = s.vest := rfl
@[simp] theorem setOdBit_vid : (s.setOdBit k i b).vid = s.vid := rfl
@[simp] theorem setOdBit_coln : (s.setOdBit k i b).coln = s.coln := rfl
@[simp] theorem setOdBit_dmem : (s.setOdBit k i b).dmem = s.dmem := rfl
@[simp] theorem setOdBit_pow : (s.setOdBit k i b).pow = s.pow := rfl
@[simp] theorem setOdBit_boot : (s.setOdBit k i b).boot = s.boot := rfl
@[simp] theorem setOdBit_gq : (s.setOdBit k i b).gq = s.gq := rfl
@[simp] theorem setOdBit_dbg : (s.setOdBit k i b).dbg = s.dbg := rfl
@[simp] theorem setOdBit_pins : (s.setOdBit k i b).pins = s.pins := rfl
@[simp] theorem setOdBit_free : (s.setOdBit k i b).free = s.free := rfl
end setOdBit

section setXfer
variable (p : Path) (x : Option Xfer)
@[simp] theorem setXfer_pending : (s.setXfer p x).pending = s.pending := rfl
@[simp] theorem setXfer_clk : (s.setXfer p x).clk = s.clk := rfl
@[simp] theorem setXfer_od : (s.setXfer p x).od = s.od := rfl
@[simp] theorem setXfer_odb : (s.setXfer p x).odb = s.odb := rfl
@[simp] theorem setXfer_tick : (s.setXfer p x).tick = s.tick := rfl
@[simp] theorem setXfer_host : (s.setXfer p x).host = s.host := rfl
@[simp] theorem setXfer_land : (s.setXfer p x).land = s.land := rfl
@[simp] theorem setXfer_flit : (s.setXfer p x).flit = s.flit := rfl
@[simp] theorem setXfer_falt : (s.setXfer p x).falt = s.falt := rfl
@[simp] theorem setXfer_trc : (s.setXfer p x).trc = s.trc := rfl
@[simp] theorem setXfer_cores : (s.setXfer p x).cores = s.cores := rfl
@[simp] theorem setXfer_newels : (s.setXfer p x).newels = s.newels := rfl
@[simp] theorem setXfer_arr : (s.setXfer p x).arr = s.arr := rfl
@[simp] theorem setXfer_mem : (s.setXfer p x).mem = s.mem := rfl
@[simp] theorem setXfer_bal : (s.setXfer p x).bal = s.bal := rfl
@[simp] theorem setXfer_ldr : (s.setXfer p x).ldr = s.ldr := rfl
@[simp] theorem setXfer_clok : (s.setXfer p x).clok = s.clok := rfl
@[simp] theorem setXfer_ports : (s.setXfer p x).ports = s.ports := rfl
@[simp] theorem setXfer_ledg : (s.setXfer p x).ledg = s.ledg := rfl
@[simp] theorem setXfer_vest : (s.setXfer p x).vest = s.vest := rfl
@[simp] theorem setXfer_vid : (s.setXfer p x).vid = s.vid := rfl
@[simp] theorem setXfer_coln : (s.setXfer p x).coln = s.coln := rfl
@[simp] theorem setXfer_dmem : (s.setXfer p x).dmem = s.dmem := rfl
@[simp] theorem setXfer_pow : (s.setXfer p x).pow = s.pow := rfl
@[simp] theorem setXfer_boot : (s.setXfer p x).boot = s.boot := rfl
@[simp] theorem setXfer_gq : (s.setXfer p x).gq = s.gq := rfl
@[simp] theorem setXfer_dbg : (s.setXfer p x).dbg = s.dbg := rfl
@[simp] theorem setXfer_pins : (s.setXfer p x).pins = s.pins := rfl
@[simp] theorem setXfer_free : (s.setXfer p x).free = s.free := rfl
end setXfer

section setWin
variable (p : Path) (w : DictWindow)
@[simp] theorem setWin_pending : (s.setWin p w).pending = s.pending := rfl
@[simp] theorem setWin_clk : (s.setWin p w).clk = s.clk := rfl
@[simp] theorem setWin_od : (s.setWin p w).od = s.od := rfl
@[simp] theorem setWin_odb : (s.setWin p w).odb = s.odb := rfl
@[simp] theorem setWin_tick : (s.setWin p w).tick = s.tick := rfl
@[simp] theorem setWin_host : (s.setWin p w).host = s.host := rfl
@[simp] theorem setWin_land : (s.setWin p w).land = s.land := rfl
@[simp] theorem setWin_flit : (s.setWin p w).flit = s.flit := rfl
@[simp] theorem setWin_falt : (s.setWin p w).falt = s.falt := rfl
@[simp] theorem setWin_trc : (s.setWin p w).trc = s.trc := rfl
@[simp] theorem setWin_cores : (s.setWin p w).cores = s.cores := rfl
@[simp] theorem setWin_newels : (s.setWin p w).newels = s.newels := rfl
@[simp] theorem setWin_arr : (s.setWin p w).arr = s.arr := rfl
@[simp] theorem setWin_mem : (s.setWin p w).mem = s.mem := rfl
@[simp] theorem setWin_bal : (s.setWin p w).bal = s.bal := rfl
@[simp] theorem setWin_ldr : (s.setWin p w).ldr = s.ldr := rfl
@[simp] theorem setWin_clok : (s.setWin p w).clok = s.clok := rfl
@[simp] theorem setWin_ports : (s.setWin p w).ports = s.ports := rfl
@[simp] theorem setWin_ledg : (s.setWin p w).ledg = s.ledg := rfl
@[simp] theorem setWin_vest : (s.setWin p w).vest = s.vest := rfl
@[simp] theorem setWin_vid : (s.setWin p w).vid = s.vid := rfl
@[simp] theorem setWin_coln : (s.setWin p w).coln = s.coln := rfl
@[simp] theorem setWin_dmem : (s.setWin p w).dmem = s.dmem := rfl
@[simp] theorem setWin_pow : (s.setWin p w).pow = s.pow := rfl
@[simp] theorem setWin_boot : (s.setWin p w).boot = s.boot := rfl
@[simp] theorem setWin_gq : (s.setWin p w).gq = s.gq := rfl
@[simp] theorem setWin_dbg : (s.setWin p w).dbg = s.dbg := rfl
@[simp] theorem setWin_pins : (s.setWin p w).pins = s.pins := rfl
@[simp] theorem setWin_free : (s.setWin p w).free = s.free := rfl
end setWin

section setResp
variable (p : Path) (r : Resp)
@[simp] theorem setResp_pending : (s.setResp p r).pending = s.pending := rfl
@[simp] theorem setResp_clk : (s.setResp p r).clk = s.clk := rfl
@[simp] theorem setResp_od : (s.setResp p r).od = s.od := rfl
@[simp] theorem setResp_odb : (s.setResp p r).odb = s.odb := rfl
@[simp] theorem setResp_tick : (s.setResp p r).tick = s.tick := rfl
@[simp] theorem setResp_host : (s.setResp p r).host = s.host := rfl
@[simp] theorem setResp_land : (s.setResp p r).land = s.land := rfl
@[simp] theorem setResp_flit : (s.setResp p r).flit = s.flit := rfl
@[simp] theorem setResp_falt : (s.setResp p r).falt = s.falt := rfl
@[simp] theorem setResp_trc : (s.setResp p r).trc = s.trc := rfl
@[simp] theorem setResp_cores : (s.setResp p r).cores = s.cores := rfl
@[simp] theorem setResp_newels : (s.setResp p r).newels = s.newels := rfl
@[simp] theorem setResp_arr : (s.setResp p r).arr = s.arr := rfl
@[simp] theorem setResp_mem : (s.setResp p r).mem = s.mem := rfl
@[simp] theorem setResp_bal : (s.setResp p r).bal = s.bal := rfl
@[simp] theorem setResp_ldr : (s.setResp p r).ldr = s.ldr := rfl
@[simp] theorem setResp_clok : (s.setResp p r).clok = s.clok := rfl
@[simp] theorem setResp_ports : (s.setResp p r).ports = s.ports := rfl
@[simp] theorem setResp_ledg : (s.setResp p r).ledg = s.ledg := rfl
@[simp] theorem setResp_vest : (s.setResp p r).vest = s.vest := rfl
@[simp] theorem setResp_vid : (s.setResp p r).vid = s.vid := rfl
@[simp] theorem setResp_coln : (s.setResp p r).coln = s.coln := rfl
@[simp] theorem setResp_dmem : (s.setResp p r).dmem = s.dmem := rfl
@[simp] theorem setResp_pow : (s.setResp p r).pow = s.pow := rfl
@[simp] theorem setResp_boot : (s.setResp p r).boot = s.boot := rfl
@[simp] theorem setResp_gq : (s.setResp p r).gq = s.gq := rfl
@[simp] theorem setResp_dbg : (s.setResp p r).dbg = s.dbg := rfl
@[simp] theorem setResp_pins : (s.setResp p r).pins = s.pins := rfl
@[simp] theorem setResp_free : (s.setResp p r).free = s.free := rfl
end setResp

section stage
variable (k v : Nat)
@[simp] theorem stage_pending : (s.stage k v).pending = s.pending := rfl
@[simp] theorem stage_clk : (s.stage k v).clk = s.clk := rfl
@[simp] theorem stage_od : (s.stage k v).od = s.od := rfl
@[simp] theorem stage_odb : (s.stage k v).odb = s.odb := rfl
@[simp] theorem stage_tick : (s.stage k v).tick = s.tick := rfl
@[simp] theorem stage_host : (s.stage k v).host = s.host := rfl
@[simp] theorem stage_land : (s.stage k v).land = s.land := rfl
@[simp] theorem stage_flit : (s.stage k v).flit = s.flit := rfl
@[simp] theorem stage_falt : (s.stage k v).falt = s.falt := rfl
@[simp] theorem stage_trc : (s.stage k v).trc = s.trc := rfl
@[simp] theorem stage_cores : (s.stage k v).cores = s.cores := rfl
@[simp] theorem stage_newels : (s.stage k v).newels = s.newels := rfl
@[simp] theorem stage_arr : (s.stage k v).arr = s.arr := rfl
@[simp] theorem stage_mem : (s.stage k v).mem = s.mem := rfl
@[simp] theorem stage_bal : (s.stage k v).bal = s.bal := rfl
@[simp] theorem stage_ldr : (s.stage k v).ldr = s.ldr := rfl
@[simp] theorem stage_clok : (s.stage k v).clok = s.clok := rfl
@[simp] theorem stage_ports : (s.stage k v).ports = s.ports := rfl
@[simp] theorem stage_ledg : (s.stage k v).ledg = s.ledg := rfl
@[simp] theorem stage_vest : (s.stage k v).vest = s.vest := rfl
@[simp] theorem stage_vid : (s.stage k v).vid = s.vid := rfl
@[simp] theorem stage_coln : (s.stage k v).coln = s.coln := rfl
@[simp] theorem stage_dmem : (s.stage k v).dmem = s.dmem := rfl
@[simp] theorem stage_pow : (s.stage k v).pow = s.pow := rfl
@[simp] theorem stage_boot : (s.stage k v).boot = s.boot := rfl
@[simp] theorem stage_gq : (s.stage k v).gq = s.gq := rfl
@[simp] theorem stage_dbg : (s.stage k v).dbg = s.dbg := rfl
@[simp] theorem stage_pins : (s.stage k v).pins = s.pins := rfl
@[simp] theorem stage_free : (s.stage k v).free = s.free := rfl
end stage

section setCore
variable (n : Nat) (c : Core)
@[simp] theorem setCore_pending : (s.setCore n c).pending = s.pending := rfl
@[simp] theorem setCore_clk : (s.setCore n c).clk = s.clk := rfl
@[simp] theorem setCore_od : (s.setCore n c).od = s.od := rfl
@[simp] theorem setCore_odb : (s.setCore n c).odb = s.odb := rfl
@[simp] theorem setCore_dict : (s.setCore n c).dict = s.dict := rfl
@[simp] theorem setCore_tick : (s.setCore n c).tick = s.tick := rfl
@[simp] theorem setCore_host : (s.setCore n c).host = s.host := rfl
@[simp] theorem setCore_land : (s.setCore n c).land = s.land := rfl
@[simp] theorem setCore_flit : (s.setCore n c).flit = s.flit := rfl
@[simp] theorem setCore_falt : (s.setCore n c).falt = s.falt := rfl
@[simp] theorem setCore_trc : (s.setCore n c).trc = s.trc := rfl
@[simp] theorem setCore_newels : (s.setCore n c).newels = s.newels := rfl
@[simp] theorem setCore_arr : (s.setCore n c).arr = s.arr := rfl
@[simp] theorem setCore_mem : (s.setCore n c).mem = s.mem := rfl
@[simp] theorem setCore_bal : (s.setCore n c).bal = s.bal := rfl
@[simp] theorem setCore_ldr : (s.setCore n c).ldr = s.ldr := rfl
@[simp] theorem setCore_clok : (s.setCore n c).clok = s.clok := rfl
@[simp] theorem setCore_ports : (s.setCore n c).ports = s.ports := rfl
@[simp] theorem setCore_ledg : (s.setCore n c).ledg = s.ledg := rfl
@[simp] theorem setCore_vest : (s.setCore n c).vest = s.vest := rfl
@[simp] theorem setCore_vid : (s.setCore n c).vid = s.vid := rfl
@[simp] theorem setCore_coln : (s.setCore n c).coln = s.coln := rfl
@[simp] theorem setCore_dmem : (s.setCore n c).dmem = s.dmem := rfl
@[simp] theorem setCore_pow : (s.setCore n c).pow = s.pow := rfl
@[simp] theorem setCore_boot : (s.setCore n c).boot = s.boot := rfl
@[simp] theorem setCore_gq : (s.setCore n c).gq = s.gq := rfl
@[simp] theorem setCore_dbg : (s.setCore n c).dbg = s.dbg := rfl
@[simp] theorem setCore_pins : (s.setCore n c).pins = s.pins := rfl
@[simp] theorem setCore_free : (s.setCore n c).free = s.free := rfl
end setCore

section setNewel
variable (k : Nat) (n : Newel)
@[simp] theorem setNewel_pending : (s.setNewel k n).pending = s.pending := rfl
@[simp] theorem setNewel_clk : (s.setNewel k n).clk = s.clk := rfl
@[simp] theorem setNewel_od : (s.setNewel k n).od = s.od := rfl
@[simp] theorem setNewel_odb : (s.setNewel k n).odb = s.odb := rfl
@[simp] theorem setNewel_dict : (s.setNewel k n).dict = s.dict := rfl
@[simp] theorem setNewel_tick : (s.setNewel k n).tick = s.tick := rfl
@[simp] theorem setNewel_host : (s.setNewel k n).host = s.host := rfl
@[simp] theorem setNewel_land : (s.setNewel k n).land = s.land := rfl
@[simp] theorem setNewel_flit : (s.setNewel k n).flit = s.flit := rfl
@[simp] theorem setNewel_falt : (s.setNewel k n).falt = s.falt := rfl
@[simp] theorem setNewel_trc : (s.setNewel k n).trc = s.trc := rfl
@[simp] theorem setNewel_cores : (s.setNewel k n).cores = s.cores := rfl
@[simp] theorem setNewel_arr : (s.setNewel k n).arr = s.arr := rfl
@[simp] theorem setNewel_mem : (s.setNewel k n).mem = s.mem := rfl
@[simp] theorem setNewel_bal : (s.setNewel k n).bal = s.bal := rfl
@[simp] theorem setNewel_ldr : (s.setNewel k n).ldr = s.ldr := rfl
@[simp] theorem setNewel_clok : (s.setNewel k n).clok = s.clok := rfl
@[simp] theorem setNewel_ports : (s.setNewel k n).ports = s.ports := rfl
@[simp] theorem setNewel_ledg : (s.setNewel k n).ledg = s.ledg := rfl
@[simp] theorem setNewel_vest : (s.setNewel k n).vest = s.vest := rfl
@[simp] theorem setNewel_vid : (s.setNewel k n).vid = s.vid := rfl
@[simp] theorem setNewel_coln : (s.setNewel k n).coln = s.coln := rfl
@[simp] theorem setNewel_dmem : (s.setNewel k n).dmem = s.dmem := rfl
@[simp] theorem setNewel_pow : (s.setNewel k n).pow = s.pow := rfl
@[simp] theorem setNewel_boot : (s.setNewel k n).boot = s.boot := rfl
@[simp] theorem setNewel_gq : (s.setNewel k n).gq = s.gq := rfl
@[simp] theorem setNewel_dbg : (s.setNewel k n).dbg = s.dbg := rfl
@[simp] theorem setNewel_pins : (s.setNewel k n).pins = s.pins := rfl
@[simp] theorem setNewel_free : (s.setNewel k n).free = s.free := rfl
end setNewel

section setItem
variable (i : Nat) (x : Item)
@[simp] theorem setItem_pending : (s.setItem i x).pending = s.pending := rfl
@[simp] theorem setItem_clk : (s.setItem i x).clk = s.clk := rfl
@[simp] theorem setItem_od : (s.setItem i x).od = s.od := rfl
@[simp] theorem setItem_odb : (s.setItem i x).odb = s.odb := rfl
@[simp] theorem setItem_dict : (s.setItem i x).dict = s.dict := rfl
@[simp] theorem setItem_tick : (s.setItem i x).tick = s.tick := rfl
@[simp] theorem setItem_host : (s.setItem i x).host = s.host := rfl
@[simp] theorem setItem_land : (s.setItem i x).land = s.land := rfl
@[simp] theorem setItem_falt : (s.setItem i x).falt = s.falt := rfl
@[simp] theorem setItem_trc : (s.setItem i x).trc = s.trc := rfl
@[simp] theorem setItem_cores : (s.setItem i x).cores = s.cores := rfl
@[simp] theorem setItem_newels : (s.setItem i x).newels = s.newels := rfl
@[simp] theorem setItem_arr : (s.setItem i x).arr = s.arr := rfl
@[simp] theorem setItem_mem : (s.setItem i x).mem = s.mem := rfl
@[simp] theorem setItem_bal : (s.setItem i x).bal = s.bal := rfl
@[simp] theorem setItem_ldr : (s.setItem i x).ldr = s.ldr := rfl
@[simp] theorem setItem_clok : (s.setItem i x).clok = s.clok := rfl
@[simp] theorem setItem_ports : (s.setItem i x).ports = s.ports := rfl
@[simp] theorem setItem_ledg : (s.setItem i x).ledg = s.ledg := rfl
@[simp] theorem setItem_vest : (s.setItem i x).vest = s.vest := rfl
@[simp] theorem setItem_vid : (s.setItem i x).vid = s.vid := rfl
@[simp] theorem setItem_coln : (s.setItem i x).coln = s.coln := rfl
@[simp] theorem setItem_dmem : (s.setItem i x).dmem = s.dmem := rfl
@[simp] theorem setItem_pow : (s.setItem i x).pow = s.pow := rfl
@[simp] theorem setItem_boot : (s.setItem i x).boot = s.boot := rfl
@[simp] theorem setItem_gq : (s.setItem i x).gq = s.gq := rfl
@[simp] theorem setItem_dbg : (s.setItem i x).dbg = s.dbg := rfl
@[simp] theorem setItem_pins : (s.setItem i x).pins = s.pins := rfl
@[simp] theorem setItem_free : (s.setItem i x).free = s.free := rfl
end setItem

section setTenancy
variable (t : Nat) (x : Tenancy)
@[simp] theorem setTenancy_pending : (s.setTenancy t x).pending = s.pending := rfl
@[simp] theorem setTenancy_clk : (s.setTenancy t x).clk = s.clk := rfl
@[simp] theorem setTenancy_od : (s.setTenancy t x).od = s.od := rfl
@[simp] theorem setTenancy_odb : (s.setTenancy t x).odb = s.odb := rfl
@[simp] theorem setTenancy_dict : (s.setTenancy t x).dict = s.dict := rfl
@[simp] theorem setTenancy_tick : (s.setTenancy t x).tick = s.tick := rfl
@[simp] theorem setTenancy_land : (s.setTenancy t x).land = s.land := rfl
@[simp] theorem setTenancy_flit : (s.setTenancy t x).flit = s.flit := rfl
@[simp] theorem setTenancy_falt : (s.setTenancy t x).falt = s.falt := rfl
@[simp] theorem setTenancy_trc : (s.setTenancy t x).trc = s.trc := rfl
@[simp] theorem setTenancy_cores : (s.setTenancy t x).cores = s.cores := rfl
@[simp] theorem setTenancy_newels : (s.setTenancy t x).newels = s.newels := rfl
@[simp] theorem setTenancy_arr : (s.setTenancy t x).arr = s.arr := rfl
@[simp] theorem setTenancy_mem : (s.setTenancy t x).mem = s.mem := rfl
@[simp] theorem setTenancy_bal : (s.setTenancy t x).bal = s.bal := rfl
@[simp] theorem setTenancy_ldr : (s.setTenancy t x).ldr = s.ldr := rfl
@[simp] theorem setTenancy_clok : (s.setTenancy t x).clok = s.clok := rfl
@[simp] theorem setTenancy_ports : (s.setTenancy t x).ports = s.ports := rfl
@[simp] theorem setTenancy_ledg : (s.setTenancy t x).ledg = s.ledg := rfl
@[simp] theorem setTenancy_vest : (s.setTenancy t x).vest = s.vest := rfl
@[simp] theorem setTenancy_vid : (s.setTenancy t x).vid = s.vid := rfl
@[simp] theorem setTenancy_coln : (s.setTenancy t x).coln = s.coln := rfl
@[simp] theorem setTenancy_dmem : (s.setTenancy t x).dmem = s.dmem := rfl
@[simp] theorem setTenancy_pow : (s.setTenancy t x).pow = s.pow := rfl
@[simp] theorem setTenancy_boot : (s.setTenancy t x).boot = s.boot := rfl
@[simp] theorem setTenancy_gq : (s.setTenancy t x).gq = s.gq := rfl
@[simp] theorem setTenancy_dbg : (s.setTenancy t x).dbg = s.dbg := rfl
@[simp] theorem setTenancy_pins : (s.setTenancy t x).pins = s.pins := rfl
@[simp] theorem setTenancy_free : (s.setTenancy t x).free = s.free := rfl
end setTenancy

section setMirror
variable (i : Nat) (m : Option Mirror)
@[simp] theorem setMirror_pending : (s.setMirror i m).pending = s.pending := rfl
@[simp] theorem setMirror_clk : (s.setMirror i m).clk = s.clk := rfl
@[simp] theorem setMirror_od : (s.setMirror i m).od = s.od := rfl
@[simp] theorem setMirror_odb : (s.setMirror i m).odb = s.odb := rfl
@[simp] theorem setMirror_dict : (s.setMirror i m).dict = s.dict := rfl
@[simp] theorem setMirror_tick : (s.setMirror i m).tick = s.tick := rfl
@[simp] theorem setMirror_host : (s.setMirror i m).host = s.host := rfl
@[simp] theorem setMirror_land : (s.setMirror i m).land = s.land := rfl
@[simp] theorem setMirror_flit : (s.setMirror i m).flit = s.flit := rfl
@[simp] theorem setMirror_trc : (s.setMirror i m).trc = s.trc := rfl
@[simp] theorem setMirror_cores : (s.setMirror i m).cores = s.cores := rfl
@[simp] theorem setMirror_newels : (s.setMirror i m).newels = s.newels := rfl
@[simp] theorem setMirror_arr : (s.setMirror i m).arr = s.arr := rfl
@[simp] theorem setMirror_mem : (s.setMirror i m).mem = s.mem := rfl
@[simp] theorem setMirror_bal : (s.setMirror i m).bal = s.bal := rfl
@[simp] theorem setMirror_ldr : (s.setMirror i m).ldr = s.ldr := rfl
@[simp] theorem setMirror_clok : (s.setMirror i m).clok = s.clok := rfl
@[simp] theorem setMirror_ports : (s.setMirror i m).ports = s.ports := rfl
@[simp] theorem setMirror_ledg : (s.setMirror i m).ledg = s.ledg := rfl
@[simp] theorem setMirror_vest : (s.setMirror i m).vest = s.vest := rfl
@[simp] theorem setMirror_vid : (s.setMirror i m).vid = s.vid := rfl
@[simp] theorem setMirror_coln : (s.setMirror i m).coln = s.coln := rfl
@[simp] theorem setMirror_dmem : (s.setMirror i m).dmem = s.dmem := rfl
@[simp] theorem setMirror_pow : (s.setMirror i m).pow = s.pow := rfl
@[simp] theorem setMirror_boot : (s.setMirror i m).boot = s.boot := rfl
@[simp] theorem setMirror_gq : (s.setMirror i m).gq = s.gq := rfl
@[simp] theorem setMirror_dbg : (s.setMirror i m).dbg = s.dbg := rfl
@[simp] theorem setMirror_pins : (s.setMirror i m).pins = s.pins := rfl
@[simp] theorem setMirror_free : (s.setMirror i m).free = s.free := rfl
end setMirror

section setPow
variable (p : Power)
@[simp] theorem setPow_pending : (s.setPow p).pending = s.pending := rfl
@[simp] theorem setPow_clk : (s.setPow p).clk = s.clk := rfl
@[simp] theorem setPow_od : (s.setPow p).od = s.od := rfl
@[simp] theorem setPow_odb : (s.setPow p).odb = s.odb := rfl
@[simp] theorem setPow_dict : (s.setPow p).dict = s.dict := rfl
@[simp] theorem setPow_tick : (s.setPow p).tick = s.tick := rfl
@[simp] theorem setPow_host : (s.setPow p).host = s.host := rfl
@[simp] theorem setPow_land : (s.setPow p).land = s.land := rfl
@[simp] theorem setPow_flit : (s.setPow p).flit = s.flit := rfl
@[simp] theorem setPow_falt : (s.setPow p).falt = s.falt := rfl
@[simp] theorem setPow_trc : (s.setPow p).trc = s.trc := rfl
@[simp] theorem setPow_cores : (s.setPow p).cores = s.cores := rfl
@[simp] theorem setPow_newels : (s.setPow p).newels = s.newels := rfl
@[simp] theorem setPow_arr : (s.setPow p).arr = s.arr := rfl
@[simp] theorem setPow_mem : (s.setPow p).mem = s.mem := rfl
@[simp] theorem setPow_bal : (s.setPow p).bal = s.bal := rfl
@[simp] theorem setPow_ldr : (s.setPow p).ldr = s.ldr := rfl
@[simp] theorem setPow_clok : (s.setPow p).clok = s.clok := rfl
@[simp] theorem setPow_ports : (s.setPow p).ports = s.ports := rfl
@[simp] theorem setPow_ledg : (s.setPow p).ledg = s.ledg := rfl
@[simp] theorem setPow_vest : (s.setPow p).vest = s.vest := rfl
@[simp] theorem setPow_vid : (s.setPow p).vid = s.vid := rfl
@[simp] theorem setPow_coln : (s.setPow p).coln = s.coln := rfl
@[simp] theorem setPow_dmem : (s.setPow p).dmem = s.dmem := rfl
@[simp] theorem setPow_boot : (s.setPow p).boot = s.boot := rfl
@[simp] theorem setPow_gq : (s.setPow p).gq = s.gq := rfl
@[simp] theorem setPow_dbg : (s.setPow p).dbg = s.dbg := rfl
@[simp] theorem setPow_pins : (s.setPow p).pins = s.pins := rfl
@[simp] theorem setPow_free : (s.setPow p).free = s.free := rfl
end setPow

section setBoot
variable (b : Boot)
@[simp] theorem setBoot_pending : (s.setBoot b).pending = s.pending := rfl
@[simp] theorem setBoot_clk : (s.setBoot b).clk = s.clk := rfl
@[simp] theorem setBoot_od : (s.setBoot b).od = s.od := rfl
@[simp] theorem setBoot_odb : (s.setBoot b).odb = s.odb := rfl
@[simp] theorem setBoot_dict : (s.setBoot b).dict = s.dict := rfl
@[simp] theorem setBoot_tick : (s.setBoot b).tick = s.tick := rfl
@[simp] theorem setBoot_host : (s.setBoot b).host = s.host := rfl
@[simp] theorem setBoot_land : (s.setBoot b).land = s.land := rfl
@[simp] theorem setBoot_flit : (s.setBoot b).flit = s.flit := rfl
@[simp] theorem setBoot_falt : (s.setBoot b).falt = s.falt := rfl
@[simp] theorem setBoot_trc : (s.setBoot b).trc = s.trc := rfl
@[simp] theorem setBoot_cores : (s.setBoot b).cores = s.cores := rfl
@[simp] theorem setBoot_newels : (s.setBoot b).newels = s.newels := rfl
@[simp] theorem setBoot_arr : (s.setBoot b).arr = s.arr := rfl
@[simp] theorem setBoot_mem : (s.setBoot b).mem = s.mem := rfl
@[simp] theorem setBoot_bal : (s.setBoot b).bal = s.bal := rfl
@[simp] theorem setBoot_ldr : (s.setBoot b).ldr = s.ldr := rfl
@[simp] theorem setBoot_clok : (s.setBoot b).clok = s.clok := rfl
@[simp] theorem setBoot_ports : (s.setBoot b).ports = s.ports := rfl
@[simp] theorem setBoot_ledg : (s.setBoot b).ledg = s.ledg := rfl
@[simp] theorem setBoot_vest : (s.setBoot b).vest = s.vest := rfl
@[simp] theorem setBoot_vid : (s.setBoot b).vid = s.vid := rfl
@[simp] theorem setBoot_coln : (s.setBoot b).coln = s.coln := rfl
@[simp] theorem setBoot_dmem : (s.setBoot b).dmem = s.dmem := rfl
@[simp] theorem setBoot_pow : (s.setBoot b).pow = s.pow := rfl
@[simp] theorem setBoot_gq : (s.setBoot b).gq = s.gq := rfl
@[simp] theorem setBoot_dbg : (s.setBoot b).dbg = s.dbg := rfl
@[simp] theorem setBoot_pins : (s.setBoot b).pins = s.pins := rfl
@[simp] theorem setBoot_free : (s.setBoot b).free = s.free := rfl
end setBoot

section setKeySlot
variable (k : Nat) (x : KeySlot)
@[simp] theorem setKeySlot_pending : (s.setKeySlot k x).pending = s.pending := rfl
@[simp] theorem setKeySlot_clk : (s.setKeySlot k x).clk = s.clk := rfl
@[simp] theorem setKeySlot_od : (s.setKeySlot k x).od = s.od := rfl
@[simp] theorem setKeySlot_odb : (s.setKeySlot k x).odb = s.odb := rfl
@[simp] theorem setKeySlot_dict : (s.setKeySlot k x).dict = s.dict := rfl
@[simp] theorem setKeySlot_tick : (s.setKeySlot k x).tick = s.tick := rfl
@[simp] theorem setKeySlot_host : (s.setKeySlot k x).host = s.host := rfl
@[simp] theorem setKeySlot_land : (s.setKeySlot k x).land = s.land := rfl
@[simp] theorem setKeySlot_flit : (s.setKeySlot k x).flit = s.flit := rfl
@[simp] theorem setKeySlot_falt : (s.setKeySlot k x).falt = s.falt := rfl
@[simp] theorem setKeySlot_trc : (s.setKeySlot k x).trc = s.trc := rfl
@[simp] theorem setKeySlot_cores : (s.setKeySlot k x).cores = s.cores := rfl
@[simp] theorem setKeySlot_newels : (s.setKeySlot k x).newels = s.newels := rfl
@[simp] theorem setKeySlot_arr : (s.setKeySlot k x).arr = s.arr := rfl
@[simp] theorem setKeySlot_mem : (s.setKeySlot k x).mem = s.mem := rfl
@[simp] theorem setKeySlot_bal : (s.setKeySlot k x).bal = s.bal := rfl
@[simp] theorem setKeySlot_ldr : (s.setKeySlot k x).ldr = s.ldr := rfl
@[simp] theorem setKeySlot_clok : (s.setKeySlot k x).clok = s.clok := rfl
@[simp] theorem setKeySlot_ports : (s.setKeySlot k x).ports = s.ports := rfl
@[simp] theorem setKeySlot_ledg : (s.setKeySlot k x).ledg = s.ledg := rfl
@[simp] theorem setKeySlot_vest : (s.setKeySlot k x).vest = s.vest := rfl
@[simp] theorem setKeySlot_vid : (s.setKeySlot k x).vid = s.vid := rfl
@[simp] theorem setKeySlot_coln : (s.setKeySlot k x).coln = s.coln := rfl
@[simp] theorem setKeySlot_dmem : (s.setKeySlot k x).dmem = s.dmem := rfl
@[simp] theorem setKeySlot_pow : (s.setKeySlot k x).pow = s.pow := rfl
@[simp] theorem setKeySlot_gq : (s.setKeySlot k x).gq = s.gq := rfl
@[simp] theorem setKeySlot_dbg : (s.setKeySlot k x).dbg = s.dbg := rfl
@[simp] theorem setKeySlot_pins : (s.setKeySlot k x).pins = s.pins := rfl
@[simp] theorem setKeySlot_free : (s.setKeySlot k x).free = s.free := rfl
end setKeySlot

section setTick
variable (t : Tick)
@[simp] theorem setTick_pending : (s.setTick t).pending = s.pending := rfl
@[simp] theorem setTick_clk : (s.setTick t).clk = s.clk := rfl
@[simp] theorem setTick_od : (s.setTick t).od = s.od := rfl
@[simp] theorem setTick_odb : (s.setTick t).odb = s.odb := rfl
@[simp] theorem setTick_dict : (s.setTick t).dict = s.dict := rfl
@[simp] theorem setTick_host : (s.setTick t).host = s.host := rfl
@[simp] theorem setTick_land : (s.setTick t).land = s.land := rfl
@[simp] theorem setTick_flit : (s.setTick t).flit = s.flit := rfl
@[simp] theorem setTick_falt : (s.setTick t).falt = s.falt := rfl
@[simp] theorem setTick_trc : (s.setTick t).trc = s.trc := rfl
@[simp] theorem setTick_cores : (s.setTick t).cores = s.cores := rfl
@[simp] theorem setTick_newels : (s.setTick t).newels = s.newels := rfl
@[simp] theorem setTick_arr : (s.setTick t).arr = s.arr := rfl
@[simp] theorem setTick_mem : (s.setTick t).mem = s.mem := rfl
@[simp] theorem setTick_bal : (s.setTick t).bal = s.bal := rfl
@[simp] theorem setTick_ldr : (s.setTick t).ldr = s.ldr := rfl
@[simp] theorem setTick_clok : (s.setTick t).clok = s.clok := rfl
@[simp] theorem setTick_ports : (s.setTick t).ports = s.ports := rfl
@[simp] theorem setTick_ledg : (s.setTick t).ledg = s.ledg := rfl
@[simp] theorem setTick_vest : (s.setTick t).vest = s.vest := rfl
@[simp] theorem setTick_vid : (s.setTick t).vid = s.vid := rfl
@[simp] theorem setTick_coln : (s.setTick t).coln = s.coln := rfl
@[simp] theorem setTick_dmem : (s.setTick t).dmem = s.dmem := rfl
@[simp] theorem setTick_pow : (s.setTick t).pow = s.pow := rfl
@[simp] theorem setTick_boot : (s.setTick t).boot = s.boot := rfl
@[simp] theorem setTick_gq : (s.setTick t).gq = s.gq := rfl
@[simp] theorem setTick_dbg : (s.setTick t).dbg = s.dbg := rfl
@[simp] theorem setTick_pins : (s.setTick t).pins = s.pins := rfl
@[simp] theorem setTick_free : (s.setTick t).free = s.free := rfl
end setTick

section setGq
variable (g : Gq)
@[simp] theorem setGq_pending : (s.setGq g).pending = s.pending := rfl
@[simp] theorem setGq_clk : (s.setGq g).clk = s.clk := rfl
@[simp] theorem setGq_od : (s.setGq g).od = s.od := rfl
@[simp] theorem setGq_odb : (s.setGq g).odb = s.odb := rfl
@[simp] theorem setGq_dict : (s.setGq g).dict = s.dict := rfl
@[simp] theorem setGq_tick : (s.setGq g).tick = s.tick := rfl
@[simp] theorem setGq_host : (s.setGq g).host = s.host := rfl
@[simp] theorem setGq_land : (s.setGq g).land = s.land := rfl
@[simp] theorem setGq_flit : (s.setGq g).flit = s.flit := rfl
@[simp] theorem setGq_falt : (s.setGq g).falt = s.falt := rfl
@[simp] theorem setGq_trc : (s.setGq g).trc = s.trc := rfl
@[simp] theorem setGq_cores : (s.setGq g).cores = s.cores := rfl
@[simp] theorem setGq_newels : (s.setGq g).newels = s.newels := rfl
@[simp] theorem setGq_arr : (s.setGq g).arr = s.arr := rfl
@[simp] theorem setGq_mem : (s.setGq g).mem = s.mem := rfl
@[simp] theorem setGq_bal : (s.setGq g).bal = s.bal := rfl
@[simp] theorem setGq_ldr : (s.setGq g).ldr = s.ldr := rfl
@[simp] theorem setGq_clok : (s.setGq g).clok = s.clok := rfl
@[simp] theorem setGq_ports : (s.setGq g).ports = s.ports := rfl
@[simp] theorem setGq_ledg : (s.setGq g).ledg = s.ledg := rfl
@[simp] theorem setGq_vest : (s.setGq g).vest = s.vest := rfl
@[simp] theorem setGq_vid : (s.setGq g).vid = s.vid := rfl
@[simp] theorem setGq_coln : (s.setGq g).coln = s.coln := rfl
@[simp] theorem setGq_dmem : (s.setGq g).dmem = s.dmem := rfl
@[simp] theorem setGq_pow : (s.setGq g).pow = s.pow := rfl
@[simp] theorem setGq_boot : (s.setGq g).boot = s.boot := rfl
@[simp] theorem setGq_dbg : (s.setGq g).dbg = s.dbg := rfl
@[simp] theorem setGq_pins : (s.setGq g).pins = s.pins := rfl
@[simp] theorem setGq_free : (s.setGq g).free = s.free := rfl
end setGq

section setDmem
variable (d : Dmem)
@[simp] theorem setDmem_pending : (s.setDmem d).pending = s.pending := rfl
@[simp] theorem setDmem_clk : (s.setDmem d).clk = s.clk := rfl
@[simp] theorem setDmem_od : (s.setDmem d).od = s.od := rfl
@[simp] theorem setDmem_odb : (s.setDmem d).odb = s.odb := rfl
@[simp] theorem setDmem_dict : (s.setDmem d).dict = s.dict := rfl
@[simp] theorem setDmem_tick : (s.setDmem d).tick = s.tick := rfl
@[simp] theorem setDmem_host : (s.setDmem d).host = s.host := rfl
@[simp] theorem setDmem_land : (s.setDmem d).land = s.land := rfl
@[simp] theorem setDmem_flit : (s.setDmem d).flit = s.flit := rfl
@[simp] theorem setDmem_falt : (s.setDmem d).falt = s.falt := rfl
@[simp] theorem setDmem_trc : (s.setDmem d).trc = s.trc := rfl
@[simp] theorem setDmem_cores : (s.setDmem d).cores = s.cores := rfl
@[simp] theorem setDmem_newels : (s.setDmem d).newels = s.newels := rfl
@[simp] theorem setDmem_arr : (s.setDmem d).arr = s.arr := rfl
@[simp] theorem setDmem_mem : (s.setDmem d).mem = s.mem := rfl
@[simp] theorem setDmem_bal : (s.setDmem d).bal = s.bal := rfl
@[simp] theorem setDmem_ldr : (s.setDmem d).ldr = s.ldr := rfl
@[simp] theorem setDmem_clok : (s.setDmem d).clok = s.clok := rfl
@[simp] theorem setDmem_ports : (s.setDmem d).ports = s.ports := rfl
@[simp] theorem setDmem_ledg : (s.setDmem d).ledg = s.ledg := rfl
@[simp] theorem setDmem_vest : (s.setDmem d).vest = s.vest := rfl
@[simp] theorem setDmem_vid : (s.setDmem d).vid = s.vid := rfl
@[simp] theorem setDmem_coln : (s.setDmem d).coln = s.coln := rfl
@[simp] theorem setDmem_pow : (s.setDmem d).pow = s.pow := rfl
@[simp] theorem setDmem_boot : (s.setDmem d).boot = s.boot := rfl
@[simp] theorem setDmem_gq : (s.setDmem d).gq = s.gq := rfl
@[simp] theorem setDmem_dbg : (s.setDmem d).dbg = s.dbg := rfl
@[simp] theorem setDmem_pins : (s.setDmem d).pins = s.pins := rfl
@[simp] theorem setDmem_free : (s.setDmem d).free = s.free := rfl
end setDmem

section setColn
variable (c : Colonnade)
@[simp] theorem setColn_pending : (s.setColn c).pending = s.pending := rfl
@[simp] theorem setColn_clk : (s.setColn c).clk = s.clk := rfl
@[simp] theorem setColn_od : (s.setColn c).od = s.od := rfl
@[simp] theorem setColn_odb : (s.setColn c).odb = s.odb := rfl
@[simp] theorem setColn_dict : (s.setColn c).dict = s.dict := rfl
@[simp] theorem setColn_tick : (s.setColn c).tick = s.tick := rfl
@[simp] theorem setColn_host : (s.setColn c).host = s.host := rfl
@[simp] theorem setColn_land : (s.setColn c).land = s.land := rfl
@[simp] theorem setColn_flit : (s.setColn c).flit = s.flit := rfl
@[simp] theorem setColn_falt : (s.setColn c).falt = s.falt := rfl
@[simp] theorem setColn_trc : (s.setColn c).trc = s.trc := rfl
@[simp] theorem setColn_cores : (s.setColn c).cores = s.cores := rfl
@[simp] theorem setColn_newels : (s.setColn c).newels = s.newels := rfl
@[simp] theorem setColn_arr : (s.setColn c).arr = s.arr := rfl
@[simp] theorem setColn_mem : (s.setColn c).mem = s.mem := rfl
@[simp] theorem setColn_bal : (s.setColn c).bal = s.bal := rfl
@[simp] theorem setColn_ldr : (s.setColn c).ldr = s.ldr := rfl
@[simp] theorem setColn_clok : (s.setColn c).clok = s.clok := rfl
@[simp] theorem setColn_ports : (s.setColn c).ports = s.ports := rfl
@[simp] theorem setColn_ledg : (s.setColn c).ledg = s.ledg := rfl
@[simp] theorem setColn_vest : (s.setColn c).vest = s.vest := rfl
@[simp] theorem setColn_vid : (s.setColn c).vid = s.vid := rfl
@[simp] theorem setColn_dmem : (s.setColn c).dmem = s.dmem := rfl
@[simp] theorem setColn_pow : (s.setColn c).pow = s.pow := rfl
@[simp] theorem setColn_boot : (s.setColn c).boot = s.boot := rfl
@[simp] theorem setColn_gq : (s.setColn c).gq = s.gq := rfl
@[simp] theorem setColn_dbg : (s.setColn c).dbg = s.dbg := rfl
@[simp] theorem setColn_pins : (s.setColn c).pins = s.pins := rfl
@[simp] theorem setColn_free : (s.setColn c).free = s.free := rfl
end setColn

section setSens
variable (c : Nat) (x : SensorPort)
@[simp] theorem setSens_pending : (s.setSens c x).pending = s.pending := rfl
@[simp] theorem setSens_clk : (s.setSens c x).clk = s.clk := rfl
@[simp] theorem setSens_od : (s.setSens c x).od = s.od := rfl
@[simp] theorem setSens_odb : (s.setSens c x).odb = s.odb := rfl
@[simp] theorem setSens_dict : (s.setSens c x).dict = s.dict := rfl
@[simp] theorem setSens_tick : (s.setSens c x).tick = s.tick := rfl
@[simp] theorem setSens_host : (s.setSens c x).host = s.host := rfl
@[simp] theorem setSens_land : (s.setSens c x).land = s.land := rfl
@[simp] theorem setSens_flit : (s.setSens c x).flit = s.flit := rfl
@[simp] theorem setSens_falt : (s.setSens c x).falt = s.falt := rfl
@[simp] theorem setSens_trc : (s.setSens c x).trc = s.trc := rfl
@[simp] theorem setSens_cores : (s.setSens c x).cores = s.cores := rfl
@[simp] theorem setSens_newels : (s.setSens c x).newels = s.newels := rfl
@[simp] theorem setSens_arr : (s.setSens c x).arr = s.arr := rfl
@[simp] theorem setSens_mem : (s.setSens c x).mem = s.mem := rfl
@[simp] theorem setSens_bal : (s.setSens c x).bal = s.bal := rfl
@[simp] theorem setSens_ldr : (s.setSens c x).ldr = s.ldr := rfl
@[simp] theorem setSens_clok : (s.setSens c x).clok = s.clok := rfl
@[simp] theorem setSens_ledg : (s.setSens c x).ledg = s.ledg := rfl
@[simp] theorem setSens_vest : (s.setSens c x).vest = s.vest := rfl
@[simp] theorem setSens_vid : (s.setSens c x).vid = s.vid := rfl
@[simp] theorem setSens_coln : (s.setSens c x).coln = s.coln := rfl
@[simp] theorem setSens_dmem : (s.setSens c x).dmem = s.dmem := rfl
@[simp] theorem setSens_pow : (s.setSens c x).pow = s.pow := rfl
@[simp] theorem setSens_boot : (s.setSens c x).boot = s.boot := rfl
@[simp] theorem setSens_gq : (s.setSens c x).gq = s.gq := rfl
@[simp] theorem setSens_dbg : (s.setSens c x).dbg = s.dbg := rfl
@[simp] theorem setSens_pins : (s.setSens c x).pins = s.pins := rfl
@[simp] theorem setSens_free : (s.setSens c x).free = s.free := rfl
end setSens

section setAud
variable (a : AudioUnit)
@[simp] theorem setAud_pending : (s.setAud a).pending = s.pending := rfl
@[simp] theorem setAud_clk : (s.setAud a).clk = s.clk := rfl
@[simp] theorem setAud_od : (s.setAud a).od = s.od := rfl
@[simp] theorem setAud_odb : (s.setAud a).odb = s.odb := rfl
@[simp] theorem setAud_dict : (s.setAud a).dict = s.dict := rfl
@[simp] theorem setAud_tick : (s.setAud a).tick = s.tick := rfl
@[simp] theorem setAud_host : (s.setAud a).host = s.host := rfl
@[simp] theorem setAud_land : (s.setAud a).land = s.land := rfl
@[simp] theorem setAud_flit : (s.setAud a).flit = s.flit := rfl
@[simp] theorem setAud_falt : (s.setAud a).falt = s.falt := rfl
@[simp] theorem setAud_trc : (s.setAud a).trc = s.trc := rfl
@[simp] theorem setAud_cores : (s.setAud a).cores = s.cores := rfl
@[simp] theorem setAud_newels : (s.setAud a).newels = s.newels := rfl
@[simp] theorem setAud_arr : (s.setAud a).arr = s.arr := rfl
@[simp] theorem setAud_mem : (s.setAud a).mem = s.mem := rfl
@[simp] theorem setAud_bal : (s.setAud a).bal = s.bal := rfl
@[simp] theorem setAud_ldr : (s.setAud a).ldr = s.ldr := rfl
@[simp] theorem setAud_clok : (s.setAud a).clok = s.clok := rfl
@[simp] theorem setAud_ledg : (s.setAud a).ledg = s.ledg := rfl
@[simp] theorem setAud_vest : (s.setAud a).vest = s.vest := rfl
@[simp] theorem setAud_vid : (s.setAud a).vid = s.vid := rfl
@[simp] theorem setAud_coln : (s.setAud a).coln = s.coln := rfl
@[simp] theorem setAud_dmem : (s.setAud a).dmem = s.dmem := rfl
@[simp] theorem setAud_pow : (s.setAud a).pow = s.pow := rfl
@[simp] theorem setAud_boot : (s.setAud a).boot = s.boot := rfl
@[simp] theorem setAud_gq : (s.setAud a).gq = s.gq := rfl
@[simp] theorem setAud_dbg : (s.setAud a).dbg = s.dbg := rfl
@[simp] theorem setAud_pins : (s.setAud a).pins = s.pins := rfl
@[simp] theorem setAud_free : (s.setAud a).free = s.free := rfl
end setAud

section setPool
variable (q : Nat) (p : Pool)
@[simp] theorem setPool_pending : (s.setPool q p).pending = s.pending := rfl
@[simp] theorem setPool_clk : (s.setPool q p).clk = s.clk := rfl
@[simp] theorem setPool_od : (s.setPool q p).od = s.od := rfl
@[simp] theorem setPool_odb : (s.setPool q p).odb = s.odb := rfl
@[simp] theorem setPool_dict : (s.setPool q p).dict = s.dict := rfl
@[simp] theorem setPool_tick : (s.setPool q p).tick = s.tick := rfl
@[simp] theorem setPool_host : (s.setPool q p).host = s.host := rfl
@[simp] theorem setPool_land : (s.setPool q p).land = s.land := rfl
@[simp] theorem setPool_flit : (s.setPool q p).flit = s.flit := rfl
@[simp] theorem setPool_falt : (s.setPool q p).falt = s.falt := rfl
@[simp] theorem setPool_trc : (s.setPool q p).trc = s.trc := rfl
@[simp] theorem setPool_cores : (s.setPool q p).cores = s.cores := rfl
@[simp] theorem setPool_newels : (s.setPool q p).newels = s.newels := rfl
@[simp] theorem setPool_arr : (s.setPool q p).arr = s.arr := rfl
@[simp] theorem setPool_mem : (s.setPool q p).mem = s.mem := rfl
@[simp] theorem setPool_bal : (s.setPool q p).bal = s.bal := rfl
@[simp] theorem setPool_ldr : (s.setPool q p).ldr = s.ldr := rfl
@[simp] theorem setPool_ports : (s.setPool q p).ports = s.ports := rfl
@[simp] theorem setPool_ledg : (s.setPool q p).ledg = s.ledg := rfl
@[simp] theorem setPool_vest : (s.setPool q p).vest = s.vest := rfl
@[simp] theorem setPool_vid : (s.setPool q p).vid = s.vid := rfl
@[simp] theorem setPool_coln : (s.setPool q p).coln = s.coln := rfl
@[simp] theorem setPool_dmem : (s.setPool q p).dmem = s.dmem := rfl
@[simp] theorem setPool_pow : (s.setPool q p).pow = s.pow := rfl
@[simp] theorem setPool_boot : (s.setPool q p).boot = s.boot := rfl
@[simp] theorem setPool_gq : (s.setPool q p).gq = s.gq := rfl
@[simp] theorem setPool_dbg : (s.setPool q p).dbg = s.dbg := rfl
@[simp] theorem setPool_pins : (s.setPool q p).pins = s.pins := rfl
@[simp] theorem setPool_free : (s.setPool q p).free = s.free := rfl
end setPool

section setLand
variable (L w : Nat)
@[simp] theorem setLand_pending : (s.setLand L w).pending = s.pending := rfl
@[simp] theorem setLand_clk : (s.setLand L w).clk = s.clk := rfl
@[simp] theorem setLand_od : (s.setLand L w).od = s.od := rfl
@[simp] theorem setLand_odb : (s.setLand L w).odb = s.odb := rfl
@[simp] theorem setLand_dict : (s.setLand L w).dict = s.dict := rfl
@[simp] theorem setLand_tick : (s.setLand L w).tick = s.tick := rfl
@[simp] theorem setLand_host : (s.setLand L w).host = s.host := rfl
@[simp] theorem setLand_flit : (s.setLand L w).flit = s.flit := rfl
@[simp] theorem setLand_falt : (s.setLand L w).falt = s.falt := rfl
@[simp] theorem setLand_trc : (s.setLand L w).trc = s.trc := rfl
@[simp] theorem setLand_cores : (s.setLand L w).cores = s.cores := rfl
@[simp] theorem setLand_newels : (s.setLand L w).newels = s.newels := rfl
@[simp] theorem setLand_arr : (s.setLand L w).arr = s.arr := rfl
@[simp] theorem setLand_mem : (s.setLand L w).mem = s.mem := rfl
@[simp] theorem setLand_bal : (s.setLand L w).bal = s.bal := rfl
@[simp] theorem setLand_ldr : (s.setLand L w).ldr = s.ldr := rfl
@[simp] theorem setLand_clok : (s.setLand L w).clok = s.clok := rfl
@[simp] theorem setLand_ports : (s.setLand L w).ports = s.ports := rfl
@[simp] theorem setLand_ledg : (s.setLand L w).ledg = s.ledg := rfl
@[simp] theorem setLand_vest : (s.setLand L w).vest = s.vest := rfl
@[simp] theorem setLand_vid : (s.setLand L w).vid = s.vid := rfl
@[simp] theorem setLand_coln : (s.setLand L w).coln = s.coln := rfl
@[simp] theorem setLand_dmem : (s.setLand L w).dmem = s.dmem := rfl
@[simp] theorem setLand_pow : (s.setLand L w).pow = s.pow := rfl
@[simp] theorem setLand_boot : (s.setLand L w).boot = s.boot := rfl
@[simp] theorem setLand_gq : (s.setLand L w).gq = s.gq := rfl
@[simp] theorem setLand_dbg : (s.setLand L w).dbg = s.dbg := rfl
@[simp] theorem setLand_pins : (s.setLand L w).pins = s.pins := rfl
@[simp] theorem setLand_free : (s.setLand L w).free = s.free := rfl
end setLand

section setPort
variable (L : Nat) (p : LandPort)
@[simp] theorem setPort_pending : (s.setPort L p).pending = s.pending := rfl
@[simp] theorem setPort_clk : (s.setPort L p).clk = s.clk := rfl
@[simp] theorem setPort_od : (s.setPort L p).od = s.od := rfl
@[simp] theorem setPort_odb : (s.setPort L p).odb = s.odb := rfl
@[simp] theorem setPort_dict : (s.setPort L p).dict = s.dict := rfl
@[simp] theorem setPort_tick : (s.setPort L p).tick = s.tick := rfl
@[simp] theorem setPort_host : (s.setPort L p).host = s.host := rfl
@[simp] theorem setPort_flit : (s.setPort L p).flit = s.flit := rfl
@[simp] theorem setPort_falt : (s.setPort L p).falt = s.falt := rfl
@[simp] theorem setPort_trc : (s.setPort L p).trc = s.trc := rfl
@[simp] theorem setPort_cores : (s.setPort L p).cores = s.cores := rfl
@[simp] theorem setPort_newels : (s.setPort L p).newels = s.newels := rfl
@[simp] theorem setPort_arr : (s.setPort L p).arr = s.arr := rfl
@[simp] theorem setPort_mem : (s.setPort L p).mem = s.mem := rfl
@[simp] theorem setPort_bal : (s.setPort L p).bal = s.bal := rfl
@[simp] theorem setPort_ldr : (s.setPort L p).ldr = s.ldr := rfl
@[simp] theorem setPort_clok : (s.setPort L p).clok = s.clok := rfl
@[simp] theorem setPort_ports : (s.setPort L p).ports = s.ports := rfl
@[simp] theorem setPort_ledg : (s.setPort L p).ledg = s.ledg := rfl
@[simp] theorem setPort_vest : (s.setPort L p).vest = s.vest := rfl
@[simp] theorem setPort_vid : (s.setPort L p).vid = s.vid := rfl
@[simp] theorem setPort_coln : (s.setPort L p).coln = s.coln := rfl
@[simp] theorem setPort_dmem : (s.setPort L p).dmem = s.dmem := rfl
@[simp] theorem setPort_pow : (s.setPort L p).pow = s.pow := rfl
@[simp] theorem setPort_boot : (s.setPort L p).boot = s.boot := rfl
@[simp] theorem setPort_gq : (s.setPort L p).gq = s.gq := rfl
@[simp] theorem setPort_dbg : (s.setPort L p).dbg = s.dbg := rfl
@[simp] theorem setPort_pins : (s.setPort L p).pins = s.pins := rfl
@[simp] theorem setPort_free : (s.setPort L p).free = s.free := rfl
end setPort

section setLoad
variable (r : Option LoadRun)
@[simp] theorem setLoad_pending : (s.setLoad r).pending = s.pending := rfl
@[simp] theorem setLoad_clk : (s.setLoad r).clk = s.clk := rfl
@[simp] theorem setLoad_od : (s.setLoad r).od = s.od := rfl
@[simp] theorem setLoad_odb : (s.setLoad r).odb = s.odb := rfl
@[simp] theorem setLoad_dict : (s.setLoad r).dict = s.dict := rfl
@[simp] theorem setLoad_tick : (s.setLoad r).tick = s.tick := rfl
@[simp] theorem setLoad_host : (s.setLoad r).host = s.host := rfl
@[simp] theorem setLoad_land : (s.setLoad r).land = s.land := rfl
@[simp] theorem setLoad_flit : (s.setLoad r).flit = s.flit := rfl
@[simp] theorem setLoad_falt : (s.setLoad r).falt = s.falt := rfl
@[simp] theorem setLoad_trc : (s.setLoad r).trc = s.trc := rfl
@[simp] theorem setLoad_cores : (s.setLoad r).cores = s.cores := rfl
@[simp] theorem setLoad_newels : (s.setLoad r).newels = s.newels := rfl
@[simp] theorem setLoad_arr : (s.setLoad r).arr = s.arr := rfl
@[simp] theorem setLoad_mem : (s.setLoad r).mem = s.mem := rfl
@[simp] theorem setLoad_bal : (s.setLoad r).bal = s.bal := rfl
@[simp] theorem setLoad_clok : (s.setLoad r).clok = s.clok := rfl
@[simp] theorem setLoad_ports : (s.setLoad r).ports = s.ports := rfl
@[simp] theorem setLoad_ledg : (s.setLoad r).ledg = s.ledg := rfl
@[simp] theorem setLoad_vest : (s.setLoad r).vest = s.vest := rfl
@[simp] theorem setLoad_vid : (s.setLoad r).vid = s.vid := rfl
@[simp] theorem setLoad_coln : (s.setLoad r).coln = s.coln := rfl
@[simp] theorem setLoad_dmem : (s.setLoad r).dmem = s.dmem := rfl
@[simp] theorem setLoad_pow : (s.setLoad r).pow = s.pow := rfl
@[simp] theorem setLoad_boot : (s.setLoad r).boot = s.boot := rfl
@[simp] theorem setLoad_gq : (s.setLoad r).gq = s.gq := rfl
@[simp] theorem setLoad_dbg : (s.setLoad r).dbg = s.dbg := rfl
@[simp] theorem setLoad_pins : (s.setLoad r).pins = s.pins := rfl
@[simp] theorem setLoad_free : (s.setLoad r).free = s.free := rfl
end setLoad

section setStream
variable (k : Nat) (t : Stream)
@[simp] theorem setStream_pending : (s.setStream k t).pending = s.pending := rfl
@[simp] theorem setStream_clk : (s.setStream k t).clk = s.clk := rfl
@[simp] theorem setStream_od : (s.setStream k t).od = s.od := rfl
@[simp] theorem setStream_odb : (s.setStream k t).odb = s.odb := rfl
@[simp] theorem setStream_dict : (s.setStream k t).dict = s.dict := rfl
@[simp] theorem setStream_tick : (s.setStream k t).tick = s.tick := rfl
@[simp] theorem setStream_host : (s.setStream k t).host = s.host := rfl
@[simp] theorem setStream_land : (s.setStream k t).land = s.land := rfl
@[simp] theorem setStream_flit : (s.setStream k t).flit = s.flit := rfl
@[simp] theorem setStream_falt : (s.setStream k t).falt = s.falt := rfl
@[simp] theorem setStream_trc : (s.setStream k t).trc = s.trc := rfl
@[simp] theorem setStream_cores : (s.setStream k t).cores = s.cores := rfl
@[simp] theorem setStream_newels : (s.setStream k t).newels = s.newels := rfl
@[simp] theorem setStream_arr : (s.setStream k t).arr = s.arr := rfl
@[simp] theorem setStream_mem : (s.setStream k t).mem = s.mem := rfl
@[simp] theorem setStream_bal : (s.setStream k t).bal = s.bal := rfl
@[simp] theorem setStream_ldr : (s.setStream k t).ldr = s.ldr := rfl
@[simp] theorem setStream_clok : (s.setStream k t).clok = s.clok := rfl
@[simp] theorem setStream_ports : (s.setStream k t).ports = s.ports := rfl
@[simp] theorem setStream_ledg : (s.setStream k t).ledg = s.ledg := rfl
@[simp] theorem setStream_vid : (s.setStream k t).vid = s.vid := rfl
@[simp] theorem setStream_coln : (s.setStream k t).coln = s.coln := rfl
@[simp] theorem setStream_dmem : (s.setStream k t).dmem = s.dmem := rfl
@[simp] theorem setStream_pow : (s.setStream k t).pow = s.pow := rfl
@[simp] theorem setStream_boot : (s.setStream k t).boot = s.boot := rfl
@[simp] theorem setStream_gq : (s.setStream k t).gq = s.gq := rfl
@[simp] theorem setStream_dbg : (s.setStream k t).dbg = s.dbg := rfl
@[simp] theorem setStream_pins : (s.setStream k t).pins = s.pins := rfl
@[simp] theorem setStream_free : (s.setStream k t).free = s.free := rfl
end setStream

section setScalerJob
variable (k : Nat) (j : Option ScalerJob)
@[simp] theorem setScalerJob_pending : (s.setScalerJob k j).pending = s.pending := rfl
@[simp] theorem setScalerJob_clk : (s.setScalerJob k j).clk = s.clk := rfl
@[simp] theorem setScalerJob_od : (s.setScalerJob k j).od = s.od := rfl
@[simp] theorem setScalerJob_odb : (s.setScalerJob k j).odb = s.odb := rfl
@[simp] theorem setScalerJob_dict : (s.setScalerJob k j).dict = s.dict := rfl
@[simp] theorem setScalerJob_tick : (s.setScalerJob k j).tick = s.tick := rfl
@[simp] theorem setScalerJob_host : (s.setScalerJob k j).host = s.host := rfl
@[simp] theorem setScalerJob_land : (s.setScalerJob k j).land = s.land := rfl
@[simp] theorem setScalerJob_flit : (s.setScalerJob k j).flit = s.flit := rfl
@[simp] theorem setScalerJob_falt : (s.setScalerJob k j).falt = s.falt := rfl
@[simp] theorem setScalerJob_trc : (s.setScalerJob k j).trc = s.trc := rfl
@[simp] theorem setScalerJob_cores : (s.setScalerJob k j).cores = s.cores := rfl
@[simp] theorem setScalerJob_newels : (s.setScalerJob k j).newels = s.newels := rfl
@[simp] theorem setScalerJob_arr : (s.setScalerJob k j).arr = s.arr := rfl
@[simp] theorem setScalerJob_mem : (s.setScalerJob k j).mem = s.mem := rfl
@[simp] theorem setScalerJob_bal : (s.setScalerJob k j).bal = s.bal := rfl
@[simp] theorem setScalerJob_ldr : (s.setScalerJob k j).ldr = s.ldr := rfl
@[simp] theorem setScalerJob_clok : (s.setScalerJob k j).clok = s.clok := rfl
@[simp] theorem setScalerJob_ports : (s.setScalerJob k j).ports = s.ports := rfl
@[simp] theorem setScalerJob_ledg : (s.setScalerJob k j).ledg = s.ledg := rfl
@[simp] theorem setScalerJob_vid : (s.setScalerJob k j).vid = s.vid := rfl
@[simp] theorem setScalerJob_coln : (s.setScalerJob k j).coln = s.coln := rfl
@[simp] theorem setScalerJob_dmem : (s.setScalerJob k j).dmem = s.dmem := rfl
@[simp] theorem setScalerJob_pow : (s.setScalerJob k j).pow = s.pow := rfl
@[simp] theorem setScalerJob_boot : (s.setScalerJob k j).boot = s.boot := rfl
@[simp] theorem setScalerJob_gq : (s.setScalerJob k j).gq = s.gq := rfl
@[simp] theorem setScalerJob_dbg : (s.setScalerJob k j).dbg = s.dbg := rfl
@[simp] theorem setScalerJob_pins : (s.setScalerJob k j).pins = s.pins := rfl
@[simp] theorem setScalerJob_free : (s.setScalerJob k j).free = s.free := rfl
end setScalerJob

section setDecCtx
variable (x : Nat) (c : DecCtx)
@[simp] theorem setDecCtx_pending : (s.setDecCtx x c).pending = s.pending := rfl
@[simp] theorem setDecCtx_clk : (s.setDecCtx x c).clk = s.clk := rfl
@[simp] theorem setDecCtx_od : (s.setDecCtx x c).od = s.od := rfl
@[simp] theorem setDecCtx_odb : (s.setDecCtx x c).odb = s.odb := rfl
@[simp] theorem setDecCtx_dict : (s.setDecCtx x c).dict = s.dict := rfl
@[simp] theorem setDecCtx_tick : (s.setDecCtx x c).tick = s.tick := rfl
@[simp] theorem setDecCtx_host : (s.setDecCtx x c).host = s.host := rfl
@[simp] theorem setDecCtx_land : (s.setDecCtx x c).land = s.land := rfl
@[simp] theorem setDecCtx_flit : (s.setDecCtx x c).flit = s.flit := rfl
@[simp] theorem setDecCtx_falt : (s.setDecCtx x c).falt = s.falt := rfl
@[simp] theorem setDecCtx_trc : (s.setDecCtx x c).trc = s.trc := rfl
@[simp] theorem setDecCtx_cores : (s.setDecCtx x c).cores = s.cores := rfl
@[simp] theorem setDecCtx_newels : (s.setDecCtx x c).newels = s.newels := rfl
@[simp] theorem setDecCtx_arr : (s.setDecCtx x c).arr = s.arr := rfl
@[simp] theorem setDecCtx_mem : (s.setDecCtx x c).mem = s.mem := rfl
@[simp] theorem setDecCtx_bal : (s.setDecCtx x c).bal = s.bal := rfl
@[simp] theorem setDecCtx_ldr : (s.setDecCtx x c).ldr = s.ldr := rfl
@[simp] theorem setDecCtx_clok : (s.setDecCtx x c).clok = s.clok := rfl
@[simp] theorem setDecCtx_ports : (s.setDecCtx x c).ports = s.ports := rfl
@[simp] theorem setDecCtx_ledg : (s.setDecCtx x c).ledg = s.ledg := rfl
@[simp] theorem setDecCtx_vest : (s.setDecCtx x c).vest = s.vest := rfl
@[simp] theorem setDecCtx_coln : (s.setDecCtx x c).coln = s.coln := rfl
@[simp] theorem setDecCtx_dmem : (s.setDecCtx x c).dmem = s.dmem := rfl
@[simp] theorem setDecCtx_pow : (s.setDecCtx x c).pow = s.pow := rfl
@[simp] theorem setDecCtx_boot : (s.setDecCtx x c).boot = s.boot := rfl
@[simp] theorem setDecCtx_gq : (s.setDecCtx x c).gq = s.gq := rfl
@[simp] theorem setDecCtx_dbg : (s.setDecCtx x c).dbg = s.dbg := rfl
@[simp] theorem setDecCtx_pins : (s.setDecCtx x c).pins = s.pins := rfl
@[simp] theorem setDecCtx_free : (s.setDecCtx x c).free = s.free := rfl
end setDecCtx

section setDecJob
variable (e : Nat) (j : Option DecJob)
@[simp] theorem setDecJob_pending : (s.setDecJob e j).pending = s.pending := rfl
@[simp] theorem setDecJob_clk : (s.setDecJob e j).clk = s.clk := rfl
@[simp] theorem setDecJob_od : (s.setDecJob e j).od = s.od := rfl
@[simp] theorem setDecJob_odb : (s.setDecJob e j).odb = s.odb := rfl
@[simp] theorem setDecJob_dict : (s.setDecJob e j).dict = s.dict := rfl
@[simp] theorem setDecJob_tick : (s.setDecJob e j).tick = s.tick := rfl
@[simp] theorem setDecJob_host : (s.setDecJob e j).host = s.host := rfl
@[simp] theorem setDecJob_land : (s.setDecJob e j).land = s.land := rfl
@[simp] theorem setDecJob_flit : (s.setDecJob e j).flit = s.flit := rfl
@[simp] theorem setDecJob_falt : (s.setDecJob e j).falt = s.falt := rfl
@[simp] theorem setDecJob_trc : (s.setDecJob e j).trc = s.trc := rfl
@[simp] theorem setDecJob_cores : (s.setDecJob e j).cores = s.cores := rfl
@[simp] theorem setDecJob_newels : (s.setDecJob e j).newels = s.newels := rfl
@[simp] theorem setDecJob_arr : (s.setDecJob e j).arr = s.arr := rfl
@[simp] theorem setDecJob_mem : (s.setDecJob e j).mem = s.mem := rfl
@[simp] theorem setDecJob_bal : (s.setDecJob e j).bal = s.bal := rfl
@[simp] theorem setDecJob_ldr : (s.setDecJob e j).ldr = s.ldr := rfl
@[simp] theorem setDecJob_clok : (s.setDecJob e j).clok = s.clok := rfl
@[simp] theorem setDecJob_ports : (s.setDecJob e j).ports = s.ports := rfl
@[simp] theorem setDecJob_ledg : (s.setDecJob e j).ledg = s.ledg := rfl
@[simp] theorem setDecJob_vest : (s.setDecJob e j).vest = s.vest := rfl
@[simp] theorem setDecJob_coln : (s.setDecJob e j).coln = s.coln := rfl
@[simp] theorem setDecJob_dmem : (s.setDecJob e j).dmem = s.dmem := rfl
@[simp] theorem setDecJob_pow : (s.setDecJob e j).pow = s.pow := rfl
@[simp] theorem setDecJob_boot : (s.setDecJob e j).boot = s.boot := rfl
@[simp] theorem setDecJob_gq : (s.setDecJob e j).gq = s.gq := rfl
@[simp] theorem setDecJob_dbg : (s.setDecJob e j).dbg = s.dbg := rfl
@[simp] theorem setDecJob_pins : (s.setDecJob e j).pins = s.pins := rfl
@[simp] theorem setDecJob_free : (s.setDecJob e j).free = s.free := rfl
end setDecJob

section setEncCtx
variable (x : Nat) (c : EncCtx)
@[simp] theorem setEncCtx_pending : (s.setEncCtx x c).pending = s.pending := rfl
@[simp] theorem setEncCtx_clk : (s.setEncCtx x c).clk = s.clk := rfl
@[simp] theorem setEncCtx_od : (s.setEncCtx x c).od = s.od := rfl
@[simp] theorem setEncCtx_odb : (s.setEncCtx x c).odb = s.odb := rfl
@[simp] theorem setEncCtx_dict : (s.setEncCtx x c).dict = s.dict := rfl
@[simp] theorem setEncCtx_tick : (s.setEncCtx x c).tick = s.tick := rfl
@[simp] theorem setEncCtx_host : (s.setEncCtx x c).host = s.host := rfl
@[simp] theorem setEncCtx_land : (s.setEncCtx x c).land = s.land := rfl
@[simp] theorem setEncCtx_flit : (s.setEncCtx x c).flit = s.flit := rfl
@[simp] theorem setEncCtx_falt : (s.setEncCtx x c).falt = s.falt := rfl
@[simp] theorem setEncCtx_trc : (s.setEncCtx x c).trc = s.trc := rfl
@[simp] theorem setEncCtx_cores : (s.setEncCtx x c).cores = s.cores := rfl
@[simp] theorem setEncCtx_newels : (s.setEncCtx x c).newels = s.newels := rfl
@[simp] theorem setEncCtx_arr : (s.setEncCtx x c).arr = s.arr := rfl
@[simp] theorem setEncCtx_mem : (s.setEncCtx x c).mem = s.mem := rfl
@[simp] theorem setEncCtx_bal : (s.setEncCtx x c).bal = s.bal := rfl
@[simp] theorem setEncCtx_ldr : (s.setEncCtx x c).ldr = s.ldr := rfl
@[simp] theorem setEncCtx_clok : (s.setEncCtx x c).clok = s.clok := rfl
@[simp] theorem setEncCtx_ports : (s.setEncCtx x c).ports = s.ports := rfl
@[simp] theorem setEncCtx_ledg : (s.setEncCtx x c).ledg = s.ledg := rfl
@[simp] theorem setEncCtx_vest : (s.setEncCtx x c).vest = s.vest := rfl
@[simp] theorem setEncCtx_coln : (s.setEncCtx x c).coln = s.coln := rfl
@[simp] theorem setEncCtx_dmem : (s.setEncCtx x c).dmem = s.dmem := rfl
@[simp] theorem setEncCtx_pow : (s.setEncCtx x c).pow = s.pow := rfl
@[simp] theorem setEncCtx_boot : (s.setEncCtx x c).boot = s.boot := rfl
@[simp] theorem setEncCtx_gq : (s.setEncCtx x c).gq = s.gq := rfl
@[simp] theorem setEncCtx_dbg : (s.setEncCtx x c).dbg = s.dbg := rfl
@[simp] theorem setEncCtx_pins : (s.setEncCtx x c).pins = s.pins := rfl
@[simp] theorem setEncCtx_free : (s.setEncCtx x c).free = s.free := rfl
end setEncCtx

section setEncJob
variable (j : Option EncJob)
@[simp] theorem setEncJob_pending : (s.setEncJob j).pending = s.pending := rfl
@[simp] theorem setEncJob_clk : (s.setEncJob j).clk = s.clk := rfl
@[simp] theorem setEncJob_od : (s.setEncJob j).od = s.od := rfl
@[simp] theorem setEncJob_odb : (s.setEncJob j).odb = s.odb := rfl
@[simp] theorem setEncJob_dict : (s.setEncJob j).dict = s.dict := rfl
@[simp] theorem setEncJob_tick : (s.setEncJob j).tick = s.tick := rfl
@[simp] theorem setEncJob_host : (s.setEncJob j).host = s.host := rfl
@[simp] theorem setEncJob_land : (s.setEncJob j).land = s.land := rfl
@[simp] theorem setEncJob_flit : (s.setEncJob j).flit = s.flit := rfl
@[simp] theorem setEncJob_falt : (s.setEncJob j).falt = s.falt := rfl
@[simp] theorem setEncJob_trc : (s.setEncJob j).trc = s.trc := rfl
@[simp] theorem setEncJob_cores : (s.setEncJob j).cores = s.cores := rfl
@[simp] theorem setEncJob_newels : (s.setEncJob j).newels = s.newels := rfl
@[simp] theorem setEncJob_arr : (s.setEncJob j).arr = s.arr := rfl
@[simp] theorem setEncJob_mem : (s.setEncJob j).mem = s.mem := rfl
@[simp] theorem setEncJob_bal : (s.setEncJob j).bal = s.bal := rfl
@[simp] theorem setEncJob_ldr : (s.setEncJob j).ldr = s.ldr := rfl
@[simp] theorem setEncJob_clok : (s.setEncJob j).clok = s.clok := rfl
@[simp] theorem setEncJob_ports : (s.setEncJob j).ports = s.ports := rfl
@[simp] theorem setEncJob_ledg : (s.setEncJob j).ledg = s.ledg := rfl
@[simp] theorem setEncJob_vest : (s.setEncJob j).vest = s.vest := rfl
@[simp] theorem setEncJob_coln : (s.setEncJob j).coln = s.coln := rfl
@[simp] theorem setEncJob_dmem : (s.setEncJob j).dmem = s.dmem := rfl
@[simp] theorem setEncJob_pow : (s.setEncJob j).pow = s.pow := rfl
@[simp] theorem setEncJob_boot : (s.setEncJob j).boot = s.boot := rfl
@[simp] theorem setEncJob_gq : (s.setEncJob j).gq = s.gq := rfl
@[simp] theorem setEncJob_dbg : (s.setEncJob j).dbg = s.dbg := rfl
@[simp] theorem setEncJob_pins : (s.setEncJob j).pins = s.pins := rfl
@[simp] theorem setEncJob_free : (s.setEncJob j).free = s.free := rfl
end setEncJob

section setMemByte
variable (a : Nat) (b : Byte)
@[simp] theorem setMemByte_pending : (s.setMemByte a b).pending = s.pending := rfl
@[simp] theorem setMemByte_clk : (s.setMemByte a b).clk = s.clk := rfl
@[simp] theorem setMemByte_od : (s.setMemByte a b).od = s.od := rfl
@[simp] theorem setMemByte_odb : (s.setMemByte a b).odb = s.odb := rfl
@[simp] theorem setMemByte_dict : (s.setMemByte a b).dict = s.dict := rfl
@[simp] theorem setMemByte_tick : (s.setMemByte a b).tick = s.tick := rfl
@[simp] theorem setMemByte_host : (s.setMemByte a b).host = s.host := rfl
@[simp] theorem setMemByte_land : (s.setMemByte a b).land = s.land := rfl
@[simp] theorem setMemByte_flit : (s.setMemByte a b).flit = s.flit := rfl
@[simp] theorem setMemByte_falt : (s.setMemByte a b).falt = s.falt := rfl
@[simp] theorem setMemByte_trc : (s.setMemByte a b).trc = s.trc := rfl
@[simp] theorem setMemByte_cores : (s.setMemByte a b).cores = s.cores := rfl
@[simp] theorem setMemByte_newels : (s.setMemByte a b).newels = s.newels := rfl
@[simp] theorem setMemByte_arr : (s.setMemByte a b).arr = s.arr := rfl
@[simp] theorem setMemByte_bal : (s.setMemByte a b).bal = s.bal := rfl
@[simp] theorem setMemByte_ldr : (s.setMemByte a b).ldr = s.ldr := rfl
@[simp] theorem setMemByte_clok : (s.setMemByte a b).clok = s.clok := rfl
@[simp] theorem setMemByte_ports : (s.setMemByte a b).ports = s.ports := rfl
@[simp] theorem setMemByte_ledg : (s.setMemByte a b).ledg = s.ledg := rfl
@[simp] theorem setMemByte_vest : (s.setMemByte a b).vest = s.vest := rfl
@[simp] theorem setMemByte_vid : (s.setMemByte a b).vid = s.vid := rfl
@[simp] theorem setMemByte_coln : (s.setMemByte a b).coln = s.coln := rfl
@[simp] theorem setMemByte_dmem : (s.setMemByte a b).dmem = s.dmem := rfl
@[simp] theorem setMemByte_pow : (s.setMemByte a b).pow = s.pow := rfl
@[simp] theorem setMemByte_boot : (s.setMemByte a b).boot = s.boot := rfl
@[simp] theorem setMemByte_gq : (s.setMemByte a b).gq = s.gq := rfl
@[simp] theorem setMemByte_dbg : (s.setMemByte a b).dbg = s.dbg := rfl
@[simp] theorem setMemByte_pins : (s.setMemByte a b).pins = s.pins := rfl
@[simp] theorem setMemByte_free : (s.setMemByte a b).free = s.free := rfl
end setMemByte

section setHostByte
variable (a : Nat) (b : Byte)
@[simp] theorem setHostByte_pending : (s.setHostByte a b).pending = s.pending := rfl
@[simp] theorem setHostByte_clk : (s.setHostByte a b).clk = s.clk := rfl
@[simp] theorem setHostByte_od : (s.setHostByte a b).od = s.od := rfl
@[simp] theorem setHostByte_odb : (s.setHostByte a b).odb = s.odb := rfl
@[simp] theorem setHostByte_dict : (s.setHostByte a b).dict = s.dict := rfl
@[simp] theorem setHostByte_tick : (s.setHostByte a b).tick = s.tick := rfl
@[simp] theorem setHostByte_land : (s.setHostByte a b).land = s.land := rfl
@[simp] theorem setHostByte_flit : (s.setHostByte a b).flit = s.flit := rfl
@[simp] theorem setHostByte_falt : (s.setHostByte a b).falt = s.falt := rfl
@[simp] theorem setHostByte_trc : (s.setHostByte a b).trc = s.trc := rfl
@[simp] theorem setHostByte_cores : (s.setHostByte a b).cores = s.cores := rfl
@[simp] theorem setHostByte_newels : (s.setHostByte a b).newels = s.newels := rfl
@[simp] theorem setHostByte_arr : (s.setHostByte a b).arr = s.arr := rfl
@[simp] theorem setHostByte_mem : (s.setHostByte a b).mem = s.mem := rfl
@[simp] theorem setHostByte_bal : (s.setHostByte a b).bal = s.bal := rfl
@[simp] theorem setHostByte_ldr : (s.setHostByte a b).ldr = s.ldr := rfl
@[simp] theorem setHostByte_clok : (s.setHostByte a b).clok = s.clok := rfl
@[simp] theorem setHostByte_ports : (s.setHostByte a b).ports = s.ports := rfl
@[simp] theorem setHostByte_ledg : (s.setHostByte a b).ledg = s.ledg := rfl
@[simp] theorem setHostByte_vest : (s.setHostByte a b).vest = s.vest := rfl
@[simp] theorem setHostByte_vid : (s.setHostByte a b).vid = s.vid := rfl
@[simp] theorem setHostByte_coln : (s.setHostByte a b).coln = s.coln := rfl
@[simp] theorem setHostByte_dmem : (s.setHostByte a b).dmem = s.dmem := rfl
@[simp] theorem setHostByte_pow : (s.setHostByte a b).pow = s.pow := rfl
@[simp] theorem setHostByte_boot : (s.setHostByte a b).boot = s.boot := rfl
@[simp] theorem setHostByte_gq : (s.setHostByte a b).gq = s.gq := rfl
@[simp] theorem setHostByte_dbg : (s.setHostByte a b).dbg = s.dbg := rfl
@[simp] theorem setHostByte_pins : (s.setHostByte a b).pins = s.pins := rfl
@[simp] theorem setHostByte_free : (s.setHostByte a b).free = s.free := rfl
end setHostByte

/-! ### What the written places read -/

@[simp] theorem rd_wr_same (k v : Nat) : (s.wr k v).rd k = v := Sparse.get_put_same ..

theorem rd_wr (k j v : Nat) : (s.wr k v).rd j = if j = k then v else s.rd j := Sparse.get_put ..

@[simp] theorem rd_wr_ne {k j : Nat} (h : j ≠ k) (v : Nat) : (s.wr k v).rd j = s.rd j := Sparse.get_put_ne _ _ h _

theorem rd_bump (k j : Nat) : (s.bump k).rd j = if j = k then min (s.rd k + 1) 0xFFFFFFFF else s.rd j := rd_wr ..

theorem rd_setOdBit (k i j : Nat) (b : Bool) : (s.setOdBit k i b).rd j = if j = k then setBit (s.rd k) i b else s.rd j :=
  rd_wr ..

/-- An object's value depends on the value store alone. -/
theorem rd_of_od {s t : State} (h : t.od = s.od) (k : Nat) : t.rd k = s.rd k := by
  unfold State.rd
  rw [h]

@[simp] theorem rdBytes_wrBytes_same (k : Nat) (bs : List Byte) : (s.wrBytes k bs).rdBytes k = bs := Sparse.get_put_same ..

@[simp] theorem core_setCore_same (n : Nat) (c : Core) : (s.setCore n c).core n = c := Sparse.get_put_same ..

@[simp] theorem core_setCore_ne {n m : Nat} (h : m ≠ n) (c : Core) : (s.setCore n c).core m = s.core m :=
  Sparse.get_put_ne _ _ h _

@[simp] theorem item_setItem_same (i : Nat) (x : Item) : (s.setItem i x).item i = x := Sparse.get_put_same ..

@[simp] theorem item_setItem_ne {i j : Nat} (h : j ≠ i) (x : Item) : (s.setItem i x).item j = s.item j :=
  Sparse.get_put_ne _ _ h _

@[simp] theorem tenancy_setTenancy_same (t : Nat) (x : Tenancy) : (s.setTenancy t x).tenancy t = x := Sparse.get_put_same ..

@[simp] theorem win_setWin_same (p : Path) (w : DictWindow) : (s.setWin p w).win p = w := Sparse.get_put_same ..

end Sys2Proof.Machine
end

