-- ==== Sys2Proof/Laws/Access.lean ====
section
/-!
SUPPORT. What a served step on a path leaves: the unit's effect, and the answer on the path.
-/

set_option Elab.async false

namespace Sys2Proof.Machine

/-- The state after a step on a path has been answered: the last response, and the window's answer. -/
def State.withAnswer (s : State) (p : Path) (irq : Bool) (r : Resp) : State :=
  let s := s.setResp p r
  if isWindow p then
    s.setWin p { s.win p with busy := true, done := false, overrun := false, irq := irq, answer := some r }
  else s

theorem withAnswer_dict_only (s : State) (p : Path) (irq : Bool) (r : Resp) :
    s.withAnswer p irq r = { s with dict := (s.withAnswer p irq r).dict } := by
  unfold State.withAnswer
  dsimp only
  split <;> rfl

section fields
variable (s : State) (p : Path) (irq : Bool) (r : Resp)
@[simp] theorem withAnswer_pending : (s.withAnswer p irq r).pending = s.pending := by rw [withAnswer_dict_only]
@[simp] theorem withAnswer_clk : (s.withAnswer p irq r).clk = s.clk := by rw [withAnswer_dict_only]
@[simp] theorem withAnswer_od : (s.withAnswer p irq r).od = s.od := by rw [withAnswer_dict_only]
@[simp] theorem withAnswer_odb : (s.withAnswer p irq r).odb = s.odb := by rw [withAnswer_dict_only]
@[simp] theorem withAnswer_tick : (s.withAnswer p irq r).tick = s.tick := by rw [withAnswer_dict_only]
@[simp] theorem withAnswer_host : (s.withAnswer p irq r).host = s.host := by rw [withAnswer_dict_only]
@[simp] theorem withAnswer_land : (s.withAnswer p irq r).land = s.land := by rw [withAnswer_dict_only]
@[simp] theorem withAnswer_flit : (s.withAnswer p irq r).flit = s.flit := by rw [withAnswer_dict_only]
@[simp] theorem withAnswer_falt : (s.withAnswer p irq r).falt = s.falt := by rw [withAnswer_dict_only]
@[simp] theorem withAnswer_trc : (s.withAnswer p irq r).trc = s.trc := by rw [withAnswer_dict_only]
@[simp] theorem withAnswer_cores : (s.withAnswer p irq r).cores = s.cores := by rw [withAnswer_dict_only]
@[simp] theorem withAnswer_newels : (s.withAnswer p irq r).newels = s.newels := by rw [withAnswer_dict_only]
@[simp] theorem withAnswer_arr : (s.withAnswer p irq r).arr = s.arr := by rw [withAnswer_dict_only]
@[simp] theorem withAnswer_mem : (s.withAnswer p irq r).mem = s.mem := by rw [withAnswer_dict_only]
@[simp] theorem withAnswer_bal : (s.withAnswer p irq r).bal = s.bal := by rw [withAnswer_dict_only]
@[simp] theorem withAnswer_ldr : (s.withAnswer p irq r).ldr = s.ldr := by rw [withAnswer_dict_only]
@[simp] theorem withAnswer_clok : (s.withAnswer p irq r).clok = s.clok := by rw [withAnswer_dict_only]
@[simp] theorem withAnswer_ports : (s.withAnswer p irq r).ports = s.ports := by rw [withAnswer_dict_only]
@[simp] theorem withAnswer_ledg : (s.withAnswer p irq r).ledg = s.ledg := by rw [withAnswer_dict_only]
@[simp] theorem withAnswer_vest : (s.withAnswer p irq r).vest = s.vest := by rw [withAnswer_dict_only]
@[simp] theorem withAnswer_vid : (s.withAnswer p irq r).vid = s.vid := by rw [withAnswer_dict_only]
@[simp] theorem withAnswer_coln : (s.withAnswer p irq r).coln = s.coln := by rw [withAnswer_dict_only]
@[simp] theorem withAnswer_dmem : (s.withAnswer p irq r).dmem = s.dmem := by rw [withAnswer_dict_only]
@[simp] theorem withAnswer_pow : (s.withAnswer p irq r).pow = s.pow := by rw [withAnswer_dict_only]
@[simp] theorem withAnswer_boot : (s.withAnswer p irq r).boot = s.boot := by rw [withAnswer_dict_only]
@[simp] theorem withAnswer_gq : (s.withAnswer p irq r).gq = s.gq := by rw [withAnswer_dict_only]
@[simp] theorem withAnswer_dbg : (s.withAnswer p irq r).dbg = s.dbg := by rw [withAnswer_dict_only]
@[simp] theorem withAnswer_pins : (s.withAnswer p irq r).pins = s.pins := by rw [withAnswer_dict_only]
@[simp] theorem withAnswer_free : (s.withAnswer p irq r).free = s.free := by rw [withAnswer_dict_only]
@[simp] theorem withAnswer_rd (k : Nat) : (s.withAnswer p irq r).rd k = s.rd k := rd_of_od (withAnswer_od s p irq r) k

@[simp] theorem withAnswer_fresh : (s.withAnswer p irq r).dict.fresh = s.dict.fresh := by
  unfold State.withAnswer
  dsimp only
  split <;> rfl
@[simp] theorem withAnswer_staged : (s.withAnswer p irq r).dict.staged = s.dict.staged := by
  unfold State.withAnswer
  dsimp only
  split <;> rfl
@[simp] theorem withAnswer_xfer : (s.withAnswer p irq r).dict.xfer = s.dict.xfer := by
  unfold State.withAnswer
  dsimp only
  split <;> rfl

theorem withAnswer_answered : (s.withAnswer p irq r).answered p r = true := by
  unfold State.withAnswer State.answered State.lastResp
  dsimp only
  split
  · simp [*, State.setResp, State.setWin, State.win]
  · simp [*, State.setResp]
end fields

/-- A served step. -/
theorem serve_open {s : State} {p : Path} (h : s.open_ p = true) (irq : Bool) (f : State → Resp × State) :
    s.serve p irq f = (f s).2.withAnswer p irq (f s).1 := by
  unfold State.open_ at h
  unfold State.serve State.withAnswer
  rw [Bool.and_eq_true, Bool.not_eq_true'] at h
  rw [if_neg (by simp [h.1]), if_neg (by simp [h.2])]

/-- A step that is not served: the path is dead, or the window only notes the overrun. -/
theorem serve_closed {s : State} {p : Path} (h : s.open_ p = false) (irq : Bool) (f : State → Resp × State) :
    s.serve p irq f = if s.pathLive p then s.setWin p { s.win p with overrun := true } else s := by
  unfold State.open_ at h
  unfold State.serve
  cases hl : s.pathLive p
  · simp
  · simp_all

theorem dwSet_win (s : State) (p : Path) (cmd obj len : Nat) (bs : List Byte) :
    s.dwSet p cmd obj len bs = { s with dict := { s.dict with win := (s.dwSet p cmd obj len bs).dict.win } } := by
  unfold State.dwSet State.setWin
  split <;> rfl

section window
variable (s : State) (w : Sparse DictWindow)

theorem checkObject_win (p : Path) (b : Bool) (i j k : Nat) :
    State.checkObject { s with dict := { s.dict with win := w } } p b i j k = s.checkObject p b i j k := rfl

theorem checkWrite_win (p : Path) (i j n v : Nat) :
    State.checkWrite { s with dict := { s.dict with win := w } } p i j n v = s.checkWrite p i j n v := rfl

theorem checkBlob_win (p : Path) (i j n : Nat) :
    State.checkBlob { s with dict := { s.dict with win := w } } p i j n = s.checkBlob p i j n := rfl
end window

@[simp] theorem checkWrite_dwSet (s : State) (p q : Path) (cmd obj len : Nat) (bs : List Byte) (i j n v : Nat) :
    (s.dwSet q cmd obj len bs).checkWrite p i j n v = s.checkWrite p i j n v := by
  rw [dwSet_win]; exact checkWrite_win ..

@[simp] theorem checkBlob_dwSet (s : State) (p q : Path) (cmd obj len : Nat) (bs : List Byte) (i j n : Nat) :
    (s.dwSet q cmd obj len bs).checkBlob p i j n = s.checkBlob p i j n := by
  rw [dwSet_win]; exact checkBlob_win ..

/-- What the host writes into a window before a step leaves the window as free as it was. -/
@[simp] theorem open_dwSet (s : State) (p : Path) (cmd obj len : Nat) (bs : List Byte) :
    (s.dwSet p cmd obj len bs).open_ p = s.open_ p := by
  have hl : (s.dwSet p cmd obj len bs).pathLive p = s.pathLive p := by rw [dwSet_win]; rfl
  have hb : ((s.dwSet p cmd obj len bs).win p).busy = (s.win p).busy := by
    unfold State.dwSet
    split
    · simp [State.win, State.setWin]
    · rfl
  unfold State.open_
  rw [hl, hb]

/-- A write that every check admits reaches its unit, and what the unit makes of the state stands. -/
theorem dictWrite_admits {s t : State} {p : Path} {k len v m : Nat} (h : s.admits p k len v m = true) (irq : Bool)
    {act : Nat → State → Nat × State}
    (ha : act m (s.dwSet p (dwCmd irq false false 0 false true) k len (leBytes 8 v)) = (0, t)) :
    s.dictWrite p irq k len v act = t.withAnswer p irq {} := by
  unfold State.admits at h
  rw [Bool.and_eq_true] at h
  unfold State.dictWrite
  rw [serve_open (by rw [open_dwSet]; exact h.1)]
  have h2 := h.2
  split at h2
  · rename_i o m' e
    rw [checkWrite_dwSet, e]
    have hm : m' = m := by simpa using h2
    simp [hm, ha]
  · exact absurd h2 (by simp)

/-- What an accepted write answers with: its unit's effect, the answer, and whatever holds of both. -/
theorem exec_admits {s t : State} {i : Instr} {p : Path} {k len v m : Nat} {act : Nat → State → Nat × State}
    (e : Sys2Proof.Machine.exec i s = .next (s.dictWrite p false k len v act)) (h : s.admits p k len v m = true)
    (ha : act m (s.dwSet p (dwCmd false false false 0 false true) k len (leBytes 8 v)) = (0, t)) (P : State → Prop)
    (hP : P (t.withAnswer p false {})) :
    ∃ u, Sys2Proof.Machine.exec i s = .next u ∧ u.answered p {} ∧ P u :=
  ⟨_, e.trans (congrArg Host.Outcome.next (dictWrite_admits h false ha)), withAnswer_answered .., hP⟩

/-- A whole BLOB write that every check admits reaches its unit. -/
theorem exec_blob {s t : State} {i : Instr} {p : Path} {k : Nat} {bs : List Byte} {act : List Byte → State → Nat × State}
    (e : Sys2Proof.Machine.exec i s = .next (s.blobWrite p k bs act)) (h : s.admitsBlob p k bs.length = true)
    (ha : act bs (s.dwSet p (segCmd true bs.length) k bs.length (lastSegment bs)) = (0, t)) (P : State → Prop)
    (hP : P (t.withAnswer p false {})) :
    ∃ u, Sys2Proof.Machine.exec i s = .next u ∧ u.answered p {} ∧ P u := by
  have e2 : s.blobWrite p k bs act = t.withAnswer p false {} := by
    unfold State.admitsBlob at h
    rw [Bool.and_eq_true] at h
    unfold State.blobWrite
    rw [serve_open (by rw [open_dwSet]; exact h.1)]
    have h2 := h.2
    split at h2
    · rename_i e'
      rw [checkBlob_dwSet, e']
      simp [ha]
    · exact absurd h2 (by simp)
  exact ⟨_, e.trans (congrArg Host.Outcome.next e2), withAnswer_answered .., hP⟩

/-- A whole BLOB read that every check admits returns its unit's bytes, and uses them up. -/
theorem blobRead_admits {s : State} {p : Path} {k : Nat} {get : State → Except Nat (List Byte)}
    {use : List Byte → State → State} {bs : List Byte} (h : s.admitsRead p k = true) (hg : ∀ w, get { s with dict := { s.dict with win := w } } = .ok bs)
    (hb : bs ≠ []) :
    s.blobRead p k get use =
      (use bs (s.dwSet p (segCmd false bs.length) k 0 [])).withAnswer p false { bytes := bs, last := true } := by
  unfold State.admitsRead at h
  simp only [Bool.and_eq_true, decide_eq_true_eq] at h
  obtain ⟨⟨⟨⟨h1, h2⟩, h5⟩, h3⟩, h4⟩ := h
  have key : ∀ w, State.readSnap { s with dict := { s.dict with win := w } } p k get = .ok bs := by
    intro w
    unfold State.readSnap
    rw [checkObject_win, hg]
    split at h2
    · rename_i o e'
      rw [e']
      have ho : o.ty.size = 0 := by simpa using h2
      have hx : (State.xfer { s with dict := { s.dict with win := w } } p).isSome = false := by
        have : s.xfer p = none := Option.isNone_iff_eq_none.1 h5
        show (s.xfer p).isSome = false
        rw [this]; rfl
      have hp : State.objPowered { s with dict := { s.dict with win := w } } k = true := h4
      cases bs with
      | nil => exact absurd rfl hb
      | cons b l => simp [ho, hx, hp, h3]
    · exact absurd h2 (by simp)
  have k0 : s.readSnap p k get = .ok bs := key s.dict.win
  unfold State.blobRead
  rw [k0, serve_open (by rw [open_dwSet]; exact h1)]
  have k1 := key (s.dwSet p (segCmd false bs.length) k 0 []).dict.win
  rw [← dwSet_win] at k1
  simp [k1]

/-! ### Frames -/

theorem State.SameData.refl (s : State) : s.SameData s := ⟨rfl, rfl, rfl, rfl, rfl⟩

theorem State.SameData.trans {s t u : State} (h : s.SameData t) (k : t.SameData u) : s.SameData u :=
  ⟨k.mem.trans h.mem, k.host.trans h.host, k.land.trans h.land, k.flit.trans h.flit, k.cores.trans h.cores⟩

theorem State.SameData.answer {s t : State} (h : s.SameData t) {p : Path} {irq : Bool} {r : Resp} :
    s.SameData (t.withAnswer p irq r) :=
  ⟨by simp [h.mem], by simp [h.host], by simp [h.land], by simp [h.flit], by simp [h.cores]⟩

theorem State.SameData.wr {s t : State} (h : s.SameData t) (k v : Nat) : s.SameData (t.wr k v) :=
  ⟨h.mem, h.host, h.land, h.flit, h.cores⟩

theorem State.SameData.bump {s t : State} (h : s.SameData t) (k : Nat) : s.SameData (t.bump k) :=
  ⟨h.mem, h.host, h.land, h.flit, h.cores⟩

theorem signal_sameData (s : State) (pf1 : Bool) (v : Nat) : s.SameData (s.signal pf1 v) := by
  unfold State.signal State.setMsix
  dsimp only
  repeat' split
  all_goals exact ⟨rfl, rfl, rfl, rfl, rfl⟩

@[simp] theorem signal_rd (s : State) (pf1 : Bool) (v k : Nat) : (s.signal pf1 v).rd k = s.rd k := by
  unfold State.signal State.setMsix
  dsimp only
  repeat' split
  all_goals rfl

theorem Keep.sameData {fs : List Field} {s t : State} (h : Keep fs s t)
    (hf : Field.mem ∉ fs ∧ Field.hostMem ∉ fs ∧ Field.land ∉ fs ∧ Field.flit ∉ fs ∧ Field.cores ∉ fs := by decide) :
    s.SameData t :=
  ⟨h.frame .mem hf.1, h.frame .hostMem hf.2.1, h.frame .land hf.2.2.1, h.frame .flit hf.2.2.2.1, h.frame .cores hf.2.2.2.2⟩

theorem State.SameBut.refl (s : State) (ks : List Nat) : s.SameBut s ks := ⟨fun _ _ => rfl⟩

theorem State.SameBut.trans {s t u : State} {ks : List Nat} (h : s.SameBut t ks) (k : t.SameBut u ks) : s.SameBut u ks :=
  ⟨fun j hj => (k.rd j hj).trans (h.rd j hj)⟩

theorem State.SameBut.answer {s t : State} {ks : List Nat} (h : s.SameBut t ks) {p : Path} {irq : Bool} {r : Resp} :
    s.SameBut (t.withAnswer p irq r) ks := ⟨fun k hk => by rw [withAnswer_rd]; exact h.rd k hk⟩

theorem State.SameBut.wr {s t : State} {ks : List Nat} (h : s.SameBut t ks) {k : Nat} (v : Nat) (hk : k ∈ ks) :
    s.SameBut (t.wr k v) ks := ⟨fun j hj => by
  rw [rd_wr_ne t (fun e => hj (by rw [e]; exact hk))]; exact h.rd j hj⟩

theorem State.SameBut.of_od {s t u : State} {ks : List Nat} (h : s.SameBut t ks) (e : u.od = t.od) : s.SameBut u ks :=
  ⟨fun j hj => by rw [rd_of_od e]; exact h.rd j hj⟩

theorem Keep.rd {fs : List Field} {s t : State} (h : Keep fs s t) (hf : Field.od ∉ fs := by decide) (k : Nat) : t.rd k = s.rd k :=
  rd_of_od (h.frame .od hf) k

end Sys2Proof.Machine
end

