-- ==== Sys2Proof/Laws/KeepOps.lean ====
section
/-!
SUPPORT. The operations of Ops.lean keep the machine well.
-/

set_option Elab.async false

namespace Sys2Proof.Machine

set_option linter.all false

theorem wr_keep {fs : List Field} {s0 : State} (s : State) (k v : Nat) (hk : Keep fs s0 s) (hts : Within [.od] fs := by first | assumption | exact within_self _ | exact within_trans ‹Within _ _› (by decide) | exact within_of (by decide)) : Keep fs s0 (s.wr k v) := hk.wr k v

theorem wrBytes_keep {fs : List Field} {s0 : State} (s : State) (k : Nat) (bs : List Byte) (hk : Keep fs s0 s) (hts : Within [.odb] fs := by first | assumption | exact within_self _ | exact within_trans ‹Within _ _› (by decide) | exact within_of (by decide)) : Keep fs s0 (s.wrBytes k bs) :=
  hk.wrBytes k bs

theorem bumpTo_keep {fs : List Field} {s0 : State} (s : State) (top : Nat) (k : Nat) (n : Nat) (hk : Keep fs s0 s) (hts : Within [.od] fs := by first | assumption | exact within_self _ | exact within_trans ‹Within _ _› (by decide) | exact within_of (by decide)) : Keep fs s0 (State.bumpTo s top k n) := by
    unfold State.bumpTo
    refine Shown.out ?_
    simp (disch :=
      repeat' first
        | with_reducible assumption
        | with_reducible exact within_trans hts (by decide)
        | with_reducible exact fun _ => rfl
        | exact fun h_ => absurd (within_mem hts (by decide)) h_
        | with_reducible exact within_mem hts (by decide)
        | with_reducible apply wr_keep
        | with_reducible apply Keep.wr
        | with_reducible apply Keep.wrBytes
        | with_reducible apply Keep.foldN
        | with_reducible apply Keep.foldl
        | intro _
        | fail_if_no_progress with_reducible refine Keep.upd ?_ rfl rfl rfl rfl
        | fail_if_no_progress with_reducible refine Keep.draw ?_ rfl rfl rfl rfl
        | split
        | extract_lets
        | (dsimp +zetaDelta only)) only [↓Shown.eq]

theorem bump_keep {fs : List Field} {s0 : State} (s : State) (k : Nat) (hk : Keep fs s0 s) (hts : Within [.od] fs := by first | assumption | exact within_self _ | exact within_trans ‹Within _ _› (by decide) | exact within_of (by decide)) : Keep fs s0 (State.bump s k) := by
    unfold State.bump
    refine Shown.out ?_
    simp (disch :=
      repeat' first
        | with_reducible assumption
        | with_reducible exact within_trans hts (by decide)
        | with_reducible exact fun _ => rfl
        | exact fun h_ => absurd (within_mem hts (by decide)) h_
        | with_reducible exact within_mem hts (by decide)
        | with_reducible apply bumpTo_keep
        | with_reducible apply Keep.wr
        | with_reducible apply Keep.wrBytes
        | with_reducible apply Keep.foldN
        | with_reducible apply Keep.foldl
        | intro _
        | fail_if_no_progress with_reducible refine Keep.upd ?_ rfl rfl rfl rfl
        | fail_if_no_progress with_reducible refine Keep.draw ?_ rfl rfl rfl rfl
        | split
        | extract_lets
        | (dsimp +zetaDelta only)) only [↓Shown.eq]

theorem bumpN_keep {fs : List Field} {s0 : State} (s : State) (k : Nat) (n : Nat) (hk : Keep fs s0 s) (hts : Within [.od] fs := by first | assumption | exact within_self _ | exact within_trans ‹Within _ _› (by decide) | exact within_of (by decide)) : Keep fs s0 (State.bumpN s k n) := by
    unfold State.bumpN
    refine Shown.out ?_
    simp (disch :=
      repeat' first
        | with_reducible assumption
        | with_reducible exact within_trans hts (by decide)
        | with_reducible exact fun _ => rfl
        | exact fun h_ => absurd (within_mem hts (by decide)) h_
        | with_reducible exact within_mem hts (by decide)
        | with_reducible apply bumpTo_keep
        | with_reducible apply Keep.wr
        | with_reducible apply Keep.wrBytes
        | with_reducible apply Keep.foldN
        | with_reducible apply Keep.foldl
        | intro _
        | fail_if_no_progress with_reducible refine Keep.upd ?_ rfl rfl rfl rfl
        | fail_if_no_progress with_reducible refine Keep.draw ?_ rfl rfl rfl rfl
        | split
        | extract_lets
        | (dsimp +zetaDelta only)) only [↓Shown.eq]

theorem bump64_keep {fs : List Field} {s0 : State} (s : State) (k : Nat) (n : Nat) (hk : Keep fs s0 s) (hts : Within [.od] fs := by first | assumption | exact within_self _ | exact within_trans ‹Within _ _› (by decide) | exact within_of (by decide)) : Keep fs s0 (State.bump64 s k n) := by
    unfold State.bump64
    refine Shown.out ?_
    simp (disch :=
      repeat' first
        | with_reducible assumption
        | with_reducible exact within_trans hts (by decide)
        | with_reducible exact fun _ => rfl
        | exact fun h_ => absurd (within_mem hts (by decide)) h_
        | with_reducible exact within_mem hts (by decide)
        | with_reducible apply bumpTo_keep
        | with_reducible apply Keep.wr
        | with_reducible apply Keep.wrBytes
        | with_reducible apply Keep.foldN
        | with_reducible apply Keep.foldl
        | intro _
        | fail_if_no_progress with_reducible refine Keep.upd ?_ rfl rfl rfl rfl
        | fail_if_no_progress with_reducible refine Keep.draw ?_ rfl rfl rfl rfl
        | split
        | extract_lets
        | (dsimp +zetaDelta only)) only [↓Shown.eq]

theorem setOdBit_keep {fs : List Field} {s0 : State} (s : State) (k : Nat) (i : Nat) (b : Bool) (hk : Keep fs s0 s) (hts : Within [.od] fs := by first | assumption | exact within_self _ | exact within_trans ‹Within _ _› (by decide) | exact within_of (by decide)) : Keep fs s0 (State.setOdBit s k i b) := by
    unfold State.setOdBit
    refine Shown.out ?_
    simp (disch :=
      repeat' first
        | with_reducible assumption
        | with_reducible exact within_trans hts (by decide)
        | with_reducible exact fun _ => rfl
        | exact fun h_ => absurd (within_mem hts (by decide)) h_
        | with_reducible exact within_mem hts (by decide)
        | with_reducible apply wr_keep
        | with_reducible apply Keep.wr
        | with_reducible apply Keep.wrBytes
        | with_reducible apply Keep.foldN
        | with_reducible apply Keep.foldl
        | intro _
        | fail_if_no_progress with_reducible refine Keep.upd ?_ rfl rfl rfl rfl
        | fail_if_no_progress with_reducible refine Keep.draw ?_ rfl rfl rfl rfl
        | split
        | extract_lets
        | (dsimp +zetaDelta only)) only [↓Shown.eq]

theorem drawFree_keep {fs : List Field} {s0 : State} (s : State) (hk : Keep fs s0 s) (hts : Within [] fs := by first | assumption | exact within_self _ | exact within_trans ‹Within _ _› (by decide) | exact within_of (by decide)) : Keep fs s0 (State.drawFree s).2 := by
    unfold State.drawFree
    refine Shown.out ?_
    simp (disch :=
      repeat' first
        | with_reducible assumption
        | with_reducible exact within_trans hts (by decide)
        | with_reducible exact fun _ => rfl
        | exact fun h_ => absurd (within_mem hts (by decide)) h_
        | with_reducible exact within_mem hts (by decide)
        | with_reducible apply Keep.wr
        | with_reducible apply Keep.wrBytes
        | with_reducible apply Keep.foldN
        | with_reducible apply Keep.foldl
        | intro _
        | fail_if_no_progress with_reducible refine Keep.upd ?_ rfl rfl rfl rfl
        | fail_if_no_progress with_reducible refine Keep.draw ?_ rfl rfl rfl rfl
        | split
        | extract_lets
        | (dsimp +zetaDelta only)) only [↓Shown.eq]

theorem drawFree_keepE {fs : List Field} {s0 : State} {s : State} {r_ : _} {t_ : State} (e_ : (State.drawFree s) = (r_, t_)) (hk : Keep fs s0 s) (hts : Within [] fs := by first | assumption | exact within_self _ | exact within_trans ‹Within _ _› (by decide) | exact within_of (by decide)) : Keep fs s0 t_ := by
  have key := drawFree_keep s hk hts
  rw [e_] at key
  exact key

theorem setMsix_keep {fs : List Field} {s0 : State} (s : State) (pf1 : Bool) (m : Msix) (hk : Keep fs s0 s) (hts : Within [.host] fs := by first | assumption | exact within_self _ | exact within_trans ‹Within _ _› (by decide) | exact within_of (by decide)) : Keep fs s0 (State.setMsix s pf1 m) := by
    unfold State.setMsix
    refine Shown.out ?_
    simp (disch :=
      repeat' first
        | with_reducible assumption
        | with_reducible exact within_trans hts (by decide)
        | with_reducible exact fun _ => rfl
        | exact fun h_ => absurd (within_mem hts (by decide)) h_
        | with_reducible exact within_mem hts (by decide)
        | with_reducible apply Keep.wr
        | with_reducible apply Keep.wrBytes
        | with_reducible apply Keep.foldN
        | with_reducible apply Keep.foldl
        | intro _
        | fail_if_no_progress with_reducible refine Keep.upd ?_ rfl rfl rfl rfl
        | fail_if_no_progress with_reducible refine Keep.draw ?_ rfl rfl rfl rfl
        | split
        | extract_lets
        | (dsimp +zetaDelta only)) only [↓Shown.eq]

theorem signal_keep {fs : List Field} {s0 : State} (s : State) (pf1 : Bool) (v : Nat) (hk : Keep fs s0 s) (hts : Within [.host] fs := by first | assumption | exact within_self _ | exact within_trans ‹Within _ _› (by decide) | exact within_of (by decide)) : Keep fs s0 (State.signal s pf1 v) := by
    unfold State.signal
    refine Shown.out ?_
    simp (disch :=
      repeat' first
        | with_reducible assumption
        | with_reducible exact within_trans hts (by decide)
        | with_reducible exact fun _ => rfl
        | exact fun h_ => absurd (within_mem hts (by decide)) h_
        | with_reducible exact within_mem hts (by decide)
        | with_reducible apply setMsix_keep
        | with_reducible apply Keep.wr
        | with_reducible apply Keep.wrBytes
        | with_reducible apply Keep.foldN
        | with_reducible apply Keep.foldl
        | intro _
        | fail_if_no_progress with_reducible refine Keep.upd ?_ rfl rfl rfl rfl
        | fail_if_no_progress with_reducible refine Keep.draw ?_ rfl rfl rfl rfl
        | split
        | extract_lets
        | (dsimp +zetaDelta only)) only [↓Shown.eq]

theorem signalTen_keep {fs : List Field} {s0 : State} (s : State) (t : Nat) (k : Nat) (hk : Keep fs s0 s) (hts : Within [.host] fs := by first | assumption | exact within_self _ | exact within_trans ‹Within _ _› (by decide) | exact within_of (by decide)) : Keep fs s0 (State.signalTen s t k) := by
    unfold State.signalTen
    refine Shown.out ?_
    simp (disch :=
      repeat' first
        | with_reducible assumption
        | with_reducible exact within_trans hts (by decide)
        | with_reducible exact fun _ => rfl
        | exact fun h_ => absurd (within_mem hts (by decide)) h_
        | with_reducible exact within_mem hts (by decide)
        | with_reducible apply signal_keep
        | with_reducible apply Keep.wr
        | with_reducible apply Keep.wrBytes
        | with_reducible apply Keep.foldN
        | with_reducible apply Keep.foldl
        | intro _
        | fail_if_no_progress with_reducible refine Keep.upd ?_ rfl rfl rfl rfl
        | fail_if_no_progress with_reducible refine Keep.draw ?_ rfl rfl rfl rfl
        | split
        | extract_lets
        | (dsimp +zetaDelta only)) only [↓Shown.eq]

theorem logFault_keep {fs : List Field} {s0 : State} (s : State) (r0 : FaultRec) (hk : Keep fs s0 s) (hts : Within [.od, .host, .falt] fs := by first | assumption | exact within_self _ | exact within_trans ‹Within _ _› (by decide) | exact within_of (by decide)) : Keep fs s0 (s.logFault r0) := by
  unfold State.logFault
  extract_lets r
  have key : ∀ x y, Keep fs s0 { s with falt :=
      { s.falt with log := (logInsert s.falt.log r).1, lastDevice := x, lastStage := y } } := fun x y =>
    hk.trans ⟨rfl, rfl, fun c => ⟨c.od, c.odb, c.cells, c.marks, c.host⟩, fun b => ⟨logInsert_length _ _ b.log, b.lost⟩,
      Nat.le_refl _, Field.same_of_ne (within_mem ‹Within _ _› (by decide : Field.falt ∈ _))
        (fun f e => by cases f <;> first | rfl | exact absurd rfl e)⟩
  generalize hl : logInsert s.falt.log r = p at key
  obtain ⟨log, lost⟩ := p
  dsimp only at key ⊢
  refine Shown.out ?_
  simp (disch :=
    repeat' first
      | with_reducible exact key _ _
      | with_reducible exact within_trans hts (by decide)
      | with_reducible apply signal_keep
      | with_reducible apply bump_keep
      | split) only [↓Shown.eq]

theorem record_keep {fs : List Field} {s0 : State} (s : State) (cls : Nat) (agent : Nat) (domain : Nat) (obj : Nat) (addr : Nat) (inst : Nat) (hk : Keep fs s0 s) (hts : Within [.od, .host, .falt] fs := by first | assumption | exact within_self _ | exact within_trans ‹Within _ _› (by decide) | exact within_of (by decide)) : Keep fs s0 (State.record s cls agent domain obj addr inst) := by
    unfold State.record
    refine Shown.out ?_
    simp (disch :=
      repeat' first
        | with_reducible assumption
        | with_reducible exact within_trans hts (by decide)
        | with_reducible exact fun _ => rfl
        | exact fun h_ => absurd (within_mem hts (by decide)) h_
        | with_reducible exact within_mem hts (by decide)
        | with_reducible apply logFault_keep
        | with_reducible apply Keep.wr
        | with_reducible apply Keep.wrBytes
        | with_reducible apply Keep.foldN
        | with_reducible apply Keep.foldl
        | intro _
        | fail_if_no_progress with_reducible refine Keep.upd ?_ rfl rfl rfl rfl
        | fail_if_no_progress with_reducible refine Keep.draw ?_ rfl rfl rfl rfl
        | split
        | extract_lets
        | (dsimp +zetaDelta only)) only [↓Shown.eq]

theorem recordAccess_keep {fs : List Field} {s0 : State} (s : State) (p : Path) (domain : Nat) (idx : Nat) (sub : Nat) (code : Nat) (rejected : Nat) (hk : Keep fs s0 s) (hts : Within [.od, .host, .falt] fs := by first | assumption | exact within_self _ | exact within_trans ‹Within _ _› (by decide) | exact within_of (by decide)) : Keep fs s0 (State.recordAccess s p domain idx sub code rejected) := by
    unfold State.recordAccess
    refine Shown.out ?_
    simp (disch :=
      repeat' first
        | with_reducible assumption
        | with_reducible exact within_trans hts (by decide)
        | with_reducible exact fun _ => rfl
        | exact fun h_ => absurd (within_mem hts (by decide)) h_
        | with_reducible exact within_mem hts (by decide)
        | with_reducible apply logFault_keep
        | with_reducible apply Keep.wr
        | with_reducible apply Keep.wrBytes
        | with_reducible apply Keep.foldN
        | with_reducible apply Keep.foldl
        | intro _
        | fail_if_no_progress with_reducible refine Keep.upd ?_ rfl rfl rfl rfl
        | fail_if_no_progress with_reducible refine Keep.draw ?_ rfl rfl rfl rfl
        | split
        | extract_lets
        | (dsimp +zetaDelta only)) only [↓Shown.eq]

end Sys2Proof.Machine
end

