-- ==== Sys2Proof/Laws/KeepRanges.lean ====
section
/-!
SUPPORT. The operations of Ranges.lean keep the machine well.
-/

set_option Elab.async false

namespace Sys2Proof.Machine

set_option linter.all false

theorem sealLeave_keep {fs : List Field} {s0 : State} (s : State) (before : List (Nat × Nat)) (hk : Keep fs s0 s) (hts : Within [.ledg] fs := by first | assumption | exact within_self _ | exact within_trans ‹Within _ _› (by decide) | exact within_of (by decide)) : Keep fs s0 (State.sealLeave s before) := by
    unfold State.sealLeave
    refine Shown.out ?_
    simp (disch :=
      repeat' first
        | with_reducible assumption
        | with_reducible exact within_trans hts (by decide)
        | with_reducible exact fun _ => rfl
        | exact fun h_ => absurd (within_mem hts (by decide)) h_
        | with_reducible exact within_mem hts (by decide)
        | with_reducible apply Keep.wr
        | with_reducible apply Keep.wrBytes
        | with_reducible apply Keep.foldN
        | with_reducible apply Keep.foldl
        | intro _
        | fail_if_no_progress with_reducible refine Keep.upd ?_ rfl rfl rfl rfl
        | fail_if_no_progress with_reducible refine Keep.draw ?_ rfl rfl rfl rfl
        | split
        | extract_lets
        | (dsimp +zetaDelta only)) only [↓Shown.eq]

end Sys2Proof.Machine
end

