-- ==== Sys2Proof/Laws/KeepTrace.lean ====
section
/-!
SUPPORT. The operations of Trace.lean keep the machine well.
-/

set_option Elab.async false

namespace Sys2Proof.Machine

set_option linter.all false

theorem trcEvent_keep {fs : List Field} {s0 : State} (s : State) (i : Nat) (hk : Keep fs s0 s) (hts : Within [.od, .host] fs := by first | assumption | exact within_self _ | exact within_trans ‹Within _ _› (by decide) | exact within_of (by decide)) : Keep fs s0 (State.trcEvent s i) := by
    unfold State.trcEvent
    refine Shown.out ?_
    simp (disch :=
      repeat' first
        | with_reducible assumption
        | with_reducible exact within_trans hts (by decide)
        | with_reducible exact fun _ => rfl
        | exact fun h_ => absurd (within_mem hts (by decide)) h_
        | with_reducible exact within_mem hts (by decide)
        | with_reducible apply setOdBit_keep
        | with_reducible apply signal_keep
        | with_reducible apply Keep.wr
        | with_reducible apply Keep.wrBytes
        | with_reducible apply Keep.foldN
        | with_reducible apply Keep.foldl
        | intro _
        | fail_if_no_progress with_reducible refine Keep.upd ?_ rfl rfl rfl rfl
        | fail_if_no_progress with_reducible refine Keep.draw ?_ rfl rfl rfl rfl
        | split
        | extract_lets
        | (dsimp +zetaDelta only)) only [↓Shown.eq]

theorem tracePacket_keep {fs : List Field} {s0 : State} (s : State) (ty : Nat) (payload : List Byte) (hk : Keep fs s0 s) (hts : Within [.od, .host, .trc] fs := by first | assumption | exact within_self _ | exact within_trans ‹Within _ _› (by decide) | exact within_of (by decide)) : Keep fs s0 (State.tracePacket s ty payload) := by
    unfold State.tracePacket
    refine Shown.out ?_
    simp (disch :=
      repeat' first
        | with_reducible assumption
        | with_reducible exact within_trans hts (by decide)
        | with_reducible exact fun _ => rfl
        | exact fun h_ => absurd (within_mem hts (by decide)) h_
        | with_reducible exact within_mem hts (by decide)
        | with_reducible apply bump_keep
        | with_reducible apply bump64_keep
        | with_reducible apply trcEvent_keep
        | with_reducible apply Keep.wr
        | with_reducible apply Keep.wrBytes
        | with_reducible apply Keep.foldN
        | with_reducible apply Keep.foldl
        | intro _
        | fail_if_no_progress with_reducible refine Keep.upd ?_ rfl rfl rfl rfl
        | fail_if_no_progress with_reducible refine Keep.draw ?_ rfl rfl rfl rfl
        | split
        | extract_lets
        | (dsimp +zetaDelta only)) only [↓Shown.eq]

theorem traceFlight_keep {fs : List Field} {s0 : State} (s : State) (slot : Nat) (stage : Nat) (run : Nat) (event : Nat) (engine : Nat) (flight : Nat) (status : Nat) (hk : Keep fs s0 s) (hts : Within [.od, .host, .trc] fs := by first | assumption | exact within_self _ | exact within_trans ‹Within _ _› (by decide) | exact within_of (by decide)) : Keep fs s0 (State.traceFlight s slot stage run event engine flight status) := by
    unfold State.traceFlight
    refine Shown.out ?_
    simp (disch :=
      repeat' first
        | with_reducible assumption
        | with_reducible exact within_trans hts (by decide)
        | with_reducible exact fun _ => rfl
        | exact fun h_ => absurd (within_mem hts (by decide)) h_
        | with_reducible exact within_mem hts (by decide)
        | with_reducible apply tracePacket_keep
        | with_reducible apply Keep.wr
        | with_reducible apply Keep.wrBytes
        | with_reducible apply Keep.foldN
        | with_reducible apply Keep.foldl
        | intro _
        | fail_if_no_progress with_reducible refine Keep.upd ?_ rfl rfl rfl rfl
        | fail_if_no_progress with_reducible refine Keep.draw ?_ rfl rfl rfl rfl
        | split
        | extract_lets
        | (dsimp +zetaDelta only)) only [↓Shown.eq]

theorem traceLanding_keep {fs : List Field} {s0 : State} (s : State) (landing : Nat) (op : Nat) (agent : Nat) (sat : Bool) (released : Bool) (err : Bool) (word : Nat) (hk : Keep fs s0 s) (hts : Within [.od, .host, .trc] fs := by first | assumption | exact within_self _ | exact within_trans ‹Within _ _› (by decide) | exact within_of (by decide)) : Keep fs s0 (State.traceLanding s landing op agent sat released err word) := by
    unfold State.traceLanding
    refine Shown.out ?_
    simp (disch :=
      repeat' first
        | with_reducible assumption
        | with_reducible exact within_trans hts (by decide)
        | with_reducible exact fun _ => rfl
        | exact fun h_ => absurd (within_mem hts (by decide)) h_
        | with_reducible exact within_mem hts (by decide)
        | with_reducible apply tracePacket_keep
        | with_reducible apply Keep.wr
        | with_reducible apply Keep.wrBytes
        | with_reducible apply Keep.foldN
        | with_reducible apply Keep.foldl
        | intro _
        | fail_if_no_progress with_reducible refine Keep.upd ?_ rfl rfl rfl rfl
        | fail_if_no_progress with_reducible refine Keep.draw ?_ rfl rfl rfl rfl
        | split
        | extract_lets
        | (dsimp +zetaDelta only)) only [↓Shown.eq]

theorem traceInstr_keep {fs : List Field} {s0 : State} (s : State) (agent : Nat) (off : Nat) (kind : Nat) (hk : Keep fs s0 s) (hts : Within [.od, .host, .trc] fs := by first | assumption | exact within_self _ | exact within_trans ‹Within _ _› (by decide) | exact within_of (by decide)) : Keep fs s0 (State.traceInstr s agent off kind) := by
    unfold State.traceInstr
    refine Shown.out ?_
    simp (disch :=
      repeat' first
        | with_reducible assumption
        | with_reducible exact within_trans hts (by decide)
        | with_reducible exact fun _ => rfl
        | exact fun h_ => absurd (within_mem hts (by decide)) h_
        | with_reducible exact within_mem hts (by decide)
        | with_reducible apply tracePacket_keep
        | with_reducible apply Keep.wr
        | with_reducible apply Keep.wrBytes
        | with_reducible apply Keep.foldN
        | with_reducible apply Keep.foldl
        | intro _
        | fail_if_no_progress with_reducible refine Keep.upd ?_ rfl rfl rfl rfl
        | fail_if_no_progress with_reducible refine Keep.draw ?_ rfl rfl rfl rfl
        | split
        | extract_lets
        | (dsimp +zetaDelta only)) only [↓Shown.eq]

theorem traceMarker_keep {fs : List Field} {s0 : State} (s : State) (agent : Nat) (imm : Nat) (stage : Nat) (flight : Nat) (hk : Keep fs s0 s) (hts : Within [.od, .host, .trc] fs := by first | assumption | exact within_self _ | exact within_trans ‹Within _ _› (by decide) | exact within_of (by decide)) : Keep fs s0 (State.traceMarker s agent imm stage flight) := by
    unfold State.traceMarker
    refine Shown.out ?_
    simp (disch :=
      repeat' first
        | with_reducible assumption
        | with_reducible exact within_trans hts (by decide)
        | with_reducible exact fun _ => rfl
        | exact fun h_ => absurd (within_mem hts (by decide)) h_
        | with_reducible exact within_mem hts (by decide)
        | with_reducible apply tracePacket_keep
        | with_reducible apply Keep.wr
        | with_reducible apply Keep.wrBytes
        | with_reducible apply Keep.foldN
        | with_reducible apply Keep.foldl
        | intro _
        | fail_if_no_progress with_reducible refine Keep.upd ?_ rfl rfl rfl rfl
        | fail_if_no_progress with_reducible refine Keep.draw ?_ rfl rfl rfl rfl
        | split
        | extract_lets
        | (dsimp +zetaDelta only)) only [↓Shown.eq]

theorem traceBoundary_keep {fs : List Field} {s0 : State} (s : State) (epoch : Nat) (flags : Nat) (hk : Keep fs s0 s) (hts : Within [.od, .host, .trc] fs := by first | assumption | exact within_self _ | exact within_trans ‹Within _ _› (by decide) | exact within_of (by decide)) : Keep fs s0 (State.traceBoundary s epoch flags) := by
    unfold State.traceBoundary
    refine Shown.out ?_
    simp (disch :=
      repeat' first
        | with_reducible assumption
        | with_reducible exact within_trans hts (by decide)
        | with_reducible exact fun _ => rfl
        | exact fun h_ => absurd (within_mem hts (by decide)) h_
        | with_reducible exact within_mem hts (by decide)
        | with_reducible apply tracePacket_keep
        | with_reducible apply Keep.wr
        | with_reducible apply Keep.wrBytes
        | with_reducible apply Keep.foldN
        | with_reducible apply Keep.foldl
        | intro _
        | fail_if_no_progress with_reducible refine Keep.upd ?_ rfl rfl rfl rfl
        | fail_if_no_progress with_reducible refine Keep.draw ?_ rfl rfl rfl rfl
        | split
        | extract_lets
        | (dsimp +zetaDelta only)) only [↓Shown.eq]

theorem tracePace_keep {fs : List Field} {s0 : State} (s : State) (pace : Nat) (hk : Keep fs s0 s) (hts : Within [.od, .host, .trc] fs := by first | assumption | exact within_self _ | exact within_trans ‹Within _ _› (by decide) | exact within_of (by decide)) : Keep fs s0 (State.tracePace s pace) := by
    unfold State.tracePace
    refine Shown.out ?_
    simp (disch :=
      repeat' first
        | with_reducible assumption
        | with_reducible exact within_trans hts (by decide)
        | with_reducible exact fun _ => rfl
        | exact fun h_ => absurd (within_mem hts (by decide)) h_
        | with_reducible exact within_mem hts (by decide)
        | with_reducible apply tracePacket_keep
        | with_reducible apply Keep.wr
        | with_reducible apply Keep.wrBytes
        | with_reducible apply Keep.foldN
        | with_reducible apply Keep.foldl
        | intro _
        | fail_if_no_progress with_reducible refine Keep.upd ?_ rfl rfl rfl rfl
        | fail_if_no_progress with_reducible refine Keep.draw ?_ rfl rfl rfl rfl
        | split
        | extract_lets
        | (dsimp +zetaDelta only)) only [↓Shown.eq]

end Sys2Proof.Machine
end

