-- ==== Sys2Proof/Laws/KeepCoreRegs.lean ====
section
/-!
SUPPORT. The operations of CoreRegs.lean keep the machine well.
-/

set_option Elab.async false

namespace Sys2Proof.Machine

set_option linter.all false

theorem setCore_keep {fs : List Field} {s0 : State} (s : State) (n : Nat) (c : Core) (hk : Keep fs s0 s) (hts : Within [.cores] fs := by first | assumption | exact within_self _ | exact within_trans ‹Within _ _› (by decide) | exact within_of (by decide)) : Keep fs s0 (State.setCore s n c) := by
    unfold State.setCore
    refine Shown.out ?_
    simp (disch :=
      repeat' first
        | with_reducible assumption
        | with_reducible exact within_trans hts (by decide)
        | with_reducible exact fun _ => rfl
        | exact fun h_ => absurd (within_mem hts (by decide)) h_
        | with_reducible exact within_mem hts (by decide)
        | with_reducible apply Keep.wr
        | with_reducible apply Keep.wrBytes
        | with_reducible apply Keep.foldN
        | with_reducible apply Keep.foldl
        | intro _
        | fail_if_no_progress with_reducible refine Keep.upd ?_ rfl rfl rfl rfl
        | fail_if_no_progress with_reducible refine Keep.draw ?_ rfl rfl rfl rfl
        | split
        | extract_lets
        | (dsimp +zetaDelta only)) only [↓Shown.eq]

theorem accRead_keep {fs : List Field} {s0 : State} (s : State) (n : Nat) (p : Nat → Bool) (hk : Keep fs s0 s) (hts : Within [.od, .host, .falt, .cores] fs := by first | assumption | exact within_self _ | exact within_trans ‹Within _ _› (by decide) | exact within_of (by decide)) : Keep fs s0 (State.accRead s n p).2 := by
    unfold State.accRead
    refine Shown.out ?_
    simp (disch :=
      repeat' first
        | with_reducible assumption
        | with_reducible exact within_trans hts (by decide)
        | with_reducible exact fun _ => rfl
        | exact fun h_ => absurd (within_mem hts (by decide)) h_
        | with_reducible exact within_mem hts (by decide)
        | with_reducible apply record_keep
        | with_reducible apply setCore_keep
        | (with_reducible refine Keep.ofPair ‹_› (Keep.foldNP _ _ _ ?_ ?_))
        | (with_reducible refine Keep.ofPair ‹_› (Keep.foldlP _ _ _ ?_ ?_))
        | with_reducible apply Keep.foldlP
        | with_reducible apply Keep.foldNP
        | with_reducible apply Keep.wr
        | with_reducible apply Keep.wrBytes
        | with_reducible apply Keep.foldN
        | with_reducible apply Keep.foldl
        | intro _
        | fail_if_no_progress with_reducible refine Keep.upd ?_ rfl rfl rfl rfl
        | fail_if_no_progress with_reducible refine Keep.draw ?_ rfl rfl rfl rfl
        | split
        | extract_lets
        | (dsimp +zetaDelta only)) only [↓Shown.eq]

theorem accRead_keepE {fs : List Field} {s0 : State} {s : State} {n : Nat} {p : Nat → Bool} {r_ : _} {t_ : State} (e_ : (State.accRead s n p) = (r_, t_)) (hk : Keep fs s0 s) (hts : Within [.od, .host, .falt, .cores] fs := by first | assumption | exact within_self _ | exact within_trans ‹Within _ _› (by decide) | exact within_of (by decide)) : Keep fs s0 t_ := by
  have key := accRead_keep s n p hk hts
  rw [e_] at key
  exact key

theorem countInstr_keep {fs : List Field} {s0 : State} (s : State) (n : Nat) (hk : Keep fs s0 s) (hts : Within [.od, .trc] fs := by first | assumption | exact within_self _ | exact within_trans ‹Within _ _› (by decide) | exact within_of (by decide)) : Keep fs s0 (State.countInstr s n) := by
    unfold State.countInstr
    refine Shown.out ?_
    simp (disch :=
      repeat' first
        | with_reducible assumption
        | with_reducible exact within_trans hts (by decide)
        | with_reducible exact fun _ => rfl
        | exact fun h_ => absurd (within_mem hts (by decide)) h_
        | with_reducible exact within_mem hts (by decide)
        | with_reducible apply bump64_keep
        | with_reducible apply Keep.wr
        | with_reducible apply Keep.wrBytes
        | with_reducible apply Keep.foldN
        | with_reducible apply Keep.foldl
        | intro _
        | fail_if_no_progress with_reducible refine Keep.upd ?_ rfl rfl rfl rfl
        | fail_if_no_progress with_reducible refine Keep.draw ?_ rfl rfl rfl rfl
        | split
        | extract_lets
        | (dsimp +zetaDelta only)) only [↓Shown.eq]

theorem retire_keep {fs : List Field} {s0 : State} (s : State) (n : Nat) (pc : Nat) (hk : Keep fs s0 s) (hts : Within [.od, .trc, .cores] fs := by first | assumption | exact within_self _ | exact within_trans ‹Within _ _› (by decide) | exact within_of (by decide)) : Keep fs s0 (State.retire s n pc) := by
    unfold State.retire
    refine Shown.out ?_
    simp (disch :=
      repeat' first
        | with_reducible assumption
        | with_reducible exact within_trans hts (by decide)
        | with_reducible exact fun _ => rfl
        | exact fun h_ => absurd (within_mem hts (by decide)) h_
        | with_reducible exact within_mem hts (by decide)
        | with_reducible apply countInstr_keep
        | with_reducible apply setCore_keep
        | with_reducible apply Keep.wr
        | with_reducible apply Keep.wrBytes
        | with_reducible apply Keep.foldN
        | with_reducible apply Keep.foldl
        | intro _
        | fail_if_no_progress with_reducible refine Keep.upd ?_ rfl rfl rfl rfl
        | fail_if_no_progress with_reducible refine Keep.draw ?_ rfl rfl rfl rfl
        | split
        | extract_lets
        | (dsimp +zetaDelta only)) only [↓Shown.eq]

end Sys2Proof.Machine
end

