-- ==== Sys2Proof/Laws/KeepLandings.lean ====
section
/-!
SUPPORT. The operations of Landings.lean keep the machine well.
-/

set_option Elab.async false

namespace Sys2Proof.Machine

set_option linter.all false

theorem setLand_keep {fs : List Field} {s0 : State} (s : State) (L : Nat) (w : Nat) (hk : Keep fs s0 s) (hts : Within [.land] fs := by first | assumption | exact within_self _ | exact within_trans ‹Within _ _› (by decide) | exact within_of (by decide)) : Keep fs s0 (State.setLand s L w) := by
    unfold State.setLand
    refine Shown.out ?_
    simp (disch :=
      repeat' first
        | with_reducible assumption
        | with_reducible exact within_trans hts (by decide)
        | with_reducible exact fun _ => rfl
        | exact fun h_ => absurd (within_mem hts (by decide)) h_
        | with_reducible exact within_mem hts (by decide)
        | with_reducible apply Keep.wr
        | with_reducible apply Keep.wrBytes
        | with_reducible apply Keep.foldN
        | with_reducible apply Keep.foldl
        | intro _
        | fail_if_no_progress with_reducible refine Keep.upd ?_ rfl rfl rfl rfl
        | fail_if_no_progress with_reducible refine Keep.draw ?_ rfl rfl rfl rfl
        | split
        | extract_lets
        | (dsimp +zetaDelta only)) only [↓Shown.eq]

theorem landResp_keep {fs : List Field} {s0 : State} (s : State) (a : Nat) (r : LandResp) (hk : Keep fs s0 s) (hts : Within [.land] fs := by first | assumption | exact within_self _ | exact within_trans ‹Within _ _› (by decide) | exact within_of (by decide)) : Keep fs s0 (State.landResp s a r) := by
    unfold State.landResp
    refine Shown.out ?_
    simp (disch :=
      repeat' first
        | with_reducible assumption
        | with_reducible exact within_trans hts (by decide)
        | with_reducible exact fun _ => rfl
        | exact fun h_ => absurd (within_mem hts (by decide)) h_
        | with_reducible exact within_mem hts (by decide)
        | with_reducible apply Keep.wr
        | with_reducible apply Keep.wrBytes
        | with_reducible apply Keep.foldN
        | with_reducible apply Keep.foldl
        | intro _
        | fail_if_no_progress with_reducible refine Keep.upd ?_ rfl rfl rfl rfl
        | fail_if_no_progress with_reducible refine Keep.draw ?_ rfl rfl rfl rfl
        | split
        | extract_lets
        | (dsimp +zetaDelta only)) only [↓Shown.eq]

theorem resumeWaiter_keep {fs : List Field} {s0 : State} (s : State) (x : Waiter) (w : Word) (hk : Keep fs s0 s) (hts : Within [.od, .land, .trc, .cores] fs := by first | assumption | exact within_self _ | exact within_trans ‹Within _ _› (by decide) | exact within_of (by decide)) : Keep fs s0 (State.resumeWaiter s x w) := by
    unfold State.resumeWaiter
    refine Shown.out ?_
    simp (disch :=
      repeat' first
        | with_reducible assumption
        | with_reducible exact within_trans hts (by decide)
        | with_reducible exact fun _ => rfl
        | exact fun h_ => absurd (within_mem hts (by decide)) h_
        | with_reducible exact within_mem hts (by decide)
        | with_reducible apply landResp_keep
        | with_reducible apply retire_keep
        | with_reducible apply setCore_keep
        | with_reducible apply Keep.wr
        | with_reducible apply Keep.wrBytes
        | with_reducible apply Keep.foldN
        | with_reducible apply Keep.foldl
        | intro _
        | fail_if_no_progress with_reducible refine Keep.upd ?_ rfl rfl rfl rfl
        | fail_if_no_progress with_reducible refine Keep.draw ?_ rfl rfl rfl rfl
        | split
        | extract_lets
        | (dsimp +zetaDelta only)) only [↓Shown.eq]

theorem releaseEntry_keep {fs : List Field} {s0 : State} (s : State) (e : Entry) (hk : Keep fs s0 s) (hts : Within [.od, .host, .flit, .trc] fs := by first | assumption | exact within_self _ | exact within_trans ‹Within _ _› (by decide) | exact within_of (by decide)) : Keep fs s0 (State.releaseEntry s e) := by
    unfold State.releaseEntry
    refine Shown.out ?_
    simp (disch :=
      repeat' first
        | with_reducible assumption
        | with_reducible exact within_trans hts (by decide)
        | with_reducible exact fun _ => rfl
        | exact fun h_ => absurd (within_mem hts (by decide)) h_
        | with_reducible exact within_mem hts (by decide)
        | with_reducible apply traceFlight_keep
        | with_reducible apply Keep.wr
        | with_reducible apply Keep.wrBytes
        | with_reducible apply Keep.foldN
        | with_reducible apply Keep.foldl
        | intro _
        | fail_if_no_progress with_reducible refine Keep.upd ?_ rfl rfl rfl rfl
        | fail_if_no_progress with_reducible refine Keep.draw ?_ rfl rfl rfl rfl
        | split
        | extract_lets
        | (dsimp +zetaDelta only)) only [↓Shown.eq]

theorem setStream_keep {fs : List Field} {s0 : State} (s : State) (k : Nat) (t : Stream) (hk : Keep fs s0 s) (hts : Within [.vest] fs := by first | assumption | exact within_self _ | exact within_trans ‹Within _ _› (by decide) | exact within_of (by decide)) : Keep fs s0 (State.setStream s k t) := by
    unfold State.setStream
    refine Shown.out ?_
    simp (disch :=
      repeat' first
        | with_reducible assumption
        | with_reducible exact within_trans hts (by decide)
        | with_reducible exact fun _ => rfl
        | exact fun h_ => absurd (within_mem hts (by decide)) h_
        | with_reducible exact within_mem hts (by decide)
        | with_reducible apply Keep.wr
        | with_reducible apply Keep.wrBytes
        | with_reducible apply Keep.foldN
        | with_reducible apply Keep.foldl
        | intro _
        | fail_if_no_progress with_reducible refine Keep.upd ?_ rfl rfl rfl rfl
        | fail_if_no_progress with_reducible refine Keep.draw ?_ rfl rfl rfl rfl
        | split
        | extract_lets
        | (dsimp +zetaDelta only)) only [↓Shown.eq]

theorem streamSettle_keep {fs : List Field} {s0 : State} (s : State) (k : Nat) (hk : Keep fs s0 s) (hts : Within [.od, .ledg, .vest] fs := by first | assumption | exact within_self _ | exact within_trans ‹Within _ _› (by decide) | exact within_of (by decide)) : Keep fs s0 (State.streamSettle s k) := by
    unfold State.streamSettle
    refine Shown.out ?_
    simp (disch :=
      repeat' first
        | with_reducible assumption
        | with_reducible exact within_trans hts (by decide)
        | with_reducible exact fun _ => rfl
        | exact fun h_ => absurd (within_mem hts (by decide)) h_
        | with_reducible exact within_mem hts (by decide)
        | with_reducible apply sealLeave_keep
        | with_reducible apply setStream_keep
        | with_reducible apply wr_keep
        | with_reducible apply Keep.wr
        | with_reducible apply Keep.wrBytes
        | with_reducible apply Keep.foldN
        | with_reducible apply Keep.foldl
        | intro _
        | fail_if_no_progress with_reducible refine Keep.upd ?_ rfl rfl rfl rfl
        | fail_if_no_progress with_reducible refine Keep.draw ?_ rfl rfl rfl rfl
        | split
        | extract_lets
        | (dsimp +zetaDelta only)) only [↓Shown.eq]

theorem returnSlot_keep {fs : List Field} {s0 : State} (s : State) (k : Nat) (hk : Keep fs s0 s) (hts : Within [.od, .ledg, .vest] fs := by first | assumption | exact within_self _ | exact within_trans ‹Within _ _› (by decide) | exact within_of (by decide)) : Keep fs s0 (State.returnSlot s k) := by
    unfold State.returnSlot
    refine Shown.out ?_
    simp (disch :=
      repeat' first
        | with_reducible assumption
        | with_reducible exact within_trans hts (by decide)
        | with_reducible exact fun _ => rfl
        | exact fun h_ => absurd (within_mem hts (by decide)) h_
        | with_reducible exact within_mem hts (by decide)
        | with_reducible apply setStream_keep
        | with_reducible apply streamSettle_keep
        | with_reducible apply Keep.wr
        | with_reducible apply Keep.wrBytes
        | with_reducible apply Keep.foldN
        | with_reducible apply Keep.foldl
        | intro _
        | fail_if_no_progress with_reducible refine Keep.upd ?_ rfl rfl rfl rfl
        | fail_if_no_progress with_reducible refine Keep.draw ?_ rfl rfl rfl rfl
        | split
        | extract_lets
        | (dsimp +zetaDelta only)) only [↓Shown.eq]

theorem landEvaluate1_keep {fs : List Field} {s0 : State} (s : State) (L : Nat) (hk : Keep fs s0 s) (hts : Within [.od, .host, .land, .flit, .trc, .cores, .ledg, .vest] fs := by first | assumption | exact within_self _ | exact within_trans ‹Within _ _› (by decide) | exact within_of (by decide)) : Keep fs s0 (State.landEvaluate1 s L).1 := by
    unfold State.landEvaluate1
    refine Shown.out ?_
    simp (disch :=
      repeat' first
        | with_reducible assumption
        | with_reducible exact within_trans hts (by decide)
        | with_reducible exact fun _ => rfl
        | exact fun h_ => absurd (within_mem hts (by decide)) h_
        | with_reducible exact within_mem hts (by decide)
        | with_reducible apply releaseEntry_keep
        | with_reducible apply resumeWaiter_keep
        | with_reducible apply returnSlot_keep
        | with_reducible apply setLand_keep
        | with_reducible apply Keep.wr
        | with_reducible apply Keep.wrBytes
        | with_reducible apply Keep.foldN
        | with_reducible apply Keep.foldl
        | with_reducible apply Keep.foldlP
        | with_reducible apply Keep.foldNP
        | (with_reducible refine Keep.ofPair ‹_› (Keep.foldlP _ _ _ ?_ ?_))
        | intro _
        | fail_if_no_progress with_reducible refine Keep.upd ?_ rfl rfl rfl rfl
        | fail_if_no_progress with_reducible refine Keep.draw ?_ rfl rfl rfl rfl
        | split
        | extract_lets
        | (dsimp +zetaDelta only)) only [↓Shown.eq]

theorem landEvaluate1_keepE {fs : List Field} {s0 : State} {s : State} {L : Nat} {r_ : _} {t_ : State} (e_ : (State.landEvaluate1 s L) = (t_, r_)) (hk : Keep fs s0 s) (hts : Within [.od, .host, .land, .flit, .trc, .cores, .ledg, .vest] fs := by first | assumption | exact within_self _ | exact within_trans ‹Within _ _› (by decide) | exact within_of (by decide)) : Keep fs s0 t_ := by
  have key := landEvaluate1_keep s L hk hts
  rw [e_] at key
  exact key

theorem landEvaluateN_keep {fs : List Field} {s0 : State} (L : Nat) (y0 : Nat) (y1 : State) (hk : Keep fs s0 y1) (hts : Within [.od, .host, .land, .flit, .trc, .cores, .ledg, .vest] fs := by first | assumption | exact within_self _ | exact within_trans ‹Within _ _› (by decide) | exact within_of (by decide)) : Keep fs s0 (State.landEvaluateN L y0 y1).1 := by
  induction y0 generalizing y1 with
  | zero =>
    unfold State.landEvaluateN
    refine Shown.out ?_
    simp (disch :=
      repeat' first
        | with_reducible assumption
        | with_reducible exact within_trans hts (by decide)
        | with_reducible exact fun _ => rfl
        | exact fun h_ => absurd (within_mem hts (by decide)) h_
        | with_reducible exact within_mem hts (by decide)
        | (with_reducible refine landEvaluate1_keepE ‹_› ?_)
        | with_reducible apply landEvaluate1_keep
        | with_reducible apply Keep.wr
        | with_reducible apply Keep.wrBytes
        | with_reducible apply Keep.foldN
        | with_reducible apply Keep.foldl
        | intro _
        | fail_if_no_progress with_reducible refine Keep.upd ?_ rfl rfl rfl rfl
        | fail_if_no_progress with_reducible refine Keep.draw ?_ rfl rfl rfl rfl
        | split
        | extract_lets
        | (dsimp +zetaDelta only)) only [↓Shown.eq]
  | succ n_ ih =>
    unfold State.landEvaluateN
    refine Shown.out ?_
    simp (disch :=
      repeat' first
        | with_reducible assumption
        | with_reducible exact within_trans hts (by decide)
        | with_reducible exact fun _ => rfl
        | exact fun h_ => absurd (within_mem hts (by decide)) h_
        | with_reducible exact within_mem hts (by decide)
        | with_reducible apply ih
        | (with_reducible refine landEvaluate1_keepE ‹_› ?_)
        | with_reducible apply landEvaluate1_keep
        | with_reducible apply Keep.wr
        | with_reducible apply Keep.wrBytes
        | with_reducible apply Keep.foldN
        | with_reducible apply Keep.foldl
        | intro _
        | fail_if_no_progress with_reducible refine Keep.upd ?_ rfl rfl rfl rfl
        | fail_if_no_progress with_reducible refine Keep.draw ?_ rfl rfl rfl rfl
        | split
        | extract_lets
        | (dsimp +zetaDelta only)) only [↓Shown.eq]

theorem landEvaluateN_keepE {fs : List Field} {s0 : State} {L : Nat} {y0 : Nat} {y1 : State} {r_ : _} {t_ : State} (e_ : (State.landEvaluateN L y0 y1) = (t_, r_)) (hk : Keep fs s0 y1) (hts : Within [.od, .host, .land, .flit, .trc, .cores, .ledg, .vest] fs := by first | assumption | exact within_self _ | exact within_trans ‹Within _ _› (by decide) | exact within_of (by decide)) : Keep fs s0 t_ := by
  have key := landEvaluateN_keep L y0 y1 hk hts
  rw [e_] at key
  exact key

theorem landEvaluate_keep {fs : List Field} {s0 : State} (s : State) (L : Nat) (hk : Keep fs s0 s) (hts : Within [.od, .host, .land, .flit, .trc, .cores, .ledg, .vest] fs := by first | assumption | exact within_self _ | exact within_trans ‹Within _ _› (by decide) | exact within_of (by decide)) : Keep fs s0 (State.landEvaluate s L).1 := by
    unfold State.landEvaluate
    refine Shown.out ?_
    simp (disch :=
      repeat' first
        | with_reducible assumption
        | with_reducible exact within_trans hts (by decide)
        | with_reducible exact fun _ => rfl
        | exact fun h_ => absurd (within_mem hts (by decide)) h_
        | with_reducible exact within_mem hts (by decide)
        | (with_reducible refine landEvaluateN_keepE ‹_› ?_)
        | with_reducible apply landEvaluateN_keep
        | with_reducible apply Keep.wr
        | with_reducible apply Keep.wrBytes
        | with_reducible apply Keep.foldN
        | with_reducible apply Keep.foldl
        | intro _
        | fail_if_no_progress with_reducible refine Keep.upd ?_ rfl rfl rfl rfl
        | fail_if_no_progress with_reducible refine Keep.draw ?_ rfl rfl rfl rfl
        | split
        | extract_lets
        | (dsimp +zetaDelta only)) only [↓Shown.eq]

theorem landEvaluate_keepE {fs : List Field} {s0 : State} {s : State} {L : Nat} {r_ : _} {t_ : State} (e_ : (State.landEvaluate s L) = (t_, r_)) (hk : Keep fs s0 s) (hts : Within [.od, .host, .land, .flit, .trc, .cores, .ledg, .vest] fs := by first | assumption | exact within_self _ | exact within_trans ‹Within _ _› (by decide) | exact within_of (by decide)) : Keep fs s0 t_ := by
  have key := landEvaluate_keep s L hk hts
  rw [e_] at key
  exact key

theorem landGrant_keep {fs : List Field} {s0 : State} (s : State) (L : Nat) (hk : Keep fs s0 s) (hts : Within [.od, .host, .land, .flit, .trc, .cores] fs := by first | assumption | exact within_self _ | exact within_trans ‹Within _ _› (by decide) | exact within_of (by decide)) : Keep fs s0 (State.landGrant s L).1 := by
    unfold State.landGrant
    refine Shown.out ?_
    simp (disch :=
      repeat' first
        | with_reducible assumption
        | with_reducible exact within_trans hts (by decide)
        | with_reducible exact fun _ => rfl
        | exact fun h_ => absurd (within_mem hts (by decide)) h_
        | with_reducible exact within_mem hts (by decide)
        | with_reducible apply releaseEntry_keep
        | with_reducible apply resumeWaiter_keep
        | with_reducible apply setLand_keep
        | with_reducible apply Keep.wr
        | with_reducible apply Keep.wrBytes
        | with_reducible apply Keep.foldN
        | with_reducible apply Keep.foldl
        | intro _
        | fail_if_no_progress with_reducible refine Keep.upd ?_ rfl rfl rfl rfl
        | fail_if_no_progress with_reducible refine Keep.draw ?_ rfl rfl rfl rfl
        | split
        | extract_lets
        | (dsimp +zetaDelta only)) only [↓Shown.eq]

theorem landGrant_keepE {fs : List Field} {s0 : State} {s : State} {L : Nat} {r_ : _} {t_ : State} (e_ : (State.landGrant s L) = (t_, r_)) (hk : Keep fs s0 s) (hts : Within [.od, .host, .land, .flit, .trc, .cores] fs := by first | assumption | exact within_self _ | exact within_trans ‹Within _ _› (by decide) | exact within_of (by decide)) : Keep fs s0 t_ := by
  have key := landGrant_keep s L hk hts
  rw [e_] at key
  exact key

theorem landAbandon_keep {fs : List Field} {s0 : State} (s : State) (L : Nat) (hk : Keep fs s0 s) (hts : Within [.od, .host, .land, .flit, .trc, .cores] fs := by first | assumption | exact within_self _ | exact within_trans ‹Within _ _› (by decide) | exact within_of (by decide)) : Keep fs s0 (State.landAbandon s L) := by
    unfold State.landAbandon
    refine Shown.out ?_
    simp (disch :=
      repeat' first
        | with_reducible assumption
        | with_reducible exact within_trans hts (by decide)
        | with_reducible exact fun _ => rfl
        | exact fun h_ => absurd (within_mem hts (by decide)) h_
        | with_reducible exact within_mem hts (by decide)
        | with_reducible apply bump_keep
        | (with_reducible refine landGrant_keepE ‹_› ?_)
        | with_reducible apply landGrant_keep
        | with_reducible apply setLand_keep
        | with_reducible apply Keep.wr
        | with_reducible apply Keep.wrBytes
        | with_reducible apply Keep.foldN
        | with_reducible apply Keep.foldl
        | intro _
        | fail_if_no_progress with_reducible refine Keep.upd ?_ rfl rfl rfl rfl
        | fail_if_no_progress with_reducible refine Keep.draw ?_ rfl rfl rfl rfl
        | split
        | extract_lets
        | (dsimp +zetaDelta only)) only [↓Shown.eq]

theorem withdraw_keep {fs : List Field} {s0 : State} (s : State) (a : Nat) (hk : Keep fs s0 s) (hts : Within [.land] fs := by first | assumption | exact within_self _ | exact within_trans ‹Within _ _› (by decide) | exact within_of (by decide)) : Keep fs s0 (State.withdraw s a) := by
    unfold State.withdraw
    refine Shown.out ?_
    simp (disch :=
      repeat' first
        | with_reducible assumption
        | with_reducible exact within_trans hts (by decide)
        | with_reducible exact fun _ => rfl
        | exact fun h_ => absurd (within_mem hts (by decide)) h_
        | with_reducible exact within_mem hts (by decide)
        | with_reducible apply Keep.wr
        | with_reducible apply Keep.wrBytes
        | with_reducible apply Keep.foldN
        | with_reducible apply Keep.foldl
        | intro _
        | fail_if_no_progress with_reducible refine Keep.upd ?_ rfl rfl rfl rfl
        | fail_if_no_progress with_reducible refine Keep.draw ?_ rfl rfl rfl rfl
        | split
        | extract_lets
        | (dsimp +zetaDelta only)) only [↓Shown.eq]

theorem dropLocks_keep {fs : List Field} {s0 : State} (s : State) (a : Nat) (hk : Keep fs s0 s) (hts : Within [.od, .host, .land, .flit, .trc, .cores] fs := by first | assumption | exact within_self _ | exact within_trans ‹Within _ _› (by decide) | exact within_of (by decide)) : Keep fs s0 (State.dropLocks s a) := by
    unfold State.dropLocks
    refine Shown.out ?_
    simp (disch :=
      repeat' first
        | with_reducible assumption
        | with_reducible exact within_trans hts (by decide)
        | with_reducible exact fun _ => rfl
        | exact fun h_ => absurd (within_mem hts (by decide)) h_
        | with_reducible exact within_mem hts (by decide)
        | with_reducible apply landAbandon_keep
        | with_reducible apply withdraw_keep
        | with_reducible apply Keep.wr
        | with_reducible apply Keep.wrBytes
        | with_reducible apply Keep.foldN
        | with_reducible apply Keep.foldl
        | with_reducible apply Keep.foldlP
        | with_reducible apply Keep.foldNP
        | (with_reducible refine Keep.ofPair ‹_› (Keep.foldlP _ _ _ ?_ ?_))
        | intro _
        | fail_if_no_progress with_reducible refine Keep.upd ?_ rfl rfl rfl rfl
        | fail_if_no_progress with_reducible refine Keep.draw ?_ rfl rfl rfl rfl
        | split
        | extract_lets
        | (dsimp +zetaDelta only)) only [↓Shown.eq]

theorem setPort_keep {fs : List Field} {s0 : State} (s : State) (L : Nat) (p : LandPort) (hk : Keep fs s0 s) (hts : Within [.land] fs := by first | assumption | exact within_self _ | exact within_trans ‹Within _ _› (by decide) | exact within_of (by decide)) : Keep fs s0 (State.setPort s L p) := by
    unfold State.setPort
    refine Shown.out ?_
    simp (disch :=
      repeat' first
        | with_reducible assumption
        | with_reducible exact within_trans hts (by decide)
        | with_reducible exact fun _ => rfl
        | exact fun h_ => absurd (within_mem hts (by decide)) h_
        | with_reducible exact within_mem hts (by decide)
        | with_reducible apply Keep.wr
        | with_reducible apply Keep.wrBytes
        | with_reducible apply Keep.foldN
        | with_reducible apply Keep.foldl
        | intro _
        | fail_if_no_progress with_reducible refine Keep.upd ?_ rfl rfl rfl rfl
        | fail_if_no_progress with_reducible refine Keep.draw ?_ rfl rfl rfl rfl
        | split
        | extract_lets
        | (dsimp +zetaDelta only)) only [↓Shown.eq]

theorem landChange_keep {fs : List Field} {s0 : State} (s : State) (L : Nat) (a : Nat) (w' : Nat) (ovf : Bool) (hk : Keep fs s0 s) (hts : Within [.od, .host, .land, .flit, .trc, .cores, .ledg, .vest] fs := by first | assumption | exact within_self _ | exact within_trans ‹Within _ _› (by decide) | exact within_of (by decide)) : Keep fs s0 (State.landChange s L a w' ovf).1 := by
    unfold State.landChange
    refine Shown.out ?_
    simp (disch :=
      repeat' first
        | with_reducible assumption
        | with_reducible exact within_trans hts (by decide)
        | with_reducible exact fun _ => rfl
        | exact fun h_ => absurd (within_mem hts (by decide)) h_
        | with_reducible exact within_mem hts (by decide)
        | with_reducible apply bump_keep
        | (with_reducible refine landEvaluate_keepE ‹_› ?_)
        | with_reducible apply landEvaluate_keep
        | with_reducible apply setLand_keep
        | with_reducible apply Keep.wr
        | with_reducible apply Keep.wrBytes
        | with_reducible apply Keep.foldN
        | with_reducible apply Keep.foldl
        | intro _
        | fail_if_no_progress with_reducible refine Keep.upd ?_ rfl rfl rfl rfl
        | fail_if_no_progress with_reducible refine Keep.draw ?_ rfl rfl rfl rfl
        | split
        | extract_lets
        | (dsimp +zetaDelta only)) only [↓Shown.eq]

theorem landChange_keepE {fs : List Field} {s0 : State} {s : State} {L : Nat} {a : Nat} {w' : Nat} {ovf : Bool} {r_ : _} {t_ : State} (e_ : (State.landChange s L a w' ovf) = (t_, r_)) (hk : Keep fs s0 s) (hts : Within [.od, .host, .land, .flit, .trc, .cores, .ledg, .vest] fs := by first | assumption | exact within_self _ | exact within_trans ‹Within _ _› (by decide) | exact within_of (by decide)) : Keep fs s0 t_ := by
  have key := landChange_keep s L a w' ovf hk hts
  rw [e_] at key
  exact key

theorem landApply_keep {fs : List Field} {s0 : State} (s : State) (a : Nat) (L : Nat) (op : LandOp) (rd : Nat) (hk : Keep fs s0 s) (hts : Within [.od, .host, .land, .flit, .falt, .trc, .cores, .ledg, .vest] fs := by first | assumption | exact within_self _ | exact within_trans ‹Within _ _› (by decide) | exact within_of (by decide)) : Keep fs s0 (State.landApply s a L op rd).2.1 := by
    unfold State.landApply
    refine Shown.out ?_
    simp (disch :=
      repeat' first
        | with_reducible assumption
        | with_reducible exact within_trans hts (by decide)
        | with_reducible exact fun _ => rfl
        | exact fun h_ => absurd (within_mem hts (by decide)) h_
        | with_reducible exact within_mem hts (by decide)
        | with_reducible apply bump_keep
        | (with_reducible refine landChange_keepE ‹_› ?_)
        | with_reducible apply landChange_keep
        | (with_reducible refine landEvaluate_keepE ‹_› ?_)
        | with_reducible apply landEvaluate_keep
        | (with_reducible refine landGrant_keepE ‹_› ?_)
        | with_reducible apply landGrant_keep
        | with_reducible apply record_keep
        | with_reducible apply setLand_keep
        | with_reducible apply setPort_keep
        | with_reducible apply Keep.wr
        | with_reducible apply Keep.wrBytes
        | with_reducible apply Keep.foldN
        | with_reducible apply Keep.foldl
        | intro _
        | fail_if_no_progress with_reducible refine Keep.upd ?_ rfl rfl rfl rfl
        | fail_if_no_progress with_reducible refine Keep.draw ?_ rfl rfl rfl rfl
        | split
        | extract_lets
        | (dsimp +zetaDelta only)) only [↓Shown.eq]

theorem landApply_keepE {fs : List Field} {s0 : State} {s : State} {a : Nat} {L : Nat} {op : LandOp} {rd : Nat} {r_ : _} {r2_ : _} {t_ : State} (e_ : (State.landApply s a L op rd) = (r_, t_, r2_)) (hk : Keep fs s0 s) (hts : Within [.od, .host, .land, .flit, .falt, .trc, .cores, .ledg, .vest] fs := by first | assumption | exact within_self _ | exact within_trans ‹Within _ _› (by decide) | exact within_of (by decide)) : Keep fs s0 t_ := by
  have key := landApply_keep s a L op rd hk hts
  rw [e_] at key
  exact key

theorem landOp_keep {fs : List Field} {s0 : State} (s : State) (q : Requester) (L : Nat) (op : LandOp) (rd : Nat) (hk : Keep fs s0 s) (hts : Within [.od, .host, .land, .flit, .falt, .trc, .cores, .ledg, .vest] fs := by first | assumption | exact within_self _ | exact within_trans ‹Within _ _› (by decide) | exact within_of (by decide)) : Keep fs s0 (State.landOp s q L op rd).2 := by
    unfold State.landOp
    refine Shown.out ?_
    simp (disch :=
      repeat' first
        | with_reducible assumption
        | with_reducible exact within_trans hts (by decide)
        | with_reducible exact fun _ => rfl
        | exact fun h_ => absurd (within_mem hts (by decide)) h_
        | with_reducible exact within_mem hts (by decide)
        | with_reducible apply bump_keep
        | (with_reducible refine landApply_keepE ‹_› ?_)
        | with_reducible apply landApply_keep
        | with_reducible apply traceLanding_keep
        | with_reducible apply Keep.wr
        | with_reducible apply Keep.wrBytes
        | with_reducible apply Keep.foldN
        | with_reducible apply Keep.foldl
        | intro _
        | fail_if_no_progress with_reducible refine Keep.upd ?_ rfl rfl rfl rfl
        | fail_if_no_progress with_reducible refine Keep.draw ?_ rfl rfl rfl rfl
        | split
        | extract_lets
        | (dsimp +zetaDelta only)) only [↓Shown.eq]

theorem landOp_keepE {fs : List Field} {s0 : State} {s : State} {q : Requester} {L : Nat} {op : LandOp} {rd : Nat} {r_ : _} {t_ : State} (e_ : (State.landOp s q L op rd) = (r_, t_)) (hk : Keep fs s0 s) (hts : Within [.od, .host, .land, .flit, .falt, .trc, .cores, .ledg, .vest] fs := by first | assumption | exact within_self _ | exact within_trans ‹Within _ _› (by decide) | exact within_of (by decide)) : Keep fs s0 t_ := by
  have key := landOp_keep s q L op rd hk hts
  rw [e_] at key
  exact key

end Sys2Proof.Machine
end

