-- ==== Sys2Proof/Laws/KeepMem.lean ====
section
/-!
SUPPORT. The operations of Mem.lean keep the machine well.
-/

set_option Elab.async false

namespace Sys2Proof.Machine

set_option linter.all false

theorem note_keep {fs : List Field} {s0 : State} (s : State) (q : Acc) (rs : List (Prod Nat Nat)) (hk : Keep fs s0 s) (hts : Within [.bal] fs := by first | assumption | exact within_self _ | exact within_trans ‹Within _ _› (by decide) | exact within_of (by decide)) : Keep fs s0 (State.note s q rs) := by
    unfold State.note
    refine Shown.out ?_
    simp (disch :=
      repeat' first
        | with_reducible assumption
        | with_reducible exact within_trans hts (by decide)
        | with_reducible exact fun _ => rfl
        | exact fun h_ => absurd (within_mem hts (by decide)) h_
        | with_reducible exact within_mem hts (by decide)
        | (with_reducible refine Keep.ofPair ‹_› (Keep.foldNP _ _ _ ?_ ?_))
        | (with_reducible refine Keep.ofPair ‹_› (Keep.foldlP _ _ _ ?_ ?_))
        | with_reducible apply Keep.foldlP
        | with_reducible apply Keep.foldNP
        | with_reducible apply Keep.wr
        | with_reducible apply Keep.wrBytes
        | with_reducible apply Keep.foldN
        | with_reducible apply Keep.foldl
        | intro _
        | fail_if_no_progress with_reducible refine Keep.upd ?_ rfl rfl rfl rfl
        | fail_if_no_progress with_reducible refine Keep.draw ?_ rfl rfl rfl rfl
        | split
        | extract_lets
        | (dsimp +zetaDelta only)) only [↓Shown.eq]

theorem setMark_keep {fs : List Field} {s0 : State} (s : State) (a m : Nat) (hk : Keep fs s0 s) (hts : Within [.mem] fs := by first | assumption | exact within_self _ | exact within_trans ‹Within _ _› (by decide) | exact within_of (by decide)) : Keep fs s0 (s.setMark a m) :=
  hk.marks _ m

theorem eccCorrected_keep {fs : List Field} {s0 : State} (s : State) (agent : Nat) (a : Nat) (hk : Keep fs s0 s) (hts : Within [.od, .host, .falt, .mem] fs := by first | assumption | exact within_self _ | exact within_trans ‹Within _ _› (by decide) | exact within_of (by decide)) : Keep fs s0 (State.eccCorrected s agent a) := by
    unfold State.eccCorrected
    refine Shown.out ?_
    simp (disch :=
      repeat' first
        | with_reducible assumption
        | with_reducible exact within_trans hts (by decide)
        | with_reducible exact fun _ => rfl
        | exact fun h_ => absurd (within_mem hts (by decide)) h_
        | with_reducible exact within_mem hts (by decide)
        | with_reducible apply bump_keep
        | with_reducible apply record_keep
        | with_reducible apply setMark_keep
        | with_reducible apply Keep.wr
        | with_reducible apply Keep.wrBytes
        | with_reducible apply Keep.foldN
        | with_reducible apply Keep.foldl
        | intro _
        | fail_if_no_progress with_reducible refine Keep.upd ?_ rfl rfl rfl rfl
        | fail_if_no_progress with_reducible refine Keep.draw ?_ rfl rfl rfl rfl
        | split
        | extract_lets
        | (dsimp +zetaDelta only)) only [↓Shown.eq]

theorem eccUncorrectable_keep {fs : List Field} {s0 : State} (s : State) (a : Nat) (hk : Keep fs s0 s) (hts : Within [.od] fs := by first | assumption | exact within_self _ | exact within_trans ‹Within _ _› (by decide) | exact within_of (by decide)) : Keep fs s0 (State.eccUncorrectable s a) := by
    unfold State.eccUncorrectable
    refine Shown.out ?_
    simp (disch :=
      repeat' first
        | with_reducible assumption
        | with_reducible exact within_trans hts (by decide)
        | with_reducible exact fun _ => rfl
        | exact fun h_ => absurd (within_mem hts (by decide)) h_
        | with_reducible exact within_mem hts (by decide)
        | with_reducible apply bump_keep
        | with_reducible apply wr_keep
        | with_reducible apply Keep.wr
        | with_reducible apply Keep.wrBytes
        | with_reducible apply Keep.foldN
        | with_reducible apply Keep.foldl
        | intro _
        | fail_if_no_progress with_reducible refine Keep.upd ?_ rfl rfl rfl rfl
        | fail_if_no_progress with_reducible refine Keep.draw ?_ rfl rfl rfl rfl
        | split
        | extract_lets
        | (dsimp +zetaDelta only)) only [↓Shown.eq]

theorem scrubWord_keep {fs : List Field} {s0 : State} (s : State) (a : Nat) (hk : Keep fs s0 s) (hts : Within [.od, .host, .falt, .mem] fs := by first | assumption | exact within_self _ | exact within_trans ‹Within _ _› (by decide) | exact within_of (by decide)) : Keep fs s0 (State.scrubWord s a) := by
    unfold State.scrubWord
    refine Shown.out ?_
    simp (disch :=
      repeat' first
        | with_reducible assumption
        | with_reducible exact within_trans hts (by decide)
        | with_reducible exact fun _ => rfl
        | exact fun h_ => absurd (within_mem hts (by decide)) h_
        | with_reducible exact within_mem hts (by decide)
        | with_reducible apply eccCorrected_keep
        | with_reducible apply eccUncorrectable_keep
        | with_reducible apply record_keep
        | with_reducible apply Keep.wr
        | with_reducible apply Keep.wrBytes
        | with_reducible apply Keep.foldN
        | with_reducible apply Keep.foldl
        | intro _
        | fail_if_no_progress with_reducible refine Keep.upd ?_ rfl rfl rfl rfl
        | fail_if_no_progress with_reducible refine Keep.draw ?_ rfl rfl rfl rfl
        | split
        | extract_lets
        | (dsimp +zetaDelta only)) only [↓Shown.eq]

theorem scrubFind_keep {fs : List Field} {s0 : State} (s : State) (a : Nat) (m : Nat) (hk : Keep fs s0 s) (hts : Within [.od, .host, .falt, .mem] fs := by first | assumption | exact within_self _ | exact within_trans ‹Within _ _› (by decide) | exact within_of (by decide)) : Keep fs s0 (State.scrubFind s a m) := by
  unfold State.scrubFind
  exact (scrubWord_keep _ _ (setMark_keep _ _ _ hk)).scrubbed _

theorem scrubRest_keep {fs : List Field} {s0 : State} (s : State) (reads : Nat → Bool) (hk : Keep fs s0 s) (hts : Within [.od, .host, .falt, .mem] fs := by first | assumption | exact within_self _ | exact within_trans ‹Within _ _› (by decide) | exact within_of (by decide)) : Keep fs s0 (State.scrubRest s reads) := by
  unfold State.scrubRest
  exact (Keep.foldl _ _ _ (fun _ _ h => scrubWord_keep _ _ h) hk).scrubbed _

theorem setMemByte_keep {fs : List Field} {s0 : State} (s : State) (a : Nat) (b : Byte) (hk : Keep fs s0 s) (hts : Within [.mem] fs := by first | assumption | exact within_self _ | exact within_trans ‹Within _ _› (by decide) | exact within_of (by decide)) : Keep fs s0 (s.setMemByte a b) :=
  hk.cells a b

theorem setMemBytes_keep {fs : List Field} {s0 : State} (s : State) (a : Nat) (bs : List Byte) (hk : Keep fs s0 s) (hts : Within [.mem] fs := by first | assumption | exact within_self _ | exact within_trans ‹Within _ _› (by decide) | exact within_of (by decide)) : Keep fs s0 (State.setMemBytes s a bs) := by
  induction bs generalizing s a with
  | nil => exact hk
  | cons b bs ih => exact ih _ _ (setMemByte_keep s a b hk)

theorem memClear_keep {fs : List Field} {s0 : State} (s : State) (p : Nat → Bool) (hk : Keep fs s0 s) (hts : Within [.mem] fs := by first | assumption | exact within_self _ | exact within_trans ‹Within _ _› (by decide) | exact within_of (by decide)) : Keep fs s0 (s.memClear p) :=
  hk.clearMem _ _

theorem setHostByte_keep {fs : List Field} {s0 : State} (s : State) (bus : Nat) (b : Byte) (hk : Keep fs s0 s) (hts : Within [.host, .hostMem] fs := by first | assumption | exact within_self _ | exact within_trans ‹Within _ _› (by decide) | exact within_of (by decide)) :
    Keep fs s0 (s.setHostByte bus b) := hk.hostByte bus b

theorem setHostBytes_keep {fs : List Field} {s0 : State} (s : State) (a : Nat) (bs : List Byte) (hk : Keep fs s0 s) (hts : Within [.host, .hostMem] fs := by first | assumption | exact within_self _ | exact within_trans ‹Within _ _› (by decide) | exact within_of (by decide)) : Keep fs s0 (State.setHostBytes s a bs) := by
  induction bs generalizing s a with
  | nil => exact hk
  | cons b bs ih => exact ih _ _ (setHostByte_keep s a b hk)

theorem readFrom_keep {fs : List Field} {s0 : State} (q : Acc) (y0 : Nat) (y1 : State) (y2 : Nat) (y3 : Bool) (y4 : MemRes) (hk : Keep fs s0 y1) (hts : Within [.od, .host, .falt, .mem] fs := by first | assumption | exact within_self _ | exact within_trans ‹Within _ _› (by decide) | exact within_of (by decide)) : Keep fs s0 (State.readFrom q y0 y1 y2 y3 y4).2 := by
  induction y0 generalizing y1 y2 y3 y4 with
  | zero =>
    unfold State.readFrom
    refine Shown.out ?_
    simp (disch :=
      repeat' first
        | with_reducible assumption
        | with_reducible exact within_trans hts (by decide)
        | with_reducible exact fun _ => rfl
        | exact fun h_ => absurd (within_mem hts (by decide)) h_
        | with_reducible exact within_mem hts (by decide)
        | (with_reducible refine drawFree_keepE ‹_› ?_)
        | with_reducible apply drawFree_keep
        | with_reducible apply eccCorrected_keep
        | with_reducible apply eccUncorrectable_keep
        | with_reducible apply Keep.wr
        | with_reducible apply Keep.wrBytes
        | with_reducible apply Keep.foldN
        | with_reducible apply Keep.foldl
        | intro _
        | fail_if_no_progress with_reducible refine Keep.upd ?_ rfl rfl rfl rfl
        | fail_if_no_progress with_reducible refine Keep.draw ?_ rfl rfl rfl rfl
        | split
        | extract_lets
        | (dsimp +zetaDelta only)) only [↓Shown.eq]
  | succ n_ ih =>
    unfold State.readFrom
    refine Shown.out ?_
    simp (disch :=
      repeat' first
        | with_reducible assumption
        | with_reducible exact within_trans hts (by decide)
        | with_reducible exact fun _ => rfl
        | exact fun h_ => absurd (within_mem hts (by decide)) h_
        | with_reducible exact within_mem hts (by decide)
        | (with_reducible refine Keep.ofPair ‹_› (ih _ _ _ _ ?_))
        | with_reducible apply ih
        | (with_reducible refine drawFree_keepE ‹_› ?_)
        | with_reducible apply drawFree_keep
        | with_reducible apply eccCorrected_keep
        | with_reducible apply eccUncorrectable_keep
        | with_reducible apply Keep.wr
        | with_reducible apply Keep.wrBytes
        | with_reducible apply Keep.foldN
        | with_reducible apply Keep.foldl
        | intro _
        | fail_if_no_progress with_reducible refine Keep.upd ?_ rfl rfl rfl rfl
        | fail_if_no_progress with_reducible refine Keep.draw ?_ rfl rfl rfl rfl
        | split
        | extract_lets
        | (dsimp +zetaDelta only)) only [↓Shown.eq]

theorem readFrom_keepE {fs : List Field} {s0 : State} {q : Acc} {y0 : Nat} {y1 : State} {y2 : Nat} {y3 : Bool} {y4 : MemRes} {r_ : _} {t_ : State} (e_ : (State.readFrom q y0 y1 y2 y3 y4) = (r_, t_)) (hk : Keep fs s0 y1) (hts : Within [.od, .host, .falt, .mem] fs := by first | assumption | exact within_self _ | exact within_trans ‹Within _ _› (by decide) | exact within_of (by decide)) : Keep fs s0 t_ := by
  have key := readFrom_keep q y0 y1 y2 y3 y4 hk hts
  rw [e_] at key
  exact key

theorem countWin_keep {fs : List Field} {s0 : State} (s : State) (q : Acc) (r : MemRes) (hk : Keep fs s0 s) (hts : Within [.od, .host] fs := by first | assumption | exact within_self _ | exact within_trans ‹Within _ _› (by decide) | exact within_of (by decide)) : Keep fs s0 (State.countWin s q r) := by
    unfold State.countWin
    refine Shown.out ?_
    simp (disch :=
      repeat' first
        | with_reducible assumption
        | with_reducible exact within_trans hts (by decide)
        | with_reducible exact fun _ => rfl
        | exact fun h_ => absurd (within_mem hts (by decide)) h_
        | with_reducible exact within_mem hts (by decide)
        | with_reducible apply bump_keep
        | with_reducible apply signalTen_keep
        | with_reducible apply wr_keep
        | with_reducible apply Keep.wr
        | with_reducible apply Keep.wrBytes
        | with_reducible apply Keep.foldN
        | with_reducible apply Keep.foldl
        | intro _
        | fail_if_no_progress with_reducible refine Keep.upd ?_ rfl rfl rfl rfl
        | fail_if_no_progress with_reducible refine Keep.draw ?_ rfl rfl rfl rfl
        | split
        | extract_lets
        | (dsimp +zetaDelta only)) only [↓Shown.eq]

theorem transfer_keep {fs : List Field} {s0 : State} (s : State) (q : Acc) (a : Nat) (hk : Keep fs s0 s) (hts : Within [.od, .host, .falt, .bal] fs := by first | assumption | exact within_self _ | exact within_trans ‹Within _ _› (by decide) | exact within_of (by decide)) : Keep fs s0 (State.transfer s q a).2 := by
    unfold State.transfer
    refine Shown.out ?_
    simp (disch :=
      repeat' first
        | with_reducible assumption
        | with_reducible exact within_trans hts (by decide)
        | with_reducible exact fun _ => rfl
        | exact fun h_ => absurd (within_mem hts (by decide)) h_
        | with_reducible exact within_mem hts (by decide)
        | with_reducible apply record_keep
        | with_reducible apply Keep.wr
        | with_reducible apply Keep.wrBytes
        | with_reducible apply Keep.foldN
        | with_reducible apply Keep.foldl
        | intro _
        | fail_if_no_progress with_reducible refine Keep.upd ?_ rfl rfl rfl rfl
        | fail_if_no_progress with_reducible refine Keep.draw ?_ rfl rfl rfl rfl
        | split
        | extract_lets
        | (dsimp +zetaDelta only)) only [↓Shown.eq]

theorem transfer_keepE {fs : List Field} {s0 : State} {s : State} {q : Acc} {a : Nat} {r_ : _} {t_ : State} (e_ : (State.transfer s q a) = (r_, t_)) (hk : Keep fs s0 s) (hts : Within [.od, .host, .falt, .bal] fs := by first | assumption | exact within_self _ | exact within_trans ‹Within _ _› (by decide) | exact within_of (by decide)) : Keep fs s0 t_ := by
  have key := transfer_keep s q a hk hts
  rw [e_] at key
  exact key

theorem noteIf_keep {fs : List Field} {s0 : State} (s : State) (q : Acc) (r : MemRes) (rs : List (Prod Nat Nat)) (hk : Keep fs s0 s) (hts : Within [.bal] fs := by first | assumption | exact within_self _ | exact within_trans ‹Within _ _› (by decide) | exact within_of (by decide)) : Keep fs s0 (State.noteIf s q r rs) := by
    unfold State.noteIf
    refine Shown.out ?_
    simp (disch :=
      repeat' first
        | with_reducible assumption
        | with_reducible exact within_trans hts (by decide)
        | with_reducible exact fun _ => rfl
        | exact fun h_ => absurd (within_mem hts (by decide)) h_
        | with_reducible exact within_mem hts (by decide)
        | with_reducible apply note_keep
        | with_reducible apply Keep.wr
        | with_reducible apply Keep.wrBytes
        | with_reducible apply Keep.foldN
        | with_reducible apply Keep.foldl
        | intro _
        | fail_if_no_progress with_reducible refine Keep.upd ?_ rfl rfl rfl rfl
        | fail_if_no_progress with_reducible refine Keep.draw ?_ rfl rfl rfl rfl
        | split
        | extract_lets
        | (dsimp +zetaDelta only)) only [↓Shown.eq]

theorem readDone_keep {fs : List Field} {s0 : State} (s : State) (q : Acc) (a : Nat) (n : Nat) (hk : Keep fs s0 s) (hts : Within [.od, .host, .falt, .mem, .bal] fs := by first | assumption | exact within_self _ | exact within_trans ‹Within _ _› (by decide) | exact within_of (by decide)) : Keep fs s0 (State.readDone s q a n).2 := by
    unfold State.readDone
    refine Shown.out ?_
    simp (disch :=
      repeat' first
        | with_reducible assumption
        | with_reducible exact within_trans hts (by decide)
        | with_reducible exact fun _ => rfl
        | exact fun h_ => absurd (within_mem hts (by decide)) h_
        | with_reducible exact within_mem hts (by decide)
        | with_reducible apply countWin_keep
        | with_reducible apply noteIf_keep
        | (with_reducible refine readFrom_keepE ‹_› ?_)
        | with_reducible apply readFrom_keep
        | with_reducible apply Keep.wr
        | with_reducible apply Keep.wrBytes
        | with_reducible apply Keep.foldN
        | with_reducible apply Keep.foldl
        | intro _
        | fail_if_no_progress with_reducible refine Keep.upd ?_ rfl rfl rfl rfl
        | fail_if_no_progress with_reducible refine Keep.draw ?_ rfl rfl rfl rfl
        | split
        | extract_lets
        | (dsimp +zetaDelta only)) only [↓Shown.eq]

theorem readDone_keepE {fs : List Field} {s0 : State} {s : State} {q : Acc} {a : Nat} {n : Nat} {r_ : _} {t_ : State} (e_ : (State.readDone s q a n) = (r_, t_)) (hk : Keep fs s0 s) (hts : Within [.od, .host, .falt, .mem, .bal] fs := by first | assumption | exact within_self _ | exact within_trans ‹Within _ _› (by decide) | exact within_of (by decide)) : Keep fs s0 t_ := by
  have key := readDone_keep s q a n hk hts
  rw [e_] at key
  exact key

theorem memRead_keep {fs : List Field} {s0 : State} (s : State) (q : Acc) (a : Nat) (n : Nat) (hk : Keep fs s0 s) (hts : Within [.od, .host, .falt, .mem, .bal] fs := by first | assumption | exact within_self _ | exact within_trans ‹Within _ _› (by decide) | exact within_of (by decide)) : Keep fs s0 (State.memRead s q a n).2 := by
    unfold State.memRead
    refine Shown.out ?_
    simp (disch :=
      repeat' first
        | with_reducible assumption
        | with_reducible exact within_trans hts (by decide)
        | with_reducible exact fun _ => rfl
        | exact fun h_ => absurd (within_mem hts (by decide)) h_
        | with_reducible exact within_mem hts (by decide)
        | (with_reducible refine readDone_keepE ‹_› ?_)
        | with_reducible apply readDone_keep
        | (with_reducible refine transfer_keepE ‹_› ?_)
        | with_reducible apply transfer_keep
        | with_reducible apply Keep.wr
        | with_reducible apply Keep.wrBytes
        | with_reducible apply Keep.foldN
        | with_reducible apply Keep.foldl
        | intro _
        | fail_if_no_progress with_reducible refine Keep.upd ?_ rfl rfl rfl rfl
        | fail_if_no_progress with_reducible refine Keep.draw ?_ rfl rfl rfl rfl
        | split
        | extract_lets
        | (dsimp +zetaDelta only)) only [↓Shown.eq]

theorem memRead_keepE {fs : List Field} {s0 : State} {s : State} {q : Acc} {a : Nat} {n : Nat} {r_ : _} {t_ : State} (e_ : (State.memRead s q a n) = (r_, t_)) (hk : Keep fs s0 s) (hts : Within [.od, .host, .falt, .mem, .bal] fs := by first | assumption | exact within_self _ | exact within_trans ‹Within _ _› (by decide) | exact within_of (by decide)) : Keep fs s0 t_ := by
  have key := memRead_keep s q a n hk hts
  rw [e_] at key
  exact key

theorem readOn_keep {fs : List Field} {s0 : State} (s : State) (q : Acc) (a : Nat) (first : Bool) (hk : Keep fs s0 s) (hts : Within [.od, .host, .falt, .mem, .bal] fs := by first | assumption | exact within_self _ | exact within_trans ‹Within _ _› (by decide) | exact within_of (by decide)) : Keep fs s0 (State.readOn s q a first).2 := by
    unfold State.readOn
    refine Shown.out ?_
    simp (disch :=
      repeat' first
        | with_reducible assumption
        | with_reducible exact within_trans hts (by decide)
        | with_reducible exact fun _ => rfl
        | exact fun h_ => absurd (within_mem hts (by decide)) h_
        | with_reducible exact within_mem hts (by decide)
        | with_reducible apply countWin_keep
        | (with_reducible refine memRead_keepE ‹_› ?_)
        | with_reducible apply memRead_keep
        | (with_reducible refine readFrom_keepE ‹_› ?_)
        | with_reducible apply readFrom_keep
        | with_reducible apply Keep.wr
        | with_reducible apply Keep.wrBytes
        | with_reducible apply Keep.foldN
        | with_reducible apply Keep.foldl
        | intro _
        | fail_if_no_progress with_reducible refine Keep.upd ?_ rfl rfl rfl rfl
        | fail_if_no_progress with_reducible refine Keep.draw ?_ rfl rfl rfl rfl
        | split
        | extract_lets
        | (dsimp +zetaDelta only)) only [↓Shown.eq]

theorem readOn_keepE {fs : List Field} {s0 : State} {s : State} {q : Acc} {a : Nat} {first : Bool} {r_ : _} {t_ : State} (e_ : (State.readOn s q a first) = (r_, t_)) (hk : Keep fs s0 s) (hts : Within [.od, .host, .falt, .mem, .bal] fs := by first | assumption | exact within_self _ | exact within_trans ‹Within _ _› (by decide) | exact within_of (by decide)) : Keep fs s0 t_ := by
  have key := readOn_keep s q a first hk hts
  rw [e_] at key
  exact key

theorem writeFrom_keep {fs : List Field} {s0 : State} (q : Acc) (s : State) (a : Nat) (bs : List Byte) (r : MemRes) (hk : Keep fs s0 s) (hts : Within [.host, .hostMem, .mem] fs := by first | assumption | exact within_self _ | exact within_trans ‹Within _ _› (by decide) | exact within_of (by decide)) :
    Keep fs s0 (State.writeFrom q s a bs r).2 := by
  induction bs generalizing s a r with
  | nil => exact hk
  | cons b bs ih =>
    unfold State.writeFrom
    split
    · exact ih _ _ _ hk
    · exact ih _ _ _ hk
    · refine ih _ _ _ ?_
      split
      · exact setHostByte_keep _ _ _ hk
      · exact hk
    · exact ih _ _ _ (setMemByte_keep _ _ _ (setMark_keep _ _ _ hk))

theorem writeFrom_keepE {fs : List Field} {s0 : State} {q : Acc} {s : State} {a : Nat} {bs : List Byte} {r r_ : MemRes} {t_ : State}
    (e_ : State.writeFrom q s a bs r = (r_, t_)) (hk : Keep fs s0 s) (hts : Within [.host, .hostMem, .mem] fs := by first | assumption | exact within_self _ | exact within_trans ‹Within _ _› (by decide) | exact within_of (by decide)) : Keep fs s0 t_ :=
  Keep.ofPair e_ (writeFrom_keep q s a bs r hk)

theorem writeDone_keep {fs : List Field} {s0 : State} (s : State) (q : Acc) (a : Nat) (bs : List Byte) (hk : Keep fs s0 s) (hts : Within [.od, .host, .hostMem, .mem, .bal] fs := by first | assumption | exact within_self _ | exact within_trans ‹Within _ _› (by decide) | exact within_of (by decide)) : Keep fs s0 (State.writeDone s q a bs).2 := by
    unfold State.writeDone
    refine Shown.out ?_
    simp (disch :=
      repeat' first
        | with_reducible assumption
        | with_reducible exact within_trans hts (by decide)
        | with_reducible exact fun _ => rfl
        | exact fun h_ => absurd (within_mem hts (by decide)) h_
        | with_reducible exact within_mem hts (by decide)
        | with_reducible apply countWin_keep
        | with_reducible apply noteIf_keep
        | (with_reducible refine writeFrom_keepE ‹_› ?_)
        | with_reducible apply writeFrom_keep
        | with_reducible apply Keep.wr
        | with_reducible apply Keep.wrBytes
        | with_reducible apply Keep.foldN
        | with_reducible apply Keep.foldl
        | intro _
        | fail_if_no_progress with_reducible refine Keep.upd ?_ rfl rfl rfl rfl
        | fail_if_no_progress with_reducible refine Keep.draw ?_ rfl rfl rfl rfl
        | split
        | extract_lets
        | (dsimp +zetaDelta only)) only [↓Shown.eq]

theorem writeDone_keepE {fs : List Field} {s0 : State} {s : State} {q : Acc} {a : Nat} {bs : List Byte} {r_ : _} {t_ : State} (e_ : (State.writeDone s q a bs) = (r_, t_)) (hk : Keep fs s0 s) (hts : Within [.od, .host, .hostMem, .mem, .bal] fs := by first | assumption | exact within_self _ | exact within_trans ‹Within _ _› (by decide) | exact within_of (by decide)) : Keep fs s0 t_ := by
  have key := writeDone_keep s q a bs hk hts
  rw [e_] at key
  exact key

theorem memWrite_keep {fs : List Field} {s0 : State} (s : State) (q : Acc) (a : Nat) (bs : List Byte) (hk : Keep fs s0 s) (hts : Within [.od, .host, .hostMem, .falt, .mem, .bal] fs := by first | assumption | exact within_self _ | exact within_trans ‹Within _ _› (by decide) | exact within_of (by decide)) : Keep fs s0 (State.memWrite s q a bs).2 := by
    unfold State.memWrite
    refine Shown.out ?_
    simp (disch :=
      repeat' first
        | with_reducible assumption
        | with_reducible exact within_trans hts (by decide)
        | with_reducible exact fun _ => rfl
        | exact fun h_ => absurd (within_mem hts (by decide)) h_
        | with_reducible exact within_mem hts (by decide)
        | (with_reducible refine transfer_keepE ‹_› ?_)
        | with_reducible apply transfer_keep
        | (with_reducible refine writeDone_keepE ‹_› ?_)
        | with_reducible apply writeDone_keep
        | with_reducible apply Keep.wr
        | with_reducible apply Keep.wrBytes
        | with_reducible apply Keep.foldN
        | with_reducible apply Keep.foldl
        | intro _
        | fail_if_no_progress with_reducible refine Keep.upd ?_ rfl rfl rfl rfl
        | fail_if_no_progress with_reducible refine Keep.draw ?_ rfl rfl rfl rfl
        | split
        | extract_lets
        | (dsimp +zetaDelta only)) only [↓Shown.eq]

theorem memWrite_keepE {fs : List Field} {s0 : State} {s : State} {q : Acc} {a : Nat} {bs : List Byte} {r_ : _} {t_ : State} (e_ : (State.memWrite s q a bs) = (r_, t_)) (hk : Keep fs s0 s) (hts : Within [.od, .host, .hostMem, .falt, .mem, .bal] fs := by first | assumption | exact within_self _ | exact within_trans ‹Within _ _› (by decide) | exact within_of (by decide)) : Keep fs s0 t_ := by
  have key := memWrite_keep s q a bs hk hts
  rw [e_] at key
  exact key

theorem errorRecord_keep {fs : List Field} {s0 : State} (s : State) (q : Acc) (a : Nat) (n : optParam Nat 0) (hk : Keep fs s0 s) (hts : Within [.od, .host, .falt] fs := by first | assumption | exact within_self _ | exact within_trans ‹Within _ _› (by decide) | exact within_of (by decide)) : Keep fs s0 (State.errorRecord s q a n) := by
    unfold State.errorRecord
    refine Shown.out ?_
    simp (disch :=
      repeat' first
        | with_reducible assumption
        | with_reducible exact within_trans hts (by decide)
        | with_reducible exact fun _ => rfl
        | exact fun h_ => absurd (within_mem hts (by decide)) h_
        | with_reducible exact within_mem hts (by decide)
        | with_reducible apply record_keep
        | with_reducible apply Keep.wr
        | with_reducible apply Keep.wrBytes
        | with_reducible apply Keep.foldN
        | with_reducible apply Keep.foldl
        | intro _
        | fail_if_no_progress with_reducible refine Keep.upd ?_ rfl rfl rfl rfl
        | fail_if_no_progress with_reducible refine Keep.draw ?_ rfl rfl rfl rfl
        | split
        | extract_lets
        | (dsimp +zetaDelta only)) only [↓Shown.eq]

theorem memRecord_keep {fs : List Field} {s0 : State} (s : State) (q : Acc) (r : MemRes) (n : optParam Nat 0) (hk : Keep fs s0 s) (hts : Within [.od, .host, .falt] fs := by first | assumption | exact within_self _ | exact within_trans ‹Within _ _› (by decide) | exact within_of (by decide)) : Keep fs s0 (State.memRecord s q r n) := by
    unfold State.memRecord
    refine Shown.out ?_
    simp (disch :=
      repeat' first
        | with_reducible assumption
        | with_reducible exact within_trans hts (by decide)
        | with_reducible exact fun _ => rfl
        | exact fun h_ => absurd (within_mem hts (by decide)) h_
        | with_reducible exact within_mem hts (by decide)
        | with_reducible apply errorRecord_keep
        | with_reducible apply record_keep
        | with_reducible apply Keep.wr
        | with_reducible apply Keep.wrBytes
        | with_reducible apply Keep.foldN
        | with_reducible apply Keep.foldl
        | intro _
        | fail_if_no_progress with_reducible refine Keep.upd ?_ rfl rfl rfl rfl
        | fail_if_no_progress with_reducible refine Keep.draw ?_ rfl rfl rfl rfl
        | split
        | extract_lets
        | (dsimp +zetaDelta only)) only [↓Shown.eq]

theorem wholeWrite_keep {fs : List Field} {s0 : State} (s : State) (q : Acc) (a : Nat) (bs : List Byte) (hk : Keep fs s0 s) (hts : Within [.od, .host, .hostMem, .falt, .mem, .bal] fs := by first | assumption | exact within_self _ | exact within_trans ‹Within _ _› (by decide) | exact within_of (by decide)) : Keep fs s0 (State.wholeWrite s q a bs).2 := by
    unfold State.wholeWrite
    refine Shown.out ?_
    simp (disch :=
      repeat' first
        | with_reducible assumption
        | with_reducible exact within_trans hts (by decide)
        | with_reducible exact fun _ => rfl
        | exact fun h_ => absurd (within_mem hts (by decide)) h_
        | with_reducible exact within_mem hts (by decide)
        | with_reducible apply countWin_keep
        | (with_reducible refine memWrite_keepE ‹_› ?_)
        | with_reducible apply memWrite_keep
        | with_reducible apply Keep.wr
        | with_reducible apply Keep.wrBytes
        | with_reducible apply Keep.foldN
        | with_reducible apply Keep.foldl
        | intro _
        | fail_if_no_progress with_reducible refine Keep.upd ?_ rfl rfl rfl rfl
        | fail_if_no_progress with_reducible refine Keep.draw ?_ rfl rfl rfl rfl
        | split
        | extract_lets
        | (dsimp +zetaDelta only)) only [↓Shown.eq]

theorem wholeWrite_keepE {fs : List Field} {s0 : State} {s : State} {q : Acc} {a : Nat} {bs : List Byte} {r_ : _} {t_ : State} (e_ : (State.wholeWrite s q a bs) = (r_, t_)) (hk : Keep fs s0 s) (hts : Within [.od, .host, .hostMem, .falt, .mem, .bal] fs := by first | assumption | exact within_self _ | exact within_trans ‹Within _ _› (by decide) | exact within_of (by decide)) : Keep fs s0 t_ := by
  have key := wholeWrite_keep s q a bs hk hts
  rw [e_] at key
  exact key

theorem errReported_keep {fs : List Field} {s0 : State} (s : State) (q : Acc) (r : MemRes) (hk : Keep fs s0 s) (hts : Within [.od, .host, .falt] fs := by first | assumption | exact within_self _ | exact within_trans ‹Within _ _› (by decide) | exact within_of (by decide)) : Keep fs s0 (State.errReported s q r) := by
    unfold State.errReported
    refine Shown.out ?_
    simp (disch :=
      repeat' first
        | with_reducible assumption
        | with_reducible exact within_trans hts (by decide)
        | with_reducible exact fun _ => rfl
        | exact fun h_ => absurd (within_mem hts (by decide)) h_
        | with_reducible exact within_mem hts (by decide)
        | with_reducible apply errorRecord_keep
        | with_reducible apply Keep.wr
        | with_reducible apply Keep.wrBytes
        | with_reducible apply Keep.foldN
        | with_reducible apply Keep.foldl
        | intro _
        | fail_if_no_progress with_reducible refine Keep.upd ?_ rfl rfl rfl rfl
        | fail_if_no_progress with_reducible refine Keep.draw ?_ rfl rfl rfl rfl
        | split
        | extract_lets
        | (dsimp +zetaDelta only)) only [↓Shown.eq]

end Sys2Proof.Machine
end

