-- ==== Sys2Proof/Laws/KeepSeal.lean ====
section
/-!
SUPPORT. The operations of Seal.lean keep the machine well.
-/

set_option Elab.async false

namespace Sys2Proof.Machine

set_option linter.all false

theorem ringPut_keep {fs : List Field} {s0 : State} (s : State) (q : Acc) (a : Nat) (bs : List Byte) (hk : Keep fs s0 s) (hts : Within [.od, .host, .hostMem, .falt, .mem, .bal] fs := by first | assumption | exact within_self _ | exact within_trans ‹Within _ _› (by decide) | exact within_of (by decide)) : Keep fs s0 (State.ringPut s q a bs).2 := by
    unfold State.ringPut
    refine Shown.out ?_
    simp (disch :=
      repeat' first
        | with_reducible assumption
        | with_reducible exact within_trans hts (by decide)
        | with_reducible exact fun _ => rfl
        | exact fun h_ => absurd (within_mem hts (by decide)) h_
        | with_reducible exact within_mem hts (by decide)
        | with_reducible apply errReported_keep
        | (with_reducible refine wholeWrite_keepE ‹_› ?_)
        | with_reducible apply wholeWrite_keep
        | with_reducible apply Keep.wr
        | with_reducible apply Keep.wrBytes
        | with_reducible apply Keep.foldN
        | with_reducible apply Keep.foldl
        | intro _
        | fail_if_no_progress with_reducible refine Keep.upd ?_ rfl rfl rfl rfl
        | fail_if_no_progress with_reducible refine Keep.draw ?_ rfl rfl rfl rfl
        | split
        | extract_lets
        | (dsimp +zetaDelta only)) only [↓Shown.eq]

theorem ringPut_keepE {fs : List Field} {s0 : State} {s : State} {q : Acc} {a : Nat} {bs : List Byte} {r_ : _} {t_ : State} (e_ : (State.ringPut s q a bs) = (r_, t_)) (hk : Keep fs s0 s) (hts : Within [.od, .host, .hostMem, .falt, .mem, .bal] fs := by first | assumption | exact within_self _ | exact within_trans ‹Within _ _› (by decide) | exact within_of (by decide)) : Keep fs s0 t_ := by
  have key := ringPut_keep s q a bs hk hts
  rw [e_] at key
  exact key

end Sys2Proof.Machine
end

