-- ==== Sys2Proof/Laws/KeepCoreIssue.lean ====
section
/-!
SUPPORT. The operations of CoreIssue.lean keep the machine well.
-/

set_option Elab.async false

namespace Sys2Proof.Machine

set_option linter.all false

theorem taint_keep {fs : List Field} {s0 : State} (s : State) (n : Nat) (hk : Keep fs s0 s) (hts : Within [.ledg] fs := by first | assumption | exact within_self _ | exact within_trans ‹Within _ _› (by decide) | exact within_of (by decide)) : Keep fs s0 (State.taint s n) := by
    unfold State.taint
    refine Shown.out ?_
    simp (disch :=
      repeat' first
        | with_reducible assumption
        | with_reducible exact within_trans hts (by decide)
        | with_reducible exact fun _ => rfl
        | exact fun h_ => absurd (within_mem hts (by decide)) h_
        | with_reducible exact within_mem hts (by decide)
        | with_reducible apply Keep.wr
        | with_reducible apply Keep.wrBytes
        | with_reducible apply Keep.foldN
        | with_reducible apply Keep.foldl
        | intro _
        | fail_if_no_progress with_reducible refine Keep.upd ?_ rfl rfl rfl rfl
        | fail_if_no_progress with_reducible refine Keep.draw ?_ rfl rfl rfl rfl
        | split
        | extract_lets
        | (dsimp +zetaDelta only)) only [↓Shown.eq]

theorem traceSealed_keep {fs : List Field} {s0 : State} (s : State) (n : Nat) (hk : Keep fs s0 s) (hts : Within [.od, .host, .trc] fs := by first | assumption | exact within_self _ | exact within_trans ‹Within _ _› (by decide) | exact within_of (by decide)) : Keep fs s0 (State.traceSealed s n) := by
    unfold State.traceSealed
    refine Shown.out ?_
    simp (disch :=
      repeat' first
        | with_reducible assumption
        | with_reducible exact within_trans hts (by decide)
        | with_reducible exact fun _ => rfl
        | exact fun h_ => absurd (within_mem hts (by decide)) h_
        | with_reducible exact within_mem hts (by decide)
        | with_reducible apply traceInstr_keep
        | with_reducible apply Keep.wr
        | with_reducible apply Keep.wrBytes
        | with_reducible apply Keep.foldN
        | with_reducible apply Keep.foldl
        | intro _
        | fail_if_no_progress with_reducible refine Keep.upd ?_ rfl rfl rfl rfl
        | fail_if_no_progress with_reducible refine Keep.draw ?_ rfl rfl rfl rfl
        | split
        | extract_lets
        | (dsimp +zetaDelta only)) only [↓Shown.eq]

theorem sealStage_keep {fs : List Field} {s0 : State} (s : State) (n : Nat) (hk : Keep fs s0 s) (hts : Within [.od, .host, .trc, .cores, .ledg] fs := by first | assumption | exact within_self _ | exact within_trans ‹Within _ _› (by decide) | exact within_of (by decide)) : Keep fs s0 (State.sealStage s n) := by
    unfold State.sealStage
    refine Shown.out ?_
    simp (disch :=
      repeat' first
        | with_reducible assumption
        | with_reducible exact within_trans hts (by decide)
        | with_reducible exact fun _ => rfl
        | exact fun h_ => absurd (within_mem hts (by decide)) h_
        | with_reducible exact within_mem hts (by decide)
        | with_reducible apply setCore_keep
        | with_reducible apply taint_keep
        | with_reducible apply traceSealed_keep
        | with_reducible apply Keep.wr
        | with_reducible apply Keep.wrBytes
        | with_reducible apply Keep.foldN
        | with_reducible apply Keep.foldl
        | intro _
        | fail_if_no_progress with_reducible refine Keep.upd ?_ rfl rfl rfl rfl
        | fail_if_no_progress with_reducible refine Keep.draw ?_ rfl rfl rfl rfl
        | split
        | extract_lets
        | (dsimp +zetaDelta only)) only [↓Shown.eq]

theorem excNoted_keep {fs : List Field} {s0 : State} (s : State) (n : Nat) (array : Bool) (w : Nat) (pc : Nat) (addr : Nat) (hk : Keep fs s0 s) (hts : Within [.od, .host, .trc] fs := by first | assumption | exact within_self _ | exact within_trans ‹Within _ _› (by decide) | exact within_of (by decide)) : Keep fs s0 (State.excNoted s n array w pc addr) := by
    unfold State.excNoted
    refine Shown.out ?_
    simp (disch :=
      repeat' first
        | with_reducible assumption
        | with_reducible exact within_trans hts (by decide)
        | with_reducible exact fun _ => rfl
        | exact fun h_ => absurd (within_mem hts (by decide)) h_
        | with_reducible exact within_mem hts (by decide)
        | with_reducible apply bump_keep
        | with_reducible apply traceInstr_keep
        | with_reducible apply wr_keep
        | with_reducible apply Keep.wr
        | with_reducible apply Keep.wrBytes
        | with_reducible apply Keep.foldN
        | with_reducible apply Keep.foldl
        | intro _
        | fail_if_no_progress with_reducible refine Keep.upd ?_ rfl rfl rfl rfl
        | fail_if_no_progress with_reducible refine Keep.draw ?_ rfl rfl rfl rfl
        | split
        | extract_lets
        | (dsimp +zetaDelta only)) only [↓Shown.eq]

theorem exception_keep {fs : List Field} {s0 : State} (s : State) (n : Nat) (e : Entry) (array : Bool) (code : Nat) (pc : Nat) (user : Nat) (addr : Nat) (hk : Keep fs s0 s) (hts : Within [.od, .host, .hostMem, .land, .flit, .falt, .trc, .cores, .newels, .mem, .bal, .clok, .ledg, .vest, .vid] fs := by first | assumption | exact within_self _ | exact within_trans ‹Within _ _› (by decide) | exact within_of (by decide)) : Keep fs s0 (State.exception s n e array code pc user addr) := by
    unfold State.exception
    refine Shown.out ?_
    simp (disch :=
      repeat' first
        | with_reducible assumption
        | with_reducible exact within_trans hts (by decide)
        | with_reducible exact fun _ => rfl
        | exact fun h_ => absurd (within_mem hts (by decide)) h_
        | with_reducible exact within_mem hts (by decide)
        | with_reducible apply excNoted_keep
        | with_reducible apply setCore_keep
        | with_reducible apply stageFault_keep
        | with_reducible apply withdraw_keep
        | with_reducible apply Keep.wr
        | with_reducible apply Keep.wrBytes
        | with_reducible apply Keep.foldN
        | with_reducible apply Keep.foldl
        | intro _
        | fail_if_no_progress with_reducible refine Keep.upd ?_ rfl rfl rfl rfl
        | fail_if_no_progress with_reducible refine Keep.draw ?_ rfl rfl rfl rfl
        | split
        | extract_lets
        | (dsimp +zetaDelta only)) only [↓Shown.eq]

theorem coreExc_keep {fs : List Field} {s0 : State} (s : State) (n : Nat) (e : Entry) (code : Nat) (addr : Nat) (hk : Keep fs s0 s) (hts : Within [.od, .host, .hostMem, .land, .flit, .falt, .trc, .cores, .newels, .mem, .bal, .clok, .ledg, .vest, .vid] fs := by first | assumption | exact within_self _ | exact within_trans ‹Within _ _› (by decide) | exact within_of (by decide)) : Keep fs s0 (State.coreExc s n e code addr) := by
    unfold State.coreExc
    refine Shown.out ?_
    simp (disch :=
      repeat' first
        | with_reducible assumption
        | with_reducible exact within_trans hts (by decide)
        | with_reducible exact fun _ => rfl
        | exact fun h_ => absurd (within_mem hts (by decide)) h_
        | with_reducible exact within_mem hts (by decide)
        | with_reducible apply exception_keep
        | with_reducible apply Keep.wr
        | with_reducible apply Keep.wrBytes
        | with_reducible apply Keep.foldN
        | with_reducible apply Keep.foldl
        | intro _
        | fail_if_no_progress with_reducible refine Keep.upd ?_ rfl rfl rfl rfl
        | fail_if_no_progress with_reducible refine Keep.draw ?_ rfl rfl rfl rfl
        | split
        | extract_lets
        | (dsimp +zetaDelta only)) only [↓Shown.eq]

theorem arrayExc_keep {fs : List Field} {s0 : State} (s : State) (n : Nat) (e : Entry) (code : Nat) (hk : Keep fs s0 s) (hts : Within [.od, .host, .hostMem, .land, .flit, .falt, .trc, .cores, .newels, .mem, .bal, .clok, .ledg, .vest, .vid] fs := by first | assumption | exact within_self _ | exact within_trans ‹Within _ _› (by decide) | exact within_of (by decide)) : Keep fs s0 (State.arrayExc s n e code) := by
    unfold State.arrayExc
    refine Shown.out ?_
    simp (disch :=
      repeat' first
        | with_reducible assumption
        | with_reducible exact within_trans hts (by decide)
        | with_reducible exact fun _ => rfl
        | exact fun h_ => absurd (within_mem hts (by decide)) h_
        | with_reducible exact within_mem hts (by decide)
        | with_reducible apply exception_keep
        | with_reducible apply Keep.wr
        | with_reducible apply Keep.wrBytes
        | with_reducible apply Keep.foldN
        | with_reducible apply Keep.foldl
        | intro _
        | fail_if_no_progress with_reducible refine Keep.upd ?_ rfl rfl rfl rfl
        | fail_if_no_progress with_reducible refine Keep.draw ?_ rfl rfl rfl rfl
        | split
        | extract_lets
        | (dsimp +zetaDelta only)) only [↓Shown.eq]

theorem issue_keep {fs : List Field} {s0 : State} (s : State) (n : Nat) (f : Entry → State → State) (hf : ∀ (a0 : Entry) (a1 : State), Keep fs s0 a1 → Keep fs s0 (f a0 a1)) (hk : Keep fs s0 s) (hts : Within [.od, .host, .hostMem, .land, .flit, .falt, .trc, .cores, .newels, .mem, .bal, .clok, .ledg, .vest, .vid] fs := by first | assumption | exact within_self _ | exact within_trans ‹Within _ _› (by decide) | exact within_of (by decide)) : Keep fs s0 (State.issue s n f) := by
    unfold State.issue
    refine Shown.out ?_
    simp (disch :=
      repeat' first
        | with_reducible assumption
        | with_reducible exact within_trans hts (by decide)
        | with_reducible exact fun _ => rfl
        | exact fun h_ => absurd (within_mem hts (by decide)) h_
        | with_reducible exact within_mem hts (by decide)
        | with_reducible apply coreExc_keep
        | with_reducible apply eccCorrected_keep
        | with_reducible apply sealStage_keep
        | with_reducible apply stage_keep
        | with_reducible apply stopItem_keep
        | with_reducible apply hf
        | with_reducible apply Keep.wr
        | with_reducible apply Keep.wrBytes
        | with_reducible apply Keep.foldN
        | with_reducible apply Keep.foldl
        | intro _
        | fail_if_no_progress with_reducible refine Keep.upd ?_ rfl rfl rfl rfl
        | fail_if_no_progress with_reducible refine Keep.draw ?_ rfl rfl rfl rfl
        | split
        | extract_lets
        | (dsimp +zetaDelta only)) only [↓Shown.eq]

theorem next_keep {fs : List Field} {s0 : State} (s : State) (n : Nat) (hk : Keep fs s0 s) (hts : Within [.od, .trc, .cores] fs := by first | assumption | exact within_self _ | exact within_trans ‹Within _ _› (by decide) | exact within_of (by decide)) : Keep fs s0 (State.next s n) := by
    unfold State.next
    refine Shown.out ?_
    simp (disch :=
      repeat' first
        | with_reducible assumption
        | with_reducible exact within_trans hts (by decide)
        | with_reducible exact fun _ => rfl
        | exact fun h_ => absurd (within_mem hts (by decide)) h_
        | with_reducible exact within_mem hts (by decide)
        | with_reducible apply retire_keep
        | with_reducible apply Keep.wr
        | with_reducible apply Keep.wrBytes
        | with_reducible apply Keep.foldN
        | with_reducible apply Keep.foldl
        | intro _
        | fail_if_no_progress with_reducible refine Keep.upd ?_ rfl rfl rfl rfl
        | fail_if_no_progress with_reducible refine Keep.draw ?_ rfl rfl rfl rfl
        | split
        | extract_lets
        | (dsimp +zetaDelta only)) only [↓Shown.eq]

theorem nextWith_keep {fs : List Field} {s0 : State} (s : State) (n : Nat) (f : Core → Core) (hk : Keep fs s0 s) (hts : Within [.od, .trc, .cores] fs := by first | assumption | exact within_self _ | exact within_trans ‹Within _ _› (by decide) | exact within_of (by decide)) : Keep fs s0 (State.nextWith s n f) := by
    unfold State.nextWith
    refine Shown.out ?_
    simp (disch :=
      repeat' first
        | with_reducible assumption
        | with_reducible exact within_trans hts (by decide)
        | with_reducible exact fun _ => rfl
        | exact fun h_ => absurd (within_mem hts (by decide)) h_
        | with_reducible exact within_mem hts (by decide)
        | with_reducible apply next_keep
        | with_reducible apply setCore_keep
        | with_reducible apply Keep.wr
        | with_reducible apply Keep.wrBytes
        | with_reducible apply Keep.foldN
        | with_reducible apply Keep.foldl
        | intro _
        | fail_if_no_progress with_reducible refine Keep.upd ?_ rfl rfl rfl rfl
        | fail_if_no_progress with_reducible refine Keep.draw ?_ rfl rfl rfl rfl
        | split
        | extract_lets
        | (dsimp +zetaDelta only)) only [↓Shown.eq]

theorem jump_keep {fs : List Field} {s0 : State} (s : State) (n : Nat) (e : Entry) (target : Nat) (kind : Nat) (f : Core → Core) (hk : Keep fs s0 s) (hts : Within [.od, .host, .hostMem, .land, .flit, .falt, .trc, .cores, .newels, .mem, .bal, .clok, .ledg, .vest, .vid] fs := by first | assumption | exact within_self _ | exact within_trans ‹Within _ _› (by decide) | exact within_of (by decide)) : Keep fs s0 (State.jump s n e target kind f) := by
    unfold State.jump
    refine Shown.out ?_
    simp (disch :=
      repeat' first
        | with_reducible assumption
        | with_reducible exact within_trans hts (by decide)
        | with_reducible exact fun _ => rfl
        | exact fun h_ => absurd (within_mem hts (by decide)) h_
        | with_reducible exact within_mem hts (by decide)
        | with_reducible apply coreExc_keep
        | with_reducible apply retire_keep
        | with_reducible apply setCore_keep
        | with_reducible apply traceInstr_keep
        | with_reducible apply Keep.wr
        | with_reducible apply Keep.wrBytes
        | with_reducible apply Keep.foldN
        | with_reducible apply Keep.foldl
        | intro _
        | fail_if_no_progress with_reducible refine Keep.upd ?_ rfl rfl rfl rfl
        | fail_if_no_progress with_reducible refine Keep.draw ?_ rfl rfl rfl rfl
        | split
        | extract_lets
        | (dsimp +zetaDelta only)) only [↓Shown.eq]

theorem stageRead_keep {fs : List Field} {s0 : State} (s : State) (n : Nat) (e : Entry) (a : Nat) (len : Nat) (hk : Keep fs s0 s) (hts : Within [.od, .host, .falt, .trc, .cores, .mem, .bal, .ledg] fs := by first | assumption | exact within_self _ | exact within_trans ‹Within _ _› (by decide) | exact within_of (by decide)) : Keep fs s0 (State.stageRead s n e a len).2 := by
    unfold State.stageRead
    refine Shown.out ?_
    simp (disch :=
      repeat' first
        | with_reducible assumption
        | with_reducible exact within_trans hts (by decide)
        | with_reducible exact fun _ => rfl
        | exact fun h_ => absurd (within_mem hts (by decide)) h_
        | with_reducible exact within_mem hts (by decide)
        | (with_reducible refine memRead_keepE ‹_› ?_)
        | with_reducible apply memRead_keep
        | with_reducible apply sealStage_keep
        | with_reducible apply Keep.wr
        | with_reducible apply Keep.wrBytes
        | with_reducible apply Keep.foldN
        | with_reducible apply Keep.foldl
        | intro _
        | fail_if_no_progress with_reducible refine Keep.upd ?_ rfl rfl rfl rfl
        | fail_if_no_progress with_reducible refine Keep.draw ?_ rfl rfl rfl rfl
        | split
        | extract_lets
        | (dsimp +zetaDelta only)) only [↓Shown.eq]

theorem stageRead_keepE {fs : List Field} {s0 : State} {s : State} {n : Nat} {e : Entry} {a : Nat} {len : Nat} {r_ : _} {t_ : State} (e_ : (State.stageRead s n e a len) = (r_, t_)) (hk : Keep fs s0 s) (hts : Within [.od, .host, .falt, .trc, .cores, .mem, .bal, .ledg] fs := by first | assumption | exact within_self _ | exact within_trans ‹Within _ _› (by decide) | exact within_of (by decide)) : Keep fs s0 t_ := by
  have key := stageRead_keep s n e a len hk hts
  rw [e_] at key
  exact key

theorem stageLoad_keep {fs : List Field} {s0 : State} (s : State) (n : Nat) (e : Entry) (a : Nat) (len : Nat) (hk : Keep fs s0 s) (hts : Within [.od, .host, .hostMem, .land, .flit, .falt, .trc, .cores, .newels, .mem, .bal, .clok, .ledg, .vest, .vid] fs := by first | assumption | exact within_self _ | exact within_trans ‹Within _ _› (by decide) | exact within_of (by decide)) : Keep fs s0 (State.stageLoad s n e a len).2 := by
    unfold State.stageLoad
    refine Shown.out ?_
    simp (disch :=
      repeat' first
        | with_reducible assumption
        | with_reducible exact within_trans hts (by decide)
        | with_reducible exact fun _ => rfl
        | exact fun h_ => absurd (within_mem hts (by decide)) h_
        | with_reducible exact within_mem hts (by decide)
        | (with_reducible refine accessFails_keepE ‹_› ?_)
        | with_reducible apply accessFails_keep
        | (with_reducible refine stageRead_keepE ‹_› ?_)
        | with_reducible apply stageRead_keep
        | with_reducible apply Keep.wr
        | with_reducible apply Keep.wrBytes
        | with_reducible apply Keep.foldN
        | with_reducible apply Keep.foldl
        | intro _
        | fail_if_no_progress with_reducible refine Keep.upd ?_ rfl rfl rfl rfl
        | fail_if_no_progress with_reducible refine Keep.draw ?_ rfl rfl rfl rfl
        | split
        | extract_lets
        | (dsimp +zetaDelta only)) only [↓Shown.eq]

theorem stageLoad_keepE {fs : List Field} {s0 : State} {s : State} {n : Nat} {e : Entry} {a : Nat} {len : Nat} {r_ : _} {t_ : State} (e_ : (State.stageLoad s n e a len) = (r_, t_)) (hk : Keep fs s0 s) (hts : Within [.od, .host, .hostMem, .land, .flit, .falt, .trc, .cores, .newels, .mem, .bal, .clok, .ledg, .vest, .vid] fs := by first | assumption | exact within_self _ | exact within_trans ‹Within _ _› (by decide) | exact within_of (by decide)) : Keep fs s0 t_ := by
  have key := stageLoad_keep s n e a len hk hts
  rw [e_] at key
  exact key

theorem partsDone_keep {fs : List Field} {s0 : State} (s : State) (q : Acc) (parts : List (Prod Nat (List Byte))) (hk : Keep fs s0 s) (hts : Within [.od, .host, .hostMem, .mem, .bal] fs := by first | assumption | exact within_self _ | exact within_trans ‹Within _ _› (by decide) | exact within_of (by decide)) : Keep fs s0 (State.partsDone s q parts).2 := by
    unfold State.partsDone
    refine Shown.out ?_
    simp (disch :=
      repeat' first
        | with_reducible assumption
        | with_reducible exact within_trans hts (by decide)
        | with_reducible exact fun _ => rfl
        | exact fun h_ => absurd (within_mem hts (by decide)) h_
        | with_reducible exact within_mem hts (by decide)
        | with_reducible apply countWin_keep
        | with_reducible apply noteIf_keep
        | (with_reducible refine writeFrom_keepE ‹_› ?_)
        | with_reducible apply writeFrom_keep
        | (with_reducible refine Keep.ofPair ‹_› (Keep.foldNP _ _ _ ?_ ?_))
        | (with_reducible refine Keep.ofPair ‹_› (Keep.foldlP _ _ _ ?_ ?_))
        | with_reducible apply Keep.foldlP
        | with_reducible apply Keep.foldNP
        | with_reducible apply Keep.wr
        | with_reducible apply Keep.wrBytes
        | with_reducible apply Keep.foldN
        | with_reducible apply Keep.foldl
        | intro _
        | fail_if_no_progress with_reducible refine Keep.upd ?_ rfl rfl rfl rfl
        | fail_if_no_progress with_reducible refine Keep.draw ?_ rfl rfl rfl rfl
        | split
        | extract_lets
        | (dsimp +zetaDelta only)) only [↓Shown.eq]

theorem partsDone_keepE {fs : List Field} {s0 : State} {s : State} {q : Acc} {parts : List (Prod Nat (List Byte))} {r_ : _} {t_ : State} (e_ : (State.partsDone s q parts) = (r_, t_)) (hk : Keep fs s0 s) (hts : Within [.od, .host, .hostMem, .mem, .bal] fs := by first | assumption | exact within_self _ | exact within_trans ‹Within _ _› (by decide) | exact within_of (by decide)) : Keep fs s0 t_ := by
  have key := partsDone_keep s q parts hk hts
  rw [e_] at key
  exact key

theorem writeParts_keep {fs : List Field} {s0 : State} (s : State) (q : Acc) (parts : List (Nat × List Byte)) (hk : Keep fs s0 s) (hts : Within [.od, .host, .hostMem, .falt, .mem, .bal] fs := by first | assumption | exact within_self _ | exact within_trans ‹Within _ _› (by decide) | exact within_of (by decide)) : Keep fs s0 (State.writeParts s q parts).2 := by
    unfold State.writeParts
    refine Shown.out ?_
    simp (disch :=
      repeat' first
        | with_reducible assumption
        | with_reducible exact within_trans hts (by decide)
        | with_reducible exact fun _ => rfl
        | exact fun h_ => absurd (within_mem hts (by decide)) h_
        | with_reducible exact within_mem hts (by decide)
        | (with_reducible refine partsDone_keepE ‹_› ?_)
        | with_reducible apply partsDone_keep
        | (with_reducible refine transfer_keepE ‹_› ?_)
        | with_reducible apply transfer_keep
        | with_reducible apply Keep.wr
        | with_reducible apply Keep.wrBytes
        | with_reducible apply Keep.foldN
        | with_reducible apply Keep.foldl
        | with_reducible apply Keep.foldlP
        | with_reducible apply Keep.foldNP
        | (with_reducible refine Keep.ofPair ‹_› (Keep.foldlP _ _ _ ?_ ?_))
        | intro _
        | fail_if_no_progress with_reducible refine Keep.upd ?_ rfl rfl rfl rfl
        | fail_if_no_progress with_reducible refine Keep.draw ?_ rfl rfl rfl rfl
        | split
        | extract_lets
        | (dsimp +zetaDelta only)) only [↓Shown.eq]

theorem writeParts_keepE {fs : List Field} {s0 : State} {s : State} {q : Acc} {parts : List (Nat × List Byte)} {r_ : _} {t_ : State} (e_ : (State.writeParts s q parts) = (r_, t_)) (hk : Keep fs s0 s) (hts : Within [.od, .host, .hostMem, .falt, .mem, .bal] fs := by first | assumption | exact within_self _ | exact within_trans ‹Within _ _› (by decide) | exact within_of (by decide)) : Keep fs s0 t_ := by
  have key := writeParts_keep s q parts hk hts
  rw [e_] at key
  exact key

theorem stageWriteParts_keep {fs : List Field} {s0 : State} (s : State) (n : Nat) (e : Entry) (parts : List (Nat × List Byte)) (hk : Keep fs s0 s) (hts : Within [.od, .host, .hostMem, .land, .flit, .falt, .trc, .cores, .newels, .mem, .bal, .clok, .ledg, .vest, .vid] fs := by first | assumption | exact within_self _ | exact within_trans ‹Within _ _› (by decide) | exact within_of (by decide)) : Keep fs s0 (State.stageWriteParts s n e parts).2 := by
    unfold State.stageWriteParts
    refine Shown.out ?_
    simp (disch :=
      repeat' first
        | with_reducible assumption
        | with_reducible exact within_trans hts (by decide)
        | with_reducible exact fun _ => rfl
        | exact fun h_ => absurd (within_mem hts (by decide)) h_
        | with_reducible exact within_mem hts (by decide)
        | (with_reducible refine accessFails_keepE ‹_› ?_)
        | with_reducible apply accessFails_keep
        | with_reducible apply bumpN_keep
        | with_reducible apply coreExc_keep
        | with_reducible apply setItem_keep
        | with_reducible apply stage_keep
        | with_reducible apply stopItem_keep
        | (with_reducible refine writeParts_keepE ‹_› ?_)
        | with_reducible apply writeParts_keep
        | with_reducible apply Keep.wr
        | with_reducible apply Keep.wrBytes
        | with_reducible apply Keep.foldN
        | with_reducible apply Keep.foldl
        | intro _
        | fail_if_no_progress with_reducible refine Keep.upd ?_ rfl rfl rfl rfl
        | fail_if_no_progress with_reducible refine Keep.draw ?_ rfl rfl rfl rfl
        | split
        | extract_lets
        | (dsimp +zetaDelta only)) only [↓Shown.eq]

theorem stageWriteParts_keepE {fs : List Field} {s0 : State} {s : State} {n : Nat} {e : Entry} {parts : List (Nat × List Byte)} {r_ : _} {t_ : State} (e_ : (State.stageWriteParts s n e parts) = (r_, t_)) (hk : Keep fs s0 s) (hts : Within [.od, .host, .hostMem, .land, .flit, .falt, .trc, .cores, .newels, .mem, .bal, .clok, .ledg, .vest, .vid] fs := by first | assumption | exact within_self _ | exact within_trans ‹Within _ _› (by decide) | exact within_of (by decide)) : Keep fs s0 t_ := by
  have key := stageWriteParts_keep s n e parts hk hts
  rw [e_] at key
  exact key

theorem stageWrite_keep {fs : List Field} {s0 : State} (s : State) (n : Nat) (e : Entry) (a : Nat) (bs : List Byte) (hk : Keep fs s0 s) (hts : Within [.od, .host, .hostMem, .land, .flit, .falt, .trc, .cores, .newels, .mem, .bal, .clok, .ledg, .vest, .vid] fs := by first | assumption | exact within_self _ | exact within_trans ‹Within _ _› (by decide) | exact within_of (by decide)) : Keep fs s0 (State.stageWrite s n e a bs).2 := by
    unfold State.stageWrite
    refine Shown.out ?_
    simp (disch :=
      repeat' first
        | with_reducible assumption
        | with_reducible exact within_trans hts (by decide)
        | with_reducible exact fun _ => rfl
        | exact fun h_ => absurd (within_mem hts (by decide)) h_
        | with_reducible exact within_mem hts (by decide)
        | (with_reducible refine stageWriteParts_keepE ‹_› ?_)
        | with_reducible apply stageWriteParts_keep
        | with_reducible apply Keep.wr
        | with_reducible apply Keep.wrBytes
        | with_reducible apply Keep.foldN
        | with_reducible apply Keep.foldl
        | intro _
        | fail_if_no_progress with_reducible refine Keep.upd ?_ rfl rfl rfl rfl
        | fail_if_no_progress with_reducible refine Keep.draw ?_ rfl rfl rfl rfl
        | split
        | extract_lets
        | (dsimp +zetaDelta only)) only [↓Shown.eq]

theorem stageWrite_keepE {fs : List Field} {s0 : State} {s : State} {n : Nat} {e : Entry} {a : Nat} {bs : List Byte} {r_ : _} {t_ : State} (e_ : (State.stageWrite s n e a bs) = (r_, t_)) (hk : Keep fs s0 s) (hts : Within [.od, .host, .hostMem, .land, .flit, .falt, .trc, .cores, .newels, .mem, .bal, .clok, .ledg, .vest, .vid] fs := by first | assumption | exact within_self _ | exact within_trans ‹Within _ _› (by decide) | exact within_of (by decide)) : Keep fs s0 t_ := by
  have key := stageWrite_keep s n e a bs hk hts
  rw [e_] at key
  exact key

theorem stageLanding_keep {fs : List Field} {s0 : State} (s : State) (n : Nat) (e : Entry) (L : Nat) (op : LandOp) (rd : Nat) (hk : Keep fs s0 s) (hts : Within [.od, .host, .hostMem, .land, .flit, .falt, .trc, .cores, .newels, .mem, .bal, .clok, .ledg, .vest, .vid] fs := by first | assumption | exact within_self _ | exact within_trans ‹Within _ _› (by decide) | exact within_of (by decide)) : Keep fs s0 (State.stageLanding s n e L op rd) := by
    unfold State.stageLanding
    refine Shown.out ?_
    simp (disch :=
      repeat' first
        | with_reducible assumption
        | with_reducible exact within_trans hts (by decide)
        | with_reducible exact fun _ => rfl
        | exact fun h_ => absurd (within_mem hts (by decide)) h_
        | with_reducible exact within_mem hts (by decide)
        | (with_reducible refine landOp_keepE ‹_› ?_)
        | with_reducible apply landOp_keep
        | with_reducible apply next_keep
        | with_reducible apply nextWith_keep
        | with_reducible apply sealStage_keep
        | with_reducible apply setCore_keep
        | with_reducible apply stageFault_keep
        | with_reducible apply Keep.wr
        | with_reducible apply Keep.wrBytes
        | with_reducible apply Keep.foldN
        | with_reducible apply Keep.foldl
        | intro _
        | fail_if_no_progress with_reducible refine Keep.upd ?_ rfl rfl rfl rfl
        | fail_if_no_progress with_reducible refine Keep.draw ?_ rfl rfl rfl rfl
        | split
        | extract_lets
        | (dsimp +zetaDelta only)) only [↓Shown.eq]

theorem coreEnter_keep {fs : List Field} {s0 : State} (s : State) (n : Nat) (e : Entry) (d : StageDef) (hk : Keep fs s0 s) (hts : Within [.od, .host, .trc, .cores, .ledg] fs := by first | assumption | exact within_self _ | exact within_trans ‹Within _ _› (by decide) | exact within_of (by decide)) : Keep fs s0 (State.coreEnter s n e d) := by
    unfold State.coreEnter
    refine Shown.out ?_
    simp (disch :=
      repeat' first
        | with_reducible assumption
        | with_reducible exact within_trans hts (by decide)
        | with_reducible exact fun _ => rfl
        | exact fun h_ => absurd (within_mem hts (by decide)) h_
        | with_reducible exact within_mem hts (by decide)
        | with_reducible apply bump_keep
        | with_reducible apply mapEntry_keep
        | with_reducible apply sealStage_keep
        | with_reducible apply setCore_keep
        | with_reducible apply traceInstr_keep
        | with_reducible apply Keep.wr
        | with_reducible apply Keep.wrBytes
        | with_reducible apply Keep.foldN
        | with_reducible apply Keep.foldl
        | with_reducible apply Keep.foldlP
        | with_reducible apply Keep.foldNP
        | (with_reducible refine Keep.ofPair ‹_› (Keep.foldlP _ _ _ ?_ ?_))
        | intro _
        | fail_if_no_progress with_reducible refine Keep.upd ?_ rfl rfl rfl rfl
        | fail_if_no_progress with_reducible refine Keep.draw ?_ rfl rfl rfl rfl
        | split
        | extract_lets
        | (dsimp +zetaDelta only)) only [↓Shown.eq]

end Sys2Proof.Machine
end

