-- ==== Sys2Proof/Laws/KeepCoreScalar.lean ====
section
/-!
SUPPORT. The operations of CoreScalar.lean keep the machine well.
-/

set_option Elab.async false

namespace Sys2Proof.Machine

set_option linter.all false

theorem execNop_keep (n : Fin 32) (imm_ : BitVec 32) (s : State) : ∃ t_, execNop n imm_ s = .next t_ ∧ Keep [.od, .host, .hostMem, .land, .flit, .falt, .trc, .cores, .newels, .mem, .bal, .clok, .ledg, .vest, .vid] s t_ := by
  refine ⟨_, rfl, ?_⟩
  · have hts := within_self ([.od, .host, .hostMem, .land, .flit, .falt, .trc, .cores, .newels, .mem, .bal, .clok, .ledg, .vest, .vid] : List Field)
    have hk : Keep [.od, .host, .hostMem, .land, .flit, .falt, .trc, .cores, .newels, .mem, .bal, .clok, .ledg, .vest, .vid] s s := Keep.rfl' _
    refine Shown.out ?_
    simp (disch :=
      repeat' first
        | with_reducible assumption
        | with_reducible exact within_trans hts (by decide)
        | with_reducible exact fun _ => rfl
        | exact fun h_ => absurd (within_mem hts (by decide)) h_
        | with_reducible exact within_mem hts (by decide)
        | with_reducible apply issue_keep
        | with_reducible apply next_keep
        | with_reducible apply Keep.wr
        | with_reducible apply Keep.wrBytes
        | with_reducible apply Keep.foldN
        | with_reducible apply Keep.foldl
        | intro _
        | fail_if_no_progress with_reducible refine Keep.upd ?_ rfl rfl rfl rfl
        | fail_if_no_progress with_reducible refine Keep.draw ?_ rfl rfl rfl rfl
        | split
        | extract_lets
        | (dsimp +zetaDelta only)) only [↓Shown.eq]

theorem reportEnd_keep {fs : List Field} {s0 : State} (s : State) (e : Entry) (empty : Bool) (concealed : Bool) (bytes : Nat) (hk : Keep fs s0 s) (hts : Within [.flit] fs := by first | assumption | exact within_self _ | exact within_trans ‹Within _ _› (by decide) | exact within_of (by decide)) : Keep fs s0 (State.reportEnd s e empty concealed bytes) := by
    unfold State.reportEnd
    refine Shown.out ?_
    simp (disch :=
      repeat' first
        | with_reducible assumption
        | with_reducible exact within_trans hts (by decide)
        | with_reducible exact fun _ => rfl
        | exact fun h_ => absurd (within_mem hts (by decide)) h_
        | with_reducible exact within_mem hts (by decide)
        | with_reducible apply mapEntry_keep
        | with_reducible apply Keep.wr
        | with_reducible apply Keep.wrBytes
        | with_reducible apply Keep.foldN
        | with_reducible apply Keep.foldl
        | intro _
        | fail_if_no_progress with_reducible refine Keep.upd ?_ rfl rfl rfl rfl
        | fail_if_no_progress with_reducible refine Keep.draw ?_ rfl rfl rfl rfl
        | split
        | extract_lets
        | (dsimp +zetaDelta only)) only [↓Shown.eq]

theorem endStage_keep {fs : List Field} {s0 : State} (s : State) (n : Nat) (imm : Nat) (e : Entry) (hk : Keep fs s0 s) (hts : Within [.od, .host, .hostMem, .land, .flit, .falt, .trc, .cores, .newels, .mem, .bal, .clok, .ledg, .vest, .vid] fs := by first | assumption | exact within_self _ | exact within_trans ‹Within _ _› (by decide) | exact within_of (by decide)) : Keep fs s0 (State.endStage s n imm e) := by
    unfold State.endStage
    refine Shown.out ?_
    simp (disch :=
      repeat' first
        | with_reducible assumption
        | with_reducible exact within_trans hts (by decide)
        | with_reducible exact fun _ => rfl
        | exact fun h_ => absurd (within_mem hts (by decide)) h_
        | with_reducible exact within_mem hts (by decide)
        | with_reducible apply coreExc_keep
        | with_reducible apply reportEnd_keep
        | with_reducible apply retire_keep
        | with_reducible apply setCore_keep
        | with_reducible apply Keep.wr
        | with_reducible apply Keep.wrBytes
        | with_reducible apply Keep.foldN
        | with_reducible apply Keep.foldl
        | intro _
        | fail_if_no_progress with_reducible refine Keep.upd ?_ rfl rfl rfl rfl
        | fail_if_no_progress with_reducible refine Keep.draw ?_ rfl rfl rfl rfl
        | split
        | extract_lets
        | (dsimp +zetaDelta only)) only [↓Shown.eq]

theorem execEndStage_keep (n : Fin 32) (imm : BitVec 32) (s : State) : ∃ t_, execEndStage n imm s = .next t_ ∧ Keep [.od, .host, .hostMem, .land, .flit, .falt, .trc, .cores, .newels, .mem, .bal, .clok, .ledg, .vest, .vid] s t_ := by
  refine ⟨_, rfl, ?_⟩
  · have hts := within_self ([.od, .host, .hostMem, .land, .flit, .falt, .trc, .cores, .newels, .mem, .bal, .clok, .ledg, .vest, .vid] : List Field)
    have hk : Keep [.od, .host, .hostMem, .land, .flit, .falt, .trc, .cores, .newels, .mem, .bal, .clok, .ledg, .vest, .vid] s s := Keep.rfl' _
    refine Shown.out ?_
    simp (disch :=
      repeat' first
        | with_reducible assumption
        | with_reducible exact within_trans hts (by decide)
        | with_reducible exact fun _ => rfl
        | exact fun h_ => absurd (within_mem hts (by decide)) h_
        | with_reducible exact within_mem hts (by decide)
        | with_reducible apply endStage_keep
        | with_reducible apply issue_keep
        | with_reducible apply next_keep
        | with_reducible apply Keep.wr
        | with_reducible apply Keep.wrBytes
        | with_reducible apply Keep.foldN
        | with_reducible apply Keep.foldl
        | intro _
        | fail_if_no_progress with_reducible refine Keep.upd ?_ rfl rfl rfl rfl
        | fail_if_no_progress with_reducible refine Keep.draw ?_ rfl rfl rfl rfl
        | split
        | extract_lets
        | (dsimp +zetaDelta only)) only [↓Shown.eq]

theorem execFence_keep (n : Fin 32) (imm_ : BitVec 32) (s : State) : ∃ t_, execFence n imm_ s = .next t_ ∧ Keep [.od, .host, .hostMem, .land, .flit, .falt, .trc, .cores, .newels, .mem, .bal, .clok, .ledg, .vest, .vid] s t_ := by
  refine ⟨_, rfl, ?_⟩
  · have hts := within_self ([.od, .host, .hostMem, .land, .flit, .falt, .trc, .cores, .newels, .mem, .bal, .clok, .ledg, .vest, .vid] : List Field)
    have hk : Keep [.od, .host, .hostMem, .land, .flit, .falt, .trc, .cores, .newels, .mem, .bal, .clok, .ledg, .vest, .vid] s s := Keep.rfl' _
    refine Shown.out ?_
    simp (disch :=
      repeat' first
        | with_reducible assumption
        | with_reducible exact within_trans hts (by decide)
        | with_reducible exact fun _ => rfl
        | exact fun h_ => absurd (within_mem hts (by decide)) h_
        | with_reducible exact within_mem hts (by decide)
        | with_reducible apply issue_keep
        | with_reducible apply next_keep
        | with_reducible apply Keep.wr
        | with_reducible apply Keep.wrBytes
        | with_reducible apply Keep.foldN
        | with_reducible apply Keep.foldl
        | intro _
        | fail_if_no_progress with_reducible refine Keep.upd ?_ rfl rfl rfl rfl
        | fail_if_no_progress with_reducible refine Keep.draw ?_ rfl rfl rfl rfl
        | split
        | extract_lets
        | (dsimp +zetaDelta only)) only [↓Shown.eq]

theorem execFail_keep (n : Fin 32) (imm : BitVec 32) (s : State) : ∃ t_, execFail n imm s = .next t_ ∧ Keep [.od, .host, .hostMem, .land, .flit, .falt, .trc, .cores, .newels, .mem, .bal, .clok, .ledg, .vest, .vid] s t_ := by
  refine ⟨_, rfl, ?_⟩
  · have hts := within_self ([.od, .host, .hostMem, .land, .flit, .falt, .trc, .cores, .newels, .mem, .bal, .clok, .ledg, .vest, .vid] : List Field)
    have hk : Keep [.od, .host, .hostMem, .land, .flit, .falt, .trc, .cores, .newels, .mem, .bal, .clok, .ledg, .vest, .vid] s s := Keep.rfl' _
    refine Shown.out ?_
    simp (disch :=
      repeat' first
        | with_reducible assumption
        | with_reducible exact within_trans hts (by decide)
        | with_reducible exact fun _ => rfl
        | exact fun h_ => absurd (within_mem hts (by decide)) h_
        | with_reducible exact within_mem hts (by decide)
        | with_reducible apply exception_keep
        | with_reducible apply issue_keep
        | with_reducible apply next_keep
        | with_reducible apply Keep.wr
        | with_reducible apply Keep.wrBytes
        | with_reducible apply Keep.foldN
        | with_reducible apply Keep.foldl
        | intro _
        | fail_if_no_progress with_reducible refine Keep.upd ?_ rfl rfl rfl rfl
        | fail_if_no_progress with_reducible refine Keep.draw ?_ rfl rfl rfl rfl
        | split
        | extract_lets
        | (dsimp +zetaDelta only)) only [↓Shown.eq]

theorem execTmark_keep (n : Fin 32) (imm : BitVec 32) (s : State) : ∃ t_, execTmark n imm s = .next t_ ∧ Keep [.od, .host, .hostMem, .land, .flit, .falt, .trc, .cores, .newels, .mem, .bal, .clok, .ledg, .vest, .vid] s t_ := by
  refine ⟨_, rfl, ?_⟩
  · have hts := within_self ([.od, .host, .hostMem, .land, .flit, .falt, .trc, .cores, .newels, .mem, .bal, .clok, .ledg, .vest, .vid] : List Field)
    have hk : Keep [.od, .host, .hostMem, .land, .flit, .falt, .trc, .cores, .newels, .mem, .bal, .clok, .ledg, .vest, .vid] s s := Keep.rfl' _
    refine Shown.out ?_
    simp (disch :=
      repeat' first
        | with_reducible assumption
        | with_reducible exact within_trans hts (by decide)
        | with_reducible exact fun _ => rfl
        | exact fun h_ => absurd (within_mem hts (by decide)) h_
        | with_reducible exact within_mem hts (by decide)
        | with_reducible apply issue_keep
        | with_reducible apply next_keep
        | with_reducible apply stage_keep
        | with_reducible apply traceMarker_keep
        | with_reducible apply Keep.wr
        | with_reducible apply Keep.wrBytes
        | with_reducible apply Keep.foldN
        | with_reducible apply Keep.foldl
        | intro _
        | fail_if_no_progress with_reducible refine Keep.upd ?_ rfl rfl rfl rfl
        | fail_if_no_progress with_reducible refine Keep.draw ?_ rfl rfl rfl rfl
        | split
        | extract_lets
        | (dsimp +zetaDelta only)) only [↓Shown.eq]

theorem execOutadd_keep (n : Fin 32) (rd_ : Fin 32) (ra : Fin 32) (imm_ : BitVec 32) (s : State) : ∃ t_, execOutadd n rd_ ra imm_ s = .next t_ ∧ Keep [.od, .host, .hostMem, .land, .flit, .falt, .trc, .cores, .newels, .mem, .bal, .clok, .ledg, .vest, .vid] s t_ := by
  refine ⟨_, rfl, ?_⟩
  · have hts := within_self ([.od, .host, .hostMem, .land, .flit, .falt, .trc, .cores, .newels, .mem, .bal, .clok, .ledg, .vest, .vid] : List Field)
    have hk : Keep [.od, .host, .hostMem, .land, .flit, .falt, .trc, .cores, .newels, .mem, .bal, .clok, .ledg, .vest, .vid] s s := Keep.rfl' _
    refine Shown.out ?_
    simp (disch :=
      repeat' first
        | with_reducible assumption
        | with_reducible exact within_trans hts (by decide)
        | with_reducible exact fun _ => rfl
        | exact fun h_ => absurd (within_mem hts (by decide)) h_
        | with_reducible exact within_mem hts (by decide)
        | with_reducible apply issue_keep
        | with_reducible apply next_keep
        | with_reducible apply nextWith_keep
        | with_reducible apply Keep.wr
        | with_reducible apply Keep.wrBytes
        | with_reducible apply Keep.foldN
        | with_reducible apply Keep.foldl
        | intro _
        | fail_if_no_progress with_reducible refine Keep.upd ?_ rfl rfl rfl rfl
        | fail_if_no_progress with_reducible refine Keep.draw ?_ rfl rfl rfl rfl
        | split
        | extract_lets
        | (dsimp +zetaDelta only)) only [↓Shown.eq]

theorem execShget_keep (n : Fin 32) (rd : Fin 32) (ra_ : Fin 32) (imm : BitVec 32) (s : State) : ∃ t_, execShget n rd ra_ imm s = .next t_ ∧ Keep [.od, .host, .hostMem, .land, .flit, .falt, .trc, .cores, .newels, .mem, .bal, .clok, .ledg, .vest, .vid] s t_ := by
  refine ⟨_, rfl, ?_⟩
  · have hts := within_self ([.od, .host, .hostMem, .land, .flit, .falt, .trc, .cores, .newels, .mem, .bal, .clok, .ledg, .vest, .vid] : List Field)
    have hk : Keep [.od, .host, .hostMem, .land, .flit, .falt, .trc, .cores, .newels, .mem, .bal, .clok, .ledg, .vest, .vid] s s := Keep.rfl' _
    refine Shown.out ?_
    simp (disch :=
      repeat' first
        | with_reducible assumption
        | with_reducible exact within_trans hts (by decide)
        | with_reducible exact fun _ => rfl
        | exact fun h_ => absurd (within_mem hts (by decide)) h_
        | with_reducible exact within_mem hts (by decide)
        | with_reducible apply issue_keep
        | with_reducible apply next_keep
        | with_reducible apply nextWith_keep
        | with_reducible apply sealStage_keep
        | with_reducible apply Keep.wr
        | with_reducible apply Keep.wrBytes
        | with_reducible apply Keep.foldN
        | with_reducible apply Keep.foldl
        | intro _
        | fail_if_no_progress with_reducible refine Keep.upd ?_ rfl rfl rfl rfl
        | fail_if_no_progress with_reducible refine Keep.draw ?_ rfl rfl rfl rfl
        | split
        | extract_lets
        | (dsimp +zetaDelta only)) only [↓Shown.eq]

theorem setShape_keep {fs : List Field} {s0 : State} (s : State) (e : Entry) (k : Nat) (v : Nat) (mark : Bool) (hk : Keep fs s0 s) (hts : Within [.flit] fs := by first | assumption | exact within_self _ | exact within_trans ‹Within _ _› (by decide) | exact within_of (by decide)) : Keep fs s0 (State.setShape s e k v mark) := by
    unfold State.setShape
    refine Shown.out ?_
    simp (disch :=
      repeat' first
        | with_reducible assumption
        | with_reducible exact within_trans hts (by decide)
        | with_reducible exact fun _ => rfl
        | exact fun h_ => absurd (within_mem hts (by decide)) h_
        | with_reducible exact within_mem hts (by decide)
        | with_reducible apply mapEntry_keep
        | with_reducible apply setItem_keep
        | with_reducible apply stage_keep
        | with_reducible apply Keep.wr
        | with_reducible apply Keep.wrBytes
        | with_reducible apply Keep.foldN
        | with_reducible apply Keep.foldl
        | intro _
        | fail_if_no_progress with_reducible refine Keep.upd ?_ rfl rfl rfl rfl
        | fail_if_no_progress with_reducible refine Keep.draw ?_ rfl rfl rfl rfl
        | split
        | extract_lets
        | (dsimp +zetaDelta only)) only [↓Shown.eq]

theorem execShset_keep (n : Fin 32) (rd_ : Fin 32) (ra : Fin 32) (imm : BitVec 32) (s : State) : ∃ t_, execShset n rd_ ra imm s = .next t_ ∧ Keep [.od, .host, .hostMem, .land, .flit, .falt, .trc, .cores, .newels, .mem, .bal, .clok, .ledg, .vest, .vid] s t_ := by
  refine ⟨_, rfl, ?_⟩
  · have hts := within_self ([.od, .host, .hostMem, .land, .flit, .falt, .trc, .cores, .newels, .mem, .bal, .clok, .ledg, .vest, .vid] : List Field)
    have hk : Keep [.od, .host, .hostMem, .land, .flit, .falt, .trc, .cores, .newels, .mem, .bal, .clok, .ledg, .vest, .vid] s s := Keep.rfl' _
    refine Shown.out ?_
    simp (disch :=
      repeat' first
        | with_reducible assumption
        | with_reducible exact within_trans hts (by decide)
        | with_reducible exact fun _ => rfl
        | exact fun h_ => absurd (within_mem hts (by decide)) h_
        | with_reducible exact within_mem hts (by decide)
        | with_reducible apply issue_keep
        | with_reducible apply next_keep
        | with_reducible apply setShape_keep
        | with_reducible apply Keep.wr
        | with_reducible apply Keep.wrBytes
        | with_reducible apply Keep.foldN
        | with_reducible apply Keep.foldl
        | intro _
        | fail_if_no_progress with_reducible refine Keep.upd ?_ rfl rfl rfl rfl
        | fail_if_no_progress with_reducible refine Keep.draw ?_ rfl rfl rfl rfl
        | split
        | extract_lets
        | (dsimp +zetaDelta only)) only [↓Shown.eq]

theorem execPlanrd_keep (n : Fin 32) (rd : Fin 32) (ra_ : Fin 32) (imm : BitVec 32) (s : State) : ∃ t_, execPlanrd n rd ra_ imm s = .next t_ ∧ Keep [.od, .host, .hostMem, .land, .flit, .falt, .trc, .cores, .newels, .mem, .bal, .clok, .ledg, .vest, .vid] s t_ := by
  refine ⟨_, rfl, ?_⟩
  · have hts := within_self ([.od, .host, .hostMem, .land, .flit, .falt, .trc, .cores, .newels, .mem, .bal, .clok, .ledg, .vest, .vid] : List Field)
    have hk : Keep [.od, .host, .hostMem, .land, .flit, .falt, .trc, .cores, .newels, .mem, .bal, .clok, .ledg, .vest, .vid] s s := Keep.rfl' _
    refine Shown.out ?_
    simp (disch :=
      repeat' first
        | with_reducible assumption
        | with_reducible exact within_trans hts (by decide)
        | with_reducible exact fun _ => rfl
        | exact fun h_ => absurd (within_mem hts (by decide)) h_
        | with_reducible exact within_mem hts (by decide)
        | with_reducible apply coreExc_keep
        | with_reducible apply issue_keep
        | with_reducible apply next_keep
        | with_reducible apply nextWith_keep
        | with_reducible apply Keep.wr
        | with_reducible apply Keep.wrBytes
        | with_reducible apply Keep.foldN
        | with_reducible apply Keep.foldl
        | intro _
        | fail_if_no_progress with_reducible refine Keep.upd ?_ rfl rfl rfl rfl
        | fail_if_no_progress with_reducible refine Keep.draw ?_ rfl rfl rfl rfl
        | split
        | extract_lets
        | (dsimp +zetaDelta only)) only [↓Shown.eq]

theorem aluR_keep {fs : List Field} {s0 : State} (s : State) (n : Nat) (rd : Nat) (ra : Nat) (rb : Nat) (f : Word → Word → Word) (hk : Keep fs s0 s) (hts : Within [.od, .host, .hostMem, .land, .flit, .falt, .trc, .cores, .newels, .mem, .bal, .clok, .ledg, .vest, .vid] fs := by first | assumption | exact within_self _ | exact within_trans ‹Within _ _› (by decide) | exact within_of (by decide)) : Keep fs s0 (State.aluR s n rd ra rb f) := by
    unfold State.aluR
    refine Shown.out ?_
    simp (disch :=
      repeat' first
        | with_reducible assumption
        | with_reducible exact within_trans hts (by decide)
        | with_reducible exact fun _ => rfl
        | exact fun h_ => absurd (within_mem hts (by decide)) h_
        | with_reducible exact within_mem hts (by decide)
        | with_reducible apply issue_keep
        | with_reducible apply nextWith_keep
        | with_reducible apply Keep.wr
        | with_reducible apply Keep.wrBytes
        | with_reducible apply Keep.foldN
        | with_reducible apply Keep.foldl
        | intro _
        | fail_if_no_progress with_reducible refine Keep.upd ?_ rfl rfl rfl rfl
        | fail_if_no_progress with_reducible refine Keep.draw ?_ rfl rfl rfl rfl
        | split
        | extract_lets
        | (dsimp +zetaDelta only)) only [↓Shown.eq]

theorem aluI_keep {fs : List Field} {s0 : State} (s : State) (n : Nat) (rd : Nat) (ra : Nat) (f : Word → Word) (hk : Keep fs s0 s) (hts : Within [.od, .host, .hostMem, .land, .flit, .falt, .trc, .cores, .newels, .mem, .bal, .clok, .ledg, .vest, .vid] fs := by first | assumption | exact within_self _ | exact within_trans ‹Within _ _› (by decide) | exact within_of (by decide)) : Keep fs s0 (State.aluI s n rd ra f) := by
    unfold State.aluI
    refine Shown.out ?_
    simp (disch :=
      repeat' first
        | with_reducible assumption
        | with_reducible exact within_trans hts (by decide)
        | with_reducible exact fun _ => rfl
        | exact fun h_ => absurd (within_mem hts (by decide)) h_
        | with_reducible exact within_mem hts (by decide)
        | with_reducible apply issue_keep
        | with_reducible apply nextWith_keep
        | with_reducible apply Keep.wr
        | with_reducible apply Keep.wrBytes
        | with_reducible apply Keep.foldN
        | with_reducible apply Keep.foldl
        | intro _
        | fail_if_no_progress with_reducible refine Keep.upd ?_ rfl rfl rfl rfl
        | fail_if_no_progress with_reducible refine Keep.draw ?_ rfl rfl rfl rfl
        | split
        | extract_lets
        | (dsimp +zetaDelta only)) only [↓Shown.eq]

theorem execAdd_keep (n : Fin 32) (rd : Fin 32) (ra : Fin 32) (rb : Fin 32) (s : State) : ∃ t_, execAdd n rd ra rb s = .next t_ ∧ Keep [.od, .host, .hostMem, .land, .flit, .falt, .trc, .cores, .newels, .mem, .bal, .clok, .ledg, .vest, .vid] s t_ := by
  refine ⟨_, rfl, ?_⟩
  · have hts := within_self ([.od, .host, .hostMem, .land, .flit, .falt, .trc, .cores, .newels, .mem, .bal, .clok, .ledg, .vest, .vid] : List Field)
    have hk : Keep [.od, .host, .hostMem, .land, .flit, .falt, .trc, .cores, .newels, .mem, .bal, .clok, .ledg, .vest, .vid] s s := Keep.rfl' _
    refine Shown.out ?_
    simp (disch :=
      repeat' first
        | with_reducible assumption
        | with_reducible exact within_trans hts (by decide)
        | with_reducible exact fun _ => rfl
        | exact fun h_ => absurd (within_mem hts (by decide)) h_
        | with_reducible exact within_mem hts (by decide)
        | with_reducible apply aluR_keep
        | with_reducible apply next_keep
        | with_reducible apply Keep.wr
        | with_reducible apply Keep.wrBytes
        | with_reducible apply Keep.foldN
        | with_reducible apply Keep.foldl
        | intro _
        | fail_if_no_progress with_reducible refine Keep.upd ?_ rfl rfl rfl rfl
        | fail_if_no_progress with_reducible refine Keep.draw ?_ rfl rfl rfl rfl
        | split
        | extract_lets
        | (dsimp +zetaDelta only)) only [↓Shown.eq]

theorem execSub_keep (n : Fin 32) (rd : Fin 32) (ra : Fin 32) (rb : Fin 32) (s : State) : ∃ t_, execSub n rd ra rb s = .next t_ ∧ Keep [.od, .host, .hostMem, .land, .flit, .falt, .trc, .cores, .newels, .mem, .bal, .clok, .ledg, .vest, .vid] s t_ := by
  refine ⟨_, rfl, ?_⟩
  · have hts := within_self ([.od, .host, .hostMem, .land, .flit, .falt, .trc, .cores, .newels, .mem, .bal, .clok, .ledg, .vest, .vid] : List Field)
    have hk : Keep [.od, .host, .hostMem, .land, .flit, .falt, .trc, .cores, .newels, .mem, .bal, .clok, .ledg, .vest, .vid] s s := Keep.rfl' _
    refine Shown.out ?_
    simp (disch :=
      repeat' first
        | with_reducible assumption
        | with_reducible exact within_trans hts (by decide)
        | with_reducible exact fun _ => rfl
        | exact fun h_ => absurd (within_mem hts (by decide)) h_
        | with_reducible exact within_mem hts (by decide)
        | with_reducible apply aluR_keep
        | with_reducible apply next_keep
        | with_reducible apply Keep.wr
        | with_reducible apply Keep.wrBytes
        | with_reducible apply Keep.foldN
        | with_reducible apply Keep.foldl
        | intro _
        | fail_if_no_progress with_reducible refine Keep.upd ?_ rfl rfl rfl rfl
        | fail_if_no_progress with_reducible refine Keep.draw ?_ rfl rfl rfl rfl
        | split
        | extract_lets
        | (dsimp +zetaDelta only)) only [↓Shown.eq]

theorem execMul_keep (n : Fin 32) (rd : Fin 32) (ra : Fin 32) (rb : Fin 32) (s : State) : ∃ t_, execMul n rd ra rb s = .next t_ ∧ Keep [.od, .host, .hostMem, .land, .flit, .falt, .trc, .cores, .newels, .mem, .bal, .clok, .ledg, .vest, .vid] s t_ := by
  refine ⟨_, rfl, ?_⟩
  · have hts := within_self ([.od, .host, .hostMem, .land, .flit, .falt, .trc, .cores, .newels, .mem, .bal, .clok, .ledg, .vest, .vid] : List Field)
    have hk : Keep [.od, .host, .hostMem, .land, .flit, .falt, .trc, .cores, .newels, .mem, .bal, .clok, .ledg, .vest, .vid] s s := Keep.rfl' _
    refine Shown.out ?_
    simp (disch :=
      repeat' first
        | with_reducible assumption
        | with_reducible exact within_trans hts (by decide)
        | with_reducible exact fun _ => rfl
        | exact fun h_ => absurd (within_mem hts (by decide)) h_
        | with_reducible exact within_mem hts (by decide)
        | with_reducible apply aluR_keep
        | with_reducible apply next_keep
        | with_reducible apply Keep.wr
        | with_reducible apply Keep.wrBytes
        | with_reducible apply Keep.foldN
        | with_reducible apply Keep.foldl
        | intro _
        | fail_if_no_progress with_reducible refine Keep.upd ?_ rfl rfl rfl rfl
        | fail_if_no_progress with_reducible refine Keep.draw ?_ rfl rfl rfl rfl
        | split
        | extract_lets
        | (dsimp +zetaDelta only)) only [↓Shown.eq]

theorem execAnd_keep (n : Fin 32) (rd : Fin 32) (ra : Fin 32) (rb : Fin 32) (s : State) : ∃ t_, execAnd n rd ra rb s = .next t_ ∧ Keep [.od, .host, .hostMem, .land, .flit, .falt, .trc, .cores, .newels, .mem, .bal, .clok, .ledg, .vest, .vid] s t_ := by
  refine ⟨_, rfl, ?_⟩
  · have hts := within_self ([.od, .host, .hostMem, .land, .flit, .falt, .trc, .cores, .newels, .mem, .bal, .clok, .ledg, .vest, .vid] : List Field)
    have hk : Keep [.od, .host, .hostMem, .land, .flit, .falt, .trc, .cores, .newels, .mem, .bal, .clok, .ledg, .vest, .vid] s s := Keep.rfl' _
    refine Shown.out ?_
    simp (disch :=
      repeat' first
        | with_reducible assumption
        | with_reducible exact within_trans hts (by decide)
        | with_reducible exact fun _ => rfl
        | exact fun h_ => absurd (within_mem hts (by decide)) h_
        | with_reducible exact within_mem hts (by decide)
        | with_reducible apply aluR_keep
        | with_reducible apply next_keep
        | with_reducible apply Keep.wr
        | with_reducible apply Keep.wrBytes
        | with_reducible apply Keep.foldN
        | with_reducible apply Keep.foldl
        | intro _
        | fail_if_no_progress with_reducible refine Keep.upd ?_ rfl rfl rfl rfl
        | fail_if_no_progress with_reducible refine Keep.draw ?_ rfl rfl rfl rfl
        | split
        | extract_lets
        | (dsimp +zetaDelta only)) only [↓Shown.eq]

theorem execOr_keep (n : Fin 32) (rd : Fin 32) (ra : Fin 32) (rb : Fin 32) (s : State) : ∃ t_, execOr n rd ra rb s = .next t_ ∧ Keep [.od, .host, .hostMem, .land, .flit, .falt, .trc, .cores, .newels, .mem, .bal, .clok, .ledg, .vest, .vid] s t_ := by
  refine ⟨_, rfl, ?_⟩
  · have hts := within_self ([.od, .host, .hostMem, .land, .flit, .falt, .trc, .cores, .newels, .mem, .bal, .clok, .ledg, .vest, .vid] : List Field)
    have hk : Keep [.od, .host, .hostMem, .land, .flit, .falt, .trc, .cores, .newels, .mem, .bal, .clok, .ledg, .vest, .vid] s s := Keep.rfl' _
    refine Shown.out ?_
    simp (disch :=
      repeat' first
        | with_reducible assumption
        | with_reducible exact within_trans hts (by decide)
        | with_reducible exact fun _ => rfl
        | exact fun h_ => absurd (within_mem hts (by decide)) h_
        | with_reducible exact within_mem hts (by decide)
        | with_reducible apply aluR_keep
        | with_reducible apply next_keep
        | with_reducible apply Keep.wr
        | with_reducible apply Keep.wrBytes
        | with_reducible apply Keep.foldN
        | with_reducible apply Keep.foldl
        | intro _
        | fail_if_no_progress with_reducible refine Keep.upd ?_ rfl rfl rfl rfl
        | fail_if_no_progress with_reducible refine Keep.draw ?_ rfl rfl rfl rfl
        | split
        | extract_lets
        | (dsimp +zetaDelta only)) only [↓Shown.eq]

theorem execXor_keep (n : Fin 32) (rd : Fin 32) (ra : Fin 32) (rb : Fin 32) (s : State) : ∃ t_, execXor n rd ra rb s = .next t_ ∧ Keep [.od, .host, .hostMem, .land, .flit, .falt, .trc, .cores, .newels, .mem, .bal, .clok, .ledg, .vest, .vid] s t_ := by
  refine ⟨_, rfl, ?_⟩
  · have hts := within_self ([.od, .host, .hostMem, .land, .flit, .falt, .trc, .cores, .newels, .mem, .bal, .clok, .ledg, .vest, .vid] : List Field)
    have hk : Keep [.od, .host, .hostMem, .land, .flit, .falt, .trc, .cores, .newels, .mem, .bal, .clok, .ledg, .vest, .vid] s s := Keep.rfl' _
    refine Shown.out ?_
    simp (disch :=
      repeat' first
        | with_reducible assumption
        | with_reducible exact within_trans hts (by decide)
        | with_reducible exact fun _ => rfl
        | exact fun h_ => absurd (within_mem hts (by decide)) h_
        | with_reducible exact within_mem hts (by decide)
        | with_reducible apply aluR_keep
        | with_reducible apply next_keep
        | with_reducible apply Keep.wr
        | with_reducible apply Keep.wrBytes
        | with_reducible apply Keep.foldN
        | with_reducible apply Keep.foldl
        | intro _
        | fail_if_no_progress with_reducible refine Keep.upd ?_ rfl rfl rfl rfl
        | fail_if_no_progress with_reducible refine Keep.draw ?_ rfl rfl rfl rfl
        | split
        | extract_lets
        | (dsimp +zetaDelta only)) only [↓Shown.eq]

theorem execShl_keep (n : Fin 32) (rd : Fin 32) (ra : Fin 32) (rb : Fin 32) (s : State) : ∃ t_, execShl n rd ra rb s = .next t_ ∧ Keep [.od, .host, .hostMem, .land, .flit, .falt, .trc, .cores, .newels, .mem, .bal, .clok, .ledg, .vest, .vid] s t_ := by
  refine ⟨_, rfl, ?_⟩
  · have hts := within_self ([.od, .host, .hostMem, .land, .flit, .falt, .trc, .cores, .newels, .mem, .bal, .clok, .ledg, .vest, .vid] : List Field)
    have hk : Keep [.od, .host, .hostMem, .land, .flit, .falt, .trc, .cores, .newels, .mem, .bal, .clok, .ledg, .vest, .vid] s s := Keep.rfl' _
    refine Shown.out ?_
    simp (disch :=
      repeat' first
        | with_reducible assumption
        | with_reducible exact within_trans hts (by decide)
        | with_reducible exact fun _ => rfl
        | exact fun h_ => absurd (within_mem hts (by decide)) h_
        | with_reducible exact within_mem hts (by decide)
        | with_reducible apply aluR_keep
        | with_reducible apply next_keep
        | with_reducible apply Keep.wr
        | with_reducible apply Keep.wrBytes
        | with_reducible apply Keep.foldN
        | with_reducible apply Keep.foldl
        | intro _
        | fail_if_no_progress with_reducible refine Keep.upd ?_ rfl rfl rfl rfl
        | fail_if_no_progress with_reducible refine Keep.draw ?_ rfl rfl rfl rfl
        | split
        | extract_lets
        | (dsimp +zetaDelta only)) only [↓Shown.eq]

theorem execShr_keep (n : Fin 32) (rd : Fin 32) (ra : Fin 32) (rb : Fin 32) (s : State) : ∃ t_, execShr n rd ra rb s = .next t_ ∧ Keep [.od, .host, .hostMem, .land, .flit, .falt, .trc, .cores, .newels, .mem, .bal, .clok, .ledg, .vest, .vid] s t_ := by
  refine ⟨_, rfl, ?_⟩
  · have hts := within_self ([.od, .host, .hostMem, .land, .flit, .falt, .trc, .cores, .newels, .mem, .bal, .clok, .ledg, .vest, .vid] : List Field)
    have hk : Keep [.od, .host, .hostMem, .land, .flit, .falt, .trc, .cores, .newels, .mem, .bal, .clok, .ledg, .vest, .vid] s s := Keep.rfl' _
    refine Shown.out ?_
    simp (disch :=
      repeat' first
        | with_reducible assumption
        | with_reducible exact within_trans hts (by decide)
        | with_reducible exact fun _ => rfl
        | exact fun h_ => absurd (within_mem hts (by decide)) h_
        | with_reducible exact within_mem hts (by decide)
        | with_reducible apply aluR_keep
        | with_reducible apply next_keep
        | with_reducible apply Keep.wr
        | with_reducible apply Keep.wrBytes
        | with_reducible apply Keep.foldN
        | with_reducible apply Keep.foldl
        | intro _
        | fail_if_no_progress with_reducible refine Keep.upd ?_ rfl rfl rfl rfl
        | fail_if_no_progress with_reducible refine Keep.draw ?_ rfl rfl rfl rfl
        | split
        | extract_lets
        | (dsimp +zetaDelta only)) only [↓Shown.eq]

theorem execSra_keep (n : Fin 32) (rd : Fin 32) (ra : Fin 32) (rb : Fin 32) (s : State) : ∃ t_, execSra n rd ra rb s = .next t_ ∧ Keep [.od, .host, .hostMem, .land, .flit, .falt, .trc, .cores, .newels, .mem, .bal, .clok, .ledg, .vest, .vid] s t_ := by
  refine ⟨_, rfl, ?_⟩
  · have hts := within_self ([.od, .host, .hostMem, .land, .flit, .falt, .trc, .cores, .newels, .mem, .bal, .clok, .ledg, .vest, .vid] : List Field)
    have hk : Keep [.od, .host, .hostMem, .land, .flit, .falt, .trc, .cores, .newels, .mem, .bal, .clok, .ledg, .vest, .vid] s s := Keep.rfl' _
    refine Shown.out ?_
    simp (disch :=
      repeat' first
        | with_reducible assumption
        | with_reducible exact within_trans hts (by decide)
        | with_reducible exact fun _ => rfl
        | exact fun h_ => absurd (within_mem hts (by decide)) h_
        | with_reducible exact within_mem hts (by decide)
        | with_reducible apply aluR_keep
        | with_reducible apply next_keep
        | with_reducible apply Keep.wr
        | with_reducible apply Keep.wrBytes
        | with_reducible apply Keep.foldN
        | with_reducible apply Keep.foldl
        | intro _
        | fail_if_no_progress with_reducible refine Keep.upd ?_ rfl rfl rfl rfl
        | fail_if_no_progress with_reducible refine Keep.draw ?_ rfl rfl rfl rfl
        | split
        | extract_lets
        | (dsimp +zetaDelta only)) only [↓Shown.eq]

theorem execSlt_keep (n : Fin 32) (rd : Fin 32) (ra : Fin 32) (rb : Fin 32) (s : State) : ∃ t_, execSlt n rd ra rb s = .next t_ ∧ Keep [.od, .host, .hostMem, .land, .flit, .falt, .trc, .cores, .newels, .mem, .bal, .clok, .ledg, .vest, .vid] s t_ := by
  refine ⟨_, rfl, ?_⟩
  · have hts := within_self ([.od, .host, .hostMem, .land, .flit, .falt, .trc, .cores, .newels, .mem, .bal, .clok, .ledg, .vest, .vid] : List Field)
    have hk : Keep [.od, .host, .hostMem, .land, .flit, .falt, .trc, .cores, .newels, .mem, .bal, .clok, .ledg, .vest, .vid] s s := Keep.rfl' _
    refine Shown.out ?_
    simp (disch :=
      repeat' first
        | with_reducible assumption
        | with_reducible exact within_trans hts (by decide)
        | with_reducible exact fun _ => rfl
        | exact fun h_ => absurd (within_mem hts (by decide)) h_
        | with_reducible exact within_mem hts (by decide)
        | with_reducible apply aluR_keep
        | with_reducible apply next_keep
        | with_reducible apply Keep.wr
        | with_reducible apply Keep.wrBytes
        | with_reducible apply Keep.foldN
        | with_reducible apply Keep.foldl
        | intro _
        | fail_if_no_progress with_reducible refine Keep.upd ?_ rfl rfl rfl rfl
        | fail_if_no_progress with_reducible refine Keep.draw ?_ rfl rfl rfl rfl
        | split
        | extract_lets
        | (dsimp +zetaDelta only)) only [↓Shown.eq]

theorem execSltu_keep (n : Fin 32) (rd : Fin 32) (ra : Fin 32) (rb : Fin 32) (s : State) : ∃ t_, execSltu n rd ra rb s = .next t_ ∧ Keep [.od, .host, .hostMem, .land, .flit, .falt, .trc, .cores, .newels, .mem, .bal, .clok, .ledg, .vest, .vid] s t_ := by
  refine ⟨_, rfl, ?_⟩
  · have hts := within_self ([.od, .host, .hostMem, .land, .flit, .falt, .trc, .cores, .newels, .mem, .bal, .clok, .ledg, .vest, .vid] : List Field)
    have hk : Keep [.od, .host, .hostMem, .land, .flit, .falt, .trc, .cores, .newels, .mem, .bal, .clok, .ledg, .vest, .vid] s s := Keep.rfl' _
    refine Shown.out ?_
    simp (disch :=
      repeat' first
        | with_reducible assumption
        | with_reducible exact within_trans hts (by decide)
        | with_reducible exact fun _ => rfl
        | exact fun h_ => absurd (within_mem hts (by decide)) h_
        | with_reducible exact within_mem hts (by decide)
        | with_reducible apply aluR_keep
        | with_reducible apply next_keep
        | with_reducible apply Keep.wr
        | with_reducible apply Keep.wrBytes
        | with_reducible apply Keep.foldN
        | with_reducible apply Keep.foldl
        | intro _
        | fail_if_no_progress with_reducible refine Keep.upd ?_ rfl rfl rfl rfl
        | fail_if_no_progress with_reducible refine Keep.draw ?_ rfl rfl rfl rfl
        | split
        | extract_lets
        | (dsimp +zetaDelta only)) only [↓Shown.eq]

theorem execMin_keep (n : Fin 32) (rd : Fin 32) (ra : Fin 32) (rb : Fin 32) (s : State) : ∃ t_, execMin n rd ra rb s = .next t_ ∧ Keep [.od, .host, .hostMem, .land, .flit, .falt, .trc, .cores, .newels, .mem, .bal, .clok, .ledg, .vest, .vid] s t_ := by
  refine ⟨_, rfl, ?_⟩
  · have hts := within_self ([.od, .host, .hostMem, .land, .flit, .falt, .trc, .cores, .newels, .mem, .bal, .clok, .ledg, .vest, .vid] : List Field)
    have hk : Keep [.od, .host, .hostMem, .land, .flit, .falt, .trc, .cores, .newels, .mem, .bal, .clok, .ledg, .vest, .vid] s s := Keep.rfl' _
    refine Shown.out ?_
    simp (disch :=
      repeat' first
        | with_reducible assumption
        | with_reducible exact within_trans hts (by decide)
        | with_reducible exact fun _ => rfl
        | exact fun h_ => absurd (within_mem hts (by decide)) h_
        | with_reducible exact within_mem hts (by decide)
        | with_reducible apply aluR_keep
        | with_reducible apply next_keep
        | with_reducible apply Keep.wr
        | with_reducible apply Keep.wrBytes
        | with_reducible apply Keep.foldN
        | with_reducible apply Keep.foldl
        | intro _
        | fail_if_no_progress with_reducible refine Keep.upd ?_ rfl rfl rfl rfl
        | fail_if_no_progress with_reducible refine Keep.draw ?_ rfl rfl rfl rfl
        | split
        | extract_lets
        | (dsimp +zetaDelta only)) only [↓Shown.eq]

theorem execMax_keep (n : Fin 32) (rd : Fin 32) (ra : Fin 32) (rb : Fin 32) (s : State) : ∃ t_, execMax n rd ra rb s = .next t_ ∧ Keep [.od, .host, .hostMem, .land, .flit, .falt, .trc, .cores, .newels, .mem, .bal, .clok, .ledg, .vest, .vid] s t_ := by
  refine ⟨_, rfl, ?_⟩
  · have hts := within_self ([.od, .host, .hostMem, .land, .flit, .falt, .trc, .cores, .newels, .mem, .bal, .clok, .ledg, .vest, .vid] : List Field)
    have hk : Keep [.od, .host, .hostMem, .land, .flit, .falt, .trc, .cores, .newels, .mem, .bal, .clok, .ledg, .vest, .vid] s s := Keep.rfl' _
    refine Shown.out ?_
    simp (disch :=
      repeat' first
        | with_reducible assumption
        | with_reducible exact within_trans hts (by decide)
        | with_reducible exact fun _ => rfl
        | exact fun h_ => absurd (within_mem hts (by decide)) h_
        | with_reducible exact within_mem hts (by decide)
        | with_reducible apply aluR_keep
        | with_reducible apply next_keep
        | with_reducible apply Keep.wr
        | with_reducible apply Keep.wrBytes
        | with_reducible apply Keep.foldN
        | with_reducible apply Keep.foldl
        | intro _
        | fail_if_no_progress with_reducible refine Keep.upd ?_ rfl rfl rfl rfl
        | fail_if_no_progress with_reducible refine Keep.draw ?_ rfl rfl rfl rfl
        | split
        | extract_lets
        | (dsimp +zetaDelta only)) only [↓Shown.eq]

theorem execAddi_keep (n : Fin 32) (rd : Fin 32) (ra : Fin 32) (imm : BitVec 32) (s : State) : ∃ t_, execAddi n rd ra imm s = .next t_ ∧ Keep [.od, .host, .hostMem, .land, .flit, .falt, .trc, .cores, .newels, .mem, .bal, .clok, .ledg, .vest, .vid] s t_ := by
  refine ⟨_, rfl, ?_⟩
  · have hts := within_self ([.od, .host, .hostMem, .land, .flit, .falt, .trc, .cores, .newels, .mem, .bal, .clok, .ledg, .vest, .vid] : List Field)
    have hk : Keep [.od, .host, .hostMem, .land, .flit, .falt, .trc, .cores, .newels, .mem, .bal, .clok, .ledg, .vest, .vid] s s := Keep.rfl' _
    refine Shown.out ?_
    simp (disch :=
      repeat' first
        | with_reducible assumption
        | with_reducible exact within_trans hts (by decide)
        | with_reducible exact fun _ => rfl
        | exact fun h_ => absurd (within_mem hts (by decide)) h_
        | with_reducible exact within_mem hts (by decide)
        | with_reducible apply aluI_keep
        | with_reducible apply next_keep
        | with_reducible apply Keep.wr
        | with_reducible apply Keep.wrBytes
        | with_reducible apply Keep.foldN
        | with_reducible apply Keep.foldl
        | intro _
        | fail_if_no_progress with_reducible refine Keep.upd ?_ rfl rfl rfl rfl
        | fail_if_no_progress with_reducible refine Keep.draw ?_ rfl rfl rfl rfl
        | split
        | extract_lets
        | (dsimp +zetaDelta only)) only [↓Shown.eq]

theorem execAndi_keep (n : Fin 32) (rd : Fin 32) (ra : Fin 32) (imm : BitVec 32) (s : State) : ∃ t_, execAndi n rd ra imm s = .next t_ ∧ Keep [.od, .host, .hostMem, .land, .flit, .falt, .trc, .cores, .newels, .mem, .bal, .clok, .ledg, .vest, .vid] s t_ := by
  refine ⟨_, rfl, ?_⟩
  · have hts := within_self ([.od, .host, .hostMem, .land, .flit, .falt, .trc, .cores, .newels, .mem, .bal, .clok, .ledg, .vest, .vid] : List Field)
    have hk : Keep [.od, .host, .hostMem, .land, .flit, .falt, .trc, .cores, .newels, .mem, .bal, .clok, .ledg, .vest, .vid] s s := Keep.rfl' _
    refine Shown.out ?_
    simp (disch :=
      repeat' first
        | with_reducible assumption
        | with_reducible exact within_trans hts (by decide)
        | with_reducible exact fun _ => rfl
        | exact fun h_ => absurd (within_mem hts (by decide)) h_
        | with_reducible exact within_mem hts (by decide)
        | with_reducible apply aluI_keep
        | with_reducible apply next_keep
        | with_reducible apply Keep.wr
        | with_reducible apply Keep.wrBytes
        | with_reducible apply Keep.foldN
        | with_reducible apply Keep.foldl
        | intro _
        | fail_if_no_progress with_reducible refine Keep.upd ?_ rfl rfl rfl rfl
        | fail_if_no_progress with_reducible refine Keep.draw ?_ rfl rfl rfl rfl
        | split
        | extract_lets
        | (dsimp +zetaDelta only)) only [↓Shown.eq]

theorem execOri_keep (n : Fin 32) (rd : Fin 32) (ra : Fin 32) (imm : BitVec 32) (s : State) : ∃ t_, execOri n rd ra imm s = .next t_ ∧ Keep [.od, .host, .hostMem, .land, .flit, .falt, .trc, .cores, .newels, .mem, .bal, .clok, .ledg, .vest, .vid] s t_ := by
  refine ⟨_, rfl, ?_⟩
  · have hts := within_self ([.od, .host, .hostMem, .land, .flit, .falt, .trc, .cores, .newels, .mem, .bal, .clok, .ledg, .vest, .vid] : List Field)
    have hk : Keep [.od, .host, .hostMem, .land, .flit, .falt, .trc, .cores, .newels, .mem, .bal, .clok, .ledg, .vest, .vid] s s := Keep.rfl' _
    refine Shown.out ?_
    simp (disch :=
      repeat' first
        | with_reducible assumption
        | with_reducible exact within_trans hts (by decide)
        | with_reducible exact fun _ => rfl
        | exact fun h_ => absurd (within_mem hts (by decide)) h_
        | with_reducible exact within_mem hts (by decide)
        | with_reducible apply aluI_keep
        | with_reducible apply next_keep
        | with_reducible apply Keep.wr
        | with_reducible apply Keep.wrBytes
        | with_reducible apply Keep.foldN
        | with_reducible apply Keep.foldl
        | intro _
        | fail_if_no_progress with_reducible refine Keep.upd ?_ rfl rfl rfl rfl
        | fail_if_no_progress with_reducible refine Keep.draw ?_ rfl rfl rfl rfl
        | split
        | extract_lets
        | (dsimp +zetaDelta only)) only [↓Shown.eq]

theorem execXori_keep (n : Fin 32) (rd : Fin 32) (ra : Fin 32) (imm : BitVec 32) (s : State) : ∃ t_, execXori n rd ra imm s = .next t_ ∧ Keep [.od, .host, .hostMem, .land, .flit, .falt, .trc, .cores, .newels, .mem, .bal, .clok, .ledg, .vest, .vid] s t_ := by
  refine ⟨_, rfl, ?_⟩
  · have hts := within_self ([.od, .host, .hostMem, .land, .flit, .falt, .trc, .cores, .newels, .mem, .bal, .clok, .ledg, .vest, .vid] : List Field)
    have hk : Keep [.od, .host, .hostMem, .land, .flit, .falt, .trc, .cores, .newels, .mem, .bal, .clok, .ledg, .vest, .vid] s s := Keep.rfl' _
    refine Shown.out ?_
    simp (disch :=
      repeat' first
        | with_reducible assumption
        | with_reducible exact within_trans hts (by decide)
        | with_reducible exact fun _ => rfl
        | exact fun h_ => absurd (within_mem hts (by decide)) h_
        | with_reducible exact within_mem hts (by decide)
        | with_reducible apply aluI_keep
        | with_reducible apply next_keep
        | with_reducible apply Keep.wr
        | with_reducible apply Keep.wrBytes
        | with_reducible apply Keep.foldN
        | with_reducible apply Keep.foldl
        | intro _
        | fail_if_no_progress with_reducible refine Keep.upd ?_ rfl rfl rfl rfl
        | fail_if_no_progress with_reducible refine Keep.draw ?_ rfl rfl rfl rfl
        | split
        | extract_lets
        | (dsimp +zetaDelta only)) only [↓Shown.eq]

theorem execShli_keep (n : Fin 32) (rd : Fin 32) (ra : Fin 32) (imm : BitVec 32) (s : State) : ∃ t_, execShli n rd ra imm s = .next t_ ∧ Keep [.od, .host, .hostMem, .land, .flit, .falt, .trc, .cores, .newels, .mem, .bal, .clok, .ledg, .vest, .vid] s t_ := by
  refine ⟨_, rfl, ?_⟩
  · have hts := within_self ([.od, .host, .hostMem, .land, .flit, .falt, .trc, .cores, .newels, .mem, .bal, .clok, .ledg, .vest, .vid] : List Field)
    have hk : Keep [.od, .host, .hostMem, .land, .flit, .falt, .trc, .cores, .newels, .mem, .bal, .clok, .ledg, .vest, .vid] s s := Keep.rfl' _
    refine Shown.out ?_
    simp (disch :=
      repeat' first
        | with_reducible assumption
        | with_reducible exact within_trans hts (by decide)
        | with_reducible exact fun _ => rfl
        | exact fun h_ => absurd (within_mem hts (by decide)) h_
        | with_reducible exact within_mem hts (by decide)
        | with_reducible apply aluI_keep
        | with_reducible apply next_keep
        | with_reducible apply Keep.wr
        | with_reducible apply Keep.wrBytes
        | with_reducible apply Keep.foldN
        | with_reducible apply Keep.foldl
        | intro _
        | fail_if_no_progress with_reducible refine Keep.upd ?_ rfl rfl rfl rfl
        | fail_if_no_progress with_reducible refine Keep.draw ?_ rfl rfl rfl rfl
        | split
        | extract_lets
        | (dsimp +zetaDelta only)) only [↓Shown.eq]

theorem execShri_keep (n : Fin 32) (rd : Fin 32) (ra : Fin 32) (imm : BitVec 32) (s : State) : ∃ t_, execShri n rd ra imm s = .next t_ ∧ Keep [.od, .host, .hostMem, .land, .flit, .falt, .trc, .cores, .newels, .mem, .bal, .clok, .ledg, .vest, .vid] s t_ := by
  refine ⟨_, rfl, ?_⟩
  · have hts := within_self ([.od, .host, .hostMem, .land, .flit, .falt, .trc, .cores, .newels, .mem, .bal, .clok, .ledg, .vest, .vid] : List Field)
    have hk : Keep [.od, .host, .hostMem, .land, .flit, .falt, .trc, .cores, .newels, .mem, .bal, .clok, .ledg, .vest, .vid] s s := Keep.rfl' _
    refine Shown.out ?_
    simp (disch :=
      repeat' first
        | with_reducible assumption
        | with_reducible exact within_trans hts (by decide)
        | with_reducible exact fun _ => rfl
        | exact fun h_ => absurd (within_mem hts (by decide)) h_
        | with_reducible exact within_mem hts (by decide)
        | with_reducible apply aluI_keep
        | with_reducible apply next_keep
        | with_reducible apply Keep.wr
        | with_reducible apply Keep.wrBytes
        | with_reducible apply Keep.foldN
        | with_reducible apply Keep.foldl
        | intro _
        | fail_if_no_progress with_reducible refine Keep.upd ?_ rfl rfl rfl rfl
        | fail_if_no_progress with_reducible refine Keep.draw ?_ rfl rfl rfl rfl
        | split
        | extract_lets
        | (dsimp +zetaDelta only)) only [↓Shown.eq]

theorem execSrai_keep (n : Fin 32) (rd : Fin 32) (ra : Fin 32) (imm : BitVec 32) (s : State) : ∃ t_, execSrai n rd ra imm s = .next t_ ∧ Keep [.od, .host, .hostMem, .land, .flit, .falt, .trc, .cores, .newels, .mem, .bal, .clok, .ledg, .vest, .vid] s t_ := by
  refine ⟨_, rfl, ?_⟩
  · have hts := within_self ([.od, .host, .hostMem, .land, .flit, .falt, .trc, .cores, .newels, .mem, .bal, .clok, .ledg, .vest, .vid] : List Field)
    have hk : Keep [.od, .host, .hostMem, .land, .flit, .falt, .trc, .cores, .newels, .mem, .bal, .clok, .ledg, .vest, .vid] s s := Keep.rfl' _
    refine Shown.out ?_
    simp (disch :=
      repeat' first
        | with_reducible assumption
        | with_reducible exact within_trans hts (by decide)
        | with_reducible exact fun _ => rfl
        | exact fun h_ => absurd (within_mem hts (by decide)) h_
        | with_reducible exact within_mem hts (by decide)
        | with_reducible apply aluI_keep
        | with_reducible apply next_keep
        | with_reducible apply Keep.wr
        | with_reducible apply Keep.wrBytes
        | with_reducible apply Keep.foldN
        | with_reducible apply Keep.foldl
        | intro _
        | fail_if_no_progress with_reducible refine Keep.upd ?_ rfl rfl rfl rfl
        | fail_if_no_progress with_reducible refine Keep.draw ?_ rfl rfl rfl rfl
        | split
        | extract_lets
        | (dsimp +zetaDelta only)) only [↓Shown.eq]

theorem execLui_keep (n : Fin 32) (rd : Fin 32) (ra : Fin 32) (imm : BitVec 32) (s : State) : ∃ t_, execLui n rd ra imm s = .next t_ ∧ Keep [.od, .host, .hostMem, .land, .flit, .falt, .trc, .cores, .newels, .mem, .bal, .clok, .ledg, .vest, .vid] s t_ := by
  refine ⟨_, rfl, ?_⟩
  · have hts := within_self ([.od, .host, .hostMem, .land, .flit, .falt, .trc, .cores, .newels, .mem, .bal, .clok, .ledg, .vest, .vid] : List Field)
    have hk : Keep [.od, .host, .hostMem, .land, .flit, .falt, .trc, .cores, .newels, .mem, .bal, .clok, .ledg, .vest, .vid] s s := Keep.rfl' _
    refine Shown.out ?_
    simp (disch :=
      repeat' first
        | with_reducible assumption
        | with_reducible exact within_trans hts (by decide)
        | with_reducible exact fun _ => rfl
        | exact fun h_ => absurd (within_mem hts (by decide)) h_
        | with_reducible exact within_mem hts (by decide)
        | with_reducible apply aluI_keep
        | with_reducible apply next_keep
        | with_reducible apply Keep.wr
        | with_reducible apply Keep.wrBytes
        | with_reducible apply Keep.foldN
        | with_reducible apply Keep.foldl
        | intro _
        | fail_if_no_progress with_reducible refine Keep.upd ?_ rfl rfl rfl rfl
        | fail_if_no_progress with_reducible refine Keep.draw ?_ rfl rfl rfl rfl
        | split
        | extract_lets
        | (dsimp +zetaDelta only)) only [↓Shown.eq]

theorem branch_keep {fs : List Field} {s0 : State} (s : State) (n : Nat) (ra : Nat) (rb : Nat) (off : BitVec 32) (p : Word → Word → Bool) (hk : Keep fs s0 s) (hts : Within [.od, .host, .hostMem, .land, .flit, .falt, .trc, .cores, .newels, .mem, .bal, .clok, .ledg, .vest, .vid] fs := by first | assumption | exact within_self _ | exact within_trans ‹Within _ _› (by decide) | exact within_of (by decide)) : Keep fs s0 (State.branch s n ra rb off p) := by
    unfold State.branch
    refine Shown.out ?_
    simp (disch :=
      repeat' first
        | with_reducible assumption
        | with_reducible exact within_trans hts (by decide)
        | with_reducible exact fun _ => rfl
        | exact fun h_ => absurd (within_mem hts (by decide)) h_
        | with_reducible exact within_mem hts (by decide)
        | with_reducible apply issue_keep
        | with_reducible apply jump_keep
        | with_reducible apply next_keep
        | with_reducible apply Keep.wr
        | with_reducible apply Keep.wrBytes
        | with_reducible apply Keep.foldN
        | with_reducible apply Keep.foldl
        | intro _
        | fail_if_no_progress with_reducible refine Keep.upd ?_ rfl rfl rfl rfl
        | fail_if_no_progress with_reducible refine Keep.draw ?_ rfl rfl rfl rfl
        | split
        | extract_lets
        | (dsimp +zetaDelta only)) only [↓Shown.eq]

theorem execBeq_keep (n : Fin 32) (ra : Fin 32) (rb : Fin 32) (off : BitVec 32) (s : State) : ∃ t_, execBeq n ra rb off s = .next t_ ∧ Keep [.od, .host, .hostMem, .land, .flit, .falt, .trc, .cores, .newels, .mem, .bal, .clok, .ledg, .vest, .vid] s t_ := by
  refine ⟨_, rfl, ?_⟩
  · have hts := within_self ([.od, .host, .hostMem, .land, .flit, .falt, .trc, .cores, .newels, .mem, .bal, .clok, .ledg, .vest, .vid] : List Field)
    have hk : Keep [.od, .host, .hostMem, .land, .flit, .falt, .trc, .cores, .newels, .mem, .bal, .clok, .ledg, .vest, .vid] s s := Keep.rfl' _
    refine Shown.out ?_
    simp (disch :=
      repeat' first
        | with_reducible assumption
        | with_reducible exact within_trans hts (by decide)
        | with_reducible exact fun _ => rfl
        | exact fun h_ => absurd (within_mem hts (by decide)) h_
        | with_reducible exact within_mem hts (by decide)
        | with_reducible apply branch_keep
        | with_reducible apply next_keep
        | with_reducible apply Keep.wr
        | with_reducible apply Keep.wrBytes
        | with_reducible apply Keep.foldN
        | with_reducible apply Keep.foldl
        | intro _
        | fail_if_no_progress with_reducible refine Keep.upd ?_ rfl rfl rfl rfl
        | fail_if_no_progress with_reducible refine Keep.draw ?_ rfl rfl rfl rfl
        | split
        | extract_lets
        | (dsimp +zetaDelta only)) only [↓Shown.eq]

theorem execBne_keep (n : Fin 32) (ra : Fin 32) (rb : Fin 32) (off : BitVec 32) (s : State) : ∃ t_, execBne n ra rb off s = .next t_ ∧ Keep [.od, .host, .hostMem, .land, .flit, .falt, .trc, .cores, .newels, .mem, .bal, .clok, .ledg, .vest, .vid] s t_ := by
  refine ⟨_, rfl, ?_⟩
  · have hts := within_self ([.od, .host, .hostMem, .land, .flit, .falt, .trc, .cores, .newels, .mem, .bal, .clok, .ledg, .vest, .vid] : List Field)
    have hk : Keep [.od, .host, .hostMem, .land, .flit, .falt, .trc, .cores, .newels, .mem, .bal, .clok, .ledg, .vest, .vid] s s := Keep.rfl' _
    refine Shown.out ?_
    simp (disch :=
      repeat' first
        | with_reducible assumption
        | with_reducible exact within_trans hts (by decide)
        | with_reducible exact fun _ => rfl
        | exact fun h_ => absurd (within_mem hts (by decide)) h_
        | with_reducible exact within_mem hts (by decide)
        | with_reducible apply branch_keep
        | with_reducible apply next_keep
        | with_reducible apply Keep.wr
        | with_reducible apply Keep.wrBytes
        | with_reducible apply Keep.foldN
        | with_reducible apply Keep.foldl
        | intro _
        | fail_if_no_progress with_reducible refine Keep.upd ?_ rfl rfl rfl rfl
        | fail_if_no_progress with_reducible refine Keep.draw ?_ rfl rfl rfl rfl
        | split
        | extract_lets
        | (dsimp +zetaDelta only)) only [↓Shown.eq]

theorem execBlt_keep (n : Fin 32) (ra : Fin 32) (rb : Fin 32) (off : BitVec 32) (s : State) : ∃ t_, execBlt n ra rb off s = .next t_ ∧ Keep [.od, .host, .hostMem, .land, .flit, .falt, .trc, .cores, .newels, .mem, .bal, .clok, .ledg, .vest, .vid] s t_ := by
  refine ⟨_, rfl, ?_⟩
  · have hts := within_self ([.od, .host, .hostMem, .land, .flit, .falt, .trc, .cores, .newels, .mem, .bal, .clok, .ledg, .vest, .vid] : List Field)
    have hk : Keep [.od, .host, .hostMem, .land, .flit, .falt, .trc, .cores, .newels, .mem, .bal, .clok, .ledg, .vest, .vid] s s := Keep.rfl' _
    refine Shown.out ?_
    simp (disch :=
      repeat' first
        | with_reducible assumption
        | with_reducible exact within_trans hts (by decide)
        | with_reducible exact fun _ => rfl
        | exact fun h_ => absurd (within_mem hts (by decide)) h_
        | with_reducible exact within_mem hts (by decide)
        | with_reducible apply branch_keep
        | with_reducible apply next_keep
        | with_reducible apply Keep.wr
        | with_reducible apply Keep.wrBytes
        | with_reducible apply Keep.foldN
        | with_reducible apply Keep.foldl
        | intro _
        | fail_if_no_progress with_reducible refine Keep.upd ?_ rfl rfl rfl rfl
        | fail_if_no_progress with_reducible refine Keep.draw ?_ rfl rfl rfl rfl
        | split
        | extract_lets
        | (dsimp +zetaDelta only)) only [↓Shown.eq]

theorem execBge_keep (n : Fin 32) (ra : Fin 32) (rb : Fin 32) (off : BitVec 32) (s : State) : ∃ t_, execBge n ra rb off s = .next t_ ∧ Keep [.od, .host, .hostMem, .land, .flit, .falt, .trc, .cores, .newels, .mem, .bal, .clok, .ledg, .vest, .vid] s t_ := by
  refine ⟨_, rfl, ?_⟩
  · have hts := within_self ([.od, .host, .hostMem, .land, .flit, .falt, .trc, .cores, .newels, .mem, .bal, .clok, .ledg, .vest, .vid] : List Field)
    have hk : Keep [.od, .host, .hostMem, .land, .flit, .falt, .trc, .cores, .newels, .mem, .bal, .clok, .ledg, .vest, .vid] s s := Keep.rfl' _
    refine Shown.out ?_
    simp (disch :=
      repeat' first
        | with_reducible assumption
        | with_reducible exact within_trans hts (by decide)
        | with_reducible exact fun _ => rfl
        | exact fun h_ => absurd (within_mem hts (by decide)) h_
        | with_reducible exact within_mem hts (by decide)
        | with_reducible apply branch_keep
        | with_reducible apply next_keep
        | with_reducible apply Keep.wr
        | with_reducible apply Keep.wrBytes
        | with_reducible apply Keep.foldN
        | with_reducible apply Keep.foldl
        | intro _
        | fail_if_no_progress with_reducible refine Keep.upd ?_ rfl rfl rfl rfl
        | fail_if_no_progress with_reducible refine Keep.draw ?_ rfl rfl rfl rfl
        | split
        | extract_lets
        | (dsimp +zetaDelta only)) only [↓Shown.eq]

theorem execBltu_keep (n : Fin 32) (ra : Fin 32) (rb : Fin 32) (off : BitVec 32) (s : State) : ∃ t_, execBltu n ra rb off s = .next t_ ∧ Keep [.od, .host, .hostMem, .land, .flit, .falt, .trc, .cores, .newels, .mem, .bal, .clok, .ledg, .vest, .vid] s t_ := by
  refine ⟨_, rfl, ?_⟩
  · have hts := within_self ([.od, .host, .hostMem, .land, .flit, .falt, .trc, .cores, .newels, .mem, .bal, .clok, .ledg, .vest, .vid] : List Field)
    have hk : Keep [.od, .host, .hostMem, .land, .flit, .falt, .trc, .cores, .newels, .mem, .bal, .clok, .ledg, .vest, .vid] s s := Keep.rfl' _
    refine Shown.out ?_
    simp (disch :=
      repeat' first
        | with_reducible assumption
        | with_reducible exact within_trans hts (by decide)
        | with_reducible exact fun _ => rfl
        | exact fun h_ => absurd (within_mem hts (by decide)) h_
        | with_reducible exact within_mem hts (by decide)
        | with_reducible apply branch_keep
        | with_reducible apply next_keep
        | with_reducible apply Keep.wr
        | with_reducible apply Keep.wrBytes
        | with_reducible apply Keep.foldN
        | with_reducible apply Keep.foldl
        | intro _
        | fail_if_no_progress with_reducible refine Keep.upd ?_ rfl rfl rfl rfl
        | fail_if_no_progress with_reducible refine Keep.draw ?_ rfl rfl rfl rfl
        | split
        | extract_lets
        | (dsimp +zetaDelta only)) only [↓Shown.eq]

theorem execBgeu_keep (n : Fin 32) (ra : Fin 32) (rb : Fin 32) (off : BitVec 32) (s : State) : ∃ t_, execBgeu n ra rb off s = .next t_ ∧ Keep [.od, .host, .hostMem, .land, .flit, .falt, .trc, .cores, .newels, .mem, .bal, .clok, .ledg, .vest, .vid] s t_ := by
  refine ⟨_, rfl, ?_⟩
  · have hts := within_self ([.od, .host, .hostMem, .land, .flit, .falt, .trc, .cores, .newels, .mem, .bal, .clok, .ledg, .vest, .vid] : List Field)
    have hk : Keep [.od, .host, .hostMem, .land, .flit, .falt, .trc, .cores, .newels, .mem, .bal, .clok, .ledg, .vest, .vid] s s := Keep.rfl' _
    refine Shown.out ?_
    simp (disch :=
      repeat' first
        | with_reducible assumption
        | with_reducible exact within_trans hts (by decide)
        | with_reducible exact fun _ => rfl
        | exact fun h_ => absurd (within_mem hts (by decide)) h_
        | with_reducible exact within_mem hts (by decide)
        | with_reducible apply branch_keep
        | with_reducible apply next_keep
        | with_reducible apply Keep.wr
        | with_reducible apply Keep.wrBytes
        | with_reducible apply Keep.foldN
        | with_reducible apply Keep.foldl
        | intro _
        | fail_if_no_progress with_reducible refine Keep.upd ?_ rfl rfl rfl rfl
        | fail_if_no_progress with_reducible refine Keep.draw ?_ rfl rfl rfl rfl
        | split
        | extract_lets
        | (dsimp +zetaDelta only)) only [↓Shown.eq]

theorem execJmp_keep (n : Fin 32) (ra_ : Fin 32) (rb_ : Fin 32) (off : BitVec 32) (s : State) : ∃ t_, execJmp n ra_ rb_ off s = .next t_ ∧ Keep [.od, .host, .hostMem, .land, .flit, .falt, .trc, .cores, .newels, .mem, .bal, .clok, .ledg, .vest, .vid] s t_ := by
  refine ⟨_, rfl, ?_⟩
  · have hts := within_self ([.od, .host, .hostMem, .land, .flit, .falt, .trc, .cores, .newels, .mem, .bal, .clok, .ledg, .vest, .vid] : List Field)
    have hk : Keep [.od, .host, .hostMem, .land, .flit, .falt, .trc, .cores, .newels, .mem, .bal, .clok, .ledg, .vest, .vid] s s := Keep.rfl' _
    refine Shown.out ?_
    simp (disch :=
      repeat' first
        | with_reducible assumption
        | with_reducible exact within_trans hts (by decide)
        | with_reducible exact fun _ => rfl
        | exact fun h_ => absurd (within_mem hts (by decide)) h_
        | with_reducible exact within_mem hts (by decide)
        | with_reducible apply issue_keep
        | with_reducible apply jump_keep
        | with_reducible apply next_keep
        | with_reducible apply Keep.wr
        | with_reducible apply Keep.wrBytes
        | with_reducible apply Keep.foldN
        | with_reducible apply Keep.foldl
        | intro _
        | fail_if_no_progress with_reducible refine Keep.upd ?_ rfl rfl rfl rfl
        | fail_if_no_progress with_reducible refine Keep.draw ?_ rfl rfl rfl rfl
        | split
        | extract_lets
        | (dsimp +zetaDelta only)) only [↓Shown.eq]

theorem execJal_keep (n : Fin 32) (rd : Fin 32) (ra_ : Fin 32) (imm : BitVec 32) (s : State) : ∃ t_, execJal n rd ra_ imm s = .next t_ ∧ Keep [.od, .host, .hostMem, .land, .flit, .falt, .trc, .cores, .newels, .mem, .bal, .clok, .ledg, .vest, .vid] s t_ := by
  refine ⟨_, rfl, ?_⟩
  · have hts := within_self ([.od, .host, .hostMem, .land, .flit, .falt, .trc, .cores, .newels, .mem, .bal, .clok, .ledg, .vest, .vid] : List Field)
    have hk : Keep [.od, .host, .hostMem, .land, .flit, .falt, .trc, .cores, .newels, .mem, .bal, .clok, .ledg, .vest, .vid] s s := Keep.rfl' _
    refine Shown.out ?_
    simp (disch :=
      repeat' first
        | with_reducible assumption
        | with_reducible exact within_trans hts (by decide)
        | with_reducible exact fun _ => rfl
        | exact fun h_ => absurd (within_mem hts (by decide)) h_
        | with_reducible exact within_mem hts (by decide)
        | with_reducible apply issue_keep
        | with_reducible apply jump_keep
        | with_reducible apply next_keep
        | with_reducible apply Keep.wr
        | with_reducible apply Keep.wrBytes
        | with_reducible apply Keep.foldN
        | with_reducible apply Keep.foldl
        | intro _
        | fail_if_no_progress with_reducible refine Keep.upd ?_ rfl rfl rfl rfl
        | fail_if_no_progress with_reducible refine Keep.draw ?_ rfl rfl rfl rfl
        | split
        | extract_lets
        | (dsimp +zetaDelta only)) only [↓Shown.eq]

theorem execJr_keep (n : Fin 32) (rd_ : Fin 32) (ra : Fin 32) (rb_ : Fin 32) (s : State) : ∃ t_, execJr n rd_ ra rb_ s = .next t_ ∧ Keep [.od, .host, .hostMem, .land, .flit, .falt, .trc, .cores, .newels, .mem, .bal, .clok, .ledg, .vest, .vid] s t_ := by
  refine ⟨_, rfl, ?_⟩
  · have hts := within_self ([.od, .host, .hostMem, .land, .flit, .falt, .trc, .cores, .newels, .mem, .bal, .clok, .ledg, .vest, .vid] : List Field)
    have hk : Keep [.od, .host, .hostMem, .land, .flit, .falt, .trc, .cores, .newels, .mem, .bal, .clok, .ledg, .vest, .vid] s s := Keep.rfl' _
    refine Shown.out ?_
    simp (disch :=
      repeat' first
        | with_reducible assumption
        | with_reducible exact within_trans hts (by decide)
        | with_reducible exact fun _ => rfl
        | exact fun h_ => absurd (within_mem hts (by decide)) h_
        | with_reducible exact within_mem hts (by decide)
        | with_reducible apply issue_keep
        | with_reducible apply jump_keep
        | with_reducible apply next_keep
        | with_reducible apply Keep.wr
        | with_reducible apply Keep.wrBytes
        | with_reducible apply Keep.foldN
        | with_reducible apply Keep.foldl
        | intro _
        | fail_if_no_progress with_reducible refine Keep.upd ?_ rfl rfl rfl rfl
        | fail_if_no_progress with_reducible refine Keep.draw ?_ rfl rfl rfl rfl
        | split
        | extract_lets
        | (dsimp +zetaDelta only)) only [↓Shown.eq]

theorem load_keep {fs : List Field} {s0 : State} (s : State) (n : Nat) (rd : Nat) (ra : Nat) (len : Nat) (imm : BitVec 32) (signed : Bool) (hk : Keep fs s0 s) (hts : Within [.od, .host, .hostMem, .land, .flit, .falt, .trc, .cores, .newels, .mem, .bal, .clok, .ledg, .vest, .vid] fs := by first | assumption | exact within_self _ | exact within_trans ‹Within _ _› (by decide) | exact within_of (by decide)) : Keep fs s0 (State.load s n rd ra len imm signed) := by
    unfold State.load
    refine Shown.out ?_
    simp (disch :=
      repeat' first
        | with_reducible assumption
        | with_reducible exact within_trans hts (by decide)
        | with_reducible exact fun _ => rfl
        | exact fun h_ => absurd (within_mem hts (by decide)) h_
        | with_reducible exact within_mem hts (by decide)
        | with_reducible apply coreExc_keep
        | with_reducible apply issue_keep
        | with_reducible apply nextWith_keep
        | with_reducible apply stageFault_keep
        | with_reducible apply stageLanding_keep
        | (with_reducible refine stageLoad_keepE ‹_› ?_)
        | with_reducible apply stageLoad_keep
        | with_reducible apply Keep.wr
        | with_reducible apply Keep.wrBytes
        | with_reducible apply Keep.foldN
        | with_reducible apply Keep.foldl
        | intro _
        | fail_if_no_progress with_reducible refine Keep.upd ?_ rfl rfl rfl rfl
        | fail_if_no_progress with_reducible refine Keep.draw ?_ rfl rfl rfl rfl
        | split
        | extract_lets
        | (dsimp +zetaDelta only)) only [↓Shown.eq]

theorem execLd_keep (n : Fin 32) (rd : Fin 32) (ra : Fin 32) (size : Fin 4) (imm : BitVec 32) (s : State) : ∃ t_, execLd n rd ra size imm s = .next t_ ∧ Keep [.od, .host, .hostMem, .land, .flit, .falt, .trc, .cores, .newels, .mem, .bal, .clok, .ledg, .vest, .vid] s t_ := by
  refine ⟨_, rfl, ?_⟩
  · have hts := within_self ([.od, .host, .hostMem, .land, .flit, .falt, .trc, .cores, .newels, .mem, .bal, .clok, .ledg, .vest, .vid] : List Field)
    have hk : Keep [.od, .host, .hostMem, .land, .flit, .falt, .trc, .cores, .newels, .mem, .bal, .clok, .ledg, .vest, .vid] s s := Keep.rfl' _
    refine Shown.out ?_
    simp (disch :=
      repeat' first
        | with_reducible assumption
        | with_reducible exact within_trans hts (by decide)
        | with_reducible exact fun _ => rfl
        | exact fun h_ => absurd (within_mem hts (by decide)) h_
        | with_reducible exact within_mem hts (by decide)
        | with_reducible apply load_keep
        | with_reducible apply next_keep
        | with_reducible apply Keep.wr
        | with_reducible apply Keep.wrBytes
        | with_reducible apply Keep.foldN
        | with_reducible apply Keep.foldl
        | intro _
        | fail_if_no_progress with_reducible refine Keep.upd ?_ rfl rfl rfl rfl
        | fail_if_no_progress with_reducible refine Keep.draw ?_ rfl rfl rfl rfl
        | split
        | extract_lets
        | (dsimp +zetaDelta only)) only [↓Shown.eq]

theorem execLds_keep (n : Fin 32) (rd : Fin 32) (ra : Fin 32) (size : Fin 4) (imm : BitVec 32) (s : State) : ∃ t_, execLds n rd ra size imm s = .next t_ ∧ Keep [.od, .host, .hostMem, .land, .flit, .falt, .trc, .cores, .newels, .mem, .bal, .clok, .ledg, .vest, .vid] s t_ := by
  refine ⟨_, rfl, ?_⟩
  · have hts := within_self ([.od, .host, .hostMem, .land, .flit, .falt, .trc, .cores, .newels, .mem, .bal, .clok, .ledg, .vest, .vid] : List Field)
    have hk : Keep [.od, .host, .hostMem, .land, .flit, .falt, .trc, .cores, .newels, .mem, .bal, .clok, .ledg, .vest, .vid] s s := Keep.rfl' _
    refine Shown.out ?_
    simp (disch :=
      repeat' first
        | with_reducible assumption
        | with_reducible exact within_trans hts (by decide)
        | with_reducible exact fun _ => rfl
        | exact fun h_ => absurd (within_mem hts (by decide)) h_
        | with_reducible exact within_mem hts (by decide)
        | with_reducible apply load_keep
        | with_reducible apply next_keep
        | with_reducible apply Keep.wr
        | with_reducible apply Keep.wrBytes
        | with_reducible apply Keep.foldN
        | with_reducible apply Keep.foldl
        | intro _
        | fail_if_no_progress with_reducible refine Keep.upd ?_ rfl rfl rfl rfl
        | fail_if_no_progress with_reducible refine Keep.draw ?_ rfl rfl rfl rfl
        | split
        | extract_lets
        | (dsimp +zetaDelta only)) only [↓Shown.eq]

theorem store_keep {fs : List Field} {s0 : State} (s : State) (n : Nat) (rs : Nat) (ra : Nat) (len : Nat) (imm : BitVec 32) (hk : Keep fs s0 s) (hts : Within [.od, .host, .hostMem, .land, .flit, .falt, .trc, .cores, .newels, .mem, .bal, .clok, .ledg, .vest, .vid] fs := by first | assumption | exact within_self _ | exact within_trans ‹Within _ _› (by decide) | exact within_of (by decide)) : Keep fs s0 (State.store s n rs ra len imm) := by
    unfold State.store
    refine Shown.out ?_
    simp (disch :=
      repeat' first
        | with_reducible assumption
        | with_reducible exact within_trans hts (by decide)
        | with_reducible exact fun _ => rfl
        | exact fun h_ => absurd (within_mem hts (by decide)) h_
        | with_reducible exact within_mem hts (by decide)
        | with_reducible apply coreExc_keep
        | with_reducible apply issue_keep
        | with_reducible apply next_keep
        | with_reducible apply stageFault_keep
        | with_reducible apply stageLanding_keep
        | (with_reducible refine stageWrite_keepE ‹_› ?_)
        | with_reducible apply stageWrite_keep
        | with_reducible apply Keep.wr
        | with_reducible apply Keep.wrBytes
        | with_reducible apply Keep.foldN
        | with_reducible apply Keep.foldl
        | intro _
        | fail_if_no_progress with_reducible refine Keep.upd ?_ rfl rfl rfl rfl
        | fail_if_no_progress with_reducible refine Keep.draw ?_ rfl rfl rfl rfl
        | split
        | extract_lets
        | (dsimp +zetaDelta only)) only [↓Shown.eq]

theorem execSt_keep (n : Fin 32) (rd : Fin 32) (ra : Fin 32) (size : Fin 4) (imm : BitVec 32) (s : State) : ∃ t_, execSt n rd ra size imm s = .next t_ ∧ Keep [.od, .host, .hostMem, .land, .flit, .falt, .trc, .cores, .newels, .mem, .bal, .clok, .ledg, .vest, .vid] s t_ := by
  refine ⟨_, rfl, ?_⟩
  · have hts := within_self ([.od, .host, .hostMem, .land, .flit, .falt, .trc, .cores, .newels, .mem, .bal, .clok, .ledg, .vest, .vid] : List Field)
    have hk : Keep [.od, .host, .hostMem, .land, .flit, .falt, .trc, .cores, .newels, .mem, .bal, .clok, .ledg, .vest, .vid] s s := Keep.rfl' _
    refine Shown.out ?_
    simp (disch :=
      repeat' first
        | with_reducible assumption
        | with_reducible exact within_trans hts (by decide)
        | with_reducible exact fun _ => rfl
        | exact fun h_ => absurd (within_mem hts (by decide)) h_
        | with_reducible exact within_mem hts (by decide)
        | with_reducible apply next_keep
        | with_reducible apply store_keep
        | with_reducible apply Keep.wr
        | with_reducible apply Keep.wrBytes
        | with_reducible apply Keep.foldN
        | with_reducible apply Keep.foldl
        | intro _
        | fail_if_no_progress with_reducible refine Keep.upd ?_ rfl rfl rfl rfl
        | fail_if_no_progress with_reducible refine Keep.draw ?_ rfl rfl rfl rfl
        | split
        | extract_lets
        | (dsimp +zetaDelta only)) only [↓Shown.eq]

theorem execReservedOp_keep (n : Fin 32) (op : Byte) (s : State) : ∃ t_, execReservedOp n op s = .next t_ ∧ Keep [.od, .host, .hostMem, .land, .flit, .falt, .trc, .cores, .newels, .mem, .bal, .clok, .ledg, .vest, .vid] s t_ := by
  refine ⟨_, rfl, ?_⟩
  · have hts := within_self ([.od, .host, .hostMem, .land, .flit, .falt, .trc, .cores, .newels, .mem, .bal, .clok, .ledg, .vest, .vid] : List Field)
    have hk : Keep [.od, .host, .hostMem, .land, .flit, .falt, .trc, .cores, .newels, .mem, .bal, .clok, .ledg, .vest, .vid] s s := Keep.rfl' _
    refine Shown.out ?_
    simp (disch :=
      repeat' first
        | with_reducible assumption
        | with_reducible exact within_trans hts (by decide)
        | with_reducible exact fun _ => rfl
        | exact fun h_ => absurd (within_mem hts (by decide)) h_
        | with_reducible exact within_mem hts (by decide)
        | with_reducible apply coreExc_keep
        | with_reducible apply issue_keep
        | with_reducible apply next_keep
        | with_reducible apply Keep.wr
        | with_reducible apply Keep.wrBytes
        | with_reducible apply Keep.foldN
        | with_reducible apply Keep.foldl
        | intro _
        | fail_if_no_progress with_reducible refine Keep.upd ?_ rfl rfl rfl rfl
        | fail_if_no_progress with_reducible refine Keep.draw ?_ rfl rfl rfl rfl
        | split
        | extract_lets
        | (dsimp +zetaDelta only)) only [↓Shown.eq]

end Sys2Proof.Machine
end

