-- ==== Sys2Proof/Laws/KeepCoreVector.lean ====
section
/-!
SUPPORT. The operations of CoreVector.lean keep the machine well.
-/

set_option Elab.async false

namespace Sys2Proof.Machine

set_option linter.all false

theorem vecOp_keep {fs : List Field} {s0 : State} (s : State) (n : Nat) (vd : Nat) (va : Nat) (vb : Nat) (pred : Nat) (legal : Bool) (f : Lane → Lane → Lane → Lane → Lane) (hk : Keep fs s0 s) (hts : Within [.od, .host, .hostMem, .land, .flit, .falt, .trc, .cores, .newels, .mem, .bal, .clok, .ledg, .vest, .vid] fs := by first | assumption | exact within_self _ | exact within_trans ‹Within _ _› (by decide) | exact within_of (by decide)) : Keep fs s0 (State.vecOp s n vd va vb pred legal f) := by
    unfold State.vecOp
    refine Shown.out ?_
    simp (disch :=
      repeat' first
        | with_reducible assumption
        | with_reducible exact within_trans hts (by decide)
        | with_reducible exact fun _ => rfl
        | exact fun h_ => absurd (within_mem hts (by decide)) h_
        | with_reducible exact within_mem hts (by decide)
        | with_reducible apply coreExc_keep
        | with_reducible apply issue_keep
        | with_reducible apply nextWith_keep
        | with_reducible apply Keep.wr
        | with_reducible apply Keep.wrBytes
        | with_reducible apply Keep.foldN
        | with_reducible apply Keep.foldl
        | intro _
        | fail_if_no_progress with_reducible refine Keep.upd ?_ rfl rfl rfl rfl
        | fail_if_no_progress with_reducible refine Keep.draw ?_ rfl rfl rfl rfl
        | split
        | extract_lets
        | (dsimp +zetaDelta only)) only [↓Shown.eq]

theorem vecArith_keep {fs : List Field} {s0 : State} (s : State) (n : Nat) (vd : Nat) (va : Nat) (vb : Nat) (pred : Nat) (ty : Nat) (op : LaneOp) (hk : Keep fs s0 s) (hts : Within [.od, .host, .hostMem, .land, .flit, .falt, .trc, .cores, .newels, .mem, .bal, .clok, .ledg, .vest, .vid] fs := by first | assumption | exact within_self _ | exact within_trans ‹Within _ _› (by decide) | exact within_of (by decide)) : Keep fs s0 (State.vecArith s n vd va vb pred ty op) := by
    unfold State.vecArith
    refine Shown.out ?_
    simp (disch :=
      repeat' first
        | with_reducible assumption
        | with_reducible exact within_trans hts (by decide)
        | with_reducible exact fun _ => rfl
        | exact fun h_ => absurd (within_mem hts (by decide)) h_
        | with_reducible exact within_mem hts (by decide)
        | with_reducible apply vecOp_keep
        | with_reducible apply Keep.wr
        | with_reducible apply Keep.wrBytes
        | with_reducible apply Keep.foldN
        | with_reducible apply Keep.foldl
        | intro _
        | fail_if_no_progress with_reducible refine Keep.upd ?_ rfl rfl rfl rfl
        | fail_if_no_progress with_reducible refine Keep.draw ?_ rfl rfl rfl rfl
        | split
        | extract_lets
        | (dsimp +zetaDelta only)) only [↓Shown.eq]

theorem execVadd_keep (n : Fin 32) (vd : Fin 32) (va : Fin 32) (vb : Fin 32) (pred : Fin 8) (ty : Fin 8) (func_ : Fin 8) (imm_ : BitVec 32) (s : State) : ∃ t_, execVadd n vd va vb pred ty func_ imm_ s = .next t_ ∧ Keep [.od, .host, .hostMem, .land, .flit, .falt, .trc, .cores, .newels, .mem, .bal, .clok, .ledg, .vest, .vid] s t_ := by
  refine ⟨_, rfl, ?_⟩
  · have hts := within_self ([.od, .host, .hostMem, .land, .flit, .falt, .trc, .cores, .newels, .mem, .bal, .clok, .ledg, .vest, .vid] : List Field)
    have hk : Keep [.od, .host, .hostMem, .land, .flit, .falt, .trc, .cores, .newels, .mem, .bal, .clok, .ledg, .vest, .vid] s s := Keep.rfl' _
    refine Shown.out ?_
    simp (disch :=
      repeat' first
        | with_reducible assumption
        | with_reducible exact within_trans hts (by decide)
        | with_reducible exact fun _ => rfl
        | exact fun h_ => absurd (within_mem hts (by decide)) h_
        | with_reducible exact within_mem hts (by decide)
        | with_reducible apply next_keep
        | with_reducible apply vecArith_keep
        | with_reducible apply Keep.wr
        | with_reducible apply Keep.wrBytes
        | with_reducible apply Keep.foldN
        | with_reducible apply Keep.foldl
        | intro _
        | fail_if_no_progress with_reducible refine Keep.upd ?_ rfl rfl rfl rfl
        | fail_if_no_progress with_reducible refine Keep.draw ?_ rfl rfl rfl rfl
        | split
        | extract_lets
        | (dsimp +zetaDelta only)) only [↓Shown.eq]

theorem execVsub_keep (n : Fin 32) (vd : Fin 32) (va : Fin 32) (vb : Fin 32) (pred : Fin 8) (ty : Fin 8) (func_ : Fin 8) (imm_ : BitVec 32) (s : State) : ∃ t_, execVsub n vd va vb pred ty func_ imm_ s = .next t_ ∧ Keep [.od, .host, .hostMem, .land, .flit, .falt, .trc, .cores, .newels, .mem, .bal, .clok, .ledg, .vest, .vid] s t_ := by
  refine ⟨_, rfl, ?_⟩
  · have hts := within_self ([.od, .host, .hostMem, .land, .flit, .falt, .trc, .cores, .newels, .mem, .bal, .clok, .ledg, .vest, .vid] : List Field)
    have hk : Keep [.od, .host, .hostMem, .land, .flit, .falt, .trc, .cores, .newels, .mem, .bal, .clok, .ledg, .vest, .vid] s s := Keep.rfl' _
    refine Shown.out ?_
    simp (disch :=
      repeat' first
        | with_reducible assumption
        | with_reducible exact within_trans hts (by decide)
        | with_reducible exact fun _ => rfl
        | exact fun h_ => absurd (within_mem hts (by decide)) h_
        | with_reducible exact within_mem hts (by decide)
        | with_reducible apply next_keep
        | with_reducible apply vecArith_keep
        | with_reducible apply Keep.wr
        | with_reducible apply Keep.wrBytes
        | with_reducible apply Keep.foldN
        | with_reducible apply Keep.foldl
        | intro _
        | fail_if_no_progress with_reducible refine Keep.upd ?_ rfl rfl rfl rfl
        | fail_if_no_progress with_reducible refine Keep.draw ?_ rfl rfl rfl rfl
        | split
        | extract_lets
        | (dsimp +zetaDelta only)) only [↓Shown.eq]

theorem execVmul_keep (n : Fin 32) (vd : Fin 32) (va : Fin 32) (vb : Fin 32) (pred : Fin 8) (ty : Fin 8) (func_ : Fin 8) (imm_ : BitVec 32) (s : State) : ∃ t_, execVmul n vd va vb pred ty func_ imm_ s = .next t_ ∧ Keep [.od, .host, .hostMem, .land, .flit, .falt, .trc, .cores, .newels, .mem, .bal, .clok, .ledg, .vest, .vid] s t_ := by
  refine ⟨_, rfl, ?_⟩
  · have hts := within_self ([.od, .host, .hostMem, .land, .flit, .falt, .trc, .cores, .newels, .mem, .bal, .clok, .ledg, .vest, .vid] : List Field)
    have hk : Keep [.od, .host, .hostMem, .land, .flit, .falt, .trc, .cores, .newels, .mem, .bal, .clok, .ledg, .vest, .vid] s s := Keep.rfl' _
    refine Shown.out ?_
    simp (disch :=
      repeat' first
        | with_reducible assumption
        | with_reducible exact within_trans hts (by decide)
        | with_reducible exact fun _ => rfl
        | exact fun h_ => absurd (within_mem hts (by decide)) h_
        | with_reducible exact within_mem hts (by decide)
        | with_reducible apply next_keep
        | with_reducible apply vecArith_keep
        | with_reducible apply Keep.wr
        | with_reducible apply Keep.wrBytes
        | with_reducible apply Keep.foldN
        | with_reducible apply Keep.foldl
        | intro _
        | fail_if_no_progress with_reducible refine Keep.upd ?_ rfl rfl rfl rfl
        | fail_if_no_progress with_reducible refine Keep.draw ?_ rfl rfl rfl rfl
        | split
        | extract_lets
        | (dsimp +zetaDelta only)) only [↓Shown.eq]

theorem execVfma_keep (n : Fin 32) (vd : Fin 32) (va : Fin 32) (vb : Fin 32) (pred : Fin 8) (ty : Fin 8) (func_ : Fin 8) (imm_ : BitVec 32) (s : State) : ∃ t_, execVfma n vd va vb pred ty func_ imm_ s = .next t_ ∧ Keep [.od, .host, .hostMem, .land, .flit, .falt, .trc, .cores, .newels, .mem, .bal, .clok, .ledg, .vest, .vid] s t_ := by
  refine ⟨_, rfl, ?_⟩
  · have hts := within_self ([.od, .host, .hostMem, .land, .flit, .falt, .trc, .cores, .newels, .mem, .bal, .clok, .ledg, .vest, .vid] : List Field)
    have hk : Keep [.od, .host, .hostMem, .land, .flit, .falt, .trc, .cores, .newels, .mem, .bal, .clok, .ledg, .vest, .vid] s s := Keep.rfl' _
    refine Shown.out ?_
    simp (disch :=
      repeat' first
        | with_reducible assumption
        | with_reducible exact within_trans hts (by decide)
        | with_reducible exact fun _ => rfl
        | exact fun h_ => absurd (within_mem hts (by decide)) h_
        | with_reducible exact within_mem hts (by decide)
        | with_reducible apply next_keep
        | with_reducible apply vecArith_keep
        | with_reducible apply Keep.wr
        | with_reducible apply Keep.wrBytes
        | with_reducible apply Keep.foldN
        | with_reducible apply Keep.foldl
        | intro _
        | fail_if_no_progress with_reducible refine Keep.upd ?_ rfl rfl rfl rfl
        | fail_if_no_progress with_reducible refine Keep.draw ?_ rfl rfl rfl rfl
        | split
        | extract_lets
        | (dsimp +zetaDelta only)) only [↓Shown.eq]

theorem execVmin_keep (n : Fin 32) (vd : Fin 32) (va : Fin 32) (vb : Fin 32) (pred : Fin 8) (ty : Fin 8) (func_ : Fin 8) (imm_ : BitVec 32) (s : State) : ∃ t_, execVmin n vd va vb pred ty func_ imm_ s = .next t_ ∧ Keep [.od, .host, .hostMem, .land, .flit, .falt, .trc, .cores, .newels, .mem, .bal, .clok, .ledg, .vest, .vid] s t_ := by
  refine ⟨_, rfl, ?_⟩
  · have hts := within_self ([.od, .host, .hostMem, .land, .flit, .falt, .trc, .cores, .newels, .mem, .bal, .clok, .ledg, .vest, .vid] : List Field)
    have hk : Keep [.od, .host, .hostMem, .land, .flit, .falt, .trc, .cores, .newels, .mem, .bal, .clok, .ledg, .vest, .vid] s s := Keep.rfl' _
    refine Shown.out ?_
    simp (disch :=
      repeat' first
        | with_reducible assumption
        | with_reducible exact within_trans hts (by decide)
        | with_reducible exact fun _ => rfl
        | exact fun h_ => absurd (within_mem hts (by decide)) h_
        | with_reducible exact within_mem hts (by decide)
        | with_reducible apply next_keep
        | with_reducible apply vecArith_keep
        | with_reducible apply Keep.wr
        | with_reducible apply Keep.wrBytes
        | with_reducible apply Keep.foldN
        | with_reducible apply Keep.foldl
        | intro _
        | fail_if_no_progress with_reducible refine Keep.upd ?_ rfl rfl rfl rfl
        | fail_if_no_progress with_reducible refine Keep.draw ?_ rfl rfl rfl rfl
        | split
        | extract_lets
        | (dsimp +zetaDelta only)) only [↓Shown.eq]

theorem execVmax_keep (n : Fin 32) (vd : Fin 32) (va : Fin 32) (vb : Fin 32) (pred : Fin 8) (ty : Fin 8) (func_ : Fin 8) (imm_ : BitVec 32) (s : State) : ∃ t_, execVmax n vd va vb pred ty func_ imm_ s = .next t_ ∧ Keep [.od, .host, .hostMem, .land, .flit, .falt, .trc, .cores, .newels, .mem, .bal, .clok, .ledg, .vest, .vid] s t_ := by
  refine ⟨_, rfl, ?_⟩
  · have hts := within_self ([.od, .host, .hostMem, .land, .flit, .falt, .trc, .cores, .newels, .mem, .bal, .clok, .ledg, .vest, .vid] : List Field)
    have hk : Keep [.od, .host, .hostMem, .land, .flit, .falt, .trc, .cores, .newels, .mem, .bal, .clok, .ledg, .vest, .vid] s s := Keep.rfl' _
    refine Shown.out ?_
    simp (disch :=
      repeat' first
        | with_reducible assumption
        | with_reducible exact within_trans hts (by decide)
        | with_reducible exact fun _ => rfl
        | exact fun h_ => absurd (within_mem hts (by decide)) h_
        | with_reducible exact within_mem hts (by decide)
        | with_reducible apply next_keep
        | with_reducible apply vecArith_keep
        | with_reducible apply Keep.wr
        | with_reducible apply Keep.wrBytes
        | with_reducible apply Keep.foldN
        | with_reducible apply Keep.foldl
        | intro _
        | fail_if_no_progress with_reducible refine Keep.upd ?_ rfl rfl rfl rfl
        | fail_if_no_progress with_reducible refine Keep.draw ?_ rfl rfl rfl rfl
        | split
        | extract_lets
        | (dsimp +zetaDelta only)) only [↓Shown.eq]

theorem execVand_keep (n : Fin 32) (vd : Fin 32) (va : Fin 32) (vb : Fin 32) (pred : Fin 8) (ty_ : Fin 8) (func_ : Fin 8) (imm_ : BitVec 32) (s : State) : ∃ t_, execVand n vd va vb pred ty_ func_ imm_ s = .next t_ ∧ Keep [.od, .host, .hostMem, .land, .flit, .falt, .trc, .cores, .newels, .mem, .bal, .clok, .ledg, .vest, .vid] s t_ := by
  refine ⟨_, rfl, ?_⟩
  · have hts := within_self ([.od, .host, .hostMem, .land, .flit, .falt, .trc, .cores, .newels, .mem, .bal, .clok, .ledg, .vest, .vid] : List Field)
    have hk : Keep [.od, .host, .hostMem, .land, .flit, .falt, .trc, .cores, .newels, .mem, .bal, .clok, .ledg, .vest, .vid] s s := Keep.rfl' _
    refine Shown.out ?_
    simp (disch :=
      repeat' first
        | with_reducible assumption
        | with_reducible exact within_trans hts (by decide)
        | with_reducible exact fun _ => rfl
        | exact fun h_ => absurd (within_mem hts (by decide)) h_
        | with_reducible exact within_mem hts (by decide)
        | with_reducible apply next_keep
        | with_reducible apply vecOp_keep
        | with_reducible apply Keep.wr
        | with_reducible apply Keep.wrBytes
        | with_reducible apply Keep.foldN
        | with_reducible apply Keep.foldl
        | intro _
        | fail_if_no_progress with_reducible refine Keep.upd ?_ rfl rfl rfl rfl
        | fail_if_no_progress with_reducible refine Keep.draw ?_ rfl rfl rfl rfl
        | split
        | extract_lets
        | (dsimp +zetaDelta only)) only [↓Shown.eq]

theorem execVor_keep (n : Fin 32) (vd : Fin 32) (va : Fin 32) (vb : Fin 32) (pred : Fin 8) (ty_ : Fin 8) (func_ : Fin 8) (imm_ : BitVec 32) (s : State) : ∃ t_, execVor n vd va vb pred ty_ func_ imm_ s = .next t_ ∧ Keep [.od, .host, .hostMem, .land, .flit, .falt, .trc, .cores, .newels, .mem, .bal, .clok, .ledg, .vest, .vid] s t_ := by
  refine ⟨_, rfl, ?_⟩
  · have hts := within_self ([.od, .host, .hostMem, .land, .flit, .falt, .trc, .cores, .newels, .mem, .bal, .clok, .ledg, .vest, .vid] : List Field)
    have hk : Keep [.od, .host, .hostMem, .land, .flit, .falt, .trc, .cores, .newels, .mem, .bal, .clok, .ledg, .vest, .vid] s s := Keep.rfl' _
    refine Shown.out ?_
    simp (disch :=
      repeat' first
        | with_reducible assumption
        | with_reducible exact within_trans hts (by decide)
        | with_reducible exact fun _ => rfl
        | exact fun h_ => absurd (within_mem hts (by decide)) h_
        | with_reducible exact within_mem hts (by decide)
        | with_reducible apply next_keep
        | with_reducible apply vecOp_keep
        | with_reducible apply Keep.wr
        | with_reducible apply Keep.wrBytes
        | with_reducible apply Keep.foldN
        | with_reducible apply Keep.foldl
        | intro _
        | fail_if_no_progress with_reducible refine Keep.upd ?_ rfl rfl rfl rfl
        | fail_if_no_progress with_reducible refine Keep.draw ?_ rfl rfl rfl rfl
        | split
        | extract_lets
        | (dsimp +zetaDelta only)) only [↓Shown.eq]

theorem execVxor_keep (n : Fin 32) (vd : Fin 32) (va : Fin 32) (vb : Fin 32) (pred : Fin 8) (ty_ : Fin 8) (func_ : Fin 8) (imm_ : BitVec 32) (s : State) : ∃ t_, execVxor n vd va vb pred ty_ func_ imm_ s = .next t_ ∧ Keep [.od, .host, .hostMem, .land, .flit, .falt, .trc, .cores, .newels, .mem, .bal, .clok, .ledg, .vest, .vid] s t_ := by
  refine ⟨_, rfl, ?_⟩
  · have hts := within_self ([.od, .host, .hostMem, .land, .flit, .falt, .trc, .cores, .newels, .mem, .bal, .clok, .ledg, .vest, .vid] : List Field)
    have hk : Keep [.od, .host, .hostMem, .land, .flit, .falt, .trc, .cores, .newels, .mem, .bal, .clok, .ledg, .vest, .vid] s s := Keep.rfl' _
    refine Shown.out ?_
    simp (disch :=
      repeat' first
        | with_reducible assumption
        | with_reducible exact within_trans hts (by decide)
        | with_reducible exact fun _ => rfl
        | exact fun h_ => absurd (within_mem hts (by decide)) h_
        | with_reducible exact within_mem hts (by decide)
        | with_reducible apply next_keep
        | with_reducible apply vecOp_keep
        | with_reducible apply Keep.wr
        | with_reducible apply Keep.wrBytes
        | with_reducible apply Keep.foldN
        | with_reducible apply Keep.foldl
        | intro _
        | fail_if_no_progress with_reducible refine Keep.upd ?_ rfl rfl rfl rfl
        | fail_if_no_progress with_reducible refine Keep.draw ?_ rfl rfl rfl rfl
        | split
        | extract_lets
        | (dsimp +zetaDelta only)) only [↓Shown.eq]

theorem execVsra_keep (n : Fin 32) (vd : Fin 32) (va : Fin 32) (vb : Fin 32) (pred : Fin 8) (ty : Fin 8) (func_ : Fin 8) (imm : BitVec 32) (s : State) : ∃ t_, execVsra n vd va vb pred ty func_ imm s = .next t_ ∧ Keep [.od, .host, .hostMem, .land, .flit, .falt, .trc, .cores, .newels, .mem, .bal, .clok, .ledg, .vest, .vid] s t_ := by
  refine ⟨_, rfl, ?_⟩
  · have hts := within_self ([.od, .host, .hostMem, .land, .flit, .falt, .trc, .cores, .newels, .mem, .bal, .clok, .ledg, .vest, .vid] : List Field)
    have hk : Keep [.od, .host, .hostMem, .land, .flit, .falt, .trc, .cores, .newels, .mem, .bal, .clok, .ledg, .vest, .vid] s s := Keep.rfl' _
    refine Shown.out ?_
    simp (disch :=
      repeat' first
        | with_reducible assumption
        | with_reducible exact within_trans hts (by decide)
        | with_reducible exact fun _ => rfl
        | exact fun h_ => absurd (within_mem hts (by decide)) h_
        | with_reducible exact within_mem hts (by decide)
        | with_reducible apply next_keep
        | with_reducible apply vecOp_keep
        | with_reducible apply Keep.wr
        | with_reducible apply Keep.wrBytes
        | with_reducible apply Keep.foldN
        | with_reducible apply Keep.foldl
        | intro _
        | fail_if_no_progress with_reducible refine Keep.upd ?_ rfl rfl rfl rfl
        | fail_if_no_progress with_reducible refine Keep.draw ?_ rfl rfl rfl rfl
        | split
        | extract_lets
        | (dsimp +zetaDelta only)) only [↓Shown.eq]

theorem execVcvt_keep (n : Fin 32) (vd : Fin 32) (va : Fin 32) (vb : Fin 32) (pred : Fin 8) (ty : Fin 8) (func : Fin 8) (imm_ : BitVec 32) (s : State) : ∃ t_, execVcvt n vd va vb pred ty func imm_ s = .next t_ ∧ Keep [.od, .host, .hostMem, .land, .flit, .falt, .trc, .cores, .newels, .mem, .bal, .clok, .ledg, .vest, .vid] s t_ := by
  refine ⟨_, rfl, ?_⟩
  · have hts := within_self ([.od, .host, .hostMem, .land, .flit, .falt, .trc, .cores, .newels, .mem, .bal, .clok, .ledg, .vest, .vid] : List Field)
    have hk : Keep [.od, .host, .hostMem, .land, .flit, .falt, .trc, .cores, .newels, .mem, .bal, .clok, .ledg, .vest, .vid] s s := Keep.rfl' _
    refine Shown.out ?_
    simp (disch :=
      repeat' first
        | with_reducible assumption
        | with_reducible exact within_trans hts (by decide)
        | with_reducible exact fun _ => rfl
        | exact fun h_ => absurd (within_mem hts (by decide)) h_
        | with_reducible exact within_mem hts (by decide)
        | with_reducible apply next_keep
        | with_reducible apply vecOp_keep
        | with_reducible apply Keep.wr
        | with_reducible apply Keep.wrBytes
        | with_reducible apply Keep.foldN
        | with_reducible apply Keep.foldl
        | intro _
        | fail_if_no_progress with_reducible refine Keep.upd ?_ rfl rfl rfl rfl
        | fail_if_no_progress with_reducible refine Keep.draw ?_ rfl rfl rfl rfl
        | split
        | extract_lets
        | (dsimp +zetaDelta only)) only [↓Shown.eq]

theorem execVcmp_keep (n : Fin 32) (vd : Fin 32) (va : Fin 32) (vb : Fin 32) (pred : Fin 8) (ty : Fin 8) (func : Fin 8) (imm_ : BitVec 32) (s : State) : ∃ t_, execVcmp n vd va vb pred ty func imm_ s = .next t_ ∧ Keep [.od, .host, .hostMem, .land, .flit, .falt, .trc, .cores, .newels, .mem, .bal, .clok, .ledg, .vest, .vid] s t_ := by
  refine ⟨_, rfl, ?_⟩
  · have hts := within_self ([.od, .host, .hostMem, .land, .flit, .falt, .trc, .cores, .newels, .mem, .bal, .clok, .ledg, .vest, .vid] : List Field)
    have hk : Keep [.od, .host, .hostMem, .land, .flit, .falt, .trc, .cores, .newels, .mem, .bal, .clok, .ledg, .vest, .vid] s s := Keep.rfl' _
    refine Shown.out ?_
    simp (disch :=
      repeat' first
        | with_reducible assumption
        | with_reducible exact within_trans hts (by decide)
        | with_reducible exact fun _ => rfl
        | exact fun h_ => absurd (within_mem hts (by decide)) h_
        | with_reducible exact within_mem hts (by decide)
        | with_reducible apply coreExc_keep
        | with_reducible apply issue_keep
        | with_reducible apply next_keep
        | with_reducible apply nextWith_keep
        | with_reducible apply Keep.wr
        | with_reducible apply Keep.wrBytes
        | with_reducible apply Keep.foldN
        | with_reducible apply Keep.foldl
        | intro _
        | fail_if_no_progress with_reducible refine Keep.upd ?_ rfl rfl rfl rfl
        | fail_if_no_progress with_reducible refine Keep.draw ?_ rfl rfl rfl rfl
        | split
        | extract_lets
        | (dsimp +zetaDelta only)) only [↓Shown.eq]

theorem execVsel_keep (n : Fin 32) (vd : Fin 32) (va : Fin 32) (vb : Fin 32) (pred : Fin 8) (ty_ : Fin 8) (func_ : Fin 8) (imm_ : BitVec 32) (s : State) : ∃ t_, execVsel n vd va vb pred ty_ func_ imm_ s = .next t_ ∧ Keep [.od, .host, .hostMem, .land, .flit, .falt, .trc, .cores, .newels, .mem, .bal, .clok, .ledg, .vest, .vid] s t_ := by
  refine ⟨_, rfl, ?_⟩
  · have hts := within_self ([.od, .host, .hostMem, .land, .flit, .falt, .trc, .cores, .newels, .mem, .bal, .clok, .ledg, .vest, .vid] : List Field)
    have hk : Keep [.od, .host, .hostMem, .land, .flit, .falt, .trc, .cores, .newels, .mem, .bal, .clok, .ledg, .vest, .vid] s s := Keep.rfl' _
    refine Shown.out ?_
    simp (disch :=
      repeat' first
        | with_reducible assumption
        | with_reducible exact within_trans hts (by decide)
        | with_reducible exact fun _ => rfl
        | exact fun h_ => absurd (within_mem hts (by decide)) h_
        | with_reducible exact within_mem hts (by decide)
        | with_reducible apply issue_keep
        | with_reducible apply next_keep
        | with_reducible apply nextWith_keep
        | with_reducible apply Keep.wr
        | with_reducible apply Keep.wrBytes
        | with_reducible apply Keep.foldN
        | with_reducible apply Keep.foldl
        | intro _
        | fail_if_no_progress with_reducible refine Keep.upd ?_ rfl rfl rfl rfl
        | fail_if_no_progress with_reducible refine Keep.draw ?_ rfl rfl rfl rfl
        | split
        | extract_lets
        | (dsimp +zetaDelta only)) only [↓Shown.eq]

theorem execVact_keep (n : Fin 32) (vd : Fin 32) (va : Fin 32) (vb : Fin 32) (pred : Fin 8) (ty : Fin 8) (func : Fin 8) (imm_ : BitVec 32) (s : State) : ∃ t_, execVact n vd va vb pred ty func imm_ s = .next t_ ∧ Keep [.od, .host, .hostMem, .land, .flit, .falt, .trc, .cores, .newels, .mem, .bal, .clok, .ledg, .vest, .vid] s t_ := by
  refine ⟨_, rfl, ?_⟩
  · have hts := within_self ([.od, .host, .hostMem, .land, .flit, .falt, .trc, .cores, .newels, .mem, .bal, .clok, .ledg, .vest, .vid] : List Field)
    have hk : Keep [.od, .host, .hostMem, .land, .flit, .falt, .trc, .cores, .newels, .mem, .bal, .clok, .ledg, .vest, .vid] s s := Keep.rfl' _
    refine Shown.out ?_
    simp (disch :=
      repeat' first
        | with_reducible assumption
        | with_reducible exact within_trans hts (by decide)
        | with_reducible exact fun _ => rfl
        | exact fun h_ => absurd (within_mem hts (by decide)) h_
        | with_reducible exact within_mem hts (by decide)
        | with_reducible apply next_keep
        | with_reducible apply vecOp_keep
        | with_reducible apply Keep.wr
        | with_reducible apply Keep.wrBytes
        | with_reducible apply Keep.foldN
        | with_reducible apply Keep.foldl
        | intro _
        | fail_if_no_progress with_reducible refine Keep.upd ?_ rfl rfl rfl rfl
        | fail_if_no_progress with_reducible refine Keep.draw ?_ rfl rfl rfl rfl
        | split
        | extract_lets
        | (dsimp +zetaDelta only)) only [↓Shown.eq]

theorem execVred_keep (n : Fin 32) (vd : Fin 32) (va : Fin 32) (vb_ : Fin 32) (pred : Fin 8) (ty : Fin 8) (func : Fin 8) (imm_ : BitVec 32) (s : State) : ∃ t_, execVred n vd va vb_ pred ty func imm_ s = .next t_ ∧ Keep [.od, .host, .hostMem, .land, .flit, .falt, .trc, .cores, .newels, .mem, .bal, .clok, .ledg, .vest, .vid] s t_ := by
  refine ⟨_, rfl, ?_⟩
  · have hts := within_self ([.od, .host, .hostMem, .land, .flit, .falt, .trc, .cores, .newels, .mem, .bal, .clok, .ledg, .vest, .vid] : List Field)
    have hk : Keep [.od, .host, .hostMem, .land, .flit, .falt, .trc, .cores, .newels, .mem, .bal, .clok, .ledg, .vest, .vid] s s := Keep.rfl' _
    refine Shown.out ?_
    simp (disch :=
      repeat' first
        | with_reducible assumption
        | with_reducible exact within_trans hts (by decide)
        | with_reducible exact fun _ => rfl
        | exact fun h_ => absurd (within_mem hts (by decide)) h_
        | with_reducible exact within_mem hts (by decide)
        | with_reducible apply coreExc_keep
        | with_reducible apply issue_keep
        | with_reducible apply next_keep
        | with_reducible apply nextWith_keep
        | with_reducible apply Keep.wr
        | with_reducible apply Keep.wrBytes
        | with_reducible apply Keep.foldN
        | with_reducible apply Keep.foldl
        | intro _
        | fail_if_no_progress with_reducible refine Keep.upd ?_ rfl rfl rfl rfl
        | fail_if_no_progress with_reducible refine Keep.draw ?_ rfl rfl rfl rfl
        | split
        | extract_lets
        | (dsimp +zetaDelta only)) only [↓Shown.eq]

theorem execVld_keep (n : Fin 32) (vd : Fin 32) (ra : Fin 32) (dtype : Fin 8) (pred : Fin 8) (imm : BitVec 32) (s : State) : ∃ t_, execVld n vd ra dtype pred imm s = .next t_ ∧ Keep [.od, .host, .hostMem, .land, .flit, .falt, .trc, .cores, .newels, .mem, .bal, .clok, .ledg, .vest, .vid] s t_ := by
  refine ⟨_, rfl, ?_⟩
  · have hts := within_self ([.od, .host, .hostMem, .land, .flit, .falt, .trc, .cores, .newels, .mem, .bal, .clok, .ledg, .vest, .vid] : List Field)
    have hk : Keep [.od, .host, .hostMem, .land, .flit, .falt, .trc, .cores, .newels, .mem, .bal, .clok, .ledg, .vest, .vid] s s := Keep.rfl' _
    refine Shown.out ?_
    simp (disch :=
      repeat' first
        | with_reducible assumption
        | with_reducible exact within_trans hts (by decide)
        | with_reducible exact fun _ => rfl
        | exact fun h_ => absurd (within_mem hts (by decide)) h_
        | with_reducible exact within_mem hts (by decide)
        | with_reducible apply coreExc_keep
        | with_reducible apply issue_keep
        | with_reducible apply next_keep
        | with_reducible apply nextWith_keep
        | (with_reducible refine stageLoad_keepE ‹_› ?_)
        | with_reducible apply stageLoad_keep
        | with_reducible apply Keep.wr
        | with_reducible apply Keep.wrBytes
        | with_reducible apply Keep.foldN
        | with_reducible apply Keep.foldl
        | intro _
        | fail_if_no_progress with_reducible refine Keep.upd ?_ rfl rfl rfl rfl
        | fail_if_no_progress with_reducible refine Keep.draw ?_ rfl rfl rfl rfl
        | split
        | extract_lets
        | (dsimp +zetaDelta only)) only [↓Shown.eq]

theorem execVst_keep (n : Fin 32) (vd : Fin 32) (ra : Fin 32) (dtype : Fin 8) (pred : Fin 8) (imm : BitVec 32) (s : State) : ∃ t_, execVst n vd ra dtype pred imm s = .next t_ ∧ Keep [.od, .host, .hostMem, .land, .flit, .falt, .trc, .cores, .newels, .mem, .bal, .clok, .ledg, .vest, .vid] s t_ := by
  refine ⟨_, rfl, ?_⟩
  · have hts := within_self ([.od, .host, .hostMem, .land, .flit, .falt, .trc, .cores, .newels, .mem, .bal, .clok, .ledg, .vest, .vid] : List Field)
    have hk : Keep [.od, .host, .hostMem, .land, .flit, .falt, .trc, .cores, .newels, .mem, .bal, .clok, .ledg, .vest, .vid] s s := Keep.rfl' _
    refine Shown.out ?_
    simp (disch :=
      repeat' first
        | with_reducible assumption
        | with_reducible exact within_trans hts (by decide)
        | with_reducible exact fun _ => rfl
        | exact fun h_ => absurd (within_mem hts (by decide)) h_
        | with_reducible exact within_mem hts (by decide)
        | with_reducible apply coreExc_keep
        | with_reducible apply issue_keep
        | with_reducible apply next_keep
        | (with_reducible refine stageWriteParts_keepE ‹_› ?_)
        | with_reducible apply stageWriteParts_keep
        | with_reducible apply Keep.wr
        | with_reducible apply Keep.wrBytes
        | with_reducible apply Keep.foldN
        | with_reducible apply Keep.foldl
        | intro _
        | fail_if_no_progress with_reducible refine Keep.upd ?_ rfl rfl rfl rfl
        | fail_if_no_progress with_reducible refine Keep.draw ?_ rfl rfl rfl rfl
        | split
        | extract_lets
        | (dsimp +zetaDelta only)) only [↓Shown.eq]

theorem execVbcast_keep (n : Fin 32) (vd : Fin 32) (ra : Fin 32) (dtype_ : Fin 8) (pred : Fin 8) (imm_ : BitVec 32) (s : State) : ∃ t_, execVbcast n vd ra dtype_ pred imm_ s = .next t_ ∧ Keep [.od, .host, .hostMem, .land, .flit, .falt, .trc, .cores, .newels, .mem, .bal, .clok, .ledg, .vest, .vid] s t_ := by
  refine ⟨_, rfl, ?_⟩
  · have hts := within_self ([.od, .host, .hostMem, .land, .flit, .falt, .trc, .cores, .newels, .mem, .bal, .clok, .ledg, .vest, .vid] : List Field)
    have hk : Keep [.od, .host, .hostMem, .land, .flit, .falt, .trc, .cores, .newels, .mem, .bal, .clok, .ledg, .vest, .vid] s s := Keep.rfl' _
    refine Shown.out ?_
    simp (disch :=
      repeat' first
        | with_reducible assumption
        | with_reducible exact within_trans hts (by decide)
        | with_reducible exact fun _ => rfl
        | exact fun h_ => absurd (within_mem hts (by decide)) h_
        | with_reducible exact within_mem hts (by decide)
        | with_reducible apply issue_keep
        | with_reducible apply next_keep
        | with_reducible apply nextWith_keep
        | with_reducible apply Keep.wr
        | with_reducible apply Keep.wrBytes
        | with_reducible apply Keep.foldN
        | with_reducible apply Keep.foldl
        | intro _
        | fail_if_no_progress with_reducible refine Keep.upd ?_ rfl rfl rfl rfl
        | fail_if_no_progress with_reducible refine Keep.draw ?_ rfl rfl rfl rfl
        | split
        | extract_lets
        | (dsimp +zetaDelta only)) only [↓Shown.eq]

theorem execVext_keep (n : Fin 32) (vd : Fin 32) (ra : Fin 32) (dtype_ : Fin 8) (pred_ : Fin 8) (imm : BitVec 32) (s : State) : ∃ t_, execVext n vd ra dtype_ pred_ imm s = .next t_ ∧ Keep [.od, .host, .hostMem, .land, .flit, .falt, .trc, .cores, .newels, .mem, .bal, .clok, .ledg, .vest, .vid] s t_ := by
  refine ⟨_, rfl, ?_⟩
  · have hts := within_self ([.od, .host, .hostMem, .land, .flit, .falt, .trc, .cores, .newels, .mem, .bal, .clok, .ledg, .vest, .vid] : List Field)
    have hk : Keep [.od, .host, .hostMem, .land, .flit, .falt, .trc, .cores, .newels, .mem, .bal, .clok, .ledg, .vest, .vid] s s := Keep.rfl' _
    refine Shown.out ?_
    simp (disch :=
      repeat' first
        | with_reducible assumption
        | with_reducible exact within_trans hts (by decide)
        | with_reducible exact fun _ => rfl
        | exact fun h_ => absurd (within_mem hts (by decide)) h_
        | with_reducible exact within_mem hts (by decide)
        | with_reducible apply issue_keep
        | with_reducible apply next_keep
        | with_reducible apply nextWith_keep
        | with_reducible apply Keep.wr
        | with_reducible apply Keep.wrBytes
        | with_reducible apply Keep.foldN
        | with_reducible apply Keep.foldl
        | intro _
        | fail_if_no_progress with_reducible refine Keep.upd ?_ rfl rfl rfl rfl
        | fail_if_no_progress with_reducible refine Keep.draw ?_ rfl rfl rfl rfl
        | split
        | extract_lets
        | (dsimp +zetaDelta only)) only [↓Shown.eq]

theorem execAccrd_keep (n : Fin 32) (vd : Fin 32) (ra : Fin 32) (dtype_ : Fin 8) (pred : Fin 8) (imm_ : BitVec 32) (s : State) : ∃ t_, execAccrd n vd ra dtype_ pred imm_ s = .next t_ ∧ Keep [.od, .host, .hostMem, .land, .flit, .falt, .trc, .cores, .newels, .mem, .bal, .clok, .ledg, .vest, .vid] s t_ := by
  refine ⟨_, rfl, ?_⟩
  · have hts := within_self ([.od, .host, .hostMem, .land, .flit, .falt, .trc, .cores, .newels, .mem, .bal, .clok, .ledg, .vest, .vid] : List Field)
    have hk : Keep [.od, .host, .hostMem, .land, .flit, .falt, .trc, .cores, .newels, .mem, .bal, .clok, .ledg, .vest, .vid] s s := Keep.rfl' _
    refine Shown.out ?_
    simp (disch :=
      repeat' first
        | with_reducible assumption
        | with_reducible exact within_trans hts (by decide)
        | with_reducible exact fun _ => rfl
        | exact fun h_ => absurd (within_mem hts (by decide)) h_
        | with_reducible exact within_mem hts (by decide)
        | (with_reducible refine accRead_keepE ‹_› ?_)
        | with_reducible apply accRead_keep
        | with_reducible apply arrayExc_keep
        | with_reducible apply issue_keep
        | with_reducible apply nextWith_keep
        | with_reducible apply Keep.wr
        | with_reducible apply Keep.wrBytes
        | with_reducible apply Keep.foldN
        | with_reducible apply Keep.foldl
        | intro _
        | fail_if_no_progress with_reducible refine Keep.upd ?_ rfl rfl rfl rfl
        | fail_if_no_progress with_reducible refine Keep.draw ?_ rfl rfl rfl rfl
        | split
        | extract_lets
        | (dsimp +zetaDelta only)) only [↓Shown.eq]

theorem execAccwr_keep (n : Fin 32) (vd : Fin 32) (ra : Fin 32) (dtype_ : Fin 8) (pred : Fin 8) (imm_ : BitVec 32) (s : State) : ∃ t_, execAccwr n vd ra dtype_ pred imm_ s = .next t_ ∧ Keep [.od, .host, .hostMem, .land, .flit, .falt, .trc, .cores, .newels, .mem, .bal, .clok, .ledg, .vest, .vid] s t_ := by
  refine ⟨_, rfl, ?_⟩
  · have hts := within_self ([.od, .host, .hostMem, .land, .flit, .falt, .trc, .cores, .newels, .mem, .bal, .clok, .ledg, .vest, .vid] : List Field)
    have hk : Keep [.od, .host, .hostMem, .land, .flit, .falt, .trc, .cores, .newels, .mem, .bal, .clok, .ledg, .vest, .vid] s s := Keep.rfl' _
    refine Shown.out ?_
    simp (disch :=
      repeat' first
        | with_reducible assumption
        | with_reducible exact within_trans hts (by decide)
        | with_reducible exact fun _ => rfl
        | exact fun h_ => absurd (within_mem hts (by decide)) h_
        | with_reducible exact within_mem hts (by decide)
        | with_reducible apply issue_keep
        | with_reducible apply next_keep
        | with_reducible apply nextWith_keep
        | with_reducible apply Keep.wr
        | with_reducible apply Keep.wrBytes
        | with_reducible apply Keep.foldN
        | with_reducible apply Keep.foldl
        | with_reducible apply Keep.foldlP
        | with_reducible apply Keep.foldNP
        | (with_reducible refine Keep.ofPair ‹_› (Keep.foldNP _ _ _ ?_ ?_))
        | intro _
        | fail_if_no_progress with_reducible refine Keep.upd ?_ rfl rfl rfl rfl
        | fail_if_no_progress with_reducible refine Keep.draw ?_ rfl rfl rfl rfl
        | split
        | extract_lets
        | (dsimp +zetaDelta only)) only [↓Shown.eq]

theorem execAflags_keep (n : Fin 32) (rc : Fin 32) (ra_ : Fin 32) (rb_ : Fin 32) (dtype_ : Fin 8) (acc : Fin 4) (accum_ : Bool) (rsrc_ : Bool) (rows_ : Byte) (s : State) : ∃ t_, execAflags n rc ra_ rb_ dtype_ acc accum_ rsrc_ rows_ s = .next t_ ∧ Keep [.od, .host, .hostMem, .land, .flit, .falt, .trc, .cores, .newels, .mem, .bal, .clok, .ledg, .vest, .vid] s t_ := by
  refine ⟨_, rfl, ?_⟩
  · have hts := within_self ([.od, .host, .hostMem, .land, .flit, .falt, .trc, .cores, .newels, .mem, .bal, .clok, .ledg, .vest, .vid] : List Field)
    have hk : Keep [.od, .host, .hostMem, .land, .flit, .falt, .trc, .cores, .newels, .mem, .bal, .clok, .ledg, .vest, .vid] s s := Keep.rfl' _
    refine Shown.out ?_
    simp (disch :=
      repeat' first
        | with_reducible assumption
        | with_reducible exact within_trans hts (by decide)
        | with_reducible exact fun _ => rfl
        | exact fun h_ => absurd (within_mem hts (by decide)) h_
        | with_reducible exact within_mem hts (by decide)
        | with_reducible apply issue_keep
        | with_reducible apply next_keep
        | with_reducible apply nextWith_keep
        | with_reducible apply Keep.wr
        | with_reducible apply Keep.wrBytes
        | with_reducible apply Keep.foldN
        | with_reducible apply Keep.foldl
        | intro _
        | fail_if_no_progress with_reducible refine Keep.upd ?_ rfl rfl rfl rfl
        | fail_if_no_progress with_reducible refine Keep.draw ?_ rfl rfl rfl rfl
        | split
        | extract_lets
        | (dsimp +zetaDelta only)) only [↓Shown.eq]

end Sys2Proof.Machine
end

