-- ==== Sys2Proof/Laws/KeepLoader.lean ====
section
/-!
SUPPORT. The operations of Loader.lean keep the machine well.
-/

set_option Elab.async false

namespace Sys2Proof.Machine

set_option linter.all false

theorem loadRead_keep {fs : List Field} {s0 : State} (y0 : Nat) (y1 : State) (y2 : LoadRun) (y3 : Nat) (y4 : List Byte) (hk : Keep fs s0 y1) (hts : Within [.od, .host, .falt, .mem, .bal] fs := by first | assumption | exact within_self _ | exact within_trans ‹Within _ _› (by decide) | exact within_of (by decide)) : Keep fs s0 (State.loadRead y0 y1 y2 y3 y4).2.2 := by
  induction y0 generalizing y1 y2 y3 y4 with
  | zero =>
    unfold State.loadRead
    refine Shown.out ?_
    simp (disch :=
      repeat' first
        | with_reducible assumption
        | with_reducible exact within_trans hts (by decide)
        | with_reducible exact fun _ => rfl
        | exact fun h_ => absurd (within_mem hts (by decide)) h_
        | with_reducible exact within_mem hts (by decide)
        | with_reducible apply errReported_keep
        | (with_reducible refine readOn_keepE ‹_› ?_)
        | with_reducible apply readOn_keep
        | with_reducible apply wr_keep
        | with_reducible apply Keep.wr
        | with_reducible apply Keep.wrBytes
        | with_reducible apply Keep.foldN
        | with_reducible apply Keep.foldl
        | intro _
        | fail_if_no_progress with_reducible refine Keep.upd ?_ rfl rfl rfl rfl
        | fail_if_no_progress with_reducible refine Keep.draw ?_ rfl rfl rfl rfl
        | split
        | extract_lets
        | (dsimp +zetaDelta only)) only [↓Shown.eq]
  | succ n_ ih =>
    unfold State.loadRead
    refine Shown.out ?_
    simp (disch :=
      repeat' first
        | with_reducible assumption
        | with_reducible exact within_trans hts (by decide)
        | with_reducible exact fun _ => rfl
        | exact fun h_ => absurd (within_mem hts (by decide)) h_
        | with_reducible exact within_mem hts (by decide)
        | (with_reducible refine Keep.ofPair ‹_› (ih _ _ _ _ ?_))
        | with_reducible apply ih
        | with_reducible apply errReported_keep
        | (with_reducible refine readOn_keepE ‹_› ?_)
        | with_reducible apply readOn_keep
        | with_reducible apply wr_keep
        | with_reducible apply Keep.wr
        | with_reducible apply Keep.wrBytes
        | with_reducible apply Keep.foldN
        | with_reducible apply Keep.foldl
        | intro _
        | fail_if_no_progress with_reducible refine Keep.upd ?_ rfl rfl rfl rfl
        | fail_if_no_progress with_reducible refine Keep.draw ?_ rfl rfl rfl rfl
        | split
        | extract_lets
        | (dsimp +zetaDelta only)) only [↓Shown.eq]

theorem loadRead_keepE {fs : List Field} {s0 : State} {y0 : Nat} {y1 : State} {y2 : LoadRun} {y3 : Nat} {y4 : List Byte} {r_ : _} {r2_ : _} {t_ : State} (e_ : (State.loadRead y0 y1 y2 y3 y4) = (r_, r2_, t_)) (hk : Keep fs s0 y1) (hts : Within [.od, .host, .falt, .mem, .bal] fs := by first | assumption | exact within_self _ | exact within_trans ‹Within _ _› (by decide) | exact within_of (by decide)) : Keep fs s0 t_ := by
  have key := loadRead_keep y0 y1 y2 y3 y4 hk hts
  rw [e_] at key
  exact key

theorem setLoad_keep {fs : List Field} {s0 : State} (s : State) (r : Option LoadRun) (hk : Keep fs s0 s) (hts : Within [.ldr] fs := by first | assumption | exact within_self _ | exact within_trans ‹Within _ _› (by decide) | exact within_of (by decide)) : Keep fs s0 (State.setLoad s r) := by
    unfold State.setLoad
    refine Shown.out ?_
    simp (disch :=
      repeat' first
        | with_reducible assumption
        | with_reducible exact within_trans hts (by decide)
        | with_reducible exact fun _ => rfl
        | exact fun h_ => absurd (within_mem hts (by decide)) h_
        | with_reducible exact within_mem hts (by decide)
        | with_reducible apply Keep.wr
        | with_reducible apply Keep.wrBytes
        | with_reducible apply Keep.foldN
        | with_reducible apply Keep.foldl
        | intro _
        | fail_if_no_progress with_reducible refine Keep.upd ?_ rfl rfl rfl rfl
        | fail_if_no_progress with_reducible refine Keep.draw ?_ rfl rfl rfl rfl
        | split
        | extract_lets
        | (dsimp +zetaDelta only)) only [↓Shown.eq]

theorem loadEnd_keep {fs : List Field} {s0 : State} (s : State) (r : LoadRun) (f : LoadFail) (hk : Keep fs s0 s) (hts : Within [.od, .odb, .host, .ldr] fs := by first | assumption | exact within_self _ | exact within_trans ‹Within _ _› (by decide) | exact within_of (by decide)) : Keep fs s0 (State.loadEnd s r f) := by
    unfold State.loadEnd
    refine Shown.out ?_
    simp (disch :=
      repeat' first
        | with_reducible assumption
        | with_reducible exact within_trans hts (by decide)
        | with_reducible exact fun _ => rfl
        | exact fun h_ => absurd (within_mem hts (by decide)) h_
        | with_reducible exact within_mem hts (by decide)
        | with_reducible apply bump_keep
        | with_reducible apply imgAbsent_keep
        | with_reducible apply setLoad_keep
        | with_reducible apply signal_keep
        | with_reducible apply wr_keep
        | with_reducible apply Keep.wr
        | with_reducible apply Keep.wrBytes
        | with_reducible apply Keep.foldN
        | with_reducible apply Keep.foldl
        | intro _
        | fail_if_no_progress with_reducible refine Keep.upd ?_ rfl rfl rfl rfl
        | fail_if_no_progress with_reducible refine Keep.draw ?_ rfl rfl rfl rfl
        | split
        | extract_lets
        | (dsimp +zetaDelta only)) only [↓Shown.eq]

theorem loadOk_keep {fs : List Field} {s0 : State} (s : State) (r : LoadRun) (h : List Byte) (hk : Keep fs s0 s) (hts : Within [.od, .odb, .host, .ldr] fs := by first | assumption | exact within_self _ | exact within_trans ‹Within _ _› (by decide) | exact within_of (by decide)) : Keep fs s0 (State.loadOk s r h) := by
    unfold State.loadOk
    refine Shown.out ?_
    simp (disch :=
      repeat' first
        | with_reducible assumption
        | with_reducible exact within_trans hts (by decide)
        | with_reducible exact fun _ => rfl
        | exact fun h_ => absurd (within_mem hts (by decide)) h_
        | with_reducible exact within_mem hts (by decide)
        | with_reducible apply setLoad_keep
        | with_reducible apply signal_keep
        | with_reducible apply wr_keep
        | with_reducible apply wrBytes_keep
        | with_reducible apply Keep.wr
        | with_reducible apply Keep.wrBytes
        | with_reducible apply Keep.foldN
        | with_reducible apply Keep.foldl
        | intro _
        | fail_if_no_progress with_reducible refine Keep.upd ?_ rfl rfl rfl rfl
        | fail_if_no_progress with_reducible refine Keep.draw ?_ rfl rfl rfl rfl
        | split
        | extract_lets
        | (dsimp +zetaDelta only)) only [↓Shown.eq]

theorem loadStep_keep {fs : List Field} {s0 : State} (s : State) (f : LoadRun → State → Except LoadFail Unit × LoadRun × State) (hf : ∀ (a0 : LoadRun) (a1 : State), Keep fs s0 a1 → Keep fs s0 (f a0 a1).2.2) (hk : Keep fs s0 s) (hts : Within [.od, .odb, .host, .ldr] fs := by first | assumption | exact within_self _ | exact within_trans ‹Within _ _› (by decide) | exact within_of (by decide)) : Keep fs s0 (State.loadStep s f) := by
    unfold State.loadStep
    refine Shown.out ?_
    simp (disch :=
      repeat' first
        | with_reducible assumption
        | with_reducible exact within_trans hts (by decide)
        | with_reducible exact fun _ => rfl
        | exact fun h_ => absurd (within_mem hts (by decide)) h_
        | with_reducible exact within_mem hts (by decide)
        | with_reducible apply loadEnd_keep
        | with_reducible apply setLoad_keep
        | (with_reducible refine Keep.ofTriple ‹_› (hf _ _ ?_))
        | with_reducible apply hf
        | with_reducible apply Keep.wr
        | with_reducible apply Keep.wrBytes
        | with_reducible apply Keep.foldN
        | with_reducible apply Keep.foldl
        | intro _
        | fail_if_no_progress with_reducible refine Keep.upd ?_ rfl rfl rfl rfl
        | fail_if_no_progress with_reducible refine Keep.draw ?_ rfl rfl rfl rfl
        | split
        | extract_lets
        | (dsimp +zetaDelta only)) only [↓Shown.eq]

theorem loadTables_keep {fs : List Field} {s0 : State} (r : LoadRun) (s : State) (hk : Keep fs s0 s) (hts : Within [.od, .host, .falt, .mem, .bal] fs := by first | assumption | exact within_self _ | exact within_trans ‹Within _ _› (by decide) | exact within_of (by decide)) : Keep fs s0 (loadTables r s).2.2 := by
    unfold loadTables
    refine Shown.out ?_
    simp (disch :=
      repeat' first
        | with_reducible assumption
        | with_reducible exact within_trans hts (by decide)
        | with_reducible exact fun _ => rfl
        | exact fun h_ => absurd (within_mem hts (by decide)) h_
        | with_reducible exact within_mem hts (by decide)
        | (with_reducible refine loadRead_keepE ‹_› ?_)
        | with_reducible apply loadRead_keep
        | with_reducible apply Keep.wr
        | with_reducible apply Keep.wrBytes
        | with_reducible apply Keep.foldN
        | with_reducible apply Keep.foldl
        | intro _
        | fail_if_no_progress with_reducible refine Keep.upd ?_ rfl rfl rfl rfl
        | fail_if_no_progress with_reducible refine Keep.draw ?_ rfl rfl rfl rfl
        | split
        | extract_lets
        | (dsimp +zetaDelta only)) only [↓Shown.eq]

theorem loadTables_keepE {fs : List Field} {s0 : State} {r : LoadRun} {s : State} {r_ : _} {r2_ : _} {t_ : State} (e_ : (loadTables r s) = (r_, r2_, t_)) (hk : Keep fs s0 s) (hts : Within [.od, .host, .falt, .mem, .bal] fs := by first | assumption | exact within_self _ | exact within_trans ‹Within _ _› (by decide) | exact within_of (by decide)) : Keep fs s0 t_ := by
  have key := loadTables_keep r s hk hts
  rw [e_] at key
  exact key

theorem loadWrite_keep {fs : List Field} {s0 : State} (s : State) (bs : List Byte) (y0 : List Nat) (hk : Keep fs s0 s) (hts : Within [.od, .host, .hostMem, .falt, .mem, .bal] fs := by first | assumption | exact within_self _ | exact within_trans ‹Within _ _› (by decide) | exact within_of (by decide)) : Keep fs s0 (State.loadWrite s bs y0).2 := by
  induction y0 generalizing s with
  | nil =>
    unfold State.loadWrite
    refine Shown.out ?_
    simp (disch :=
      repeat' first
        | with_reducible assumption
        | with_reducible exact within_trans hts (by decide)
        | with_reducible exact fun _ => rfl
        | exact fun h_ => absurd (within_mem hts (by decide)) h_
        | with_reducible exact within_mem hts (by decide)
        | (with_reducible refine memWrite_keepE ‹_› ?_)
        | with_reducible apply memWrite_keep
        | with_reducible apply Keep.wr
        | with_reducible apply Keep.wrBytes
        | with_reducible apply Keep.foldN
        | with_reducible apply Keep.foldl
        | intro _
        | fail_if_no_progress with_reducible refine Keep.upd ?_ rfl rfl rfl rfl
        | fail_if_no_progress with_reducible refine Keep.draw ?_ rfl rfl rfl rfl
        | split
        | extract_lets
        | (dsimp +zetaDelta only)) only [↓Shown.eq]
  | cons b_ l_ ih =>
    unfold State.loadWrite
    refine Shown.out ?_
    simp (disch :=
      repeat' first
        | with_reducible assumption
        | with_reducible exact within_trans hts (by decide)
        | with_reducible exact fun _ => rfl
        | exact fun h_ => absurd (within_mem hts (by decide)) h_
        | with_reducible exact within_mem hts (by decide)
        | (with_reducible refine Keep.ofPair ‹_› (ih _ ?_))
        | with_reducible apply ih
        | (with_reducible refine memWrite_keepE ‹_› ?_)
        | with_reducible apply memWrite_keep
        | with_reducible apply Keep.wr
        | with_reducible apply Keep.wrBytes
        | with_reducible apply Keep.foldN
        | with_reducible apply Keep.foldl
        | intro _
        | fail_if_no_progress with_reducible refine Keep.upd ?_ rfl rfl rfl rfl
        | fail_if_no_progress with_reducible refine Keep.draw ?_ rfl rfl rfl rfl
        | split
        | extract_lets
        | (dsimp +zetaDelta only)) only [↓Shown.eq]

theorem loadWrite_keepE {fs : List Field} {s0 : State} {s : State} {bs : List Byte} {y0 : List Nat} {r_ : _} {t_ : State} (e_ : (State.loadWrite s bs y0) = (r_, t_)) (hk : Keep fs s0 s) (hts : Within [.od, .host, .hostMem, .falt, .mem, .bal] fs := by first | assumption | exact within_self _ | exact within_trans ‹Within _ _› (by decide) | exact within_of (by decide)) : Keep fs s0 t_ := by
  have key := loadWrite_keep s bs y0 hk hts
  rw [e_] at key
  exact key

theorem loadSection_keep {fs : List Field} {s0 : State} (r : LoadRun) (s : State) (hk : Keep fs s0 s) (hts : Within [.od, .host, .hostMem, .falt, .mem, .bal] fs := by first | assumption | exact within_self _ | exact within_trans ‹Within _ _› (by decide) | exact within_of (by decide)) : Keep fs s0 (loadSection r s).2.2 := by
    unfold loadSection
    refine Shown.out ?_
    simp (disch :=
      repeat' first
        | with_reducible assumption
        | with_reducible exact within_trans hts (by decide)
        | with_reducible exact fun _ => rfl
        | exact fun h_ => absurd (within_mem hts (by decide)) h_
        | with_reducible exact within_mem hts (by decide)
        | (with_reducible refine loadRead_keepE ‹_› ?_)
        | with_reducible apply loadRead_keep
        | (with_reducible refine loadWrite_keepE ‹_› ?_)
        | with_reducible apply loadWrite_keep
        | with_reducible apply next_keep
        | with_reducible apply Keep.wr
        | with_reducible apply Keep.wrBytes
        | with_reducible apply Keep.foldN
        | with_reducible apply Keep.foldl
        | intro _
        | fail_if_no_progress with_reducible refine Keep.upd ?_ rfl rfl rfl rfl
        | fail_if_no_progress with_reducible refine Keep.draw ?_ rfl rfl rfl rfl
        | split
        | extract_lets
        | (dsimp +zetaDelta only)) only [↓Shown.eq]

theorem loadSection_keepE {fs : List Field} {s0 : State} {r : LoadRun} {s : State} {r_ : _} {r2_ : _} {t_ : State} (e_ : (loadSection r s) = (r_, r2_, t_)) (hk : Keep fs s0 s) (hts : Within [.od, .host, .hostMem, .falt, .mem, .bal] fs := by first | assumption | exact within_self _ | exact within_trans ‹Within _ _› (by decide) | exact within_of (by decide)) : Keep fs s0 t_ := by
  have key := loadSection_keep r s hk hts
  rw [e_] at key
  exact key

theorem loadSign_keep {fs : List Field} {s0 : State} (s : State) (hk : Keep fs s0 s) (hts : Within [.od, .odb, .host, .falt, .mem, .bal, .ldr] fs := by first | assumption | exact within_self _ | exact within_trans ‹Within _ _› (by decide) | exact within_of (by decide)) : Keep fs s0 (State.loadSign s) := by
    unfold State.loadSign
    refine Shown.out ?_
    simp (disch :=
      repeat' first
        | with_reducible assumption
        | with_reducible exact within_trans hts (by decide)
        | with_reducible exact fun _ => rfl
        | exact fun h_ => absurd (within_mem hts (by decide)) h_
        | with_reducible exact within_mem hts (by decide)
        | with_reducible apply bump_keep
        | with_reducible apply loadEnd_keep
        | with_reducible apply loadOk_keep
        | (with_reducible refine loadRead_keepE ‹_› ?_)
        | with_reducible apply loadRead_keep
        | with_reducible apply next_keep
        | with_reducible apply record_keep
        | with_reducible apply Keep.wr
        | with_reducible apply Keep.wrBytes
        | with_reducible apply Keep.foldN
        | with_reducible apply Keep.foldl
        | intro _
        | fail_if_no_progress with_reducible refine Keep.upd ?_ rfl rfl rfl rfl
        | fail_if_no_progress with_reducible refine Keep.draw ?_ rfl rfl rfl rfl
        | split
        | extract_lets
        | (dsimp +zetaDelta only)) only [↓Shown.eq]

theorem loadCmd_keep {fs : List Field} {s0 : State} (v : Nat) (s : State) (hk : Keep fs s0 s) (hts : Within [.od, .odb, .host, .ldr] fs := by first | assumption | exact within_self _ | exact within_trans ‹Within _ _› (by decide) | exact within_of (by decide)) : Keep fs s0 (State.loadCmd v s).2 := by
    unfold State.loadCmd
    refine Shown.out ?_
    simp (disch :=
      repeat' first
        | with_reducible assumption
        | with_reducible exact within_trans hts (by decide)
        | with_reducible exact fun _ => rfl
        | exact fun h_ => absurd (within_mem hts (by decide)) h_
        | with_reducible exact within_mem hts (by decide)
        | with_reducible apply imgSettle_keep
        | with_reducible apply loadEnd_keep
        | with_reducible apply wr_keep
        | with_reducible apply Keep.wr
        | with_reducible apply Keep.wrBytes
        | with_reducible apply Keep.foldN
        | with_reducible apply Keep.foldl
        | intro _
        | fail_if_no_progress with_reducible refine Keep.upd ?_ rfl rfl rfl rfl
        | fail_if_no_progress with_reducible refine Keep.draw ?_ rfl rfl rfl rfl
        | split
        | extract_lets
        | (dsimp +zetaDelta only)) only [↓Shown.eq]

theorem loadCmd_keepE {fs : List Field} {s0 : State} {v : Nat} {s : State} {r_ : _} {t_ : State} (e_ : (State.loadCmd v s) = (r_, t_)) (hk : Keep fs s0 s) (hts : Within [.od, .odb, .host, .ldr] fs := by first | assumption | exact within_self _ | exact within_trans ‹Within _ _› (by decide) | exact within_of (by decide)) : Keep fs s0 t_ := by
  have key := loadCmd_keep v s hk hts
  rw [e_] at key
  exact key

theorem execLoad_keep (p : Path) (s : State) : ∃ t_, execLoad p s = .next t_ ∧ Keep [.od, .odb, .dict, .host, .falt, .ldr] s t_ := by
  refine ⟨_, rfl, ?_⟩
  · have hts := within_self ([.od, .odb, .dict, .host, .falt, .ldr] : List Field)
    have hk : Keep [.od, .odb, .dict, .host, .falt, .ldr] s s := Keep.rfl' _
    refine Shown.out ?_
    simp (disch :=
      repeat' first
        | with_reducible assumption
        | with_reducible exact within_trans hts (by decide)
        | with_reducible exact fun _ => rfl
        | exact fun h_ => absurd (within_mem hts (by decide)) h_
        | with_reducible exact within_mem hts (by decide)
        | with_reducible apply dictWrite_keep
        | (with_reducible refine loadCmd_keepE ‹_› ?_)
        | with_reducible apply loadCmd_keep
        | with_reducible apply next_keep
        | with_reducible apply Keep.wr
        | with_reducible apply Keep.wrBytes
        | with_reducible apply Keep.foldN
        | with_reducible apply Keep.foldl
        | intro _
        | fail_if_no_progress with_reducible refine Keep.upd ?_ rfl rfl rfl rfl
        | fail_if_no_progress with_reducible refine Keep.draw ?_ rfl rfl rfl rfl
        | split
        | extract_lets
        | (dsimp +zetaDelta only)) only [↓Shown.eq]

theorem execEvict_keep (p : Path) (s : State) : ∃ t_, execEvict p s = .next t_ ∧ Keep [.od, .odb, .dict, .host, .falt, .ldr] s t_ := by
  refine ⟨_, rfl, ?_⟩
  · have hts := within_self ([.od, .odb, .dict, .host, .falt, .ldr] : List Field)
    have hk : Keep [.od, .odb, .dict, .host, .falt, .ldr] s s := Keep.rfl' _
    refine Shown.out ?_
    simp (disch :=
      repeat' first
        | with_reducible assumption
        | with_reducible exact within_trans hts (by decide)
        | with_reducible exact fun _ => rfl
        | exact fun h_ => absurd (within_mem hts (by decide)) h_
        | with_reducible exact within_mem hts (by decide)
        | with_reducible apply dictWrite_keep
        | (with_reducible refine loadCmd_keepE ‹_› ?_)
        | with_reducible apply loadCmd_keep
        | with_reducible apply next_keep
        | with_reducible apply Keep.wr
        | with_reducible apply Keep.wrBytes
        | with_reducible apply Keep.foldN
        | with_reducible apply Keep.foldl
        | intro _
        | fail_if_no_progress with_reducible refine Keep.upd ?_ rfl rfl rfl rfl
        | fail_if_no_progress with_reducible refine Keep.draw ?_ rfl rfl rfl rfl
        | split
        | extract_lets
        | (dsimp +zetaDelta only)) only [↓Shown.eq]

theorem execCancel_keep (p : Path) (s : State) : ∃ t_, execCancel p s = .next t_ ∧ Keep [.od, .odb, .dict, .host, .falt, .ldr] s t_ := by
  refine ⟨_, rfl, ?_⟩
  · have hts := within_self ([.od, .odb, .dict, .host, .falt, .ldr] : List Field)
    have hk : Keep [.od, .odb, .dict, .host, .falt, .ldr] s s := Keep.rfl' _
    refine Shown.out ?_
    simp (disch :=
      repeat' first
        | with_reducible assumption
        | with_reducible exact within_trans hts (by decide)
        | with_reducible exact fun _ => rfl
        | exact fun h_ => absurd (within_mem hts (by decide)) h_
        | with_reducible exact within_mem hts (by decide)
        | with_reducible apply dictWrite_keep
        | (with_reducible refine loadCmd_keepE ‹_› ?_)
        | with_reducible apply loadCmd_keep
        | with_reducible apply next_keep
        | with_reducible apply Keep.wr
        | with_reducible apply Keep.wrBytes
        | with_reducible apply Keep.foldN
        | with_reducible apply Keep.foldl
        | intro _
        | fail_if_no_progress with_reducible refine Keep.upd ?_ rfl rfl rfl rfl
        | fail_if_no_progress with_reducible refine Keep.draw ?_ rfl rfl rfl rfl
        | split
        | extract_lets
        | (dsimp +zetaDelta only)) only [↓Shown.eq]

theorem execLoadTablesRead_keep (s : State) : ∃ t_, execLoadTablesRead s = .next t_ ∧ Keep [.od, .odb, .host, .falt, .mem, .bal, .ldr] s t_ := by
  refine ⟨_, rfl, ?_⟩
  · have hts := within_self ([.od, .odb, .host, .falt, .mem, .bal, .ldr] : List Field)
    have hk : Keep [.od, .odb, .host, .falt, .mem, .bal, .ldr] s s := Keep.rfl' _
    refine Shown.out ?_
    simp (disch :=
      repeat' first
        | with_reducible assumption
        | with_reducible exact within_trans hts (by decide)
        | with_reducible exact fun _ => rfl
        | exact fun h_ => absurd (within_mem hts (by decide)) h_
        | with_reducible exact within_mem hts (by decide)
        | with_reducible apply loadStep_keep
        | with_reducible apply next_keep
        | (with_reducible refine loadTables_keepE ‹_› ?_)
        | with_reducible apply loadTables_keep
        | with_reducible apply Keep.wr
        | with_reducible apply Keep.wrBytes
        | with_reducible apply Keep.foldN
        | with_reducible apply Keep.foldl
        | intro _
        | fail_if_no_progress with_reducible refine Keep.upd ?_ rfl rfl rfl rfl
        | fail_if_no_progress with_reducible refine Keep.draw ?_ rfl rfl rfl rfl
        | split
        | extract_lets
        | (dsimp +zetaDelta only)) only [↓Shown.eq]

theorem execLoadSectionCopied_keep (s : State) : ∃ t_, execLoadSectionCopied s = .next t_ ∧ Keep [.od, .odb, .host, .hostMem, .falt, .mem, .bal, .ldr] s t_ := by
  refine ⟨_, rfl, ?_⟩
  · have hts := within_self ([.od, .odb, .host, .hostMem, .falt, .mem, .bal, .ldr] : List Field)
    have hk : Keep [.od, .odb, .host, .hostMem, .falt, .mem, .bal, .ldr] s s := Keep.rfl' _
    refine Shown.out ?_
    simp (disch :=
      repeat' first
        | with_reducible assumption
        | with_reducible exact within_trans hts (by decide)
        | with_reducible exact fun _ => rfl
        | exact fun h_ => absurd (within_mem hts (by decide)) h_
        | with_reducible exact within_mem hts (by decide)
        | with_reducible apply loadStep_keep
        | with_reducible apply next_keep
        | (with_reducible refine loadSection_keepE ‹_› ?_)
        | with_reducible apply loadSection_keep
        | with_reducible apply Keep.wr
        | with_reducible apply Keep.wrBytes
        | with_reducible apply Keep.foldN
        | with_reducible apply Keep.foldl
        | intro _
        | fail_if_no_progress with_reducible refine Keep.upd ?_ rfl rfl rfl rfl
        | fail_if_no_progress with_reducible refine Keep.draw ?_ rfl rfl rfl rfl
        | split
        | extract_lets
        | (dsimp +zetaDelta only)) only [↓Shown.eq]

theorem execLoadSignatureCheck_keep (s : State) : ∃ t_, execLoadSignatureCheck s = .next t_ ∧ Keep [.od, .odb, .host, .falt, .mem, .bal, .ldr] s t_ := by
  refine ⟨_, rfl, ?_⟩
  · have hts := within_self ([.od, .odb, .host, .falt, .mem, .bal, .ldr] : List Field)
    have hk : Keep [.od, .odb, .host, .falt, .mem, .bal, .ldr] s s := Keep.rfl' _
    refine Shown.out ?_
    simp (disch :=
      repeat' first
        | with_reducible assumption
        | with_reducible exact within_trans hts (by decide)
        | with_reducible exact fun _ => rfl
        | exact fun h_ => absurd (within_mem hts (by decide)) h_
        | with_reducible exact within_mem hts (by decide)
        | with_reducible apply loadSign_keep
        | with_reducible apply next_keep
        | with_reducible apply Keep.wr
        | with_reducible apply Keep.wrBytes
        | with_reducible apply Keep.foldN
        | with_reducible apply Keep.foldl
        | intro _
        | fail_if_no_progress with_reducible refine Keep.upd ?_ rfl rfl rfl rfl
        | fail_if_no_progress with_reducible refine Keep.draw ?_ rfl rfl rfl rfl
        | split
        | extract_lets
        | (dsimp +zetaDelta only)) only [↓Shown.eq]

theorem planStage_keep {fs : List Field} {s0 : State} (s : State) (slot : Nat) (run : Nat) (stage : Nat) (hk : Keep fs s0 s) (hts : Within [.od, .host, .flit, .falt] fs := by first | assumption | exact within_self _ | exact within_trans ‹Within _ _› (by decide) | exact within_of (by decide)) : Keep fs s0 (State.planStage s slot run stage) := by
    unfold State.planStage
    refine Shown.out ?_
    simp (disch :=
      repeat' first
        | with_reducible assumption
        | with_reducible exact within_trans hts (by decide)
        | with_reducible exact fun _ => rfl
        | exact fun h_ => absurd (within_mem hts (by decide)) h_
        | with_reducible exact within_mem hts (by decide)
        | with_reducible apply bump_keep
        | with_reducible apply record_keep
        | with_reducible apply setItem_keep
        | with_reducible apply Keep.wr
        | with_reducible apply Keep.wrBytes
        | with_reducible apply Keep.foldN
        | with_reducible apply Keep.foldl
        | intro _
        | fail_if_no_progress with_reducible refine Keep.upd ?_ rfl rfl rfl rfl
        | fail_if_no_progress with_reducible refine Keep.draw ?_ rfl rfl rfl rfl
        | split
        | extract_lets
        | (dsimp +zetaDelta only)) only [↓Shown.eq]

theorem execTilePlan_keep (slot : Fin 1024) (run : Byte) (stage : Fin 32) (s : State) : ∃ t_, execTilePlan slot run stage s = .next t_ ∧ Keep [.od, .host, .flit, .falt] s t_ := by
  refine ⟨_, rfl, ?_⟩
  · have hts := within_self ([.od, .host, .flit, .falt] : List Field)
    have hk : Keep [.od, .host, .flit, .falt] s s := Keep.rfl' _
    refine Shown.out ?_
    simp (disch :=
      repeat' first
        | with_reducible assumption
        | with_reducible exact within_trans hts (by decide)
        | with_reducible exact fun _ => rfl
        | exact fun h_ => absurd (within_mem hts (by decide)) h_
        | with_reducible exact within_mem hts (by decide)
        | with_reducible apply planStage_keep
        | with_reducible apply Keep.wr
        | with_reducible apply Keep.wrBytes
        | with_reducible apply Keep.foldN
        | with_reducible apply Keep.foldl
        | intro _
        | fail_if_no_progress with_reducible refine Keep.upd ?_ rfl rfl rfl rfl
        | fail_if_no_progress with_reducible refine Keep.draw ?_ rfl rfl rfl rfl
        | split
        | extract_lets
        | (dsimp +zetaDelta only)) only [↓Shown.eq]

end Sys2Proof.Machine
end

