-- ==== Sys2Proof/Laws/KeepTick.lean ====
section
/-!
SUPPORT. The operations of Tick.lean keep the machine well.
-/

set_option Elab.async false

namespace Sys2Proof.Machine

set_option linter.all false

theorem setTick_keep {fs : List Field} {s0 : State} (s : State) (t : Tick) (hk : Keep fs s0 s) (hts : Within [.tick] fs := by first | assumption | exact within_self _ | exact within_trans ‹Within _ _› (by decide) | exact within_of (by decide)) : Keep fs s0 (State.setTick s t) := by
    unfold State.setTick
    refine Shown.out ?_
    simp (disch :=
      repeat' first
        | with_reducible assumption
        | with_reducible exact within_trans hts (by decide)
        | with_reducible exact fun _ => rfl
        | exact fun h_ => absurd (within_mem hts (by decide)) h_
        | with_reducible exact within_mem hts (by decide)
        | with_reducible apply Keep.wr
        | with_reducible apply Keep.wrBytes
        | with_reducible apply Keep.foldN
        | with_reducible apply Keep.foldl
        | intro _
        | fail_if_no_progress with_reducible refine Keep.upd ?_ rfl rfl rfl rfl
        | fail_if_no_progress with_reducible refine Keep.draw ?_ rfl rfl rfl rfl
        | split
        | extract_lets
        | (dsimp +zetaDelta only)) only [↓Shown.eq]

theorem tenCommit_keep {fs : List Field} {s0 : State} (s : State) (t : Nat) (hk : Keep fs s0 s) (hts : Within [.host] fs := by first | assumption | exact within_self _ | exact within_trans ‹Within _ _› (by decide) | exact within_of (by decide)) : Keep fs s0 (State.tenCommit s t) := by
    unfold State.tenCommit
    refine Shown.out ?_
    simp (disch :=
      repeat' first
        | with_reducible assumption
        | with_reducible exact within_trans hts (by decide)
        | with_reducible exact fun _ => rfl
        | exact fun h_ => absurd (within_mem hts (by decide)) h_
        | with_reducible exact within_mem hts (by decide)
        | with_reducible apply setTenSt_keep
        | with_reducible apply tenActivate_keep
        | with_reducible apply tenSettle_keep
        | with_reducible apply Keep.wr
        | with_reducible apply Keep.wrBytes
        | with_reducible apply Keep.foldN
        | with_reducible apply Keep.foldl
        | intro _
        | fail_if_no_progress with_reducible refine Keep.upd ?_ rfl rfl rfl rfl
        | fail_if_no_progress with_reducible refine Keep.draw ?_ rfl rfl rfl rfl
        | split
        | extract_lets
        | (dsimp +zetaDelta only)) only [↓Shown.eq]

theorem portsCommit_keep {fs : List Field} {s0 : State} (s : State) (old : State) (set : Sparse Nat) (hk : Keep fs s0 s) (hts : Within [.od, .host, .hostMem, .falt, .mem, .bal, .ports] fs := by first | assumption | exact within_self _ | exact within_trans ‹Within _ _› (by decide) | exact within_of (by decide)) : Keep fs s0 (State.portsCommit s old set) := by
    unfold State.portsCommit
    refine Shown.out ?_
    simp (disch :=
      repeat' first
        | with_reducible assumption
        | with_reducible exact within_trans hts (by decide)
        | with_reducible exact fun _ => rfl
        | exact fun h_ => absurd (within_mem hts (by decide)) h_
        | with_reducible exact within_mem hts (by decide)
        | with_reducible apply clockCommit_keep
        | with_reducible apply pdmRestart_keep
        | with_reducible apply ringRestart_keep
        | with_reducible apply sensCommit_keep
        | with_reducible apply Keep.wr
        | with_reducible apply Keep.wrBytes
        | with_reducible apply Keep.foldN
        | with_reducible apply Keep.foldl
        | with_reducible apply Keep.foldlP
        | with_reducible apply Keep.foldNP
        | (with_reducible refine Keep.ofPair ‹_› (Keep.foldNP _ _ _ ?_ ?_))
        | intro _
        | fail_if_no_progress with_reducible refine Keep.upd ?_ rfl rfl rfl rfl
        | fail_if_no_progress with_reducible refine Keep.draw ?_ rfl rfl rfl rfl
        | split
        | extract_lets
        | (dsimp +zetaDelta only)) only [↓Shown.eq]

theorem sealCommit_keep {fs : List Field} {s0 : State} (s : State) (old : State) (hk : Keep fs s0 s) (hts : Within [.ledg] fs := by first | assumption | exact within_self _ | exact within_trans ‹Within _ _› (by decide) | exact within_of (by decide)) : Keep fs s0 (State.sealCommit s old) := by
    unfold State.sealCommit
    refine Shown.out ?_
    simp (disch :=
      repeat' first
        | with_reducible assumption
        | with_reducible exact within_trans hts (by decide)
        | with_reducible exact fun _ => rfl
        | exact fun h_ => absurd (within_mem hts (by decide)) h_
        | with_reducible exact within_mem hts (by decide)
        | with_reducible apply sealLeave_keep
        | with_reducible apply Keep.wr
        | with_reducible apply Keep.wrBytes
        | with_reducible apply Keep.foldN
        | with_reducible apply Keep.foldl
        | intro _
        | fail_if_no_progress with_reducible refine Keep.upd ?_ rfl rfl rfl rfl
        | fail_if_no_progress with_reducible refine Keep.draw ?_ rfl rfl rfl rfl
        | split
        | extract_lets
        | (dsimp +zetaDelta only)) only [↓Shown.eq]

theorem unitsCommit_keep {fs : List Field} {s0 : State} (s : State) (old : State) (set : Sparse Nat) (hk : Keep fs s0 s) (hts : Within [.od, .host, .hostMem, .land, .flit, .falt, .trc, .cores, .arr, .mem, .bal, .clok, .ports, .ledg, .vest, .vid] fs := by first | assumption | exact within_self _ | exact within_trans ‹Within _ _› (by decide) | exact within_of (by decide)) : Keep fs s0 (State.unitsCommit s old set) := by
    unfold State.unitsCommit
    refine Shown.out ?_
    simp (disch :=
      repeat' first
        | with_reducible assumption
        | with_reducible exact within_trans hts (by decide)
        | with_reducible exact fun _ => rfl
        | exact fun h_ => absurd (within_mem hts (by decide)) h_
        | with_reducible exact within_mem hts (by decide)
        | with_reducible apply balCommit_keep
        | with_reducible apply decCommit_keep
        | with_reducible apply encCommit_keep
        | with_reducible apply packCommit_keep
        | with_reducible apply pairCommitted_keep
        | with_reducible apply poolCommit_keep
        | with_reducible apply portsCommit_keep
        | with_reducible apply rtCommit_keep
        | with_reducible apply sealCommit_keep
        | with_reducible apply sinkCommit_keep
        | with_reducible apply tenCommit_keep
        | with_reducible apply Keep.wr
        | with_reducible apply Keep.wrBytes
        | with_reducible apply Keep.foldN
        | with_reducible apply Keep.foldl
        | with_reducible apply Keep.foldlP
        | with_reducible apply Keep.foldNP
        | (with_reducible refine Keep.ofPair ‹_› (Keep.foldNP _ _ _ ?_ ?_))
        | intro _
        | fail_if_no_progress with_reducible refine Keep.upd ?_ rfl rfl rfl rfl
        | fail_if_no_progress with_reducible refine Keep.draw ?_ rfl rfl rfl rfl
        | split
        | extract_lets
        | (dsimp +zetaDelta only)) only [↓Shown.eq]

theorem applySet_keep {fs : List Field} {s0 : State} (s : State) (set : Sparse Nat) (hk : Keep fs s0 s) (hts : Within [.od, .dict, .host, .hostMem, .land, .flit, .falt, .trc, .cores, .arr, .mem, .bal, .clok, .ports, .ledg, .vest, .vid] fs := by first | assumption | exact within_self _ | exact within_trans ‹Within _ _› (by decide) | exact within_of (by decide)) : Keep fs s0 (State.applySet s set) := by
    unfold State.applySet
    refine Shown.out ?_
    simp (disch :=
      repeat' first
        | with_reducible assumption
        | with_reducible exact within_trans hts (by decide)
        | with_reducible exact fun _ => rfl
        | exact fun h_ => absurd (within_mem hts (by decide)) h_
        | with_reducible exact within_mem hts (by decide)
        | with_reducible apply unitsCommit_keep
        | with_reducible apply wr_keep
        | with_reducible apply Keep.wr
        | with_reducible apply Keep.wrBytes
        | with_reducible apply Keep.foldN
        | with_reducible apply Keep.foldl
        | with_reducible apply Keep.foldlP
        | with_reducible apply Keep.foldNP
        | (with_reducible refine Keep.ofPair ‹_› (Keep.foldlP _ _ _ ?_ ?_))
        | intro _
        | fail_if_no_progress with_reducible refine Keep.upd ?_ rfl rfl rfl rfl
        | fail_if_no_progress with_reducible refine Keep.draw ?_ rfl rfl rfl rfl
        | split
        | extract_lets
        | (dsimp +zetaDelta only)) only [↓Shown.eq]

theorem runRecord_keep {fs : List Field} {s0 : State} (s : State) (obj : Nat) (run : Nat) (hk : Keep fs s0 s) (hts : Within [.od, .host, .falt] fs := by first | assumption | exact within_self _ | exact within_trans ‹Within _ _› (by decide) | exact within_of (by decide)) : Keep fs s0 (State.runRecord s obj run) := by
    unfold State.runRecord
    refine Shown.out ?_
    simp (disch :=
      repeat' first
        | with_reducible assumption
        | with_reducible exact within_trans hts (by decide)
        | with_reducible exact fun _ => rfl
        | exact fun h_ => absurd (within_mem hts (by decide)) h_
        | with_reducible exact within_mem hts (by decide)
        | with_reducible apply logFault_keep
        | with_reducible apply Keep.wr
        | with_reducible apply Keep.wrBytes
        | with_reducible apply Keep.foldN
        | with_reducible apply Keep.foldl
        | intro _
        | fail_if_no_progress with_reducible refine Keep.upd ?_ rfl rfl rfl rfl
        | fail_if_no_progress with_reducible refine Keep.draw ?_ rfl rfl rfl rfl
        | split
        | extract_lets
        | (dsimp +zetaDelta only)) only [↓Shown.eq]

theorem countRun_keep {fs : List Field} {s0 : State} (s : State) (b : Boundary) (hk : Keep fs s0 s) (hts : Within [.od, .tick, .host, .falt] fs := by first | assumption | exact within_self _ | exact within_trans ‹Within _ _› (by decide) | exact within_of (by decide)) : Keep fs s0 (State.countRun s b) := by
    unfold State.countRun
    refine Shown.out ?_
    simp (disch :=
      repeat' first
        | with_reducible assumption
        | with_reducible exact within_trans hts (by decide)
        | with_reducible exact fun _ => rfl
        | exact fun h_ => absurd (within_mem hts (by decide)) h_
        | with_reducible exact within_mem hts (by decide)
        | with_reducible apply arrival_keep
        | with_reducible apply bump_keep
        | with_reducible apply bumpTo_keep
        | with_reducible apply runRecord_keep
        | with_reducible apply setTick_keep
        | with_reducible apply wr_keep
        | with_reducible apply Keep.wr
        | with_reducible apply Keep.wrBytes
        | with_reducible apply Keep.foldN
        | with_reducible apply Keep.foldl
        | intro _
        | fail_if_no_progress with_reducible refine Keep.upd ?_ rfl rfl rfl rfl
        | fail_if_no_progress with_reducible refine Keep.draw ?_ rfl rfl rfl rfl
        | split
        | extract_lets
        | (dsimp +zetaDelta only)) only [↓Shown.eq]

theorem boundaryStamp_keep {fs : List Field} {s0 : State} (s : State) (b : Boundary) (p : BoundaryPlan) (hk : Keep fs s0 s) (hts : Within [.od, .tick] fs := by first | assumption | exact within_self _ | exact within_trans ‹Within _ _› (by decide) | exact within_of (by decide)) : Keep fs s0 (State.boundaryStamp s b p) := by
    unfold State.boundaryStamp
    refine Shown.out ?_
    simp (disch :=
      repeat' first
        | with_reducible assumption
        | with_reducible exact within_trans hts (by decide)
        | with_reducible exact fun _ => rfl
        | exact fun h_ => absurd (within_mem hts (by decide)) h_
        | with_reducible exact within_mem hts (by decide)
        | with_reducible apply setTick_keep
        | with_reducible apply wr_keep
        | with_reducible apply Keep.wr
        | with_reducible apply Keep.wrBytes
        | with_reducible apply Keep.foldN
        | with_reducible apply Keep.foldl
        | intro _
        | fail_if_no_progress with_reducible refine Keep.upd ?_ rfl rfl rfl rfl
        | fail_if_no_progress with_reducible refine Keep.draw ?_ rfl rfl rfl rfl
        | split
        | extract_lets
        | (dsimp +zetaDelta only)) only [↓Shown.eq]

theorem boundaryTelegram_keep {fs : List Field} {s0 : State} (s : State) (b : Boundary) (stop : Bool) (hk : Keep fs s0 s) (hts : Within [.gq] fs := by first | assumption | exact within_self _ | exact within_trans ‹Within _ _› (by decide) | exact within_of (by decide)) : Keep fs s0 (State.boundaryTelegram s b stop) := by
    unfold State.boundaryTelegram
    refine Shown.out ?_
    simp (disch :=
      repeat' first
        | with_reducible assumption
        | with_reducible exact within_trans hts (by decide)
        | with_reducible exact fun _ => rfl
        | exact fun h_ => absurd (within_mem hts (by decide)) h_
        | with_reducible exact within_mem hts (by decide)
        | with_reducible apply Keep.wr
        | with_reducible apply Keep.wrBytes
        | with_reducible apply Keep.foldN
        | with_reducible apply Keep.foldl
        | intro _
        | fail_if_no_progress with_reducible refine Keep.upd ?_ rfl rfl rfl rfl
        | fail_if_no_progress with_reducible refine Keep.draw ?_ rfl rfl rfl rfl
        | split
        | extract_lets
        | (dsimp +zetaDelta only)) only [↓Shown.eq]

theorem boundaryHead_keep {fs : List Field} {s0 : State} (s : State) (b : Boundary) (p : BoundaryPlan) (hk : Keep fs s0 s) (hts : Within [.od, .tick, .host, .falt, .trc, .gq] fs := by first | assumption | exact within_self _ | exact within_trans ‹Within _ _› (by decide) | exact within_of (by decide)) : Keep fs s0 (State.boundaryHead s b p) := by
    unfold State.boundaryHead
    refine Shown.out ?_
    simp (disch :=
      repeat' first
        | with_reducible assumption
        | with_reducible exact within_trans hts (by decide)
        | with_reducible exact fun _ => rfl
        | exact fun h_ => absurd (within_mem hts (by decide)) h_
        | with_reducible exact within_mem hts (by decide)
        | with_reducible apply boundaryStamp_keep
        | with_reducible apply boundaryTelegram_keep
        | with_reducible apply bump_keep
        | with_reducible apply countRun_keep
        | with_reducible apply signal_keep
        | with_reducible apply traceBoundary_keep
        | with_reducible apply Keep.wr
        | with_reducible apply Keep.wrBytes
        | with_reducible apply Keep.foldN
        | with_reducible apply Keep.foldl
        | intro _
        | fail_if_no_progress with_reducible refine Keep.upd ?_ rfl rfl rfl rfl
        | fail_if_no_progress with_reducible refine Keep.draw ?_ rfl rfl rfl rfl
        | split
        | extract_lets
        | (dsimp +zetaDelta only)) only [↓Shown.eq]

theorem boundaryClose_keep {fs : List Field} {s0 : State} (s : State) (b : Boundary) (p : BoundaryPlan) (hk : Keep fs s0 s) (hts : Within [.od, .odb, .dict, .tick, .host, .hostMem, .land, .flit, .falt, .trc, .cores, .newels, .arr, .mem, .bal, .ldr, .clok, .ports, .ledg, .vest, .vid] fs := by first | assumption | exact within_self _ | exact within_trans ‹Within _ _› (by decide) | exact within_of (by decide)) : Keep fs s0 (State.boundaryClose s b p) := by
    unfold State.boundaryClose
    refine Shown.out ?_
    simp (disch :=
      repeat' first
        | with_reducible assumption
        | with_reducible exact within_trans hts (by decide)
        | with_reducible exact fun _ => rfl
        | exact fun h_ => absurd (within_mem hts (by decide)) h_
        | with_reducible exact within_mem hts (by decide)
        | with_reducible apply applySet_keep
        | with_reducible apply lateAbort_keep
        | with_reducible apply publishPoint_keep
        | with_reducible apply setTick_keep
        | with_reducible apply Keep.wr
        | with_reducible apply Keep.wrBytes
        | with_reducible apply Keep.foldN
        | with_reducible apply Keep.foldl
        | intro _
        | fail_if_no_progress with_reducible refine Keep.upd ?_ rfl rfl rfl rfl
        | fail_if_no_progress with_reducible refine Keep.draw ?_ rfl rfl rfl rfl
        | split
        | extract_lets
        | (dsimp +zetaDelta only)) only [↓Shown.eq]

theorem boundaryOpen_keep {fs : List Field} {s0 : State} (s : State) (p : BoundaryPlan) (hk : Keep fs s0 s) (hts : Within [.od, .odb, .tick, .host, .hostMem, .land, .flit, .falt, .trc, .cores, .newels, .arr, .mem, .bal, .ldr, .clok, .ledg, .vest, .vid, .pow] fs := by first | assumption | exact within_self _ | exact within_trans ‹Within _ _› (by decide) | exact within_of (by decide)) : Keep fs s0 (State.boundaryOpen s p) := by
    unfold State.boundaryOpen
    refine Shown.out ?_
    simp (disch :=
      repeat' first
        | with_reducible assumption
        | with_reducible exact within_trans hts (by decide)
        | with_reducible exact fun _ => rfl
        | exact fun h_ => absurd (within_mem hts (by decide)) h_
        | with_reducible exact within_mem hts (by decide)
        | with_reducible apply admission_keep
        | with_reducible apply bundleLatch_keep
        | with_reducible apply paceSwitch_keep
        | with_reducible apply pairsAll_keep
        | with_reducible apply setTick_keep
        | with_reducible apply startBackground_keep
        | with_reducible apply trim_keep
        | with_reducible apply Keep.wr
        | with_reducible apply Keep.wrBytes
        | with_reducible apply Keep.foldN
        | with_reducible apply Keep.foldl
        | with_reducible apply Keep.foldlP
        | with_reducible apply Keep.foldNP
        | (with_reducible refine Keep.ofPair ‹_› (Keep.foldNP _ _ _ ?_ ?_))
        | intro _
        | fail_if_no_progress with_reducible refine Keep.upd ?_ rfl rfl rfl rfl
        | fail_if_no_progress with_reducible refine Keep.draw ?_ rfl rfl rfl rfl
        | split
        | extract_lets
        | (dsimp +zetaDelta only)) only [↓Shown.eq]

theorem boundary_keep {fs : List Field} {s0 : State} (s : State) (b : Boundary) (hk : Keep fs s0 s) (hts : Within [.od, .odb, .dict, .tick, .host, .hostMem, .land, .flit, .falt, .trc, .cores, .newels, .arr, .mem, .bal, .ldr, .clok, .ports, .ledg, .vest, .vid, .pow, .gq] fs := by first | assumption | exact within_self _ | exact within_trans ‹Within _ _› (by decide) | exact within_of (by decide)) : Keep fs s0 (State.boundary s b) := by
    unfold State.boundary
    refine Shown.out ?_
    simp (disch :=
      repeat' first
        | with_reducible assumption
        | with_reducible exact within_trans hts (by decide)
        | with_reducible exact fun _ => rfl
        | exact fun h_ => absurd (within_mem hts (by decide)) h_
        | with_reducible exact within_mem hts (by decide)
        | with_reducible apply boundaryClose_keep
        | with_reducible apply boundaryHead_keep
        | with_reducible apply boundaryOpen_keep
        | with_reducible apply Keep.wr
        | with_reducible apply Keep.wrBytes
        | with_reducible apply Keep.foldN
        | with_reducible apply Keep.foldl
        | intro _
        | fail_if_no_progress with_reducible refine Keep.upd ?_ rfl rfl rfl rfl
        | fail_if_no_progress with_reducible refine Keep.draw ?_ rfl rfl rfl rfl
        | split
        | extract_lets
        | (dsimp +zetaDelta only)) only [↓Shown.eq]

theorem arrival_keep {fs : List Field} {s0 : State} (s : State) (epoch : Option Nat) (hk : Keep fs s0 s) (hts : Within [.od, .odb, .dict, .tick, .host, .hostMem, .land, .flit, .falt, .trc, .cores, .newels, .arr, .mem, .bal, .ldr, .clok, .ports, .ledg, .vest, .vid, .pow, .gq] fs := by first | assumption | exact within_self _ | exact within_trans ‹Within _ _› (by decide) | exact within_of (by decide)) : Keep fs s0 (State.arrival s epoch) := by
    unfold State.arrival
    refine Shown.out ?_
    simp (disch :=
      repeat' first
        | with_reducible assumption
        | with_reducible exact within_trans hts (by decide)
        | with_reducible exact fun _ => rfl
        | exact fun h_ => absurd (within_mem hts (by decide)) h_
        | with_reducible exact within_mem hts (by decide)
        | with_reducible apply boundary_keep
        | with_reducible apply bump_keep
        | with_reducible apply Keep.wr
        | with_reducible apply Keep.wrBytes
        | with_reducible apply Keep.foldN
        | with_reducible apply Keep.foldl
        | intro _
        | fail_if_no_progress with_reducible refine Keep.upd ?_ rfl rfl rfl rfl
        | fail_if_no_progress with_reducible refine Keep.draw ?_ rfl rfl rfl rfl
        | split
        | extract_lets
        | (dsimp +zetaDelta only)) only [↓Shown.eq]

theorem execTickInEdge_keep (s : State) : ∃ t_, execTickInEdge s = .next t_ ∧ Keep [.od, .odb, .dict, .tick, .host, .hostMem, .land, .flit, .falt, .trc, .cores, .newels, .arr, .mem, .bal, .ldr, .clok, .ports, .ledg, .vest, .vid, .pow, .gq] s t_ := by
  refine ⟨_, rfl, ?_⟩
  · have hts := within_self ([.od, .odb, .dict, .tick, .host, .hostMem, .land, .flit, .falt, .trc, .cores, .newels, .arr, .mem, .bal, .ldr, .clok, .ports, .ledg, .vest, .vid, .pow, .gq] : List Field)
    have hk : Keep [.od, .odb, .dict, .tick, .host, .hostMem, .land, .flit, .falt, .trc, .cores, .newels, .arr, .mem, .bal, .ldr, .clok, .ports, .ledg, .vest, .vid, .pow, .gq] s s := Keep.rfl' _
    refine Shown.out ?_
    simp (disch :=
      repeat' first
        | with_reducible assumption
        | with_reducible exact within_trans hts (by decide)
        | with_reducible exact fun _ => rfl
        | exact fun h_ => absurd (within_mem hts (by decide)) h_
        | with_reducible exact within_mem hts (by decide)
        | with_reducible apply arrival_keep
        | with_reducible apply setTick_keep
        | with_reducible apply Keep.wr
        | with_reducible apply Keep.wrBytes
        | with_reducible apply Keep.foldN
        | with_reducible apply Keep.foldl
        | intro _
        | fail_if_no_progress with_reducible refine Keep.upd ?_ rfl rfl rfl rfl
        | fail_if_no_progress with_reducible refine Keep.draw ?_ rfl rfl rfl rfl
        | split
        | extract_lets
        | (dsimp +zetaDelta only)) only [↓Shown.eq]

theorem sampleTickIn_keep {fs : List Field} {s0 : State} (s : State) (hk : Keep fs s0 s) (hts : Within [.tick] fs := by first | assumption | exact within_self _ | exact within_trans ‹Within _ _› (by decide) | exact within_of (by decide)) : Keep fs s0 (State.sampleTickIn s) := by
    unfold State.sampleTickIn
    refine Shown.out ?_
    simp (disch :=
      repeat' first
        | with_reducible assumption
        | with_reducible exact within_trans hts (by decide)
        | with_reducible exact fun _ => rfl
        | exact fun h_ => absurd (within_mem hts (by decide)) h_
        | with_reducible exact within_mem hts (by decide)
        | with_reducible apply setTick_keep
        | with_reducible apply Keep.wr
        | with_reducible apply Keep.wrBytes
        | with_reducible apply Keep.foldN
        | with_reducible apply Keep.foldl
        | intro _
        | fail_if_no_progress with_reducible refine Keep.upd ?_ rfl rfl rfl rfl
        | fail_if_no_progress with_reducible refine Keep.draw ?_ rfl rfl rfl rfl
        | split
        | extract_lets
        | (dsimp +zetaDelta only)) only [↓Shown.eq]

theorem strikeOrder_keep {fs : List Field} {s0 : State} (v : Nat) (s : State) (hk : Keep fs s0 s) (hts : Within [.od, .odb, .dict, .tick, .host, .hostMem, .land, .flit, .falt, .trc, .cores, .newels, .arr, .mem, .bal, .ldr, .clok, .ports, .ledg, .vest, .vid, .pow, .gq] fs := by first | assumption | exact within_self _ | exact within_trans ‹Within _ _› (by decide) | exact within_of (by decide)) : Keep fs s0 (State.strikeOrder v s).2 := by
    unfold State.strikeOrder
    refine Shown.out ?_
    simp (disch :=
      repeat' first
        | with_reducible assumption
        | with_reducible exact within_trans hts (by decide)
        | with_reducible exact fun _ => rfl
        | exact fun h_ => absurd (within_mem hts (by decide)) h_
        | with_reducible exact within_mem hts (by decide)
        | with_reducible apply arrival_keep
        | with_reducible apply Keep.wr
        | with_reducible apply Keep.wrBytes
        | with_reducible apply Keep.foldN
        | with_reducible apply Keep.foldl
        | intro _
        | fail_if_no_progress with_reducible refine Keep.upd ?_ rfl rfl rfl rfl
        | fail_if_no_progress with_reducible refine Keep.draw ?_ rfl rfl rfl rfl
        | split
        | extract_lets
        | (dsimp +zetaDelta only)) only [↓Shown.eq]

theorem strikeOrder_keepE {fs : List Field} {s0 : State} {v : Nat} {s : State} {r_ : _} {t_ : State} (e_ : (State.strikeOrder v s) = (r_, t_)) (hk : Keep fs s0 s) (hts : Within [.od, .odb, .dict, .tick, .host, .hostMem, .land, .flit, .falt, .trc, .cores, .newels, .arr, .mem, .bal, .ldr, .clok, .ports, .ledg, .vest, .vid, .pow, .gq] fs := by first | assumption | exact within_self _ | exact within_trans ‹Within _ _› (by decide) | exact within_of (by decide)) : Keep fs s0 t_ := by
  have key := strikeOrder_keep v s hk hts
  rw [e_] at key
  exact key

theorem execTickStrike_keep (p : Path) (v : Byte) (s : State) : ∃ t_, execTickStrike p v s = .next t_ ∧ Keep [.od, .odb, .dict, .tick, .host, .hostMem, .land, .flit, .falt, .trc, .cores, .newels, .arr, .mem, .bal, .ldr, .clok, .ports, .ledg, .vest, .vid, .pow, .gq] s t_ := by
  refine ⟨_, rfl, ?_⟩
  · have hts := within_self ([.od, .odb, .dict, .tick, .host, .hostMem, .land, .flit, .falt, .trc, .cores, .newels, .arr, .mem, .bal, .ldr, .clok, .ports, .ledg, .vest, .vid, .pow, .gq] : List Field)
    have hk : Keep [.od, .odb, .dict, .tick, .host, .hostMem, .land, .flit, .falt, .trc, .cores, .newels, .arr, .mem, .bal, .ldr, .clok, .ports, .ledg, .vest, .vid, .pow, .gq] s s := Keep.rfl' _
    refine Shown.out ?_
    simp (disch :=
      repeat' first
        | with_reducible assumption
        | with_reducible exact within_trans hts (by decide)
        | with_reducible exact fun _ => rfl
        | exact fun h_ => absurd (within_mem hts (by decide)) h_
        | with_reducible exact within_mem hts (by decide)
        | with_reducible apply dictWrite_keep
        | with_reducible apply next_keep
        | (with_reducible refine strikeOrder_keepE ‹_› ?_)
        | with_reducible apply strikeOrder_keep
        | with_reducible apply Keep.wr
        | with_reducible apply Keep.wrBytes
        | with_reducible apply Keep.foldN
        | with_reducible apply Keep.foldl
        | intro _
        | fail_if_no_progress with_reducible refine Keep.upd ?_ rfl rfl rfl rfl
        | fail_if_no_progress with_reducible refine Keep.draw ?_ rfl rfl rfl rfl
        | split
        | extract_lets
        | (dsimp +zetaDelta only)) only [↓Shown.eq]

theorem execGqTickPoint_keep (s : State) : ∃ t_, execGqTickPoint s = .next t_ ∧ Keep [.od, .odb, .dict, .tick, .host, .hostMem, .land, .flit, .falt, .trc, .cores, .newels, .arr, .mem, .bal, .ldr, .clok, .ports, .ledg, .vest, .vid, .pow, .gq] s t_ := by
  refine ⟨_, rfl, ?_⟩
  · have hts := within_self ([.od, .odb, .dict, .tick, .host, .hostMem, .land, .flit, .falt, .trc, .cores, .newels, .arr, .mem, .bal, .ldr, .clok, .ports, .ledg, .vest, .vid, .pow, .gq] : List Field)
    have hk : Keep [.od, .odb, .dict, .tick, .host, .hostMem, .land, .flit, .falt, .trc, .cores, .newels, .arr, .mem, .bal, .ldr, .clok, .ports, .ledg, .vest, .vid, .pow, .gq] s s := Keep.rfl' _
    refine Shown.out ?_
    simp (disch :=
      repeat' first
        | with_reducible assumption
        | with_reducible exact within_trans hts (by decide)
        | with_reducible exact fun _ => rfl
        | exact fun h_ => absurd (within_mem hts (by decide)) h_
        | with_reducible exact within_mem hts (by decide)
        | with_reducible apply arrival_keep
        | with_reducible apply next_keep
        | with_reducible apply Keep.wr
        | with_reducible apply Keep.wrBytes
        | with_reducible apply Keep.foldN
        | with_reducible apply Keep.foldl
        | intro _
        | fail_if_no_progress with_reducible refine Keep.upd ?_ rfl rfl rfl rfl
        | fail_if_no_progress with_reducible refine Keep.draw ?_ rfl rfl rfl rfl
        | split
        | extract_lets
        | (dsimp +zetaDelta only)) only [↓Shown.eq]

theorem execPeriodExpiry_keep (s : State) : ∃ t_, execPeriodExpiry s = .next t_ ∧ Keep [.od, .odb, .dict, .tick, .host, .hostMem, .land, .flit, .falt, .trc, .cores, .newels, .arr, .mem, .bal, .ldr, .clok, .ports, .ledg, .vest, .vid, .pow, .gq] s t_ := by
  refine ⟨_, rfl, ?_⟩
  · have hts := within_self ([.od, .odb, .dict, .tick, .host, .hostMem, .land, .flit, .falt, .trc, .cores, .newels, .arr, .mem, .bal, .ldr, .clok, .ports, .ledg, .vest, .vid, .pow, .gq] : List Field)
    have hk : Keep [.od, .odb, .dict, .tick, .host, .hostMem, .land, .flit, .falt, .trc, .cores, .newels, .arr, .mem, .bal, .ldr, .clok, .ports, .ledg, .vest, .vid, .pow, .gq] s s := Keep.rfl' _
    refine Shown.out ?_
    simp (disch :=
      repeat' first
        | with_reducible assumption
        | with_reducible exact within_trans hts (by decide)
        | with_reducible exact fun _ => rfl
        | exact fun h_ => absurd (within_mem hts (by decide)) h_
        | with_reducible exact within_mem hts (by decide)
        | with_reducible apply boundary_keep
        | with_reducible apply next_keep
        | with_reducible apply Keep.wr
        | with_reducible apply Keep.wrBytes
        | with_reducible apply Keep.foldN
        | with_reducible apply Keep.foldl
        | intro _
        | fail_if_no_progress with_reducible refine Keep.upd ?_ rfl rfl rfl rfl
        | fail_if_no_progress with_reducible refine Keep.draw ?_ rfl rfl rfl rfl
        | split
        | extract_lets
        | (dsimp +zetaDelta only)) only [↓Shown.eq]

theorem execFlywheelPoint_keep (s : State) : ∃ t_, execFlywheelPoint s = .next t_ ∧ Keep [.od, .odb, .dict, .tick, .host, .hostMem, .land, .flit, .falt, .trc, .cores, .newels, .arr, .mem, .bal, .ldr, .clok, .ports, .ledg, .vest, .vid, .pow, .gq] s t_ := by
  refine ⟨_, rfl, ?_⟩
  · have hts := within_self ([.od, .odb, .dict, .tick, .host, .hostMem, .land, .flit, .falt, .trc, .cores, .newels, .arr, .mem, .bal, .ldr, .clok, .ports, .ledg, .vest, .vid, .pow, .gq] : List Field)
    have hk : Keep [.od, .odb, .dict, .tick, .host, .hostMem, .land, .flit, .falt, .trc, .cores, .newels, .arr, .mem, .bal, .ldr, .clok, .ports, .ledg, .vest, .vid, .pow, .gq] s s := Keep.rfl' _
    refine Shown.out ?_
    simp (disch :=
      repeat' first
        | with_reducible assumption
        | with_reducible exact within_trans hts (by decide)
        | with_reducible exact fun _ => rfl
        | exact fun h_ => absurd (within_mem hts (by decide)) h_
        | with_reducible exact within_mem hts (by decide)
        | with_reducible apply boundary_keep
        | with_reducible apply next_keep
        | with_reducible apply Keep.wr
        | with_reducible apply Keep.wrBytes
        | with_reducible apply Keep.foldN
        | with_reducible apply Keep.foldl
        | intro _
        | fail_if_no_progress with_reducible refine Keep.upd ?_ rfl rfl rfl rfl
        | fail_if_no_progress with_reducible refine Keep.draw ?_ rfl rfl rfl rfl
        | split
        | extract_lets
        | (dsimp +zetaDelta only)) only [↓Shown.eq]

theorem execAcquireSynthetic_keep (s : State) : ∃ t_, execAcquireSynthetic s = .next t_ ∧ Keep [.od, .odb, .dict, .tick, .host, .hostMem, .land, .flit, .falt, .trc, .cores, .newels, .arr, .mem, .bal, .ldr, .clok, .ports, .ledg, .vest, .vid, .pow, .gq] s t_ := by
  refine ⟨_, rfl, ?_⟩
  · have hts := within_self ([.od, .odb, .dict, .tick, .host, .hostMem, .land, .flit, .falt, .trc, .cores, .newels, .arr, .mem, .bal, .ldr, .clok, .ports, .ledg, .vest, .vid, .pow, .gq] : List Field)
    have hk : Keep [.od, .odb, .dict, .tick, .host, .hostMem, .land, .flit, .falt, .trc, .cores, .newels, .arr, .mem, .bal, .ldr, .clok, .ports, .ledg, .vest, .vid, .pow, .gq] s s := Keep.rfl' _
    refine Shown.out ?_
    simp (disch :=
      repeat' first
        | with_reducible assumption
        | with_reducible exact within_trans hts (by decide)
        | with_reducible exact fun _ => rfl
        | exact fun h_ => absurd (within_mem hts (by decide)) h_
        | with_reducible exact within_mem hts (by decide)
        | with_reducible apply boundary_keep
        | with_reducible apply next_keep
        | with_reducible apply Keep.wr
        | with_reducible apply Keep.wrBytes
        | with_reducible apply Keep.foldN
        | with_reducible apply Keep.foldl
        | intro _
        | fail_if_no_progress with_reducible refine Keep.upd ?_ rfl rfl rfl rfl
        | fail_if_no_progress with_reducible refine Keep.draw ?_ rfl rfl rfl rfl
        | split
        | extract_lets
        | (dsimp +zetaDelta only)) only [↓Shown.eq]

theorem commitNow_keep {fs : List Field} {s0 : State} (s : State) (hk : Keep fs s0 s) (hts : Within [.od, .odb, .dict, .tick, .host, .hostMem, .land, .flit, .falt, .trc, .cores, .newels, .arr, .mem, .bal, .ldr, .clok, .ports, .ledg, .vest, .vid, .pow, .gq] fs := by first | assumption | exact within_self _ | exact within_trans ‹Within _ _› (by decide) | exact within_of (by decide)) : Keep fs s0 (State.commitNow s) := by
    unfold State.commitNow
    refine Shown.out ?_
    simp (disch :=
      repeat' first
        | with_reducible assumption
        | with_reducible exact within_trans hts (by decide)
        | with_reducible exact fun _ => rfl
        | exact fun h_ => absurd (within_mem hts (by decide)) h_
        | with_reducible exact within_mem hts (by decide)
        | with_reducible apply applySet_keep
        | with_reducible apply boundary_keep
        | with_reducible apply pairsAll_keep
        | with_reducible apply setTick_keep
        | with_reducible apply startBackground_keep
        | with_reducible apply Keep.wr
        | with_reducible apply Keep.wrBytes
        | with_reducible apply Keep.foldN
        | with_reducible apply Keep.foldl
        | intro _
        | fail_if_no_progress with_reducible refine Keep.upd ?_ rfl rfl rfl rfl
        | fail_if_no_progress with_reducible refine Keep.draw ?_ rfl rfl rfl rfl
        | split
        | extract_lets
        | (dsimp +zetaDelta only)) only [↓Shown.eq]

theorem commitOrder_keep {fs : List Field} {s0 : State} (v : Nat) (s : State) (hk : Keep fs s0 s) (hts : Within [.tick] fs := by first | assumption | exact within_self _ | exact within_trans ‹Within _ _› (by decide) | exact within_of (by decide)) : Keep fs s0 (State.commitOrder v s).2 := by
    unfold State.commitOrder
    refine Shown.out ?_
    simp (disch :=
      repeat' first
        | with_reducible assumption
        | with_reducible exact within_trans hts (by decide)
        | with_reducible exact fun _ => rfl
        | exact fun h_ => absurd (within_mem hts (by decide)) h_
        | with_reducible exact within_mem hts (by decide)
        | with_reducible apply setTick_keep
        | with_reducible apply Keep.wr
        | with_reducible apply Keep.wrBytes
        | with_reducible apply Keep.foldN
        | with_reducible apply Keep.foldl
        | intro _
        | fail_if_no_progress with_reducible refine Keep.upd ?_ rfl rfl rfl rfl
        | fail_if_no_progress with_reducible refine Keep.draw ?_ rfl rfl rfl rfl
        | split
        | extract_lets
        | (dsimp +zetaDelta only)) only [↓Shown.eq]

theorem commitOrder_keepE {fs : List Field} {s0 : State} {v : Nat} {s : State} {r_ : _} {t_ : State} (e_ : (State.commitOrder v s) = (r_, t_)) (hk : Keep fs s0 s) (hts : Within [.tick] fs := by first | assumption | exact within_self _ | exact within_trans ‹Within _ _› (by decide) | exact within_of (by decide)) : Keep fs s0 t_ := by
  have key := commitOrder_keep v s hk hts
  rw [e_] at key
  exact key

theorem commitEnd_keep {fs : List Field} {s0 : State} (s : State) (hk : Keep fs s0 s) (hts : Within [.od, .odb, .dict, .tick, .host, .hostMem, .land, .flit, .falt, .trc, .cores, .newels, .arr, .mem, .bal, .ldr, .clok, .ports, .ledg, .vest, .vid, .pow, .gq] fs := by first | assumption | exact within_self _ | exact within_trans ‹Within _ _› (by decide) | exact within_of (by decide)) : Keep fs s0 (State.commitEnd s) := by
    unfold State.commitEnd
    refine Shown.out ?_
    simp (disch :=
      repeat' first
        | with_reducible assumption
        | with_reducible exact within_trans hts (by decide)
        | with_reducible exact fun _ => rfl
        | exact fun h_ => absurd (within_mem hts (by decide)) h_
        | with_reducible exact within_mem hts (by decide)
        | with_reducible apply commitNow_keep
        | with_reducible apply Keep.wr
        | with_reducible apply Keep.wrBytes
        | with_reducible apply Keep.foldN
        | with_reducible apply Keep.foldl
        | intro _
        | fail_if_no_progress with_reducible refine Keep.upd ?_ rfl rfl rfl rfl
        | fail_if_no_progress with_reducible refine Keep.draw ?_ rfl rfl rfl rfl
        | split
        | extract_lets
        | (dsimp +zetaDelta only)) only [↓Shown.eq]

theorem execTickCommit_keep (p : Path) (v : Byte) (s : State) : ∃ t_, execTickCommit p v s = .next t_ ∧ Keep [.od, .dict, .tick, .host, .falt] s t_ := by
  refine ⟨_, rfl, ?_⟩
  · have hts := within_self ([.od, .dict, .tick, .host, .falt] : List Field)
    have hk : Keep [.od, .dict, .tick, .host, .falt] s s := Keep.rfl' _
    refine Shown.out ?_
    simp (disch :=
      repeat' first
        | with_reducible assumption
        | with_reducible exact within_trans hts (by decide)
        | with_reducible exact fun _ => rfl
        | exact fun h_ => absurd (within_mem hts (by decide)) h_
        | with_reducible exact within_mem hts (by decide)
        | (with_reducible refine commitOrder_keepE ‹_› ?_)
        | with_reducible apply commitOrder_keep
        | with_reducible apply dictWrite_keep
        | with_reducible apply next_keep
        | with_reducible apply Keep.wr
        | with_reducible apply Keep.wrBytes
        | with_reducible apply Keep.foldN
        | with_reducible apply Keep.foldl
        | intro _
        | fail_if_no_progress with_reducible refine Keep.upd ?_ rfl rfl rfl rfl
        | fail_if_no_progress with_reducible refine Keep.draw ?_ rfl rfl rfl rfl
        | split
        | extract_lets
        | (dsimp +zetaDelta only)) only [↓Shown.eq]

theorem tickOutEdge_keep {fs : List Field} {s0 : State} (s : State) (hk : Keep fs s0 s) (hts : Within [.tick] fs := by first | assumption | exact within_self _ | exact within_trans ‹Within _ _› (by decide) | exact within_of (by decide)) : Keep fs s0 (State.tickOutEdge s) := by
    unfold State.tickOutEdge
    refine Shown.out ?_
    simp (disch :=
      repeat' first
        | with_reducible assumption
        | with_reducible exact within_trans hts (by decide)
        | with_reducible exact fun _ => rfl
        | exact fun h_ => absurd (within_mem hts (by decide)) h_
        | with_reducible exact within_mem hts (by decide)
        | with_reducible apply setTick_keep
        | with_reducible apply Keep.wr
        | with_reducible apply Keep.wrBytes
        | with_reducible apply Keep.foldN
        | with_reducible apply Keep.foldl
        | intro _
        | fail_if_no_progress with_reducible refine Keep.upd ?_ rfl rfl rfl rfl
        | fail_if_no_progress with_reducible refine Keep.draw ?_ rfl rfl rfl rfl
        | split
        | extract_lets
        | (dsimp +zetaDelta only)) only [↓Shown.eq]

theorem execTickOutPulseEnd_keep (s : State) : ∃ t_, execTickOutPulseEnd s = .next t_ ∧ Keep [.tick] s t_ := by
  refine ⟨_, rfl, ?_⟩
  · have hts := within_self ([.tick] : List Field)
    have hk : Keep [.tick] s s := Keep.rfl' _
    refine Shown.out ?_
    simp (disch :=
      repeat' first
        | with_reducible assumption
        | with_reducible exact within_trans hts (by decide)
        | with_reducible exact fun _ => rfl
        | exact fun h_ => absurd (within_mem hts (by decide)) h_
        | with_reducible exact within_mem hts (by decide)
        | with_reducible apply next_keep
        | with_reducible apply setTick_keep
        | with_reducible apply Keep.wr
        | with_reducible apply Keep.wrBytes
        | with_reducible apply Keep.foldN
        | with_reducible apply Keep.foldl
        | intro _
        | fail_if_no_progress with_reducible refine Keep.upd ?_ rfl rfl rfl rfl
        | fail_if_no_progress with_reducible refine Keep.draw ?_ rfl rfl rfl rfl
        | split
        | extract_lets
        | (dsimp +zetaDelta only)) only [↓Shown.eq]

theorem outModeOrder_keep {fs : List Field} {s0 : State} (v : Nat) (s : State) (hk : Keep fs s0 s) (hts : Within [.od, .tick] fs := by first | assumption | exact within_self _ | exact within_trans ‹Within _ _› (by decide) | exact within_of (by decide)) : Keep fs s0 (State.outModeOrder v s).2 := by
    unfold State.outModeOrder
    refine Shown.out ?_
    simp (disch :=
      repeat' first
        | with_reducible assumption
        | with_reducible exact within_trans hts (by decide)
        | with_reducible exact fun _ => rfl
        | exact fun h_ => absurd (within_mem hts (by decide)) h_
        | with_reducible exact within_mem hts (by decide)
        | with_reducible apply setTick_keep
        | with_reducible apply wr_keep
        | with_reducible apply Keep.wr
        | with_reducible apply Keep.wrBytes
        | with_reducible apply Keep.foldN
        | with_reducible apply Keep.foldl
        | intro _
        | fail_if_no_progress with_reducible refine Keep.upd ?_ rfl rfl rfl rfl
        | fail_if_no_progress with_reducible refine Keep.draw ?_ rfl rfl rfl rfl
        | split
        | extract_lets
        | (dsimp +zetaDelta only)) only [↓Shown.eq]

theorem outModeOrder_keepE {fs : List Field} {s0 : State} {v : Nat} {s : State} {r_ : _} {t_ : State} (e_ : (State.outModeOrder v s) = (r_, t_)) (hk : Keep fs s0 s) (hts : Within [.od, .tick] fs := by first | assumption | exact within_self _ | exact within_trans ‹Within _ _› (by decide) | exact within_of (by decide)) : Keep fs s0 t_ := by
  have key := outModeOrder_keep v s hk hts
  rw [e_] at key
  exact key

theorem execTickOutModeWrite_keep (p : Path) (v : Byte) (s : State) : ∃ t_, execTickOutModeWrite p v s = .next t_ ∧ Keep [.od, .dict, .tick, .host, .falt] s t_ := by
  refine ⟨_, rfl, ?_⟩
  · have hts := within_self ([.od, .dict, .tick, .host, .falt] : List Field)
    have hk : Keep [.od, .dict, .tick, .host, .falt] s s := Keep.rfl' _
    refine Shown.out ?_
    simp (disch :=
      repeat' first
        | with_reducible assumption
        | with_reducible exact within_trans hts (by decide)
        | with_reducible exact fun _ => rfl
        | exact fun h_ => absurd (within_mem hts (by decide)) h_
        | with_reducible exact within_mem hts (by decide)
        | with_reducible apply dictWrite_keep
        | with_reducible apply next_keep
        | (with_reducible refine outModeOrder_keepE ‹_› ?_)
        | with_reducible apply outModeOrder_keep
        | with_reducible apply Keep.wr
        | with_reducible apply Keep.wrBytes
        | with_reducible apply Keep.foldN
        | with_reducible apply Keep.foldl
        | intro _
        | fail_if_no_progress with_reducible refine Keep.upd ?_ rfl rfl rfl rfl
        | fail_if_no_progress with_reducible refine Keep.draw ?_ rfl rfl rfl rfl
        | split
        | extract_lets
        | (dsimp +zetaDelta only)) only [↓Shown.eq]

end Sys2Proof.Machine
end

