-- ==== Sys2Proof/Laws/KeepAccess.lean ====
section
/-!
SUPPORT. The operations of Access.lean keep the machine well.
-/

set_option Elab.async false

namespace Sys2Proof.Machine

set_option linter.all false

theorem readVal_keep {fs : List Field} {s0 : State} (s : State) (k : Nat) (hk : Keep fs s0 s) (hts : Within [] fs := by first | assumption | exact within_self _ | exact within_trans ‹Within _ _› (by decide) | exact within_of (by decide)) : Keep fs s0 (State.readVal s k).2 := by
    unfold State.readVal
    refine Shown.out ?_
    simp (disch :=
      repeat' first
        | with_reducible assumption
        | with_reducible exact within_trans hts (by decide)
        | with_reducible exact fun _ => rfl
        | exact fun h_ => absurd (within_mem hts (by decide)) h_
        | with_reducible exact within_mem hts (by decide)
        | (with_reducible refine drawFree_keepE ‹_› ?_)
        | with_reducible apply drawFree_keep
        | with_reducible apply Keep.wr
        | with_reducible apply Keep.wrBytes
        | with_reducible apply Keep.foldN
        | with_reducible apply Keep.foldl
        | intro _
        | fail_if_no_progress with_reducible refine Keep.upd ?_ rfl rfl rfl rfl
        | fail_if_no_progress with_reducible refine Keep.draw ?_ rfl rfl rfl rfl
        | split
        | extract_lets
        | (dsimp +zetaDelta only)) only [↓Shown.eq]

theorem readVal_keepE {fs : List Field} {s0 : State} {s : State} {k : Nat} {r_ : _} {t_ : State} (e_ : (State.readVal s k) = (r_, t_)) (hk : Keep fs s0 s) (hts : Within [] fs := by first | assumption | exact within_self _ | exact within_trans ‹Within _ _› (by decide) | exact within_of (by decide)) : Keep fs s0 t_ := by
  have key := readVal_keep s k hk hts
  rw [e_] at key
  exact key

theorem consume_keep {fs : List Field} {s0 : State} (s : State) (k : Nat) (hk : Keep fs s0 s) (hts : Within [.od, .pow] fs := by first | assumption | exact within_self _ | exact within_trans ‹Within _ _› (by decide) | exact within_of (by decide)) : Keep fs s0 (State.consume s k) := by
    unfold State.consume
    refine Shown.out ?_
    simp (disch :=
      repeat' first
        | with_reducible assumption
        | with_reducible exact within_trans hts (by decide)
        | with_reducible exact fun _ => rfl
        | exact fun h_ => absurd (within_mem hts (by decide)) h_
        | with_reducible exact within_mem hts (by decide)
        | with_reducible apply setPow_keep
        | with_reducible apply wr_keep
        | with_reducible apply Keep.wr
        | with_reducible apply Keep.wrBytes
        | with_reducible apply Keep.foldN
        | with_reducible apply Keep.foldl
        | intro _
        | fail_if_no_progress with_reducible refine Keep.upd ?_ rfl rfl rfl rfl
        | fail_if_no_progress with_reducible refine Keep.draw ?_ rfl rfl rfl rfl
        | split
        | extract_lets
        | (dsimp +zetaDelta only)) only [↓Shown.eq]

theorem dropReturned_length {α : Type} (w : α → List Byte) (width n b : Nat) (snap : List Byte) (q : List α) :
    (dropReturned w width n snap q).length ≤ max b q.length := by
  induction n generalizing snap q with
  | zero => exact Nat.le_max_right _ _
  | succ n ih =>
    refine Nat.le_trans (ih _ _) (Nat.max_le.2 ⟨Nat.le_max_left _ _, ?_⟩)
    exact Nat.le_trans (List.eraseP_sublist).length_le (Nat.le_max_right _ _)

theorem consumeBytes_keep {fs : List Field} {s0 : State} (s : State) (k : Nat) (snap : List Byte) (hk : Keep fs s0 s) (hts : Within [.od, .falt] fs := by first | assumption | exact within_self _ | exact within_trans ‹Within _ _› (by decide) | exact within_of (by decide)) : Keep fs s0 (s.consumeBytes k snap) := by
  unfold State.consumeBytes
  repeat' split
  · exact hk.gen rfl id id id id id (dropReturned_length _ _ _ _ _ _) (Nat.le_max_right _ _)
  · exact hk.gen rfl id id id id id (Nat.le_max_right _ _) (dropReturned_length _ _ _ _ _ _)
  · exact flashMoved_keep _ _ hk
  · exact hk

theorem loadParam_keep {fs : List Field} {s0 : State} (k : Nat) (v : Nat) (s : State) (hk : Keep fs s0 s) (hts : Within [.od] fs := by first | assumption | exact within_self _ | exact within_trans ‹Within _ _› (by decide) | exact within_of (by decide)) : Keep fs s0 (State.loadParam k v s).2 := by
    unfold State.loadParam
    refine Shown.out ?_
    simp (disch :=
      repeat' first
        | with_reducible assumption
        | with_reducible exact within_trans hts (by decide)
        | with_reducible exact fun _ => rfl
        | exact fun h_ => absurd (within_mem hts (by decide)) h_
        | with_reducible exact within_mem hts (by decide)
        | with_reducible apply wr_keep
        | with_reducible apply Keep.wr
        | with_reducible apply Keep.wrBytes
        | with_reducible apply Keep.foldN
        | with_reducible apply Keep.foldl
        | intro _
        | fail_if_no_progress with_reducible refine Keep.upd ?_ rfl rfl rfl rfl
        | fail_if_no_progress with_reducible refine Keep.draw ?_ rfl rfl rfl rfl
        | split
        | extract_lets
        | (dsimp +zetaDelta only)) only [↓Shown.eq]

theorem loadParam_keepE {fs : List Field} {s0 : State} {k : Nat} {v : Nat} {s : State} {r_ : _} {t_ : State} (e_ : (State.loadParam k v s) = (r_, t_)) (hk : Keep fs s0 s) (hts : Within [.od] fs := by first | assumption | exact within_self _ | exact within_trans ‹Within _ _› (by decide) | exact within_of (by decide)) : Keep fs s0 t_ := by
  have key := loadParam_keep k v s hk hts
  rw [e_] at key
  exact key

theorem optIte_keep {fs : List Field} {s0 : State} {c : Prop} [Decidable c] {a b : Option (Nat × State)}
    (ha : ∀ r ∈ a, Keep fs s0 r.2) (hb : ∀ r ∈ b, Keep fs s0 r.2) : ∀ r ∈ (if c then a else b), Keep fs s0 r.2 := by
  by_cases h : c
  · rw [if_pos h]; exact ha
  · rw [if_neg h]; exact hb

theorem optSome_keep {fs : List Field} {s0 : State} {a : Nat × State} (h : Keep fs s0 a.2) : ∀ r ∈ some a, Keep fs s0 r.2 := by
  intro r hr
  rw [Option.mem_some_iff] at hr
  exact hr ▸ h

theorem optNone_keep {fs : List Field} {s0 : State} : ∀ r ∈ (none : Option (Nat × State)), Keep fs s0 r.2 := by
  intro r hr
  cases hr

theorem actFloor_keep {fs : List Field} {s0 : State} (k v : Nat) (s : State) (hk : Keep fs s0 s) (hts : Within [.od, .odb, .tick, .host, .hostMem, .land, .flit, .falt, .trc, .cores, .newels, .mem, .bal, .ldr, .clok, .ledg, .vest, .vid, .pow, .boot, .gq, .dbg, .pins] fs := by first | assumption | exact within_self _ | exact within_trans ‹Within _ _› (by decide) | exact within_of (by decide)) : ∀ r ∈ State.actFloor k v s, Keep fs s0 r.2 := by
  unfold State.actFloor
  dsimp only
  refine optIte_keep (optSome_keep (calOrder_keep v s hk)) ?_
  refine optIte_keep (optSome_keep (alarmOrder_keep v s hk)) ?_
  refine optIte_keep (optSome_keep (persistOrder_keep v s hk)) ?_
  refine optIte_keep (optSome_keep (persistEmpty_keep v s hk)) ?_
  refine optIte_keep (optSome_keep (powerWrite_keep v s hk)) ?_
  refine optIte_keep (optSome_keep (domainOrder_keep v s hk)) ?_
  refine optIte_keep (optSome_keep (gateOrder_keep v s hk)) ?_
  refine optIte_keep (optSome_keep (resetOrder_keep v s hk)) ?_
  refine optIte_keep (optSome_keep (agentOrder_keep v s hk)) ?_
  refine optIte_keep (optSome_keep (mailOrder_keep v s hk)) ?_
  refine optIte_keep (optSome_keep (lifeOrder_keep v s hk)) ?_
  refine optIte_keep (optSome_keep (floorOrder_keep v s hk)) ?_
  refine optIte_keep (optSome_keep (flashParam_keep k v s hk)) ?_
  refine optIte_keep (optSome_keep (eraseOrder_keep v s hk)) ?_
  refine optIte_keep (optSome_keep (revoke_keep _ v s hk)) ?_
  exact optNone_keep

theorem actUnit_keep {fs : List Field} {s0 : State} (k v : Nat) (s : State) (hk : Keep fs s0 s) (hts : Within [.od, .odb, .dict, .tick, .host, .hostMem, .land, .flit, .falt, .trc, .cores, .newels, .arr, .mem, .bal, .ldr, .clok, .ports, .ledg, .vest, .vid, .coln, .pow, .gq, .dbg, .pins] fs := by first | assumption | exact within_self _ | exact within_trans ‹Within _ _› (by decide) | exact within_of (by decide)) : ∀ r ∈ State.actUnit k v s, Keep fs s0 r.2 := by
  unfold State.actUnit
  dsimp only
  refine optIte_keep (optSome_keep (paceOrder_keep v s hk)) ?_
  refine optIte_keep (optSome_keep (funcOrder_keep _ v s hk)) ?_
  refine optIte_keep (optSome_keep (pullOrder_keep _ v s hk)) ?_
  refine optIte_keep (optSome_keep (outModeOrder_keep v s hk)) ?_
  refine optIte_keep (optSome_keep (strikeOrder_keep v s hk)) ?_
  refine optIte_keep (optSome_keep (commitOrder_keep v s hk)) ?_
  refine optIte_keep (optSome_keep (loadParam_keep k v s hk)) ?_
  refine optIte_keep (optSome_keep (loadCmd_keep v s hk)) ?_
  refine optIte_keep (optSome_keep (clkRequest_keep _ v s hk)) ?_
  refine optIte_keep (optSome_keep (keyRequest_keep _ v s hk)) ?_
  refine optIte_keep (optSome_keep (netOrder_keep v s hk)) ?_
  refine optIte_keep (optSome_keep (injectKey_keep v s hk)) ?_
  refine optIte_keep (optSome_keep (unsealOrder_keep v s hk)) ?_
  refine optIte_keep (optSome_keep (chOrder_keep _ v s hk)) ?_
  refine optIte_keep (optSome_keep (flushOrder_keep v s hk)) ?_
  refine optIte_keep (optSome_keep (dbgEndOrder_keep v s hk)) ?_
  exact optNone_keep

theorem act_keep {fs : List Field} {s0 : State} (o : ObjDef) (k : Nat) (v : Nat) (s : State) (hk : Keep fs s0 s) (hts : Within [.od, .odb, .dict, .tick, .host, .hostMem, .land, .flit, .falt, .trc, .cores, .newels, .arr, .mem, .bal, .ldr, .clok, .ports, .ledg, .vest, .vid, .coln, .pow, .boot, .gq, .dbg, .pins] fs := by first | assumption | exact within_self _ | exact within_trans ‹Within _ _› (by decide) | exact within_of (by decide)) : Keep fs s0 (State.act o k v s).2 := by
  unfold State.act
  split
  · exact stage_keep s k v hk
  · have hf := actFloor_keep k v s hk
    have hu := actUnit_keep k v s hk
    generalize State.actFloor k v s = a at hf
    generalize State.actUnit k v s = b at hu
    rcases a with _ | a
    · rcases b with _ | b
      · exact Keep.wr hk k v
      · exact hu b rfl
    · exact hf a rfl

theorem act_keepE {fs : List Field} {s0 : State} {o : ObjDef} {k : Nat} {v : Nat} {s : State} {r_ : _} {t_ : State} (e_ : (State.act o k v s) = (r_, t_)) (hk : Keep fs s0 s) (hts : Within [.od, .odb, .dict, .tick, .host, .hostMem, .land, .flit, .falt, .trc, .cores, .newels, .arr, .mem, .bal, .ldr, .clok, .ports, .ledg, .vest, .vid, .coln, .pow, .boot, .gq, .dbg, .pins] fs := by first | assumption | exact within_self _ | exact within_trans ‹Within _ _› (by decide) | exact within_of (by decide)) : Keep fs s0 t_ := by
  have key := act_keep o k v s hk
  rw [e_] at key
  exact key

theorem expWrite_keep {fs : List Field} {s0 : State} (s : State) (p : Path) (k : Nat) (len : Nat) (v : Nat) (hk : Keep fs s0 s) (hts : Within [.od, .odb, .dict, .tick, .host, .hostMem, .land, .flit, .falt, .trc, .cores, .newels, .arr, .mem, .bal, .ldr, .clok, .ports, .ledg, .vest, .vid, .coln, .pow, .boot, .gq, .dbg, .pins] fs := by first | assumption | exact within_self _ | exact within_trans ‹Within _ _› (by decide) | exact within_of (by decide)) : Keep fs s0 (State.expWrite s p k len v).2 := by
    unfold State.expWrite
    refine Shown.out ?_
    simp (disch :=
      repeat' first
        | with_reducible assumption
        | with_reducible exact within_trans hts (by decide)
        | with_reducible exact fun _ => rfl
        | exact fun h_ => absurd (within_mem hts (by decide)) h_
        | with_reducible exact within_mem hts (by decide)
        | (with_reducible refine abort_keepE ‹_› ?_)
        | with_reducible apply abort_keep
        | (with_reducible refine act_keepE ‹_› ?_)
        | with_reducible apply act_keep
        | with_reducible apply Keep.wr
        | with_reducible apply Keep.wrBytes
        | with_reducible apply Keep.foldN
        | with_reducible apply Keep.foldl
        | intro _
        | fail_if_no_progress with_reducible refine Keep.upd ?_ rfl rfl rfl rfl
        | fail_if_no_progress with_reducible refine Keep.draw ?_ rfl rfl rfl rfl
        | split
        | extract_lets
        | (dsimp +zetaDelta only)) only [↓Shown.eq]

theorem expWrite_keepE {fs : List Field} {s0 : State} {s : State} {p : Path} {k : Nat} {len : Nat} {v : Nat} {r_ : _} {t_ : State} (e_ : (State.expWrite s p k len v) = (r_, t_)) (hk : Keep fs s0 s) (hts : Within [.od, .odb, .dict, .tick, .host, .hostMem, .land, .flit, .falt, .trc, .cores, .newels, .arr, .mem, .bal, .ldr, .clok, .ports, .ledg, .vest, .vid, .coln, .pow, .boot, .gq, .dbg, .pins] fs := by first | assumption | exact within_self _ | exact within_trans ‹Within _ _› (by decide) | exact within_of (by decide)) : Keep fs s0 t_ := by
  have key := expWrite_keep s p k len v hk hts
  rw [e_] at key
  exact key

theorem viewVal_keep {fs : List Field} {s0 : State} (s : State) (o : ObjDef) (k : Nat) (staged : Bool) (hk : Keep fs s0 s) (hts : Within [] fs := by first | assumption | exact within_self _ | exact within_trans ‹Within _ _› (by decide) | exact within_of (by decide)) : Keep fs s0 (State.viewVal s o k staged).2 := by
    unfold State.viewVal
    refine Shown.out ?_
    simp (disch :=
      repeat' first
        | with_reducible assumption
        | with_reducible exact within_trans hts (by decide)
        | with_reducible exact fun _ => rfl
        | exact fun h_ => absurd (within_mem hts (by decide)) h_
        | with_reducible exact within_mem hts (by decide)
        | (with_reducible refine readVal_keepE ‹_› ?_)
        | with_reducible apply readVal_keep
        | with_reducible apply Keep.wr
        | with_reducible apply Keep.wrBytes
        | with_reducible apply Keep.foldN
        | with_reducible apply Keep.foldl
        | intro _
        | fail_if_no_progress with_reducible refine Keep.upd ?_ rfl rfl rfl rfl
        | fail_if_no_progress with_reducible refine Keep.draw ?_ rfl rfl rfl rfl
        | split
        | extract_lets
        | (dsimp +zetaDelta only)) only [↓Shown.eq]

theorem viewVal_keepE {fs : List Field} {s0 : State} {s : State} {o : ObjDef} {k : Nat} {staged : Bool} {r_ : _} {t_ : State} (e_ : (State.viewVal s o k staged) = (r_, t_)) (hk : Keep fs s0 s) (hts : Within [] fs := by first | assumption | exact within_self _ | exact within_trans ‹Within _ _› (by decide) | exact within_of (by decide)) : Keep fs s0 t_ := by
  have key := viewVal_keep s o k staged hk hts
  rw [e_] at key
  exact key

theorem expRead_keep {fs : List Field} {s0 : State} (s : State) (p : Path) (k : Nat) (len : Nat) (staged : Bool) (quiet : Bool) (hk : Keep fs s0 s) (hts : Within [.od, .host, .falt, .pow] fs := by first | assumption | exact within_self _ | exact within_trans ‹Within _ _› (by decide) | exact within_of (by decide)) : Keep fs s0 (State.expRead s p k len staged quiet).2 := by
    unfold State.expRead
    refine Shown.out ?_
    simp (disch :=
      repeat' first
        | with_reducible assumption
        | with_reducible exact within_trans hts (by decide)
        | with_reducible exact fun _ => rfl
        | exact fun h_ => absurd (within_mem hts (by decide)) h_
        | with_reducible exact within_mem hts (by decide)
        | (with_reducible refine abort_keepE ‹_› ?_)
        | with_reducible apply abort_keep
        | with_reducible apply consume_keep
        | (with_reducible refine viewVal_keepE ‹_› ?_)
        | with_reducible apply viewVal_keep
        | with_reducible apply Keep.wr
        | with_reducible apply Keep.wrBytes
        | with_reducible apply Keep.foldN
        | with_reducible apply Keep.foldl
        | intro _
        | fail_if_no_progress with_reducible refine Keep.upd ?_ rfl rfl rfl rfl
        | fail_if_no_progress with_reducible refine Keep.draw ?_ rfl rfl rfl rfl
        | split
        | extract_lets
        | (dsimp +zetaDelta only)) only [↓Shown.eq]

theorem expRead_keepE {fs : List Field} {s0 : State} {s : State} {p : Path} {k : Nat} {len : Nat} {staged : Bool} {quiet : Bool} {r_ : _} {t_ : State} (e_ : (State.expRead s p k len staged quiet) = (r_, t_)) (hk : Keep fs s0 s) (hts : Within [.od, .host, .falt, .pow] fs := by first | assumption | exact within_self _ | exact within_trans ‹Within _ _› (by decide) | exact within_of (by decide)) : Keep fs s0 t_ := by
  have key := expRead_keep s p k len staged quiet hk hts
  rw [e_] at key
  exact key

theorem execExpeditedAccess_keep (p : Path) (wr : Bool) (idx : BitVec 16) (sub : Byte) (stagedView : Bool) (len : BitVec 32) (data : Word) (irq : Bool) (s : State) : ∃ t_, execExpeditedAccess p wr idx sub stagedView len data irq s = .next t_ ∧ Keep [.od, .odb, .dict, .tick, .host, .hostMem, .land, .flit, .falt, .trc, .cores, .newels, .arr, .mem, .bal, .ldr, .clok, .ports, .ledg, .vest, .vid, .coln, .pow, .boot, .gq, .dbg, .pins] s t_ := by
  refine ⟨_, rfl, ?_⟩
  · have hts := within_self ([.od, .odb, .dict, .tick, .host, .hostMem, .land, .flit, .falt, .trc, .cores, .newels, .arr, .mem, .bal, .ldr, .clok, .ports, .ledg, .vest, .vid, .coln, .pow, .boot, .gq, .dbg, .pins] : List Field)
    have hk : Keep [.od, .odb, .dict, .tick, .host, .hostMem, .land, .flit, .falt, .trc, .cores, .newels, .arr, .mem, .bal, .ldr, .clok, .ports, .ledg, .vest, .vid, .coln, .pow, .boot, .gq, .dbg, .pins] s s := Keep.rfl' _
    refine Shown.out ?_
    simp (disch :=
      repeat' first
        | with_reducible assumption
        | with_reducible exact within_trans hts (by decide)
        | with_reducible exact fun _ => rfl
        | exact fun h_ => absurd (within_mem hts (by decide)) h_
        | with_reducible exact within_mem hts (by decide)
        | with_reducible apply dwSet_keep
        | (with_reducible refine expRead_keepE ‹_› ?_)
        | with_reducible apply expRead_keep
        | (with_reducible refine expWrite_keepE ‹_› ?_)
        | with_reducible apply expWrite_keep
        | with_reducible apply next_keep
        | with_reducible apply serve_keep
        | with_reducible apply wr_keep
        | with_reducible apply Keep.wr
        | with_reducible apply Keep.wrBytes
        | with_reducible apply Keep.foldN
        | with_reducible apply Keep.foldl
        | intro _
        | fail_if_no_progress with_reducible refine Keep.upd ?_ rfl rfl rfl rfl
        | fail_if_no_progress with_reducible refine Keep.draw ?_ rfl rfl rfl rfl
        | split
        | extract_lets
        | (dsimp +zetaDelta only)) only [↓Shown.eq]

theorem writeRow_keep {fs : List Field} {s0 : State} (s : State) (p : Path) (k : Nat) (v : Nat) (hk : Keep fs s0 s) (hts : Within [.od, .odb, .dict, .tick, .host, .hostMem, .land, .flit, .falt, .trc, .cores, .newels, .arr, .mem, .bal, .ldr, .clok, .ports, .ledg, .vest, .vid, .coln, .pow, .boot, .gq, .dbg, .pins] fs := by first | assumption | exact within_self _ | exact within_trans ‹Within _ _› (by decide) | exact within_of (by decide)) : Keep fs s0 (State.writeRow s p k v) := by
    unfold State.writeRow
    refine Shown.out ?_
    simp (disch :=
      repeat' first
        | with_reducible assumption
        | with_reducible exact within_trans hts (by decide)
        | with_reducible exact fun _ => rfl
        | exact fun h_ => absurd (within_mem hts (by decide)) h_
        | with_reducible exact within_mem hts (by decide)
        | with_reducible apply dwSet_keep
        | (with_reducible refine expWrite_keepE ‹_› ?_)
        | with_reducible apply expWrite_keep
        | with_reducible apply serve_keep
        | with_reducible apply Keep.wr
        | with_reducible apply Keep.wrBytes
        | with_reducible apply Keep.foldN
        | with_reducible apply Keep.foldl
        | intro _
        | fail_if_no_progress with_reducible refine Keep.upd ?_ rfl rfl rfl rfl
        | fail_if_no_progress with_reducible refine Keep.draw ?_ rfl rfl rfl rfl
        | split
        | extract_lets
        | (dsimp +zetaDelta only)) only [↓Shown.eq]

theorem execRegisterWrite_keep (p : Path) (idx : BitVec 16) (sub : Byte) (data : Word) (s : State) : ∃ t_, execRegisterWrite p idx sub data s = .next t_ ∧ Keep [.od, .odb, .dict, .tick, .host, .hostMem, .land, .flit, .falt, .trc, .cores, .newels, .arr, .mem, .bal, .ldr, .clok, .ports, .ledg, .vest, .vid, .coln, .pow, .boot, .gq, .dbg, .pins] s t_ := by
  refine ⟨_, rfl, ?_⟩
  · have hts := within_self ([.od, .odb, .dict, .tick, .host, .hostMem, .land, .flit, .falt, .trc, .cores, .newels, .arr, .mem, .bal, .ldr, .clok, .ports, .ledg, .vest, .vid, .coln, .pow, .boot, .gq, .dbg, .pins] : List Field)
    have hk : Keep [.od, .odb, .dict, .tick, .host, .hostMem, .land, .flit, .falt, .trc, .cores, .newels, .arr, .mem, .bal, .ldr, .clok, .ports, .ledg, .vest, .vid, .coln, .pow, .boot, .gq, .dbg, .pins] s s := Keep.rfl' _
    refine Shown.out ?_
    simp (disch :=
      repeat' first
        | with_reducible assumption
        | with_reducible exact within_trans hts (by decide)
        | with_reducible exact fun _ => rfl
        | exact fun h_ => absurd (within_mem hts (by decide)) h_
        | with_reducible exact within_mem hts (by decide)
        | with_reducible apply next_keep
        | with_reducible apply writeRow_keep
        | with_reducible apply Keep.wr
        | with_reducible apply Keep.wrBytes
        | with_reducible apply Keep.foldN
        | with_reducible apply Keep.foldl
        | intro _
        | fail_if_no_progress with_reducible refine Keep.upd ?_ rfl rfl rfl rfl
        | fail_if_no_progress with_reducible refine Keep.draw ?_ rfl rfl rfl rfl
        | split
        | extract_lets
        | (dsimp +zetaDelta only)) only [↓Shown.eq]

theorem execStagedWrite_keep (p : Path) (idx : BitVec 16) (sub : Byte) (data : Word) (s : State) : ∃ t_, execStagedWrite p idx sub data s = .next t_ ∧ Keep [.od, .odb, .dict, .tick, .host, .hostMem, .land, .flit, .falt, .trc, .cores, .newels, .arr, .mem, .bal, .ldr, .clok, .ports, .ledg, .vest, .vid, .coln, .pow, .boot, .gq, .dbg, .pins] s t_ := by
  refine ⟨_, rfl, ?_⟩
  · have hts := within_self ([.od, .odb, .dict, .tick, .host, .hostMem, .land, .flit, .falt, .trc, .cores, .newels, .arr, .mem, .bal, .ldr, .clok, .ports, .ledg, .vest, .vid, .coln, .pow, .boot, .gq, .dbg, .pins] : List Field)
    have hk : Keep [.od, .odb, .dict, .tick, .host, .hostMem, .land, .flit, .falt, .trc, .cores, .newels, .arr, .mem, .bal, .ldr, .clok, .ports, .ledg, .vest, .vid, .coln, .pow, .boot, .gq, .dbg, .pins] s s := Keep.rfl' _
    refine Shown.out ?_
    simp (disch :=
      repeat' first
        | with_reducible assumption
        | with_reducible exact within_trans hts (by decide)
        | with_reducible exact fun _ => rfl
        | exact fun h_ => absurd (within_mem hts (by decide)) h_
        | with_reducible exact within_mem hts (by decide)
        | with_reducible apply next_keep
        | with_reducible apply writeRow_keep
        | with_reducible apply Keep.wr
        | with_reducible apply Keep.wrBytes
        | with_reducible apply Keep.foldN
        | with_reducible apply Keep.foldl
        | intro _
        | fail_if_no_progress with_reducible refine Keep.upd ?_ rfl rfl rfl rfl
        | fail_if_no_progress with_reducible refine Keep.draw ?_ rfl rfl rfl rfl
        | split
        | extract_lets
        | (dsimp +zetaDelta only)) only [↓Shown.eq]

theorem readBlobRow_keep {fs : List Field} {s0 : State} (s : State) (p : Path) (k : Nat) (hk : Keep fs s0 s) (hts : Within [.od, .dict, .host, .falt] fs := by first | assumption | exact within_self _ | exact within_trans ‹Within _ _› (by decide) | exact within_of (by decide)) : Keep fs s0 (State.readBlobRow s p k) := by
    unfold State.readBlobRow
    refine Shown.out ?_
    simp (disch :=
      repeat' first
        | with_reducible assumption
        | with_reducible exact within_trans hts (by decide)
        | with_reducible exact fun _ => rfl
        | exact fun h_ => absurd (within_mem hts (by decide)) h_
        | with_reducible exact within_mem hts (by decide)
        | with_reducible apply blobRead_keep
        | with_reducible apply consumeBytes_keep
        | with_reducible apply Keep.wr
        | with_reducible apply Keep.wrBytes
        | with_reducible apply Keep.foldN
        | with_reducible apply Keep.foldl
        | intro _
        | fail_if_no_progress with_reducible refine Keep.upd ?_ rfl rfl rfl rfl
        | fail_if_no_progress with_reducible refine Keep.draw ?_ rfl rfl rfl rfl
        | split
        | extract_lets
        | (dsimp +zetaDelta only)) only [↓Shown.eq]

theorem execRcRead_keep (p : Path) (idx : BitVec 16) (sub : Byte) (s : State) : ∃ t_, execRcRead p idx sub s = .next t_ ∧ Keep [.od, .dict, .host, .falt, .pow] s t_ := by
  refine ⟨_, rfl, ?_⟩
  · have hts := within_self ([.od, .dict, .host, .falt, .pow] : List Field)
    have hk : Keep [.od, .dict, .host, .falt, .pow] s s := Keep.rfl' _
    refine Shown.out ?_
    simp (disch :=
      repeat' first
        | with_reducible assumption
        | with_reducible exact within_trans hts (by decide)
        | with_reducible exact fun _ => rfl
        | exact fun h_ => absurd (within_mem hts (by decide)) h_
        | with_reducible exact within_mem hts (by decide)
        | with_reducible apply dwSet_keep
        | (with_reducible refine expRead_keepE ‹_› ?_)
        | with_reducible apply expRead_keep
        | with_reducible apply readBlobRow_keep
        | with_reducible apply serve_keep
        | with_reducible apply Keep.wr
        | with_reducible apply Keep.wrBytes
        | with_reducible apply Keep.foldN
        | with_reducible apply Keep.foldl
        | intro _
        | fail_if_no_progress with_reducible refine Keep.upd ?_ rfl rfl rfl rfl
        | fail_if_no_progress with_reducible refine Keep.draw ?_ rfl rfl rfl rfl
        | split
        | extract_lets
        | (dsimp +zetaDelta only)) only [↓Shown.eq]

theorem execFaultNext_keep (p : Path) (s : State) : ∃ t_, execFaultNext p s = .next t_ ∧ Keep [.od, .dict, .host, .falt] s t_ := by
  refine ⟨_, rfl, ?_⟩
  · have hts := within_self ([.od, .dict, .host, .falt] : List Field)
    have hk : Keep [.od, .dict, .host, .falt] s s := Keep.rfl' _
    refine Shown.out ?_
    simp (disch :=
      repeat' first
        | with_reducible assumption
        | with_reducible exact within_trans hts (by decide)
        | with_reducible exact fun _ => rfl
        | exact fun h_ => absurd (within_mem hts (by decide)) h_
        | with_reducible exact within_mem hts (by decide)
        | with_reducible apply next_keep
        | with_reducible apply readBlobRow_keep
        | with_reducible apply Keep.wr
        | with_reducible apply Keep.wrBytes
        | with_reducible apply Keep.foldN
        | with_reducible apply Keep.foldl
        | intro _
        | fail_if_no_progress with_reducible refine Keep.upd ?_ rfl rfl rfl rfl
        | fail_if_no_progress with_reducible refine Keep.draw ?_ rfl rfl rfl rfl
        | split
        | extract_lets
        | (dsimp +zetaDelta only)) only [↓Shown.eq]

theorem execLostNext_keep (p : Path) (s : State) : ∃ t_, execLostNext p s = .next t_ ∧ Keep [.od, .dict, .host, .falt] s t_ := by
  refine ⟨_, rfl, ?_⟩
  · have hts := within_self ([.od, .dict, .host, .falt] : List Field)
    have hk : Keep [.od, .dict, .host, .falt] s s := Keep.rfl' _
    refine Shown.out ?_
    simp (disch :=
      repeat' first
        | with_reducible assumption
        | with_reducible exact within_trans hts (by decide)
        | with_reducible exact fun _ => rfl
        | exact fun h_ => absurd (within_mem hts (by decide)) h_
        | with_reducible exact within_mem hts (by decide)
        | with_reducible apply next_keep
        | with_reducible apply readBlobRow_keep
        | with_reducible apply Keep.wr
        | with_reducible apply Keep.wrBytes
        | with_reducible apply Keep.foldN
        | with_reducible apply Keep.foldl
        | intro _
        | fail_if_no_progress with_reducible refine Keep.upd ?_ rfl rfl rfl rfl
        | fail_if_no_progress with_reducible refine Keep.draw ?_ rfl rfl rfl rfl
        | split
        | extract_lets
        | (dsimp +zetaDelta only)) only [↓Shown.eq]

theorem execLostAll_keep (p : Path) (s : State) : ∃ t_, execLostAll p s = .next t_ ∧ Keep [.od, .dict, .host, .falt] s t_ := by
  refine ⟨_, rfl, ?_⟩
  · have hts := within_self ([.od, .dict, .host, .falt] : List Field)
    have hk : Keep [.od, .dict, .host, .falt] s s := Keep.rfl' _
    refine Shown.out ?_
    simp (disch :=
      repeat' first
        | with_reducible assumption
        | with_reducible exact within_trans hts (by decide)
        | with_reducible exact fun _ => rfl
        | exact fun h_ => absurd (within_mem hts (by decide)) h_
        | with_reducible exact within_mem hts (by decide)
        | with_reducible apply next_keep
        | with_reducible apply readBlobRow_keep
        | with_reducible apply Keep.wr
        | with_reducible apply Keep.wrBytes
        | with_reducible apply Keep.foldN
        | with_reducible apply Keep.foldl
        | intro _
        | fail_if_no_progress with_reducible refine Keep.upd ?_ rfl rfl rfl rfl
        | fail_if_no_progress with_reducible refine Keep.draw ?_ rfl rfl rfl rfl
        | split
        | extract_lets
        | (dsimp +zetaDelta only)) only [↓Shown.eq]

theorem execUnitAnswerTimeout_keep (p : Path) (wr : Bool) (idx : BitVec 16) (sub : Byte) (data : Word) (s : State) : ∃ t_, execUnitAnswerTimeout p wr idx sub data s = .next t_ ∧ Keep [.od, .dict, .host, .falt] s t_ := by
  refine ⟨_, rfl, ?_⟩
  · have hts := within_self ([.od, .dict, .host, .falt] : List Field)
    have hk : Keep [.od, .dict, .host, .falt] s s := Keep.rfl' _
    refine Shown.out ?_
    simp (disch :=
      repeat' first
        | with_reducible assumption
        | with_reducible exact within_trans hts (by decide)
        | with_reducible exact fun _ => rfl
        | exact fun h_ => absurd (within_mem hts (by decide)) h_
        | with_reducible exact within_mem hts (by decide)
        | (with_reducible refine abort_keepE ‹_› ?_)
        | with_reducible apply abort_keep
        | with_reducible apply dwSet_keep
        | with_reducible apply recordAccess_keep
        | with_reducible apply serve_keep
        | with_reducible apply Keep.wr
        | with_reducible apply Keep.wrBytes
        | with_reducible apply Keep.foldN
        | with_reducible apply Keep.foldl
        | intro _
        | fail_if_no_progress with_reducible refine Keep.upd ?_ rfl rfl rfl rfl
        | fail_if_no_progress with_reducible refine Keep.draw ?_ rfl rfl rfl rfl
        | split
        | extract_lets
        | (dsimp +zetaDelta only)) only [↓Shown.eq]

theorem blobAct_keep {fs : List Field} {s0 : State} (k : Nat) (bs : List Byte) (s : State) (hk : Keep fs s0 s) (hts : Within [.od, .odb, .boot] fs := by first | assumption | exact within_self _ | exact within_trans ‹Within _ _› (by decide) | exact within_of (by decide)) : Keep fs s0 (State.blobAct k bs s).2 := by
    unfold State.blobAct
    refine Shown.out ?_
    simp (disch :=
      repeat' first
        | with_reducible assumption
        | with_reducible exact within_trans hts (by decide)
        | with_reducible exact fun _ => rfl
        | exact fun h_ => absurd (within_mem hts (by decide)) h_
        | with_reducible exact within_mem hts (by decide)
        | (with_reducible refine flashProgram_keepE ‹_› ?_)
        | with_reducible apply flashProgram_keep
        | (with_reducible refine persistWrite_keepE ‹_› ?_)
        | with_reducible apply persistWrite_keep
        | (with_reducible refine provision_keepE ‹_› ?_)
        | with_reducible apply provision_keep
        | with_reducible apply wrBytes_keep
        | with_reducible apply Keep.wr
        | with_reducible apply Keep.wrBytes
        | with_reducible apply Keep.foldN
        | with_reducible apply Keep.foldl
        | intro _
        | fail_if_no_progress with_reducible refine Keep.upd ?_ rfl rfl rfl rfl
        | fail_if_no_progress with_reducible refine Keep.draw ?_ rfl rfl rfl rfl
        | split
        | extract_lets
        | (dsimp +zetaDelta only)) only [↓Shown.eq]

theorem blobAct_keepE {fs : List Field} {s0 : State} {k : Nat} {bs : List Byte} {s : State} {r_ : _} {t_ : State} (e_ : (State.blobAct k bs s) = (r_, t_)) (hk : Keep fs s0 s) (hts : Within [.od, .odb, .boot] fs := by first | assumption | exact within_self _ | exact within_trans ‹Within _ _› (by decide) | exact within_of (by decide)) : Keep fs s0 t_ := by
  have key := blobAct_keep k bs s hk hts
  rw [e_] at key
  exact key

theorem openWrite_keep {fs : List Field} {s0 : State} (s : State) (p : Path) (k : Nat) (len : Nat) (hk : Keep fs s0 s) (hts : Within [.od, .dict, .host, .falt] fs := by first | assumption | exact within_self _ | exact within_trans ‹Within _ _› (by decide) | exact within_of (by decide)) : Keep fs s0 (State.openWrite s p k len).2 := by
    unfold State.openWrite
    refine Shown.out ?_
    simp (disch :=
      repeat' first
        | with_reducible assumption
        | with_reducible exact within_trans hts (by decide)
        | with_reducible exact fun _ => rfl
        | exact fun h_ => absurd (within_mem hts (by decide)) h_
        | with_reducible exact within_mem hts (by decide)
        | (with_reducible refine abortSeg_keepE ‹_› ?_)
        | with_reducible apply abortSeg_keep
        | with_reducible apply setXfer_keep
        | with_reducible apply Keep.wr
        | with_reducible apply Keep.wrBytes
        | with_reducible apply Keep.foldN
        | with_reducible apply Keep.foldl
        | intro _
        | fail_if_no_progress with_reducible refine Keep.upd ?_ rfl rfl rfl rfl
        | fail_if_no_progress with_reducible refine Keep.draw ?_ rfl rfl rfl rfl
        | split
        | extract_lets
        | (dsimp +zetaDelta only)) only [↓Shown.eq]

theorem openWrite_keepE {fs : List Field} {s0 : State} {s : State} {p : Path} {k : Nat} {len : Nat} {r_ : _} {t_ : State} (e_ : (State.openWrite s p k len) = (r_, t_)) (hk : Keep fs s0 s) (hts : Within [.od, .dict, .host, .falt] fs := by first | assumption | exact within_self _ | exact within_trans ‹Within _ _› (by decide) | exact within_of (by decide)) : Keep fs s0 t_ := by
  have key := openWrite_keep s p k len hk hts
  rw [e_] at key
  exact key

theorem openRead_keep {fs : List Field} {s0 : State} (s : State) (p : Path) (k : Nat) (staged : Bool) (hk : Keep fs s0 s) (hts : Within [.od, .dict, .host, .falt] fs := by first | assumption | exact within_self _ | exact within_trans ‹Within _ _› (by decide) | exact within_of (by decide)) : Keep fs s0 (State.openRead s p k staged).2 := by
    unfold State.openRead
    refine Shown.out ?_
    simp (disch :=
      repeat' first
        | with_reducible assumption
        | with_reducible exact within_trans hts (by decide)
        | with_reducible exact fun _ => rfl
        | exact fun h_ => absurd (within_mem hts (by decide)) h_
        | with_reducible exact within_mem hts (by decide)
        | (with_reducible refine abortSeg_keepE ‹_› ?_)
        | with_reducible apply abortSeg_keep
        | with_reducible apply setXfer_keep
        | with_reducible apply Keep.wr
        | with_reducible apply Keep.wrBytes
        | with_reducible apply Keep.foldN
        | with_reducible apply Keep.foldl
        | intro _
        | fail_if_no_progress with_reducible refine Keep.upd ?_ rfl rfl rfl rfl
        | fail_if_no_progress with_reducible refine Keep.draw ?_ rfl rfl rfl rfl
        | split
        | extract_lets
        | (dsimp +zetaDelta only)) only [↓Shown.eq]

theorem openRead_keepE {fs : List Field} {s0 : State} {s : State} {p : Path} {k : Nat} {staged : Bool} {r_ : _} {t_ : State} (e_ : (State.openRead s p k staged) = (r_, t_)) (hk : Keep fs s0 s) (hts : Within [.od, .dict, .host, .falt] fs := by first | assumption | exact within_self _ | exact within_trans ‹Within _ _› (by decide) | exact within_of (by decide)) : Keep fs s0 t_ := by
  have key := openRead_keep s p k staged hk hts
  rw [e_] at key
  exact key

theorem execSegmentedOpen_keep (p : Path) (wr : Bool) (idx : BitVec 16) (sub : Byte) (stagedView : Bool) (len : BitVec 32) (irq : Bool) (s : State) : ∃ t_, execSegmentedOpen p wr idx sub stagedView len irq s = .next t_ ∧ Keep [.od, .dict, .host, .falt] s t_ := by
  refine ⟨_, rfl, ?_⟩
  · have hts := within_self ([.od, .dict, .host, .falt] : List Field)
    have hk : Keep [.od, .dict, .host, .falt] s s := Keep.rfl' _
    refine Shown.out ?_
    simp (disch :=
      repeat' first
        | with_reducible assumption
        | with_reducible exact within_trans hts (by decide)
        | with_reducible exact fun _ => rfl
        | exact fun h_ => absurd (within_mem hts (by decide)) h_
        | with_reducible exact within_mem hts (by decide)
        | with_reducible apply dwSet_keep
        | with_reducible apply next_keep
        | (with_reducible refine openRead_keepE ‹_› ?_)
        | with_reducible apply openRead_keep
        | (with_reducible refine openWrite_keepE ‹_› ?_)
        | with_reducible apply openWrite_keep
        | with_reducible apply serve_keep
        | with_reducible apply wr_keep
        | with_reducible apply Keep.wr
        | with_reducible apply Keep.wrBytes
        | with_reducible apply Keep.foldN
        | with_reducible apply Keep.foldl
        | intro _
        | fail_if_no_progress with_reducible refine Keep.upd ?_ rfl rfl rfl rfl
        | fail_if_no_progress with_reducible refine Keep.draw ?_ rfl rfl rfl rfl
        | split
        | extract_lets
        | (dsimp +zetaDelta only)) only [↓Shown.eq]

theorem closeWith_keep {fs : List Field} {s0 : State} (s : State) (p : Path) (x : Xfer) (c : Nat) (hk : Keep fs s0 s) (hts : Within [.od, .dict, .host, .falt] fs := by first | assumption | exact within_self _ | exact within_trans ‹Within _ _› (by decide) | exact within_of (by decide)) : Keep fs s0 (State.closeWith s p x c).2 := by
    unfold State.closeWith
    refine Shown.out ?_
    simp (disch :=
      repeat' first
        | with_reducible assumption
        | with_reducible exact within_trans hts (by decide)
        | with_reducible exact fun _ => rfl
        | exact fun h_ => absurd (within_mem hts (by decide)) h_
        | with_reducible exact within_mem hts (by decide)
        | (with_reducible refine abortSeg_keepE ‹_› ?_)
        | with_reducible apply abortSeg_keep
        | with_reducible apply setXfer_keep
        | with_reducible apply Keep.wr
        | with_reducible apply Keep.wrBytes
        | with_reducible apply Keep.foldN
        | with_reducible apply Keep.foldl
        | intro _
        | fail_if_no_progress with_reducible refine Keep.upd ?_ rfl rfl rfl rfl
        | fail_if_no_progress with_reducible refine Keep.draw ?_ rfl rfl rfl rfl
        | split
        | extract_lets
        | (dsimp +zetaDelta only)) only [↓Shown.eq]

theorem closeWith_keepE {fs : List Field} {s0 : State} {s : State} {p : Path} {x : Xfer} {c : Nat} {r_ : _} {t_ : State} (e_ : (State.closeWith s p x c) = (r_, t_)) (hk : Keep fs s0 s) (hts : Within [.od, .dict, .host, .falt] fs := by first | assumption | exact within_self _ | exact within_trans ‹Within _ _› (by decide) | exact within_of (by decide)) : Keep fs s0 t_ := by
  have key := closeWith_keep s p x c hk hts
  rw [e_] at key
  exact key

theorem segWrite_keep {fs : List Field} {s0 : State} (s : State) (p : Path) (x : Xfer) (last : Bool) (bs : List Byte) (hk : Keep fs s0 s) (hts : Within [.od, .odb, .dict, .host, .falt, .boot] fs := by first | assumption | exact within_self _ | exact within_trans ‹Within _ _› (by decide) | exact within_of (by decide)) : Keep fs s0 (State.segWrite s p x last bs).2 := by
    unfold State.segWrite
    refine Shown.out ?_
    simp (disch :=
      repeat' first
        | with_reducible assumption
        | with_reducible exact within_trans hts (by decide)
        | with_reducible exact fun _ => rfl
        | exact fun h_ => absurd (within_mem hts (by decide)) h_
        | with_reducible exact within_mem hts (by decide)
        | (with_reducible refine blobAct_keepE ‹_› ?_)
        | with_reducible apply blobAct_keep
        | (with_reducible refine closeWith_keepE ‹_› ?_)
        | with_reducible apply closeWith_keep
        | with_reducible apply setXfer_keep
        | with_reducible apply Keep.wr
        | with_reducible apply Keep.wrBytes
        | with_reducible apply Keep.foldN
        | with_reducible apply Keep.foldl
        | intro _
        | fail_if_no_progress with_reducible refine Keep.upd ?_ rfl rfl rfl rfl
        | fail_if_no_progress with_reducible refine Keep.draw ?_ rfl rfl rfl rfl
        | split
        | extract_lets
        | (dsimp +zetaDelta only)) only [↓Shown.eq]

theorem segWrite_keepE {fs : List Field} {s0 : State} {s : State} {p : Path} {x : Xfer} {last : Bool} {bs : List Byte} {r_ : _} {t_ : State} (e_ : (State.segWrite s p x last bs) = (r_, t_)) (hk : Keep fs s0 s) (hts : Within [.od, .odb, .dict, .host, .falt, .boot] fs := by first | assumption | exact within_self _ | exact within_trans ‹Within _ _› (by decide) | exact within_of (by decide)) : Keep fs s0 t_ := by
  have key := segWrite_keep s p x last bs hk hts
  rw [e_] at key
  exact key

theorem segRead_keep {fs : List Field} {s0 : State} (s : State) (p : Path) (x : Xfer) (hk : Keep fs s0 s) (hts : Within [.od, .dict, .falt] fs := by first | assumption | exact within_self _ | exact within_trans ‹Within _ _› (by decide) | exact within_of (by decide)) : Keep fs s0 (State.segRead s p x).2 := by
    unfold State.segRead
    refine Shown.out ?_
    simp (disch :=
      repeat' first
        | with_reducible assumption
        | with_reducible exact within_trans hts (by decide)
        | with_reducible exact fun _ => rfl
        | exact fun h_ => absurd (within_mem hts (by decide)) h_
        | with_reducible exact within_mem hts (by decide)
        | with_reducible apply consumeBytes_keep
        | with_reducible apply setXfer_keep
        | with_reducible apply Keep.wr
        | with_reducible apply Keep.wrBytes
        | with_reducible apply Keep.foldN
        | with_reducible apply Keep.foldl
        | intro _
        | fail_if_no_progress with_reducible refine Keep.upd ?_ rfl rfl rfl rfl
        | fail_if_no_progress with_reducible refine Keep.draw ?_ rfl rfl rfl rfl
        | split
        | extract_lets
        | (dsimp +zetaDelta only)) only [↓Shown.eq]

theorem segRead_keepE {fs : List Field} {s0 : State} {s : State} {p : Path} {x : Xfer} {r_ : _} {t_ : State} (e_ : (State.segRead s p x) = (r_, t_)) (hk : Keep fs s0 s) (hts : Within [.od, .dict, .falt] fs := by first | assumption | exact within_self _ | exact within_trans ‹Within _ _› (by decide) | exact within_of (by decide)) : Keep fs s0 t_ := by
  have key := segRead_keep s p x hk hts
  rw [e_] at key
  exact key

theorem segStep_keep {fs : List Field} {s0 : State} (s : State) (p : Path) (toggle : Bool) (last : Bool) (bs : List Byte) (hk : Keep fs s0 s) (hts : Within [.od, .odb, .dict, .host, .falt, .boot] fs := by first | assumption | exact within_self _ | exact within_trans ‹Within _ _› (by decide) | exact within_of (by decide)) : Keep fs s0 (State.segStep s p toggle last bs).2 := by
    unfold State.segStep
    refine Shown.out ?_
    simp (disch :=
      repeat' first
        | with_reducible assumption
        | with_reducible exact within_trans hts (by decide)
        | with_reducible exact fun _ => rfl
        | exact fun h_ => absurd (within_mem hts (by decide)) h_
        | with_reducible exact within_mem hts (by decide)
        | (with_reducible refine closeWith_keepE ‹_› ?_)
        | with_reducible apply closeWith_keep
        | (with_reducible refine segRead_keepE ‹_› ?_)
        | with_reducible apply segRead_keep
        | (with_reducible refine segWrite_keepE ‹_› ?_)
        | with_reducible apply segWrite_keep
        | with_reducible apply wr_keep
        | with_reducible apply Keep.wr
        | with_reducible apply Keep.wrBytes
        | with_reducible apply Keep.foldN
        | with_reducible apply Keep.foldl
        | intro _
        | fail_if_no_progress with_reducible refine Keep.upd ?_ rfl rfl rfl rfl
        | fail_if_no_progress with_reducible refine Keep.draw ?_ rfl rfl rfl rfl
        | split
        | extract_lets
        | (dsimp +zetaDelta only)) only [↓Shown.eq]

theorem segStep_keepE {fs : List Field} {s0 : State} {s : State} {p : Path} {toggle : Bool} {last : Bool} {bs : List Byte} {r_ : _} {t_ : State} (e_ : (State.segStep s p toggle last bs) = (r_, t_)) (hk : Keep fs s0 s) (hts : Within [.od, .odb, .dict, .host, .falt, .boot] fs := by first | assumption | exact within_self _ | exact within_trans ‹Within _ _› (by decide) | exact within_of (by decide)) : Keep fs s0 t_ := by
  have key := segStep_keep s p toggle last bs hk hts
  rw [e_] at key
  exact key

theorem execSegment_keep (p : Path) (toggle : Bool) (last : Bool) (data : List Byte) (irq : Bool) (s : State) : ∃ t_, execSegment p toggle last data irq s = .next t_ ∧ Keep [.od, .odb, .dict, .host, .falt, .boot] s t_ := by
  refine ⟨_, rfl, ?_⟩
  · have hts := within_self ([.od, .odb, .dict, .host, .falt, .boot] : List Field)
    have hk : Keep [.od, .odb, .dict, .host, .falt, .boot] s s := Keep.rfl' _
    refine Shown.out ?_
    simp (disch :=
      repeat' first
        | with_reducible assumption
        | with_reducible exact within_trans hts (by decide)
        | with_reducible exact fun _ => rfl
        | exact fun h_ => absurd (within_mem hts (by decide)) h_
        | with_reducible exact within_mem hts (by decide)
        | with_reducible apply dwSet_keep
        | with_reducible apply next_keep
        | (with_reducible refine segStep_keepE ‹_› ?_)
        | with_reducible apply segStep_keep
        | with_reducible apply serve_keep
        | with_reducible apply wr_keep
        | with_reducible apply Keep.wr
        | with_reducible apply Keep.wrBytes
        | with_reducible apply Keep.foldN
        | with_reducible apply Keep.foldl
        | intro _
        | fail_if_no_progress with_reducible refine Keep.upd ?_ rfl rfl rfl rfl
        | fail_if_no_progress with_reducible refine Keep.draw ?_ rfl rfl rfl rfl
        | split
        | extract_lets
        | (dsimp +zetaDelta only)) only [↓Shown.eq]

theorem execAbortOwnTransfer_keep (p : Path) (irq : Bool) (s : State) : ∃ t_, execAbortOwnTransfer p irq s = .next t_ ∧ Keep [.dict] s t_ := by
  refine ⟨_, rfl, ?_⟩
  · have hts := within_self ([.dict] : List Field)
    have hk : Keep [.dict] s s := Keep.rfl' _
    refine Shown.out ?_
    simp (disch :=
      repeat' first
        | with_reducible assumption
        | with_reducible exact within_trans hts (by decide)
        | with_reducible exact fun _ => rfl
        | exact fun h_ => absurd (within_mem hts (by decide)) h_
        | with_reducible exact within_mem hts (by decide)
        | with_reducible apply dwSet_keep
        | with_reducible apply next_keep
        | with_reducible apply serve_keep
        | with_reducible apply setXfer_keep
        | with_reducible apply Keep.wr
        | with_reducible apply Keep.wrBytes
        | with_reducible apply Keep.foldN
        | with_reducible apply Keep.foldl
        | intro _
        | fail_if_no_progress with_reducible refine Keep.upd ?_ rfl rfl rfl rfl
        | fail_if_no_progress with_reducible refine Keep.draw ?_ rfl rfl rfl rfl
        | split
        | extract_lets
        | (dsimp +zetaDelta only)) only [↓Shown.eq]

theorem execSegmentTimeout_keep (p : Path) (s : State) : ∃ t_, execSegmentTimeout p s = .next t_ ∧ Keep [.dict] s t_ := by
  refine ⟨_, rfl, ?_⟩
  · have hts := within_self ([.dict] : List Field)
    have hk : Keep [.dict] s s := Keep.rfl' _
    refine Shown.out ?_
    simp (disch :=
      repeat' first
        | with_reducible assumption
        | with_reducible exact within_trans hts (by decide)
        | with_reducible exact fun _ => rfl
        | exact fun h_ => absurd (within_mem hts (by decide)) h_
        | with_reducible exact within_mem hts (by decide)
        | with_reducible apply next_keep
        | with_reducible apply setResp_keep
        | with_reducible apply setXfer_keep
        | with_reducible apply Keep.wr
        | with_reducible apply Keep.wrBytes
        | with_reducible apply Keep.foldN
        | with_reducible apply Keep.foldl
        | intro _
        | fail_if_no_progress with_reducible refine Keep.upd ?_ rfl rfl rfl rfl
        | fail_if_no_progress with_reducible refine Keep.draw ?_ rfl rfl rfl rfl
        | split
        | extract_lets
        | (dsimp +zetaDelta only)) only [↓Shown.eq]

theorem execDwStepDone_keep (p : Path) (s : State) : ∃ t_, execDwStepDone p s = .next t_ ∧ Keep [.dict, .host] s t_ := by
  refine ⟨_, rfl, ?_⟩
  · have hts := within_self ([.dict, .host] : List Field)
    have hk : Keep [.dict, .host] s s := Keep.rfl' _
    refine Shown.out ?_
    simp (disch :=
      repeat' first
        | with_reducible assumption
        | with_reducible exact within_trans hts (by decide)
        | with_reducible exact fun _ => rfl
        | exact fun h_ => absurd (within_mem hts (by decide)) h_
        | with_reducible exact within_mem hts (by decide)
        | (with_reducible refine abort_keepE ‹_› ?_)
        | with_reducible apply abort_keep
        | with_reducible apply next_keep
        | with_reducible apply setWin_keep
        | with_reducible apply signal_keep
        | with_reducible apply signalTen_keep
        | with_reducible apply Keep.wr
        | with_reducible apply Keep.wrBytes
        | with_reducible apply Keep.foldN
        | with_reducible apply Keep.foldl
        | intro _
        | fail_if_no_progress with_reducible refine Keep.upd ?_ rfl rfl rfl rfl
        | fail_if_no_progress with_reducible refine Keep.draw ?_ rfl rfl rfl rfl
        | split
        | extract_lets
        | (dsimp +zetaDelta only)) only [↓Shown.eq]

end Sys2Proof.Machine
end

