-- ==== Sys2Proof/Laws/KeepFaultRows.lean ====
section
/-!
SUPPORT. The operations of FaultRows.lean keep the machine well.
-/

set_option Elab.async false

namespace Sys2Proof.Machine

set_option linter.all false

theorem execFaultLogEccError_keep (fixed : Bool) (what : EccPlace) (s : State) :
    ∃ t_, execFaultLogEccError fixed what s = .next t_ ∧ Keep [.od, .falt] s t_ := by
  have hf := within_self ([.od, .falt] : List Field)
  have hk : Keep [.od, .falt] s s := Keep.rfl' s
  have shorter : ∀ {α : Type} (l : List α) (n : Nat), (l.eraseIdx n).length ≤ l.length := fun l n => by
    rw [List.length_eraseIdx]; split <;> omega
  unfold execFaultLogEccError
  split
  · exact ⟨_, rfl, hk⟩
  · split
    · split
      · refine ⟨_, rfl, bump_keep _ _ (hk.gen rfl id id id id id ?_ (Nat.le_max_right _ _))⟩
        exact Nat.le_trans (shorter _ _) (Nat.le_max_right _ _)
      · exact ⟨_, rfl, hk⟩
    · split
      · refine ⟨_, rfl, bump_keep _ _ (hk.gen rfl id id id id id (Nat.le_max_right _ _) ?_)⟩
        exact Nat.le_trans (shorter _ _) (Nat.le_max_right _ _)
      · exact ⟨_, rfl, hk⟩
    · split
      · exact ⟨_, rfl, hk⟩
      · exact ⟨_, rfl, setMirror_keep _ _ _ hk⟩

end Sys2Proof.Machine
end

