-- ==== Sys2Proof/Laws/KeepGqServe.lean ====
section
/-!
SUPPORT. The operations of GqServe.lean keep the machine well.
-/

set_option Elab.async false

namespace Sys2Proof.Machine

set_option linter.all false

theorem gqAccess_keep {fs : List Field} {s0 : State} (s : State) (t : Telegram) (hk : Keep fs s0 s) (hts : Within [.od, .odb, .dict, .tick, .host, .hostMem, .land, .flit, .falt, .trc, .cores, .newels, .arr, .mem, .bal, .ldr, .clok, .ports, .ledg, .vest, .vid, .coln, .pow, .boot, .gq, .dbg, .pins] fs := by first | assumption | exact within_self _ | exact within_trans ‹Within _ _› (by decide) | exact within_of (by decide)) : Keep fs s0 (State.gqAccess s t).2 := by
    unfold State.gqAccess
    refine Shown.out ?_
    simp (disch :=
      repeat' first
        | with_reducible assumption
        | with_reducible exact within_trans hts (by decide)
        | with_reducible exact fun _ => rfl
        | exact fun h_ => absurd (within_mem hts (by decide)) h_
        | with_reducible exact within_mem hts (by decide)
        | (with_reducible refine expRead_keepE ‹_› ?_)
        | with_reducible apply expRead_keep
        | (with_reducible refine expWrite_keepE ‹_› ?_)
        | with_reducible apply expWrite_keep
        | (with_reducible refine openRead_keepE ‹_› ?_)
        | with_reducible apply openRead_keep
        | (with_reducible refine openWrite_keepE ‹_› ?_)
        | with_reducible apply openWrite_keep
        | (with_reducible refine segStep_keepE ‹_› ?_)
        | with_reducible apply segStep_keep
        | with_reducible apply setXfer_keep
        | with_reducible apply wr_keep
        | with_reducible apply Keep.wr
        | with_reducible apply Keep.wrBytes
        | with_reducible apply Keep.foldN
        | with_reducible apply Keep.foldl
        | intro _
        | fail_if_no_progress with_reducible refine Keep.upd ?_ rfl rfl rfl rfl
        | fail_if_no_progress with_reducible refine Keep.draw ?_ rfl rfl rfl rfl
        | split
        | extract_lets
        | (dsimp +zetaDelta only)) only [↓Shown.eq]

theorem gqAccess_keepE {fs : List Field} {s0 : State} {s : State} {t : Telegram} {r_ : _} {t_ : State} (e_ : (State.gqAccess s t) = (r_, t_)) (hk : Keep fs s0 s) (hts : Within [.od, .odb, .dict, .tick, .host, .hostMem, .land, .flit, .falt, .trc, .cores, .newels, .arr, .mem, .bal, .ldr, .clok, .ports, .ledg, .vest, .vid, .coln, .pow, .boot, .gq, .dbg, .pins] fs := by first | assumption | exact within_self _ | exact within_trans ‹Within _ _› (by decide) | exact within_of (by decide)) : Keep fs s0 t_ := by
  have key := gqAccess_keep s t hk hts
  rw [e_] at key
  exact key

theorem gqAnswer_keep {fs : List Field} {s0 : State} (s : State) (t : Telegram) (body : List Byte) (tx : TxEnd) (hk : Keep fs s0 s) (hts : Within [.od, .host, .falt, .gq] fs := by first | assumption | exact within_self _ | exact within_trans ‹Within _ _› (by decide) | exact within_of (by decide)) : Keep fs s0 (State.gqAnswer s t body tx) := by
    unfold State.gqAnswer
    refine Shown.out ?_
    simp (disch :=
      repeat' first
        | with_reducible assumption
        | with_reducible exact within_trans hts (by decide)
        | with_reducible exact fun _ => rfl
        | exact fun h_ => absurd (within_mem hts (by decide)) h_
        | with_reducible exact within_mem hts (by decide)
        | with_reducible apply gqCount_keep
        | with_reducible apply gqSent_keep
        | with_reducible apply lineFault_keep
        | with_reducible apply setGq_keep
        | with_reducible apply Keep.wr
        | with_reducible apply Keep.wrBytes
        | with_reducible apply Keep.foldN
        | with_reducible apply Keep.foldl
        | intro _
        | fail_if_no_progress with_reducible refine Keep.upd ?_ rfl rfl rfl rfl
        | fail_if_no_progress with_reducible refine Keep.draw ?_ rfl rfl rfl rfl
        | split
        | extract_lets
        | (dsimp +zetaDelta only)) only [↓Shown.eq]

theorem gqServe_keep {fs : List Field} {s0 : State} (s : State) (t : Telegram) (hk : Keep fs s0 s) (hts : Within [.od, .odb, .dict, .tick, .host, .hostMem, .land, .flit, .falt, .trc, .cores, .newels, .arr, .mem, .bal, .ldr, .clok, .ports, .ledg, .vest, .vid, .coln, .pow, .boot, .gq, .dbg, .pins] fs := by first | assumption | exact within_self _ | exact within_trans ‹Within _ _› (by decide) | exact within_of (by decide)) : Keep fs s0 (State.gqServe s t).2 := by
    unfold State.gqServe
    refine Shown.out ?_
    simp (disch :=
      repeat' first
        | with_reducible assumption
        | with_reducible exact within_trans hts (by decide)
        | with_reducible exact fun _ => rfl
        | exact fun h_ => absurd (within_mem hts (by decide)) h_
        | with_reducible exact within_mem hts (by decide)
        | (with_reducible refine gqAccess_keepE ‹_› ?_)
        | with_reducible apply gqAccess_keep
        | with_reducible apply setResp_keep
        | with_reducible apply Keep.wr
        | with_reducible apply Keep.wrBytes
        | with_reducible apply Keep.foldN
        | with_reducible apply Keep.foldl
        | intro _
        | fail_if_no_progress with_reducible refine Keep.upd ?_ rfl rfl rfl rfl
        | fail_if_no_progress with_reducible refine Keep.draw ?_ rfl rfl rfl rfl
        | split
        | extract_lets
        | (dsimp +zetaDelta only)) only [↓Shown.eq]

theorem gqServe_keepE {fs : List Field} {s0 : State} {s : State} {t : Telegram} {r_ : _} {t_ : State} (e_ : (State.gqServe s t) = (r_, t_)) (hk : Keep fs s0 s) (hts : Within [.od, .odb, .dict, .tick, .host, .hostMem, .land, .flit, .falt, .trc, .cores, .newels, .arr, .mem, .bal, .ldr, .clok, .ports, .ledg, .vest, .vid, .coln, .pow, .boot, .gq, .dbg, .pins] fs := by first | assumption | exact within_self _ | exact within_trans ‹Within _ _› (by decide) | exact within_of (by decide)) : Keep fs s0 t_ := by
  have key := gqServe_keep s t hk hts
  rw [e_] at key
  exact key

theorem gqUnicast_keep {fs : List Field} {s0 : State} (s : State) (t : Telegram) (tx : TxEnd) (hk : Keep fs s0 s) (hts : Within [.od, .odb, .dict, .tick, .host, .hostMem, .land, .flit, .falt, .trc, .cores, .newels, .arr, .mem, .bal, .ldr, .clok, .ports, .ledg, .vest, .vid, .coln, .pow, .boot, .gq, .dbg, .pins] fs := by first | assumption | exact within_self _ | exact within_trans ‹Within _ _› (by decide) | exact within_of (by decide)) : Keep fs s0 (State.gqUnicast s t tx) := by
    unfold State.gqUnicast
    refine Shown.out ?_
    simp (disch :=
      repeat' first
        | with_reducible assumption
        | with_reducible exact within_trans hts (by decide)
        | with_reducible exact fun _ => rfl
        | exact fun h_ => absurd (within_mem hts (by decide)) h_
        | with_reducible exact within_mem hts (by decide)
        | with_reducible apply bump_keep
        | with_reducible apply gqAnswer_keep
        | (with_reducible refine gqServe_keepE ‹_› ?_)
        | with_reducible apply gqServe_keep
        | with_reducible apply Keep.wr
        | with_reducible apply Keep.wrBytes
        | with_reducible apply Keep.foldN
        | with_reducible apply Keep.foldl
        | intro _
        | fail_if_no_progress with_reducible refine Keep.upd ?_ rfl rfl rfl rfl
        | fail_if_no_progress with_reducible refine Keep.draw ?_ rfl rfl rfl rfl
        | split
        | extract_lets
        | (dsimp +zetaDelta only)) only [↓Shown.eq]

theorem execGqRequest_keep (t : Telegram) (tx : TxEnd) (s : State) : ∃ t_, execGqRequest t tx s = .next t_ ∧ Keep [.od, .odb, .dict, .tick, .host, .hostMem, .land, .flit, .falt, .trc, .cores, .newels, .arr, .mem, .bal, .ldr, .clok, .ports, .ledg, .vest, .vid, .coln, .pow, .boot, .gq, .dbg, .pins] s t_ := by
  refine ⟨_, rfl, ?_⟩
  · have hts := within_self ([.od, .odb, .dict, .tick, .host, .hostMem, .land, .flit, .falt, .trc, .cores, .newels, .arr, .mem, .bal, .ldr, .clok, .ports, .ledg, .vest, .vid, .coln, .pow, .boot, .gq, .dbg, .pins] : List Field)
    have hk : Keep [.od, .odb, .dict, .tick, .host, .hostMem, .land, .flit, .falt, .trc, .cores, .newels, .arr, .mem, .bal, .ldr, .clok, .ports, .ledg, .vest, .vid, .coln, .pow, .boot, .gq, .dbg, .pins] s s := Keep.rfl' _
    refine Shown.out ?_
    simp (disch :=
      repeat' first
        | with_reducible assumption
        | with_reducible exact within_trans hts (by decide)
        | with_reducible exact fun _ => rfl
        | exact fun h_ => absurd (within_mem hts (by decide)) h_
        | with_reducible exact within_mem hts (by decide)
        | with_reducible apply gqCount_keep
        | with_reducible apply gqReceive_keep
        | (with_reducible refine gqServe_keepE ‹_› ?_)
        | with_reducible apply gqServe_keep
        | with_reducible apply gqUnicast_keep
        | with_reducible apply openWindow_keep
        | with_reducible apply Keep.wr
        | with_reducible apply Keep.wrBytes
        | with_reducible apply Keep.foldN
        | with_reducible apply Keep.foldl
        | intro _
        | fail_if_no_progress with_reducible refine Keep.upd ?_ rfl rfl rfl rfl
        | fail_if_no_progress with_reducible refine Keep.draw ?_ rfl rfl rfl rfl
        | split
        | extract_lets
        | (dsimp +zetaDelta only)) only [↓Shown.eq]

end Sys2Proof.Machine
end

