-- ==== Sys2Proof/Laws/ReadLaws.lean ====
section
/-!
SUPPORT. Lemmas about what a dictionary read gives after the updates.
-/

set_option Elab.async false

namespace Sys2Proof.Machine

set_option linter.all false

theorem issue_of {s u : State} {n : Nat} {e : Entry} (h : s.Issues n e u) (f : Entry → State → State) :
    s.issue n f = f e u := by
  obtain ⟨h1, h2, h3, h4, h5⟩ := h
  unfold State.readyCore at h3 h4 h5
  unfold State.issue
  rw [if_neg (by simp [h1]), h2]
  dsimp only
  rw [if_neg (by simp [h3]), if_neg h4, h5]
  exact (apply_ite (f e) _ _ _).symm

theorem retire_core (s : State) (n pc : Nat) : (s.retire n pc).core n = (s.core n).retiredAt pc := by
  show ((s.setCore n _).bump64 (OD.INSTRUCTIONS n) 1).core n = _
  simp [State.core, State.setCore, State.bump64, State.bumpTo, State.wr, Core.retiredAt]

theorem retires_of {u v : State} {n : Nat} {c : Core} (pc : Nat) (h1 : v.core n = c) (h2 : ∀ m, m ≠ n → v.core m = u.core m)
    (h3 : v.od = u.od) (hk : Keep [.od, .cores, .trc] u v) : u.Retires (v.retire n pc) n pc c where
  core := by rw [retire_core, h1]
  others := fun m h => by
    rw [← h2 m h]
    show ((v.setCore n _).bump64 (OD.INSTRUCTIONS n) 1).core m = _
    simp [State.core, State.setCore, State.bump64, State.bumpTo, State.wr, h]
  count := by
    rw [← rd_of_od h3]
    show ((_ : State).bump64 (OD.INSTRUCTIONS n) 1).rd (OD.INSTRUCTIONS n) = _
    simp [State.bump64, State.bumpTo]
    rfl
  numbers := ⟨fun k h => by
    rw [← rd_of_od h3]
    show (State.bump64 _ (OD.INSTRUCTIONS n) 1).rd k = _
    unfold State.bump64 State.bumpTo
    rw [rd_wr_ne _ (by simpa using h)]
    rfl⟩
  keeps := retire_keep _ n pc hk

theorem retire_self (u : State) (n pc : Nat) : u.Retires (u.retire n pc) n pc (u.core n) :=
  retires_of pc rfl (fun _ _ => rfl) rfl (Keep.rfl' u)

theorem retire_retires (u : State) (n pc : Nat) (c : Core) : u.Retires ((u.setCore n c).retire n pc) n pc c :=
  retires_of pc (core_setCore_same ..) (fun _ h => core_setCore_ne u h c) rfl
    (setCore_keep _ n c (Keep.rfl' u) (within_of (by decide)))

theorem gives_nextWith {s u : State} {n : Nat} {e : Entry} {i : Instr} (h : s.Issues n e u) (f : Core → Core)
    (g : Entry → State → State) (hi : Sys2Proof.Machine.exec i s = .next (s.issue n g)) (hg : g e u = u.nextWith n f)
    {c : Core} (hc : f (u.core n) = c) (hp : c.pc = (u.core n).pc) :
    s.Gives u n i c := by
  refine ⟨_, hi.trans (congrArg Host.Outcome.next ((issue_of h g).trans hg)), ?_⟩
  have := retire_retires u n ((u.core n).pc + 8) c
  unfold State.nextWith State.next
  rw [hc, core_setCore_same, hp]
  exact this

theorem gives_next {s u : State} {n : Nat} {e : Entry} {i : Instr} (h : s.Issues n e u)
    (g : Entry → State → State) (hi : Sys2Proof.Machine.exec i s = .next (s.issue n g)) (hg : g e u = u.next n) :
    s.Gives u n i (u.core n) :=
  ⟨_, hi.trans (congrArg Host.Outcome.next ((issue_of h g).trans hg)), retire_self ..⟩

@[simp] theorem setS_pc (c : Core) (i : Nat) (v : Word) : (c.setS i v).pc = c.pc := by
  unfold Core.setS; split <;> rfl

theorem gives_setS {s u : State} {n rd : Nat} {e : Entry} {i : Instr} (h : s.Issues n e u) (f : Core → Word)
    (g : Entry → State → State) (hi : Sys2Proof.Machine.exec i s = .next (s.issue n g))
    (hg : g e u = u.nextWith n (fun c => c.setS rd (f c))) {v : Word} (hv : f (u.core n) = v) :
    s.Gives u n i ((u.core n).setS rd v) :=
  gives_nextWith h _ g hi hg (by rw [hv]) (setS_pc ..)

theorem asWord_if (p : Bool) (q : Prop) [Decidable q] (h : p = true ↔ q) : asWord p = if q then 1#64 else 0#64 := by
  unfold asWord; simp [h]

theorem tracePacket_rd (s : State) (ty : Nat) (pl : List Byte) {k : Nat} (h : k ∉ traceKeys) : (s.tracePacket ty pl).rd k = s.rd k := by
  unfold traceKeys at h
  simp only [List.mem_cons, not_or, List.not_mem_nil, not_false_eq_true, and_true] at h
  obtain ⟨h1, h2, h3, h4, h5⟩ := h
  unfold State.tracePacket
  split
  · rfl
  split
  · exact rd_wr_ne _ h2 _
  dsimp only
  have e : ∀ (t : Trace) n, (({ s with trc := t } : State).bump OD.PACKETS |>.bump64 OD.TRC_BYTES n).rd k = s.rd k := by
    intro t n
    unfold State.bump64 State.bumpTo State.bump
    rw [rd_wr_ne _ h3]
    exact rd_wr_ne _ h1 _
  split
  · unfold State.trcEvent
    have : ∀ u : State, ((u.bump OD.OVERFLOW_EVENTS).setOdBit OD.TRC_EVENTS 1 true).rd k = u.rd k := by
      intro u
      unfold State.setOdBit State.bump
      rw [rd_wr_ne _ h5]
      exact rd_wr_ne _ h4 _
    dsimp only
    split
    · rw [signal_rd, this, e]
    · rw [this, e]
  · exact e _ _

theorem traceInstr_rd (s : State) (a o kd : Nat) {k : Nat} (h : k ∉ traceKeys) : (s.traceInstr a o kd).rd k = s.rd k := by
  unfold State.traceInstr
  split
  · exact tracePacket_rd _ _ _ h
  · rfl

theorem not_trace {k : Nat} (h : k < 0x900000) : k ∉ traceKeys := by
  intro m
  simp only [traceKeys, List.mem_cons, List.not_mem_nil, or_false] at m
  rcases m with rfl | rfl | rfl | rfl | rfl <;> revert h <;> decide

theorem get_keyedPut {α} (d : Nat → α) (l : List (Nat × α)) (k : Nat) (v : α) : Sparse.get d (keyedPut l k v) k = v := by
  induction l with
  | nil => simp [keyedPut, Sparse.get]
  | cons e r ih =>
    obtain ⟨k', v'⟩ := e
    unfold keyedPut
    repeat' split
    · simp [Sparse.get]
    · simp [Sparse.get]
    · simp [Sparse.get, *]

theorem nextWith_retires (u : State) (n : Nat) (f : Core → Core) (hp : (f (u.core n)).pc = (u.core n).pc) :
    u.Retires (u.nextWith n f) n ((u.core n).pc + 8) (f (u.core n)) := by
  unfold State.nextWith State.next
  rw [core_setCore_same, hp]
  exact retire_retires ..

theorem core_of_cores {s t : State} (h : t.cores = s.cores) (m : Nat) : t.core m = s.core m := by unfold State.core; rw [h]

theorem rd_ite (c : Prop) [Decidable c] (a b : State) (k : Nat) : (if c then a else b).rd k = if c then a.rd k else b.rd k := by
  split <;> rfl

theorem logFault_rd (s : State) (r : FaultRec) {k : Nat} (h1 : k ≠ OD.FAULTS_LOST) (h2 : k ≠ OD.CLASS_COUNTS r.cls) :
    (s.logFault r).rd k = s.rd k := by
  unfold State.logFault
  dsimp only
  rw [rd_ite, signal_rd, ite_self, rd_bump, if_neg h2, rd_ite, rd_bump, if_neg h1, ite_self]
  rfl

theorem record_rd (s : State) (cls agent dom obj addr inst : Nat) {k : Nat} (h1 : k ≠ OD.FAULTS_LOST) (h2 : k ≠ OD.CLASS_COUNTS cls) :
    (s.record cls agent dom obj addr inst).rd k = s.rd k := logFault_rd s _ h1 h2

end Sys2Proof.Machine
end

