-- ==== Sys2Proof/Laws/CoreLaws.lean ====
section
/-!
SUPPORT. Lemmas about the matrix cores.
-/

set_option Elab.async false

namespace Sys2Proof.Machine

set_option linter.all false

theorem rel_int (c : Core) (off : BitVec 32) : c.rel off = (BitVec.ofInt 64 (c.pc + 8 * off.toInt)).toNat := by
  unfold Core.rel immS
  congr 1
  apply BitVec.eq_of_toInt_eq
  simp [BitVec.toInt_signExtend_of_le, BitVec.toInt_add, BitVec.toInt_mul, BitVec.toInt_ofNat']

theorem exc_keys (n : Nat) (hn : n < 32) :
    (OD.LAST_EXCEPTION n < 0x900000 ∧ OD.LAST_EXC_ADDR n < 0x900000 ∧ OD.CORE_EXCEPTIONS n < 0x900000 ∧
      OD.ARRAY_EXCEPTIONS n < 0x900000) ∧
    OD.LAST_EXCEPTION n ≠ OD.ARRAY_EXCEPTIONS n ∧ OD.LAST_EXC_ADDR n ≠ OD.ARRAY_EXCEPTIONS n ∧
    OD.CORE_EXCEPTIONS n ≠ OD.ARRAY_EXCEPTIONS n ∧ OD.LAST_EXCEPTION n ≠ OD.CORE_EXCEPTIONS n ∧
    OD.LAST_EXC_ADDR n ≠ OD.CORE_EXCEPTIONS n ∧ OD.LAST_EXCEPTION n ≠ OD.LAST_EXC_ADDR n := by
  unfold OD.LAST_EXCEPTION OD.LAST_EXC_ADDR OD.CORE_EXCEPTIONS OD.ARRAY_EXCEPTIONS
  omega

/-- The core and the waiters after an exception, whatever stands before its trace packet. -/

def excTail (x : State) (n off : Nat) : State :=
  ((x.traceInstr n off 3).setCore n { (x.traceInstr n off 3).core n with dmaq := [], running := none, stepping := false }).withdraw n

theorem excTail_facts {u x : State} (n off : Nat) (hx : Keep [.od] u x) :
    (excTail x n off).core n = { u.core n with dmaq := [], running := none, stepping := false } ∧
    (excTail x n off).land.waiters = u.land.waiters.filter (fun x => x.agent ≠ n) ∧
    Keep [.od, .host, .land, .trc, .cores] u (excTail x n off) ∧
    (∀ k, k < 0x900000 → (excTail x n off).rd k = x.rd k) := by
  have k := traceInstr_keep x n off 3 (Keep.rfl' x)
  have c : (x.traceInstr n off 3).core n = u.core n := by unfold State.core; rw [k.part .cores, hx.part .cores]
  refine ⟨?_, ?_, ?_, ?_⟩
  · show (State.setCore _ n _).core n = _
    rw [core_setCore_same, c]
  · show (State.traceInstr _ _ _ _).land.waiters.filter _ = _
    rw [k.part .land, hx.part .land]
  · exact withdraw_keep _ n (setCore_keep _ n _ (traceInstr_keep x n off 3 (hx.mono (within_of (by decide))) (within_of (by decide))) (within_of (by decide)))
      (within_of (by decide))
  · intro j hj
    exact traceInstr_rd x _ _ _ (not_trace hj)

theorem exception_excepts (u : State) (n : Nat) (hn : n < 32) (e : Entry) (array : Bool) (code pc user addr : Nat) :
    u.Excepts (u.exception n e array code pc user addr) n e array code pc user (addr % 2 ^ 48) := by
  obtain ⟨⟨a1, a2, a3, a4⟩, b1, b2, b3, b4, b5, b6⟩ := exc_keys n hn
  have w : Field.od ∈ ([.od] : List Field) := by decide
  have hk : ∀ k v, Keep [.od] u (u.wr k v) := fun k v => (Keep.rfl' u).wr k v w
  cases array
  · obtain ⟨h1, h2, h3, h4⟩ := excTail_facts (u := u) (x := ((u.wr (OD.LAST_EXCEPTION n)
      (excWord false code pc e.run e.stage e.flight user)).wr (OD.LAST_EXC_ADDR n) (addr % 2 ^ 48)).bump (OD.CORE_EXCEPTIONS n)) n (alcoveOff pc)
      (bump_keep _ _ ((hk _ _).wr _ _ w))
    refine ⟨_, ?_, ?_, ?_, ?_, ?_, h1, h2, h3⟩
    · unfold State.exception State.excNoted excTail; dsimp only; rw [if_neg (by decide)]
    · rw [h4 _ a1, rd_bump, if_neg b4, rd_wr_ne _ b6, rd_wr_same]
    · rw [h4 _ a2, rd_bump, if_neg b5, rd_wr_same]
    · rw [h4 _ a3, rd_bump, if_pos rfl, rd_wr_ne _ b5.symm, rd_wr_ne _ b4.symm]
    · rw [h4 _ a4, rd_bump, if_neg b3.symm, rd_wr_ne _ b2.symm, rd_wr_ne _ b1.symm]; rfl
  · obtain ⟨h1, h2, h3, h4⟩ := excTail_facts (u := u) (x := (((u.wr (OD.LAST_EXCEPTION n)
      (excWord true code pc e.run e.stage e.flight user)).wr (OD.LAST_EXC_ADDR n) (addr % 2 ^ 48)).bump (OD.CORE_EXCEPTIONS n)).bump
        (OD.ARRAY_EXCEPTIONS n)) n (alcoveOff pc)
      (bump_keep _ _ (bump_keep _ _ ((hk _ _).wr _ _ w)))
    refine ⟨_, ?_, ?_, ?_, ?_, ?_, h1, h2, h3⟩
    · unfold State.exception State.excNoted excTail; dsimp only; rw [if_pos rfl]
    · rw [h4 _ a1, rd_bump, if_neg b1, rd_bump, if_neg b4, rd_wr_ne _ b6, rd_wr_same]
    · rw [h4 _ a2, rd_bump, if_neg b2, rd_bump, if_neg b5, rd_wr_same]
    · rw [h4 _ a3, rd_bump, if_neg b3, rd_bump, if_pos rfl, rd_wr_ne _ b5.symm, rd_wr_ne _ b4.symm]
    · rw [h4 _ a4, rd_bump, if_pos rfl, rd_bump, if_neg b3.symm, rd_wr_ne _ b2.symm, rd_wr_ne _ b1.symm, if_pos rfl]

theorem excepts_of {s u : State} {n : Nat} (hn : n < 32) {e : Entry} {i : Instr} (h : s.Issues n e u) {array : Bool}
    {code pc user addr : Nat}
    (g : Entry → State → State) (hi : Sys2Proof.Machine.exec i s = .next (s.issue n g))
    (hg : g e u = u.exception n e array code pc user addr) :
    ∃ t, Sys2Proof.Machine.exec i s = .next t ∧ u.Excepts t n e array code pc user (addr % 2 ^ 48) :=
  ⟨_, hi.trans (congrArg Host.Outcome.next ((issue_of h g).trans hg)), exception_excepts u n hn e array code pc user addr⟩

theorem raises_of {s u : State} {n : Nat} (hn : n < 32) {e : Entry} {i : Instr} (h : s.Issues n e u) {code addr : Nat}
    (g : Entry → State → State) (hi : Sys2Proof.Machine.exec i s = .next (s.issue n g)) (hg : g e u = u.coreExc n e code addr) :
    s.Raises u n e i code addr := excepts_of hn h g hi hg

theorem jumpsTo {s u : State} {n : Nat} {e : Entry} {i : Instr} (hn : n < 32) (h : s.Issues n e u) (f : Core → Core) (target kind : Nat)
    (g : Entry → State → State) (hi : Sys2Proof.Machine.exec i s = .next (s.issue n g)) (hg : g e u = u.jump n e target kind f)
    {c : Core} (hc : f (u.core n) = c) : s.JumpsTo u n e i target kind c := by
  have hi0 := hi
  rw [issue_of h, hg] at hi
  unfold State.jump at hi
  refine ⟨fun a b => ?_, fun a => ?_, fun a b => ?_⟩
  · rw [if_neg (by simp [a]), if_neg (by simp [b]), hc] at hi
    exact ⟨_, retire_retires u n target c, hi⟩
  · exact raises_of hn h g hi0 (by rw [hg]; unfold State.jump; rw [if_pos a])
  · exact raises_of hn h g hi0 (by rw [hg]; unfold State.jump; rw [if_neg (by simp [a]), if_pos (by simpa using b)])

theorem branches {s u : State} {n : Nat} {e : Entry} {i : Instr} (hn : n < 32) (h : s.Issues n e u) (target : Nat) (b : Bool) (p : Prop)
    (g : Entry → State → State) (hi : Sys2Proof.Machine.exec i s = .next (s.issue n g))
    (hg : g e u = if b then u.jump n e target 0 id else u.next n) (hb : b = true ↔ p) :
    s.Branches u n e i target p := by
  refine ⟨fun a => jumpsTo hn h id target 0 (fun e u => g e u) hi ?_ rfl, fun a => ?_⟩
  · rw [hg, if_pos (hb.2 a)]
  · exact gives_next h g hi (by rw [hg, if_neg (by simpa [hb] using a)])

theorem place_setMark (s : State) (q : Acc) (w : Bool) (b a m : Nat) : (s.setMark a m).place q w b = s.place q w b := rfl

theorem place_setMemByte (s : State) (q : Acc) (w : Bool) (b a : Nat) (x : Byte) : (s.setMemByte a x).place q w b = s.place q w b := rfl

theorem memByte_setMark (s : State) (a m b : Nat) : (s.setMark a m).memByte b = s.memByte b := rfl

theorem memByte_setMemByte (s : State) (a b : Nat) (x : Byte) : (s.setMemByte a x).memByte b = if b = a then x else s.memByte b :=
  Sparse.get_put ..

theorem transfer_smooth (s : State) (q : Acc) (a : Nat) (h : s.smooth) :
    ∃ r, s.transfer q a = (false, { s with bal := { s.bal with transfers := r } }) ∧ ∀ t ∈ r, t = none := by
  unfold State.transfer
  split
  · rename_i t r e _
    have ht : t = none := h t (by rw [e]; exact List.mem_cons_self)
    subst ht
    exact ⟨r, rfl, fun x hx => h x (by rw [e]; exact List.mem_cons_of_mem _ hx)⟩
  · exact ⟨s.bal.transfers, rfl, h⟩

theorem grantLine_transfers (b : Balustrade) (p a : Nat) : (b.grantLine p a).transfers = b.transfers := by
  unfold Balustrade.grantLine; split <;> rfl

theorem grantLines_transfers (l : List Nat) (p : Nat) (b : Balustrade) :
    (l.foldl (fun b x => b.grantLine p x) b).transfers = b.transfers := by
  induction l generalizing b with
  | nil => rfl
  | cons x l ih => exact (ih _).trans (grantLine_transfers b p x)

theorem note_bal (s : State) (q : Acc) (rs : List (Nat × Nat)) : ∃ b, s.note q rs = { s with bal := b } ∧ b.transfers = s.bal.transfers := by
  unfold State.note
  dsimp only
  split
  · exact ⟨s.bal, rfl, rfl⟩
  · exact ⟨_, rfl, grantLines_transfers _ _ _⟩

theorem noteIf_bal (s : State) (q : Acc) (r : MemRes) (rs : List (Nat × Nat)) :
    ∃ b, s.noteIf q r rs = { s with bal := b } ∧ b.transfers = s.bal.transfers := by
  unfold State.noteIf
  split
  · exact note_bal s q rs
  · exact ⟨s.bal, rfl, rfl⟩

theorem readFrom_clean (q : Acc) (s : State) (len : Nat) : ∀ (a : Nat) (start : Bool) (r : MemRes), s.isMem q false a len →
    (∀ i, i < len → s.mark (a + i) = 0) →
    State.readFrom q len s a start r = ({ r with bytes := r.bytes.reverse ++ s.memBytes a len }, s) := by
  induction len with
  | zero => intro a start r _ _; simp [State.readFrom, State.memBytes]
  | succ k ih =>
    intro a start r h1 h2
    have p := h1 0 (by omega)
    have m := h2 0 (by omega)
    rw [Nat.add_zero] at p m
    unfold State.readFrom
    rw [p]
    simp only [m]
    simp only [Nat.zero_ne_one, decide_false, Bool.and_false, Bool.false_eq_true, if_false, OfNat.zero_ne_ofNat]
    rw [ih (a + 1) _ _ (fun i hi => by have := h1 (i + 1) (by omega); rwa [show a + 1 + i = a + (i + 1) by omega])
      (fun i hi => by have := h2 (i + 1) (by omega); rwa [show a + 1 + i = a + (i + 1) by omega])]
    simp [State.memBytes]

theorem countWin_none (s : State) (q : Acc) (r : MemRes) (h : r.win = none) : s.countWin q r = s := by
  unfold State.countWin; rw [h]

theorem memBytes_bal (s : State) (b : Balustrade) (a n : Nat) : State.memBytes { s with bal := b } a n = s.memBytes a n := by
  induction n generalizing a with
  | zero => rfl
  | succ k ih => unfold State.memBytes; rw [ih]; rfl

theorem memRead_clean (q : Acc) (s : State) (a len : Nat) (h1 : s.isMem q false a len) (h2 : s.clean a len) :
    ∃ b, s.memRead q a len = ({ bytes := s.memBytes a len }, { s with bal := b }) ∧ State.smooth { s with bal := b } := by
  obtain ⟨r, ht, hr⟩ := transfer_smooth s q a h2.2
  unfold State.memRead
  rw [ht]
  dsimp only
  unfold State.readDone
  rw [readFrom_clean q { s with bal := { s.bal with transfers := r } } len a true {} h1 h2.1]
  dsimp only
  rw [countWin_none _ _ _ rfl]
  obtain ⟨b, hb, hbt⟩ := noteIf_bal { s with bal := { s.bal with transfers := r } } q
    { bytes := (([] : List Byte)).reverse ++ State.memBytes { s with bal := { s.bal with transfers := r } } a len } [(a, len)]
  refine ⟨b, ?_, fun t m => hr t (by rw [← show b.transfers = r from hbt]; exact m)⟩
  rw [hb, memBytes_bal]
  rfl

theorem memBytes_congr {u v : State} (len : Nat) : ∀ a, (∀ i, i < len → v.memByte (a + i) = u.memByte (a + i)) → v.memBytes a len = u.memBytes a len := by
  induction len with
  | zero => intro a _; rfl
  | succ k ih =>
    intro a h
    unfold State.memBytes
    rw [show v.memByte a = u.memByte a from h 0 (by omega), ih (a + 1) (fun i hi => by have := h (i + 1) (by omega); rwa [show a + 1 + i = a + (i + 1) by omega])]

theorem writeFrom_mem (q : Acc) (bs : List Byte) : ∀ (s : State) (a : Nat) (r : MemRes), s.isMem q true a bs.length →
    ∃ t, State.writeFrom q s a bs r = (r, t) ∧ s.Stored t a bs := by
  induction bs with
  | nil => intro s a r _; exact ⟨s, rfl, ⟨rfl, fun _ _ => rfl, Keep.rfl' s⟩⟩
  | cons b l ih =>
    intro s a r h
    have p := h 0 (by simp)
    rw [Nat.add_zero] at p
    unfold State.writeFrom
    rw [p]
    dsimp only
    obtain ⟨t, h1, h2⟩ := ih ((s.setMark a 0).setMemByte a b) (a + 1) r (fun i hi => by
      rw [place_setMemByte, place_setMark]
      have := h (i + 1) (by simp; omega)
      rwa [show a + 1 + i = a + (i + 1) by omega])
    refine ⟨t, h1, ⟨?_, ?_, ?_⟩⟩
    · simp only [List.length_cons, State.memBytes]
      rw [h2.bytes, h2.others a (by omega), memByte_setMemByte, if_pos rfl]
    · intro x hx
      simp only [List.length_cons] at hx
      rw [h2.others x (by omega), memByte_setMemByte, if_neg (by omega), memByte_setMark]
    · exact (setMemByte_keep _ a b (setMark_keep s a 0 (Keep.rfl' s) (within_of (by decide))) (within_of (by decide))).trans h2.keeps

theorem Keep.bal {fs : List Field} {s0 t : State} (h : Keep fs s0 t) (b : Balustrade) (hf : Field.bal ∈ fs) :
    Keep fs s0 { t with bal := b } :=
  h.trans ⟨rfl, rfl, fun c => ⟨c.od, c.odb, c.cells, c.marks, c.host⟩, fun b => ⟨b.log, b.lost⟩, Nat.le_refl _,
    Field.same_of_ne hf (fun f e => by cases f <;> first | rfl | exact absurd rfl e)⟩

/-- A store whose start and end differ from `u` and `v` in the balustrade's counts alone. -/
theorem stored_bal {u v : State} {a : Nat} {bs : List Byte} (b c : Balustrade) (h : State.Stored { u with bal := b } v a bs) :
    u.Stored { v with bal := c } a bs :=
  ⟨(memBytes_bal v c a _).trans h.bytes, fun x hx => h.others x hx,
    (((Keep.rfl' u).bal b (by decide)).trans h.keeps).bal c (by decide)⟩

theorem memWrite_mem (q : Acc) (s : State) (a : Nat) (bs : List Byte) (h1 : s.isMem q true a bs.length)
    (h2 : s.writable q a bs.length) : ∃ t, s.memWrite q a bs = ({}, t) ∧ s.Stored t a bs := by
  obtain ⟨r, ht, hr⟩ := transfer_smooth s q a h2.2
  obtain ⟨t, h3, h4⟩ := writeFrom_mem q bs { s with bal := { s.bal with transfers := r } } a {} h1
  obtain ⟨b, hb, -⟩ := noteIf_bal t q {} [(a, bs.length)]
  refine ⟨{ t with bal := b }, ?_, stored_bal _ _ h4⟩
  have h5 : State.partialBad { s with bal := { s.bal with transfers := r } } q (inSpan a bs.length) (rangeFrom a bs.length) = none := h2.1
  unfold State.memWrite
  rw [ht]
  dsimp only
  unfold State.writeDone
  rw [h5]
  dsimp only
  rw [h3]
  dsimp only
  rw [countWin_none _ _ _ rfl, hb]

theorem ea_int (c : Core) (ra : Nat) (imm : BitVec 32) : c.ea ra imm = c.effective ra imm := by
  unfold Core.ea Core.effective immS
  congr 1
  apply BitVec.eq_of_toInt_eq
  simp [BitVec.toInt_signExtend_of_le, BitVec.toInt_add]

theorem stageLoad_clean (s : State) (n : Nat) (e : Entry) (a len : Nat) (h1 : s.isMem (s.stageAcc n e) false a len) (h2 : s.clean a len)
    (h3 : s.firstSealed a len = none ∨ (s.core n).sealed = true) :
    ∃ b, s.stageLoad n e a len = (some (s.memBytes a len), { s with bal := b }) ∧ State.smooth { s with bal := b } := by
  obtain ⟨b, hb, hs⟩ := memRead_clean _ s a len h1 h2
  refine ⟨b, ?_, hs⟩
  have h : s.stageRead n e a len = ({ bytes := s.memBytes a len }, { s with bal := b }) := by
    unfold State.stageRead
    have : (if (s.firstSealed a len).isSome then s.sealStage n else s) = s := by
      rcases h3 with h3 | h3
      · rw [h3]; rfl
      · unfold State.sealStage; simp [h3]
    rw [this]
    exact hb
  unfold State.stageLoad
  rw [h]
  rfl

theorem firstByte_none {p : Nat → Bool} (len : Nat) : ∀ a, (∀ i, i < len → p (a + i) = false) → firstByte p a len = none := by
  induction len with
  | zero => intro a _; rfl
  | succ k ih =>
    intro a h
    unfold firstByte
    rw [show p a = false from h 0 (by omega), ih (a + 1) (fun i hi => by
      have := h (i + 1) (by omega); rwa [show a + 1 + i = a + (i + 1) by omega])]
    rfl

@[simp] theorem leBytes_length (n v : Nat) : (leBytes n v).length = n := by
  induction n generalizing v with
  | zero => rfl
  | succ k ih => simp [leBytes, ih]

theorem firstInParts_one (p : Nat → Bool) (a : Nat) (bs : List Byte) : firstInParts p [(a, bs)] = firstByte p a bs.length := by
  simp only [firstInParts]
  split <;> simp [*]

theorem stored_core {u v : State} {a : Nat} {bs : List Byte} (h : u.Stored v a bs) (n : Nat) : v.core n = u.core n := by
  unfold State.core; rw [h.keeps.part .cores]

/-- A store of the stage that nothing turns away. -/

theorem stageWrite_mem (u : State) (n : Nat) (e : Entry) (a : Nat) (bs : List Byte)
    (h1 : ∀ i, i < bs.length → u.protects n (a + i) = false) (h2 : u.isMem (u.stageAcc n e) true a bs.length)
    (h3 : u.writable (u.stageAcc n e) a bs.length)
    (h4 : (u.core n).sealed = false ∧ (u.core n).emitter = false ∨ (∀ i, i < bs.length → u.sealedByte (a + i) = true)) :
    ∃ v, u.stageWrite n e a bs = (true, v) ∧ u.Stored v a bs := by
  obtain ⟨r, ht, hr⟩ := transfer_smooth u (u.stageAcc n e) a h3.2
  obtain ⟨t, h5, h6⟩ := writeFrom_mem (u.stageAcc n e) bs { u with bal := { u.bal with transfers := r } } a {} h2
  obtain ⟨b, hb, -⟩ := noteIf_bal t (u.stageAcc n e) {} [(a, bs.length)]
  refine ⟨{ t with bal := b }, ?_, stored_bal _ _ h6⟩
  have h7 : State.partialBad { u with bal := { u.bal with transfers := r } } (u.stageAcc n e)
      (fun y => [(a, bs)].any (fun x => inSpan x.1 x.2.length y)) ([(a, bs)].flatMap (fun x => rangeFrom x.1 x.2.length)) = none := by
    have : (fun y => [(a, bs)].any (fun x => inSpan x.1 x.2.length y)) = inSpan a bs.length := by
      funext y; simp
    rw [this]
    simp only [List.flatMap_cons, List.flatMap_nil, List.append_nil]
    exact h3.1
  have hw : u.writeParts (u.stageAcc n e) [(a, bs)] = (({} : MemRes), { t with bal := b }) := by
    unfold State.writeParts
    dsimp only
    rw [ht]
    dsimp only
    unfold State.partsDone
    rw [h7]
    simp only [List.foldl_cons, List.foldl_nil, h5, List.map_cons, List.map_nil]
    rw [countWin_none _ _ _ rfl, hb]
  unfold State.stageWrite State.stageWriteParts
  dsimp only
  rw [firstInParts_one, firstByte_none bs.length a h1]
  dsimp only
  have hd : (if (u.core n).emitter then countInParts (fun x => !u.sealedByte x && u.performs { agent := n, ctx := some (u.stageTen e) } x) [(a, bs)] else 0) = 0 := by
    rcases h4 with ⟨_, h4⟩ | h4
    · rw [h4]; rfl
    · have : countInParts (fun x => !u.sealedByte x && u.performs { agent := n, ctx := some (u.stageTen e) } x) [(a, bs)] = 0 := by
        simp only [countInParts, List.map_cons, List.map_nil, List.foldl_cons, List.foldl_nil, Nat.zero_add]
        rw [List.countP_eq_zero]
        intro i hi
        simp [h4 i (List.mem_range.1 hi)]
      rw [this]; split <;> rfl
  have hs : (match firstInParts (fun x => !u.sealedByte x) [(a, bs)] with
      | none => none
      | some x =>
        if (u.core n).emitter then
          (if u.rd OD.EMIT_CAP < (u.item e.slot).emitted + countInParts (fun x => !u.sealedByte x) [(a, bs)] then some (sealedDetail 2 x) else none)
        else if (u.core n).sealed then some (sealedDetail 1 x)
        else none) = none := by
    rcases h4 with ⟨h4, h5⟩ | h4
    · rw [h4, h5]; split <;> rfl
    · rw [firstInParts_one, firstByte_none bs.length a (fun i hi => by simp [h4 i hi])]
  rw [hd]
  split
  · rename_i d hd2
    exact absurd (hs.symm.trans hd2) (by simp)
  · unfold State.stageAcc at hw
    rw [hw]
    rfl

theorem foldN_succ {α : Type} (m : Nat) (f : α → Nat → α) (a : α) : foldN (m + 1) f a = f (foldN m f a) m := by
  simp [foldN, List.range_succ]

theorem foldN_inv {α : Type} (P : α → Prop) (f : α → Nat → α) (h : ∀ a l, P a → P (f a l)) (m : Nat) {a : α} (ha : P a) :
    P (foldN m f a) := by
  induction m with
  | zero => exact ha
  | succ k ih => rw [foldN_succ]; exact h _ _ ih

theorem foldN_pc (k : Nat) (f : Core → Nat → Core) (h : ∀ c l, (f c l).pc = c.pc) (c : Core) : (foldN k f c).pc = c.pc := by
  induction k with
  | zero => rfl
  | succ m ih => rw [foldN_succ, h, ih]

@[simp] theorem setLanes_pc (c : Core) (v p : Nat) (f : Nat → Lane) : (c.setLanes v p f).pc = c.pc := by
  unfold Core.setLanes
  exact foldN_pc 64 _ (fun c l => by split <;> rfl) c

@[simp] theorem setP_pc (c : Core) (i : Nat) (v : Word) : (c.setP i v).pc = c.pc := by
  unfold Core.setP; split <;> rfl

theorem lanes_of {s u : State} {n vd va vb pred : Nat} {legal : Bool} {e : Entry} {i : Instr} (h : s.Issues n e u)
    (f : Lane → Lane → Lane → Lane → Lane) (hi : Sys2Proof.Machine.exec i s = .next (s.vecOp n vd va vb pred legal f))
    (hl : legal = true) {g : (Nat → Lane) → Nat → Lane}
    (hg : ∀ free l, f (free l) ((u.core n).lane vd l) ((u.core n).lane va l) ((u.core n).lane vb l) = g free l) :
    s.Lanes u n i vd pred g := by
  subst hl
  refine ⟨_, hi.trans (congrArg Host.Outcome.next (issue_of h _)), ?_⟩
  have r := retire_retires { u with free := u.free + 1 } n ((u.core n).pc + 8) ((u.core n).setLanes vd pred (g (Config.freeLane u.free)))
  have hf : (fun l => f (Config.freeLane u.free l) ((u.core n).lane vd l) ((u.core n).lane va l) ((u.core n).lane vb l)) = g (Config.freeLane u.free) :=
    funext (fun l => hg _ l)
  simp only [Bool.not_true, Bool.false_eq_true, if_false]
  unfold State.nextWith State.next
  rw [core_setCore_same, setLanes_pc]
  have hc : ({ u with free := u.free + 1 } : State).core n = u.core n := rfl
  rw [hc]
  dsimp only
  rw [hf]
  exact r

theorem illegal_of {s u : State} {n : Fin 32} {vd va vb pred : Nat} {legal : Bool} {e : Entry} {i : Instr} (h : s.Issues n e u)
    (f : Lane → Lane → Lane → Lane → Lane) (hi : Sys2Proof.Machine.exec i s = .next (s.vecOp n vd va vb pred legal f))
    (hl : legal = false) : s.Raises u n e i Exc.illegal 0 := by
  subst hl
  exact raises_of n.2 h _ hi (if_pos rfl)

theorem laneMask_bits (p : Nat → Bool) (l : Nat) (h : l < 64) : (laneMask p).getLsbD l = p l := by
  have key : ∀ m, foldN m (fun v l => if p l then v + 2 ^ l else v) 0 < 2 ^ m ∧
      ∀ l, l < m → (foldN m (fun v l => if p l then v + 2 ^ l else v) 0).testBit l = p l := by
    intro m
    induction m with
    | zero => exact ⟨by simp [foldN], fun l h => absurd h (by omega)⟩
    | succ k ih =>
      obtain ⟨h1, h2⟩ := ih
      rw [foldN_succ]
      refine ⟨by split <;> (rw [Nat.pow_succ]; omega), fun l hl => ?_⟩
      by_cases e : l = k
      · subst e
        split
        · rename_i hp
          rw [Nat.add_comm, Nat.testBit_two_pow_add_eq, Nat.testBit_lt_two_pow h1, hp]; rfl
        · rename_i hp
          rw [Nat.testBit_lt_two_pow h1]; simpa using hp
      · split
        · rw [Nat.add_comm, Nat.testBit_two_pow_add_gt (by omega), h2 l (by omega)]
        · exact h2 l (by omega)
  unfold laneMask
  rw [BitVec.getLsbD_ofNat]
  simp [h, (key 64).2 l h]

theorem setS_sreg (c : Core) (i j : Nat) (v : Word) :
    (c.setS i v).sreg j = if j = 0 then 0#64 else if j = i then v else c.sreg j := by
  unfold Core.setS Core.sreg
  by_cases hj : j = 0
  · simp [hj]
  · simp only [hj, if_false]
    split
    · rw [if_neg (by omega)]
    · exact Sparse.get_put ..

theorem setP_preg (c : Core) (i j : Nat) (v : Word) :
    (c.setP i v).preg j = if j = 0 then BitVec.allOnes 64 else if j = i then v else c.preg j := by
  unfold Core.setP Core.preg
  by_cases hj : j = 0
  · simp [hj]
  · simp only [hj, if_false]
    split
    · rw [if_neg (by omega)]
    · exact Sparse.get_put ..

theorem setLanes_lane (c : Core) (vd pred w l : Nat) (f : Nat → Lane) (hl : l < 64) :
    (c.setLanes vd pred f).lane w l = if w = vd ∧ (c.preg pred).getLsbD l then f l else c.lane w l := by
  have key : ∀ m, m ≤ 64 → (foldN m (fun c' k => if (c.preg pred).getLsbD k then c'.setLane vd k (f k) else c') c).lane w l =
      if w = vd ∧ l < m ∧ (c.preg pred).getLsbD l then f l else c.lane w l := by
    intro m
    induction m with
    | zero => intro _; simp [foldN]
    | succ k ih =>
      intro hk
      rw [foldN_succ]
      have ih := ih (by omega)
      split
      · rename_i hp
        have : (((foldN k (fun c' k => if (c.preg pred).getLsbD k then c'.setLane vd k (f k) else c') c)).setLane vd k (f k)).lane w l =
            if 64 * w + l = 64 * vd + k then f k else (foldN k (fun c' k => if (c.preg pred).getLsbD k then c'.setLane vd k (f k) else c') c).lane w l :=
          Sparse.get_put ..
        rw [this, ih]
        by_cases e : 64 * w + l = 64 * vd + k
        · have e1 : w = vd := by omega
          have e2 : l = k := by omega
          subst e1 e2
          simp [hp]
        · rw [if_neg e]
          have : (w = vd ∧ l < k ∧ (c.preg pred).getLsbD l) ↔ (w = vd ∧ l < k + 1 ∧ (c.preg pred).getLsbD l) := by
            constructor
            · rintro ⟨a, b, d⟩; exact ⟨a, by omega, d⟩
            · rintro ⟨a, b, d⟩; exact ⟨a, by omega, d⟩
          simp only [this]
      · rename_i hp
        rw [ih]
        have : (w = vd ∧ l < k ∧ (c.preg pred).getLsbD l) ↔ (w = vd ∧ l < k + 1 ∧ (c.preg pred).getLsbD l) := by
          constructor
          · rintro ⟨a, b, d⟩; exact ⟨a, by omega, d⟩
          · rintro ⟨a, b, d⟩
            refine ⟨a, ?_, d⟩
            rcases Nat.lt_or_ge l k with h | h
            · exact h
            · exact absurd (show l = k by omega) (fun e => hp (e ▸ d))
        simp only [this]
  have := key 64 (by omega)
  unfold Core.setLanes
  rw [this]
  simp [hl]

theorem slt_int (a b : Word) : (a.slt b = true) ↔ a.toInt < b.toInt := by simp [BitVec.slt]

theorem ult_nat (a b : Word) : (a.ult b = true) ↔ a.toNat < b.toNat := by simp [BitVec.ult]

theorem setWidth_nat (x : BitVec 32) : x.setWidth 64 = BitVec.ofNat 64 x.toNat := by
  apply BitVec.eq_of_toNat_eq; simp

theorem sra_int (a : Word) (k : Nat) : a.sshiftRight k = BitVec.ofInt 64 (a.toInt / 2 ^ k) := by
  apply BitVec.eq_of_toInt_eq
  rw [BitVec.toInt_sshiftRight, Int.shiftRight_eq_div_pow, BitVec.toInt_ofInt]
  have e : ((2 ^ k : Nat) : Int) = 2 ^ k := by push_cast; rfl
  rw [e]
  have p : (1:Int) ≤ 2 ^ k := by have := Int.pow_pos (n := 2) (m := k) (by decide); omega
  have h1 := a.toInt_lt
  have h2 := a.le_toInt
  have l : -(2:Int)^63 ≤ a.toInt / 2 ^ k := by
    apply Int.le_ediv_of_mul_le (by omega); norm_num at *; nlinarith
  have r : a.toInt / 2 ^ k < (2:Int)^63 := by
    apply Int.ediv_lt_of_lt_mul (by omega); norm_num at *; nlinarith
  symm
  apply Int.bmod_eq_of_le <;> norm_num at * <;> omega

theorem i32_ofInt (x : Lane) (i : Int) (h : x.toInt = i.bmod (2 ^ 32)) : x = BitVec.ofInt 32 i := by
  apply BitVec.eq_of_toInt_eq; rw [h]; simp

theorem accwr_core (c : Core) (row pred vd : Nat) :
    foldN 64 (fun x l => if (c.preg pred).getLsbD l then x.setAcc row l (c.lane vd l) else x) c =
    { c with
      acc := (foldN 64 (fun x l => if (c.preg pred).getLsbD l then x.setAcc row l (c.lane vd l) else x) c).acc
      accMarks := (foldN 64 (fun x l => if (c.preg pred).getLsbD l then x.setAcc row l (c.lane vd l) else x) c).accMarks } := by
  refine foldN_inv (fun x : Core => x = { c with acc := x.acc, accMarks := x.accMarks }) _ ?_ 64 rfl
  intro a l ha
  split
  · unfold Core.setAcc; rw [ha]
  · exact ha

theorem setAcc_accAt (c : Core) (r q k l : Nat) (x : Lane) (hk : k < 64) (hl : l < 64) :
    (c.setAcc r k x).accAt q l = if q = r ∧ l = k then x else c.accAt q l := by
  have : (c.setAcc r k x).accAt q l = if 64 * q + l = 64 * r + k then x else c.accAt q l := Sparse.get_put ..
  rw [this]
  have e : (64 * q + l = 64 * r + k) ↔ (q = r ∧ l = k) := by omega
  simp only [e]

theorem accwr_acc (c : Core) (row pred vd q l : Nat) (hl : l < 64) :
    (foldN 64 (fun x l => if (c.preg pred).getLsbD l then x.setAcc row l (c.lane vd l) else x) c).accAt q l =
    if q = row ∧ (c.preg pred).getLsbD l then c.lane vd l else c.accAt q l := by
  have key : ∀ m, m ≤ 64 → (foldN m (fun x l => if (c.preg pred).getLsbD l then x.setAcc row l (c.lane vd l) else x) c).accAt q l =
      if q = row ∧ l < m ∧ (c.preg pred).getLsbD l then c.lane vd l else c.accAt q l := by
    intro m
    induction m with
    | zero => intro _; simp [foldN]
    | succ k ih =>
      intro hk
      rw [foldN_succ]
      have ih := ih (by omega)
      split
      · rename_i hp
        rw [setAcc_accAt _ _ _ _ _ _ (by omega) hl, ih]
        by_cases e1 : q = row
        · by_cases e2 : l = k
          · subst e2; simp [e1, hp]
          · have : (l < k) ↔ (l < k + 1) := by omega
            simp [e1, e2, this]
        · simp [e1]
      · rename_i hp
        rw [ih]
        by_cases e2 : l = k
        · subst e2; simp [hp]
        · have : (l < k) ↔ (l < k + 1) := by omega
          simp [this]
  rw [key 64 (by omega)]
  simp [hl]

theorem get_append_ne {α : Type} (d : Nat → α) (m : Sparse α) (k j : Nat) (v : α) (h : j ≠ k) : Sparse.get d (m ++ [(k, v)]) j = Sparse.get d m j := by
  induction m with
  | nil => simp [Sparse.get, h]
  | cons e r ih => obtain ⟨a, b⟩ := e; simp only [List.cons_append, Sparse.get, ih]

theorem get_append_same {α : Type} (d : Nat → α) (m : Sparse α) (k : Nat) (v : α) (h : ∀ e ∈ m, e.1 ≠ k) : Sparse.get d (m ++ [(k, v)]) k = v := by
  induction m with
  | nil => simp [Sparse.get]
  | cons e r ih =>
    obtain ⟨a, b⟩ := e
    simp only [List.cons_append, Sparse.get]
    rw [if_neg (fun x => h (a, b) (by simp) x.symm), ih (fun e he => h e (by simp [he]))]

theorem get_absent {α : Type} (d : Nat → α) (m : Sparse α) (k : Nat) (h : ∀ e ∈ m, e.1 ≠ k) : Sparse.get d m k = d k := by
  induction m with
  | nil => rfl
  | cons e r ih =>
    obtain ⟨a, b⟩ := e
    simp only [Sparse.get]
    rw [if_neg (fun x => h (a, b) (by simp) x.symm), ih (fun e he => h e (by simp [he]))]

theorem table_get (f : Nat → Nat) (m : Nat) :
    (∀ e ∈ foldN m (fun t i => if f i = 0 then t else t ++ [(i, f i)]) ([] : Sparse Nat), e.1 < m) ∧
    ∀ j, j < m → Sparse.get (fun _ => 0) (foldN m (fun t i => if f i = 0 then t else t ++ [(i, f i)]) ([] : Sparse Nat)) j = f j := by
  induction m with
  | zero => exact ⟨by simp [foldN], fun j h => absurd h (by omega)⟩
  | succ k ih =>
    obtain ⟨h1, h2⟩ := ih
    rw [foldN_succ]
    split
    · rename_i hf
      refine ⟨fun e he => Nat.lt_succ_of_lt (h1 e he), fun j hj => ?_⟩
      rcases Nat.lt_or_ge j k with h | h
      · exact h2 j h
      · have e : j = k := by omega
        subst e
        rw [get_absent _ _ _ (fun e he => by have := h1 e he; omega), hf]
    · refine ⟨fun e he => ?_, fun j hj => ?_⟩
      · rw [List.mem_append] at he
        rcases he with he | he
        · exact Nat.lt_succ_of_lt (h1 e he)
        · rw [List.mem_singleton] at he; rw [he]; exact Nat.lt_succ_self k
      · rcases Nat.lt_or_ge j k with h | h
        · rw [get_append_ne _ _ _ _ _ (by omega), h2 j h]
        · have e : j = k := by omega
          subst e
          exact get_append_same _ _ _ _ (fun e he => by have := h1 e he; omega)

theorem tile_at (rows : List (List Nat)) (tr : Bool) (dtype depth k : Nat) {l : Nat} (hk : k < depth) (hl : l < 64) :
    WTile.at ⟨dtype, depth, tileCodes rows tr depth⟩ k l = if tr then (rows.getD l []).getD k 0 else (rows.getD k []).getD l 0 := by
  have := (table_get (fun i => if tr then (rows.getD (i % 64) []).getD (i / 64) 0 else (rows.getD (i / 64) []).getD (i % 64) 0) (64 * depth)).2 (64 * k + l) (by omega)
  unfold WTile.at tileCodes
  refine this.trans ?_
  have e1 : (64 * k + l) / 64 = k := by omega
  have e2 : (64 * k + l) % 64 = l := by omega
  rw [e1, e2]

theorem raisesArray_of {s u : State} {n : Nat} (hn : n < 32) {e : Entry} {i : Instr} (h : s.Issues n e u) {code : Nat}
    (g : Entry → State → State) (hi : Sys2Proof.Machine.exec i s = .next (s.issue n g)) (hg : g e u = u.arrayExc n e code) :
    s.RaisesArray u n e i code := excepts_of (addr := 0) hn h g hi hg

theorem mmaRow_fold (c : Core) (seed m : Nat) (x : Mma) (xs : List Nat) (r q l : Nat) (hl : l < 64) (k : Nat) (hk : k ≤ 64) :
    (foldN k (Core.mmaCell seed r m x xs) (c, 0)).1.accAt q l =
    if q = r ∧ l < k then
      (accumulate x.accum (c.accAt q l) (Config.freeLane seed (64 * m + l)) xs x.dtype x.tile l).1
    else c.accAt q l := by
  induction k with
  | zero => simp [foldN]
  | succ k ih =>
    have ih := ih (by omega)
    rw [foldN_succ]
    show ((foldN k (Core.mmaCell seed r m x xs) (c, 0)).1.setAcc r k _).accAt q l = _
    rw [setAcc_accAt _ _ _ _ _ _ (by omega) hl]
    split
    · rename_i h
      obtain ⟨h1, h2⟩ := h
      rw [if_pos ⟨h1, by omega⟩]
      rw [if_neg (by omega)] at ih
      subst h2 h1
      rw [ih]
    · rename_i h
      rw [ih]
      have : (q = r ∧ l < k) ↔ (q = r ∧ l < k + 1) := by omega
      simp only [this]

theorem mmaRow_acc (c : Core) (seed m : Nat) (x : Mma) (xs : List Nat) (q l : Nat) (hl : l < 64) :
    (c.mmaRow seed x m xs).1.accAt q l = if q = (64 * x.acc + m) % 256 then
      (accumulate x.accum (c.accAt q l) (Config.freeLane seed (64 * m + l)) xs x.dtype x.tile l).1 else c.accAt q l := by
  have h := mmaRow_fold c seed m x xs ((64 * x.acc + m) % 256) q l hl 64 (by omega)
  simp only [hl, and_true] at h
  rw [← h]
  unfold Core.mmaRow
  dsimp only
  generalize foldN 64 (Core.mmaCell seed ((64 * x.acc + m) % 256) m x xs) (c, 0) = r
  rfl

theorem foldl_inv {α β : Type} (P : α → Prop) (f : α → β → α) (h : ∀ a b, P a → P (f a b)) (l : List β) {a : α} (ha : P a) : P (l.foldl f a) := by
  induction l generalizing a with
  | nil => exact ha
  | cons x r ih => exact ih (h _ _ ha)

theorem mmaRow_stepping (c : Core) (seed m : Nat) (x : Mma) (xs : List Nat) : (c.mmaRow seed x m xs).1.stepping = c.stepping := by
  have h := foldN_inv (fun p : Core × Nat => p.1.stepping = c.stepping) (Core.mmaCell seed ((64 * x.acc + m) % 256) m x xs)
    (fun a l (ha : a.1.stepping = c.stepping) => by rw [← ha]; rfl) 64 (a := (c, 0)) rfl
  rw [← h]
  unfold Core.mmaRow
  dsimp only
  generalize foldN 64 (Core.mmaCell seed ((64 * x.acc + m) % 256) m x xs) (c, 0) = r
  rfl

theorem mmaRows_stepping (c : Core) (seed : Nat) (x : Mma) : (c.mmaRows seed x).1.stepping = c.stepping := by
  unfold Core.mmaRows
  refine foldl_inv (fun p : Core × Nat => p.1.stepping = c.stepping) _ ?_ _ rfl
  intro a b ha
  dsimp only
  rw [mmaRow_stepping]
  exact ha

theorem mmaCounted_keep' (s : State) (n : Nat) (rep : MmaReport) (b : Bool) : Keep [.od] s (s.mmaCounted n rep b) ∧ (s.mmaCounted n rep b).free = s.free := by
  unfold State.mmaCounted
  refine ⟨?_, by split <;> rfl⟩
  split <;> exact bumpN_keep _ _ _ (bumpN_keep _ _ _ (Keep.rfl' s))

/-- Core n after its oldest MMA has left the array. -/
def mmaLeft (s : State) (n : Nat) (rep : MmaReport) (rest : List Mma) : Core :=
  { s.core n with mmas := rest, gated := (s.core n).gated && !rep.fed }

def mmaPopped (s : State) (n : Nat) (rep : MmaReport) (x : Mma) (rest : List Mma) : State :=
  (s.setCore n (mmaLeft s n rep rest)).mmaCounted n rep x.bubble

theorem mmaCounted_core (s : State) (n : Nat) (rep : MmaReport) (x : Mma) (rest : List Mma) :
    (mmaPopped s n rep x rest).core n = mmaLeft s n rep rest ∧ (∀ m, m ≠ n → (mmaPopped s n rep x rest).core m = s.core m) ∧
    (mmaPopped s n rep x rest).free = s.free ∧ Keep [.od, .cores] s (mmaPopped s n rep x rest) := by
  have k := mmaCounted_keep' (s.setCore n (mmaLeft s n rep rest)) n rep x.bubble
  unfold mmaPopped
  have c : ∀ m, ((s.setCore n (mmaLeft s n rep rest)).mmaCounted n rep x.bubble).core m = (s.setCore n (mmaLeft s n rep rest)).core m := by
    intro m; exact core_of_cores (k.1.part .cores) m
  refine ⟨?_, fun m h => ?_, k.2, ?_⟩
  · rw [c, core_setCore_same]
  · rw [c, core_setCore_ne s h]
  · exact (setCore_keep _ _ _ (Keep.rfl' s) (within_of (by decide))).trans (k.1.mono (within_of (by decide)))

theorem rd_bumpN (s : State) (k n j : Nat) : (s.bumpN k n).rd j = if j = k then min (s.rd k + n) 0xFFFFFFFF else s.rd j := rd_wr ..

/-- An MMA whose accumulator entries hold no error reads them, and the core is left as it was. -/
theorem accRead_sound (v : State) (n : Nat) (p : Nat → Bool) (h : ∀ e ∈ (v.core n).accMarks, p e.1 = false) :
    v.accRead n p = (false, v.setCore n (v.core n)) := by
  have h1 : (v.core n).accMarks.filter (fun e => p e.1) = [] := by
    rw [List.filter_eq_nil_iff]; intro e he; simp [h e he]
  have h2 : (v.core n).accMarks.filter (fun e => !(p e.1 && decide (e.2 = 1))) = (v.core n).accMarks := by
    rw [List.filter_eq_self]; intro e he; simp [h e he]
  unfold State.accRead
  dsimp only
  rw [h1, h2]
  rfl

theorem mmaAdd_facts (v : State) (n : Nat) (x : Mma) (hs : (v.core n).stepping = false) :
    let r := (v.core n).mmaRows v.free x
    let t := v.mmaAdd n x
    t.core n = r.1.applyRegw ∧ (∀ m, m ≠ n → t.core m = v.core m) ∧
      t.rd (OD.SAT_EVENTS n) = (if r.2 = 0 then v.rd (OD.SAT_EVENTS n) else min (v.rd (OD.SAT_EVENTS n) + 1) 0xFFFFFFFF) ∧
      t.rd (OD.INSTRUCTIONS n) = min (v.rd (OD.INSTRUCTIONS n) + 1) 0xFFFFFFFFFFFFFFFF ∧
      v.SameBut t [OD.SAT_EVENTS n, OD.INSTRUCTIONS n] := by
  have hr := mmaRows_stepping (v.core n) v.free x
  generalize hq : (v.core n).mmaRows v.free x = r at hr
  have e : v.mmaAdd n x =
      (let u := if r.2 = 0 then State.setCore { v with free := v.free + 1 } n r.1
          else (State.setCore { v with free := v.free + 1 } n r.1).bump (OD.SAT_EVENTS n)
       (u.setCore n (u.core n).applyRegw).countInstr n) := by
    unfold State.mmaAdd
    dsimp only
    rw [hq, if_neg (by rw [hr, hs]; simp)]
  have ne : OD.SAT_EVENTS n ≠ OD.INSTRUCTIONS n := by unfold OD.SAT_EVENTS OD.INSTRUCTIONS; omega
  generalize hu : (if r.2 = 0 then State.setCore { v with free := v.free + 1 } n r.1
          else (State.setCore { v with free := v.free + 1 } n r.1).bump (OD.SAT_EVENTS n)) = u at e
  have u1 : u.core n = r.1 := by
    rw [← hu]; split
    · exact core_setCore_same ..
    · exact core_setCore_same { v with free := v.free + 1 } n r.1
  have u2 : ∀ m, m ≠ n → u.core m = v.core m := by
    intro m hm
    rw [← hu]; split
    · exact core_setCore_ne { v with free := v.free + 1 } hm r.1
    · exact core_setCore_ne { v with free := v.free + 1 } hm r.1
  have u3 : u.rd (OD.SAT_EVENTS n) = (if r.2 = 0 then v.rd (OD.SAT_EVENTS n) else min (v.rd (OD.SAT_EVENTS n) + 1) 0xFFFFFFFF) := by
    rw [← hu]; split
    · rfl
    · exact rd_wr_same ..
  have u4 : ∀ k, k ≠ OD.SAT_EVENTS n → u.rd k = v.rd k := by
    intro k hk
    rw [← hu]; split
    · rfl
    · exact rd_wr_ne _ hk _
  have w1 : ∀ k, k ≠ OD.INSTRUCTIONS n → ((u.setCore n (u.core n).applyRegw).countInstr n).rd k = u.rd k := fun k hk => rd_wr_ne _ hk _
  dsimp only at e ⊢
  rw [e]
  refine ⟨?_, fun m hm => ?_, ?_, ?_, ⟨fun k hk => ?_⟩⟩
  · rw [← u1]; exact core_setCore_same u n _
  · rw [← u2 m hm]; exact core_setCore_ne u hm _
  · rw [w1 _ ne, u3]
  · rw [← u4 _ ne.symm]
    show ((u.setCore n (u.core n).applyRegw).bump64 (OD.INSTRUCTIONS n) 1).rd (OD.INSTRUCTIONS n) = _
    simp [State.bump64, State.bumpTo]
    rfl
  · simp only [List.mem_cons, List.not_mem_nil, or_false, not_or] at hk
    rw [w1 _ hk.2, u4 _ hk.1]

theorem mmaDone_ok (s : State) (n : Nat) (rep : MmaReport) (x : Mma) (rest : List Mma) (hm : (s.core n).mmas = x :: rest)
    (hp : rep.parity = false) (hc : ∀ e ∈ (s.core n).accMarks, x.reads e.1 = false) :
    s.mmaDone n rep = ((mmaPopped s n rep x rest).setCore n (mmaLeft s n rep rest)).mmaAdd n x := by
  have h := mmaCounted_core s n rep x rest
  unfold State.mmaDone
  dsimp only
  rw [hm]
  dsimp only
  rw [hp, if_neg (by simp)]
  have := accRead_sound (mmaPopped s n rep x rest) n x.reads (by rw [h.1]; exact hc)
  rw [h.1] at this
  unfold mmaPopped mmaLeft at this ⊢
  rw [this]

theorem mmaKept_facts (s : State) (n : Nat) (rep : MmaReport) (x : Mma) (rest : List Mma) (hm : (s.core n).mmas = x :: rest)
    (hp : rep.parity = false) (hc : ∀ e ∈ (s.core n).accMarks, x.reads e.1 = false) (hs : (s.core n).stepping = false) :
   let r := Core.mmaRows (mmaLeft s n rep rest) s.free x
   let t := s.mmaDone n rep
   t.core n = r.1.applyRegw ∧
      (∀ m, m ≠ n → t.core m = s.core m) ∧
      t.rd (OD.KEEPER_CYCLES n) = min (s.rd (OD.KEEPER_CYCLES n) + s.keeperCycles rep.gaps) 0xFFFFFFFF ∧
      t.rd (OD.FEED_BUBBLES n) = (if x.bubble then min (s.rd (OD.FEED_BUBBLES n) + rep.late.toNat) 0xFFFFFFFF
        else s.rd (OD.FEED_BUBBLES n)) ∧
      t.rd (OD.FEED_STALL_CYCLES n) = (if x.bubble then s.rd (OD.FEED_STALL_CYCLES n)
        else min (s.rd (OD.FEED_STALL_CYCLES n) + rep.late.toNat) 0xFFFFFFFF) ∧
      t.rd (OD.SAT_EVENTS n) = (if r.2 = 0 then s.rd (OD.SAT_EVENTS n)
        else min (s.rd (OD.SAT_EVENTS n) + 1) 0xFFFFFFFF) ∧
      t.rd (OD.INSTRUCTIONS n) = min (s.rd (OD.INSTRUCTIONS n) + 1) 0xFFFFFFFFFFFFFFFF ∧
      s.SameBut t [OD.KEEPER_CYCLES n, OD.FEED_BUBBLES n, OD.FEED_STALL_CYCLES n, OD.SAT_EVENTS n, OD.INSTRUCTIONS n] := by
  have h := mmaCounted_core s n rep x rest
  have a := mmaAdd_facts ((mmaPopped s n rep x rest).setCore n (mmaLeft s n rep rest)) n x
    (by rw [core_setCore_same]; exact hs)
  rw [core_setCore_same] at a
  have hf : ((mmaPopped s n rep x rest).setCore n (mmaLeft s n rep rest)).free = s.free := h.2.2.1
  rw [hf] at a
  rw [mmaDone_ok s n rep x rest hm hp hc]
  obtain ⟨a1, a2, a3, a4, ⟨a5⟩⟩ := a
  have kc : ∀ v : State, v.od = s.od → v.keeperCycles rep.gaps = s.keeperCycles rep.gaps := by
    intro v hv; unfold State.keeperCycles; rw [rd_of_od hv]
  have c : ∀ k, ((mmaPopped s n rep x rest).setCore n (mmaLeft s n rep rest)).rd k = if k = OD.KEEPER_CYCLES n then min ((if x.bubble then
        (s.bumpN (OD.FEED_BUBBLES n) rep.late.toNat) else (s.bumpN (OD.FEED_STALL_CYCLES n) rep.late.toNat)).rd (OD.KEEPER_CYCLES n) + s.keeperCycles rep.gaps) 0xFFFFFFFF
      else (if x.bubble then (s.bumpN (OD.FEED_BUBBLES n) rep.late.toNat) else (s.bumpN (OD.FEED_STALL_CYCLES n) rep.late.toNat)).rd k := by
    intro k
    show (mmaPopped s n rep x rest).rd k = _
    unfold mmaPopped State.mmaCounted
    rw [rd_bumpN, kc _ rfl]
    cases x.bubble <;> (split <;> rfl)
  have n1 : OD.KEEPER_CYCLES n ≠ OD.FEED_BUBBLES n := by unfold OD.KEEPER_CYCLES OD.FEED_BUBBLES; omega
  have n2 : OD.KEEPER_CYCLES n ≠ OD.FEED_STALL_CYCLES n := by unfold OD.KEEPER_CYCLES OD.FEED_STALL_CYCLES; omega
  have n3 : OD.KEEPER_CYCLES n ≠ OD.SAT_EVENTS n := by unfold OD.KEEPER_CYCLES OD.SAT_EVENTS; omega
  have n4 : OD.FEED_BUBBLES n ≠ OD.FEED_STALL_CYCLES n := by unfold OD.FEED_BUBBLES OD.FEED_STALL_CYCLES; omega
  have n5 : OD.FEED_BUBBLES n ≠ OD.SAT_EVENTS n := by unfold OD.FEED_BUBBLES OD.SAT_EVENTS; omega
  have n6 : OD.FEED_STALL_CYCLES n ≠ OD.SAT_EVENTS n := by unfold OD.FEED_STALL_CYCLES OD.SAT_EVENTS; omega
  have m1 : OD.KEEPER_CYCLES n ≠ OD.INSTRUCTIONS n := by unfold OD.KEEPER_CYCLES OD.INSTRUCTIONS; omega
  have m2 : OD.FEED_BUBBLES n ≠ OD.INSTRUCTIONS n := by unfold OD.FEED_BUBBLES OD.INSTRUCTIONS; omega
  have m3 : OD.FEED_STALL_CYCLES n ≠ OD.INSTRUCTIONS n := by unfold OD.FEED_STALL_CYCLES OD.INSTRUCTIONS; omega
  refine ⟨a1, fun m hm => ?_, ?_, ?_, ?_, ?_, ?_, ⟨fun k hk => ?_⟩⟩
  · rw [a2 m hm, core_setCore_ne _ hm]; exact h.2.1 m hm
  · rw [a5 _ (by simp [n3, m1]), c, if_pos rfl]
    split <;> simp [rd_bumpN, n1, n2]
  · rw [a5 _ (by simp [n5, m2]), c, if_neg n1.symm]
    split <;> simp [rd_bumpN, n4]
  · rw [a5 _ (by simp [n6, m3]), c, if_neg n2.symm]
    split <;> simp [rd_bumpN, n4.symm]
  · rw [a3, c, if_neg n3.symm]
    split <;> (split <;> simp [rd_bumpN, n5.symm, n6.symm])
  · rw [a4, c, if_neg m1.symm]
    split <;> simp [rd_bumpN, m2.symm, m3.symm]
  · simp only [List.mem_cons, List.not_mem_nil, or_false, not_or] at hk
    rw [a5 _ (by simp [hk]), c, if_neg hk.1]
    split <;> simp [rd_bumpN, hk]

theorem mmaDone_parity (s : State) (n : Nat) (rep : MmaReport) (x : Mma) (rest : List Mma) (hm : (s.core n).mmas = x :: rest)
    (hc : rep.parity = true) : ∃ v, s.mmaDone n rep = v.lateArrayExc n ArrayExc.weightParity x ∧ Keep [.od, .cores] s v ∧
      v.core n = { mmaLeft s n rep rest with active := none, shadow := none } := by
  have h := mmaCounted_core s n rep x rest
  refine ⟨(mmaPopped s n rep x rest).setCore n { (mmaPopped s n rep x rest).core n with active := none, shadow := none }, ?_, setCore_keep _ _ _ h.2.2.2, ?_⟩
  · unfold State.mmaDone
    dsimp only
    rw [hm]
    dsimp only
    rw [hc, if_pos rfl]
    rfl
  · rw [core_setCore_same, h.1]

/-- The entry of an MMA holds an uncorrectable error. -/
theorem mmaDone_acc (s : State) (n : Nat) (rep : MmaReport) (x : Mma) (rest : List Mma) (hm : (s.core n).mmas = x :: rest)
    (hp : rep.parity = false) (hc : ∃ e ∈ (s.core n).accMarks, x.reads e.1 = true ∧ e.2 = 2) :
    ∃ v, s.mmaDone n rep = v.lateArrayExc n ArrayExc.accUncorrectable x ∧ Keep [.od, .host, .falt, .cores] s v ∧
      v.core n = { mmaLeft s n rep rest with
        accMarks := (s.core n).accMarks.filter (fun e => !(x.reads e.1 && decide (e.2 = 1))) } := by
  have h := mmaCounted_core s n rep x rest
  have e : s.mmaDone n rep = match (mmaPopped s n rep x rest).accRead n x.reads with
      | (true, s) => s.lateArrayExc n ArrayExc.accUncorrectable x
      | (false, s) => s.mmaAdd n x := by
    unfold State.mmaDone
    dsimp only
    rw [hm]
    dsimp only
    rw [hp, if_neg (by simp)]
    rfl
  have k := accRead_keep (mmaPopped s n rep x rest) n x.reads (h.2.2.2.mono (within_of (by decide)) : Keep [.od, .host, .falt, .cores] s _)
  have b : ((mmaPopped s n rep x rest).accRead n x.reads).1 = true := by
    unfold State.accRead
    dsimp only
    rw [h.1, List.any_eq_true]
    obtain ⟨y, h1, h2, h3⟩ := hc
    exact ⟨y, List.mem_filter.2 ⟨h1, h2⟩, by simp [h3]⟩
  have c : ((mmaPopped s n rep x rest).accRead n x.reads).2.core n = { mmaLeft s n rep rest with
        accMarks := (s.core n).accMarks.filter (fun e => !(x.reads e.1 && decide (e.2 = 1))) } := by
    unfold State.accRead
    dsimp only
    rw [h.1]
    have kk : ∀ (l : List (Nat × Nat)) (w : State),
        Keep [.od, .host, .falt] w (l.foldl (fun s _ => s.record FaultClass.corrected n (2 + n / 4) 0 0 0) w) := fun l w =>
      Keep.foldl _ _ _ (fun _ _ hk => record_keep _ _ _ _ _ _ _ hk (within_of (by decide))) (Keep.rfl' w)
    rw [core_of_cores ((kk _ _).part .cores), core_setCore_same]
    rfl
  generalize (mmaPopped s n rep x rest).accRead n x.reads = p at e k b c
  obtain ⟨r, v⟩ := p
  subst b
  exact ⟨v, e, k, c⟩

end Sys2Proof.Machine
end

