-- ==== Sys2Proof/Laws/LandLaws.lean ====
section
/-!
SUPPORT. Lemmas about the landings.
-/

set_option Elab.async false

namespace Sys2Proof.Machine

set_option linter.all false

theorem traceLanding_rd (s : State) (l o a : Nat) (sa r e : Bool) (w : Nat) {k : Nat} (h : k ∉ traceKeys) :
    (s.traceLanding l o a sa r e w).rd k = s.rd k := by
  unfold State.traceLanding
  split
  · exact tracePacket_rd _ _ _ h
  · rfl

theorem landRaw_of_land {s t : State} (h : t.land = s.land) (M : Nat) : t.landRaw M = s.landRaw M := by unfold State.landRaw; rw [h]

theorem port_of_land {s t : State} (h : t.land = s.land) (M : Nat) : t.port M = s.port M := by unfold State.port; rw [h]

/-- What an applied operation leaves is what `landApply` leaves, but for the trace unit. -/

theorem landOp_lands {s v : State} {q : Requester} {L rd w : Nat} {op : LandOp} {r : LandRes} {rel : Bool} {p : LandPort} {ks : List Nat}
    (h : s.landsOn q L op) (ha : s.landApply q.agent.val L op rd = (r, v, rel)) (hr : r ≠ .error)
    (h1 : v.landRaw L = w % 2 ^ 64) (h2 : v.port L = p) (h3 : ∀ M, M ≠ L → v.landRaw M = s.landRaw M)
    (h4 : ∀ M, M ≠ L → v.port M = s.port M) (h5 : s.SameBut v (ks ++ traceKeys))
    (h6 : Keep [.od, .host, .land, .falt, .trc, .flit] s v) :
    ∃ t, s.landOp q L op rd = (some r, t) ∧ s.Lands t L w p ks ∧ t.land = v.land ∧
      (∀ k, k ∉ traceKeys → t.rd k = v.rd k) ∧ t.flit = v.flit := by
  obtain ⟨g1, g2, g3⟩ := h
  have e : s.landOp q L op rd = (some r, v.traceLanding L (min (op.offset / 8) 15) q.agent.val (satShown (v.landRaw L)) rel false (v.landRaw L)) := by
    unfold State.landOp
    rw [if_neg, ha]
    · cases r <;> first | exact absurd rfl hr | rfl
    · simp only [g1, g2, Bool.not_true, Bool.false_or, Bool.or_false, Bool.not_eq_true, Bool.and_eq_false_iff]
      by_cases ho : op = .force
      · have := g3 ho; simp [this]
      · simp [ho]
  have k := traceLanding_keep v L (min (op.offset / 8) 15) q.agent.val (satShown (v.landRaw L)) rel false (v.landRaw L) (Keep.rfl' v)
  have lr : ∀ M, (v.traceLanding L (min (op.offset / 8) 15) q.agent.val (satShown (v.landRaw L)) rel false (v.landRaw L)).landRaw M = v.landRaw M := by
    intro M; exact landRaw_of_land (k.part .land) M
  have lp : ∀ M, (v.traceLanding L (min (op.offset / 8) 15) q.agent.val (satShown (v.landRaw L)) rel false (v.landRaw L)).port M = v.port M := by
    intro M; exact port_of_land (k.part .land) M
  refine ⟨_, e, ⟨?_, ?_, ?_, ?_, ?_, ?_⟩, k.part .land, fun j hj => traceLanding_rd _ _ _ _ _ _ _ _ hj, k.part .flit⟩
  · rw [lr, h1]
  · rw [lp, h2]
  · intro M hM; rw [lr, h3 M hM]
  · intro M hM; rw [lp, h4 M hM]
  · refine ⟨fun j hj => ?_⟩
    rw [traceLanding_rd _ _ _ _ _ _ _ _ (fun m => hj (List.mem_append_right _ m))]
    exact h5.rd j hj
  · exact h6.trans (k.mono (within_of (by decide)))

theorem landRaw_setLand (s : State) (L M w : Nat) : (s.setLand L w).landRaw M = if M = L then w % 2 ^ 64 else s.landRaw M := by
  unfold State.landRaw State.setLand
  dsimp only
  rw [Sparse.get_put]
  split
  · exact BitVec.toNat_ofNat ..
  · rfl

theorem landRaw_lt (s : State) (L : Nat) : s.landRaw L < 2 ^ 64 := BitVec.isLt _

theorem quiet_of {s t : State} {L : Nat} (h : s.quiet L) (h1 : t.land.waiters = s.land.waiters) (h2 : t.flit = s.flit)
    (h3 : t.od = s.od) (h4 : t.vest = s.vest) : t.quiet L := by
  refine ⟨by rw [h1]; exact h.1, ?_, ?_⟩
  · unfold State.gated; rw [h2]; exact h.2.1
  · have : t.returners L = s.returners L := by unfold State.returners; rw [h4]; simp only [rd_of_od h3]
    rw [this]; exact h.2.2

theorem landEvaluate_quiet {s : State} {L : Nat} (h : s.quiet L) : s.landEvaluate L = (s, false) := by
  have e1 : s.landEvaluate1 L = (s, false) := by
    unfold State.landEvaluate1
    dsimp only
    rw [if_pos]
    refine ⟨?_, ?_, ?_⟩
    · rw [List.filter_eq_nil_iff]
      intro x hx
      have := h.1 x hx
      simp [this]
    · rw [h.2.1]; rfl
    · split
      · exact h.2.2
      · rfl
  have : ∀ n, State.landEvaluateN L n s = (s, false) := by
    intro n
    cases n with
    | zero => rfl
    | succ k => unfold State.landEvaluateN; rw [e1]; rfl
  exact this _

theorem landGrant_quiet {s : State} {L : Nat} (h : s.quiet L) : s.landGrant L = (s, false) := by
  unfold State.landGrant
  have : s.acquires L = [] := by
    unfold State.acquires
    rw [h.2.1]
    simp only [List.map_nil, List.append_nil]
    rw [List.filter_eq_nil_iff]
    intro x hx
    have := h.1 x hx
    simp [this]
  rw [this]
  rfl

theorem landChange_quiet {s : State} {L : Nat} (h : s.quiet L) (a w' : Nat) (ovf : Bool) :
    s.landChange L a w' ovf = ((if ovf then (s.setLand L (changedBy a (s.landRaw L) w')).bump OD.OVERFLOWS
      else s.setLand L (changedBy a (s.landRaw L) w')), false) := by
  unfold State.landChange
  dsimp only
  have e : (if w' = s.landRaw L ∨ modeOf w' = 2 then w' else withAgent w' a) = changedBy a (s.landRaw L) w' := rfl
  rw [e]
  apply landEvaluate_quiet
  cases ovf
  · exact quiet_of h rfl rfl rfl rfl
  · refine ⟨h.1, h.2.1, ?_⟩
    have : ∀ u : State, (u.bump OD.OVERFLOWS).returners L = u.returners L := by
      intro u
      unfold State.returners
      have : ∀ k, (u.bump OD.OVERFLOWS).rd (OD.PK_STATE k) = u.rd (OD.PK_STATE k) := fun k => rd_wr_ne _ (by
        unfold OD.PK_STATE OD.OVERFLOWS; omega) _
      simp only [this]
      rfl
    simp only [if_true]
    rw [this]
    exact h.2.2

theorem lands_self {s : State} {L rd : Nat} {q : Requester} {op : LandOp} {x : LandRes} (h : s.landsOn q L op)
    (e : s.landApply q.agent.val L op rd = (x, s, false)) (hx : x ≠ .error) :
    ∃ t, s.landOp q L op rd = (some x, t) ∧ s.Lands t L (s.landRaw L) (s.port L) [] := by
  obtain ⟨t, h1, h2, _⟩ := landOp_lands (ks := []) h e hx (Nat.mod_eq_of_lt (landRaw_lt s L)).symm rfl (fun _ _ => rfl) (fun _ _ => rfl)
    (State.SameBut.refl s _) (Keep.rfl' s)
  exact ⟨t, h1, h2⟩

theorem lands_word {s : State} {L rd w : Nat} {q : Requester} {op : LandOp} {x : LandRes} {rel : Bool} (h : s.landsOn q L op)
    (e : s.landApply q.agent.val L op rd = (x, s.setLand L w, rel)) (hx : x ≠ .error) :
    ∃ t, s.landOp q L op rd = (some x, t) ∧ s.Lands t L w (s.port L) [] ∧ t.land = (s.setLand L w).land ∧ t.flit = s.flit := by
  obtain ⟨t, h1, h2, h3, h4, h5⟩ := landOp_lands (w := w) (p := s.port L) (ks := []) h e hx (by rw [landRaw_setLand, if_pos rfl]) rfl (fun _ hM => by rw [landRaw_setLand, if_neg hM])
    (fun _ _ => rfl) (⟨fun _ _ => rfl⟩) (setLand_keep _ _ _ (Keep.rfl' s))
  exact ⟨t, h1, h2, h3, h5⟩

theorem setLand_quiet {s : State} {L : Nat} (h : s.quiet L) (w : Nat) : (s.setLand L w).quiet L := quiet_of h rfl rfl rfl rfl

theorem landWord_of {s t : State} {L : Nat} (h : t.land = s.land) (hf : t.flit = s.flit) : t.landWord L = s.landWord L := by
  unfold State.landWord State.acquires State.gated
  rw [landRaw_of_land h, h, hf]

theorem lands_change {s : State} {L rd w' : Nat} {q : Requester} {op : LandOp} {ovf : Bool} (hq : s.quiet L) (h : s.landsOn q L op)
    (e : s.landApply q.agent.val L op rd = (.done, (s.landChange L q.agent.val w' ovf).1, (s.landChange L q.agent.val w' ovf).2)) :
    ∃ t, s.landOp q L op rd = (some .done, t) ∧ s.Lands t L (changedBy q.agent.val (s.landRaw L) w') (s.port L) [OD.OVERFLOWS] := by
  rw [landChange_quiet hq] at e
  dsimp only at e
  obtain ⟨t, h1, h2, _⟩ := landOp_lands (w := changedBy q.agent.val (s.landRaw L) w') (p := s.port L) (ks := [OD.OVERFLOWS]) h e (by simp)
    (by cases ovf <;> exact (landRaw_setLand ..).trans (if_pos rfl)) (by cases ovf <;> rfl)
    (fun _ hM => by cases ovf <;> exact (landRaw_setLand ..).trans (if_neg hM))
    (fun _ _ => by cases ovf <;> rfl)
    (⟨fun k hk => by
      cases ovf
      · rfl
      · exact rd_wr_ne _ (by intro e; subst e; exact hk (by simp)) _⟩)
    (by cases ovf
        · exact setLand_keep _ _ _ (Keep.rfl' s)
        · exact bump_keep _ _ (setLand_keep _ _ _ (Keep.rfl' s)))
  exact ⟨t, h1, h2⟩

theorem bits_high (d : Nat) (h : d < 2 ^ 24) : bits d 24 40 = 0 := by
  unfold bits
  rw [Nat.div_eq_of_lt h, Nat.zero_mod]

theorem lands_change0 {s : State} {L rd w' : Nat} {q : Requester} {op : LandOp} (hq : s.quiet L) (h : s.landsOn q L op)
    (e : s.landApply q.agent.val L op rd = (.done, (s.landChange L q.agent.val w' false).1, (s.landChange L q.agent.val w' false).2)) :
    ∃ t, s.landOp q L op rd = (some .done, t) ∧ s.Lands t L (changedBy q.agent.val (s.landRaw L) w') (s.port L) [] := by
  rw [landChange_quiet hq] at e
  obtain ⟨t, h1, h2, _⟩ := lands_word (rel := false) h e (by simp)
  exact ⟨t, h1, h2⟩

theorem lands_park {s : State} {L rd : Nat} {q : Requester} {op : LandOp} {x : Waiter} (h : s.landsOn q L op)
    (e : s.landApply q.agent.val L op rd = (.parked, { s with land := { s.land with waiters := s.land.waiters ++ [x] } }, false)) :
    ∃ t, s.landOp q L op rd = (some .parked, t) ∧ s.Lands t L (s.landRaw L) (s.port L) [] ∧ t.land.waiters = s.land.waiters ++ [x] := by
  obtain ⟨t, h1, h2, h3, _⟩ := landOp_lands (ks := []) h e (by simp) (Nat.mod_eq_of_lt (landRaw_lt s L)).symm rfl (fun _ _ => rfl)
    (fun _ _ => rfl) (⟨fun _ _ => rfl⟩) (Keep.upd (Keep.rfl' s) rfl rfl rfl rfl)
  exact ⟨t, h1, h2, by rw [h3]⟩

theorem port_setPort (s : State) (L M : Nat) (p : LandPort) : (s.setPort L p).port M = if M = L then p else s.port M := Sparse.get_put ..

theorem lands_port {s : State} {L rd : Nat} {q : Requester} {op : LandOp} {x : LandRes} {p : LandPort} (h : s.landsOn q L op)
    (e : s.landApply q.agent.val L op rd = (x, s.setPort L p, false)) (hx : x ≠ .error) :
    ∃ t, s.landOp q L op rd = (some x, t) ∧ s.Lands t L (s.landRaw L) p [] := by
  obtain ⟨t, h1, h2, _⟩ := landOp_lands (p := p) (ks := []) h e hx (Nat.mod_eq_of_lt (landRaw_lt s L)).symm (by rw [port_setPort, if_pos rfl])
    (fun _ _ => rfl) (fun _ hM => by rw [port_setPort, if_neg hM]) (⟨fun _ _ => rfl⟩) (setPort_keep _ _ _ (Keep.rfl' s))
  exact ⟨t, h1, h2⟩

theorem landChange_facts {s : State} {L : Nat} (hq : s.quiet L) (a w' : Nat) (ovf : Bool) :
    ∃ v, s.landChange L a w' ovf = (v, false) ∧ v.landRaw L = changedBy a (s.landRaw L) w' % 2 ^ 64 ∧ (∀ M, M ≠ L → v.landRaw M = s.landRaw M) ∧
      (∀ M, v.port M = s.port M) ∧ s.SameBut v [OD.OVERFLOWS] ∧ Keep [.od, .land] s v := by
  refine ⟨_, landChange_quiet hq a w' ovf, ?_, ?_, ?_, ?_, ?_⟩
  · cases ovf <;> exact (landRaw_setLand ..).trans (if_pos rfl)
  · intro M hM; cases ovf <;> exact (landRaw_setLand ..).trans (if_neg hM)
  · intro M; cases ovf <;> rfl
  · refine ⟨fun k hk => ?_⟩
    cases ovf
    · rfl
    · exact rd_wr_ne _ (by simpa using hk) _
  · cases ovf
    · exact setLand_keep _ _ _ (Keep.rfl' s)
    · exact bump_keep _ _ (setLand_keep _ _ _ (Keep.rfl' s))

theorem lands_push {s u : State} {L rd w' : Nat} {q : Requester} {op : LandOp} {ovf : Bool} {p : LandPort} {ks : List Nat} (hq : u.quiet L) (h : s.landsOn q L op)
    (e : s.landApply q.agent.val L op rd = (.done, (u.landChange L q.agent.val w' ovf).1, (u.landChange L q.agent.val w' ovf).2))
    (hl : ∀ M, u.landRaw M = s.landRaw M) (hp : ∀ M, u.port M = if M = L then p else s.port M) (ho : s.SameBut u ks) (hk : Keep [.od, .land] s u) :
    ∃ t, s.landOp q L op rd = (some .done, t) ∧ s.Lands t L (changedBy q.agent.val (s.landRaw L) w') p (ks ++ [OD.OVERFLOWS]) := by
  obtain ⟨v, g1, g2, g3, g4, g5, g6⟩ := landChange_facts hq q.agent.val w' ovf
  rw [g1] at e
  obtain ⟨t, h1, h2, _⟩ := landOp_lands (w := changedBy q.agent.val (s.landRaw L) w') (p := p) (ks := ks ++ [OD.OVERFLOWS]) h e (by simp)
    (by rw [g2, hl]) (by rw [g4, hp, if_pos rfl]) (fun M hM => by rw [g3 M hM, hl]) (fun M hM => by rw [g4, hp, if_neg hM])
    (⟨fun k hk => by
      simp only [List.mem_append, not_or] at hk
      rw [g5.rd k hk.1.2, ho.rd k hk.1.1]⟩)
    ((hk.trans g6).mono (within_of (by decide)))
  exact ⟨t, h1, h2⟩

theorem bits_low (d n : Nat) : bits d 0 n = d % 2 ^ n := by unfold bits; rw [Nat.pow_zero, Nat.div_one]

theorem port_of_setLand (s : State) (L w M : Nat) : (s.setLand L w).port M = s.port M := rfl

theorem returners_congr {s t : State} (h1 : t.od = s.od) (h2 : t.vest = s.vest) (L : Nat) : t.returners L = s.returners L := by
  unfold State.returners; rw [h2]; simp only [rd_of_od h1]

theorem landWord_wait {s : State} {L : Nat} (a g r z : Nat) :
    ({ s with land := { s.land with waiters := s.land.waiters ++ [⟨a, L, false, g, r, z⟩] } } : State).landWord L = s.landWord L := by
  unfold State.landWord
  have e : ({ s with land := { s.land with waiters := s.land.waiters ++ [⟨a, L, false, g, r, z⟩] } } : State).acquires L = s.acquires L := by
    unfold State.acquires
    dsimp only
    rw [List.filter_append]
    simp
    rfl
  rw [e]
  rfl

def forced (s : State) (L : Nat) : State :=
  (((s.setLand L (setBit (setBit (s.landRaw L) 0 false) 59 true)).bump OD.ABANDONS).bump OD.FORCED_RELEASES).record
    FaultClass.corrected (agentOf (s.landRaw L)) 1 OD.FORCED_RELEASES (0x200000000 + L * 0x100) L

theorem forced_keep (s : State) (L : Nat) : Keep [.od, .host, .land, .falt] s (forced s L) := by
  unfold forced
  exact record_keep _ _ _ _ _ _ _ (bump_keep _ _ (bump_keep _ _ (setLand_keep _ _ _ (Keep.rfl' s) (within_of (by decide))) (within_of (by decide))) (within_of (by decide))) (within_of (by decide))

theorem forced_rd (s : State) (L : Nat) {k : Nat} (h1 : k ≠ OD.ABANDONS) (h2 : k ≠ OD.FORCED_RELEASES) (h3 : k ≠ OD.FAULTS_LOST)
    (h4 : k ≠ OD.CLASS_COUNTS FaultClass.corrected) : (forced s L).rd k = s.rd k := by
  unfold forced
  rw [record_rd _ _ _ _ _ _ _ h3 h4, rd_bump, if_neg h2, rd_bump, if_neg h1]
  rfl

theorem forced_count (s : State) (L : Nat) : (forced s L).rd OD.FORCED_RELEASES = min (s.rd OD.FORCED_RELEASES + 1) 0xFFFFFFFF := by
  unfold forced
  rw [record_rd _ _ _ _ _ _ _ (by decide) (by decide), rd_bump, if_pos rfl, rd_bump, if_neg (by decide)]
  rfl

theorem record_land (s : State) (a b c d e f : Nat) : (s.record a b c d e f).land = s.land := (record_keep s a b c d e f (Keep.rfl' s)).part .land

theorem forced_land (s : State) (L : Nat) : (forced s L).land = (s.setLand L (setBit (setBit (s.landRaw L) 0 false) 59 true)).land := by
  unfold forced; rw [record_land]; rfl

theorem forced_raw (s : State) (L M : Nat) : (forced s L).landRaw M = if M = L then setBit (setBit (s.landRaw L) 0 false) 59 true % 2 ^ 64 else s.landRaw M := by
  rw [landRaw_of_land (forced_land s L), landRaw_setLand]

theorem forced_port (s : State) (L M : Nat) : (forced s L).port M = s.port M := by
  rw [port_of_land (forced_land s L)]; rfl

theorem forced_quiet {s : State} {L : Nat} (h : s.quiet L) : (forced s L).quiet L := by
  refine ⟨by rw [forced_land]; exact h.1, ?_, ?_⟩
  · unfold State.gated; rw [(forced_keep s L).part .flit]; exact h.2.1
  · have e : (forced s L).returners L = s.returners L := by
      unfold State.returners
      rw [(forced_keep s L).part .vest]
      have : ∀ k, (forced s L).rd (OD.PK_STATE k) = s.rd (OD.PK_STATE k) := fun k => forced_rd s L
        (by unfold OD.PK_STATE OD.ABANDONS; omega) (by unfold OD.PK_STATE OD.FORCED_RELEASES; omega) (by unfold OD.PK_STATE OD.FAULTS_LOST; omega)
        (by unfold OD.PK_STATE OD.CLASS_COUNTS FaultClass.corrected; omega)
      simp only [this]
    rw [e]; exact h.2.2

theorem bump_quiet {s : State} {L k : Nat} (h : s.quiet L) (hk : ∀ j, OD.PK_STATE j ≠ k) : (s.bump k).quiet L := by
  refine ⟨h.1, h.2.1, ?_⟩
  have e : (s.bump k).returners L = s.returners L := by
    unfold State.returners
    have : ∀ j, (s.bump k).rd (OD.PK_STATE j) = s.rd (OD.PK_STATE j) := fun j => rd_wr_ne _ (hk j) _
    simp only [this]
    rfl
  rw [e]; exact h.2.2

theorem row_of {s : State} {i : Instr} {q : Requester} {L : Nat} {op : LandOp} (h : Sys2Proof.Machine.exec i s = .next (s.landRow q L op)) :
    s.RowAnswers i q L op := by
  unfold State.RowAnswers
  dsimp only
  intro h1 h2
  have e : s.landRow q L op = (match (if s.landReach ⟨q.agent, carriedCtx q⟩ L && s.powered 1 then s.sealNewel q.agent.val L op else s).landOp
      ⟨q.agent, carriedCtx q⟩ L op 0 with
    | (none, s) => s.landFail q.agent.val (landAddr L op) 4 0
    | (some .error, s) => s.landFail q.agent.val (landAddr L op) 5 OD.OP_ERRORS
    | (some .done, s) => s.landResp q.agent.val .done
    | (some (.word w), s) => s.landResp q.agent.val (.word w)
    | (some .parked, s) => s.landResp q.agent.val .none) := by
    unfold State.landRow
    dsimp only
    refine (if_neg ?_).trans (if_neg ?_)
    rotate_left
    · rw [Bool.and_eq_true]; rintro ⟨a, b⟩; exact (h2 a).2 (by simpa using b)
    · rw [h1, Bool.false_or, Bool.and_eq_true]; rintro ⟨a, b⟩; have := (h2 a).1; simp at b; omega
  rw [e] at h
  refine ⟨?_, ?_, ?_, ?_, ?_⟩ <;> (intros; simp_all)

theorem setLand_waiters (s : State) (L w : Nat) : (s.setLand L w).land.waiters = s.land.waiters := rfl

theorem retire_land (s : State) (n pc : Nat) : (s.retire n pc).land = s.land := (retire_keep s n pc (Keep.rfl' s)).part .land

theorem resumeWaiter_waiters (s : State) (x : Waiter) (w : Word) : (s.resumeWaiter x w).land.waiters = s.land.waiters := by
  unfold State.resumeWaiter
  dsimp only
  split
  · split
    · rfl
    · rw [retire_land]; rfl
  · rfl

theorem foldl_same {α β γ : Type} (p : α → γ) (f : α → β → α) (h : ∀ a b, p (f a b) = p a) (l : List β) (a : α) : p (l.foldl f a) = p a := by
  induction l generalizing a with
  | nil => rfl
  | cons x r ih => exact (ih _).trans (h _ _)

theorem releaseEntry_land (s : State) (e : Entry) : (s.releaseEntry e).land = s.land := (releaseEntry_keep s e (Keep.rfl' s)).part .land

theorem evaluate1 (s : State) (L : Nat) (hr : s.returners L = []) :
    s.landEvaluate1 L =
      if (s.land.waiters.filter (fun x => x.landing = L && !x.acquire && satisfied (s.landRaw L) x.gen)) = [] ∧
        ((s.gated L).filter (fun e => satisfied (s.landRaw L) e.gen)) = [] then (s, false)
      else
        (State.setLand (((s.gated L).filter (fun e => satisfied (s.landRaw L) e.gen)).foldl (fun s e => s.releaseEntry e)
          ((s.land.waiters.filter (fun x => x.landing = L && !x.acquire && satisfied (s.landRaw L) x.gen)).foldl
            (fun s' x => s'.resumeWaiter x (s.landWord L))
            { s with land := { s.land with
              waiters := s.land.waiters.filter (fun x => !(x.landing = L && !x.acquire && satisfied (s.landRaw L) x.gen)) } })) L
            (releaseAction (s.landRaw L)), true) := by
  unfold State.landEvaluate1
  dsimp only
  rw [hr, ite_self]
  simp only [and_true, List.foldl_nil]

theorem abandon_quiet {s : State} {L : Nat} (hq : s.quiet L) :
    s.landAbandon L = (s.setLand L (setBit (setBit (s.landRaw L) 0 false) 59 true)).bump OD.ABANDONS := by
  unfold State.landAbandon
  dsimp only
  rw [landGrant_quiet (bump_quiet (setLand_quiet hq _) (fun j => by unfold OD.PK_STATE OD.ABANDONS; omega))]

theorem logFault_count (s : State) (r : FaultRec) (h : OD.CLASS_COUNTS r.cls ≠ OD.FAULTS_LOST) :
    (s.logFault r).rd (OD.CLASS_COUNTS r.cls) = min (s.rd (OD.CLASS_COUNTS r.cls) + 1) 0xFFFFFFFF := by
  unfold State.logFault
  dsimp only
  rw [rd_ite, signal_rd, ite_self, rd_bump, if_pos rfl, rd_ite, rd_bump, if_neg h, ite_self]
  rfl

theorem record_count (s : State) (agent dom obj addr inst : Nat) :
    (s.record FaultClass.stage agent dom obj addr inst).rd (OD.CLASS_COUNTS FaultClass.stage) =
    min (s.rd (OD.CLASS_COUNTS FaultClass.stage) + 1) 0xFFFFFFFF :=
  logFault_count s ⟨0, FaultClass.stage, agent, 0, dom, obj, 0xFF, addr, inst⟩ (show OD.CLASS_COUNTS FaultClass.stage ≠ OD.FAULTS_LOST by decide)

theorem stageReq_of_flit {s t : State} (h : t.flit = s.flit) (n : Nat) (e : Entry) : t.stageReq n e = s.stageReq n e := by
  unfold State.stageReq State.stageTen State.item; rw [h]

theorem entrySeen_keep (u : State) (n : Nat) (e : Entry) (L : Nat) (op : LandOp) : Keep [.od, .host, .trc, .cores, .ledg] u (u.entrySeen n e L op) := by
  unfold State.entrySeen
  dsimp only
  split <;> (split <;> first | exact sealStage_keep u n (Keep.rfl' u) | exact Keep.rfl' u)

theorem landsBy_of {s u : State} {n : Nat} {e : Entry} {i : Instr} {L rd : Nat} {op : LandOp} (h : s.Issues n e u)
    (g : Entry → State → State) (hi : Sys2Proof.Machine.exec i s = .next (s.issue n g)) (hg : g e u = u.stageLanding n e L op rd) :
    s.LandsBy u n e i L op rd := by
  rw [issue_of h, hg] at hi
  have e1 : u.stageLanding n e L op rd = (match (u.entrySeen n e L op).landOp ((u.entrySeen n e L op).stageReq n e) L op rd with
    | (none, s) => s.stageFault e 4 (landAddr L op) none
    | (some .error, s) => s.stageFault e 5 0 none
    | (some .done, s) => s.next n
    | (some (.word w), s) => s.nextWith n (fun c => c.setS rd w)
    | (some .parked, s) =>
      let c := s.core n
      if c.stepping then s.setCore n { c with stepping := false, wasParked := true }
      else s.setCore n { c with st := .parked }) := rfl
  have e2 : (u.entrySeen n e L op).stageReq n e = u.stageReq n e := stageReq_of_flit ((entrySeen_keep u n e L op).part .flit) n e
  rw [e1, e2] at hi
  unfold State.LandsBy
  dsimp only
  refine ⟨?_, ?_, ?_, ?_, ?_⟩
  · intro t ht
    rw [ht] at hi
    exact ⟨_, hi, retire_self ..⟩
  · intro t w ht
    rw [ht] at hi
    exact ⟨_, hi, nextWith_retires t n _ (setS_pc ..)⟩
  · intro t ht
    rw [ht] at hi
    rw [hi]
    dsimp only
    split <;> rfl
  · intro t ht
    rw [ht] at hi
    exact hi
  · intro t ht
    rw [ht] at hi
    exact hi

theorem memBytes_length (s : State) (len : Nat) : ∀ a, (s.memBytes a len).length = len := by
  induction len with
  | zero => intro a; rfl
  | succ k ih => intro a; simp [State.memBytes, ih]

theorem overlapCopy_length (src dst : Nat) (bs : List Byte) : (overlapCopy src dst bs).length = bs.length := by
  unfold overlapCopy
  dsimp only
  split
  · simp
  · rfl

end Sys2Proof.Machine
end

