-- ==== Sys2Proof/Laws/ServLaws.lean ====
section
/-!
SUPPORT. Lemmas about the fault log, vectors, the dispatcher and the rings.
-/

set_option Elab.async false

namespace Sys2Proof.Machine

set_option linter.all false

theorem signal_host (s t : State) (pf1 : Bool) (v : Nat) (h : t.host = s.host) (h1 : t.rd OD.DOMAIN_ON = s.rd OD.DOMAIN_ON)
    (h2 : t.rd OD.LINK_STATE = s.rd OD.LINK_STATE) : (t.signal pf1 v).host = (s.signal pf1 v).host := by
  have e1 : t.powered 26 = s.powered 26 := by unfold State.powered; rw [h1]
  have e2 : t.msix pf1 = s.msix pf1 := by unfold State.msix; rw [h]
  have e3 : t.canSend pf1 = s.canSend pf1 := by unfold State.canSend State.linkUp; rw [h2, e2]
  unfold State.signal
  rw [e1, e3, e2]
  dsimp only
  split
  · exact h
  · split <;> cases pf1 <;> simp [State.setMsix, h]

theorem lowestClass_le : ∀ (l : List FaultRec), ∀ y ∈ l, lowestClass l ≤ y.cls
  | [], y, h => by simp at h
  | [r], y, h => by simp at h; simp [lowestClass, h]
  | r :: r' :: rs, y, h => by
    have ih := lowestClass_le (r' :: rs)
    rcases List.mem_cons.1 h with rfl | h
    · simp only [lowestClass]; omega
    · have := ih y h; simp only [lowestClass]; omega

theorem lowestClass_eq {l : List FaultRec} {x : FaultRec} (hx : x ∈ l) (h : ∀ y ∈ l, x.cls ≤ y.cls) : lowestClass l = x.cls := by
  obtain ⟨y, hy, e⟩ := lowestClass_mem l (by intro e; simp [e] at hx)
  have h1 := lowestClass_le l x hx
  have h2 := h y hy
  omega

theorem dropOldest_eq (x : FaultRec) (post : List FaultRec) : ∀ (pre : List FaultRec), (∀ y ∈ pre, y.cls ≠ x.cls) →
    dropOldest x.cls (pre ++ x :: post) = pre ++ post
  | [], _ => by simp [dropOldest]
  | a :: pre, h => by
    rw [List.cons_append, dropOldest, if_neg (h a (by simp)), dropOldest_eq x post pre (fun y hy => h y (by simp [hy]))]
    rfl

theorem logFault_facts (s : State) (r : FaultRec) (hr : r.cls ≤ 4) :
    let t := s.logFault r
    let r' := { r with time := s.clk.gtime }
    ∀ L, logInsert s.falt.log r' = L →
    t.falt.log = L.1 ∧ t.rd OD.FAULTS_LOST = (if L.2 then min (s.rd OD.FAULTS_LOST + 1) 0xFFFFFFFF else s.rd OD.FAULTS_LOST) ∧
    t.rd (OD.CLASS_COUNTS r.cls) = min (s.rd (OD.CLASS_COUNTS r.cls) + 1) 0xFFFFFFFF ∧
    t.falt.lastDevice = (if r.cls = FaultClass.device then some r' else s.falt.lastDevice) ∧
    t.falt.lastStage = (if r.cls = FaultClass.stage then some r' else s.falt.lastStage) ∧
    t.host = (if s.rd OD.FAULT_IRQ = 1 ∧ s.rd OD.FAULT_IRQ_MIN ≤ r.cls then (s.signal false 0).host else s.host) := by
  intro t r' L hL
  have ne1 : OD.CLASS_COUNTS r.cls ≠ OD.FAULTS_LOST := by unfold OD.CLASS_COUNTS OD.FAULTS_LOST; omega
  have k1 : OD.DOMAIN_ON ≠ OD.FAULTS_LOST ∧ OD.DOMAIN_ON ≠ OD.CLASS_COUNTS r.cls := by
    unfold OD.CLASS_COUNTS; exact ⟨by decide, by unfold OD.DOMAIN_ON; omega⟩
  have k2 : OD.LINK_STATE ≠ OD.FAULTS_LOST ∧ OD.LINK_STATE ≠ OD.CLASS_COUNTS r.cls := by
    unfold OD.CLASS_COUNTS; exact ⟨by decide, by unfold OD.LINK_STATE; omega⟩
  have k3 : OD.FAULT_IRQ ≠ OD.FAULTS_LOST ∧ OD.FAULT_IRQ ≠ OD.CLASS_COUNTS r.cls := by
    unfold OD.CLASS_COUNTS; exact ⟨by decide, by unfold OD.FAULT_IRQ; omega⟩
  have k4 : OD.FAULT_IRQ_MIN ≠ OD.FAULTS_LOST ∧ OD.FAULT_IRQ_MIN ≠ OD.CLASS_COUNTS r.cls := by
    unfold OD.CLASS_COUNTS; exact ⟨by decide, by unfold OD.FAULT_IRQ_MIN; omega⟩
  have main : ∀ (u w : State) (b : Bool), u.od = s.od → u.host = s.host →
      (let v := (if b then u.bump OD.FAULTS_LOST else u).bump (OD.CLASS_COUNTS r.cls)
       (if v.flag OD.FAULT_IRQ && decide (v.rd OD.FAULT_IRQ_MIN ≤ r.cls) then v.signal false 0 else v) = w) →
      w.falt = u.falt ∧ w.rd OD.FAULTS_LOST = (if b then min (s.rd OD.FAULTS_LOST + 1) 0xFFFFFFFF else s.rd OD.FAULTS_LOST) ∧
      w.rd (OD.CLASS_COUNTS r.cls) = min (s.rd (OD.CLASS_COUNTS r.cls) + 1) 0xFFFFFFFF ∧
      w.host = (if s.rd OD.FAULT_IRQ = 1 ∧ s.rd OD.FAULT_IRQ_MIN ≤ r.cls then (s.signal false 0).host else s.host) := by
    intro u w b ho hh
    generalize hv : (if b then u.bump OD.FAULTS_LOST else u).bump (OD.CLASS_COUNTS r.cls) = v
    dsimp only
    intro hw
    have r0 : ∀ k, u.rd k = s.rd k := rd_of_od ho
    have rv : ∀ k, v.rd k = if k = OD.CLASS_COUNTS r.cls then min ((if b then u.bump OD.FAULTS_LOST else u).rd k + 1) 0xFFFFFFFF else (if b then u.bump OD.FAULTS_LOST else u).rd k :=
      fun k => by
        rw [← hv, rd_bump]
        split
        · rename_i h; rw [h]
        · rfl
    have ru : ∀ k, (if b then u.bump OD.FAULTS_LOST else u).rd k = if b = true ∧ k = OD.FAULTS_LOST then min (s.rd k + 1) 0xFFFFFFFF else s.rd k := by
      intro k
      cases b
      · simp [r0]
      · simp only [if_true, rd_bump, r0, true_and]
        split
        · rename_i h; rw [h]
        · rfl
    have vh : v.host = s.host := by
      rw [← hv]; cases b <;> exact hh
    have vf : v.falt = u.falt := by rw [← hv]; cases b <;> rfl
    have kd : v.rd OD.DOMAIN_ON = s.rd OD.DOMAIN_ON := by rw [rv, if_neg k1.2, ru, if_neg (fun h => k1.1 h.2)]
    have kl : v.rd OD.LINK_STATE = s.rd OD.LINK_STATE := by rw [rv, if_neg k2.2, ru, if_neg (fun h => k2.1 h.2)]
    have ki : v.rd OD.FAULT_IRQ = s.rd OD.FAULT_IRQ := by rw [rv, if_neg k3.2, ru, if_neg (fun h => k3.1 h.2)]
    have km : v.rd OD.FAULT_IRQ_MIN = s.rd OD.FAULT_IRQ_MIN := by rw [rv, if_neg k4.2, ru, if_neg (fun h => k4.1 h.2)]
    have wr : ∀ k, w.rd k = v.rd k := by
      intro k
      rw [← hw, rd_ite, signal_rd, ite_self]
    have wf : w.falt = v.falt := by
      rw [← hw]
      split
      · exact (signal_keep v false 0 (Keep.rfl' v)).part .falt
      · rfl
    refine ⟨wf.trans vf, ?_, ?_, ?_⟩
    · rw [wr, rv, if_neg ne1.symm, ru]; simp
    · rw [wr, rv, if_pos rfl, ru, if_neg (fun h => ne1 h.2)]
    · rw [← hw]; unfold State.flag
      rw [ki, km]
      by_cases c : s.rd OD.FAULT_IRQ = 1 ∧ s.rd OD.FAULT_IRQ_MIN ≤ r.cls
      · rw [if_pos c, if_pos (by simpa using c)]
        exact signal_host s v false 0 vh kd kl
      · rw [if_neg c, if_neg (by simpa using c), vh]
  obtain ⟨log, lost⟩ := L
  have m := main ({ s with falt := { s.falt with log := log, lastDevice := if r.cls = FaultClass.device then some r' else s.falt.lastDevice, lastStage := if r.cls = FaultClass.stage then some r' else s.falt.lastStage } } : State) t lost rfl rfl (by
    show _ = s.logFault r
    have hL' : logInsert s.falt.log { r with time := s.clk.gtime } = (log, lost) := hL
    unfold State.logFault
    extract_lets -merge z q z2
    rw [show logInsert s.falt.log q = (log, lost) from hL])
  obtain ⟨m1, m2, m3, m4⟩ := m
  exact ⟨by rw [m1], m2, m3, by rw [m1], by rw [m1], m4⟩

theorem foldN_inv' {α : Type} (P : Nat → α → Prop) (f : α → Nat → α) (h : ∀ n a, P n a → P (n + 1) (f a n)) (m : Nat) (a : α) (ha : P 0 a) :
    P m (foldN m f a) := by
  induction m with
  | zero => exact ha
  | succ k ih => rw [show foldN (k + 1) f a = f (foldN k f a) k by simp [foldN, List.range_succ]]; exact h _ _ ih

theorem msix_setMsix (s : State) (pf1 : Bool) (m : Msix) : (s.setMsix pf1 m).msix pf1 = m ∧ (s.setMsix pf1 m).msix (!pf1) = s.msix (!pf1) := by
  cases pf1 <;> exact ⟨rfl, rfl⟩

theorem pend_off (p : BitVec 64) (v w : Nat) (hw : w < 64) : (p &&& ~~~(BitVec.twoPow 64 v)).getLsbD w = (p.getLsbD w && decide (w ≠ v)) := by
  simp [BitVec.getLsbD_twoPow, hw]
  try (by_cases h : v = w <;> simp [h, hw, eq_comm])

theorem pend_on (p : BitVec 64) (v w : Nat) (hw : w < 64) : (p ||| (BitVec.twoPow 64 v)).getLsbD w = (p.getLsbD w || decide (w = v)) := by
  simp [BitVec.getLsbD_twoPow, hw]
  try (by_cases h : v = w <;> simp [h, eq_comm])

/-- The slots and the count of admissions are as before, and the lane queues hold the same entries by slot, run and stage. -/
structure Steady (s t : State) : Prop where
  slots : t.flit.slots = s.flit.slots
  seq : t.flit.nextSeq = s.flit.nextSeq
  letting : t.flit.letting = s.flit.letting
  adm : t.flit.admission = s.flit.admission
  ids : t.flit.entries.map Entry.id = s.flit.entries.map Entry.id

theorem Steady.rfl' (s : State) : Steady s s := ⟨rfl, rfl, rfl, rfl, rfl⟩

theorem Steady.trans {s t u : State} (a : Steady s t) (b : Steady t u) : Steady s u :=
  ⟨b.slots.trans a.slots, b.seq.trans a.seq, b.letting.trans a.letting, b.adm.trans a.adm, b.ids.trans a.ids⟩

theorem Steady.of {s t : State} (h : t.flit = s.flit) : Steady s t := by constructor <;> rw [h]

theorem Steady.keep {fs : List Field} {s t : State} (h : Keep fs s t) (hf : Field.flit ∉ fs := by decide) : Steady s t :=
  Steady.of (h.part .flit hf)

theorem Steady.foldl {α} (f : State → α → State) (hf : ∀ s a, Steady s (f s a)) : ∀ (l : List α) (s : State), Steady s (l.foldl f s)
  | [], s => Steady.rfl' s
  | a :: l, s => (hf s a).trans (Steady.foldl f hf l (f s a))

theorem Steady.item {s t : State} (h : Steady s t) (i : Nat) : t.item i = s.item i := by unfold State.item; rw [h.slots]

theorem mapEntry_steady (s : State) (e : Entry) (f : Entry → Entry) (hf : ∀ x, (f x).id = x.id) : Steady s (s.mapEntry e f) := by
  refine ⟨rfl, rfl, rfl, rfl, ?_⟩
  show (List.map _ s.flit.entries).map _ = _
  rw [List.map_map]
  apply List.map_congr_left
  intro x _
  dsimp
  split
  · exact hf x
  · rfl

theorem releaseEntry_steady (s : State) (e : Entry) : Steady s (s.releaseEntry e) := by
  unfold State.releaseEntry
  have h : Steady s { s with flit := { s.flit with
    entries := s.flit.entries.map (fun x : Entry => if x.same e then x.release else x) } } :=
    mapEntry_steady s e Entry.release (fun _ => rfl)
  exact h.trans (.keep (traceFlight_keep _ _ _ _ _ _ _ _ (Keep.rfl' _)))

theorem landGrant_steady (s : State) (L : Nat) : Steady s (s.landGrant L).1 := by
  unfold State.landGrant
  split
  · exact .rfl' s
  rename_i x hx
  dsimp only
  have h0 := Steady.keep (setLand_keep s L (grantWord (s.landRaw L) x.agent) (Keep.rfl' s))
  generalize s.setLand L _ = u at *
  have key : ∀ (v : State) y w, v.flit = u.flit → Steady u (v.resumeWaiter y w) := fun v y w h =>
    (Steady.of h).trans (Steady.keep (resumeWaiter_keep v y w (Keep.rfl' v)))
  split
  · exact h0.trans (key _ _ _ rfl)
  · split
    · exact h0.trans (releaseEntry_steady _ _)
    · exact h0

theorem landEvaluate1_steady (s : State) (L : Nat) : Steady s (s.landEvaluate1 L).1 := by
  unfold State.landEvaluate1
  dsimp only
  generalize (if (decide (modeOf (s.landRaw L) ≤ 1) && satisfied (s.landRaw L) 0) = true then s.returners L else []) = rs
  split
  · exact .rfl' s
  refine Steady.trans ?_ (Steady.keep (setLand_keep _ L _ (Keep.rfl' _)))
  refine Steady.trans ?_ (Steady.foldl _ (fun s k => Steady.keep (returnSlot_keep s k (Keep.rfl' s))) _ _)
  refine Steady.trans ?_ (Steady.foldl _ (fun s k => releaseEntry_steady s k) _ _)
  refine Steady.trans ?_ (Steady.foldl _ (fun s k => Steady.keep (resumeWaiter_keep s k _ (Keep.rfl' s))) _ _)
  exact Steady.of rfl

theorem landEvaluateN_steady (L : Nat) : ∀ (n : Nat) (s : State), Steady s (s.landEvaluateN L n).1
  | 0, s => .rfl' s
  | n + 1, s => by
    unfold State.landEvaluateN
    dsimp only
    have h := landEvaluate1_steady s L
    split
    · exact h
    · split
      · exact h
      · exact h.trans (landEvaluateN_steady L n _)

theorem landEvaluate_steady (s : State) (L : Nat) : Steady s (s.landEvaluate L).1 := landEvaluateN_steady L _ s

theorem landAbandon_steady (s : State) (L : Nat) : Steady s (s.landAbandon L) := by
  unfold State.landAbandon
  refine Steady.trans ?_ (landGrant_steady _ L)
  exact Steady.of rfl

theorem dropLocks_steady (s : State) (a : Nat) : Steady s (s.dropLocks a) := by
  unfold State.dropLocks
  have h : Steady s (s.withdraw a) := Steady.of rfl
  dsimp only
  exact h.trans (Steady.foldl _ (fun s k => landAbandon_steady s k) _ _)

theorem Steady.ite {c : Prop} [Decidable c] {s a b : State} (ha : Steady s a) (hb : Steady s b) : Steady s (if c then a else b) := by
  split <;> assumption

theorem engineStop_steady (s : State) (e : Entry) : Steady s (s.engineStop e) := by
  unfold State.engineStop
  dsimp only
  have d : ∀ (s : State) a b c o, Steady s (s.dropStageClaims a b c o) := fun s a b c o =>
    Steady.keep (dropStageClaims_keep s a b c o (Keep.rfl' s))
  have sc : ∀ (s : State) n c, Steady s (s.setCore n c) := fun s n c => Steady.of rfl
  have sn : ∀ (s : State) n c, Steady s (s.setNewel n c) := fun s n c => Steady.of rfl
  refine .ite (.ite ((d _ _ _ _ _).trans (sc _ _ _)) ((d _ _ _ _ _).trans (sn _ _ _))) ?_
  refine Steady.trans ?_ (d _ _ _ _ _)
  refine Steady.trans (dropLocks_steady s e.engine) ?_
  exact .ite (sc _ _ _) (.ite (sn _ _ _) (.ite (.keep (decStop_keep _ _ _ (Keep.rfl' _))) (.ite
    (.keep (encStop_keep _ _ (Keep.rfl' _))) (.ite (.keep (scalerStop_keep _ _ (Keep.rfl' _))) (.rfl' _)))))

theorem id_same (x e : Entry) (f : Entry → Entry) (hf : ∀ x, (f x).id = x.id) : (if x.same e then f x else x).id = x.id := by
  split
  · exact hf x
  · rfl

theorem armEntry_steady (s : State) (e : Entry) : Steady s (s.armEntry e) := by
  unfold State.armEntry
  split
  · exact .rfl' s
  rename_i e' he
  dsimp only
  have h : ∀ s1 s2 : State, Steady s s1 → s2 = (match s1.flit.entries.find? (fun x => x.same e') with
    | none => s1
    | some e => if e.st = .armed && e.gate = none && s1.predDone e then s1.releaseEntry e else s1) → Steady s s2 := by
    intro s1 s2 h1 e2
    rw [e2]
    split
    · exact h1
    · exact .ite (h1.trans (releaseEntry_steady _ _)) h1
  refine h _ _ ?_ rfl
  refine .ite ?_ (.rfl' s)
  generalize hf : (fun x : Entry => ({ x with st := EntrySt.armed, gen := (match e'.gate with | some L => genOf (s.landRaw L) | none => 0), parked := s.land.parks } : Entry)) = f
  have hm : Steady s (s.mapEntry e' f) := mapEntry_steady s e' f (fun x => by rw [← hf]; rfl)
  refine hm.trans ?_
  split
  · exact .rfl' _
  · exact .ite (.ite (.rfl' _) (landGrant_steady _ _)) (landEvaluate_steady _ _)

theorem nextPark_steady (s : State) : Steady s s.nextPark := by
  unfold State.nextPark
  exact .ite (Steady.of rfl) (.rfl' s)

theorem armAll_steady (s : State) : Steady s s.armAll := (Steady.foldl _ armEntry_steady _ _).trans (nextPark_steady _)

theorem dropGrant_steady (s : State) (e : Entry) : Steady s (s.dropGrant e) := by
  unfold State.dropGrant
  split
  · exact .ite (landAbandon_steady _ _) (.rfl' s)
  · exact .rfl' s

/-- The item's entries are gone and the stage it had come to is kept; nothing else of the slots and the queues changes. -/
theorem dropEntries_steady (s : State) (i : Nat) :
    Steady { s.setItem i { s.item i with reached := s.progress i } with
      flit := { (s.setItem i { s.item i with reached := s.progress i }).flit with entries := s.flit.entries.filter (fun e => e.slot ≠ i) } }
      (s.dropEntries i) :=
  (Steady.foldl _ engineStop_steady _ _).trans (Steady.foldl _ dropGrant_steady _ _)

theorem item_of {s t : State} (h : t.flit.slots = s.flit.slots) (i : Nat) : t.item i = s.item i := by unfold State.item; rw [h]

theorem itemRecord_flit (s : State) (i w) : (s.itemRecord i w).flit = s.flit := by
  unfold State.itemRecord
  exact (logFault_keep s _ (Keep.rfl' s)).part .flit

theorem countStatus_flit (s : State) (i) : (s.countStatus i).flit = s.flit := by
  unfold State.countStatus
  split
  · rfl
  split
  · rfl
  split
  · rfl
  split
  · rfl
  split <;> rfl

theorem traceFlight_flit (s : State) (a b c d e f g) : (s.traceFlight a b c d e f g).flit = s.flit :=
  (traceFlight_keep s a b c d e f g (Keep.rfl' s)).part .flit

theorem keyBefore_irrefl : ∀ a : List Nat, keyBefore a a = false
  | [] => rfl
  | a :: as => by simp [keyBefore, keyBefore_irrefl as]

theorem keyBefore_asymm : ∀ a b : List Nat, keyBefore a b = true → keyBefore b a = false
  | [], _, h => by simp [keyBefore] at h
  | a :: as, [], h => by simp [keyBefore]
  | a :: as, b :: bs, h => by
    simp only [keyBefore, Bool.or_eq_true, decide_eq_true_eq, Bool.and_eq_true, Bool.or_eq_false_iff, decide_eq_false_iff_not,
      Bool.and_eq_false_iff] at h ⊢
    rcases h with h | ⟨h, k⟩
    · exact ⟨by omega, .inl (by omega)⟩
    · exact ⟨by omega, .inr (keyBefore_asymm as bs k)⟩

theorem keyBefore_trans : ∀ a b c : List Nat, keyBefore a b = true → keyBefore b c = true → keyBefore a c = true
  | [], _, _, h, _ => by simp [keyBefore] at h
  | a :: as, [], _, h, _ => by simp [keyBefore] at h
  | a :: as, b :: bs, [], _, h => by simp [keyBefore] at h
  | a :: as, b :: bs, c :: cs, h, k => by
    simp only [keyBefore, Bool.or_eq_true, decide_eq_true_eq, Bool.and_eq_true] at h k ⊢
    rcases h with h | ⟨h, h2⟩ <;> rcases k with k | ⟨k, k2⟩
    · left; omega
    · left; omega
    · left; omega
    · exact .inr ⟨h.trans k, keyBefore_trans as bs cs h2 k2⟩

theorem keyBefore_total : ∀ a b : List Nat, a.length = b.length → keyBefore a b = false → keyBefore b a = false → a = b
  | [], [], _, _, _ => rfl
  | a :: as, b :: bs, hl, h, k => by
    simp only [keyBefore, Bool.or_eq_false_iff, decide_eq_false_iff_not, Bool.and_eq_false_iff] at h k
    have : a = b := by omega
    subst this
    rw [keyBefore_total as bs (by simpa using hl) (by simpa using h) (by simpa using k)]
  | [], b :: bs, hl, _, _ => by simp at hl
  | a :: as, [], hl, _, _ => by simp at hl

theorem least_of (l : List Entry) : ∀ (b : Option Entry) (e : Entry),
    l.foldl (fun b e => match b with | none => some e | some x => if keyBefore e.key x.key then some e else some x) b = some e →
    (some e = b ∨ e ∈ l) ∧ (∀ x, b = some x → keyBefore x.key e.key = false) ∧ ∀ f ∈ l, keyBefore f.key e.key = false := by
  induction l with
  | nil =>
    intro b e h
    simp only [List.foldl_nil] at h
    subst h
    simp [keyBefore_irrefl]
  | cons f r ih =>
    intro b e h
    rw [List.foldl_cons] at h
    obtain ⟨h1, h2, h3⟩ := ih _ _ h
    cases b with
    | none =>
      dsimp only at h1 h2
      refine ⟨.inr ?_, by simp, ?_⟩
      · rcases h1 with h1 | h1
        · simp [Option.some.inj h1]
        · simp [h1]
      · intro g hg
        rcases List.mem_cons.1 hg with rfl | hg
        · exact h2 _ rfl
        · exact h3 g hg
    | some x =>
      dsimp only at h1 h2
      by_cases c : keyBefore f.key x.key = true
      · rw [if_pos c] at h1 h2
        have hf := h2 f rfl
        refine ⟨.inr ?_, ?_, ?_⟩
        · rcases h1 with h1 | h1
          · simp [Option.some.inj h1]
          · simp [h1]
        · rintro y hy
          cases hy
          by_contra hx
          have := keyBefore_trans _ _ _ c (by simpa using hx)
          rw [this] at hf; simp at hf
        · intro g hg
          rcases List.mem_cons.1 hg with rfl | hg
          · exact hf
          · exact h3 g hg
      · rw [if_neg c] at h1 h2
        have hx := h2 x rfl
        refine ⟨?_, ?_, ?_⟩
        · rcases h1 with h1 | h1
          · exact .inl h1
          · exact .inr (by simp [h1])
        · rintro y hy
          cases hy
          exact hx
        · intro g hg
          rcases List.mem_cons.1 hg with rfl | hg
          · by_contra hy
            by_cases d : keyBefore e.key x.key = true
            · have := keyBefore_trans _ _ _ (by simpa using hy) d
              exact c this
            · have := keyBefore_total x.key e.key rfl hx (by simpa using d)
              rw [this] at c
              simp at hy
              exact c hy
          · exact h3 g hg

theorem newelEnter_sealed (u : State) (k : Nat) (e : Entry) (d : StageDef) : ((u.newelEnter k e d).newel k).sealed = false := by
  unfold State.newelEnter
  extract_lets -merge args a s1 b s2
  have h : (s2.traceInstr (32 + k) d.entryOff 2).newels = s2.newels := (traceInstr_keep s2 _ _ _ (Keep.rfl' s2)).part .newels
  have h2 : s2.newels = s1.newels := rfl
  unfold State.newel
  rw [h, h2]
  simp [s1, State.setNewel]

theorem traceSealed_core (s : State) (n m : Nat) : (s.traceSealed n).core m = s.core m := by
  exact core_of_cores ((traceSealed_keep s n (Keep.rfl' s)).part .cores) m

theorem sealStage_core (s : State) (n : Nat) : ∃ b, (s.sealStage n).core n = { s.core n with sealed := b } := by
  unfold State.sealStage
  split
  · exact ⟨_, rfl⟩
  · refine ⟨true, ?_⟩
    dsimp only
    rw [traceSealed_core]
    have tc : ∀ (s : State) a m, (s.taint a).core m = s.core m := fun s a m =>
      core_of_cores ((taint_keep s a (Keep.rfl' s)).part .cores) m
    have ic : ∀ (c : Bool) (a b : State) m, (if c then a else b).core m = if c then a.core m else b.core m := by
      intro c a b m; cases c <;> rfl
    rw [ic, tc, ite_self, tc, core_setCore_same]

theorem coreEnter_core (u : State) (n : Nat) (e : Entry) (d : StageDef) :
    let it := u.item e.slot
    let sec := (Sparse.get (fun _ => {}) u.ldr.images it.image : Image).sections.getD d.section_ ⟨0, 0, 0, 0, 0, 0, 0⟩
    let s9 := alcoveBase + n * alcoveBytes + u.rd (OD.IMG_ALCOVE_BASE it.image)
    ∃ x : Core, (u.coreEnter n e d).core n = ({ x with
      st := .running
      pc := s9 + sec.destOff + d.entryOff
      progLo := s9 + sec.destOff
      progHi := s9 + sec.destOff + sec.destLen
      emitter := bit d.flags 0 } : Core) := by
  intro it sec s9
  have fin : ∀ (v : State) (c : Core) (k : Bool), v.cores = (u.setCore n c).cores →
      (c.st = .running ∧ c.pc = s9 + sec.destOff + d.entryOff ∧ c.progLo = s9 + sec.destOff ∧ c.progHi = s9 + sec.destOff + sec.destLen ∧ c.emitter = bit d.flags 0) →
      ∃ x : Core, (if k then v.sealStage n else v.traceInstr n (alcoveOff c.pc) 2).core n = ({ x with
        st := .running
        pc := s9 + sec.destOff + d.entryOff
        progLo := s9 + sec.destOff
        progHi := s9 + sec.destOff + sec.destLen
        emitter := bit d.flags 0 } : Core) := by
    intro v c k hv ⟨h1, h2, h3, h4, h5⟩
    have hc : v.core n = c := by unfold State.core; rw [hv]; simp [State.setCore]
    have hcc : c = { c with
        st := .running
        pc := s9 + sec.destOff + d.entryOff
        progLo := s9 + sec.destOff
        progHi := s9 + sec.destOff + sec.destLen
        emitter := bit d.flags 0 } := by rw [← h1, ← h2, ← h4, ← h3, ← h5]
    cases k
    · refine ⟨c, ?_⟩
      show (State.traceInstr _ _ _ _).core n = _
      rw [core_of_cores ((traceInstr_keep v n _ 2 (Keep.rfl' v)).part .cores), hc]
      exact hcc
    · obtain ⟨b, hb⟩ := sealStage_core v n
      refine ⟨{ c with sealed := b }, ?_⟩
      show (v.sealStage n).core n = _
      rw [hb, hc]
      exact congrArg (fun c : Core => { c with sealed := b }) hcc
  unfold State.coreEnter
  extract_lets -merge it' i img sec' abase s9' plan c1 c2 c3 s1 b s2
  have h2 : s2.cores = (u.setCore n c3).cores := rfl
  exact fin s2 c3 _ h2 ⟨rfl, rfl, rfl, rfl, rfl⟩

theorem setC_facts (c : Core) (l : List (Nat × Nat)) :
   ∃ s, l.foldl (fun c r => c.setS r.1 (BitVec.ofNat 64 r.2)) c = { c with s := s } := by
  induction l generalizing c with
  | nil => exact ⟨_, rfl⟩
  | cons a l ih =>
    obtain ⟨x, hx⟩ := ih (c.setS a.1 (BitVec.ofNat 64 a.2))
    rw [List.foldl_cons, hx]
    unfold Core.setS
    split <;> exact ⟨_, rfl⟩

theorem tenancy_setTenancy_ne (s : State) {k t : Nat} (h : k ≠ t) (x : Tenancy) : (s.setTenancy t x).tenancy k = s.tenancy k := Sparse.get_put_ne _ _ h _

theorem signal_host_only (s : State) (pf1 : Bool) (v : Nat) :
    (s.signal pf1 v).host = { s.host with pf0 := (s.signal pf1 v).host.pf0, pf1 := (s.signal pf1 v).host.pf1 } := by
  unfold State.signal
  split
  · rfl
  · dsimp only; split <;> cases pf1 <;> rfl

theorem signal_tenancy (s : State) (pf1 : Bool) (v t : Nat) : (s.signal pf1 v).tenancy t = s.tenancy t := by
  unfold State.tenancy; rw [signal_host_only]

theorem signal_rr (s : State) (pf1 : Bool) (v : Nat) : (s.signal pf1 v).host.rr = s.host.rr := by rw [signal_host_only]

theorem signal_hostByte (s : State) (pf1 : Bool) (v b : Nat) : (s.signal pf1 v).hostByte b = s.hostByte b := by
  unfold State.hostByte; rw [signal_host_only]

theorem setHostBytes_byte (s : State) (a : Nat) (bs : List Byte) (b : Nat) : (s.setHostBytes a bs).hostByte b =
    if a ≤ b ∧ b < a + bs.length then bs.getD (b - a) 0#8 else s.hostByte b := by
  induction bs generalizing s a with
  | nil => simp [State.setHostBytes]
  | cons x r ih =>
    rw [State.setHostBytes, ih]
    have h0 : (s.setHostByte a x).hostByte b = if b = a then x else s.hostByte b := by
      unfold State.hostByte State.setHostByte
      dsimp only
      split
      · rename_i h; subst h; simp
      · rename_i h; simp [h]
    simp only [List.length_cons]
    by_cases h : b = a
    · subst h
      rw [if_neg (by omega), h0, if_pos rfl, if_pos (by omega)]
      simp
    · by_cases h2 : a + 1 ≤ b ∧ b < a + 1 + r.length
      · rw [if_pos h2, if_pos (by omega)]
        obtain ⟨n, hn⟩ : ∃ n, b - a = n + 1 := ⟨b - a - 1, by omega⟩
        rw [hn, show b - (a + 1) = n by omega]
        simp
      · rw [if_neg h2, h0, if_neg h, if_neg (by omega)]

theorem setHostBytes_rest (s : State) (a : Nat) (bs : List Byte) :
    s.setHostBytes a bs = { s with host := { s.host with mem := (s.setHostBytes a bs).host.mem } } := by
  induction bs generalizing s a with
  | nil => rfl
  | cons x r ih => rw [State.setHostBytes, ih]; rfl

theorem Sparse.mem_of_get {α} (d : Nat → α) (m : Sparse α) (k : Nat) (h : Sparse.get d m k ≠ d k) : (k, Sparse.get d m k) ∈ m := by
  induction m with
  | nil => simp at h
  | cons e r ih =>
    obtain ⟨j, v⟩ := e
    unfold Sparse.get at h ⊢
    split
    · rename_i h2; subst h2; simp
    · rename_i h2
      rw [if_neg h2] at h
      exact List.mem_cons_of_mem _ (ih h)

theorem freeSlot_free {s : State} {i : Nat} (h : s.freeSlot = some i) : (s.item i).st = .free := by
  unfold State.freeSlot at h
  simpa using List.find?_some h

theorem check_form (t : Fin 16) (r : FetchResult) (s : State) (i : Nat) (h1 : (s.tenancy t.val).st = .active ∨ (s.tenancy t.val).st = .draining)
    (h2 : (s.tenancy t.val).fetching ≠ []) (h3 : s.fetching = true) (h4 : s.fetchFailed (s.tenancy t.val) r = false) (h5 : s.freeSlot = some i) :
    Sys2Proof.Machine.exec (.descriptorCheck t r) s = .next (
      ((((if r = .poisoned then s.bump OD.UNCORR_ERRORS else s).setTenancy t.val (s.tenancy t.val).arrive).placeItem i
        ((if r = .poisoned then s.bump OD.UNCORR_ERRORS else s).badReason t.val (r = .poisoned) (fetchBytes r))
        (fieldAt (fetchBytes r) 0 1 = 3) (itemOf t.val (if r = .poisoned then s.bump OD.UNCORR_ERRORS else s).clk.now (fetchBytes r))).tenSettle t.val)) := by
  show execDescriptorCheck t r s = _
  unfold execDescriptorCheck
  dsimp only
  rw [if_neg (by rw [not_or, not_or]; exact ⟨by rw [Bool.not_eq_true', decide_eq_false_iff_not]; exact not_not.2 h1, h2, by simp [h3]⟩), if_neg (by simp [h4]), h5]

theorem recordBytes_length (a b c d e f g h i j k : Nat) : (recordBytes a b c d e f g h i j k).length = 32 := by
  unfold recordBytes; simp only [List.length_append, leBytes_length]

theorem act_or {x : Tenancy} (h : x.st = .active ∨ x.st = .draining) : ¬((!(decide (x.st = .active) || decide (x.st = .draining))) = true) := by
  rcases h with h | h <;> simp [h]

end Sys2Proof.Machine
end

