-- ==== Sys2Proof/Laws/PowerLaws.lean ====
section
/-!
SUPPORT. Lemmas about power, reset and boot order.
-/

set_option Elab.async false

namespace Sys2Proof.Machine

set_option linter.all false

theorem bit_testBit (v i : Nat) : bit v i = v.testBit i := by
  unfold bit
  rw [Nat.testBit_eq_decide_div_mod_eq]

theorem testBit_parts (q r i j : Nat) (b : Bool) (hr : r < 2 ^ i) :
    (2 ^ (i + 1) * q + (2 ^ i * b.toNat + r)).testBit j = if j < i then r.testBit j else if j = i then b else q.testBit (j - (i + 1)) := by
  have hb : b.toNat ≤ 1 := by cases b <;> simp
  have hlt : 2 ^ i * b.toNat + r < 2 ^ (i + 1) := by
    have : 2 ^ i * b.toNat ≤ 2 ^ i * 1 := Nat.mul_le_mul_left _ hb
    rw [pow_succ]; omega
  rw [Nat.testBit_two_pow_mul_add _ hlt]
  split
  · rename_i h
    rw [Nat.testBit_two_pow_mul_add _ hr]
    split
    · rfl
    · have : j = i := by omega
      subst this
      cases b <;> simp
  · rename_i h
    rw [if_neg (by omega), if_neg (by omega)]

theorem bit_setBit (v i j : Nat) (b : Bool) : bit (setBit v i b) j = if j = i then b else bit v j := by
  have hdec : v = 2 ^ (i + 1) * (v / 2 ^ (i + 1)) + (2 ^ i * (bit v i).toNat + v % 2 ^ i) := by
    have h1 := Nat.div_add_mod v (2 ^ (i + 1))
    have h2 := Nat.div_add_mod v (2 ^ i)
    have h3 : v % 2 ^ (i + 1) = v % 2 ^ i + 2 ^ i * (v / 2 ^ i % 2) := Nat.mod_pow_succ
    have h4 : (bit v i).toNat = v / 2 ^ i % 2 := by
      unfold bit
      have := Nat.mod_two_eq_zero_or_one (v / 2 ^ i)
      rcases this with h | h <;> simp [h]
    rw [h4]; omega
  have hr : v % 2 ^ i < 2 ^ i := Nat.mod_lt _ (by positivity)
  generalize hq : v / 2 ^ (i + 1) = q at hdec
  generalize hrr : v % 2 ^ i = r at hdec hr
  have hset : setBit v i b = 2 ^ (i + 1) * q + (2 ^ i * b.toNat + r) := by
    unfold setBit
    generalize hc : bit v i = c at hdec
    cases b <;> cases c <;> simp at hdec ⊢ <;> omega
  have hv : ∀ j, v.testBit j = if j < i then r.testBit j else if j = i then bit v i else q.testBit (j - (i + 1)) := by
    intro j
    conv_lhs => rw [hdec]
    exact testBit_parts q r i j _ hr
  rw [hset, bit_testBit, testBit_parts q r i j b hr, bit_testBit v j, hv]
  by_cases h : j = i
  · subst h; simp
  · simp [h]

theorem powerNote_rd' (s : State) (k : Nat) (h : k ≠ OD.TRANSITION_US) : s.powerNote.rd k = s.rd k := by
  unfold State.powerNote
  repeat' split
  all_goals first | rfl | exact rd_wr_ne s h _

theorem powerNote_pow (s : State) : ∃ m, s.powerNote.pow = { s.pow with moving := m } := by
  unfold State.powerNote
  repeat' split
  all_goals exact ⟨_, rfl⟩

theorem powerNote_ramp (s : State) (d : Nat) : s.powerNote.rampOf d = s.rampOf d := by
  obtain ⟨m, h⟩ := powerNote_pow s
  unfold State.rampOf; rw [h]

theorem setPow_ramp (s : State) (p : Power) (e : Nat) : (s.setPow p).rampOf e = Sparse.get (fun _ => none) p.ramp e := rfl

theorem setRamp_ramp (s : State) (d e : Nat) (x : Option Nat) : (s.setRamp d x).rampOf e = if e = d then x else s.rampOf e := by
  unfold State.rampOf State.setRamp State.setPow
  dsimp only
  rw [Sparse.get_put]

theorem powered_of {s t : State} (h : t.rd OD.DOMAIN_ON = s.rd OD.DOMAIN_ON) (d : Nat) : t.powered d = s.powered d := by
  unfold State.powered; rw [h]

theorem foldN_rd (f : State → Nat → State) (k : Nat) (h : ∀ s i, (f s i).rd k = s.rd k) (n : Nat) (s : State) : (foldN n f s).rd k = s.rd k := by
  unfold foldN
  induction n with
  | zero => rfl
  | succ m ih => rw [List.range_succ, List.foldl_append]; simp only [List.foldl_cons, List.foldl_nil]; rw [h]; exact ih

theorem ch_ne (i : Nat) : OD.CH_STATE i ≠ OD.DOMAIN_ON ∧ OD.CH_STATE i ≠ OD.TRANSITION_US := by
  unfold OD.CH_STATE OD.DOMAIN_ON OD.TRANSITION_US; omega

theorem domainUp_on (s : State) (d : Nat) : (s.domainUp d).rd OD.DOMAIN_ON = s.rd OD.DOMAIN_ON := by
  unfold State.domainUp
  split
  · rfl
  split
  · rfl
  split
  · unfold State.channelsOn
    rw [foldN_rd (fun s i => s.wr (OD.CH_STATE (4 * (d - 24) + i)) ChSt.untrimmed) OD.DOMAIN_ON (fun s i => rd_wr_ne s (ch_ne _).1.symm _)]
    unfold State.latchDram
    split
    · rfl
    · rw [rd_wr_ne _ (by decide : OD.DOMAIN_ON ≠ OD.DRAM_USABLE), rd_wr_ne _ (by decide : OD.DOMAIN_ON ≠ OD.LATCHED)]
  split
  · exact rd_wr_ne _ (by decide) _
  split
  · unfold State.debugUp
    dsimp only
    split
    · exact rd_wr_ne _ (by decide) _
    · rfl
  · rfl

theorem domainUp_pow (s : State) (d : Nat) : (s.domainUp d).pow = s.pow :=
  (domainUp_keep s d (Keep.rfl' s)).part .pow

theorem setTarget_rd' (s : State) (r g k : Nat) (h : k ≠ OD.TRANSITION_US) : (s.setTarget r g).rd k =
   if k = OD.DOMAIN_FAIL then clearBits (s.rd OD.DOMAIN_FAIL) r else if k = OD.GATE then g else if k = OD.DOMAIN_REQ then r else s.rd k := by
  have e : (s.setTarget r g).rd k = (((s.wr OD.DOMAIN_REQ r).wr OD.GATE g).wr OD.DOMAIN_FAIL (clearBits (s.rd OD.DOMAIN_FAIL) r)).rd k := by
    unfold State.setTarget
    exact powerNote_rd' _ k h
  rw [e, rd_wr, rd_wr, rd_wr]

theorem setTarget_pow (s : State) (r g : Nat) : ∃ m, (s.setTarget r g).pow = { s.pow with await := false, moving := m } := by
  unfold State.setTarget
  obtain ⟨m, h⟩ := powerNote_pow ({ (((s.wr OD.DOMAIN_REQ r).wr OD.GATE g).wr OD.DOMAIN_FAIL (clearBits (s.rd OD.DOMAIN_FAIL) r)) with pow := { s.pow with await := false } })
  exact ⟨m, h⟩

theorem tracePace_rd (s : State) (p : Nat) {k : Nat} (h : k ∉ traceKeys) : (s.tracePace p).rd k = s.rd k := by
  unfold State.tracePace
  split
  · dsimp only
    split
    · exact tracePacket_rd s _ _ h
    · exact tracePacket_rd s _ _ h
  · rfl

theorem tracePace_pow (s : State) (p : Nat) : (s.tracePace p).pow = s.pow := (tracePace_keep s p (Keep.rfl' s)).part .pow

theorem paceSwitch_facts (s : State) : (∀ k, k ∉ traceKeys → k ≠ OD.PACE → k ≠ OD.HALL_MHZ → k ≠ OD.SPINE_MHZ → k ≠ OD.PACE_CHANGES →
    s.paceSwitch.rd k = s.rd k) ∧ (∀ p, s.pow.paceTo = some (p, true) → s.paceSwitch.rd OD.PACE = p ∧
      s.paceSwitch.rd OD.HALL_MHZ = paceHall p ∧ s.paceSwitch.rd OD.SPINE_MHZ = paceSpine p ∧
      s.paceSwitch.rd OD.PACE_CHANGES = min (s.rd OD.PACE_CHANGES + 1) 0xFFFFFFFF ∧ s.paceSwitch.pow = { s.pow with paceTo := none, supply := p }) := by
  have tk : ∀ k, k = OD.PACE ∨ k = OD.HALL_MHZ ∨ k = OD.SPINE_MHZ ∨ k = OD.PACE_CHANGES → k ∉ traceKeys := by
    intro k hk; rcases hk with rfl | rfl | rfl | rfl <;> decide
  constructor
  · intro k h0 h1 h2 h3 h4
    unfold State.paceSwitch
    split
    · dsimp only
      rw [tracePace_rd _ _ h0, rd_bump, if_neg h4, rd_wr_ne _ h3, rd_wr_ne _ h2, rd_wr_ne _ h1]; rfl
    · rfl
  · intro p hp
    unfold State.paceSwitch
    rw [hp]
    dsimp only
    refine ⟨?_, ?_, ?_, ?_, ?_⟩
    · rw [tracePace_rd _ _ (tk _ (.inl rfl)), rd_bump, if_neg (by decide), rd_wr_ne _ (by decide : OD.PACE ≠ OD.SPINE_MHZ), rd_wr_ne _ (by decide : OD.PACE ≠ OD.HALL_MHZ), rd_wr_same]
    · rw [tracePace_rd _ _ (tk _ (by simp)), rd_bump, if_neg (by decide), rd_wr_ne _ (by decide : OD.HALL_MHZ ≠ OD.SPINE_MHZ), rd_wr_same]
    · rw [tracePace_rd _ _ (tk _ (by simp)), rd_bump, if_neg (by decide), rd_wr_same]
    · rw [tracePace_rd _ _ (tk _ (by simp)), rd_bump, if_pos rfl, rd_wr_ne _ (by decide : OD.PACE_CHANGES ≠ OD.SPINE_MHZ), rd_wr_ne _ (by decide : OD.PACE_CHANGES ≠ OD.HALL_MHZ), rd_wr_ne _ (by decide : OD.PACE_CHANGES ≠ OD.PACE)]; rfl
    · rw [tracePace_pow]; rfl

theorem paceUpdate_rd (s : State) (k : Nat) (h0 : k ∉ traceKeys) (h1 : k ≠ OD.PACE) (h2 : k ≠ OD.HALL_MHZ) (h3 : k ≠ OD.SPINE_MHZ) (h4 : k ≠ OD.PACE_CHANGES) :
    s.paceUpdate.rd k = s.rd k := by
  have e : ∀ u : State, u.od = s.od → (if u.tick.st = .stopped then u.paceSwitch else u).rd k = s.rd k := by
    intro u hu
    split
    · rw [(paceSwitch_facts u).1 k h0 h1 h2 h3 h4]; exact rd_of_od hu k
    · exact rd_of_od hu k
  exact e _ rfl

theorem domainDown_on (v : State) (d : Nat) : bit ((v.domainDown d).rd OD.DOMAIN_ON) d = false := by
  unfold State.domainDown
  generalize State.clearObjects _ _ _ = w
  have : ∀ u : State, u.od = (w.setOdBit OD.DOMAIN_ON d false).od → bit (u.rd OD.DOMAIN_ON) d = false := by
    intro u hu
    rw [rd_of_od hu, rd_setOdBit, if_pos rfl, bit_setBit, if_pos rfl]
  exact this _ rfl

theorem foldl_last {α} (f : α → Nat → α) (n : Nat) (a : α) : (List.range (n + 1)).foldl f a = f ((List.range n).foldl f a) n := by
  rw [List.range_succ, List.foldl_append]; rfl

theorem allDown_last (s : State) : ∃ v, s.allDown = State.domainDown v 1 := by
  unfold State.allDown
  rw [foldl_last (fun s i => State.domainDown s (27 - i)) 26]
  exact ⟨_, rfl⟩

theorem foldN_rdIdx (f : State → Nat → State) (key : Nat → Nat) (g : Nat → Nat → Nat)
    (hi : ∀ i j, i ≠ j → key i ≠ key j)
    (hs : ∀ s i, (f s i).rd (key i) = g i (s.rd (key i))) (hn : ∀ s i k, k ≠ key i → (f s i).rd k = s.rd k)
    (n : Nat) (s : State) : (∀ i, (foldN n f s).rd (key i) = if i < n then g i (s.rd (key i)) else s.rd (key i)) ∧
      (∀ k, (∀ i, i < n → k ≠ key i) → (foldN n f s).rd k = s.rd k) := by
  unfold foldN
  induction n with
  | zero => exact ⟨fun i => rfl, fun k _ => rfl⟩
  | succ m ih =>
    rw [foldl_last]
    refine ⟨fun i => ?_, fun k hk => ?_⟩
    · by_cases h : i = m
      · subst h; rw [hs, ih.1, if_neg (by omega), if_pos (by omega)]
      · rw [hn _ _ _ (hi i m h), ih.1]
        by_cases h2 : i < m
        · rw [if_pos h2, if_pos (by omega)]
        · rw [if_neg h2, if_neg (by omega)]
    · rw [hn _ _ _ (hk m (by omega))]; exact ih.2 k (fun i h => hk i (by omega))

theorem setTarget_facts (s : State) (r g : Nat) : (s.setTarget r g).rd OD.DOMAIN_REQ = r ∧ (s.setTarget r g).rd OD.GATE = g := by
  refine ⟨?_, ?_⟩
  · rw [setTarget_rd' _ _ _ _ (by decide), if_neg (by decide), if_neg (by decide), if_pos rfl]
  · rw [setTarget_rd' _ _ _ _ (by decide), if_neg (by decide), if_pos rfl]

theorem clearObjects_rd (s : State) (p keep : Nat → Bool) (k : Nat) :
    (s.clearObjects p keep).rd k = if p (domainOf k) && !keep k then odDefault k else s.rd k := by
  unfold State.clearObjects State.rd
  dsimp only
  rw [Sparse.get_clear]

theorem abortAll_entries (s : State) : s.abortAll.flit.entries = [] ∧ s.abortAll.flit.slots = s.flit.slots ∧ s.abortAll.flit.admission = [] := by
  have h := Steady.foldl (fun s e => State.engineStop s e) engineStop_steady (s.flit.entries.filter (fun e => e.st = .issued))
    ({ s with flit := { s.flit with entries := [], admission := [] } } : State)
  have h1 : s.abortAll.flit.entries.map Entry.id = [] := h.ids
  have h2 : s.abortAll.flit.slots = s.flit.slots := h.slots
  have h3 : s.abortAll.flit.admission = [] := h.adm
  exact ⟨by simpa using h1, h2, h3⟩

theorem linkLost_parts (s : State) (state cause : Nat) :
    (s.linkLost state cause).od = ((((s.orderReset cause false none).wr OD.LINK_STATE state).wr OD.LINK_WIDTH 0).wr OD.LINK_SPEED 0).od ∧
    (s.linkLost state cause).pow = (s.orderReset cause false none).pow ∧ (s.linkLost state cause).tick = (s.orderReset cause false none).tick ∧
    (s.linkLost state cause).flit = (s.orderReset cause false none).flit ∧ (s.linkLost state cause).host.pf0 = {} ∧ (s.linkLost state cause).host.pf1 = {} := by
  unfold State.linkLost
  generalize s.orderReset cause false none = u
  exact ⟨rfl, rfl, rfl, rfl, rfl, rfl⟩

theorem vinLoss_form (high : Bool) (mv : BitVec 16) (s : State) : Sys2Proof.Machine.exec (.vinLoss high mv) s = .next (
    let a := (s.loseAll 0x10).allDown
    let b := ((a.setPow { a.pow with
      vin := false, await := false, ramp := [], moving := none, reset := none }).wr OD.VIN_MV mv.toNat).wr OD.RESET_STATE 0
    ((b.logFault ⟨0, FaultClass.device, 64, 0, 0, OD.VIN_MV, 0xFF, mv.toNat, if high then 2 else 1⟩).wr OD.DOMAIN_REQ 1).wr OD.GATE 1) := rfl

theorem rev28 : (List.range 28).reverse = (List.range 28).map (fun i => 27 - i) := by decide

theorem orderReset_new (s : State) (cause : Nat) (floor : Bool) (lost : Option Nat) (h : s.pow.reset = none) :
    ∃ u : State, u.pow = { s.pow with reset := some ⟨cause, s.clk.now, s.linkUp && decide (cause = 4), floor⟩ } ∧
      u.tick = { s.tick with st := .stopped, startPending := false, commitDue := false, armed := false, armFresh := none, out := false, outMark := none, outEnd := none, inEdge := none } ∧
      u.flit = s.flit ∧
      s.orderReset cause floor lost = (if s.linkUp && decide (cause ≠ 1 ∧ cause ≠ 2 ∧ cause ≠ 3) then
        (u.abortAll.lostOrder.filter (fun i => lost ≠ some i)).foldl (fun s i => s.flushSlot i) u.abortAll else u.abortAll) := by
  refine ⟨((s.setPow { s.pow with reset := some ⟨cause, s.clk.now, s.linkUp && decide (cause = 4), floor⟩ }).wr OD.RESET_STATE 1).setTick { s.tick with st := .stopped, startPending := false, commitDue := false, armed := false, armFresh := none, out := false, outMark := none, outEnd := none, inEdge := none }, rfl, rfl, rfl, ?_⟩
  unfold State.orderReset
  rw [h]
  rfl

theorem coldReset_form (s : State) : s.coldReset =
    (State.wr (State.recordsCold (State.clearObjects (s.loseAll 8).allDown.cutBurn.cutFlash.cutCommit (fun d => d = 0) coldKeeps)) OD.RESET_CAUSE 8).powerUp := rfl

theorem recordsCold_parts (u : State) : u.recordsCold.pow = { vaon := u.pow.vaon, vin := u.pow.vin, mod_ := u.pow.mod_, sysref := u.pow.sysref } ∧
    u.recordsCold.dict = {} ∧ u.recordsCold.gq = { idleAt := u.clk.now } ∧ u.recordsCold.od = u.od := ⟨rfl, rfl, rfl, rfl⟩

theorem clearObjects_pow (u : State) (p q) : (u.clearObjects p q).pow = u.pow := rfl

theorem powerNote_rd (s : State) (k : Nat) (h : k ≠ OD.TRANSITION_US) : s.powerNote.rd k = s.rd k := by
  unfold State.powerNote
  repeat' split
  all_goals first | rfl | exact rd_wr_ne s h _

theorem powerNote_sameData (s : State) : s.SameData s.powerNote := by
  unfold State.powerNote
  repeat' split
  all_goals exact ⟨rfl, rfl, rfl, rfl, rfl⟩

theorem setTarget_sameData (s : State) (r g : Nat) : s.SameData (s.setTarget r g) := by
  have h := powerNote_sameData { (((s.wr OD.DOMAIN_REQ r).wr OD.GATE g).wr OD.DOMAIN_FAIL (clearBits (s.rd OD.DOMAIN_FAIL) r)) with pow := { s.pow with await := false } }
  exact ⟨h.1, h.2, h.3, h.4, h.5⟩

theorem setTarget_rd (s : State) (r g k : Nat) (h : k ≠ OD.TRANSITION_US) : (s.setTarget r g).rd k =
   if k = OD.DOMAIN_FAIL then clearBits (s.rd OD.DOMAIN_FAIL) r else if k = OD.GATE then g else if k = OD.DOMAIN_REQ then r else s.rd k := by
  have e : (s.setTarget r g).rd k = (((s.wr OD.DOMAIN_REQ r).wr OD.GATE g).wr OD.DOMAIN_FAIL (clearBits (s.rd OD.DOMAIN_FAIL) r)).rd k := by
    unfold State.setTarget
    exact powerNote_rd _ k h
  rw [e, rd_wr, rd_wr, rd_wr]

end Sys2Proof.Machine
end

