-- ==== Sys2Proof/Laws/DramLaws.lean ====
section
/-!
SUPPORT. Lemmas about the DRAM channels.
-/

set_option Elab.async false

namespace Sys2Proof.Machine

set_option linter.all false

theorem setDmem_dmem (s : State) (d) : (s.setDmem d).dmem = d := rfl

theorem rowTouch_set (s : State) (a : Nat) : ∃ d, s.rowTouch a = s.setDmem d := ⟨_, rfl⟩

theorem foldN_set (f : State → Nat → State) (h : ∀ s i, ∃ d, f s i = s.setDmem d) (n : Nat) (s : State) : ∃ d, foldN n f s = s.setDmem d := by
  unfold foldN
  induction n with
  | zero => exact ⟨s.dmem, rfl⟩
  | succ m ih =>
    obtain ⟨d, hd⟩ := ih
    rw [foldl_last, hd]
    obtain ⟨e, he⟩ := h (s.setDmem d) m
    exact ⟨e, he⟩

theorem copyDelays_facts (s : State) (ch : Nat) (hc : ch < 8) : (∀ i, i < 52 → (s.copyDelays ch).rd (OD.LIVE_DELAY ch i) = s.rd (OD.SHADOW_DELAY ch i)) ∧
    (∀ k, (∀ i, i < 52 → k ≠ OD.LIVE_DELAY ch i) → (s.copyDelays ch).rd k = s.rd k) := by
  have key : ∀ n, n ≤ 52 → (∀ i, i < n → ((List.range n).foldl (fun s i => State.wr s (OD.LIVE_DELAY ch i) (s.rd (OD.SHADOW_DELAY ch i))) s).rd (OD.LIVE_DELAY ch i) = s.rd (OD.SHADOW_DELAY ch i)) ∧
      (∀ k, (∀ i, i < n → k ≠ OD.LIVE_DELAY ch i) → ((List.range n).foldl (fun s i => State.wr s (OD.LIVE_DELAY ch i) (s.rd (OD.SHADOW_DELAY ch i))) s).rd k = s.rd k) := by
    intro n
    induction n with
    | zero => intro _; exact ⟨fun i h => absurd h (by omega), fun k _ => rfl⟩
    | succ m ih =>
      intro hm
      obtain ⟨h1, h2⟩ := ih (by omega)
      rw [foldl_last]
      have e : ∀ j, j < 52 → ∀ i, i < m → OD.SHADOW_DELAY ch j ≠ OD.LIVE_DELAY ch i := by
        intro j hj i hi; unfold OD.SHADOW_DELAY OD.LIVE_DELAY; omega
      refine ⟨fun i hi => ?_, fun k hk => ?_⟩
      · by_cases c : i = m
        · subst c; rw [rd_wr_same, h2 _ (e i (by omega))]
        · rw [rd_wr_ne _ (by unfold OD.LIVE_DELAY; omega), h1 i (by omega)]
      · rw [rd_wr_ne _ (hk m (by omega)), h2 k (fun i hi => hk i (by omega))]
  exact key 52 (by omega)

theorem setMem_rd (s : State) (a) (b) (k) : (s.setMemByte a b).rd k = s.rd k := rfl

theorem setMark_rd (s : State) (a m k) : (s.setMark a m).rd k = s.rd k := rfl

theorem setPow_rd (s : State) (d k) : (s.setPow d).rd k = s.rd k := rfl

theorem setDmem_rd (s : State) (d k) : (s.setDmem d).rd k = s.rd k := rfl

theorem rd_bump_same (s : State) (k : Nat) : (s.bump k).rd k = min (s.rd k + 1) 0xFFFFFFFF := by rw [rd_bump, if_pos rfl]

theorem rd_bump_ne (s : State) {k j : Nat} (h : j ≠ k) : (s.bump k).rd j = s.rd j := by rw [rd_bump, if_neg h]

theorem rd_bump64_same (s : State) (k n : Nat) : (s.bump64 k n).rd k = min (s.rd k + n) 0xFFFFFFFFFFFFFFFF := rd_wr_same ..

theorem rd_bump64_ne (s : State) {k j : Nat} (h : j ≠ k) (n : Nat) : (s.bump64 k n).rd j = s.rd j := rd_wr_ne _ h _

theorem setOdBit_same (s : State) (k i : Nat) (b : Bool) : (s.setOdBit k i b).rd k = setBit (s.rd k) i b := rd_wr_same ..

theorem setOdBit_ne (s : State) {k j : Nat} (h : j ≠ k) (i : Nat) (b : Bool) : (s.setOdBit k i b).rd j = s.rd j := rd_wr_ne _ h _

theorem rd_with_pending (u : State) (x) (k : Nat) : State.rd { u with pending := x } k = u.rd k := rfl

theorem rd_with_clk (u : State) (x) (k : Nat) : State.rd { u with clk := x } k = u.rd k := rfl

theorem rd_with_odb (u : State) (x) (k : Nat) : State.rd { u with odb := x } k = u.rd k := rfl

theorem rd_with_dict (u : State) (x) (k : Nat) : State.rd { u with dict := x } k = u.rd k := rfl

theorem rd_with_tick (u : State) (x) (k : Nat) : State.rd { u with tick := x } k = u.rd k := rfl

theorem rd_with_host (u : State) (x) (k : Nat) : State.rd { u with host := x } k = u.rd k := rfl

theorem rd_with_land (u : State) (x) (k : Nat) : State.rd { u with land := x } k = u.rd k := rfl

theorem rd_with_flit (u : State) (x) (k : Nat) : State.rd { u with flit := x } k = u.rd k := rfl

theorem rd_with_falt (u : State) (x) (k : Nat) : State.rd { u with falt := x } k = u.rd k := rfl

theorem rd_with_trc (u : State) (x) (k : Nat) : State.rd { u with trc := x } k = u.rd k := rfl

theorem rd_with_cores (u : State) (x) (k : Nat) : State.rd { u with cores := x } k = u.rd k := rfl

theorem rd_with_newels (u : State) (x) (k : Nat) : State.rd { u with newels := x } k = u.rd k := rfl

theorem rd_with_arr (u : State) (x) (k : Nat) : State.rd { u with arr := x } k = u.rd k := rfl

theorem rd_with_mem (u : State) (x) (k : Nat) : State.rd { u with mem := x } k = u.rd k := rfl

theorem rd_with_bal (u : State) (x) (k : Nat) : State.rd { u with bal := x } k = u.rd k := rfl

theorem rd_with_ldr (u : State) (x) (k : Nat) : State.rd { u with ldr := x } k = u.rd k := rfl

theorem rd_with_clok (u : State) (x) (k : Nat) : State.rd { u with clok := x } k = u.rd k := rfl

theorem rd_with_ports (u : State) (x) (k : Nat) : State.rd { u with ports := x } k = u.rd k := rfl

theorem rd_with_ledg (u : State) (x) (k : Nat) : State.rd { u with ledg := x } k = u.rd k := rfl

theorem rd_with_vest (u : State) (x) (k : Nat) : State.rd { u with vest := x } k = u.rd k := rfl

theorem rd_with_vid (u : State) (x) (k : Nat) : State.rd { u with vid := x } k = u.rd k := rfl

theorem rd_with_coln (u : State) (x) (k : Nat) : State.rd { u with coln := x } k = u.rd k := rfl

theorem rd_with_dmem (u : State) (x) (k : Nat) : State.rd { u with dmem := x } k = u.rd k := rfl

theorem rd_with_pow (u : State) (x) (k : Nat) : State.rd { u with pow := x } k = u.rd k := rfl

theorem rd_with_boot (u : State) (x) (k : Nat) : State.rd { u with boot := x } k = u.rd k := rfl

theorem rd_with_gq (u : State) (x) (k : Nat) : State.rd { u with gq := x } k = u.rd k := rfl

theorem rd_with_dbg (u : State) (x) (k : Nat) : State.rd { u with dbg := x } k = u.rd k := rfl

theorem rd_with_pins (u : State) (x) (k : Nat) : State.rd { u with pins := x } k = u.rd k := rfl

theorem rd_with_free (u : State) (x) (k : Nat) : State.rd { u with free := x } k = u.rd k := rfl

theorem keepOf {fs : List Field} {i : Instr} {s t : State} (h : ∃ u, Sys2Proof.Machine.exec i s = .next u ∧ Keep fs s u)
    (hx : Sys2Proof.Machine.exec i s = .next t) : Keep fs s t := by
  obtain ⟨u, h1, h2⟩ := h
  rw [h1] at hx; injection hx with hx; exact hx ▸ h2

theorem next_inj {s t : State} (h : (Host.Outcome.next s : Host.Outcome State Fault Refusal) = .next t) : t = s := by injection h with h; exact h.symm

theorem setRr_form (w : State) (ch : Nat) (st : Byte) (h : w.rd (OD.CH_STATE ch) = ChSt.active) : ∃ u, w.setRr ch st.toNat = u ∧
    ((¬(st = 1#8 ∨ st = 2#8 ∨ st = 4#8 ∨ st = 0xFF#8) ∧ u = w) ∨
     ((st = 1#8 ∨ st = 2#8 ∨ st = 4#8 ∨ st = 0xFF#8) ∧ (st = 0xFF#8 ∧ w.rd (OD.DRAM_RR ch) ≠ 0xFF) ∧
       u = (w.wr (OD.DRAM_RR ch) st.toNat).record FaultClass.corrected 0xFF (24 + ch / 4) (OD.DRAM_RR ch) 0 ch) ∨
     ((st = 1#8 ∨ st = 2#8 ∨ st = 4#8 ∨ st = 0xFF#8) ∧ ¬(st = 0xFF#8 ∧ w.rd (OD.DRAM_RR ch) ≠ 0xFF) ∧ u = w.wr (OD.DRAM_RR ch) st.toNat)) := by
  have hc : w.chSt ch = ChSt.active := h
  have ev : ∀ n : Nat, n < 256 → (st.toNat = n ↔ st = BitVec.ofNat 8 n) := by
    intro n hn; rw [← BitVec.toNat_inj, BitVec.toNat_ofNat, Nat.mod_eq_of_lt (by omega)]
  unfold State.setRr
  by_cases hv : st = 1#8 ∨ st = 2#8 ∨ st = 4#8 ∨ st = 0xFF#8
  · rw [if_neg (by simp only [hc, ev 1 (by decide), ev 2 (by decide), ev 4 (by decide), ev 0xFF (by decide)]; simp only [hv]; simp)]
    dsimp only
    by_cases hh : st = 0xFF#8 ∧ w.rd (OD.DRAM_RR ch) ≠ 0xFF
    · rw [if_pos ⟨(ev 0xFF (by decide)).2 hh.1, hh.2⟩]
      exact ⟨_, rfl, .inr (.inl ⟨hv, hh, rfl⟩)⟩
    · rw [if_neg (fun x => hh ⟨(ev 0xFF (by decide)).1 x.1, x.2⟩)]
      exact ⟨_, rfl, .inr (.inr ⟨hv, hh, rfl⟩)⟩
  · rw [if_pos (.inr (by simp only [ev 1 (by decide), ev 2 (by decide), ev 4 (by decide), ev 0xFF (by decide)]; simpa using hv))]
    exact ⟨_, rfl, .inl ⟨hv, rfl⟩⟩

/-- What the end of a window does to one master: it counts where it was short, and nothing else changes (R467, R468, R472). -/
theorem balMaster_facts (s : State) (g : Nat) (j : Bool) (m : Nat) (hm : m < 48) :
    let u := s.balMaster g j m
    let short := j = true ∧ s.waits g m = true ∧ s.granted g m < s.entitlement g m
    u.rd (OD.MISSES m) = (if short then min (s.rd (OD.MISSES m) + 1) 0xFFFFFFFF else s.rd (OD.MISSES m)) ∧
    u.rd OD.MISS_MASK = (if short then setBit (s.rd OD.MISS_MASK) m true else s.rd OD.MISS_MASK) ∧
    (∀ k, k ≠ OD.MISSES m → k ≠ OD.MISS_MASK → u.rd k = s.rd k) ∧ u.bal = s.bal := by
  intro u short
  have hb : u.bal = s.bal := (balMaster_keep (fs := [.od, .host]) s g j m (Keep.rfl' s) (within_self _)).part .bal
  have ne : OD.MISS_MASK ≠ OD.MISSES m := by simp only [OD.MISS_MASK, OD.MISSES]; omega
  have hu : u = (if short then
      (if !bit (s.rd OD.MISS_MASK) m && ((s.bump (OD.MISSES m)).setOdBit OD.MISS_MASK m true).flag OD.MISS_IRQ then
        ((s.bump (OD.MISSES m)).setOdBit OD.MISS_MASK m true).signal false 6
      else (s.bump (OD.MISSES m)).setOdBit OD.MISS_MASK m true) else s) := by
    show State.balMaster s g j m = _
    unfold State.balMaster
    dsimp only
    have e : ((j && s.waits g m && decide (s.granted g m < s.entitlement g m)) = true) = short := by simp [short, and_assoc]
    simp only [e]
  have h1 : ∀ k, u.rd k = if short then ((s.bump (OD.MISSES m)).setOdBit OD.MISS_MASK m true).rd k else s.rd k := by
    intro k
    rw [hu, rd_ite, rd_ite, signal_rd, ite_self]
  refine ⟨?_, ?_, fun k k1 k2 => ?_, hb⟩
  · rw [h1, setOdBit_ne _ ne.symm, rd_bump_same]
  · rw [h1, setOdBit_same, rd_bump_ne _ ne]
  · rw [h1, setOdBit_ne _ k2, rd_bump_ne _ k1, ite_self]

/-- An entitlement rests on objects that no window end changes. -/
theorem ent_of {s u : State} (g m : Nat) (hm : m < 48)
    (h : ∀ k, (∀ i < 48, k ≠ OD.MISSES i) → k ≠ OD.MISS_MASK → u.rd k = s.rd k) : u.entitlement g m = s.entitlement g m := by
  have n1 : ∀ k, k < 0x511000 → ∀ i < 48, k ≠ OD.MISSES i := fun k hk i hi => by simp only [OD.MISSES]; omega
  unfold State.entitlement State.windowLines guarKey
  rw [h OD.BAL_WINDOW (n1 _ (by decide)) (by decide), h OD.SPINE_MHZ (n1 _ (by decide)) (by decide),
    h OD.HALL_MHZ (n1 _ (by decide)) (by decide), h OD.LATCHED (fun i hi => by simp only [OD.LATCHED, OD.MISSES]; omega) (by decide)]
  split
  · rw [h (OD.GUAR_GAL m) (fun i hi => by simp only [OD.GUAR_GAL, OD.MISSES]; omega) (by simp only [OD.GUAR_GAL, OD.MISS_MASK]; omega)]
  · rw [h (OD.GUAR_DRAM m) (fun i hi => by simp only [OD.GUAR_DRAM, OD.MISSES]; omega) (by simp only [OD.GUAR_DRAM, OD.MISS_MASK]; omega)]

/-- What the end of a window does to the first `n` masters. -/
theorem balFold_facts (g : Nat) (j : Bool) (s : State) : ∀ n, n ≤ 48 →
    let t := foldN n (fun s m => s.balMaster g j m) s
    let short := fun m => j = true ∧ s.waits g m = true ∧ s.granted g m < s.entitlement g m
    (∀ m, m < n → t.rd (OD.MISSES m) = (if short m then min (s.rd (OD.MISSES m) + 1) 0xFFFFFFFF else s.rd (OD.MISSES m))) ∧
    (∀ m, n ≤ m → m < 48 → t.rd (OD.MISSES m) = s.rd (OD.MISSES m)) ∧
    (∀ i, bit (t.rd OD.MISS_MASK) i = true ↔ bit (s.rd OD.MISS_MASK) i = true ∨ (i < n ∧ short i)) ∧
    (∀ k, (∀ i < 48, k ≠ OD.MISSES i) → k ≠ OD.MISS_MASK → t.rd k = s.rd k) ∧ t.bal = s.bal := by
  intro n
  induction n with
  | zero => intro _; exact ⟨fun m h => absurd h (by omega), fun _ _ _ => rfl, fun i => by simp [foldN], fun _ _ _ => rfl, rfl⟩
  | succ n ih =>
    intro hn t short
    obtain ⟨i1, i2, i3, i4, i5⟩ := ih (by omega)
    have ht : t = (foldN n (fun s m => s.balMaster g j m) s).balMaster g j n := foldN_succ _ _ _
    clear_value t
    generalize foldN n (fun s m => s.balMaster g j m) s = v at *
    obtain ⟨f1, f2, f3, f4⟩ := balMaster_facts v g j n (by omega)
    have hw : v.waits g n = s.waits g n := by unfold State.waits State.balTarget; rw [i5]
    have hg : v.granted g n = s.granted g n := by unfold State.granted; rw [i5]
    have he := ent_of g n (by omega) i4
    rw [hw, hg, he] at f1 f2
    have ne : ∀ a b, a < 48 → b < 48 → a ≠ b → OD.MISSES a ≠ OD.MISSES b := fun a b _ _ _ => by simp only [OD.MISSES]; omega
    have nm : ∀ a, a < 48 → OD.MISSES a ≠ OD.MISS_MASK := fun a _ => by simp only [OD.MISSES, OD.MISS_MASK]; omega
    rw [ht]
    refine ⟨fun m hm => ?_, fun m h1 h2 => ?_, fun i => ?_, fun k k1 k2 => ?_, f4.trans i5⟩
    · by_cases c : m = n
      · subst c; rw [f1, i2 _ (Nat.le_refl _) (by omega)]
      · rw [f3 _ (ne _ _ (by omega) (by omega) c) (nm _ (by omega))]; exact i1 m (by omega)
    · rw [f3 _ (ne _ _ (by omega) (by omega) (by omega)) (nm _ (by omega))]; exact i2 m (by omega) h2
    · rw [f2]
      have h3 := i3 i
      by_cases c : j = true ∧ s.waits g n = true ∧ s.granted g n < s.entitlement g n
      · rw [if_pos c, bit_setBit]
        by_cases e : i = n
        · subst e; simp only [if_true, true_iff]; exact .inr ⟨by omega, c⟩
        · rw [if_neg e, h3]
          exact or_congr Iff.rfl (and_congr (by omega) Iff.rfl)
      · rw [if_neg c, h3]
        refine or_congr Iff.rfl ⟨fun h => ⟨by omega, h.2⟩, fun h => ⟨?_, h.2⟩⟩
        by_cases e : i = n
        · subst e; exact absurd h.2 c
        · have := h.1; omega
    · rw [f3 k (k1 n (by omega)) k2]; exact i4 k k1 k2

theorem memClear_byte (s : State) (p : Nat → Bool) (a : Nat) : (s.memClear p).memByte a = if p a then 0 else s.memByte a := by
  show Sparse.get (fun _ => 0#8) (Sparse.clear p s.mem.cells) a = _
  rw [Sparse.get_clear]; rfl

end Sys2Proof.Machine
end

