-- ==== Sys2Proof/Laws/PlaceLaws.lean ====
section
/-!
SUPPORT. Lemmas about places in memory.
-/

set_option Elab.async false

namespace Sys2Proof.Machine

set_option linter.all false

theorem stored_mem {u v : State} {a : Nat} {bs : List Byte} (h : u.Stored v a bs) : ∀ t : State, t.mem = v.mem → t.memBytes a bs.length = bs ∧ (∀ x, x < a ∨ a + bs.length ≤ x → t.memByte x = u.memByte x) := by
  intro t ht
  have e : ∀ x, t.memByte x = v.memByte x := fun x => by unfold State.memByte; rw [ht]
  refine ⟨?_, fun x hx => (e x).trans (h.others x hx)⟩
  rw [memBytes_congr _ _ (fun i _ => e (a + i))]; exact h.bytes

theorem dramChannel_lt (s : State) (a : Nat) (h : a < 2 ^ 34) : s.dramChannel a < 8 := by
  unfold State.dramChannel dramMap
  dsimp only
  cases s.latSplit
  · simp only [Bool.false_eq_true, if_false]
    split
    · unfold xorN
      have := Nat.xor_lt_two_pow (n := 3) (Nat.xor_lt_two_pow (n := 3) (Nat.mod_lt (a / 2 ^ s.latGrain) (by decide)) (Nat.mod_lt (a / 2 ^ s.latGrain / 2 ^ 3) (by decide))) (Nat.mod_lt (a / 2 ^ 20) (by decide : 0 < 2 ^ 3))
      rw [Nat.zero_add]; exact this
    · have := Nat.mod_lt (a / 2 ^ s.latGrain) (by decide : 0 < 2 ^ 3); omega
  · simp only [if_true]
    have h2 : a / 2 ^ 33 < 2 := by omega
    split
    · unfold xorN
      have := Nat.xor_lt_two_pow (n := 2) (Nat.xor_lt_two_pow (n := 2) (Nat.mod_lt (a % 2 ^ 33 / 2 ^ s.latGrain) (by decide)) (Nat.mod_lt (a % 2 ^ 33 / 2 ^ s.latGrain / 2 ^ 2) (by decide))) (Nat.mod_lt (a % 2 ^ 33 / 2 ^ 20) (by decide : 0 < 2 ^ 2))
      have e : (2:Nat)^2 = 4 := rfl
      show 4 * (a / 2 ^ 33) + ((a % 2 ^ 33 / 2 ^ s.latGrain % 2 ^ 2).xor (a % 2 ^ 33 / 2 ^ s.latGrain / 2 ^ 2 % 2 ^ 2)).xor (a % 2 ^ 33 / 2 ^ 20 % 2 ^ 2) < 8
      have t : ((a % 2 ^ 33 / 2 ^ s.latGrain % 2 ^ 2).xor (a % 2 ^ 33 / 2 ^ s.latGrain / 2 ^ 2 % 2 ^ 2)).xor (a % 2 ^ 33 / 2 ^ 20 % 2 ^ 2) < 2 ^ 2 := this
      omega
    · have := Nat.mod_lt (a % 2 ^ 33 / 2 ^ s.latGrain) (by decide : 0 < 2 ^ 2); omega

theorem place_same2 {s z : State} (h : ∀ k, (2 ≤ k / 1048576 ∧ k / 1048576 ≤ 5 ∨ k / 1048576 = 8) → z.rd k = s.rd k) (hl : z.ldr = s.ldr) (hh : z.host = s.host) (q : Acc) (hq : ∀ t, q.ctx = some t → t < 16) (w : Bool) (a : Nat) :
    z.place q w a = s.place q w a := by
  have hp : ∀ d, z.powered d = s.powered d := fun d => powered_of (h _ (by decide)) d
  have hlat : z.rd OD.LATCHED = s.rd OD.LATCHED := h _ (by decide)
  have hg : z.latGrain = s.latGrain := by unfold State.latGrain; rw [hlat]
  have hs : z.latSplit = s.latSplit := by unfold State.latSplit; rw [hlat]
  have hhh : z.latHash = s.latHash := by unfold State.latHash; rw [hlat]
  have he : z.latEcc = s.latEcc := by unfold State.latEcc; rw [hlat]
  have hch : ∀ a, z.dramChannel a = s.dramChannel a := fun a => by unfold State.dramChannel; rw [hg, hs, hhh]
  have hdh : ∀ a, z.dramHole a = s.dramHole a := fun a => by unfold State.dramHole; rw [he, hs]
  have hlu : z.linkUp = s.linkUp := by unfold State.linkUp; rw [h _ (by decide)]
  have hex : ∀ i, i < 16 → z.extents i = s.extents i := by
    intro i hi
    unfold State.extents
    rw [h (OD.IMG_STATE i) (by (try simp only [odKey, OD.CH_STATE, OD.IMG_ALCOVE_BASE, OD.IMG_ALCOVE_SIZE, OD.IMG_CORES, OD.IMG_GALLERY_BASE, OD.IMG_GALLERY_SIZE, OD.IMG_STATE, OD.IMG_TENANTS, OD.LATCHED, OD.PAIR_READY, OD.TEN_GAL_BASE, OD.TEN_GAL_SIZE, OD.WIN_BASE, OD.WIN_FLAGS, OD.WIN_LENGTH] at *); omega), h (OD.IMG_GALLERY_BASE i) (by (try simp only [odKey, OD.CH_STATE, OD.IMG_ALCOVE_BASE, OD.IMG_ALCOVE_SIZE, OD.IMG_CORES, OD.IMG_GALLERY_BASE, OD.IMG_GALLERY_SIZE, OD.IMG_STATE, OD.IMG_TENANTS, OD.LATCHED, OD.PAIR_READY, OD.TEN_GAL_BASE, OD.TEN_GAL_SIZE, OD.WIN_BASE, OD.WIN_FLAGS, OD.WIN_LENGTH] at *); omega), h (OD.IMG_GALLERY_SIZE i) (by (try simp only [odKey, OD.CH_STATE, OD.IMG_ALCOVE_BASE, OD.IMG_ALCOVE_SIZE, OD.IMG_CORES, OD.IMG_GALLERY_BASE, OD.IMG_GALLERY_SIZE, OD.IMG_STATE, OD.IMG_TENANTS, OD.LATCHED, OD.PAIR_READY, OD.TEN_GAL_BASE, OD.TEN_GAL_SIZE, OD.WIN_BASE, OD.WIN_FLAGS, OD.WIN_LENGTH] at *); omega), h (OD.IMG_ALCOVE_BASE i) (by (try simp only [odKey, OD.CH_STATE, OD.IMG_ALCOVE_BASE, OD.IMG_ALCOVE_SIZE, OD.IMG_CORES, OD.IMG_GALLERY_BASE, OD.IMG_GALLERY_SIZE, OD.IMG_STATE, OD.IMG_TENANTS, OD.LATCHED, OD.PAIR_READY, OD.TEN_GAL_BASE, OD.TEN_GAL_SIZE, OD.WIN_BASE, OD.WIN_FLAGS, OD.WIN_LENGTH] at *); omega), h (OD.IMG_ALCOVE_SIZE i) (by (try simp only [odKey, OD.CH_STATE, OD.IMG_ALCOVE_BASE, OD.IMG_ALCOVE_SIZE, OD.IMG_CORES, OD.IMG_GALLERY_BASE, OD.IMG_GALLERY_SIZE, OD.IMG_STATE, OD.IMG_TENANTS, OD.LATCHED, OD.PAIR_READY, OD.TEN_GAL_BASE, OD.TEN_GAL_SIZE, OD.WIN_BASE, OD.WIN_FLAGS, OD.WIN_LENGTH] at *); omega), h (OD.IMG_CORES i) (by (try simp only [odKey, OD.CH_STATE, OD.IMG_ALCOVE_BASE, OD.IMG_ALCOVE_SIZE, OD.IMG_CORES, OD.IMG_GALLERY_BASE, OD.IMG_GALLERY_SIZE, OD.IMG_STATE, OD.IMG_TENANTS, OD.LATCHED, OD.PAIR_READY, OD.TEN_GAL_BASE, OD.TEN_GAL_SIZE, OD.WIN_BASE, OD.WIN_FLAGS, OD.WIN_LENGTH] at *); omega), hl]
  have anyc : ∀ (f g : Nat → Bool), (∀ i, i < 16 → f i = g i) → (List.range 16).any f = (List.range 16).any g := by
    intro f g hfg
    rw [Bool.eq_iff_iff, List.any_eq_true, List.any_eq_true]
    constructor <;> rintro ⟨x, hx, hy⟩ <;> refine ⟨x, hx, ?_⟩
    · rw [← hfg x (List.mem_range.1 hx)]; exact hy
    · rw [hfg x (List.mem_range.1 hx)]; exact hy
  have hga : ∀ t, t < 16 → z.galleryAllows t a w = s.galleryAllows t a w := by
    intro t ht
    unfold State.galleryAllows
    rw [anyc _ (fun i => s.inGalleryExtent i a && decide (2 ≤ s.rd (OD.IMG_STATE i)) && bit (s.rd (OD.IMG_TENANTS i)) t) (fun i hi => by unfold State.inGalleryExtent; rw [hex i hi, h (OD.IMG_STATE i) (by (try simp only [odKey, OD.CH_STATE, OD.IMG_ALCOVE_BASE, OD.IMG_ALCOVE_SIZE, OD.IMG_CORES, OD.IMG_GALLERY_BASE, OD.IMG_GALLERY_SIZE, OD.IMG_STATE, OD.IMG_TENANTS, OD.LATCHED, OD.PAIR_READY, OD.TEN_GAL_BASE, OD.TEN_GAL_SIZE, OD.WIN_BASE, OD.WIN_FLAGS, OD.WIN_LENGTH] at *); omega), h (OD.IMG_TENANTS i) (by (try simp only [odKey, OD.CH_STATE, OD.IMG_ALCOVE_BASE, OD.IMG_ALCOVE_SIZE, OD.IMG_CORES, OD.IMG_GALLERY_BASE, OD.IMG_GALLERY_SIZE, OD.IMG_STATE, OD.IMG_TENANTS, OD.LATCHED, OD.PAIR_READY, OD.TEN_GAL_BASE, OD.TEN_GAL_SIZE, OD.WIN_BASE, OD.WIN_FLAGS, OD.WIN_LENGTH] at *); omega)]),
      anyc (fun i => z.inGalleryExtent i a) (fun i => s.inGalleryExtent i a) (fun i hi => by unfold State.inGalleryExtent; rw [hex i hi]),
      h (OD.TEN_GAL_BASE t) (by (try simp only [odKey, OD.CH_STATE, OD.IMG_ALCOVE_BASE, OD.IMG_ALCOVE_SIZE, OD.IMG_CORES, OD.IMG_GALLERY_BASE, OD.IMG_GALLERY_SIZE, OD.IMG_STATE, OD.IMG_TENANTS, OD.LATCHED, OD.PAIR_READY, OD.TEN_GAL_BASE, OD.TEN_GAL_SIZE, OD.WIN_BASE, OD.WIN_FLAGS, OD.WIN_LENGTH] at *); omega), h (OD.TEN_GAL_SIZE t) (by (try simp only [odKey, OD.CH_STATE, OD.IMG_ALCOVE_BASE, OD.IMG_ALCOVE_SIZE, OD.IMG_CORES, OD.IMG_GALLERY_BASE, OD.IMG_GALLERY_SIZE, OD.IMG_STATE, OD.IMG_TENANTS, OD.LATCHED, OD.PAIR_READY, OD.TEN_GAL_BASE, OD.TEN_GAL_SIZE, OD.WIN_BASE, OD.WIN_FLAGS, OD.WIN_LENGTH] at *); omega)]
  unfold State.place
  rw [hp 1]
  split
  · rfl
  split
  · rename_i hgal
    have : a / 2 ^ 25 < 8 := by unfold galleryBytes at hgal; omega
    dsimp only
    rw [hp, show z.flag (OD.PAIR_READY (a / 2 ^ 25)) = s.flag (OD.PAIR_READY (a / 2 ^ 25)) from by unfold State.flag; rw [h _ (by (try simp only [odKey, OD.CH_STATE, OD.IMG_ALCOVE_BASE, OD.IMG_ALCOVE_SIZE, OD.IMG_CORES, OD.IMG_GALLERY_BASE, OD.IMG_GALLERY_SIZE, OD.IMG_STATE, OD.IMG_TENANTS, OD.LATCHED, OD.PAIR_READY, OD.TEN_GAL_BASE, OD.TEN_GAL_SIZE, OD.WIN_BASE, OD.WIN_FLAGS, OD.WIN_LENGTH] at *); omega)]]
    cases hc : q.ctx with
    | none => rfl
    | some t => dsimp only; simp only [hga t (hq t hc)]
  split
  · rw [hp]
    have hb : z.extentBars q w a = s.extentBars q w a := by
      unfold State.extentBars
      rw [anyc _ (fun i => s.inAlcoveExtent i a) (fun i hi => by unfold State.inAlcoveExtent; rw [hex i hi])]
    rw [hb]
  split
  · dsimp only; rw [hch, hdh, hp, h (OD.CH_STATE _) (by have := dramChannel_lt s (a - dramBase) (by unfold dramBase dramEnd at *; omega)
                                                        (try simp only [odKey, OD.CH_STATE, OD.IMG_ALCOVE_BASE, OD.IMG_ALCOVE_SIZE, OD.IMG_CORES, OD.IMG_GALLERY_BASE, OD.IMG_GALLERY_SIZE, OD.IMG_STATE, OD.IMG_TENANTS, OD.LATCHED, OD.PAIR_READY, OD.TEN_GAL_BASE, OD.TEN_GAL_SIZE, OD.WIN_BASE, OD.WIN_FLAGS, OD.WIN_LENGTH] at *); omega)]
  split
  · rename_i hw
    rw [hp]
    split
    · unfold State.windowPlace
      dsimp only
      have ht : (a - windowBase) / 0x40000000 / 64 < 16 := by unfold windowBase windowEnd at *; omega
      have hm : (a - windowBase) / 0x40000000 % 64 < 64 := Nat.mod_lt _ (by decide)
      rw [h (OD.WIN_LENGTH _ _) (by (try simp only [odKey, OD.CH_STATE, OD.IMG_ALCOVE_BASE, OD.IMG_ALCOVE_SIZE, OD.IMG_CORES, OD.IMG_GALLERY_BASE, OD.IMG_GALLERY_SIZE, OD.IMG_STATE, OD.IMG_TENANTS, OD.LATCHED, OD.PAIR_READY, OD.TEN_GAL_BASE, OD.TEN_GAL_SIZE, OD.WIN_BASE, OD.WIN_FLAGS, OD.WIN_LENGTH] at *); omega), h (OD.WIN_FLAGS _ _) (by (try simp only [odKey, OD.CH_STATE, OD.IMG_ALCOVE_BASE, OD.IMG_ALCOVE_SIZE, OD.IMG_CORES, OD.IMG_GALLERY_BASE, OD.IMG_GALLERY_SIZE, OD.IMG_STATE, OD.IMG_TENANTS, OD.LATCHED, OD.PAIR_READY, OD.TEN_GAL_BASE, OD.TEN_GAL_SIZE, OD.WIN_BASE, OD.WIN_FLAGS, OD.WIN_LENGTH] at *); omega), h (OD.WIN_BASE _ _) (by (try simp only [odKey, OD.CH_STATE, OD.IMG_ALCOVE_BASE, OD.IMG_ALCOVE_SIZE, OD.IMG_CORES, OD.IMG_GALLERY_BASE, OD.IMG_GALLERY_SIZE, OD.IMG_STATE, OD.IMG_TENANTS, OD.LATCHED, OD.PAIR_READY, OD.TEN_GAL_BASE, OD.TEN_GAL_SIZE, OD.WIN_BASE, OD.WIN_FLAGS, OD.WIN_LENGTH] at *); omega), hlu, hh]
      unfold State.hostCause; rw [hh]
    · rfl
  · rfl

theorem writeFrom_marks (q : Acc) (bs : List Byte) : ∀ (s : State) (a : Nat) (r : MemRes) (x : Nat),
    (State.writeFrom q s a bs r).2.mark x = s.mark x ∨ (State.writeFrom q s a bs r).2.mark x = 0 := by
  induction bs with
  | nil => intro s a r x; exact .inl rfl
  | cons b l ih =>
    intro s a r x
    unfold State.writeFrom
    have hm : ∀ x, ((s.setMark a 0).setMemByte a b).mark x = s.mark x ∨ ((s.setMark a 0).setMemByte a b).mark x = 0 := by
      intro x
      show Sparse.get (fun _ => 0) (Sparse.put (fun _ => 0) s.mem.marks (a / 8) 0) (x / 8) = _ ∨ _ = _
      by_cases h : x / 8 = a / 8
      · right; show Sparse.get (fun _ => 0) (Sparse.put (fun _ => 0) s.mem.marks (a / 8) 0) (x / 8) = 0; rw [h, Sparse.get_put_same]
      · left; rw [Sparse.get_put_ne _ _ h]; rfl
    split
    · exact ih _ _ _ _
    · exact ih _ _ _ _
    · split
      · exact ih _ _ _ _
      · exact ih _ _ _ _
    · rcases ih ((s.setMark a 0).setMemByte a b) (a + 1) r x with e | e
      · rw [e]; exact hm x
      · exact .inr e

theorem writeDone_marks (q : Acc) (s : State) (a : Nat) (bs : List Byte) (x : Nat) :
    (s.writeDone q a bs).2.mark x = s.mark x ∨ (s.writeDone q a bs).2.mark x = 0 := by
  unfold State.writeDone
  split
  · exact .inl rfl
  · have := writeFrom_marks q bs s a {} x
    generalize State.writeFrom q s a bs {} = p at this
    obtain ⟨r, u⟩ := p
    have hm : (u.countWin q r).mem = u.mem := (countWin_keep u q r (Keep.rfl' u) (within_self _)).part .mem
    have hn : ((u.countWin q r).noteIf q r [(a, bs.length)]).mem = (u.countWin q r).mem :=
      (noteIf_keep _ q r _ (Keep.rfl' _) (within_self _)).part .mem
    show ((u.countWin q r).noteIf q r [(a, bs.length)]).mark x = _ ∨ ((u.countWin q r).noteIf q r [(a, bs.length)]).mark x = _
    unfold State.mark at *
    rw [hn, hm]; exact this

theorem memWrite_marks (q : Acc) (s : State) (a : Nat) (bs : List Byte) (x : Nat) :
    (s.memWrite q a bs).2.mark x = s.mark x ∨ (s.memWrite q a bs).2.mark x = 0 := by
  unfold State.memWrite
  have h := (transfer_keep s q a (Keep.rfl' s) (within_self _)).part .mem
  generalize State.transfer s q a = p at *
  obtain ⟨b, u⟩ := p
  have hu : u.mark x = s.mark x := by unfold State.mark; rw [show u.mem = s.mem from h]
  cases b
  · rw [← hu]; exact writeDone_marks q u a bs x
  · exact .inl hu

theorem partialBad_none {s : State} {q : Acc} {a n : Nat} (h : ∀ x, a ≤ x → x < a + n → s.mark x ≠ 2) :
    s.partialBad q (inSpan a n) (rangeFrom a n) = none := by
  unfold State.partialBad
  rw [if_neg]
  simp only [Bool.not_eq_true, List.any_eq_false]
  intro x hx
  obtain ⟨i, hi, rfl⟩ := List.mem_map.1 hx
  have hi := List.mem_range.1 hi
  unfold State.partialAt
  rw [decide_eq_false (h (a + i) (by omega) (by omega))]
  simp

end Sys2Proof.Machine
end

