-- ==== Sys2Proof/Laws/TickLaws.lean ====
section
/-!
SUPPORT. Lemmas about the tick unit and the dictionary.
-/

set_option Elab.async false

namespace Sys2Proof.Machine

set_option linter.all false

theorem countRun_tick (s : State) (b : Boundary) : ∃ r o, (s.countRun b).tick = { s.tick with runOpen := r, runOwed := o } := by
  unfold State.countRun
  have rr : ∀ (u : State) o n, (u.runRecord o n).tick = u.tick := fun u o n =>
    (runRecord_keep u o n (Keep.rfl' u)).part .tick
  split
  · dsimp only
    split
    · exact ⟨_, _, rfl⟩
    · rw [rr]; exact ⟨_, _, rfl⟩
  · split
    · dsimp only
      split
      · rw [rr]; exact ⟨_, _, rfl⟩
      · exact ⟨_, _, rfl⟩
    · exact ⟨_, _, rfl⟩

theorem boundaryHead_tick (s : State) (b : Boundary) (p : BoundaryPlan) :
    ∃ r o, (s.boundaryHead b p).tick = { (s.boundaryStamp b p).tick with runOpen := r, runOwed := o } := by
  obtain ⟨r, o, hr⟩ := countRun_tick (s.boundaryStamp b p) b
  refine ⟨r, o, hr ▸ ?_⟩
  unfold State.boundaryHead
  generalize (s.boundaryStamp b p).countRun b = u
  extract_lets fl u' v w x
  have hts := within_self [Field.od, .host, .trc, .gq]
  have h1 : Keep [.od, .host, .trc, .gq] u v := Keep.ite (bump_keep _ _ (Keep.rfl' u)) (Keep.rfl' u)
  have h2 : Keep [.od, .host, .trc, .gq] u w := boundaryTelegram_keep _ _ _ h1
  have h3 : Keep [.od, .host, .trc, .gq] u x := Keep.ite (signal_keep _ _ _ h2) h2
  have h4 := traceBoundary_keep x p.epoch.toNat fl h3
  exact h4.part .tick

theorem boundary_tick (s : State) (b : Boundary) (hc : (s.planBoundary b).commit = false) :
    ∃ r o, (s.boundary b).tick = { (s.boundaryStamp b (s.planBoundary b)).tick with
      runOpen := r, runOwed := o, st := (s.planBoundary b).next, startPending := false, swept := false } := by
  obtain ⟨r, o, hr⟩ := boundaryHead_tick s b (s.planBoundary b)
  refine ⟨r, o, ?_⟩
  unfold State.boundary
  generalize s.planBoundary b = p at *
  dsimp only
  generalize s.boundaryHead b p = u at *
  have h1 : ((u.boundaryClose b p)).tick = u.tick := by
    unfold State.boundaryClose
    simp only [hc, Bool.false_eq_true, if_false]
    have h := lateAbort_keep u (Keep.rfl' u)
    split
    · exact h.part .tick
    · exact (publishPoint_keep _ b.synthetic h).part .tick
  generalize u.boundaryClose b p = v at *
  unfold State.boundaryOpen
  extract_lets a w x y z
  have hw : w.tick = { v.tick with st := p.next, startPending := false, swept := false } := rfl
  have hts := within_self [Field.od, .odb, .host, .hostMem, .land, .flit, .falt, .trc, .cores, .newels, .mem, .bal, .ldr, .clok, .ledg, .vest, .vid, .arr, .pow]
  have hx := Keep.ite (c := p.stop = true) (Keep.rfl' (fs := [Field.od, .odb, .host, .hostMem, .land, .flit, .falt, .trc, .cores, .newels, .mem, .bal, .ldr, .clok, .ledg, .vest, .vid, .arr, .pow]) w) (bundleLatch_keep w w.tick.epoch.toNat (Keep.rfl' w))
  have hy := Keep.foldN 8 (fun s ch => s.trim ch) x.pairsAll (fun t a h => trim_keep t a h) (pairsAll_keep x hx)
  have hz := paceSwitch_keep y hy
  have ht := Keep.ite (c := p.stop = true) (startBackground_keep 1024 z hz) (admission_keep z hz)
  rw [ht.part .tick, hw, h1, hr]

theorem boundary_clk (s : State) (b : Boundary) : (s.boundary b).clk = s.clk ∧ (s.boundary b).pending = s.pending := by
  have h := boundary_keep s b (Keep.rfl' s)
  exact ⟨h.part .clk, h.pending⟩

theorem boundary_made (s : State) (b : Boundary) (hc : (s.planBoundary b).commit = false) :
    BoundaryMade s (s.boundary b) (s.planBoundary b).epoch (s.planBoundary b).next b.synthetic := by
  obtain ⟨r, o, hr⟩ := boundary_tick s b hc
  obtain ⟨hk, hp⟩ := boundary_clk s b
  unfold BoundaryMade
  rw [hr, hk, hp]
  unfold State.boundaryStamp
  cases b.start <;> exact ⟨rfl, rfl, rfl, rfl, rfl, rfl, rfl, rfl, rfl, rfl, rfl, rfl⟩

theorem made_answer {s t : State} {e st sy} (h : BoundaryMade s t e st sy) (p irq r) : BoundaryMade s (t.withAnswer p irq r) e st sy := by
  unfold BoundaryMade at *; simpa using h

theorem odKey_parts (i j : Nat) (h : j < 256) : odKey i j / 256 = i ∧ odKey i j % 256 = j := by
  have e : odKey i j = i * 256 + j := rfl
  omega

theorem dwSet_keepD (s : State) (p : Path) (a b c : Nat) (l : List Byte) : Keep [.dict] s (s.dwSet p a b c l) := by
  exact dwSet_keep s p a b c l (Keep.rfl' s)

theorem keep_but {fs : List Field} {s t : State} (h : Keep fs s t) (hf : Field.od ∉ fs := by decide) : s.SameBut t [] := ⟨fun k _ => h.rd hf k⟩

theorem dwSet_xfer (s : State) (p q : Path) (a b c : Nat) (l : List Byte) : (s.dwSet p a b c l).xfer q = s.xfer q := by
  unfold State.dwSet; split <;> rfl

theorem withAnswer_x (s : State) (p q : Path) (irq : Bool) (r : Resp) : (s.withAnswer p irq r).xfer q = s.xfer q := by
  unfold State.xfer; rw [withAnswer_xfer]

theorem setXfer_x (s : State) (p : Path) (x : Option Xfer) : (s.setXfer p x).xfer p = x := Sparse.get_put_same ..

theorem setXfer_ne (s : State) (p q : Path) (x : Option Xfer) (h : pathId q ≠ pathId p) : (s.setXfer p x).xfer q = s.xfer q := Sparse.get_put_ne _ _ h _

theorem withAnswer_keepD {s t : State} (h : Keep [.dict] s t) (p : Path) (irq : Bool) (r : Resp) : Keep [.dict] s (t.withAnswer p irq r) := by
  unfold State.withAnswer; dsimp only
  exact Keep.ite (setWin_keep _ _ _ (setResp_keep _ _ _ h (within_self _)) (within_self _)) (setResp_keep _ _ _ h (within_self _))

theorem setResp_last (s : State) (p : Path) (r : Resp) : (s.setResp p r).lastResp p = r := Sparse.get_put_same ..

theorem odKey_div (i j : Nat) (h : j < 256) : odKey i j / 256 = i ∧ odKey i j % 256 = j := by
  have e : odKey i j = i * 256 + j := rfl
  omega

theorem keyedPut_find {α} (l : List (Nat × α)) (k : Nat) (v : α) : (keyedPut l k v).find? (fun e => e.1 = k) = some (k, v) := by
  induction l with
  | nil => simp [keyedPut]
  | cons e r ih =>
    obtain ⟨k', v'⟩ := e
    unfold keyedPut
    repeat' split
    · simp
    · simp
    · next h => rw [List.find?_cons_of_neg]; exact ih; simpa using fun e => h e.symm

theorem signal_ldr (s : State) (a b) : (s.signal a b).ldr = s.ldr := (signal_keep s a b (Keep.rfl' s)).part .ldr

theorem sbx (s t : State) (h : t.od = s.od) : s.SameBut t [] := ⟨fun k _ => rd_of_od h k⟩

theorem mf (u : State) (w : Nat) : (u.mailFailed w).rd OD.GQM_STATE = 3 := by
  show ((u.wr OD.GQM_STATE 3).wr OD.GQM_FAIL w).rd _ = _
  rw [rd_wr_ne _ (by decide), rd_wr_same]

theorem early (s : State) (e : Option Nat) (h : s.tick.st = .locked ∨ s.tick.st = .flywheel) (h2 : s.clk.now - s.tick.last < s.lowerBound) :
    s.arrival e = s.bump OD.EARLY_ARRIVALS := by
  unfold State.arrival
  rcases h with h | h <;> rw [h] <;> dsimp only <;> rw [if_pos h2]

theorem fitInsert_pending (u : State) (l : List Instr) (q : Nat) (xs : List Nat) :
    fitInsert { u with pending := l } q xs = fitInsert u q xs := by
  induction xs with
  | nil => rfl
  | cons x xs ih => unfold fitInsert; rw [ih]; rfl

theorem fitPool_pending (u : State) (l : List Instr) (r) : State.fitPool { u with pending := l } r = u.fitPool r := by
  unfold State.fitPool
  have h : State.fitOrder { u with pending := l } r.sealFlag = u.fitOrder r.sealFlag := by
    unfold State.fitOrder; simp only [fitInsert_pending]; rfl
  rw [h]; rfl
theorem dueClk_pending (u : State) (l : List Instr) : State.dueClk { u with pending := l } = u.dueClk := by
  unfold State.dueClk
  simp only [fitPool_pending]
theorem dueRows_pending (u : State) (l : List Instr) : State.dueRows { u with pending := l } = u.dueRows := by
  unfold State.dueRows
  rw [dueClk_pending]; rfl

theorem tickOutEdge_arm (s : State) : s.tickOutEdge.tick.armed = s.tick.armed ∧ s.tickOutEdge.tick.armFresh = s.tick.armFresh := by
  unfold State.tickOutEdge
  dsimp only
  repeat' split
  all_goals exact ⟨rfl, rfl⟩

theorem sampleTickIn_arm (s : State) : s.sampleTickIn.tick.armed = s.tick.armed ∧ s.sampleTickIn.tick.armFresh = s.tick.armFresh :=
  ⟨rfl, rfl⟩

/-- An access that joins an order of service is one more in it. -/
theorem insertByRank_perm (a : Path × Instr) (l : List (Path × Instr)) : (insertByRank a l).Perm (a :: l) := by
  induction l with
  | nil => exact List.Perm.refl _
  | cons b r ih =>
    unfold insertByRank
    split
    · exact List.Perm.refl _
    · exact (ih.cons b).trans (List.Perm.swap a b r)

/-- An access joins an order of service behind those that R131 serves before it. -/
theorem insertByRank_sorted (a : Path × Instr) (l : List (Path × Instr))
    (h : l.Pairwise (fun a b => pathRank a.1 ≤ pathRank b.1)) :
    (insertByRank a l).Pairwise (fun a b => pathRank a.1 ≤ pathRank b.1) := by
  induction l with
  | nil => exact List.pairwise_singleton _ _
  | cons b r ih =>
    rw [List.pairwise_cons] at h
    unfold insertByRank
    split
    · rename_i g
      exact List.pairwise_cons.2 ⟨fun c hc => (List.mem_cons.1 hc).elim (fun e => e ▸ g.le)
        (fun hc => g.le.trans (h.1 c hc)), List.pairwise_cons.2 h⟩
    · rename_i g
      refine List.pairwise_cons.2 ⟨fun c hc => ?_, ih h.2⟩
      rcases List.mem_cons.1 ((insertByRank_perm a r).mem_iff.1 hc) with e | e
      · exact e ▸ Nat.le_of_not_lt g
      · exact h.1 c e

/-- What runs with an edge leaves the arming alone. -/
theorem edgeWork_arm (s : State) : s.edgeWork.tick.armed = s.tick.armed ∧ s.edgeWork.tick.armFresh = s.tick.armFresh := by
  unfold State.edgeWork
  have h0 : s.countServed.upsetEdge.tick = s.tick :=
    (upsetEdge_keep (fs := [.od, .cores, .arr, .mem, .bal]) _ (countServed_keep s (Keep.rfl' s) (within_of (by decide))) (within_of (by decide))).part .tick
  have a := tickOutEdge_arm s.countServed.upsetEdge
  rw [h0] at a
  generalize s.countServed.upsetEdge.tickOutEdge = u at a ⊢
  have e0 := sampleTickIn_arm u
  generalize u.sampleTickIn = w at e0 ⊢
  have e1 : w.rtFull.panicTime.bankWaits.tick = w.tick :=
    (bankWaits_keep (fs := [.od]) _ (panicTime_keep _ (rtFull_keep _ (Keep.rfl' _) (within_self _)) (within_self _)) (within_self _)).part .tick
  generalize w.rtFull.panicTime.bankWaits = v at e1 ⊢
  have e2 : v.holdTick.tick = v.tick := (holdTick_keep (fs := [.land]) v (Keep.rfl' v) (within_self _)).part .tick
  dsimp only
  split
  · exact ⟨rfl, rfl⟩
  · split
    · rw [e2, e1, e0.1, e0.2]; exact a
    · rw [e1, e0.1, e0.2]; exact a

/-- One edge: the accesses of the old one settle, the clocks advance, the edge's own work is done, and what is due waits. -/
theorem nextEdge_facts (s : State) : ∃ u, s.nextEdge = { u with pending := u.pending ++ u.dueRows } ∧
    Keep [.od, .tick, .land, .cores, .arr, .mem, .bal]
      { s.settle with clk := s.settle.clk.tick s.settle.pow.vaon s.settle.pow.sysref } u ∧
    u.tick.armed = s.settle.tick.armed ∧ u.tick.armFresh = none := by
  unfold State.nextEdge
  have hf : s.settle.tick.armFresh = none := rfl
  generalize s.settle = v at hf
  refine ⟨if v.pow.vaon && v.pow.sysref then State.edgeWork { v with clk := v.clk.tick v.pow.vaon v.pow.sysref }
    else { v with clk := v.clk.tick v.pow.vaon v.pow.sysref }, rfl, ?_⟩
  have ht : State.tick { v with clk := v.clk.tick v.pow.vaon v.pow.sysref } = v.tick := rfl
  generalize ({ v with clk := v.clk.tick v.pow.vaon v.pow.sysref } : State) = w at ht
  split
  · obtain ⟨a, b⟩ := edgeWork_arm w
    exact ⟨edgeWork_keep w (Keep.rfl' w), by rw [a, ht], by rw [b, ht, hf]⟩
  · exact ⟨Keep.rfl' w, by rw [ht], by rw [ht, hf]⟩

theorem nextEdge_canonical (s : State) (c : s.Canonical) (b : s.Bounded) : s.nextEdge.Canonical ∧ s.nextEdge.Bounded := by
  obtain ⟨u, e, k, -⟩ := nextEdge_facts s
  have k0 := settle_keep s (Keep.rfl' s) (within_self _)
  have c0 := k0.canonical c
  have b0 := k0.bounded b
  have c2 := k.canonical ⟨c0.od, c0.odb, c0.cells, c0.marks, c0.host⟩
  have b2 := k.bounded ⟨b0.log, b0.lost⟩
  rw [e]
  exact ⟨⟨c2.od, c2.odb, c2.cells, c2.marks, c2.host⟩, ⟨b2.log, b2.lost⟩⟩

theorem idle_canonical (s : State) (c : s.Canonical) (b : s.Bounded) : s.idle.Canonical ∧ s.idle.Bounded := by
  unfold State.idle
  split
  · exact nextEdge_canonical s c b
  · exact ⟨⟨c.od, c.odb, c.cells, c.marks, c.host⟩, ⟨b.log, b.lost⟩⟩

end Sys2Proof.Machine
end

