-- ==== Sys2Proof/Laws/StreamLaws.lean ====
section
/-!
SUPPORT. Lemmas about the loader, the bundle unit, the cloakroom, the ports, the vestibule, the video engines and the colonnade.
-/

set_option Elab.async false

namespace Sys2Proof.Machine

set_option linter.all false

theorem imgAbsent_od (s : State) (i : Nat) : (s.imgAbsent i).od = Sparse.clear (fun k => decide (0x421000 + 256 * i ≤ k ∧ k < 0x421000 + 256 * i + 256) && decide (k ≠ OD.IMG_TENANTS i)) s.od := rfl

theorem imgAbsent_rd (s : State) (i k : Nat) (h : k < 0x421000 ∨ 0x421000 + 256 * i + 256 ≤ k) : (s.imgAbsent i).rd k = s.rd k := by
  unfold State.rd
  rw [imgAbsent_od, Sparse.get_clear, if_neg]
  simp only [Bool.and_eq_true, decide_eq_true_eq]; omega

theorem imgAbsent_state (s : State) (i : Nat) (h : i < 16) : (s.imgAbsent i).rd (OD.IMG_STATE i) = 0 := by
  unfold State.rd
  rw [imgAbsent_od, Sparse.get_clear, if_pos]
  · have : ∀ i : Fin 16, odDefault (OD.IMG_STATE i) = 0 := by decide
    exact this ⟨i, h⟩
  · simp only [Bool.and_eq_true, decide_eq_true_eq]; (try simp only [odKey, OD.IMG_STATE, OD.IMG_TENANTS] at *); omega

theorem wrBytes_rd (s : State) (k b j) : (s.wrBytes k b).rd j = s.rd j := rfl

theorem plan_nat (m cap c : Nat) (hcap : 1 ≤ cap) (hm : 1 ≤ m) (hc : c = (m + cap - 1) / cap) :
    m / c * c + (m - m / c * c) = m ∧ m - m / c * c < c ∧ m / c ≤ cap ∧ (m - m / c * c ≠ 0 → m / c + 1 ≤ cap) ∧ (2 ≤ c → cap / 2 ≤ m / c) := by
  have h1 : cap * c ≤ m + cap - 1 := by rw [hc]; exact Nat.mul_div_le _ _
  have h2 : m + cap - 1 < cap * c + cap := by
    have := Nat.lt_mul_div_succ (m + cap - 1) (show 0 < cap by omega); rw [← hc] at this; rw [Nat.mul_add, Nat.mul_one] at this; exact this
  have h0 : 1 ≤ c := by rcases Nat.eq_zero_or_pos c with h | h; · rw [h] at h2; omega
                        · exact h
  have h3 := Nat.div_add_mod m c
  have h4 := Nat.mod_lt m (show 0 < c by omega)
  rw [Nat.mul_comm] at h3
  have h5 : m ≤ cap * c := by omega
  have h6 : m / c ≤ cap := by rw [Nat.div_le_iff_le_mul_add_pred (by omega)]; rw [Nat.mul_comm] at h5; omega
  refine ⟨by omega, by omega, h6, ?_, ?_⟩
  · intro h0'
    have : m / c < cap := by
      rw [Nat.div_lt_iff_lt_mul (by omega)]
      rcases Nat.lt_or_eq_of_le h5 with h | h
      · exact h
      · exfalso; have : m / c = cap := by rw [h]; exact Nat.mul_div_cancel _ (by omega)
        apply h0'; rw [this, ← h]; omega
    omega
  · intro h
    rw [Nat.le_div_iff_mul_le (by omega)]
    have a : 2 * (cap / 2) ≤ cap := by omega
    have b : cap * 2 ≤ cap * c := Nat.mul_le_mul_left _ h
    have d : 2 * (cap / 2) * c ≤ cap * c := Nat.mul_le_mul_right _ a
    rw [Nat.mul_assoc] at d
    omega

theorem setLoad_rd (s : State) (r) (k) : (s.setLoad r).rd k = s.rd k := rfl

theorem copyNext_ledg (s : State) : ∃ g, s.copyNext = { s with ledg := g } := by
  unfold State.copyNext
  extract_lets p
  split
  · exact ⟨s.ledg, rfl⟩
  split
  · exact ⟨_, rfl⟩
  split
  · exact ⟨_, rfl⟩
  · exact ⟨s.ledg, rfl⟩

theorem layerEntry_length (st fl : Nat) (f : Option LastFresh) : (layerEntry st fl f).length = 32 := by
  cases f <;> simp [layerEntry, leBytes, zeros]

theorem header_length (e : BundleEpoch) (n now : Nat) : (e.header n now).length = 64 := by
  simp [BundleEpoch.header, leBytes, zeros]

theorem set_layer (e : BundleEpoch) (l m : Nat) (x : LayerRun) : (e.set l x).layer m = if m = l then x else e.layer m := Sparse.get_put ..

theorem set_layersOf (e : BundleEpoch) (l n : Nat) (x : LayerRun) (h : x.cfg = (e.layer l).cfg) : (e.set l x).layersOf n = e.layersOf n := by
  unfold BundleEpoch.layersOf
  congr 1
  funext m
  rw [set_layer]
  split
  · rename_i h2; rw [h2, h]
  · rfl

theorem bundleHeader_wait (s : State) (n : Nat) (e : BundleEpoch) (l : Nat) (h1 : s.ledg.pub = some e) (h2 : l ∈ e.layersOf n) (h3 : (e.layer l).fixed = none) :
    s.bundleHeader n = s := by
  unfold State.bundleHeader
  rw [h1]; dsimp only
  rw [if_pos]
  rw [Bool.or_eq_true]; right
  rw [List.any_eq_true]
  exact ⟨l, h2, by simp [h3]⟩

theorem place_same {s z : State} (h : ∀ k, k / 65536 ≠ 0x7C → z.rd k = s.rd k) (hl : z.ldr = s.ldr) (hh : z.host = s.host) (q : Acc) (hq : ∀ t, q.ctx = some t → t < 16) (w : Bool) (a : Nat) :
    z.place q w a = s.place q w a := by
  have hp : ∀ d, z.powered d = s.powered d := fun d => powered_of (h _ (by decide)) d
  have hlat : z.rd OD.LATCHED = s.rd OD.LATCHED := h _ (by decide)
  have hg : z.latGrain = s.latGrain := by unfold State.latGrain; rw [hlat]
  have hs : z.latSplit = s.latSplit := by unfold State.latSplit; rw [hlat]
  have hhh : z.latHash = s.latHash := by unfold State.latHash; rw [hlat]
  have he : z.latEcc = s.latEcc := by unfold State.latEcc; rw [hlat]
  have hch : ∀ a, z.dramChannel a = s.dramChannel a := fun a => by unfold State.dramChannel; rw [hg, hs, hhh]
  have hdh : ∀ a, z.dramHole a = s.dramHole a := fun a => by unfold State.dramHole; rw [he, hs]
  have hlu : z.linkUp = s.linkUp := by unfold State.linkUp; rw [h _ (by decide)]
  have hex : ∀ i, i < 16 → z.extents i = s.extents i := by
    intro i hi
    unfold State.extents
    rw [h (OD.IMG_STATE i) (by (try simp only [odKey, OD.CH_STATE, OD.IMG_ALCOVE_BASE, OD.IMG_ALCOVE_SIZE, OD.IMG_CORES, OD.IMG_GALLERY_BASE, OD.IMG_GALLERY_SIZE, OD.IMG_STATE, OD.IMG_TENANTS, OD.LATCHED, OD.PAIR_READY, OD.TEN_GAL_BASE, OD.TEN_GAL_SIZE, OD.WIN_BASE, OD.WIN_FLAGS, OD.WIN_LENGTH] at *); omega), h (OD.IMG_GALLERY_BASE i) (by (try simp only [odKey, OD.CH_STATE, OD.IMG_ALCOVE_BASE, OD.IMG_ALCOVE_SIZE, OD.IMG_CORES, OD.IMG_GALLERY_BASE, OD.IMG_GALLERY_SIZE, OD.IMG_STATE, OD.IMG_TENANTS, OD.LATCHED, OD.PAIR_READY, OD.TEN_GAL_BASE, OD.TEN_GAL_SIZE, OD.WIN_BASE, OD.WIN_FLAGS, OD.WIN_LENGTH] at *); omega), h (OD.IMG_GALLERY_SIZE i) (by (try simp only [odKey, OD.CH_STATE, OD.IMG_ALCOVE_BASE, OD.IMG_ALCOVE_SIZE, OD.IMG_CORES, OD.IMG_GALLERY_BASE, OD.IMG_GALLERY_SIZE, OD.IMG_STATE, OD.IMG_TENANTS, OD.LATCHED, OD.PAIR_READY, OD.TEN_GAL_BASE, OD.TEN_GAL_SIZE, OD.WIN_BASE, OD.WIN_FLAGS, OD.WIN_LENGTH] at *); omega), h (OD.IMG_ALCOVE_BASE i) (by (try simp only [odKey, OD.CH_STATE, OD.IMG_ALCOVE_BASE, OD.IMG_ALCOVE_SIZE, OD.IMG_CORES, OD.IMG_GALLERY_BASE, OD.IMG_GALLERY_SIZE, OD.IMG_STATE, OD.IMG_TENANTS, OD.LATCHED, OD.PAIR_READY, OD.TEN_GAL_BASE, OD.TEN_GAL_SIZE, OD.WIN_BASE, OD.WIN_FLAGS, OD.WIN_LENGTH] at *); omega), h (OD.IMG_ALCOVE_SIZE i) (by (try simp only [odKey, OD.CH_STATE, OD.IMG_ALCOVE_BASE, OD.IMG_ALCOVE_SIZE, OD.IMG_CORES, OD.IMG_GALLERY_BASE, OD.IMG_GALLERY_SIZE, OD.IMG_STATE, OD.IMG_TENANTS, OD.LATCHED, OD.PAIR_READY, OD.TEN_GAL_BASE, OD.TEN_GAL_SIZE, OD.WIN_BASE, OD.WIN_FLAGS, OD.WIN_LENGTH] at *); omega), h (OD.IMG_CORES i) (by (try simp only [odKey, OD.CH_STATE, OD.IMG_ALCOVE_BASE, OD.IMG_ALCOVE_SIZE, OD.IMG_CORES, OD.IMG_GALLERY_BASE, OD.IMG_GALLERY_SIZE, OD.IMG_STATE, OD.IMG_TENANTS, OD.LATCHED, OD.PAIR_READY, OD.TEN_GAL_BASE, OD.TEN_GAL_SIZE, OD.WIN_BASE, OD.WIN_FLAGS, OD.WIN_LENGTH] at *); omega), hl]
  have anyc : ∀ (f g : Nat → Bool), (∀ i, i < 16 → f i = g i) → (List.range 16).any f = (List.range 16).any g := by
    intro f g hfg
    rw [Bool.eq_iff_iff, List.any_eq_true, List.any_eq_true]
    constructor <;> rintro ⟨x, hx, hy⟩ <;> refine ⟨x, hx, ?_⟩
    · rw [← hfg x (List.mem_range.1 hx)]; exact hy
    · rw [hfg x (List.mem_range.1 hx)]; exact hy
  have hga : ∀ t, t < 16 → z.galleryAllows t a w = s.galleryAllows t a w := by
    intro t ht
    unfold State.galleryAllows
    rw [anyc _ (fun i => s.inGalleryExtent i a && decide (2 ≤ s.rd (OD.IMG_STATE i)) && bit (s.rd (OD.IMG_TENANTS i)) t) (fun i hi => by unfold State.inGalleryExtent; rw [hex i hi, h (OD.IMG_STATE i) (by (try simp only [odKey, OD.CH_STATE, OD.IMG_ALCOVE_BASE, OD.IMG_ALCOVE_SIZE, OD.IMG_CORES, OD.IMG_GALLERY_BASE, OD.IMG_GALLERY_SIZE, OD.IMG_STATE, OD.IMG_TENANTS, OD.LATCHED, OD.PAIR_READY, OD.TEN_GAL_BASE, OD.TEN_GAL_SIZE, OD.WIN_BASE, OD.WIN_FLAGS, OD.WIN_LENGTH] at *); omega), h (OD.IMG_TENANTS i) (by (try simp only [odKey, OD.CH_STATE, OD.IMG_ALCOVE_BASE, OD.IMG_ALCOVE_SIZE, OD.IMG_CORES, OD.IMG_GALLERY_BASE, OD.IMG_GALLERY_SIZE, OD.IMG_STATE, OD.IMG_TENANTS, OD.LATCHED, OD.PAIR_READY, OD.TEN_GAL_BASE, OD.TEN_GAL_SIZE, OD.WIN_BASE, OD.WIN_FLAGS, OD.WIN_LENGTH] at *); omega)]),
      anyc (fun i => z.inGalleryExtent i a) (fun i => s.inGalleryExtent i a) (fun i hi => by unfold State.inGalleryExtent; rw [hex i hi]),
      h (OD.TEN_GAL_BASE t) (by (try simp only [odKey, OD.CH_STATE, OD.IMG_ALCOVE_BASE, OD.IMG_ALCOVE_SIZE, OD.IMG_CORES, OD.IMG_GALLERY_BASE, OD.IMG_GALLERY_SIZE, OD.IMG_STATE, OD.IMG_TENANTS, OD.LATCHED, OD.PAIR_READY, OD.TEN_GAL_BASE, OD.TEN_GAL_SIZE, OD.WIN_BASE, OD.WIN_FLAGS, OD.WIN_LENGTH] at *); omega), h (OD.TEN_GAL_SIZE t) (by (try simp only [odKey, OD.CH_STATE, OD.IMG_ALCOVE_BASE, OD.IMG_ALCOVE_SIZE, OD.IMG_CORES, OD.IMG_GALLERY_BASE, OD.IMG_GALLERY_SIZE, OD.IMG_STATE, OD.IMG_TENANTS, OD.LATCHED, OD.PAIR_READY, OD.TEN_GAL_BASE, OD.TEN_GAL_SIZE, OD.WIN_BASE, OD.WIN_FLAGS, OD.WIN_LENGTH] at *); omega)]
  unfold State.place
  rw [hp 1]
  split
  · rfl
  split
  · rename_i hgal
    have : a / 2 ^ 25 < 8 := by unfold galleryBytes at hgal; omega
    dsimp only
    rw [hp, show z.flag (OD.PAIR_READY (a / 2 ^ 25)) = s.flag (OD.PAIR_READY (a / 2 ^ 25)) from by unfold State.flag; rw [h _ (by (try simp only [odKey, OD.CH_STATE, OD.IMG_ALCOVE_BASE, OD.IMG_ALCOVE_SIZE, OD.IMG_CORES, OD.IMG_GALLERY_BASE, OD.IMG_GALLERY_SIZE, OD.IMG_STATE, OD.IMG_TENANTS, OD.LATCHED, OD.PAIR_READY, OD.TEN_GAL_BASE, OD.TEN_GAL_SIZE, OD.WIN_BASE, OD.WIN_FLAGS, OD.WIN_LENGTH] at *); omega)]]
    cases hc : q.ctx with
    | none => rfl
    | some t => dsimp only; simp only [hga t (hq t hc)]
  split
  · have hb : z.extentBars q w a = s.extentBars q w a := by
      unfold State.extentBars
      rw [anyc _ (fun i => s.inAlcoveExtent i a) (fun i hi => by unfold State.inAlcoveExtent; rw [hex i hi])]
    rw [hp, hb]
  split
  · dsimp only; rw [hch, hdh, hp, h (OD.CH_STATE _) (by have := dramChannel_lt s (a - dramBase) (by unfold dramBase dramEnd at *; omega)
                                                        (try simp only [odKey, OD.CH_STATE, OD.IMG_ALCOVE_BASE, OD.IMG_ALCOVE_SIZE, OD.IMG_CORES, OD.IMG_GALLERY_BASE, OD.IMG_GALLERY_SIZE, OD.IMG_STATE, OD.IMG_TENANTS, OD.LATCHED, OD.PAIR_READY, OD.TEN_GAL_BASE, OD.TEN_GAL_SIZE, OD.WIN_BASE, OD.WIN_FLAGS, OD.WIN_LENGTH] at *); omega)]
  split
  · rename_i hw
    rw [hp]
    split
    · unfold State.windowPlace
      dsimp only
      have ht : (a - windowBase) / 0x40000000 / 64 < 16 := by unfold windowBase windowEnd at *; omega
      have hm : (a - windowBase) / 0x40000000 % 64 < 64 := Nat.mod_lt _ (by decide)
      rw [h (OD.WIN_LENGTH _ _) (by (try simp only [odKey, OD.CH_STATE, OD.IMG_ALCOVE_BASE, OD.IMG_ALCOVE_SIZE, OD.IMG_CORES, OD.IMG_GALLERY_BASE, OD.IMG_GALLERY_SIZE, OD.IMG_STATE, OD.IMG_TENANTS, OD.LATCHED, OD.PAIR_READY, OD.TEN_GAL_BASE, OD.TEN_GAL_SIZE, OD.WIN_BASE, OD.WIN_FLAGS, OD.WIN_LENGTH] at *); omega), h (OD.WIN_FLAGS _ _) (by (try simp only [odKey, OD.CH_STATE, OD.IMG_ALCOVE_BASE, OD.IMG_ALCOVE_SIZE, OD.IMG_CORES, OD.IMG_GALLERY_BASE, OD.IMG_GALLERY_SIZE, OD.IMG_STATE, OD.IMG_TENANTS, OD.LATCHED, OD.PAIR_READY, OD.TEN_GAL_BASE, OD.TEN_GAL_SIZE, OD.WIN_BASE, OD.WIN_FLAGS, OD.WIN_LENGTH] at *); omega), h (OD.WIN_BASE _ _) (by (try simp only [odKey, OD.CH_STATE, OD.IMG_ALCOVE_BASE, OD.IMG_ALCOVE_SIZE, OD.IMG_CORES, OD.IMG_GALLERY_BASE, OD.IMG_GALLERY_SIZE, OD.IMG_STATE, OD.IMG_TENANTS, OD.LATCHED, OD.PAIR_READY, OD.TEN_GAL_BASE, OD.TEN_GAL_SIZE, OD.WIN_BASE, OD.WIN_FLAGS, OD.WIN_LENGTH] at *); omega), hlu, hh]
      unfold State.hostCause; rw [hh]
    · rfl
  · rfl

theorem pool_setPool (s : State) (q p : Nat) (x : Pool) : (s.setPool q x).pool p = if p = q then x else s.pool p := Sparse.get_put ..

theorem pool_of {s t : State} (h : t.clok = s.clok) (q : Nat) : t.pool q = s.pool q := by unfold State.pool; rw [h]

theorem clokWrite_clok (s : State) (q a : Nat) (bs : List Byte) : (s.clokWrite q a bs).clok = s.clok :=
  (clokWrite_keep s q a bs (Keep.rfl' s)).part .clok

theorem ringWrite_pools (q : Nat) : ∀ (ts : List Nat) (s : State), (s.pool q).count + ts.length ≤ (s.pool q).ringEntries →
    (State.ringWrite q ts s).pool q = { s.pool q with count := (s.pool q).count + ts.length } ∧
    (∀ p, p ≠ q → (State.ringWrite q ts s).pool p = s.pool p) := by
  intro ts
  induction ts with
  | nil => intro s _; exact ⟨rfl, fun _ _ => rfl⟩
  | cons t ts ih =>
    intro s h
    simp only [List.length_cons] at h
    unfold State.ringWrite
    dsimp only
    rw [if_neg (by omega)]
    obtain ⟨h1, h2⟩ := ih ((s.clokWrite q ((s.pool q).ringBase + 4 * (((s.pool q).head + (s.pool q).count) % (s.pool q).ringEntries)) (leBytes 4 t)).setPool q { s.pool q with count := (s.pool q).count + 1 }) (by rw [pool_setPool, if_pos rfl]; dsimp only; omega)
    rw [pool_setPool, if_pos rfl] at h1
    refine ⟨h1.trans (by simp only [List.length_cons]; congr 1; omega), fun p hp => (h2 p hp).trans ?_⟩
    rw [pool_setPool, if_neg hp]
    exact pool_of (clokWrite_clok ..) p

theorem poolChanged_clok (s : State) (q b : Nat) : (s.poolChanged q b).clok = s.clok := (poolChanged_keep s q b (Keep.rfl' s)).part .clok

theorem poolChanged_mem (s : State) (q b : Nat) : (s.poolChanged q b).mem = s.mem := (poolChanged_keep s q b (Keep.rfl' s)).part .mem

theorem poolEvent_clok (s : State) (b : Nat) : (s.poolEvent b).clok = s.clok := (poolEvent_keep s b (Keep.rfl' s)).part .clok

theorem poolEvent_mem (s : State) (b : Nat) : (s.poolEvent b).mem = s.mem := (poolEvent_keep s b (Keep.rfl' s)).part .mem

theorem poolEvent_rd (s : State) (b k : Nat) (h : k ≠ OD.POOL_EVENTS) : (s.poolEvent b).rd k = s.rd k := by
  unfold State.poolEvent; dsimp only; simp (disch := (first | assumption | decide)) only [rd_ite, rd_wr_same, rd_wr_ne, rd_bump_same, rd_bump_ne, rd_bump64_same, rd_bump64_ne, setOdBit_same, setOdBit_ne, signal_rd, powerNote_rd', record_rd, record_count, ite_self, setMem_rd, setMark_rd, setPow_rd, setDmem_rd, rd_with_pending, rd_with_clk, rd_with_odb, rd_with_tick, rd_with_host, rd_with_flit, rd_with_falt, rd_with_trc, rd_with_cores, rd_with_ldr, rd_with_clok, rd_with_vest, rd_with_vid, rd_with_pow, rd_with_boot, rd_with_gq, rd_with_dbg, rd_with_pins]

theorem poolEvent_bit (s : State) (b : Nat) : bit ((s.poolEvent b).rd OD.POOL_EVENTS) b = true := by
  unfold State.poolEvent; dsimp only; simp (disch := (first | assumption | decide)) only [rd_ite, rd_wr_same, rd_wr_ne, rd_bump_same, rd_bump_ne, rd_bump64_same, rd_bump64_ne, setOdBit_same, setOdBit_ne, signal_rd, powerNote_rd', record_rd, record_count, ite_self, setMem_rd, setMark_rd, setPow_rd, setDmem_rd, rd_with_pending, rd_with_clk, rd_with_odb, rd_with_tick, rd_with_host, rd_with_flit, rd_with_falt, rd_with_trc, rd_with_cores, rd_with_ldr, rd_with_clok, rd_with_vest, rd_with_vid, rd_with_pow, rd_with_boot, rd_with_gq, rd_with_dbg, rd_with_pins]; rw [bit_setBit, if_pos rfl]

theorem poolChanged_rd (s : State) (q b k : Nat) (h : k ≠ OD.POOL_EVENTS) (h2 : k ≠ OD.MIN_FREE q) : (s.poolChanged q b).rd k = s.rd k := by
  unfold State.poolChanged; dsimp only; rw [rd_ite, poolEvent_rd _ _ _ h]; simp (disch := (first | assumption | decide | (simp only [OD.MIN_FREE, OD.POOL_EVENTS]; omega))) only [rd_ite, rd_wr_same, rd_wr_ne, rd_bump_same, rd_bump_ne, rd_bump64_same, rd_bump64_ne, setOdBit_same, setOdBit_ne, signal_rd, powerNote_rd', record_rd, record_count, ite_self, setMem_rd, setMark_rd, setPow_rd, setDmem_rd, rd_with_pending, rd_with_clk, rd_with_odb, rd_with_tick, rd_with_host, rd_with_flit, rd_with_falt, rd_with_trc, rd_with_cores, rd_with_ldr, rd_with_clok, rd_with_vest, rd_with_vid, rd_with_pow, rd_with_boot, rd_with_gq, rd_with_dbg, rd_with_pins]

theorem poolSettle_id (s : State) (q : Nat) (h : s.rd (OD.POOL_STATE q) ≠ 3) : s.poolSettle q = s := by
  unfold State.poolSettle; rw [if_neg (fun x => h x.1)]

theorem poolRecord_clok (s : State) (q a : Nat) : (s.poolRecord q a).clok = s.clok := (poolRecord_keep s q a (Keep.rfl' s)).part .clok

theorem ringRead_waiting (q : Nat) : ∀ (n : Nat) (s : State) (acc : List Nat), (State.ringRead q n s acc).2.2.clok.waiting = s.clok.waiting := by
  intro n
  induction n with
  | zero => intro s acc; rfl
  | succ n ih =>
    intro s acc
    rw [State.ringRead]
    dsimp only
    have e : (s.memRead clokAcc ((s.pool q).ringBase + 4 * ((s.pool q).head % (s.pool q).ringEntries)) 4).2.clok = s.clok := (memRead_keep s _ _ _ (Keep.rfl' s)).part .clok
    generalize s.memRead clokAcc ((s.pool q).ringBase + 4 * ((s.pool q).head % (s.pool q).ringEntries)) 4 = r at e
    split
    · exact congrArg Cloak.waiting e
    · split
      · rw [ih]; rw [bump_clok]; exact (congrArg Cloak.waiting e : r.2.clok.waiting = _)
      · rw [ih]; exact (congrArg Cloak.waiting e : r.2.clok.waiting = _)

theorem memBytes_mem (v : State) (b : Nat) : ∀ (n a : Nat), a ≤ b → b < a + n → v.memByte b ∈ v.memBytes a n := by
  intro n
  induction n with
  | zero => intro a h1 h2; omega
  | succ n ih =>
    intro a h1 h2
    unfold State.memBytes
    by_cases h : b = a
    · rw [h]; exact List.mem_cons_self
    · exact List.mem_cons_of_mem _ (ih (a + 1) (by omega) (by omega))

theorem stored_zero {u v : State} {a n : Nat} (h : u.Stored v a (zeros n)) (b : Nat) : v.memByte b = if a ≤ b ∧ b < a + n then 0#8 else u.memByte b := by
  have hl : (zeros n).length = n := by unfold zeros; simp
  split
  · rename_i hb
    have e := h.bytes
    rw [hl] at e
    have m : v.memByte b ∈ v.memBytes a n := by
      exact memBytes_mem v b n a hb.1 hb.2
    rw [e] at m
    exact List.eq_of_mem_replicate m
  · exact h.others b (by rw [hl]; omega)

theorem rd_setSens (s : State) (c : Nat) (x) (k : Nat) : (s.setSens c x).rd k = s.rd k := rfl

theorem sens_setSens (s : State) (c d : Nat) (x) : (s.setSens c x).sens d = if d = c then x else s.sens d := Sparse.get_put ..

theorem sens_of {s t : State} (h : t.ports = s.ports) (c : Nat) : t.sens c = s.sens c := by unfold State.sens; rw [h]

theorem mapFrame_rd (s : State) (c) (f) (k : Nat) : (s.mapFrame c f).rd k = s.rd k := rfl

theorem burst_hears {s : State} {c : Nat} (h : s.hears c) (f : State → State) : s.burst c f = f s := by
  obtain ⟨h1, h2⟩ := h
  unfold State.burst
  rw [if_neg (by simp [h1]), if_neg]
  rcases h2 with h2 | h2
  · omega
  · simp [h2]

theorem header_sens (s : State) (c : Nat) (fixed : Bool) : (s.header c fixed).sens c = { s.sens c with header := some s.clk.now } := by
  unfold State.header State.streams
  have : ∀ u : State, (((u.setSens c { u.sens c with header := some u.clk.now }).setOdBit OD.STREAMING c true).wr OD.SENS_LED_STATE 1).sens c = { u.sens c with header := some u.clk.now } := by
    intro u
    show (u.setSens c _).sens c = _
    rw [sens_setSens, if_pos rfl]
  cases fixed <;> exact this _

theorem header_frame (s : State) (c : Nat) (fixed : Bool) : ((s.header c fixed).sens c).frame = (s.sens c).frame := by rw [header_sens]

theorem countFirst_facts (s : State) (k i : Nat) (h : k ≠ OD.FAULTS_LOST) (h2 : k ≠ OD.CLASS_COUNTS FaultClass.corrected) :
    (s.countFirst k i).rd k = min (s.rd k + 1) 0xFFFFFFFF ∧ (s.countFirst k i).ports = s.ports := by
  refine ⟨?_, (countFirst_keep s k i (Keep.rfl' s) (within_self _)).part .ports⟩
  unfold State.countFirst
  dsimp only
  split
  · rw [record_rd _ _ _ _ _ _ _ h h2, rd_bump_same]
  · rw [rd_bump_same]

theorem countFirst_rd (s : State) (k i : Nat) {j : Nat} (h0 : j ≠ k) (h : j ≠ OD.FAULTS_LOST) (h2 : j ≠ OD.CLASS_COUNTS FaultClass.corrected) :
    (s.countFirst k i).rd j = s.rd j := by
  unfold State.countFirst
  dsimp only
  split
  · rw [record_rd _ _ _ _ _ _ _ h h2, rd_bump_ne _ h0]
  · rw [rd_bump_ne _ h0]

theorem mapFrame_sens (s : State) (c : Nat) (f : Frame → Frame) : (s.mapFrame c f).sens c = { s.sens c with frame := (s.sens c).frame.map f } := by
  unfold State.mapFrame; rw [sens_setSens, if_pos rfl]

theorem portWrite_mem (s : State) (c a : Nat) (bs : List Byte) (h1 : s.isMem portAcc true a bs.length)
    (h2 : s.writable portAcc a bs.length) : s.Stored (s.portWrite c a bs) a bs := by
  obtain ⟨t, h3, h4⟩ := memWrite_mem portAcc s a bs h1 h2
  have : s.portWrite c a bs = t := by
    unfold State.portWrite; rw [h3]; rfl
  rw [this]; exact h4

theorem memBytes_at {t : State} : ∀ (n a i : Nat) (b : Byte), t.memBytes a n = List.replicate n b → i < n → t.memByte (a + i) = b := by
  intro n
  induction n with
  | zero => intro a i b _ h; omega
  | succ m ih =>
    intro a i b h hi
    unfold State.memBytes at h
    rw [List.replicate_succ, List.cons.injEq] at h
    cases i with
    | zero => exact h.1
    | succ j => have := ih (a+1) j b h.2 (by omega); rwa [show a + (j + 1) = a + 1 + j by omega]

theorem memWrite_smooth (q : Acc) (s : State) (a : Nat) (bs : List Byte) (h : s.smooth) : State.smooth (s.memWrite q a bs).2 := by
  obtain ⟨r, ht, hr⟩ := transfer_smooth s q a h
  unfold State.memWrite
  rw [ht]
  dsimp only
  unfold State.writeDone
  split
  · exact hr
  · have k := writeFrom_keep q { s with bal := { s.bal with transfers := r } } a bs {} (Keep.rfl' _) (within_self _)
    generalize State.writeFrom q { s with bal := { s.bal with transfers := r } } a bs {} = p at *
    obtain ⟨x, u⟩ := p
    have hb : u.bal = { s.bal with transfers := r } := k.part .bal
    have hc : (u.countWin q x).bal = u.bal := (countWin_keep u q x (Keep.rfl' u) (within_self _)).part .bal
    obtain ⟨b, e, et⟩ := noteIf_bal (u.countWin q x) q x [(a, bs.length)]
    show State.smooth ((u.countWin q x).noteIf q x [(a, bs.length)])
    rw [e]
    intro t ht
    exact hr t (by
      have : b.transfers = r := by rw [et, hc, hb]
      rw [← this]; exact ht)

theorem padFold (c base stride line : Nat) (p : Byte) (s : State) : ∀ n, s.smooth → (∀ x, base + line * stride ≤ x → x < base + n * stride → s.place portAcc true x = .mem ∧ s.mark x ≠ 2) →
    let t := foldN n (fun s j => if j < line then s else s.portWrite c (base + j * stride) (List.replicate stride p)) s
    (∀ x, t.memByte x = if base + line * stride ≤ x ∧ x < base + n * stride then p else s.memByte x) ∧ (∀ x, t.mark x = s.mark x ∨ t.mark x = 0) ∧ Keep [.mem, .bal] s t ∧ t.smooth := by
  intro n
  induction n with
  | zero => intro hs _; refine ⟨fun x => ?_, fun x => .inl rfl, Keep.rfl' s, hs⟩; rw [if_neg (by omega)]; rfl
  | succ n ih =>
    intro hs h t
    have hn : base + n * stride ≤ base + (n + 1) * stride := by rw [Nat.succ_mul]; omega
    obtain ⟨i1, i2, i3, i4⟩ := ih hs (fun x a b => h x a (by omega))
    have ht : t = (fun s j => if j < line then s else s.portWrite c (base + j * stride) (List.replicate stride p)) (foldN n (fun s j => if j < line then s else s.portWrite c (base + j * stride) (List.replicate stride p)) s) n := foldN_succ _ _ _
    clear_value t
    generalize foldN n (fun s j => if j < line then s else s.portWrite c (base + j * stride) (List.replicate stride p)) s = u at *
    dsimp only at ht
    by_cases cl : n < line
    · rw [if_pos cl] at ht
      rw [ht]
      refine ⟨fun x => ?_, i2, i3, i4⟩
      have : (n + 1) * stride ≤ line * stride := Nat.mul_le_mul_right _ cl
      have : n * stride ≤ (n + 1) * stride := Nat.mul_le_mul_right _ (by omega)
      rw [i1 x, if_neg (by omega), if_neg (by omega)]
    · rw [if_neg cl] at ht
      have e0 : (n + 1) * stride = n * stride + stride := Nat.succ_mul _ _
      have : line * stride ≤ n * stride := Nat.mul_le_mul_right _ (by omega)
      have pl : ∀ x, u.place portAcc true x = s.place portAcc true x := fun x =>
        place_same2 (fun k _ => Keep.rd i3 (k := k)) (i3.part .ldr) (i3.part .host) portAcc (fun t ht => by cases ht) true x
      have mk : ∀ x, base + n * stride ≤ x → x < base + n * stride + stride → u.mark x ≠ 2 := by
        intro x a b
        rcases i2 x with e | e
        · rw [e]; exact (h x (by omega) (by omega)).2
        · rw [e]; decide
      have st := portWrite_mem u c (base + n * stride) (List.replicate stride p) (by
        rw [List.length_replicate]; intro i hi; rw [pl]; exact (h _ (by omega) (by omega)).1) (by rw [List.length_replicate]; exact ⟨partialBad_none mk, i4⟩)
      have sm : State.smooth (u.portWrite c (base + n * stride) (List.replicate stride p)) := by
        obtain ⟨y, h3, h4⟩ := memWrite_mem portAcc u (base + n * stride) (List.replicate stride p) (by
          rw [List.length_replicate]; intro i hi; rw [pl]; exact (h _ (by omega) (by omega)).1) (by rw [List.length_replicate]; exact ⟨partialBad_none mk, i4⟩)
        have e : u.portWrite c (base + n * stride) (List.replicate stride p) = y := by unfold State.portWrite; rw [h3]; rfl
        rw [e]
        have := memWrite_smooth portAcc u (base + n * stride) (List.replicate stride p) i4
        rwa [h3] at this
      have mm : ∀ x, t.mark x = u.mark x ∨ t.mark x = 0 := by
        intro x
        obtain ⟨y, h3, h4⟩ := memWrite_mem portAcc u (base + n * stride) (List.replicate stride p) (by
          rw [List.length_replicate]; intro i hi; rw [pl]; exact (h _ (by omega) (by omega)).1) (by rw [List.length_replicate]; exact ⟨partialBad_none mk, i4⟩)
        have := memWrite_marks portAcc u (base + n * stride) (List.replicate stride p) x
        rw [h3] at this
        have e : u.portWrite c (base + n * stride) (List.replicate stride p) = y := by unfold State.portWrite; rw [h3]; rfl
        rw [ht, e]; exact this
      refine ⟨fun x => ?_, fun x => ?_, ?_, ?_⟩
      · rw [ht]
        by_cases g : base + n * stride ≤ x ∧ x < base + n * stride + stride
        · rw [if_pos (by omega)]
          have := memBytes_at (t := u.portWrite c (base + n * stride) (List.replicate stride p)) stride (base + n * stride) (x - (base + n * stride)) p (by have := st.bytes; rwa [List.length_replicate] at this) (by omega)
          rwa [show base + n * stride + (x - (base + n * stride)) = x by omega] at this
        · have := st.others x (by rw [List.length_replicate]; omega)
          rw [this, i1 x]
          by_cases g2 : base + line * stride ≤ x ∧ x < base + n * stride
          · rw [if_pos g2, if_pos (by omega)]
          · rw [if_neg g2, if_neg (by omega)]
      · rcases mm x with e | e
        · rw [e]; exact i2 x
        · exact .inr e
      · rw [ht]; exact i3.trans st.keeps
      · rw [ht]; exact sm

theorem applyLanes_none {s : State} {c : Nat} (h : (s.sens c).frame = none) : s.applyLanes c = s.setSens c { s.sens c with lanes := s.rd (OD.LANES c), rate := s.rd (OD.LANE_RATE c) } := by
  unfold State.applyLanes; rw [h]; rfl

theorem rd_setAud (s : State) (x) (k : Nat) : (s.setAud x).rd k = s.rd k := rfl

theorem aud_setAud (s : State) (x) : (s.setAud x).ports.aud = x := rfl

theorem tdm_set (a : AudioUnit) (n m : Nat) (t : TdmPort) : (a.setTdm n t).tdmPort m = if m = n then t else a.tdmPort m := Sparse.get_put ..

theorem aud_of {s t : State} (h : t.ports = s.ports) : t.ports.aud = s.ports.aud := by rw [h]

theorem clockPort_of {s t : State} (h1 : t.rd OD.AUD_CLOCK_SOURCE = s.rd OD.AUD_CLOCK_SOURCE) (h2 : ∀ i, t.rd (OD.TDM_ROLE i) = s.rd (OD.TDM_ROLE i)) : t.clockPort = s.clockPort := by
  unfold State.clockPort; simp only [h1, h2]

theorem stream_setStream (s : State) (k m : Nat) (x : Stream) : (s.setStream k x).stream m = if m = k then x else s.stream m := Sparse.get_put ..

theorem job_set (s : State) (k m : Nat) (x) : (s.setScalerJob k x).scalerJob m = if m = k then x else s.scalerJob m := Sparse.get_put ..

theorem rd_setScalerJob (s : State) (c x) (k : Nat) : (s.setScalerJob c x).rd k = s.rd k := rfl

theorem rd_setStream (s : State) (c x) (k : Nat) : (s.setStream c x).rd k = s.rd k := rfl

theorem job_of {s t : State} (h : t.vest = s.vest) (m : Nat) : t.scalerJob m = s.scalerJob m := by unfold State.scalerJob; rw [h]

theorem stream_of {s t : State} (h : t.vest = s.vest) (m : Nat) : t.stream m = s.stream m := by unfold State.stream; rw [h]

theorem packCodes_length (dtype : Nat) : ∀ l : List Nat, (packCodes dtype l).length ≤ l.length * dtypeBytes dtype := by
  have h2 : ∀ dt : Nat, 1 ≤ dtypeBytes dt := by intro dt; unfold dtypeBytes; split <;> (try split) <;> omega
  intro l
  induction l using packCodes.induct (dtype := dtype) with
  | case1 => simp [packCodes]
  | case2 c h => have := h2 dtype; simp [packCodes, h]; rw [h] at this; omega
  | case3 c h => simp [packCodes, h]
  | case4 c d rest h ih => have := h2 dtype; simp [packCodes, h]; rw [h] at this ih; simp only [Nat.add_mul]; omega
  | case5 c d rest h ih => simp only [packCodes, if_neg h, List.length_append, leBytes_length, List.length_cons] at *; simp only [Nat.add_mul] at *; omega

theorem tensor_length (d : ScJob) (rs) (src) (crop) (seed) : (d.tensor rs src crop seed).length ≤ d.tensorBytes := by
  unfold ScJob.tensor ScJob.tensorBytes
  refine Nat.le_trans (packCodes_length _ _) ?_
  rw [List.length_map, List.length_range]

theorem alignUp_ge (k : Nat) : k ≤ alignUp k 64 := by unfold alignUp; omega

theorem sealed_same {s z : State} (h1 : ∀ q, q < 8 → z.rd (OD.POOL_STATE q) = s.rd (OD.POOL_STATE q)) (h2 : ∀ q, q < 4 → z.rd (OD.PK_STATE q) = s.rd (OD.PK_STATE q))
    (h3 : ∀ r, r < 16 → z.rd (OD.SEAL_BASE r) = s.rd (OD.SEAL_BASE r) ∧ z.rd (OD.SEAL_SIZE r) = s.rd (OD.SEAL_SIZE r)) (h4 : z.rd OD.CORE_SEAL = s.rd OD.CORE_SEAL)
    (hc : z.clok = s.clok) (hl : z.ledg = s.ledg) (hs : ∀ k, z.stream k = s.stream k) (a : Nat) : z.sealedByte a = s.sealedByte a := by
  have hp : ∀ q, z.pool q = s.pool q := fun q => by unfold State.pool; rw [hc]
  have e1 : (List.range 8).filter (fun q => decide (z.rd (OD.POOL_STATE q) ≠ 0) && (z.pool q).sealed) = (List.range 8).filter (fun q => decide (s.rd (OD.POOL_STATE q) ≠ 0) && (s.pool q).sealed) :=
    List.filter_congr (fun q hq => by rw [h1 q (List.mem_range.1 hq), hp])
  have e2 : (List.range 4).filter (fun q => decide (z.rd (OD.PK_STATE q) ≠ 0) && (z.stream q).sealed) = (List.range 4).filter (fun q => decide (s.rd (OD.PK_STATE q) ≠ 0) && (s.stream q).sealed) :=
    List.filter_congr (fun q hq => by rw [h2 q (List.mem_range.1 hq), hs])
  have e3 : (List.range 16).map (fun r => sealRegion (z.rd (OD.SEAL_BASE r)) (z.rd (OD.SEAL_SIZE r))) = (List.range 16).map (fun r => sealRegion (s.rd (OD.SEAL_BASE r)) (s.rd (OD.SEAL_SIZE r))) :=
    List.map_congr_left (fun r hr => by rw [(h3 r (List.mem_range.1 hr)).1, (h3 r (List.mem_range.1 hr)).2])
  unfold State.sealedByte State.sealRanges State.coreSealed
  rw [e1, e2, e3, h4, hl]
  simp only [hp, hs]

theorem firstSealed_same {s z : State} (h : ∀ a, z.sealedByte a = s.sealedByte a) (n : Nat) : ∀ a, z.firstSealed a n = s.firstSealed a n := by
  induction n with
  | zero => intro a; rfl
  | succ n ih => intro a; unfold State.firstSealed; rw [h, ih]

theorem dj_set (s : State) (k m : Nat) (x) : (s.setDecJob k x).decJob m = if m = k then x else s.decJob m := Sparse.get_put ..

theorem dc_set (s : State) (k m : Nat) (x) : (s.setDecCtx k x).decCtx m = if m = k then x else s.decCtx m := Sparse.get_put ..

theorem ec_set (s : State) (k m : Nat) (x) : (s.setEncCtx k x).encCtx m = if m = k then x else s.encCtx m := Sparse.get_put ..

theorem rd_setDecJob (s : State) (c x) (k : Nat) : (s.setDecJob c x).rd k = s.rd k := rfl

theorem rd_setDecCtx (s : State) (c x) (k : Nat) : (s.setDecCtx c x).rd k = s.rd k := rfl

theorem rd_setEncCtx (s : State) (c x) (k : Nat) : (s.setEncCtx c x).rd k = s.rd k := rfl

theorem rd_setEncJob (s : State) (x) (k : Nat) : (s.setEncJob x).rd k = s.rd k := rfl

theorem vid_of {s t : State} (h : t.vid = s.vid) : (∀ m, t.decJob m = s.decJob m) ∧ (∀ m, t.decCtx m = s.decCtx m) ∧ (∀ m, t.encCtx m = s.encCtx m) := by
  refine ⟨fun m => ?_, fun m => ?_, fun m => ?_⟩
  · unfold State.decJob; rw [h]
  · unfold State.decCtx; rw [h]
  · unfold State.encCtx; rw [h]

theorem decEvent_facts (s : State) (x : Nat) : (s.decEvent x).rd OD.DEC_EVENTS = setBit (s.rd OD.DEC_EVENTS) x true ∧ (∀ k, k ≠ OD.DEC_EVENTS → (s.decEvent x).rd k = s.rd k) ∧ Keep [.od, .host] s (s.decEvent x) := by
  refine ⟨?_, fun k hk => ?_, decEvent_keep s x (Keep.rfl' s) (within_self _)⟩
  · unfold State.decEvent; dsimp only; simp (disch := (first | assumption | decide)) only [rd_ite, rd_wr_same, rd_wr_ne, rd_bump_same, rd_bump_ne, rd_bump64_same, rd_bump64_ne, setOdBit_same, setOdBit_ne, signal_rd, powerNote_rd', record_rd, record_count, ite_self, setMem_rd, setMark_rd, setPow_rd, setDmem_rd, rd_with_pending, rd_with_clk, rd_with_odb, rd_with_tick, rd_with_host, rd_with_flit, rd_with_falt, rd_with_trc, rd_with_cores, rd_with_ldr, rd_with_clok, rd_with_vest, rd_with_vid, rd_with_pow, rd_with_boot, rd_with_gq, rd_with_dbg, rd_with_pins]
  · unfold State.decEvent; dsimp only; simp (disch := (first | assumption | decide)) only [rd_ite, rd_wr_same, rd_wr_ne, rd_bump_same, rd_bump_ne, rd_bump64_same, rd_bump64_ne, setOdBit_same, setOdBit_ne, signal_rd, powerNote_rd', record_rd, record_count, ite_self, setMem_rd, setMark_rd, setPow_rd, setDmem_rd, rd_with_pending, rd_with_clk, rd_with_odb, rd_with_tick, rd_with_host, rd_with_flit, rd_with_falt, rd_with_trc, rd_with_cores, rd_with_ldr, rd_with_clok, rd_with_vest, rd_with_vid, rd_with_pow, rd_with_boot, rd_with_gq, rd_with_dbg, rd_with_pins]

theorem encEvent_facts (s : State) (x : Nat) : (s.encEvent x).rd OD.ENC_EVENTS = setBit (s.rd OD.ENC_EVENTS) x true ∧ (∀ k, k ≠ OD.ENC_EVENTS → (s.encEvent x).rd k = s.rd k) ∧ Keep [.od, .host] s (s.encEvent x) := by
  refine ⟨?_, fun k hk => ?_, encEvent_keep s x (Keep.rfl' s) (within_self _)⟩
  · unfold State.encEvent; dsimp only; simp (disch := (first | assumption | decide)) only [rd_ite, rd_wr_same, rd_wr_ne, rd_bump_same, rd_bump_ne, rd_bump64_same, rd_bump64_ne, setOdBit_same, setOdBit_ne, signal_rd, powerNote_rd', record_rd, record_count, ite_self, setMem_rd, setMark_rd, setPow_rd, setDmem_rd, rd_with_pending, rd_with_clk, rd_with_odb, rd_with_tick, rd_with_host, rd_with_flit, rd_with_falt, rd_with_trc, rd_with_cores, rd_with_ldr, rd_with_clok, rd_with_vest, rd_with_vid, rd_with_pow, rd_with_boot, rd_with_gq, rd_with_dbg, rd_with_pins]
  · unfold State.encEvent; dsimp only; simp (disch := (first | assumption | decide)) only [rd_ite, rd_wr_same, rd_wr_ne, rd_bump_same, rd_bump_ne, rd_bump64_same, rd_bump64_ne, setOdBit_same, setOdBit_ne, signal_rd, powerNote_rd', record_rd, record_count, ite_self, setMem_rd, setMark_rd, setPow_rd, setDmem_rd, rd_with_pending, rd_with_clk, rd_with_odb, rd_with_tick, rd_with_host, rd_with_flit, rd_with_falt, rd_with_trc, rd_with_cores, rd_with_ldr, rd_with_clok, rd_with_vest, rd_with_vid, rd_with_pow, rd_with_boot, rd_with_gq, rd_with_dbg, rd_with_pins]

theorem setCtxSt_facts (s : State) (x st : Nat) : (s.setCtxSt x st).rd (OD.CTX_STATE x) = st ∧
    (s.setCtxSt x st).rd OD.DEC_EVENTS = (if s.rd (OD.CTX_STATE x) ≠ st ∧ (st = 1 ∨ st = 3) then setBit (s.rd OD.DEC_EVENTS) x true else s.rd OD.DEC_EVENTS) ∧
    (∀ k, k ≠ OD.DEC_EVENTS → k ≠ OD.CTX_STATE x → (s.setCtxSt x st).rd k = s.rd k) ∧ Keep [.od, .host] s (s.setCtxSt x st) := by
  have h4 := setCtxSt_keep s x st (Keep.rfl' s) (within_self _)
  unfold State.setCtxSt at *
  by_cases h : s.rd (OD.CTX_STATE x) = st
  · rw [if_pos h] at *
    exact ⟨h, by rw [if_neg (fun q => q.1 h)], fun _ _ _ => rfl, h4⟩
  · rw [if_neg h] at *
    dsimp only at *
    by_cases g : st = 1 ∨ st = 3
    · rw [if_pos g] at *
      obtain ⟨e1, e2, e3⟩ := decEvent_facts (s.wr (OD.CTX_STATE x) st) x
      refine ⟨by rw [e2 _ (by (first | assumption | decide | (simp only [OD.CTX_STATE, OD.DEC_EVENTS]; omega)))]; simp (disch := (first | assumption | decide | (simp only [OD.CTX_STATE, OD.DEC_EVENTS]; omega))) only [rd_ite, rd_wr_same, rd_wr_ne, rd_bump_same, rd_bump_ne, rd_bump64_same, rd_bump64_ne, setOdBit_same, setOdBit_ne, signal_rd, powerNote_rd', record_rd, record_count, ite_self, setMem_rd, setMark_rd, setPow_rd, setDmem_rd, rd_with_pending, rd_with_clk, rd_with_odb, rd_with_tick, rd_with_host, rd_with_flit, rd_with_falt, rd_with_trc, rd_with_cores, rd_with_ldr, rd_with_clok, rd_with_vest, rd_with_vid, rd_with_pow, rd_with_boot, rd_with_gq, rd_with_dbg, rd_with_pins], by rw [e1, if_pos ⟨h, g⟩]; simp (disch := (first | assumption | decide | (simp only [OD.CTX_STATE, OD.DEC_EVENTS]; omega))) only [rd_ite, rd_wr_same, rd_wr_ne, rd_bump_same, rd_bump_ne, rd_bump64_same, rd_bump64_ne, setOdBit_same, setOdBit_ne, signal_rd, powerNote_rd', record_rd, record_count, ite_self, setMem_rd, setMark_rd, setPow_rd, setDmem_rd, rd_with_pending, rd_with_clk, rd_with_odb, rd_with_tick, rd_with_host, rd_with_flit, rd_with_falt, rd_with_trc, rd_with_cores, rd_with_ldr, rd_with_clok, rd_with_vest, rd_with_vid, rd_with_pow, rd_with_boot, rd_with_gq, rd_with_dbg, rd_with_pins], fun k a b => by rw [e2 k a]; simp (disch := (first | assumption | decide | (simp only [OD.CTX_STATE, OD.DEC_EVENTS]; omega))) only [rd_ite, rd_wr_same, rd_wr_ne, rd_bump_same, rd_bump_ne, rd_bump64_same, rd_bump64_ne, setOdBit_same, setOdBit_ne, signal_rd, powerNote_rd', record_rd, record_count, ite_self, setMem_rd, setMark_rd, setPow_rd, setDmem_rd, rd_with_pending, rd_with_clk, rd_with_odb, rd_with_tick, rd_with_host, rd_with_flit, rd_with_falt, rd_with_trc, rd_with_cores, rd_with_ldr, rd_with_clok, rd_with_vest, rd_with_vid, rd_with_pow, rd_with_boot, rd_with_gq, rd_with_dbg, rd_with_pins], h4⟩
    · rw [if_neg g] at *
      refine ⟨by simp (disch := (first | assumption | decide | (simp only [OD.CTX_STATE, OD.DEC_EVENTS]; omega))) only [rd_ite, rd_wr_same, rd_wr_ne, rd_bump_same, rd_bump_ne, rd_bump64_same, rd_bump64_ne, setOdBit_same, setOdBit_ne, signal_rd, powerNote_rd', record_rd, record_count, ite_self, setMem_rd, setMark_rd, setPow_rd, setDmem_rd, rd_with_pending, rd_with_clk, rd_with_odb, rd_with_tick, rd_with_host, rd_with_flit, rd_with_falt, rd_with_trc, rd_with_cores, rd_with_ldr, rd_with_clok, rd_with_vest, rd_with_vid, rd_with_pow, rd_with_boot, rd_with_gq, rd_with_dbg, rd_with_pins], by rw [if_neg (fun q => g q.2)]; simp (disch := (first | assumption | decide | (simp only [OD.CTX_STATE, OD.DEC_EVENTS]; omega))) only [rd_ite, rd_wr_same, rd_wr_ne, rd_bump_same, rd_bump_ne, rd_bump64_same, rd_bump64_ne, setOdBit_same, setOdBit_ne, signal_rd, powerNote_rd', record_rd, record_count, ite_self, setMem_rd, setMark_rd, setPow_rd, setDmem_rd, rd_with_pending, rd_with_clk, rd_with_odb, rd_with_tick, rd_with_host, rd_with_flit, rd_with_falt, rd_with_trc, rd_with_cores, rd_with_ldr, rd_with_clok, rd_with_vest, rd_with_vid, rd_with_pow, rd_with_boot, rd_with_gq, rd_with_dbg, rd_with_pins], fun k a b => by simp (disch := (first | assumption | decide | (simp only [OD.CTX_STATE, OD.DEC_EVENTS]; omega))) only [rd_ite, rd_wr_same, rd_wr_ne, rd_bump_same, rd_bump_ne, rd_bump64_same, rd_bump64_ne, setOdBit_same, setOdBit_ne, signal_rd, powerNote_rd', record_rd, record_count, ite_self, setMem_rd, setMark_rd, setPow_rd, setDmem_rd, rd_with_pending, rd_with_clk, rd_with_odb, rd_with_tick, rd_with_host, rd_with_flit, rd_with_falt, rd_with_trc, rd_with_cores, rd_with_ldr, rd_with_clok, rd_with_vest, rd_with_vid, rd_with_pow, rd_with_boot, rd_with_gq, rd_with_dbg, rd_with_pins], h4⟩

theorem rd_setColn (s : State) (c) (k : Nat) : (s.setColn c).rd k = s.rd k := rfl

theorem coln_bump (s : State) (k : Nat) : (s.bump k).coln = s.coln := rfl

theorem fillBank_entry (s : State) (b r i : Nat) (sh : Nat → Nat) (hr : r < 16) (hi : i < 64) :
    (s.fillBank b sh).bankEntry b r i = sh (OD.COLN_ROUTE r i) := by
  have key : ∀ n m (j : Nat), j < n → Sparse.get (fun _ => 0) (foldN n (fun m i =>
      Sparse.put (fun _ => 0) m (b * 1024 + i) (sh (OD.COLN_ROUTE (i / 64) (i % 64)))) m) (b * 1024 + j) = sh (OD.COLN_ROUTE (j / 64) (j % 64)) := by
    intro n
    induction n with
    | zero => intro m j h; omega
    | succ n ih =>
      intro m j h
      rw [foldN_succ]
      by_cases c : j = n
      · rw [c, Sparse.get_put_same]
      · rw [Sparse.get_put_ne _ _ (by omega)]; exact ih m j (by omega)
  have := key 1024 s.coln.banks (r * 64 + i) (by omega)
  clear key
  unfold State.bankEntry State.fillBank
  rw [show b * 1024 + r * 64 + i = b * 1024 + (r * 64 + i) by omega]
  generalize @foldN (Sparse Nat) 1024 = F at *
  refine this.trans ?_
  rw [show (r * 64 + i) / 64 = r by omega, show (r * 64 + i) % 64 = i by omega]

theorem fillBank_shape (s : State) (b : Nat) (sh : Nat → Nat) : ∃ m, s.fillBank b sh = { s with coln := { s.coln with banks := m } } := by
  unfold State.fillBank
  exact ⟨_, rfl⟩

theorem meshCopy_facts (s : State) (e : ColnEvent) (d : Nat) :
    (s.meshCopy e d).coln = { s.coln with mesh := s.coln.mesh ++ (match meshNext e.at_ d with | some r => if e.hops < 8 then [{ e with at_ := r, hops := e.hops + 1 }] else [] | none => []) } ∧
    (∀ k, k ≠ OD.ROUTE_MISSES → k ≠ OD.HOP_DROPS → (s.meshCopy e d).rd k = s.rd k) := by
  unfold State.meshCopy
  split
  · rename_i h; rw [h]; dsimp only; rw [List.append_nil]; exact ⟨rfl, fun k a b => by simp (disch := (first | assumption | decide)) only [rd_ite, rd_wr_same, rd_wr_ne, rd_bump_same, rd_bump_ne, rd_bump64_same, rd_bump64_ne, setOdBit_same, setOdBit_ne, signal_rd, powerNote_rd', record_rd, record_count, ite_self, setMem_rd, setMark_rd, setPow_rd, setDmem_rd, rd_with_pending, rd_with_clk, rd_with_odb, rd_with_tick, rd_with_host, rd_with_flit, rd_with_falt, rd_with_trc, rd_with_cores, rd_with_ldr, rd_with_clok, rd_with_vest, rd_with_vid, rd_with_pow, rd_with_boot, rd_with_gq, rd_with_dbg, rd_with_pins]⟩
  · rename_i r h; rw [h]; dsimp only
    by_cases g : 8 ≤ e.hops
    · rw [if_pos g, if_neg (by omega), List.append_nil]; exact ⟨rfl, fun k a b => by simp (disch := (first | assumption | decide)) only [rd_ite, rd_wr_same, rd_wr_ne, rd_bump_same, rd_bump_ne, rd_bump64_same, rd_bump64_ne, setOdBit_same, setOdBit_ne, signal_rd, powerNote_rd', record_rd, record_count, ite_self, setMem_rd, setMark_rd, setPow_rd, setDmem_rd, rd_with_pending, rd_with_clk, rd_with_odb, rd_with_tick, rd_with_host, rd_with_flit, rd_with_falt, rd_with_trc, rd_with_cores, rd_with_ldr, rd_with_clok, rd_with_vest, rd_with_vid, rd_with_pow, rd_with_boot, rd_with_gq, rd_with_dbg, rd_with_pins]⟩
    · rw [if_neg g, if_pos (by omega)]; exact ⟨rfl, fun k a b => rfl⟩

end Sys2Proof.Machine
end

