-- ==== Sys2Proof/Laws/AonLaws.lean ====
section
/-!
SUPPORT. Lemmas about the GQ line, boot, flash, fuses, the trace sink, the test port and the debug port.
-/

set_option Elab.async false

namespace Sys2Proof.Machine

set_option linter.all false

theorem record_class (s : State) (cls agent dom obj addr inst : Nat) (h : OD.CLASS_COUNTS cls ≠ OD.FAULTS_LOST) :
    (s.record cls agent dom obj addr inst).rd (OD.CLASS_COUNTS cls) = min (s.rd (OD.CLASS_COUNTS cls) + 1) 0xFFFFFFFF := by
  exact logFault_count s ⟨0, cls, agent, 0, dom, obj, 0xFF, addr, inst⟩ h

theorem rd_setGq (s : State) (g) (k : Nat) : (s.setGq g).rd k = s.rd k := rfl

theorem gq_setGq (s : State) (g) : (s.setGq g).gq = g := rfl

theorem rd_wrBytes (s : State) (a bs) (k : Nat) : (s.wrBytes a bs).rd k = s.rd k := rfl

theorem gqCount_facts (s : State) (k : Nat) (h1 : k ≠ OD.FAULTS_LOST) (h2 : k ≠ OD.CLASS_COUNTS FaultClass.corrected) :
    (s.gqCount k).rd k = min (s.rd k + 1) 0xFFFFFFFF ∧ (∀ j, j ≠ k → j ≠ OD.FAULTS_LOST → j ≠ OD.CLASS_COUNTS FaultClass.corrected → (s.gqCount k).rd j = s.rd j) ∧
    Keep [.od, .host, .falt] s (s.gqCount k) := by
  refine ⟨?_, fun j a b c => ?_, gqCount_keep s k (Keep.rfl' s) (within_self _)⟩
  · unfold State.gqCount; rw [rd_ite, record_rd _ _ _ _ _ _ _ h1 h2, rd_bump_same, ite_self]
  · unfold State.gqCount; rw [rd_ite, record_rd _ _ _ _ _ _ _ b c, rd_bump_ne _ a, ite_self]

theorem lineDetected_facts (s : State) (c : Nat) :
    (s.lineDetected c).rd OD.LINE_NOW = setBit (s.rd OD.LINE_NOW) c true ∧ (s.lineDetected c).rd OD.LINE_SEEN = setBit (s.rd OD.LINE_SEEN) c true ∧
    (s.lineDetected c).rd OD.LINE_FAULTS = min (s.rd OD.LINE_FAULTS + 1) 0xFFFFFFFF ∧
    (s.lineDetected c).rd (OD.CLASS_COUNTS FaultClass.corrected) = min (s.rd (OD.CLASS_COUNTS FaultClass.corrected) + 1) 0xFFFFFFFF ∧
    (∀ j, j ≠ OD.LINE_NOW → j ≠ OD.LINE_SEEN → j ≠ OD.LINE_FAULTS → j ≠ OD.FAULTS_LOST → j ≠ OD.CLASS_COUNTS FaultClass.corrected → (s.lineDetected c).rd j = s.rd j) ∧
    Keep [.od, .host, .falt] s (s.lineDetected c) := by
  refine ⟨?_, ?_, ?_, ?_, fun j a1 a2 a3 a4 a5 => ?_, lineDetected_keep s c (Keep.rfl' s) (within_self _)⟩
  all_goals unfold State.lineDetected; dsimp only; rw [rd_ite, signal_rd, ite_self]
  · simp (disch := (first | assumption | decide | (simp only [FaultClass.corrected, OD.CLASS_COUNTS, OD.FAULTS_LOST, OD.LINE_FAULTS, OD.LINE_NOW, OD.LINE_SEEN]; omega))) only [rd_ite, rd_wr_same, rd_wr_ne, rd_bump_same, rd_bump_ne, rd_bump64_same, rd_bump64_ne, setOdBit_same, setOdBit_ne, signal_rd, powerNote_rd', record_rd, record_class, ite_self, setMem_rd, setMark_rd, setPow_rd, setDmem_rd, rd_with_pending, rd_with_clk, rd_with_odb, rd_with_tick, rd_with_host, rd_with_flit, rd_with_falt, rd_with_trc, rd_with_cores, rd_with_ldr, rd_with_clok, rd_with_vest, rd_with_vid, rd_with_pow, rd_with_boot, rd_with_gq, rd_with_dbg, rd_with_pins]
  · simp (disch := (first | assumption | decide | (simp only [FaultClass.corrected, OD.CLASS_COUNTS, OD.FAULTS_LOST, OD.LINE_FAULTS, OD.LINE_NOW, OD.LINE_SEEN]; omega))) only [rd_ite, rd_wr_same, rd_wr_ne, rd_bump_same, rd_bump_ne, rd_bump64_same, rd_bump64_ne, setOdBit_same, setOdBit_ne, signal_rd, powerNote_rd', record_rd, record_class, ite_self, setMem_rd, setMark_rd, setPow_rd, setDmem_rd, rd_with_pending, rd_with_clk, rd_with_odb, rd_with_tick, rd_with_host, rd_with_flit, rd_with_falt, rd_with_trc, rd_with_cores, rd_with_ldr, rd_with_clok, rd_with_vest, rd_with_vid, rd_with_pow, rd_with_boot, rd_with_gq, rd_with_dbg, rd_with_pins]
  · simp (disch := (first | assumption | decide | (simp only [FaultClass.corrected, OD.CLASS_COUNTS, OD.FAULTS_LOST, OD.LINE_FAULTS, OD.LINE_NOW, OD.LINE_SEEN]; omega))) only [rd_ite, rd_wr_same, rd_wr_ne, rd_bump_same, rd_bump_ne, rd_bump64_same, rd_bump64_ne, setOdBit_same, setOdBit_ne, signal_rd, powerNote_rd', record_rd, record_class, ite_self, setMem_rd, setMark_rd, setPow_rd, setDmem_rd, rd_with_pending, rd_with_clk, rd_with_odb, rd_with_tick, rd_with_host, rd_with_flit, rd_with_falt, rd_with_trc, rd_with_cores, rd_with_ldr, rd_with_clok, rd_with_vest, rd_with_vid, rd_with_pow, rd_with_boot, rd_with_gq, rd_with_dbg, rd_with_pins]
  · rw [record_class _ _ _ _ _ _ _ (by decide)]; simp (disch := (first | assumption | decide | (simp only [FaultClass.corrected, OD.CLASS_COUNTS, OD.FAULTS_LOST, OD.LINE_FAULTS, OD.LINE_NOW, OD.LINE_SEEN]; omega))) only [rd_ite, rd_wr_same, rd_wr_ne, rd_bump_same, rd_bump_ne, rd_bump64_same, rd_bump64_ne, setOdBit_same, setOdBit_ne, signal_rd, powerNote_rd', record_rd, record_class, ite_self, setMem_rd, setMark_rd, setPow_rd, setDmem_rd, rd_with_pending, rd_with_clk, rd_with_odb, rd_with_tick, rd_with_host, rd_with_flit, rd_with_falt, rd_with_trc, rd_with_cores, rd_with_ldr, rd_with_clok, rd_with_vest, rd_with_vid, rd_with_pow, rd_with_boot, rd_with_gq, rd_with_dbg, rd_with_pins]
  · simp (disch := (first | assumption | decide | (simp only [FaultClass.corrected, OD.CLASS_COUNTS, OD.FAULTS_LOST, OD.LINE_FAULTS, OD.LINE_NOW, OD.LINE_SEEN]; omega))) only [rd_ite, rd_wr_same, rd_wr_ne, rd_bump_same, rd_bump_ne, rd_bump64_same, rd_bump64_ne, setOdBit_same, setOdBit_ne, signal_rd, powerNote_rd', record_rd, record_class, ite_self, setMem_rd, setMark_rd, setPow_rd, setDmem_rd, rd_with_pending, rd_with_clk, rd_with_odb, rd_with_tick, rd_with_host, rd_with_flit, rd_with_falt, rd_with_trc, rd_with_cores, rd_with_ldr, rd_with_clok, rd_with_vest, rd_with_vid, rd_with_pow, rd_with_boot, rd_with_gq, rd_with_dbg, rd_with_pins]

theorem lineFault_facts (s : State) (c : Nat) : (s.lineFault c).rd OD.GQ_MODE = 1 ∧
    (s.lineFault c).gq = { s.gq with clear := s.clk.now, probe := if s.rd OD.GQ_MODE = 1 then s.gq.probe else s.clk.now } ∧
    (∀ j, j ≠ OD.GQ_MODE → j ≠ OD.LINE_NOW → j ≠ OD.LINE_SEEN → j ≠ OD.LINE_FAULTS → j ≠ OD.FAULTS_LOST → j ≠ OD.CLASS_COUNTS FaultClass.corrected → (s.lineFault c).rd j = s.rd j) ∧
    Keep [.od, .host, .falt, .gq] s (s.lineFault c) := by
  obtain ⟨-, -, -, -, d5, d6⟩ := lineDetected_facts s c
  refine ⟨?_, ?_, fun j a0 a1 a2 a3 a4 a5 => ?_, lineFault_keep s c (Keep.rfl' s) (within_self _)⟩
  · unfold State.lineFault; dsimp only; rw [rd_setGq]; simp (disch := (first | assumption | decide | (simp only [FaultClass.corrected, OD.CLASS_COUNTS, OD.FAULTS_LOST, OD.GQ_MODE, OD.LINE_FAULTS, OD.LINE_NOW, OD.LINE_SEEN]; omega))) only [rd_ite, rd_wr_same, rd_wr_ne, rd_bump_same, rd_bump_ne, rd_bump64_same, rd_bump64_ne, setOdBit_same, setOdBit_ne, signal_rd, powerNote_rd', record_rd, record_class, ite_self, setMem_rd, setMark_rd, setPow_rd, setDmem_rd, rd_with_pending, rd_with_clk, rd_with_odb, rd_with_tick, rd_with_host, rd_with_flit, rd_with_falt, rd_with_trc, rd_with_cores, rd_with_ldr, rd_with_clok, rd_with_vest, rd_with_vid, rd_with_pow, rd_with_boot, rd_with_gq, rd_with_dbg, rd_with_pins]
  · unfold State.lineFault; dsimp only
    rw [gq_setGq]
    split
    · rfl
    · rw [show (s.lineDetected c).gq = s.gq from d6.part .gq, show (s.lineDetected c).clk = s.clk from d6.part .clk, d5 OD.GQ_MODE (by (first | assumption | decide | (simp only [FaultClass.corrected, OD.CLASS_COUNTS, OD.FAULTS_LOST, OD.GQ_MODE, OD.LINE_FAULTS, OD.LINE_NOW, OD.LINE_SEEN]; omega))) (by (first | assumption | decide | (simp only [FaultClass.corrected, OD.CLASS_COUNTS, OD.FAULTS_LOST, OD.GQ_MODE, OD.LINE_FAULTS, OD.LINE_NOW, OD.LINE_SEEN]; omega))) (by (first | assumption | decide | (simp only [FaultClass.corrected, OD.CLASS_COUNTS, OD.FAULTS_LOST, OD.GQ_MODE, OD.LINE_FAULTS, OD.LINE_NOW, OD.LINE_SEEN]; omega))) (by (first | assumption | decide | (simp only [FaultClass.corrected, OD.CLASS_COUNTS, OD.FAULTS_LOST, OD.GQ_MODE, OD.LINE_FAULTS, OD.LINE_NOW, OD.LINE_SEEN]; omega))) (by (first | assumption | decide | (simp only [FaultClass.corrected, OD.CLASS_COUNTS, OD.FAULTS_LOST, OD.GQ_MODE, OD.LINE_FAULTS, OD.LINE_NOW, OD.LINE_SEEN]; omega)))]
  · unfold State.lineFault; dsimp only; rw [rd_setGq]
    split
    · simp (disch := (first | assumption | decide | (simp only [FaultClass.corrected, OD.CLASS_COUNTS, OD.FAULTS_LOST, OD.GQ_MODE, OD.LINE_FAULTS, OD.LINE_NOW, OD.LINE_SEEN]; omega))) only [rd_ite, rd_wr_same, rd_wr_ne, rd_bump_same, rd_bump_ne, rd_bump64_same, rd_bump64_ne, setOdBit_same, setOdBit_ne, signal_rd, powerNote_rd', record_rd, record_class, ite_self, setMem_rd, setMark_rd, setPow_rd, setDmem_rd, rd_with_pending, rd_with_clk, rd_with_odb, rd_with_tick, rd_with_host, rd_with_flit, rd_with_falt, rd_with_trc, rd_with_cores, rd_with_ldr, rd_with_clok, rd_with_vest, rd_with_vid, rd_with_pow, rd_with_boot, rd_with_gq, rd_with_dbg, rd_with_pins]
    · rw [rd_wr_ne _ a0, d5 j a1 a2 a3 a4 a5]

theorem mailFailed_facts (s : State) (w : Nat) : (s.mailFailed w).rd OD.GQM_STATE = 3 ∧ (s.mailFailed w).rd OD.GQM_FAIL = w ∧
    (s.mailFailed w).gq = { s.gq with mail := none } ∧ (∀ j, j ≠ OD.GQM_STATE → j ≠ OD.GQM_FAIL → (s.mailFailed w).rd j = s.rd j) ∧ Keep [.od, .gq] s (s.mailFailed w) := by
  refine ⟨?_, ?_, rfl, fun j a b => ?_, mailFailed_keep s w (Keep.rfl' s) (within_self _)⟩
  · unfold State.mailFailed; rw [rd_setGq]; simp (disch := (first | assumption | decide)) only [rd_ite, rd_wr_same, rd_wr_ne, rd_bump_same, rd_bump_ne, rd_bump64_same, rd_bump64_ne, setOdBit_same, setOdBit_ne, signal_rd, powerNote_rd', record_rd, record_class, ite_self, setMem_rd, setMark_rd, setPow_rd, setDmem_rd, rd_with_pending, rd_with_clk, rd_with_odb, rd_with_tick, rd_with_host, rd_with_flit, rd_with_falt, rd_with_trc, rd_with_cores, rd_with_ldr, rd_with_clok, rd_with_vest, rd_with_vid, rd_with_pow, rd_with_boot, rd_with_gq, rd_with_dbg, rd_with_pins]
  · unfold State.mailFailed; rw [rd_setGq]; simp (disch := (first | assumption | decide)) only [rd_ite, rd_wr_same, rd_wr_ne, rd_bump_same, rd_bump_ne, rd_bump64_same, rd_bump64_ne, setOdBit_same, setOdBit_ne, signal_rd, powerNote_rd', record_rd, record_class, ite_self, setMem_rd, setMark_rd, setPow_rd, setDmem_rd, rd_with_pending, rd_with_clk, rd_with_odb, rd_with_tick, rd_with_host, rd_with_flit, rd_with_falt, rd_with_trc, rd_with_cores, rd_with_ldr, rd_with_clok, rd_with_vest, rd_with_vid, rd_with_pow, rd_with_boot, rd_with_gq, rd_with_dbg, rd_with_pins]
  · unfold State.mailFailed; rw [rd_setGq]; simp (disch := (first | assumption | decide)) only [rd_ite, rd_wr_same, rd_wr_ne, rd_bump_same, rd_bump_ne, rd_bump64_same, rd_bump64_ne, setOdBit_same, setOdBit_ne, signal_rd, powerNote_rd', record_rd, record_class, ite_self, setMem_rd, setMark_rd, setPow_rd, setDmem_rd, rd_with_pending, rd_with_clk, rd_with_odb, rd_with_tick, rd_with_host, rd_with_flit, rd_with_falt, rd_with_trc, rd_with_cores, rd_with_ldr, rd_with_clok, rd_with_vest, rd_with_vid, rd_with_pow, rd_with_boot, rd_with_gq, rd_with_dbg, rd_with_pins]

theorem mailRetry_facts (s : State) (m : GqMail) (w : Nat) :
    (if m.tries < 3 then (s.mailRetry m w).gq = { s.gq with mail := some { m with sent := none }, courtesy := false } ∧ (s.mailRetry m w).rd OD.GQM_STATE = s.rd OD.GQM_STATE
      else (s.mailRetry m w).gq = { s.gq with mail := none, courtesy := false } ∧ (s.mailRetry m w).rd OD.GQM_STATE = 3 ∧ (s.mailRetry m w).rd OD.GQM_FAIL = w) ∧
    (∀ j, j ≠ OD.GQM_STATE → j ≠ OD.GQM_FAIL → (s.mailRetry m w).rd j = s.rd j) ∧ Keep [.od, .gq] s (s.mailRetry m w) := by
  have hk := mailRetry_keep s m w (Keep.rfl' s) (within_self _)
  unfold State.mailRetry at *
  by_cases h : m.tries < 3
  · rw [if_pos h]; rw [if_neg (by omega)] at *
    exact ⟨⟨rfl, rfl⟩, fun _ _ _ => rfl, hk⟩
  · rw [if_neg h]; rw [if_pos (by omega)] at *
    obtain ⟨a, b, c, d, e⟩ := mailFailed_facts (s.setGq { s.gq with courtesy := false }) w
    exact ⟨⟨c, a, b⟩, d, hk⟩

theorem gqReceive_facts (s : State) (g : Telegram) :
    (g.ok = false → (s.gqReceive g).rd OD.RX_DISCARDS = min (s.rd OD.RX_DISCARDS + 1) 0xFFFFFFFF) ∧
    (∀ j, j ≠ OD.RX_DISCARDS → j ≠ OD.RX_TELEGRAMS → j ≠ OD.ADDR_CLASHES → j ≠ OD.FAULTS_LOST → j ≠ OD.CLASS_COUNTS FaultClass.corrected → (s.gqReceive g).rd j = s.rd j) ∧
    Keep [.od, .host, .falt, .gq] s (s.gqReceive g) := by
  obtain ⟨c1, c2, c3⟩ := gqCount_facts s.busIdle OD.RX_DISCARDS (by (first | assumption | decide | (simp only [FaultClass.corrected, OD.ADDR_CLASHES, OD.CLASS_COUNTS, OD.FAULTS_LOST, OD.RX_DISCARDS, OD.RX_TELEGRAMS]; omega))) (by (first | assumption | decide | (simp only [FaultClass.corrected, OD.ADDR_CLASHES, OD.CLASS_COUNTS, OD.FAULTS_LOST, OD.RX_DISCARDS, OD.RX_TELEGRAMS]; omega)))
  refine ⟨fun h => ?_, fun j a b c d e => ?_, gqReceive_keep s g (Keep.rfl' s) (within_self _)⟩
  · unfold State.gqReceive; rw [if_pos (by simp [h])]; exact c1
  · unfold State.gqReceive; dsimp only
    have hb : ∀ k, s.busIdle.rd k = s.rd k := fun _ => rfl
    split
    · rw [c2 j a d e]; exact hb j
    · split
      · simp (disch := (first | assumption | decide | (simp only [FaultClass.corrected, OD.ADDR_CLASHES, OD.CLASS_COUNTS, OD.FAULTS_LOST, OD.RX_DISCARDS, OD.RX_TELEGRAMS]; omega))) only [hb, rd_ite, rd_wr_same, rd_wr_ne, rd_bump_same, rd_bump_ne, rd_bump64_same, rd_bump64_ne, setOdBit_same, setOdBit_ne, signal_rd, powerNote_rd', record_rd, record_class, ite_self, setMem_rd, setMark_rd, setPow_rd, setDmem_rd, rd_with_pending, rd_with_clk, rd_with_odb, rd_with_tick, rd_with_host, rd_with_flit, rd_with_falt, rd_with_trc, rd_with_cores, rd_with_ldr, rd_with_clok, rd_with_vest, rd_with_vid, rd_with_pow, rd_with_boot, rd_with_gq, rd_with_dbg, rd_with_pins]
      · simp (disch := (first | assumption | decide | (simp only [FaultClass.corrected, OD.ADDR_CLASHES, OD.CLASS_COUNTS, OD.FAULTS_LOST, OD.RX_DISCARDS, OD.RX_TELEGRAMS]; omega))) only [hb, rd_ite, rd_wr_same, rd_wr_ne, rd_bump_same, rd_bump_ne, rd_bump64_same, rd_bump64_ne, setOdBit_same, setOdBit_ne, signal_rd, powerNote_rd', record_rd, record_class, ite_self, setMem_rd, setMark_rd, setPow_rd, setDmem_rd, rd_with_pending, rd_with_clk, rd_with_odb, rd_with_tick, rd_with_host, rd_with_flit, rd_with_falt, rd_with_trc, rd_with_cores, rd_with_ldr, rd_with_clok, rd_with_vest, rd_with_vid, rd_with_pow, rd_with_boot, rd_with_gq, rd_with_dbg, rd_with_pins]

theorem mailWaits_of {s t : State} (h : t.gq = s.gq) (h2 : t.clk = s.clk) (n : Nat) : t.mailWaits n = s.mailWaits n := by
  unfold State.mailWaits; rw [h, h2]

theorem setBoot_rd (s : State) (b : Boot) (k : Nat) : (s.setBoot b).rd k = s.rd k := rfl

theorem flashByte_set (s : State) (a : Nat) (b : Byte) (j : Nat) :
    (s.setFlashByte a b).flashByte j = if j = a then b else s.flashByte j := by
  unfold State.setFlashByte
  by_cases q : (inSlots a && Config.bootSel) = true
  · rw [if_pos q]
    unfold State.flashByte State.setBoot
    dsimp only
    rw [Sparse.get_put]
    by_cases e : j = a
    · subst e; rw [if_pos q, if_pos rfl, if_pos rfl]
    · rw [if_neg e, if_neg e]
  · rw [if_neg q]
    unfold State.flashByte State.setBoot
    dsimp only
    rw [Sparse.get_put]
    by_cases e : j = a
    · subst e; rw [if_neg q, if_pos rfl, if_pos rfl]
    · rw [if_neg e, if_neg e]

theorem flashAnd_byte (bs : List Byte) : ∀ (s : State) (a j : Nat), (s.flashAnd a bs).flashByte j =
    if a ≤ j ∧ j < a + bs.length then s.flashByte j &&& bs.getD (j - a) 0#8 else s.flashByte j := by
  induction bs with
  | nil => intro s a j; rw [if_neg (by simp only [List.length_nil]; omega)]; rfl
  | cons b bs ih =>
    intro s a j
    show ((s.setFlashByte a (s.flashByte a &&& b)).flashAnd (a + 1) bs).flashByte j = _
    rw [ih, flashByte_set]
    by_cases e : j = a
    · subst e; rw [if_neg (by omega), if_pos rfl, if_pos (by simp)]; simp
    · rw [if_neg e]
      by_cases h : a + 1 ≤ j ∧ j < a + 1 + bs.length
      · rw [if_pos h, if_pos (by simp; omega), show j - a = (j - (a + 1)) + 1 from by omega]; rfl
      · rw [if_neg h, if_neg (by simp; omega)]

theorem flashErase_byte (s : State) (lo hi j : Nat) : (s.flashErase lo hi).flashByte j =
    if lo ≤ j ∧ j < hi then 0xFF#8 else s.flashByte j := by
  unfold State.flashByte State.flashErase State.setBoot
  dsimp only
  rw [Sparse.get_clear, Sparse.get_clear]
  by_cases q : (inSlots j && Config.bootSel) = true
  · rw [if_pos q, if_pos q]
    by_cases h : lo ≤ j ∧ j < hi
    · rw [if_pos h, if_pos (by simp only [h, Bool.and_assoc, q]; simp)]
    · rw [if_neg h, if_neg (by simp [h])]
  · rw [if_neg q, if_neg q]
    by_cases h : lo ≤ j ∧ j < hi
    · rw [if_pos h, if_pos (by simp only [h, Bool.and_assoc, Bool.not_eq_true _ ▸ q]; simp)]
    · rw [if_neg h, if_neg (by simp [h])]

theorem setFlashByte_rd (s : State) (a : Nat) (b : Byte) (k : Nat) : (s.setFlashByte a b).rd k = s.rd k := by
  unfold State.setFlashByte; split <;> rfl

theorem flashAnd_rd (bs : List Byte) : ∀ (s : State) (a k : Nat), (s.flashAnd a bs).rd k = s.rd k := by
  induction bs with
  | nil => intros; rfl
  | cons b bs ih => intro s a k; show ((s.setFlashByte a _).flashAnd (a + 1) bs).rd k = _; rw [ih, setFlashByte_rd]

theorem flashErase_rd (s : State) (lo hi k : Nat) : (s.flashErase lo hi).rd k = s.rd k := rfl

theorem setFlashByte_boot (s : State) (a : Nat) (b : Byte) : ∃ f o, (s.setFlashByte a b).boot = { s.boot with flash := f, offFlash := o } := by
  unfold State.setFlashByte; split
  · exact ⟨_, _, rfl⟩
  · exact ⟨_, _, rfl⟩

theorem flashAnd_boot (bs : List Byte) : ∀ (s : State) (a : Nat), ∃ f o, (s.flashAnd a bs).boot = { s.boot with flash := f, offFlash := o } := by
  induction bs with
  | nil => intro s a; exact ⟨s.boot.flash, s.boot.offFlash, rfl⟩
  | cons b bs ih =>
    intro s a
    obtain ⟨f, o, h⟩ := ih (s.setFlashByte a (s.flashByte a &&& b)) (a + 1)
    obtain ⟨f2, o2, h2⟩ := setFlashByte_boot s a (s.flashByte a &&& b)
    exact ⟨f, o, h.trans (by rw [h2])⟩

theorem cutCommit_facts (s : State) (h : s.rd OD.PERSIST_STATE = 2) :
    s.cutCommit.rd OD.PERSIST_STATE = (if s.rd OD.PERSIST_BANK = 0 then 0 else 1) ∧ s.cutCommit.rd OD.PERSIST_DIRTY = 1 ∧
    (∀ k, k ≠ OD.PERSIST_STATE → k ≠ OD.PERSIST_DIRTY → s.cutCommit.rd k = s.rd k) ∧ s.cutCommit.boot = { s.boot with snap := [] } := by
  have e : s.cutCommit = ((s.wr OD.PERSIST_STATE (if s.rd OD.PERSIST_BANK = 0 then 0 else 1)).wr OD.PERSIST_DIRTY 1).setBoot
      { s.boot with snap := [] } := by unfold State.cutCommit; rw [if_neg (by simp [h])]; rfl
  rw [e]
  refine ⟨?_, ?_, fun k a b => ?_, rfl⟩
  · rw [setBoot_rd]; simp (disch := (first | assumption | decide)) only [rd_ite, rd_wr_same, rd_wr_ne, rd_bump_same, rd_bump_ne, rd_bump64_same, rd_bump64_ne, setOdBit_same, setOdBit_ne, signal_rd, powerNote_rd', record_rd, record_class, ite_self, setMem_rd, setMark_rd, setPow_rd, setDmem_rd, rd_with_pending, rd_with_clk, rd_with_odb, rd_with_tick, rd_with_host, rd_with_flit, rd_with_falt, rd_with_trc, rd_with_cores, rd_with_ldr, rd_with_clok, rd_with_vest, rd_with_vid, rd_with_pow, rd_with_boot, rd_with_gq, rd_with_dbg, rd_with_pins]
  · rw [setBoot_rd]; simp (disch := (first | assumption | decide)) only [rd_ite, rd_wr_same, rd_wr_ne, rd_bump_same, rd_bump_ne, rd_bump64_same, rd_bump64_ne, setOdBit_same, setOdBit_ne, signal_rd, powerNote_rd', record_rd, record_class, ite_self, setMem_rd, setMark_rd, setPow_rd, setDmem_rd, rd_with_pending, rd_with_clk, rd_with_odb, rd_with_tick, rd_with_host, rd_with_flit, rd_with_falt, rd_with_trc, rd_with_cores, rd_with_ldr, rd_with_clok, rd_with_vest, rd_with_vid, rd_with_pow, rd_with_boot, rd_with_gq, rd_with_dbg, rd_with_pins]
  · rw [setBoot_rd]; simp (disch := (first | assumption | decide)) only [rd_ite, rd_wr_same, rd_wr_ne, rd_bump_same, rd_bump_ne, rd_bump64_same, rd_bump64_ne, setOdBit_same, setOdBit_ne, signal_rd, powerNote_rd', record_rd, record_class, ite_self, setMem_rd, setMark_rd, setPow_rd, setDmem_rd, rd_with_pending, rd_with_clk, rd_with_odb, rd_with_tick, rd_with_host, rd_with_flit, rd_with_falt, rd_with_trc, rd_with_cores, rd_with_ldr, rd_with_clok, rd_with_vest, rd_with_vid, rd_with_pow, rd_with_boot, rd_with_gq, rd_with_dbg, rd_with_pins]

theorem foldN_pres (Q : State → State → Prop) (hr : ∀ s, Q s s) (ht : ∀ a b c, Q a b → Q b c → Q a c) (f : State → Nat → State)
    (h : ∀ s i, Q s (f s i)) (n : Nat) (s : State) : Q s (foldN n f s) := by
  unfold foldN
  induction n with
  | zero => exact hr s
  | succ m ih => rw [foldl_last]; exact ht _ _ _ ih (h _ _)

theorem wrBytes_same (s : State) (k : Nat) (bs : List Byte) : (s.wrBytes k bs).rdBytes k = bs := Sparse.get_put_same ..

theorem wrBytes_ne (s : State) {k j : Nat} (h : j ≠ k) (bs : List Byte) : (s.wrBytes k bs).rdBytes j = s.rdBytes j := Sparse.get_put_ne (fun _ => []) _ h _

theorem PERSIST_ENTRY_inj {i j : Nat} (h : i ≠ j) : OD.PERSIST_ENTRY i ≠ OD.PERSIST_ENTRY j := by (try simp only [odKey, OD.PERSIST_ENTRY] at *); omega

theorem flashBytes_of {s t : State} (h : t.boot = s.boot) (a n : Nat) : t.flashBytes a n = s.flashBytes a n := by
  unfold State.flashBytes State.flashByte; rw [h]

theorem bankData_of {s t : State} (h : t.boot = s.boot) (b n : Nat) : t.bankData b n = s.bankData b n := by
  unfold State.bankData State.bankLen; rw [flashBytes_of h, flashBytes_of h]

theorem loadEntries (b : Nat) (n : Nat) (s : State) :
    let t := foldN n (fun s i => s.wrBytes (OD.PERSIST_ENTRY i) (s.bankData b i)) s
    (∀ i, i < n → t.rdBytes (OD.PERSIST_ENTRY i) = s.bankData b i) ∧ (∀ k, t.rd k = s.rd k) ∧ t.boot = s.boot ∧ t.pow = s.pow := by
  induction n with
  | zero => exact ⟨fun i h => absurd h (by omega), fun k => rfl, rfl, rfl⟩
  | succ m ih =>
    intro t
    have e : t = (foldN m (fun s i => s.wrBytes (OD.PERSIST_ENTRY i) (s.bankData b i)) s).wrBytes (OD.PERSIST_ENTRY m)
        ((foldN m (fun s i => s.wrBytes (OD.PERSIST_ENTRY i) (s.bankData b i)) s).bankData b m) := by
      show foldN (m + 1) _ s = _
      rw [foldN_succ]
    obtain ⟨h1, h2, h3, h4⟩ := ih
    rw [e]
    refine ⟨fun i hi => ?_, h2, h3, h4⟩
    by_cases q : i = m
    · subst q; rw [wrBytes_same]; exact bankData_of h3 _ _
    · rw [wrBytes_ne _ (PERSIST_ENTRY_inj q)]; exact h1 i (by omega)

theorem loadEntries' (b : Nat) (n : Nat) (s : State) : ∃ t, foldN n (fun s i => s.wrBytes (OD.PERSIST_ENTRY i) (s.bankData b i)) s = t ∧
    (∀ i, i < n → t.rdBytes (OD.PERSIST_ENTRY i) = s.bankData b i) ∧ (∀ k, t.rd k = s.rd k) ∧ t.boot = s.boot ∧ t.pow = s.pow :=
  ⟨_, rfl, loadEntries b n s⟩

theorem bankGen_of {s t : State} (h : t.boot = s.boot) (b : Nat) : t.bankGen b = s.bankGen b := by
  unfold State.bankGen; rw [flashBytes_of h]

theorem foldFlash_boot (b : Nat) (ps : List (Nat × List Byte)) : ∀ u : State, ∃ f o,
    (ps.foldl (fun s' x => s'.flashAnd (b + x.1) x.2) u).boot = { u.boot with flash := f, offFlash := o } := by
  induction ps with
  | nil => intro u; exact ⟨u.boot.flash, u.boot.offFlash, rfl⟩
  | cons p ps ih =>
    intro u
    obtain ⟨f, o, h⟩ := ih (u.flashAnd (b + p.1) p.2)
    obtain ⟨f2, o2, h2⟩ := flashAnd_boot p.2 u (b + p.1)
    exact ⟨f, o, h.trans (by rw [h2])⟩

theorem bankParts_in (gen commits : Nat) (e : Nat → List Byte) (h : ∀ n, (e n).length ≤ 4096) :
    ∀ x ∈ bankParts gen commits e, x.1 + x.2.length ≤ 0x30000 := by
  intro x hx
  unfold bankParts at hx
  rcases List.mem_cons.1 hx with rfl | hx
  · simp [leBytes_length, zeros]
  · obtain ⟨n, hn, hx⟩ := List.mem_flatMap.1 hx
    have hn := List.mem_range.1 hn
    simp only [List.mem_cons, List.not_mem_nil, or_false] at hx
    rcases hx with rfl | rfl
    · simp [leBytes_length, zeros]; omega
    · have := h n; dsimp only; omega

theorem commitRecord_length (s : State) (b g : Nat) : (s.commitRecord b g).length = 64 := by
  unfold State.commitRecord
  simp [leBytes_length, zeros]

theorem foldFlash_rd (b k : Nat) (ps : List (Nat × List Byte)) : ∀ u : State,
    (ps.foldl (fun s' x => s'.flashAnd (b + x.1) x.2) u).rd k = u.rd k := by
  induction ps with
  | nil => intro u; rfl
  | cons p ps ih => intro u; rw [List.foldl_cons, ih, flashAnd_rd]

theorem foldFlash_byte (b j : Nat) (ps : List (Nat × List Byte)) (h : ∀ x ∈ ps, ¬ (b + x.1 ≤ j ∧ j < b + x.1 + x.2.length)) : ∀ u : State,
    (ps.foldl (fun s' x => s'.flashAnd (b + x.1) x.2) u).flashByte j = u.flashByte j := by
  induction ps with
  | nil => intro u; rfl
  | cons p ps ih =>
    intro u; rw [List.foldl_cons, ih (fun x hx => h x (List.mem_cons_of_mem _ hx)), flashAnd_byte, if_neg (h p (List.mem_cons_self ..))]

theorem bootNext_facts (s : State) (l : List Nat) :
    (l = [] → (s.bootNext l).boot = { s.boot with phase := .gaveUp } ∧
      (s.bootNext l).rd (OD.CLASS_COUNTS FaultClass.device) = min (s.rd (OD.CLASS_COUNTS FaultClass.device) + 1) 0xFFFFFFFF) ∧
    (l ≠ [] → s.bootNext l = s.setBoot { s.boot with phase := .verify l }) ∧
    (∀ k, k ≠ OD.FAULTS_LOST → k ≠ OD.TRANSITION_US → k ≠ OD.CLASS_COUNTS FaultClass.device → (s.bootNext l).rd k = s.rd k) ∧
    Keep [.od, .host, .falt, .pow, .boot] s (s.bootNext l) ∧ (s.bootNext l).newels = s.newels := by
  have hk := bootNext_keep s l (Keep.rfl' s) (within_self _)
  refine ⟨fun h => ?_, fun h => if_neg h, fun k a b c => ?_, hk, hk.part .newels⟩
  · have e : s.bootNext l = ((s.setBoot { s.boot with phase := .gaveUp }).record FaultClass.device 64 0 OD.BOOT_STATUS 0 0).powerNote := if_pos h
    rw [e]
    refine ⟨?_, ?_⟩
    · rw [(powerNote_keep _ (Keep.rfl' _) (within_self _)).part .boot]
      exact (record_keep _ _ _ _ _ _ _ (Keep.rfl' _) (within_self _)).part .boot
    · rw [powerNote_rd' _ _ (by (first | assumption | decide | (simp only [FaultClass.device, OD.BOOT_STATUS, OD.CLASS_COUNTS, OD.FAULTS_LOST, OD.TRANSITION_US]; omega))), record_class _ _ _ _ _ _ _ (by decide)]; rfl
  · unfold State.bootNext
    split
    · unfold State.bootFails; dsimp only; rw [powerNote_rd' _ _ b, record_rd _ _ _ _ _ _ _ a c]; rfl
    · rfl

theorem commitWritten_is (s : State) : ∃ w : State, (∀ k, w.rd k = s.rd k) ∧
        ((∀ n, (Sparse.get (fun _ => []) s.boot.snap (OD.PERSIST_ENTRY n)).length ≤ 4096) →
          ∀ a, a < bankBase s.boot.bank ∨ bankBase s.boot.bank + 0x100000 ≤ a → w.flashByte a = s.flashByte a) ∧
        w.boot.bank = s.boot.bank ∧
        s.commitWritten = (((((w.wr OD.PERSIST_STATE 1).wr OD.PERSIST_BANK (s.boot.bank + 1)).wr OD.PERSIST_GENERATION
          (if s.rd OD.PERSIST_BANK = 0 then 1 else (s.rd OD.PERSIST_GENERATION + 1) % 2 ^ 32)).wr OD.PERSIST_COMMITS
          ((s.rd OD.PERSIST_COMMITS + 1) % 2 ^ 32)).wr OD.PERSIST_RESULT 1).setBoot { w.boot with snap := [] } := by
  unfold State.commitWritten
  simp only [decide_eq_true_eq]
  generalize (if s.rd OD.PERSIST_BANK = 0 then 1 else (s.rd OD.PERSIST_GENERATION + 1) % 2 ^ 32) = gen
  generalize (s.rd OD.PERSIST_COMMITS + 1) % 2 ^ 32 = commits
  generalize hw : State.flashAnd (List.foldl _ _ _) _ _ = w
  obtain ⟨f, o, hf⟩ := foldFlash_boot (bankBase s.boot.bank)
    (bankParts gen commits (fun n => Sparse.get (fun _ => []) s.boot.snap (OD.PERSIST_ENTRY n)))
    ((s.flashErase (bankBase s.boot.bank) (bankBase s.boot.bank + 0x30000)).flashErase (bankBase s.boot.bank + 0xF0000) (bankBase s.boot.bank + 0x100000))
  have hwb : w.boot.bank = s.boot.bank := by
    rw [← hw]
    obtain ⟨f2, o2, hf2⟩ := flashAnd_boot (State.commitRecord ((bankParts gen commits (fun n => Sparse.get (fun _ => []) s.boot.snap (OD.PERSIST_ENTRY n))).foldl
        (fun s' x => s'.flashAnd (bankBase s.boot.bank + x.1) x.2)
        ((s.flashErase (bankBase s.boot.bank) (bankBase s.boot.bank + 0x30000)).flashErase (bankBase s.boot.bank + 0xF0000) (bankBase s.boot.bank + 0x100000)))
        (bankBase s.boot.bank) gen) ((bankParts gen commits (fun n => Sparse.get (fun _ => []) s.boot.snap (OD.PERSIST_ENTRY n))).foldl
        (fun s' x => s'.flashAnd (bankBase s.boot.bank + x.1) x.2)
        ((s.flashErase (bankBase s.boot.bank) (bankBase s.boot.bank + 0x30000)).flashErase (bankBase s.boot.bank + 0xF0000) (bankBase s.boot.bank + 0x100000))) (bankBase s.boot.bank + 0xF0000)
    rw [hf2, hf]; rfl
  refine ⟨w, fun k => ?_, fun hl a ha => ?_, ?_, ?_⟩
  · rw [← hw, flashAnd_rd, foldFlash_rd]; rfl
  · rw [← hw, flashAnd_byte, if_neg, foldFlash_byte, flashErase_byte, if_neg (by omega), flashErase_byte, if_neg (by omega)]
    · intro x hx hq
      have := bankParts_in gen commits _ hl x hx
      omega
    · have := commitRecord_length ((bankParts gen commits (fun n => Sparse.get (fun _ => []) s.boot.snap (OD.PERSIST_ENTRY n))).foldl
        (fun s' x => s'.flashAnd (bankBase s.boot.bank + x.1) x.2)
        ((s.flashErase (bankBase s.boot.bank) (bankBase s.boot.bank + 0x30000)).flashErase (bankBase s.boot.bank + 0xF0000) (bankBase s.boot.bank + 0x100000)))
        (bankBase s.boot.bank) gen
      rw [this]; omega
  · exact hwb
  · conv_rhs => rw [← hwb]
    have hb : ∀ (x : State) (k v : Nat), (x.wr k v).boot = x.boot := fun _ _ _ => rfl
    simp only [hb]

theorem persistLoad_none (u : State) : u.chooseBank = none → u.persistLoad = u.record FaultClass.corrected 64 0 OD.PERSIST_STATE 0 0 := by
  intro h; unfold State.persistLoad; rw [h]

theorem persistLoad_is (u : State) (b : Nat) (h : u.chooseBank = some b) : ∃ v : State,
    u.persistLoad = (((v.wr OD.PERSIST_STATE 1).wr OD.PERSIST_BANK (b + 1)).wr OD.PERSIST_GENERATION (u.bankGen b)).wr OD.PERSIST_COMMITS
      (fieldAt (u.flashBytes (bankBase b) 64) 12 4) ∧
    (∀ i, i < 32 → v.rdBytes (OD.PERSIST_ENTRY i) = u.bankData b i) ∧ (∀ k, v.rd k = u.rd k) := by
  obtain ⟨v, hv, l1, l2, l3, l4⟩ := loadEntries' b 32 u
  have hg : v.bankGen b = u.bankGen b := by unfold State.bankGen; rw [flashBytes_of l3]
  have hf : v.flashBytes (bankBase b) 64 = u.flashBytes (bankBase b) 64 := flashBytes_of l3 _ _
  refine ⟨v, ?_, l1, l2⟩
  unfold State.persistLoad; rw [h]
  dsimp only
  rw [hv]
  rw [flashBytes_of (s := v) (t := State.wr (State.wr (State.wr v _ _) _ _) _ _) rfl]
  rw [hg, hf]

theorem persistLoad_some (u : State) : ∀ b, u.chooseBank = some b → u.persistLoad.rd OD.PERSIST_STATE = 1 ∧ u.persistLoad.rd OD.PERSIST_BANK = b + 1 ∧
    u.persistLoad.rd OD.PERSIST_GENERATION = u.bankGen b ∧ (∀ n, n < 32 → u.persistLoad.rdBytes (OD.PERSIST_ENTRY n) = u.bankData b n) := by
  intro b h
  obtain ⟨v, e, l1, l2⟩ := persistLoad_is u b h
  rw [e]
  exact ⟨by simp (disch := (first | assumption | decide | (simp only [OD.PERSIST_BANK, OD.PERSIST_ENTRY, OD.PERSIST_GENERATION, OD.PERSIST_STATE]; omega))) only [rd_ite, rd_wr_same, rd_wr_ne, rd_bump_same, rd_bump_ne, rd_bump64_same, rd_bump64_ne, setOdBit_same, setOdBit_ne, signal_rd, powerNote_rd', record_rd, record_class, ite_self, setMem_rd, setMark_rd, setPow_rd, setDmem_rd, rd_with_pending, rd_with_clk, rd_with_odb, rd_with_tick, rd_with_host, rd_with_flit, rd_with_falt, rd_with_trc, rd_with_cores, rd_with_ldr, rd_with_clok, rd_with_vest, rd_with_vid, rd_with_pow, rd_with_boot, rd_with_gq, rd_with_dbg, rd_with_pins], by simp (disch := (first | assumption | decide | (simp only [OD.PERSIST_BANK, OD.PERSIST_ENTRY, OD.PERSIST_GENERATION, OD.PERSIST_STATE]; omega))) only [rd_ite, rd_wr_same, rd_wr_ne, rd_bump_same, rd_bump_ne, rd_bump64_same, rd_bump64_ne, setOdBit_same, setOdBit_ne, signal_rd, powerNote_rd', record_rd, record_class, ite_self, setMem_rd, setMark_rd, setPow_rd, setDmem_rd, rd_with_pending, rd_with_clk, rd_with_odb, rd_with_tick, rd_with_host, rd_with_flit, rd_with_falt, rd_with_trc, rd_with_cores, rd_with_ldr, rd_with_clok, rd_with_vest, rd_with_vid, rd_with_pow, rd_with_boot, rd_with_gq, rd_with_dbg, rd_with_pins], by simp (disch := (first | assumption | decide | (simp only [OD.PERSIST_BANK, OD.PERSIST_ENTRY, OD.PERSIST_GENERATION, OD.PERSIST_STATE]; omega))) only [rd_ite, rd_wr_same, rd_wr_ne, rd_bump_same, rd_bump_ne, rd_bump64_same, rd_bump64_ne, setOdBit_same, setOdBit_ne, signal_rd, powerNote_rd', record_rd, record_class, ite_self, setMem_rd, setMark_rd, setPow_rd, setDmem_rd, rd_with_pending, rd_with_clk, rd_with_odb, rd_with_tick, rd_with_host, rd_with_flit, rd_with_falt, rd_with_trc, rd_with_cores, rd_with_ldr, rd_with_clok, rd_with_vest, rd_with_vid, rd_with_pow, rd_with_boot, rd_with_gq, rd_with_dbg, rd_with_pins], l1⟩

theorem persistLoad_rd (u : State) {k : Nat} (a1 : k ≠ OD.FAULTS_LOST) (a2 : k ≠ OD.CLASS_COUNTS FaultClass.corrected) (a3 : k ≠ OD.PERSIST_STATE)
    (a4 : k ≠ OD.PERSIST_BANK) (a5 : k ≠ OD.PERSIST_GENERATION) (a6 : k ≠ OD.PERSIST_COMMITS) : u.persistLoad.rd k = u.rd k := by
  cases h : u.chooseBank with
  | none => rw [persistLoad_none u h]; simp (disch := (first | assumption | decide | (simp only [FaultClass.corrected, OD.CLASS_COUNTS, OD.FAULTS_LOST, OD.PERSIST_BANK, OD.PERSIST_COMMITS, OD.PERSIST_GENERATION, OD.PERSIST_STATE]; omega))) only [rd_ite, rd_wr_same, rd_wr_ne, rd_bump_same, rd_bump_ne, rd_bump64_same, rd_bump64_ne, setOdBit_same, setOdBit_ne, signal_rd, powerNote_rd', record_rd, record_class, ite_self, setMem_rd, setMark_rd, setPow_rd, setDmem_rd, rd_with_pending, rd_with_clk, rd_with_odb, rd_with_tick, rd_with_host, rd_with_flit, rd_with_falt, rd_with_trc, rd_with_cores, rd_with_ldr, rd_with_clok, rd_with_vest, rd_with_vid, rd_with_pow, rd_with_boot, rd_with_gq, rd_with_dbg, rd_with_pins]
  | some b =>
    obtain ⟨v, e, l1, l2⟩ := persistLoad_is u b h
    rw [e]; simp (disch := (first | assumption | decide | (simp only [FaultClass.corrected, OD.CLASS_COUNTS, OD.FAULTS_LOST, OD.PERSIST_BANK, OD.PERSIST_COMMITS, OD.PERSIST_GENERATION, OD.PERSIST_STATE]; omega))) only [rd_ite, rd_wr_same, rd_wr_ne, rd_bump_same, rd_bump_ne, rd_bump64_same, rd_bump64_ne, setOdBit_same, setOdBit_ne, signal_rd, powerNote_rd', record_rd, record_class, ite_self, setMem_rd, setMark_rd, setPow_rd, setDmem_rd, rd_with_pending, rd_with_clk, rd_with_odb, rd_with_tick, rd_with_host, rd_with_flit, rd_with_falt, rd_with_trc, rd_with_cores, rd_with_ldr, rd_with_clok, rd_with_vest, rd_with_vid, rd_with_pow, rd_with_boot, rd_with_gq, rd_with_dbg, rd_with_pins]; exact l2 k

theorem powerUp_pow (u : State) : ∃ m a, u.powerUp.pow = { u.pow with moving := m, await := a } := by
  unfold State.powerUp
  split
  · exact ⟨u.pow.moving, u.pow.await, rfl⟩
  · dsimp only; unfold State.setTarget; dsimp only
    generalize hq : ((u.wr OD.DOMAIN_REQ _).wr OD.GATE _).wr OD.DOMAIN_FAIL _ = q
    have e : q.pow = u.pow := by rw [← hq]; rfl
    obtain ⟨m, h⟩ := powerNote_pow ({ q with pow := { q.pow with await := false } })
    exact ⟨m, false, h.trans (by dsimp only; rw [e])⟩

theorem powerUp_rd (u : State) (k : Nat) (q1 : k ≠ OD.TRANSITION_US) (q2 : k ≠ OD.DOMAIN_REQ) (q3 : k ≠ OD.GATE) (q4 : k ≠ OD.DOMAIN_FAIL) :
    u.powerUp.rd k = u.rd k := by
  unfold State.powerUp
  split
  · rfl
  · dsimp only; rw [setTarget_rd' _ _ _ _ q1, if_neg q4, if_neg q3, if_neg q2]

theorem nextSecond_facts (s : State) :
    s.nextSecond.rd OD.CAL_NOW = (if bit (s.rd OD.CAL_STATE) 1 ∨ s.rd OD.CAL_NOW = dateEnd then s.rd OD.CAL_NOW else nextDate (s.rd OD.CAL_NOW)) ∧
    (bit (s.rd OD.CAL_STATE) 1 = false → s.rd OD.CAL_NOW = dateEnd → bit (s.nextSecond.rd OD.CAL_STATE) 1 = true) ∧
    (∀ k, k ≠ OD.CAL_NOW → k ≠ OD.CAL_STATE → s.nextSecond.rd k = s.rd k) := by
  unfold State.nextSecond
  refine ⟨?_, fun q1 q2 => ?_, fun k a b => ?_⟩
  · by_cases q1 : bit (s.rd OD.CAL_STATE) 1 = true
    · rw [if_pos q1, if_pos (.inl q1)]
    · rw [if_neg q1]
      by_cases q2 : s.rd OD.CAL_NOW = dateEnd
      · rw [if_pos q2, if_pos (.inr q2)]; simp (disch := (first | assumption | decide)) only [rd_ite, rd_wr_same, rd_wr_ne, rd_bump_same, rd_bump_ne, rd_bump64_same, rd_bump64_ne, setOdBit_same, setOdBit_ne, signal_rd, powerNote_rd', record_rd, record_class, ite_self, setMem_rd, setMark_rd, setPow_rd, setDmem_rd, rd_with_pending, rd_with_clk, rd_with_odb, rd_with_tick, rd_with_host, rd_with_flit, rd_with_falt, rd_with_trc, rd_with_cores, rd_with_ldr, rd_with_clok, rd_with_vest, rd_with_vid, rd_with_pow, rd_with_boot, rd_with_gq, rd_with_dbg, rd_with_pins]
      · rw [if_neg q2, if_neg (by simp [q1, q2])]; simp (disch := (first | assumption | decide)) only [rd_ite, rd_wr_same, rd_wr_ne, rd_bump_same, rd_bump_ne, rd_bump64_same, rd_bump64_ne, setOdBit_same, setOdBit_ne, signal_rd, powerNote_rd', record_rd, record_class, ite_self, setMem_rd, setMark_rd, setPow_rd, setDmem_rd, rd_with_pending, rd_with_clk, rd_with_odb, rd_with_tick, rd_with_host, rd_with_flit, rd_with_falt, rd_with_trc, rd_with_cores, rd_with_ldr, rd_with_clok, rd_with_vest, rd_with_vid, rd_with_pow, rd_with_boot, rd_with_gq, rd_with_dbg, rd_with_pins]
  · rw [if_neg (by simp [q1]), if_pos q2, setOdBit_same]; rw [bit_setBit, if_pos rfl]
  · split
    · rfl
    · split <;> simp (disch := (first | assumption | decide)) only [rd_ite, rd_wr_same, rd_wr_ne, rd_bump_same, rd_bump_ne, rd_bump64_same, rd_bump64_ne, setOdBit_same, setOdBit_ne, signal_rd, powerNote_rd', record_rd, record_class, ite_self, setMem_rd, setMark_rd, setPow_rd, setDmem_rd, rd_with_pending, rd_with_clk, rd_with_odb, rd_with_tick, rd_with_host, rd_with_flit, rd_with_falt, rd_with_trc, rd_with_cores, rd_with_ldr, rd_with_clok, rd_with_vest, rd_with_vid, rd_with_pow, rd_with_boot, rd_with_gq, rd_with_dbg, rd_with_pins]

theorem wake_rd3 (s : State) : (∀ k, k ≠ OD.WAKE_SOURCE → k ≠ OD.DOMAIN_REQ → k ≠ OD.GATE → k ≠ OD.DOMAIN_FAIL → k ≠ OD.TRANSITION_US → (s.wake 3).rd k = s.rd k) ∧
    (bit (s.rd OD.POWR_WAKE_ENABLE) 3 = true → bit ((s.wake 3).rd OD.WAKE_SOURCE) 3 = true) := by
  unfold State.wake
  by_cases q : bit (s.rd OD.POWR_WAKE_ENABLE) 3 = true
  · rw [if_neg (by simp [q])]
    dsimp only
    generalize hu : (if (s.setOdBit OD.WAKE_SOURCE 3 true).linkUp = true then s.setOdBit OD.WAKE_SOURCE 3 true else
        ({ (s.setOdBit OD.WAKE_SOURCE 3 true) with pow := { (s.setOdBit OD.WAKE_SOURCE 3 true).pow with wakeLow := true } } : State)) = u
    have hur : ∀ k, u.rd k = (s.setOdBit OD.WAKE_SOURCE 3 true).rd k := by intro k; rw [← hu]; split <;> rfl
    have hp : ∀ v k, k ≠ OD.DOMAIN_REQ → k ≠ OD.GATE → k ≠ OD.DOMAIN_FAIL → k ≠ OD.TRANSITION_US → (u.powerOrder v).2.rd k = u.rd k := by
      intro v k a b c d
      unfold State.powerOrder
      split
      · rfl
      split
      · rfl
      split
      · rfl
      dsimp only
      split
      · rfl
      · rw [setTarget_rd' _ _ _ _ d, if_neg c, if_neg b, if_neg a]
    refine ⟨fun k a b c d e => ?_, fun _ => ?_⟩
    · have : (s.setOdBit OD.WAKE_SOURCE 3 true).rd k = s.rd k := setOdBit_ne _ a _ _
      split <;> split <;> simp only [signal_rd, hp _ _ b c d e, hur, this]
    · have : bit ((s.setOdBit OD.WAKE_SOURCE 3 true).rd OD.WAKE_SOURCE) 3 = true := by rw [setOdBit_same, bit_setBit, if_pos rfl]
      have hp := fun v => hp v OD.WAKE_SOURCE (by (first | assumption | decide)) (by (first | assumption | decide)) (by (first | assumption | decide)) (by (first | assumption | decide))
      split <;> split <;> simp only [signal_rd, hp, hur, this]
  · rw [if_pos (by simp [q])]
    exact ⟨fun _ _ _ _ _ _ => rfl, fun h => absurd h q⟩

theorem alarmCheck_facts (s : State) :
    s.alarmCheck.rd OD.CAL_NOW = s.rd OD.CAL_NOW ∧ bit (s.alarmCheck.rd OD.CAL_STATE) 1 = bit (s.rd OD.CAL_STATE) 1 ∧
    (s.flag OD.ALARM_ENABLE = true → dateOrder (s.rd OD.CAL_ALARM) ≤ dateOrder (s.rd OD.CAL_NOW) →
      s.alarmCheck.rd OD.ALARM_ENABLE = 0 ∧ bit (s.alarmCheck.rd OD.CAL_STATE) 2 = true ∧
      (bit (s.rd OD.POWR_WAKE_ENABLE) 3 = true → bit (s.alarmCheck.rd OD.WAKE_SOURCE) 3 = true)) ∧
    (¬ (s.flag OD.ALARM_ENABLE = true ∧ dateOrder (s.rd OD.CAL_ALARM) ≤ dateOrder (s.rd OD.CAL_NOW)) → s.alarmCheck = s) ∧ True := by
  by_cases q : s.flag OD.ALARM_ENABLE = true ∧ dateOrder (s.rd OD.CAL_ALARM) ≤ dateOrder (s.rd OD.CAL_NOW)
  · have e : s.alarmCheck = ((s.setOdBit OD.CAL_STATE 2 true).wr OD.ALARM_ENABLE 0).wake 3 := if_pos q
    obtain ⟨w1, w2⟩ := wake_rd3 ((s.setOdBit OD.CAL_STATE 2 true).wr OD.ALARM_ENABLE 0)
    rw [e]
    refine ⟨?_, ?_, fun _ _ => ⟨?_, ?_, fun h => w2 ?_⟩, fun h => absurd q h, trivial⟩
    · rw [w1 _ (by (first | assumption | decide)) (by (first | assumption | decide)) (by (first | assumption | decide)) (by (first | assumption | decide)) (by (first | assumption | decide))]; simp (disch := (first | assumption | decide)) only [rd_ite, rd_wr_same, rd_wr_ne, rd_bump_same, rd_bump_ne, rd_bump64_same, rd_bump64_ne, setOdBit_same, setOdBit_ne, signal_rd, powerNote_rd', record_rd, record_class, ite_self, setMem_rd, setMark_rd, setPow_rd, setDmem_rd, rd_with_pending, rd_with_clk, rd_with_odb, rd_with_tick, rd_with_host, rd_with_flit, rd_with_falt, rd_with_trc, rd_with_cores, rd_with_ldr, rd_with_clok, rd_with_vest, rd_with_vid, rd_with_pow, rd_with_boot, rd_with_gq, rd_with_dbg, rd_with_pins]
    · rw [w1 _ (by (first | assumption | decide)) (by (first | assumption | decide)) (by (first | assumption | decide)) (by (first | assumption | decide)) (by (first | assumption | decide))]; simp (disch := (first | assumption | decide)) only [rd_ite, rd_wr_same, rd_wr_ne, rd_bump_same, rd_bump_ne, rd_bump64_same, rd_bump64_ne, setOdBit_same, setOdBit_ne, signal_rd, powerNote_rd', record_rd, record_class, ite_self, setMem_rd, setMark_rd, setPow_rd, setDmem_rd, rd_with_pending, rd_with_clk, rd_with_odb, rd_with_tick, rd_with_host, rd_with_flit, rd_with_falt, rd_with_trc, rd_with_cores, rd_with_ldr, rd_with_clok, rd_with_vest, rd_with_vid, rd_with_pow, rd_with_boot, rd_with_gq, rd_with_dbg, rd_with_pins]; rw [bit_setBit, if_neg (by decide)]
    · rw [w1 _ (by (first | assumption | decide)) (by (first | assumption | decide)) (by (first | assumption | decide)) (by (first | assumption | decide)) (by (first | assumption | decide))]; simp (disch := (first | assumption | decide)) only [rd_ite, rd_wr_same, rd_wr_ne, rd_bump_same, rd_bump_ne, rd_bump64_same, rd_bump64_ne, setOdBit_same, setOdBit_ne, signal_rd, powerNote_rd', record_rd, record_class, ite_self, setMem_rd, setMark_rd, setPow_rd, setDmem_rd, rd_with_pending, rd_with_clk, rd_with_odb, rd_with_tick, rd_with_host, rd_with_flit, rd_with_falt, rd_with_trc, rd_with_cores, rd_with_ldr, rd_with_clok, rd_with_vest, rd_with_vid, rd_with_pow, rd_with_boot, rd_with_gq, rd_with_dbg, rd_with_pins]
    · rw [w1 _ (by (first | assumption | decide)) (by (first | assumption | decide)) (by (first | assumption | decide)) (by (first | assumption | decide)) (by (first | assumption | decide))]; simp (disch := (first | assumption | decide)) only [rd_ite, rd_wr_same, rd_wr_ne, rd_bump_same, rd_bump_ne, rd_bump64_same, rd_bump64_ne, setOdBit_same, setOdBit_ne, signal_rd, powerNote_rd', record_rd, record_class, ite_self, setMem_rd, setMark_rd, setPow_rd, setDmem_rd, rd_with_pending, rd_with_clk, rd_with_odb, rd_with_tick, rd_with_host, rd_with_flit, rd_with_falt, rd_with_trc, rd_with_cores, rd_with_ldr, rd_with_clok, rd_with_vest, rd_with_vid, rd_with_pow, rd_with_boot, rd_with_gq, rd_with_dbg, rd_with_pins]; rw [bit_setBit, if_pos rfl]
    · simp (disch := (first | assumption | decide)) only [rd_ite, rd_wr_same, rd_wr_ne, rd_bump_same, rd_bump_ne, rd_bump64_same, rd_bump64_ne, setOdBit_same, setOdBit_ne, signal_rd, powerNote_rd', record_rd, record_class, ite_self, setMem_rd, setMark_rd, setPow_rd, setDmem_rd, rd_with_pending, rd_with_clk, rd_with_odb, rd_with_tick, rd_with_host, rd_with_flit, rd_with_falt, rd_with_trc, rd_with_cores, rd_with_ldr, rd_with_clok, rd_with_vest, rd_with_vid, rd_with_pow, rd_with_boot, rd_with_gq, rd_with_dbg, rd_with_pins]; exact h
  · have e : s.alarmCheck = s := if_neg q
    rw [e]
    exact ⟨rfl, rfl, fun a b => absurd ⟨a, b⟩ q, fun _ => rfl, trivial⟩

theorem cutErase_boot (s : State) (off n : Nat) : ∃ f o,
    (((s.freeBytes n).2.flashErase off (off + n)).flashAnd off (s.freeBytes n).1).boot = { s.boot with flash := f, offFlash := o } := by
  obtain ⟨f, o, hb⟩ := flashAnd_boot (s.freeBytes n).1 ((s.freeBytes n).2.flashErase off (off + n)) off
  exact ⟨f, o, hb⟩

theorem cutProgram_boot (s : State) (off : Nat) (bs : List Byte) : ∃ f o,
    ((s.freeBytes bs.length).2.flashAnd off ((bs.zip (s.freeBytes bs.length).1).map (fun x => x.1 ||| x.2))).boot =
      { s.boot with flash := f, offFlash := o } :=
  flashAnd_boot _ (s.freeBytes bs.length).2 off

theorem cutFlash_program (s : State) (off : Nat) (bs : List Byte) (h : s.boot.op = some (.program off bs)) :
    s.cutFlash = ((s.freeBytes bs.length).2.flashAnd off ((bs.zip (s.freeBytes bs.length).1).map (fun x => x.1 ||| x.2))).setBoot
      { ((s.freeBytes bs.length).2.flashAnd off ((bs.zip (s.freeBytes bs.length).1).map (fun x => x.1 ||| x.2))).boot with op := none } := by
  unfold State.cutFlash; rw [h]

theorem cutFlash_erase (s : State) (off : Nat) (h : s.boot.op = some (.erase off)) :
    s.cutFlash = (((s.freeBytes 65536).2.flashErase off (off + 65536)).flashAnd off (s.freeBytes 65536).1).setBoot
      { (((s.freeBytes 65536).2.flashErase off (off + 65536)).flashAnd off (s.freeBytes 65536).1).boot with op := none } := by
  unfold State.cutFlash; rw [h]

theorem cutFlash_facts (s : State) : s.cutFlash.boot.life = s.boot.life ∧ s.cutFlash.boot.floor = s.boot.floor ∧ s.cutFlash.boot.keys = s.boot.keys ∧
    (s.boot.op = none → s.cutFlash = s) := by
  have key : ∀ (q : State) f o, q.boot = { s.boot with flash := f, offFlash := o } → s.cutFlash = q.setBoot { q.boot with op := none } →
      s.boot.op ≠ none → s.cutFlash.boot.life = s.boot.life ∧ s.cutFlash.boot.floor = s.boot.floor ∧ s.cutFlash.boot.keys = s.boot.keys ∧
        (s.boot.op = none → s.cutFlash = s) := by
    intro q f o hb e hn
    have : s.cutFlash.boot = { q.boot with op := none } := by rw [e]; rfl
    rw [this, hb]
    exact ⟨rfl, rfl, rfl, fun h => absurd h hn⟩
  cases h : s.boot.op with
  | none =>
    have e : s.cutFlash = s := by unfold State.cutFlash; rw [h]
    rw [e]
    exact ⟨rfl, rfl, rfl, fun _ => rfl⟩
  | some x =>
    cases x with
    | program off bs =>
      obtain ⟨f, o, hb⟩ := cutProgram_boot s off bs
      rw [← h]; exact key _ f o hb (cutFlash_program s off bs h) (by rw [h]; simp)
    | erase off =>
      obtain ⟨f, o, hb⟩ := cutErase_boot s off 65536
      rw [← h]; exact key _ f o hb (cutFlash_erase s off h) (by rw [h]; simp)

theorem cutBurn_facts (s : State) : 
    (s.boot.burn = none → s.cutBurn = s) ∧
    (∀ old, s.boot.burn = some (.life old) → s.cutBurn.boot.life = s.boot.life ∨ s.cutBurn.boot.life = old) ∧
    (∀ f, s.boot.burn = some (.floor f) → s.cutBurn.boot.floor = s.boot.floor ∨ s.cutBurn.boot.floor = f) ∧
    (∀ k, s.boot.burn = some (.revoke k) → s.cutBurn.keySlot k = s.keySlot k ∨ s.cutBurn.keySlot k = { s.keySlot k with revoked := true }) ∧
    (∀ k u p, s.boot.burn = some (.key k u p) → (s.cutBurn.keySlot k).defect = true ∧ (s.cutBurn.keySlot k).valid = false) ∧
    s.cutBurn.boot.op = s.boot.op ∧ s.cutBurn.boot.flash = s.boot.flash ∧ s.cutBurn.boot.offFlash = s.boot.offFlash := by
  unfold State.cutBurn
  cases h : s.boot.burn with
  | none => exact ⟨fun _ => rfl, fun _ h => by simp at h, fun _ h => by simp at h, fun _ h => by simp at h, fun _ _ _ h => by simp at h, rfl, rfl, rfl⟩
  | some b =>
    cases b with
    | life old =>
      refine ⟨fun h => by simp at h, fun o h => ?_, fun _ h => by simp at h, fun _ h => by simp at h, fun _ _ _ h => by simp at h, rfl, rfl, rfl⟩
      simp only [Option.some.injEq, Burn.life.injEq] at h
      subst h
      dsimp only
      split
      · exact .inl rfl
      · exact .inr rfl
    | floor v =>
      refine ⟨fun h => by simp at h, fun _ h => by simp at h, fun o h => ?_, fun _ h => by simp at h, fun _ _ _ h => by simp at h, rfl, rfl, rfl⟩
      simp only [Option.some.injEq, Burn.floor.injEq] at h
      subst h
      dsimp only
      split
      · exact .inr rfl
      · exact .inl rfl
    | revoke k =>
      dsimp only
      split
      · refine ⟨fun h => by simp at h, fun _ h => by simp at h, fun _ h => by simp at h, fun o h => ?_, fun _ _ _ h => by simp at h, rfl, rfl, rfl⟩
        simp only [Option.some.injEq, Burn.revoke.injEq] at h
        subst h
        exact .inr (Sparse.get_put_same ..)
      · refine ⟨fun h => by simp at h, fun _ h => by simp at h, fun _ h => by simp at h, fun o h => ?_, fun _ _ _ h => by simp at h, rfl, rfl, rfl⟩
        exact .inl rfl
    | key k u p =>
      dsimp only
      refine ⟨fun h => by simp at h, fun _ h => by simp at h, fun _ h => by simp at h, fun _ h => by simp at h, fun k' _ _ h => ?_, rfl, rfl, rfl⟩
      simp only [Option.some.injEq, Burn.key.injEq] at h
      obtain ⟨rfl, -, -⟩ := h
      exact ⟨congrArg KeySlot.defect (Sparse.get_put_same ..), congrArg KeySlot.valid (Sparse.get_put_same ..)⟩

theorem foldl_id {α β : Type} (f : α → β → α) (l : List β) (a : α) (h : ∀ b ∈ l, f a b = a) : l.foldl f a = a := by
  induction l with
  | nil => rfl
  | cons x xs ih => rw [List.foldl_cons, h x (List.mem_cons_self ..)]; exact ih (fun b hb => h b (List.mem_cons_of_mem _ hb))

theorem wouldFail_ok (s : State) (q : Acc) (a n : Nat) (h : s.isMem q true a n) : s.wouldFail q a n = {} := by
  unfold State.wouldFail
  refine foldl_id _ _ _ fun x hx => ?_
  obtain ⟨i, hi, rfl⟩ := List.mem_map.1 hx
  dsimp only
  rw [h i (List.mem_range.1 hi)]

theorem wholeWrite_ok (s : State) (q : Acc) (a : Nat) (bs : List Byte) (h : s.isMem q true a bs.length) :
    s.wholeWrite q a bs = s.memWrite q a bs := by
  unfold State.wholeWrite
  rw [wouldFail_ok s q a _ h]
  rfl

theorem trcEvent_rd (s : State) (i : Nat) {k : Nat} (h : k ≠ OD.TRC_EVENTS) : (s.trcEvent i).rd k = s.rd k := by
  unfold State.trcEvent; dsimp only; split
  · rw [signal_rd]; exact setOdBit_ne _ h _ _
  · exact setOdBit_ne _ h _ _

theorem trcEvent_same (s : State) (i : Nat) : (s.trcEvent i).rd OD.TRC_EVENTS = setBit (s.rd OD.TRC_EVENTS) i true := by
  unfold State.trcEvent; dsimp only; split
  · rw [signal_rd]; exact setOdBit_same ..
  · exact setOdBit_same ..

theorem trcEvent_trc (s : State) (i : Nat) : (s.trcEvent i).trc = s.trc := (trcEvent_keep s i (Keep.rfl' s) (within_self _)).part .trc

theorem sinkThreshold_facts (s : State) (w w' : Nat) : (∀ k, k ≠ OD.TRC_EVENTS → (s.sinkThreshold w w').rd k = s.rd k) ∧
    (bit (s.rd OD.TRC_EVENTS) 2 = true → bit ((s.sinkThreshold w w').rd OD.TRC_EVENTS) 2 = true) ∧ (s.sinkThreshold w w').trc = s.trc := by
  have hb : bit (s.rd OD.TRC_EVENTS) 2 = true → bit ((s.trcEvent 0).rd OD.TRC_EVENTS) 2 = true := fun h => by
    rw [trcEvent_same, bit_setBit, if_neg (by decide)]; exact h
  unfold State.sinkThreshold
  refine ⟨fun k hk => ?_, fun h => ?_, ?_⟩
  · dsimp only; split
    · rfl
    · split <;> split <;> first | rfl | exact trcEvent_rd _ _ hk
  · dsimp only; split
    · exact h
    · split <;> split <;> first | exact h | exact hb h
  · dsimp only; split
    · rfl
    · split <;> split <;> first | rfl | exact trcEvent_trc _ _

theorem sinkAdvance_facts (s : State) : s.sinkAdvance.rd OD.SINK_WRITE = (s.rd OD.SINK_WRITE + 64) % s.rd OD.SINK_SIZE ∧
    (∀ k, k ≠ OD.SINK_WRITE → k ≠ OD.TRC_EVENTS → s.sinkAdvance.rd k = s.rd k) ∧
    (bit (s.rd OD.TRC_EVENTS) 2 = true → bit (s.sinkAdvance.rd OD.TRC_EVENTS) 2 = true) ∧ s.sinkAdvance.trc = s.trc ∧ Keep [.od, .host] s s.sinkAdvance := by
  obtain ⟨f1, f2, f3⟩ := sinkThreshold_facts (s.wr OD.SINK_WRITE ((s.rd OD.SINK_WRITE + 64) % s.rd OD.SINK_SIZE)) (s.rd OD.SINK_WRITE)
    ((s.rd OD.SINK_WRITE + 64) % s.rd OD.SINK_SIZE)
  have e : s.sinkAdvance = (s.wr OD.SINK_WRITE ((s.rd OD.SINK_WRITE + 64) % s.rd OD.SINK_SIZE)).sinkThreshold (s.rd OD.SINK_WRITE)
    ((s.rd OD.SINK_WRITE + 64) % s.rd OD.SINK_SIZE) := rfl
  refine ⟨?_, fun k a b => ?_, fun h => ?_, ?_, sinkAdvance_keep s (Keep.rfl' s) (within_self _)⟩
  · rw [e, f1 _ (by (first | assumption | decide))]; exact rd_wr_same ..
  · rw [e, f1 _ b]; exact rd_wr_ne _ a _
  · rw [e]; refine f2 ?_; rw [rd_wr_ne _ (by (first | assumption | decide))]; exact h
  · rw [e]; exact f3

theorem errReported_rd (s : State) (q : Acc) (r : MemRes) {k : Nat} (h1 : k ≠ OD.FAULTS_LOST) (h2 : k ≠ OD.CLASS_COUNTS FaultClass.item) :
    (s.errReported q r).rd k = s.rd k := by
  unfold State.errReported
  split
  · exact record_rd _ _ _ _ _ _ _ h1 h2
  · rfl

theorem bumpN_same (s : State) (k n : Nat) : (s.bumpN k n).rd k = min (s.rd k + n) 0xFFFFFFFF := rd_wr_same ..

theorem bumpN_ne (s : State) {k j : Nat} (h : j ≠ k) (n : Nat) : (s.bumpN k n).rd j = s.rd j := rd_wr_ne _ h _

theorem sinkFails_facts (s : State) (x : TraceLine) (a : Nat) (r : MemRes) :
    let t := s.sinkFails x a r
    t.rd OD.SINK_WRITE = (s.rd OD.SINK_WRITE + 64) % s.rd OD.SINK_SIZE ∧ t.trc = { s.trc with failed := true } ∧
    t.rd OD.SINK_FAULTS = min (s.rd OD.SINK_FAULTS + 1) 0xFFFFFFFF ∧
    t.rd OD.LOST_PACKETS = min (s.rd OD.LOST_PACKETS + x.packets) 0xFFFFFFFF ∧ bit (t.rd OD.TRC_EVENTS) 2 = true ∧
    t.rd (OD.CLASS_COUNTS FaultClass.corrected) = (if s.trc.failed then s.rd (OD.CLASS_COUNTS FaultClass.corrected)
          else min (s.rd (OD.CLASS_COUNTS FaultClass.corrected) + 1) 0xFFFFFFFF) ∧
    Keep [.od, .host, .falt, .trc] s t := by
  have hkp := sinkFails_keep s x a r (Keep.rfl' s) (within_self _)
  have hc : ∀ k, k ≠ OD.FAULTS_LOST → k ≠ OD.CLASS_COUNTS FaultClass.item → (s.errReported s.traceAcc r).rd k = s.rd k := fun k h1 h2 => errReported_rd s _ r h1 h2
  have hct : (s.errReported s.traceAcc r).trc = s.trc := (errReported_keep s _ r (Keep.rfl' s) (within_self _)).part .trc
  generalize hu : ((s.errReported s.traceAcc r).bumpN OD.LOST_PACKETS x.packets).bump OD.SINK_FAULTS = u
  have hut : u.trc = s.trc := by rw [← hu]; exact hct
  generalize hv : (if u.trc.failed then u else u.record FaultClass.corrected 68 27 OD.SINK_FAULTS (r.failAt a) 0) = v
  have hvt : v.trc = s.trc := by
    rw [← hv]; split
    · exact hut
    · exact ((record_keep _ _ _ _ _ _ _ (Keep.rfl' _) (within_self _)).part .trc).trans hut
  have hvr : ∀ k, k ≠ OD.FAULTS_LOST → k ≠ OD.CLASS_COUNTS FaultClass.corrected → v.rd k = u.rd k := by
    intro k a b; rw [← hv]; split
    · rfl
    · exact record_rd _ _ _ _ _ _ _ a b
  have e : s.sinkFails x a r = (({ v with trc := { v.trc with failed := true } } : State).trcEvent 2).sinkAdvance := by
    rw [← hv, ← hu]; rfl
  obtain ⟨a1, a2, a3, a4, a5⟩ := sinkAdvance_facts (({ v with trc := { v.trc with failed := true } } : State).trcEvent 2)
  intro t
  have ht : t = (({ v with trc := { v.trc with failed := true } } : State).trcEvent 2).sinkAdvance := e
  have e1 : ∀ k, k ≠ OD.TRC_EVENTS → (({ v with trc := { v.trc with failed := true } } : State).trcEvent 2).rd k = v.rd k := fun k hk => trcEvent_rd _ _ hk
  refine ⟨?_, ?_, ?_, ?_, ?_, ?_, hkp⟩
  · rw [ht, a1, e1 _ (by (first | assumption | decide | (simp only [FaultClass.corrected, OD.CLASS_COUNTS, OD.FAULTS_LOST, OD.LOST_PACKETS, OD.SINK_FAULTS, OD.SINK_SIZE, OD.SINK_WRITE, OD.TRC_EVENTS]; omega))), e1 _ (by (first | assumption | decide | (simp only [FaultClass.corrected, OD.CLASS_COUNTS, OD.FAULTS_LOST, OD.LOST_PACKETS, OD.SINK_FAULTS, OD.SINK_SIZE, OD.SINK_WRITE, OD.TRC_EVENTS]; omega))), hvr _ (by (first | assumption | decide | (simp only [FaultClass.corrected, OD.CLASS_COUNTS, OD.FAULTS_LOST, OD.LOST_PACKETS, OD.SINK_FAULTS, OD.SINK_SIZE, OD.SINK_WRITE, OD.TRC_EVENTS]; omega))) (by (first | assumption | decide | (simp only [FaultClass.corrected, OD.CLASS_COUNTS, OD.FAULTS_LOST, OD.LOST_PACKETS, OD.SINK_FAULTS, OD.SINK_SIZE, OD.SINK_WRITE, OD.TRC_EVENTS]; omega))), hvr _ (by (first | assumption | decide | (simp only [FaultClass.corrected, OD.CLASS_COUNTS, OD.FAULTS_LOST, OD.LOST_PACKETS, OD.SINK_FAULTS, OD.SINK_SIZE, OD.SINK_WRITE, OD.TRC_EVENTS]; omega))) (by (first | assumption | decide | (simp only [FaultClass.corrected, OD.CLASS_COUNTS, OD.FAULTS_LOST, OD.LOST_PACKETS, OD.SINK_FAULTS, OD.SINK_SIZE, OD.SINK_WRITE, OD.TRC_EVENTS]; omega))), ← hu, rd_bump_ne _ (by (first | assumption | decide | (simp only [FaultClass.corrected, OD.CLASS_COUNTS, OD.FAULTS_LOST, OD.LOST_PACKETS, OD.SINK_FAULTS, OD.SINK_SIZE, OD.SINK_WRITE, OD.TRC_EVENTS]; omega))), bumpN_ne _ (by (first | assumption | decide | (simp only [FaultClass.corrected, OD.CLASS_COUNTS, OD.FAULTS_LOST, OD.LOST_PACKETS, OD.SINK_FAULTS, OD.SINK_SIZE, OD.SINK_WRITE, OD.TRC_EVENTS]; omega))), hc _ (by decide) (by decide),
      rd_bump_ne _ (by (first | assumption | decide | (simp only [FaultClass.corrected, OD.CLASS_COUNTS, OD.FAULTS_LOST, OD.LOST_PACKETS, OD.SINK_FAULTS, OD.SINK_SIZE, OD.SINK_WRITE, OD.TRC_EVENTS]; omega))), bumpN_ne _ (by (first | assumption | decide | (simp only [FaultClass.corrected, OD.CLASS_COUNTS, OD.FAULTS_LOST, OD.LOST_PACKETS, OD.SINK_FAULTS, OD.SINK_SIZE, OD.SINK_WRITE, OD.TRC_EVENTS]; omega))), hc _ (by decide) (by decide)]
  · rw [ht, a4, trcEvent_trc]; dsimp only; rw [hvt]
  · rw [ht, a2 _ (by (first | assumption | decide | (simp only [FaultClass.corrected, OD.CLASS_COUNTS, OD.FAULTS_LOST, OD.LOST_PACKETS, OD.SINK_FAULTS, OD.SINK_SIZE, OD.SINK_WRITE, OD.TRC_EVENTS]; omega))) (by (first | assumption | decide | (simp only [FaultClass.corrected, OD.CLASS_COUNTS, OD.FAULTS_LOST, OD.LOST_PACKETS, OD.SINK_FAULTS, OD.SINK_SIZE, OD.SINK_WRITE, OD.TRC_EVENTS]; omega))), e1 _ (by (first | assumption | decide | (simp only [FaultClass.corrected, OD.CLASS_COUNTS, OD.FAULTS_LOST, OD.LOST_PACKETS, OD.SINK_FAULTS, OD.SINK_SIZE, OD.SINK_WRITE, OD.TRC_EVENTS]; omega))), hvr _ (by (first | assumption | decide | (simp only [FaultClass.corrected, OD.CLASS_COUNTS, OD.FAULTS_LOST, OD.LOST_PACKETS, OD.SINK_FAULTS, OD.SINK_SIZE, OD.SINK_WRITE, OD.TRC_EVENTS]; omega))) (by (first | assumption | decide | (simp only [FaultClass.corrected, OD.CLASS_COUNTS, OD.FAULTS_LOST, OD.LOST_PACKETS, OD.SINK_FAULTS, OD.SINK_SIZE, OD.SINK_WRITE, OD.TRC_EVENTS]; omega))), ← hu, rd_bump_same, bumpN_ne _ (by (first | assumption | decide | (simp only [FaultClass.corrected, OD.CLASS_COUNTS, OD.FAULTS_LOST, OD.LOST_PACKETS, OD.SINK_FAULTS, OD.SINK_SIZE, OD.SINK_WRITE, OD.TRC_EVENTS]; omega))), hc _ (by decide) (by decide)]
  · rw [ht, a2 _ (by (first | assumption | decide | (simp only [FaultClass.corrected, OD.CLASS_COUNTS, OD.FAULTS_LOST, OD.LOST_PACKETS, OD.SINK_FAULTS, OD.SINK_SIZE, OD.SINK_WRITE, OD.TRC_EVENTS]; omega))) (by (first | assumption | decide | (simp only [FaultClass.corrected, OD.CLASS_COUNTS, OD.FAULTS_LOST, OD.LOST_PACKETS, OD.SINK_FAULTS, OD.SINK_SIZE, OD.SINK_WRITE, OD.TRC_EVENTS]; omega))), e1 _ (by (first | assumption | decide | (simp only [FaultClass.corrected, OD.CLASS_COUNTS, OD.FAULTS_LOST, OD.LOST_PACKETS, OD.SINK_FAULTS, OD.SINK_SIZE, OD.SINK_WRITE, OD.TRC_EVENTS]; omega))), hvr _ (by (first | assumption | decide | (simp only [FaultClass.corrected, OD.CLASS_COUNTS, OD.FAULTS_LOST, OD.LOST_PACKETS, OD.SINK_FAULTS, OD.SINK_SIZE, OD.SINK_WRITE, OD.TRC_EVENTS]; omega))) (by (first | assumption | decide | (simp only [FaultClass.corrected, OD.CLASS_COUNTS, OD.FAULTS_LOST, OD.LOST_PACKETS, OD.SINK_FAULTS, OD.SINK_SIZE, OD.SINK_WRITE, OD.TRC_EVENTS]; omega))), ← hu, rd_bump_ne _ (by (first | assumption | decide | (simp only [FaultClass.corrected, OD.CLASS_COUNTS, OD.FAULTS_LOST, OD.LOST_PACKETS, OD.SINK_FAULTS, OD.SINK_SIZE, OD.SINK_WRITE, OD.TRC_EVENTS]; omega))), bumpN_same, hc _ (by decide) (by decide)]
  · rw [ht]; refine a3 ?_; rw [trcEvent_same, bit_setBit, if_pos rfl]
  · rw [ht, a2 _ (by (first | assumption | decide | (simp only [FaultClass.corrected, OD.CLASS_COUNTS, OD.FAULTS_LOST, OD.LOST_PACKETS, OD.SINK_FAULTS, OD.SINK_SIZE, OD.SINK_WRITE, OD.TRC_EVENTS]; omega))) (by (first | assumption | decide | (simp only [FaultClass.corrected, OD.CLASS_COUNTS, OD.FAULTS_LOST, OD.LOST_PACKETS, OD.SINK_FAULTS, OD.SINK_SIZE, OD.SINK_WRITE, OD.TRC_EVENTS]; omega))), e1 _ (by (first | assumption | decide | (simp only [FaultClass.corrected, OD.CLASS_COUNTS, OD.FAULTS_LOST, OD.LOST_PACKETS, OD.SINK_FAULTS, OD.SINK_SIZE, OD.SINK_WRITE, OD.TRC_EVENTS]; omega))), ← hv, hut]
    split
    · rw [← hu, rd_bump_ne _ (by (first | assumption | decide | (simp only [FaultClass.corrected, OD.CLASS_COUNTS, OD.FAULTS_LOST, OD.LOST_PACKETS, OD.SINK_FAULTS, OD.SINK_SIZE, OD.SINK_WRITE, OD.TRC_EVENTS]; omega))), bumpN_ne _ (by (first | assumption | decide | (simp only [FaultClass.corrected, OD.CLASS_COUNTS, OD.FAULTS_LOST, OD.LOST_PACKETS, OD.SINK_FAULTS, OD.SINK_SIZE, OD.SINK_WRITE, OD.TRC_EVENTS]; omega))), hc _ (by decide) (by decide)]
    · rw [record_class _ _ _ _ _ _ _ (by decide), ← hu, rd_bump_ne _ (by (first | assumption | decide | (simp only [FaultClass.corrected, OD.CLASS_COUNTS, OD.FAULTS_LOST, OD.LOST_PACKETS, OD.SINK_FAULTS, OD.SINK_SIZE, OD.SINK_WRITE, OD.TRC_EVENTS]; omega))), bumpN_ne _ (by (first | assumption | decide | (simp only [FaultClass.corrected, OD.CLASS_COUNTS, OD.FAULTS_LOST, OD.LOST_PACKETS, OD.SINK_FAULTS, OD.SINK_SIZE, OD.SINK_WRITE, OD.TRC_EVENTS]; omega))), hc _ (by decide) (by decide)]

theorem tracesLost_facts (s : State) (n types : Nat) :
    (s.tracesLost n types).trc = { s.trc with lost := min (s.trc.lost + n) 0xFFFFFFFF, lostTypes := Nat.lor s.trc.lostTypes types } ∧
    (s.tracesLost n types).rd OD.LOST_PACKETS = min (s.rd OD.LOST_PACKETS + n) 0xFFFFFFFF ∧
    (∀ k, k ≠ OD.LOST_PACKETS → (s.tracesLost n types).rd k = s.rd k) :=
  ⟨rfl, bumpN_same .., fun k hk => bumpN_ne _ hk _⟩

theorem dapOp_ready (s : State) (need : Nat) (f : State → State) (h : s.dapReady = true) (hl : need ≤ s.dbgLevel) : s.dapOp need f = f s := by
  unfold State.dapReady at h
  simp only [Bool.and_eq_true, decide_eq_true_eq, Bool.not_eq_true'] at h
  unfold State.dapOp
  rw [if_neg (by simp [h.1.1, h.1.2, h.2]), if_neg (by omega)]

theorem dapOp_denied (s : State) (need : Nat) (f : State → State) (h : s.dapReady = true) (hl : s.dbgLevel < need) : s.dapOp need f = s.dapResult Dap.denied 0 := by
  unfold State.dapReady at h
  simp only [Bool.and_eq_true, decide_eq_true_eq, Bool.not_eq_true'] at h
  unfold State.dapOp
  rw [if_neg (by simp [h.1.1, h.1.2, h.2]), if_pos hl]

theorem dapOp_closed (s : State) (need : Nat) (f : State → State) (h : s.dapReady = false) : s.dapOp need f = s := by
  unfold State.dapReady at h
  unfold State.dapOp
  rw [if_pos]
  simp only [Bool.and_eq_false_iff, decide_eq_false_iff_not, Bool.not_eq_false'] at h
  rcases h with (h | h) | h
  · simp [h]
  · simp [h]
  · simp [h]

theorem switchPin_is (s : State) (g : Nat) : ∃ kept, s.switchPin g =
    (if s.powered 1 then State.bump { s with pins := { sw := Sparse.put (fun _ => none) s.pins.sw g (some (s.clk.now, false)), kept := kept } } OD.PIN_SWITCHES
      else { s with pins := { sw := Sparse.put (fun _ => none) s.pins.sw g (some (s.clk.now, false)), kept := kept } }) := ⟨_, rfl⟩

theorem switchPin_facts (s : State) (g : Nat) : (s.switchPin g).pinSwitch g = some (s.clk.now, false) ∧
    (∀ j, j ≠ g → (s.switchPin g).pinSwitch j = s.pinSwitch j) ∧
    (s.switchPin g).rd OD.PIN_SWITCHES = (if s.powered 1 then min (s.rd OD.PIN_SWITCHES + 1) 0xFFFFFFFF else s.rd OD.PIN_SWITCHES) ∧
    (∀ k, k ≠ OD.PIN_SWITCHES → (s.switchPin g).rd k = s.rd k) ∧ Keep [.od, .pins] s (s.switchPin g) := by
  have hk := switchPin_keep s g (Keep.rfl' s) (within_self _)
  obtain ⟨kept, e⟩ := switchPin_is s g
  have hp : (s.switchPin g).pins.sw = Sparse.put (fun _ => none) s.pins.sw g (some (s.clk.now, false)) := by
    rw [e]; split <;> rfl
  refine ⟨?_, fun j hj => ?_, ?_, fun k hk => ?_, hk⟩
  · unfold State.pinSwitch; rw [hp, Sparse.get_put_same]
  · unfold State.pinSwitch; rw [hp]; exact Sparse.get_put_ne (fun _ => none) _ hj _
  · rw [e]; split
    · exact rd_bump_same ..
    · rfl
  · rw [e]; split
    · exact rd_bump_ne _ hk
    · rfl

theorem switchPins (s : State) (n : Nat) : let t := foldN n (fun s g => s.switchPin g) s
    (∀ g, g < n → t.pinSwitch g = some (s.clk.now, false)) ∧
    (∀ g, n ≤ g → t.pinSwitch g = s.pinSwitch g) ∧
    (t.rd OD.PIN_SWITCHES = if s.powered 1 then min (s.rd OD.PIN_SWITCHES + n) (max 0xFFFFFFFF (if n = 0 then s.rd OD.PIN_SWITCHES else 0)) else s.rd OD.PIN_SWITCHES) ∧
    (∀ k, k ≠ OD.PIN_SWITCHES → t.rd k = s.rd k) ∧ Keep [.od, .pins] s t := by
  induction n with
  | zero =>
    refine ⟨fun g h => absurd h (by omega), fun g _ => rfl, ?_, fun k _ => rfl, Keep.rfl' s⟩
    show s.rd _ = _
    split
    · rw [if_pos rfl]; omega
    · rfl
  | succ m ih =>
    intro t
    have ht : t = (foldN m (fun s g => s.switchPin g) s).switchPin m := foldN_succ ..
    obtain ⟨i1, i2, i3, i4, i5⟩ := ih
    generalize foldN m (fun s g => s.switchPin g) s = u at i1 i2 i3 i4 i5 ht
    obtain ⟨f1, f2, f3, f4, f5⟩ := switchPin_facts u m
    have hn : u.clk.now = s.clk.now := i5.now
    have hpw : u.powered 1 = s.powered 1 := powered_of (i4 _ (by (first | assumption | decide))) 1
    rw [ht]
    refine ⟨fun g hg => ?_, fun g hg => ?_, ?_, fun k hk => (f4 k hk).trans (i4 k hk), i5.trans f5⟩
    · by_cases q : g = m
      · subst q; rw [f1, hn]
      · rw [f2 g q]; exact i1 g (by omega)
    · rw [f2 g (by omega)]; exact i2 g (by omega)
    · rw [f3, hpw, i3, if_neg (Nat.succ_ne_zero m)]
      split
      · split <;> omega
      · rfl

theorem setTap_facts (s : State) (x : TapInstr) :
    (s.setTap x).dbg = { s.dbg with tap := x } ∧
    (s.scanning = true → (s.setTap x).scanning = false →
      (∀ g, g < 16 → (s.setTap x).pinSwitch g = some (s.clk.now, false)) ∧
      (s.setTap x).rd OD.PIN_SWITCHES = (if s.powered 1 then min (s.rd OD.PIN_SWITCHES + 16) 0xFFFFFFFF else s.rd OD.PIN_SWITCHES)) ∧
    (∀ k, k ≠ OD.PIN_SWITCHES → (s.setTap x).rd k = s.rd k) ∧
    (¬ (s.scanning = true ∧ (s.setTap x).scanning = false) → (s.setTap x).pins = s.pins ∧ (s.setTap x).od = s.od) ∧
    Keep [.od, .dbg, .pins] s (s.setTap x) := by
  obtain ⟨w1, w2, w3, w4, w5⟩ := switchPins { s with dbg := { s.dbg with tap := x } } 16
  have hk := setTap_keep s x (Keep.rfl' s) (within_self _)
  have hd : (s.setTap x).dbg = { s.dbg with tap := x } := by
    unfold State.setTap; dsimp only
    split
    · exact w5.part .dbg
    · rfl
  have hr : ∀ k, k ≠ OD.PIN_SWITCHES → (s.setTap x).rd k = s.rd k := by
    intro k hk; unfold State.setTap; dsimp only
    split
    · exact w4 k hk
    · rfl
  have hs : (s.setTap x).scanning = State.scanning { s with dbg := { s.dbg with tap := x } } := by
    unfold State.scanning
    rw [hd, powered_of (hr _ (by (first | assumption | decide))) 27]; rfl
  refine ⟨hd, fun h1 h2 => ?_, hr, fun h => ?_, hk⟩
  · rw [hs] at h2
    have e : s.setTap x = foldN 16 (fun s g => s.switchPin g) { s with dbg := { s.dbg with tap := x } } := by
      unfold State.setTap; dsimp only; rw [if_pos (by simp [h1, h2])]
    rw [e]
    refine ⟨w1, w3.trans ?_⟩
    rw [if_neg (by decide : ¬ (16 : Nat) = 0)]; rfl
  · rw [hs] at h
    have e : s.setTap x = { s with dbg := { s.dbg with tap := x } } := by
      unfold State.setTap; dsimp only; rw [if_neg (by simpa using h)]
    rw [e]; exact ⟨rfl, rfl⟩

theorem endSession_facts (s : State) : s.endSession.rd OD.DBG_LEVEL = 0 ∧ s.endSession.rd OD.DBG_KEY_SLOT = 0xFF ∧ s.endSession.dbg.waits = none ∧
    (s.dbg.tap.needsFull = false → s.endSession.dbg.tap = s.dbg.tap) := by
  have hd : ∀ n, (foldN n (fun s a => s.resumeAgent a) s).dbg = s.dbg := by
    intro n
    induction n with
    | zero => rfl
    | succ m ih => rw [foldN_succ, (resumeAgent_keep _ m (Keep.rfl' _) (within_self _)).part .dbg]; exact ih
  have h2 : ((foldN 36 (fun s a => s.resumeAgent a) s).dropLocks 66).dbg = s.dbg :=
    ((dropLocks_keep _ 66 (Keep.rfl' _) (within_self _)).part .dbg).trans (hd 36)
  unfold State.endSession
  dsimp only
  generalize (foldN 36 (fun s a => s.resumeAgent a) s).dropLocks 66 = u at h2 ⊢
  refine ⟨?_, ?_, rfl, fun h => ?_⟩
  · rw [rd_wr_ne _ (by (first | assumption | decide))]; exact rd_wr_same ..
  · exact rd_wr_same ..
  · rw [if_neg (by rw [h2, h]; simp)]
    show u.dbg.tap = _; rw [h2]

theorem tapSelect_facts (s : State) (x : TapInstr) (h : s.powered 27 = true) :
    s.tapSelect x = s.setTap (if x.needsFull = true ∧ s.dbgLevel < 2 then .bypass else x) := by
  unfold State.tapSelect
  rw [if_neg (by simp [h])]
  congr 1
  simp

theorem tapSelect_off (s : State) (x : TapInstr) (h : s.powered 27 = false) : s.tapSelect x = s := by
  unfold State.tapSelect; rw [if_pos (by simp [h])]

theorem memRecord_ok (s : State) (q : Acc) (b : List Byte) : s.memRecord q { bytes := b } = s := rfl

theorem newNonce_facts (s : State) : s.newNonce.dbg.nonce.length = 4 ∧ s.newNonce.dbg.words = [] := by
  unfold State.newNonce
  exact ⟨rfl, rfl⟩

theorem dapResult_rd (s : State) (a b k : Nat) : (s.dapResult a b).rd k = s.rd k := rfl

theorem authFails_facts (s : State) : (s.authFails.dbg.auth = none ∧ True) ∧ (
    s.authFails.rd OD.AUTH_FAILS = min (s.rd OD.AUTH_FAILS + 1) 0xFFFFFFFF ∧ s.authFails.dbg.status = Dap.authFail ∧ s.authFails.dbg.lockout = some s.clk.now ∧
        s.authFails.dbg.nonce = [] ∧ s.authFails.rd OD.DBG_LEVEL = s.rd OD.DBG_LEVEL ∧
        s.authFails.rd (OD.CLASS_COUNTS FaultClass.corrected) = min (s.rd (OD.CLASS_COUNTS FaultClass.corrected) + 1) 0xFFFFFFFF ∧
        Keep [.od, .host, .falt, .dbg] s s.authFails) ∧ True := by
  have hk := authFails_keep s (Keep.rfl' s) (within_self _)
  have e : s.authFails = ((State.bump { s with dbg := { s.dbg with nonce := [], words := [], auth := none, lockout := some s.clk.now } } OD.AUTH_FAILS).record
    FaultClass.corrected 66 27 OD.AUTH_FAILS 0 0).dapResult Dap.authFail 0 := rfl
  have hd : ((State.bump { s with dbg := { s.dbg with nonce := [], words := [], auth := none, lockout := some s.clk.now } } OD.AUTH_FAILS).record
    FaultClass.corrected 66 27 OD.AUTH_FAILS 0 0).dbg = { s.dbg with nonce := [], words := [], auth := none, lockout := some s.clk.now } :=
    (record_keep _ _ _ _ _ _ _ (Keep.rfl' _) (within_self _)).part .dbg
  generalize hv : (State.bump { s with dbg := { s.dbg with nonce := [], words := [], auth := none, lockout := some s.clk.now } } OD.AUTH_FAILS).record
    FaultClass.corrected 66 27 OD.AUTH_FAILS 0 0 = v at e hd
  have hvr : ∀ k, k ≠ OD.FAULTS_LOST → k ≠ OD.CLASS_COUNTS FaultClass.corrected → v.rd k = State.rd (State.bump s OD.AUTH_FAILS) k := by
    intro k a b; rw [← hv, record_rd _ _ _ _ _ _ _ a b]; rfl
  have hdd : s.authFails.dbg = { v.dbg with status := Dap.authFail, data := 0, waits := none } := by rw [e]; rfl
  refine ⟨⟨by rw [hdd, hd], trivial⟩, ⟨?_, by rw [hdd], by rw [hdd, hd], by rw [hdd, hd], ?_, ?_, hk⟩, trivial⟩
  · rw [e, dapResult_rd, hvr _ (by (first | assumption | decide | (simp only [FaultClass.corrected, OD.AUTH_FAILS, OD.CLASS_COUNTS, OD.DBG_LEVEL, OD.FAULTS_LOST]; omega))) (by (first | assumption | decide | (simp only [FaultClass.corrected, OD.AUTH_FAILS, OD.CLASS_COUNTS, OD.DBG_LEVEL, OD.FAULTS_LOST]; omega))), rd_bump_same]
  · rw [e, dapResult_rd, hvr _ (by (first | assumption | decide | (simp only [FaultClass.corrected, OD.AUTH_FAILS, OD.CLASS_COUNTS, OD.DBG_LEVEL, OD.FAULTS_LOST]; omega))) (by (first | assumption | decide | (simp only [FaultClass.corrected, OD.AUTH_FAILS, OD.CLASS_COUNTS, OD.DBG_LEVEL, OD.FAULTS_LOST]; omega))), rd_bump_ne _ (by (first | assumption | decide | (simp only [FaultClass.corrected, OD.AUTH_FAILS, OD.CLASS_COUNTS, OD.DBG_LEVEL, OD.FAULTS_LOST]; omega)))]
  · rw [e, dapResult_rd, ← hv, record_class _ _ _ _ _ _ _ (by decide), rd_bump_ne _ (by (first | assumption | decide | (simp only [FaultClass.corrected, OD.AUTH_FAILS, OD.CLASS_COUNTS, OD.DBG_LEVEL, OD.FAULTS_LOST]; omega)))]; rfl

end Sys2Proof.Machine
end

