-- ==== Sys2Proof/WellFormed.lean ====
section
/-!
DEFINITION. Well-formed commands: what the operand types leave open and the hardware's links, buses and stores rule out. A
command that the spec judges itself (an access that aborts, an instruction that faults) is well formed.
-/

namespace Sys2Proof

/-- A requester names the tenancy context that its operations carry (R242). -/
def Requester.wf (q : Requester) : Bool := decide (q.ctx = Machine.carriedCtx q)

/-- A telegram is at most a header, 255 bytes of body and a CRC (R813, Table GQBS-4). -/
def Telegram.wf (t : Telegram) : Bool := decide (t.bytes.length ≤ 263)

/-- A scrubber names a whole 64-bit word (R453, R771). -/
def ScrubFind.wf : ScrubFind → Bool
  | .passDone => true
  | .correctable a => a.toNat % 8 = 0
  | .uncorrectable a => a.toNat % 8 = 0

/-- Well-formedness: every check, by the operand that it looks at. -/
def Instr.wf : Instr → Bool
  | .landingRead q _ => q.wf
  | .landingInit q _ _ => q.wf
  | .landingAdd q _ _ => q.wf
  | .landingSet q _ => q.wf
  | .landingClear q _ => q.wf
  | .landingAcquire q _ => q.wf
  | .landingTry q _ => q.wf
  | .landingRelease q _ => q.wf
  | .landingArrive q _ => q.wf
  | .landingWait q _ => q.wf
  | .landingAck q _ _ => q.wf
  | .landingForce q _ => q.wf
  | .landingPush q _ _ => q.wf
  | .landingTake q _ => q.wf
  | .landingPortStatus q _ => q.wf
  | .landingPeek q _ _ => q.wf
  | .dramAccess q a _ bytes _ => q.wf && !bytes.isEmpty && decide (a.toNat + bytes.length ≤ 2 ^ 48)
  | .reservedOp _ op => Machine.reservedOp op.toNat
  | .linePacket _ _ _ payload => decide (payload.length < 65536)
  | .tdmFrame _ _ slots => decide (slots.length ≤ 16)
  | .gqRequest t _ => t.wf
  | .tickTelegramRx t => t.wf
  | .gqResponseRx t => t.wf
  | .galleryScrub find => find.wf
  | .dramScrub find => find.wf
  | .balustradeWindowEnd _ es => es.all (fun e =>
      match e with
      | .request _ _ n => decide (1 ≤ n.toNat ∧ n.toNat ≤ 64)
      | _ => true)
  | .linkUp width speed => [1, 2, 4, 8].contains width.toNat && decide (1 ≤ speed.toNat ∧ speed.toNat ≤ 5)
  | _ => true

end Sys2Proof
end

