-- ==== Sys2Proof/Tests/Slice0.lean ====
section
/-!
SUPPORT. The model's own tests: for each obligation a small state that meets its hypotheses, with what the spec says comes of it,
and an ill-formed command for each check of WellFormed. Expected values come from the rules and tables that the obligations cite.
-/

set_option Elab.async false

namespace Sys2Proof.Tests

open Sys2Proof Sys2Proof.Machine

/-- A state with the listed objects set to the listed values. -/
def put (s : State) (kvs : List (Nat × Nat)) : State := kvs.foldl (fun s e => s.wr e.1 e.2) s

/-- The state after a command; every command answers a next state. -/
def run (i : Instr) (s : State) : State :=
  match Sys2Proof.Machine.exec i s with
  | .next t => t
  | _ => s

/-- Every domain ready, the tick unit LOCKED with its last boundary at edge 0, at edge `now`. -/
def ticking (src now : Nat) (st : TickSt) : State :=
  { put State.reset [(OD.DOMAIN_ON, 0x0FFFFFFF), (OD.TICK_SOURCE, src)] with
    tick := { st := st }, clk := { now := now } }

/-- Every domain ready. -/
def on : State := put State.reset [(OD.DOMAIN_ON, 0x0FFFFFFF)]

/-- Every domain ready, the link UP, both functions masters that send MSI-X messages. -/
def linked : State :=
  { put on [(OD.LINK_STATE, 2)] with
    host := { pf0 := { bme := true, enabled := true, mask := 0 }, pf1 := { bme := true, enabled := true, mask := 0 }, perstLow := false } }

/-! ### The tick unit -/

theorem test_early_edge_locked : let s := ticking 1 10 .locked
    s.sourceIs 1 = true ∧ s.scanning = false ∧ s.clk.now - s.tick.last < s.lowerBound ∧
      (run .tickInEdge s).rd OD.EARLY_ARRIVALS = 1 := by decide +kernel

theorem test_early_edge_at_bound : let s := ticking 1 729180 .flywheel
    s.lowerBound = 729181 ∧ s.sourceIs 1 = true ∧ s.scanning = false ∧ s.clk.now - s.tick.last < s.lowerBound ∧
      (run .tickInEdge s).tick.epoch = s.tick.epoch := by decide +kernel

theorem test_early_telegram_point :
    let s : State := { ticking 2 10 .locked with gq := { point := some ⟨10, 5, false⟩ } }
    s.gq.point = some ⟨10, 5, false⟩ ∧ 10 ≤ s.clk.now ∧ s.sourceIs 2 = true ∧ s.clk.now - s.tick.last < s.lowerBound ∧
      (run .gqTickPoint s).gq.point = none := by decide +kernel

theorem test_early_strike : let s := ticking 3 729180 .locked
    s.sourceIs 3 = true ∧ s.clk.now - s.tick.last < s.lowerBound ∧ (s.strikeOrder 1).1 = 0 := by decide +kernel

theorem test_edge_makes_boundary : let s := ticking 1 729181 .locked
    s.sourceIs 1 = true ∧ s.scanning = false ∧ s.tick.armed = false ∧ s.lowerBound ≤ s.clk.now - s.tick.last ∧
      (run .tickInEdge s).tick.epoch = 0 ∧ (run .tickInEdge s).tick.last = 729181 := by decide +kernel

theorem test_edge_starts : let s : State := { ticking 1 7 .stopped with tick := { startPending := true } }
    s.sourceIs 1 = true ∧ s.scanning = false ∧ s.tick.st = .stopped ∧ s.tick.startPending = true ∧
      (run .tickInEdge s).tick.st = .locked := by decide +kernel

theorem test_strike_in_acquire : let s := ticking 3 500000 .acquire
    s.admits .gq OD.TICK_STRIKE 1 1 1 = true ∧ s.sourceIs 3 = true ∧ s.tick.armed = false ∧
      s.period ≤ 2 * (s.clk.now - s.tick.last) ∧ (run (.tickStrike .gq 1) s).tick.st = .locked := by decide +kernel

theorem test_telegram_point_in_acquire :
    let s : State := { ticking 2 500000 .acquire with gq := { point := some ⟨500000, 77, false⟩ } }
    s.sourceIs 2 = true ∧ s.period ≤ 2 * (s.clk.now - s.tick.last) ∧ (run .gqTickPoint s).tick.epoch = 77 := by decide +kernel

theorem test_period_expiry : let s := ticking 0 1000000 .locked
    s.sourceIs 0 = true ∧ s.tick.last + s.period ≤ s.clk.now ∧ (run .periodExpiry s).tick.epoch = 0 := by decide +kernel

theorem test_flywheel_point : let s := ticking 1 1125000 .locked
    s.powered 1 = true ∧ s.rd OD.TICK_SOURCE ≠ 0 ∧ s.tick.last + s.upperBound ≤ s.clk.now ∧
      (run .flywheelPoint s).tick.st = .flywheel ∧ (run .flywheelPoint s).tick.lastSynth = true := by decide +kernel

theorem test_acquire_point : let s := ticking 1 1500000 .acquire
    s.powered 1 = true ∧ 3 * s.period ≤ 2 * (s.clk.now - s.tick.last) ∧
      (run .acquireSynthetic s).tick.st = .acquire := by decide +kernel

/-! ### The queue -/

theorem test_step_runs_front : step { State.reset with pending := [.dapNop, .bypass] } =
    .next { State.reset with pending := [.bypass] } := rfl

theorem test_idle_step_counts_an_edge : State.reset.synthDue = [] ∧
    (match step State.reset with | .next t => t.clk.now | _ => 0) = 1 := by decide +kernel

theorem test_idle_step_queues_a_point :
    let s := ticking 1 937519 .locked
    s.pending = [] ∧ s.synthDue = [.flywheelPoint] ∧ (ticking 1 937518 .locked).synthDue = [] := by decide +kernel

theorem test_reset_is_canonical : State.reset.Canonical ∧ State.reset.Bounded :=
  ⟨⟨rfl, rfl, rfl, rfl, rfl⟩, ⟨Nat.zero_le _, Nat.zero_le _⟩⟩

/-! ### Orders of the power controller -/

theorem test_domainReq : let s := on
    s.admits (.fw 0) OD.DOMAIN_REQ 4 3 3 = true ∧ ¬(bit 3 1 ∧ s.boot.life = Life.retired) ∧ s.dropForbidden 3 = false ∧
      (run (.domainReqWrite (.fw 0) 3) s).rd OD.DOMAIN_REQ = 3 := by decide +kernel

theorem test_powerCmd_each : let s := on
    ∀ v, v < 5 → 1 ≤ v → s.admits (.fw 0) OD.POWER_CMD 1 v v = true ∧ s.tick.st = .stopped ∧
      (s.rd OD.RESET_CAUSE ≠ 7 ∧ s.boot.life ≠ Life.retired ∧ s.tooCold = false) ∧ s.dropForbidden (s.cmdTarget v).1 = false ∧
      (run (.powerCmd (.fw 0) (BitVec.ofNat 8 v)) s).rd OD.GATE = (if v = 4 then 0 else 1) := by decide +kernel

theorem test_gateWrite : let s := on
    s.admits (.fw 0) OD.GATE 1 1 1 = true ∧ s.admits (.fw 0) OD.GATE 1 0 0 = true ∧ s.tick.st = .stopped ∧
      (run (.gateWrite (.fw 0) 0) s).rd OD.GATE = 0 := by decide +kernel

/-! ### Plain writes -/

theorem test_plain_writes_admitted : let s := on
    s.admits (.fw 0) OD.PORT_ROUTE_SWAP 1 1 1 = true ∧ s.admits (.fw 0) OD.COLN_ROUTE_SWAP 1 1 1 = true ∧
    s.admits (.fw 0) (OD.TRIM_ARM 7) 1 1 1 = true ∧ s.admits (.fw 0) (OD.GPIO_PULL 15) 1 1 1 = true ∧
    s.admits (.fw 0) (OD.KEY_REQUEST 15) 1 1 1 = true ∧ s.admits (.fw 0) OD.ALARM_ENABLE 1 1 1 = true ∧
    s.admits (.fw 0) (OD.GPIO_FUNC 0) 1 1 1 = true ∧ s.admits (.fw 0) OD.TICK_OUT_MODE 1 2 2 = true := by decide +kernel

theorem test_keyRequest : (run (.keyRequest (.fw 0) 15 1) on).rd (OD.KEY_PENDING 15) = 1 := by decide +kernel

theorem test_gpioFunc : (run (.gpioFunc (.fw 0) 0 1) on).pinSwitch 0 = some (0, false) ∧
    (run (.gpioFunc (.fw 0) 0 1) on).rd OD.PIN_SWITCHES = 1 := by decide +kernel

theorem test_stagedWrite : let s := on
    s.open_ (.fw 0) = true ∧ (objLookup (OD.TICK_SOURCE / 256) (OD.TICK_SOURCE % 256)).map (·.acc) = some .RS := by decide +kernel

/-! ### Orders to the units -/

theorem test_load : let s := on
    s.admits (.fw 0) OD.LOAD_CMD 1 1 1 = true ∧ s.rd OD.LOAD_STATE ≠ 1 ∧ s.rd OD.LOAD_SLOT < 16 ∧
      s.rd (OD.IMG_STATE (s.rd OD.LOAD_SLOT)) = 0 ∧ (run (.load (.fw 0)) s).rd OD.LOAD_STATE = 1 := by decide +kernel

theorem test_load_last_slot : let s := put on [(OD.LOAD_SLOT, 15)]
    s.rd OD.LOAD_SLOT < 16 ∧ (run (.load (.fw 0)) s).rd (OD.IMG_STATE 15) = 1 := by decide +kernel

theorem test_evict :
    let s : State := { put on [(OD.IMG_STATE 0, 2)] with flit := { slots := [(3, { st := .running })] } }
    s.admits (.fw 0) OD.LOAD_CMD 1 2 2 = true ∧ s.rd OD.LOAD_STATE ≠ 1 ∧ s.rd (OD.IMG_STATE (s.rd OD.LOAD_SLOT)) = 2 ∧
      s.imgItems (s.rd OD.LOAD_SLOT) ≠ 0 ∧ (run (.evict (.fw 0)) s).rd (OD.IMG_STATE 0) = 3 := by decide +kernel

/-- A load in progress in slot 0. -/
def load0 : LoadRun := ⟨0, 0, 4096, 0, 0, 1, none, false, 0, 0, 0, 0, [], {}, 0⟩

theorem test_cancel : let s : State := { put on [(OD.LOAD_STATE, 1)] with ldr := { run := some load0 } }
    s.admits (.fw 0) OD.LOAD_CMD 1 3 3 = true ∧ s.ldr.run = some load0 ∧
      (run (.cancel (.fw 0)) s).rd OD.LOAD_RESULT = 0x11 ∧ (run (.cancel (.fw 0)) s).ldr.run = none := by decide +kernel

theorem test_netLoad : let s := on
    s.admits (.fw 0) OD.NET_CMD 1 1 1 = true ∧ s.rd OD.COL_STATE = ColSt.empty ∧
      (run (.netLoad (.fw 0) 1) s).rd OD.COL_STATE = ColSt.loading := by decide +kernel

theorem test_inject : let s := put on [(OD.COL_STATE, 3)]
    s.admits (.fw 0) OD.INJECT 4 5 5 = true ∧ s.coln.inject = none ∧ (run (.inject (.fw 0) 5) s).coln.inject = some 5 := by
  decide +kernel

theorem test_unsealCore : let s := on
    s.admits (.fw 0) OD.UNSEAL_CORE 1 31 31 = true ∧ bit (s.rd OD.CORE_SEAL) 31 = false ∧ (s.core 31).st = .idle ∧
      s.joined 31 = false ∧ (run (.unsealCore (.fw 0) 31) s).ledg.unsealing = 2 ^ 31 := by decide +kernel

theorem test_chCmdInit : let s := put on [(OD.CH_STATE 7, ChSt.untrimmed)]
    s.admits (.fw 0) (OD.CH_CMD 7) 1 1 1 = true ∧ s.chSt 7 = ChSt.untrimmed ∧
      (run (.chCmdInit (.fw 0) 7 1) s).rd (OD.CH_STATE 7) = ChSt.init := by decide +kernel

theorem test_trcFlush : on.admits (.fw 0) OD.TRC_FLUSH 1 1 1 = true := by decide +kernel

theorem test_dbgEnd : let s := put on [(OD.DBG_LEVEL, 2)]
    s.admits (.fw 0) OD.DBG_END 1 1 1 = true ∧ (run (.dbgEnd (.fw 0) 1) s).rd OD.DBG_LEVEL = 0 := by decide +kernel

theorem test_paceReq : let s := ticking 0 0 .locked
    s.admits (.fw 0) OD.PACE_REQ 1 1 1 = true ∧ (run (.paceReq (.fw 0) 1) s).rd OD.PACE_REQ = 1 := by decide +kernel

/-! ### Flash, fuses, persist store and calendar -/

theorem test_flashErase : let s := on
    s.admits (.fw 0) OD.FLASH_ERASE 4 0x1000000 0x1000000 = true ∧ s.burning = false ∧ s.flashBusy = false ∧
      s.flashWritable 0x1000000 (0x1000000 + 65536) = true ∧ (run (.flashErase (.fw 0) 0x1000000) s).rd OD.FLASH_STATE = 1 := by
  decide +kernel

theorem test_flashErase_last_sector : let s := on
    s.admits (.fw 0) OD.FLASH_ERASE 4 0x3FF0000 0x3FF0000 = true ∧ s.flashWritable 0x3FF0000 (0x3FF0000 + 65536) = true := by
  decide +kernel

theorem test_flashProgram : let s := put on [(OD.FLASH_OFFSET, 0x1000000), (OD.FLASH_LENGTH, 2)]
    s.admitsBlob (.fw 0) OD.FLASH_DATA 2 = true ∧ s.flashWritable (s.rd OD.FLASH_OFFSET) (s.rd OD.FLASH_OFFSET + 2) = true ∧
      (run (.flashProgram (.fw 0) [1#8, 2#8]) s).rd OD.FLASH_OFFSET = 0x1000002 := by decide +kernel

theorem test_keyRevoke : let s : State := { on with boot := { keys := [(3, { valid := true })] } }
    s.admits .gq (OD.KEY_REVOKE 3) 1 1 1 = true ∧ s.burning = false ∧ (s.keySlot 3).state = 1 ∧ s.boot.runKey ≠ some 3 ∧
      (run (.keyRevoke .gq 3 1) s).boot.burn = some (.revoke 3) := by decide +kernel

theorem test_secEpochCommit : let s : State := { put on [(OD.FW_VERSION, 1)] with boot := { runEpoch := 64 } }
    s.admits (.fw 0) OD.SEC_EPOCH_COMMIT 1 64 64 = true ∧ s.boot.floor < 64 ∧ s.burning = false ∧ s.rd OD.FW_VERSION ≠ 0 ∧
      (run (.secEpochCommit (.fw 0) 64) s).boot.burn = some (.floor 64) := by decide +kernel

theorem test_persistEntry : let s := on
    s.admitsBlob (.fw 0) (OD.PERSIST_ENTRY 31) 1 = true ∧
      (run (.persistEntry (.fw 0) 31 [7#8]) s).rdBytes (OD.PERSIST_ENTRY 31) = [7#8] := by decide +kernel

theorem test_persistClear : let s : State := on.wrBytes (OD.PERSIST_ENTRY 31) [7#8]
    s.admits (.fw 0) OD.PERSIST_CLEAR 1 31 31 = true ∧ (run (.persistClear (.fw 0) 31) s).rdBytes (OD.PERSIST_ENTRY 31) = [] := by
  decide +kernel

theorem test_persistCommit : let s := put on [(OD.PERSIST_DIRTY, 1)]
    s.admits (.fw 0) OD.PERSIST_COMMIT 1 1 1 = true ∧ s.rd OD.PERSIST_STATE ≠ 2 ∧ s.rd OD.PERSIST_DIRTY ≠ 0 ∧
      (run (.persistCommit (.fw 0) 1) s).rd OD.PERSIST_STATE = 2 := by decide +kernel

theorem test_calNow : let s := on
    s.admits (.fw 0) OD.CAL_NOW 8 (dateOf 2026 2 28 23 59 59) (dateOf 2026 2 28 23 59 59) = true ∧
      s.flag OD.ALARM_ENABLE = false ∧
      (run (.calNow (.fw 0) (BitVec.ofNat 64 (dateOf 2026 2 28 23 59 59))) s).rd OD.CAL_NOW = dateOf 2026 2 28 23 59 59 := by
  decide +kernel

/-! ### Requests and resets -/

/-- The generator of P-384 as a key slot's 97 bytes. -/
def keyBytes : List Byte :=
  leBytes 1 8 ++
  leBytes 48 0xaa87ca22be8b05378eb1c71ef320ad746e1d3b628ba79b9859f741e082542a385502f25dbf55296c3a545e3872760ab7 ++
  leBytes 48 0x3617de4a96262c6f5d9e98bf9292dc29f8f41dbd289a147ce9da3113b5f0b8c00a60b1ce1d7e819d7a431d7c90ea0e5f

theorem test_keyProvision : let s := on
    s.admitsBlob .gq (OD.KEY_PROVISION 0) 97 = true ∧ keyBytes.length = 97 ∧ fieldAt keyBytes 0 1 < 16 ∧
      onCurve (fieldAt keyBytes 1 48) (fieldAt keyBytes 49 48) = true ∧ s.burning = false ∧ s.boot.life = Life.manufacture ∧
      (s.keySlot 0).state = 0 ∧ (run (.keyProvision .gq 0 keyBytes) s).burning = true := by decide +kernel

theorem test_flashRead : let s := put on [(OD.FLASH_LENGTH, 4)]
    s.admitsRead (.fw 0) OD.FLASH_DATA = true ∧
      ((run (.flashRead (.fw 0)) s).lastResp (.fw 0)).bytes = [0xFF#8, 0xFF#8, 0xFF#8, 0xFF#8] := by decide +kernel

/-- A pool of 512-byte buffers, READY, with an empty cache and `count` tickets in its ring. -/
def pooled (count : Nat) (cache : List Nat) : State :=
  { put on [(OD.POOL_STATE 7, 2), (OD.PAIR_READY 0, 1), (OD.PAIR_READY 1, 1)] with
    clok := { pools := [(7, { szLog := 12, base := 0x10000, buffers := 4, ringBase := 0x2000000, ringEntries := 64, count := count, cache := cache })] } }

theorem test_alloc : let w := setField 100 60 4 1
    let s := pooled 0 [7 * 2 ^ 29 + 1]
    s.admits (.fw 0) (OD.CLK_REQUEST 3) 8 w w = true ∧ bits (s.rd (OD.CLK_RESULT 3)) 62 2 ≠ 1 ∧ bit w 57 = false ∧
      (s.wr (OD.CLK_RESULT 3) (2 ^ 62)).allocWaits ((s.wr (OD.CLK_RESULT 3) (2 ^ 62)).clkReq 3 w) = false := by decide +kernel

theorem test_alloc_waits : let w := setField 100 60 4 1
    let s := pooled 1 []
    s.admits (.fw 0) (OD.CLK_REQUEST 3) 8 w w = true ∧ bits (s.rd (OD.CLK_RESULT 3)) 62 2 ≠ 1 ∧
      (s.wr (OD.CLK_RESULT 3) (2 ^ 62)).allocWaits ((s.wr (OD.CLK_RESULT 3) (2 ^ 62)).clkReq 3 w) = true ∧
      (run (.alloc 3 100) s).clok.waiting = [(3, ⟨35, 100, false, false, 0, none⟩)] := by decide +kernel

theorem test_release : let r : ClaimRec := ⟨7 * 2 ^ 29 + 1, none, [{ stage := none, agent := 35 }]⟩
    let s : State := { pooled 0 [] with clok := { (pooled 0 []).clok with recs := [r] } }
    let n := 7 * 2 ^ 29 + 1
    s.admits (.fw 0) (OD.CLK_REQUEST 3) 8 (2 * 2 ^ 60 + n) (2 * 2 ^ 60 + n) = true ∧ bits (s.rd (OD.CLK_RESULT 3)) 62 2 ≠ 1 ∧
      n ≠ noTicket ∧ s.clok.recs.find? (fun r => r.ticket = n) = some r ∧ r.claims.any (fun c => s.holdsClaim 35 r c) = true ∧
      (run (.release 3 (BitVec.ofNat 32 n)) s).rd (OD.CLK_RESULT 3) = clkDone 0 0 noTicket := by decide +kernel

theorem test_gqmGo : on.admits (.fw 0) OD.GQM_GO 1 1 1 = true ∧ on.rd OD.GQM_STATE ≠ 1 := by decide +kernel

theorem test_gqmGo_mute : let s := put on [(OD.GQ_MODE, 1)]
    s.admits (.fw 0) OD.GQM_GO 1 1 1 = true ∧ s.gqMute = true ∧ s.rd OD.GQM_STATE ≠ 1 := by decide +kernel

theorem test_tickCommit : let s := ticking 0 0 .locked
    s.admits (.fw 0) OD.TICK_COMMIT 1 1 1 = true ∧ s.admits (.fw 0) OD.TICK_COMMIT 1 0 0 = true ∧ s.tick.st ≠ .stopped ∧
      (run (.tickCommit (.fw 0) 1) s).tick.armFresh = some true := by decide +kernel

theorem test_resetCmdFull : let s := on
    s.admits .pf0 OD.RESET_CMD 1 1 1 = false ∧ s.admits .gq OD.RESET_CMD 1 1 1 = true ∧ s.pow.reset = none ∧
      (run (.resetCmdFull .gq) s).tick.st = .stopped := by decide +kernel

theorem test_resetCmdCold : let s := on
    s.admits .gq OD.RESET_CMD 1 2 2 = true ∧ s.dropForbidden 1 = false ∧ (run (.resetCmdCold .gq) s).pow.cold = some 0 := by
  decide +kernel

theorem test_agentReset : let s := on
    ∀ n, 32 ≤ n → n < 36 → s.admits .gq OD.AGENT_RESET 1 n n = true ∧ s.powered 1 = true ∧ s.runningOn n = none := by
  intro s n h1 h2
  have : n = 32 ∨ n = 33 ∨ n = 34 ∨ n = 35 := by omega
  rcases this with rfl | rfl | rfl | rfl <;> decide +kernel

theorem test_lifecycle_develop : let s := on
    s.admits .gq OD.LIFECYCLE_ADVANCE 4 0x4C430001 0x4C430001 = true ∧ s.burning = false ∧ s.boot.life < 1 ∧
      (run (.lifecycleAdvance .gq 0x4C430001) s).boot.life = 1 := by decide +kernel

theorem test_lifecycle_secure : let s : State := { on with boot := { life := 1, keys := [(0, { usage := 1, valid := true })] } }
    s.admits .gq OD.LIFECYCLE_ADVANCE 4 0x4C430002 0x4C430002 = true ∧ s.boot.life < 2 ∧
      (List.range 4).any (fun k => s.keyUsable k KeyUse.firmware && !bit (s.keySlot k).usage 3) = true ∧
      (run (.lifecycleAdvance .gq 0x4C430002) s).boot.life = 2 := by decide +kernel

/-! ### Accesses -/

/-- Whether a check passes. -/
def passes {α : Type} (x : Except Nat α) : Bool := match x with | .ok _ => true | .error _ => false

/-- Whether a write passes the checks and its unit's own. -/
def actsOn (s : State) (p : Path) (idx sub len v : Nat) : Bool :=
  match s.checkWrite p idx sub len v with
  | .ok (o, m) => decide ((s.act o (odKey idx sub) m).1 = 0)
  | .error _ => false

theorem test_expedited_read : let s := on
    s.open_ (.fw 0) = true ∧ passes (s.checkExpRead (.fw 0) OD.DOMAIN_ON 4 false) = true ∧
      ((run (.expeditedAccess (.fw 0) false (BitVec.ofNat 16 (OD.DOMAIN_ON / 256)) (BitVec.ofNat 8 (OD.DOMAIN_ON % 256)) false 4 0 false)
        s).lastResp (.fw 0)).val = 0x0FFFFFFF := by decide +kernel

theorem test_expedited_read_in_a_window :
    let u := linked.dwSet .pf0 (dwCmd true false false 0 false false) OD.DOMAIN_ON 4 []
    u.open_ .pf0 = true ∧ passes (u.checkExpRead .pf0 OD.DOMAIN_ON 4 false) = true := by decide +kernel

theorem test_expedited_write : let s := on
    let i := BitVec.ofNat 16 (OD.GPIO_PULL 3 / 256)
    let j := BitVec.ofNat 8 (OD.GPIO_PULL 3 % 256)
    actsOn s (.fw 0) i.toNat j.toNat 1 1 = true ∧
      (run (.expeditedAccess (.fw 0) true i j false 1 1 false) s).rd (OD.GPIO_PULL 3) = 1 := by decide +kernel

theorem test_expedited_write_in_a_window :
    let u := linked.dwSet .pf0 (dwCmd true false false 0 false true) (OD.GPIO_PULL 3) 1 (leBytes 8 1)
    u.open_ .pf0 = true ∧ actsOn u .pf0 (OD.GPIO_PULL 3 / 256) (OD.GPIO_PULL 3 % 256) 1 1 = true := by
  decide +kernel

theorem test_registerWrite :
    (run (.registerWrite (.fw 0) (BitVec.ofNat 16 (OD.GPIO_PULL 3 / 256)) (BitVec.ofNat 8 (OD.GPIO_PULL 3 % 256)) 1) on).rd
      (OD.GPIO_PULL 3) = 1 := by decide +kernel

theorem test_rcRead : let s := put on [(OD.EARLY_ARRIVALS, 9)]
    let k := OD.EARLY_ARRIVALS
    s.open_ (.fw 0) = true ∧ (objLookup (k / 256) (k % 256)).map (·.acc) = some .RC ∧
      passes (s.checkExpRead (.fw 0) k 4 false) = true ∧ k ≠ OD.MIN_FREE (k / 256 % 16) ∧
      (run (.rcRead (.fw 0) (BitVec.ofNat 16 (k / 256)) (BitVec.ofNat 8 (k % 256))) s).rd k = 0 := by decide +kernel

theorem test_faultNext : let r : FaultRec := ⟨1, 0, 66, 0, 1, 0, 0xFF, 0, 0⟩
    let s : State := { on with falt := { log := [r] } }
    s.admitsRead (.fw 0) OD.FAULT_NEXT = true ∧ (run (.faultNext (.fw 0)) s).falt.log = [] := by decide +kernel

theorem test_lostNext : let e : LostEntry := ⟨1, 2, 3, 4, 5, 6, 7⟩
    let s : State := { on with falt := { lost := [e, e] } }
    s.admitsRead (.fw 0) OD.LOST_NEXT = true ∧ s.admitsRead (.fw 0) OD.LOST_ALL = true ∧ (run (.lostNext (.fw 0)) s).falt.lost = [e] ∧
      (run (.lostAll (.fw 0)) s).falt.lost = [] := by decide +kernel

theorem test_unitAnswerTimeout : let s := on
    let i := BitVec.ofNat 16 (OD.GPIO_PULL 3 / 256)
    let j := BitVec.ofNat 8 (OD.GPIO_PULL 3 % 256)
    s.open_ (.fw 0) = true ∧ passes (s.checkObject (.fw 0) true i.toNat j.toNat 1) = true ∧
      ((run (.unitAnswerTimeout (.fw 0) true i j 1) s).lastResp (.fw 0)).code = Abort.timeout := by decide +kernel

/-! ### Segmented transfers -/

/-- An open write of PERSIST_ENTRY 0, of two bytes, and the path it is open on. -/
def writing (p : Path) : State := run (.segmentedOpen p true 0x1210 1 false 2 false) on

theorem test_segmentedOpen_write : let s := on
    s.open_ (.fw 0) = true ∧ passes (s.checkBlob (.fw 0) 0x1210 1 2) = true ∧ odKey 0x1210 1 = OD.PERSIST_ENTRY 0 ∧
      (writing (.fw 0)).xfer (.fw 0) = some { wr := true, key := OD.PERSIST_ENTRY 0, staged := false, len := 2, since := 0 } := by
  decide +kernel

theorem test_segmentedOpen_read : let s : State := on.wrBytes (OD.PERSIST_ENTRY 0) [1#8, 2#8]
    s.open_ (.fw 0) = true ∧ passes (s.checkObject (.fw 0) false 0x1210 1 0) = true ∧ s.objPowered (OD.PERSIST_ENTRY 0) = true ∧
      s.xfer (.fw 0) = none ∧ ((run (.segmentedOpen (.fw 0) false 0x1210 1 false 0 false) s).xfer (.fw 0)).map (·.buf) = some [1#8, 2#8] := by
  decide +kernel

theorem test_segment_of_a_write : let s := writing (.fw 0)
    s.open_ (.fw 0) = true ∧ s.objPowered (OD.PERSIST_ENTRY 0) = true ∧ segSize (.fw 0) = 64 ∧
      ((run (.segment (.fw 0) false false [9#8] false) s).xfer (.fw 0)).map (·.toggle) = some true ∧
      (run (.segment (.fw 0) true true [8#8] false) (run (.segment (.fw 0) false false [9#8] false) s)).rdBytes (OD.PERSIST_ENTRY 0) =
        [9#8, 8#8] := by decide +kernel

theorem test_segment_wrong_toggle : ((run (.segment (.fw 0) true false [9#8] false) (writing (.fw 0))).lastResp (.fw 0)).code = Abort.state := by
  decide +kernel

theorem test_segments_of_a_read : let s := run (.segmentedOpen (.fw 0) false 0x1210 1 false 0 false) (on.wrBytes (OD.PERSIST_ENTRY 0) (zeros 65))
    let t := run (.segment (.fw 0) false false [] false) s
    (t.xfer (.fw 0)).map (fun x => (x.wr, x.buf.length, x.toggle)) = some (false, 1, true) ∧
      (run (.segment (.fw 0) true false [] false) t).xfer (.fw 0) = none := by decide +kernel

theorem test_abortOwnTransfer : (writing (.fw 0)).open_ (.fw 0) = true ∧ (run (.abortOwnTransfer (.fw 0) false) (writing (.fw 0))).xfer (.fw 0) = none := by
  decide +kernel

theorem test_segmentTimeout : let s : State := { writing (.fw 0) with clk := { now := 500001 } }
    let t : State := { writing (.fw 0) with clk := { now := 500000 } }
    (s.xfer (.fw 0)).isSome = true ∧ (run (.segmentTimeout (.fw 0)) s).xfer (.fw 0) = none ∧
      ((run (.segmentTimeout (.fw 0)) t).xfer (.fw 0)).isSome = true := by decide +kernel

theorem test_dwStepDone :
    let s := run (.expeditedAccess .pf0 false (BitVec.ofNat 16 (OD.DOMAIN_ON / 256)) (BitVec.ofNat 8 (OD.DOMAIN_ON % 256))
      false 4 0 true) linked
    isWindow .pf0 = true ∧ (s.win .pf0).busy = true ∧ (s.win .pf0).answer = some { val := 0x0FFFFFFF } ∧ ((run (.dwStepDone .pf0) s).win .pf0).done = true := by
  decide +kernel

/-! ### Fault records and message signals -/

/-- A fault record of a class. -/
def recOf (c : Nat) : FaultRec := ⟨0, c, 1, 0, 1, 0, 0xFF, 0, 0⟩

theorem test_log_with_room : let s : State := { on with falt := { log := List.replicate 255 (recOf 0) } }
    s.falt.log.length < 256 ∧ (s.logFault (recOf 4)).falt.log.length = 256 := by decide +kernel

theorem test_log_full : let s : State := { on with falt := { log := List.replicate 255 (recOf 1) ++ [recOf 0] } }
    256 ≤ s.falt.log.length ∧ (∀ y ∈ s.falt.log, (recOf 0).cls ≤ y.cls) ∧
      (s.logFault (recOf 4)).falt.log = List.replicate 255 (recOf 1) ++ [recOf 4] := by decide +kernel

theorem test_log_full_of_higher : let s : State := { on with falt := { log := List.replicate 256 (recOf 4) } }
    (∀ y ∈ s.falt.log, (recOf 0).cls < y.cls) ∧ (s.logFault (recOf 0)).rd OD.FAULTS_LOST = 1 := by decide +kernel

theorem test_signal_sends : let s := linked
    s.powered 26 = true ∧ s.linkUp = true ∧ (s.msix true).bme = true ∧ (s.msix true).enabled = true ∧
      (s.msix true).mask.getLsbD 63 = false ∧ ((s.signal true 63).msix true).sent = [(63, 1)] := by decide +kernel

theorem test_signal_pends : let s := on
    s.powered 26 = true ∧ s.linkUp = false ∧ ((s.signal false 0).msix false).pend = 1 := by decide +kernel

theorem test_msixUnmask : let s : State := { linked with host := { linked.host with pf1 := { bme := true, enabled := true, pend := 1 } } }
    s.barLive = true ∧ ((run (.msixUnmask true (.vector 0)) s).msix true).sent = [(0, 1)] := by decide +kernel

/-! ### A stage on a matrix core -/

/-- A stage of slot 0 that core 0 runs. -/
def stage0 : Entry := ⟨0, 0, 0, 0, 0, false, none, 0, false, 0, 0, 0, .issued, 0, 0, 0, false, false, 0⟩

/-- Core 0 runs a stage whose program is the first 4 KiB of its alcove, at its second instruction; GATE is 0, the landings
of tenancy 0 are the first 64, its gallery extent the first mebibyte. -/
def coreOn (c : Core) : State :=
  { put on [(OD.GATE, 0), (OD.PAIR_READY 0, 1), (OD.LAND_BASE 0, 0), (OD.LAND_COUNT 0, 64), (OD.TEN_GAL_BASE 0, 0), (OD.TEN_GAL_SIZE 0, 0x100000)] with
    flit := { slots := [(0, { st := .running, stages := [0] })], entries := [stage0] }
    cores := [(0, { c with st := .running, pc := 0x100000008, progLo := 0x100000000, progHi := 0x100001000 })] }

/-- Its machine at the issue. -/
theorem issues_of (c : Core) (h : (coreOn c).canIssue 0 = true ∧ (coreOn c).runningOn 0 = some stage0 ∧
    (((coreOn c).readyCore 0).core 0).inProgram (((coreOn c).readyCore 0).core 0).pc = true ∧
    ((coreOn c).readyCore 0).mark (((coreOn c).readyCore 0).core 0).pc = 0) :
    (coreOn c).Issues 0 stage0 ((coreOn c).readyCore 0) :=
  ⟨h.1, h.2.1, h.2.2.1, by rw [h.2.2.2]; decide, by rw [h.2.2.2]; rfl⟩

theorem test_issues : (coreOn {}).Issues 0 stage0 ((coreOn {}).readyCore 0) := issues_of _ (by decide +kernel)

/-- A word with a correctable error is put right at the issue. -/
theorem test_issues_corrected : let s : State := { coreOn {} with mem := { marks := [(0x100000008 / 8, 1)] } }
    s.Issues 0 stage0 (s.eccCorrected 0 0x100000008) := ⟨by decide +kernel, by decide +kernel, by decide +kernel, by decide +kernel, rfl⟩

theorem test_ready_core_is_itself : (coreOn {}).coreSealed 0 = false := by decide +kernel

/-- The scalar registers of core 0 after an instruction from the state with S1 = a and S2 = b. -/
def after (i : Instr) (a b : Word) (k : Nat) : Word := ((run i (coreOn { s := [(1, a), (2, b)] })).core 0).sreg k

theorem test_add_wraps : after (.add 0 3 1 2) (-1) 2 3 = 1 := by decide +kernel
theorem test_sub_wraps : after (.sub 0 3 1 2) 1 2 3 = -1 := by decide +kernel
theorem test_mul_low : after (.mul 0 3 1 2) (-1) 5 3 = -5 := by decide +kernel
theorem test_logic : (after (.and 0 3 1 2) 12 10 3, after (.or 0 3 1 2) 12 10 3, after (.xor 0 3 1 2) 12 10 3) = (8, 14, 6) := by decide +kernel
theorem test_shifts_mod_64 : (after (.shl 0 3 1 2) 1 65 3, after (.shr 0 3 1 2) (-1) 127 3, after (.sra 0 3 1 2) (-8) 65 3) = (2, 1, -4) := by
  decide +kernel
theorem test_slt : (after (.slt 0 3 1 2) (-1) 0 3, after (.sltu 0 3 1 2) (-1) 0 3) = (1, 0) := by decide +kernel
theorem test_minmax : (after (.min 0 3 1 2) (-1) 0 3, after (.max 0 3 1 2) (-1) 0 3) = (-1, 0) := by decide +kernel
theorem test_s0_discards : after (.addi 0 0 1 7) 1 0 0 = 0 := by decide +kernel
theorem test_addi_sign : after (.addi 0 1 1 0xFFFFFFFF) 0 0 1 = -1 := by decide +kernel
theorem test_immediates_zero_extend :
    (after (.andi 0 3 1 0xFFFFFFFF) (-1) 0 3, after (.ori 0 3 1 0x80000000) 0 0 3, after (.xori 0 3 1 0xFFFFFFFF) 0 0 3) =
      (0xFFFFFFFF, 0x80000000, 0xFFFFFFFF) := by decide +kernel
theorem test_immediate_shifts :
    (after (.shli 0 3 1 65) 1 0 3, after (.shri 0 3 1 63) (-1) 0 3, after (.srai 0 3 1 1) (-8) 0 3) = (2, 1, -4) := by decide +kernel
theorem test_lui : after (.lui 0 3 0 0x80000001) 0 0 3 = 0x8000000100000000 := by decide +kernel

theorem test_retires : let t := run (.nop 0 0) (coreOn {})
    (t.core 0).pc = 0x100000010 ∧ t.rd (OD.INSTRUCTIONS 0) = 1 := by decide +kernel

/-- A branch back to the first instruction is taken; one to 16 bytes before the program is not, and raises PC_RANGE. -/
theorem test_branch_taken : ((run (.beq 0 0 0 0xFFFFFFFF) (coreOn {})).core 0).pc = 0x100000000 := by decide +kernel
theorem test_branch_not_taken : ((run (.bne 0 0 0 0xFFFFFFFF) (coreOn {})).core 0).pc = 0x100000010 := by decide +kernel
theorem test_branch_out_of_program : bits ((run (.jmp 0 0 0 0xFFFFFFFE) (coreOn {})).rd (OD.LAST_EXCEPTION 0)) 54 8 = Exc.pcRange := by
  decide +kernel
theorem test_jal_links : let t := run (.jal 0 5 0 1) (coreOn {})
    (t.core 0).sreg 5 = 0x100000010 ∧ (t.core 0).pc = 0x100000010 := by decide +kernel
theorem test_jr_misaligned : bits ((run (.jr 0 0 1 0) (coreOn { s := [(1, 0x100000004)] })).rd (OD.LAST_EXCEPTION 0)) 54 8 =
    Exc.misaligned := by decide +kernel

theorem test_endStage : let s := coreOn {}
    (s.core 0).dmaq = [] ∧ (s.core 0).running = none ∧ ((run (.endStage 0 1) s).core 0).st = .idle ∧
      (run (.endStage 0 1) s).flit.entries.map (·.st) = [.ended] := by decide +kernel

theorem test_endStage_illegal : bits ((run (.endStage 0 2) (coreOn {})).rd (OD.LAST_EXCEPTION 0)) 54 8 = Exc.illegal := by
  decide +kernel

theorem test_endStage_waits : let d : DmaDesc := ⟨0, 0, 1, 1, false, 0, 0, 0, 0, 0, 0⟩
    ((run (.endStage 0 0) (coreOn { dmaq := [d] })).core 0).pc = 0x100000008 := by decide +kernel

theorem test_fail : let t := run (.fail 0 0x2A) (coreOn {})
    bits (t.rd (OD.LAST_EXCEPTION 0)) 54 8 = Exc.user ∧ bits (t.rd (OD.LAST_EXCEPTION 0)) 0 8 = 0x2A := by decide +kernel

theorem test_reservedOp : Machine.reservedOp 9 = true ∧ Machine.reservedOp 0xFF = true ∧ Machine.reservedOp 8 = false ∧
    bits ((run (.reservedOp 0 9) (coreOn {})).rd (OD.LAST_EXCEPTION 0)) 54 8 = Exc.illegal := by decide +kernel

theorem test_planrd_tiled : let s := coreOn { tiled := true, plan := [3, 4] }
    (s.core 0).tiled = true ∧ ((run (.planrd 0 1 0 9) s).core 0).sreg 1 = 4 := by decide +kernel

theorem test_planrd_absent : bits ((run (.planrd 0 1 0 0) (coreOn {})).rd (OD.LAST_EXCEPTION 0)) 54 8 = Exc.planAbsent := by
  decide +kernel

theorem test_shset : ((run (.shset 0 0 1 7) (coreOn { s := [(1, 0x1FFFFFFFF)] })).item 0).shape 0 3 = 0xFFFFFFFF := by decide +kernel

/-! ### Memory, vectors and the array -/

/-- Core 0 with S1 = its alcove's second half, where nothing of the program lies. -/
def atWork (c : Core) : Core := { c with s := [(1, 0x100100000), (2, 0x80)], workLo := 0, workHi := 0x200000 }

theorem test_store_meets_its_conditions : let u := (coreOn (atWork {})).readyCore 0
    let a := 0x100100000
    u.isMem (u.stageAcc 0 stage0) true a 1 ∧ u.partialBad (u.stageAcc 0 stage0) (inSpan a 1) (rangeFrom a 1) = none ∧ u.bal.transfers = [] ∧
      (u.core 0).sealed = false ∧ (u.core 0).emitter = false ∧ inLandWindow a = false := by
  refine ⟨fun i h => ?_, by decide +kernel, by decide +kernel, by decide +kernel, by decide +kernel, by decide +kernel⟩
  have : i = 0 := by omega
  subst this
  decide +kernel

theorem test_store_then_load : let s := run (.st 0 2 1 0 0) (coreOn (atWork {}))
    s.memBytes 0x100100000 1 = [0x80#8] ∧ ((run (.ld 0 3 1 0 0) s).core 0).sreg 3 = 0x80 ∧
      ((run (.lds 0 3 1 0 0) s).core 0).sreg 3 = -128 := by decide +kernel

theorem test_load_misaligned : bits ((run (.ld 0 3 1 1 1) (coreOn (atWork {}))).rd (OD.LAST_EXCEPTION 0)) 54 8 = Exc.misaligned := by
  decide +kernel

theorem test_store_protected : let s := put (coreOn { s := [(1, 0x100000000)] }) [(OD.IMG_STATE 0, 2), (OD.IMG_ALCOVE_SIZE 0, 0x1000), (OD.IMG_CORES 0, 1)]
    s.protects 0 0x100000000 = true ∧ bits ((run (.st 0 0 1 3 0) s).rd (OD.LAST_EXCEPTION 0)) 54 8 = Exc.protect := by decide +kernel

theorem test_load_faults : ∃ v, ((coreOn {}).readyCore 0).stageLoad 0 stage0 0xF000000000 8 = (none, v) :=
  ⟨_, Prod.ext (by decide +kernel) rfl⟩

theorem test_store_faults : ∃ v, ((coreOn {}).readyCore 0).stageWrite 0 stage0 0xF000000000 (zeros 8) = (false, v) :=
  ⟨_, Prod.ext (by decide +kernel) rfl⟩

/-- Lane 0 of V3 after an instruction from V1 = a and V2 = b in lane 0. -/
def lane0 (i : Instr) (a b : Lane) : Lane := ((run i (coreOn { v := [(64, a), (128, b)] })).core 0).lane 3 0

theorem test_vadd_int : lane0 (.vadd 0 3 1 2 0 0 0 0) 0x7FFFFFFF 1 = 0x80000000 := by decide +kernel
theorem test_vsub_int : lane0 (.vsub 0 3 1 2 0 0 0 0) 0 1 = 0xFFFFFFFF := by decide +kernel
theorem test_vmul_int : lane0 (.vmul 0 3 1 2 0 0 0 0) 0x10000 0x10001 = 0x10000 := by decide +kernel
theorem test_vadd_fp : lane0 (.vadd 0 3 1 2 0 1 0 0) 0x3F800000 0x3F800000 = 0x40000000 := by decide +kernel
theorem test_vmul_fp : lane0 (.vmul 0 3 1 2 0 1 0 0) 0x40400000 0x40000000 = 0x40C00000 := by decide +kernel
theorem test_vector_type_illegal : bits ((run (.vadd 0 3 1 2 0 2 0 0) (coreOn {})).rd (OD.LAST_EXCEPTION 0)) 54 8 = Exc.illegal := by
  decide +kernel
theorem test_vsra_fp_illegal : bits ((run (.vsra 0 3 1 2 0 1 0 0) (coreOn {})).rd (OD.LAST_EXCEPTION 0)) 54 8 = Exc.illegal := by
  decide +kernel
theorem test_predicate_masks : ((run (.vadd 0 3 1 2 1 0 0 0) (coreOn { v := [(64, 5)], p := [(1, 0xFFFFFFFFFFFFFFFE)] })).core 0).lane 3 0 = 0 := by
  decide +kernel
theorem test_vcmp : ((run (.vcmp 0 1 1 2 0 0 0 0) (coreOn { v := [(64, 5)] })).core 0).preg 1 = BitVec.allOnes 64 - 1 := by decide +kernel
theorem test_vred_sum : lane0 (.vred 0 3 1 2 0 0 0 0) 7 0 = 7 := by decide +kernel
theorem test_vext_sign : ((run (.vext 0 3 1 0 0 0) (coreOn { v := [(64, 0x80000000)] })).core 0).sreg 3 = 0xFFFFFFFF80000000 := by
  decide +kernel
theorem test_vst_none_selected : let s := coreOn (atWork {})
    (s.core 0).preg 1 = 0#64 ∧ ((run (.vst 0 3 1 0 1 0) s).core 0).pc = 0x100000010 := by decide +kernel
theorem test_accwr : let s := coreOn { v := [(3 * 64, 9)] }
    (s.core 0).tileBusy 0 = false ∧ ((run (.accwr 0 3 0 0 0 0) s).core 0).accAt 0 0 = 9 := by decide +kernel
theorem test_accrd_waits : let s := coreOn { mmas := [⟨[[]], 0, ⟨0, 64, []⟩, 0, false, 0, false, none⟩] }
    (s.core 0).tileBusy 0 = true ∧ ((run (.accrd 0 3 0 0 0 0) s).core 0).pc = 0x100000008 := by decide +kernel

theorem test_wload_illegal_type : bits ((run (.wload 0 0 1 0 6 0 false false 0) (coreOn {})).rd (OD.LAST_EXCEPTION 0)) 54 8 = Exc.illegal := by
  decide +kernel
theorem test_wload_misaligned : bits ((run (.wload 0 0 1 0 0 0 false false 0) (coreOn { s := [(1, 0x100100010)] })).rd (OD.LAST_EXCEPTION 0)) 54 8 =
    Exc.misaligned := by decide +kernel
theorem test_wloadt_int4 : bits ((run (.wloadt 0 0 1 0 2 0 false false 0) (coreOn (atWork {}))).rd (OD.LAST_EXCEPTION 0)) 54 8 =
    ArrayExc.transposeInt4 := by decide +kernel
theorem test_mma_no_tile : bits ((run (.mma 0 0 1 0 0 0 false false 0) (coreOn (atWork {}))).rd (OD.LAST_EXCEPTION 0)) 54 8 = ArrayExc.noTile := by
  decide +kernel
theorem test_mma_type_mismatch : let s := coreOn (atWork { shadow := some ⟨4, 64, []⟩ })
    typesMatch 4 0 = false ∧ bits ((run (.mma 0 0 1 0 0 0 false false 0) s).rd (OD.LAST_EXCEPTION 0)) 54 8 = ArrayExc.typeMismatch := by
  decide +kernel
theorem test_mma_takes_its_tile : let s := coreOn (atWork { shadow := some ⟨0, 64, []⟩ })
    typesMatch 0 0 = true ∧ ((run (.mma 0 0 1 0 0 0 false false 0) s).core 0).mmas.length = 1 := by decide +kernel
/-- Rows read without a stride from bytes that read alike. -/
theorem rows_alike (n : Nat) (e : Entry) (d el a : Nat) (bs : List Byte) (s : State) (ha : a < 2 ^ 64)
    (h : s.stageLoad n e a (rowBytesOf d el) = (some bs, s)) :
    ∀ (k : Nat) (acc : List (List Nat)), ∃ rows, State.readRows n e d el 0 k s a acc = (some rows, s)
  | 0, acc => ⟨acc.reverse, rfl⟩
  | k + 1, acc => by
    obtain ⟨rows, hr⟩ := rows_alike n e d el a bs s ha h k (unpackCodes d bs el :: acc)
    refine ⟨rows, ?_⟩
    rw [State.readRows, h]
    show State.readRows n e d el 0 k s ((a + 0) % 2 ^ 64) _ = _
    rw [Nat.add_zero, Nat.mod_eq_of_lt ha]
    exact hr

theorem test_rows_are_read : ∃ rows, ((coreOn (atWork {})).readyCore 0).Rows 0 stage0 0 64 0 64 0x100100000 rows ((coreOn (atWork {})).readyCore 0) :=
  rows_alike 0 stage0 0 64 _ (zeros 64) _ (by decide) (Prod.ext (by decide +kernel) (by decide +kernel)) 64 []
theorem test_mmaComplete : let x : Mma := ⟨[], 0, ⟨0, 64, []⟩, 0, false, 0, false, none⟩
    let s := put (coreOn { mmas := [x] }) [(OD.KEEPER_GAP, 10)]
    s.rd OD.GATE = 0 ∧ (s.core 0).mmas = [x] ∧ (s.core 0).stepping = false ∧
      ((run (.mmaComplete 0 ⟨0, [5, 20], true, false⟩) s).rd (OD.KEEPER_CYCLES 0)) = 15 := by decide +kernel
theorem test_mmaComplete_parity : let x : Mma := ⟨[], 0, ⟨0, 64, []⟩, 0, false, 0, false, some stage0⟩
    let s := coreOn { mmas := [x] }
    s.runningOn 0 = some stage0 ∧ bits ((run (.mmaComplete 0 ⟨0, [], true, true⟩) s).rd (OD.LAST_EXCEPTION 0)) 54 8 = ArrayExc.weightParity := by
  decide +kernel
theorem test_keeperRampDown : let s := coreOn { gated := false }
    s.powered 2 = true ∧ s.rd OD.GATE = 0 ∧ s.held 0 = false ∧ ((run (.keeperRampDown 0) s).core 0).gated = true := by decide +kernel

/-! ### The DMA engine of a core -/

/-- A descriptor that copies one row of 8 bytes. -/
def copy8 : DmaDesc := ⟨0x100100000, 0x100100100, 8, 1, true, 0, 0, 0, 5, 0, 0⟩

theorem test_dma_full : let s := coreOn { dmaq := List.replicate 4 copy8 }
    4 ≤ (s.core 0).dmaq.length ∧ ((run (.dma 0 0 1 0) s).core 0).pc = 0x100000008 := by decide +kernel
theorem test_dma_outside : bits ((run (.dma 0 0 1 0) (coreOn { s := [(1, 0x100200000)] })).rd (OD.LAST_EXCEPTION 0)) 54 8 = Exc.dmaParam := by
  decide +kernel
theorem test_dma_misaligned : bits ((run (.dma 0 0 1 0) (coreOn { s := [(1, 0x100100020)] })).rd (OD.LAST_EXCEPTION 0)) 54 8 = Exc.misaligned := by
  decide +kernel
theorem test_dma_queues : ((run (.dma 0 0 1 0) (coreOn (atWork {}))).core 0).dmaq.length = 1 := by decide +kernel
theorem test_dmawait : let s := coreOn { dmaq := [copy8] }
    ((run (.dmawait 0 0) s).core 0).pc = 0x100000008 ∧ ((run (.dmawait 0 1) s).core 0).pc = 0x100000010 := by decide +kernel
theorem test_dmaRun_empty : let d : DmaDesc := { copy8 with rowBytes := 0 }
    let s := coreOn { dmaq := [d] }
    d.rowBytes * d.rows = 0 ∧ ((run (.dmaDescriptorRun 0) s).core 0).emptyMark = true := by decide +kernel
theorem test_dmaRun_copies : let s : State := { coreOn (atWork { dmaq := [copy8] }) with mem := { cells := [⟨0x100100000, 7⟩] } }
    let u := s.setCore 0 { s.core 0 with dmaq := [], running := some copy8 }
    u.firstSealed copy8.src 8 = none ∧ u.partialBad (u.stageAcc 0 stage0) (inSpan copy8.dst 8) (rangeFrom copy8.dst 8) = none ∧
      (∀ i : Fin 8, u.protects 0 (copy8.dst + i) = false ∧ u.place (u.stageAcc 0 stage0) false (copy8.src + i) = .mem ∧
        u.place (u.stageAcc 0 stage0) true (copy8.dst + i) = .mem ∧ u.mark (copy8.src + i) = 0) ∧
      (run (.dmaDescriptorRun 0) s).memByte 0x100100100 = 7 := by decide +kernel
theorem test_dmaDone_signals : let s := coreOn { running := some copy8 }
    (run (.dmaDescriptorDone 0) s).landRaw 5 % 2 ^ 24 = 1 := by decide +kernel

/-! ### Landings -/

/-- Landing 5 with a word and a payload port; Newel core 0 is agent 32. -/
def landed (w : Nat) (p : LandPort) : State :=
  { put on [(OD.DBG_LEVEL, 2)] with land := { words := [(5, BitVec.ofNat 64 w)], ports := [(5, p)] } }

/-- Agent 32, without a tenancy's context. -/
def q32 : Requester := ⟨32, none⟩

/-- What an operation of agent 32 on landing 5 leaves as its word. -/
def wordAfter (w : Nat) (op : LandOp) : Nat := ((landed w {}).landOp q32 5 op 7).2.landRaw 5 % 2 ^ 48

/-- What it answers. -/
def landAns (w : Nat) (op : LandOp) : Option LandRes := ((landed w {}).landOp q32 5 op 7).1

theorem test_landing_quiet : (landed 0 {}).quiet 5 := by unfold State.quiet; decide +kernel

theorem test_landing_reached : (landed 0 {}).landsOn q32 5 .read ∧ (landed 0 {}).landsOn q32 65535 (.add 1) ∧
    (landed 0 {}).landsOn ⟨66, none⟩ 5 .force := by unfold State.landsOn; decide +kernel

theorem test_landing_init : initBad 0 (3 * 2 ^ 61 + 4 * 2 ^ 40) = false ∧ initBad 0 (3 * 2 ^ 61) = true ∧
    wordAfter 0 (.init 7) = 7 := by decide +kernel

theorem test_landing_add : modeOf 9 = 0 ∧ wordAfter 9 (.add 0xFFFFFF) % 2 ^ 24 = 0xFFFFFF ∧ wordAfter 9 (.add 3) % 2 ^ 24 = 12 := by
  decide +kernel

theorem test_landing_set_clear : modeOf (2 ^ 61) = 1 ∧ wordAfter (2 ^ 61) .set % 2 = 1 ∧ wordAfter (2 ^ 61 + 1) .clear % 2 = 0 := by
  decide +kernel

theorem test_landing_acquire : modeOf (2 ^ 62) = 2 ∧ bit (wordAfter (2 ^ 62) .acquire) 0 = true ∧
    landAns (2 ^ 62 + 1 + 3 * 2 ^ 48) .acquire = some .parked ∧ agentOf (2 ^ 62 + 1 + 3 * 2 ^ 48) ≠ 32 := by decide +kernel

theorem test_landing_release : let w := 2 ^ 62 + 1 + 32 * 2 ^ 48
    modeOf w = 2 ∧ bit w 0 = true ∧ agentOf w = 32 ∧ bit (wordAfter w .release) 0 = false := by decide +kernel

theorem test_landing_arrive : modeOf (3 * 2 ^ 61 + 4 * 2 ^ 40) = 3 ∧
    bits (wordAfter (3 * 2 ^ 61 + 4 * 2 ^ 40) .arrive) 32 8 = 1 := by decide +kernel

theorem test_landing_wait : satisfied (2 ^ 61 + 1) (genOf (2 ^ 61 + 1)) = true ∧ satisfied (2 ^ 61) (genOf (2 ^ 61)) = false ∧
    landAns (2 ^ 61) .wait = some .parked ∧ (landAns (2 ^ 61 + 1) .wait).isSome = true := by decide +kernel

theorem test_landing_ack : let w := 2 ^ 62 + 1 + 32 * 2 ^ 48 + 2 ^ 59
    bit (((landed w {}).landOp q32 5 (.ack 2) 7).2.landRaw 5) 59 = false := by decide +kernel

theorem test_landing_force : let t := ((landed (2 ^ 62 + 1) {}).landOp ⟨66, none⟩ 5 .force 0).2
    bit (t.landRaw 5) 0 = false ∧ t.rd OD.FORCED_RELEASES = 1 := by decide +kernel

theorem test_landing_push : (((landed 0 {}).landOp q32 5 (.push 9 false) 0).2.port 5).q = [⟨32, 9, false⟩] := by decide +kernel

theorem test_landing_push_full : let p : LandPort := { q := List.replicate 4 ⟨1, 2, false⟩ }
    4 ≤ p.q.length ∧ (((landed 0 p).landOp q32 5 (.push 9 false) 0).2.port 5).drops = 1 := by decide +kernel

theorem test_landing_take : let s := landed 0 { q := [⟨1, 2, false⟩] }
    ((s.landOp q32 5 .take 0).2.port 5).q = [] ∧ (s.landOp q32 5 .portStatus 0).1 = some (.word 1) ∧
      (s.landOp q32 5 (.peek 3) 0).1.isSome = true := by decide +kernel

theorem test_landing_row_answers : let s := landed 7 {}
    s.parkedAgent 32 = false ∧ Sparse.get (fun _ => .none) (run (.landingRead q32 5) s).land.resp 32 = .word (s.landWord 5) := by
  decide +kernel

theorem test_landing_row_error : let s := landed 0 {}
    s.runningOn 32 = none ∧ Sparse.get (fun _ => .none) (run (.landingSet q32 5) s).land.resp 32 = .error ∧
      (run (.landingSet q32 5) s).rd (OD.CLASS_COUNTS FaultClass.item) = 1 := by decide +kernel

theorem test_landing_row_denied : let s := landed 0 {}
    s.landReach ⟨32, some 3⟩ 5 = false ∧ (s.landOp ⟨32, some 3⟩ 5 .read 0).1 = none := by decide +kernel

theorem test_landing_released : let s : State := { landed (2 ^ 61 + 1) {} with land := { words := [(5, 0x2000000000000001#64)], waiters := [⟨33, 5, false, 0, 0, 0⟩] } }
    s.returners 5 = [] ∧ (s.landEvaluate1 5).2 = true ∧ (s.landEvaluate1 5).1.land.waiters = [] := by decide +kernel

theorem test_landing_unreleased : let s : State := { on with land := { words := [(5, 0x2000000000000000#64)], waiters := [⟨33, 5, false, 0, 0, 0⟩] } }
    s.returners 5 = [] ∧ (s.landEvaluate1 5).2 = false := by decide +kernel

theorem test_holdLimitExpiry : let w := 2 ^ 62 + 1 + 33 * 2 ^ 48 + 10 * 2 ^ 32 + 10 * 2 ^ 16
    let s := landed w {}
    heldOf w = true ∧ holdLimit w ≠ 0 ∧ holdLimit w ≤ holdTime w ∧ s.halted (agentOf w) = false ∧ s.runningOn (agentOf w) = none ∧
      (run (.holdLimitExpiry 5) s).rd OD.HOLD_EXPIRIES = 1 := by decide +kernel

theorem test_landingEccError : (run (.landingEccError false 5) (landed 7 {})).landRaw 5 = 2 ^ 60 + 2 ^ 24 ∧
    (run (.landingEccError true 5) (landed 7 {})).landRaw 5 = 7 := by decide +kernel

/-! ### Landing instructions -/

theorem test_larr_by_instruction : ((run (.ladd 0 0 1 2 5) (coreOn { s := [(2, 3)] })).landRaw 5) % 2 ^ 24 = 3 := by decide +kernel

theorem test_lwait_parks : ((run (.lwait 0 3 1 2 5) (coreOn {})).core 0).st = .parked := by decide +kernel

theorem test_landing_window : let a := 0x200000000 + 5 * 0x100
    inLandWindow a = true ∧ landLoadOp (a % 0x100) = some .read ∧ (landStoreOp 8 7 false).isSome = true ∧ landLoadOp 0x81 = none ∧ landStoreOp 0x81 7 false = none ∧
      ((run (.ld 0 3 1 3 0) (coreOn { s := [(1, BitVec.ofNat 64 a)] })).core 0).sreg 3 = (coreOn {}).landWord 5 := by decide +kernel

theorem test_landing_window_wrong_size : let s := coreOn { s := [(1, 0x200000500)] }
    (run (.ld 0 3 1 2 0) s) = (s.readyCore 0).stageFault stage0 4 0x200000500 none := by decide +kernel

/-! ### The dispatcher -/

/-- One released stage for an engine whose image has a stage of a kind. -/
def released (engine kind : Nat) : State :=
  { put on [(OD.GATE, 0), (OD.IMG_CORES 0, 0xFFFFFFFF)] with
    flit := { slots := [(0, { st := .running, stages := [0], input := 0x100100000, inLen := 64 })]
              entries := [{ stage0 with engine := engine, st := .released }] }
    ldr := { images := [(0, { stages := [⟨kind, 0, 0, 0, 0, 0, 0, 0, 0, 0, 0⟩], sections := [⟨1, 0, 0, 0, 0, 0, 0⟩] })] } }

/-- Headers of a unit without a picture. -/
def noUnit : UnitHeaders := ⟨false, none, false, none, false, false, false, 0⟩

theorem test_nextIssue : ∀ x ∈ [(0, 0), (31, 0), (32, 2), (35, 2), (36, 3), (37, 3), (38, 4), (40, 5), (47, 5)],
    let s := released x.1 x.2
    let e : Entry := { stage0 with engine := x.1, st := .released }
    s.nextIssue = some e ∧ s.issueCause e = none ∧ (s.stageDef e).isSome = true := by decide +kernel

theorem test_stageIssue_core : let t := run (.stageIssue noUnit) (released 31 0)
    (t.core 31).st = .running ∧ (t.core 31).pc = 0x100000000 + 31 * 0x200000 := by decide +kernel

theorem test_stageIssue_cause : let s := put (released 0 0) [(OD.GATE, 1)]
    s.issueCause { stage0 with st := .released } = some 1 ∧ (run (.stageIssue noUnit) s).flit.entries = [] := by decide +kernel

theorem test_stageComplete_core : let s := run (.endStage 0 0) (coreOn {})
    s.flit.entries.find? (fun e => e.st = .ended && e.engine = 0) ≠ none ∧
      (run (.stageComplete 0 ⟨false, false, 0, []⟩) s).flit.entries = [] := by decide +kernel

theorem test_stageComplete_newel : let s := { released 32 2 with flit := { (released 32 2).flit with entries := [{ stage0 with engine := 32 }] } }
    (∀ x ∈ s.flit.entries, x.st = .ended → x.engine ≠ 32) ∧ s.halted 32 = false ∧ (s.runningOn 32).isSome = true ∧
      (run (.stageComplete 32 ⟨true, false, 9, []⟩) s).flit.entries = [] := by decide +kernel

theorem test_bgQuantum : let e := { stage0 with bg := true }
    let s : State := { put (coreOn {}) [(OD.BG_QUANTUM, 10)] with flit := { (coreOn {}).flit with entries := [e] }, clk := { now := 501 } }
    let r : State := { s with clk := { now := 500 } }
    s.runningOn 0 = some e ∧ e.issuedAt + usEdges (s.rd OD.BG_QUANTUM) < s.clk.now ∧ (run (.bgQuantumExpiry 0) s).rd OD.BG_OVERRUNS = 1 ∧
      r.clk.now ≤ e.issuedAt + usEdges (r.rd OD.BG_QUANTUM) ∧ (run (.bgQuantumExpiry 0) r).rd OD.BG_OVERRUNS = 0 := by decide +kernel

theorem test_stopItem : let s := coreOn {}
    (s.item 0).st = .running ∧ ((s.stopItem 0 5 1 2 3 none).item 0).st = .stopping ∧
      (s.stopItem 0 5 1 2 3 none).flit.letting = [(0, 0)] ∧ (s.item 7).st ≠ .running ∧ (s.item 7).st ≠ .admitted := by decide +kernel

theorem test_stageDone : let f := { stage0 with stage := 1 }
    let s : State := { coreOn {} with flit := { (coreOn {}).flit with entries := [stage0, f] } }
    (∃ x ∈ s.flit.entries, x.slot = stage0.slot ∧ x.same stage0 = false) ∧ ((s.stageDone stage0 true false 8).item 0).outBytes = 8 := by
  refine ⟨⟨{ stage0 with stage := 1 }, by decide +kernel, by decide +kernel⟩, by decide +kernel⟩

theorem test_itemStopDone : let s : State := { coreOn {} with flit := { slots := [(0, { st := .stopping })], letting := [(3, 0)] } }
    (s.item 0).st = .stopping ∧ (s.item 1).st ≠ .stopping ∧ (run (.itemStopDone 0) s).flit.letting = [] := by decide +kernel

/-! ### Rings -/

/-- Tenancy 15 ACTIVE with rings of 8 entries, two descriptors rung and free slots. -/
def ringing (x : Tenancy) : State :=
  let s := put linked [(OD.SLOT_LIMIT 15, 100)]
  { s with host := { s.host with tens := [(15, { x with st := .active, sqBase := 0x1000, sqSize := 8, cqBase := 0x2000, cqSize := 8 })] } }

theorem test_sqTail : let s := ringing {}
    s.barLive = true ∧ (s.tenancy 15).st = .active ∧ 7 % 2 ^ 16 < (s.tenancy 15).sqSize ∧ ((run (.sqTail 15 7 true) s).tenancy 15).sqTail = 7 ∧
      (run (.sqTail 15 8 true) s).rd (OD.DOORBELL_ERRORS 15) = 1 := by decide +kernel

theorem test_cqHead : let s := ringing { cqUsed := 3 }
    let x := s.tenancy 15
    (3 + x.cqSize - x.cqHead) % x.cqSize ≤ x.cqUsed ∧ ((run (.cqHead 15 3 true) s).tenancy 15).cqUsed = 0 ∧
      x.cqUsed < (4 + x.cqSize - x.cqHead) % x.cqSize ∧ (run (.cqHead 15 4 true) s).rd (OD.DOORBELL_ERRORS 15) = 1 := by decide +kernel

theorem test_cqIrqDelay : let s : State := { put (ringing { unsignalled := 1 }) [(OD.CQ_IRQ_DELAY 15, 1)] with clk := { now := 50 } }
    (s.tenancy 15).unsignalled ≠ 0 ∧ s.rd (OD.CQ_IRQ_DELAY 15) ≠ 0 ∧
      (s.tenancy 15).unsigSince + 50 * s.rd (OD.CQ_IRQ_DELAY 15) ≤ s.clk.now ∧
      ((run (.cqIrqDelayExpiry 15) s).tenancy 15).unsignalled = 0 := by decide +kernel

theorem test_descriptorFetch : let s := ringing { sqTail := 2 }
    s.fetching = true ∧ s.fetchable 15 = 2 ∧ (∀ j, j < 15 → s.fetchable ((s.host.rr + 1 + j) % 16) = 0) ∧
      ((run .descriptorFetch s).tenancy 15).fetching = [2] := by decide +kernel

theorem test_descriptorFetch_nothing : ∀ t, t < 16 → (ringing {}).fetchable t = 0 := by decide +kernel

/-- An ITEM descriptor of one run on flight 1, tag 7. -/
def item1 : BitVec 512 := BitVec.ofNat 512 (1 + 1 * 2 ^ 16 + 7 * 2 ^ 32 + 1 * 2 ^ 64)

theorem test_descriptorCheck_failed : let s := ringing { sqTail := 1, fetching := [1] }
    (s.tenancy 15).fetching ≠ [] ∧ s.fetching = true ∧ s.fetchFailed (s.tenancy 15) .error = true ∧
      ((run (.descriptorCheck 15 .error) s).tenancy 15).st = .wedged := by decide +kernel

theorem test_descriptorCheck_bad : let s := ringing { sqTail := 1, fetching := [1] }
    s.fetchFailed (s.tenancy 15) (.data 0) = false ∧ s.freeSlot = some 0 ∧ s.badReason 15 false (fetchBytes (.data 0)) = 1 ∧
      (run (.descriptorCheck 15 (.data 0)) s).rd (OD.BAD_DESCRIPTORS 15) = 1 := by decide +kernel

theorem test_descriptorCheck_nop : let s := ringing { sqTail := 1, fetching := [1] }
    s.badReason 15 false (fetchBytes (.data 3)) = 0 ∧ fieldAt (fetchBytes (.data 3)) 0 1 = 3 ∧
      ((run (.descriptorCheck 15 (.data 3)) s).tenancy 15).cqUsed = 1 := by decide +kernel

theorem test_writeRecord : let s : State := { ringing {} with flit := { slots := [(0, { st := .closing, ten := 15, tag := 0xAB })] } }
    s.hostRange 0x2000 32 = none ∧ (s.writeRecord 0 false).1 = .written ∧ (s.writeRecord 0 false).2.hostByte 0x2000 = 0xAB#8 := by
  decide +kernel

theorem test_writeRecord_unsent : let s : State := { on with flit := { slots := [(0, { st := .closing, ten := 15 })] } }
    s.linkUp = false ∧ (s.writeRecord 0 false).1 = .unsent := by decide +kernel

theorem test_writeRecord_failed : let s : State := { ringing {} with
      flit := { slots := [(0, { st := .closing, ten := 15 })] }, host := { (ringing {}).host with bad := [⟨0x201F, 0x201F, 1⟩] } }
    s.hostRange 0x2000 32 ≠ none ∧ (s.writeRecord 0 false).1 = .failed := by decide +kernel

theorem test_bmeClear : let s := ringing {}
    s.powered 26 = true ∧ s.host.pf1.bme = true ∧ (∃ t, t < 16 ∧ ((s.tenancy t).st = .active ∨ (s.tenancy t).st = .draining)) ∧
      ((run .bmeClear s).tenancy 15).st = .wedged ∧ (run .bmeClear s).rd OD.PF1_STATE = 1 := by decide +kernel

theorem test_bmeClear_idle : let s := linked
    (∀ t, t < 16 → (s.tenancy t).st ≠ .active ∧ (s.tenancy t).st ≠ .draining) ∧ (run .bmeClear s).host.pf1.bme = false := by decide +kernel

/-! ### Images and plans -/

/-- A load in progress in slot 3. -/
def loading (r : LoadRun) : State :=
  { put linked [(OD.LOAD_STATE, 1), (OD.IMG_STATE 3, 1), (OD.PAIR_READY 0, 1)] with ldr := { run := some r } }

/-- A run whose header bytes are read: zeros. -/
def load3 : LoadRun :=
  { slot := 3, source := 0x100000000, length := 0x1000, gbase := 0, abase := 0, cores := 1, ctx := none
    bytes := (List.range 128).map (fun i => (i, some 0#8)) }

theorem test_loadTables_fails : load3.tables = false ∧
    (match (loadTables load3 (loading load3)).1 with | .error f => decide (f = (4, 0)) | .ok _ => false) = true := by decide +kernel

theorem test_loadRead_header : (match ((loading load3).loadRead 128 load3 0 []).1 with | .ok h => h.length | .error _ => 0) = 128 := by
  decide +kernel

theorem test_header_checks : headerFail (leBytes 4 0x52555242 ++ leBytes 2 2 ++ zeros 122) 0 = some (5, 4) ∧
    headerFail (leBytes 4 0x52555242 ++ leBytes 2 1 ++ leBytes 2 128 ++ zeros 120) 5 = some (6, 8) ∧
    headerFail (zeros 128) 0 = some (4, 0) := by decide +kernel

/-- A run past its tables, with one section of one gallery byte. -/
def load4 : LoadRun := { load3 with tables := true, img := { sections := [⟨0, 0, 8, 1, 0, 1, 0⟩] } }

theorem test_loadSection : (match ((loading load4).loadRead 1 load4 8 []).1 with | .ok h => h | .error _ => []) = [0#8] ∧
    ((loading load4).loadWrite (fitBytes 1 [0#8]) (load4.dests ⟨0, 0, 8, 1, 0, 1, 0⟩)).1 = true := by decide +kernel

theorem test_loadWrite_meets : (loading load4).isMem { agent := 67, ctx := none } true 0 1 ∧ (loading load4).partialBad { agent := 67, ctx := none } (inSpan 0 1) (rangeFrom 0 1) = none := by
  unfold State.isMem; decide +kernel

theorem test_loadEnd : let t := (loading load3).loadEnd load3 (4, 0)
    load3.slot < 16 ∧ t.rd OD.LOAD_RESULT = 4 ∧ t.rd (OD.IMG_STATE 3) = 0 ∧ t.ldr.run = none := by decide +kernel

theorem test_loadOk : let t := (loading load4).loadOk load4 (zeros 128)
    t.rd OD.LOAD_RESULT = 1 ∧ t.rd (OD.IMG_STATE 3) = 2 := by decide +kernel

/-- Tensors of a tiled stage: weights 64 by 64, activations and outputs of 64 columns. -/
def tens3 : List TensorDef := [⟨0, 2, 0, [64, 64], 0, 0, 0⟩, ⟨0, 2, 0, [32, 64], 0, 0, 0⟩, ⟨0, 2, 0, [32, 64], 0, 0, 0⟩]

/-- A tiled stage map entry. -/
def tiled (maxShape : Nat) : StageDef := ⟨0, 2, 0, 3, 0, 0, 0, 1, maxShape, 0, 0x10000⟩

theorem test_tilePlan : let s : State := { put on [(OD.FW_VERSION, 1)] with
      flit := { slots := [(1023, { st := .running, runs := 256, stages := [0], shapes := [9, 0, 0, 0] })] }
      ldr := { images := [(0, { stages := [tiled 16], tensors := tens3 })] } }
    s.firmwareServes = true ∧ (tiled 16).tiledTensors tens3 ≠ none ∧ (s.item 1023).shape 255 0 = 9 ∧
      ((run (.tilePlan 1023 255 0) s).item 1023).plans.length = 1 := by decide +kernel

theorem test_plan_bounds : let d := tiled 16
    let p := makePlan d (tens3.getD 0 ⟨0, 0, 0, [], 0, 0, 0⟩) (tens3.getD 1 ⟨0, 0, 0, [], 0, 0, 0⟩) (tens3.getD 2 ⟨0, 0, 0, [], 0, 0, 0⟩) 17
    tileRow 64 64 8 8 ≠ 0 ∧ tileRow 64 64 8 8 ≤ d.workBytes ∧ p.getD 0 0 = 16 := by decide +kernel

/-! ### Bundles and sealing -/

/-- A device whose gallery and cores are up. -/
def ready : State := put linked [(OD.PAIR_READY 0, 1), (OD.PAIR_READY 1, 1), (OD.GATE, 0), (OD.TEN_GAL_BASE 0, 0), (OD.TEN_GAL_SIZE 0, 0x100000)]

theorem test_sweepStart : let s : State := { ticking 1 937519 .locked with tick := { st := .locked } }
    s.tick.swept = false ∧ s.sweepAt ≤ s.clk.now ∧ (run .sweepStart s).tick.swept = true := by decide +kernel

/-- Layer 3 enabled for tenancy 0 and ready, layer 4 enabled too. -/
def layers34 (c : CopySt) : Sparse LayerRun :=
  [(3, { cfg := { enable := true, base := 0x10000 }, ready := some 7, copy := c }), (4, { cfg := { enable := true, base := 0x20000 } })]

theorem test_copyNext : let s : State := { ready with tick := { swept := true }, ledg := { cur := { layers := layers34 .idle } } }
    s.ledg.pub = none ∧ s.ledg.cur.copying = false ∧ s.ledg.cur.nextCopy = some 3 ∧ ((s.copyNext).layer 3).copy = .running := by
  decide +kernel

theorem test_layerCopyDone : let s : State := { ready with ledg := { cur := { layers := layers34 .running } } }
    s.ledg.pub = none ∧ (s.layer 3).copy = .running ∧ s.copySealed (s.layer 3) = false ∧
      (s.copyLayer 3 s.ledg.cur.epoch (s.layer 3)).1.isSome = true ∧ ((run (.layerCopyDone 3 true) s).layer 3).copy = .copied ∧
      ((run (.layerCopyDone 3 false) s).layer 3).copy = .failed := by decide +kernel

/-- The publishing epoch of those layers, with tenancy 0's header still to write. -/
def published (c : CopySt) : State :=
  { ready with clk := { now := 100 }
               ledg := { pub := some { epoch := 9, layers := layers34 c, bnd := [(0, (0x40000, 4))], point := 100, headers := [0] } } }

theorem test_layerCopyDone_published : let s := published .running
    (s.ledg.pub.map (fun e => (e.layer 3).copy)) = some .running ∧
      ((run (.layerCopyDone 3 true) s).ledg.pub.map (fun e => (e.layer 3).fixed)) = some (some 1) := by decide +kernel

theorem test_layerGraceExpiry : let s := published .idle
    (s.ledg.pub.map (fun e => ((e.layer 3).cfg.enable, (e.layer 3).fixed, e.point + 50 * (e.layer 3).cfg.grace))) = some (true, none, 100) ∧
      ((run (.layerGraceExpiry 3) s).ledg.pub.map (fun e => (e.layer 3).fixed)) = some (some 0) := by decide +kernel

theorem test_fixLayer_meets : (published .idle).ledg.pub.map (fun e => (e.layersOf 0, e.slotBase 0)) = some ([3, 4], 0x41000) := by
  decide +kernel

theorem test_fixLayer : let s := published .idle
    ∃ a, a = ((s.ledg.pub.map (fun e => e.slotBase 0 + 64 + 96)).getD 0) ∧ s.isMem (bundleAcc 0) true a 32 ∧
      s.partialBad (bundleAcc 0) (inSpan a 32) (rangeFrom a 32) = none ∧ (s.fixLayer 3 0 0 none).rd OD.LAYERS_DROPPED = 1 := by
  refine ⟨_, rfl, ?_, by decide +kernel, by decide +kernel⟩
  unfold State.isMem
  decide +kernel

theorem test_bundleHeader : let s := published .idle
    let u := (s.fixLayer 3 0 0 none)
    (u.ledg.pub.map (·.headers)) = some [0] ∧ ((run (.layerGraceExpiry 4) u).ledg.pub = none) ∧
      (run (.layerGraceExpiry 4) u).rd (OD.BND_LAST_EPOCH 0) = 9 := by decide +kernel

theorem test_unsealFillDone : let s : State := { ready with ledg := { unsealing := 2, tainted := 2 } }
    bit s.ledg.unsealing (1 : Fin 32) = true ∧ (run (.unsealFillDone 1) s).ledg.tainted = 0 := by decide +kernel

theorem test_sealFillDone : let s : State := { ready with ledg := { fills := [(0x1000, 0x1008)] }, mem := { cells := [⟨0x1000, 5⟩, ⟨0x1008, 6⟩] } }
    (run .sealFillDone s).ledg.fills = [] ∧ (run .sealFillDone s).mem.cells = [⟨0x1008, 6⟩] := by decide +kernel

/-! ### Pools -/

theorem test_ringWrite : let s := pooled 63 []
    (s.pool 7).count < (s.pool 7).ringEntries ∧
      (let a := (s.pool 7).ringBase + 4 * (((s.pool 7).head + (s.pool 7).count) % (s.pool 7).ringEntries)
       s.meetsImage a 4 = false ∧ (∀ i, i < 4 → s.place clokAcc true (a + i) = .mem) ∧ s.partialBad clokAcc (inSpan a 4) (rangeFrom a 4) = none) ∧
      ((State.ringWrite 7 [7 * 2 ^ 29 + 2] s).pool 7).count = 64 := by decide +kernel

theorem test_ringRead : let s : State := { pooled 1 [] with mem := { cells := [⟨0x2000003, 0xE0⟩] } }
    (∀ i, i < 4 → s.place clokAcc false (0x2000000 + i) = .mem ∧ s.mark (0x2000000 + i) = 0) ∧
      (State.ringRead 7 1 s []).1 = [7 * 2 ^ 29] := by decide +kernel

theorem test_poolFillDone : let s := put (pooled 0 []) [(OD.POOL_STATE 7, 1)]
    s.rd (OD.POOL_STATE 7) = 1 ∧ (run (.poolFillDone 7) s).rd (OD.POOL_STATE 7) = 2 ∧ ((run (.poolFillDone 7) s).pool 7).count = 4 := by
  decide +kernel

theorem test_cacheRefill : let s : State := { pooled 1 [] with mem := { cells := [⟨0x2000003, 0xE0⟩] } }
    (s.pool 7).cache.length ≤ 16 ∧ (s.pool 7).count ≠ 0 ∧ (State.ringRead 7 (min 32 (s.pool 7).count) s []).2.1 = none ∧
      ((run (.cacheRefill 7) s).pool 7).cache = [7 * 2 ^ 29] := by decide +kernel

theorem test_cacheRefill_error : let s : State := put (pooled 1 []) [(OD.PAIR_READY 1, 0)]
    s.clok.waiting = [] ∧ (State.ringRead 7 1 s []).2.1.isSome = true := by decide +kernel

theorem test_cacheWriteback : let s := pooled 0 (List.replicate 56 (7 * 2 ^ 29))
    56 ≤ (s.pool 7).cache.length ∧ (s.pool 7).count + 32 ≤ (s.pool 7).ringEntries ∧
      ((run (.cacheWriteback 7) s).pool 7).count = 32 := by decide +kernel

theorem test_sealedBufferFillDone : let p : Pool := { szLog := 2, base := 0x10000, buffers := 4, ringBase := 0x2000000, ringEntries := 64 }
    let s : State := { pooled 0 [] with clok := { pools := [(7, p)], scrub := [⟨7 * 2 ^ 29 + 1, 0x10004, 4, true⟩] }, mem := { cells := [⟨0x10004, 5⟩] } }
    s.meetsImage 0x10004 4 = false ∧ (∀ i, i < 4 → s.place clokAcc true (0x10004 + i) = .mem) ∧ s.partialBad clokAcc (inSpan 0x10004 4) (rangeFrom 0x10004 4) = none ∧
      (run .sealedBufferFillDone s).mem.cells = [] ∧ ((run .sealedBufferFillDone s).pool 7).cache = [7 * 2 ^ 29 + 1] := by decide +kernel

theorem test_claimEccError : let r : ClaimRec := ⟨7 * 2 ^ 29 + 1, none, []⟩
    let s : State := { pooled 0 [9, 8] with clok := { (pooled 0 [9, 8]).clok with recs := [r] } }
    s.clok.recs[0]? = some r ∧ s.rd (OD.POOL_STATE 7) ≠ 3 ∧ (run (.claimEccError false (.record 0)) s).rd OD.LEAKS = 1 ∧
      ((run (.claimEccError false (.entry 7 1)) s).pool 7).cache = [9] ∧
      (run (.claimEccError true (.record 0)) s).clok.recs = [r] := by decide +kernel

/-! ### Sensor and audio ports -/

/-- Sensor port 3 on, with a frame of 8 by 2 RAW8 pixels into buffer 7:1. -/
def framed (line : Nat) : State :=
  { put (pooled 0 []) [(OD.PORT_STATE 3, 2)] with
    ports := { sens := [(3, { calibrated := true, frame := some ⟨8, 2, 0x2A, 0xEE, 9, 1, 7 * 2 ^ 29 + 1, 4, line, 0, 0, 0, 0, 0⟩ })] } }

theorem test_hears : (framed 0).hears 3 := ⟨by decide +kernel, Or.inr (by decide +kernel)⟩

theorem test_uncalibrated : let s := put on [(OD.PORT_STATE 3, 1)]
    s.portOn 3 = true ∧ 1500 < (s.sens 3).rate ∧ (s.sens 3).calibrated = false ∧ s.portOn 2 = false ∧
      (run (.frameEnd 3 false) s).rd (OD.SOT_ERRORS 3) = 1 := by decide +kernel

theorem test_takeFrame_drops : let s := put on [(OD.PORT_STATE 3, 1)]
    bit (s.rd (OD.FRAME_LANDING 3)) 16 = false ∧ (s.takeFrame 3).rd (OD.FRAMES_DROPPED 3) = 1 ∧ ((s.takeFrame 3).sens 3).dropping = true := by
  decide +kernel

theorem test_linePacket : let s := framed 0
    let u := s.header 3 false
    (s.sens 3).frame.map (fun f => (f.lineBytes, f.stride, u.bufferAddr f.ticket)) = some (8, 64, 0x11000) ∧
      (∀ i, i < 64 → u.place portAcc true (0x11000 + i) = .mem) ∧ u.partialBad portAcc (inSpan 0x11000 64) (rangeFrom 0x11000 64) = none ∧
      (run (.linePacket 3 false true [1, 2, 3, 4, 5, 6, 7, 8]) s).memBytes 0x11000 9 = [1, 2, 3, 4, 5, 6, 7, 8, 0xEE] := by decide +kernel

theorem test_linePacket_long : let s := framed 2
    ((run (.linePacket 3 false true [1]) s).sens 3).frame.map (fun f => (f.line, f.flags)) = some (3, 2) ∧
    ((run (.linePacket 3 false false [1]) s).sens 3).frame.map (·.flags) = some 18 := by decide +kernel

theorem test_frameEnd : (((run (.frameEnd 3 false) (framed 2)).sens 3).closed.map (·.flags)) = [0] ∧
    (((run (.frameEnd 3 false) (framed 1)).sens 3).closed.map (·.flags)) = [1] := by decide +kernel

theorem test_frameTimeout : let s : State := { framed 2 with clk := { now := 50000 } }
    let t : State := { framed 2 with clk := { now := 49999 } }
    (((run (.frameTimeout 3) s).sens 3).closed.map (·.flags)) = [64] ∧ ((run (.frameTimeout 3) t).sens 3).closed = [] := by decide +kernel

theorem test_frameDelivery : let s := run (.frameEnd 3 false) (framed 2)
    (s.sens 3).closed.length = 1 ∧ s.powered 23 = true ∧ (run (.frameDelivery 3) s).rd (OD.FRAMES_DELIVERED 3) = 1 := by decide +kernel

theorem test_streamHoldExpiry : let s : State := { put on [(OD.STREAMING, 8), (OD.SENS_LED_STATE, 1)] with
      ports := { sens := [(3, { header := some 0 })] }, clk := { now := 25000000 } }
    (run (.streamHoldExpiry 3) s).rd OD.STREAMING = 0 ∧ (run (.streamHoldExpiry 3) s).rd OD.SENS_LED_STATE = 0 := by decide +kernel

theorem test_skewCalibration : let s := put on [(OD.PORT_STATE 3, 1)]
    ((run (.skewCalibration 3) s).sens 3).calibrated = true ∧ ((run (.ulpsExit 3) s).sens 3).calibrated = false := by decide +kernel

theorem test_otherPacket : (run (.otherPacket 3 (.mismatch false)) (framed 0)).rd (OD.OTHER_PACKETS 3) = 1 ∧
    ((run (.otherPacket 3 .badHeader) (framed 0)).sens 3).frame.map (·.flags) = some 32 := by decide +kernel

theorem test_tdmFrame : let s := put on [(OD.TDM_ENABLE 1, 1), (OD.TDM_SLOTS 1, 2), (OD.TDM_WIDTH 1, 0)]
    s.flag (OD.TDM_ENABLE 1) = true ∧
      ((run (.tdmFrame 1 true [0x12345678, 0xFFFFFFFF, 1]) s).ports.aud.tdmPort 1).buf = [[0x12340000, 0xFFFF0000]] := by decide +kernel

theorem test_holdover : let s := put on [(OD.CLOCK_STATE, 1)]
    (run .holdover s).rd OD.CLOCK_STATE = 2 ∧ (run .holdover on).rd OD.CLOCK_STATE = 0 := by decide +kernel

theorem test_audioSamplePeriod : let s : State := { on with ports := { aud := { period := 47 } } }
    s.powered 23 = true ∧ s.ports.aud.markDue = false ∧ (run .audioSamplePeriod s).ports.aud.markDue = true ∧
      (run .audioSamplePeriod s).tick.audio = 1 := by decide +kernel

theorem test_routeDeliver : let w := 2 ^ 31 + 2 ^ 30 + 0
    let s : State := put on [(OD.PORT_ROUTE_LIVE 31, w), (OD.TDM_ENABLE 0, 1), (OD.TDM_SLOTS 0, 1)]
    bit w 31 = true ∧ bit w 30 = true ∧ Sparse.get (fun _ => 0) (s.routeDeliver [77] 31).ports.aud.coln 0 = 77 := by decide +kernel

theorem test_ringWriteBlock : let s := put ready [(OD.AR_FRAMES 0, 48), (OD.AR_CHANNELS 0, 1), (OD.AR_BASE 0, 0x3000)]
    s.rd (OD.AR_FRAMES 0) ≠ 0 ∧ bit (s.rd (OD.AR_LANDING 0)) 16 = false ∧
      (∀ i, i < 192 → s.place audioAcc true (0x3000 + i) = .mem ∧ s.mark (0x3000 + i) ≠ 2) ∧
      (s.ringWriteBlock [(0, 5)] 48 0).memByte 0x3000 = 5 ∧ (s.ringWriteBlock [(0, 5)] 48 0).rd (OD.AR_WRITTEN 0) = 48 := by decide +kernel

theorem test_ringWriteBlock_bad : let s := put ready [(OD.AR_FRAMES 0, 48), (OD.AR_CHANNELS 0, 1), (OD.AR_BASE 0, 0xF000000000)]
    s.place audioAcc true 0xF000000000 ≠ .mem ∧ (s.ringWriteBlock [(0, 5)] 48 0).rd (OD.AR_FAULTS 0) = 1 := by decide +kernel

theorem test_audioRingWrite : (run .audioRingWrite { on with ports := { aud := { ready := some ([], 48) } } }).ports.aud.ready = none := by
  decide +kernel

/-! ### The vestibule, the video engines and the colonnade -/

/-- A stage of slot 0 that a scaler, a decoder or the encoder runs, with GATE 0. -/
def engineRuns (engine : Nat) : State :=
  { put on [(OD.GATE, 0), (OD.PAIR_READY 0, 1), (OD.TEN_GAL_BASE 0, 0), (OD.TEN_GAL_SIZE 0, 0x100000)] with
    flit := { slots := [(0, { st := .running, stages := [0], input := 0x1000, inLen := 64, output := 0x2000, outLen := 1024 })]
              entries := [{ stage0 with engine := engine }] } }

/-- A TENSOR descriptor of one line of 8 pixels with its output in place; an output width of 0 makes it empty. -/
def tensorJob : List Byte :=
  leBytes 1 1 ++ leBytes 1 0 ++ leBytes 2 0x400 ++ leBytes 4 0 ++ leBytes 2 8 ++ leBytes 2 1 ++ leBytes 4 8 ++ List.replicate 28 0#8 ++
    leBytes 1 1 ++ leBytes 1 4 ++ List.replicate 18 0#8

/-- Scaler 0 with a job on it. -/
def scaling (j : ScalerJob) : State := { engineRuns 40 with vest := { jobs := [(0, some j)] } }

theorem test_scalerSourceTake : let j : ScalerJob := { slot := 0, run := 0, stage := 0, desc := tensorJob }
    let s := scaling j
    let d := scJob j.desc
    s.scalerJob 0 = some j ∧ (s.runningOn 40).isSome = true ∧ s.flag OD.GATE = false ∧ d.srcPort = false ∧ d.srcBytes = 8 ∧ d.kind = 1 ∧
      d.direct = true ∧ d.forceSeal = false ∧ (d.bayer || d.planar) = false ∧ d.empty (s.scalerCrop { stage0 with engine := 40 } d) = true ∧
      (run (.scalerSourceTake 0) s).rd OD.SAMPLE_NEXT = (s.rd OD.SAMPLE_NEXT + 1) % 2 ^ 32 ∧
      ((run (.scalerSourceTake 0) s).scalerJob 0).map (·.phase) = some .taken := by decide +kernel

theorem test_scalerJobEnd_empty : let s := run (.scalerSourceTake 0) (scaling { slot := 0, run := 0, stage := 0, desc := tensorJob })
    (s.scalerJob 0).map (·.phase) = some .taken ∧ (run (.scalerJobEnd 0) s).scalerJob 0 = none ∧
      ((run (.scalerJobEnd 0) s).flit.entries.map (·.repEmpty)) = [true] := by decide +kernel

theorem test_pkLingerExpiry : let s : State := { on with vest := { streams := [(1, { linger := 2, opened := some { slot := 0, seq := 0, since := 0 } })] }
                                                         clk := { now := 100 } }
    let t : State := { s with clk := { now := 99 } }
    ((run (.pkLingerExpiry 1) s).stream 1).opened = none ∧ (run (.pkLingerExpiry 1) t).stream 1 = t.stream 1 := by decide +kernel

theorem test_batchDelivery : let s : State := { put on [(OD.PK_STATE 1, 1), (OD.LAND_BASE 0, 0), (OD.LAND_COUNT 0, 64)] with
      vest := { streams := [(1, { deliver := 2 ^ 16 + 9, waiting := [3] })] } }
    (s.stream 1).waiting = [3] ∧ bit (s.stream 1).deliver 16 = true ∧ s.rd (OD.PK_STATE 1) ≠ 0 ∧ (s.port 9).q.length < (s.stream 1).deal ∧
      ((run (.batchDelivery 1) s).stream 1).delivered = [3] ∧ ((run (.batchDelivery 1) s).stream 1).waiting = [] := by decide +kernel

theorem test_batchSlotFillDone : let x : Stream := { base := alcoveBase, filling := [0], rowElems := 1, rows := 1, maxSegs := 1 }
    let s : State := { on with vest := { streams := [(1, x)] } }
    (s.stream 1).filling = [0] ∧ x.slotBytes = 4096 ∧ ∀ i, i < 4096 → s.place x.acc true (alcoveBase + i) = .mem ∧ s.mark (alcoveBase + i) ≠ 2 := by
  refine ⟨by decide +kernel, by decide +kernel, fun i h => ⟨?_, by show Sparse.get (fun _ => 0) [] _ ≠ 2; simp [Sparse.get]⟩⟩
  have h1 : galleryBytes ≤ alcoveBase ∧ 4096 ≤ alcoveBytes := by decide +kernel
  have h2 : (alcoveBase + i - alcoveBase) / alcoveBytes / 4 = 0 := by
    rw [Nat.add_sub_cancel_left, Nat.div_eq_of_lt (by omega : i < alcoveBytes), Nat.zero_div]
  have h3 : on.powered 1 = true ∧ on.powered 2 = true := by decide +kernel
  unfold State.place
  rw [if_neg (by show ¬ (!on.powered 1) = true; simp [h3.1]), if_neg (by omega), if_pos ⟨by omega, by omega⟩, h2, if_pos]
  exact h3.2

theorem test_batchQueueEccError : let s : State := { on with vest := { streams := [(1, { waiting := [3, 2] })] } }
    ((run (.batchQueueEccError false 1 1) s).stream 1).waiting = [3] ∧ ((run (.batchQueueEccError false 1 1) s).stream 1).dead = [2] ∧
      ((run (.batchQueueEccError true 1 1) s).stream 1).waiting = [3, 2] := by decide +kernel

/-- A picture of 8 by 8 pixels. -/
def pic8 (whole : Bool) : DecPic :=
  ⟨8, 8, false, 0, whole, 0, true, true, false, 0, false, 0, 10, false⟩

theorem test_decodeBudgetExpiry : let j : DecJob := ⟨0, 0, 0, 5, false, 0, some (pic8 false)⟩
    let s : State := { put (engineRuns 36) [(OD.SPINE_MHZ, 1000)] with vid := { jobs := [(0, some j)] }, clk := { now := 1 } }
    let t : State := { s with clk := { now := 0 } }
    s.decJob 0 = some j ∧ (s.runningOn 36).isSome = true ∧ 10 ≤ s.spineCycles 1 ∧ (run (.decodeBudgetExpiry 0) s).rd OD.BUDGET_OVERRUNS = 1 ∧
      (run (.decodeBudgetExpiry 0) t).rd OD.BUDGET_OVERRUNS = 0 := by decide +kernel

/-- A report without blocks or bytes. -/
def noDec : DecReport := ⟨[], false, false, false, [], [], [], 0⟩

theorem test_decodeJobEnd_none : let j : DecJob := ⟨0, 0, 0, 5, false, 0, none⟩
    let s : State := { engineRuns 36 with vid := { jobs := [(0, some j)] } }
    s.decJob 0 = some j ∧ (run (.decodeJobEnd 0 noDec) s).decJob 0 = none := by decide +kernel

theorem test_decoderContextEccError : let s := put on [(OD.CTX_STATE 33, 2)]
    (run (.decoderContextEccError false 33) s).rd (OD.CTX_STATE 33) = 1 ∧ (run (.decoderContextEccError false 33) s).rd (OD.CTX_REASON 33) = 9 ∧
      (run (.decoderContextEccError true 33) s).rd (OD.CTX_STATE 33) = 2 := by decide +kernel

theorem test_encodeJobEnd_empty : let j : EncJob := ⟨0, 0, 0, 3, true, false, false, 0, 0, 0, true, []⟩
    let s : State := { engineRuns 38 with vid := { job := some j } }
    s.vid.job = some j ∧ (s.runningOn 38).isSome = true ∧ s.flag OD.GATE = false ∧ (run (.encodeJobEnd ⟨[], [], false, [], []⟩) s).vid.job = none := by
  decide +kernel

theorem test_encoderContextEccError : let s := put on [(OD.ENC_STATE 3, 2), (OD.RC_BUFFER 3, 4000)]
    (run (.encoderContextEccError false 3) s).rd (OD.ENC_STATE 3) = 1 ∧ (run (.encoderContextEccError false 3) s).rd (OD.RC_FULLNESS 3) = 2000 := by
  decide +kernel

theorem test_netLoadDone : let s : State := { ready with coln := { load := some (0x1000, 12352) } }
    (s.netCheck 0x1000 12352).1 = some 4 ∧ (run .netLoadDone s).rd OD.NET_RESULT = 4 ∧ (run .netLoadDone s).coln.load = none := by
  decide +kernel

/-- A colonnade with one event at router 5 and one live entry there. -/
def meshed (w : Nat) : State :=
  { on with coln := { banks := [(5 * 64, w)], mesh := [⟨0x123456, 0, 0, 0, 5⟩] } }

theorem test_eventRoute : let w := 2 ^ 63 + 2 ^ 56 + 2 ^ 57
    let s := meshed w
    s.routeFor ⟨0x123456, 0, 0, 0, 5⟩ = some w ∧ (run (.eventRoute 0) s).coln.mesh = [⟨0x123456, 0, 1, 0, 1⟩, ⟨0x123456, 0, 1, 0, 6⟩] ∧
      (run (.eventRoute 0) (meshed 0)).rd OD.ROUTE_MISSES = 1 ∧ (run (.eventRoute 1) s).coln.mesh = s.coln.mesh := by decide +kernel

theorem test_eventRoute_arrives : let w := 2 ^ 63 + 2 ^ 60
    let s := meshed w
    s.routeFor ⟨0x123456, 0, 0, 0, 5⟩ = some w ∧ (run (.eventRoute 0) s).rd OD.FAN_MISSES = 1 := by decide +kernel

theorem test_timestepMark : let s : State := { put on [(OD.COL_STATE, 2)] with ports := { aud := { markDue := true, block := [(0, 5)] } } }
    s.ports.aud.markDue = true ∧ (run .timestepMark s).ports.aud.markDue = false ∧
      (run .timestepMark s).ports.aud.ready = some ([(0, 5)], 0) ∧ (run .timestepMark on).ports.aud.ready = none := by decide +kernel

theorem test_colnStop : let s : State := { put on [(OD.COL_STATE, 3), (OD.WAKE_LEVEL 2, 1)] with coln := { outq := [(1, 2)] } }
    s.colnStop.rd OD.COL_STATE = 2 ∧ s.colnStop.rd (OD.WAKE_LEVEL 2) = 0 ∧ s.colnStop.coln.outq = [] := by decide +kernel

theorem test_colonnadeEccError : let s : State := { on with coln := { neurons := [(7, 9)] } }
    s.powered 22 = true ∧ Sparse.get (fun _ => 0) (run (.colonnadeEccError false (.neuron 7)) s).coln.neurons 7 = 0 ∧
      (run (.colonnadeEccError false (.syn 4)) s).coln.badSyn = [4] ∧ (run (.colonnadeEccError true (.syn 4)) s).rd OD.SYN_CORRECTED = 1 := by
  decide +kernel

/-! ### Device memory's channels -/

/-- Every channel is active. -/
def active : State := put on ((List.range 8).map (fun ch => (OD.CH_STATE ch, ChSt.active)))

theorem test_channelInitDone : let s := put on [(OD.CH_STATE 3, ChSt.init)]
    (run (.channelInitDone 3 true) s).rd (OD.CH_STATE 3) = ChSt.active ∧ (run (.channelInitDone 3 false) s).rd (OD.CH_STATE 3) = ChSt.failed := by
  decide +kernel

theorem test_trimApply : let s := put active [(OD.TRIM_ARM 3, 1), (OD.SHADOW_DELAY 3 51, 17)]
    s.tick.st = .stopped ∧ (run (.trimApply 3) s).rd (OD.TRIM_ARM 3) = 0 ∧ (run (.trimApply 3) s).rd (OD.LIVE_DELAY 3 51) = 17 ∧
      (run (.trimApply 3) { s with tick := { st := .locked } }).rd (OD.TRIM_ARM 3) = 1 := by decide +kernel

/-- An access of the sensor ports to the first line of DRAM. -/
def q35 : Requester := ⟨35, none⟩

theorem test_dramAccess : let s := active
    let a := BitVec.ofNat 48 dramBase
    (∀ i, i < 64 → s.place { agent := 35, ctx := none } true (dramBase + i) = .mem) ∧ s.partialBad { agent := 35, ctx := none } (inSpan dramBase 64) (rangeFrom dramBase 64) = none ∧
      (run (.dramAccess q35 a true (List.replicate 64 7#8) .clean) s).memByte (dramBase + 63) = 7 ∧
      (run (.dramAccess q35 a true (List.replicate 64 7#8) .clean) s).memByte (dramBase + 64) = 0 := by decide +kernel

theorem test_rowClose : let s : State := { active with dmem := { rows := [(17, 4)], used := [(17, 2)] }, clk := { now := 6 } }
    let t : State := { s with clk := { now := 5 } }
    (run (.rowClose 1 1) s).dmem.rows = [] ∧ (run (.rowClose 1 1) t).dmem.rows = [(17, 4)] := by decide +kernel

theorem test_channelPowerDownIdle : let s : State := { active with clk := { now := 50 } }
    (run (.channelPowerDownIdle 7) s).dmem.down = 128 ∧ (run (.channelPowerDownIdle 7) active).dmem.down = 0 := by decide +kernel

theorem test_refresh : let s : State := { active with dmem := { rows := [(17, 4)] } }
    let t : State := { active with dmem := { rows := [(17, 4)], postponed := [(17, 8)] } }
    (run (.refresh 1 1) s).dmem.postponed = [(17, 1)] ∧ (run (.refresh 1 1) t).dmem.rows = [] ∧
      (run (.refresh 1 1) { active with dmem := { postponed := [(17, 3)] } }).dmem.postponed = [] := by decide +kernel

theorem test_zqLatch : (run (.zqLatch 2) { active with clk := { now := 9 } }).dmem.zq = [(2, 9)] := by decide +kernel

theorem test_galleryScrub : let s := put ready [(OD.SCRUB_PERIOD, 1)]
    (run (.galleryScrub .passDone) s).rd OD.SCRUB_PASSES = 1 ∧ (run (.galleryScrub (.correctable 8)) s).rd OD.GALL_CORRECTED = 1 ∧
      (run (.galleryScrub (.uncorrectable 8)) s).mem.marks = [(1, 2)] := by decide +kernel

theorem test_dramScrub : let s := put active [(OD.DRAM_SCRUB_PERIOD, 1), (OD.LATCHED, 2 ^ 13)]
    s.scrubsDram dramBase = true ∧ s.scrubsDram 0 = false ∧
      (run (.dramScrub (.correctable (BitVec.ofNat 48 dramBase))) s).rd OD.DMEM_CORRECTED = 1 ∧
      (run (.dramScrub (.uncorrectable (BitVec.ofNat 48 dramBase))) s).rd OD.DMEM_UNCORRECTABLE = 1 := by decide +kernel

theorem test_refreshRatePoll : let s := put active [(OD.TRIM_DRIFT_LIMIT, 10), (OD.TRIM_TEMP 2, 0)]
    (run (.refreshRatePoll 2 4 160) s).rd (OD.TRIM_STALE 2) = 1 ∧ (run (.refreshRatePoll 2 4 159) s).rd (OD.TRIM_STALE 2) = 0 ∧
      (run (.refreshRatePoll 2 0xFF 159) s).rd (OD.CLASS_COUNTS 0) = 1 ∧ (run (.refreshRatePoll 2 3 5) s).rd (OD.CH_TEMP 2) = 5 := by
  decide +kernel

theorem test_rtPanicEntry : let s := put on [(OD.RT_ENABLE 1, 1), (OD.RT_PANIC_MARK 1, 40)]
    (run (.rtPanicEntry 1 39) s).rd (OD.RT_STATE 1) = 1 ∧ (run (.rtPanicEntry 1 40) s).rd (OD.RT_STATE 1) = 0 := by decide +kernel

theorem test_rtPanicExit : let s := put on [(OD.RT_STATE 1, 1), (OD.RT_PANIC_MARK 1, 40), (OD.RT_RECOVER_MARK 1, 10)]
    (run (.rtPanicExit 1 41) s).rd (OD.RT_STATE 1) = 0 ∧ (run (.rtPanicExit 1 40) s).rd (OD.RT_STATE 1) = 1 := by decide +kernel

theorem test_balustradeWindowEnd : let s := put on [(guarKey 2 5, 256)]
    let es : List BalEvent := [.request 5 0x4000000 64, .cycles 7, .took 5 7]
    0 < s.entitlement 2 5 ∧ (run (.balustradeWindowEnd 2 es) s).rd (OD.MISSES 5) = 1 ∧
      (run (.balustradeWindowEnd 2 es) s).rd (OD.MAX_LAT 5) = 7 ∧
      (run (.balustradeWindowEnd 2 (es ++ [.grant 0])) s).rd (OD.MISSES 5) = 0 ∧
      (run (.balustradeWindowEnd 2 (es ++ [.grant 1])) s).rd (OD.MISSES 5) = 1 := by decide +kernel

/-- A request that has waited longer than its LAT_LIMIT goes before one with effective entitlement left, and that one before one
with a SHARE (Table GALL-7). -/
theorem test_tiers : let s := put on [(OD.LAT_LIMIT 9, 3), (OD.EFF_GUAR_GAL 5, 256), (OD.SHARE 1, 4)]
    let u := ([.request 1 0x4000000 64, .request 5 0x4000000 64, .request 9 0x4000000 64, .cycles 4] : List BalEvent).foldl
      (fun s e => s.balEvent 2 e) s
    (u.nextGrant 2 0).map (·.1.port) = some 9 ∧ ((u.grantNext 2 0).nextGrant 2 0).map (·.1.port) = some 5 ∧
      (((u.grantNext 2 0).grantNext 2 0).nextGrant 2 0).map (·.1.port) = some 1 := by decide +kernel

theorem test_pairFillDone : (run (.pairFillDone 1) on).rd (OD.PAIR_READY 1) = 1 := by decide +kernel

/-! ### Power, supplies and resets -/

/-- Every domain ready and wanted, VIN in band. -/
def wanted : State := { put on [(OD.DOMAIN_REQ, 0x0FFFFFFF)] with pow := { vin := true, await := false } }

theorem test_domainRampStart : let s : State := { wanted.wr OD.DOMAIN_ON 0x0FFFFF3F with pow := { vin := true, lastRamp := some 0 }, clk := { now := 500 } }
    s.mayMove = true ∧ s.mayRamp 6 = true ∧ s.mayRamp 7 = true ∧ (∀ e, e < 6 → 0 < e → s.mayRamp e = false) ∧
      (run .domainRampStart s).rampOf 6 = some 500 ∧ (run .domainRampStart s).rampOf 7 = none ∧
      (run .domainRampStart { s with clk := { now := 499 } }).rampOf 6 = none := by decide +kernel

theorem test_domainReady : let s : State := { wanted.wr OD.DOMAIN_ON 0x0BFFFFFF with pow := { ramp := [(26, some 7)] }, host := { perstLow := false } }
    s.rampOf 26 = some 7 ∧ (∀ r ∈ domainNeeds 26, s.powered r) ∧ (run (.domainReady 26) s).powered 26 = true ∧
      (run (.domainReady 26) s).rd OD.LINK_STATE = 1 := by decide +kernel

theorem test_domainRampFail : let s : State := { wanted.wr OD.DOMAIN_ON 0x0FFFFFFB with pow := { ramp := [(2, some 0)] }, clk := { now := 4000 } }
    (run (.domainRampFail 2) s).rd OD.DOMAIN_FAIL = 4 ∧ (run (.domainRampFail 2) { s with clk := { now := 3999 } }).rd OD.DOMAIN_FAIL = 0 := by
  decide +kernel

theorem test_domainPowerDown : let s := (wanted.wr OD.DOMAIN_REQ 0x0F7FFFFF).wr (OD.TDM_SLOTS 1) 3
    s.mayMove = true ∧ s.powered 23 = true ∧ bit (s.rd OD.DOMAIN_REQ) 23 = false ∧
      (∀ e, e < 28 → 23 < e → s.powered e = true ∧ bit (s.rd OD.DOMAIN_REQ) e = true) ∧ (∀ x, x < 28 → s.rampOf x = none) ∧
      (run .domainPowerDown s).powered 23 = false ∧ (run .domainPowerDown s).rd (OD.TDM_SLOTS 1) = odDefault (OD.TDM_SLOTS 1) ∧
      s.rd (OD.TDM_SLOTS 1) ≠ odDefault (OD.TDM_SLOTS 1) := by decide +kernel

theorem test_slotTableEccError : let s : State := { on with flit := { slots := [(5, { st := .queued })] } }
    (s.item 5).st ≠ .free ∧ (s.item 6).st = .free ∧ ((run (.slotTableEccError false 5) s).pow.reset.map (·.cause)) = some 6 ∧
      (run (.slotTableEccError false 6) s).pow.reset = none ∧ (run (.slotTableEccError true 5) s).pow.reset = none := by decide +kernel

theorem test_vinValid : let s : State := put State.reset [(OD.POWERUP_TARGET, 1)]
    s.pow.await = true ∧ s.boot.life ≠ 3 ∧ (run .vinValid s).rd OD.DOMAIN_REQ = (s.cmdTarget 1).1 ∧ (run .vinValid s).pow.await = false ∧
      (run .vinValid s).pow.vin = true := by decide +kernel

theorem test_vinBandEntry : (run (.vinBandEntry 11000) on).rd OD.VIN_MV = 11000 := by decide +kernel

theorem test_tjSample : let s := put on [(OD.TJ, 1999), (OD.PACE_CAP, 3)]
    toSigned 32 (s.rd OD.TJ) < 2000 ∧ ((run (.tjSample 2000) s).pow.reset.map (·.cause)) = some 7 ∧ (run (.tjSample 1999) s).pow.reset = none := by
  decide +kernel

theorem test_throttle : let s := put on [(OD.TJ, 1999), (OD.PACE_CAP, 3), (OD.TJ_THROTTLE, 100)]
    s.powered 1 = true ∧ s.pow.hot = none ∧ (s.rd OD.TJ_THROTTLE : Int) * 16 ≤ toSigned 32 (s.rd OD.TJ) ∧ s.throttle.rd OD.PACE_CAP = 2 := by
  decide +kernel

theorem test_sysref : (run .sysrefAbsent on).pow.sysref = false ∧ ((run .sysrefAbsent on).pow.reset.map (·.cause)) = some 6 ∧
    (run .sysrefReturn { on with pow := { sysref := false } }).pow.sysref = true := by decide +kernel

theorem test_wakeRequest : let s := put (put on ((List.range 16).map (fun g => (OD.GPIO_FUNC g, 0)))) [(OD.POWR_WAKE_ENABLE, 8 + 4), (OD.WAKE_TARGET, 0)]
    bit (s.rd OD.POWR_WAKE_ENABLE) 3 = true ∧ s.rd OD.WAKE_TARGET < 3 ∧ s.linkUp = false ∧ (run (.wakeRequest .alarm) s).rd OD.WAKE_SOURCE = 8 ∧
      (run (.wakeRequest .alarm) s).pow.wakeLow = true ∧ s.wakeSeen = false ∧ (run (.wakeRequest (.pin 4)) s).rd OD.WAKE_SOURCE = 0 ∧
      (put s [(OD.GPIO_FUNC 4, 3)]).wakeSeen = true ∧
      (run (.wakeRequest (.pin 4)) (put s [(OD.GPIO_FUNC 4, 3)])).rd OD.WAKE_SOURCE = 4 ∧
      (run (.wakeRequest (.pin 4)) (put s [(OD.GPIO_FUNC 4, 3), (OD.GPIO_FUNC 2, 3)])).rd OD.WAKE_SOURCE = 0 := by decide +kernel

theorem test_paceRampDone : let s : State := { on with pow := { paceTo := some (1, false) } }
    s.tick.st = .stopped ∧ (run .paceRampDone s).rd OD.PACE = 1 ∧ (run .paceRampDone s).pow.paceTo = none ∧
      (run .paceRampDone { s with tick := { st := .locked } }).pow.paceTo = some (1, true) := by decide +kernel

theorem test_pinParkEnd : let s (now : Nat) : State := { on with pins := { sw := [(9, some (10, false))] }, clk := { now := now } }
    (run (.pinParkEnd 9) (s 13)).pinSwitch 9 = some (10, false) ∧ (run (.pinParkEnd 9) (s 14)).pinSwitch 9 = some (10, true) ∧
      (run (.pinParkEnd 9) (s 16)).pinSwitch 9 = none := by decide +kernel

theorem test_orderReset : let s : State := { on with flit := { slots := [(1, { st := .queued })], admission := [1] }, tick := { st := .locked, armed := true } }
    let t := s.orderReset 5 false none
    s.pow.reset = none ∧ t.tick.st = .stopped ∧ t.flit.admission = [] ∧ t.flit.slots = s.flit.slots ∧
      (t.orderReset 7 true none).pow.reset.map (fun r => (r.cause, r.floor)) = some (5, true) := by decide +kernel

theorem test_peRstN : let s := on
    s.scanning = false ∧ s.powered 26 = true ∧ (run .peRstNAssert linked).rd OD.LINK_STATE = 0 ∧
      ((run .peRstNAssert linked).pow.reset.map (·.cause)) = some 1 ∧ (run .peRstNRelease s).rd OD.LINK_STATE = 1 ∧
      (run .peRstNAssert State.reset).pow.reset = none := by decide +kernel

theorem test_hotReset : linked.linkUp = true ∧ linked.powered 26 = true ∧ (run .hotReset linked).rd OD.LINK_STATE = 1 ∧
    ((run .hotReset linked).pow.reset.map (·.cause)) = some 2 ∧ (run .linkDown linked).rd OD.LINK_STATE = 0 ∧
    ((run .linkDown linked).pow.reset.map (·.cause)) = some 3 := by decide +kernel

theorem test_linkUp : let s : State := { on with host := { perstLow := false }, pow := { wakeLow := true } }
    (run (.linkUp 8 5) s).rd OD.LINK_STATE = 2 ∧ (run (.linkUp 8 5) s).rd OD.LINK_WIDTH = 8 ∧ (run (.linkUp 8 5) s).rd OD.LINK_SPEED = 5 ∧
      (run (.linkUp 8 5) s).pow.wakeLow = false := by decide +kernel

theorem test_modRstN : ((run .modRstNFullThreshold on).pow.reset.map (·.cause)) = some 5 ∧ (run .modRstNColdThreshold on).pow.cold = some 0 ∧
    (run .modRstNRise (run .modRstNColdThreshold on)).pow.mod_ = .high := by decide +kernel

/-- A full device reset at a step, its cause 5. -/
def resetAt (step : Nat) : State := { put wanted [(OD.RESET_STATE, step)] with pow := { vin := true, reset := some ⟨5, 0, false, true⟩ } }

theorem test_resetTakesHold : let s : State := { resetAt 1 with flit := { slots := [(1, { st := .queued })] }, dict := { staged := [(1, 2)] } }
    s.rd OD.RESET_STATE = 1 ∧ (run .resetTakesHold s).rd OD.RESET_STATE = 2 ∧ (run .resetTakesHold s).flit.slots = [] ∧
      (run .resetTakesHold s).dict.staged = [] ∧ (run .resetTakesHold s).rd OD.DOMAIN_REQ = 1 := by decide +kernel

theorem test_resetFillEnd : let s := (resetAt 2).wr (OD.TDM_SLOTS 1) 3
    domainOf (OD.TDM_SLOTS 1) ≠ 0 ∧ resetKeeps false (OD.TDM_SLOTS 1) = false ∧ (run .resetFillEnd s).rd OD.RESET_STATE = 3 ∧
      (run .resetFillEnd s).rd (OD.TDM_SLOTS 1) = odDefault (OD.TDM_SLOTS 1) := by decide +kernel

theorem test_resetHoldEnd : let s := put (resetAt 3) [(OD.CH_STATE 2, ChSt.selfRefresh), (OD.PAIR_READY 4, 1)]
    s.pow.reset ≠ none ∧ s.pow.sysref = true ∧ (run .resetHoldEnd s).rd OD.RESET_STATE = 4 ∧ (run .resetHoldEnd s).rd (OD.PAIR_READY 4) = 0 ∧
      (run .resetHoldEnd s).rd (OD.CH_STATE 2) = ChSt.untrimmed := by decide +kernel

theorem test_resetDone : let s := put (resetAt 4) [(OD.DOMAIN_REQ, 1), (OD.DOMAIN_ON, 1)]
    s.movingNow = false ∧ (run .resetDone s).rd OD.RESET_STATE = 0 ∧ (run .resetDone s).rd OD.RESET_CAUSE = 5 ∧
      (run .resetDone s).rd OD.RESETS = (s.rd OD.RESETS + 1) := by decide +kernel

theorem test_coldReset : let s : State := { wanted with pow := { cold := some 0 }, clk := { now := 500 } }
    s.pow.cold = some 0 ∧ domainOf OD.GATE = 0 ∧ s.pow.mod_ = .high ∧
      (run .coldReset { s with clk := { now := 499 } }).pow.cold = some 0 := by decide +kernel

/-! ### The GQ bus -/

theorem test_lineFaultDetect : let s : State := { on with clk := { now := 7 } }
    bit (s.rd OD.LINE_NOW) 2 = false ∧ (run (.lineFaultDetect 2) s).rd OD.GQ_MODE = 1 ∧ (run (.lineFaultDetect 2) s).rd OD.LINE_NOW = 4 ∧
      (run (.lineFaultDetect 2) s).gq.clear = 7 := by decide +kernel

theorem test_polaritySwap : bits (on.rd OD.LINE_NOW) 1 3 = 0 ∧ (run .polaritySwap on).rd OD.POLARITY_SWAPS = 1 ∧
    (run .polaritySwap (put on [(OD.LINE_NOW, 2)])).rd OD.POLARITY_SWAPS = 0 := by decide +kernel

/-- A probe keeps off the bus for 20 + 2a bit times and its own 32; node addresses end at 31. -/
theorem test_probe : let s : State := { put on [(OD.GQ_MODE, 1), (OD.LINE_NOW, 1)] with clk := { now := 500000 } }
    (run (.probe 2) s).rd OD.LINE_NOW = 2 ∧ (run (.probe 0) s).rd OD.LINE_NOW = 0 ∧ (run (.probe 2) s).gq.probe = 500000 ∧
      (run (.probe 2) { s with clk := { now := 499999 } }).rd OD.LINE_NOW = 1 ∧
      (run (.probe 2) { s with gq := { idleAt := 499949 } }).rd OD.LINE_NOW = 1 := by
  simp only [run, show ∀ f u, Sys2Proof.Machine.exec (.probe f) u = execProbe f u from fun _ _ => rfl]
  unfold execProbe State.busFree requestWait gqNode
  generalize Config.gqAddr = a
  revert a
  decide +kernel

theorem test_lineRecovery : let s : State := { put on [(OD.GQ_MODE, 1)] with clk := { now := 50000 } }
    (run .lineRecovery s).rd OD.GQ_MODE = 0 ∧ (run .lineRecovery { s with clk := { now := 49999 } }).rd OD.GQ_MODE = 1 := by decide +kernel

/-- The mailbox holds a broadcast telegram, or one to node 3. -/
def mailing (dest tries : Nat) (sent : Option Nat) : State :=
  { on with gq := { mail := some ⟨[BitVec.ofNat 8 dest, 0#8, 9#8, 8#8], tries, sent⟩ }, clk := { now := 1000 } }

theorem test_mailboxTx : let s := mailing 3 0 none
    s.rd OD.GQ_MODE ≠ 1 ∧ s.pow.sysref = true ∧ (run (.mailboxTx .sent) s).rd OD.TX_TELEGRAMS = 1 ∧
      ((run (.mailboxTx .sent) s).gq.mail.map (·.sent)) = some (some 1000) ∧ (run (.mailboxTx .sent) (mailing 0 0 none)).rd OD.GQM_STATE = 2 ∧
      (run (.mailboxTx .collision) s).rd OD.COLLISIONS = 1 ∧ (run (.mailboxTx .collision) (mailing 3 2 none)).rd OD.GQM_FAIL = 3 ∧
      (run (.mailboxTx (.lineFault 1)) s).rd OD.GQM_FAIL = 4 ∧
      (run (.mailboxTx .sent) { s with gq := { s.gq with idleAt := 900 } }).rd OD.TX_TELEGRAMS = 0 ∧
      (run (.mailboxTx .sent) { s with gq := { s.gq with idleAt := 830, courtesy := true } }).rd OD.TX_TELEGRAMS = 0 := by
  simp only [run, show ∀ f u, Sys2Proof.Machine.exec (.mailboxTx f) u = execMailboxTx f u from fun _ _ => rfl]
  unfold execMailboxTx State.busFree State.mailWait requestWait gqNode
  generalize Config.gqAddr = a
  revert a
  decide +kernel

theorem test_mailboxTx_mute : (run (.mailboxTx .sent) ((mailing 3 0 none).wr OD.GQ_MODE 1)).rd OD.GQM_FAIL = 4 ∧
    (run (.mailboxTx .sent) (mailing 3 0 (some 5))).rd OD.TX_TELEGRAMS = 0 := by decide +kernel

theorem test_masterTimeout : let s (tries now : Nat) : State := { mailing 3 tries (some 0) with clk := { now := now } }
    (run .masterTimeout (s 2 150)).rd OD.TIMEOUTS = 1 ∧ ((run .masterTimeout (s 2 150)).gq.mail.map (·.sent)) = some none ∧
      (run .masterTimeout (s 3 150)).rd OD.GQM_FAIL = 1 ∧ (run .masterTimeout (s 2 149)).rd OD.TIMEOUTS = 0 := by decide +kernel

/-- A telegram from node 5 with its CRC. -/
def teleg (ty dest : Nat) (body : List Byte) : Telegram :=
  ⟨withCrc ([BitVec.ofNat 8 (32 * ty + dest), 5#8, 9#8, BitVec.ofNat 8 body.length] ++ body), true⟩

/-- A telegram whose CRC is wrong. -/
def spoilt : Telegram := ⟨[0#8, 5#8, 9#8, 0#8, 1#8, 2#8, 3#8, 4#8], true⟩

theorem test_telegram_ok : (teleg 0 3 (zeros 8)).ok = true ∧ (teleg 1 3 (zeros 4)).ok = true ∧ (teleg 2 0 (zeros 8)).ok = true ∧
    spoilt.ok = false ∧ (teleg 2 0 (zeros 7)).ok = false := by decide +kernel

theorem test_gqReceive_spoilt : (on.gqReceive spoilt).rd OD.RX_DISCARDS = 1 ∧ (on.gqReceive spoilt).rd OD.RX_TELEGRAMS = 0 := by decide +kernel

theorem test_gqResponseRx_spoilt : let s : State := { mailing 3 2 (some 0) with clk := { now := 240 } }
    (s.mailWaits spoilt.times).isSome = true ∧ (run (.gqResponseRx spoilt) s).rd OD.TIMEOUTS = 1 ∧
      (run (.gqResponseRx spoilt) on).rd OD.TIMEOUTS = 0 := by decide +kernel

theorem test_tickTelegramRx : let s := put on [(OD.TICK_SOURCE, 2)]
    let g := teleg 2 0 (leBytes 4 77 ++ leBytes 1 1 ++ leBytes 2 100 ++ leBytes 1 0)
    g.ok = true ∧ g.ty = 2 ∧ s.powered 1 = true ∧ s.flag OD.TELEGRAM_EMIT = false ∧ fieldAt g.body 0 4 = 77 ∧ fieldAt g.body 5 2 = 100 := by
  decide +kernel

theorem test_tickTelegramTx : let s : State := { on with gq := { emit := some ⟨0, 77, false⟩ } }
    s.rd OD.GQ_MODE ≠ 1 ∧ s.pow.sysref = true ∧ s.gq.emit.isSome = true ∧
      (run .tickTelegramAbandon { s with clk := { now := 641 } }).rd OD.TICKS_UNSENT = 1 := by decide +kernel

theorem test_gqRequest_off : let s : State := { State.reset with pow := { vaon := false } }
    (run (.gqRequest (teleg 0 3 (zeros 8)) .sent) s).od = s.od ∧ (run (.gqRequest spoilt .sent) on).rd OD.RX_DISCARDS = 1 := by decide +kernel

theorem test_gqUnicast_replay : let g := teleg 0 3 (zeros 8)
    let s : State := { on with gq := { cache := [(5, some ⟨9, g.crc, [1#8]⟩)] } }
    s.rd OD.RESET_STATE = 0 ∧ s.pow.sysref = true ∧ Sparse.get (fun _ => none) s.gq.cache g.src = some ⟨9, g.crc, [1#8]⟩ ∧ g.seq = 9 ∧
      (s.gqUnicast g .collision).rd OD.REPLAYS = 1 := by decide +kernel

theorem test_gqUnicast_fresh : let g := teleg 0 3 (zeros 8)
    Sparse.get (fun _ => none) on.gq.cache g.src = none ∧ ({ on with pow := { sysref := false } } : State).pow.sysref = false := by decide +kernel

theorem test_gqAnswer : on.rd OD.GQ_MODE ≠ 1 ∧ (on.gqAnswer (teleg 0 3 (zeros 8)) [1#8] .sent).rd OD.TX_TELEGRAMS = 1 ∧
    ((put on [(OD.GQ_MODE, 1)]).gqAnswer (teleg 0 3 (zeros 8)) [1#8] .sent).rd OD.TX_TELEGRAMS = 0 := by decide +kernel

/-! ### Boot, persist store, flash, fuses and calendar -/

theorem test_firmwareBoot : let s := on
    s.powered 1 = true ∧ s.boot.phase = .idle ∧ s.boot.life ≠ Life.retired ∧ s.rd OD.RESET_STATE = 0 ∧
      (run .firmwareBoot (put State.reset [])).boot.phase = .idle ∧ (run .firmwareBoot { on with boot := { life := 3 } }).boot.phase = .idle := by
  decide +kernel

/-- A firmware header with its length and its entry. -/
def fwHead (len entry : Nat) : List Byte :=
  leBytes 4 0x5746484D ++ leBytes 2 1 ++ leBytes 1 2 ++ leBytes 1 4 ++ leBytes 4 1 ++ leBytes 4 len ++ leBytes 4 entry ++ zeros 44

theorem test_headerCode : let s : State := { on with boot := { keys := [(2, { usage := 1, valid := true })], offUsable := true } }
    let e : State := { on with boot := { offUsable := true } }
    s.headerCode (fwHead 256 0) = 0 ∧ s.headerCode (fwHead 256 2) = 3 ∧ s.headerCode (fwHead 320 192) = 3 ∧ s.headerCode (fwHead 320 188) = 0 ∧
      e.headerCode (fwHead 256 0) = 4 ∧ e.headerCode (zeros 64) = 2 ∧ (fwHeader (fwHead 256 4)).epoch = 4 := by
  unfold State.headerCode
  generalize Config.bootSel = b
  revert b
  decide +kernel

/-- A flash outside the module that does not answer (R993). -/
theorem test_headerCode_unusable : State.headerCode { on with boot := { offUsable := false } } (zeros 64) = if Config.bootSel then 7 else 2 := by
  unfold State.headerCode
  generalize Config.bootSel = b
  revert b
  decide +kernel

theorem test_firmwareVerifyDone : let s : State := { on with boot := { phase := .verify [1, 0] } }
    s.boot.phase = .verify (1 :: [0]) := by decide +kernel

theorem test_firmwareRunning : let s : State := { on with boot := { phase := .released 1 } }
    s.powered 1 = true ∧ (s.newel 0).halted = false ∧
      (run .firmwareRunning { s with newels := [(0, { halted := true })] }).boot.phase = .released 1 := by decide +kernel

theorem test_persistCommitDone : let s := put on [(OD.PERSIST_STATE, 2), (OD.PERSIST_BANK, 2), (OD.PERSIST_GENERATION, 6)]
    (run (.persistCommitDone .verify) s).rd OD.PERSIST_RESULT = 3 ∧ (run (.persistCommitDone .verify) s).rd OD.PERSIST_STATE = 1 ∧
      (run (.persistCommitDone .flashError) s).rd OD.PERSIST_RESULT = 2 ∧ (run (.persistCommitDone .verify) s).rd OD.PERSIST_BANK = 2 ∧
      (run (.persistCommitDone .ok) on).rd OD.PERSIST_RESULT = 0 := by decide +kernel

theorem test_vaonValid : (run .vaonValid on).od = on.od ∧ ({ on with pow := { vaon := false } } : State).pow.vaon = false := by decide +kernel

theorem test_flashOpDone : let s : State := { put on [(OD.FLASH_STATE, 2)] with boot := { op := some (.program 7 [0x0F#8, 0xF0#8]), flash := [(8, 0x3C#8)] } }
    let t := run .flashOpDone s
    t.flashByte 7 = 0x0F ∧ t.flashByte 8 = 0x30 ∧ t.flashByte 9 = 0xFF ∧ t.rd OD.FLASH_STATE = 0 ∧ t.boot.op = none := by decide +kernel

theorem test_flashOpDone_erase : let s : State := { on with boot := { op := some (.erase 65536), flash := [(65535, 1#8), (65536, 2#8)] } }
    (run .flashOpDone s).flashByte 65536 = 0xFF ∧ (run .flashOpDone s).flashByte 65535 = 1 := by decide +kernel

theorem test_fuseBurnDone : let s (b : Burn) : State := { on with boot := { burn := some b, keys := [(1, { usage := 3, valid := true })] } }
    (run .fuseBurnDone (s (.floor 9))).boot.floor = 9 ∧ ((run .fuseBurnDone (s (.revoke 1))).keySlot 1).revoked = true ∧
      ((run .fuseBurnDone (s (.key 2 5 6))).keySlot 2).valid = true ∧ (run .fuseBurnDone (s (.life 0))).boot.burn = none := by decide +kernel

theorem test_calendarSecond : let s (lf : Nat) : State := { put on [(OD.CAL_NOW, dateOf 2024 2 28 23 59 59), (OD.ALARM_ENABLE, 1),
        (OD.CAL_ALARM, dateOf 2024 2 29 0 0 0)] with clk := { lf := lf * 1000000000 } }
    (s 32768).lfNow = 32768 ∧ (run .calendarSecond (s 32768)).rd OD.CAL_NOW = dateOf 2024 2 29 0 0 0 ∧
      (run .calendarSecond (s 32768)).rd OD.ALARM_ENABLE = 0 ∧ (run .calendarSecond (s 32767)).rd OD.CAL_NOW = dateOf 2024 2 28 23 59 59 := by
  decide +kernel

theorem test_vaonLoss : let s : State := { put on [(OD.GATE, 0)] with mem := { cells := [(5, 1#8)] }, boot := { life := 1, floor := 4 } }
    (run .vaonLoss s).pow.vaon = false ∧ (run .vaonLoss s).od = [] ∧ (run .vaonLoss s).mem.cells = [] ∧ (run .vaonLoss s).boot.floor = 4 := by
  decide +kernel

/-! ### The trace sink and errors of D0's memory -/

/-- The sink's ring is one line pair at an alcove's start; a line waits. -/
def sinking : State :=
  { put on [(OD.SINK_SIZE, 128), (OD.SINK_BASE, alcoveBase), (OD.SINK_CONTEXT, 16)] with
    trc := { lines := [⟨List.replicate 64 9#8, 1, 2⟩] } }

theorem test_sinkLineWrite : sinking.sinkBarred alcoveBase = false ∧ (∀ i, i < 64 → sinking.place sinking.traceAcc true (alcoveBase + i) = .mem) ∧
    (run .sinkLineWrite sinking).rd OD.SINK_WRITE = 64 ∧ (run .sinkLineWrite sinking).trc.lines = [] ∧
    (run .sinkLineWrite sinking).memByte (alcoveBase + 63) = 9 := by decide +kernel

theorem test_sinkLineWrite_full : let s := put sinking [(OD.SINK_MODE, 1), (OD.SINK_WRITE, 64)]
    (64 + 64) % s.rd OD.SINK_SIZE = s.rd OD.SINK_READ % s.rd OD.SINK_SIZE ∧ (run .sinkLineWrite s).rd OD.LOST_PACKETS = 1 ∧
      (run .sinkLineWrite s).trc.lostTypes = 2 ∧ (run .sinkLineWrite (put sinking [(OD.SINK_SIZE, 0)])).rd OD.LOST_PACKETS = 1 := by decide +kernel

theorem test_sinkLineWrite_fails : let s := put sinking [(OD.SINK_BASE, 2 ^ 47)]
    (s.wouldFail s.traceAcc (2 ^ 47) 64).ok = false ∧ (run .sinkLineWrite s).rd OD.SINK_FAULTS = 1 ∧ bit ((run .sinkLineWrite s).rd OD.TRC_EVENTS) 2 = true := by
  decide +kernel

theorem test_lineFlushTimeout : let s (now : Nat) : State := { on with trc := { line := [1#8], openPackets := 1, openTypes := 4 }, clk := { now := now } }
    (run .lineFlushTimeout (s 5000)).trc.lines.map (fun l => (l.bytes.length, l.packets, l.types)) = [(64, 1, 4)] ∧
      (run .lineFlushTimeout (s 4999)).trc.lines = [] := by decide +kernel

theorem test_traceBufferEccError : on.powered 27 = true ∧ (run (.traceBufferEccError false 0 0 8) on).rd OD.LOST_PACKETS = 1 ∧
    (run (.traceBufferEccError true 0 0 8) on).rd OD.LOST_PACKETS = 0 := by decide +kernel

theorem test_faultLogEccError : let e : LostEntry := ⟨1, 2, 3, 4, 5, 6, 7⟩
    let s : State := { on with falt := { log := [recOf 0, recOf 1], lost := [e], mirror := [(9, some ⟨1, 2, 3, 4⟩)] } }
    (run (.faultLogEccError false (.record 1)) s).falt.log = [recOf 0] ∧ (run (.faultLogEccError false (.entry 0)) s).falt.lost = [] ∧
      (run (.faultLogEccError false (.mirror 9)) s).falt.mirror = [(9, some ⟨0xFFFFFFFF, 2, 3, 4⟩)] ∧
      (run (.faultLogEccError true (.record 1)) s).falt.log = s.falt.log := by decide +kernel

theorem test_tickOutPulseEnd : let s (now : Nat) : State := { on with tick := { out := true, outEnd := some 9 }, clk := { now := now } }
    (run .tickOutPulseEnd (s 9)).tick.out = false ∧ (run .tickOutPulseEnd (s 8)).tick.out = true := by decide +kernel

/-! ### The test and debug ports -/

theorem test_tap : (run .bypass on).dbg.tap = .bypass ∧ (run .idcode on).dbg.tap = .idcode ∧ (run .extest on).dbg.tap = .bypass ∧
    (run .dap on).dbg.tap = .dap ∧ (run .testLogicReset on).dbg.tap = .idcode ∧ (run .bypass State.reset).dbg.tap = .idcode := by decide +kernel

/-- The debug port under DAP with FULL. -/
def dapping : State := { put on [(OD.DBG_ALLOW, 1), (OD.DBG_LEVEL, 2)] with dbg := { tap := .dap } }

theorem test_tap_full : dapping.dbgLevel = 2 ∧ (run .extest dapping).dbg.tap = .extest ∧ (run .clamp dapping).scanning = true ∧
    (run .bypass (run .highz dapping)).pinSwitch 15 = some (0, false) := by decide +kernel

theorem test_samplePreload : (run (.samplePreload 5 6) dapping).dbg.sample = 5 ∧ (run (.samplePreload 5 6) dapping).dbg.preload = 6 ∧
    (run (.samplePreload 5 6) on).dbg.tap = .bypass := by decide +kernel

theorem test_trstNLow : (run .trstNLow dapping).rd OD.DBG_LEVEL = 0 ∧ (run .trstNLow dapping).dbg.tap = .idcode ∧
    (run .trstNLow dapping).rd OD.DBG_KEY_SLOT = 0xFF := by decide +kernel

theorem test_dapLock : dapping.dapReady = true ∧ on.dapReady = false ∧ (run .dapLock dapping).rd OD.DBG_LEVEL = 0 ∧
    (run .dapLock dapping).dbg.tap = .dap ∧ (run .dapLock dapping).dbg.status = Dap.ok := by decide +kernel

theorem test_dapRead_denied : let s := put dapping [(OD.DBG_LEVEL, 1)]
    s.dbgLevel = 1 ∧ (run (.dapRead false 3 0) s).dbg.status = Dap.denied ∧ (run (.dapWrite 3 0 1) s).dbg.status = Dap.denied ∧
      (run (.dapRead false 4 0) dapping).dbg.status = Dap.badOp ∧ (run (.dapRead false 3 4) dapping).dbg.status = Dap.error := by decide +kernel

theorem test_dapWrite : let a := BitVec.ofNat 48 alcoveBase
    inRegView alcoveBase = false ∧ inLandings alcoveBase = false ∧ (∀ i, i < 8 → dapping.place dbgAcc true (alcoveBase + i) = .mem) ∧
      (∀ i, i < 8 → dapping.place dbgAcc false (alcoveBase + i) = .mem) ∧
      (run (.dapRead false 3 a) (run (.dapWrite 3 a 0x0102030405060708) dapping)).dbg.data = 0x0102030405060708 := by decide +kernel

theorem test_dapHalt : let s := run (.dapHalt 0) dapping
    dapping.canHalt 0 = true ∧ dapping.canHalt 36 = false ∧ (s.core 0).haltReq = true ∧ s.dbg.waits = some 0 ∧ s.dapReady = false ∧
      (run (.dapHalt 36) dapping).dbg.status = Dap.badAgent ∧ (run (.dapStep 0) dapping).dbg.status = Dap.notHalted ∧
      ((run (.haltTakesEffect 0) s).core 0).st = .halted ∧ (run (.haltTakesEffect 0) s).dapReady = true := by decide +kernel

theorem test_dapResume : let s := run (.haltTakesEffect 33) (run (.dapHalt 33) dapping)
    (s.newel 1).halted = true ∧ ((run (.dapResume 33) { dapping with newels := [(1, { halted := true })] }).newel 1).halted = false ∧
      ((run (.dapResume 0) { dapping with cores := [(0, { st := .halted })] }).core 0).st = .idle := by decide +kernel

theorem test_dapReg : let s : State := { dapping with cores := [(0, { st := .halted, s := [(5, 77)] })] }
    s.dapReady = true ∧ s.halted (s.runAgent 0) = true ∧ s.regsSealed 0 = false ∧ (run (.dapRegRead 0 5) s).dbg.data = 77 ∧
      ((run (.dapRegWrite 0 5 78) s).core 0).regw = [(5, 78)] ∧ (run (.dapRegWrite 0 0 78) s).dbg.status = Dap.badAgent := by decide +kernel

theorem test_dapChallenge : (run (.dapChallenge 1) { dapping with dbg := { tap := .dap, nonce := [4, 5, 6, 7] } }).dbg.data = 5 ∧
    (run (.dapChallenge 0) (dapping.wr OD.DBG_ALLOW 0)).dbg.status = Dap.denied ∧
    (run (.dapChallenge 0) { dapping with dbg := { tap := .dap, lockout := some 0 } }).dbg.status = Dap.busy ∧
    (run (.dapChallenge 0) dapping).dbg.nonce.length = 4 := by decide +kernel

theorem test_dapRespond : let s (n : Nat) : State := { dapping with dbg := { tap := .dap, words := List.replicate n 1, nonce := [4, 5, 6, 7] } }
    (run (.dapRespond 0x10003) (s 0)).dbg.lockout = some 0 ∧ (run (.dapRespond 2) (s 0)).dbg.words = [2] ∧
      (run (.dapRespond 2) (s 12)).dbg.status = Dap.pending ∧ (run (.dapRespond 2) (s 12)).dbg.nonce = [] := by decide +kernel

theorem test_authVerifyDone : let s : State := { dapping with dbg := { tap := .dap, status := Dap.pending, auth := some ⟨2, 4, 0, []⟩ } }
    (run .authVerifyDone s).rd OD.AUTH_FAILS = 1 ∧ (run .authVerifyDone s).dbg.status = Dap.authFail ∧ (run .authVerifyDone s).dbg.lockout = some 0 := by
  decide +kernel

theorem test_authLockoutEnd : let s (now : Nat) : State := { dapping with dbg := { tap := .dap, lockout := some 0 }, clk := { now := now } }
    (s 0).lockedOut = true ∧ (run .authLockoutEnd (s 0)).dbg.lockout = some 0 := by decide +kernel

/-! ### Well-formedness: an ill-formed command for each check, and its well-formed neighbour -/

/-- Tenancy 3's agent with another tenancy's context, and with its own. -/
def alien : Requester := ⟨51, some 4⟩
def own3 : Requester := ⟨51, some 3⟩

theorem test_wf_requester : Instr.wf (.landingRead alien 5) = false ∧ Instr.wf (.landingRead own3 5) = true ∧
    Instr.wf (.landingInit alien 5 0) = false ∧ Instr.wf (.landingAdd alien 5 0) = false ∧ Instr.wf (.landingSet alien 5) = false ∧
    Instr.wf (.landingClear alien 5) = false ∧ Instr.wf (.landingAcquire alien 5) = false ∧ Instr.wf (.landingTry alien 5) = false ∧
    Instr.wf (.landingRelease alien 5) = false ∧ Instr.wf (.landingArrive alien 5) = false ∧ Instr.wf (.landingWait ⟨51, none⟩ 5) = false ∧
    Instr.wf (.landingAck alien 5 0) = false ∧ Instr.wf (.landingForce alien 5) = false ∧ Instr.wf (.landingPush alien 5 0) = false ∧
    Instr.wf (.landingTake alien 5) = false ∧ Instr.wf (.landingPortStatus alien 5) = false ∧ Instr.wf (.landingPeek alien 5 0) = false ∧
    Instr.wf (.landingPeek ⟨32, none⟩ 5 0) = true := by decide +kernel

theorem test_wf_dramAccess : Instr.wf (.dramAccess ⟨32, none⟩ 0 true [] .clean) = false ∧
    Instr.wf (.dramAccess ⟨32, none⟩ 0xFFFFFFFFFFFF true [1, 2] .clean) = false ∧ Instr.wf (.dramAccess alien 0 true [1] .clean) = false ∧
    Instr.wf (.dramAccess ⟨32, none⟩ 0xFFFFFFFFFFFF true [1] .clean) = true := by decide +kernel

theorem test_wf_reservedOp : Instr.wf (.reservedOp 0 0x00) = false ∧ Instr.wf (.reservedOp 0 0xFF) = true := by decide +kernel

theorem test_wf_linePacket (n : Nat) : Instr.wf (.linePacket 0 false true (List.replicate n 0)) = decide (n < 65536) := by
  show decide ((List.replicate n (0 : Byte)).length < 65536) = _
  rw [List.length_replicate]

theorem test_wf_tdmFrame : Instr.wf (.tdmFrame 0 true (List.replicate 16 0)) = true ∧ Instr.wf (.tdmFrame 0 true (List.replicate 17 0)) = false := by
  decide +kernel

theorem test_wf_telegram : Instr.wf (.gqRequest ⟨zeros 263, true⟩ .sent) = true ∧ Instr.wf (.gqRequest ⟨zeros 264, true⟩ .sent) = false ∧
    Instr.wf (.tickTelegramRx ⟨zeros 264, true⟩) = false ∧ Instr.wf (.gqResponseRx ⟨zeros 264, true⟩) = false := by decide +kernel

theorem test_wf_scrub : Instr.wf (.galleryScrub (.correctable 8)) = true ∧ Instr.wf (.galleryScrub (.correctable 9)) = false ∧
    Instr.wf (.galleryScrub (.uncorrectable 4)) = false ∧ Instr.wf (.dramScrub (.correctable 4)) = false ∧
    Instr.wf (.dramScrub (.uncorrectable 1)) = false ∧ Instr.wf (.dramScrub .passDone) = true := by decide +kernel

theorem test_wf_balustradeWindowEnd : Instr.wf (.balustradeWindowEnd 2 [.request 5 0x4000000 64, .grant 15]) = true ∧
    Instr.wf (.balustradeWindowEnd 2 [.request 5 0x4000000 0]) = false ∧ Instr.wf (.balustradeWindowEnd 2 [.request 5 0x4000000 65]) = false := by decide +kernel

theorem test_wf_linkUp : Instr.wf (.linkUp 8 5) = true ∧ Instr.wf (.linkUp 3 5) = false ∧ Instr.wf (.linkUp 8 0) = false ∧
    Instr.wf (.linkUp 8 6) = false := by decide +kernel

/-- No word of the table spells a command. -/
theorem test_decode_none : decodeTableWord 0 0 = none ∧ on.withFetchWord 32 5 = on := by
  constructor
  · rfl
  · rfl

/-! ### The words of core programs (R401, Tables CORE-4 and CORE-5): a word of each format, field by field from bit 63 down -/

theorem test_word_n : coreInstr 3 (0x01#8 ++ 0#24 ++ 0x00000001#32) = .endStage 3 1 := by decide +kernel
theorem test_word_r : coreInstr 3 (0x11#8 ++ 5#5 ++ 6#5 ++ 7#5 ++ 0#41) = .sub 3 5 6 7 := by decide +kernel
theorem test_word_i : coreInstr 3 (0x20#8 ++ 5#5 ++ 6#5 ++ 0#14 ++ 0xFFFFFFFF#32) = .addi 3 5 6 0xFFFFFFFF := by decide +kernel
theorem test_word_b : coreInstr 3 (0x31#8 ++ 0#5 ++ 6#5 ++ 7#5 ++ 0#9 ++ 0xFFFFFFFE#32) = .bne 3 6 7 0xFFFFFFFE := by decide +kernel
theorem test_word_m : coreInstr 3 (0x42#8 ++ 5#5 ++ 6#5 ++ 0b10#2 ++ 0#12 ++ 0x00000010#32) = .st 3 5 6 2 0x10 := by decide +kernel
theorem test_word_v : coreInstr 3 (0x53#8 ++ 5#5 ++ 6#5 ++ 7#5 ++ 2#3 ++ 1#3 ++ 4#3 ++ 9#32) = .vfma 3 5 6 7 2 1 4 9 := by decide +kernel
theorem test_word_vm : coreInstr 3 (0x60#8 ++ 5#5 ++ 6#5 ++ 4#3 ++ 2#3 ++ 0#8 ++ 8#32) = .vld 3 5 6 4 2 8 := by decide +kernel
theorem test_word_a : coreInstr 3 (0x72#8 ++ 5#5 ++ 6#5 ++ 7#5 ++ 2#3 ++ 3#2 ++ 1#1 ++ 0#1 ++ 63#8 ++ 0#26) = .mma 3 5 6 7 2 3 true false 63 := by
  decide +kernel
theorem test_word_l : coreInstr 3 (0x9B#8 ++ 5#5 ++ 6#5 ++ 7#5 ++ 0#25 ++ 0x0102#16) = .lpush 3 5 6 7 0x102 := by decide +kernel
theorem test_word_dma : coreInstr 3 (0x80#8 ++ 5#5 ++ 6#5 ++ 7#5 ++ 0#41) = .dma 3 5 6 7 ∧
    coreInstr 3 (0x81#8 ++ 0#24 ++ 2#32) = .dmawait 3 2 := by decide +kernel
theorem test_word_reserved : coreInstr 3 (0xFF#8 ++ 0#56) = .reservedOp 3 0xFF := by decide +kernel

/-! ### The signature of an image and of firmware (R304): FIPS 180-4's example for SHA-384, the three bytes "abc" -/

theorem test_sha384 : sha384 [0x61#8, 0x62#8, 0x63#8] =
    0xCB00753F45A35E8BB5A03D699AC65007272C32AB0EDED1631A8B605A43FF5BED8086072BA1E7CC2358BAECA134C825A7 := by decide +kernel

/-! ### Clauses that take a state of their own -/

/-- The INTERNAL counter's point lies on the present edge, behind the edge's commands. -/
def onBoundary : State := { coreOn {} with
  od := (put (coreOn {}) [(OD.TICK_SOURCE, 0), (OD.TICK_PERIOD, 15000)]).od, tick := { st := .locked }, clk := { now := 750000 } }

theorem test_boundaryAhead : onBoundary.boundaryAhead = true ∧ (onBoundary.item 0).bg = false ∧
    ((onBoundary.stopItem 0 5 1 2 3 none).item 0).st = .running ∧ onBoundary.stageDone stage0 false false 0 = onBoundary := by decide +kernel

theorem test_stageComplete_not_last : let x := { stage0 with engine := 32 }
    let s := { coreOn {} with flit := { (coreOn {}).flit with entries := [x, { stage0 with stage := 1, engine := 33, st := .queued }] } }
    s.boundaryAhead = false ∧ s.runningOn 32 = some x ∧ s.halted 32 = false ∧ s.parkedAgent 32 = false ∧
      ((run (.stageComplete 32 ⟨false, false, 9, []⟩) s).item 0).outBytes = (s.item 0).outBytes + 9 ∧
      (run (.stageComplete 32 ⟨false, false, 9, []⟩) s).flit.entries.map (·.stage) = [1] := by decide +kernel

theorem test_bgQuantum_stops : let e := { stage0 with bg := true }
    let s : State := { put (coreOn {}) [(OD.BG_QUANTUM, 10)] with
      flit := { (coreOn {}).flit with entries := [e], slots := [(0, { (coreOn {}).item 0 with bg := true })] }, clk := { now := 501 } }
    (s.item 0).st = .running ∧ ((run (.bgQuantumExpiry 0) s).item 0).st = .stopping ∧
      bits ((run (.bgQuantumExpiry 0) s).item 0).detail 0 8 = bits (faultDetail 7 e.run 0) 0 8 := by decide +kernel

theorem test_commit_at_the_end : let s := put on [(OD.TICK_SOURCE, 1)]
    s.tick.st = .stopped ∧ s.stopEdge = false ∧ (run (.tickCommit (.fw 0) 1) s).tick.commitDue = true := by decide +kernel

theorem test_transfer_errors : let q : Acc := { agent := 64, ctx := none }
    let s : State := { ready with bal := { transfers := [some false, some true] } }
    crosses q 0x1000 = true ∧ (s.memRead q 0x1000 2).1.err = some 0x1000 ∧ (s.memRead q 0x1000 2).2.bal.transfers = [some true] ∧
      (s.memWrite q 0x1000 [7]).2.memByte 0x1000 = 0 ∧ ready.smooth := by
  refine ⟨?_, ?_, ?_, ?_, fun t h => by cases h⟩ <;> decide +kernel

theorem test_partial_word : let q : Acc := { agent := 64, ctx := none }
    let s : State := { ready with mem := { marks := [⟨512, 2⟩] } }
    s.partialBad q (inSpan 0x1000 4) (rangeFrom 0x1000 4) = some 0x1000 ∧
      s.partialBad q (inSpan 0x1000 8) (rangeFrom 0x1000 8) = none ∧ (s.memWrite q 0x1000 [1, 2, 3, 4]).1.err = some 0x1000 := by decide +kernel

theorem test_accrd_marks : let c : Core := { accMarks := [(3, 2), (70, 1)] }
    ((coreOn c).accRead 0 (fun k => decide (k / 64 = 0))).1 = true ∧ ((coreOn c).accRead 0 (fun k => decide (k / 64 = 1))).1 = false ∧
      ((coreOn c).accRead 0 (fun k => decide (k / 64 = 2))).1 = false := by decide +kernel

theorem test_dead_stage : let s := coreOn {}
    s.entryLive stage0 = true ∧ s.entryLive { stage0 with seq := 9 } = false := by decide +kernel

theorem test_page_reads : let s : State := { on with host := { on.host with tens := [(3, { sqTail := 0x0102, cqHead := 7, sqSize := 512, cqSize := 512 })] } }
    s.pageByte 3 0x1000 = 2#8 ∧ s.pageByte 3 0x1001 = 1#8 ∧ s.pageByte 3 0x1008 = 7#8 := by decide +kernel

theorem test_bar_in_reset : State.barByte (put on [(OD.RESET_STATE, 2)]) (.pf0Page) 0x10 = some 0xFF#8 := by decide +kernel

theorem test_scrub_rest : let s : State := { ready with mem := { marks := [⟨0, 1⟩, ⟨512, 2⟩] } }
    s.scrubsGallery 0 = true ∧ (run (.galleryScrub .passDone) s).mark 0 = 0 ∧ (run (.galleryScrub .passDone) s).mark 0x1000 = 2 ∧
      (run (.galleryScrub .passDone) s).rd OD.GALL_UNCORRECTABLE = 1 := by decide +kernel

theorem test_seal_escape : ready.sealEscape true [(0x1000, 64)] = some 0x1000 ∧ ready.sealEscape false [(0x1000, 64)] = none := by decide +kernel

theorem test_serviceOrder : serviceOrder [(.pf0, .nop 0 0), (.gq, .nop 1 0), (.ten 2, .nop 2 0), (.fw 3, .nop 3 0), (.fw 1, .nop 4 0)] =
    [(.fw 3, .nop 3 0), (.fw 1, .nop 4 0), (.ten 2, .nop 2 0), (.gq, .nop 1 0), (.pf0, .nop 0 0)] := by decide +kernel

theorem test_event_to_the_output : let w := 2 ^ 63 + 2 ^ 61
    let s : State := { on with coln := { mesh := [⟨0, 0, 0, 7, 0⟩], banks := [(0, w)], cfg := { outEntries := 4 } } }
    s.routeFor ⟨0, 0, 0, 7, 0⟩ = some w ∧ bits w 56 5 = 0 ∧ bit w 61 = true ∧ (run (.eventRoute 0) s).coln.outq = [(0, 0)] ∧
      (run (.eventRoute 0) s).coln.mesh = [] ∧ (run (.eventRoute 0) { s with coln := { s.coln with banks := [] } }).rd OD.ROUTE_MISSES = 1 := by
  decide +kernel

theorem test_mark_without_the_colonnade : let s : State := { put on [(OD.DOMAIN_ON, 0x0FBFFFFF)] with ports := { aud := { markDue := true, block := [(0, 5)] } } }
    s.powered 22 = false ∧ (run .timestepMark s).ports.aud.markDue = false ∧ (run .timestepMark s).ports.aud.block = [] := by decide +kernel

theorem test_refresh_alone : let s := put on [(OD.CH_STATE 2, 3)]
    s.rd (OD.CH_STATE 2) = ChSt.active ∧ s.rtPanic = false ∧ Sparse.get (fun _ => 0) s.dmem.rows 37 = 0 ∧
      Sparse.get (fun _ => 0) (run (.refresh 2 5) s).dmem.postponed 37 = 0 := by decide +kernel

end Sys2Proof.Tests
end

section
/-!
An arrival below the window (R22). Each of the three kinds of arrival hands an unchanged dictionary to
`State.arrival`, and there an early arrival is one count in EARLY_ARRIVALS.
-/

namespace Sys2Proof.Machine

/-- A qualified edge of the source TICK_IN stops waiting and arrives (R17). -/
theorem exec_tickInEdge_of_source {s : State} (hsrc : s.sourceIs 1 = true) (hscan : s.scanning = false) :
    exec .tickInEdge s = .next ((s.setTick { s.tick with inEdge := none }).arrival none) := by
  have htaken : (s.sourceIs 1 && !s.scanning) = true := by rw [hsrc, hscan]; rfl
  exact congrArg Host.Outcome.next (if_pos htaken)

/-- A telegram's tick point whose edge has come is taken from the bus and arrives with its epoch (R16, R38). -/
theorem exec_gqTickPoint_of_due {s : State} {g : GqTick} (hpoint : s.gq.point = some g) (hdue : g.edge ≤ s.clk.now)
    (hsrc : s.sourceIs 2 = true) :
    exec .gqTickPoint s = .next ((s.setGq { s.gq with point := none }).arrival (some g.epoch)) := by
  change execGqTickPoint s = _
  unfold execGqTickPoint
  rw [hpoint]
  dsimp only
  rw [if_neg (Nat.not_lt.2 hdue)]
  exact congrArg Host.Outcome.next (if_pos hsrc)

/-- A strike of the source HOST is not refused and arrives (R18). -/
theorem strikeOrder_one_of_source {s : State} (hsrc : s.sourceIs 3 = true) : s.strikeOrder 1 = (0, s.arrival none) := by
  unfold State.strikeOrder
  rw [if_neg (not_not_intro rfl), if_pos hsrc]

section earlyArrival
variable {s u : State} {fs : List Field} (hu : Keep fs s u) (hod : Field.od ∉ fs) (e : Option Nat)
  (hst : u.tick.st = .locked ∨ u.tick.st = .flywheel) (hearly : u.clk.now - u.tick.last < u.lowerBound)
include hst hearly

theorem arrival_keep_of_early : Keep [.od] u (u.arrival e) := by
  rw [early u e hst hearly]
  exact bump_keep u _ (Keep.rfl' u)

include hu hod in
/-- An early arrival at `u`, told from a state `s` that differs from `u` outside the dictionary's numbers (R22). -/
theorem arrival_counts_of_early :
    (u.arrival e).rd OD.EARLY_ARRIVALS = min (s.rd OD.EARLY_ARRIVALS + 1) 0xFFFFFFFF ∧
      s.SameBut (u.arrival e) [OD.EARLY_ARRIVALS] ∧ Keep (.od :: fs) s (u.arrival e) := by
  have hsame : s.SameBut u [OD.EARLY_ARRIVALS] := ⟨fun k _ => hu.rd hod k⟩
  have hkeep : Keep (.od :: fs) s u := hu.mono fun _ => List.mem_cons_of_mem _
  rw [early u e hst hearly, rd_bump_same, hu.rd hod]
  exact ⟨rfl, hsame.wr _ (List.mem_singleton.2 rfl), hkeep.wr _ _ List.mem_cons_self⟩

end earlyArrival

/-- Settles O1: the edge, the telegram point and the strike each reduce to an early `State.arrival`. On the way the edge
changes the tick unit alone and the telegram point the bus alone, neither of which the count reads. -/
theorem earlyArrivalsAreIgnored : Obligations.EarlyArrivalsAreIgnored := by
  refine ⟨fun s hsrc hscan hst hearly => ?edge, fun g s hpoint hdue hsrc hst hearly => ?point,
    fun s hsrc hst hearly => ?strike⟩
  case edge =>
    let u := s.setTick { s.tick with inEdge := none }
    have hu : Keep [.tick] s u := setTick_keep s _ (Keep.rfl' s)
    have ha : Keep [.od] u (u.arrival none) := arrival_keep_of_early none hst hearly
    obtain ⟨hcount, hsame, hkeep⟩ := arrival_counts_of_early hu (by decide) none hst hearly
    exact ⟨_, exec_tickInEdge_of_source hsrc hscan, hcount, ha.part .tick, hsame, hkeep⟩
  case point =>
    let u := s.setGq { s.gq with point := none }
    have hu : Keep [.gq] s u := setGq_keep s _ (Keep.rfl' s)
    have ha : Keep [.od] u (u.arrival (some g.epoch)) := arrival_keep_of_early _ hst hearly
    obtain ⟨hcount, hsame, hkeep⟩ := arrival_counts_of_early hu (by decide) (some g.epoch) hst hearly
    exact ⟨_, exec_gqTickPoint_of_due hpoint hdue hsrc, hcount, ha.part .gq, hsame, hkeep⟩
  case strike =>
    rw [strikeOrder_one_of_source hsrc]
    exact ⟨rfl, arrival_counts_of_early (Keep.rfl' s) List.not_mem_nil none hst hearly⟩

end Sys2Proof.Machine
end

section
/-!
Functions and the link (R197, R215): what clearing Bus Master Enable in PF1 does, by whether a tenancy is live, and what a
correctable link error leaves behind.
-/

namespace Sys2Proof.Machine

/-- The tenancies that are ACTIVE or DRAINING, in ascending order. -/
def State.liveTenancies (s : State) : List Nat :=
  (List.range 16).filter (fun t => (s.tenancy t).st = .active || (s.tenancy t).st = .draining)

theorem mem_liveTenancies {s : State} {t : Nat} :
    t ∈ s.liveTenancies ↔ t < 16 ∧ ((s.tenancy t).st = .active ∨ (s.tenancy t).st = .draining) := by
  simp [State.liveTenancies]

theorem liveTenancies_eq_nil_iff {s : State} :
    s.liveTenancies = [] ↔ ∀ t, t < 16 → (s.tenancy t).st ≠ .active ∧ (s.tenancy t).st ≠ .draining := by
  simp only [List.eq_nil_iff_forall_not_mem, mem_liveTenancies, not_and, not_or, ne_eq]

/-- Bus Master Enable is cleared first; with a live tenancy PF1_STATE then reads WEDGED, and the live tenancies wedge one
after the other. -/
theorem exec_bmeClear_of_bme {s : State} (hon : s.powered 26) (hbme : s.host.pf1.bme) :
    exec .bmeClear s = .next (
      if s.liveTenancies = [] then s.setMsix true { s.host.pf1 with bme := false }
      else s.liveTenancies.foldl (fun s t => s.wedge t 3)
        ((s.setMsix true { s.host.pf1 with bme := false }).wr OD.PF1_STATE 1)) := by
  have hacts : ¬(!s.powered 26 ∨ !s.host.pf1.bme) := by simp [hon, hbme]
  exact congrArg Host.Outcome.next (if_neg hacts)

theorem exec_correctableLinkError_of_powered {s : State} (hon : s.powered 26) :
    exec .correctableLinkError s =
      .next ((s.bump OD.CORR_ERRORS).record FaultClass.corrected 0xFF 26 OD.CORR_ERRORS 0 0) := by
  have hacts : ¬(!s.powered 26) := by simp [hon]
  exact congrArg Host.Outcome.next (if_neg hacts)

/-- Settles O38: which of the two outcomes the clearing has turns on whether the list of live tenancies is empty. -/
theorem busMasterLossWedges : Obligations.BusMasterLossWedges := by
  refine ⟨fun s hon hbme hidle => ?idle, fun s hon hbme hlive => ?live,
    fun s hon => ⟨_, exec_correctableLinkError_of_powered hon, rfl⟩⟩
  case idle =>
    have hnil : s.liveTenancies = [] := liveTenancies_eq_nil_iff.2 hidle
    rw [exec_bmeClear_of_bme hon hbme, if_pos hnil]
    exact ⟨_, rfl, rfl, setMsix_keep s true _ (Keep.rfl' s)⟩
  case live =>
    obtain ⟨t, ht⟩ := hlive
    have hcons : s.liveTenancies ≠ [] := List.ne_nil_of_mem (mem_liveTenancies.2 ht)
    rw [exec_bmeClear_of_bme hon hbme, if_neg hcons]
    rfl

end Sys2Proof.Machine
end

section
/-!
The fault log (R1008 to R1011): where a record is placed, and the three outcomes of `logInsert` (room, displaced,
discarded), from which `logFault_facts` gives the log and FAULTS_LOST.
-/

namespace Sys2Proof.Machine

/-- A record stands before none of another time, so behind a log without its edge's records it comes last (R1008). -/
theorem placeRec_eq_append_of_times_ne (r : FaultRec) (log : List FaultRec) (htime : ∀ x ∈ log, x.time ≠ r.time) :
    placeRec r log = log ++ [r] := by
  induction log with
  | nil => rfl
  | cons x xs ih =>
    obtain ⟨hx, hxs⟩ := List.forall_mem_cons.1 htime
    have hafter : r.before x = false := decide_eq_false fun h => hx h.1
    rw [placeRec, hafter, ih hxs]
    rfl

theorem logInsert_of_room {log : List FaultRec} (r : FaultRec) (hroom : log.length < 256) :
    logInsert log r = (placeRec r log, false) :=
  if_pos hroom

/-- A full log gives up `x`, the oldest record of its lowest class, when that class is not above the new record's (R1009). -/
theorem logInsert_of_full_displaces {log pre post : List FaultRec} {x : FaultRec} (r : FaultRec) (hfull : 256 ≤ log.length)
    (hsplit : log = pre ++ x :: post) (hlowest : ∀ y ∈ log, x.cls ≤ y.cls) (holdest : ∀ y ∈ pre, y.cls ≠ x.cls)
    (hcls : x.cls ≤ r.cls) : logInsert log r = (placeRec r (pre ++ post), true) := by
  have hx : x ∈ log := hsplit ▸ List.mem_append_cons_self
  have hlow : lowestClass log = x.cls := lowestClass_eq hx hlowest
  have hdrop : dropOldest x.cls log = pre ++ post := hsplit ▸ dropOldest_eq x post pre holdest
  rw [logInsert, if_neg (Nat.not_lt.2 hfull), hlow, if_pos hcls, hdrop]

/-- A full log whose classes are all above the new record's discards it (R1009). -/
theorem logInsert_of_full_discards {log : List FaultRec} (r : FaultRec) (hfull : 256 ≤ log.length)
    (habove : ∀ y ∈ log, r.cls < y.cls) : logInsert log r = (log, true) := by
  have hne : log ≠ [] := List.ne_nil_of_length_pos (by omega)
  obtain ⟨y, hy, hlow⟩ := lowestClass_mem log hne
  have hnot : ¬ lowestClass log ≤ r.cls := hlow ▸ Nat.not_le.2 (habove y hy)
  rw [logInsert, if_neg (Nat.not_lt.2 hfull), if_neg hnot]

theorem logFault_sameBut (s : State) (r : FaultRec) :
    s.SameBut (s.logFault r) [OD.FAULTS_LOST, OD.CLASS_COUNTS r.cls] := by
  refine ⟨fun k hk => ?_⟩
  obtain ⟨hlost, hcount⟩ : k ≠ OD.FAULTS_LOST ∧ k ≠ OD.CLASS_COUNTS r.cls := by simpa using hk
  exact logFault_rd s r hlost hcount

/-- Settles O14: the log and FAULTS_LOST follow the three outcomes of `logInsert`; the rest does not depend on them. -/
theorem faultRecordsEnterTheLog : Obligations.FaultRecordsEnterTheLog := by
  intro s r hcls t r'
  have entered : ∀ {log lost}, logInsert s.falt.log r' = (log, lost) → t.falt.log = log ∧
      t.rd OD.FAULTS_LOST = if lost then min (s.rd OD.FAULTS_LOST + 1) 0xFFFFFFFF else s.rd OD.FAULTS_LOST := fun h =>
    have ⟨hlog, hlost, _⟩ := logFault_facts s r hcls _ h
    ⟨hlog, hlost⟩
  obtain ⟨-, -, hcount, hdevice, hstage, hhost⟩ := logFault_facts s r hcls _ rfl
  refine ⟨fun hroom => entered (logInsert_of_room r' hroom), placeRec_eq_append_of_times_ne r' s.falt.log,
    fun pre x post hfull hsplit hlowest holdest hle =>
      entered (logInsert_of_full_displaces r' hfull hsplit hlowest holdest hle),
    fun hfull habove => entered (logInsert_of_full_discards r' hfull habove),
    hcount, hdevice, hstage, hhost, logFault_sameBut s r, logFault_keep s r (Keep.rfl' s)⟩

end Sys2Proof.Machine
end

section
/-!
Every command and every step: each command completes within its parts, so every step keeps the stores; what an empty queue
does while SYSREF is absent (R888), where the model's count of edges stands still.
-/

-- One theorem at a time: in a text this long, theorems that wait for each other's checks take a thread each.
set_option Elab.async false

namespace Sys2Proof.Machine

/-- Settles O2: `step` takes the queue's front. -/
theorem aStepRunsTheFrontCommand : Obligations.AStepRunsTheFrontCommand :=
  fun _ _ _ => rfl

/-- Settles O4, constructor by constructor: each command's own frame is the one that `Instr.touches` names. -/
theorem everyCommandCompletesWithinItsParts : Obligations.EveryCommandCompletesWithinItsParts := by
  intro c s
  cases c with
  | tickStrike p v => exact execTickStrike_keep p v s
  | tickOutModeWrite p v => exact execTickOutModeWrite_keep p v s
  | tickCommit p v => exact execTickCommit_keep p v s
  | layerCopyDone l ok => exact execLayerCopyDone_keep l ok s
  | layerGraceExpiry l => exact execLayerGraceExpiry_keep l s
  | expeditedAccess p wr idx sub stagedView len data irq => exact execExpeditedAccess_keep p wr idx sub stagedView len data irq s
  | segmentedOpen p wr idx sub stagedView len irq => exact execSegmentedOpen_keep p wr idx sub stagedView len irq s
  | segment p toggle last data irq => exact execSegment_keep p toggle last data irq s
  | abortOwnTransfer p irq => exact execAbortOwnTransfer_keep p irq s
  | segmentTimeout p => exact execSegmentTimeout_keep p s
  | unitAnswerTimeout p wr idx sub data => exact execUnitAnswerTimeout_keep p wr idx sub data s
  | registerWrite p idx sub data => exact execRegisterWrite_keep p idx sub data s
  | stagedWrite p idx sub data => exact execStagedWrite_keep p idx sub data s
  | rcRead p idx sub => exact execRcRead_keep p idx sub s
  | dwStepDone p => exact execDwStepDone_keep p s
  | linkUp width speed => exact execLinkUp_keep width speed s
  | msixUnmask pf1 e => exact execMsixUnmask_keep pf1 e s
  | sqTail t v whole => exact execSqTail_keep t v whole s
  | cqHead t v whole => exact execCqHead_keep t v whole s
  | descriptorCheck t r => exact execDescriptorCheck_keep t r s
  | cqIrqDelayExpiry t => exact execCqIrqDelayExpiry_keep t s
  | landingRead q L => exact execLandingRead_keep q L s
  | landingInit q L w => exact execLandingInit_keep q L w s
  | landingAdd q L d => exact execLandingAdd_keep q L d s
  | landingSet q L => exact execLandingSet_keep q L s
  | landingClear q L => exact execLandingClear_keep q L s
  | landingAcquire q L => exact execLandingAcquire_keep q L s
  | landingTry q L => exact execLandingTry_keep q L s
  | landingRelease q L => exact execLandingRelease_keep q L s
  | landingArrive q L => exact execLandingArrive_keep q L s
  | landingWait q L => exact execLandingWait_keep q L s
  | landingAck q L d => exact execLandingAck_keep q L d s
  | landingForce q L => exact execLandingForce_keep q L s
  | landingPush q L d => exact execLandingPush_keep q L d s
  | landingTake q L => exact execLandingTake_keep q L s
  | landingPortStatus q L => exact execLandingPortStatus_keep q L s
  | landingPeek q L k => exact execLandingPeek_keep q L k s
  | holdLimitExpiry L => exact execHoldLimitExpiry_keep L s
  | landingEccError fixed L => exact execLandingEccError_keep fixed L s
  | stageIssue unit => exact execStageIssue_keep unit s
  | stageComplete engine rep => exact execStageComplete_keep engine rep s
  | itemStopDone slot => exact execItemStopDone_keep slot s
  | bgQuantumExpiry engine => exact execBgQuantumExpiry_keep engine s
  | slotTableEccError fixed slot => exact execSlotTableEccError_keep fixed slot s
  | load p => exact execLoad_keep p s
  | evict p => exact execEvict_keep p s
  | cancel p => exact execCancel_keep p s
  | tilePlan slot run entry => exact execTilePlan_keep slot run entry s
  | nop n imm => exact execNop_keep n imm s
  | endStage n imm => exact execEndStage_keep n imm s
  | fence n imm => exact execFence_keep n imm s
  | fail n imm => exact execFail_keep n imm s
  | tmark n imm => exact execTmark_keep n imm s
  | outadd n rd ra imm => exact execOutadd_keep n rd ra imm s
  | shget n rd ra imm => exact execShget_keep n rd ra imm s
  | shset n rd ra imm => exact execShset_keep n rd ra imm s
  | planrd n rd ra imm => exact execPlanrd_keep n rd ra imm s
  | add n rd ra rb => exact execAdd_keep n rd ra rb s
  | sub n rd ra rb => exact execSub_keep n rd ra rb s
  | mul n rd ra rb => exact execMul_keep n rd ra rb s
  | and n rd ra rb => exact execAnd_keep n rd ra rb s
  | or n rd ra rb => exact execOr_keep n rd ra rb s
  | xor n rd ra rb => exact execXor_keep n rd ra rb s
  | shl n rd ra rb => exact execShl_keep n rd ra rb s
  | shr n rd ra rb => exact execShr_keep n rd ra rb s
  | sra n rd ra rb => exact execSra_keep n rd ra rb s
  | slt n rd ra rb => exact execSlt_keep n rd ra rb s
  | sltu n rd ra rb => exact execSltu_keep n rd ra rb s
  | min n rd ra rb => exact execMin_keep n rd ra rb s
  | max n rd ra rb => exact execMax_keep n rd ra rb s
  | addi n rd ra imm => exact execAddi_keep n rd ra imm s
  | andi n rd ra imm => exact execAndi_keep n rd ra imm s
  | ori n rd ra imm => exact execOri_keep n rd ra imm s
  | xori n rd ra imm => exact execXori_keep n rd ra imm s
  | shli n rd ra imm => exact execShli_keep n rd ra imm s
  | shri n rd ra imm => exact execShri_keep n rd ra imm s
  | srai n rd ra imm => exact execSrai_keep n rd ra imm s
  | lui n rd ra imm => exact execLui_keep n rd ra imm s
  | beq n ra rb off => exact execBeq_keep n ra rb off s
  | bne n ra rb off => exact execBne_keep n ra rb off s
  | blt n ra rb off => exact execBlt_keep n ra rb off s
  | bge n ra rb off => exact execBge_keep n ra rb off s
  | bltu n ra rb off => exact execBltu_keep n ra rb off s
  | bgeu n ra rb off => exact execBgeu_keep n ra rb off s
  | jmp n ra rb off => exact execJmp_keep n ra rb off s
  | jal n rd ra imm => exact execJal_keep n rd ra imm s
  | jr n rd ra rb => exact execJr_keep n rd ra rb s
  | ld n rd ra size imm => exact execLd_keep n rd ra size imm s
  | lds n rd ra size imm => exact execLds_keep n rd ra size imm s
  | st n rd ra size imm => exact execSt_keep n rd ra size imm s
  | vadd n vd va vb pred ty func imm => exact execVadd_keep n vd va vb pred ty func imm s
  | vsub n vd va vb pred ty func imm => exact execVsub_keep n vd va vb pred ty func imm s
  | vmul n vd va vb pred ty func imm => exact execVmul_keep n vd va vb pred ty func imm s
  | vfma n vd va vb pred ty func imm => exact execVfma_keep n vd va vb pred ty func imm s
  | vmin n vd va vb pred ty func imm => exact execVmin_keep n vd va vb pred ty func imm s
  | vmax n vd va vb pred ty func imm => exact execVmax_keep n vd va vb pred ty func imm s
  | vand n vd va vb pred ty func imm => exact execVand_keep n vd va vb pred ty func imm s
  | vor n vd va vb pred ty func imm => exact execVor_keep n vd va vb pred ty func imm s
  | vxor n vd va vb pred ty func imm => exact execVxor_keep n vd va vb pred ty func imm s
  | vsra n vd va vb pred ty func imm => exact execVsra_keep n vd va vb pred ty func imm s
  | vcvt n vd va vb pred ty func imm => exact execVcvt_keep n vd va vb pred ty func imm s
  | vcmp n vd va vb pred ty func imm => exact execVcmp_keep n vd va vb pred ty func imm s
  | vsel n vd va vb pred ty func imm => exact execVsel_keep n vd va vb pred ty func imm s
  | vact n vd va vb pred ty func imm => exact execVact_keep n vd va vb pred ty func imm s
  | vred n vd va vb pred ty func imm => exact execVred_keep n vd va vb pred ty func imm s
  | vld n vd ra dtype pred imm => exact execVld_keep n vd ra dtype pred imm s
  | vst n vd ra dtype pred imm => exact execVst_keep n vd ra dtype pred imm s
  | vbcast n vd ra dtype pred imm => exact execVbcast_keep n vd ra dtype pred imm s
  | vext n vd ra dtype pred imm => exact execVext_keep n vd ra dtype pred imm s
  | accrd n vd ra dtype pred imm => exact execAccrd_keep n vd ra dtype pred imm s
  | accwr n vd ra dtype pred imm => exact execAccwr_keep n vd ra dtype pred imm s
  | aflags n rc ra rb dtype acc accum rsrc rows => exact execAflags_keep n rc ra rb dtype acc accum rsrc rows s
  | wload n rc ra rb dtype acc accum rsrc rows => exact execWload_keep n rc ra rb dtype acc accum rsrc rows s
  | wloadt n rc ra rb dtype acc accum rsrc rows => exact execWloadt_keep n rc ra rb dtype acc accum rsrc rows s
  | mma n rc ra rb dtype acc accum rsrc rows => exact execMma_keep n rc ra rb dtype acc accum rsrc rows s
  | mmaComplete n rep => exact execMmaComplete_keep n rep s
  | dma n rd ra rb => exact execDma_keep n rd ra rb s
  | dmawait n imm => exact execDmawait_keep n imm s
  | lread n rd ra rb imm => exact execLread_keep n rd ra rb imm s
  | linit n rd ra rb imm => exact execLinit_keep n rd ra rb imm s
  | ladd n rd ra rb imm => exact execLadd_keep n rd ra rb imm s
  | lset n rd ra rb imm => exact execLset_keep n rd ra rb imm s
  | lclr n rd ra rb imm => exact execLclr_keep n rd ra rb imm s
  | lacq n rd ra rb imm => exact execLacq_keep n rd ra rb imm s
  | ltry n rd ra rb imm => exact execLtry_keep n rd ra rb imm s
  | lrel n rd ra rb imm => exact execLrel_keep n rd ra rb imm s
  | larr n rd ra rb imm => exact execLarr_keep n rd ra rb imm s
  | lwait n rd ra rb imm => exact execLwait_keep n rd ra rb imm s
  | lack n rd ra rb imm => exact execLack_keep n rd ra rb imm s
  | lpush n rd ra rb imm => exact execLpush_keep n rd ra rb imm s
  | ltake n rd ra rb imm => exact execLtake_keep n rd ra rb imm s
  | lport n rd ra rb imm => exact execLport_keep n rd ra rb imm s
  | lpeek n rd ra rb imm => exact execLpeek_keep n rd ra rb imm s
  | dmaDescriptorRun n => exact execDmaDescriptorRun_keep n s
  | dmaDescriptorDone n => exact execDmaDescriptorDone_keep n s
  | keeperRampDown n => exact execKeeperRampDown_keep n s
  | reservedOp n op => exact execReservedOp_keep n op s
  | pairFillDone p => exact execPairFillDone_keep p s
  | galleryScrub find => exact execGalleryScrub_keep find s
  | balustradeWindowEnd target masters => exact execBalustradeWindowEnd_keep target masters s
  | poolFillDone q => exact execPoolFillDone_keep q s
  | cacheRefill q => exact execCacheRefill_keep q s
  | cacheWriteback q => exact execCacheWriteback_keep q s
  | alloc k v => exact execAlloc_keep k v s
  | release k ticket => exact execRelease_keep k ticket s
  | claimEccError fixed what => exact execClaimEccError_keep fixed what s
  | frameStart c fixed => exact execFrameStart_keep c fixed s
  | linePacket c fixed crcOk payload => exact execLinePacket_keep c fixed crcOk payload s
  | frameEnd c fixed => exact execFrameEnd_keep c fixed s
  | frameTimeout c => exact execFrameTimeout_keep c s
  | frameDelivery c => exact execFrameDelivery_keep c s
  | skewCalibration c => exact execSkewCalibration_keep c s
  | ulpsExit c => exact execUlpsExit_keep c s
  | streamHoldExpiry c => exact execStreamHoldExpiry_keep c s
  | otherPacket c k => exact execOtherPacket_keep c k s
  | tdmFrame n good slots => exact execTdmFrame_keep n good slots s
  | audioRouteSwapWrite p v => exact execAudioRouteSwapWrite_keep p v s
  | scalerSourceTake k => exact execScalerSourceTake_keep k s
  | scalerJobEnd k => exact execScalerJobEnd_keep k s
  | pkLingerExpiry t => exact execPkLingerExpiry_keep t s
  | batchDelivery t => exact execBatchDelivery_keep t s
  | batchSlotFillDone t => exact execBatchSlotFillDone_keep t s
  | batchQueueEccError fixed t j => exact execBatchQueueEccError_keep fixed t j s
  | decodeBudgetExpiry e => exact execDecodeBudgetExpiry_keep e s
  | decodeJobEnd e rep => exact execDecodeJobEnd_keep e rep s
  | decoderContextEccError fixed x => exact execDecoderContextEccError_keep fixed x s
  | encodeJobEnd rep => exact execEncodeJobEnd_keep rep s
  | keyRequest p x v => exact execKeyRequest_keep p x v s
  | encoderContextEccError fixed x => exact execEncoderContextEccError_keep fixed x s
  | netLoad p v => exact execNetLoad_keep p v s
  | eventRoute j => exact execEventRoute_keep j s
  | netRouteSwapWrite p v => exact execNetRouteSwapWrite_keep p v s
  | inject p v => exact execInject_keep p v s
  | colonnadeEccError fixed what => exact execColonnadeEccError_keep fixed what s
  | unsealCore p n => exact execUnsealCore_keep p n s
  | unsealFillDone n => exact execUnsealFillDone_keep n s
  | chCmdInit p ch v => exact execChCmdInit_keep p ch v s
  | channelInitDone ch ok => exact execChannelInitDone_keep ch ok s
  | trimArm p ch v => exact execTrimArm_keep p ch v s
  | trimApply ch => exact execTrimApply_keep ch s
  | dramAccess q a wr bytes find => exact execDramAccess_keep q a wr bytes find s
  | rowClose ch bank => exact execRowClose_keep ch bank s
  | channelPowerDownIdle ch => exact execChannelPowerDownIdle_keep ch s
  | refresh ch bank => exact execRefresh_keep ch bank s
  | refreshRatePoll ch status temp => exact execRefreshRatePoll_keep ch status temp s
  | zqLatch ch => exact execZqLatch_keep ch s
  | dramScrub find => exact execDramScrub_keep find s
  | rtPanicEntry r level => exact execRtPanicEntry_keep r level s
  | rtPanicExit r level => exact execRtPanicExit_keep r level s
  | lineFaultDetect c => exact execLineFaultDetect_keep c s
  | probe found => exact execProbe_keep found s
  | gqRequest t tx => exact execGqRequest_keep t tx s
  | tickTelegramRx t => exact execTickTelegramRx_keep t s
  | gqResponseRx t => exact execGqResponseRx_keep t s
  | gqmGo p v => exact execGqmGo_keep p v s
  | mailboxTx tx => exact execMailboxTx_keep tx s
  | tickTelegramTx tx => exact execTickTelegramTx_keep tx s
  | domainReqWrite p v => exact execDomainReqWrite_keep p v s
  | powerCmd p v => exact execPowerCmd_keep p v s
  | gateWrite p v => exact execGateWrite_keep p v s
  | domainReady d => exact execDomainReady_keep d s
  | domainRampFail d => exact execDomainRampFail_keep d s
  | wakeRequest src => exact execWakeRequest_keep src s
  | paceReq p v => exact execPaceReq_keep p v s
  | tjSample t => exact execTjSample_keep t s
  | agentReset p n => exact execAgentReset_keep p n s
  | resetCmdFull p => exact execResetCmdFull_keep p s
  | resetCmdCold p => exact execResetCmdCold_keep p s
  | vinLoss high mv => exact execVinLoss_keep high mv s
  | vinBandEntry mv => exact execVinBandEntry_keep mv s
  | flashRead p => exact execFlashRead_keep p s
  | flashProgram p data => exact execFlashProgram_keep p data s
  | flashErase p v => exact execFlashErase_keep p v s
  | lifecycleAdvance p v => exact execLifecycleAdvance_keep p v s
  | keyProvision p k data => exact execKeyProvision_keep p k data s
  | keyRevoke p k v => exact execKeyRevoke_keep p k v s
  | secEpochCommit p v => exact execSecEpochCommit_keep p v s
  | persistEntry p n data => exact execPersistEntry_keep p n data s
  | persistClear p v => exact execPersistClear_keep p v s
  | persistCommit p v => exact execPersistCommit_keep p v s
  | persistCommitDone res => exact execPersistCommitDone_keep res s
  | calNow p v => exact execCalNow_keep p v s
  | alarmEnable p v => exact execAlarmEnable_keep p v s
  | trcFlush p v => exact execTrcFlush_keep p v s
  | traceBufferEccError fixed ty off len => exact execTraceBufferEccError_keep fixed ty off len s
  | samplePreload pins pre => exact execSamplePreload_keep pins pre s
  | dapRead quiet size a => exact execDapRead_keep quiet size a s
  | dapWrite size a d => exact execDapWrite_keep size a d s
  | dapHalt agent => exact execDapHalt_keep agent s
  | haltTakesEffect agent => exact execHaltTakesEffect_keep agent s
  | dapResume agent => exact execDapResume_keep agent s
  | dapStep agent => exact execDapStep_keep agent s
  | dapRegRead agent sel => exact execDapRegRead_keep agent sel s
  | dapRegWrite agent sel d => exact execDapRegWrite_keep agent sel d s
  | dapChallenge j => exact execDapChallenge_keep j s
  | dapRespond d => exact execDapRespond_keep d s
  | dbgEnd p v => exact execDbgEnd_keep p v s
  | gpioFunc p g v => exact execGpioFunc_keep p g v s
  | pinParkEnd g => exact execPinParkEnd_keep g s
  | gpioPull p g v => exact execGpioPull_keep p g v s
  | faultNext p => exact execFaultNext_keep p s
  | lostNext p => exact execLostNext_keep p s
  | lostAll p => exact execLostAll_keep p s
  | faultLogEccError fixed what => exact execFaultLogEccError_keep fixed what s
  | tickInEdge => exact execTickInEdge_keep s
  | gqTickPoint => exact execGqTickPoint_keep s
  | periodExpiry => exact execPeriodExpiry_keep s
  | flywheelPoint => exact execFlywheelPoint_keep s
  | acquireSynthetic => exact execAcquireSynthetic_keep s
  | tickOutPulseEnd => exact execTickOutPulseEnd_keep s
  | sweepStart => exact execSweepStart_keep s
  | peRstNAssert => exact execPeRstNAssert_keep s
  | hotReset => exact execHotReset_keep s
  | linkDown => exact execLinkDown_keep s
  | bmeClear => exact execBmeClear_keep s
  | descriptorFetch => exact execDescriptorFetch_keep s
  | correctableLinkError => exact execCorrectableLinkError_keep s
  | loadTablesRead => exact execLoadTablesRead_keep s
  | loadSectionCopied => exact execLoadSectionCopied_keep s
  | loadSignatureCheck => exact execLoadSignatureCheck_keep s
  | sealedBufferFillDone => exact execSealedBufferFillDone_keep s
  | holdover => exact execHoldover_keep s
  | audioSamplePeriod => exact execAudioSamplePeriod_keep s
  | timestepMark => exact execTimestepMark_keep s
  | audioRingWrite => exact execAudioRingWrite_keep s
  | netLoadDone => exact execNetLoadDone_keep s
  | sealFillDone => exact execSealFillDone_keep s
  | polaritySwap => exact execPolaritySwap_keep s
  | lineRecovery => exact execLineRecovery_keep s
  | masterTimeout => exact execMasterTimeout_keep s
  | tickTelegramAbandon => exact execTickTelegramAbandon_keep s
  | domainRampStart => exact execDomainRampStart_keep s
  | domainPowerDown => exact execDomainPowerDown_keep s
  | peRstNRelease => exact execPeRstNRelease_keep s
  | paceRampDone => exact execPaceRampDone_keep s
  | coldReset => exact execColdReset_keep s
  | resetTakesHold => exact execResetTakesHold_keep s
  | resetFillEnd => exact execResetFillEnd_keep s
  | resetHoldEnd => exact execResetHoldEnd_keep s
  | resetDone => exact execResetDone_keep s
  | modRstNFullThreshold => exact execModRstNFullThreshold_keep s
  | modRstNColdThreshold => exact execModRstNColdThreshold_keep s
  | modRstNRise => exact execModRstNRise_keep s
  | vinValid => exact execVinValid_keep s
  | vaonValid => exact execVaonValid_keep s
  | vaonLoss => exact execVaonLoss_keep s
  | sysrefAbsent => exact execSysrefAbsent_keep s
  | sysrefReturn => exact execSysrefReturn_keep s
  | firmwareBoot => exact execFirmwareBoot_keep s
  | firmwareVerifyDone => exact execFirmwareVerifyDone_keep s
  | firmwareRunning => exact execFirmwareRunning_keep s
  | flashOpDone => exact execFlashOpDone_keep s
  | fuseBurnDone => exact execFuseBurnDone_keep s
  | calendarSecond => exact execCalendarSecond_keep s
  | sinkLineWrite => exact execSinkLineWrite_keep s
  | lineFlushTimeout => exact execLineFlushTimeout_keep s
  | bypass => exact execBypass_keep s
  | idcode => exact execIdcode_keep s
  | extest => exact execExtest_keep s
  | clamp => exact execClamp_keep s
  | highz => exact execHighz_keep s
  | dap => exact execDap_keep s
  | testLogicReset => exact execTestLogicReset_keep s
  | trstNLow => exact execTrstNLow_keep s
  | dapNop => exact execDapNop_keep s
  | dapLock => exact execDapLock_keep s
  | authVerifyDone => exact execAuthVerifyDone_keep s
  | authLockoutEnd => exact execAuthLockoutEnd_keep s

/-- Settles O6: a command keeps the stores by its frame, an empty queue by the frame of an edge. -/
theorem everyStepKeepsTheStores : Obligations.EveryStepKeepsTheStores := by
  intro s t hcanonical hbounded hstep
  unfold step at hstep
  split at hstep
  case h_1 hempty =>
    obtain rfl := Host.Outcome.next.inj hstep
    exact idle_canonical s hcanonical hbounded
  case h_2 c rest hfront =>
    obtain ⟨u, hexec, hkeep⟩ := everyCommandCompletesWithinItsParts c { s with pending := rest }
    obtain rfl := Host.Outcome.next.inj (hexec.symm.trans hstep)
    have hcanonical' : State.Canonical { s with pending := rest } :=
      ⟨hcanonical.od, hcanonical.odb, hcanonical.cells, hcanonical.marks, hcanonical.host⟩
    exact ⟨hkeep.canonical hcanonical', hkeep.bounded ⟨hbounded.log, hbounded.lost⟩⟩

/-- Settles O5 by evaluating the state after power-on. -/
theorem resetIsTheMachineAtPowerOn : Obligations.ResetIsTheMachineAtPowerOn := by
  refine ⟨⟨rfl, rfl, rfl, rfl, rfl⟩, ⟨?_, ?_⟩, rfl, rfl, rfl, rfl, rfl, rfl, ?_⟩ <;> decide

/-- While SYSREF is absent the clocks run on the 32.768 kHz clock, and no edge is counted. -/
theorem tick_now_of_sysref_absent (c : Clock) : (c.tick true false).now = c.now := by
  simp only [Clock.tick, Bool.not_true, Bool.false_eq_true, if_false]
  split <;> rfl

theorem nextEdge_now_of_sysref_absent {s : State} (hvaon : s.settle.pow.vaon = true) (hsysref : s.settle.pow.sysref = false) :
    s.nextEdge.clk.now = s.clk.now := by
  obtain ⟨u, hedge, hkeep, -, -⟩ := nextEdge_facts s
  calc s.nextEdge.clk.now = (s.settle.clk.tick s.settle.pow.vaon s.settle.pow.sysref).now := by rw [hedge]; exact hkeep.now
    _ = s.settle.clk.now := by rw [hvaon, hsysref]; exact tick_now_of_sysref_absent _
    _ = s.clk.now := (settle_keep s (Keep.rfl' s) (within_self _)).now

/-- The machine at power-on with SYSREF gone: nothing is due, and the queue is empty. -/
def withoutSysref : State := { pow := { sysref := false } }

theorem boundaryDue_withoutSysref : withoutSysref.boundaryDue = [] := by decide +kernel

/-- Refutes O3: an idle step of the machine without SYSREF is one cycle of the 32.768 kHz clock, and leaves the count of edges
at 0. -/
theorem not_anEmptyQueueLetsTimePass : ¬ Obligations.AnEmptyQueueLetsTimePass := by
  intro h
  obtain ⟨-, hpass⟩ := h withoutSysref rfl
  obtain ⟨t, hstep, hnow, -⟩ := hpass boundaryDue_withoutSysref
  have hidle : withoutSysref.idle = withoutSysref.nextEdge := by
    unfold State.idle
    rw [boundaryDue_withoutSysref]
  have ht : withoutSysref.nextEdge = t := hidle ▸ Host.Outcome.next.inj hstep
  have hstill : withoutSysref.nextEdge.clk.now = 0 := nextEdge_now_of_sysref_absent rfl rfl
  rw [ht, hnow] at hstill
  exact absurd hstill (by decide)

end Sys2Proof.Machine
end

section
/-!
Orders over the dictionary that have no unit to wait for: a write that passes its checks reaches its unit with the window's
registers written, which no unit reads (R158).
-/

set_option Elab.async false

namespace Sys2Proof.Machine

section underWindow
variable (s : State) (w : Sparse DictWindow)

/-- The machine once a step's registers are written into a window. -/
def State.underWindow : State := { s with dict := { s.dict with win := w } }

@[simp] theorem underWindow_rd (k : Nat) : (s.underWindow w).rd k = s.rd k := rfl

theorem underWindow_sameData : s.SameData (s.underWindow w) := ⟨rfl, rfl, rfl, rfl, rfl⟩

theorem underWindow_sameBut (ks : List Nat) : s.SameBut (s.underWindow w) ks := ⟨fun _ _ => rfl⟩

end underWindow

/-- An admitted write whose unit accepts it under any window is answered, with what holds of the unit's effect. -/
theorem exec_accepted {s : State} {i : Instr} {p : Path} {k len v m : Nat} {act : Nat → State → Nat × State} {P : State → Prop}
    (hexec : exec i s = .next (s.dictWrite p false k len v act)) (hadmits : s.admits p k len v m = true)
    (hact : ∀ w, ∃ t, act m (s.underWindow w) = (0, t) ∧ P (t.withAnswer p false {})) :
    ∃ u, exec i s = .next u ∧ u.answered p {} ∧ P u := by
  let u := s.dwSet p (dwCmd false false false 0 false true) k len (leBytes 8 v)
  obtain ⟨t, ht, hP⟩ := hact u.dict.win
  have hu : u = s.underWindow u.dict.win := dwSet_win ..
  exact exec_admits hexec hadmits ((congrArg (act m) hu).trans ht) P hP

/-- What an order's target leaves in the dictionary, and that it touches no store of data. -/
theorem setTarget_answered (s u : State) (p : Path) (req gate : Nat) (hrd : ∀ k, u.rd k = s.rd k) (hdata : s.SameData u) :
    let t := (u.setTarget req gate).withAnswer p false {}
    t.rd OD.DOMAIN_REQ = req ∧ t.rd OD.GATE = gate ∧ t.rd OD.DOMAIN_FAIL = clearBits (s.rd OD.DOMAIN_FAIL) req ∧
      (∀ k, k ≠ OD.DOMAIN_REQ → k ≠ OD.GATE → k ≠ OD.DOMAIN_FAIL → k ≠ OD.TRANSITION_US → t.rd k = s.rd k) ∧ s.SameData t := by
  obtain ⟨hreq, hgate⟩ := setTarget_facts u req gate
  refine ⟨?_, ?_, ?_, fun k hk1 hk2 hk3 hk4 => ?_, (hdata.trans (setTarget_sameData u req gate)).answer⟩
  · rw [withAnswer_rd, hreq]
  · rw [withAnswer_rd, hgate]
  · rw [withAnswer_rd, setTarget_rd u req gate _ (by decide), if_pos rfl, hrd]
  · rw [withAnswer_rd, setTarget_rd u req gate k hk4, if_neg hk3, if_neg hk2, if_neg hk1, hrd]

theorem State.SameData.setPow {s t : State} (h : s.SameData t) {x : Power} : s.SameData { t with pow := x } :=
  ⟨h.mem, h.host, h.land, h.flit, h.cores⟩

theorem domainOrder_of_accepted {v : Nat} {s : State} (hlife : ¬(bit v 1 ∧ s.boot.life = Life.retired))
    (hdrop : s.dropForbidden v = false) : s.domainOrder v = (0, s.setTarget v (s.rd OD.GATE)) := by
  unfold State.domainOrder
  rw [if_neg hlife, hdrop]
  rfl

theorem powerWrite_of_accepted {v : Nat} {s : State} (h1 : 1 ≤ v) (h4 : v ≤ 4) (hstop : v = 3 → s.tick.st = .stopped)
    (hrun : 3 ≤ v → s.rd OD.RESET_CAUSE ≠ 7 ∧ s.boot.life ≠ Life.retired ∧ s.tooCold = false)
    (hdrop : s.dropForbidden (s.cmdTarget v).1 = false) :
    s.powerWrite v = (0, { s.setTarget (s.cmdTarget v).1 (s.cmdTarget v).2 with
      pow := { (s.setTarget (s.cmdTarget v).1 (s.cmdTarget v).2).pow with cmdEdge := some s.clk.now } }) := by
  have horder : s.powerOrder v = (0, s.setTarget (s.cmdTarget v).1 (s.cmdTarget v).2) := by
    unfold State.powerOrder
    rw [if_neg (by omega), if_neg (fun h => h.2 (hstop h.1)), if_neg ?_]
    · simp only [hdrop, Bool.false_eq_true, if_false]
    · rintro ⟨h3, hrest⟩
      obtain ⟨hcause, hlife, hcold⟩ := hrun h3
      simp [hcause, hlife, hcold] at hrest
  unfold State.powerWrite
  rw [horder]
  rfl

/-- Settles O7: the three orders reach `setTarget` or GATE once their refusals are shut out. -/
theorem powerOrdersSetTheTarget : Obligations.PowerOrdersSetTheTarget := by
  refine ⟨fun p v s hadmits hlife hdrop => ?domains, fun p v s hadmits h1 h4 hstop hrun hdrop => ?command,
    fun p v s hadmits hstop => ?gate⟩
  case domains =>
    refine exec_accepted rfl hadmits fun w => ⟨_, domainOrder_of_accepted (s := s.underWindow w) hlife hdrop, ?_⟩
    exact setTarget_answered s _ p _ _ (underWindow_rd s w) (underWindow_sameData s w)
  case command =>
    refine exec_accepted rfl hadmits fun w =>
      ⟨_, powerWrite_of_accepted (s := s.underWindow w) h1 h4 hstop hrun hdrop, ?_⟩
    obtain ⟨hreq, hgate, -, hothers, hdata⟩ :=
      setTarget_answered s _ p (s.cmdTarget v.toNat).1 (s.cmdTarget v.toNat).2 (underWindow_rd s w) (underWindow_sameData s w)
    simp only [withAnswer_rd] at hreq hgate hothers ⊢
    refine ⟨hreq.trans ?_, hgate.trans ?_, hothers, ?_⟩
    · unfold State.cmdTarget
      split
      · rfl
      · split <;> rfl
    · unfold State.cmdTarget
      by_cases hv4 : v.toNat = 4
      · simp [hv4]
      · rw [if_neg hv4]
        split
        · rfl
        · split <;> rfl
    · exact ((underWindow_sameData s w).trans (setTarget_sameData ..)).setPow.answer
  case gate =>
    refine exec_accepted rfl hadmits fun w => ⟨(s.underWindow w).wr OD.GATE v.toNat, ?_, ?_⟩
    · exact if_neg fun h => h.2 (hstop h.1)
    · exact ⟨by simp, fun k hk => by simp [rd_wr_ne _ hk], ((underWindow_sameData s w).wr _ _).answer⟩

/-- From `s` to `t` the object of key `k` has taken the value `v`, and no other object nor any store of data has changed. -/
structure State.Takes (s t : State) (k v : Nat) : Prop where
  value : t.rd k = v
  others : s.SameBut t [k]
  data : s.SameData t

theorem State.Takes.of_od {s t : State} {k v : Nat} (hod : t.od = (s.wr k v).od) (hdata : s.SameData t) : s.Takes t k v :=
  ⟨by rw [rd_of_od hod, rd_wr_same], ((State.SameBut.refl s [k]).wr v (List.mem_singleton.2 rfl)).of_od hod, hdata⟩

theorem State.Takes.of_eq {s : State} {k v : Nat} (h : s.rd k = v) : s.Takes s k v :=
  ⟨h, State.SameBut.refl s _, State.SameData.refl s⟩

/-- What an answered step under a window leaves of the stores of data, and of the dictionary. -/
theorem answered_frame {s t : State} {p : Path} {w : Sparse DictWindow} {ks : List Nat} (hothers : (s.underWindow w).SameBut t ks)
    (hdata : (s.underWindow w).SameData t) : s.SameBut (t.withAnswer p false {}) ks ∧ s.SameData (t.withAnswer p false {}) :=
  ⟨((underWindow_sameBut s w ks).trans hothers).answer, ((underWindow_sameData s w).trans hdata).answer⟩

theorem State.Takes.answered {s u t : State} {k v : Nat} {w : Sparse DictWindow} (hu : u = s.underWindow w) (h : u.Takes t k v)
    (p : Path) : (t.withAnswer p false {}).rd k = v ∧ s.SameBut (t.withAnswer p false {}) [k] ∧
      s.SameData (t.withAnswer p false {}) := by
  subst hu
  exact ⟨by rw [withAnswer_rd, h.value], answered_frame h.others h.data⟩

/-- A write of GPIO_FUNC switches its pin where the function changes (R979, R996). -/
theorem funcOrder_facts (s : State) (g v : Nat) :
    ∃ t, s.funcOrder g v = (0, t) ∧ t.rd (OD.GPIO_FUNC g) = v ∧ s.SameBut t [OD.GPIO_FUNC g, OD.PIN_SWITCHES] ∧
      s.SameData t ∧ (s.rd (OD.GPIO_FUNC g) ≠ v → t.pinSwitch g = some (s.clk.now, false)) ∧
      (s.rd (OD.GPIO_FUNC g) = v → t.pins = s.pins) := by
  by_cases hv : s.rd (OD.GPIO_FUNC g) = v
  · exact ⟨s, if_pos hv, hv, State.SameBut.refl s _, State.SameData.refl s, absurd hv, fun _ => rfl⟩
  · obtain ⟨hpin, -, -, hothers, hkeep⟩ := switchPin_facts s g
    have hsame : s.SameBut (s.switchPin g) [OD.GPIO_FUNC g, OD.PIN_SWITCHES] :=
      ⟨fun k hk => hothers k fun e => hk (by simp [e])⟩
    exact ⟨_, if_neg hv, rd_wr_same .., hsame.wr _ List.mem_cons_self, hkeep.sameData.wr _ _, fun _ => hpin, fun h => absurd h hv⟩

/-- A write of TICK_OUT_MODE: in mode 2 the output's level stands, in the others it falls (R19). -/
theorem outModeOrder_facts (s : State) (v : Nat) :
    ∃ t, s.outModeOrder v = (0, t) ∧ s.Takes t OD.TICK_OUT_MODE v ∧
      (s.rd OD.TICK_OUT_MODE ≠ v → t.tick.out = (decide (v = 2) && s.tick.out)) := by
  by_cases hv : s.rd OD.TICK_OUT_MODE = v
  · exact ⟨s, if_pos hv, .of_eq hv, absurd hv⟩
  · by_cases h2 : v = 2
    · refine ⟨_, (if_neg hv).trans (if_pos h2), .of_od rfl ⟨rfl, rfl, rfl, rfl, rfl⟩, fun _ => ?_⟩
      rw [decide_eq_true h2]
      rfl
    · refine ⟨_, (if_neg hv).trans (if_neg h2), .of_od rfl ⟨rfl, rfl, rfl, rfl, rfl⟩, fun _ => ?_⟩
      rw [decide_eq_false h2]
      rfl

/-- A write of ALARM_ENABLE; enabling clears the alarm's bit of CAL_STATE (R914). -/
theorem alarmOrder_facts (s : State) (v : Nat) :
    ∃ t, s.alarmOrder v = (0, t) ∧ t.rd OD.ALARM_ENABLE = v ∧
      t.rd OD.CAL_STATE = (if v = 1 then setBit (s.rd OD.CAL_STATE) 2 false else s.rd OD.CAL_STATE) ∧
      s.SameBut t [OD.ALARM_ENABLE, OD.CAL_STATE] ∧ s.SameData t := by
  refine ⟨_, rfl, rd_wr_same .., ?_, ?_, ?_⟩
  · rw [rd_wr_ne _ (by decide), rd_ite, rd_setOdBit, if_pos rfl]
  · refine State.SameBut.wr ?_ _ List.mem_cons_self
    split
    · exact (State.SameBut.refl s _).wr _ (by simp)
    · exact State.SameBut.refl s _
  · refine State.SameData.wr ?_ _ _
    split
    · exact ⟨rfl, rfl, rfl, rfl, rfl⟩
    · exact State.SameData.refl s

/-- A written staged object stands in the staged set (R121). -/
theorem stagedEntry_stage (s : State) (k v : Nat) : (s.stage k v).stagedEntry k = some v := by
  unfold State.stagedEntry State.stage
  rw [keyedPut_find]

@[simp] theorem withAnswer_stagedEntry (s : State) (p : Path) (irq : Bool) (r : Resp) (k : Nat) :
    (s.withAnswer p irq r).stagedEntry k = s.stagedEntry k := by
  unfold State.stagedEntry
  rw [withAnswer_fresh, withAnswer_staged]

@[simp] theorem withAnswer_pinSwitch (s : State) (p : Path) (irq : Bool) (r : Resp) (g : Nat) :
    (s.withAnswer p irq r).pinSwitch g = s.pinSwitch g := by
  unfold State.pinSwitch
  rw [withAnswer_pins]

/-- A write of a staged object that passes its checks is answered, and joins the staged set. -/
theorem exec_stagedWrite_of_staged {p : Path} {idx : BitVec 16} {sub : Byte} {d : Word} {m : Nat} {o : ObjDef} {s : State}
    (hopen : s.open_ p = true) (hobj : objLookup idx.toNat sub.toNat = some o) (hacc : o.acc = .RS)
    (hcheck : s.checkWrite p idx.toNat sub.toNat o.ty.size d.toNat = .ok (o, m)) :
    ∃ w, exec (.stagedWrite p idx sub d) s =
      .next (((s.underWindow w).stage (odKey idx.toNat sub.toNat) m).withAnswer p false {}) := by
  obtain ⟨hdiv, hmod⟩ := odKey_parts idx.toNat sub.toNat sub.isLt
  let k := odKey idx.toNat sub.toNat
  let u := s.dwSet p (dwCmd false false false 0 false true) k o.ty.size (leBytes 8 d.toNat)
  have hu : u = s.underWindow u.dict.win := dwSet_win ..
  have hact : u.act o k m = (0, u.stage k m) := if_pos hacc
  have hwrite : u.expWrite p k o.ty.size d.toNat = ({}, u.stage k m) := by
    unfold State.expWrite
    rw [hdiv, hmod, checkWrite_dwSet, hcheck]
    simp only [hact, if_pos]
  have hrow : s.writeRow p k d.toNat = u.serve p false (fun s => s.expWrite p k o.ty.size d.toNat) := by
    unfold State.writeRow
    rw [hdiv, hmod, hobj]
  refine ⟨u.dict.win, congrArg Host.Outcome.next ?_⟩
  rw [hrow, serve_open (by rw [open_dwSet]; exact hopen), hwrite, ← hu]

/-- Settles O8: each order is its unit's short effect under the window's registers. -/
theorem plainWritesStore : Obligations.PlainWritesStore := by
  refine ⟨fun p v s h => ?_, fun p v s h => ?_, fun p ch v s h => ?_, fun p g v s h => ?_, fun p x s h => ?_, fun p v s h => ?alarm,
    fun p g v s h => ?func, fun p v s h => ?outMode, fun p idx sub d m o s hopen hobj hacc hcheck => ?staged⟩
  case alarm =>
    refine exec_accepted rfl h fun w => ?_
    obtain ⟨t, horder, hvalue, hcal, hothers, hdata⟩ := alarmOrder_facts (s.underWindow w) v.toNat
    refine ⟨t, horder, ?_⟩
    simp only [withAnswer_rd]
    exact ⟨hvalue, hcal, answered_frame hothers hdata⟩
  case func =>
    refine exec_accepted rfl h fun w => ?_
    obtain ⟨t, horder, hvalue, hothers, hdata, hswitch, hkept⟩ := funcOrder_facts (s.underWindow w) g v.toNat
    refine ⟨t, horder, ?_⟩
    obtain ⟨hbut, hsame⟩ := answered_frame (p := p) hothers hdata
    rw [withAnswer_rd, withAnswer_pins, withAnswer_pinSwitch]
    exact ⟨hvalue, hbut, hsame, hswitch, hkept⟩
  case outMode =>
    refine exec_accepted rfl h fun w => ?_
    obtain ⟨t, horder, htakes, hout⟩ := outModeOrder_facts (s.underWindow w) v.toNat
    obtain ⟨hvalue, hothers, hdata⟩ := htakes.answered rfl p
    exact ⟨t, horder, hvalue, hothers, hdata, fun hne => by rw [withAnswer_tick]; exact hout hne⟩
  case staged =>
    obtain ⟨w, hexec⟩ := exec_stagedWrite_of_staged hopen hobj hacc hcheck
    refine ⟨_, hexec, withAnswer_answered .., ?_, answered_frame (w := w) ⟨fun _ _ => rfl⟩ ⟨rfl, rfl, rfl, rfl, rfl⟩⟩
    rw [withAnswer_stagedEntry, stagedEntry_stage]
  all_goals
    refine exec_accepted rfl h fun w => ⟨_, rfl, State.Takes.answered (w := w) rfl ?_ p⟩
    exact .of_od rfl ⟨rfl, rfl, rfl, rfl, rfl⟩

end Sys2Proof.Machine
end

section
/-!
Orders that set a unit's work going, and orders to the AON controller's stores (R305 to R308, R689, R716, R747, R787, R889 to
R917, R942, R963).
-/

set_option Elab.async false

namespace Sys2Proof.Machine

theorem IMG_STATE_ne_load (i : Nat) : OD.IMG_STATE i ≠ OD.LOAD_STATE ∧ OD.IMG_STATE i ≠ OD.LOAD_PROGRESS := by
  unfold OD.IMG_STATE OD.LOAD_STATE OD.LOAD_PROGRESS
  omega

/-- LOAD_CMD 1 takes the load's parameters (R305, R306). -/
theorem loadCmd_load_facts {s : State} (hidle : s.rd OD.LOAD_STATE ≠ 1)
    (habsent : s.rd (OD.IMG_STATE (s.rd OD.LOAD_SLOT)) = 0) :
    ∃ t, s.loadCmd 1 = (0, t) ∧ t.rd (OD.IMG_STATE (s.rd OD.LOAD_SLOT)) = 1 ∧ t.rd OD.LOAD_STATE = 1 ∧ t.rd OD.LOAD_PROGRESS = 0 ∧
      (∃ r, t.ldr.run = some r ∧ r.slot = s.rd OD.LOAD_SLOT ∧ r.source = s.rd OD.LOAD_SOURCE ∧
        r.length = s.rd OD.LOAD_LENGTH ∧ r.cores = s.rd OD.LOAD_CORES) ∧
      s.SameBut t [OD.IMG_STATE (s.rd OD.LOAD_SLOT), OD.LOAD_STATE, OD.LOAD_PROGRESS] ∧ s.SameData t := by
  obtain ⟨hstate, hprogress⟩ := IMG_STATE_ne_load (s.rd OD.LOAD_SLOT)
  refine ⟨_, (if_neg hidle).trans (if_neg (not_not_intro habsent)), ?_, ?_, rd_wr_same .., ⟨_, rfl, rfl, rfl, rfl, rfl⟩, ?_,
    ⟨rfl, rfl, rfl, rfl, rfl⟩⟩
  · rw [rd_wr_ne _ hprogress, rd_wr_ne _ hstate, rd_wr_same]
  · rw [rd_wr_ne _ (by decide), rd_wr_same]
  · refine ⟨fun k hk => ?_⟩
    obtain ⟨himg, hload, hdone⟩ : k ≠ OD.IMG_STATE (s.rd OD.LOAD_SLOT) ∧ k ≠ OD.LOAD_STATE ∧ k ≠ OD.LOAD_PROGRESS := by
      simpa using hk
    rw [rd_wr_ne _ hdone, rd_wr_ne _ hload, rd_wr_ne _ himg]
    rfl

theorem loadCmd_evict_facts {s : State} (hidle : s.rd OD.LOAD_STATE ≠ 1)
    (hresident : s.rd (OD.IMG_STATE (s.rd OD.LOAD_SLOT)) = 2) (hitems : s.imgItems (s.rd OD.LOAD_SLOT) ≠ 0) :
    s.loadCmd 2 = (0, s.wr (OD.IMG_STATE (s.rd OD.LOAD_SLOT)) 3) := by
  have hstays : (s.wr (OD.IMG_STATE (s.rd OD.LOAD_SLOT)) 3).imgSettle (s.rd OD.LOAD_SLOT) =
      s.wr (OD.IMG_STATE (s.rd OD.LOAD_SLOT)) 3 := if_neg fun h => hitems h.2
  exact (if_neg hidle).trans ((if_neg (not_not_intro hresident)).trans (congrArg (Prod.mk 0) hstays))

/-- A load ends with its result, and its slot is free again (R312). -/
theorem loadEnd_facts (s : State) (r : LoadRun) (f : LoadFail) :
    (s.loadEnd r f).ldr.run = none ∧ (s.loadEnd r f).rd OD.LOAD_STATE = 0 ∧ (s.loadEnd r f).rd OD.LOAD_RESULT = f.1 ∧
      (s.loadEnd r f).rd OD.LOAD_FAIL_OFFSET = f.2 ∧ s.SameData (s.loadEnd r f) := by
  unfold State.loadEnd
  refine ⟨?_, ?_, ?_, ?_, ?_⟩
  · rw [signal_ldr]
    rfl
  · rw [signal_rd, rd_wr_same]
  · rw [signal_rd, rd_wr_ne _ (by decide), rd_bump, if_neg (by decide), rd_wr_ne _ (by decide), rd_wr_same]
  · rw [signal_rd, rd_wr_ne _ (by decide), rd_bump, if_neg (by decide), rd_wr_same]
  · have habsent : s.SameData ((s.setLoad none).imgAbsent r.slot) := ⟨rfl, rfl, rfl, rfl, rfl⟩
    exact ((((habsent.wr _ _).wr _ _).bump _).wr _ _).trans (signal_sameData ..)

/-- NET_CMD 1 empties the colonnade and begins to load (R688, R689). -/
theorem netOrder_facts {s : State} (hfree : s.rd OD.COL_STATE = ColSt.empty ∨ s.rd OD.COL_STATE = ColSt.ready) :
    ∃ t, s.netOrder 1 = (0, t) ∧ t.rd OD.COL_STATE = ColSt.loading ∧
      t.coln.load = some (s.rd OD.NET_SOURCE, s.rd OD.NET_LENGTH) ∧ t.coln.neurons = [] ∧ t.coln.fans = [] ∧ s.SameData t := by
  have hbusy : ¬(s.rd OD.COL_STATE ≠ ColSt.empty ∧ s.rd OD.COL_STATE ≠ ColSt.ready) := fun h => hfree.elim h.1 h.2
  have hkept (k : Nat) (hout : k < 0x781001) (hk : k ≠ OD.COL_STATE) : (s.netClear.wr OD.COL_STATE ColSt.loading).rd k = s.rd k := by
    rw [rd_wr_ne _ hk]
    have hclear : (decide (0x781001 ≤ k ∧ k < 0x782000)) ≠ true := by simp only [ne_eq, decide_eq_true_eq]; omega
    refine (Sparse.get_clear odDefault (fun k => decide (0x781001 ≤ k ∧ k < 0x782000)) s.od k).trans ?_
    exact if_neg hclear
  refine ⟨_, if_neg hbusy, (rd_wr_same s.netClear OD.COL_STATE ColSt.loading :), ?_, rfl, rfl, ⟨rfl, rfl, rfl, rfl, rfl⟩⟩
  exact congrArg some (congrArg₂ Prod.mk (hkept _ (by decide) (by decide)) (hkept _ (by decide) (by decide)))

theorem unsealOrder_of_idle {s : State} {n : Nat} (hseal : bit (s.rd OD.CORE_SEAL) n = false) (hidle : (s.core n).st = .idle)
    (hjoined : s.joined n = false) :
    s.unsealOrder n = (0, { s with ledg := { s.ledg with unsealing := setBit s.ledg.unsealing n true } }) := by
  unfold State.unsealOrder
  simp [hseal, hidle, hjoined]

/-- PACE_REQ outside STOPPED: the pace aimed at waits for the next boundary, or is the present one (R862 to R864). -/
theorem paceOrder_facts {s : State} {v : Nat} (hrun : s.tick.st ≠ .stopped) :
    ∃ t, s.paceOrder v = (0, t) ∧ s.Takes t OD.PACE_REQ v ∧
      t.pow.paceTo = (if min v (s.rd OD.PACE_CAP) = s.rd OD.PACE then none
        else some (min v (s.rd OD.PACE_CAP), decide (min v (s.rd OD.PACE_CAP) ≤ s.pow.supply))) := by
  have htarget : (s.wr OD.PACE_REQ v).paceTarget = min v (s.rd OD.PACE_CAP) := by
    unfold State.paceTarget
    rw [rd_wr_same, rd_wr_ne _ (by decide)]
  have hpace : (s.wr OD.PACE_REQ v).rd OD.PACE = s.rd OD.PACE := rd_wr_ne _ (by decide) _
  refine ⟨_, congrArg (Prod.mk 0) (if_neg hrun), .of_od rfl ⟨rfl, rfl, rfl, rfl, rfl⟩, ?_⟩
  simp only [State.setPow, htarget, hpace]
  rfl

/-- Settles O9: each order is its unit's effect under the window's registers. -/
theorem ordersStartTheirWork : Obligations.OrdersStartTheirWork := by
  refine ⟨fun p s h hidle _ habsent => ?load, fun p s h hidle hresident hitems => ?evict, fun p r s h hrun => ?cancel,
    fun p s h hfree => ?net, fun p v s h hnone => ?inject, fun p n s h hseal hidle hjoined => ?unsealing,
    fun p ch s h huntrimmed => ?channel, fun p s h => ?flush, fun p s h => ?session, fun p v s h hrun => ?pace⟩
  case load =>
    refine exec_accepted rfl h fun w => ?_
    obtain ⟨t, horder, himg, hstate, hprogress, hload, hothers, hdata⟩ :=
      loadCmd_load_facts (s := s.underWindow w) hidle habsent
    refine ⟨t, horder, ?_⟩
    simp only [withAnswer_rd, withAnswer_ldr]
    exact ⟨himg, hstate, hprogress, hload, answered_frame hothers hdata⟩
  case evict =>
    refine exec_accepted rfl h fun w => ⟨_, loadCmd_evict_facts (s := s.underWindow w) hidle hresident hitems, ?_⟩
    exact State.Takes.answered (w := w) rfl (.of_od rfl ⟨rfl, rfl, rfl, rfl, rfl⟩) p
  case cancel =>
    refine exec_accepted rfl h fun w => ⟨(s.underWindow w).loadEnd r (0x11, 0xFFFFFFFF), ?_, ?_⟩
    · have hload : (s.underWindow w).ldr.run = some r := hrun
      unfold State.loadCmd
      simp [hload]
    · obtain ⟨hnone, hstate, hresult, hoffset, hdata⟩ := loadEnd_facts (s.underWindow w) r (0x11, 0xFFFFFFFF)
      simp only [withAnswer_rd, withAnswer_ldr]
      exact ⟨hnone, hstate, hresult, hoffset, ((underWindow_sameData s w).trans hdata).answer⟩
  case net =>
    refine exec_accepted rfl h fun w => ?_
    obtain ⟨t, horder, hstate, hload, hneurons, hfans, hdata⟩ := netOrder_facts (s := s.underWindow w) hfree
    refine ⟨t, horder, ?_⟩
    simp only [withAnswer_rd, withAnswer_coln]
    exact ⟨hstate, hload, hneurons, hfans, ((underWindow_sameData s w).trans hdata).answer⟩
  case inject =>
    refine exec_accepted rfl h fun w => ⟨(s.underWindow w).setColn
      { s.coln with inject := some (bits v.toNat 0 24), injectFresh := true }, ?_, ?_, ?_⟩
    · exact if_neg (by rw [show (s.underWindow w).coln.inject = none from hnone]; simp)
    · simp [bits, State.setColn]
    · exact answered_frame (w := w) ⟨fun _ _ => rfl⟩ ⟨rfl, rfl, rfl, rfl, rfl⟩
  case unsealing =>
    refine exec_accepted rfl h fun w => ⟨_, unsealOrder_of_idle (s := s.underWindow w) hseal hidle hjoined, ?_, ?_⟩
    · rw [withAnswer_ledg]
      rfl
    · exact answered_frame (w := w) ⟨fun _ _ => rfl⟩ ⟨rfl, rfl, rfl, rfl, rfl⟩
  case channel =>
    refine exec_accepted rfl h fun w => ⟨_, if_neg (not_not_intro huntrimmed), ?_, ?_⟩
    · rw [withAnswer_rd, rd_wr_same]
    · have hcopied : (s.underWindow w).SameData ((s.underWindow w).copyDelays ch) :=
        (copyDelays_keep (fs := [.od]) _ ch (Keep.rfl' _)).sameData
      exact ((underWindow_sameData s w).trans (hcopied.wr _ _)).answer
  case flush =>
    refine exec_accepted rfl h fun w => ⟨(s.underWindow w).flushLine, rfl, ?_, ?_⟩
    · rw [withAnswer_trc]
      rfl
    · exact answered_frame (w := w) ⟨fun _ _ => rfl⟩ ⟨rfl, rfl, rfl, rfl, rfl⟩
  case session =>
    refine exec_accepted rfl h fun w => ⟨(s.underWindow w).endSession, rfl, ?_⟩
    obtain ⟨hlevel, hslot, -, -⟩ := endSession_facts (s.underWindow w)
    have hkeep := endSession_keep (fs := [.od, .host, .land, .flit, .trc, .cores, .newels, .clok, .ledg, .dbg, .pins])
      (s.underWindow w) (Keep.rfl' _)
    simp only [withAnswer_rd, withAnswer_mem, withAnswer_host]
    exact ⟨hlevel, hslot, hkeep.part .mem, hkeep.part .hostMem⟩
  case pace =>
    refine exec_accepted rfl h fun w => ?_
    obtain ⟨t, horder, htakes, hpace⟩ := paceOrder_facts (s := s.underWindow w) (v := v.toNat) hrun
    obtain ⟨hvalue, hothers, hdata⟩ := htakes.answered (w := w) rfl p
    exact ⟨t, horder, hvalue, hothers, hdata, by rw [withAnswer_pow]; exact hpace⟩

end Sys2Proof.Machine
end

section
/-!
Orders to the AON controller's stores: the boot flash (R889 to R892), the fuses (R895 to R900), the persist store (R906 to R911)
and the calendar (R912 to R917).
-/

set_option Elab.async false

namespace Sys2Proof.Machine

/-- A whole BLOB write that passes its checks, and that its unit accepts under any window, is answered. -/
theorem exec_blob_accepted {s : State} {i : Instr} {p : Path} {k : Nat} {bs : List Byte} {act : List Byte → State → Nat × State}
    {P : State → Prop} (hexec : exec i s = .next (s.blobWrite p k bs act)) (hadmits : s.admitsBlob p k bs.length = true)
    (hact : ∀ w, ∃ t, act bs (s.underWindow w) = (0, t) ∧ P (t.withAnswer p false {})) :
    ∃ u, exec i s = .next u ∧ u.answered p {} ∧ P u := by
  let u := s.dwSet p (segCmd true bs.length) k bs.length (lastSegment bs)
  obtain ⟨t, ht, hP⟩ := hact u.dict.win
  have hu : u = s.underWindow u.dict.win := dwSet_win ..
  exact exec_blob hexec hadmits ((congrArg (act bs) hu).trans ht) P hP

/-- A whole BLOB read that passes its checks answers the unit's bytes under some window. -/
theorem blobRead_admitted {s : State} {p : Path} {k : Nat} {get : State → Except Nat (List Byte)}
    {use : List Byte → State → State} {bs : List Byte} (hadmits : s.admitsRead p k = true)
    (hget : ∀ w, get (s.underWindow w) = .ok bs) (hne : bs ≠ []) :
    ∃ w, s.blobRead p k get use = (use bs (s.underWindow w)).withAnswer p false { bytes := bs, last := true } := by
  have hu : s.dwSet p (segCmd false bs.length) k 0 [] = s.underWindow _ := dwSet_win ..
  refine ⟨(s.dwSet p (segCmd false bs.length) k 0 []).dict.win, (blobRead_admits hadmits hget hne).trans ?_⟩
  exact congrArg (fun u => (use bs u).withAnswer p false { bytes := bs, last := true }) hu

theorem lastResp_withAnswer (s : State) (p : Path) (irq : Bool) (r : Resp) : (s.withAnswer p irq r).lastResp p = r := by
  have h := withAnswer_answered s p irq r
  unfold State.answered at h
  rw [Bool.and_eq_true, decide_eq_true_eq] at h
  exact h.1

@[simp] theorem withAnswer_rdBytes (s : State) (p : Path) (irq : Bool) (r : Resp) (k : Nat) :
    (s.withAnswer p irq r).rdBytes k = s.rdBytes k := by
  unfold State.rdBytes
  rw [withAnswer_odb]

/-- From `s` to `t` the numeric object of key `k` takes the value `v`, and the AON controller's record becomes `b`. -/
structure State.Starts (s t : State) (k v : Nat) (b : Boot) : Prop where
  takes : s.Takes t k v
  boot : t.boot = b

section flash
variable {s : State} (hburn : s.burning = false) (hbusy : s.flashBusy = false)
include hburn hbusy

theorem eraseOrder_facts {v : Nat} (hpage : v % 65536 = 0) (hwritable : s.flashWritable v (v + 65536) = true) :
    ∃ t, s.eraseOrder v = (0, t) ∧ s.Starts t OD.FLASH_STATE 1 { s.boot with op := some (.erase v) } := by
  refine ⟨(s.wr OD.FLASH_STATE 1).setBoot { s.boot with op := some (.erase v) }, ?_, .of_od rfl ⟨rfl, rfl, rfl, rfl, rfl⟩, rfl⟩
  unfold State.eraseOrder
  simp [hpage, hburn, hbusy, hwritable]

theorem flashProgram_facts {bs : List Byte} (hlength : bs.length = s.rd OD.FLASH_LENGTH)
    (hwritable : s.flashWritable (s.rd OD.FLASH_OFFSET) (s.rd OD.FLASH_OFFSET + bs.length) = true) :
    ∃ t, s.flashProgram bs = (0, t) ∧ t.rd OD.FLASH_STATE = 1 ∧ t.rd OD.FLASH_OFFSET = s.rd OD.FLASH_OFFSET + bs.length ∧
      t.boot = { s.boot with op := some (.program (s.rd OD.FLASH_OFFSET) bs) } ∧
      s.SameBut t [OD.FLASH_STATE, OD.FLASH_OFFSET] ∧ s.SameData t := by
  have hoffset : (s.wr OD.FLASH_STATE 1).rd OD.FLASH_OFFSET = s.rd OD.FLASH_OFFSET := rd_wr_ne _ (by decide) _
  refine ⟨((s.wr OD.FLASH_STATE 1).wr OD.FLASH_OFFSET (s.rd OD.FLASH_OFFSET + bs.length)).setBoot
    { s.boot with op := some (.program (s.rd OD.FLASH_OFFSET) bs) }, ?_, ?_, ?_, rfl, ?_, ⟨rfl, rfl, rfl, rfl, rfl⟩⟩
  · unfold State.flashProgram
    rw [hlength] at hwritable
    simp [hlength, hburn, hbusy, hwritable, State.flashMoved, hoffset]
  · rw [setBoot_rd, rd_wr_ne _ (by decide), rd_wr_same]
  · rw [setBoot_rd, rd_wr_same]
  · exact (((State.SameBut.refl s _).wr _ (by simp)).wr _ (by simp)).of_od rfl

end flash

theorem flashGet_of_readable {s : State} (hbusy : s.flashBusy = false) (hlength : 0 < s.rd OD.FLASH_LENGTH)
    (hreadable : flashReadable (s.rd OD.FLASH_OFFSET) (s.rd OD.FLASH_OFFSET + s.rd OD.FLASH_LENGTH) = true) :
    s.flashGet = .ok (s.flashBytes (s.rd OD.FLASH_OFFSET) (s.rd OD.FLASH_LENGTH)) := by
  unfold State.flashGet
  simp [Nat.ne_of_gt hlength, hbusy, hreadable]

theorem flashBytes_ne_nil {s : State} {a n : Nat} (hn : 0 < n) : s.flashBytes a n ≠ [] := by
  simp [State.flashBytes, Nat.ne_of_gt hn]

/-- A read of FLASH_DATA returns the flash's bytes and moves FLASH_OFFSET behind them (R891). -/
theorem exec_flashRead_of_admitted {s : State} {p : Path} (hadmits : s.admitsRead p OD.FLASH_DATA = true) (hbusy : s.flashBusy = false)
    (hlength : 0 < s.rd OD.FLASH_LENGTH)
    (hreadable : flashReadable (s.rd OD.FLASH_OFFSET) (s.rd OD.FLASH_OFFSET + s.rd OD.FLASH_LENGTH) = true) :
    ∃ w, exec (.flashRead p) s = .next (((s.underWindow w).flashMoved (s.rd OD.FLASH_LENGTH)).withAnswer p false
      { bytes := s.flashBytes (s.rd OD.FLASH_OFFSET) (s.rd OD.FLASH_LENGTH), last := true }) := by
  have hcount : (s.flashBytes (s.rd OD.FLASH_OFFSET) (s.rd OD.FLASH_LENGTH)).length = s.rd OD.FLASH_LENGTH := by
    simp [State.flashBytes]
  have hget (w : Sparse DictWindow) : (s.underWindow w).flashGet =
      .ok (s.flashBytes (s.rd OD.FLASH_OFFSET) (s.rd OD.FLASH_LENGTH)) :=
    flashGet_of_readable (s := s.underWindow w) hbusy hlength hreadable
  obtain ⟨w, hread⟩ := blobRead_admitted (get := State.flashGet) (use := fun bs s => s.flashMoved bs.length) hadmits
    hget (flashBytes_ne_nil (s := s) hlength)
  rw [hcount] at hread
  exact ⟨w, congrArg Host.Outcome.next hread⟩

section fuses
variable {s : State} (hburn : s.burning = false)
include hburn

theorem revoke_of_accepted {k : Nat} (hstate : (s.keySlot k).state = 1) (hkey : s.boot.runKey ≠ some k) :
    s.revoke k 1 = (0, s.setBoot { s.boot with burn := some (.revoke k) }) := by
  unfold State.revoke
  simp [hburn, hstate, hkey]

theorem floorOrder_of_accepted {v : Nat} (hrange : v ≤ 64) (hfloor : s.boot.floor < v) (hrun : s.rd OD.FW_VERSION ≠ 0)
    (hepoch : v ≤ s.boot.runEpoch) : s.floorOrder v = (0, s.setBoot { s.boot with burn := some (.floor v) }) := by
  unfold State.floorOrder
  rw [if_neg (by omega), hburn, if_neg Bool.false_ne_true, if_neg (by omega)]

theorem provision_of_accepted {k : Nat} {bs : List Byte} (hlength : bs.length = 97) (husage : fieldAt bs 0 1 < 16)
    (hcurve : onCurve (fieldAt bs 1 48) (fieldAt bs 49 48) = true) (hlife : s.boot.life = Life.manufacture)
    (hempty : (s.keySlot k).state = 0) :
    s.provision k bs = (0, s.setBoot { s.boot with
      burn := some (.key k (fieldAt bs 0 1) (fieldAt bs 1 48 + 2 ^ 384 * fieldAt bs 49 48)) }) := by
  unfold State.provision
  dsimp only
  rw [if_neg (not_not_intro hlength), if_neg ?_, hburn, if_neg Bool.false_ne_true, if_neg ?_]
  · simp [hlife, hempty]
  · simp [hcurve, husage]

end fuses

/-- A burn that starts is the AON controller's alone. -/
theorem setBoot_answered (s : State) (w : Sparse DictWindow) (b : Boot) (p : Path) :
    (((s.underWindow w).setBoot b).withAnswer p false {}).boot = b ∧
      s.SameBut (((s.underWindow w).setBoot b).withAnswer p false {}) [] ∧
      s.SameData (((s.underWindow w).setBoot b).withAnswer p false {}) :=
  ⟨by rw [withAnswer_boot]; rfl, answered_frame (w := w) ⟨fun _ _ => rfl⟩ ⟨rfl, rfl, rfl, rfl, rfl⟩⟩

/-- A persist entry is written or emptied, and the store is dirty (R908, R911). -/
theorem persistEntry_answered (s : State) (w : Sparse DictWindow) (k : Nat) (bs : List Byte) (p : Path) :
    let t := (((s.underWindow w).wrBytes k bs).wr OD.PERSIST_DIRTY 1).withAnswer p false {}
    t.rdBytes k = bs ∧ t.rd OD.PERSIST_DIRTY = 1 ∧ s.SameBut t [OD.PERSIST_DIRTY] ∧
      (∀ j, j ≠ k → t.rdBytes j = s.rdBytes j) ∧ s.SameData t := by
  have htakes : (s.underWindow w).Takes (((s.underWindow w).wrBytes k bs).wr OD.PERSIST_DIRTY 1) OD.PERSIST_DIRTY 1 :=
    .of_od rfl ⟨rfl, rfl, rfl, rfl, rfl⟩
  obtain ⟨hdirty, hothers, hdata⟩ := htakes.answered rfl p
  refine ⟨?_, hdirty, hothers, fun j hj => ?_, hdata⟩
  · rw [withAnswer_rdBytes]
    exact wrBytes_same ..
  · rw [withAnswer_rdBytes]
    exact wrBytes_ne (s.underWindow w) hj bs

/-- PERSIST_COMMIT of a dirty store begins to write the bank that does not hold the live entries (R909). -/
theorem persistOrder_facts {s : State} (hidle : s.rd OD.PERSIST_STATE ≠ 2) (hdirty : s.rd OD.PERSIST_DIRTY ≠ 0) :
    ∃ t, s.persistOrder 1 = (0, t) ∧ t.rd OD.PERSIST_STATE = 2 ∧ t.rd OD.PERSIST_DIRTY = 0 ∧
      t.boot.bank = (if s.rd OD.PERSIST_BANK = 1 then 1 else 0) ∧ s.SameBut t [OD.PERSIST_STATE, OD.PERSIST_DIRTY] ∧
      s.SameData t := by
  have hothers : s.SameBut ((s.wr OD.PERSIST_STATE 2).wr OD.PERSIST_DIRTY 0) [OD.PERSIST_STATE, OD.PERSIST_DIRTY] :=
    ((State.SameBut.refl s _).wr _ (by simp)).wr _ (by simp)
  refine ⟨_, (if_neg hidle).trans (if_neg hdirty), ?_, ?_, rfl, hothers.of_od rfl, ⟨rfl, rfl, rfl, rfl, rfl⟩⟩
  · rw [setBoot_rd, flashErase_rd, rd_wr_ne _ (by decide), rd_wr_same]
  · rw [setBoot_rd, flashErase_rd, rd_wr_same]

/-- A write of CAL_NOW sets the calendar, and with it the beginning of its second (R913). -/
theorem calOrder_facts {s : State} {v : Nat} (halarm : s.flag OD.ALARM_ENABLE = false) :
    ∃ t, s.calOrder v = (0, t) ∧ t.rd OD.CAL_NOW = v ∧
      t.rd OD.CAL_STATE = setBit (setBit (s.rd OD.CAL_STATE) 0 true) 1 false ∧ t.boot.secStart = s.lfNow ∧
      s.SameBut t [OD.CAL_NOW, OD.CAL_STATE] ∧ s.SameData t := by
  let u := ((s.wr OD.CAL_NOW v).setOdBit OD.CAL_STATE 0 true).setOdBit OD.CAL_STATE 1 false
  let t := u.setBoot { s.boot with secStart := s.lfNow, group := 0, secLen := u.trimmedSecond }
  have hothers : s.SameBut u [OD.CAL_NOW, OD.CAL_STATE] :=
    (((State.SameBut.refl s _).wr _ (by simp)).wr _ (by simp)).wr _ (by simp)
  have hflag : t.flag OD.ALARM_ENABLE = false := by
    have hsame : t.rd OD.ALARM_ENABLE = s.rd OD.ALARM_ENABLE := hothers.rd _ (by decide)
    unfold State.flag at halarm ⊢
    rwa [hsame]
  have hcheck : t.alarmCheck = t := if_neg (by simp [hflag])
  refine ⟨t, congrArg (Prod.mk 0) hcheck, ?_, ?_, rfl, hothers.of_od rfl, ⟨rfl, rfl, rfl, rfl, rfl⟩⟩
  · rw [setBoot_rd, rd_setOdBit, if_neg (by decide), rd_setOdBit, if_neg (by decide), rd_wr_same]
  · rw [setBoot_rd, rd_setOdBit, if_pos rfl, rd_setOdBit, if_pos rfl, rd_wr_ne _ (by decide)]

/-- Settles O10: each order is its store's effect under the window's registers. -/
theorem flashFuseAndPersistOrders : Obligations.FlashFuseAndPersistOrders := by
  refine ⟨fun p v s h hpage hburn hbusy hwritable => ?erase, fun p bs s h hlength hburn hbusy hwritable => ?program,
    fun p s h hbusy hlength hreadable => ?read, fun p k s h hburn hstate hkey => ?revoke,
    fun p v s h hrange hfloor hburn hrun hepoch => ?floor,
    fun p k bs s h hlength husage hcurve hburn hlife hempty => ?provision, fun p n bs s h => ?entry, fun p v s h => ?clear,
    fun p s h hidle hdirty => ?commit, fun p v s h halarm => ?calendar⟩
  case erase =>
    refine exec_accepted rfl h fun w => ?_
    obtain ⟨t, horder, htakes, hboot⟩ := eraseOrder_facts (s := s.underWindow w) hburn hbusy hpage hwritable
    obtain ⟨hstate, hothers, hdata⟩ := htakes.answered rfl p
    exact ⟨t, horder, hstate, by rw [withAnswer_boot]; exact hboot, hothers, hdata⟩
  case program =>
    refine exec_blob_accepted rfl h fun w => ?_
    obtain ⟨t, horder, hstate, hoffset, hboot, hothers, hdata⟩ :=
      flashProgram_facts (s := s.underWindow w) hburn hbusy hlength hwritable
    refine ⟨t, horder, ?_⟩
    rw [withAnswer_rd, withAnswer_rd, withAnswer_boot]
    exact ⟨hstate, hoffset, hboot, answered_frame hothers hdata⟩
  case read =>
    obtain ⟨w, hexec⟩ := exec_flashRead_of_admitted h hbusy hlength hreadable
    have htakes : (s.underWindow w).Takes ((s.underWindow w).flashMoved (s.rd OD.FLASH_LENGTH)) OD.FLASH_OFFSET
      (s.rd OD.FLASH_OFFSET + s.rd OD.FLASH_LENGTH) := .of_od rfl ⟨rfl, rfl, rfl, rfl, rfl⟩
    refine ⟨_, hexec, ?_, ?_, ?_, ?_, ?_, ?_⟩
    · rw [lastResp_withAnswer]
    · rw [lastResp_withAnswer]
    · rw [withAnswer_rd, htakes.value]
    · rw [withAnswer_boot]
      rfl
    · exact ((underWindow_sameBut s w _).trans htakes.others).answer
    · exact ((underWindow_sameData s w).trans htakes.data).answer
  case revoke =>
    exact exec_accepted rfl h fun w =>
      ⟨_, revoke_of_accepted (s := s.underWindow w) hburn hstate hkey, setBoot_answered s w _ p⟩
  case floor =>
    exact exec_accepted rfl h fun w =>
      ⟨_, floorOrder_of_accepted (s := s.underWindow w) hburn hrange hfloor hrun hepoch, setBoot_answered s w _ p⟩
  case provision =>
    exact exec_blob_accepted rfl h fun w =>
      ⟨_, provision_of_accepted (s := s.underWindow w) hburn hlength husage hcurve hlife hempty, setBoot_answered s w _ p⟩
  case entry =>
    exact exec_blob_accepted rfl h fun w => ⟨_, rfl, persistEntry_answered s w (OD.PERSIST_ENTRY n) bs p⟩
  case clear =>
    exact exec_accepted rfl h fun w => ⟨_, rfl, persistEntry_answered s w (OD.PERSIST_ENTRY v.toNat) [] p⟩
  case commit =>
    refine exec_accepted rfl h fun w => ?_
    obtain ⟨t, horder, hstate, hclean, hbank, hothers, hdata⟩ := persistOrder_facts (s := s.underWindow w) hidle hdirty
    refine ⟨t, horder, ?_⟩
    rw [withAnswer_rd, withAnswer_rd, withAnswer_boot]
    exact ⟨hstate, hclean, hbank, answered_frame hothers hdata⟩
  case calendar =>
    refine exec_accepted rfl h fun w => ?_
    obtain ⟨t, horder, hnow, hstate, hstart, hothers, hdata⟩ := calOrder_facts (s := s.underWindow w) (v := v.toNat) halarm
    refine ⟨t, horder, ?_⟩
    rw [withAnswer_rd, withAnswer_rd, withAnswer_boot]
    exact ⟨hnow, hstate, hstart, answered_frame hothers hdata⟩

end Sys2Proof.Machine
end

section
/-!
Accesses of objects on any path (R101 to R106, R119, R127, R131, R144, R1023, R1026): what an expedited read and write answer, and
what the reads of the fault log and of the lost-item list take out of their queues.
-/

set_option Elab.async false

namespace Sys2Proof.Machine

/-! ### The order of service (R131) -/

theorem foldl_insertByRank_perm (as l : List (Path × Instr)) : (as.foldl (fun l a => insertByRank a l) l).Perm (l ++ as) := by
  induction as generalizing l with
  | nil => simp
  | cons a as ih =>
    refine (ih _).trans (((insertByRank_perm a l).append_right as).trans ?_)
    exact List.perm_middle.symm

theorem serviceOrder_perm (as : List (Path × Instr)) : (serviceOrder as).Perm as :=
  foldl_insertByRank_perm as []

theorem serviceOrder_sorted (as : List (Path × Instr)) :
    (serviceOrder as).Pairwise (fun a b => pathRank a.1 ≤ pathRank b.1) :=
  foldl_inv (fun l => l.Pairwise fun a b => pathRank a.1 ≤ pathRank b.1) _ (fun l a h => insertByRank_sorted a l h) as
    List.Pairwise.nil

/-! ### Expedited reads and writes -/

theorem expRead_of_checked {s : State} {p : Path} {k len : Nat} {st quiet : Bool} {o : ObjDef}
    (hcheck : s.checkExpRead p k len st = .ok o) :
    s.expRead p k len st quiet = ({ val := (s.viewVal o k st).1 },
      if o.acc = .RC ∧ !quiet then (s.viewVal o k st).2.consume k else (s.viewVal o k st).2) := by
  unfold State.expRead
  rw [hcheck]

theorem expWrite_of_acted {s v : State} {p : Path} {idx : BitVec 16} {sub : Byte} {len d m : Nat} {o : ObjDef}
    (hcheck : s.checkWrite p idx.toNat sub.toNat len d = .ok (o, m)) (hact : s.act o (odKey idx.toNat sub.toNat) m = (0, v)) :
    s.expWrite p (odKey idx.toNat sub.toNat) len d = ({}, v) := by
  obtain ⟨hdiv, hmod⟩ := odKey_parts idx.toNat sub.toNat sub.isLt
  unfold State.expWrite
  rw [hdiv, hmod, hcheck]
  simp only [hact, if_pos]

/-- What the answer to an accepted write leaves of its unit's effect. -/
theorem written_answered (v : State) (p : Path) (irq : Bool) :
    (v.withAnswer p irq {}).answered p {} ∧ v.SameBut (v.withAnswer p irq {}) [] ∧ v.SameData (v.withAnswer p irq {}) ∧
      (v.withAnswer p irq {}).dict.fresh = v.dict.fresh :=
  ⟨withAnswer_answered .., (State.SameBut.refl v []).answer, (State.SameData.refl v).answer, withAnswer_fresh ..⟩

/-- A consuming read of an object other than MIN_FREE leaves zero (R97, R144). -/
theorem consume_takes {s : State} {k : Nat} (hk : k ≠ OD.MIN_FREE (k / 256 % 16)) : s.Takes (s.consume k) k 0 := by
  unfold State.consume
  rw [if_neg hk]
  split
  · exact .of_od rfl ⟨rfl, rfl, rfl, rfl, rfl⟩
  · exact .of_od rfl ⟨rfl, rfl, rfl, rfl, rfl⟩

/-! ### The queues of records and of lost items (R1010, R1023, R1026) -/

theorem FaultRec.toBytes_length (r : FaultRec) : r.toBytes.length = 32 := by
  simp [FaultRec.toBytes]

theorem LostEntry.toBytes_length (e : LostEntry) : e.toBytes.length = 16 := by
  simp [LostEntry.toBytes]

/-- The entries whose bytes a read returned stand at the queue's head, and leave it. -/
theorem dropReturned_of_prefix {α : Type} (w : α → List Byte) (width : Nat) (hw : ∀ e, (w e).length = width) (shown rest : List α) :
    dropReturned w width shown.length (shown.flatMap w) (shown ++ rest) = rest := by
  induction shown with
  | nil => rfl
  | cons e es ih =>
    have htake : (w e ++ es.flatMap w).take width = w e := List.take_left' (hw e)
    have hdrop : (w e ++ es.flatMap w).drop width = es.flatMap w := List.drop_left' (hw e)
    simp only [List.length_cons, List.flatMap_cons, dropReturned, List.cons_append, htake, hdrop, List.eraseP_cons_of_pos, decide_true]
    exact ih

theorem flatMap_length_of_width {α : Type} (w : α → List Byte) (width : Nat) (hw : ∀ e, (w e).length = width) (l : List α) :
    (l.flatMap w).length = width * l.length := by
  induction l with
  | nil => rfl
  | cons e es ih => simp [hw, ih, Nat.mul_succ, Nat.add_comm]

/-- A read of LOST_NEXT or LOST_ALL takes the entries it returned out of the lost-item list. -/
theorem consumeBytes_lost {s : State} {k : Nat} (hk : k = OD.LOST_NEXT ∨ k = OD.LOST_ALL) {shown rest : List LostEntry}
    (hlost : s.falt.lost = shown ++ rest) :
    s.consumeBytes k (shown.flatMap LostEntry.toBytes) = { s with falt := { s.falt with lost := rest } } := by
  have hcount : (shown.flatMap LostEntry.toBytes).length / 16 = shown.length := by
    rw [flatMap_length_of_width _ 16 LostEntry.toBytes_length]
    omega
  have hfault : k ≠ OD.FAULT_NEXT := by rcases hk with rfl | rfl <;> decide
  unfold State.consumeBytes
  rw [if_neg hfault, if_pos hk, hcount, hlost, dropReturned_of_prefix _ _ LostEntry.toBytes_length]

theorem consumeBytes_fault {s : State} {r : FaultRec} {rs : List FaultRec} (hlog : s.falt.log = r :: rs) :
    s.consumeBytes OD.FAULT_NEXT r.toBytes = { s with falt := { s.falt with log := rs } } := by
  have hdrop := dropReturned_of_prefix FaultRec.toBytes 32 FaultRec.toBytes_length [r] rs
  simp only [List.flatMap_cons, List.flatMap_nil, List.append_nil, List.length_singleton, List.singleton_append] at hdrop
  unfold State.consumeBytes
  rw [if_pos rfl, FaultRec.toBytes_length, hlog, hdrop]

theorem logShown_of_older {s : State} {r : FaultRec} {rs : List FaultRec} (hlog : s.falt.log = r :: rs)
    (htime : r.time ≠ s.clk.gtime) : s.logShown = [r] := by
  simp [State.logShown, hlog, htime]

/-- A read of a queue of records passes its checks, and takes what it returns out of the queue. -/
theorem readQueue_answered {s : State} {p : Path} {k : Nat} {bs : List Byte} {f : FaultUnit} (hadmits : s.admitsRead p k = true)
    (hbytes : ∀ w, (s.underWindow w).readBytes k = .ok bs) (hne : bs ≠ [])
    (huse : ∀ w, (s.underWindow w).consumeBytes k bs = { s.underWindow w with falt := f }) :
    ∃ t, s.readBlobRow p k = t ∧ t.answered p { bytes := bs, last := true } ∧ t.falt = f ∧ s.SameBut t [] ∧ s.SameData t := by
  obtain ⟨w, hread⟩ := blobRead_admitted (get := fun s => s.readBytes k) (use := fun bs s => s.consumeBytes k bs) hadmits hbytes hne
  refine ⟨_, hread, withAnswer_answered .., ?_, ?_, ?_⟩
  · rw [withAnswer_falt, huse]
  · rw [huse]
    exact State.SameBut.answer (s := s) (t := { s.underWindow w with falt := f }) ⟨fun _ _ => rfl⟩
  · rw [huse]
    exact State.SameData.answer (s := s) (t := { s.underWindow w with falt := f }) ⟨rfl, rfl, rfl, rfl, rfl⟩

theorem LostEntry.flatMap_ne_nil {l : List LostEntry} (h : l ≠ []) : l.flatMap LostEntry.toBytes ≠ [] := by
  intro hnil
  have hlength := flatMap_length_of_width _ 16 LostEntry.toBytes_length l
  have hpos := List.length_pos_of_ne_nil h
  rw [hnil, List.length_nil] at hlength
  omega

theorem recordAccess_counts (s : State) (p : Path) (domain idx sub code rejected : Nat) :
    (s.recordAccess p domain idx sub code rejected).rd (OD.CLASS_COUNTS 0) = min (s.rd (OD.CLASS_COUNTS 0) + 1) 0xFFFFFFFF := by
  obtain ⟨-, -, hcount, -⟩ := logFault_facts s ⟨0, FaultClass.corrected, pathAgent p, pathRole p, domain, idx * 256 + sub, 0xFF,
    idx * 2 ^ 24 + sub * 2 ^ 16 + code, rejected⟩ (Nat.zero_le 4) _ rfl
  exact hcount

/-! ### The statement -/

/-- Settles O12: each access is served on its path, and its answer follows from the checks that it passed. -/
theorem accessesReadAndWriteObjects : Obligations.AccessesReadAndWriteObjects := by
  refine ⟨fun as s => ⟨rfl, serviceOrder_perm as, serviceOrder_sorted as⟩,
    fun p idx sub st irq len d o s u hu hopen hcheck => ?read,
    fun p idx sub st irq len d o m s u v hu hopen hcheck hact => ?write,
    fun p idx sub d o m s u v hobj hu hopen hcheck hact => ?register,
    fun p idx sub o s u hobj hsize hacc hu hopen hcheck hmin => ?consuming,
    fun p r rs s h hlog htime => ?fault, fun p e es s h hlost hfresh => ?lost, fun p s h hshown => ?all,
    fun p wr idx sub d o s hopen hcheck => ?timeout⟩
  case read =>
    have hserve : exec (.expeditedAccess p false idx sub st len d irq) s =
        .next (u.serve p irq fun s => s.expRead p (odKey idx.toNat sub.toNat) len.toNat st false) := by rw [hu]; rfl
    refine ⟨_, hserve.trans (congrArg Host.Outcome.next (serve_open hopen irq _)), ?_, fun hrc => ?_⟩
    · rw [expRead_of_checked hcheck]
      exact withAnswer_answered ..
    · rw [expRead_of_checked hcheck, if_neg fun h => hrc h.1]
      have hkeep : Keep [.dict] s (u.viewVal o (odKey idx.toNat sub.toNat) st).2 :=
        (hu ▸ dwSet_keepD s p _ _ _ _).trans ((viewVal_keep u o _ _ (Keep.rfl' u)).mono (within_of (by decide)))
      exact ⟨(keep_but hkeep).answer, hkeep.sameData.answer⟩
  case write =>
    have hserve : exec (.expeditedAccess p true idx sub st len d irq) s =
        .next (u.serve p irq fun s => s.expWrite p (odKey idx.toNat sub.toNat) len.toNat d.toNat) := by rw [hu]; rfl
    refine ⟨_, hserve.trans (congrArg Host.Outcome.next (serve_open hopen irq _)), ?_⟩
    rw [expWrite_of_acted hcheck hact]
    exact written_answered v p irq
  case register =>
    obtain ⟨hdiv, hmod⟩ := odKey_parts idx.toNat sub.toNat sub.isLt
    have hserve : exec (.registerWrite p idx sub d) s =
        .next (u.serve p false fun s => s.expWrite p (odKey idx.toNat sub.toNat) o.ty.size d.toNat) := by
      refine congrArg Host.Outcome.next ?_
      unfold State.writeRow
      rw [hdiv, hmod, hobj, hu]
    refine ⟨_, hserve.trans (congrArg Host.Outcome.next (serve_open hopen false _)), ?_⟩
    rw [expWrite_of_acted hcheck hact]
    exact written_answered v p false
  case consuming =>
    have hserve : exec (.rcRead p idx sub) s =
        .next (u.serve p false fun s => s.expRead p (odKey idx.toNat sub.toNat) o.ty.size false false) := by
      refine congrArg Host.Outcome.next ?_
      simp only [hobj, if_neg hsize, hu]
    obtain ⟨hdiv, -⟩ := odKey_parts idx.toNat sub.toNat sub.isLt
    have htakes := consume_takes (s := (u.viewVal o (odKey idx.toNat sub.toNat) false).2) (k := odKey idx.toNat sub.toNat)
      (by rw [hdiv]; exact hmin)
    have hkeep : Keep [.dict] s (u.viewVal o (odKey idx.toNat sub.toNat) false).2 :=
      (hu ▸ dwSet_keepD s p _ _ _ _).trans ((viewVal_keep u o _ _ (Keep.rfl' u)).mono (within_of (by decide)))
    refine ⟨_, hserve.trans (congrArg Host.Outcome.next (serve_open hopen false _)), ?_⟩
    rw [expRead_of_checked hcheck, if_pos ⟨hacc, rfl⟩]
    refine ⟨withAnswer_answered .., ?_, State.SameBut.answer ⟨fun k hk => ?_⟩, (hkeep.sameData.trans htakes.data).answer⟩
    · rw [withAnswer_rd, htakes.value]
    · rw [htakes.others.rd k hk, hkeep.rd]
  case fault =>
    obtain ⟨t, hread, hanswer⟩ := readQueue_answered (k := OD.FAULT_NEXT) (bs := r.toBytes)
      (f := { s.falt with log := rs }) h
      (fun w => by
        have hshown : (s.underWindow w).logShown = [r] := logShown_of_older hlog htime
        simp [State.readBytes, hshown])
      (List.ne_nil_of_length_pos (by rw [FaultRec.toBytes_length]; decide))
      (fun w => consumeBytes_fault (s := s.underWindow w) hlog)
    exact ⟨t, congrArg Host.Outcome.next hread, hanswer⟩
  case lost =>
    have hshown : s.lostShown.take 1 = [e] := by
      unfold State.lostShown
      rw [hlost, List.length_cons, Nat.succ_sub hfresh, List.take_succ_cons, List.take_succ_cons, List.take_zero]
    obtain ⟨t, hread, hanswer⟩ := readQueue_answered (k := OD.LOST_NEXT) (bs := [e].flatMap LostEntry.toBytes)
      (f := { s.falt with lost := es }) h
      (fun w => congrArg (fun l => Except.ok (List.flatMap LostEntry.toBytes l)) hshown)
      (LostEntry.flatMap_ne_nil (by simp))
      (fun w => consumeBytes_lost (s := s.underWindow w) (.inl rfl) (shown := [e]) hlost)
    simp only [List.flatMap_cons, List.flatMap_nil, List.append_nil] at hanswer
    exact ⟨t, congrArg Host.Outcome.next hread, hanswer⟩
  case all =>
    have hsplit : s.falt.lost = s.lostShown ++ s.falt.lost.drop s.lostShown.length := by
      unfold State.lostShown
      rw [List.length_take_of_le (Nat.sub_le _ _), List.take_append_drop]
    obtain ⟨t, hread, hanswer⟩ := readQueue_answered (k := OD.LOST_ALL)
      (f := { s.falt with lost := s.falt.lost.drop s.lostShown.length }) h (fun w => rfl) (LostEntry.flatMap_ne_nil hshown)
      (fun w => consumeBytes_lost (s := s.underWindow w) (.inr rfl) hsplit)
    exact ⟨t, congrArg Host.Outcome.next hread, hanswer⟩
  case timeout =>
    let u := s.dwSet p (dwCmd false false false 0 false wr) (odKey idx.toNat sub.toNat) 0
      (if wr then leBytes 8 (if wr then d.toNat else 0) else [])
    have hwin : u = s.underWindow u.dict.win := dwSet_win ..
    have hcheck' : u.checkObject p wr idx.toNat sub.toNat (if wr then d.toNat else 0) = .ok o := by rw [hwin]; exact hcheck
    have hserve := serve_open (s := u) (p := p) (by rw [open_dwSet]; exact hopen) false fun s =>
      match s.checkObject p wr idx.toNat sub.toNat (if wr then d.toNat else 0) with
      | .error c => s.abort p idx.toNat sub.toNat c (if wr then d.toNat else 0)
      | .ok _ => ({ code := Abort.timeout }, s.recordAccess p (domainOf (odKey idx.toNat sub.toNat)) idx.toNat sub.toNat
          Abort.timeout (if wr then d.toNat else 0))
    simp only [hcheck'] at hserve
    have hdata : s.SameData u := (dwSet_keepD ..).sameData
    refine ⟨_, congrArg Host.Outcome.next hserve, withAnswer_answered .., ?_, ?_⟩
    · exact (hdata.trans (recordAccess_keep (fs := [.od, .host, .falt]) u p _ _ _ _ _ (Keep.rfl' u)).sameData).answer
    · rw [withAnswer_rd]
      have hkeep : Keep [.dict] s u := dwSet_keepD ..
      rw [recordAccess_counts, hkeep.rd]

end Sys2Proof.Machine
end

section
/-!
Segmented transfers (R107 to R114, R142) and the windows' answers (R156, R157).
-/

set_option Elab.async false

namespace Sys2Proof.Machine

/-! ### Opens -/

theorem openWrite_of_checked {s : State} {p : Path} {idx : BitVec 16} {sub : Byte} {len : Nat}
    (hcheck : s.checkBlob p idx.toNat sub.toNat len = .ok ()) :
    s.openWrite p (odKey idx.toNat sub.toNat) len = ({}, s.setXfer p
      (some { wr := true, key := odKey idx.toNat sub.toNat, staged := false, len := len, since := s.clk.now })) := by
  obtain ⟨hdiv, hmod⟩ := odKey_parts idx.toNat sub.toNat sub.isLt
  unfold State.openWrite
  rw [hdiv, hmod, hcheck]

theorem openSnap_of_checked {s : State} {p : Path} {idx : BitVec 16} {sub : Byte} {o : ObjDef} {bs : List Byte}
    (hobj : s.checkObject p false idx.toNat sub.toNat 0 = .ok o) (hblob : o.ty.size = 0) (hpath : p ≠ .dbg)
    (hpower : s.objPowered (odKey idx.toNat sub.toNat) = true) (hfree : s.xfer p = none)
    (hbytes : s.readBytes (odKey idx.toNat sub.toNat) = .ok bs) (hne : bs ≠ []) :
    s.openSnap p (odKey idx.toNat sub.toNat) = .ok bs := by
  obtain ⟨hdiv, hmod⟩ := odKey_parts idx.toNat sub.toNat sub.isLt
  obtain ⟨b, l, rfl⟩ := List.exists_cons_of_ne_nil hne
  unfold State.openSnap State.readSnap
  rw [hdiv, hmod, hobj]
  simp [hbytes, hblob, hpath, hfree, hpower]

/-- A step that leaves `x` as its path's transfer and touches no other part than the dictionary's record is answered. -/
theorem setXfer_answered {s u : State} (hkeep : Keep [.dict] s u) (hxfer : ∀ q, u.xfer q = s.xfer q) (p : Path) (irq : Bool)
    (x : Option Xfer) (r : Resp) :
    let t := (u.setXfer p x).withAnswer p irq r
    t.answered p r ∧ t.xfer p = x ∧ (∀ q, pathId q ≠ pathId p → t.xfer q = s.xfer q) ∧ Keep [.dict] s t := by
  refine ⟨withAnswer_answered .., ?_, fun q hq => ?_, withAnswer_keepD (setXfer_keep u p x hkeep) p irq r⟩
  · rw [withAnswer_x, setXfer_x]
  · rw [withAnswer_x, setXfer_ne u p q x hq, hxfer]

/-! ### Segments -/

section segment
variable {s : State} {p : Path} {g last : Bool} {bs : List Byte} {x : Xfer} (hx : s.xfer p = some x)
include hx

theorem segStep_of_badLength (hbad : x.badLength p last bs = true) :
    s.segStep p g last bs = s.closeWith p x Abort.typeLength := by
  unfold State.segStep
  rw [hx]
  simp only [hbad, if_true]

theorem segStep_of_stale (hlength : x.badLength p last bs = false)
    (hstale : g ≠ x.toggle ∨ x.cut = true ∨ s.objPowered x.key = false) :
    s.segStep p g last bs = s.closeWith p x Abort.state := by
  unfold State.segStep
  rw [hx]
  simp only [hlength, Bool.false_eq_true, if_false]
  exact if_pos (by simpa using hstale)

variable (hlength : x.badLength p last bs = false) (htoggle : g = x.toggle) (hcut : x.cut = false)
  (hpower : s.objPowered x.key = true)
include hlength htoggle hcut hpower

theorem segStep_of_taken :
    s.segStep p g last bs = if x.wr then s.segWrite p x last bs else s.segRead p x := by
  unfold State.segStep
  rw [hx]
  simp [hlength, htoggle, hcut, hpower]

end segment

theorem badLength_of_read {x : Xfer} {p : Path} {last : Bool} {bs : List Byte} (hread : x.wr = false) :
    x.badLength p last bs = false := by
  simp [Xfer.badLength, hread]

theorem badLength_of_fits {x : Xfer} {p : Path} {last : Bool} {bs : List Byte} (hne : bs ≠ []) (hseg : bs.length ≤ segSize p)
    (hfits : (x.buf ++ bs).length ≤ x.len) (hlast : last = true → (x.buf ++ bs).length = x.len) :
    x.badLength p last bs = false := by
  rw [List.length_append] at hfits hlast
  unfold Xfer.badLength
  cases last with
  | false => simp [hne, hseg, hfits]
  | true => simp [hne, hseg, hlast rfl]

/-- A transfer that an error ends is closed, with at most a record of the error. -/
theorem closeWith_facts (s : State) (p : Path) (x : Xfer) (c : Nat) :
    (s.closeWith p x c).1 = { code := c } ∧ (s.closeWith p x c).2.xfer p = none ∧ s.SameData (s.closeWith p x c).2 := by
  have hkeep : Keep [.od, .host, .falt] (s.setXfer p none) (s.closeWith p x c).2 :=
    abortSeg_keep _ p x.key c (Keep.rfl' _)
  have hdict : (s.closeWith p x c).2.dict = (s.setXfer p none).dict := hkeep.part .dict
  refine ⟨?_, ?_, (setXfer_keep (fs := [.dict]) s p none (Keep.rfl' s)).sameData.trans hkeep.sameData⟩
  · unfold State.closeWith State.abortSeg
    split <;> rfl
  · unfold State.xfer
    rw [hdict]
    exact setXfer_x s p none

theorem consumeBytes_falt {s u : State} (h : u.falt = s.falt) (k : Nat) (snap : List Byte) :
    (u.consumeBytes k snap).falt = (s.consumeBytes k snap).falt := by
  unfold State.consumeBytes
  rw [h]
  split
  · rfl
  · split
    · rfl
    · split
      · exact h
      · exact h

theorem consumeBytes_dict (s : State) (k : Nat) (snap : List Byte) : (s.consumeBytes k snap).dict = s.dict :=
  (consumeBytes_keep (fs := [.od, .falt]) s k snap (Keep.rfl' s)).part .dict

/-! ### The windows' answers -/

/-- The window of a step whose answer has arrived. -/
def DictWindow.answeredBy (w : DictWindow) (r : Resp) : DictWindow :=
  { w with
    busy := false, done := true, answer := none, abort := r.code, toggle := r.toggle, last := r.last
    valid := (lastSegment r.bytes).length, data := if r.code = 0 then dwData w r else w.data }

/-- The vector of a window whose step asked for an interrupt (R157). -/
def State.stepSignal (s : State) (p : Path) : State :=
  match p with
  | .ten n => s.signalTen n.val 3
  | _ => s.signal false 3

theorem exec_dwStepDone_of_answer {s : State} {p : Path} {r : Resp} (hwindow : isWindow p = true) (hbusy : (s.win p).busy = true)
    (hanswer : (s.win p).answer = some r) :
    exec (.dwStepDone p) s = .next (
      if (s.win p).irq then (s.setWin p ((s.win p).answeredBy r)).stepSignal p else s.setWin p ((s.win p).answeredBy r)) := by
  have hstep : ¬(!isWindow p ∨ !(s.win p).busy) := by simp [hwindow, hbusy]
  change execDwStepDone p s = _
  unfold execDwStepDone
  simp only [hanswer, if_neg hstep]
  by_cases hirq : (s.win p).irq = true
  · rw [if_pos hirq, if_neg (by rw [hirq]; decide)]
    cases p <;> rfl
  · rw [if_neg hirq, if_pos (by rw [Bool.eq_false_of_not_eq_true hirq]; rfl)]
    rfl

theorem stepSignal_keep (s : State) (p : Path) : Keep [.host] s (s.stepSignal p) := by
  unfold State.stepSignal
  split
  · exact signalTen_keep s _ 3 (Keep.rfl' s)
  · exact signal_keep s false 3 (Keep.rfl' s)

theorem stepSignal_host {s t : State} (p : Path) (hhost : t.host = s.host) (hrd : ∀ k, t.rd k = s.rd k) :
    (t.stepSignal p).host = (s.stepSignal p).host := by
  unfold State.stepSignal State.signalTen
  split
  · exact signal_host s t true _ hhost (hrd _) (hrd _)
  · exact signal_host s t false 3 hhost (hrd _) (hrd _)

/-- What DW_STEP_DONE leaves: the answered window, and the signalled vector where the step asked for one. -/
theorem dwStepDone_facts (s : State) (p : Path) (w : DictWindow) :
    let t := if (s.win p).irq then (s.setWin p w).stepSignal p else s.setWin p w
    t.win p = w ∧ t.host = (if (s.win p).irq then (s.stepSignal p).host else s.host) ∧ Keep [.dict, .host] s t := by
  have hset : Keep [.dict, .host] s (s.setWin p w) := setWin_keep s p w (Keep.rfl' s)
  cases hirq : (s.win p).irq with
  | false => exact ⟨win_setWin_same .., rfl, hset⟩
  | true =>
    have hsignal := stepSignal_keep (s.setWin p w) p
    have hdict : ((s.setWin p w).stepSignal p).dict = (s.setWin p w).dict := hsignal.part .dict
    refine ⟨?_, stepSignal_host p rfl (fun _ => rfl), hset.trans (hsignal.mono (within_of (by decide)))⟩
    change (State.stepSignal _ p).win p = w
    unfold State.win
    rw [hdict]
    exact win_setWin_same s p w

/-- Settles O13: an open, a segment and an answer each by the step function's one equation for it. -/
theorem segmentsCarryTransfers : Obligations.SegmentsCarryTransfers := by
  refine ⟨fun p idx sub st irq len s u hu hopen hcheck => ?openWrite,
    fun p idx sub st irq len o bs s u hu hopen hobj hblob hpath hpower hfree hbytes hne => ?openRead,
    fun p g last irq bs x s u hu hopen hx => ?segment, fun p irq s u hu hopen => ?abort, fun p x s hx => ?timeout,
    fun p r s hwindow hbusy hanswer => ?answer⟩
  case openWrite =>
    have hserve : exec (.segmentedOpen p true idx sub st len irq) s =
        .next (u.serve p irq fun s => s.openWrite p (odKey idx.toNat sub.toNat) len.toNat) := by rw [hu]; rfl
    have hkeep : Keep [.dict] s u := hu ▸ dwSet_keepD ..
    have hnow : u.clk.now = s.clk.now := hkeep.now
    refine ⟨_, hserve.trans (congrArg Host.Outcome.next (serve_open hopen irq _)), ?_⟩
    rw [openWrite_of_checked hcheck, hnow]
    exact setXfer_answered hkeep (fun q => hu ▸ dwSet_xfer ..) p irq _ _
  case openRead =>
    have hserve : exec (.segmentedOpen p false idx sub st len irq) s =
        .next (u.serve p irq fun s => s.openRead p (odKey idx.toNat sub.toNat) st) := by rw [hu]; rfl
    have hkeep : Keep [.dict] s u := hu ▸ dwSet_keepD ..
    have hnow : u.clk.now = s.clk.now := hkeep.now
    refine ⟨_, hserve.trans (congrArg Host.Outcome.next (serve_open hopen irq _)), ?_⟩
    unfold State.openRead
    rw [openSnap_of_checked hobj hblob hpath hpower hfree hbytes hne, hnow]
    exact setXfer_answered hkeep (fun q => hu ▸ dwSet_xfer ..) p irq _ _
  case segment =>
    have hserve : exec (.segment p g last bs irq) s = .next (u.serve p irq fun s => s.segStep p g last bs) := by
      change execSegment p g last bs irq s = _
      unfold execSegment
      simp only [hx, hu]
    have hexec := hserve.trans (congrArg Host.Outcome.next (serve_open hopen irq _))
    have hkeep : Keep [.dict] s u := hu ▸ dwSet_keepD ..
    have hnow : u.clk.now = s.clk.now := hkeep.now
    have hxfer (q : Path) : u.xfer q = s.xfer q := hu ▸ dwSet_xfer ..
    have hxu : u.xfer p = some x := (hxfer p).trans hx
    have closes {c : Nat} (hstep : u.segStep p g last bs = u.closeWith p x c) :
        ∃ t, exec (.segment p g last bs irq) s = .next t ∧ t.answered p { code := c } ∧ t.xfer p = none ∧ s.SameData t := by
      obtain ⟨hresp, hnone, hdata⟩ := closeWith_facts u p x c
      refine ⟨_, hexec, ?_, ?_, ?_⟩ <;> rw [hstep]
      · rw [hresp]
        exact withAnswer_answered ..
      · rw [withAnswer_x, hnone]
      · exact (hkeep.sameData.trans hdata).answer
    refine ⟨fun htoggle hcut hpower hwr hne hseg hlast hfits => ?more, fun v htoggle hcut hpower hwr hne hseg hlast hfull hact => ?last,
      fun htoggle hcut hpower hread hlong => ?readMore, fun htoggle hcut hpower hread hshort => ?readLast,
      fun hlength hstale => closes (segStep_of_stale hxu hlength hstale), fun hbad => closes (segStep_of_badLength hxu hbad)⟩
    case more =>
      have hlength := badLength_of_fits (last := last) hne hseg hfits (by simp [hlast])
      have hstep := segStep_of_taken hxu hlength htoggle hcut hpower
      rw [if_pos hwr] at hstep
      refine ⟨_, hexec, ?_⟩
      rw [hstep]
      unfold State.segWrite
      simp only [hlast, Bool.not_false, if_true, hnow]
      obtain ⟨hanswer, hx', -, hkeep'⟩ := setXfer_answered hkeep hxfer p irq
        (some { x with buf := x.buf ++ bs, toggle := !x.toggle, since := s.clk.now }) { toggle := x.toggle }
      exact ⟨hanswer, hx', hkeep'⟩
    case last =>
      have hlength := badLength_of_fits (last := last) hne hseg hfull.le (fun _ => hfull)
      have hstep := segStep_of_taken hxu hlength htoggle hcut hpower
      rw [if_pos hwr] at hstep
      refine ⟨_, hexec, ?_⟩
      rw [hstep]
      unfold State.segWrite
      simp only [hlast, Bool.not_true, Bool.false_eq_true, if_false, hact, if_true]
      exact ⟨withAnswer_answered .., (State.SameBut.refl v []).answer, (State.SameData.refl v).answer, withAnswer_odb ..,
        withAnswer_boot ..⟩
    case readMore =>
      have hstep := segStep_of_taken (last := last) (bs := bs) hxu (badLength_of_read hread) htoggle hcut hpower
      rw [hread, if_neg Bool.false_ne_true] at hstep
      have hmore : ¬ x.buf.length ≤ segSize p := by omega
      refine ⟨_, hexec, ?_⟩
      rw [hstep]
      unfold State.segRead
      simp only [hmore, if_false, decide_false, hnow]
      obtain ⟨hanswer, hx', -, hkeep'⟩ := setXfer_answered hkeep hxfer p irq
        (some { x with buf := x.buf.drop (segSize p), toggle := !x.toggle, since := s.clk.now })
        { bytes := x.buf.take (segSize p), toggle := x.toggle }
      exact ⟨hanswer, hx', hkeep'⟩
    case readLast =>
      have hstep := segStep_of_taken (last := last) (bs := bs) hxu (badLength_of_read hread) htoggle hcut hpower
      rw [hread, if_neg Bool.false_ne_true] at hstep
      refine ⟨_, hexec, ?_⟩
      rw [hstep]
      unfold State.segRead
      simp only [hshort, if_true, decide_true, List.take_of_length_le hshort]
      have hclosed : Keep [.dict] s (u.setXfer p none) := setXfer_keep u p none hkeep
      refine ⟨withAnswer_answered .., ?_, ?_, ?_⟩
      · rw [withAnswer_falt]
        exact consumeBytes_falt (hclosed.part .falt) _ _
      · unfold State.xfer
        rw [withAnswer_xfer, consumeBytes_dict]
        exact setXfer_x u p none
      · have hused : Keep [.od, .falt] (u.setXfer p none) ((u.setXfer p none).consumeBytes x.key x.snap) :=
          consumeBytes_keep _ _ _ (Keep.rfl' _)
        exact (hclosed.sameData.trans hused.sameData).answer
  case abort =>
    have hserve : exec (.abortOwnTransfer p irq) s = .next (u.serve p irq fun s =>
        match s.xfer p with
        | none => ({ code := Abort.state }, s)
        | some _ => ({}, s.setXfer p none)) := by rw [hu]; rfl
    have hexec := hserve.trans (congrArg Host.Outcome.next (serve_open hopen irq _))
    have hkeep : Keep [.dict] s u := hu ▸ dwSet_keepD ..
    have hxfer (q : Path) : u.xfer q = s.xfer q := hu ▸ dwSet_xfer ..
    refine ⟨_, hexec, ?_⟩
    rw [hxfer p]
    cases hx : s.xfer p with
    | none =>
      refine ⟨?_, withAnswer_answered .., withAnswer_keepD hkeep p irq _⟩
      rw [withAnswer_x, hxfer, hx]
    | some x =>
      obtain ⟨hanswer, hnone, -, hkeep'⟩ := setXfer_answered hkeep hxfer p irq none {}
      exact ⟨hnone, hanswer, hkeep'⟩
  case timeout =>
    have hexec : exec (.segmentTimeout p) s = .next (
        if s.clk.now ≤ x.since + 500000 then s else (s.setXfer p none).setResp p { code := Abort.timeout }) := by
      change execSegmentTimeout p s = _
      unfold execSegmentTimeout
      simp only [hx]
      rfl
    refine ⟨fun hlate => ?_, fun hearly => hexec.trans (congrArg Host.Outcome.next (if_pos hearly))⟩
    refine ⟨_, hexec.trans (congrArg Host.Outcome.next (if_neg (by omega))), setXfer_x s p none, setResp_last .., ?_⟩
    exact setResp_keep _ p _ (setXfer_keep s p none (Keep.rfl' s))
  case answer =>
    obtain ⟨hwin, hhost, hkeep⟩ := dwStepDone_facts s p ((s.win p).answeredBy r)
    refine ⟨_, exec_dwStepDone_of_answer hwindow hbusy hanswer, ?_⟩
    rw [hwin]
    refine ⟨rfl, rfl, rfl, rfl, rfl, rfl, rfl, rfl, hhost.trans ?_, hkeep⟩
    cases p <;> rfl

end Sys2Proof.Machine
end

section
/-!
Message signals (R192), and what makes a boundary of the tick unit (Table TICK-1, R16, R21 to R23, R28, R32).
-/

set_option Elab.async false

namespace Sys2Proof.Machine

/-! ### Message signals -/

/-- One vector of `sendPending`: it is sent if it is pending and unmasked and its function can send. -/
def State.sendVector (pf1 : Bool) (s : State) (v : Nat) : State :=
  if s.canSend pf1 && (s.msix pf1).pend.getLsbD v && !(s.msix pf1).mask.getLsbD v then s.setMsix pf1 ((s.msix pf1).send v) else s

theorem sendPending_eq (s : State) (pf1 : Bool) : s.sendPending pf1 = foldN 64 (State.sendVector pf1) s := rfl

theorem msix_eq_of_host {s t : State} (h : t.host = s.host) (pf1 : Bool) : t.msix pf1 = s.msix pf1 := by
  unfold State.msix
  rw [h]

theorem setMsix_od (s : State) (pf1 : Bool) (m : Msix) : (s.setMsix pf1 m).od = s.od := by
  cases pf1 <;> rfl

theorem canSend_of_od {s t : State} (hod : t.od = s.od) {pf1 : Bool} (hbme : (t.msix pf1).bme = (s.msix pf1).bme)
    (henabled : (t.msix pf1).enabled = (s.msix pf1).enabled) : t.canSend pf1 = s.canSend pf1 := by
  unfold State.canSend State.linkUp
  rw [rd_of_od hod, hbme, henabled]

theorem sent_send (m : Msix) (k w : Nat) :
    Sparse.get (fun _ => 0) (m.send k).sent w =
      if w = k then Sparse.get (fun _ => 0) m.sent k + 1 else Sparse.get (fun _ => 0) m.sent w :=
  Sparse.get_put (fun _ => 0) m.sent k w (Sparse.get (fun _ => 0) m.sent k + 1)

/-- What `t` holds of `s`'s function once its vectors below `k` have had their turn. -/
structure SentBelow (s t : State) (pf1 : Bool) (k : Nat) : Prop where
  mask : (t.msix pf1).mask = (s.msix pf1).mask
  bme : (t.msix pf1).bme = (s.msix pf1).bme
  enabled : (t.msix pf1).enabled = (s.msix pf1).enabled
  pend : ∀ w, w < 64 → (t.msix pf1).pend.getLsbD w =
    ((s.msix pf1).pend.getLsbD w && !(decide (w < k) && s.canSend pf1 && !(s.msix pf1).mask.getLsbD w))
  sent : ∀ w, w < 64 → Sparse.get (fun _ => 0) (t.msix pf1).sent w = Sparse.get (fun _ => 0) (s.msix pf1).sent w +
    (if decide (w < k) && (s.msix pf1).pend.getLsbD w && s.canSend pf1 && !(s.msix pf1).mask.getLsbD w then 1 else 0)
  other : t.msix (!pf1) = s.msix (!pf1)
  od : t.od = s.od

theorem SentBelow.next {s t : State} {pf1 : Bool} {k : Nat} (h : SentBelow s t pf1 k) (hk : k < 64) :
    SentBelow s (State.sendVector pf1 t k) pf1 (k + 1) := by
  have hcan : t.canSend pf1 = s.canSend pf1 := canSend_of_od h.od h.bme h.enabled
  have hpendk := h.pend k hk
  rw [decide_eq_false (Nat.lt_irrefl k), Bool.false_and, Bool.false_and, Bool.not_false, Bool.and_true] at hpendk
  have hlt (w : Nat) (hw : w ≠ k) : decide (w < k + 1) = decide (w < k) := by
    rw [decide_eq_decide]
    omega
  unfold State.sendVector
  rw [hcan, hpendk, h.mask]
  split
  next hsend =>
    obtain ⟨hself, hother⟩ := msix_setMsix t pf1 ((t.msix pf1).send k)
    simp only [Bool.and_eq_true, Bool.not_eq_true'] at hsend
    obtain ⟨⟨hcank, hpk⟩, hmaskk⟩ := hsend
    refine ⟨by rw [hself]; exact h.mask, by rw [hself]; exact h.bme, by rw [hself]; exact h.enabled, fun w hw => ?_, fun w hw => ?_,
      hother.trans h.other, (setMsix_od ..).trans h.od⟩
    · rw [hself]
      refine (pend_off _ k w hw).trans ?_
      by_cases hwk : w = k
      · subst hwk
        simp [hcank, hmaskk]
      · rw [h.pend w hw, hlt w hwk, decide_eq_true hwk, Bool.and_true]
    · rw [hself]
      rw [sent_send]
      by_cases hwk : w = k
      · subst hwk
        rw [if_pos rfl, h.sent w hw]
        simp [hcank, hmaskk, hpk]
      · rw [if_neg hwk, h.sent w hw, hlt w hwk]
  next hstays =>
    refine ⟨h.mask, h.bme, h.enabled, fun w hw => ?_, fun w hw => ?_, h.other, h.od⟩
    · by_cases hwk : w = k
      · subst hwk
        rw [hpendk]
        cases hp : (s.msix pf1).pend.getLsbD w
        · rfl
        · rw [hp, Bool.and_true] at hstays
          simp [Bool.eq_false_of_not_eq_true hstays]
      · rw [h.pend w hw, hlt w hwk]
    · by_cases hwk : w = k
      · subst hwk
        rw [h.sent w hw, Bool.and_comm (decide _), Bool.and_assoc, Bool.and_assoc]
        have hno : (s.canSend pf1 && (s.msix pf1).pend.getLsbD w && !(s.msix pf1).mask.getLsbD w) = false :=
          Bool.eq_false_of_not_eq_true hstays
        revert hno
        cases s.canSend pf1 <;> cases (s.msix pf1).pend.getLsbD w <;> cases (s.msix pf1).mask.getLsbD w <;> simp
      · rw [h.sent w hw, hlt w hwk]

theorem sentBelow_foldN (s : State) (pf1 : Bool) (k : Nat) (hk : k ≤ 64) :
    SentBelow s (foldN k (State.sendVector pf1) s) pf1 k := by
  induction k with
  | zero => exact ⟨rfl, rfl, rfl, fun w _ => by simp [foldN], fun w _ => by simp [foldN], rfl, rfl⟩
  | succ k ih =>
    rw [show foldN (k + 1) (State.sendVector pf1) s = State.sendVector pf1 (foldN k (State.sendVector pf1) s) k by
      simp [foldN, List.range_succ]]
    exact (ih (by omega)).next (by omega)

/-- A signal is one message where the function can send and the vector is unmasked, else its pending bit. -/
theorem signal_of_powered {s : State} (hon : s.powered 26 = true) (pf1 : Bool) (v : Nat) :
    s.signal pf1 v = if s.canSend pf1 && !(s.msix pf1).mask.getLsbD v then s.setMsix pf1 ((s.msix pf1).send v)
      else s.setMsix pf1 { s.msix pf1 with pend := (s.msix pf1).pend ||| BitVec.twoPow 64 v } := by
  unfold State.signal
  rw [hon]
  rfl

theorem linkUp_of_msixLive {s : State} {e : MsixEvent} (h : s.msixLive e = true) : s.linkUp = true := by
  unfold State.msixLive State.barLive at h
  split at h <;> simp_all

/-- Settles O15: the signal by its two outcomes, the unmasking by the sixty-four turns of `sendPending`. -/
theorem vectorsAreSentOrPend : Obligations.VectorsAreSentOrPend := by
  refine ⟨fun s pf1 v hv hon => ?signal, fun pf1 e s hlive => ?unmask⟩
  case signal =>
    have hsignal := signal_of_powered hon pf1 v
    have hkeep : Keep [.host] s (s.signal pf1 v) := signal_keep s pf1 v (Keep.rfl' s)
    refine ⟨fun hlink hbme henabled hmask => ?_, fun hblocked => ?_, ?_⟩
    · rw [if_pos (by simp [State.canSend, hlink, hbme, henabled, hmask])] at hsignal
      rw [hsignal, (msix_setMsix ..).1]
      refine ⟨fun w hw => pend_off _ v w hw, fun w => ?_⟩
      rw [sent_send]
      split
      next hw => rw [hw]
      next => rfl
    · rw [if_neg] at hsignal
      · rw [hsignal, (msix_setMsix ..).1]
        exact ⟨fun w hw => pend_on _ v w hw, rfl⟩
      · rcases hblocked with h | h | h | h <;> simp [State.canSend, h]
    · rw [hsignal] at hkeep ⊢
      split
      next hsend => 
        rw [if_pos hsend] at hkeep
        rw [(msix_setMsix ..).1, (msix_setMsix ..).2]
        exact ⟨rfl, rfl, rfl, rfl, hkeep⟩
      next hsend =>
        rw [if_neg hsend] at hkeep
        rw [(msix_setMsix ..).1, (msix_setMsix ..).2]
        exact ⟨rfl, rfl, rfl, rfl, hkeep⟩
  case unmask =>
    let u := s.setMsix pf1 ((s.msix pf1).apply e)
    obtain ⟨hself, hother⟩ := msix_setMsix s pf1 ((s.msix pf1).apply e)
    have hlink : u.linkUp = true := by
      have h := linkUp_of_msixLive hlive
      unfold State.linkUp at h ⊢
      rwa [rd_of_od (setMsix_od ..)]
    have hcan : u.canSend pf1 = (((s.msix pf1).apply e).bme && ((s.msix pf1).apply e).enabled) := by
      unfold State.canSend
      rw [hlink, hself, Bool.true_and]
    have h := sentBelow_foldN u pf1 64 (Nat.le_refl _)
    rw [← sendPending_eq] at h
    obtain ⟨hmask, hbme, henabled, hpend, hsent, hothers, -⟩ := h
    rw [hself] at hmask hbme henabled
    have hself' : u.msix pf1 = (s.msix pf1).apply e := hself
    simp only [hself', hcan] at hpend hsent
    refine ⟨u.sendPending pf1, congrArg Host.Outcome.next (if_neg (by simp [hlive])), hmask, hbme, henabled,
      fun w hw => ?_, fun w hw => ?_, hothers.trans hother, ?_⟩
    · rw [hpend w hw, decide_eq_true hw, Bool.true_and]
    · rw [hsent w hw, decide_eq_true hw, Bool.true_and]
      simp only [Bool.and_assoc]
    · exact sendPending_keep u pf1 (setMsix_keep s pf1 _ (Keep.rfl' s))

/-! ### Boundaries -/

/-- A boundary on which no commit is armed takes the next epoch and the state that Table TICK-2 gives it. -/
theorem boundary_made_of_unarmed {s : State} (b : Boundary) (harmed : s.tick.armed = false) :
    BoundaryMade s (s.boundary b) (s.tick.nextEpoch b false) (nextTickSt s.tick.st b false false) b.synthetic := by
  have h := boundary_made s b harmed
  unfold State.planBoundary at h
  simpa only [harmed, Bool.false_and] using h

theorem nextEpoch_of_acquire {t : Tick} {b : Boundary} {e : Nat} (hst : t.st = .acquire) (hb : b.epoch = some e) :
    t.nextEpoch b false = BitVec.ofNat 32 e := by
  unfold Tick.nextEpoch
  rw [hb]
  exact if_pos (Or.inl hst)

theorem arrival_of_inWindow {s : State} {e : Option Nat} (hst : s.tick.st = .locked ∨ s.tick.st = .flywheel)
    (hwindow : s.lowerBound ≤ s.clk.now - s.tick.last) : s.arrival e = s.boundary { arrival := true, epoch := e } := by
  unfold State.arrival
  rcases hst with hst | hst <;> rw [hst] <;> exact if_neg (Nat.not_lt.2 hwindow)

theorem arrival_of_start {s : State} {e : Option Nat} (hst : s.tick.st = .stopped) (hstart : s.tick.startPending = true) :
    s.arrival e = s.boundary { arrival := true, epoch := e, start := true } := by
  unfold State.arrival
  rw [hst]
  exact if_pos hstart

theorem arrival_of_acquire {s : State} {e : Option Nat} (hst : s.tick.st = .acquire)
    (hlate : s.period ≤ 2 * (s.clk.now - s.tick.last)) : s.arrival e = s.boundary { arrival := true, epoch := e } := by
  unfold State.arrival
  rw [hst]
  exact if_neg (Nat.not_lt.2 hlate)

/-- Settles O16: each source's command is an arrival or a point that makes a boundary of its kind. -/
theorem arrivalsAndPointsMakeBoundaries : Obligations.ArrivalsAndPointsMakeBoundaries := by
  refine ⟨fun s hsrc hscan harmed hst hwindow => ?edge, fun s hsrc hscan harmed hst hstart => ?start,
    fun p s h hsrc harmed hst hlate => ?strike, fun g s hpoint hdue hsrc harmed hst hlate => ?telegram,
    fun s hsrc harmed hst hdue => ?period, fun s hon hsrc harmed hst hdue => ?flywheel, fun s hon hsrc harmed hst hdue => ?acquire⟩
  case edge =>
    let u := s.setTick { s.tick with inEdge := none }
    have harrival : u.arrival none = u.boundary { arrival := true } := arrival_of_inWindow hst hwindow
    refine ⟨_, exec_tickInEdge_of_source hsrc hscan, ?_⟩
    rw [harrival]
    exact boundary_made_of_unarmed (s := u) { arrival := true } harmed
  case start =>
    let u := s.setTick { s.tick with inEdge := none }
    have harrival : u.arrival none = u.boundary { arrival := true, start := true } := arrival_of_start hst hstart
    refine ⟨_, exec_tickInEdge_of_source hsrc hscan, ?_⟩
    rw [harrival]
    exact boundary_made_of_unarmed (s := u) { arrival := true, start := true } harmed
  case strike =>
    refine exec_accepted rfl h fun w => ⟨_, strikeOrder_one_of_source (s := s.underWindow w) hsrc, ?_⟩
    rw [arrival_of_acquire (s := s.underWindow w) hst hlate]
    exact made_answer (s := s) (boundary_made_of_unarmed (s := s.underWindow w) { arrival := true } harmed) p false {}
  case telegram =>
    let u := s.setGq { s.gq with point := none }
    have harrival : u.arrival (some g.epoch) = u.boundary { arrival := true, epoch := some g.epoch } :=
      arrival_of_acquire hst hlate
    have hmade := boundary_made_of_unarmed (s := u) { arrival := true, epoch := some g.epoch } harmed
    have hepoch : u.tick.nextEpoch { arrival := true, epoch := some g.epoch } false = BitVec.ofNat 32 g.epoch :=
      nextEpoch_of_acquire hst rfl
    rw [hepoch] at hmade
    refine ⟨_, exec_gqTickPoint_of_due hpoint hdue hsrc, ?_⟩
    rw [harrival]
    exact hmade
  case period =>
    refine ⟨_, congrArg Host.Outcome.next (if_neg ?_), boundary_made_of_unarmed {} harmed⟩
    simp [hsrc, hst, hdue]
  case flywheel =>
    have hmade := boundary_made_of_unarmed { synthetic := true } harmed
    have hnext : nextTickSt s.tick.st { synthetic := true } false false = .flywheel := by
      rcases hst with hst | hst <;> rw [hst] <;> rfl
    rw [hnext] at hmade
    refine ⟨_, congrArg Host.Outcome.next (if_neg ?_), hmade⟩
    rcases hst with hst | hst <;> simp [hon, hsrc, hst, hdue]
  case acquire =>
    have hmade := boundary_made_of_unarmed { synthetic := true } harmed
    have hnext : nextTickSt s.tick.st { synthetic := true } false false = .acquire := by
      rw [hst]
      rfl
    rw [hnext] at hmade
    refine ⟨_, congrArg Host.Outcome.next (if_neg ?_), hmade⟩
    simp [hon, hsrc, hst, hdue]

end Sys2Proof.Machine
end

section
/-!
Scalar arithmetic, branches, stage control and the register files of a matrix core (R402, R403, R405, R425, R428
to R434, Table CORE-5).
-/

set_option Elab.async false

namespace Sys2Proof.Machine

/-! ### Scalar arithmetic -/

section Arithmetic

variable {s u : State} {n : Nat} {e : Entry} {i : Instr}

theorem gives_aluR (h : s.Issues n e u) {rd ra rb : Nat} (f : Word → Word → Word)
    (hi : exec i s = .next (s.aluR n rd ra rb f)) {v : Word} (hv : f ((u.core n).sreg ra) ((u.core n).sreg rb) = v) :
    s.Gives u n i ((u.core n).setS rd v) :=
  gives_setS h (fun c => f (c.sreg ra) (c.sreg rb)) _ hi rfl hv

theorem gives_aluI (h : s.Issues n e u) {rd ra : Nat} (f : Word → Word)
    (hi : exec i s = .next (s.aluI n rd ra f)) {v : Word} (hv : f ((u.core n).sreg ra) = v) :
    s.Gives u n i ((u.core n).setS rd v) :=
  gives_setS h (fun c => f (c.sreg ra)) _ hi rfl hv

theorem branches_on (hn : n < 32) (h : s.Issues n e u) {ra rb : Nat} {off : BitVec 32} (p : Word → Word → Bool)
    (hi : exec i s = .next (s.branch n ra rb off p)) {q : Prop}
    (hq : p ((u.core n).sreg ra) ((u.core n).sreg rb) = true ↔ q) :
    s.Branches u n e i (BitVec.ofInt 64 ((u.core n).pc + 8 * off.toInt)).toNat q :=
  branches hn h _ _ q _ hi (by rw [← rel_int]) hq

end Arithmetic

theorem add_ofNat (a b : Word) : a + b = BitVec.ofNat 64 (a.toNat + b.toNat) := by
  apply BitVec.eq_of_toNat_eq
  simp

theorem sub_ofInt (a b : Word) : a - b = BitVec.ofInt 64 (a.toInt - b.toInt) := by
  apply BitVec.eq_of_toInt_eq
  simp

theorem mul_ofNat (a b : Word) : a * b = BitVec.ofNat 64 (a.toNat * b.toNat) := by
  apply BitVec.eq_of_toNat_eq
  simp

theorem shl_ofNat (a : Word) (k : Nat) : a <<< k = BitVec.ofNat 64 (a.toNat * 2 ^ k) := by
  apply BitVec.eq_of_toNat_eq
  simp [Nat.shiftLeft_eq]

theorem shr_ofNat (a : Word) (k : Nat) : a >>> k = BitVec.ofNat 64 (a.toNat / 2 ^ k) := by
  apply BitVec.eq_of_toNat_eq
  rw [BitVec.toNat_ushiftRight, Nat.shiftRight_eq_div_pow, BitVec.toNat_ofNat,
    Nat.mod_eq_of_lt (Nat.lt_of_le_of_lt (Nat.div_le_self _ _) a.isLt)]

theorem add_immS (a : Word) (imm : BitVec 32) : a + immS imm = BitVec.ofInt 64 (a.toInt + imm.toInt) := by
  apply BitVec.eq_of_toInt_eq
  simp [immS, BitVec.toInt_signExtend_of_le]

theorem immZ_ofNat (imm : BitVec 32) : immZ imm = BitVec.ofNat 64 imm.toNat := setWidth_nat imm

theorem lui_ofNat (imm : BitVec 32) : immZ imm <<< 32 = BitVec.ofNat 64 (imm.toNat * 2 ^ 32) := by
  rw [shl_ofNat, immZ_ofNat, BitVec.toNat_ofNat, Nat.mod_eq_of_lt (by omega)]

theorem ite_slt (a b x y : Word) : (if a.slt b then x else y) = if a.toInt < b.toInt then x else y := by
  simp only [slt_int]

/-- Settles O17: each instruction is `aluR` or `aluI` of its operation, which is the arithmetic of its row. -/
theorem scalarArithmeticWritesRd : Obligations.ScalarArithmeticWritesRd := by
  refine ⟨fun n rd ra rb e s u h => ?registers, fun n rd ra imm e s u h => ?immediates⟩
  case registers =>
    exact ⟨gives_aluR h _ rfl (add_ofNat ..), gives_aluR h _ rfl (sub_ofInt ..), gives_aluR h _ rfl (mul_ofNat ..),
      gives_aluR h _ rfl rfl, gives_aluR h _ rfl rfl, gives_aluR h _ rfl rfl,
      gives_aluR h _ rfl (shl_ofNat ..), gives_aluR h _ rfl (shr_ofNat ..), gives_aluR h _ rfl (sra_int ..),
      gives_aluR h _ rfl (asWord_if _ _ (slt_int ..)), gives_aluR h _ rfl (asWord_if _ _ (ult_nat ..)),
      gives_aluR h (fun a b => if a.slt b then a else b) rfl (ite_slt ..),
      gives_aluR h (fun a b => if a.slt b then b else a) rfl (ite_slt ..)⟩
  case immediates =>
    exact ⟨gives_aluI h _ rfl (add_immS ..),
      gives_aluI h (fun a => a &&& immZ imm) rfl (congrArg _ (immZ_ofNat imm)),
      gives_aluI h (fun a => a ||| immZ imm) rfl (congrArg _ (immZ_ofNat imm)),
      gives_aluI h (fun a => a ^^^ immZ imm) rfl (congrArg _ (immZ_ofNat imm)),
      gives_aluI h _ rfl (shl_ofNat ..), gives_aluI h _ rfl (shr_ofNat ..), gives_aluI h _ rfl (sra_int ..),
      gives_aluI (ra := ra) h _ rfl (lui_ofNat imm)⟩

/-! ### Branches and jumps -/

theorem not_slt (a b : Word) : (!a.slt b) = true ↔ b.toInt ≤ a.toInt := by
  simp [BitVec.slt]

theorem not_ult (a b : Word) : (!a.ult b) = true ↔ b.toNat ≤ a.toNat := by
  simp [BitVec.ult]

/-- Settles O18: six conditions of one branch, and three jumps by their targets. -/
theorem branchesAndJumpsReachTheirTargets : Obligations.BranchesAndJumpsReachTheirTargets := by
  refine ⟨fun n ra rb off e s u h => ?relative, fun n rd ra rb e s u h => jumpsTo n.isLt h id _ 1 _ rfl rfl rfl⟩
  case relative =>
    exact ⟨branches_on n.isLt h _ rfl beq_iff_eq, branches_on n.isLt h _ rfl bne_iff_ne,
      branches_on n.isLt h _ rfl (slt_int ..), branches_on n.isLt h _ rfl (not_slt ..),
      branches_on n.isLt h _ rfl (ult_nat ..), branches_on n.isLt h _ rfl (not_ult ..),
      jumpsTo n.isLt h id _ 1 _ rfl (by rw [← rel_int]) rfl,
      jumpsTo n.isLt h (fun c => c.setS ra (BitVec.ofNat 64 ((u.core n).pc + 8))) _ 1 _ rfl (by rw [← rel_int]) rfl⟩

/-! ### Stage control -/

theorem traceMarker_core (s : State) (agent imm stage flight n : Nat) :
    (s.traceMarker agent imm stage flight).core n = s.core n := by
  unfold State.core
  rw [(traceMarker_keep (fs := [.od, .host, .trc]) s agent imm stage flight (Keep.rfl' s)).frame .cores (by decide)]

theorem outBytes_add (x : BitVec 32) (a : Word) : x + a.setWidth 32 = BitVec.ofNat 32 (x.toNat + a.toNat) := by
  apply BitVec.eq_of_toNat_eq
  simp

/-- `setShape` writes the value of its shape register, marks it where asked, and touches no other slot. -/
theorem setShape_facts (s : State) (e : Entry) (k v : Nat) (mark : Bool) :
    ((s.setShape e k v mark).item e.slot).shape e.run k = v % 2 ^ 32 ∧
    (mark = true → Sparse.get (fun _ => false) ((s.setShape e k v mark).item e.slot).shapeSealed (4 * e.run + k) = true) ∧
    (∀ j, j ≠ e.slot → (s.setShape e k v mark).item j = s.item j) := by
  unfold State.setShape
  refine ⟨?_, fun hmark => ?_, fun j hj => item_setItem_ne _ hj _⟩
  · rw [item_setItem_same]
    exact get_keyedPut ..
  · rw [item_setItem_same, if_pos hmark]
    exact get_keyedPut ..

/-- Settles O19: each row by the case its issue comes to. -/
theorem stageControlDoesWhatItsRowsSay : Obligations.StageControlDoesWhatItsRowsSay := by
  refine ⟨fun n imm e s u h => ⟨gives_next h _ rfl rfl, gives_next h _ rfl rfl, ?tmark, excepts_of (addr := 0) n.isLt h _ rfl rfl,
      fun hlegal hqueue hrunning => ?done, fun hlegal hbusy => ?busy, fun hillegal => ?illegal⟩,
    fun n op e s u h hop => ?reserved,
    fun n rd ra imm e s u h => ⟨gives_nextWith h _ _ rfl rfl ?outadd rfl, ?shget, ?shset, fun htiled => ?plan, fun huntiled => ?noplan⟩⟩
  case tmark =>
    refine ⟨_, congrArg Host.Outcome.next (issue_of h _), ?_⟩
    unfold State.next
    rw [traceMarker_core]
    exact retires_of _ (traceMarker_core ..) (fun _ _ => rfl) rfl (Keep.rfl' _)
  case done =>
    let v := u.reportEnd e (decide (imm.toNat = 1) || (u.core n).emptyMark) false (u.core n).outBytes.toNat
    refine ⟨v, _, congrArg Host.Outcome.next ((issue_of h _).trans ?_), retire_retires .., ?_, ?_⟩
    · exact (if_neg (Nat.not_le.2 hlegal)).trans (if_neg (by simp [hqueue, hrunning]))
    · exact reportEnd_keep u e _ _ _ (Keep.rfl' u)
    · rfl
  case busy =>
    exact congrArg Host.Outcome.next ((issue_of h _).trans ((if_neg (Nat.not_le.2 hlegal)).trans (if_pos hbusy)))
  case illegal => exact raises_of n.isLt h _ rfl (if_pos hillegal)
  case reserved => exact raises_of n.isLt h _ (congrArg Host.Outcome.next (if_pos hop)) rfl
  case outadd => rw [outBytes_add]
  case shget =>
    refine ⟨_, _, congrArg Host.Outcome.next (issue_of h _), rfl, ?_⟩
    exact nextWith_retires _ n _ (setS_pc ..)
  case shset =>
    obtain ⟨hshape, hsealed, hothers⟩ := setShape_facts u e (imm.toNat % 4) ((u.core n).sreg ra).toNat (u.core n).sealed
    exact ⟨_, _, congrArg Host.Outcome.next (issue_of h _),
      retires_of _ rfl (fun _ _ => rfl) rfl (Keep.rfl' _), setShape_keep u e _ _ _ (Keep.rfl' u), hshape, hsealed, hothers⟩
  case plan => exact gives_setS h (fun c => BitVec.ofNat 64 (c.plan.getD (imm.toNat % 8) 0)) _ rfl (if_pos htiled) rfl
  case noplan => exact raises_of n.isLt h _ rfl (if_neg (by simp [huntiled]))

/-! ### Register files -/

theorem setLanes_sreg (c : Core) (vd pred i : Nat) (f : Nat → Lane) : (c.setLanes vd pred f).sreg i = c.sreg i := by
  refine foldN_inv (fun x : Core => x.sreg i = c.sreg i) _ (fun x l hx => ?_) 64 rfl
  split
  · exact hx
  · exact hx

theorem setLanes_preg (c : Core) (vd pred i : Nat) (f : Nat → Lane) : (c.setLanes vd pred f).preg i = c.preg i := by
  refine foldN_inv (fun x : Core => x.preg i = c.preg i) _ (fun x l hx => ?_) 64 rfl
  split
  · exact hx
  · exact hx

theorem setS_lane (c : Core) (i : Nat) (v : Word) (w l : Nat) : (c.setS i v).lane w l = c.lane w l := by
  unfold Core.setS
  split <;> rfl

theorem setS_preg (c : Core) (i : Nat) (v : Word) (w : Nat) : (c.setS i v).preg w = c.preg w := by
  unfold Core.setS
  split <;> rfl

theorem retiredAt_plain (c : Core) (pc : Nat) (hregw : c.regw = []) (hstep : c.stepping = false) :
    c.retiredAt pc = { c with pc := pc } := by
  obtain ⟨⟩ := c
  cases hregw
  cases hstep
  rfl

/-- Settles O22: a read after each write of the four register files. -/
theorem coreRegistersHoldWhatIsWritten : Obligations.CoreRegistersHoldWhatIsWritten :=
  ⟨setS_sreg, setP_preg, setLanes_lane, setAcc_accAt, fun c i v w l => ⟨setS_lane c i v w l, setS_preg c i v w⟩,
    fun c vd pred i f => ⟨setLanes_sreg c vd pred i f, setLanes_preg c vd pred i f⟩, retiredAt_plain⟩

end Sys2Proof.Machine
end

section
/-!
Device memory, and the scalar loads and stores of a stage (R80, R404, R411, R412, R451, R452, R462, R480, R744).
-/

set_option Elab.async false

namespace Sys2Proof.Machine

/-! ### What a record in the fault log leaves of the places of memory -/

section Places

variable {s z : State}

theorem extents_congr (h : ∀ k, 0x200000 ≤ k → z.rd k = s.rd k) (hldr : z.ldr = s.ldr) (i : Nat) :
    z.extents i = s.extents i := by
  unfold State.extents
  rw [hldr, h (OD.IMG_STATE i) (by unfold OD.IMG_STATE; omega), h (OD.IMG_GALLERY_BASE i) (by unfold OD.IMG_GALLERY_BASE; omega),
    h (OD.IMG_GALLERY_SIZE i) (by unfold OD.IMG_GALLERY_SIZE; omega), h (OD.IMG_ALCOVE_BASE i) (by unfold OD.IMG_ALCOVE_BASE; omega),
    h (OD.IMG_ALCOVE_SIZE i) (by unfold OD.IMG_ALCOVE_SIZE; omega), h (OD.IMG_CORES i) (by unfold OD.IMG_CORES; omega)]

theorem galleryAllows_congr (h : ∀ k, 0x200000 ≤ k → z.rd k = s.rd k) (hldr : z.ldr = s.ldr) (t a : Nat) (wr : Bool) :
    z.galleryAllows t a wr = s.galleryAllows t a wr := by
  have hstate (i : Nat) : z.rd (OD.IMG_STATE i) = s.rd (OD.IMG_STATE i) := h _ (by unfold OD.IMG_STATE; omega)
  have htenants (i : Nat) : z.rd (OD.IMG_TENANTS i) = s.rd (OD.IMG_TENANTS i) := h _ (by unfold OD.IMG_TENANTS; omega)
  unfold State.galleryAllows State.inGalleryExtent
  simp only [extents_congr h hldr, hstate, htenants]
  rw [h (OD.TEN_GAL_BASE t) (by unfold OD.TEN_GAL_BASE; omega), h (OD.TEN_GAL_SIZE t) (by unfold OD.TEN_GAL_SIZE; omega)]

theorem extentBars_congr (h : ∀ k, 0x200000 ≤ k → z.rd k = s.rd k) (hldr : z.ldr = s.ldr) (q : Acc) (wr : Bool) (a : Nat) :
    z.extentBars q wr a = s.extentBars q wr a := by
  unfold State.extentBars State.inAlcoveExtent
  simp only [extents_congr h hldr]

theorem windowPlace_ne_mem (s : State) (q : Acc) (wr : Bool) (a : Nat) : s.windowPlace q wr a ≠ .mem := by
  unfold State.windowPlace
  dsimp only
  repeat' split
  all_goals exact Place.noConfusion

/-- Which bytes are memory hangs on the objects of the memories and of the images alone. -/
theorem place_mem_congr (h : ∀ k, 0x200000 ≤ k → z.rd k = s.rd k) (hldr : z.ldr = s.ldr) (q : Acc) (wr : Bool) (a : Nat) :
    z.place q wr a = .mem ↔ s.place q wr a = .mem := by
  have hpowered (d : Nat) : z.powered d = s.powered d := powered_of (h _ (by decide)) d
  have hready (p : Nat) : z.flag (OD.PAIR_READY p) = s.flag (OD.PAIR_READY p) := by
    unfold State.flag
    rw [h _ (by unfold OD.PAIR_READY; omega)]
  have hlat : z.rd OD.LATCHED = s.rd OD.LATCHED := h _ (by decide)
  have hchannel (o : Nat) : z.dramChannel o = s.dramChannel o := by
    unfold State.dramChannel State.latGrain State.latSplit State.latHash
    rw [hlat]
  have hhole (o : Nat) : z.dramHole o = s.dramHole o := by
    unfold State.dramHole State.latEcc State.latSplit
    rw [hlat]
  have hstate (i : Nat) : z.rd (OD.CH_STATE i) = s.rd (OD.CH_STATE i) := h _ (by unfold OD.CH_STATE; omega)
  have hwindow : z.windowPlace q wr a = .mem ↔ s.windowPlace q wr a = .mem :=
    iff_of_false (windowPlace_ne_mem z q wr a) (windowPlace_ne_mem s q wr a)
  unfold State.place
  simp only [hpowered, hready, galleryAllows_congr h hldr, extentBars_congr h hldr, hchannel, hhole, hstate]
  split_ifs <;> first | exact hwindow | exact Iff.rfl

end Places

theorem partialBad_none_iff (s : State) (q : Acc) (cov : Nat → Bool) (xs : List Nat) :
    s.partialBad q cov xs = none ↔ ∀ x ∈ xs, s.partialAt q cov x = false := by
  unfold State.partialBad
  split
  next hany =>
    obtain ⟨x, hx, hbad⟩ := List.any_eq_true.1 hany
    refine iff_of_false (fun hnone => ?_) (fun hgood => ?_)
    · exact List.find?_eq_none.1 hnone x hx (by unfold State.failsAt; rw [hbad]; rfl)
    · rw [hgood x hx] at hbad
      cases hbad
  next hany => exact iff_of_true rfl (fun x hx => Bool.eq_false_of_not_eq_true fun hbad => hany (List.any_eq_true.2 ⟨x, hx, hbad⟩))

theorem partialBad_none_congr {s z : State} (h : ∀ k, 0x200000 ≤ k → z.rd k = s.rd k) (hldr : z.ldr = s.ldr) (hmem : z.mem = s.mem)
    {q : Acc} {cov : Nat → Bool} {xs : List Nat} (hs : s.partialBad q cov xs = none) : z.partialBad q cov xs = none := by
  rw [partialBad_none_iff] at hs ⊢
  intro x hx
  have hmark : z.mark x = s.mark x := by
    unfold State.mark
    rw [hmem]
  rw [← hs x hx]
  unfold State.partialAt
  rw [hmark, decide_eq_decide.2 (place_mem_congr h hldr q true x)]

theorem corrected_rd (s : State) (agent dom obj addr inst : Nat) {k : Nat} (hk : 0x200000 ≤ k) :
    (s.record FaultClass.corrected agent dom obj addr inst).rd k = s.rd k :=
  record_rd s _ _ _ _ _ _ (by unfold OD.FAULTS_LOST; omega) (by unfold OD.CLASS_COUNTS FaultClass.corrected; omega)

/-! ### Writes of memory -/

theorem writeDone_mem {s : State} {q : Acc} {a : Nat} {bs : List Byte} (hmem : s.isMem q true a bs.length)
    (hwhole : s.partialBad q (inSpan a bs.length) (rangeFrom a bs.length) = none) :
    ∃ t, s.writeDone q a bs = ({}, t) ∧ s.Stored t a bs := by
  obtain ⟨t, hwrite, hstored⟩ := writeFrom_mem q bs s a {} hmem
  obtain ⟨b, hb, -⟩ := noteIf_bal t q {} [(a, bs.length)]
  refine ⟨{ t with bal := b }, ?_, stored_bal s.bal b hstored⟩
  unfold State.writeDone
  simp only [hwhole, hwrite]
  rw [countWin_none _ _ _ rfl, hb]

/-- Settles O20: the access laws on sound bytes, and the two errors of the transfer itself. -/
theorem memoryReadsBackWhatWasWritten : Obligations.MemoryReadsBackWhatWasWritten := by
  refine ⟨fun q a len s hmem hclean => ?read, fun q a bs s => memWrite_mem q s a bs, fun q a bs x s hsmooth hbad => ?part,
    fun q a len bs r s hcross => ⟨fun hfirst => ?uncorrectable, fun hfirst hmem hwrite => ?corrected⟩⟩
  case read =>
    obtain ⟨b, hread, -⟩ := memRead_clean q s a len hmem hclean
    exact ⟨b, hread⟩
  case part =>
    obtain ⟨r, htransfer, -⟩ := transfer_smooth s q a hsmooth
    refine ⟨{ s.bal with transfers := r }, ?_⟩
    have hbad' : State.partialBad { s with bal := { s.bal with transfers := r } } q (inSpan a bs.length) (rangeFrom a bs.length)
      = some x := hbad
    unfold State.memWrite State.writeDone
    simp only [htransfer, hbad']
  case uncorrectable =>
    have htransfer : s.transfer q a = (true, { s with bal := { s.bal with transfers := r } }) := by
      unfold State.transfer
      rw [hfirst, hcross]
    unfold State.memRead State.memWrite
    simp only [htransfer, and_self]
  case corrected =>
    let u : State := { s with bal := { s.bal with transfers := r } }
    let v := u.record FaultClass.corrected q.agent 1 0 a 0
    have htransfer : s.transfer q a = (false, v) := by
      unfold State.transfer
      rw [hfirst, hcross]
    have hkeep : Keep [.od, .host, .falt] u v := record_keep u _ _ _ _ _ _ (Keep.rfl' u)
    have hrd (k : Nat) (hk : 0x200000 ≤ k) : v.rd k = u.rd k := corrected_rd u _ _ _ _ _ hk
    have hldr : v.ldr = u.ldr := hkeep.frame .ldr (by decide)
    obtain ⟨t, hdone, hstored⟩ := writeDone_mem (s := v) (bs := bs)
      (fun i hi => (place_mem_congr hrd hldr q true (a + i)).2 (hmem i hi))
      (partialBad_none_congr hrd hldr (hkeep.frame .mem (by decide)) hwrite.1)
    refine ⟨t, ?_, hstored⟩
    unfold State.memWrite
    rw [htransfer]
    exact hdone

/-! ### Loads and stores -/

section Rows

variable {s u v : State} {n : Fin 32} {e : Entry} {i : Instr} {ra : Fin 32} {imm : BitVec 32} {len rd : Nat} {signed : Bool}

theorem load_misaligned (h : s.Issues n e u) (hoff : (u.core n).effective ra imm % len ≠ 0)
    (hi : exec i s = .next (s.load n rd ra len imm signed)) : s.Raises u n e i Exc.misaligned ((u.core n).effective ra imm) := by
  rw [← ea_int] at hoff ⊢
  exact raises_of n.isLt h _ hi (if_pos hoff)

theorem load_of_bytes {bs : List Byte} (h : s.Issues n e u) (halign : (u.core n).effective ra imm % len = 0)
    (hwindow : inLandWindow ((u.core n).effective ra imm) = false)
    (hload : u.stageLoad n e ((u.core n).effective ra imm) len = (some bs, v)) :
    s.load n rd ra len imm signed = v.nextWith n (fun c => c.setS rd (loadedWord signed bs)) := by
  refine (issue_of h _).trans ?_
  simp only [ea_int, halign, hwindow, hload, ne_eq, not_true_eq_false, Bool.false_eq_true, if_false]

theorem load_of_fault (h : s.Issues n e u) (halign : (u.core n).effective ra imm % len = 0)
    (hwindow : inLandWindow ((u.core n).effective ra imm) = false)
    (hload : u.stageLoad n e ((u.core n).effective ra imm) len = (none, v)) : s.load n rd ra len imm signed = v := by
  refine (issue_of h _).trans ?_
  simp only [ea_int, halign, hwindow, hload, ne_eq, not_true_eq_false, Bool.false_eq_true, if_false]

theorem store_misaligned (h : s.Issues n e u) (hoff : (u.core n).effective ra imm % len ≠ 0)
    (hi : exec i s = .next (s.store n rd ra len imm)) : s.Raises u n e i Exc.misaligned ((u.core n).effective ra imm) := by
  rw [← ea_int] at hoff ⊢
  exact raises_of n.isLt h _ hi (if_pos hoff)

theorem store_of_write {ok : Bool} (h : s.Issues n e u) (halign : (u.core n).effective ra imm % len = 0)
    (hwindow : inLandWindow ((u.core n).effective ra imm) = false)
    (hwrite : u.stageWrite n e ((u.core n).effective ra imm) (leBytes len ((u.core n).sreg rd).toNat) = (ok, v)) :
    s.store n rd ra len imm = if ok then v.next n else v := by
  refine (issue_of h _).trans ?_
  simp only [ea_int, halign, hwindow, hwrite, ne_eq, not_true_eq_false, Bool.false_eq_true, if_false]
  cases ok <;> rfl

theorem stageWrite_protected {a x : Nat} {bs : List Byte} (hx : firstByte (fun x => u.protects n x) a bs.length = some x) :
    u.stageWrite n e a bs = (false, u.coreExc n e Exc.protect x) := by
  rw [← firstInParts_one] at hx
  unfold State.stageWrite State.stageWriteParts
  simp only [hx]

end Rows

/-- Settles O21: the branches of `load` and of `store`, and the access laws on sound bytes. -/
theorem loadsAndStoresMoveTheirBytes : Obligations.LoadsAndStoresMoveTheirBytes := by
  refine ⟨fun n rd ra size imm e s u h => ⟨fun hoff => ?misaligned, fun bs v halign hwindow hload => ?loaded,
    fun v halign hwindow hload => ?failed, fun hmem hclean hseal => ?clean⟩, fun n rs ra size imm e s u h => ?stores⟩
  case misaligned =>
    exact ⟨load_misaligned h hoff rfl, load_misaligned h hoff rfl, store_misaligned h hoff rfl⟩
  case loaded =>
    exact ⟨⟨_, congrArg Host.Outcome.next (load_of_bytes h halign hwindow hload), nextWith_retires v n _ (setS_pc ..)⟩,
      ⟨_, congrArg Host.Outcome.next (load_of_bytes h halign hwindow hload), nextWith_retires v n _ (setS_pc ..)⟩⟩
  case failed =>
    exact ⟨congrArg Host.Outcome.next (load_of_fault h halign hwindow hload),
      congrArg Host.Outcome.next (load_of_fault h halign hwindow hload)⟩
  case clean =>
    obtain ⟨b, hb, -⟩ := stageLoad_clean u n e _ _ hmem hclean hseal
    exact ⟨b, hb⟩
  case stores =>
    intro a len bs halign hwindow
    have hlen : bs.length = len := leBytes_length ..
    refine ⟨fun v hwrite => ?written, fun v hwrite => ?refused, fun hfree hmem hwrite hseal => ?sound, fun x hx => ?barred⟩
    case written => exact ⟨_, congrArg Host.Outcome.next (store_of_write h halign hwindow hwrite), retire_self ..⟩
    case refused => exact congrArg Host.Outcome.next (store_of_write h halign hwindow hwrite)
    case sound =>
      obtain ⟨v, hv, hstored⟩ := stageWrite_mem u n e a bs (by rwa [hlen]) (by rwa [hlen]) (by rwa [hlen]) (by rwa [hlen])
      refine ⟨_, v, hv, hstored, congrArg Host.Outcome.next (store_of_write h halign hwindow hv), ?_⟩
      rw [← stored_core hstored n]
      exact retire_self ..
    case barred =>
      have hprotected : u.stageWrite n e a bs = (false, u.coreExc n e Exc.protect x) :=
        stageWrite_protected (by rwa [hlen])
      exact ⟨_, congrArg Host.Outcome.next (store_of_write h halign hwindow hprotected),
        exception_excepts u n n.isLt e false Exc.protect (u.core n).pc 0 x⟩

end Sys2Proof.Machine
end

section
/-!
Lane arithmetic, vector loads and stores, and moves of the accumulator (R390, R402, R403, R405, R409 to R413, R427).
-/

set_option Elab.async false

namespace Sys2Proof.Machine

/-! ### Lane arithmetic -/

section Lanes

variable {s u : State} {n : Fin 32} {vd va vb pred ty : Nat} {e : Entry} {i : Instr}

theorem arith_int (op : LaneOp) (h : s.Issues n e u) (hi : exec i s = .next (s.vecArith n vd va vb pred ty op)) (hty : ty = 0)
    {g : Nat → Lane}
    (hg : ∀ l, laneI32 op ((u.core n).lane vd l) ((u.core n).lane va l) ((u.core n).lane vb l) = g l) :
    s.Lanes u n i vd pred (fun _ l => g l) :=
  lanes_of h _ hi (by simp [hty]) (fun free l => by rw [if_pos hty, hg])

theorem arith_fp (op : LaneOp) (h : s.Issues n e u) (hi : exec i s = .next (s.vecArith n vd va vb pred ty op)) (hty : ty = 1) :
    s.Lanes u n i vd pred (fun free l =>
      laneF32 op (free l) ((u.core n).lane vd l) ((u.core n).lane va l) ((u.core n).lane vb l)) :=
  lanes_of h _ hi (by simp [hty]) (fun free l => by rw [if_neg (by simp [hty])])

theorem arith_illegal (op : LaneOp) (h : s.Issues n e u) (hi : exec i s = .next (s.vecArith n vd va vb pred ty op)) (hty : 2 ≤ ty) :
    s.Raises u n e i Exc.illegal 0 :=
  illegal_of h _ hi (by simp; omega)

end Lanes

theorem lane_add (a b : Lane) : a + b = BitVec.ofInt 32 (a.toInt + b.toInt) := i32_ofInt _ _ (by simp)

theorem lane_sub (a b : Lane) : a - b = BitVec.ofInt 32 (a.toInt - b.toInt) := i32_ofInt _ _ (by simp)

theorem lane_mul (a b : Lane) : a * b = BitVec.ofInt 32 (a.toInt * b.toInt) := i32_ofInt _ _ (by simp)

theorem lane_fma (d a b : Lane) : d + a * b = BitVec.ofInt 32 (d.toInt + a.toInt * b.toInt) := i32_ofInt _ _ (by simp)

theorem ite_slt_lane (a b x y : Lane) : (if a.slt b then x else y) = if a.toInt < b.toInt then x else y := by
  simp [BitVec.slt]

theorem word_setWidth_lane (a : Word) : a.setWidth 32 = BitVec.ofNat 32 a.toNat := by
  apply BitVec.eq_of_toNat_eq
  simp

theorem lane_signExtend (x : Lane) : x.signExtend 64 = BitVec.ofInt 64 x.toInt := by
  have hlow := x.le_toInt
  have hhigh := x.toInt_lt
  apply BitVec.eq_of_toInt_eq
  rw [BitVec.toInt_signExtend_of_le (by decide), BitVec.toInt_ofInt]
  exact (Int.bmod_eq_of_le (by omega) (by omega)).symm

/-- Settles O23: `vecOp` for each operation, and the four rows that choose their own lanes. -/
theorem vectorInstructionsWriteTheirLanes : Obligations.VectorInstructionsWriteTheirLanes := by
  refine ⟨fun n vd va vb pred ty func imm e s u h => ⟨fun hint => ?int, fun hfp => ?fp, fun hty => ?arith, fun hty => ?sra,
      lanes_of h _ rfl rfl (fun _ _ => rfl), lanes_of h _ rfl rfl (fun _ _ => rfl), lanes_of h _ rfl rfl (fun _ _ => rfl),
      gives_nextWith h _ _ rfl rfl rfl (setLanes_pc ..),
      fun hty hfunc => ?cvt, fun hbad => ?cvtBad, fun hty hfunc => ?act, fun hbad => ?actBad,
      fun hty hfunc => ?cmp, fun hbad => ?cmpBad, fun hty hfunc => ?red, fun hbad => ?redBad⟩,
    fun n vd ra dtype pred imm e s u h => ⟨?bcast, ?ext⟩⟩
  case int =>
    exact ⟨arith_int .add h rfl hint (fun _ => lane_add ..), arith_int .sub h rfl hint (fun _ => lane_sub ..),
      arith_int .mul h rfl hint (fun _ => lane_mul ..), arith_int .fma h rfl hint (fun _ => lane_fma ..),
      arith_int .min h rfl hint (fun _ => ite_slt_lane ..), arith_int .max h rfl hint (fun _ => ite_slt_lane ..),
      lanes_of h _ rfl (by simp [hint]) (fun _ _ => rfl)⟩
  case fp =>
    exact ⟨arith_fp .add h rfl hfp, arith_fp .sub h rfl hfp, arith_fp .mul h rfl hfp, arith_fp .fma h rfl hfp,
      arith_fp .min h rfl hfp, arith_fp .max h rfl hfp⟩
  case arith =>
    exact ⟨arith_illegal .add h rfl hty, arith_illegal .sub h rfl hty, arith_illegal .mul h rfl hty,
      arith_illegal .fma h rfl hty, arith_illegal .min h rfl hty, arith_illegal .max h rfl hty⟩
  case sra => exact illegal_of h _ rfl (by simp [hty])
  case cvt => exact lanes_of h _ rfl (by simp [hty, hfunc]) (fun _ _ => rfl)
  case cvtBad => exact illegal_of h _ rfl (by simp; omega)
  case act => exact lanes_of h _ rfl (by simp [hty, hfunc]) (fun _ _ => rfl)
  case actBad => exact illegal_of h _ rfl (by simp; omega)
  case cmp =>
    exact ⟨_, gives_nextWith h _ _ rfl (if_neg (by omega)) rfl (setP_pc ..), fun l hl => laneMask_bits _ l hl⟩
  case cmpBad => exact raises_of n.isLt h _ rfl (if_pos hbad)
  case red =>
    refine ⟨_, congrArg Host.Outcome.next ((issue_of h _).trans (if_neg (by omega))), ?_⟩
    exact nextWith_retires { u with free := u.free + 1 } n _ (setLanes_pc ..)
  case redBad => exact raises_of n.isLt h _ rfl (if_pos hbad)
  case bcast => exact gives_nextWith h _ _ rfl rfl (by rw [word_setWidth_lane]) (setLanes_pc ..)
  case ext => exact gives_setS h (fun c => (c.lane ra (imm.toNat % 64)).signExtend 64) _ rfl rfl (lane_signExtend _)

/-! ### Vector loads and stores, and the accumulator -/

theorem mem_clear {α : Type} {p : Nat → Bool} {m : Sparse α} {x : Nat × α} :
    x ∈ Sparse.clear p m ↔ x ∈ m ∧ p x.1 = false := by
  unfold Sparse.clear
  simp

/-- The accumulator entries of `row` under the mask `w`, which `ACCRD` reads and `ACCWR` writes. -/
def accSelected (row : Nat) (w : Word) (k : Nat) : Bool := decide (k / 64 = row) && w.getLsbD (k % 64)

/-- The rows of the accumulator once `ACCWR` has written the selected columns below `m`. -/
def Core.accWritten (c : Core) (row pred vd m : Nat) : Core :=
  foldN m (fun x l => if (c.preg pred).getLsbD l then x.setAcc row l (c.lane vd l) else x) c

/-- What is left marked after `m` columns was marked before, in another row or a column that is not selected or not below `m`. -/
theorem accWritten_marks (c : Core) (row pred vd m : Nat) (hm : m ≤ 64) : ∀ x ∈ (c.accWritten row pred vd m).accMarks,
    x ∈ c.accMarks ∧ ¬(x.1 / 64 = row ∧ x.1 % 64 < m ∧ (c.preg pred).getLsbD (x.1 % 64) = true) := by
  induction m with
  | zero => exact fun x hx => ⟨hx, by omega⟩
  | succ m ih =>
    intro x hx
    unfold Core.accWritten at hx
    rw [foldN_succ] at hx
    split at hx
    next hsel =>
      obtain ⟨hx, hne⟩ := (mem_clear (p := fun k => decide (k = 64 * row + m))).1 hx
      obtain ⟨hmark, hclear⟩ := ih (by omega) x hx
      refine ⟨hmark, fun ⟨hrow, hcol, hbit⟩ => hclear ⟨hrow, ?_, hbit⟩⟩
      have hkey := of_decide_eq_false hne
      omega
    next hsel =>
      obtain ⟨hmark, hclear⟩ := ih (by omega) x hx
      refine ⟨hmark, fun ⟨hrow, hcol, hbit⟩ => hclear ⟨hrow, ?_, hbit⟩⟩
      have hne : x.1 % 64 ≠ m := fun heq => hsel (heq ▸ hbit)
      omega

section AccumulatorRows

variable {s u : State} {n : Fin 32} {vd ra : Fin 32} {dtype pred : Fin 8} {imm : BitVec 32} {e : Entry}

theorem accrd_read (h : s.Issues n e u) (hfree : (u.core n).tileBusy (((u.core n).sreg ra).toNat % 256 / 64) = false)
    {v : State}
    (hread : u.accRead n (accSelected (((u.core n).sreg ra).toNat % 256) ((u.core n).preg pred)) = (false, v)) :
    exec (.accrd n vd ra dtype pred imm) s =
      .next (v.nextWith n (fun c => c.setLanes vd pred (fun l => c.accAt (((u.core n).sreg ra).toNat % 256) l))) := by
  refine congrArg Host.Outcome.next ((issue_of h _).trans ?_)
  unfold accSelected at hread
  simp only [hfree, hread, Bool.false_eq_true, if_false]

theorem accrd_uncorrectable (h : s.Issues n e u)
    (hfree : (u.core n).tileBusy (((u.core n).sreg ra).toNat % 256 / 64) = false) {v : State}
    (hread : u.accRead n (accSelected (((u.core n).sreg ra).toNat % 256) ((u.core n).preg pred)) = (true, v)) :
    exec (.accrd n vd ra dtype pred imm) s = .next (v.exception n e true ArrayExc.accUncorrectable (v.core n).pc 0 0) := by
  refine congrArg Host.Outcome.next ((issue_of h _).trans ?_)
  unfold accSelected at hread
  simp only [hfree, hread, Bool.false_eq_true, if_false]
  rfl

end AccumulatorRows

/-- Settles O24: the branches of the two accesses, and the two moves once their tile is free. -/
theorem vectorMemoryAndAccumulatorMove : Obligations.VectorMemoryAndAccumulatorMove := by
  refine ⟨fun n vd ra dtype pred imm e s u h => ?moves, fun n rc ra rb dtype acc accum rsrc rows e s u h => ⟨fun hbusy => ?flagsWait, fun hfree => ?flags⟩⟩
  case moves =>
    have hea := ea_int (u.core n) ra imm
    intro c a size row sel
    refine ⟨fun hoff => ?vldOff, fun bs v halign hload => ?vld, fun v halign hload => ?vldFault, fun hempty => ?vstEmpty,
      fun hsome hoff => ?vstOff, fun v hsome halign hwrite => ?vst, fun v hsome halign hwrite => ?vstFault,
      fun hbusy => ?wait, fun hfree => ⟨fun hsound => ?accrd, fun v hread => ?accrdSound, fun v hread => ?accrdBad, ?accwr⟩⟩
    case vldOff => exact raises_of n.isLt h _ rfl (by rw [hea]; exact if_pos hoff)
    case vld =>
      refine ⟨_, congrArg Host.Outcome.next (issue_of h _), ?_⟩
      dsimp only [a, size, c] at halign hload
      simp only [hea, halign, hload, ne_eq, not_true_eq_false, if_false]
      exact nextWith_retires { v with free := v.free + 1 } n _ (setLanes_pc ..)
    case vldFault =>
      refine congrArg Host.Outcome.next ((issue_of h _).trans ?_)
      dsimp only [a, size, c] at halign hload
      simp only [hea, halign, hload, ne_eq, not_true_eq_false, if_false]
    case vstEmpty => exact gives_next h _ rfl (if_pos hempty)
    case vstOff => exact raises_of n.isLt h _ rfl ((if_neg hsome).trans (by rw [hea]; exact if_pos hoff))
    case vst =>
      refine ⟨v.next n, congrArg Host.Outcome.next ((issue_of h _).trans ?_), retire_self ..⟩
      dsimp only [a, size, c] at hsome halign hwrite
      simp only [hea, hsome, halign, hwrite, ne_eq, not_true_eq_false, if_false]
    case vstFault =>
      refine congrArg Host.Outcome.next ((issue_of h _).trans ?_)
      dsimp only [a, size, c] at hsome halign hwrite
      simp only [hea, hsome, halign, hwrite, ne_eq, not_true_eq_false, if_false]
    case wait =>
      exact ⟨congrArg Host.Outcome.next ((issue_of h _).trans (if_pos hbusy)),
        congrArg Host.Outcome.next ((issue_of h _).trans (if_pos hbusy))⟩
    case accrd =>
      have hread := accRead_sound u n (accSelected row (c.preg pred)) (fun x hx => Bool.eq_false_of_not_eq_true (hsound x hx))
      refine ⟨_, accrd_read h hfree hread, ?_⟩
      unfold State.nextWith State.next
      simp only [core_setCore_same, setLanes_pc]
      exact retires_of _ (core_setCore_same ..) (fun m hm => by rw [core_setCore_ne _ hm, core_setCore_ne _ hm]) rfl
        (setCore_keep _ _ _ (setCore_keep _ _ _ (Keep.rfl' u)))
    case accrdSound => exact ⟨_, accrd_read h hfree hread, nextWith_retires v n _ (setLanes_pc ..)⟩
    case accrdBad => exact ⟨_, accrd_uncorrectable h hfree hread, exception_excepts v n n.isLt e true ArrayExc.accUncorrectable _ 0 0⟩
    case accwr =>
      refine ⟨c.accWritten row pred vd 64, gives_nextWith h _ _ rfl (if_neg (ne_true_of_eq_false hfree)) (accwr_core c row pred vd) rfl,
        fun q l hl => accwr_acc c row pred vd q l hl, fun x hx => ?_⟩
      obtain ⟨hmark, hclear⟩ := accWritten_marks c row pred vd 64 (Nat.le_refl _) x hx
      refine ⟨hmark, fun hsel => hclear ?_⟩
      obtain ⟨hrow, hbit⟩ := (Bool.and_eq_true ..).mp hsel
      exact ⟨of_decide_eq_true hrow, Nat.mod_lt _ (by decide), hbit⟩
  case flagsWait => exact congrArg Host.Outcome.next ((issue_of h _).trans (if_pos hbusy))
  case flags =>
    exact gives_nextWith h (fun c => (c.setS rc (BitVec.ofNat 64 (c.tileFlags acc))).setTileFlags acc 0) _ rfl
      (if_neg (by simp [hfree])) rfl (setS_pc ..)

end Sys2Proof.Machine
end

section
/-!
The matrix array (R351 to R361, R366, R367, R389, R390, R406 to R408, R433, R955, Table ARRY-4).
-/

set_option Elab.async false

namespace Sys2Proof.Machine

section Instructions

variable {s u v : State} {n : Fin 32} {ra rb : Fin 32} {dtype : Nat} {tr : Bool} {e : Entry} {i : Instr}

/-! ### Weight loads -/

theorem weightLoad_illegal (h : s.Issues n e u) (hi : exec i s = .next (s.weightLoad n ra rb dtype tr))
    (htype : dtype = 1 ∨ 6 ≤ dtype) : s.Raises u n e i Exc.illegal 0 :=
  raises_of n.isLt h _ hi (if_pos htype)

theorem weightLoad_misaligned (h : s.Issues n e u) (hi : exec i s = .next (s.weightLoad n ra rb dtype tr))
    (htype : ¬(dtype = 1 ∨ 6 ≤ dtype))
    (hoff : ((u.core n).sreg ra).toNat % 32 ≠ 0 ∨ ((u.core n).sreg rb).toNat % 32 ≠ 0) :
    s.Raises u n e i Exc.misaligned ((u.core n).sreg ra).toNat :=
  raises_of n.isLt h _ hi ((if_neg htype).trans (if_pos hoff))

/-- A weight load of a sound type and aligned rows fills the shadow tile with the codes of the rows it read. -/
theorem weightLoad_fills (h : s.Issues n e u) (hi : exec i s = .next (s.weightLoad n ra rb dtype tr))
    (htype : ¬(dtype = 1 ∨ 6 ≤ dtype))
    (halign : ¬(((u.core n).sreg ra).toNat % 32 ≠ 0 ∨ ((u.core n).sreg rb).toNat % 32 ≠ 0))
    (hint4 : ¬(tr = true ∧ dtype = 2)) {rows : List (List Nat)}
    (hrows : u.Rows n e dtype (if tr then u.depth n else 64) ((u.core n).sreg rb).toNat (if tr then 64 else u.depth n)
      ((u.core n).sreg ra).toNat rows v) :
    ∃ t, exec i s = .next t ∧ v.Retires t n ((v.core n).pc + 8)
      { v.core n with shadow := some ⟨dtype, u.depth n, tileCodes rows tr (u.depth n)⟩ } := by
  refine ⟨v.nextWith n (fun c => { c with shadow := some ⟨dtype, u.depth n, tileCodes rows tr (u.depth n)⟩ }), ?_,
    nextWith_retires v n _ rfl⟩
  refine hi.trans (congrArg Host.Outcome.next ((issue_of h _).trans ?_))
  refine (if_neg htype).trans ((if_neg halign).trans ((if_neg hint4).trans ?_))
  unfold State.Rows at hrows
  cases tr
  · simp only [Bool.false_eq_true, if_false] at hrows ⊢
    rw [hrows]
  · simp only [if_true] at hrows ⊢
    rw [hrows]

end Instructions

/-! ### The completion of an MMA -/

theorem setTileFlags_pc (c : Core) (t f : Nat) : (c.setTileFlags t f).pc = c.pc := rfl

theorem mmaCells_pc (c : Core) (seed row m : Nat) (x : Mma) (xs : List Nat) (k : Nat) :
    (foldN k (Core.mmaCell seed row m x xs) (c, 0)).1.pc = c.pc := by
  refine foldN_inv (fun p : Core × Nat => p.1.pc = c.pc) _ (fun p l hp => ?_) k rfl
  exact hp

/-- A row's result, its cells taken as one pair. -/
theorem mmaRow_fst (c : Core) (seed m : Nat) (x : Mma) (xs : List Nat) :
    ∃ (t : Nat) (f : Nat), (c.mmaRow seed x m xs).1 =
      (foldN 64 (Core.mmaCell seed ((64 * x.acc + m) % 256) m x xs) (c, 0)).1.setTileFlags t f :=
  ⟨_, _, rfl⟩

theorem mmaRow_pc (c : Core) (seed m : Nat) (x : Mma) (xs : List Nat) : (c.mmaRow seed x m xs).1.pc = c.pc := by
  obtain ⟨t, f, hrow⟩ := mmaRow_fst c seed m x xs
  rw [hrow, setTileFlags_pc, mmaCells_pc]

theorem mmaRows_pc (c : Core) (seed : Nat) (x : Mma) : (c.mmaRows seed x).1.pc = c.pc := by
  unfold Core.mmaRows
  refine foldl_inv (fun p : Core × Nat => p.1.pc = c.pc) _ (fun p e hp => ?_) _ rfl
  dsimp only
  rw [mmaRow_pc, hp]

/-- An MMA that a step issued retires as it completes, and halts its core again (R433). -/
theorem mmaAdd_stepped {v : State} {n : Nat} {x : Mma} (hstep : (v.core n).stepping = true) (hpc : (v.core n).pc = x.pc) :
    (v.mmaAdd n x).core n = ((v.core n).mmaRows v.free x).1.retiredAt (x.pc + 8) := by
  have hrows : ((v.core n).mmaRows v.free x).1.pc = x.pc := (mmaRows_pc ..).trans hpc
  have hcond : (((v.core n).mmaRows v.free x).1.stepping && decide (((v.core n).mmaRows v.free x).1.pc = x.pc)) = true := by
    rw [mmaRows_stepping, hstep, hrows]
    simp
  unfold State.mmaAdd
  simp only [hcond, if_true]
  unfold State.next
  rw [retire_core]
  have hcore : (if ((v.core n).mmaRows v.free x).2 = 0
      then State.setCore { v with free := v.free + 1 } n ((v.core n).mmaRows v.free x).1
      else (State.setCore { v with free := v.free + 1 } n ((v.core n).mmaRows v.free x).1).bump (OD.SAT_EVENTS n)).core n =
        ((v.core n).mmaRows v.free x).1 := by
    split
    · exact core_setCore_same ..
    · exact core_setCore_same { v with free := v.free + 1 } n _
  rw [hcore, hrows]

/-- What a late array exception counts against a stage that has ended: the registers, and no stage fault. -/
theorem lateArrayExc_of_dead {v : State} {n : Nat} (hn : n < 32) {code : Nat} {x : Mma} {e : Entry} (hent : x.ent = some e)
    (hdead : v.entryLive e = false) :
    (v.lateArrayExc n code x).rd (OD.LAST_EXCEPTION n) = excWord true code x.pc e.run e.stage e.flight 0 ∧
    (v.lateArrayExc n code x).rd (OD.ARRAY_EXCEPTIONS n) = min (v.rd (OD.ARRAY_EXCEPTIONS n) + 1) 0xFFFFFFFF ∧
    Keep [.od, .host, .falt, .trc] v (v.lateArrayExc n code x) := by
  obtain ⟨⟨hlast, haddr, hcount, harray⟩, hlastArray, haddrArray, hcountArray, hlastCount, haddrCount, hlastAddr⟩ := exc_keys n hn
  have hstage (k : Nat) (hk : k = OD.LAST_EXCEPTION n ∨ k = OD.ARRAY_EXCEPTIONS n) :
      k ≠ OD.FAULTS_LOST ∧ k ≠ OD.CLASS_COUNTS FaultClass.stage := by
    unfold OD.LAST_EXCEPTION OD.ARRAY_EXCEPTIONS at hk
    unfold OD.FAULTS_LOST OD.CLASS_COUNTS FaultClass.stage
    omega
  have hlate : v.lateArrayExc n code x = (v.excNoted n true (excWord true code x.pc e.run e.stage e.flight 0) x.pc 0).logFault
      ⟨0, FaultClass.stage, n, 0, 2 + n / 4, OD.ARRAY_EXCEPTIONS n, 0xFF, excWord true code x.pc e.run e.stage e.flight 0, 0⟩ := by
    unfold State.lateArrayExc
    simp only [hent, hdead, Bool.false_eq_true, if_false]
  rw [hlate]
  refine ⟨?_, ?_, logFault_keep _ _ (excNoted_keep v n true _ _ _ (Keep.rfl' v))⟩
  · rw [logFault_rd _ _ (hstage _ (.inl rfl)).1 (hstage _ (.inl rfl)).2]
    unfold State.excNoted
    rw [traceInstr_rd _ _ _ _ (not_trace hlast), if_pos rfl, rd_bump, if_neg hlastArray, rd_bump, if_neg hlastCount,
      rd_wr_ne _ hlastAddr, rd_wr_same]
  · rw [logFault_rd _ _ (hstage _ (.inr rfl)).1 (hstage _ (.inr rfl)).2]
    unfold State.excNoted
    rw [traceInstr_rd _ _ _ _ (not_trace harray), if_pos rfl, rd_bump, if_pos rfl, rd_bump, if_neg hcountArray.symm,
      rd_wr_ne _ haddrArray.symm, rd_wr_ne _ hlastArray.symm]

theorem lateArrayExc_of_live {v : State} {n code : Nat} {x : Mma} {e : Entry} (hent : x.ent = some e)
    (hlive : v.entryLive e = true) : v.lateArrayExc n code x = v.exception n e true code x.pc 0 0 := by
  unfold State.lateArrayExc
  simp only [hent, hlive, if_true]

theorem entryLive_of_flit {s v : State} (h : v.flit = s.flit) (e : Entry) : v.entryLive e = s.entryLive e := by
  unfold State.entryLive State.item
  rw [h]

/-- What the counts of a completion leave: no object but the three feeder counts moves. -/
theorem mmaPopped_rd (s : State) (n : Nat) (rep : MmaReport) (x : Mma) (rest : List Mma) :
    (mmaPopped s n rep x rest).rd (OD.ARRAY_EXCEPTIONS n) = s.rd (OD.ARRAY_EXCEPTIONS n) := by
  have hcycles : OD.ARRAY_EXCEPTIONS n ≠ OD.KEEPER_CYCLES n := by unfold OD.ARRAY_EXCEPTIONS OD.KEEPER_CYCLES; omega
  have hbubbles : OD.ARRAY_EXCEPTIONS n ≠ OD.FEED_BUBBLES n := by unfold OD.ARRAY_EXCEPTIONS OD.FEED_BUBBLES; omega
  have hstalls : OD.ARRAY_EXCEPTIONS n ≠ OD.FEED_STALL_CYCLES n := by unfold OD.ARRAY_EXCEPTIONS OD.FEED_STALL_CYCLES; omega
  unfold mmaPopped State.mmaCounted
  rw [rd_bumpN, if_neg hcycles]
  split
  · rw [rd_bumpN, if_neg hbubbles]
    rfl
  · rw [rd_bumpN, if_neg hstalls]
    rfl

/-- A parity error ends the MMA with its exception, the counts taken and both tiles gone. -/
theorem mmaDone_of_parity {s : State} {n : Nat} {rep : MmaReport} {x : Mma} {rest : List Mma} (hm : (s.core n).mmas = x :: rest)
    (hparity : rep.parity = true) : ∃ v, s.mmaDone n rep = v.lateArrayExc n ArrayExc.weightParity x ∧ Keep [.od, .cores] s v ∧
      v.core n = { mmaLeft s n rep rest with active := none, shadow := none } ∧
      v.rd (OD.ARRAY_EXCEPTIONS n) = s.rd (OD.ARRAY_EXCEPTIONS n) := by
  obtain ⟨hcore, -, -, hkeep⟩ := mmaCounted_core s n rep x rest
  refine ⟨(mmaPopped s n rep x rest).setCore n { (mmaPopped s n rep x rest).core n with active := none, shadow := none }, ?_,
    setCore_keep _ _ _ hkeep, ?_, mmaPopped_rd ..⟩
  · unfold State.mmaDone
    simp only [hm, hparity, if_true]
    rfl
  · rw [core_setCore_same, hcore]

theorem exec_mmaComplete (n : Fin 32) (rep : MmaReport) {s : State} (hgate : s.rd OD.GATE = 0) (hheld : s.held n = false) :
    exec (.mmaComplete n rep) s = .next (s.mmaDone n rep) :=
  congrArg Host.Outcome.next (if_neg (by simp [State.flag, hgate, hheld]))

/-- Settles O25: the issue of the three instructions, the completion in its four cases, a row's cells and the keeper's ramp. -/
theorem arrayLoadsWeightsAndMultiplies : Obligations.ArrayLoadsWeightsAndMultiplies := by
  refine ⟨fun n rc ra rb dtype acc accum rsrc cnt e s u h => ?issue,
    fun n rep x rest s hgate hheld hm hparity hsound => ⟨fun hstep hpc => ?stepped, fun hstep => ?kept⟩,
    fun n rep x rest e s hgate hheld hm hent => ⟨fun hparity hlive => ?parityLive, fun hparity hdead => ?parityDead,
      fun hparity hlive hmarks => ?uncorrectable⟩,
    mmaRow_acc, fun n s hpower hgate hheld hgo => ?ramp⟩
  case issue =>
    intro c a stride bad ld ldt mm loads count
    have hloads (hl : loads) : ¬(dtype.val = 1 ∨ 6 ≤ dtype.val) ∧ ¬bad := ⟨by have := hl.1; have := hl.2.1; omega, hl.2.2⟩
    refine ⟨fun htype => ?illegal, fun hne hlt hbad => ?misaligned, fun htype hgood => ?int4, fun rows v hl hrows => ?wload,
      fun rows v hl hne hrows => ?wloadt, fun hgo => ⟨fun htype => ?mmaIllegal, fun htype hbad => ?mmaMisaligned,
        fun htype hgood hnone => ?noTile, fun tile htype hgood htile hmatch => ?mismatch,
        fun tile rows v htype hgood htile hmatch hrows => ?start⟩⟩
    case illegal => exact ⟨weightLoad_illegal h rfl htype, weightLoad_illegal h rfl htype⟩
    case misaligned => exact ⟨weightLoad_misaligned h rfl (by omega) hbad, weightLoad_misaligned h rfl (by omega) hbad⟩
    case int4 =>
      exact raisesArray_of n.isLt h _ rfl ((if_neg (by omega)).trans ((if_neg hgood).trans (if_pos ⟨rfl, htype⟩)))
    case wload =>
      obtain ⟨htype, hgood⟩ := hloads hl
      obtain ⟨t, hexec, hretires⟩ := weightLoad_fills (i := ld) (tr := false) h rfl htype hgood (by simp) hrows
      exact ⟨t, _, hexec, hretires, rfl, rfl, fun k l hk hl => tile_at rows false dtype (u.depth n) k hk hl⟩
    case wloadt =>
      obtain ⟨htype, hgood⟩ := hloads hl
      obtain ⟨t, hexec, hretires⟩ := weightLoad_fills (i := ldt) (tr := true) h rfl htype hgood (by simp [hne]) hrows
      exact ⟨t, _, hexec, hretires, rfl, rfl, fun k l hk hl => tile_at rows true dtype (u.depth n) k hk hl⟩
    case mmaIllegal => exact raises_of n.isLt h _ rfl ((if_neg hgo).trans (if_pos htype))
    case mmaMisaligned =>
      exact raises_of n.isLt h _ rfl ((if_neg hgo).trans ((if_neg (Nat.not_le.2 htype)).trans (if_pos hbad)))
    case noTile =>
      refine raisesArray_of n.isLt h _ rfl ((if_neg hgo).trans ((if_neg (Nat.not_le.2 htype)).trans ((if_neg hgood).trans ?_)))
      dsimp only [c] at hnone
      rw [hnone]
    case mismatch =>
      refine raisesArray_of n.isLt h _ rfl ((if_neg hgo).trans ((if_neg (Nat.not_le.2 htype)).trans ((if_neg hgood).trans ?_)))
      dsimp only [c] at htile
      rw [htile]
      exact if_pos (by rw [hmatch]; rfl)
    case start =>
      refine congrArg Host.Outcome.next ((issue_of h _).trans
        ((if_neg hgo).trans ((if_neg (Nat.not_le.2 htype)).trans ((if_neg hgood).trans ?_))))
      dsimp only [c] at htile
      rw [htile]
      refine (if_neg (by rw [hmatch]; decide)).trans ?_
      have hread : State.readRows n e dtype (u.depth n) stride (mmaCount c rc rsrc cnt) u a [] = (some rows, v) := hrows
      dsimp only [c, a, stride] at hread
      rw [hread]
      rfl
  case stepped =>
    refine ⟨_, exec_mmaComplete n rep hgate hheld, ?_⟩
    obtain ⟨-, -, hfree, -⟩ := mmaCounted_core s n rep x rest
    rw [mmaDone_ok s n rep x rest hm hparity hsound]
    have hcore : ((mmaPopped s n rep x rest).setCore n (mmaLeft s n rep rest)).core n = mmaLeft s n rep rest := core_setCore_same ..
    rw [mmaAdd_stepped (by rw [hcore]; exact hstep) (by rw [hcore]; exact hpc), hcore]
    rw [show ((mmaPopped s n rep x rest).setCore n (mmaLeft s n rep rest)).free = s.free from hfree]
    rfl
  case kept => exact ⟨_, exec_mmaComplete n rep hgate hheld, mmaKept_facts s n rep x rest hm hparity hsound hstep⟩
  case parityLive =>
    obtain ⟨v, hdone, hkeep, hcore, -⟩ := mmaDone_of_parity hm hparity
    have hliveV : v.entryLive e = true := (entryLive_of_flit (hkeep.part .flit) e).trans hlive
    refine ⟨v, _, exec_mmaComplete n rep hgate hheld, ?_, hkeep, hcore⟩
    rw [hdone, lateArrayExc_of_live hent hliveV]
    exact exception_excepts v n n.isLt e true ArrayExc.weightParity x.pc 0 0
  case parityDead =>
    obtain ⟨v, hdone, hkeep, hcore, hrd⟩ := mmaDone_of_parity hm hparity
    have hdeadV : v.entryLive e = false := (entryLive_of_flit (hkeep.part .flit) e).trans hdead
    obtain ⟨hlast, harray, hlate⟩ := lateArrayExc_of_dead (code := ArrayExc.weightParity) n.isLt hent hdeadV
    refine ⟨_, exec_mmaComplete n rep hgate hheld, ?_, ?_, ?_, ?_⟩
    · rw [hdone, hlast]
    · rw [hdone, harray, hrd]
    · rw [hdone, core_of_cores (hlate.part .cores), hcore]
      rfl
    · rw [hdone]
      exact (hkeep.mono (within_of (by decide))).trans (hlate.mono (within_of (by decide)))
  case uncorrectable =>
    obtain ⟨v, hdone, hkeep, hcore⟩ := mmaDone_acc s n rep x rest hm hparity hmarks
    have hliveV : v.entryLive e = true := (entryLive_of_flit (hkeep.part .flit) e).trans hlive
    refine ⟨v, _, exec_mmaComplete n rep hgate hheld, ?_, hkeep, hcore⟩
    rw [hdone, lateArrayExc_of_live hent hliveV]
    exact exception_excepts v n n.isLt e true ArrayExc.accUncorrectable x.pc 0 0
  case ramp =>
    refine ⟨_, congrArg Host.Outcome.next (if_neg ?_), core_setCore_same .., fun m hm => core_setCore_ne _ hm _, ?_,
      ⟨fun k hk => ?_⟩, bumpN_keep _ _ _ (setCore_keep _ _ _ (Keep.rfl' s))⟩
    · rcases hgo with hgo | hgo <;> simp [State.flag, hpower, hgate, hheld, hgo]
    · rw [rd_bumpN, if_pos rfl]
      rfl
    · rw [rd_bumpN, if_neg (by simpa using hk)]
      rfl

end Sys2Proof.Machine
end

section
/-!
Landing instructions, the landing window, the operations of Tables LAND-3 and LAND-4, and their rows (R216 to R246, R420,
R421, Table CORE-7).
-/

set_option Elab.async false

namespace Sys2Proof.Machine

/-! ### Landing instructions and the window -/

section Window

variable {s u : State} {n : Fin 32} {e : Entry} {i : Instr} {ra : Fin 32} {imm : BitVec 32} {rd : Nat} {signed : Bool} {size : Fin 4}

theorem landInstr_lands (h : s.Issues n e u) {rd ra rb : Nat} {imm : BitVec 16} (op : Word → Bool → LandOp)
    (hi : exec i s = .next (s.landingInstr n rd ra rb imm op)) :
    s.LandsBy u n e i ((((u.core n).sreg ra).toNat + imm.toNat) % 65536) (op ((u.core n).sreg rb) (u.core n).sealed) rd :=
  landsBy_of h _ hi rfl

/-- A load in the landing window is the operation of its offset, or the fault of an access that has none. -/
theorem load_in_window (halign : (u.core n).effective ra imm % sizeBytes size = 0)
    (hwindow : inLandWindow ((u.core n).effective ra imm) = true) {op : Option LandOp}
    (hop : (if sizeBytes size = 8 then landLoadOp ((u.core n).effective ra imm % 0x100) else none) = op)
    (hi : exec i s = .next (s.load n rd ra (sizeBytes size) imm signed)) :
    ∃ g, exec i s = .next (s.issue n g) ∧ g e u = match op with
      | some op => u.stageLanding n e (((u.core n).effective ra imm - landBase) / 0x100) op rd
      | none => u.stageFault e 4 ((u.core n).effective ra imm) none := by
  refine ⟨_, hi, ?_⟩
  simp only [ea_int, halign, hwindow, hop, ne_eq, not_true_eq_false, if_false, if_true]
  cases op <;> rfl

theorem store_in_window (halign : (u.core n).effective ra imm % sizeBytes size = 0)
    (hwindow : inLandWindow ((u.core n).effective ra imm) = true) {op : Option LandOp}
    (hop : (if sizeBytes size = 8 then landStoreOp ((u.core n).effective ra imm % 0x100) ((u.core n).sreg rd) (u.core n).sealed
      else none) = op)
    (hi : exec i s = .next (s.store n rd ra (sizeBytes size) imm)) :
    ∃ g, exec i s = .next (s.issue n g) ∧ g e u = match op with
      | some op => u.stageLanding n e (((u.core n).effective ra imm - landBase) / 0x100) op 0
      | none => u.stageFault e 4 ((u.core n).effective ra imm) none := by
  refine ⟨_, hi, ?_⟩
  simp only [ea_int, halign, hwindow, hop, ne_eq, not_true_eq_false, if_false, if_true]
  cases op <;> rfl

theorem window_fault (h : s.Issues n e u) {a : Nat}
    (hg : ∃ g, exec i s = .next (s.issue n g) ∧ g e u = u.stageFault e 4 a none) :
    exec i s = .next (u.stageFault e 4 a none) := by
  obtain ⟨g, hi, hfault⟩ := hg
  rw [hi, issue_of h, hfault]

theorem window_lands (h : s.Issues n e u) {L : Nat} {op : LandOp} {rd : Nat}
    (hg : ∃ g, exec i s = .next (s.issue n g) ∧ g e u = u.stageLanding n e L op rd) : s.LandsBy u n e i L op rd := by
  obtain ⟨g, hi, hlands⟩ := hg
  exact landsBy_of h g hi hlands

theorem window_op_none {α : Type} {x : Option α} (h : size.val ≠ 3 ∨ x = none) : (if sizeBytes size = 8 then x else none) = none := by
  split
  next hsize =>
    refine h.resolve_left (fun hne => hne ?_)
    exact Nat.pow_right_injective (Nat.le_refl 2) hsize
  next => rfl

theorem window_op_some {α : Type} {x : Option α} {y : α} (hsize : size.val = 3) (hx : x = some y) :
    (if sizeBytes size = 8 then x else none) = some y := by
  rw [if_pos (by unfold sizeBytes; rw [hsize]; rfl), hx]

end Window

/-- Settles O26: the fifteen instructions by `landingInstr`, the window by its two accesses. -/
theorem landingInstructionsApplyTheirOperations : Obligations.LandingInstructionsApplyTheirOperations := by
  refine ⟨fun n rd ra rb imm e s u h => ?instructions, fun n rd ra size imm e s u h => ?window⟩
  case instructions =>
    exact ⟨landInstr_lands h (fun _ _ => .read) rfl, landInstr_lands h (fun d _ => .init d) rfl,
      landInstr_lands h (fun d _ => .add d) rfl, landInstr_lands h (fun _ _ => .set) rfl,
      landInstr_lands h (fun _ _ => .clear) rfl, landInstr_lands h (fun _ _ => .acquire) rfl,
      landInstr_lands h (fun _ _ => .tryLock) rfl, landInstr_lands h (fun _ _ => .release) rfl,
      landInstr_lands h (fun _ _ => .arrive) rfl, landInstr_lands h (fun _ _ => .wait) rfl,
      landInstr_lands h (fun d _ => .ack d) rfl, landInstr_lands h (fun d mark => .push d mark) rfl,
      landInstr_lands h (fun _ _ => .take) rfl, landInstr_lands h (fun _ _ => .portStatus) rfl,
      landInstr_lands h (fun d _ => .peek (d.toNat % 4)) rfl⟩
  case window =>
    intro c a L halign hwindow
    refine ⟨fun op hsize hop => ⟨?ld, ?lds⟩, fun op hsize hop => ?st, fun hnone => ⟨?ldFault, ?ldsFault⟩, fun hnone => ?stFault⟩
    case ld => exact window_lands h (load_in_window (signed := false) halign hwindow (window_op_some hsize hop) rfl)
    case lds => exact window_lands h (load_in_window (signed := true) halign hwindow (window_op_some hsize hop) rfl)
    case st => exact window_lands h (store_in_window halign hwindow (window_op_some hsize hop) rfl)
    case ldFault =>
      exact window_fault h (load_in_window (rd := rd) (signed := false) halign hwindow (window_op_none hnone) rfl)
    case ldsFault =>
      exact window_fault h (load_in_window (rd := rd) (signed := true) halign hwindow (window_op_none hnone) rfl)
    case stFault => exact window_fault h (store_in_window (rd := rd) halign hwindow (window_op_none hnone) rfl)

end Sys2Proof.Machine
end

section
/-!
The operations of Tables LAND-3 and LAND-4 on a quiet landing, the rows of the agents, and the landings' own releases
(R216 to R246, R262).
-/

set_option Elab.async false

namespace Sys2Proof.Machine

/-! ### The operations -/

theorem fields_of_held {w : Nat} (hmode : modeOf w = 2) (hlocked : bit w 0 = true) : heldOf w = true := by
  unfold heldOf
  rw [hmode, hlocked]
  rfl

theorem not_held_of_open {w : Nat} (hopen : bit w 0 = false) : heldOf w = false := by
  unfold heldOf
  rw [hopen, Bool.and_false]

/-- Nothing waits on a quiet landing, so that dropping an agent's wait on it leaves the list as it was. -/
theorem quiet_filter {s : State} {L : Nat} (hq : s.quiet L) (p : Waiter → Bool) :
    s.land.waiters.filter (fun x => !(p x && decide (x.landing = L))) = s.land.waiters := by
  refine List.filter_eq_self.2 (fun x hx => ?_)
  rw [decide_eq_false (hq.1 x hx), Bool.and_false]
  rfl

section Operations

variable {q : Requester} {L rd : Nat} {s : State}

/-- An `INIT` to barrier mode sets the generation of what waits on its landing, and a quiet one has nothing that waits. -/
theorem freshened_quiet (hq : s.quiet L) (g : Nat) :
    { s with
      land := { s.land with waiters := s.land.waiters.map (fun x => if x.landing = L then { x with gen := g } else x) }
      flit := { s.flit with entries := s.flit.entries.map (fun e =>
        if e.st = .armed && e.gate = some L then { e with gen := g } else e) } } = s := by
  obtain ⟨hwaiters, hgated, -⟩ := hq
  have hw : s.land.waiters.map (fun x => if x.landing = L then { x with gen := g } else x) = s.land.waiters := by
    refine (List.map_congr_left fun x hx => ?_).trans (List.map_id _)
    exact if_neg (hwaiters x hx)
  have he : s.flit.entries.map (fun e => if e.st = .armed && e.gate = some L then { e with gen := g } else e) = s.flit.entries := by
    refine (List.map_congr_left fun e he => ?_).trans (List.map_id _)
    refine if_neg (fun hgate => ?_)
    have hmem : e ∈ s.gated L := List.mem_filter.2 ⟨he, by simpa using hgate⟩
    rw [hgated] at hmem
    cases hmem
  rw [hw, he]

/-- The state that an `INIT` leaves before its word is written. -/
def State.initPrepared (s : State) (L w : Nat) : State :=
  let s := if L < 0x1000 then s.setPort L {} else s
  if bit w 60 then s.bump OD.OVERFLOWS else s

theorem initPrepared_quiet (hq : s.quiet L) (w : Nat) : (s.initPrepared L w).quiet L := by
  have hport : (if L < 0x1000 then s.setPort L {} else s).quiet L := by
    split <;> exact hq
  unfold State.initPrepared
  dsimp only
  split
  · exact bump_quiet hport (fun j => by unfold OD.PK_STATE OD.OVERFLOWS; omega)
  · exact hport

theorem initPrepared_port (w M : Nat) : (s.initPrepared L w).port M = if M = L ∧ L < 0x1000 then {} else s.port M := by
  have hport : (if L < 0x1000 then s.setPort L {} else s).port M = if M = L ∧ L < 0x1000 then {} else s.port M := by
    by_cases hL : L < 0x1000
    · simp only [hL, if_true, and_true, port_setPort]
    · simp only [hL, if_false, and_false]
  unfold State.initPrepared
  dsimp only
  split
  · exact hport
  · exact hport

theorem initPrepared_raw (w M : Nat) : (s.initPrepared L w).landRaw M = s.landRaw M := by
  unfold State.initPrepared
  dsimp only
  split <;> split <;> rfl

theorem initPrepared_rd (w k : Nat) : (s.initPrepared L w).rd k =
    if k = OD.OVERFLOWS ∧ bit w 60 = true then min (s.rd k + 1) 0xFFFFFFFF else s.rd k := by
  have hport : ∀ j, (if L < 0x1000 then s.setPort L {} else s).rd j = s.rd j := fun j => by split <;> rfl
  unfold State.initPrepared
  dsimp only
  split
  next hbit =>
    rw [rd_bump, hport, hport]
    by_cases hk : k = OD.OVERFLOWS
    · simp [hk, hbit]
    · simp [hk]
  next hbit => simp [hbit, hport]

theorem initPrepared_keep (w : Nat) : Keep [.od, .land] s (s.initPrepared L w) := by
  have hport : Keep [.od, .land] s (if L < 0x1000 then s.setPort L {} else s) := by
    split
    · exact setPort_keep _ _ _ (Keep.rfl' s)
    · exact Keep.rfl' s
  unfold State.initPrepared
  dsimp only
  split
  · exact bump_keep _ _ hport
  · exact hport

theorem init_applies (hq : s.quiet L) {d : Word} (hgood : initBad (s.landRaw L) d.toNat = false) :
    s.landApply q.agent.val L (.init d) rd =
      (.done, (s.initPrepared L (initWord d.toNat q.agent.val)).setLand L (initWord d.toNat q.agent.val), false) := by
  have hprep := initPrepared_quiet hq (initWord d.toNat q.agent.val)
  have hfresh := freshened_quiet hprep (bits (initWord d.toNat q.agent.val) 16 16)
  unfold State.initPrepared at hprep hfresh ⊢
  unfold State.landApply
  simp only [hgood, Bool.false_eq_true, if_false]
  split
  next =>
    rw [hfresh, landEvaluate_quiet (setLand_quiet hprep _)]
  next => rw [landEvaluate_quiet (setLand_quiet hprep _)]

theorem init_lands (hq : s.quiet L) {d : Word} (h : s.landsOn q L (.init d)) (hgood : initBad (s.landRaw L) d.toNat = false) :
    ∃ t, s.landOp q L (.init d) rd = (some .done, t) ∧
      s.Lands t L (initWord d.toNat q.agent.val) (if L < 0x1000 then {} else s.port L) [OD.OVERFLOWS] ∧
      t.rd OD.OVERFLOWS = (if bit (initWord d.toNat q.agent.val) 60 then min (s.rd OD.OVERFLOWS + 1) 0xFFFFFFFF
        else s.rd OD.OVERFLOWS) := by
  let w := initWord d.toNat q.agent.val
  obtain ⟨t, hop, hlands, -, hrd, -⟩ := landOp_lands (w := w) (p := if L < 0x1000 then {} else s.port L) (ks := [OD.OVERFLOWS])
    h (init_applies hq hgood) (by simp) (by rw [landRaw_setLand, if_pos rfl])
    (by rw [port_of_setLand, initPrepared_port]; simp)
    (fun M hM => by rw [landRaw_setLand, if_neg hM, initPrepared_raw])
    (fun M hM => by rw [port_of_setLand, initPrepared_port, if_neg (fun hc => hM hc.1)])
    ⟨fun k hk => (initPrepared_rd w k).trans (if_neg (fun hc => hk (by simp [hc.1])))⟩
    ((setLand_keep _ _ _ (initPrepared_keep w)).mono (within_of (by decide)))
  refine ⟨t, hop, hlands, ?_⟩
  rw [hrd _ (not_trace (by decide))]
  exact (initPrepared_rd w OD.OVERFLOWS).trans (by simp [w])

theorem acquire_parks (h : s.landsOn q L .acquire) (hmode : modeOf (s.landRaw L) = 2) (hlocked : bit (s.landRaw L) 0 = true)
    (hother : agentOf (s.landRaw L) ≠ q.agent.val) :
    ∃ t, s.landOp q L .acquire rd = (some .parked, t) ∧ s.Lands t L (s.landRaw L) (s.port L) [] ∧
      t.land.waiters = s.land.waiters ++ [⟨q.agent.val, L, true, 0, rd, s.land.parks⟩] ∧ t.land.parks = s.land.parks + 1 := by
  let v : State := { s with land := { s.land with
    waiters := s.land.waiters ++ [⟨q.agent.val, L, true, 0, rd, s.land.parks⟩], parks := s.land.parks + 1 } }
  have happly : s.landApply q.agent.val L .acquire rd = (.parked, v, false) := by
    unfold State.landApply
    simp [hmode, hlocked, hother, v]
  have hkeep : Keep [.od, .host, .land, .falt, .trc, .flit] s v :=
    (Keep.rfl' s).upd rfl rfl rfl rfl
  obtain ⟨t, hop, hlands, hland, -⟩ := landOp_lands (w := s.landRaw L) (p := s.port L) (ks := []) h happly (by simp)
    (Nat.mod_eq_of_lt (landRaw_lt s L)).symm rfl (fun _ _ => rfl) (fun _ _ => rfl) ⟨fun _ _ => rfl⟩ hkeep
  exact ⟨t, hop, hlands, by rw [hland], by rw [hland]⟩

/-- A `WAIT` that is met answers the word before the release action and leaves nobody waiting (log entry 36). -/
theorem wait_met (hq : s.quiet L) (h : s.landsOn q L .wait) (hmode : modeOf (s.landRaw L) ≠ 2)
    (hmet : satisfied (s.landRaw L) (genOf (s.landRaw L)) = true) :
    ∃ t, s.landOp q L .wait rd = (some (.word (s.landWord L)), t) ∧ s.Lands t L (releaseAction (s.landRaw L)) (s.port L) [] ∧
      t.land.waiters = s.land.waiters := by
  let x : Waiter := ⟨q.agent.val, L, false, genOf (s.landRaw L), rd, s.land.parks⟩
  have hdrop : (s.land.waiters ++ [x]).filter
      (fun y => !(y.agent = q.agent.val && y.landing = L && !y.acquire)) = s.land.waiters := by
    rw [List.filter_append]
    have hself : ([x] : List Waiter).filter (fun y => !(y.agent = q.agent.val && y.landing = L && !y.acquire)) = [] := by
      simp [x]
    rw [hself, List.append_nil]
    refine List.filter_eq_self.2 (fun y hy => ?_)
    rw [decide_eq_false (hq.1 y hy), Bool.and_false, Bool.false_and]
    rfl
  have happly : s.landApply q.agent.val L .wait rd =
      (.word (s.landWord L), s.setLand L (releaseAction (s.landRaw L)), true) := by
    have hword := landWord_wait (s := s) (L := L) q.agent.val (genOf (s.landRaw L)) rd s.land.parks
    unfold State.landApply
    dsimp only [x] at hdrop
    simp only [hmode, hmet, if_false, if_true, hword, hdrop]
  obtain ⟨t, hop, hlands, hland, -⟩ := lands_word h happly (by simp)
  exact ⟨t, hop, hlands, by rw [hland]; rfl⟩

theorem take_lands (h : s.landsOn q L .take) (hport : L < 0x1000) :
    ∃ t, s.landOp q L .take rd = (some (.word ((s.port L).peek 0)), t) ∧
      s.Lands t L (s.landRaw L) { s.port L with q := (s.port L).q.tail } [] := by
  cases hq : (s.port L).q with
  | nil =>
    have hpeek : (s.port L).peek 0 = 0 := by
      unfold LandPort.peek
      simp [hq]
    have happly : s.landApply q.agent.val L .take rd = (.word ((s.port L).peek 0), s, false) := by
      unfold State.landApply
      simp [Nat.not_le.2 hport, hq, hpeek]
    have hself : ({ s.port L with q := [] } : LandPort) = s.port L := by
      rw [← hq]
    obtain ⟨t, hop, hlands⟩ := lands_self h happly (by simp)
    exact ⟨t, hop, by rw [List.tail_nil, hself]; exact hlands⟩
  | cons e rest =>
    have hpeek : (s.port L).peek 0 = payloadWord e := by
      unfold LandPort.peek
      simp [hq]
    have happly : s.landApply q.agent.val L .take rd = (.word ((s.port L).peek 0), s.setPort L { s.port L with q := rest }, false) := by
      unfold State.landApply
      simp [Nat.not_le.2 hport, hq, hpeek]
    exact lands_port h happly (by simp)

theorem force_lands (hq : s.quiet L) (h : s.landsOn q L .force) (hmode : modeOf (s.landRaw L) = 2)
    (hlocked : bit (s.landRaw L) 0 = true) :
    ∃ t, s.landOp q L .force rd = (some .done, t) ∧
      s.Lands t L (setBit (setBit (s.landRaw L) 0 false) 59 true) (s.port L)
        [OD.ABANDONS, OD.FORCED_RELEASES, OD.FAULTS_LOST, OD.CLASS_COUNTS FaultClass.corrected] ∧
      t.rd OD.FORCED_RELEASES = min (s.rd OD.FORCED_RELEASES + 1) 0xFFFFFFFF := by
  have happly : s.landApply q.agent.val L .force rd = (.done, forced s L, false) := by
    have hgrant : (forced s L).landGrant L = (forced s L, false) := landGrant_quiet (forced_quiet hq)
    unfold State.landApply
    unfold forced at hgrant ⊢
    simp only [fields_of_held hmode hlocked, Bool.not_true, Bool.false_eq_true, if_false, hgrant]
  obtain ⟨t, hop, hlands, -, hrd, -⟩ := landOp_lands (w := setBit (setBit (s.landRaw L) 0 false) 59 true) (p := s.port L)
    (ks := [OD.ABANDONS, OD.FORCED_RELEASES, OD.FAULTS_LOST, OD.CLASS_COUNTS FaultClass.corrected]) h happly (by simp)
    (by rw [forced_raw, if_pos rfl]) (forced_port s L L) (fun M hM => by rw [forced_raw, if_neg hM]) (fun M _ => forced_port s L M)
    ⟨fun k hk => by
      simp only [List.cons_append, List.nil_append, List.mem_cons, not_or] at hk
      obtain ⟨habandons, hforced, hlost, hcount, -⟩ := hk
      exact forced_rd s L habandons hforced hlost hcount⟩
    ((forced_keep s L).mono (within_of (by decide)))
  exact ⟨t, hop, hlands, (hrd _ (not_trace (by decide))).trans (forced_count s L)⟩

theorem release_lands (hq : s.quiet L) (h : s.landsOn q L .release) (hmode : modeOf (s.landRaw L) = 2)
    (hlocked : bit (s.landRaw L) 0 = true) (hown : agentOf (s.landRaw L) = q.agent.val) :
    ∃ t, s.landOp q L .release rd = (some .done, t) ∧ s.Lands t L (setBit (s.landRaw L) 0 false) (s.port L) [] := by
  have happly : s.landApply q.agent.val L .release rd = (.done, s.setLand L (setBit (s.landRaw L) 0 false), false) := by
    unfold State.landApply
    simp only [fields_of_held hmode hlocked, hown, Bool.not_true, Bool.false_eq_true, ne_eq, not_true_eq_false, or_self, if_false,
      landGrant_quiet (setLand_quiet hq _)]
  obtain ⟨t, hop, hlands, -⟩ := lands_word h happly (by simp)
  exact ⟨t, hop, hlands⟩

/-- A grant to the asker: of `ACQUIRE` on an open lock and of `TRY`. -/
theorem grant_lands {op : LandOp} (h : s.landsOn q L op) {w : Nat}
    (happly : s.landApply q.agent.val L op rd = (.word ((s.setLand L w).landWord L), s.setLand L w, false)) :
    ∃ t, s.landOp q L op rd = (some (.word (t.landWord L)), t) ∧ s.Lands t L w (s.port L) [] := by
  obtain ⟨t, hop, hlands, hland, hflit⟩ := lands_word h happly (by simp)
  exact ⟨t, by rw [hop, landWord_of (s := s.setLand L w) hland hflit], hlands⟩

theorem try_lands (h : s.landsOn q L .tryLock) (hmode : modeOf (s.landRaw L) = 2) :
    ∃ t, s.landOp q L .tryLock rd = (some (.word (t.landWord L)), t) ∧
      s.Lands t L (if bit (s.landRaw L) 0 then s.landRaw L else grantWord (s.landRaw L) q.agent.val) (s.port L) [] := by
  cases hbit : bit (s.landRaw L) 0 with
  | true =>
    have happly : s.landApply q.agent.val L .tryLock rd = (.word (s.landWord L), s, false) := by
      unfold State.landApply
      simp only [hmode, hbit, ne_eq, not_true_eq_false, if_false, if_true]
    obtain ⟨t, hop, hlands, hland, -, hflit⟩ := landOp_lands (w := s.landRaw L) (p := s.port L) (ks := []) h happly (by simp)
      (Nat.mod_eq_of_lt (landRaw_lt s L)).symm rfl (fun _ _ => rfl) (fun _ _ => rfl) ⟨fun _ _ => rfl⟩ (Keep.rfl' s)
    exact ⟨t, by rw [hop, landWord_of hland hflit], hlands⟩
  | false =>
    refine grant_lands h ?_
    unfold State.landApply
    simp only [hmode, hbit, ne_eq, not_true_eq_false, Bool.false_eq_true, if_false]

theorem push_lands (hq : s.quiet L) {d : Word} {mark : Bool} (h : s.landsOn q L (.push d mark)) (hmode : modeOf (s.landRaw L) ≠ 2)
    (hport : L < 0x1000) (hroom : (s.port L).q.length < 4) :
    ∃ t, s.landOp q L (.push d mark) rd = (some .done, t) ∧
      s.Lands t L (changedBy q.agent.val (s.landRaw L) (arrival (s.landRaw L)))
        { s.port L with q := (s.port L).q ++ [⟨q.agent.val, d.toNat % 2 ^ 48, mark⟩] } [OD.OVERFLOWS] := by
  let p : LandPort := { s.port L with q := (s.port L).q ++ [⟨q.agent.val, d.toNat % 2 ^ 48, mark⟩] }
  have hu : (s.setPort L p).quiet L := hq
  refine lands_push (u := s.setPort L p) (ovf := overflows (s.landRaw L) 1) (p := p) (ks := []) hu h ?_
    (fun _ => rfl) (fun M => port_setPort s L M p) ⟨fun _ _ => rfl⟩ (setPort_keep _ _ _ (Keep.rfl' s))
  unfold State.landApply
  simp only [hmode, Nat.not_le.2 hport, Nat.not_le.2 hroom, or_self, if_false, bits_low]
  rfl

theorem push_drops (hq : s.quiet L) {d : Word} {mark : Bool} (h : s.landsOn q L (.push d mark)) (hmode : modeOf (s.landRaw L) ≠ 2)
    (hport : L < 0x1000) (hfull : 4 ≤ (s.port L).q.length) :
    ∃ t, s.landOp q L (.push d mark) rd = (some .done, t) ∧
      s.Lands t L (changedBy q.agent.val (s.landRaw L) (withOverflow (s.landRaw L) true))
        { s.port L with drops := min ((s.port L).drops + 1) 255 } [OD.PAYLOAD_DROPS, OD.OVERFLOWS] := by
  let p : LandPort := { s.port L with drops := min ((s.port L).drops + 1) 255 }
  have hu : ((s.setPort L p).bump OD.PAYLOAD_DROPS).quiet L :=
    bump_quiet (s := s.setPort L p) hq (fun j => by unfold OD.PK_STATE OD.PAYLOAD_DROPS; omega)
  refine lands_push (u := (s.setPort L p).bump OD.PAYLOAD_DROPS) (ovf := true) (p := p) (ks := [OD.PAYLOAD_DROPS]) hu h ?_
    (fun _ => rfl) (fun M => port_setPort s L M p) ⟨fun k hk => ?_⟩ (bump_keep _ _ (setPort_keep _ _ _ (Keep.rfl' s)))
  · unfold State.landApply
    simp only [hmode, Nat.not_le.2 hport, hfull, or_self, if_false, if_true]
    rfl
  · rw [rd_bump, if_neg (by simpa using hk)]
    rfl

end Operations

/-- Settles O28: one law per operation, each by what it applies to the word and the port. -/
theorem landingOperationsDoWhatTheirRowsSay : Obligations.LandingOperationsDoWhatTheirRowsSay := by
  intro q L rd s hq a w m p
  refine ⟨fun h => ?read, fun d h hgood => init_lands hq h hgood, fun d h hmode hd => ?add, fun h hmode => ?set,
    fun h hmode => ?clear, fun h hmode hopen => ?acquire, fun h => acquire_parks h, fun h => try_lands h,
    fun h => release_lands hq h, fun h hmode => ?arrive, fun h => wait_met hq h, fun h hmode hunmet => ?park,
    fun d h hclear => ?ack, fun h => force_lands hq h, fun d mark h => push_lands hq h, fun d mark h => push_drops hq h,
    fun h => take_lands h, fun h hport => ?status, fun k h hport => ?peek⟩
  case read => exact lands_self h rfl (by simp)
  case add => exact lands_change hq h (if_neg (by rw [bits_high _ hd]; exact not_or.2 ⟨not_not_intro hmode, not_not_intro rfl⟩))
  case set => exact lands_change hq h (if_neg (not_not_intro hmode))
  case clear => exact lands_change0 hq h (if_neg (not_not_intro hmode))
  case acquire =>
    refine grant_lands h ?_
    have hheld : heldOf (s.landRaw L) = false := not_held_of_open hopen
    dsimp only [m, w] at hmode hopen
    unfold State.landApply
    simp only [hmode, hopen, hheld, ne_eq, not_true_eq_false, Bool.false_eq_true, false_and, or_self, if_false]
    rfl
  case arrive => exact lands_change0 hq h (if_neg (not_not_intro hmode))
  case park =>
    refine lands_park h ?_
    dsimp only [m, w] at hmode hunmet
    unfold State.landApply
    simp only [hmode, hunmet, Bool.false_eq_true, if_false]
    rfl
  case ack =>
    refine lands_change0 hq h (if_neg fun hbad => ?_)
    obtain ⟨hbit, hnot⟩ := hbad
    obtain ⟨hmode, hlocked, hown⟩ := hclear hbit
    rw [fields_of_held hmode hlocked] at hnot
    simp [show agentOf (s.landRaw L) = q.agent.val from hown] at hnot
  case status =>
    have happly : s.landApply a L .portStatus rd = (.word (BitVec.ofNat 64 (p.q.length + 256 * min p.drops 255)), s, false) := by
      refine (if_neg (Nat.not_le.2 hport)).trans ?_
      rw [Nat.mul_comm]
      rfl
    exact lands_self h happly (by simp)
  case peek => exact lands_self h (if_neg (Nat.not_le.2 hport)) (by simp)

/-! ### The rows of the agents -/

theorem record_log {cls : Nat} (hcls : cls ≤ 4) (t : State) (agent dom obj addr inst : Nat) :
    (t.record cls agent dom obj addr inst).falt.log =
      (logInsert t.falt.log ⟨t.clk.gtime, cls, agent, 0, dom, obj, 0xFF, addr, inst⟩).1 :=
  (logFault_facts t ⟨0, cls, agent, 0, dom, obj, 0xFF, addr, inst⟩ hcls _ rfl).1

/-- Refutes O29: a failed operation of an agent that runs no stage, with an object in its record, leaves the landing's
number in its record, where the statement says 0. The second landing of the window is such a one. -/
theorem not_landingRowsAnswerTheirAgents : ¬ Obligations.LandingRowsAnswerTheirAgents := by
  rintro ⟨-, -, hfail⟩
  have hclaim := (hfail 0 (landBase + 0x100) 5 OD.OP_ERRORS State.reset).2 rfl
  have hmodel : State.reset.landFail 0 (landBase + 0x100) 5 OD.OP_ERRORS =
      (State.reset.landResp 0 .error).record FaultClass.item 0 1 OD.OP_ERRORS (landBase + 0x100) 1 := rfl
  rw [hmodel] at hclaim
  have hlog := congrArg (fun t : State => t.falt.log.map (·.wb)) hclaim
  simp only [record_log (by decide : FaultClass.item ≤ 4)] at hlog
  exact absurd hlog (by decide)

/-! ### Releases, expiries and errors -/

theorem evaluate1_of_none {s : State} {L : Nat} (hr : s.returners L = [])
    (hnone : ¬((∃ x ∈ s.land.waiters, decide (x.landing = L) && !x.acquire && satisfied (s.landRaw L) x.gen) ∨
      (∃ e ∈ s.gated L, satisfied (s.landRaw L) e.gen))) : s.landEvaluate1 L = (s, false) := by
  obtain ⟨hwaiters, hgated⟩ := not_or.1 hnone
  rw [evaluate1 s L hr]
  refine if_pos ⟨List.filter_eq_nil_iff.2 fun x hx hhit => hwaiters ⟨x, hx, hhit⟩,
    List.filter_eq_nil_iff.2 fun e he hhit => hgated ⟨e, he, hhit⟩⟩

theorem evaluate1_of_some {s : State} {L : Nat} (hr : s.returners L = [])
    (hsome : (∃ x ∈ s.land.waiters, decide (x.landing = L) && !x.acquire && satisfied (s.landRaw L) x.gen) ∨
      (∃ e ∈ s.gated L, satisfied (s.landRaw L) e.gen)) :
    (s.landEvaluate1 L).2 = true ∧ (s.landEvaluate1 L).1.landRaw L = releaseAction (s.landRaw L) % 2 ^ 64 ∧
    (s.landEvaluate1 L).1.land.waiters =
      s.land.waiters.filter (fun x => !(decide (x.landing = L) && !x.acquire && satisfied (s.landRaw L) x.gen)) := by
  rw [evaluate1 s L hr, if_neg]
  · refine ⟨rfl, by rw [landRaw_setLand, if_pos rfl], ?_⟩
    rw [setLand_waiters, foldl_same State.land _ (fun s e => releaseEntry_land s e),
      foldl_same (fun s : State => s.land.waiters) _ (fun s x => resumeWaiter_waiters s x _)]
  · rintro ⟨hwaiters, hgated⟩
    rcases hsome with ⟨x, hx, hhit⟩ | ⟨e, he, hhit⟩
    · exact List.filter_eq_nil_iff.1 hwaiters x hx hhit
    · exact List.filter_eq_nil_iff.1 hgated e he hhit

/-- What an expired lock leaves: abandoned and counted twice over (R223, R224). -/
def expired (s : State) (L : Nat) : State := (s.landAbandon L).bump OD.HOLD_EXPIRIES

theorem expired_facts {s : State} {L : Nat} (hq : s.quiet L) :
    (expired s L).landRaw L = setBit (setBit (s.landRaw L) 0 false) 59 true % 2 ^ 64 ∧
    (expired s L).rd OD.ABANDONS = min (s.rd OD.ABANDONS + 1) 0xFFFFFFFF ∧
    (expired s L).rd OD.HOLD_EXPIRIES = min (s.rd OD.HOLD_EXPIRIES + 1) 0xFFFFFFFF ∧ Keep [.od, .land] s (expired s L) := by
  unfold expired
  rw [abandon_quiet hq]
  refine ⟨?_, ?_, ?_, bump_keep _ _ (bump_keep _ _ (setLand_keep _ _ _ (Keep.rfl' s)))⟩
  · exact (landRaw_setLand s L L _).trans (if_pos rfl)
  · rw [rd_bump, if_neg (by decide), rd_bump, if_pos rfl]
    rfl
  · rw [rd_bump, if_pos rfl, rd_bump, if_neg (by decide)]
    rfl

theorem exec_holdLimitExpiry {s : State} {L : BitVec 16} (hq : s.quiet L.toNat) (hexpired : s.holdExpired L.toNat = true) :
    (∀ e, s.runningOn (agentOf (s.landRaw L.toNat)) = some e →
      exec (.holdLimitExpiry L) s = .next ((expired s L.toNat).stageFault e 6 0 none)) ∧
    (s.runningOn (agentOf (s.landRaw L.toNat)) = none → exec (.holdLimitExpiry L) s =
      .next ((expired s L.toNat).record FaultClass.stage (agentOf (s.landRaw L.toNat)) 1 OD.HOLD_EXPIRIES
        (landBase + L.toNat * 0x100) L.toNat)) := by
  have hrun (a : Nat) : (expired s L.toNat).runningOn a = s.runningOn a := by
    unfold State.runningOn
    rw [(expired_facts hq).2.2.2.part .flit]
  have hexec : exec (.holdLimitExpiry L) s = .next (match (expired s L.toNat).runningOn (agentOf (s.landRaw L.toNat)) with
      | some e => (expired s L.toNat).stageFault e 6 0 none
      | none => (expired s L.toNat).record FaultClass.stage (agentOf (s.landRaw L.toNat)) 1 OD.HOLD_EXPIRIES
        (landBase + L.toNat * 0x100) L.toNat) :=
    congrArg Host.Outcome.next (if_neg (by rw [hexpired]; decide))
  rw [hrun] at hexec
  refine ⟨fun e he => ?_, fun he => ?_⟩
  · rw [hexec, he]
  · rw [hexec, he]

/-- Settles O30: one evaluation by what it releases, the expiry of a quiet lock and the two errors of a landing's word. -/
theorem landingsReleaseExpireAndReset : Obligations.LandingsReleaseExpireAndReset := by
  refine ⟨fun L s hr => ⟨evaluate1_of_some hr, evaluate1_of_none hr⟩, fun L s hheld hlimit htime hrunning hq => ?expiry,
    fun L s hon => ?corrected, fun L s hon hq => ?uncorrectable⟩
  case expiry =>
    have hexpired : s.holdExpired L.toNat = true := by
      unfold State.holdExpired
      simp [hheld, hlimit, htime, hrunning]
    obtain ⟨hword, habandons, hexpiries, hkeep⟩ := expired_facts hq
    obtain ⟨hstage, hnone⟩ := exec_holdLimitExpiry hq hexpired
    exact ⟨expired s L.toNat, hword, habandons, hexpiries, hkeep, hstage, hnone⟩
  case corrected =>
    exact congrArg Host.Outcome.next ((if_neg (by rw [hon]; decide)).trans (if_pos rfl))
  case uncorrectable =>
    obtain ⟨hwaiters, hgated, -⟩ := hq
    have hparked : s.land.waiters.filter (fun x => x.landing = L.toNat) = [] :=
      List.filter_eq_nil_iff.2 (fun x hx => by simpa using hwaiters x hx)
    have hkept : s.land.waiters.filter (fun x => x.landing ≠ L.toNat) = s.land.waiters :=
      List.filter_eq_self.2 (fun x hx => by simpa using hwaiters x hx)
    let u := s.setLand L.toNat (withOverflow resetWord.toNat true)
    refine ⟨u.record FaultClass.stage 0xFF 1 0 (landBase + L.toNat * 0x100) L.toNat,
      congrArg Host.Outcome.next ((if_neg (by rw [hon]; decide)).trans ((if_neg Bool.false_ne_true).trans ?_)), ?_, fun M hM => ?_, ?_,
      record_count u ..⟩
    · simp only [hparked, setLand_waiters, hkept, hgated, List.map_nil, List.foldl_nil]
      rfl
    · rw [landRaw_of_land (record_land ..), landRaw_setLand, if_pos rfl]
      rfl
    · rw [landRaw_of_land (record_land ..), landRaw_setLand, if_neg hM]
    · rw [record_land]
      rfl

end Sys2Proof.Machine
end

section
/-!
The dispatcher's choice, the issue and the end of a stage, and the end of a stop (R271 to R326, Table FLIT-6).
-/

set_option Elab.async false

namespace Sys2Proof.Machine

/-! ### The choice -/

/-- What the dispatcher may select: `nextIssue` takes the least key of these. -/
def State.ready (s : State) (e : Entry) : Bool :=
  e.st = .released && s.planned e && (s.engineIdle e || !s.engineUp e) && (e.bg || !s.boundaryAhead)

theorem ready_iff (s : State) (e : Entry) : s.ready e = true ↔
    e.st = .released ∧ s.planned e ∧ (s.engineIdle e ∨ ¬s.engineUp e) ∧ (e.bg ∨ s.boundaryAhead = false) := by
  unfold State.ready
  simp only [Bool.and_eq_true, Bool.or_eq_true, decide_eq_true_eq, Bool.not_eq_true', and_assoc, Bool.not_eq_true]

/-- Settles O31: the fold keeps the least key of the ready entries, and keys of one length are totally ordered. -/
theorem theDispatcherSelectsByKey : Obligations.TheDispatcherSelectsByKey := by
  intro s e hnext ready
  obtain ⟨hmem, -, hleast⟩ := least_of (s.flit.entries.filter s.ready) none e hnext
  have hreadyMem : e ∈ s.flit.entries.filter s.ready := hmem.resolve_left (by simp)
  obtain ⟨hentry, hready⟩ := List.mem_filter.1 hreadyMem
  have hbefore (f : Entry) (hf : f ∈ s.flit.entries) (hr : ready f) : keyBefore f.key e.key = false :=
    hleast f (List.mem_filter.2 ⟨hf, (ready_iff s f).2 hr⟩)
  exact ⟨hentry, (ready_iff s e).1 hready, hbefore,
    fun f hf hr hnot => keyBefore_total f.key e.key rfl (hbefore f hf hr) hnot⟩

/-! ### Issue and completion -/

theorem exec_stageIssue_of_cause (unit : UnitHeaders) {s : State} {e : Entry} {c : Nat} (hnext : s.nextIssue = some e)
    (hcause : s.issueCause e = some c) : exec (.stageIssue unit) s = .next (s.stageFault e c 0 none) := by
  change execStageIssue unit s = _
  unfold execStageIssue
  simp only [hnext, hcause]

theorem exec_stageIssue_of_engine (unit : UnitHeaders) {s : State} {e : Entry} {d : StageDef} (hnext : s.nextIssue = some e)
    (hcause : s.issueCause e = none) (hdef : s.stageDef e = some d) :
    exec (.stageIssue unit) s = .next (
      if e.engine < 32 then (s.issuing e).coreEnter e.engine { e with st := .issued, issuedAt := s.clk.now } d
      else if e.engine < 36 then (s.issuing e).newelEnter (e.engine - 32) { e with st := .issued, issuedAt := s.clk.now } d
      else if e.engine < 38 then (s.issuing e).decEnter (e.engine - 36) { e with st := .issued, issuedAt := s.clk.now } d unit
      else if e.engine = 38 then (s.issuing e).encEnter { e with st := .issued, issuedAt := s.clk.now } d
      else (s.issuing e).scalerEnter (e.engine - 40) { e with st := .issued, issuedAt := s.clk.now } d) := by
  change execStageIssue unit s = _
  unfold execStageIssue
  simp only [hnext, hcause, hdef]
  rfl

section Issuing

variable (s : State) (e : Entry)

theorem issuing_keep : Keep [.od, .host, .flit, .trc] s (s.issuing e) :=
  traceFlight_keep _ _ _ _ _ _ _ _ (mapEntry_keep _ _ _ (Keep.rfl' s))

theorem issuing_entries : (s.issuing e).flit.entries =
    s.flit.entries.map (fun x => if x.same e then { x with st := .issued, issuedAt := s.clk.now } else x) :=
  congrArg (·.entries) (traceFlight_flit ..)

theorem issuing_item (i : Nat) : (s.issuing e).item i = s.item i :=
  item_of (congrArg (·.slots) (traceFlight_flit ..)) i

end Issuing

theorem newelEnter_args (u : State) (k : Nat) (e : Entry) (d : StageDef) :
    ((u.newelEnter k e d).newel k).args = (u.entryRegs 0 e d).filter (fun r => decide (r.1 ≠ 9 ∧ r.1 ≠ 10)) := by
  unfold State.newelEnter
  extract_lets -merge args old v tr w
  have hnewels : (w.traceInstr (32 + k) d.entryOff 2).newels = v.newels :=
    (traceInstr_keep w _ _ _ (Keep.rfl' w)).part .newels
  unfold State.newel
  rw [hnewels]
  simp [v, args, State.setNewel]

/-- Settles O32: the selected entry by its cause or its engine, a report by who gives it, and the background quantum. -/
theorem stagesAreIssuedAndEnd : Obligations.StagesAreIssuedAndEnd := by
  refine ⟨fun unit s e c => exec_stageIssue_of_cause unit,
    fun unit s e d hnext hcause hdef => ⟨fun hcore => ?core, fun hge hlt => ?newel, fun hge hlt => ?decoder, fun heq => ?encoder,
      fun hge => ?scaler⟩,
    fun a r s e hended => ?engineEnd, fun a r s e hnone hge hlt hrunning hparked he => ?firmwareEnd,
    fun a s e he hbg hlong => ?overrun, fun a s e he hshort => ?within⟩
  case core =>
    have hexec := (exec_stageIssue_of_engine unit hnext hcause hdef).trans (congrArg Host.Outcome.next (if_pos hcore))
    have hkeep := coreEnter_keep (s.issuing e) e.engine { e with st := .issued, issuedAt := s.clk.now } d
      (fs := [.od, .host, .trc, .cores, .ledg]) (Keep.rfl' _)
    obtain ⟨x, hx⟩ := coreEnter_core (s.issuing e) e.engine { e with st := .issued, issuedAt := s.clk.now } d
    have hldr : (s.issuing e).ldr = s.ldr := (issuing_keep s e).part .ldr
    rw [issuing_item, hldr] at hx
    refine ⟨_, hexec, ?_, ?_, ?_, ?_, ?_, ?_, ?_⟩
    · rw [hx]
    · rw [hx]
    · rw [hx]
    · rw [hx]
    · rw [hx]
    · rw [hkeep.part .flit, issuing_entries]
    · exact ((issuing_keep s e).mono (within_of (by decide))).trans (hkeep.mono (within_of (by decide)))
  case newel =>
    have hexec := (exec_stageIssue_of_engine unit hnext hcause hdef).trans
      (congrArg Host.Outcome.next ((if_neg (Nat.not_lt.2 hge)).trans (if_pos hlt)))
    have hkeep := newelEnter_keep (s.issuing e) (e.engine - 32) { e with st := .issued, issuedAt := s.clk.now } d
      (fs := [.od, .host, .trc, .newels]) (Keep.rfl' _)
    refine ⟨_, hexec, newelEnter_sealed .., newelEnter_args .., ?_, ?_⟩
    · rw [hkeep.part .flit, issuing_entries]
    · exact ((issuing_keep s e).mono (within_of (by decide))).trans (hkeep.mono (within_of (by decide)))
  case decoder =>
    refine (exec_stageIssue_of_engine unit hnext hcause hdef).trans (congrArg Host.Outcome.next ?_)
    rw [if_neg (by omega), if_neg (by omega), if_pos hlt]
  case encoder =>
    refine (exec_stageIssue_of_engine unit hnext hcause hdef).trans (congrArg Host.Outcome.next ?_)
    rw [if_neg (by omega), if_neg (by omega), if_neg (by omega), if_pos heq]
  case scaler =>
    refine (exec_stageIssue_of_engine unit hnext hcause hdef).trans (congrArg Host.Outcome.next ?_)
    rw [if_neg (by omega), if_neg (by omega), if_neg (by omega), if_neg (by omega)]
  case engineEnd =>
    change execStageComplete a r s = _
    unfold execStageComplete
    simp only [hended]
  case firmwareEnd =>
    have hfind : s.flit.entries.find? (fun e => e.st = .ended && e.engine = a.val) = none :=
      List.find?_eq_none.2 (fun x hx => by simpa using hnone x hx)
    change execStageComplete a r s = _
    unfold execStageComplete
    simp only [hfind, he]
    exact congrArg Host.Outcome.next (if_pos ⟨hge, hlt, by simp [hrunning], by simp [hparked]⟩)
  case overrun =>
    change execBgQuantumExpiry a s = _
    unfold execBgQuantumExpiry
    simp only [he]
    exact congrArg Host.Outcome.next (if_neg (by simp [hbg, hlong]))
  case within =>
    change execBgQuantumExpiry a s = _
    unfold execBgQuantumExpiry
    simp only [he]
    refine congrArg Host.Outcome.next (if_pos ?_)
    rcases hshort with hbg | htime
    · simp [hbg]
    · exact .inr htime

/-! ### The end of a stop -/

/-- A machine in which an engine still lets go of slot 0, whose item has left it. -/
def lettingGo : State := { State.reset with flit := { State.reset.flit with letting := [(0, 0)] } }

/-- Refutes O33: its last clause has `itemStopDone` change nothing on a slot whose item is not STOPPING, but the command
forgets the engines that let go of the slot before it looks at the item. `lettingGo` is such a state. -/
theorem not_itemsStopAtTheirFirstCause : ¬ Obligations.ItemsStopAtTheirFirstCause := by
  rintro ⟨-, -, -, hstays⟩
  have hclaim := hstays 0 lettingGo (by decide)
  have hmodel : exec (.itemStopDone 0) lettingGo = .next { lettingGo with flit := { lettingGo.flit with letting := [] } } := rfl
  rw [hmodel] at hclaim
  have hletting := congrArg (fun t : State => t.flit.letting) (Host.Outcome.next.inj hclaim)
  exact absurd hletting (by decide)

end Sys2Proof.Machine
end

section
/-!
Doorbells, the fetch and the check of descriptors, and completion records (R152 to R206, Tables HOST-4, HOST-8, HOST-9).
-/

set_option Elab.async false

namespace Sys2Proof.Machine

/-! ### Doorbells -/

section Doorbells

variable {t : Fin 16} {v : BitVec 32} {whole : Bool} {s : State}

theorem exec_sqTail_sound (hlive : s.barLive = true) (hst : (s.tenancy t.val).st = .active)
    (htail : v.toNat % 2 ^ 16 < (s.tenancy t.val).sqSize) :
    exec (.sqTail t v true) s = .next (s.setTenancy t.val { s.tenancy t.val with sqTail := v.toNat % 2 ^ 16 }) :=
  congrArg Host.Outcome.next ((if_neg (by rw [hlive]; decide)).trans (if_neg (by simp only [hst, Nat.not_le.2 htail]; simp)))

theorem exec_sqTail_unsound (hlive : s.barLive = true)
    (hbad : whole = false ∨ (s.tenancy t.val).st ≠ .active ∨ (s.tenancy t.val).sqSize ≤ v.toNat % 2 ^ 16) :
    exec (.sqTail t v whole) s = .next (s.doorbellError t.val) :=
  congrArg Host.Outcome.next ((if_neg (by rw [hlive]; decide)).trans (if_pos (by simpa using hbad)))

theorem exec_cqHead_sound (hlive : s.barLive = true) (hst : (s.tenancy t.val).st = .active)
    (hhead : v.toNat % 2 ^ 16 < (s.tenancy t.val).cqSize)
    (hheld : (v.toNat % 2 ^ 16 + (s.tenancy t.val).cqSize - (s.tenancy t.val).cqHead) % (s.tenancy t.val).cqSize
      ≤ (s.tenancy t.val).cqUsed) :
    exec (.cqHead t v true) s = .next (s.setTenancy t.val { s.tenancy t.val with
      cqHead := v.toNat % 2 ^ 16
      cqUsed := (s.tenancy t.val).cqUsed -
        (v.toNat % 2 ^ 16 + (s.tenancy t.val).cqSize - (s.tenancy t.val).cqHead) % (s.tenancy t.val).cqSize }) :=
  congrArg Host.Outcome.next ((if_neg (by rw [hlive]; decide)).trans
    (if_neg (by simp only [hst, Nat.not_le.2 hhead, Nat.not_lt.2 hheld]; simp)))

theorem exec_cqHead_unsound (hlive : s.barLive = true)
    (hbad : whole = false ∨ (s.tenancy t.val).st ≠ .active ∨ (s.tenancy t.val).cqSize ≤ v.toNat % 2 ^ 16 ∨
      (s.tenancy t.val).cqUsed <
        (v.toNat % 2 ^ 16 + (s.tenancy t.val).cqSize - (s.tenancy t.val).cqHead) % (s.tenancy t.val).cqSize) :
    exec (.cqHead t v whole) s = .next (s.doorbellError t.val) :=
  congrArg Host.Outcome.next ((if_neg (by rw [hlive]; decide)).trans
    (if_pos (hbad.imp_left (by rintro rfl; decide))))

end Doorbells

theorem pageByte_sqTail (u : State) (t : Fin 16) {j : Nat} (hj : j < 4) :
    u.pageByte t (0x1000 + j) = BitVec.ofNat 8 ((u.tenancy t.val).sqTail / 2 ^ (8 * j)) := by
  unfold State.pageByte
  rw [if_neg (by omega), if_pos (by omega)]
  unfold regByte
  rw [show (0x1000 + j) % 4 = j by omega]

theorem pageByte_cqHead (u : State) (t : Fin 16) {j : Nat} (hj : j < 4) :
    u.pageByte t (0x1008 + j) = BitVec.ofNat 8 ((u.tenancy t.val).cqHead / 2 ^ (8 * j)) := by
  unfold State.pageByte
  rw [if_neg (by omega), if_neg (by omega), if_pos (by omega)]
  unfold regByte
  rw [show (0x1008 + j) % 4 = j by omega]

/-- Settles O34: the sound and the other doorbells, the delayed signal, and a read in a reset. -/
theorem doorbellsMoveTheRings : Obligations.DoorbellsMoveTheRings := by
  refine ⟨fun t v s hlive hst htail => ?tail, fun t v s hlive hst => ?head, fun t v whole s hlive => ⟨fun hbad => ?badTail, fun hbad => ?badHead⟩,
    fun t s hcount hdelay htime => ?delay, fun b off s hreset => if_pos hreset⟩
  case tail =>
    refine ⟨_, exec_sqTail_sound hlive hst htail, tenancy_setTenancy_same .., fun j hj => ?_,
      fun k hk => tenancy_setTenancy_ne s hk _, rfl, setTenancy_keep _ _ _ (Keep.rfl' s)⟩
    rw [pageByte_sqTail _ _ hj, tenancy_setTenancy_same]
  case head =>
    intro x head n hhead hheld
    refine ⟨_, exec_cqHead_sound hlive hst hhead hheld, tenancy_setTenancy_same .., fun j hj => ?_,
      fun k hk => tenancy_setTenancy_ne s hk _, rfl, setTenancy_keep _ _ _ (Keep.rfl' s)⟩
    rw [pageByte_cqHead _ _ hj, tenancy_setTenancy_same]
  case badTail => exact exec_sqTail_unsound hlive hbad
  case badHead => exact exec_cqHead_unsound hlive hbad
  case delay =>
    refine ⟨_, congrArg Host.Outcome.next (if_neg ?_), rfl⟩
    unfold usEdges
    omega

/-! ### The fetch -/

theorem fetchable_bounds {s : State} {t : Nat} (h : s.fetchable t ≠ 0) :
    let x := s.tenancy t
    let held := s.slotsHeld t + x.inFlight
    x.st = .active ∧ x.fetching.length < 4 ∧ s.fetchable t ≤ 16 ∧
    x.inFlight + s.fetchable t ≤ (x.sqTail + x.sqSize - x.sqHead) % x.sqSize ∧
    held + s.fetchable t ≤ s.rd (OD.SLOT_LIMIT t) ∧
    s.slotsInUse + s.allInFlight + s.fetchable t ≤ 1024 ∧ x.cqUsed + held + s.fetchable t ≤ x.cqSize := by
  intro x held
  by_cases hblocked : x.st ≠ .active ∨ 4 ≤ x.fetching.length
  · exact absurd (if_pos hblocked) h
  · have hfetch : s.fetchable t = min (min 16 ((x.sqTail + x.sqSize - x.sqHead) % x.sqSize - x.inFlight))
        (min (s.rd (OD.SLOT_LIMIT t) - held) (min (1024 - (s.slotsInUse + s.allInFlight)) (x.cqSize - x.cqUsed - held))) :=
      if_neg hblocked
    obtain ⟨hst, hlength⟩ := not_or.1 hblocked
    refine ⟨not_not.1 hst, Nat.not_le.1 hlength, ?_, ?_, ?_, ?_, ?_⟩ <;> omega

theorem fetchOrder_find {s : State} {i : Nat} (hi : i < 16) (hfetch : s.fetchable ((s.host.rr + 1 + i) % 16) ≠ 0)
    (hbefore : ∀ j, j < i → s.fetchable ((s.host.rr + 1 + j) % 16) = 0) :
    s.fetchOrder.find? (fun t => s.fetchable t ≠ 0) = some ((s.host.rr + 1 + i) % 16) := by
  unfold State.fetchOrder
  rw [List.find?_map, Option.map_eq_some_iff]
  refine ⟨i, ?_, rfl⟩
  rw [List.find?_range_eq_some]
  refine ⟨by simpa using hfetch, List.mem_range.2 hi, fun j hj => ?_⟩
  simpa using hbefore j hj

/-- Settles O35: the bounds of a fetch, and whose turn it is. -/
theorem descriptorsAreFetchedInTurn : Obligations.DescriptorsAreFetchedInTurn := by
  refine ⟨fun s t => fetchable_bounds, fun s i hi hgoes => ?turn, fun s hnone => ?idle⟩
  case turn =>
    intro t hfetch hbefore
    let u := s.setTenancy t { s.tenancy t with fetching := (s.tenancy t).fetching ++ [s.fetchable t] }
    have hkeep : Keep [.host] s u := setTenancy_keep _ _ _ (Keep.rfl' s)
    refine ⟨{ u with host := { u.host with rr := t } }, ?_, rfl, tenancy_setTenancy_same .., fun k hk => tenancy_setTenancy_ne s hk _,
      hkeep.upd rfl rfl rfl rfl⟩
    change execDescriptorFetch s = _
    unfold execDescriptorFetch
    simp only [fetchOrder_find hi hfetch hbefore, hgoes, if_true]
    rfl
  case idle =>
    have hfind : s.fetchOrder.find? (fun t => s.fetchable t ≠ 0) = none := by
      refine List.find?_eq_none.2 (fun t ht => ?_)
      obtain ⟨i, -, rfl⟩ := List.mem_map.1 ht
      simpa using hnone _ (Nat.mod_lt _ (by decide))
    change execDescriptorFetch s = _
    unfold execDescriptorFetch
    simp only [hfind]

/-! ### The check of a descriptor -/

theorem badReason_poisoned (s : State) (t : Nat) (d : List Byte) : s.badReason t true d = 7 := rfl

theorem slotsHeld_pos {s : State} {t i : Nat} (hst : (s.item i).st ≠ .free) (hten : (s.item i).ten = t) : s.slotsHeld t ≠ 0 := by
  have hmem : (i, s.item i) ∈ s.flit.slots := by
    refine Sparse.mem_of_get _ _ i (fun hfree => hst ?_)
    have hitem : s.item i = {} := hfree
    rw [hitem]
  unfold State.slotsHeld
  refine Nat.ne_of_gt (List.length_pos_of_mem (a := (i, s.item i)) (List.mem_filter.2 ⟨hmem, ?_⟩))
  simp [hst, hten]

theorem tenSettle_of_held {s : State} {t i : Nat} (hst : (s.item i).st ≠ .free) (hten : (s.item i).ten = t) :
    s.tenSettle t = s := by
  unfold State.tenSettle
  exact if_neg (fun h => slotsHeld_pos hst hten h.2.1)

/-- The mirror entry that the fault unit keeps of an item (R1019). -/
def State.mirrorOf (s : State) (it : Item) : Mirror := ⟨it.tag, it.ten, s.tick.epoch.toNat, b2n it.bg + 2⟩

/-- Slot `i` once its item waits, with its mirror entry. -/
def State.slotQueued (s : State) (i : Nat) (it : Item) : State :=
  ((s.setItem i it).setMirror i (some (s.mirrorOf it))).setItem i { it with st := .queued }

/-- Where an admitted descriptor leaves the machine. -/
def State.queueItem (s : State) (i : Nat) (it : Item) : State :=
  { s.slotQueued i it with flit := { (s.slotQueued i it).flit with admission := (s.slotQueued i it).flit.admission ++ [i] } }

theorem placeItem_sound (s : State) (i : Nat) (it : Item) : s.placeItem i 0 false it = s.queueItem i it := rfl

theorem slotQueued_item (s : State) (i : Nat) (it : Item) :
    (s.slotQueued i it).item i = { it with st := .queued } ∧ (∀ j, j ≠ i → (s.slotQueued i it).item j = s.item j) := by
  unfold State.slotQueued
  refine ⟨item_setItem_same .., fun j hj => ?_⟩
  rw [item_setItem_ne _ hj]
  exact item_setItem_ne s hj it

theorem queueItem_facts (s : State) (i : Nat) (it : Item) :
    (s.queueItem i it).item i = { it with st := .queued } ∧ (∀ j, j ≠ i → (s.queueItem i it).item j = s.item j) ∧
    (s.queueItem i it).flit.admission = s.flit.admission ++ [i] ∧ (s.queueItem i it).flit.entries = s.flit.entries ∧
    Sparse.get (fun _ => none) (s.queueItem i it).falt.mirror i = some (s.mirrorOf it) ∧
    (s.queueItem i it).host = s.host ∧ Keep [.flit, .falt] s (s.queueItem i it) := by
  have hkeep : Keep [.flit, .falt] s (s.slotQueued i it) :=
    setItem_keep _ _ _ (setMirror_keep _ _ _ (setItem_keep _ _ _ (Keep.rfl' s)))
  obtain ⟨hitem, hitems⟩ := slotQueued_item s i it
  have hmirror : Sparse.get (fun _ => none) (s.slotQueued i it).falt.mirror i = some (s.mirrorOf it) :=
    Sparse.get_put_same (fun _ => none) s.falt.mirror i (some (s.mirrorOf it))
  have hslots (j : Nat) : (s.queueItem i it).item j = (s.slotQueued i it).item j := item_of rfl j
  have hall : Keep [.flit, .falt] s (s.queueItem i it) := hkeep.upd rfl rfl rfl rfl
  exact ⟨(hslots i).trans hitem, fun j hj => (hslots j).trans (hitems j hj), rfl, rfl, hmirror, hall.part .host, hall⟩

theorem placeItem_bad (s : State) (i : Nat) {reason : Nat} (nop : Bool) (it : Item) (hreason : reason ≠ 0) :
    s.placeItem i reason nop it = State.closePlain
      (((((s.setItem i it).setMirror i (some ⟨it.tag, it.ten, s.tick.epoch.toNat, b2n it.bg + 2⟩)).bump
        (OD.BAD_DESCRIPTORS it.ten)).signalTen it.ten 1).setItem i
          { it with st := .closing, status := Status.badDescriptor, detail := reason }) i :=
  if_pos hreason

theorem placeItem_nop (s : State) (i : Nat) (it : Item) :
    s.placeItem i 0 true it = State.closePlain
      (((s.setItem i it).setMirror i (some ⟨it.tag, it.ten, s.tick.epoch.toNat, b2n it.bg + 2⟩)).setItem i
        { it with st := .closing, status := Status.ok }) i :=
  rfl

/-- Settles O36: `check_form` at each outcome of `placeItem`. -/
theorem descriptorsAreChecked : Obligations.DescriptorsAreChecked := by
  refine ⟨fun t r s hst hfetching hgoes hfailed => ?failed, fun t w s i => ?sound, fun t r s i => ?closed⟩
  case failed =>
    refine congrArg Host.Outcome.next ((if_neg ?_).trans (if_pos hfailed))
    rintro (hidle | hempty | hstopped)
    · exact act_or hst (by simpa using hidle)
    · exact hfetching hempty
    · rw [hgoes] at hstopped
      cases hstopped
  case sound =>
    intro x d hst hfetching hgoes hread hslot hgood hkind
    have hform := check_form t (.data w) s i hst hfetching hgoes hread hslot
    let v := s.setTenancy t.val x.arrive
    let it := itemOf t.val s.clk.now d
    have hplace : v.placeItem i (s.badReason t.val false d) (decide (fieldAt d 0 1 = 3)) it = v.queueItem i it := by
      rw [hgood, decide_eq_false hkind, placeItem_sound]
    obtain ⟨hitem, hitems, hadmission, hentries, hmirror, hhost, hkeep⟩ := queueItem_facts v i it
    have hsettle : (v.queueItem i it).tenSettle t.val = v.queueItem i it :=
      tenSettle_of_held (i := i) (by rw [hitem]; simp) (by rw [hitem]; rfl)
    have htenancy (k : Nat) : (v.queueItem i it).tenancy k = v.tenancy k := by
      unfold State.tenancy
      rw [hhost]
    refine ⟨v.queueItem i it, ?_, hitem, hitems, hadmission, hentries, hmirror, ?_, ?_, fun k hk => ?_, ?_⟩
    · refine hform.trans (congrArg Host.Outcome.next (Eq.trans ?_ hsettle))
      exact congrArg (fun z : State => z.tenSettle t.val) hplace
    · rw [htenancy, tenancy_setTenancy_same]
      rfl
    · rw [htenancy, tenancy_setTenancy_same]
      rfl
    · rw [htenancy, tenancy_setTenancy_ne _ hk]
    · have hv : Keep [.host] s v := setTenancy_keep _ _ _ (Keep.rfl' s)
      exact (hv.mono (within_of (by decide))).trans (hkeep.mono (within_of (by decide)))
  case closed =>
    intro x d reason it v u hst hfetching hgoes hread hslot
    have hform := check_form t r s i hst hfetching hgoes hread hslot
    have hreason : v.badReason t.val (r = .poisoned) d = reason := by
      by_cases hr : r = .poisoned
      · simp only [v, reason, hr, decide_true, badReason_poisoned]
      · simp only [v, reason, hr, if_false]
    have hnow : v.clk.now = s.clk.now := by
      dsimp only [v]
      split <;> rfl
    have hepoch : (v.setTenancy t.val x.arrive).tick.epoch = s.tick.epoch := by
      dsimp only [v]
      split <;> rfl
    have hplaced : exec (.descriptorCheck t r) s = .next
        (((v.setTenancy t.val x.arrive).placeItem i reason (fieldAt d 0 1 = 3) it).tenSettle t.val) := by
      rw [hform, ← hreason]
      dsimp only [it]
      rw [← hnow]
    refine ⟨fun hbad => ?_, fun hgood hnop => ?_⟩
    · rw [hplaced, placeItem_bad _ _ _ _ hbad, hepoch]
      rfl
    · rw [hplaced, hgood, decide_eq_true hnop, placeItem_nop, hepoch]
      rfl

/-! ### Completion records -/

theorem recordsGo_of {s : State} {t : Nat} (hst : (s.tenancy t).st = .active ∨ (s.tenancy t).st = .draining)
    (hlink : s.linkUp = true) (hbme : s.host.pf1.bme = true) (hon : s.powered 26 = true) : s.recordsGo t = true := by
  unfold State.recordsGo
  rcases hst with hst | hst <;> simp [hst, hlink, hbme, hon]

/-- What counting a record leaves: the ring as it was, and the count of the records that no signal has told of. -/
theorem countRecord_facts (s : State) (t : Nat) (now : Bool) :
    ((s.countRecord t now).tenancy t).ring = (s.tenancy t).ring ∧
    ((s.countRecord t now).tenancy t).unsignalled =
      (if now ∨ s.rd (OD.CQ_IRQ_COUNT t) ≤ (s.tenancy t).unsignalled + 1 then 0 else (s.tenancy t).unsignalled + 1) ∧
    (∀ k, k ≠ t → (s.countRecord t now).tenancy k = s.tenancy k) ∧
    (∀ b, (s.countRecord t now).hostByte b = s.hostByte b) := by
  have hcond : (now || decide (s.rd (OD.CQ_IRQ_COUNT t) ≤ (s.tenancy t).unsignalled + 1)) = true ↔
      now = true ∨ s.rd (OD.CQ_IRQ_COUNT t) ≤ (s.tenancy t).unsignalled + 1 := by simp
  unfold State.countRecord
  dsimp only
  split
  next hsignal =>
    rw [if_pos (hcond.1 hsignal)]
    unfold State.signalTen
    refine ⟨?_, ?_, fun k hk => ?_, fun b => signal_hostByte ..⟩
    · rw [signal_tenancy, tenancy_setTenancy_same]
      rfl
    · rw [signal_tenancy, tenancy_setTenancy_same]
    · rw [signal_tenancy, tenancy_setTenancy_ne _ hk]
  next hwait =>
    rw [if_neg (fun h => hwait (hcond.2 h))]
    refine ⟨?_, ?_, fun k hk => tenancy_setTenancy_ne s hk _, fun _ => rfl⟩
    · rw [tenancy_setTenancy_same]
      rfl
    · rw [tenancy_setTenancy_same]

theorem setHostBytes_tenancy (s : State) (a : Nat) (bs : List Byte) (t : Nat) : (s.setHostBytes a bs).tenancy t = s.tenancy t := by
  unfold State.tenancy
  rw [setHostBytes_rest]

theorem setHostBytes_rd (s : State) (a : Nat) (bs : List Byte) (k : Nat) : (s.setHostBytes a bs).rd k = s.rd k := by
  rw [setHostBytes_rest]
  rfl

/-- A record of 32 bytes at `a` in the ring of `t`, whose fields the write moves to those of `y`. -/
def State.recorded (s : State) (t a : Nat) (bs : List Byte) (y : Tenancy) (now : Bool) : State :=
  ((s.setHostBytes a bs).setTenancy t y).countRecord t now

theorem recorded_facts (s : State) (t a : Nat) {bs : List Byte} (hlength : bs.length = 32) (y : Tenancy) (now : Bool) :
    (∀ b, (s.recorded t a bs y now).hostByte b = if a ≤ b ∧ b < a + 32 then bs.getD (b - a) 0#8 else s.hostByte b) ∧
    ((s.recorded t a bs y now).tenancy t).ring = y.ring ∧
    ((s.recorded t a bs y now).tenancy t).unsignalled =
      (if now ∨ s.rd (OD.CQ_IRQ_COUNT t) ≤ y.unsignalled + 1 then 0 else y.unsignalled + 1) ∧
    (∀ k, k ≠ t → (s.recorded t a bs y now).tenancy k = s.tenancy k) ∧ Keep [.host, .hostMem] s (s.recorded t a bs y now) := by
  obtain ⟨hring, hcount, hothers, hbytes⟩ := countRecord_facts ((s.setHostBytes a bs).setTenancy t y) t now
  rw [tenancy_setTenancy_same] at hring hcount
  refine ⟨fun b => ?_, hring, ?_, fun k hk => ?_,
    countRecord_keep _ _ _ (setTenancy_keep _ _ _ (setHostBytes_keep s a bs (Keep.rfl' s)))⟩
  · rw [← hlength]
    exact (hbytes b).trans (setHostBytes_byte s a bs b)
  · rw [← setHostBytes_rd s a bs]
    exact hcount
  · rw [← setHostBytes_tenancy s a bs, ← tenancy_setTenancy_ne (s.setHostBytes a bs) hk y]
    exact hothers k hk

/-- Settles O37: one write at the tail, then the count of the signal, and the two records that are not written. -/
theorem recordsAreWrittenToTheRing : Obligations.RecordsAreWrittenToTheRing := by
  refine ⟨fun s i plain => ?written, fun s i plain => ⟨fun hblocked => ?unsent, fun hst hlink hbme hon hrange => ?failed⟩⟩
  case written =>
    intro it x a hst hlink hbme hon hrange
    let y : Tenancy := { x with
      cqTail := (x.cqTail + 1) % x.cqSize, cqUsed := x.cqUsed + 1
      phase := if (x.cqTail + 1) % x.cqSize = 0 then !x.phase else x.phase }
    obtain ⟨bs, hbs⟩ : ∃ bs, bs = recordBytes it.tag it.status
      (b2n x.phase + 2 * b2n (it.status = Status.late && s.tick.lastSynth) + 4 * b2n it.bg)
      (if plain then 0xFFFF else i) (if plain then s.tick.epoch.toNat else it.epoch.toNat)
      (if plain then 0 else min (it.fixedAt - it.began) 0xFFFFFFFF) (it.outBytes % 2 ^ 32) it.faultStage it.faultAgent
      x.sqHead it.detail := ⟨_, rfl⟩
    have hlength : bs.length = 32 := by
      rw [hbs]
      exact recordBytes_length ..
    have hrecord : s.writeRecord i plain = (.written, s.recorded it.ten a bs y it.irqNow) := by
      rw [hbs]
      refine (if_neg (by rw [recordsGo_of hst hlink hbme hon]; decide)).trans (if_neg ?_)
      dsimp only [a, x, it] at hrange
      rw [hrange]
      decide
    obtain ⟨hbytes, hring, hcount, hothers, hkeep⟩ := recorded_facts s it.ten a hlength y it.irqNow
    refine ⟨_, hrecord, fun j hj => ?_, fun b hb => ?_, hring, hcount, hothers, hkeep⟩
    · rw [hbytes, if_pos (by omega), Nat.add_sub_cancel_left, hbs]
    · rw [hbytes, if_neg (by omega)]
  case unsent =>
    refine if_pos ?_
    unfold State.recordsGo
    rcases hblocked with ⟨hactive, hdraining⟩ | h | h | h
    · simp [hactive, hdraining]
    · simp [h]
    · simp [h]
    · simp [h]
  case failed =>
    exact (if_neg (by rw [recordsGo_of hst hlink hbme hon]; decide)).trans (if_pos (Option.isSome_iff_ne_none.2 hrange))

end Sys2Proof.Machine
end

section
/-!
The image loader and the tile plans (spec/07, Tables LOAD-7 and LOAD-10; obligation O39).
-/

set_option Elab.async false

namespace Sys2Proof.Machine

/-! ### The steps of a load -/

/-- A load step that goes on keeps the load it answers, and one that fails ends it. -/
theorem loadStep_ok {s u : State} {r r1 : LoadRun} (hrun : s.ldr.run = some r)
    {f : LoadRun → State → Except LoadFail Unit × LoadRun × State} (hf : f r s = (.ok (), r1, u)) :
    s.loadStep f = u.setLoad (some r1) := by
  unfold State.loadStep
  simp only [hrun, hf]

theorem loadStep_error {s u : State} {r r1 : LoadRun} {e : LoadFail} (hrun : s.ldr.run = some r)
    {f : LoadRun → State → Except LoadFail Unit × LoadRun × State} (hf : f r s = (.error e, r1, u)) :
    s.loadStep f = u.loadEnd r1 e := by
  unfold State.loadStep
  simp only [hrun, hf]

/-- The first check of the header that fails ends the reading of the tables. -/
theorem loadTables_headerFail {r r1 : LoadRun} {h : List Byte} {s u : State} {f : LoadFail}
    (hread : s.loadRead 128 r 0 [] = (.ok h, r1, u)) (hfail : headerFail h r1.length = some f) :
    loadTables r s = (.error f, r1, u) := by
  unfold loadTables
  simp only [hread, hfail]

theorem loadSection_read {r r1 : LoadRun} {x : SectionDef} {bs : List Byte} {s u : State} (htables : r.tables = true)
    (hsection : r.img.sections[r.next]? = some x) (hread : s.loadRead x.fileLen r x.fileOff [] = (.ok bs, r1, u)) :
    (u.loadUnpowered r1.gbase r1.gsize r1.cores = true → loadSection r s = (.error (0xA, 0xFFFFFFFF), r1, u)) ∧
    (u.loadUnpowered r1.gbase r1.gsize r1.cores = false → ∀ v,
      (u.loadWrite (fitBytes x.destLen bs) (r1.dests x) = (false, v) → loadSection r s = (.error (0xA, 0xFFFFFFFF), r1, v)) ∧
      (u.loadWrite (fitBytes x.destLen bs) (r1.dests x) = (true, v) → loadSection r s =
        if crc32c bs = x.crc then (.ok (), { r1 with next := r1.next + 1 }, v) else (.error (0xF, x.fileOff), r1, v))) := by
  unfold loadSection
  simp only [htables, hsection, hread]
  refine ⟨fun hoff => if_pos hoff, fun hon v => ⟨fun hw => ?_, fun hw => ?_⟩⟩
  · simp only [hon, hw, Bool.false_eq_true, if_false]
  · simp only [hon, hw, Bool.false_eq_true, if_false, ne_eq, ite_not]

/-- A write of a section's bytes at its first destination, and the others after it (R310). -/
theorem loadWrite_cons_stored {s : State} {bs : List Byte} {a : Nat} (rest : List Nat)
    (hmem : s.isMem { agent := 67, ctx := none } true a bs.length) (hwritable : s.writable { agent := 67, ctx := none } a bs.length) :
    ∃ t, s.Stored t a bs ∧ s.loadWrite bs (a :: rest) = t.loadWrite bs rest := by
  obtain ⟨t, hwrite, hstored⟩ := memWrite_mem { agent := 67, ctx := none } s a bs hmem hwritable
  refine ⟨t, hstored, ?_⟩
  rw [State.loadWrite, hwrite]
  rfl

/-- The signature's check, once the rest of the image is read (R304, R927). -/
theorem loadSign_read {r r1 : LoadRun} {bs : List Byte} {s u : State} (hrun : s.ldr.run = some r) (htables : r.tables = true)
    (hall : r.img.sections.length ≤ r.next) (hread : s.loadRead (r.sigOff + 128) r 0 [] = (.ok bs, r1, u)) :
    s.loadSign =
      if u.loadUnpowered r1.gbase r1.gsize r1.cores then u.loadEnd r1 (0xA, 0xFFFFFFFF)
      else if u.verifies r1.key (bs.take r1.sigOff) (bs.drop r1.sigOff) then u.loadOk r1 bs
      else ((u.bump OD.SIG_FAILS).record FaultClass.corrected 67 1 OD.SIG_FAILS 0 r1.slot).loadEnd r1 (0x10, r1.sigOff) := by
  have hready : ¬((!r.tables) = true ∨ r.next < r.img.sections.length) := by simp [htables, hall]
  unfold State.loadSign
  simp only [hrun]
  rw [if_neg hready]
  simp only [hread]

/-! ### How a load ends -/

theorem loadEnd_result {r : LoadRun} (f : LoadFail) (u : State) (hslot : r.slot < 16) :
    (u.loadEnd r f).rd OD.LOADS_FAILED = min (u.rd OD.LOADS_FAILED + 1) 0xFFFFFFFF ∧
      (u.loadEnd r f).rd (OD.IMG_STATE r.slot) = 0 ∧ (u.loadEnd r f).host = (u.signal false 5).host := by
  have hfree (k : Nat) (hk : k < 0x421000) : ((u.setLoad none).imgAbsent r.slot).rd k = u.rd k :=
    (imgAbsent_rd _ _ _ (Or.inl hk)).trans (setLoad_rd _ _ _)
  have hdom (i : Nat) : OD.IMG_STATE i ≠ OD.LOAD_STATE ∧ OD.IMG_STATE i ≠ OD.LOADS_FAILED ∧
      OD.IMG_STATE i ≠ OD.LOAD_FAIL_OFFSET ∧ OD.IMG_STATE i ≠ OD.LOAD_RESULT := by
    refine ⟨?_, ?_, ?_, ?_⟩ <;> simp only [OD.IMG_STATE, OD.LOAD_STATE, OD.LOADS_FAILED, OD.LOAD_FAIL_OFFSET, OD.LOAD_RESULT] <;> omega
  obtain ⟨hstate, hfailed, hoffset, hresult⟩ := hdom r.slot
  unfold State.loadEnd
  refine ⟨?_, ?_, ?_⟩
  · rw [signal_rd, rd_wr_ne _ (by decide), rd_bump, if_pos rfl, rd_wr_ne _ (by decide), rd_wr_ne _ (by decide), hfree _ (by decide)]
  · rw [signal_rd, rd_wr_ne _ hstate, rd_bump, if_neg hfailed, rd_wr_ne _ hoffset, rd_wr_ne _ hresult,
      imgAbsent_state _ _ hslot]
  · refine signal_host _ _ _ _ rfl ?_ ?_
    · rw [rd_wr_ne _ (by decide), rd_bump, if_neg (by decide), rd_wr_ne _ (by decide), rd_wr_ne _ (by decide), hfree _ (by decide)]
    · rw [rd_wr_ne _ (by decide), rd_bump, if_neg (by decide), rd_wr_ne _ (by decide), rd_wr_ne _ (by decide), hfree _ (by decide)]

/-- The objects of its slot that a verified image's record writes, in the order written (R314). -/
def State.imageRecord (s : State) (r : LoadRun) (epoch : Nat) : State :=
  let i := r.slot
  let s := (s.wr (OD.IMG_GALLERY_BASE i) r.gbase).wr (OD.IMG_GALLERY_SIZE i) r.gsize
  let s := (s.wr (OD.IMG_ALCOVE_BASE i) r.abase).wr (OD.IMG_ALCOVE_SIZE i) r.asize
  let s := (s.wr (OD.IMG_CORES i) r.cores).wr (OD.IMG_KEY_SLOT i) r.key
  (s.wr (OD.IMG_LOAD_EPOCH i) epoch).wr (OD.IMG_STATE i) 2

/-- The record's objects read its values, and the objects below the images' stay. -/
structure RecordRead (r : LoadRun) (epoch : Nat) (t : State) : Prop where
  state : t.rd (OD.IMG_STATE r.slot) = 2
  epoch : t.rd (OD.IMG_LOAD_EPOCH r.slot) = epoch
  gbase : t.rd (OD.IMG_GALLERY_BASE r.slot) = r.gbase
  gsize : t.rd (OD.IMG_GALLERY_SIZE r.slot) = r.gsize
  abase : t.rd (OD.IMG_ALCOVE_BASE r.slot) = r.abase
  asize : t.rd (OD.IMG_ALCOVE_SIZE r.slot) = r.asize
  cores : t.rd (OD.IMG_CORES r.slot) = r.cores
  key : t.rd (OD.IMG_KEY_SLOT r.slot) = r.key

theorem imageRecord_read (s : State) (r : LoadRun) (epoch : Nat) : RecordRead r epoch (s.imageRecord r epoch) := by
  unfold State.imageRecord
  constructor <;>
    simp [OD.IMG_STATE, OD.IMG_LOAD_EPOCH, OD.IMG_GALLERY_BASE, OD.IMG_GALLERY_SIZE, OD.IMG_ALCOVE_BASE, OD.IMG_ALCOVE_SIZE,
      OD.IMG_CORES, OD.IMG_KEY_SLOT]

theorem imageRecord_rd_below (s : State) (r : LoadRun) (epoch : Nat) {k : Nat} (hk : k < 0x421000) :
    (s.imageRecord r epoch).rd k = s.rd k := by
  have hne {j : Nat} (hj : 0x421000 ≤ j) : k ≠ j + 256 * r.slot := by omega
  unfold State.imageRecord
  dsimp only
  rw [rd_wr_ne _ (hne (by decide)), rd_wr_ne _ (hne (by decide)), rd_wr_ne _ (hne (by decide)), rd_wr_ne _ (hne (by decide)),
    rd_wr_ne _ (hne (by decide)), rd_wr_ne _ (hne (by decide)), rd_wr_ne _ (hne (by decide)), rd_wr_ne _ (hne (by decide))]

theorem imageRecord_keep (s : State) (r : LoadRun) (epoch : Nat) : Keep [.od] s (s.imageRecord r epoch) :=
  ((((((((Keep.rfl' s).wr _ _).wr _ _).wr _ _).wr _ _).wr _ _).wr _ _).wr _ _).wr _ _

/-- A write of an object below the images' leaves a record as it reads. -/
theorem RecordRead.wr {r : LoadRun} {epoch : Nat} {t : State} (h : RecordRead r epoch t) {k : Nat} (hk : k < 0x421000) (v : Nat) :
    RecordRead r epoch (t.wr k v) := by
  have hne {j : Nat} (hj : 0x421000 ≤ j) : j + 256 * r.slot ≠ k := by omega
  obtain ⟨hstate, hepoch, hgbase, hgsize, habase, hasize, hcores, hkey⟩ := h
  constructor <;> rw [rd_wr_ne _ (hne (by decide))] <;> assumption

/-- A verified image's record is written before the result, and the vector fires last. -/
theorem loadOk_record (r : LoadRun) (h : List Byte) (u : State) :
    ∃ v : State, u.loadOk r h =
        ((((v.imageRecord r u.tick.epoch.toNat).wr OD.LOAD_RESULT 1).wr OD.LOAD_FAIL_OFFSET 0xFFFFFFFF).wr OD.LOAD_STATE 0).signal false 5 ∧
      v.ldr.run = none ∧ v.ldr.ended = some (r.slot, u.clk.now) ∧ v.od = u.od ∧ v.mem = u.mem ∧ v.host = u.host :=
  ⟨_, rfl, rfl, rfl, rfl, rfl, rfl⟩

/-- A verified image is resident with the objects of its record (R314). -/
theorem loadOk_facts (r : LoadRun) (h : List Byte) (u : State) :
    let t := u.loadOk r h
    t.rd OD.LOAD_RESULT = 1 ∧ t.rd OD.LOAD_FAIL_OFFSET = 0xFFFFFFFF ∧ t.rd OD.LOAD_STATE = 0 ∧
    t.rd (OD.IMG_STATE r.slot) = 2 ∧ t.rd (OD.IMG_LOAD_EPOCH r.slot) = u.tick.epoch.toNat ∧
    t.rd (OD.IMG_GALLERY_BASE r.slot) = r.gbase ∧ t.rd (OD.IMG_GALLERY_SIZE r.slot) = r.gsize ∧
    t.rd (OD.IMG_ALCOVE_BASE r.slot) = r.abase ∧ t.rd (OD.IMG_ALCOVE_SIZE r.slot) = r.asize ∧
    t.rd (OD.IMG_CORES r.slot) = r.cores ∧ t.rd (OD.IMG_KEY_SLOT r.slot) = r.key ∧
    t.ldr.run = none ∧ t.ldr.ended = some (r.slot, u.clk.now) ∧ t.mem = u.mem ∧ t.host = (u.signal false 5).host := by
  obtain ⟨v, hv, hrun, hended, hod, hmem, hhost⟩ := loadOk_record r h u
  have hrecord := (((imageRecord_read v r u.tick.epoch.toNat).wr (k := OD.LOAD_RESULT) (by decide) 1).wr
    (k := OD.LOAD_FAIL_OFFSET) (by decide) 0xFFFFFFFF).wr (k := OD.LOAD_STATE) (by decide) 0
  obtain ⟨hstate, hepoch, hgbase, hgsize, habase, hasize, hcores, hkey⟩ := hrecord
  have hbelow {k : Nat} (hk : k < 0x421000) : (v.imageRecord r u.tick.epoch.toNat).rd k = u.rd k :=
    (imageRecord_rd_below v r _ hk).trans (rd_of_od hod k)
  have hkeep : Keep [.od] v ((((v.imageRecord r u.tick.epoch.toNat).wr OD.LOAD_RESULT 1).wr OD.LOAD_FAIL_OFFSET 0xFFFFFFFF).wr OD.LOAD_STATE 0) :=
    (((imageRecord_keep v r _).wr _ _).wr _ _).wr _ _
  have hldr := hkeep.part .ldr
  intro t
  have ht : t = _ := hv
  clear_value t
  subst ht
  simp only [signal_rd, signal_ldr]
  refine ⟨?_, ?_, rd_wr_same _ _ _, hstate, hepoch, hgbase, hgsize, habase, hasize, hcores, hkey,
    (congrArg Loader.run hldr).trans hrun, (congrArg Loader.ended hldr).trans hended,
    ((signal_keep _ false 5 (Keep.rfl' _)).part .mem).trans ((hkeep.part .mem).trans hmem),
    signal_host u _ false 5 ((hkeep.part .host).trans hhost) ?_ ?_⟩
  · rw [rd_wr_ne _ (by decide), rd_wr_ne _ (by decide), rd_wr_same]
  · rw [rd_wr_ne _ (by decide), rd_wr_same]
  · rw [rd_wr_ne _ (by decide), rd_wr_ne _ (by decide), rd_wr_ne _ (by decide), hbelow (by decide)]
  · rw [rd_wr_ne _ (by decide), rd_wr_ne _ (by decide), rd_wr_ne _ (by decide), hbelow (by decide)]

/-! ### Tile plans (R324 to R330, Table LOAD-10) -/

/-- The plan of a TILED stage cuts its rows into chunks that fit the array and the work area. -/
theorem makePlan_bounds {d : StageDef} {w i o : TensorDef} {shape : Nat} (hshape : shape ≠ 0) (hmax : d.maxShape ≠ 0)
    (hrows : d.rowsPerUnit ≠ 0) (hrow : tileRow (w.dims.getD 0 0) (w.dims.getD 1 0) (dtypeBits i.dtype) (dtypeBits o.dtype) ≠ 0)
    (hfits : tileRow (w.dims.getD 0 0) (w.dims.getD 1 0) (dtypeBits i.dtype) (dtypeBits o.dtype) ≤ d.workBytes) :
    let p := makePlan d w i o shape
    let row := tileRow (w.dims.getD 0 0) (w.dims.getD 1 0) (dtypeBits i.dtype) (dtypeBits o.dtype)
    let c := p.getD 1 0
    let base := p.getD 2 0
    let extra := p.getD 3 0
    let cap := p.getD 6 0
    p.getD 0 0 = min shape d.maxShape ∧ 1 ≤ cap ∧ cap ≤ 256 ∧ cap * row ≤ d.workBytes ∧
    base * c + extra = min shape d.maxShape * d.rowsPerUnit ∧ extra < c ∧ base ≤ cap ∧ (extra ≠ 0 → base + 1 ≤ cap) ∧
    (2 ≤ c → cap / 2 ≤ base) := by
  unfold makePlan
  rw [if_neg hshape]
  dsimp only [List.getD_cons_zero, List.getD_cons_succ]
  generalize tileRow (w.dims.getD 0 0) (w.dims.getD 1 0) (dtypeBits i.dtype) (dtypeBits o.dtype) = row at *
  have hmin : 1 ≤ min shape d.maxShape * d.rowsPerUnit := Nat.mul_pos (by omega) (by omega)
  have hfit : 1 ≤ d.workBytes / row := Nat.div_pos hfits (by omega)
  have hcap : 1 ≤ min 256 (d.workBytes / row) := by omega
  have hwork : min 256 (d.workBytes / row) * row ≤ d.workBytes :=
    (Nat.mul_le_mul_right row (Nat.min_le_right _ _)).trans (Nat.div_mul_le_self _ _)
  exact ⟨rfl, hcap, Nat.min_le_left _ _, hwork, plan_nat _ _ _ hcap hmin rfl⟩

/-- A plan beyond the stage's greatest shape is clamped, counted and recorded (R330). -/
theorem planClamped_facts (s u : State) (hod : u.od = s.od) (hkeep : Keep [.flit] s u) (addr inst : Nat) :
    let t := (u.bump OD.TILING_CLAMPS).record FaultClass.corrected 32 1 OD.TILING_CLAMPS addr inst
    t.flit = u.flit ∧ t.rd OD.TILING_CLAMPS = min (s.rd OD.TILING_CLAMPS + 1) 0xFFFFFFFF ∧
      t.rd (OD.CLASS_COUNTS 0) = min (s.rd (OD.CLASS_COUNTS 0) + 1) 0xFFFFFFFF ∧ Keep [.od, .host, .flit, .falt] s t := by
  have hrd : ∀ k, u.rd k = s.rd k := rd_of_od hod
  have hbump : Keep [.od, .host, .flit, .falt] s (u.bump OD.TILING_CLAMPS) :=
    bump_keep _ _ (hkeep.mono (within_of (by decide)))
  refine ⟨((record_keep (fs := [.od, .host, .falt]) _ _ _ _ _ _ _ (Keep.rfl' _)).part .flit).trans rfl, ?_, ?_, record_keep _ _ _ _ _ _ _ hbump⟩
  · rw [record_rd _ _ _ _ _ _ _ (by decide) (by decide), rd_bump, if_pos rfl, hrd]
  · have hcount := logFault_count (u.bump OD.TILING_CLAMPS) ⟨0, FaultClass.corrected, 32, 0, 1, OD.TILING_CLAMPS, 0xFF, addr, inst⟩
      (show OD.CLASS_COUNTS FaultClass.corrected ≠ OD.FAULTS_LOST by decide)
    refine hcount.trans ?_
    rw [rd_bump, if_neg (show OD.CLASS_COUNTS FaultClass.corrected ≠ OD.TILING_CLAMPS by decide), hrd]

theorem exec_tilePlan (slot : Fin 1024) (run : Byte) (stage : Fin 32) {d : StageDef} {w i o : TensorDef} {s : State}
    (hready : (s.item slot.val).st = .queued ∨ (s.item slot.val).st = .admitted ∨ (s.item slot.val).st = .running)
    (hserves : s.firmwareServes = true) (hrun : run.toNat < (s.item slot.val).runs)
    (hstage : stage.val < (s.stageWords (s.item slot.val)).length)
    (hnew : ∀ p ∈ (s.item slot.val).plans, p.1 ≠ 256 * run.toNat + stage.val)
    (hentry : (Sparse.get (fun _ => {}) s.ldr.images (s.item slot.val).image).stages[
      bits ((s.stageWords (s.item slot.val)).getD stage 0) 40 8]? = some d)
    (htiled : bit d.flags 1 = true)
    (htensors : d.tiledTensors (Sparse.get (fun _ => {}) s.ldr.images (s.item slot.val).image).tensors = some (w, i, o)) :
    let it := s.item slot.val
    let img := Sparse.get (fun _ => {}) s.ldr.images it.image
    let key := 256 * run.toNat + stage.val
    let entry := bits ((s.stageWords it).getD stage 0) 40 8
    let shape := it.shape run.toNat d.shapeSel
    let u := s.setItem slot { it with
      plans := keyedPut it.plans key (makePlan d w i o shape ++
        [b2n (Sparse.get (fun _ => false) it.shapeSealed (4 * run.toNat + d.shapeSel)), entry])
      planGen := if it.plans.isEmpty then img.gen else it.planGen }
    exec (.tilePlan slot run stage) s = .next (if d.maxShape < shape then
      (u.bump OD.TILING_CLAMPS).record FaultClass.corrected 32 1 OD.TILING_CLAMPS shape (slot * 32 + stage) else u) := by
  intro it img key entry shape u
  have hgo : ¬((!(decide (it.st = .queued) || decide (it.st = .admitted) || decide (it.st = .running)) || !s.firmwareServes ||
      decide (it.runs ≤ run.toNat) || decide ((s.stageWords it).length ≤ stage) || (it.plans.any (fun p => p.1 = key))) = true) := by
    have hnone : it.plans.any (fun p => decide (p.1 = key)) = false := List.any_eq_false.2 fun p hp => by simpa using hnew p hp
    have hst : (decide (it.st = .queued) || decide (it.st = .admitted) || decide (it.st = .running)) = true := by
      simpa [or_assoc] using hready
    rw [hnone, hst, hserves, decide_eq_false (Nat.not_le.2 hrun), decide_eq_false (Nat.not_le.2 hstage)]
    decide
  refine congrArg Host.Outcome.next ?_
  unfold State.planStage
  rw [if_neg hgo]
  simp only [hentry, htiled, htensors]
  rfl

/-- Settles O39: each step of a load follows from what it reads, and a plan's chunks from the bounds of the division. -/
theorem imagesLoadAndPlansAreMade : Obligations.ImagesLoadAndPlansAreMade := by
  unfold Obligations.ImagesLoadAndPlansAreMade
  refine ⟨?tables, ?header, ?section_, ?write, ?signature, ?failed, ?loaded, ?plan, ?bounds⟩
  case tables =>
    intro r r1 s u f hrun htables
    have hstep : (fun (r : LoadRun) (s : State) => if r.tables then (.ok (), r, s) else loadTables r s) r s = loadTables r s :=
      if_neg (by rw [htables]; decide)
    exact ⟨fun h => congrArg Host.Outcome.next (loadStep_ok hrun (hstep.trans h)),
      fun h => congrArg Host.Outcome.next (loadStep_error hrun (hstep.trans h))⟩
  case header =>
    intro r r1 h s u hread
    refine ⟨fun f => loadTables_headerFail hread, fun hmagic => ?_, fun hmagic hversion => ?_, fun hmagic hversion hsize hlen => ?_⟩ <;>
      simp [headerFail, firstFail, *]
  case section_ =>
    intro r r1 x bs s u v hrun htables hsection hread
    obtain ⟨hunpowered, hpowered⟩ := loadSection_read htables hsection hread
    refine ⟨fun hoff => ?_, fun hon hw => ?_, fun hon hw => ?_⟩
    · exact congrArg Host.Outcome.next (loadStep_error hrun (hunpowered hoff))
    · have hcopied := (hpowered hon v).2 hw
      by_cases hcrc : crc32c bs = x.crc
      · rw [if_pos hcrc] at hcopied ⊢
        exact congrArg Host.Outcome.next (loadStep_ok hrun hcopied)
      · rw [if_neg hcrc] at hcopied ⊢
        exact congrArg Host.Outcome.next (loadStep_error hrun hcopied)
    · exact congrArg Host.Outcome.next (loadStep_error hrun ((hpowered hon v).1 hw))
  case write => exact fun s bs a rest => loadWrite_cons_stored rest
  case signature =>
    exact fun r r1 bs s u hrun htables hall hread => congrArg Host.Outcome.next (loadSign_read hrun htables hall hread)
  case failed =>
    intro r f u hslot
    obtain ⟨hrun, hstate, hresult, hoffset, hdata⟩ := loadEnd_facts u r f
    obtain ⟨hcount, himage, hhost⟩ := loadEnd_result f u hslot
    exact ⟨hresult, hoffset, hstate, hcount, himage, hrun, hdata.mem, hhost⟩
  case loaded => exact fun r h u _ => loadOk_facts r h u
  case plan =>
    intro slot run stage d w i o s it img key entry shape hready hserves hrun hstage hnew hentry htiled htensors u
    have hexec := exec_tilePlan slot run stage hready hserves hrun hstage hnew hentry htiled htensors
    refine ⟨fun hfits => hexec.trans (congrArg Host.Outcome.next (if_neg (Nat.not_lt.2 hfits))), fun hclamped =>
      ⟨_, hexec.trans (congrArg Host.Outcome.next (if_pos hclamped)), ?_⟩⟩
    exact planClamped_facts s u rfl ((Keep.rfl' s).upd rfl rfl rfl rfl) _ _
  case bounds => exact fun d w i o shape => makePlan_bounds

end Sys2Proof.Machine
end

section
/-!
The bundle unit (spec/17, R49 to R51, R735 to R749; obligation O40).
-/

set_option Elab.async false

namespace Sys2Proof.Machine

/-! ### Writes that see the same places -/

/-- A write of bytes that are memory is made as well in a state whose places and memory are the same. -/
theorem memWrite_of_places {s z : State} {q : Acc} {a : Nat} {bs : List Byte} (hplace : ∀ x, z.place q true x = s.place q true x)
    (hmem : z.mem = s.mem) (hbal : z.bal = s.bal) (hismem : s.isMem q true a bs.length) (hwritable : s.writable q a bs.length) :
    ∃ t, z.memWrite q a bs = ({}, t) ∧ z.Stored t a bs := by
  obtain ⟨hpartial, hsmooth⟩ := hwritable
  have hmark (x : Nat) : z.mark x = s.mark x := by
    unfold State.mark
    rw [hmem]
  have hat (cov : Nat → Bool) : z.partialAt q cov = s.partialAt q cov := by
    funext x
    unfold State.partialAt
    rw [hplace, hmark]
  have hfails (cov : Nat → Bool) : z.failsAt q cov = s.failsAt q cov := by
    funext x
    unfold State.failsAt
    rw [hplace, hat]
  refine memWrite_mem q z a bs (fun i hi => (hplace _).trans (hismem i hi)) ⟨?_, ?_⟩
  · unfold State.partialBad
    rw [hat, hfails]
    exact hpartial
  · unfold State.smooth
    rw [hbal]
    exact hsmooth

/-! ### The order of the copies -/

theorem copyNext_keep_ledg (s : State) : Keep [.ledg] s s.copyNext := by
  obtain ⟨g, hg⟩ := copyNext_ledg s
  rw [hg]
  exact (Keep.rfl' s).upd rfl rfl rfl rfl

/-- Between publications the next copy of the epoch in progress starts once its sweep has (R49, R735). -/
theorem copyNext_current {l : Nat} {s : State} (hpub : s.ledg.pub = none) (hcopying : s.ledg.cur.copying = false)
    (hswept : s.tick.swept = true) (hnext : s.ledg.cur.nextCopy = some l) :
    s.copyNext = s.setLayer l { s.layer l with copy := .running } := by
  have hcur : s.ledg.cur.copyNext = s.ledg.cur.set l { s.layer l with copy := .running } := by
    unfold BundleEpoch.copyNext
    rw [hnext]
    rfl
  unfold State.copyNext
  dsimp only
  rw [if_neg (by rw [hcopying]; decide), if_neg (by rw [hpub]; decide), if_pos hswept, hcur]
  rfl

/-! ### The end of a copy (R736, R760) -/

section CopyDone

variable {l : Fin 32} {ok : Bool} {s u : State} {f : LastFresh}

theorem layerCopyDone_published {e : BundleEpoch} (hpub : s.ledg.pub = some e) (hrunning : (e.layer l).copy = .running) (hok : ok = true)
    (hsealed : s.copySealed (e.layer l) = false) (hcopy : s.copyLayer l e.epoch (e.layer l) = (some f, u)) :
    exec (.layerCopyDone l ok) s = .next (State.copyNext (State.fixFresh
      { u with ledg := { u.ledg with pub := some (e.set l { e.layer l with copy := .copied, made := some f }) } } l true)) := by
  have hledg : u.ledg = s.ledg := (copyLayer_keepE hcopy (Keep.rfl' s)).part .ledg
  refine congrArg Host.Outcome.next ?_
  simp only [hpub, hrunning, hok, hsealed, hcopy, hledg, if_true, Bool.not_true, Bool.or_self, Bool.false_eq_true, if_false,
    Option.map_some, Option.isSome_some, LayerRun.copyEnd]

theorem layerCopyDone_publishedFailed {e : BundleEpoch} (hpub : s.ledg.pub = some e) (hrunning : (e.layer l).copy = .running)
    (hbad : ok = false ∨ s.copySealed (e.layer l) = true) :
    exec (.layerCopyDone l ok) s = .next (State.copyNext (State.fixLate
      { s with ledg := { s.ledg with pub := some (e.set l { e.layer l with copy := .failed, fault := true }) } } l)) := by
  have hskip : (!ok || s.copySealed (e.layer l)) = true := by simpa using hbad
  refine congrArg Host.Outcome.next ?_
  simp only [hpub, hrunning, hskip, if_true, Option.map_some, Option.isSome_none, Bool.false_eq_true, if_false, LayerRun.copyEnd]

theorem layerCopyDone_current (hpub : s.ledg.pub = none) (hrunning : (s.layer l).copy = .running) (hok : ok = true)
    (hsealed : s.copySealed (s.layer l) = false) (hcopy : s.copyLayer l s.ledg.cur.epoch (s.layer l) = (some f, u)) :
    exec (.layerCopyDone l ok) s = .next (u.setLayer l { s.layer l with copy := .copied, made := some f }).copyNext := by
  have hlayer : u.layer l = s.layer l := by
    unfold State.layer
    rw [(copyLayer_keepE hcopy (Keep.rfl' s)).part .ledg]
  refine congrArg Host.Outcome.next ?_
  simp only [hpub, execLayerCopyDone.current, hrunning, hok, hsealed, hcopy, hlayer, if_true, Bool.not_true, Bool.or_self,
    Bool.false_eq_true, if_false, LayerRun.copyEnd]

theorem layerCopyDone_currentFailed (hpub : s.ledg.pub = none) (hrunning : (s.layer l).copy = .running)
    (hbad : ok = false ∨ s.copySealed (s.layer l) = true) :
    exec (.layerCopyDone l ok) s = .next (s.setLayer l { s.layer l with copy := .failed, fault := true }).copyNext := by
  have hskip : (!ok || s.copySealed (s.layer l)) = true := by simpa using hbad
  refine congrArg Host.Outcome.next ?_
  simp only [hpub, execLayerCopyDone.current, hrunning, hskip, if_true, LayerRun.copyEnd]

end CopyDone

/-! ### Late policies (R736) -/

section FixLate

variable {l : Nat} {e : BundleEpoch} {f : LastFresh} {s : State}

theorem fixLate_held (hpub : s.ledg.pub = some e) (hfresh : Sparse.get (fun _ => none) s.ledg.fresh l = some f) (hheld : f.held = true)
    (hdrop : (e.layer l).cfg.drop = false) :
    s.fixLate l = s.fixLayer l 2 (f.flags + if (e.layer l).fault then 32 else 0) (some f) := by
  unfold State.fixLate
  simp only [hpub, hfresh, hheld, hdrop, Bool.not_false, Bool.and_self, if_true]
  cases (e.layer l).fault <;> rfl

theorem fixLate_dropped (hpub : s.ledg.pub = some e)
    (hnone : Sparse.get (fun _ => none) s.ledg.fresh l = none ∨ (e.layer l).cfg.drop = true) :
    s.fixLate l = s.fixLayer l 0 (if (e.layer l).fault then 32 else 0) none := by
  have hflags : 32 * b2n (e.layer l).fault = if (e.layer l).fault then 32 else 0 := by cases (e.layer l).fault <;> rfl
  unfold State.fixLate
  simp only [hpub, hflags]
  rcases hnone with hnone | hdrop
  · simp only [hnone]
  · simp only [hdrop, Bool.not_true, Bool.and_false, Bool.false_eq_true, if_false]
    split <;> rfl

theorem fixFresh_made (hpub : s.ledg.pub = some e) (hmade : (e.layer l).made = some f) (g : Bool) :
    s.fixFresh l g = s.fixLayer l 1 (f.flags + if g then 8 else 0) (some f) := by
  unfold State.fixFresh
  simp only [hpub, hmade]
  cases g <;> rfl

end FixLate

/-! ### Fixing a layer (R737, R738, Tables LEDG-1 and LEDG-2) -/

/-- The epoch with layer l fixed in state st: a copy that runs goes back. -/
def BundleEpoch.fixAs (e : BundleEpoch) (l st : Nat) : BundleEpoch :=
  e.set l { e.layer l with fixed := some st, copy := if (e.layer l).copy = .running then .idle else (e.layer l).copy }

/-- The bundle unit's part with layer l of its publication fixed in state st. -/
def State.fixedLedger (s : State) (e : BundleEpoch) (l st : Nat) (f : Option LastFresh) : Bundle :=
  { s.ledg with
    pub := some (e.fixAs l st), fresh := if st = 1 then Sparse.put (fun _ => none) s.ledg.fresh l f else s.ledg.fresh }

/-- The objects that count a layer fixed in state st. -/
def fixedCount (st : Nat) : List Nat := if st = 2 then [OD.LAYERS_HELD] else if st = 0 then [OD.LAYERS_DROPPED] else []

theorem held_mem_fixedCount (st : Nat) : OD.LAYERS_HELD ∈ fixedCount st ↔ st = 2 := by
  unfold fixedCount
  by_cases h2 : st = 2
  · simp [h2]
  · by_cases h0 : st = 0 <;> simp [h2, h0, OD.LAYERS_HELD, OD.LAYERS_DROPPED]

theorem dropped_mem_fixedCount (st : Nat) : OD.LAYERS_DROPPED ∈ fixedCount st ↔ st = 0 := by
  unfold fixedCount
  by_cases h2 : st = 2
  · simp [h2, OD.LAYERS_HELD, OD.LAYERS_DROPPED]
  · by_cases h0 : st = 0 <;> simp [h2, h0]

/-- What fixing layer l in state st leaves before its entry is written. -/
def State.layerFixed (s : State) (e : BundleEpoch) (l st : Nat) (f : Option LastFresh) : State :=
  (fixedCount st).foldl State.bump { s with ledg := s.fixedLedger e l st f }

theorem fixLayer_of_open {e : BundleEpoch} {s : State} {l : Nat} (hpub : s.ledg.pub = some e) (hopen : (e.layer l).fixed = none)
    (st flags : Nat) (f : Option LastFresh) :
    s.fixLayer l st flags f =
      ((((((s.layerFixed e l st f).bundleWrite (e.layer l).cfg.ten (e.slotBase (e.layer l).cfg.ten + 64 + 32 * l)
        (layerEntry st flags f)).2.wr (OD.LAYER_LAST l) st).signalLayer (e.layer l).cfg).bundleHeader (e.layer l).cfg.ten)).copyNext := by
  unfold State.fixLayer State.layerFixed fixedCount State.fixedLedger
  simp only [hpub, hopen, Option.isSome_none, Bool.false_eq_true, if_false]
  by_cases h1 : st = 1
  · subst h1
    rfl
  · simp only [if_neg h1]
    split
    · rfl
    · split <;> rfl

section LayerFixed

variable (s : State) (e : BundleEpoch) (l st : Nat) (f : Option LastFresh)

theorem layerFixed_keep : Keep [.od, .ledg] s (s.layerFixed e l st f) := by
  have hledg : Keep [.od, .ledg] s { s with ledg := s.fixedLedger e l st f } := (Keep.rfl' s).upd rfl rfl rfl rfl
  unfold State.layerFixed fixedCount
  split
  · exact bump_keep _ _ hledg
  · split
    · exact bump_keep _ _ hledg
    · exact hledg

theorem layerFixed_ledg : (s.layerFixed e l st f).ledg = s.fixedLedger e l st f := by
  unfold State.layerFixed fixedCount
  split
  · rfl
  · split <;> rfl

theorem layerFixed_rd (k : Nat) : (s.layerFixed e l st f).rd k = if k ∈ fixedCount st then min (s.rd k + 1) 0xFFFFFFFF else s.rd k := by
  unfold State.layerFixed fixedCount
  split
  · simp only [List.foldl_cons, List.foldl_nil, rd_bump, List.mem_singleton]
    split
    · next h => subst h; rfl
    · rfl
  · split
    · simp only [List.foldl_cons, List.foldl_nil, rd_bump, List.mem_singleton]
      split
      · next h => subst h; rfl
      · rfl
    · rfl

theorem fixAs_layer {m : Nat} (h : m ≠ l) : (e.fixAs l st).layer m = e.layer m := (set_layer ..).trans (if_neg h)

theorem fixAs_layersOf (n : Nat) : (e.fixAs l st).layersOf n = e.layersOf n := set_layersOf _ _ _ _ rfl

/-- Fixing a layer leaves every place of a tenancy's accesses where it was. -/
theorem layerFixed_place {n : Nat} (hn : n < 16) (x : Nat) :
    (s.layerFixed e l st f).place (bundleAcc n) true x = s.place (bundleAcc n) true x := by
  have hkeep := layerFixed_keep s e l st f
  refine place_same (fun k hk => ?_) (hkeep.part .ldr) (hkeep.part .host) _ (fun t ht => ?_) _ _
  · have hnot : k ∉ fixedCount st := by
      unfold fixedCount
      split
      · exact fun h => hk (by rw [List.mem_singleton.1 h]; decide)
      · split
        · exact fun h => hk (by rw [List.mem_singleton.1 h]; decide)
        · exact List.not_mem_nil
    rw [layerFixed_rd, if_neg hnot]
  · cases ht
    exact hn

end LayerFixed

/-- Fixing a layer while another of its tenancy waits: its entry stands in the bundle, its count and its last state are told. -/
theorem fixLayer_facts {l l2 : Nat} {e : BundleEpoch} {s : State} (st flags : Nat) (f : Option LastFresh)
    (hten : (e.layer l).cfg.ten < 16) (hpub : s.ledg.pub = some e) (hopen : (e.layer l).fixed = none)
    (hquiet : bit (e.layer l).cfg.landing 16 = false) (hne : l2 ≠ l) (hown : l2 ∈ e.layersOf (e.layer l).cfg.ten)
    (hwaits : (e.layer l2).fixed = none) :
    let q := bundleAcc (e.layer l).cfg.ten
    let a := e.slotBase (e.layer l).cfg.ten + 64 + 32 * l
    s.isMem q true a 32 → s.writable q a 32 →
    ∃ u, (s.layerFixed e l st f).Stored u a (layerEntry st flags f) ∧
      s.fixLayer l st flags f = (u.wr (OD.LAYER_LAST l) st).copyNext := by
  intro q a hmem hwritable
  have hlen := layerEntry_length st flags f
  have hkeep := layerFixed_keep s e l st f
  obtain ⟨u, hwrite, hstored⟩ := memWrite_of_places (bs := layerEntry st flags f) (layerFixed_place s e l st f hten) (hkeep.part .mem)
    (hkeep.part .bal) (hlen ▸ hmem) (hlen ▸ hwritable)
  refine ⟨u, hstored, ?_⟩
  have hbundle : (s.layerFixed e l st f).bundleWrite (e.layer l).cfg.ten a (layerEntry st flags f) = (true, u) := by
    unfold State.bundleWrite
    rw [hwrite]
    rfl
  have hpubs : u.ledg.pub = some (e.fixAs l st) := by
    rw [hstored.keeps.part .ledg, layerFixed_ledg]
    rfl
  have hsignal : (u.wr (OD.LAYER_LAST l) st).signalLayer (e.layer l).cfg = u.wr (OD.LAYER_LAST l) st := by
    unfold State.signalLayer
    rw [if_pos (by rw [hquiet]; rfl)]
  have hheader : (u.wr (OD.LAYER_LAST l) st).bundleHeader (e.layer l).cfg.ten = u.wr (OD.LAYER_LAST l) st :=
    bundleHeader_wait _ _ (e.fixAs l st) l2 hpubs (by rw [fixAs_layersOf]; exact hown) (by rw [fixAs_layer _ _ _ hne]; exact hwaits)
  rw [fixLayer_of_open hpub hopen, hbundle, hsignal, hheader]

/-! ### Headers (R51) -/

section Header

variable {n : Nat} {e : BundleEpoch} {s : State}

/-- The entries of the layers that are not the tenancy's own, as zeros. -/
def State.zeroOthers (s : State) (e : BundleEpoch) (n : Nat) : State :=
  ((List.range 32).filter (fun l => !(e.layersOf n).contains l)).foldl
    (fun s l => (s.bundleWrite n (e.slotBase n + 64 + 32 * l) (zeros 32)).2) s

theorem zeroOthers_keep (s : State) (e : BundleEpoch) (n : Nat) : Keep [.od, .host, .hostMem, .falt, .mem, .bal] s (s.zeroOthers e n) := by
  have hfold (ls : List Nat) (v : State) (hk : Keep [.od, .host, .hostMem, .falt, .mem, .bal] s v) :
      Keep [.od, .host, .hostMem, .falt, .mem, .bal] s
        (ls.foldl (fun s l => (s.bundleWrite n (e.slotBase n + 64 + 32 * l) (zeros 32)).2) v) := by
    induction ls generalizing v with
    | nil => exact hk
    | cons l ls ih => exact ih _ (bundleWrite_keep _ _ _ _ hk)
  exact hfold _ s (Keep.rfl' s)

/-- The last header of a publication, and what it leaves. -/
theorem bundleHeader_last (hpub : s.ledg.pub = some e) (hheaders : e.headers = [n])
    (hfixed : ∀ l ∈ e.layersOf n, (e.layer l).fixed ≠ none)
    (hmem : (s.zeroOthers e n).isMem (bundleAcc n) true (e.slotBase n) 64)
    (hwritable : (s.zeroOthers e n).writable (bundleAcc n) (e.slotBase n) 64) :
    let t := s.bundleHeader n
    t.memBytes (e.slotBase n) 64 = e.header n s.clk.gtime ∧ t.rd (OD.BND_LAST_EPOCH n) = e.epoch ∧ t.ledg.pub = none := by
  have htime : (s.zeroOthers e n).clk.gtime = s.clk.gtime := congrArg Clock.gtime ((zeroOthers_keep s e n).part .clk)
  have hlen := header_length e n s.clk.gtime
  have hgo : ¬((!e.headers.contains n || (e.layersOf n).any (fun l => (e.layer l).fixed = none)) = true) := by
    rw [hheaders]
    simpa using hfixed
  have hrest : e.headers.filter (· ≠ n) = [] := by rw [hheaders]; simp
  obtain ⟨u, hwrite, hstored⟩ := memWrite_mem (bundleAcc n) (s.zeroOthers e n) (e.slotBase n) (e.header n s.clk.gtime)
    (hlen.symm ▸ hmem) (hlen.symm ▸ hwritable)
  have hbundle : (s.zeroOthers e n).bundleWrite n (e.slotBase n) (e.header n (s.zeroOthers e n).clk.gtime) = (true, u) := by
    unfold State.bundleWrite
    rw [htime, hwrite]
    rfl
  have hlast : s.bundleHeader n =
      let v : State := u.wr (OD.BND_LAST_EPOCH n) e.epoch
      let v := { v with ledg := { v.ledg with pub := none } }
      if v.flag OD.BUNDLE_IRQ then v.signal false 4 else v := by
    unfold State.bundleHeader
    simp only [hpub]
    rw [if_neg hgo]
    unfold State.zeroOthers at hbundle
    simp only [hbundle, hrest, if_true]
  obtain ⟨hbytes, -⟩ := stored_mem hstored (s.bundleHeader n) (by
    rw [hlast]
    dsimp only
    split
    · exact (signal_keep _ false 4 (Keep.rfl' _)).part .mem
    · rfl)
  refine ⟨hlen ▸ hbytes, ?_, ?_⟩
  · rw [hlast]
    dsimp only
    rw [rd_ite, signal_rd, ite_self]
    exact rd_wr_same _ _ _
  · rw [hlast]
    dsimp only
    split
    · exact congrArg Bundle.pub ((signal_keep _ false 4 (Keep.rfl' _)).part .ledg)
    · rfl

end Header

/-! ### Fills (R747, R749) -/

theorem unsealFillDone_facts {n : Fin 32} {s : State} (hfilling : bit s.ledg.unsealing n = true) :
    ∃ t, exec (.unsealFillDone n) s = .next t ∧ bit t.ledg.unsealing n = false ∧ bit t.ledg.tainted n = false ∧
      (∀ m, m ≠ n.val → bit t.ledg.unsealing m = bit s.ledg.unsealing m ∧ bit t.ledg.tainted m = bit s.ledg.tainted m) ∧
      (∀ a, t.memByte a = if inRange (alcoveRange n) a && !s.unsealKeeps n a then 0#8 else s.memByte a) ∧
      t.core n = { s.core n with active := none, shadow := none, acc := [], accMarks := [] } ∧ (∀ m, m ≠ n.val → t.core m = s.core m) ∧
      Keep [.mem, .cores, .ledg] s t := by
  have hclear := memClear_byte s (fun a => inRange (alcoveRange n) a && !s.unsealKeeps n a)
  have hkeep := memClear_keep s (fun a => inRange (alcoveRange n) a && !s.unsealKeeps n a) (Keep.rfl' (fs := [.mem, .cores, .ledg]) s)
  generalize hv : s.memClear (fun a => inRange (alcoveRange n) a && !s.unsealKeeps n a) = v at hclear hkeep
  have hcore : ∀ m, v.core m = s.core m := by
    subst hv
    exact fun _ => rfl
  have hledg : v.ledg = s.ledg := by
    subst hv
    rfl
  refine ⟨_, congrArg Host.Outcome.next (if_neg (by rw [hfilling]; decide)), ?_, ?_, fun m hm => ⟨?_, ?_⟩, ?_, ?_, fun m hm => ?_, ?_⟩
  all_goals
    dsimp only
    rw [hv]
  · exact (bit_setBit v.ledg.unsealing n n false).trans (if_pos rfl)
  · exact (bit_setBit v.ledg.tainted n n false).trans (if_pos rfl)
  · exact ((bit_setBit v.ledg.unsealing n m false).trans (if_neg hm)).trans (by rw [hledg])
  · exact ((bit_setBit v.ledg.tainted n m false).trans (if_neg hm)).trans (by rw [hledg])
  · exact hclear
  · exact (core_setCore_same v n _).trans (by rw [hcore])
  · exact (core_setCore_ne v hm _).trans (hcore m)
  · exact (setCore_keep v n _ hkeep).upd rfl rfl rfl rfl

/-- Settles O40: each order of the bundle unit is its own equation, the entry and the header are writes that other parts of
the unit's state do not hinder. -/
theorem bundlesArePublished : Obligations.BundlesArePublished := by
  unfold Obligations.BundlesArePublished
  refine ⟨?sweep, ?next, ?published, ?current, ?grace, ?late, ?entry, ?header, ?unsealFill, ?sealFill⟩
  case sweep =>
    intro s hrunning hswept hdue
    have hgo : ¬(s.tick.st = .stopped ∨ s.tick.swept = true ∨ s.clk.now < s.sweepAt) := by
      rw [hswept]
      simp only [hrunning, Bool.false_eq_true, false_or, not_lt]
      exact hdue
    have hcopy := copyNext_keep_ledg { s with
      tick := { s.tick with swept := true }, ledg := { s.ledg with cur := { s.ledg.cur with sweep := some s.clk.now } } }
    refine ⟨_, congrArg Host.Outcome.next (if_neg hgo), rfl, hcopy.part .tick, ?_⟩
    exact ((Keep.rfl' (fs := [.tick, .ledg]) s).upd rfl rfl rfl rfl).trans (hcopy.mono (within_of (by decide)))
  case next => exact fun l s => copyNext_current
  case published =>
    exact fun l ok e s u f hpub hrunning => ⟨layerCopyDone_published hpub hrunning, layerCopyDone_publishedFailed hpub hrunning⟩
  case current =>
    exact fun l ok s u f hpub hrunning => ⟨layerCopyDone_current hpub hrunning, layerCopyDone_currentFailed hpub hrunning⟩
  case grace =>
    intro l e s hpub henable hopen
    refine ⟨fun hover => congrArg Host.Outcome.next ?_, fun hwait => congrArg Host.Outcome.next ?_⟩
    · simp only [hpub]
      exact if_neg (by rw [henable, hopen]; exact fun h => absurd (of_decide_eq_true h) (Nat.not_lt.2 hover))
    · simp only [hpub]
      exact if_pos (by rw [henable, hopen]; exact decide_eq_true hwait)
  case late =>
    exact fun l e f s hpub => ⟨fixLate_held hpub, fixLate_dropped hpub, fixFresh_made hpub⟩
  case entry =>
    intro l l2 st flags f e s hl hten hpub hopen hst hquiet hne hown hwaits q a hmem hwritable t
    obtain ⟨u, hstored, hfix⟩ := fixLayer_facts st flags f hten hpub hopen hquiet hne hown hwaits hmem hwritable
    have hfixed := layerFixed_keep s e l st f
    have hcopy := copyNext_keep_ledg (u.wr (OD.LAYER_LAST l) st)
    have ht : t = (u.wr (OD.LAYER_LAST l) st).copyNext := hfix
    clear_value t
    subst ht
    have hrd (k : Nat) : (u.wr (OD.LAYER_LAST l) st).copyNext.rd k =
        if k = OD.LAYER_LAST l then st else if k ∈ fixedCount st then min (s.rd k + 1) 0xFFFFFFFF else s.rd k := by
      rw [rd_of_od (hcopy.part .od), rd_wr, rd_of_od (hstored.keeps.part .od), layerFixed_rd]
    have hlast (k : Nat) (hk : k < 0x7C4000) : k ≠ OD.LAYER_LAST l := by
      unfold OD.LAYER_LAST
      omega
    obtain ⟨hbytes, hothers⟩ := stored_mem hstored _ (show (u.wr (OD.LAYER_LAST l) st).copyNext.mem = u.mem from hcopy.part .mem)
    have hlen := layerEntry_length st flags f
    refine ⟨hlen ▸ hbytes, fun x hx => (hothers x (by rw [hlen]; exact hx)).trans ?_, ?_, ?_, ?_, ?_⟩
    · unfold State.memByte
      rw [hfixed.part .mem]
    · rw [hrd, if_pos rfl]
    · rw [hrd, if_neg (hlast _ (by decide))]
      exact if_congr (held_mem_fixedCount st) rfl rfl
    · rw [hrd, if_neg (hlast _ (by decide))]
      exact if_congr (dropped_mem_fixedCount st) rfl rfl
    · exact ((hfixed.mono (within_of (by decide))).trans (hstored.keeps.mono (within_of (by decide)))).wr _ _ |>.trans
        (hcopy.mono (within_of (by decide)))
  case header =>
    intro n e s v hpub hheaders hn hfixed base hv hmem hwritable
    subst hv
    exact bundleHeader_last hpub hheaders hfixed hmem hwritable
  case unsealFill => exact fun n s => unsealFillDone_facts
  case sealFill =>
    intro r rest s hfills u
    refine ⟨u.memClear (fun a => inRange r a && !u.sealedByte a), congrArg Host.Outcome.next ?_, rfl, memClear_byte u _, ?_⟩
    · simp only [hfills]
      rfl
    · exact memClear_keep u _ ((Keep.rfl' s).upd rfl rfl rfl rfl)

end Sys2Proof.Machine
end

section
/-!
The cloakroom's pools (spec/11, R485 to R524; obligation O41).
-/

set_option Elab.async false

namespace Sys2Proof.Machine

/-! ### Ring entries (R493, R501) -/

theorem clokWrite_of_mem {s : State} {q a : Nat} {bs : List Byte} (hfree : s.meetsImage a bs.length = false)
    (hmem : s.isMem clokAcc true a bs.length) (hwritable : s.writable clokAcc a bs.length) :
    s.Stored (s.clokWrite q a bs) a bs := by
  obtain ⟨u, hwrite, hstored⟩ := memWrite_mem clokAcc s a bs hmem hwritable
  have hu : s.clokWrite q a bs = u := by
    unfold State.clokWrite
    rw [if_neg (by rw [hfree]; decide), hwrite]
    rfl
  rw [hu]
  exact hstored

theorem ringWrite_one {q t : Nat} {s : State} (hroom : (s.pool q).count < (s.pool q).ringEntries)
    (hfree : s.meetsImage ((s.pool q).ringBase + 4 * (((s.pool q).head + (s.pool q).count) % (s.pool q).ringEntries)) 4 = false)
    (hmem : s.isMem clokAcc true ((s.pool q).ringBase + 4 * (((s.pool q).head + (s.pool q).count) % (s.pool q).ringEntries)) 4)
    (hwritable : s.writable clokAcc ((s.pool q).ringBase + 4 * (((s.pool q).head + (s.pool q).count) % (s.pool q).ringEntries)) 4) :
    ∃ u, s.Stored u ((s.pool q).ringBase + 4 * (((s.pool q).head + (s.pool q).count) % (s.pool q).ringEntries)) (leBytes 4 t) ∧
      State.ringWrite q [t] s = u.setPool q { s.pool q with count := (s.pool q).count + 1 } :=
  ⟨_, clokWrite_of_mem (q := q) (bs := leBytes 4 t) hfree hmem hwritable, if_neg (Nat.not_le.2 hroom)⟩

theorem ringRead_one {q n : Nat} {acc : List Nat} {s : State}
    (hmem : s.isMem clokAcc false ((s.pool q).ringBase + 4 * ((s.pool q).head % (s.pool q).ringEntries)) 4)
    (hclean : s.clean ((s.pool q).ringBase + 4 * ((s.pool q).head % (s.pool q).ringEntries)) 4) :
    ∃ b, State.ringRead q (n + 1) s acc =
      let t := ofLe (s.memBytes ((s.pool q).ringBase + 4 * ((s.pool q).head % (s.pool q).ringEntries)) 4)
      let u := State.setPool { s with bal := b } q
        { s.pool q with head := ((s.pool q).head + 1) % (s.pool q).ringEntries, count := (s.pool q).count - 1 }
      if ticketPool t = q ∧ ticketIndex t < (s.pool q).buffers then State.ringRead q n u (t :: acc)
      else State.ringRead q n (u.bump OD.RING_DISCARDS) acc := by
  obtain ⟨b, hread, -⟩ := memRead_clean clokAcc s _ 4 hmem hclean
  refine ⟨b, ?_⟩
  rw [State.ringRead]
  dsimp only
  rw [hread]
  dsimp only
  rw [if_neg (by simp)]
  by_cases hgood : ticketPool (ofLe (s.memBytes ((s.pool q).ringBase + 4 * ((s.pool q).head % (s.pool q).ringEntries)) 4)) = q ∧
      ticketIndex (ofLe (s.memBytes ((s.pool q).ringBase + 4 * ((s.pool q).head % (s.pool q).ringEntries)) 4)) < (s.pool q).buffers
  · rw [if_pos hgood, if_neg (by simp only [ne_eq, not_true_eq_false, false_or, not_or, not_not, Nat.not_le]; exact hgood)]
    rfl
  · rw [if_neg hgood, if_pos (by simp only [ne_eq, not_true_eq_false, false_or]; rw [← Nat.not_lt]; exact not_and_or.1 hgood)]
    rfl

/-- Without requests that wait, nothing is served when tickets come back. -/
theorem drainClk_of_none {s : State} (hnone : s.clok.waiting = []) : s.drainClk = s := by
  have hclok : ({ s.clok with waiting := [] } : Cloak) = s.clok := by rw [← hnone]
  unfold State.drainClk
  rw [hnone, hclok]
  rfl

theorem failWaiting_of_none {s : State} (hnone : s.clok.waiting = []) (q : Nat) : s.failWaiting q = s := by
  unfold State.failWaiting
  rw [hnone]
  rfl

/-! ### Records -/

theorem bump_LEAKS_count (s : State) : (s.bump OD.LEAKS).rd (OD.CLASS_COUNTS 1) = s.rd (OD.CLASS_COUNTS 1) := by
  rw [rd_bump, if_neg (by decide)]

theorem poolRecord_count (s : State) (q a : Nat) :
    (s.poolRecord q a).rd (OD.CLASS_COUNTS 1) = min (s.rd (OD.CLASS_COUNTS 1) + 1) 0xFFFFFFFF :=
  logFault_count s ⟨0, FaultClass.item, 32, 0, 1, OD.POOL_STATE q, 0xFF, a, q⟩
    (show OD.CLASS_COUNTS FaultClass.item ≠ OD.FAULTS_LOST by decide)

theorem poolRecord_rd (s : State) (q a : Nat) {k : Nat} (h1 : k ≠ OD.FAULTS_LOST) (h2 : k ≠ OD.CLASS_COUNTS 1) :
    (s.poolRecord q a).rd k = s.rd k := record_rd _ _ _ _ _ _ _ h1 h2

theorem MIN_FREE_ne {k : Nat} (hk : k < 0x581000) (q : Nat) : k ≠ OD.MIN_FREE q := by
  unfold OD.MIN_FREE
  omega

theorem POOL_STATE_ne (q : Nat) : OD.POOL_STATE q ≠ OD.POOL_EVENTS ∧ OD.POOL_STATE q ≠ OD.MIN_FREE q := by
  unfold OD.POOL_STATE OD.POOL_EVENTS OD.MIN_FREE
  omega

/-- A record or entry that is lost counts in LEAKS and leaves one ITEM record (R524). -/
theorem leaked_facts (s : State) (q : Nat) :
    ((s.bump OD.LEAKS).poolRecord q 0).rd OD.LEAKS = min (s.rd OD.LEAKS + 1) 0xFFFFFFFF ∧
      ((s.bump OD.LEAKS).poolRecord q 0).rd (OD.CLASS_COUNTS 1) = min (s.rd (OD.CLASS_COUNTS 1) + 1) 0xFFFFFFFF ∧
      Keep [.od, .host, .falt] s ((s.bump OD.LEAKS).poolRecord q 0) := by
  refine ⟨?_, ?_, poolRecord_keep _ _ _ (bump_keep _ _ (Keep.rfl' s))⟩
  · rw [poolRecord_rd _ _ _ (by decide) (by decide), rd_bump, if_pos rfl]
  · rw [poolRecord_count, bump_LEAKS_count]

/-! ### Fills and write-backs (R485, R491, R493) -/

theorem poolFillDone_facts {q : Fin 8} {s : State} (hfilling : s.rd (OD.POOL_STATE q) = 1) :
    let n := min (s.pool q).buffers (s.pool q).ringEntries
    let w := State.ringWrite q ((List.range n).map (fun i => q * 2 ^ 29 + i)) (s.setPool q { s.pool q with head := 0, count := 0 })
    let t := s.poolFillDone q
    t.rd (OD.POOL_STATE q) = 2 ∧ t.pool q = { s.pool q with head := 0, count := n } ∧ (∀ p, p ≠ q.val → t.pool p = s.pool p) ∧
      bit (t.rd OD.POOL_EVENTS) (16 + q) = true ∧ t.mem = w.mem ∧ Keep [.od, .host, .hostMem, .falt, .mem, .bal, .clok] s t := by
  intro n w t
  have ht : t = ((w.wr (OD.POOL_STATE q) 2).poolChanged q (s.freeTickets q)).poolEvent (16 + q) := if_neg (not_not_intro hfilling)
  have hpool : (s.setPool q { s.pool q with head := 0, count := 0 }).pool q = { s.pool q with head := 0, count := 0 } :=
    (pool_setPool ..).trans (if_pos rfl)
  obtain ⟨hown, hothers⟩ := ringWrite_pools q ((List.range n).map (fun i => q * 2 ^ 29 + i))
    (s.setPool q { s.pool q with head := 0, count := 0 }) (by
      rw [hpool, List.length_map, List.length_range]
      dsimp only
      omega)
  rw [hpool, List.length_map, List.length_range, Nat.zero_add] at hown
  have hset : Keep [.od, .host, .hostMem, .falt, .mem, .bal, .clok] s (s.setPool q { s.pool q with head := 0, count := 0 }) :=
    (Keep.rfl' s).upd rfl rfl rfl rfl
  have hring : Keep [.od, .host, .hostMem, .falt, .mem, .bal, .clok] s w := ringWrite_keep q _ _ hset
  have hclok : t.clok = w.clok := by rw [ht, poolEvent_clok, poolChanged_clok, wr_clok]
  obtain ⟨hevents, hfree⟩ := POOL_STATE_ne q
  refine ⟨?_, (pool_of hclok _).trans hown, fun p hp => ?_, ?_, ?_, ?_⟩
  · rw [ht, poolEvent_rd _ _ _ hevents, poolChanged_rd _ _ _ _ hevents hfree, rd_wr_same]
  · exact (pool_of hclok p).trans ((hothers p hp).trans ((pool_setPool ..).trans (if_neg hp)))
  · rw [ht]
    exact poolEvent_bit _ _
  · rw [ht, poolEvent_mem, poolChanged_mem, wr_mem]
  · rw [ht]
    exact poolEvent_keep _ _ (poolChanged_keep _ _ _ (hring.wr _ _))

theorem writeback_facts {q : Fin 8} {s : State} (hfull : 56 ≤ (s.pool q).cache.length)
    (hroom : (s.pool q).count + 32 ≤ (s.pool q).ringEntries) :
    let k := (s.pool q).cache.length - 32
    let w := State.ringWrite q ((s.pool q).cache.drop k).reverse (s.setPool q { s.pool q with cache := (s.pool q).cache.take k })
    let t := s.writeback q
    t.pool q = { s.pool q with cache := (s.pool q).cache.take k, count := (s.pool q).count + 32 } ∧
      (∀ p, p ≠ q.val → t.pool p = s.pool p) ∧ t.mem = w.mem ∧ t.freeTickets q = s.freeTickets q ∧
      Keep [.od, .host, .hostMem, .falt, .mem, .bal, .clok] s t := by
  intro k w t
  have ht : t = w.poolChanged q (s.freeTickets q) := rfl
  have hlen : ((s.pool q).cache.drop k).reverse.length = 32 := by
    rw [List.length_reverse, List.length_drop]
    omega
  have hpool : (s.setPool q { s.pool q with cache := (s.pool q).cache.take k }).pool q = { s.pool q with cache := (s.pool q).cache.take k } :=
    (pool_setPool ..).trans (if_pos rfl)
  obtain ⟨hown, hothers⟩ := ringWrite_pools q ((s.pool q).cache.drop k).reverse
    (s.setPool q { s.pool q with cache := (s.pool q).cache.take k }) (by
      rw [hpool, hlen]
      exact hroom)
  rw [hpool, hlen] at hown
  have hset : Keep [.od, .host, .hostMem, .falt, .mem, .bal, .clok] s (s.setPool q { s.pool q with cache := (s.pool q).cache.take k }) :=
    (Keep.rfl' s).upd rfl rfl rfl rfl
  have hring : Keep [.od, .host, .hostMem, .falt, .mem, .bal, .clok] s w := ringWrite_keep q _ _ hset
  have hclok : t.clok = w.clok := poolChanged_clok _ _ _
  have htq : t.pool q = { s.pool q with cache := (s.pool q).cache.take k, count := (s.pool q).count + 32 } :=
    (pool_of hclok _).trans hown
  refine ⟨htq, fun p hp => ?_, poolChanged_mem _ _ _, ?_, poolChanged_keep _ _ _ hring⟩
  · exact (pool_of hclok p).trans ((hothers p hp).trans ((pool_setPool ..).trans (if_neg hp)))
  · unfold State.freeTickets
    rw [htq]
    simp only [List.length_take]
    omega

/-! ### The zero-fill of a freed buffer (R509) -/

theorem scrubDone_facts {b : ScrubBuf} {rest : List ScrubBuf} {s : State} (hscrub : s.clok.scrub = b :: rest)
    (hfree : s.meetsImage b.addr b.len = false) (hmem : s.isMem clokAcc true b.addr b.len)
    (hwritable : s.writable clokAcc b.addr b.len) :
    let q := ticketPool b.ticket
    let t := s.scrubDone
    t.clok.scrub = rest ∧ (∀ x, t.memByte x = if b.addr ≤ x ∧ x < b.addr + b.len then 0#8 else s.memByte x) ∧
      t.pool q = (if b.back then { s.pool q with cache := b.ticket :: (s.pool q).cache } else s.pool q) ∧
      Keep [.od, .host, .mem, .bal, .clok] s t := by
  intro q t
  obtain ⟨z, hz⟩ : ∃ z : State, z = { s with clok := { s.clok with scrub := rest } } := ⟨_, rfl⟩
  have hkz : Keep [.clok] s z := hz ▸ (Keep.rfl' s).upd rfl rfl rfl rfl
  have hlen : (zeros b.len).length = b.len := List.length_replicate
  have hfreez : z.meetsImage b.addr b.len = false := hz ▸ hfree
  have hstored : z.Stored (z.clokWrite q b.addr (zeros b.len)) b.addr (zeros b.len) :=
    clokWrite_of_mem (hlen.symm ▸ hfreez) (hlen.symm ▸ (hz ▸ hmem)) (hlen.symm ▸ (hz ▸ hwritable))
  have hfill : z.zeroFill q b.addr b.len = z.clokWrite q b.addr (zeros b.len) := if_neg (by rw [hfreez]; decide)
  have ht : t = if b.back then
      ((z.clokWrite q b.addr (zeros b.len)).setPool q { (z.clokWrite q b.addr (zeros b.len)).pool q with
        cache := b.ticket :: ((z.clokWrite q b.addr (zeros b.len)).pool q).cache }).poolChanged q
          ((z.clokWrite q b.addr (zeros b.len)).freeTickets q)
      else z.clokWrite q b.addr (zeros b.len) := by
    show s.scrubDone = _
    unfold State.scrubDone
    simp only [hscrub]
    rw [← hz, hfill]
  obtain ⟨u, hu⟩ : ∃ u, u = z.clokWrite q b.addr (zeros b.len) := ⟨_, rfl⟩
  rw [← hu] at hstored ht
  have hclok : u.clok = { s.clok with scrub := rest } := by rw [hstored.keeps.part .clok, hz]
  have hpool : u.pool q = s.pool q := by
    unfold State.pool
    rw [hclok]
  have hbyte (x : Nat) : u.memByte x = if b.addr ≤ x ∧ x < b.addr + b.len then 0#8 else s.memByte x := by
    rw [stored_zero hstored, hz]
    rfl
  have hku : Keep [.od, .host, .mem, .bal, .clok] s u := (hkz.mono (within_of (by decide))).trans (hstored.keeps.mono (within_of (by decide)))
  rw [ht]
  cases b.back with
  | false => exact ⟨congrArg Cloak.scrub hclok, hbyte, hpool, hku⟩
  | true =>
    simp only [if_true]
    have hset : Keep [.od, .host, .mem, .bal, .clok] s (u.setPool q { u.pool q with cache := b.ticket :: (u.pool q).cache }) :=
      hku.upd rfl rfl rfl rfl
    have hchanged := poolChanged_keep (fs := [.od, .host])
      (u.setPool q { u.pool q with cache := b.ticket :: (u.pool q).cache }) q (u.freeTickets q) (Keep.rfl' _)
    refine ⟨?_, fun x => ?_, ?_, hset.trans (hchanged.mono (within_of (by decide)))⟩
    · rw [poolChanged_clok]
      exact congrArg Cloak.scrub hclok
    · unfold State.memByte
      rw [poolChanged_mem]
      exact hbyte x
    · rw [pool_of (poolChanged_clok ..), pool_setPool, if_pos rfl, hpool]

/-! ### Refills (R491, R501) -/

section Refill

variable {q : Fin 8} {s u : State} {ts : List Nat}

theorem cacheRefill_ready (hready : s.rd (OD.POOL_STATE q) = 2) (hlow : (s.pool q).cache.length ≤ 16) (hcount : (s.pool q).count ≠ 0) :
    exec (.cacheRefill q) s = .next (
      if (s.refill q).1 then ((s.refill q).2.poolChanged q (s.freeTickets q)).failWaiting q
      else ((s.refill q).2.poolChanged q (s.freeTickets q)).drainClk) :=
  congrArg Host.Outcome.next (if_neg (by
    rw [hready]
    simp only [ne_eq, not_true_eq_false, false_or, not_or, Nat.not_lt]
    exact ⟨hlow, hcount⟩))

theorem refill_good (hread : State.ringRead q (min 32 (s.pool q).count) s [] = (ts, none, u)) :
    s.refill q = (false, u.setPool q { u.pool q with cache := ts ++ (u.pool q).cache }) := by
  unfold State.refill
  dsimp only
  rw [hread]
  rfl

theorem refill_bad {x : Nat} (hread : State.ringRead q (min 32 (s.pool q).count) s [] = (ts, some x, u)) :
    s.refill q = (true, (u.setPool q { u.pool q with cache := ts ++ (u.pool q).cache }).poolRecord q x) := by
  unfold State.refill
  dsimp only
  rw [hread]
  rfl

/-- A ring that fails with nothing waiting leaves its good tickets and one ITEM record (R501). -/
theorem cacheRefill_failed {x : Nat} (hready : s.rd (OD.POOL_STATE q) = 2) (hlow : (s.pool q).cache.length ≤ 16)
    (hcount : (s.pool q).count ≠ 0) (hread : State.ringRead q (min 32 (s.pool q).count) s [] = (ts, some x, u))
    (hnone : s.clok.waiting = []) :
    ∃ t, exec (.cacheRefill q) s = .next t ∧ t.pool q = { u.pool q with cache := ts ++ (u.pool q).cache } ∧
      t.rd (OD.CLASS_COUNTS 1) = min (u.rd (OD.CLASS_COUNTS 1) + 1) 0xFFFFFFFF := by
  have hwaits : u.clok.waiting = [] := by
    have h := ringRead_waiting q (min 32 (s.pool q).count) s []
    rw [hread] at h
    exact h.trans hnone
  obtain ⟨v, hv⟩ : ∃ v, v = u.setPool q { u.pool q with cache := ts ++ (u.pool q).cache } := ⟨_, rfl⟩
  have hclok : ((v.poolRecord q x).poolChanged q (s.freeTickets q)).clok = v.clok := by rw [poolChanged_clok, poolRecord_clok]
  refine ⟨(v.poolRecord q x).poolChanged q (s.freeTickets q), ?_, ?_, ?_⟩
  · rw [cacheRefill_ready hready hlow hcount, refill_bad hread, hv]
    exact congrArg Host.Outcome.next (failWaiting_of_none (by rw [← hv, hclok, hv]; exact hwaits) q)
  · rw [pool_of hclok, hv, pool_setPool, if_pos rfl]
  · rw [poolChanged_rd _ _ _ _ (by decide) (MIN_FREE_ne (by decide) q), poolRecord_count, hv]
    rfl

end Refill

/-- Settles O41: a pool's ring and cache move tickets without losing one, by the laws of the ring's reads and writes. -/
theorem poolsFillAndKeepTheirTickets : Obligations.PoolsFillAndKeepTheirTickets := by
  unfold Obligations.PoolsFillAndKeepTheirTickets
  refine ⟨?ringWrite, ?ringRead, ?fill, ?refill, ?drain, ?writeback, ?scrub, ?corrected, ?record, ?entry⟩
  case ringWrite => exact fun q t s hroom hfree hmem hwritable => ringWrite_one hroom hfree hmem hwritable
  case ringRead =>
    intro q n acc s a t hmem hclean
    obtain ⟨b, hread⟩ := ringRead_one (n := n) (acc := acc) hmem hclean
    exact ⟨_, ⟨b, rfl⟩, hread⟩
  case fill => exact fun q s hfilling => ⟨_, rfl, poolFillDone_facts hfilling⟩
  case refill =>
    intro q s u ts hready hlow hcount
    refine ⟨fun hread => ?_, fun x hread hnone => cacheRefill_failed hready hlow hcount hread hnone⟩
    rw [cacheRefill_ready hready hlow hcount, refill_good hread]
    rfl
  case drain => exact fun s => drainClk_of_none
  case writeback =>
    intro q s hready hfull hroom
    exact ⟨_, congrArg Host.Outcome.next (if_neg (by rw [hready]; simpa using hfull)), writeback_facts hfull hroom⟩
  case scrub => exact fun b rest s hscrub hfree hmem hwritable => ⟨_, rfl, scrubDone_facts hscrub hfree hmem hwritable⟩
  case corrected =>
    intro w s
    refine ⟨_, congrArg Host.Outcome.next (if_pos rfl), ?_, ?_, record_keep _ _ _ _ _ _ _ (Keep.rfl' s)⟩
    · exact logFault_count s ⟨0, FaultClass.corrected, 32, 0, 1, OD.LEAKS, 0xFF, 0, 0⟩
        (show OD.CLASS_COUNTS FaultClass.corrected ≠ OD.FAULTS_LOST by decide)
    · exact (record_keep (fs := [.od, .host, .falt]) s _ _ _ _ _ _ (Keep.rfl' s)).part .clok
  case record =>
    intro i r s hrec hopen
    obtain ⟨z, hz⟩ : ∃ z : State, z = { s with clok := { s.clok with recs := dropAt s.clok.recs i } } := ⟨_, rfl⟩
    obtain ⟨hleaks, hcount, hkeep⟩ := leaked_facts z (ticketPool r.ticket)
    have hrd (k : Nat) : z.rd k = s.rd k := by rw [hz]; rfl
    have hkz : Keep [.od, .host, .falt, .clok] s z := hz ▸ (Keep.rfl' s).upd rfl rfl rfl rfl
    have hstays : ((z.bump OD.LEAKS).poolRecord (ticketPool r.ticket) 0).rd (OD.POOL_STATE (ticketPool r.ticket)) ≠ 3 := by
      rw [poolRecord_rd _ _ _ (by unfold OD.POOL_STATE OD.FAULTS_LOST; omega) (by unfold OD.POOL_STATE OD.CLASS_COUNTS; omega), rd_bump,
        if_neg (by unfold OD.POOL_STATE OD.LEAKS; omega), hrd]
      exact hopen
    refine ⟨(z.bump OD.LEAKS).poolRecord (ticketPool r.ticket) 0, congrArg Host.Outcome.next ?_, ?_, hrd _ ▸ hleaks, hrd _ ▸ hcount,
      hkz.trans (hkeep.mono (within_of (by decide)))⟩
    · simp only [Bool.false_eq_true, if_false, hrec]
      rw [← hz, poolSettle_id _ _ hstays]
    · rw [poolRecord_clok, bump_clok, hz]
      rfl
  case entry =>
    intro q i s hi
    obtain ⟨z, hz⟩ : ∃ z, z = (s.setPool q { s.pool q with cache := dropAt (s.pool q).cache i }).poolChanged q (s.freeTickets q) := ⟨_, rfl⟩
    obtain ⟨hleaks, hcount, hkeep⟩ := leaked_facts z q
    have hrd {k : Nat} (hk : k ≠ OD.POOL_EVENTS) (hbelow : k < 0x581000) : z.rd k = s.rd k := by
      rw [hz, poolChanged_rd _ _ _ _ hk (MIN_FREE_ne hbelow q)]
      rfl
    have hset : Keep [.od, .host, .falt, .clok] s (s.setPool q { s.pool q with cache := dropAt (s.pool q).cache i }) :=
      (Keep.rfl' s).upd rfl rfl rfl rfl
    have hkz : Keep [.od, .host, .falt, .clok] s z := hz ▸ poolChanged_keep _ _ _ hset
    refine ⟨(z.bump OD.LEAKS).poolRecord q 0, congrArg Host.Outcome.next ?_, ?_, hrd (k := OD.LEAKS) (by decide) (by decide) ▸ hleaks,
      hrd (k := OD.CLASS_COUNTS 1) (by decide) (by decide) ▸ hcount, hkz.trans (hkeep.mono (within_of (by decide)))⟩
    · simp only [Bool.false_eq_true, if_false]
      rw [if_neg (Nat.not_le.2 hi), ← hz]
    · rw [pool_of (poolRecord_clok _ _ _), pool_of (bump_clok _ _), hz, pool_of (poolChanged_clok ..), pool_setPool, if_pos rfl]
      rfl

end Sys2Proof.Machine
end

section
/-!
The delivery of a closed frame (R538, R539; obligation O42).
-/

set_option Elab.async false

namespace Sys2Proof.Machine

/-- A frame of no lines for landing 0. -/
def emptyFrame : Frame :=
  { width := 0, height := 0, dtype := 0, pad := 0, landing := 0, timeout := 0, ticket := 0, seq := 0, since := 0, startTime := 0 }

/-- The sensor ports are powered and landings are not, and a closed frame waits on port 0. -/
def frameWithoutLandings : State :=
  { State.reset.wr OD.DOMAIN_ON (2 ^ 23) with ports := { sens := [(0, { closed := [emptyFrame] })] } }

/-- The state in which the frame's landing is asked: its times and epoch are written. -/
def frameAtItsLanding : State :=
  (((frameWithoutLandings.setSens 0 { frameWithoutLandings.sens 0 with closed := [] }).wr (OD.FRAME_START_TIME 0) 0).wr
    (OD.FRAME_END_TIME 0) 0).wr (OD.FRAME_EPOCH 0) 0

/-- Refutes O42: a delivery whose landing answers nothing, here because domain 1 is down, leaves an ITEM record, whose count is
not among the objects that the statement lets change. -/
theorem not_framesAreCapturedAndDelivered : ¬ Obligations.FramesAreCapturedAndDelivered := by
  rintro ⟨-, -, -, -, -, -, -, hdelivery, -⟩
  have hlanding : frameAtItsLanding.landOp ⟨64, none⟩ 0 (.push (BitVec.ofNat 64 0) false) 0 = (none, frameAtItsLanding) := rfl
  obtain ⟨t, hexec, -, -, -, -, hsame, -⟩ := hdelivery 0 emptyFrame [] frameWithoutLandings frameAtItsLanding none (by decide) (by decide) hlanding
  have hcount : t.rd (OD.CLASS_COUNTS FaultClass.item) = frameAtItsLanding.rd (OD.CLASS_COUNTS FaultClass.item) := hsame.rd _ (by decide)
  have ht : frameWithoutLandings.deliverFrame 0 = t := Host.Outcome.next.inj hexec
  rw [← ht] at hcount
  exact absurd hcount (by decide +kernel)

end Sys2Proof.Machine
end

section
/-!
The audio side of the ports (spec/12, R543 to R555; obligation O43).
-/

set_option Elab.async false

namespace Sys2Proof.Machine

/-! ### Ring writes of streaming units: all bytes or none (R80, R747) -/

theorem orElse_isSome (x : Option Nat) (a : Nat) : (orElse x (some a)).isSome = true := by
  cases x <;> rfl

/-- What the check of a whole write notes of one byte. -/
def State.noteFail (s : State) (q : Acc) (r : MemRes) (x : Nat) : MemRes :=
  match s.place q true x with
  | .bad => { r with err := orElse r.err (some x) }
  | .win c => { r with win := orElse r.win (some (windowDetail x c)) }
  | _ => r

theorem wouldFail_eq (s : State) (q : Acc) (a n : Nat) : s.wouldFail q a n = (rangeFrom a n).foldl (s.noteFail q) {} := rfl

theorem noteFail_err {s : State} {q : Acc} {r : MemRes} {x : Nat} (h : r.err.isSome = true ∨ s.place q true x = .bad) :
    (s.noteFail q r x).err.isSome = true := by
  unfold State.noteFail
  cases hplace : s.place q true x with
  | bad => exact orElse_isSome _ _
  | win c => exact h.resolve_right (by rw [hplace]; simp)
  | host bus => exact h.resolve_right (by rw [hplace]; simp)
  | mem => exact h.resolve_right (by rw [hplace]; simp)

/-- The check of a whole write finds a byte that is bad. -/
theorem wouldFail_bad {s : State} {q : Acc} {a n i : Nat} (hi : i < n) (hbad : s.place q true (a + i) = .bad) :
    (s.wouldFail q a n).err.isSome = true := by
  have hfold (xs : List Nat) (r : MemRes) (h : r.err.isSome = true ∨ ∃ x ∈ xs, s.place q true x = .bad) :
      (xs.foldl (s.noteFail q) r).err.isSome = true := by
    induction xs generalizing r with
    | nil => exact h.elim id (fun ⟨x, hx, _⟩ => absurd hx List.not_mem_nil)
    | cons y ys ih =>
      refine ih _ ?_
      rcases h with h | ⟨x, hx, hplace⟩
      · exact .inl (noteFail_err (.inl h))
      · rcases List.mem_cons.1 hx with rfl | hx
        · exact .inl (noteFail_err (.inr hplace))
        · exact .inr ⟨x, hx, hplace⟩
  rw [wouldFail_eq]
  exact hfold _ _ (.inr ⟨a + i, List.mem_map.2 ⟨i, List.mem_range.2 hi, rfl⟩, hbad⟩)

/-- A window's fault is counted and shown at two objects of its tenancy, whose keys end in 0x0E and 0x0F. -/
theorem countWin_rd (s : State) (q : Acc) (r : MemRes) {k : Nat} (huncorr : k ≠ OD.UNCORR_ERRORS) (hcount : k % 256 ≠ 14)
    (haddr : k % 256 ≠ 15) : (s.countWin q r).rd k = s.rd k := by
  have hfaults (t : Nat) : k ≠ OD.WINDOW_FAULTS t ∧ k ≠ OD.WINDOW_FAULT_ADDR t := by
    unfold OD.WINDOW_FAULTS OD.WINDOW_FAULT_ADDR
    omega
  have hcounted (v : State) (t d : Nat) : (((v.bump (OD.WINDOW_FAULTS t)).wr (OD.WINDOW_FAULT_ADDR t) d).signalTen t 1).rd k = v.rd k := by
    obtain ⟨h1, h2⟩ := hfaults t
    rw [rd_of_od ((signalTen_keep (fs := [.host]) _ _ _ (Keep.rfl' _)).part .od), rd_wr_ne _ h2, rd_bump, if_neg h1]
  unfold State.countWin
  split
  · rfl
  · next d _ =>
    dsimp only
    rw [hcounted]
    split
    · rw [rd_bump, if_neg huncorr]
    · rfl

/-- The objects that a write's failure leaves as they were: all but its counts. -/
structure OutsideFailure (k : Nat) : Prop where
  uncorr : k ≠ OD.UNCORR_ERRORS
  count : k % 256 ≠ 14
  addr : k % 256 ≠ 15
  lost : k ≠ OD.FAULTS_LOST
  item : k ≠ OD.CLASS_COUNTS FaultClass.item

/-- A ring write that is barred, or that meets a bad byte, is not made. -/
theorem ringPut_bad {s : State} {q : Acc} {a i : Nat} {bs : List Byte} (hi : i < bs.length)
    (hbad : s.ringBarred (a + i) = true ∨ s.place q true (a + i) = .bad) :
    ∃ x u, s.ringPut q a bs = (some x, u) ∧ Keep [.od, .host, .falt] s u ∧ ∀ k, OutsideFailure k → u.rd k = s.rd k := by
  unfold State.ringPut
  cases hfind : (rangeFrom a bs.length).find? s.ringBarred with
  | some x => exact ⟨x, s, rfl, Keep.rfl' s, fun _ _ => rfl⟩
  | none =>
    have hclear : s.ringBarred (a + i) ≠ true :=
      List.find?_eq_none.1 hfind (a + i) (List.mem_map.2 ⟨i, List.mem_range.2 hi, rfl⟩)
    have herr := wouldFail_bad hi (hbad.resolve_left hclear)
    have hok : (s.wouldFail q a bs.length).ok = false := by
      unfold MemRes.ok
      rw [decide_eq_false (fun h => by rw [h] at herr; cases herr)]
      rfl
    have hwhole : s.wholeWrite q a bs = (s.wouldFail q a bs.length, s.countWin q (s.wouldFail q a bs.length)) :=
      if_neg (by rw [hok]; decide)
    refine ⟨(s.wouldFail q a bs.length).failAt a, _, ?_, errReported_keep _ q (s.wouldFail q a bs.length) (countWin_keep s q (s.wouldFail q a bs.length) (Keep.rfl' s)),
      fun k hk => (errReported_rd _ _ _ hk.lost hk.item).trans (countWin_rd _ _ _ hk.uncorr hk.count hk.addr)⟩
    dsimp only
    rw [hwhole]
    dsimp only
    rw [if_neg (by rw [hok]; decide)]

/-- A ring write of bytes that are memory, unbarred and without an uncorrectable error is made. -/
theorem ringPut_good {s : State} {q : Acc} {a : Nat} {bs : List Byte} (hsmooth : s.smooth)
    (hfree : ∀ i, i < bs.length → s.ringBarred (a + i) = false ∧ s.place q true (a + i) = .mem ∧ s.mark (a + i) ≠ 2) :
    ∃ u, s.ringPut q a bs = (none, u) ∧ s.Stored u a bs := by
  have hmem : s.isMem q true a bs.length := fun i hi => (hfree i hi).2.1
  have hmarks : ∀ x, a ≤ x → x < a + bs.length → s.mark x ≠ 2 := fun x hx hlt => by
    have h := (hfree (x - a) (by omega)).2.2
    rwa [Nat.add_sub_cancel' hx] at h
  have hfind : (rangeFrom a bs.length).find? s.ringBarred = none := by
    refine List.find?_eq_none.2 fun x hx => ?_
    obtain ⟨i, hi, rfl⟩ := List.mem_map.1 hx
    rw [(hfree i (List.mem_range.1 hi)).1]
    decide
  obtain ⟨u, hwrite, hstored⟩ := memWrite_mem q s a bs hmem ⟨partialBad_none hmarks, hsmooth⟩
  refine ⟨u, ?_, hstored⟩
  unfold State.ringPut
  rw [hfind, wholeWrite_ok s q a bs hmem, hwrite]
  rfl

/-! ### TDM frames (R543, R546 to R548) -/

section Tdm

variable (s : State) (n : Nat) (good : Bool)

/-- A frame's arrival on port n before its samples are kept: a bad one is counted, a good one of the source ends HOLDOVER. -/
def State.tdmArrived : State :=
  let s := if good then s else s.countFirst (OD.TDM_FRAME_ERRORS n) n
  if good && decide (s.clockPort = some n) && decide (s.rd OD.CLOCK_STATE = 2) then s.wr OD.CLOCK_STATE 1 else s

theorem tdmArrived_keep : Keep [.od, .host, .falt] s (s.tdmArrived n good) := by
  unfold State.tdmArrived
  cases good with
  | false => exact countFirst_keep _ _ _ (Keep.rfl' s)
  | true =>
    simp only [if_true]
    split
    · exact (Keep.rfl' s).wr _ _
    · exact Keep.rfl' s

theorem tdmArrived_rd {k : Nat} (hlost : k ≠ OD.FAULTS_LOST) (hcorr : k ≠ OD.CLASS_COUNTS FaultClass.corrected) :
    (s.tdmArrived n good).rd k =
      if k = OD.CLOCK_STATE ∧ good = true ∧ s.clockPort = some n ∧ s.rd OD.CLOCK_STATE = 2 then 1
      else if k = OD.TDM_FRAME_ERRORS n ∧ good = false then min (s.rd k + 1) 0xFFFFFFFF else s.rd k := by
  unfold State.tdmArrived
  cases good with
  | false =>
    simp only [Bool.false_eq_true, if_false, Bool.false_and, false_and, and_false, and_true]
    by_cases hk : k = OD.TDM_FRAME_ERRORS n
    · subst hk
      rw [if_pos rfl]
      exact (countFirst_facts s _ n hlost hcorr).1
    · rw [if_neg hk]
      exact countFirst_rd s _ n hk hlost hcorr
  | true =>
    simp only [if_true, Bool.true_and, Bool.and_eq_true, decide_eq_true_eq, true_and, Bool.true_eq_false, and_false, if_false]
    by_cases hsource : s.clockPort = some n ∧ s.rd OD.CLOCK_STATE = 2
    · rw [if_pos hsource, rd_wr]
      exact if_congr (and_iff_left hsource).symm rfl rfl
    · rw [if_neg hsource, if_neg (fun h => hsource h.2)]

theorem tdmArrived_role (i : Nat) : (s.tdmArrived n good).rd (OD.TDM_ROLE i) = s.rd (OD.TDM_ROLE i) := by
  have h1 : OD.TDM_ROLE i ≠ OD.CLOCK_STATE := by unfold OD.TDM_ROLE OD.CLOCK_STATE; omega
  have h2 : OD.TDM_ROLE i ≠ OD.TDM_FRAME_ERRORS n := by unfold OD.TDM_ROLE OD.TDM_FRAME_ERRORS; omega
  have h3 : OD.TDM_ROLE i ≠ OD.FAULTS_LOST := by unfold OD.TDM_ROLE OD.FAULTS_LOST; omega
  have h4 : OD.TDM_ROLE i ≠ OD.CLASS_COUNTS FaultClass.corrected := by unfold OD.TDM_ROLE OD.CLASS_COUNTS FaultClass.corrected; omega
  rw [tdmArrived_rd s n good h3 h4, if_neg (fun h => h1 h.1), if_neg (fun h => h2 h.1)]

/-- A frame of a port, as it is kept: its slots' samples, or none when it is bad (R546, R548). -/
def State.tdmKept (slots : List (BitVec 32)) : List Nat :=
  if good then (slots.take (s.rd (OD.TDM_SLOTS n))).map (fun x => s.tdmSample n x) else []

/-- A frame of the clock's source or of a PROVIDER takes the buffer (R547). -/
@[reducible] def State.tdmDirect : Prop := s.clockPort = some n ∨ s.rd (OD.TDM_ROLE n) = 1

theorem tdmArrived_port : (s.tdmArrived n good).ports = s.ports := (tdmArrived_keep s n good).part .ports

/-- What a frame's arrival leaves, by the place it finds (R547). -/
theorem tdmIn_eq {s : State} {n : Nat} {good : Bool} (hon : s.powered 23 = true) (henable : s.flag (OD.TDM_ENABLE n) = true)
    (slots : List (BitVec 32)) :
    let u := s.tdmArrived n good
    let port := s.ports.aud.tdmPort n
    (s.tdmDirect n → s.tdmIn n good slots = u.setAud (u.ports.aud.setTdm n { port with buf := [s.tdmKept n good slots] })) ∧
    (¬s.tdmDirect n → port.buf.length < 2 →
      s.tdmIn n good slots = u.setAud (u.ports.aud.setTdm n { port with buf := port.buf ++ [s.tdmKept n good slots] })) ∧
    (¬s.tdmDirect n → ¬port.buf.length < 2 → s.tdmIn n good slots = u.countFirst (OD.TDM_SLIPS n) n) := by
  intro u port
  have hgo : ¬((!(s.powered 23 && s.flag (OD.TDM_ENABLE n))) = true) := by
    rw [hon, henable]
    decide
  have hrole : u.rd (OD.TDM_ROLE n) = s.rd (OD.TDM_ROLE n) := tdmArrived_role s n good n
  have hports : u.ports = s.ports := tdmArrived_port s n good
  have hmodel : s.tdmIn n good slots =
      if s.clockPort = some n ∨ u.rd (OD.TDM_ROLE n) = 1 then
        u.setAud (u.ports.aud.setTdm n { u.ports.aud.tdmPort n with buf := [s.tdmKept n good slots] })
      else if (u.ports.aud.tdmPort n).buf.length < 2 then
        u.setAud (u.ports.aud.setTdm n
          { u.ports.aud.tdmPort n with buf := (u.ports.aud.tdmPort n).buf ++ [s.tdmKept n good slots] })
      else u.countFirst (OD.TDM_SLIPS n) n := by
    unfold State.tdmIn
    rw [if_neg hgo]
    cases good with
    | true => rfl
    | false =>
      have hclock : (s.countFirst (OD.TDM_FRAME_ERRORS n) n).clockPort = s.clockPort := clockPort_of
        (countFirst_rd s _ n (by unfold OD.AUD_CLOCK_SOURCE OD.TDM_FRAME_ERRORS; omega) (by decide) (by decide))
        (fun i => tdmArrived_role s n false i)
      simp only [hclock, Bool.false_eq_true, if_false, Bool.false_and]
      rfl
  rw [hmodel, hrole, hports]
  exact ⟨fun h => if_pos h, fun h hroom => (if_neg h).trans (if_pos hroom), fun h hfull => (if_neg h).trans (if_neg hfull)⟩

/-- The counts of a port and the clock's state are objects of their own. -/
theorem tdm_keys (n : Nat) : OD.CLOCK_STATE ≠ OD.TDM_SLIPS n ∧ OD.CLOCK_STATE ≠ OD.TDM_FRAME_ERRORS n ∧
    OD.TDM_FRAME_ERRORS n ≠ OD.TDM_SLIPS n ∧
    (∀ k, k = OD.TDM_SLIPS n ∨ k = OD.TDM_FRAME_ERRORS n ∨ k = OD.CLOCK_STATE → k ≠ OD.FAULTS_LOST ∧ k ≠ OD.CLASS_COUNTS FaultClass.corrected) := by
  unfold OD.CLOCK_STATE OD.TDM_SLIPS OD.TDM_FRAME_ERRORS OD.FAULTS_LOST OD.CLASS_COUNTS FaultClass.corrected
  exact ⟨by omega, by omega, by omega, fun k hk => by omega⟩

theorem tdmIn_rd {s : State} {n : Nat} {good : Bool} (hon : s.powered 23 = true) (henable : s.flag (OD.TDM_ENABLE n) = true)
    (slots : List (BitVec 32)) {k : Nat} (hlost : k ≠ OD.FAULTS_LOST) (hcorr : k ≠ OD.CLASS_COUNTS FaultClass.corrected) :
    (s.tdmIn n good slots).rd k =
      if k = OD.TDM_SLIPS n ∧ ¬(s.tdmDirect n ∨ (s.ports.aud.tdmPort n).buf.length < 2) then
        min ((s.tdmArrived n good).rd k + 1) 0xFFFFFFFF else (s.tdmArrived n good).rd k := by
  obtain ⟨hdirect, hroom, hfull⟩ := tdmIn_eq (good := good) hon henable slots
  by_cases h1 : s.tdmDirect n
  · rw [hdirect h1, if_neg (fun h => h.2 (.inl h1))]
    rfl
  · by_cases h2 : (s.ports.aud.tdmPort n).buf.length < 2
    · rw [hroom h1 h2, if_neg (fun h => h.2 (.inr h2))]
      rfl
    · rw [hfull h1 h2]
      by_cases hk : k = OD.TDM_SLIPS n
      · subst hk
        rw [if_pos ⟨rfl, not_or.2 ⟨h1, h2⟩⟩]
        exact (countFirst_facts _ _ n hlost hcorr).1
      · rw [if_neg (fun h => hk h.1)]
        exact countFirst_rd _ _ n hk hlost hcorr

/-- A TDM frame enters its port's buffer, where it finds a place, and its objects tell of it (R543, R546, R547). -/
theorem tdmIn_facts {s : State} {n : Nat} {good : Bool} (hon : s.powered 23 = true) (henable : s.flag (OD.TDM_ENABLE n) = true)
    (slots : List (BitVec 32)) :
    let port := s.ports.aud.tdmPort n
    let t := s.tdmIn n good slots
    t.ports.aud.tdmPort n = { port with
      buf := if s.tdmDirect n then [s.tdmKept n good slots] else if port.buf.length < 2 then port.buf ++ [s.tdmKept n good slots] else port.buf } ∧
    (∀ m, m ≠ n → t.ports.aud.tdmPort m = s.ports.aud.tdmPort m) ∧
    t.rd OD.CLOCK_STATE = (if good = true ∧ s.clockPort = some n ∧ s.rd OD.CLOCK_STATE = 2 then 1 else s.rd OD.CLOCK_STATE) ∧
    t.rd (OD.TDM_FRAME_ERRORS n) = (if good then s.rd (OD.TDM_FRAME_ERRORS n) else min (s.rd (OD.TDM_FRAME_ERRORS n) + 1) 0xFFFFFFFF) ∧
    t.rd (OD.TDM_SLIPS n) = (if s.tdmDirect n ∨ port.buf.length < 2 then s.rd (OD.TDM_SLIPS n) else min (s.rd (OD.TDM_SLIPS n) + 1) 0xFFFFFFFF) := by
  intro port t
  have hports : (s.tdmArrived n good).ports = s.ports := tdmArrived_port s n good
  obtain ⟨hslips, herrors, hcounts, hfaults⟩ := tdm_keys n
  obtain ⟨hs1, hs2⟩ := hfaults _ (.inl rfl)
  obtain ⟨he1, he2⟩ := hfaults _ (.inr (.inl rfl))
  have hset (x : TdmPort) (m : Nat) : ((s.tdmArrived n good).setAud ((s.tdmArrived n good).ports.aud.setTdm n x)).ports.aud.tdmPort m =
      if m = n then x else s.ports.aud.tdmPort m := by
    rw [aud_setAud, tdm_set, hports]
  obtain ⟨hdirect, hroom, hfull⟩ := tdmIn_eq (good := good) hon henable slots
  have ht : t = s.tdmIn n good slots := rfl
  refine ⟨?_, fun m hm => ?_, ?_, ?_, ?_⟩
  · by_cases h1 : s.tdmDirect n
    · rw [ht, hdirect h1, hset, if_pos rfl, if_pos h1]
    · by_cases h2 : port.buf.length < 2
      · rw [ht, hroom h1 h2, hset, if_pos rfl, if_neg h1, if_pos h2]
      · rw [ht, hfull h1 h2, (countFirst_facts _ _ n hs1 hs2).2, hports, if_neg h1, if_neg h2]
  · by_cases h1 : s.tdmDirect n
    · rw [ht, hdirect h1, hset, if_neg hm]
    · by_cases h2 : port.buf.length < 2
      · rw [ht, hroom h1 h2, hset, if_neg hm]
      · rw [ht, hfull h1 h2, (countFirst_facts _ _ n hs1 hs2).2, hports]
  · rw [ht, tdmIn_rd hon henable slots (by decide) (by decide), if_neg (fun h => hslips h.1), tdmArrived_rd _ _ _ (by decide) (by decide),
      if_neg (show ¬(OD.CLOCK_STATE = OD.TDM_FRAME_ERRORS n ∧ good = false) from fun h => herrors h.1)]
    simp only [true_and]
  · rw [ht, tdmIn_rd hon henable slots he1 he2, if_neg (fun h => hcounts h.1), tdmArrived_rd _ _ _ he1 he2,
      if_neg (fun h => herrors h.1.symm)]
    cases good <;> simp
  · have hbefore : (s.tdmArrived n good).rd (OD.TDM_SLIPS n) = s.rd (OD.TDM_SLIPS n) := by
      rw [tdmArrived_rd _ _ _ hs1 hs2, if_neg (fun h => hslips h.1.symm), if_neg (fun h => hcounts h.1.symm)]
    rw [ht, tdmIn_rd hon henable slots hs1 hs2, hbefore]
    simp only [true_and, ite_not]
    rfl

end Tdm

/-! ### Sample periods (R545, R551 to R553) -/

theorem samplePeriod_stays {s : State} (h : s.powered 23 = false ∨ s.ports.aud.markDue = true) : s.samplePeriod = s :=
  if_pos (h.imp (fun h => by rw [h]; rfl) id)

/-- A sample period takes a sample of each source, delivers it under the live routes and moves the period on. -/
theorem samplePeriod_facts {s u v : State} {xs : List Nat} (hon : s.powered 23 = true) (hdue : s.ports.aud.markDue = false)
    (htake : s.takeSamples = (xs, u)) (hv : v = foldN 32 (fun s i => s.routeDeliver xs (31 - i)) u) :
    let t := s.samplePeriod
    t.ports.aud = { v.ports.aud with
      period := if v.ports.aud.period = 47 then 0 else v.ports.aud.period + 1, markDue := decide (v.ports.aud.period = 47) || v.ports.aud.markDue } ∧
    t.tick = { v.tick with audio := if v.powered 1 then v.tick.audio + 1 else v.tick.audio } ∧ Keep [.tick, .ports] v t := by
  have hgo : ¬((!s.powered 23) = true ∨ s.ports.aud.markDue = true) := by
    rw [hon, hdue]
    decide
  obtain ⟨w, hw⟩ : ∃ w : State, w = { v with tick := { v.tick with audio := if v.powered 1 then v.tick.audio + 1 else v.tick.audio } } := ⟨_, rfl⟩
  have hkw : Keep [.tick, .ports] v w := hw ▸ (Keep.rfl' v).upd rfl rfl rfl rfl
  have hports : w.ports = v.ports := hw ▸ rfl
  have htick : w.tick = { v.tick with audio := if v.powered 1 then v.tick.audio + 1 else v.tick.audio } := hw ▸ rfl
  have hmodel : s.samplePeriod = if w.ports.aud.period = 47 then w.setAud { w.ports.aud with period := 0, markDue := true }
      else w.setAud { w.ports.aud with period := w.ports.aud.period + 1 } := by
    unfold State.samplePeriod
    rw [if_neg hgo, htake]
    dsimp only
    rw [← hv, hw]
    cases v.powered 1 <;> rfl
  rw [hmodel, ← htick, ← hports]
  by_cases hlast : w.ports.aud.period = 47
  · rw [if_pos hlast]
    exact ⟨by rw [if_pos hlast, decide_eq_true hlast]; rfl, rfl, hkw.upd rfl rfl rfl rfl⟩
  · rw [if_neg hlast]
    exact ⟨by rw [if_neg hlast, decide_eq_false hlast]; rfl, rfl, hkw.upd rfl rfl rfl rfl⟩

theorem get_put_if {α : Type} [DecidableEq α] (d : Nat → α) (m : Sparse α) (c : Prop) [Decidable c] (k : Nat) (v : α) (j : Nat) :
    Sparse.get d (if c then Sparse.put d m k v else m) j = if c ∧ j = k then v else Sparse.get d m j := by
  by_cases h : c
  · rw [if_pos h, Sparse.get_put]
    exact if_congr (and_iff_right h).symm rfl rfl
  · rw [if_neg h, if_neg (fun hj => h hj.1)]

/-- One live route's delivery (R551 to R553). -/
theorem routeDeliver_facts (xs : List Nat) (r : Nat) (s : State) :
    let w := s.rd (OD.PORT_ROUTE_LIVE r)
    let v := s.routeSample w xs
    let t := s.routeDeliver xs r
    let per := s.ports.aud.period
    (bit w 31 = false → t = s) ∧
    (bit w 31 = true →
      (∀ k, Sparse.get (fun _ => 0) t.ports.aud.coln k =
        if bit w 30 = true ∧ k = 48 * bits w 27 3 + per then v else Sparse.get (fun _ => 0) s.ports.aud.coln k) ∧
      (∀ k, Sparse.get (fun _ => 0) t.ports.aud.block k =
        if bit w 26 = true ∧ bits w 18 5 < s.rd (OD.AR_CHANNELS (bits w 23 3)) ∧ k = (48 * bits w 23 3 + per) * 32 + bits w 18 5 then v
        else Sparse.get (fun _ => 0) s.ports.aud.block k) ∧ Keep [.ports] s t) := by
  intro w v t per
  refine ⟨fun hoff => if_pos (by rw [hoff]; rfl), fun hon => ?_⟩
  have ht : t = s.setAud { s.ports.aud with
      coln := if bit w 30 then Sparse.put (fun _ => 0) s.ports.aud.coln (48 * bits w 27 3 + per) v else s.ports.aud.coln
      block := if bit w 26 ∧ bits w 18 5 < s.rd (OD.AR_CHANNELS (bits w 23 3)) then
        Sparse.put (fun _ => 0) s.ports.aud.block ((48 * bits w 23 3 + per) * 32 + bits w 18 5) v else s.ports.aud.block } := by
    show s.routeDeliver xs r = _
    unfold State.routeDeliver
    rw [if_neg (by rw [hon]; decide)]
    dsimp only
    split <;> split <;> rfl
  rw [ht]
  refine ⟨fun k => ?_, fun k => ?_, (Keep.rfl' s).upd rfl rfl rfl rfl⟩
  · exact get_put_if _ s.ports.aud.coln (bit w 30 = true) _ v k
  · exact (get_put_if _ s.ports.aud.block (bit w 26 = true ∧ bits w 18 5 < s.rd (OD.AR_CHANNELS (bits w 23 3))) _ v k).trans
      (if_congr and_assoc rfl rfl)

/-! ### Samples (R547 to R550) -/

section Samples

variable {n : Nat} {s : State}

theorem tdmTake_next {f : List Nat} {rest : List (List Nat)} (hbuf : (s.ports.aud.tdmPort n).buf = f :: rest) :
    s.tdmTake n = (f, s.setAud (s.ports.aud.setTdm n { buf := rest, last := f })) := by
  unfold State.tdmTake
  simp only [hbuf]

theorem tdmTake_empty (hbuf : (s.ports.aud.tdmPort n).buf = []) :
    (s.tdmTake n).1 = if s.flag (OD.TDM_ENABLE n) then (s.ports.aud.tdmPort n).last else [] := by
  unfold State.tdmTake
  simp only [hbuf]
  by_cases hlast : (s.ports.aud.tdmPort n).last = []
  · simp [hlast]
  · by_cases henable : s.flag (OD.TDM_ENABLE n) = true <;> simp [hlast, henable]

theorem tdmTake_slip (hbuf : (s.ports.aud.tdmPort n).buf = []) (henable : s.flag (OD.TDM_ENABLE n) = true)
    (hlast : (s.ports.aud.tdmPort n).last ≠ []) (hsource : s.clockPort ≠ some n) (hrole : s.rd (OD.TDM_ROLE n) ≠ 1) :
    (s.tdmTake n).2 = s.countFirst (OD.TDM_SLIPS n) n := by
  unfold State.tdmTake
  simp only [hbuf]
  rw [if_pos ⟨henable, hlast⟩, if_neg (not_or.2 ⟨hsource, hrole⟩)]

theorem pdmTake_facts (k : Nat) (s : State) :
    let d := Sparse.get (fun _ => 0) s.ports.aud.pdm k
    (s.pdmTake k).1 = (if bit (s.rd OD.PDM_ENABLE) k = true ∧ d = 0 then s.drawFree.1 % 2 ^ 24 * 256 else 0) ∧
    Sparse.get (fun _ => 0) (s.pdmTake k).2.ports.aud.pdm k = (if bit (s.rd OD.PDM_ENABLE) k then d - 1 else d) := by
  intro d
  unfold State.pdmTake
  by_cases henable : bit (s.rd OD.PDM_ENABLE) k = true
  · rw [henable]
    by_cases hwait : 0 < d
    · simp only [Bool.not_true, Bool.false_eq_true, if_false, if_true, true_and]
      rw [if_pos hwait, if_neg (Nat.ne_of_gt hwait)]
      exact ⟨rfl, Sparse.get_put_same ..⟩
    · have hd : d = 0 := Nat.eq_zero_of_not_pos hwait
      simp only [Bool.not_true, Bool.false_eq_true, if_false, if_true, true_and]
      rw [if_neg hwait, if_pos hd]
      exact ⟨rfl, by rw [hd]; exact hd⟩
  · rw [Bool.not_eq_true] at henable
    rw [henable]
    simp only [Bool.not_false, if_true, Bool.false_eq_true, false_and, if_false]
    exact ⟨trivial, rfl⟩

end Samples

/-! ### Audio rings (R554, R555) -/

section RingBlock

variable {block : Sparse Nat} {count a : Nat} {s : State}

/-- The address at which ring a takes its next block. -/
def State.ringAddr (s : State) (a : Nat) : Nat := s.rd (OD.AR_BASE a) + s.rd (OD.AR_POS a) * s.rd (OD.AR_CHANNELS a) * 4

theorem ringWriteBlock_good {u : State} (hframes : s.rd (OD.AR_FRAMES a) ≠ 0)
    (hput : s.ringPut audioAcc (s.ringAddr a) (ringBytes block a (s.rd (OD.AR_CHANNELS a))) = (none, u))
    (hquiet : bit (u.rd (OD.AR_LANDING a)) 16 = false) :
    s.ringWriteBlock block count a =
      ((u.setAud { u.ports.aud with failed := setBit u.ports.aud.failed a false }).wr (OD.AR_POS a)
        ((s.rd (OD.AR_POS a) + 48) % s.rd (OD.AR_FRAMES a))).wr (OD.AR_WRITTEN a) count := by
  unfold State.ringAddr at hput
  unfold State.ringWriteBlock
  rw [if_neg hframes]
  dsimp only
  rw [hput]
  dsimp only
  rw [if_neg]
  · rfl
  · rw [rd_wr_ne _ (by unfold OD.AR_LANDING OD.AR_WRITTEN; omega), rd_wr_ne _ (by unfold OD.AR_LANDING OD.AR_POS; omega), rd_setAud, hquiet]
    decide

theorem ringWriteBlock_bad {u : State} {x : Nat} (hframes : s.rd (OD.AR_FRAMES a) ≠ 0)
    (hput : s.ringPut audioAcc (s.ringAddr a) (ringBytes block a (s.rd (OD.AR_CHANNELS a))) = (some x, u)) :
    s.ringWriteBlock block count a =
      let v := (u.setAud { u.ports.aud with failed := setBit u.ports.aud.failed a true }).bump (OD.AR_FAULTS a)
      let v := if bit s.ports.aud.failed a then v else v.record FaultClass.corrected 64 23 (OD.AR_FAULTS a) x a
      (v.wr (OD.AR_POS a) ((s.rd (OD.AR_POS a) + 48) % s.rd (OD.AR_FRAMES a))).wr (OD.AR_WRITTEN a) count := by
  unfold State.ringAddr at hput
  unfold State.ringWriteBlock
  rw [if_neg hframes]
  dsimp only
  rw [hput]
  dsimp only
  rw [if_neg (by simp)]
  rfl

/-- The objects of a ring, and the counts of faults, are objects of their own. -/
theorem ring_keys (a : Nat) : OD.AR_POS a ≠ OD.AR_WRITTEN a ∧ OD.AR_FAULTS a ≠ OD.AR_WRITTEN a ∧ OD.AR_FAULTS a ≠ OD.AR_POS a ∧
    OD.AR_FAULTS a ≠ OD.FAULTS_LOST ∧ OD.AR_FAULTS a ≠ OD.CLASS_COUNTS FaultClass.corrected ∧
    OD.CLASS_COUNTS FaultClass.corrected ≠ OD.AR_WRITTEN a ∧ OD.CLASS_COUNTS FaultClass.corrected ≠ OD.AR_POS a := by
  unfold OD.AR_POS OD.AR_WRITTEN OD.AR_FAULTS OD.FAULTS_LOST OD.CLASS_COUNTS FaultClass.corrected
  omega

theorem AR_FAULTS_outside (ha : a < 8) : OutsideFailure (OD.AR_FAULTS a) := by
  constructor <;> simp only [OD.AR_FAULTS, OD.UNCORR_ERRORS, OD.FAULTS_LOST, OD.CLASS_COUNTS, FaultClass.item] <;> omega

theorem corrected_outside : OutsideFailure (OD.CLASS_COUNTS FaultClass.corrected) := by
  constructor <;> decide

/-- A block that its ring's place bars is not written, and the ring goes on (R554, R555). -/
theorem ringWriteBlock_barred (ha : a < 8) (hframes : s.rd (OD.AR_FRAMES a) ≠ 0)
    (hbad : ∃ i, i < (ringBytes block a (s.rd (OD.AR_CHANNELS a))).length ∧
      (s.ringBarred (s.ringAddr a + i) = true ∨ s.place audioAcc true (s.ringAddr a + i) = .bad)) :
    let t := s.ringWriteBlock block count a
    t.mem = s.mem ∧ t.rd (OD.AR_POS a) = (s.rd (OD.AR_POS a) + 48) % s.rd (OD.AR_FRAMES a) ∧ t.rd (OD.AR_WRITTEN a) = count ∧
      t.rd (OD.AR_FAULTS a) = min (s.rd (OD.AR_FAULTS a) + 1) 0xFFFFFFFF ∧ bit t.ports.aud.failed a = true ∧
      t.rd (OD.CLASS_COUNTS FaultClass.corrected) = (if bit s.ports.aud.failed a then s.rd (OD.CLASS_COUNTS FaultClass.corrected)
        else min (s.rd (OD.CLASS_COUNTS FaultClass.corrected) + 1) 0xFFFFFFFF) ∧ Keep [.od, .host, .falt, .ports] s t := by
  obtain ⟨i, hi, hbad⟩ := hbad
  obtain ⟨x, u, hput, hkeep, hrd⟩ := ringPut_bad hi hbad
  obtain ⟨hposw, hfw, hfp, hfl, hfc, hcw, hcp⟩ := ring_keys a
  intro t
  obtain ⟨v, hv⟩ : ∃ v, v = (u.setAud { u.ports.aud with failed := setBit u.ports.aud.failed a true }).bump (OD.AR_FAULTS a) := ⟨_, rfl⟩
  have hkv : Keep [.od, .host, .falt, .ports] s v :=
    hv ▸ bump_keep _ _ ((hkeep.mono (within_of (by decide))).upd rfl rfl rfl rfl)
  have hports : v.ports.aud = { s.ports.aud with failed := setBit s.ports.aud.failed a true } := by
    rw [hv, ← hkeep.part .ports]
    rfl
  have hfaults : v.rd (OD.AR_FAULTS a) = min (s.rd (OD.AR_FAULTS a) + 1) 0xFFFFFFFF := by
    rw [hv, rd_bump, if_pos rfl, rd_setAud, hrd _ (AR_FAULTS_outside ha)]
  have hclass : v.rd (OD.CLASS_COUNTS FaultClass.corrected) = s.rd (OD.CLASS_COUNTS FaultClass.corrected) := by
    rw [hv, rd_bump, if_neg hfc.symm, rd_setAud, hrd _ corrected_outside]
  obtain ⟨w, hw⟩ : ∃ w, w = if bit s.ports.aud.failed a then v else v.record FaultClass.corrected 64 23 (OD.AR_FAULTS a) x a := ⟨_, rfl⟩
  have ht : t = (w.wr (OD.AR_POS a) ((s.rd (OD.AR_POS a) + 48) % s.rd (OD.AR_FRAMES a))).wr (OD.AR_WRITTEN a) count := by
    rw [hw, hv]
    exact ringWriteBlock_bad hframes hput
  have hkw : Keep [.od, .host, .falt] v w := by
    rw [hw]
    split
    · exact Keep.rfl' v
    · exact record_keep _ _ _ _ _ _ _ (Keep.rfl' v)
  have hkt : Keep [.od, .host, .falt, .ports] s t := ht ▸ ((hkv.trans (hkw.mono (within_of (by decide)))).wr _ _).wr _ _
  refine ⟨hkt.part .mem, ?_, ?_, ?_, ?_, ?_, hkt⟩
  · rw [ht, rd_wr_ne _ hposw, rd_wr_same]
  · rw [ht, rd_wr_same]
  · rw [ht, rd_wr_ne _ hfw, rd_wr_ne _ hfp, hw, rd_ite, record_rd _ _ _ _ _ _ _ hfl hfc, ite_self, hfaults]
  · rw [ht]
    show bit w.ports.aud.failed a = true
    rw [hkw.part .ports, hports]
    exact (bit_setBit _ a a true).trans (if_pos rfl)
  · rw [ht, rd_wr_ne _ hcw, rd_wr_ne _ hcp, hw, rd_ite, hclass]
    refine if_congr Iff.rfl rfl ?_
    rw [← hclass]
    exact logFault_count v ⟨0, FaultClass.corrected, 64, 0, 23, OD.AR_FAULTS a, 0xFF, x, a⟩
      (show OD.CLASS_COUNTS FaultClass.corrected ≠ OD.FAULTS_LOST by decide)

/-- A block whose place is free stands in its ring, and the ring goes on (R554). -/
theorem ringWriteBlock_written (hframes : s.rd (OD.AR_FRAMES a) ≠ 0) (hquiet : bit (s.rd (OD.AR_LANDING a)) 16 = false)
    (hsmooth : s.smooth) (hfree : ∀ i, i < (ringBytes block a (s.rd (OD.AR_CHANNELS a))).length →
      s.ringBarred (s.ringAddr a + i) = false ∧ s.place audioAcc true (s.ringAddr a + i) = .mem ∧ s.mark (s.ringAddr a + i) ≠ 2) :
    let bs := ringBytes block a (s.rd (OD.AR_CHANNELS a))
    let t := s.ringWriteBlock block count a
    t.memBytes (s.ringAddr a) bs.length = bs ∧ (∀ y, y < s.ringAddr a ∨ s.ringAddr a + bs.length ≤ y → t.memByte y = s.memByte y) ∧
      t.rd (OD.AR_POS a) = (s.rd (OD.AR_POS a) + 48) % s.rd (OD.AR_FRAMES a) ∧ t.rd (OD.AR_WRITTEN a) = count ∧
      s.SameBut t [OD.AR_POS a, OD.AR_WRITTEN a] ∧ Keep [.od, .mem, .bal, .ports] s t := by
  intro bs t
  obtain ⟨u, hput, hstored⟩ := ringPut_good (q := audioAcc) hsmooth hfree
  have hrd : ∀ k, u.rd k = s.rd k := rd_of_od (hstored.keeps.part .od)
  have ht := ringWriteBlock_good (count := count) hframes hput (by rw [hrd]; exact hquiet)
  obtain ⟨hbytes, hothers⟩ := stored_mem hstored (s.ringWriteBlock block count a) (by rw [ht]; rfl)
  obtain ⟨hposw, -⟩ := ring_keys a
  refine ⟨hbytes, hothers, ?_, ?_, ⟨fun k hk => ?_⟩, ?_⟩
  · rw [show t.rd (OD.AR_POS a) = _ from congrArg (fun z : State => z.rd (OD.AR_POS a)) ht, rd_wr_ne _ hposw, rd_wr_same]
  · rw [show t.rd (OD.AR_WRITTEN a) = _ from congrArg (fun z : State => z.rd (OD.AR_WRITTEN a)) ht, rd_wr_same]
  · simp only [List.mem_cons, List.not_mem_nil, or_false, not_or] at hk
    obtain ⟨hpos, hwritten⟩ := hk
    rw [show t.rd k = _ from congrArg (fun z : State => z.rd k) ht, rd_wr_ne _ hwritten, rd_wr_ne _ hpos, rd_setAud, hrd]
  · rw [show t = _ from ht]
    have hkeep : Keep [.od, .mem, .bal, .ports] s (u.setAud { u.ports.aud with failed := setBit u.ports.aud.failed a false }) :=
      (hstored.keeps.mono (within_of (by decide))).upd rfl rfl rfl rfl
    exact (hkeep.wr _ _).wr _ _

end RingBlock

/-- Settles O43: the audio side's forms, from the arrival of a frame to a block in its ring. -/
theorem audioIsSampledAndRung : Obligations.AudioIsSampledAndRung := by
  unfold Obligations.AudioIsSampledAndRung
  refine ⟨?tdmFrame, ?holdover, ?period, ?noPeriod, ?route, ?tdm, ?pdm, ?mark, ?ring⟩
  case tdmFrame =>
    intro n good slots s hon henable src port frame direct
    obtain ⟨hown, hothers, hclock, herrors, hslips⟩ := tdmIn_facts (good := good) hon henable slots
    exact ⟨_, rfl, hown, hothers, hclock, herrors, hslips, tdmIn_keep s n good slots (Keep.rfl' s)⟩
  case holdover =>
    intro s
    refine ⟨fun hon hlocked => ⟨_, congrArg Host.Outcome.next (if_pos ⟨hon, hlocked⟩), ?_, ?_, ?_, ?_⟩,
      fun hother => congrArg Host.Outcome.next (if_neg fun h => hother h.2)⟩
    · rw [record_rd _ _ _ _ _ _ _ (by decide) (by decide), rd_bump, if_neg (by decide), rd_wr_same]
    · rw [record_rd _ _ _ _ _ _ _ (by decide) (by decide), rd_bump, if_pos rfl, rd_wr_ne _ (by decide)]
    · refine (logFault_count _ ⟨0, FaultClass.corrected, 64, 0, 23, OD.HOLDOVERS, 0xFF, 0, 0⟩
        (show OD.CLASS_COUNTS FaultClass.corrected ≠ OD.FAULTS_LOST by decide)).trans ?_
      rw [rd_bump, if_neg (show OD.CLASS_COUNTS FaultClass.corrected ≠ OD.HOLDOVERS by decide),
        rd_wr_ne _ (show OD.CLASS_COUNTS FaultClass.corrected ≠ OD.CLOCK_STATE by decide)]
    · exact record_keep _ _ _ _ _ _ _ (bump_keep _ _ ((Keep.rfl' s).wr _ _))
  case period => exact fun s u v xs hon hdue htake hv => ⟨_, rfl, samplePeriod_facts hon hdue htake hv⟩
  case noPeriod => exact fun s h => congrArg Host.Outcome.next (samplePeriod_stays h)
  case route =>
    intro xs r s w i kind v t per
    have hv : s.routeSample w xs = v := by
      show (if kind = 2 then _ else _) = v
      by_cases hpdm : kind = 2
      · have htdm : ¬(kind ≤ 1 ∧ s.flag (OD.TDM_ENABLE kind) = true ∧ i < s.rd (OD.TDM_SLOTS kind)) := fun h => by omega
        rw [if_pos hpdm]
        exact (if_congr (and_iff_right hpdm) rfl (if_neg htdm)).symm
      · rw [if_neg hpdm]
        exact (if_neg fun h => hpdm h.1).symm
    have hfacts := routeDeliver_facts xs r s
    rw [← hv]
    exact hfacts
  case tdm => exact fun n s => ⟨fun f rest => tdmTake_next, tdmTake_empty, tdmTake_slip⟩
  case pdm => exact pdmTake_facts
  case mark =>
    refine fun s => ⟨fun hnone => congrArg Host.Outcome.next ?_, fun block count hready => congrArg Host.Outcome.next ?_⟩
    · simp only [hnone]
    · simp only [hready]
  case ring =>
    exact fun block count a s ha => ⟨fun hnone => if_pos hnone, ringWriteBlock_written, ringWriteBlock_barred ha⟩

end Sys2Proof.Machine
end

section
/-!
The vestibule (spec/13, R568 to R614; obligation O44).
-/

set_option Elab.async false

namespace Sys2Proof.Machine

/-! ### Writes of bytes that carry no uncorrectable error -/

/-- A write of bytes that are memory and carry no uncorrectable error is made, and leaves later writes as free as they were. -/
theorem memWrite_free {s : State} {q : Acc} {a : Nat} {bs : List Byte} (hsmooth : s.smooth)
    (hfree : ∀ x, a ≤ x → x < a + bs.length → s.place q true x = .mem ∧ s.mark x ≠ 2) :
    ∃ t, s.memWrite q a bs = ({}, t) ∧ s.Stored t a bs ∧ t.smooth ∧ ∀ x, t.mark x = s.mark x ∨ t.mark x = 0 := by
  obtain ⟨t, hwrite, hstored⟩ := memWrite_mem q s a bs (fun i hi => (hfree (a + i) (by omega) (by omega)).1)
    ⟨partialBad_none fun x hx hlt => (hfree x hx hlt).2, hsmooth⟩
  have hsmooth' := memWrite_smooth q s a bs hsmooth
  have hmarks := memWrite_marks q s a bs
  rw [hwrite] at hsmooth' hmarks
  exact ⟨t, hwrite, hstored, hsmooth', hmarks⟩

/-- A stored write leaves a requester's places where they were. -/
theorem Stored_place {s t : State} {a : Nat} {bs : List Byte} (h : s.Stored t a bs) {q : Acc} (hq : ∀ n, q.ctx = some n → n < 16)
    (wr : Bool) (x : Nat) : t.place q wr x = s.place q wr x :=
  place_same2 (fun k _ => Keep.rd h.keeps (k := k)) (h.keeps.part .ldr) (h.keeps.part .host) q hq wr x

/-! ### Taking a source (R568 to R573, R578) -/

section Take

variable {k : Fin 8} {e : Entry} {j : ScalerJob} {s : State}

theorem scalerSourceTake_start (hjob : s.scalerJob k = some j) (hrun : s.runningOn (40 + k) = some e) (hgate : s.flag OD.GATE = false)
    (hstart : j.phase = .start) : exec (.scalerSourceTake k) s = .next (s.scalerTake k e j) := by
  refine congrArg Host.Outcome.next ?_
  simp only [hjob, hrun, hgate, hstart, Bool.false_eq_true, if_false, reduceCtorEq]

theorem scalerTake_input (hstart : j.phase = .start) (hinput : (scJob j.desc).srcPort = false) :
    s.scalerTake k e j = if (s.item e.slot).inLen < (scJob j.desc).srcBytes then s.scalerExc k e ScExc.srcRange
      else (s.scalerTaken k e j (scJob j.desc) (s.item e.slot).input none 0).scalerPrepare k e (scJob j.desc) := by
  unfold State.scalerTake
  rw [if_neg (by rw [hstart]; decide), if_pos (by rw [hinput]; rfl)]

theorem scalerTake_wait (hstart : j.phase = .start) (hport : (scJob j.desc).srcPort = true) (hwait : (scJob j.desc).srcWait = true)
    {r : Option LandRes} {u : State}
    (hland : s.jobLand (40 + k) e ((scJob j.desc).srcLanding + (if (scJob j.desc).srcLane then e.lane else 0)) .wait = (r, u)) :
    (r = some .parked → s.scalerTake k e j = (u.setScalerJob k (some { j with phase := .waiting })).wr (OD.SCALER_STATE k) 1) ∧
    (∀ w, r = some (.word w) → s.scalerTake k e j = u.scalerTakePort k e j (scJob j.desc)
      ((scJob j.desc).srcLanding + (if (scJob j.desc).srcLane then e.lane else 0))) := by
  unfold State.scalerTake
  rw [if_neg (by rw [hstart]; decide), if_neg (by rw [hport]; decide), if_neg (by rw [hstart]; decide), if_pos hwait, hland]
  refine ⟨fun hr => ?_, fun w hr => ?_⟩ <;> rw [hr]

theorem scalerTakePort_taken {k L : Nat} {d : ScJob} {w : BitVec 64} {u : State} (hland : s.jobLand (40 + k) e L .take = (some (.word w), u)) :
    let n := bits w.toNat 0 32
    let v := u.scalerTaken k e j d (u.bufferAddr n) (some n) (bits w.toNat 32 16)
    s.scalerTakePort k e j d L =
      if w.getLsbD 63 = false then u.scalerExc k e ScExc.emptyPort
      else if v.ticketOk n = false then v.scalerExc k e ScExc.badTicket
      else if 2 ^ (v.pool (ticketPool n)).szLog < d.srcBytes then v.scalerExc k e ScExc.srcRange
      else v.scalerPrepare k e d := by
  unfold State.scalerTakePort
  rw [hland]
  simp only [Bool.not_eq_true']

/-- The job of a scaler whose source is taken from the item's input. -/
def State.takenJob (s : State) (e : Entry) (j : ScalerJob) (d : ScJob) (src : Nat) : ScalerJob :=
  { j with
    phase := .taken, src := src, ticket := none, tag := 0, sample := s.rd OD.SAMPLE_NEXT, crop := s.scalerCrop e d
    epoch := s.tick.epoch.toNat, time := s.clk.gtime }

theorem scalerTaken_eq (k : Nat) (d : ScJob) (src : Nat) : s.scalerTaken k e j d src none 0 =
    ((s.wr OD.SAMPLE_NEXT ((s.rd OD.SAMPLE_NEXT + 1) % 2 ^ 32)).wr (OD.SCALER_STATE k) 2).setScalerJob k (some (s.takenJob e j d src)) := rfl

theorem scalerTaken_rd (d : ScJob) (src : Nat) {m : Nat} (h1 : m ≠ OD.SAMPLE_NEXT) (h2 : m ≠ OD.SCALER_STATE k) :
    (s.scalerTaken k e j d src none 0).rd m = s.rd m := by
  rw [scalerTaken_eq, rd_setScalerJob, rd_wr_ne _ h2, rd_wr_ne _ h1]

/-- A take leaves the sealed set as it was. -/
theorem scalerTaken_firstSealed (d : ScJob) (src n a : Nat) :
    (s.scalerTaken k e j d src none 0).firstSealed a n = s.firstSealed a n := by
  have hrd (m : Nat) (h : m < 0x640000 ∨ 0x642000 ≤ m) : (s.scalerTaken k e j d src none 0).rd m = s.rd m :=
    scalerTaken_rd d src (by unfold OD.SAMPLE_NEXT; omega) (by unfold OD.SCALER_STATE; omega)
  refine firstSealed_same (s := s) (z := s.scalerTaken k e j d src none 0) (fun x =>
    sealed_same (fun q hq => hrd _ ?_) (fun q hq => hrd _ ?_) (fun r hr => ⟨hrd _ ?_, hrd _ ?_⟩) (hrd _ ?_) rfl rfl (fun _ => rfl) x) n a
  · simp only [OD.POOL_STATE]
    omega
  · simp only [OD.PK_STATE]
    omega
  · simp only [OD.SEAL_BASE]
    omega
  · simp only [OD.SEAL_SIZE]
    omega
  · decide

/-- The output of a direct job that fits, or that has no pixel. -/
theorem scalerOutput_direct {k : Nat} {d : ScJob} (hkind : d.kind = 1) (hdirect : d.direct = true) (hunsealed : j.sealed = false)
    (hfits : d.total ≤ (s.item e.slot).outLen ∨ d.empty j.crop = true) :
    s.scalerOutput k e j d = if d.empty j.crop then s else s.setScalerJob k (some { j with out := (s.item e.slot).output }) := by
  unfold State.scalerOutput
  cases hempty : d.empty j.crop with
  | true => rfl
  | false =>
    have hroom := hfits.resolve_right (by rw [hempty]; decide)
    simp only [Bool.false_eq_true, if_false, hkind, if_true, hdirect, Nat.not_lt.2 hroom, hunsealed, false_and]

/-- A direct job of unsealed bytes takes its source and finds its output in the item's (R568, R573, R579). -/
theorem scalerTake_direct (hstart : j.phase = .start) (hinput : (scJob j.desc).srcPort = false) :
    let d := scJob j.desc
    let it := s.item e.slot
    let crop := s.scalerCrop e d
    d.srcBytes ≤ it.inLen → ((d.bayer || d.planar) && crop.any (fun v => v % 2 = 1)) = false → d.kind = 1 → d.direct = true →
      d.forceSeal = false → (∀ r ∈ d.reads it.input crop, s.firstSealed r.1 r.2 = none) → d.total ≤ it.outLen ∨ d.empty crop = true →
      let t := s.scalerTake k e j
      t.scalerJob k = some { s.takenJob e j d it.input with sealed := false, out := if d.empty crop then j.out else it.output } ∧
      (∀ m, m ≠ k.val → t.scalerJob m = s.scalerJob m) ∧
      t.od = ((s.wr OD.SAMPLE_NEXT ((s.rd OD.SAMPLE_NEXT + 1) % 2 ^ 32)).wr (OD.SCALER_STATE k) 2).od ∧ Keep [.od, .vest] s t := by
  intro d it crop hlen hcrop hkind hdirect hforce hunsealed hout t
  obtain ⟨u, hu⟩ : ∃ u, u = s.scalerTaken k e j d it.input none 0 := ⟨_, rfl⟩
  have hjob (m : Nat) : u.scalerJob m = if m = k.val then some (s.takenJob e j d it.input) else s.scalerJob m := by
    rw [hu, scalerTaken_eq, job_set]
    rfl
  have hku : Keep [.od, .vest] s u := hu ▸ (((Keep.rfl' s).wr _ _).wr _ _).upd rfl rfl rfl rfl
  have hod : u.od = ((s.wr OD.SAMPLE_NEXT ((s.rd OD.SAMPLE_NEXT + 1) % 2 ^ 32)).wr (OD.SCALER_STATE k) 2).od := by
    rw [hu]
    rfl
  have hitem : u.item e.slot = it := by
    rw [hu]
    rfl
  have hsealed : (d.reads it.input crop).any (fun r => (u.firstSealed r.1 r.2).isSome) = false := by
    refine List.any_eq_false.2 fun r hr => ?_
    rw [hu, scalerTaken_firstSealed, hunsealed r hr]
    decide
  have ht : t = (u.setScalerJob k (some { s.takenJob e j d it.input with sealed := false })).scalerOutput k e
      { s.takenJob e j d it.input with sealed := false } d := by
    show s.scalerTake k e j = _
    rw [scalerTake_input hstart hinput, if_neg (Nat.not_lt.2 hlen), ← hu]
    unfold State.scalerPrepare
    simp only [hjob k, if_true]
    rw [if_neg (by rw [show (s.takenJob e j d it.input).crop = crop from rfl, hcrop]; decide)]
    rw [show (s.takenJob e j d it.input).crop = crop from rfl, show (s.takenJob e j d it.input).src = it.input from rfl, hsealed, hforce]
    rfl
  rw [ht, scalerOutput_direct hkind hdirect rfl (hout.imp (fun h => h.trans_eq (congrArg Item.outLen hitem).symm) id)]
  simp only [show (s.takenJob e j d it.input).crop = crop from rfl]
  cases d.empty crop with
  | true =>
    refine ⟨?_, fun m hm => ?_, hod, hku.upd rfl rfl rfl rfl⟩
    · exact (job_set ..).trans (if_pos rfl)
    · exact ((job_set ..).trans (if_neg hm)).trans ((hjob m).trans (if_neg hm))
  | false =>
    refine ⟨?_, fun m hm => ?_, hod, (hku.upd rfl rfl rfl rfl : Keep [.od, .vest] s (u.setScalerJob k _)).upd rfl rfl rfl rfl⟩
    · refine ((job_set ..).trans (if_pos rfl)).trans ?_
      exact congrArg (fun o => some { s.takenJob e j d it.input with sealed := false, out := o }) (congrArg Item.output hitem)
    · exact ((job_set ..).trans (if_neg hm)).trans (((job_set ..).trans (if_neg hm)).trans ((hjob m).trans (if_neg hm)))

end Take

/-! ### The end of a job (R574 to R581, R607) -/

section Finish

variable {k : Fin 8} {e : Entry} {j : ScalerJob} {s : State}

theorem scalerJobEnd_taken (hjob : s.scalerJob k = some j) (hrun : s.runningOn (40 + k) = some e) (hgate : s.flag OD.GATE = false) :
    exec (.scalerJobEnd k) s = .next (if j.phase = .taken then s.scalerFinish k e j else s) := by
  refine congrArg Host.Outcome.next ?_
  simp only [hjob, hrun, hgate, Bool.false_eq_true, if_false]

theorem scalerSourceTake_taken (hjob : s.scalerJob k = some j) (hrun : s.runningOn (40 + k) = some e) (hgate : s.flag OD.GATE = false)
    (htaken : j.phase = .taken) : exec (.scalerSourceTake k) s = .next s := by
  refine congrArg Host.Outcome.next ?_
  simp only [hjob, hrun, hgate, htaken, Bool.false_eq_true, if_false, if_true]

/-- Without a job, without its stage, or behind the gate, a scaler does nothing. -/
theorem scaler_idle (h : s.scalerJob k = none ∨ s.runningOn (40 + k) = none ∨ s.flag OD.GATE = true) :
    exec (.scalerSourceTake k) s = .next s ∧ exec (.scalerJobEnd k) s = .next s := by
  cases hjob : s.scalerJob k with
  | none => exact ⟨congrArg Host.Outcome.next (by simp only [hjob]), congrArg Host.Outcome.next (by simp only [hjob])⟩
  | some j =>
    cases hrun : s.runningOn (40 + k) with
    | none => exact ⟨congrArg Host.Outcome.next (by simp only [hjob, hrun]), congrArg Host.Outcome.next (by simp only [hjob, hrun])⟩
    | some e =>
      have hgate : s.flag OD.GATE = true := by simpa [hjob, hrun] using h
      exact ⟨congrArg Host.Outcome.next (by simp only [hjob, hrun, hgate, if_true]),
        congrArg Host.Outcome.next (by simp only [hjob, hrun, hgate, if_true])⟩

theorem accessFails_ok (s : State) (e : Entry) : s.accessFails e {} = (false, s) := rfl

theorem fitBytes_length (n : Nat) (bs : List Byte) : (fitBytes n bs).length = n := by
  unfold fitBytes zeros
  rw [List.length_take, List.length_append, List.length_replicate]
  omega

/-- The state in which a computed sample is written: a free value is drawn and the pixels are counted. -/
def State.scalerComputed (s : State) (k : Nat) (d : ScJob) (crop : List Nat) : State :=
  let f := d.footprint crop
  s.drawFree.2.bump64 (OD.VEST_PIXELS k) ((f.2.1 + 1 - f.1) * (f.2.2.2 + 1 - f.2.2.1))

theorem scalerComputed_keep (k : Nat) (d : ScJob) (crop : List Nat) (s : State) : Keep [.od] s (s.scalerComputed k d crop) := by
  unfold State.scalerComputed
  exact bump64_keep _ _ _ (drawFree_keep s (Keep.rfl' s))

section Computed

variable {rs : List (Nat × List Byte)} {u : State}

theorem scalerFinish_pack (hpixels : (scJob j.desc).empty j.crop = false)
    (hread : State.readRanges (s.engineAcc (40 + k) e) ((scJob j.desc).reads j.src j.crop) s [] = (.inl rs, u))
    (hkind : (scJob j.desc).kind ≠ 1) {bad : Bool} {v : State}
    (hpack : (u.scalerComputed k (scJob j.desc) j.crop).packComplete k e j (scJob j.desc)
      ((scJob j.desc).tensor rs j.src j.crop u.free) = (bad, v)) :
    s.scalerFinish k e j = if bad then v else v.scalerDeliver k e j (scJob j.desc) false 0 := by
  unfold State.scalerFinish
  dsimp only
  rw [if_neg (by rw [hpixels]; decide), hread]
  dsimp only
  rw [if_neg hkind]
  unfold State.scalerComputed at hpack
  rw [hpack]

theorem scalerFinish_escape (hpixels : (scJob j.desc).empty j.crop = false)
    (hread : State.readRanges (s.engineAcc (40 + k) e) ((scJob j.desc).reads j.src j.crop) s [] = (.inl rs, u))
    (hkind : (scJob j.desc).kind = 1) {y : Nat}
    (hescape : (u.scalerComputed k (scJob j.desc) j.crop).sealEscape j.sealed
      [(j.out, alignUp (scJob j.desc).tensorBytes 64 + 64)] = some y) :
    s.scalerFinish k e j =
      (u.scalerComputed k (scJob j.desc) j.crop).stopItem e.slot Status.sealed e.stage e.engine (sealedDetail 3 y) none := by
  unfold State.scalerFinish
  dsimp only
  rw [if_neg (by rw [hpixels]; decide), hread]
  dsimp only
  rw [if_pos hkind, fitBytes_length]
  unfold State.scalerComputed at hescape ⊢
  dsimp only at hescape ⊢
  rw [hescape]

theorem scalerFinish_written (hpixels : (scJob j.desc).empty j.crop = false)
    (hread : State.readRanges (s.engineAcc (40 + k) e) ((scJob j.desc).reads j.src j.crop) s [] = (.inl rs, u))
    (hkind : (scJob j.desc).kind = 1)
    (hescape : (u.scalerComputed k (scJob j.desc) j.crop).sealEscape j.sealed
      [(j.out, alignUp (scJob j.desc).tensorBytes 64 + 64)] = none) {v1 v : State}
    (hout : (u.scalerComputed k (scJob j.desc) j.crop).memWrite (s.engineAcc (40 + k) e) j.out
      ((scJob j.desc).tensor rs j.src j.crop u.free) = ({}, v1))
    (hrecord : v1.memWrite (s.engineAcc (40 + k) e) (j.out + alignUp (scJob j.desc).tensorBytes 64) (j.record k (scJob j.desc)) = ({}, v)) :
    s.scalerFinish k e j = v.scalerDeliver k e j (scJob j.desc) false (scJob j.desc).total := by
  unfold State.scalerFinish
  dsimp only
  rw [if_neg (by rw [hpixels]; decide), hread]
  dsimp only
  rw [if_pos hkind, fitBytes_length]
  unfold State.scalerComputed at hescape hout
  dsimp only at hescape hout ⊢
  simp only [hescape, hout, accessFails_ok, hrecord, Bool.false_eq_true, if_false]

/-- The tensor and its record stand at the output, one after the other (R577, R580). -/
theorem scalerFinish_direct (hpixels : (scJob j.desc).empty j.crop = false)
    (hread : State.readRanges (s.engineAcc (40 + k) e) ((scJob j.desc).reads j.src j.crop) s [] = (.inl rs, u))
    (hkind : (scJob j.desc).kind = 1) (hten : s.stageTen e < 16)
    (hescape : (u.scalerComputed k (scJob j.desc) j.crop).sealEscape j.sealed
      [(j.out, alignUp (scJob j.desc).tensorBytes 64 + 64)] = none) (hsmooth : u.smooth) :
    let d := scJob j.desc
    let w := u.scalerComputed k d j.crop
    let out := d.tensor rs j.src j.crop u.free
    let recd := j.record k d
    let at_ := j.out + alignUp d.tensorBytes 64
    let q := s.engineAcc (40 + k) e
    (∀ x, j.out ≤ x → x < at_ + recd.length → u.place q true x = .mem ∧ u.mark x ≠ 2) →
    ∃ v, s.scalerFinish k e j = v.scalerDeliver k e j d false d.total ∧
      v.memBytes j.out out.length = out ∧ v.memBytes at_ recd.length = recd ∧
      (∀ x, x < j.out ∨ (j.out + out.length ≤ x ∧ x < at_) ∨ at_ + recd.length ≤ x → v.memByte x = u.memByte x) ∧ Keep [.mem, .bal] w v := by
  intro d w out recd at_ q hfree
  have hq : ∀ n, q.ctx = some n → n < 16 := fun n hn => by
    cases hn
    exact hten
  have hfit : out.length ≤ alignUp d.tensorBytes 64 := (tensor_length d rs j.src j.crop u.free).trans (alignUp_ge _)
  have hkw : Keep [.od] u w := scalerComputed_keep k d j.crop u
  have hmem : w.mem = u.mem := hkw.part .mem
  have hplace (x : Nat) : w.place q true x = u.place q true x := by
    refine place_same2 (fun m hm => ?_) (hkw.part .ldr) (hkw.part .host) q hq true x
    have hne : m ≠ OD.VEST_PIXELS k := by
      unfold OD.VEST_PIXELS
      omega
    exact rd_bump64_ne _ hne _
  have hmark (x : Nat) : w.mark x = u.mark x := by
    unfold State.mark
    rw [hmem]
  have hsmoothw : w.smooth := by
    unfold State.smooth
    rw [hkw.part .bal]
    exact hsmooth
  obtain ⟨v1, hwrite1, hstored1, hsmooth1, hmarks1⟩ := memWrite_free (q := q) (a := j.out) (bs := out) hsmoothw (fun x hx hlt => by
    rw [hplace, hmark]
    exact hfree x hx (by omega))
  obtain ⟨v, hwrite, hstored, -⟩ := memWrite_free (q := q) (a := at_) (bs := recd) hsmooth1 (fun x hx hlt => by
    obtain ⟨hp, hm⟩ := hfree x (by omega) hlt
    rw [Stored_place hstored1 hq, hplace]
    refine ⟨hp, ?_⟩
    rcases hmarks1 x with h | h
    · rw [h, hmark]
      exact hm
    · rw [h]
      decide)
  have hbyte (x : Nat) : w.memByte x = u.memByte x := by
    unfold State.memByte
    rw [hmem]
  refine ⟨v, scalerFinish_written hpixels hread hkind hescape hwrite1 hwrite, ?_, hstored.bytes, fun x hx => ?_,
    hstored1.keeps.trans hstored.keeps⟩
  · rw [memBytes_congr _ _ (fun i hi => hstored.others (j.out + i) (.inl (by omega)))]
    exact hstored1.bytes
  · rw [hstored.others x (by omega), hstored1.others x (by omega), hbyte]

end Computed

end Finish

/-! ### Deliveries (R572, R581) -/

section Deliver

variable {k : Nat} {e : Entry} {j : ScalerJob} {d : ScJob} {s : State}

/-- The end of a delivered job: its source is released, its scaler is free and its stage reports. -/
def State.scalerDone (s : State) (k : Nat) (e : Entry) (j : ScalerJob) (empty : Bool) (bytes : Nat) : State :=
  (((s.scalerRelease k j).setScalerJob k none).wr (OD.SCALER_STATE k) 0).reportEnd e empty false bytes

theorem scalerDeliver_quiet (hquiet : d.outValid = false) (empty : Bool) (bytes : Nat) :
    s.scalerDeliver k e j d empty bytes = s.scalerDone k e j empty bytes := by
  unfold State.scalerDeliver
  simp only [hquiet, Bool.false_eq_true, if_false]
  rfl

theorem scalerDeliver_push {r : Option LandRes} {u : State} (hvalid : d.outValid = true) (empty : Bool) (bytes : Nat)
    (hland : s.jobLand (40 + k) e (d.outLanding + if d.outLane then e.lane else 0)
      (.push (BitVec.ofNat 64 (j.sample % 65536 * 2 ^ 32 +
        if empty || d.direct || decide (d.kind = 2) then noTicket else j.outTicket)) j.sealed) = (r, u)) :
    s.scalerDeliver k e j d empty bytes = if r = none then u else u.scalerDone k e j empty bytes := by
  unfold State.scalerDeliver
  simp only [hvalid, if_true, hland]
  cases r <;> rfl

end Deliver

/-! ### The packer and the batch queue (R593 to R603, R614) -/

section Batches

variable {t : Fin 4} {s : State}

/-- An open batch whose time is over closes with LINGER (R594). -/
theorem pkLingerExpiry_opened {b : Batch} (hopen : (s.stream t).opened = some b) :
    exec (.pkLingerExpiry t) s = .next (
      if (s.stream t).linger ≠ 0 ∧ b.since + 50 * (s.stream t).linger ≤ s.clk.now then
        State.flushClosed (s.setStream t { s.stream t with
          opened := none, closed := (s.stream t).closed ++ [{ b with flags := 4, epoch := s.tick.epoch.toNat }] }) t
      else s) := by
  have hclose : s.closeBatch t 4 = State.flushClosed (s.setStream t { s.stream t with
      opened := none, closed := (s.stream t).closed ++ [{ b with flags := 4, epoch := s.tick.epoch.toNat }] }) t := by
    unfold State.closeBatch
    simp only [hopen]
  refine congrArg Host.Outcome.next ?_
  simp only [hopen, hclose, usEdges]

theorem bqChanged_stream (s : State) (before m : Nat) : (s.bqChanged before).stream m = s.stream m :=
  stream_of ((bqChanged_keep s before (Keep.rfl' s)).part .vest) m

theorem bqChanged_events (s : State) (before : Nat) :
    (s.bqChanged before).rd OD.BQ_EVENTS =
      if s.rd OD.BQ_LOW_WATER ≠ 0 ∧ s.rd OD.BQ_LOW_WATER ≤ before ∧ s.bqDepth < s.rd OD.BQ_LOW_WATER then
        setBit (s.rd OD.BQ_EVENTS) 0 true else s.rd OD.BQ_EVENTS := by
  unfold State.bqChanged
  dsimp only
  rw [rd_ite, rd_ite, signal_rd, ite_self, setOdBit_same]

theorem bqChanged_rd (s : State) (before : Nat) {m : Nat} (h : m ≠ OD.BQ_EVENTS) : (s.bqChanged before).rd m = s.rd m := by
  unfold State.bqChanged
  dsimp only
  rw [rd_ite, rd_ite, signal_rd, ite_self, setOdBit_ne _ h, ite_self]

theorem bqDepth_of {s u : State} (h : ∀ m, u.stream m = s.stream m) : u.bqDepth = s.bqDepth := by
  unfold State.bqDepth
  simp only [h]

/-- A batch that its landing takes is delivered, and the queue's depth falls (R602, R603). -/
theorem batchDelivery_taken {slot : Nat} {rest : List Nat} (hwaiting : (s.stream t).waiting = slot :: rest) {u : State}
    (hvalid : bit (s.stream t).deliver 16 = true) (hrunning : s.rd (OD.PK_STATE t) ≠ 0)
    (hroom : (s.port (bits (s.stream t).deliver 0 16)).q.length < (s.stream t).deal)
    (hland : s.landOp ⟨64, some (Fin.ofNat 16 (s.stream t).ctx)⟩ (bits (s.stream t).deliver 0 16)
      (.push (BitVec.ofNat 64 ((s.stream t).base + slot * (s.stream t).slotBytes)) (s.stream t).sealed) 0 = (some .done, u)) :
    exec (.batchDelivery t) s = .next ((u.setStream t { u.stream t with
      waiting := rest, delivered := (u.stream t).delivered ++ [slot] }).bqChanged u.bqDepth) := by
  have hgo : ¬((!bit (s.stream t).deliver 16) = true ∨ s.rd (OD.PK_STATE t) = 0 ∨
      (s.stream t).deal ≤ (s.port (bits (s.stream t).deliver 0 16)).q.length) := by
    rw [hvalid]
    simp only [Bool.not_true, Bool.false_eq_true, false_or, not_or, Nat.not_le]
    exact ⟨hrunning, hroom⟩
  refine congrArg Host.Outcome.next ?_
  simp only [hwaiting]
  rw [if_neg hgo]
  unfold Stream.slotBase
  rw [hland]

theorem batchDelivery_waits {slot : Nat} {rest : List Nat} (hwaiting : (s.stream t).waiting = slot :: rest)
    (h : bit (s.stream t).deliver 16 = false ∨ s.rd (OD.PK_STATE t) = 0 ∨
      (s.stream t).deal ≤ (s.port (bits (s.stream t).deliver 0 16)).q.length) : exec (.batchDelivery t) s = .next s := by
  refine congrArg Host.Outcome.next ?_
  simp only [hwaiting]
  exact if_pos (h.imp_left fun h => by rw [h]; rfl)

theorem streamSettle_id {k : Nat} (h : s.rd (OD.PK_STATE k) ≠ 2) : s.streamSettle k = s := if_neg fun hs => h hs.1

end Batches

/-- Settles O44: a job from its take to its delivery, and a batch from its close to its slot's zeros. -/
theorem samplesAreScaledAndBatched : Obligations.SamplesAreScaledAndBatched := by
  unfold Obligations.SamplesAreScaledAndBatched
  refine ⟨?take, ?wait, ?port, ?idle, ?finish, ?deliver, ?linger, ?delivery, ?fill, ?ecc⟩
  case take =>
    intro k e j s hjob hrun hgate hstart d it crop hinput
    refine ⟨fun hshort => ?_, fun hlen hcrop hkind hdirect hforce hunsealed hout => ?_⟩
    · rw [scalerSourceTake_start hjob hrun hgate hstart, scalerTake_input hstart hinput]
      exact congrArg Host.Outcome.next (if_pos hshort)
    · obtain ⟨hown, hothers, hod, hkeep⟩ := scalerTake_direct (k := k) hstart hinput hlen hcrop hkind hdirect hforce hunsealed hout
      have hrd : ∀ m, (s.scalerTake k e j).rd m = _ := rd_of_od hod
      refine ⟨_, scalerSourceTake_start hjob hrun hgate hstart, hown, ?_, ?_, hothers, ⟨fun m hm => ?_⟩, hkeep⟩
      · rw [hrd, rd_wr_ne _ (by unfold OD.SAMPLE_NEXT OD.SCALER_STATE; omega), rd_wr_same]
      · rw [hrd, rd_wr_same]
      · simp only [List.mem_cons, List.not_mem_nil, or_false, not_or] at hm
        rw [hrd, rd_wr_ne _ hm.2, rd_wr_ne _ hm.1]
  case wait =>
    intro k e j s u hjob hrun hgate hstart d L hport hwait
    refine ⟨fun hland => ?_, fun w hland => ?_⟩
    · refine ⟨_, (scalerSourceTake_start hjob hrun hgate hstart).trans
        (congrArg Host.Outcome.next ((scalerTake_wait hstart hport hwait hland).1 rfl)), ?_, rd_wr_same _ _ _, ⟨fun m hm => ?_⟩, ?_⟩
      · exact (job_set u k k _).trans (if_pos rfl)
      · exact rd_wr_ne _ (fun h => hm (List.mem_singleton.2 h)) _
      · exact ((Keep.rfl' u).upd rfl rfl rfl rfl : Keep [.od, .vest] u (u.setScalerJob k _)).wr _ _
    · exact (scalerSourceTake_start hjob hrun hgate hstart).trans
        (congrArg Host.Outcome.next ((scalerTake_wait hstart hport hwait hland).2 w rfl))
  case port => exact fun k L e j d w s u => scalerTakePort_taken
  case idle => exact fun k s => scaler_idle
  case finish =>
    intro k e j s hjob hrun hgate d
    have hend := scalerJobEnd_taken hjob hrun hgate
    refine ⟨scalerSourceTake_taken hjob hrun hgate, fun hother => ?_, fun htaken hempty => ?_, fun rs u htaken hpixels hread => ?_⟩
    · rw [hend, if_neg hother]
    · rw [hend, if_pos htaken]
      exact congrArg Host.Outcome.next (if_pos hempty)
    · intro f n w
      rw [if_pos htaken] at hend
      refine ⟨fun hkind hten => ⟨fun y hescape => ?_, fun hescape hsmooth hfree => ?_⟩, fun hkind bad v hpack => ?_⟩
      · rw [hend]
        exact congrArg Host.Outcome.next (scalerFinish_escape hpixels hread hkind hescape)
      · obtain ⟨v, hfinish, hout, hrecord, hothers, hkeep⟩ :=
          scalerFinish_direct hpixels hread hkind hten hescape hsmooth hfree
        refine ⟨v, by rw [hend, hfinish], hout, hrecord, hothers, ?_, hkeep⟩
        rw [hkeep.rd]
        exact rd_bump64_same u.drawFree.2 _ _
      · rw [hend, scalerFinish_pack hpixels hread hkind hpack]
  case deliver =>
    exact fun k e j d empty bytes s => ⟨fun hquiet => scalerDeliver_quiet hquiet empty bytes,
      fun r u hvalid hland => scalerDeliver_push hvalid empty bytes hland⟩
  case linger =>
    intro t b s hopen x
    rw [pkLingerExpiry_opened hopen]
    exact ⟨fun hlinger hdue => congrArg Host.Outcome.next (if_pos ⟨hlinger, hdue⟩),
      fun hstays => congrArg Host.Outcome.next (if_neg fun h => hstays.elim h.1 (Nat.not_lt.2 h.2))⟩
  case delivery =>
    intro t slot rest s hwaiting x L
    refine ⟨batchDelivery_waits hwaiting, fun u hvalid hrunning hroom hland => ?_⟩
    have hset (m : Nat) := stream_setStream u t m { u.stream t with waiting := rest, delivered := (u.stream t).delivered ++ [slot] }
    refine ⟨_, batchDelivery_taken hwaiting hvalid hrunning hroom hland, ?_, fun m hm => ?_, ?_, ?_⟩
    · rw [bqChanged_stream, hset, if_pos rfl]
    · rw [bqChanged_stream, hset, if_neg hm]
    · rw [bqChanged_events, bqDepth_of (fun m => bqChanged_stream _ _ m)]
      rfl
    · exact bqChanged_keep _ _ ((Keep.rfl' u).upd rfl rfl rfl rfl)
  case fill =>
    intro t slot rest s hfilling x a hsmooth hfree
    have hlen : (zeros x.slotBytes).length = x.slotBytes := List.length_replicate
    obtain ⟨v, hwrite, hstored, -⟩ := memWrite_free (q := x.acc) (a := a) (bs := zeros x.slotBytes) hsmooth (fun y hy hlt => by
      have h := hfree (y - a) (by omega)
      rwa [Nat.add_sub_cancel' hy] at h)
    have hpack : s.packWrite x a (zeros x.slotBytes) = v := by
      unfold State.packWrite
      rw [hwrite]
      rfl
    have hset (m : Nat) := stream_setStream v t m { x with filling := rest }
    have hvest : ∀ m, v.stream m = s.stream m := stream_of (hstored.keeps.part .vest)
    refine ⟨v.setStream t { x with filling := rest }, congrArg Host.Outcome.next ?_,
      fun y => (stored_zero hstored y : v.memByte y = _), ?_, fun m hm => ?_, ?_⟩
    · simp only [show (s.stream t).filling = slot :: rest from hfilling]
      rw [← hpack]
      rfl
    · rw [hset, if_pos rfl]
    · rw [hset, if_neg hm, hvest]
    · exact (hstored.keeps.mono (within_of (by decide))).upd rfl rfl rfl rfl
  case ecc =>
    intro t i s
    refine ⟨⟨_, congrArg Host.Outcome.next (if_pos rfl), ?_, record_keep _ _ _ _ _ _ _ (Keep.rfl' s)⟩, fun slot hslot hrunning => ?_, fun hnone => ?_⟩
    · exact logFault_count s ⟨0, FaultClass.corrected, 64, 0, 21, OD.PK_STATE t, 0xFF, 0, t⟩
        (show OD.CLASS_COUNTS FaultClass.corrected ≠ OD.FAULTS_LOST by decide)
    · obtain ⟨w, hw⟩ : ∃ w, w = (s.setStream t { s.stream t with
          waiting := dropAt (s.stream t).waiting i.toNat, dead := (s.stream t).dead ++ [slot] }).bqChanged s.bqDepth := ⟨_, rfl⟩
      have hkw : Keep [.od, .host, .falt, .vest] s w := hw ▸ bqChanged_keep _ _ ((Keep.rfl' s).upd rfl rfl rfl rfl)
      have hrd {m : Nat} (hm : m ≠ OD.BQ_EVENTS) : w.rd m = s.rd m := by
        rw [hw, bqChanged_rd _ _ hm]
        rfl
      have hrecord := record_keep (fs := [.od, .host, .falt]) w FaultClass.item 64 21 (OD.PK_STATE t) ((s.stream t).slotBase slot) t (Keep.rfl' w)
      have hstays : (w.record FaultClass.item 64 21 (OD.PK_STATE t) ((s.stream t).slotBase slot) t).rd (OD.PK_STATE t) ≠ 2 := by
        rw [record_rd _ _ _ _ _ _ _ (by unfold OD.PK_STATE OD.FAULTS_LOST; omega) (by unfold OD.PK_STATE OD.CLASS_COUNTS FaultClass.item; omega),
          hrd (by unfold OD.PK_STATE OD.BQ_EVENTS; omega)]
        exact hrunning
      refine ⟨w.record FaultClass.item 64 21 (OD.PK_STATE t) ((s.stream t).slotBase slot) t, congrArg Host.Outcome.next ?_, ?_, ?_,
        hkw.trans (hrecord.mono (within_of (by decide)))⟩
      · simp only [Bool.false_eq_true, if_false, hslot]
        rw [← hw, streamSettle_id hstays]
      · rw [stream_of (hrecord.part .vest), hw, bqChanged_stream, stream_setStream, if_pos rfl]
      · refine (logFault_count w ⟨0, FaultClass.item, 64, 0, 21, OD.PK_STATE t, 0xFF, (s.stream t).slotBase slot, t⟩
          (show OD.CLASS_COUNTS FaultClass.item ≠ OD.FAULTS_LOST by decide)).trans ?_
        rw [hrd (show OD.CLASS_COUNTS FaultClass.item ≠ OD.BQ_EVENTS by decide)]
    · refine congrArg Host.Outcome.next ?_
      simp only [Bool.false_eq_true, if_false, hnone]

end Sys2Proof.Machine
end

section
/-! Decode and encode jobs (chapters 14 and 15): budgets, pictures and contexts. -/

set_option Elab.async false

namespace Sys2Proof.Machine

/-! ### The decoders -/

/-- Table VDEC-7 in one line: whether the picture is CONCEALED, and what its context becomes. -/
theorem nextCtxSt_eq (st : Nat) (p : DecPic) (count : Nat) :
    nextCtxSt st p count =
      (if p.whole then (if st = 2 then 3 else st)
        else if p.whole || (if st = 1 ∨ st = 2 then decide (count ≠ 0) else !(p.key && decide (count = 0))) then 3 else 2,
       p.whole || (if st = 1 ∨ st = 2 then decide (count ≠ 0) else !(p.key && decide (count = 0)))) := by
  unfold nextCtxSt
  by_cases hwhole : p.whole = true
  · simp [hwhole]
  · by_cases hseek : st = 1
    · by_cases hcount : count = 0 <;> simp [hwhole, hseek, hcount]
    · by_cases hdecoding : st = 2
      · by_cases hcount : count = 0 <;> simp [hwhole, hdecoding, hcount]
      · by_cases hclean : p.key = true ∧ count = 0
        · simp [hwhole, hseek, hdecoding, hclean]
        · have : (p.key && decide (count = 0)) = false := by simpa using hclean
          simp [hwhole, hseek, hdecoding, this]
          simpa using hclean

/-- What a reported picture leaves in its context and the counts (R625 step 6, R637, R638). -/
def State.decLeave (w : State) (x : Nat) (whole conc : Bool) (slot detail geometry reason st : Nat) (prev : Picture) : State :=
  let s := if conc then ((w.bump OD.PICTURES_CONCEALED).bump (OD.CTX_CONCEALED x)).concealItem slot detail else w
  let s := s.setDecCtx x { s.decCtx x with prev := some prev }
  let s := if whole then s else s.wr (OD.CUR_GEOMETRY x) geometry
  let s := s.wr (OD.CTX_REASON x) (if conc then reason else if st = CtxSt.decoding then 0 else s.rd (OD.CTX_REASON x))
  s.setCtxSt x st

theorem concealItem_rd (s : State) (i detail k : Nat) : (s.concealItem i detail).rd k = s.rd k :=
  (concealItem_keep s i detail (fs := [.flit]) (Keep.rfl' s)).rd (by decide) k

/-- The counts of a CONCEALED picture (R637). -/
def State.countConcealed (w : State) (x : Nat) (conc : Bool) (slot detail : Nat) : State :=
  if conc then ((w.bump OD.PICTURES_CONCEALED).bump (OD.CTX_CONCEALED x)).concealItem slot detail else w

theorem countConcealed_facts (w : State) (x : Nat) (conc : Bool) (slot detail : Nat) :
    (w.countConcealed x conc slot detail).rd OD.PICTURES_CONCEALED =
      (if conc then min (w.rd OD.PICTURES_CONCEALED + 1) 0xFFFFFFFF else w.rd OD.PICTURES_CONCEALED) ∧
    (w.countConcealed x conc slot detail).rd (OD.CTX_CONCEALED x) =
      (if conc then min (w.rd (OD.CTX_CONCEALED x) + 1) 0xFFFFFFFF else w.rd (OD.CTX_CONCEALED x)) ∧
    (∀ k, k ≠ OD.PICTURES_CONCEALED → k ≠ OD.CTX_CONCEALED x → (w.countConcealed x conc slot detail).rd k = w.rd k) ∧
    Keep [.od, .flit] w (w.countConcealed x conc slot detail) := by
  have hne : OD.PICTURES_CONCEALED ≠ OD.CTX_CONCEALED x := by unfold OD.PICTURES_CONCEALED OD.CTX_CONCEALED; omega
  unfold State.countConcealed
  cases conc
  case false => exact ⟨rfl, rfl, fun _ _ _ => rfl, Keep.rfl' w⟩
  case true =>
    simp only [if_true]
    refine ⟨?_, ?_, fun k hpic hctx => ?_, concealItem_keep _ _ _ (bump_keep _ _ (bump_keep _ _ (Keep.rfl' w)))⟩
    · rw [concealItem_rd, rd_bump_ne _ hne, rd_bump_same]
    · rw [concealItem_rd, rd_bump_same, rd_bump_ne _ hne.symm]
    · rw [concealItem_rd, rd_bump_ne _ hctx, rd_bump_ne _ hpic]

theorem decLeave_facts (w : State) (x : Nat) (whole conc : Bool) (slot detail geometry reason st : Nat) (prev : Picture) :
    let t := w.decLeave x whole conc slot detail geometry reason st prev
    t.rd OD.PICTURES_CONCEALED = (if conc then min (w.rd OD.PICTURES_CONCEALED + 1) 0xFFFFFFFF else w.rd OD.PICTURES_CONCEALED) ∧
    t.rd (OD.CTX_CONCEALED x) = (if conc then min (w.rd (OD.CTX_CONCEALED x) + 1) 0xFFFFFFFF else w.rd (OD.CTX_CONCEALED x)) ∧
    t.rd (OD.CUR_GEOMETRY x) = (if whole then w.rd (OD.CUR_GEOMETRY x) else geometry) ∧
    t.rd (OD.CTX_REASON x) = (if conc then reason else if st = 2 then 0 else w.rd (OD.CTX_REASON x)) ∧
    t.rd (OD.CTX_STATE x) = st ∧ t.decCtx x = { w.decCtx x with prev := some prev } ∧
    (∀ k, k ∉ [OD.PICTURES_CONCEALED, OD.CTX_CONCEALED x, OD.CUR_GEOMETRY x, OD.CTX_REASON x, OD.CTX_STATE x, OD.DEC_EVENTS] →
      t.rd k = w.rd k) ∧
    Keep [.od, .host, .flit, .vid] w t := by
  obtain ⟨hpics, hctx, hother, hkeep⟩ := countConcealed_facts w x conc slot detail
  intro t
  have ht : t = ((let s := (w.countConcealed x conc slot detail).setDecCtx x { (w.countConcealed x conc slot detail).decCtx x with prev := some prev }
      let s := if whole then s else s.wr (OD.CUR_GEOMETRY x) geometry
      s.wr (OD.CTX_REASON x) (if conc then reason else if st = CtxSt.decoding then 0 else s.rd (OD.CTX_REASON x))).setCtxSt x st) := rfl
  clear_value t
  generalize hu : w.countConcealed x conc slot detail = u at *
  obtain ⟨v, hv⟩ : ∃ v, v = (if whole then u.setDecCtx x { u.decCtx x with prev := some prev }
    else (u.setDecCtx x { u.decCtx x with prev := some prev }).wr (OD.CUR_GEOMETRY x) geometry) := ⟨_, rfl⟩
  have hgeometry : v.rd (OD.CUR_GEOMETRY x) = if whole then u.rd (OD.CUR_GEOMETRY x) else geometry := by
    rw [hv]
    cases whole
    · exact rd_wr_same ..
    · rfl
  have hv_rd (k : Nat) (hk : k ≠ OD.CUR_GEOMETRY x) : v.rd k = u.rd k := by
    rw [hv]
    cases whole
    · exact rd_wr_ne _ hk _
    · rfl
  have hv_ctx : v.decCtx x = { u.decCtx x with prev := some prev } := by
    rw [hv]
    cases whole <;> exact (dc_set u x x _).trans (if_pos rfl)
  have hv_keep : Keep [.od, .vid] u v := by
    rw [hv]
    cases whole
    · exact ((Keep.rfl' u).upd rfl rfl rfl rfl).wr _ _
    · exact (Keep.rfl' u).upd rfl rfl rfl rfl
  have ht : t = (v.wr (OD.CTX_REASON x) (if conc then reason else if st = CtxSt.decoding then 0 else v.rd (OD.CTX_REASON x))).setCtxSt x st := by
    rw [ht, hv]
  obtain ⟨hstate, -, hrest, hlast⟩ := setCtxSt_facts
    (v.wr (OD.CTX_REASON x) (if conc then reason else if st = CtxSt.decoding then 0 else v.rd (OD.CTX_REASON x))) x st
  rw [← ht] at hstate hrest hlast
  have hframe (k : Nat) (hevents : k ≠ OD.DEC_EVENTS) (hst : k ≠ OD.CTX_STATE x) (hreason : k ≠ OD.CTX_REASON x) : t.rd k = v.rd k := by
    rw [hrest k hevents hst, rd_wr_ne _ hreason]
  refine ⟨?_, ?_, ?_, ?_, hstate, ?_, fun k hk => ?_, ?_⟩
  · rw [hframe _ (by decide) (by unfold OD.PICTURES_CONCEALED OD.CTX_STATE; omega) (by unfold OD.PICTURES_CONCEALED OD.CTX_REASON; omega),
      hv_rd _ (by unfold OD.PICTURES_CONCEALED OD.CUR_GEOMETRY; omega), hpics]
  · rw [hframe _ (by unfold OD.CTX_CONCEALED OD.DEC_EVENTS; omega) (by unfold OD.CTX_CONCEALED OD.CTX_STATE; omega)
      (by unfold OD.CTX_CONCEALED OD.CTX_REASON; omega), hv_rd _ (by unfold OD.CTX_CONCEALED OD.CUR_GEOMETRY; omega), hctx]
  · rw [hframe _ (by unfold OD.CUR_GEOMETRY OD.DEC_EVENTS; omega) (by unfold OD.CUR_GEOMETRY OD.CTX_STATE; omega)
      (by unfold OD.CUR_GEOMETRY OD.CTX_REASON; omega), hgeometry,
      hother _ (by unfold OD.CUR_GEOMETRY OD.PICTURES_CONCEALED; omega) (by unfold OD.CUR_GEOMETRY OD.CTX_CONCEALED; omega)]
  · rw [hrest _ (by unfold OD.CTX_REASON OD.DEC_EVENTS; omega) (by unfold OD.CTX_REASON OD.CTX_STATE; omega), rd_wr_same,
      hv_rd _ (by unfold OD.CTX_REASON OD.CUR_GEOMETRY; omega),
      hother _ (by unfold OD.CTX_REASON OD.PICTURES_CONCEALED; omega) (by unfold OD.CTX_REASON OD.CTX_CONCEALED; omega)]
  · rw [(vid_of (hlast.part .vid)).2.1, show (v.wr (OD.CTX_REASON x) _).decCtx x = v.decCtx x from rfl, hv_ctx, (vid_of (hkeep.part .vid)).2.1]
  · simp only [List.mem_cons, List.not_mem_nil, or_false, not_or] at hk
    obtain ⟨h1, h2, h3, h4, h5, h6⟩ := hk
    rw [hframe k h6 h5 h4, hv_rd k h3, hother k h1 h2]
  · exact (((hkeep.mono (within_of (by decide))).trans (hv_keep.mono (within_of (by decide)))).trans
      (((Keep.rfl' (fs := [.od]) v).wr _ _).mono (within_of (by decide)))).trans (hlast.mono (within_of (by decide)))

theorem decoderContextEccError_lost {s : State} {x : Fin 64} (hlive : s.rd (OD.CTX_STATE x) ≠ 0) :
    ∃ v, exec (.decoderContextEccError false x) s = .next (v.record FaultClass.item (36 + x / 32) (18 + x / 32) (OD.CTX_STATE x) 0 x) ∧
      v.od = ((s.setCtxSt x CtxSt.seek).wr (OD.CTX_REASON x) Conc.stateLost).od ∧ Keep [.od, .host, .vid] s v ∧
      (∀ j p, s.decJob (x / 32) = some j → j.pic = some p → j.ctx = x →
        v.decJob (x / 32) = some { j with pic := some { p with whole := true, reason := 9 } }) := by
  obtain ⟨-, -, -, hkeep⟩ := setCtxSt_facts s x CtxSt.seek
  obtain ⟨u, hu⟩ : ∃ u, u = (s.setCtxSt x CtxSt.seek).wr (OD.CTX_REASON x) Conc.stateLost := ⟨_, rfl⟩
  have hkeepu : Keep [.od, .host] s u := hu ▸ hkeep.wr _ _
  have hjobs : u.decJob (x / 32) = s.decJob (x / 32) := (vid_of (hkeepu.part .vid)).1 _
  have hexec (v : State) (h : (match u.decJob (x / 32) with
        | some j =>
          match j.pic with
          | some p => if j.ctx = x then u.setDecJob (x / 32) (some { j with pic := some { p with whole := true, reason := Conc.stateLost } }) else u
          | none => u
        | none => u) = v) :
      exec (.decoderContextEccError false x) s = .next (v.record FaultClass.item (36 + x / 32) (18 + x / 32) (OD.CTX_STATE x) 0 x) := by
    rw [← h, hu]
    exact congrArg Host.Outcome.next ((if_neg (by decide)).trans (if_neg hlive))
  rw [← hu]
  by_cases hpicture : ∃ j p, s.decJob (x / 32) = some j ∧ j.pic = some p ∧ j.ctx = x
  · obtain ⟨j, p, hjob, hpic, hctx⟩ := hpicture
    refine ⟨u.setDecJob (x / 32) (some { j with pic := some { p with whole := true, reason := 9 } }), hexec _ ?_, rfl,
      (hkeepu.mono (within_of (by decide))).upd rfl rfl rfl rfl, fun j' p' hjob' hpic' _ => ?_⟩
    · simp only [hjobs, hjob, hpic, hctx, if_true]
    · obtain rfl : j = j' := Option.some.inj (hjob.symm.trans hjob')
      obtain rfl : p = p' := Option.some.inj (hpic.symm.trans hpic')
      exact (dj_set u _ _ _).trans (if_pos rfl)
  · refine ⟨u, hexec _ ?_, rfl, hkeepu.mono (within_of (by decide)), fun j p hjob hpic hctx => absurd ⟨j, p, hjob, hpic, hctx⟩ hpicture⟩
    rw [hjobs]
    cases hjob : s.decJob (x / 32) with
    | none => rfl
    | some j =>
      cases hpic : j.pic with
      | none => simp only [hpic]
      | some p => simp only [hpic, if_neg fun hctx => hpicture ⟨j, p, hjob, hpic, hctx⟩]

/-! ### The encoder -/

theorem encSettle_enabled {s : State} {x : Nat} (h : s.flag (OD.ENC_ENABLE x) = true) : s.encSettle x = s := if_pos (Or.inl h)

theorem reportEnd_rd (s : State) (e : Entry) (empty conc : Bool) (bytes k : Nat) : (s.reportEnd e empty conc bytes).rd k = s.rd k := rfl

theorem encStart_facts (s : State) (x : Nat) :
    (s.encStart x).rd (OD.ENC_STATE x) = 1 ∧ (s.encStart x).rd (OD.RC_FULLNESS x) = s.rd (OD.RC_BUFFER x) / 2 ∧
    (∀ k, k ≠ OD.ENC_STATE x → k ≠ OD.RC_FULLNESS x → (s.encStart x).rd k = s.rd k) ∧
    (s.encStart x).encCtx x = { s.encCtx x with slots := [], order := 0, qpKey := none, qpInter := none, motion := [] } ∧
    Keep [.od, .vid] s (s.encStart x) := by
  refine ⟨?_, rd_wr_same .., fun k hstate hfull => ?_, (ec_set s x x _).trans (if_pos rfl), encStart_keep s x (Keep.rfl' s)⟩
  · exact (rd_wr_ne _ (by unfold OD.ENC_STATE OD.RC_FULLNESS; omega) _).trans (rd_wr_same ..)
  · exact (rd_wr_ne _ hfull _).trans (rd_wr_ne _ hstate _)

/-- The end of an encode job whose context stays enabled. -/
theorem encReport_facts {s : State} {en : Entry} {j : EncJob} {empty : Bool} {bytes : Nat} (h : s.flag (OD.ENC_ENABLE j.ctx) = true) :
    (s.encReport en j empty bytes).vid = { s.vid with job := none } ∧
    (s.encReport en j empty bytes).rd OD.VENC_ENGINE_STATE = 0 ∧
    (∀ k, k ≠ OD.VENC_ENGINE_STATE → k ≠ OD.VENC_BUSY_CYCLES → (s.encReport en j empty bytes).rd k = s.rd k) ∧
    Keep [.od, .flit, .vid] s (s.encReport en j empty bytes) := by
  obtain ⟨v, hv⟩ : ∃ v, v = (((s.setEncJob none).wr OD.VENC_ENGINE_STATE 0).busySince OD.VENC_BUSY_CYCLES en.issuedAt).reportEnd en empty false bytes :=
    ⟨_, rfl⟩
  have hrd (k : Nat) (hstate : k ≠ OD.VENC_ENGINE_STATE) (hbusy : k ≠ OD.VENC_BUSY_CYCLES) : v.rd k = s.rd k := by
    rw [hv, reportEnd_rd, State.busySince, rd_bump64_ne _ hbusy, rd_wr_ne _ hstate]
    rfl
  have henabled : v.flag (OD.ENC_ENABLE j.ctx) = true := by
    unfold State.flag
    rw [hrd _ (by unfold OD.ENC_ENABLE OD.VENC_ENGINE_STATE; omega) (by unfold OD.ENC_ENABLE OD.VENC_BUSY_CYCLES; omega)]
    exact h
  have hend : s.encReport en j empty bytes = v := by
    unfold State.encReport
    dsimp only
    rw [← hv, encSettle_enabled henabled]
  have hvid : v.vid = { s.vid with job := none } := by
    rw [hv]
    exact (reportEnd_keep _ _ _ _ _ (fs := [.od, .flit]) (busySince_keep _ _ _ ((Keep.rfl' (s.setEncJob none)).wr _ _))).part .vid
  rw [hend]
  refine ⟨hvid, ?_, hrd, ?_⟩
  · rw [hv, reportEnd_rd, State.busySince, rd_bump64_ne _ (by decide), rd_wr_same]
  · rw [hv]
    have hjob : Keep [.od, .flit, .vid] s (s.setEncJob none) := (Keep.rfl' s).upd rfl rfl rfl rfl
    exact reportEnd_keep _ _ _ _ _ (busySince_keep _ _ _ (hjob.wr _ _))

/-- The counts and the context that a picture written in full leaves, before its report (R665, R673, R674). -/
def State.encCounted (s : State) (j : EncJob) (full qp order : Nat) (motion : Sparse MotionVec) : State :=
  let x := j.ctx
  let c := s.encCtx x
  let s := (s.bump OD.PICTURES_ENCODED).wr (OD.ENC_COUNT x) ((s.rd (OD.ENC_COUNT x) + 1) % 2 ^ 32)
  let s := if j.key then (s.bump OD.KEYS_PRODUCED).wr (OD.KEY_PENDING x) 0 else s
  let s := ((s.wr (OD.RC_FULLNESS x) full).wr (OD.LAST_QP x) qp).wr (OD.ENC_STATE x) 2
  s.setEncCtx x { c with
    slots := if j.key then [c.freeSlot] else (c.freeSlot :: c.slots).take c.refs
    order := order
    motion := motion
    qpKey := if j.key then some qp else c.qpKey
    qpInter := if j.key then c.qpInter else some qp }

/-- Distinctness of the encoder's objects. -/
theorem encCounted_rd (s : State) (j : EncJob) (full qp order : Nat) (motion : Sparse MotionVec) (k : Nat) :
    (s.encCounted j full qp order motion).rd k =
      if k = OD.ENC_STATE j.ctx then 2 else if k = OD.LAST_QP j.ctx then qp else if k = OD.RC_FULLNESS j.ctx then full
      else if j.key = true ∧ k = OD.KEY_PENDING j.ctx then 0
      else if j.key = true ∧ k = OD.KEYS_PRODUCED then min (s.rd k + 1) 0xFFFFFFFF
      else if k = OD.ENC_COUNT j.ctx then (s.rd k + 1) % 2 ^ 32
      else if k = OD.PICTURES_ENCODED then min (s.rd k + 1) 0xFFFFFFFF else s.rd k := by
  have hcount : OD.ENC_COUNT j.ctx ≠ OD.PICTURES_ENCODED := by unfold OD.ENC_COUNT OD.PICTURES_ENCODED; omega
  have hcount' : OD.KEYS_PRODUCED ≠ OD.ENC_COUNT j.ctx := by unfold OD.ENC_COUNT OD.KEYS_PRODUCED; omega
  unfold State.encCounted
  dsimp only
  rw [rd_setEncCtx, rd_wr, rd_wr, rd_wr]
  cases j.key
  · simp only [Bool.false_eq_true, if_false, false_and, rd_wr, rd_bump]
    split_ifs <;> simp_all
  · simp only [if_true, true_and, rd_wr, rd_bump]
    split_ifs <;> simp_all

theorem encCounted_facts (s : State) (j : EncJob) (full qp order : Nat) (motion : Sparse MotionVec) :
    let t := s.encCounted j full qp order motion
    (∀ k, k < 0x741001 → k ≠ OD.PICTURES_ENCODED → k ≠ OD.KEYS_PRODUCED → t.rd k = s.rd k) ∧
    t.rd OD.PICTURES_ENCODED = min (s.rd OD.PICTURES_ENCODED + 1) 0xFFFFFFFF ∧
    t.rd (OD.ENC_COUNT j.ctx) = (s.rd (OD.ENC_COUNT j.ctx) + 1) % 2 ^ 32 ∧
    t.rd (OD.RC_FULLNESS j.ctx) = full ∧ t.rd (OD.LAST_QP j.ctx) = qp ∧ t.rd (OD.ENC_STATE j.ctx) = 2 ∧
    t.rd OD.KEYS_PRODUCED = (if j.key then min (s.rd OD.KEYS_PRODUCED + 1) 0xFFFFFFFF else s.rd OD.KEYS_PRODUCED) ∧
    t.rd (OD.KEY_PENDING j.ctx) = (if j.key then 0 else s.rd (OD.KEY_PENDING j.ctx)) := by
  intro t
  have ht (k : Nat) : t.rd k = _ := encCounted_rd s j full qp order motion k
  simp only [OD.PICTURES_ENCODED, OD.KEYS_PRODUCED, OD.ENC_COUNT, OD.RC_FULLNESS, OD.LAST_QP, OD.ENC_STATE, OD.KEY_PENDING] at ht ⊢
  have apart {k m : Nat} (hk : k < 0x741001) (hm : 0x741001 ≤ m) : (k = m) = False := eq_false (by omega)
  have apart' {k m : Nat} (hk : k < 0x741001) (hm : 0x741001 ≤ m) : (m = k) = False := eq_false (by omega)
  refine ⟨fun k hk hpics hkeys => ?_, ?_, ?_, ?_, ?_, ?_, ?_, ?_⟩ <;> rw [ht] <;> clear ht t
  case refine_1 => simp (disch := omega) [apart hk, hpics, hkeys]
  all_goals simp (disch := omega) [apart, apart']

theorem encCounted_keep (s : State) (j : EncJob) (full qp order : Nat) (motion : Sparse MotionVec) :
    Keep [.od, .vid] s (s.encCounted j full qp order motion) := by
  unfold State.encCounted
  dsimp only
  refine Keep.upd ?_ rfl rfl rfl rfl
  cases j.key
  · exact ((((bump_keep _ _ (Keep.rfl' s)).wr _ _).wr _ _).wr _ _).wr _ _
  · exact ((((bump_keep _ _ ((bump_keep _ _ (Keep.rfl' s)).wr _ _)).wr _ _).wr _ _).wr _ _).wr _ _

/-- The object that no end of an encode job counts keeps its value. -/
theorem encCounted_enabled (s : State) (j : EncJob) (full qp order : Nat) (motion : Sparse MotionVec) :
    (s.encCounted j full qp order motion).flag (OD.ENC_ENABLE j.ctx) = s.flag (OD.ENC_ENABLE j.ctx) := by
  unfold State.flag
  rw [encCounted_rd, if_neg (by unfold OD.ENC_ENABLE OD.ENC_STATE; omega), if_neg (by unfold OD.ENC_ENABLE OD.LAST_QP; omega),
    if_neg (by unfold OD.ENC_ENABLE OD.RC_FULLNESS; omega), if_neg (by unfold OD.ENC_ENABLE OD.KEY_PENDING; omega),
    if_neg (by unfold OD.ENC_ENABLE OD.KEYS_PRODUCED; omega), if_neg (by unfold OD.ENC_ENABLE OD.ENC_COUNT; omega),
    if_neg (by unfold OD.ENC_ENABLE OD.PICTURES_ENCODED; omega)]

/-- A context's objects lie past those of the encoder itself. -/
theorem encObject_apart {k : Nat} (h : 0x741001 ≤ k) :
    k ∉ [OD.PICTURES_DROPPED, OD.ENC_EVENTS, OD.VENC_ENGINE_STATE, OD.VENC_BUSY_CYCLES] ∧ k ≠ OD.VENC_PIXELS ∧
    k ≠ OD.VENC_ENGINE_STATE ∧ k ≠ OD.VENC_BUSY_CYCLES := by
  simp only [List.mem_cons, List.not_mem_nil, or_false, not_or, OD.PICTURES_DROPPED, OD.ENC_EVENTS, OD.VENC_ENGINE_STATE,
    OD.VENC_BUSY_CYCLES, OD.VENC_PIXELS]
  omega

theorem encDropped_facts {w : State} {en : Entry} {j : EncJob} (h : w.flag (OD.ENC_ENABLE j.ctx) = true) :
    let t := ((w.bump OD.PICTURES_DROPPED).encEvent j.ctx).encReport en j true 64
    t.vid = { w.vid with job := none } ∧ t.rd OD.VENC_ENGINE_STATE = 0 ∧
    t.rd OD.PICTURES_DROPPED = min (w.rd OD.PICTURES_DROPPED + 1) 0xFFFFFFFF ∧
    t.rd OD.ENC_EVENTS = setBit (w.rd OD.ENC_EVENTS) j.ctx true ∧
    (∀ k, k ∉ [OD.PICTURES_DROPPED, OD.ENC_EVENTS, OD.VENC_ENGINE_STATE, OD.VENC_BUSY_CYCLES] → t.rd k = w.rd k) ∧
    Keep [.od, .host, .flit, .vid] w t := by
  obtain ⟨z, hz⟩ : ∃ z, z = (w.bump OD.PICTURES_DROPPED).encEvent j.ctx := ⟨_, rfl⟩
  obtain ⟨hevents, hother, hkeep⟩ := hz ▸ encEvent_facts (w.bump OD.PICTURES_DROPPED) j.ctx
  have hrd (k : Nat) (hevent : k ≠ OD.ENC_EVENTS) (hdropped : k ≠ OD.PICTURES_DROPPED) : z.rd k = w.rd k := by
    rw [hother k hevent, rd_bump_ne _ hdropped]
  have henabled : z.flag (OD.ENC_ENABLE j.ctx) = true := by
    unfold State.flag
    rw [hrd _ (by unfold OD.ENC_ENABLE OD.ENC_EVENTS; omega) (by unfold OD.ENC_ENABLE OD.PICTURES_DROPPED; omega)]
    exact h
  obtain ⟨hvid, hidle, hsame, hlast⟩ := encReport_facts (en := en) (empty := true) (bytes := 64) henabled
  rw [← hz]
  refine ⟨hvid.trans ?_, hidle, ?_, ?_, fun k hk => ?_,
    (((bump_keep _ _ (Keep.rfl' w)).trans (hkeep.mono (within_of (by decide)))).trans (hlast.mono (within_of (by decide))))⟩
  · rw [hkeep.part .vid]
    rfl
  · rw [hsame _ (by decide) (by decide), hother _ (by decide), rd_bump_same]
  · rw [hsame _ (by decide) (by decide), hevents, rd_bump_ne _ (by decide)]
  · simp only [List.mem_cons, List.not_mem_nil, or_false, not_or] at hk
    obtain ⟨hdropped, hevent, hstate, hbusy⟩ := hk
    rw [hsame k hstate hbusy, hrd k hevent hdropped]

theorem encDone_facts {w : State} {en : Entry} {j : EncJob} {n full qp order : Nat} {motion : Sparse MotionVec}
    (h : w.flag (OD.ENC_ENABLE j.ctx) = true) :
    let c := w.encCounted j full qp order motion
    let t := w.encDone en j n full qp order motion
    t.vid = { c.vid with job := none } ∧ t.rd OD.VENC_ENGINE_STATE = 0 ∧
    (∀ k, k ≠ OD.VENC_ENGINE_STATE → k ≠ OD.VENC_BUSY_CYCLES → t.rd k = c.rd k) ∧ Keep [.od, .flit, .vid] w t := by
  intro c t
  have ht : t = c.encReport en j false (64 + n) := rfl
  obtain ⟨hvid, hidle, hsame, hlast⟩ := encReport_facts (s := c) (en := en) (empty := false) (bytes := 64 + n)
    ((encCounted_enabled w j full qp order motion).trans h)
  rw [ht]
  exact ⟨hvid, hidle, hsame, ((encCounted_keep w j full qp order motion).mono (within_of (by decide))).trans hlast⟩

/-- Settles O45: each job end is its pieces, its report and the move of its context, taken apart case by case. -/
theorem picturesAreDecodedAndEncoded : Obligations.PicturesAreDecodedAndEncoded := by
  unfold Obligations.PicturesAreDecodedAndEncoded
  refine ⟨?budget, ?decoded, ?decoderEcc, ?encoded, ?encoderEcc⟩
  case budget =>
    intro e s j en p hjob hrun hpic hgate hwhole hoverrun
    have hexec : exec (.decodeBudgetExpiry e) s = .next (if s.spineCycles (s.clk.now - en.issuedAt) < p.budget then s
        else ((s.setDecJob e (some { j with pic := some { p with overrun := true } })).bump OD.BUDGET_OVERRUNS).decEvent j.ctx) := by
      show Host.Outcome.next _ = _
      simp only [hjob, hrun, hpic, hgate, hwhole, hoverrun, Bool.false_eq_true, false_or]
    refine ⟨fun hdue => ?_, fun hearly => hexec.trans (congrArg Host.Outcome.next (if_pos hearly))⟩
    obtain ⟨w, hw⟩ : ∃ w, w = (s.setDecJob e (some { j with pic := some { p with overrun := true } })).bump OD.BUDGET_OVERRUNS := ⟨_, rfl⟩
    obtain ⟨hevents, hother, hkeep⟩ := decEvent_facts w j.ctx
    have hjobs (m : Nat) : (w.decEvent j.ctx).decJob m =
        if m = e then some { j with pic := some { p with overrun := true } } else s.decJob m := by
      rw [(vid_of (hkeep.part .vid)).1, hw]
      exact dj_set s _ _ _
    have hcount : w.rd OD.BUDGET_OVERRUNS = min (s.rd OD.BUDGET_OVERRUNS + 1) 0xFFFFFFFF := hw ▸ rd_bump_same _ _
    have hrd (k : Nat) (hk : k ≠ OD.BUDGET_OVERRUNS) : w.rd k = s.rd k := hw ▸ rd_bump_ne _ hk
    refine ⟨w.decEvent j.ctx, ?_, (hjobs e).trans (if_pos rfl), fun m hm => (hjobs m).trans (if_neg hm), ?_, ?_, ⟨fun k hk => ?_⟩, ?_⟩
    · rw [hexec, if_neg (Nat.not_lt.2 hdue), hw]
    · rw [hother _ (by decide), hcount]
    · rw [hevents, hrd _ (by decide)]
    · simp only [List.mem_cons, List.not_mem_nil, or_false, not_or] at hk
      obtain ⟨hbudget, hevent⟩ := hk
      rw [hother k hevent, hrd k hbudget]
    · have hkw : Keep [.od, .host, .vid] s w := hw ▸ bump_keep _ _ ((Keep.rfl' s).upd rfl rfl rfl rfl)
      exact hkw.trans (hkeep.mono (within_of (by decide)))
  case decoderEcc =>
    intro x s
    refine ⟨⟨_, congrArg Host.Outcome.next (if_pos rfl), ?_, record_keep _ _ _ _ _ _ _ (Keep.rfl' s)⟩, fun hoff => ?_, fun hlive => ?_⟩
    · exact logFault_count s ⟨0, FaultClass.corrected, 36 + ctxEngine x, 0, 18 + ctxEngine x, OD.CTX_STATE x, 0xFF, 0, x⟩
        (show OD.CLASS_COUNTS FaultClass.corrected ≠ OD.FAULTS_LOST by decide)
    · exact congrArg Host.Outcome.next ((if_neg (by decide)).trans (if_pos hoff))
    · obtain ⟨v, hexec, hod, hkeep, hjobs⟩ := decoderContextEccError_lost hlive
      obtain ⟨hstate, hevents, hother, -⟩ := setCtxSt_facts s x CtxSt.seek
      have hrecord := record_keep (fs := [.od, .host, .falt]) v FaultClass.item (36 + x / 32) (18 + x / 32) (OD.CTX_STATE x) 0 x (Keep.rfl' v)
      refine ⟨_, hexec, ?_, ?_, ?_, ?_, fun j p hjob hpic hctx => ?_, (hkeep.mono (within_of (by decide))).trans (hrecord.mono (within_of (by decide)))⟩
      · rw [record_rd _ _ _ _ _ _ _ (by unfold OD.CTX_STATE OD.FAULTS_LOST; omega) (by unfold OD.CTX_STATE OD.CLASS_COUNTS FaultClass.item; omega),
          rd_of_od hod, rd_wr_ne _ (by unfold OD.CTX_STATE OD.CTX_REASON; omega), hstate]
      · rw [record_rd _ _ _ _ _ _ _ (by unfold OD.CTX_REASON OD.FAULTS_LOST; omega) (by unfold OD.CTX_REASON OD.CLASS_COUNTS FaultClass.item; omega),
          rd_of_od hod, rd_wr_same]
      · rw [record_rd _ _ _ _ _ _ _ (by decide) (by decide), rd_of_od hod, rd_wr_ne _ (by unfold OD.DEC_EVENTS OD.CTX_REASON; omega), hevents]
        by_cases hseek : s.rd (OD.CTX_STATE x) = 1
        · rw [if_pos hseek, if_neg fun h => h.1 hseek]
        · rw [if_neg hseek, if_pos ⟨hseek, Or.inl rfl⟩]
      · refine (logFault_count v ⟨0, FaultClass.item, 36 + x / 32, 0, 18 + x / 32, OD.CTX_STATE x, 0xFF, 0, x⟩
          (show OD.CLASS_COUNTS FaultClass.item ≠ OD.FAULTS_LOST by decide)).trans ?_
        rw [rd_of_od hod, rd_wr_ne _ (show OD.CLASS_COUNTS FaultClass.item ≠ OD.CTX_REASON x by unfold OD.CLASS_COUNTS FaultClass.item OD.CTX_REASON; omega),
          hother _ (show OD.CLASS_COUNTS FaultClass.item ≠ OD.DEC_EVENTS by decide)
            (show OD.CLASS_COUNTS FaultClass.item ≠ OD.CTX_STATE x by unfold OD.CLASS_COUNTS FaultClass.item OD.CTX_STATE; omega)]
      · rw [(vid_of (hrecord.part .vid)).1]
        exact hjobs j p hjob hpic hctx
  case decoded =>
    intro e rep s j en hjob hrun hgate
    refine ⟨fun hpic => ?_, fun p v hpic => ?_⟩
    · show Host.Outcome.next _ = _
      simp only [hjob, hrun, hpic, hgate, Bool.false_eq_true, if_false]
    have hexec : exec (.decodeJobEnd e rep) s = .next (s.decFinish e en j p rep) := by
      show Host.Outcome.next _ = _
      simp only [hjob, hrun, hpic, hgate, Bool.false_eq_true, if_false]
    unfold State.decFinish at hexec
    dsimp only at hexec
    rw [nextCtxSt_eq] at hexec
    dsimp only at hexec
    intro x c n count st conc st' why frac out a mf pieces escape
    refine ⟨fun y hy => ?_, fun hescape hwrites => ?_, fun w hescape hwrites => ?_⟩
    · have hsealed : s.sealEscape p.sealed (pieces.map (fun q => (q.1, q.2.length))) = some y := hy
      rw [hexec]
      refine congrArg Host.Outcome.next ?_
      dsimp only [pieces, a, out, mf, conc, why, frac, count, st, n, c, x] at hsealed
      rw [hsealed]
    · rw [hexec]
      refine congrArg Host.Outcome.next ?_
      dsimp only [escape, pieces, a, out, mf, conc, why, frac, count, st, n, c, x] at hescape hwrites
      rw [hescape]
      dsimp only
      rw [hwrites]
    · intro v'
      have hv' : v' = ((v.wr (OD.DECODE_COUNT x) ((n + 1) % 2 ^ 32)).bump OD.PICTURES_DECODED).bump64 (OD.VDEC_PIXELS e) (p.w * p.h) := rfl
      refine ⟨?_, ?_, ?_, fun hreport hlive => ?_⟩
      · rw [hv', rd_bump64_ne _ (by unfold OD.DECODE_COUNT OD.VDEC_PIXELS; omega), rd_bump_ne _ (by unfold OD.DECODE_COUNT OD.PICTURES_DECODED; omega),
          rd_wr_same]
      · rw [hv', rd_bump64_ne _ (by unfold OD.PICTURES_DECODED OD.VDEC_PIXELS; omega), rd_bump_same,
          rd_wr_ne _ (by unfold OD.DECODE_COUNT OD.PICTURES_DECODED; omega)]
      · rw [hv', rd_bump64_same, rd_bump_ne _ (by unfold OD.VDEC_PIXELS OD.PICTURES_DECODED; omega),
          rd_wr_ne _ (by unfold OD.DECODE_COUNT OD.VDEC_PIXELS; omega)]
      · obtain ⟨hpics, hctx, hgeo, hreason, hstate, hprev, hother, hkeep⟩ := decLeave_facts w x p.whole conc en.slot
          (n % 65536 * 2 ^ 32 + frac * 2 ^ 24 + x * 2 ^ 8 + why) (p.h * 65536 + p.w) why st' ⟨p.w, p.h, p.p010, out⟩
        refine ⟨_, hexec.trans (congrArg Host.Outcome.next ?_), fun k hk => hother k ?_, hpics, hctx, hgeo, hreason, hstate, hprev, hkeep⟩
        · dsimp only [escape, pieces, a, out, mf, conc, why, frac, count, st, n, c, x] at hescape hwrites hreport
          rw [hescape]
          dsimp only
          rw [hwrites]
          dsimp only
          rw [hreport]
          dsimp only
          have hcounts := (countConcealed_facts w x conc en.slot (n % 65536 * 2 ^ 32 + frac * 2 ^ 24 + x * 2 ^ 8 + why)).2.2.1 (OD.CTX_STATE x)
            (by unfold OD.CTX_STATE OD.PICTURES_CONCEALED; omega) (by unfold OD.CTX_STATE OD.CTX_CONCEALED; omega)
          exact if_neg fun hzero => hlive (hcounts.symm.trans hzero)
        · have hx : k = OD.DECODE_COUNT x ∨ k = OD.PICTURES_DECODED ∨ k = OD.VDEC_PIXELS e := by simpa using hk
          obtain rfl | rfl | rfl := hx <;>
            simp only [List.mem_cons, List.not_mem_nil, or_false, not_or, OD.DECODE_COUNT, OD.PICTURES_DECODED, OD.VDEC_PIXELS,
              OD.PICTURES_CONCEALED, OD.CTX_CONCEALED, OD.CUR_GEOMETRY, OD.CTX_REASON, OD.CTX_STATE, OD.DEC_EVENTS] <;> omega
  case encoderEcc =>
    intro x s
    refine ⟨⟨_, congrArg Host.Outcome.next (if_pos rfl), ?_, record_keep _ _ _ _ _ _ _ (Keep.rfl' s)⟩, fun hoff => ?_, fun hlive => ?_⟩
    · exact logFault_count s ⟨0, FaultClass.corrected, 38, 0, 20, OD.ENC_STATE x, 0xFF, 0, x⟩
        (show OD.CLASS_COUNTS FaultClass.corrected ≠ OD.FAULTS_LOST by decide)
    · exact congrArg Host.Outcome.next ((if_neg (by decide)).trans (if_pos hoff))
    · obtain ⟨u, hu⟩ : ∃ u, u = s.encStart x := ⟨_, rfl⟩
      obtain ⟨hstart, hfull, hrest, hctx, hkeepu⟩ := hu ▸ encStart_facts s x
      obtain ⟨hevents, hother, hkeep⟩ := encEvent_facts u x
      have hrecord := record_keep (fs := [.od, .host, .falt]) (u.encEvent x) FaultClass.item 38 20 (OD.ENC_STATE x) 0 x (Keep.rfl' _)
      refine ⟨(u.encEvent x).record FaultClass.item 38 20 (OD.ENC_STATE x) 0 x, ?_, ?_, ?_, ?_, ?_, ?_,
        ((hkeepu.mono (within_of (by decide))).trans (hkeep.mono (within_of (by decide)))).trans (hrecord.mono (within_of (by decide)))⟩
      · rw [hu]
        exact congrArg Host.Outcome.next ((if_neg (by decide)).trans (if_neg hlive))
      · rw [record_rd _ _ _ _ _ _ _ (by unfold OD.ENC_STATE OD.FAULTS_LOST; omega) (by unfold OD.ENC_STATE OD.CLASS_COUNTS FaultClass.item; omega),
          hother _ (by unfold OD.ENC_STATE OD.ENC_EVENTS; omega), hstart]
      · rw [record_rd _ _ _ _ _ _ _ (by unfold OD.RC_FULLNESS OD.FAULTS_LOST; omega) (by unfold OD.RC_FULLNESS OD.CLASS_COUNTS FaultClass.item; omega),
          hother _ (by unfold OD.RC_FULLNESS OD.ENC_EVENTS; omega), hfull]
      · rw [record_rd _ _ _ _ _ _ _ (by decide) (by decide), hevents, hrest _ (by unfold OD.ENC_EVENTS OD.ENC_STATE; omega)
          (by unfold OD.ENC_EVENTS OD.RC_FULLNESS; omega)]
      · rw [(vid_of (hrecord.part .vid)).2.2, (vid_of (hkeep.part .vid)).2.2, hctx]
      · refine (logFault_count (u.encEvent x) ⟨0, FaultClass.item, 38, 0, 20, OD.ENC_STATE x, 0xFF, 0, x⟩
          (show OD.CLASS_COUNTS FaultClass.item ≠ OD.FAULTS_LOST by decide)).trans ?_
        rw [hother _ (show OD.CLASS_COUNTS FaultClass.item ≠ OD.ENC_EVENTS by decide),
          hrest _ (show OD.CLASS_COUNTS FaultClass.item ≠ OD.ENC_STATE x by unfold OD.CLASS_COUNTS FaultClass.item OD.ENC_STATE; omega)
            (show OD.CLASS_COUNTS FaultClass.item ≠ OD.RC_FULLNESS x by unfold OD.CLASS_COUNTS FaultClass.item OD.RC_FULLNESS; omega)]
  case encoded =>
    intro rep s j en hjob hrun hgate
    refine ⟨fun hempty => ?_, fun hempty => ?_⟩
    · show Host.Outcome.next _ = _
      simp only [hjob, hrun, hempty, hgate, Bool.false_eq_true, if_false, if_true]
    have hexec : exec (.encodeJobEnd rep) s = .next (s.encFinish en j rep) := by
      show Host.Outcome.next _ = _
      simp only [hjob, hrun, hempty, hgate, Bool.false_eq_true, if_false]
    unfold State.encFinish State.encWritten RcParams.fullness at hexec
    dsimp only at hexec
    intro x c it rc budgeted stream n dropped r full order u recd pieces v
    refine ⟨fun hwrites => ?_, fun hwrites henabled => ?_⟩
    · rw [hexec]
      dsimp only [recd, pieces, u, order, full, r, dropped, n, stream, budgeted, rc, it, c, x] at hwrites
      rw [hwrites]
    · obtain ⟨w, hw⟩ : ∃ w, w = v.bump64 OD.VENC_PIXELS (4096 * (v.encCtx x).blocks) := ⟨_, rfl⟩
      have hkw : Keep [.od] v w := hw ▸ bump64_keep _ _ _ (Keep.rfl' v)
      have hw_rd (k : Nat) (hk : k ≠ OD.VENC_PIXELS) : w.rd k = v.rd k := hw ▸ rd_bump64_ne _ hk _
      have hw_pixels : w.rd OD.VENC_PIXELS = min (v.rd OD.VENC_PIXELS + 4096 * (v.encCtx x).blocks) 0xFFFFFFFFFFFFFFFF := hw ▸ rd_bump64_same ..
      have hw_ctx : w.encCtx x = v.encCtx x := (vid_of (hkw.part .vid)).2.2 x
      have hw_enabled : w.flag (OD.ENC_ENABLE x) = true := by
        unfold State.flag
        rw [hw_rd _ (by unfold OD.ENC_ENABLE OD.VENC_PIXELS; omega)]
        exact henabled
      have hfinish : exec (.encodeJobEnd rep) s = .next (if dropped then ((w.bump OD.PICTURES_DROPPED).encEvent x).encReport en j true 64
          else w.encDone en j n full r.2 order (if j.key then [] else s.encMotion j c j.qp c.slotSize rep.parts)) := by
        rw [hexec]
        dsimp only [recd, pieces, u, order, full, r, dropped, n, stream, budgeted, rc, it, c, x] at hwrites hw ⊢
        rw [hwrites, hw]
      cases hdrop : dropped
      case true =>
        rw [hdrop, if_pos rfl] at hfinish
        obtain ⟨hvid, hidle, hdropped, hevents, hsame, hlast⟩ := encDropped_facts (en := en) hw_enabled
        have hctx : ∀ m, (((w.bump OD.PICTURES_DROPPED).encEvent x).encReport en j true 64).encCtx m = v.encCtx m := fun m => by
          unfold State.encCtx
          rw [hvid, hkw.part .vid]
        have hkept (k : Nat) (hk : 0x741001 ≤ k) : (((w.bump OD.PICTURES_DROPPED).encEvent x).encReport en j true 64).rd k = v.rd k :=
          (hsame k (encObject_apart hk).1).trans (hw_rd k (encObject_apart hk).2.1)
        refine ⟨_, hfinish, by rw [hvid], hidle, ?_, ?_, ?_, ?_, ?_, ?_, ?_, ?_, ?_, ?_, hctx x,
          (hkw.mono (within_of (by decide))).trans (hlast.mono (within_of (by decide)))⟩
        · rw [hsame _ (by decide), hw_pixels]
        · rw [hdropped, hw_rd _ (by decide), if_pos rfl]
        · rw [hevents, hw_rd _ (by decide), if_pos rfl]
        · rw [hsame _ (by decide), hw_rd _ (by decide), if_pos rfl]
        · rw [hkept _ (by unfold OD.ENC_COUNT; omega), if_pos rfl]
        · rw [hkept _ (by unfold OD.RC_FULLNESS; omega), if_pos rfl]
        · rw [hkept _ (by unfold OD.LAST_QP; omega), if_pos rfl]
        · rw [hkept _ (by unfold OD.ENC_STATE; omega), if_pos rfl]
        · rw [hsame _ (by decide), hw_rd _ (by decide), if_neg (by simp)]
        · rw [hkept _ (by unfold OD.KEY_PENDING; omega), if_neg (by simp)]
      case false =>
        rw [hdrop, if_neg Bool.false_ne_true] at hfinish
        obtain ⟨hvid, hidle, hsame, hlast⟩ := encDone_facts (en := en) (n := n) (full := full) (qp := r.2) (order := order)
          (motion := if j.key then [] else s.encMotion j c j.qp c.slotSize rep.parts) hw_enabled
        obtain ⟨hlow, hpics, hcount, hfull, hqp, hstate, hkeys, hpending⟩ := encCounted_facts w j full r.2 order
          (if j.key then [] else s.encMotion j c j.qp c.slotSize rep.parts)
        have hkept (k : Nat) (hk : 0x741001 ≤ k) := hsame k (encObject_apart hk).2.2.1 (encObject_apart hk).2.2.2
        have hw_obj (k : Nat) (hk : 0x741001 ≤ k) : w.rd k = v.rd k := hw_rd k (encObject_apart hk).2.1
        refine ⟨_, hfinish, by rw [hvid], hidle, ?_, ?_, ?_, ?_, ?_, ?_, ?_, ?_, ?_, ?_, ?_,
          (hkw.mono (within_of (by decide))).trans (hlast.mono (within_of (by decide)))⟩
        · rw [hsame _ (by decide) (by decide), hlow _ (by decide) (by decide) (by decide), hw_pixels]
        · rw [hsame _ (by decide) (by decide), hlow _ (by decide) (by decide) (by decide), hw_rd _ (by decide), if_neg Bool.false_ne_true]
        · rw [hsame _ (by decide) (by decide), hlow _ (by decide) (by decide) (by decide), hw_rd _ (by decide), if_neg Bool.false_ne_true]
        · rw [hsame _ (by decide) (by decide), hpics, hw_rd _ (by decide), if_neg Bool.false_ne_true]
        · rw [hkept _ (by unfold OD.ENC_COUNT; omega), hcount, hw_obj _ (by unfold OD.ENC_COUNT; omega), if_neg Bool.false_ne_true]
        · rw [hkept _ (by unfold OD.RC_FULLNESS; omega), hfull, if_neg Bool.false_ne_true]
        · rw [hkept _ (by unfold OD.LAST_QP; omega), hqp, if_neg Bool.false_ne_true]
        · rw [hkept _ (by unfold OD.ENC_STATE; omega), hstate, if_neg Bool.false_ne_true]
        · rw [hsame _ (by decide) (by decide), hkeys, hw_rd _ (by decide)]
          exact if_congr (and_iff_left rfl).symm rfl rfl
        · rw [hkept _ (by unfold OD.KEY_PENDING; omega), hpending, hw_obj _ (by unfold OD.KEY_PENDING; omega)]
          exact if_congr (and_iff_left rfl).symm rfl rfl
        · rw [if_neg Bool.false_ne_true, ← hw_ctx]
          unfold State.encCtx
          rw [hvid]
          exact (ec_set _ x x _).trans (if_pos rfl)

end Sys2Proof.Machine
end

section
/-! The colonnade (chapter 16): loads, routes, synapses, marks and errors. -/

set_option Elab.async false

namespace Sys2Proof.Machine

/-! ### Loads (R689) -/

theorem netLoadDone_failed {src len e : Nat} {s u : State} (hload : s.coln.load = some (src, len)) (h : s.netCheck src len = (some e, u)) :
    exec .netLoadDone s = .next ((u.netClear.wr OD.NET_RESULT e).wr OD.COL_STATE 0) := by
  show Host.Outcome.next _ = _
  simp only [hload, h]

theorem netLoadDone_loaded {src len : Nat} {s u : State} (hload : s.coln.load = some (src, len)) (h : s.netCheck src len = (none, u)) :
    exec .netLoadDone s = .next ((((u.fillBank u.coln.bank u.rd).setColn { (u.fillBank u.coln.bank u.rd).coln with
      load := none, routesWas := shadowRoutes (u.fillBank u.coln.bank u.rd).od }).wr OD.NET_RESULT 1).wr OD.COL_STATE 2) := by
  show Host.Outcome.next _ = _
  simp only [hload, h]

/-- A cleared network leaves the shadow routes at their defaults. -/
theorem netClear_route (s : State) {r i : Nat} (hr : r < 16) (hi : i < 64) :
    s.netClear.rd (OD.COLN_ROUTE r i) = odDefault (OD.COLN_ROUTE r i) := by
  unfold State.netClear
  rw [rd_setColn]
  unfold State.rd
  rw [Sparse.get_clear, if_pos]
  simp only [OD.COLN_ROUTE, decide_eq_true_eq]
  omega

/-! ### Routers (R699, R700) -/

/-- The copy of an event that its router's entry sends toward a neighbour, as the mesh holds it. -/
def meshOut (w : Nat) (e : ColnEvent) (d : Nat) : List ColnEvent :=
  if bit w (56 + d) then
    (match meshNext e.at_ d with | some r => if e.hops < 8 then [{ e with at_ := r, hops := e.hops + 1 }] else [] | none => []) else []

theorem State.SameBut.bump {s : State} {k : Nat} {ks : List Nat} (h : k ∈ ks) : s.SameBut (s.bump k) ks :=
  ⟨fun _ hj => rd_bump_ne _ fun he => hj (he ▸ h)⟩

/-- One output of an entry: the mesh takes its copy, and no more than the two counts move. -/
theorem meshOut_facts (s : State) (w : Nat) (e : ColnEvent) (d : Nat) :
    (if bit w (56 + d) then s.meshCopy e d else s).coln = { s.coln with mesh := s.coln.mesh ++ meshOut w e d } ∧
    s.SameBut (if bit w (56 + d) then s.meshCopy e d else s) [OD.ROUTE_MISSES, OD.HOP_DROPS] ∧
    Keep [.od, .coln] s (if bit w (56 + d) then s.meshCopy e d else s) := by
  unfold meshOut
  by_cases hw : bit w (56 + d) = true
  · rw [if_pos hw, if_pos hw]
    obtain ⟨hcoln, hrd⟩ := meshCopy_facts s e d
    refine ⟨hcoln, ⟨fun k hk => ?_⟩, meshCopy_keep s e d (Keep.rfl' s)⟩
    simp only [List.mem_cons, List.not_mem_nil, or_false, not_or] at hk
    exact hrd k hk.1 hk.2
  · rw [if_neg hw, if_neg hw, List.append_nil]
    exact ⟨rfl, State.SameBut.refl _ _, Keep.rfl' s⟩

/-- The four outputs of an entry in their order. -/
def State.meshCopies (s : State) (w : Nat) (e : ColnEvent) : State :=
  let s := if bit w 56 then s.meshCopy e 0 else s
  let s := if bit w 57 then s.meshCopy e 1 else s
  let s := if bit w 58 then s.meshCopy e 2 else s
  if bit w 59 then s.meshCopy e 3 else s

theorem meshCopies_facts (s : State) (w : Nat) (e : ColnEvent) :
    (s.meshCopies w e).coln =
      { s.coln with mesh := s.coln.mesh ++ meshOut w e 0 ++ meshOut w e 1 ++ meshOut w e 2 ++ meshOut w e 3 } ∧
    s.SameBut (s.meshCopies w e) [OD.ROUTE_MISSES, OD.HOP_DROPS] ∧ Keep [.od, .coln] s (s.meshCopies w e) := by
  obtain ⟨c0, b0, k0⟩ := meshOut_facts s w e 0
  generalize h0 : (if bit w (56 + 0) then s.meshCopy e 0 else s) = s0 at c0 b0 k0
  obtain ⟨c1, b1, k1⟩ := meshOut_facts s0 w e 1
  generalize h1 : (if bit w (56 + 1) then s0.meshCopy e 1 else s0) = s1 at c1 b1 k1
  obtain ⟨c2, b2, k2⟩ := meshOut_facts s1 w e 2
  generalize h2 : (if bit w (56 + 2) then s1.meshCopy e 2 else s1) = s2 at c2 b2 k2
  obtain ⟨c3, b3, k3⟩ := meshOut_facts s2 w e 3
  have hcopies : s.meshCopies w e = if bit w (56 + 3) then s2.meshCopy e 3 else s2 := by
    rw [← h2, ← h1, ← h0]
    rfl
  rw [hcopies]
  exact ⟨by rw [c3, c2, c1, c0], ((b0.trans b1).trans b2).trans b3, ((k0.trans k1).trans k2).trans k3⟩

/-- A router's entry that no output names. -/
theorem meshCopies_none {w : Nat} (h : bits w 56 4 = 0) (s : State) (e : ColnEvent) : s.meshCopies w e = s := by
  have hbit (d : Nat) (hd : d < 4) : bit w (56 + d) = false := by
    have hw : w / 2 ^ 56 % 16 = 0 := h
    have : w / 2 ^ (56 + d) % 2 = 0 := by
      rw [Nat.pow_add, ← Nat.div_div_eq_div_mul]
      interval_cases d <;> omega
    unfold bit
    rw [this]
    rfl
  unfold State.meshCopies
  rw [hbit 0 (by omega), hbit 1 (by omega), hbit 2 (by omega), hbit 3 (by omega)]
  rfl

theorem routeEvent_of {s : State} {e : ColnEvent} {w : Nat} (h : s.routeFor e = some w) :
    s.routeEvent e =
      (let t := (if bit w 60 then s.colnArrive e.at_ e else s).meshCopies w e
       if bit w 61 ∧ t.coln.cfg.outEntries ≠ 0 then t.setColn { t.coln with outq := t.coln.outq ++ [(e.at_, e.key)] } else t) := by
  unfold State.routeEvent
  simp only [h]
  rfl

theorem eventRoute_of {i : BitVec 32} {e : ColnEvent} {s : State} (h : s.coln.mesh[i.toNat]? = some e) :
    exec (.eventRoute i) s = .next (State.routeEvent { s with coln := { s.coln with mesh := dropAt s.coln.mesh i.toNat } } e) := by
  show Host.Outcome.next _ = _
  simp only [h]
  rfl

/-! ### Marks (R706, R708) -/

/-- The levels of the detectors fall to zero. -/
theorem colnStop_facts (s : State) :
    s.colnStop.rd OD.COL_STATE = 2 ∧ (∀ d, d < 4 → s.colnStop.rd (OD.WAKE_LEVEL d) = 0) ∧
    s.colnStop.coln = { s.coln with
      mesh := [], queues := [], sums := [], ops := [], outq := []
      inject := if s.coln.injectFresh then s.coln.inject else none, dets := [] } := by
  refine ⟨rd_wr_same .., fun d hd => ?_, rfl⟩
  unfold State.colnStop
  dsimp only
  rw [rd_wr_ne _ (by unfold OD.WAKE_LEVEL OD.COL_STATE; omega), rd_setColn]
  have hlevel (n : Nat) (h : d < n) : (foldN n (fun s d => s.wr (OD.WAKE_LEVEL d) 0) s).rd (OD.WAKE_LEVEL d) = 0 := by
    induction n with
    | zero => exact absurd h (Nat.not_lt_zero d)
    | succ n ih =>
      rw [foldN_succ, rd_wr]
      by_cases he : d = n
      · rw [if_pos (congrArg OD.WAKE_LEVEL he)]
      · rw [if_neg (by unfold OD.WAKE_LEVEL; omega), ih (by omega)]
  exact hlevel 4 hd

/-- The swap half of step 5 (R703). -/
def State.colnSwap (s : State) : State :=
  if s.coln.swapWas then
    let b := 1 - s.coln.bank
    let s := s.fillBank b (Sparse.get (fun _ => 0) s.coln.routesWas)
    let s := s.setColn { s.coln with bank := b }
    (if s.coln.swapFresh then s else s.wr OD.COLN_ROUTE_SWAP 0).bump OD.COLN_ROUTE_SWAPS
  else s

/-- The other half of step 5: the staged changes (R719). -/
def State.colnStaged (s : State) : State :=
  let old := s.coln.cfg.fe
  let fe := s.rd OD.FE_ENABLE
  let cfg : ColnCfg := {
    fe := fe, delta := s.rd OD.FE_DELTA, floor := s.rd OD.FE_FLOOR, outBase := s.rd OD.OUT_BASE
    outEntries := s.rd OD.OUT_ENTRIES, outLanding := s.rd OD.OUT_LANDING
    dets := foldN 4 (fun m d => Sparse.put (fun _ => {}) m d
      { enable := s.flag (OD.COLN_WAKE_ENABLE d), key := s.rd (OD.WAKE_KEY d), mask := s.rd (OD.WAKE_MASK d)
        window := s.rd (OD.WAKE_WINDOW d), count := s.rd (OD.WAKE_COUNT d) }) [] }
  s.setColn { s.coln with
    cfg := cfg, sent := Sparse.clear (fun i => bit fe (i / 32) && !bit old (i / 32)) s.coln.sent }

theorem colnStaged_facts (s : State) :
    s.colnStaged.coln.cfg.fe = s.rd OD.FE_ENABLE ∧ s.colnStaged.coln.neurons = s.coln.neurons ∧
    s.colnStaged.coln.bank = s.coln.bank ∧ s.colnStaged.coln.banks = s.coln.banks ∧ (∀ k, s.colnStaged.rd k = s.rd k) :=
  ⟨rfl, rfl, rfl, rfl, fun _ => rfl⟩

theorem colnSwap_facts (s : State) :
    s.SameBut s.colnSwap [OD.COLN_ROUTE_SWAP, OD.COLN_ROUTE_SWAPS] ∧ s.colnSwap.coln.neurons = s.coln.neurons ∧
    (s.coln.swapWas = false → s.colnSwap = s) ∧
    (s.coln.swapWas = true → s.colnSwap.coln.bank = 1 - s.coln.bank ∧
      s.colnSwap.rd OD.COLN_ROUTE_SWAP = (if s.coln.swapFresh then s.rd OD.COLN_ROUTE_SWAP else 0) ∧
      s.colnSwap.rd OD.COLN_ROUTE_SWAPS = min (s.rd OD.COLN_ROUTE_SWAPS + 1) 0xFFFFFFFF ∧
      (∀ r i, r < 16 → i < 64 →
        s.colnSwap.bankEntry (1 - s.coln.bank) r i = Sparse.get (fun _ => 0) s.coln.routesWas (OD.COLN_ROUTE r i))) := by
  obtain ⟨m, hshape⟩ := fillBank_shape s (1 - s.coln.bank) (Sparse.get (fun _ => 0) s.coln.routesWas)
  have hentry (r i : Nat) (hr : r < 16) (hi : i < 64) :=
    fillBank_entry s (1 - s.coln.bank) r i (Sparse.get (fun _ => 0) s.coln.routesWas) hr hi
  unfold State.colnSwap
  cases hswap : s.coln.swapWas
  · exact ⟨State.SameBut.refl _ _, rfl, fun _ => rfl, fun h => absurd h Bool.false_ne_true⟩
  · rw [if_pos rfl]
    dsimp only
    rw [hshape] at hentry ⊢
    generalize hv : State.setColn { s with coln := { s.coln with banks := m } } { s.coln with banks := m, bank := 1 - s.coln.bank } = v
    have hv_rd (k : Nat) : v.rd k = s.rd k := hv ▸ rfl
    have hv_coln : v.coln = { s.coln with banks := m, bank := 1 - s.coln.bank } := hv ▸ rfl
    obtain ⟨w, hw⟩ : ∃ w, w = if s.coln.swapFresh then v else v.wr OD.COLN_ROUTE_SWAP 0 := ⟨_, rfl⟩
    have hw_coln : w.coln = v.coln := by
      rw [hw]
      cases s.coln.swapFresh <;> rfl
    have hw_armed : w.rd OD.COLN_ROUTE_SWAP = if s.coln.swapFresh then s.rd OD.COLN_ROUTE_SWAP else 0 := by
      rw [hw]
      cases s.coln.swapFresh
      · exact rd_wr_same ..
      · exact hv_rd _
    have hw_rd (k : Nat) (hk : k ≠ OD.COLN_ROUTE_SWAP) : w.rd k = s.rd k := by
      rw [hw]
      cases s.coln.swapFresh
      · exact (rd_wr_ne _ hk _).trans (hv_rd k)
      · exact hv_rd k
    rw [show v.coln.swapFresh = s.coln.swapFresh by rw [hv_coln], ← hw]
    refine ⟨⟨fun k hk => ?_⟩, ?_, fun h => absurd h.symm Bool.false_ne_true, fun _ => ⟨?_, ?_, ?_, fun r i hr hi => ?_⟩⟩
    · simp only [List.mem_cons, List.not_mem_nil, or_false, not_or] at hk
      obtain ⟨harmed, hcount⟩ := hk
      rw [rd_bump_ne _ hcount, hw_rd k harmed]
    · rw [coln_bump, hw_coln, hv_coln]
    · rw [coln_bump, hw_coln, hv_coln]
    · rw [rd_bump_ne _ (by decide), hw_armed]
    · rw [rd_bump_same, hw_rd _ (by decide)]
    · rw [← hentry r i hr hi]
      unfold State.bankEntry
      rw [coln_bump, hw_coln, hv_coln]

theorem colnMark_eq (s : State) :
    s.colnMark = (if s.rd OD.COL_STATE = 3 ∧ s.flag OD.COL_RUN = false then s.colnStop.colnConfigure
      else if s.rd OD.COL_STATE = 3 then s.colnRunMark
      else if s.rd OD.COL_STATE = 2 ∧ s.flag OD.COL_RUN then (s.wr OD.COL_STATE 3).colnRunMark
      else s.colnConfigure) := by
  unfold State.colnMark
  dsimp only
  by_cases hrunning : s.rd OD.COL_STATE = 3
  · by_cases hrun : s.flag OD.COL_RUN = true
    · simp [hrunning, hrun]
    · simp [hrunning, hrun, (colnStop_facts s).1]
  · by_cases hstart : s.rd OD.COL_STATE = 2 ∧ s.flag OD.COL_RUN = true
    · simp [hstart]
    · simp [hrunning, hstart]

/-! ### Errors (R723) -/

theorem colnLose_rd (s : State) (what : ColnPlace) (k : Nat) : (s.colnLose what).rd k = s.rd k :=
  (colnLose_keep s what (fs := [.coln]) (Keep.rfl' s)).rd (by decide) k

theorem colnLose_syn (s : State) (w) : w.val ∈ (s.colnLose (.syn w)).coln.badSyn := by
  unfold State.colnLose
  dsimp only
  by_cases h : s.coln.badSyn.any (fun b => decide (b = w.val)) = true
  · rw [if_pos h]
    obtain ⟨b, hb, he⟩ := List.any_eq_true.1 h
    exact (of_decide_eq_true he) ▸ hb
  · rw [if_neg h]
    exact List.mem_cons_self ..

/-- Settles O46: each clause by what its own step of Table COLN-8 or of a load, a router or a core leaves. -/
theorem theColonnadeRunsItsTimesteps : Obligations.TheColonnadeRunsItsTimesteps := by
  unfold Obligations.TheColonnadeRunsItsTimesteps
  refine ⟨?idle, ?load, ?unrouted, ?route, ?queue, ?synapse, ?mark, ?stop, ?configure, ?ecc⟩
  case idle =>
    intro s hidle
    show Host.Outcome.next _ = _
    simp only [hidle]
  case unrouted =>
    intro i s hnone
    show Host.Outcome.next _ = _
    simp only [hnone]
  case load =>
    intro src len s u hload
    refine ⟨fun e he => ?_, fun hok => ?_⟩
    · refine ⟨_, netLoadDone_failed hload he, ?_, rd_wr_same .., rfl, fun r i hr hi => ?_, ?_⟩
      · rw [rd_wr_ne _ (by decide), rd_wr_same]
      · rw [rd_wr_ne _ (by unfold OD.COLN_ROUTE OD.COL_STATE; omega), rd_wr_ne _ (by unfold OD.COLN_ROUTE OD.NET_RESULT; omega),
          netClear_route u hr hi]
      · exact ((netClear_keep u (Keep.rfl' u)).wr _ _).wr _ _
    · obtain ⟨m, hshape⟩ := fillBank_shape u u.coln.bank u.rd
      have hentry (r i : Nat) (hr : r < 16) (hi : i < 64) := fillBank_entry u u.coln.bank r i u.rd hr hi
      have hkeep : Keep [.od, .coln] u (u.fillBank u.coln.bank u.rd) := fillBank_keep u _ _ (Keep.rfl' u)
      have hexec := netLoadDone_loaded hload hok
      generalize u.fillBank u.coln.bank u.rd = v at hshape hentry hkeep hexec
      refine ⟨_, hexec, ?_, rd_wr_same .., rfl, ?_, hentry, ⟨fun k hk => ?_⟩, ((setColn_keep _ _ hkeep).wr _ _).wr _ _⟩
      · rw [rd_wr_ne _ (by decide), rd_wr_same]
      · rw [hshape]
        rfl
      · simp only [List.mem_cons, List.not_mem_nil, or_false, not_or] at hk
        obtain ⟨hresult, hstate⟩ := hk
        rw [rd_wr_ne _ hstate, rd_wr_ne _ hresult, hshape]
        rfl
  case route =>
    intro i e s hevent rest
    obtain ⟨u, hu⟩ : ∃ u : State, u = { s with coln := { s.coln with mesh := rest } } := ⟨_, rfl⟩
    have hfor : u.routeFor e = s.routeFor e := hu ▸ rfl
    have hcoln : u.coln = { s.coln with mesh := rest } := hu ▸ rfl
    have hkeep : Keep [.od, .coln] s u := hu ▸ (Keep.rfl' s).upd rfl rfl rfl rfl
    have hrd (k : Nat) : u.rd k = s.rd k := hu ▸ rfl
    have hexec : exec (.eventRoute i) s = .next (u.routeEvent e) := hu ▸ eventRoute_of hevent
    refine ⟨fun hnone => ?_, fun w hw harrive => ?_, fun w hw harrive hnone hout => ?_⟩
    · have hmiss : u.routeEvent e = u.bump OD.ROUTE_MISSES := by
        unfold State.routeEvent
        rw [hfor, hnone]
      refine ⟨_, hexec.trans (congrArg Host.Outcome.next hmiss), ?_, ?_, ⟨fun k hk => ?_⟩, bump_keep _ _ hkeep⟩
      · exact ((bump_keep (fs := [.od]) u _ (Keep.rfl' u)).part .coln).trans hcoln
      · rw [rd_bump_same, hrd]
      · rw [rd_bump_ne _ (List.ne_of_not_mem_cons hk), hrd]
    · obtain ⟨hmesh, hsame, hkept⟩ := meshCopies_facts u w e
      obtain ⟨z, hz⟩ : ∃ z, z = u.meshCopies w e := ⟨_, rfl⟩
      rw [← hz] at hmesh hsame hkept
      have hroute := routeEvent_of (hfor.trans hw)
      rw [harrive, if_neg Bool.false_ne_true, ← hz] at hroute
      dsimp only at hroute
      have hz_same : s.SameBut z [OD.ROUTE_MISSES, OD.HOP_DROPS] := ⟨fun k hk => (hsame.rd k hk).trans (hrd k)⟩
      have hz_coln : z.coln = { s.coln with mesh := rest ++ meshOut w e 0 ++ meshOut w e 1 ++ meshOut w e 2 ++ meshOut w e 3 } := by
        rw [hmesh, hcoln]
      have hcfg : z.coln.cfg = s.coln.cfg := by rw [hz_coln]
      rw [hcfg] at hroute
      refine ⟨_, hexec, ?_, ?_, ?_⟩
      · rw [hroute]
        by_cases hq : bit w 61 = true ∧ s.coln.cfg.outEntries ≠ 0
        · rw [if_pos hq, if_pos hq, show (z.setColn _).coln = _ from rfl, hz_coln]
          rfl
        · rw [if_neg hq, if_neg hq, hz_coln]
          rfl
      · rw [hroute]
        split
        · exact ⟨fun k hk => hz_same.rd k hk⟩
        · exact hz_same
      · rw [hroute]
        split
        · exact setColn_keep _ _ (hkeep.trans hkept)
        · exact hkeep.trans hkept
    · have hroute := routeEvent_of (hfor.trans hw)
      rw [harrive, if_pos rfl, meshCopies_none hnone, hout] at hroute
      rw [hexec, hroute, hu]
      rfl
  case queue =>
    intro c e s
    refine ⟨fun hfull => ?_, fun rest hmiss => ?_, fun rest f hfan hops => ?_⟩
    · unfold State.colnArrive
      exact if_pos hfull
    · unfold State.colnTake
      rw [hmiss]
    · unfold State.colnTake
      rw [hfan]
      exact if_pos hops
  case synapse =>
    intro c f row i s off e k w t hgood
    have hclean : s.coln.badSyn.any (fun b => decide (off / 64 ≤ b) && decide (b ≤ (off + fanBits f - 1) / 64)) = false := by
      refine Bool.eq_false_iff.2 fun hany => ?_
      obtain ⟨b, hb, hin⟩ := List.any_eq_true.1 hany
      have := hgood b hb
      simp only [Bool.and_eq_true, decide_eq_true_eq] at hin
      omega
    have ht : t = (s.setColn { s.coln with
        sums := Sparse.put (fun _ => 0) s.coln.sums k (Sparse.get (fun _ => 0) s.coln.sums k + w * 2 ^ fanShift f) }).bump OD.SYNOPS :=
      if_neg (by rw [hclean]; exact Bool.false_ne_true)
    have hsums : t.coln.sums = Sparse.put (fun _ => 0) s.coln.sums k (Sparse.get (fun _ => 0) s.coln.sums k + w * 2 ^ fanShift f) := by
      rw [ht, coln_bump]
      rfl
    refine ⟨?_, fun j hj => ?_, ?_, ?_⟩
    · rw [hsums, Sparse.get_put, if_pos rfl]
    · rw [hsums, Sparse.get_put, if_neg hj]
    · rw [ht, rd_bump_same]
      rfl
    · rw [ht]
      exact bump_keep _ _ (setColn_keep _ _ (Keep.rfl' s))
  case mark =>
    intro s
    refine ⟨fun hdue => congrArg Host.Outcome.next (if_pos (by rw [hdue]; rfl)), fun hdue => ?_⟩
    intro u
    have hu : (if s.powered 22 then s.colnMark else s) = u := by
      rw [colnMark_eq]
      cases hp : s.powered 22
      · exact (if_pos hp).symm
      · exact (if_neg (by rw [hp]; decide)).symm
    have hexec : exec .timestepMark s = .next (u.audioMark.setAud { u.audioMark.ports.aud with coln := [] }) := by
      rw [← hu]
      exact congrArg Host.Outcome.next (if_neg (by rw [hdue]; decide))
    have hports : u.audioMark.ports = { u.ports with aud := { u.ports.aud with
        markDue := false, block := [], ready := some (u.ports.aud.block, u.tick.audio.toNat) } } := by
      unfold State.audioMark
      dsimp only
      by_cases hswap : u.ports.aud.swapWas = 1
      · rw [if_pos hswap]
        generalize hz : u.setAud { u.ports.aud with markDue := false, block := [], ready := some (u.ports.aud.block, u.tick.audio.toNat) } = z
        obtain ⟨w, hw⟩ : ∃ w, w = foldN 32 (fun s r => s.wr (OD.PORT_ROUTE_LIVE r) (u.ports.aud.routesWas.getD r 0)) z := ⟨_, rfl⟩
        have hfold : Keep [.od] z w := hw ▸ Keep.foldN _ _ _ (fun _ _ h => h.wr _ _) (Keep.rfl' z)
        have hlast : Keep [.od] w ((if u.ports.aud.swapFresh then w else w.wr OD.PORT_ROUTE_SWAP 0).bump OD.PORT_ROUTE_SWAPS) := by
          refine bump_keep _ _ ?_
          cases u.ports.aud.swapFresh
          · exact (Keep.rfl' w).wr _ _
          · exact Keep.rfl' w
        rw [← hw, hlast.part .ports, hfold.part .ports, ← hz]
        rfl
      · rw [if_neg hswap]
        rfl
    refine ⟨_, hexec, ?_, ?_, ?_⟩
    · show u.audioMark.ports.sens = _
      rw [hports]
    · show { u.audioMark.ports.aud with coln := [] } = _
      rw [hports]
    · exact (audioMark_keep u (Keep.rfl' u)).upd rfl rfl rfl rfl
  case stop =>
    intro s t
    obtain ⟨hstate, hlevels, hcoln⟩ := colnStop_facts s
    exact ⟨hstate, hlevels, hcoln, colnStop_keep s (Keep.rfl' s)⟩
  case configure =>
    intro s t
    have ht : t = s.colnSwap.colnStaged := rfl
    obtain ⟨hcfg, hneurons, hbank, hbanks, hrd⟩ := colnStaged_facts s.colnSwap
    obtain ⟨hsame, hkept, hstill, hswapped⟩ := colnSwap_facts s
    refine ⟨?_, ?_, colnConfigure_keep s (Keep.rfl' s), fun hno => ?_, fun hswap => ?_⟩
    · rw [ht, hcfg, hsame.rd _ (by decide)]
    · rw [ht, hneurons, hkept]
    · rw [hstill hno] at ht hbank hbanks hrd
      rw [ht]
      exact ⟨hbank, hbanks, ⟨fun k _ => hrd k⟩⟩
    · obtain ⟨hflipped, harmed, hcount, hentries⟩ := hswapped hswap
      refine ⟨?_, ?_, ?_, fun r i hr hi => ?_⟩
      · rw [ht, hbank, hflipped]
      · rw [ht, hrd, harmed]
      · rw [ht, hrd, hcount]
      · rw [ht, ← hentries r i hr hi]
        unfold State.bankEntry
        rw [hbanks]
  case ecc =>
    intro what s hpowered
    refine ⟨⟨_, congrArg Host.Outcome.next ((if_neg (by rw [hpowered]; decide)).trans (if_pos rfl)), ?_, ?_, ?_⟩,
      ⟨_, congrArg Host.Outcome.next ((if_neg (by rw [hpowered]; decide)).trans (if_neg (by decide))), ?_, ?_, ?_, ?_⟩⟩
    · rw [record_rd _ _ _ _ _ _ _ (by decide) (by decide), rd_bump_same]
    · exact (logFault_count (s.bump OD.SYN_CORRECTED) ⟨0, FaultClass.corrected, 39, 0, 22, OD.SYN_CORRECTED, 0xFF, colnPlaceAddr what, 0⟩
        (show OD.CLASS_COUNTS FaultClass.corrected ≠ OD.FAULTS_LOST by decide)).trans
        (by rw [rd_bump_ne _ (show OD.CLASS_COUNTS FaultClass.corrected ≠ OD.SYN_CORRECTED by decide)])
    · exact record_keep _ _ _ _ _ _ _ (bump_keep _ _ (Keep.rfl' s))
    · rw [record_rd _ _ _ _ _ _ _ (by decide) (by decide), rd_bump_same, colnLose_rd]
    · exact (logFault_count ((s.colnLose what).bump OD.SYN_UNCORR) ⟨0, FaultClass.item, 39, 0, 22, OD.SYN_UNCORR, 0xFF, colnPlaceAddr what, 0⟩
        (show OD.CLASS_COUNTS FaultClass.item ≠ OD.FAULTS_LOST by decide)).trans
        (by rw [rd_bump_ne _ (show OD.CLASS_COUNTS FaultClass.item ≠ OD.SYN_UNCORR by decide), colnLose_rd])
    · have hcoln : (((s.colnLose what).bump OD.SYN_UNCORR).record FaultClass.item 39 22 OD.SYN_UNCORR (colnPlaceAddr what) 0).coln
          = (s.colnLose what).coln :=
        (record_keep (fs := [.od, .host, .falt]) _ _ _ _ _ _ _ (bump_keep _ _ (Keep.rfl' (s.colnLose what)))).part .coln
      cases what with
      | syn w =>
        rw [hcoln]
        exact colnLose_syn s w
      | neuron n =>
        rw [hcoln]
        exact (Sparse.get_put (d := fun _ => 0) s.coln.neurons n n 0).trans (if_pos rfl)
      | fan c i =>
        show Sparse.get _ _ _ = _
        rw [hcoln]
        exact (Sparse.get_put (d := fun _ => 0) s.coln.fans (c * 512 + i) (c * 512 + i) 0).trans (if_pos rfl)
      | route r i =>
        show Sparse.get _ _ _ = _
        rw [hcoln]
        exact (Sparse.get_put (d := fun _ => 0) s.coln.banks (s.coln.bank * 1024 + r * 64 + i) _ 0).trans (if_pos rfl)
    · exact record_keep _ _ _ _ _ _ _ (bump_keep _ _ (colnLose_keep s what (Keep.rfl' s)))

end Sys2Proof.Machine
end

section
/-! DRAM channels, rows and accesses (chapter 18). -/

set_option Elab.async false

namespace Sys2Proof.Machine

/-! ### Accesses (R765, R769) -/

/-- The rows that an access opens are the memory controller's record alone. -/
theorem rowTouches_setDmem (s : State) (n a : Nat) : ∃ d, foldN n (fun s i => s.rowTouch ((a / 64 + i) * 64)) s = s.setDmem d :=
  foldN_set _ (fun s i => rowTouch_set s ((a / 64 + i) * 64)) n s

theorem carriedCtx_lt (q : Requester) (t : Nat) (h : (carriedCtx q).map (·.val) = some t) : t < 16 := by
  obtain ⟨c, -, hc⟩ := Option.map_eq_some_iff.1 h
  exact hc ▸ c.isLt

theorem setDmem_place (s : State) (d : Dmem) {q : Acc} (hq : ∀ t, q.ctx = some t → t < 16) (wr : Bool) (a : Nat) :
    (s.setDmem d).place q wr a = s.place q wr a :=
  place_same2 (fun _ _ => rfl) rfl rfl q hq wr a

theorem dramAccess_write {s : State} {q : Acc} {a : Nat} {bytes : List Byte} {find : DramFind} (hne : bytes ≠ []) (hlow : dramBase ≤ a)
    (hhigh : a + bytes.length ≤ dramEnd) (hq : ∀ t, q.ctx = some t → t < 16) (hmem : s.isMem q true a bytes.length)
    (hwritable : s.writable q a bytes.length) :
    ∃ u t, s.dramAccess q a true bytes find = t ∧ Keep [.dmem] s u ∧ u.Stored t a bytes := by
  have hlen : bytes.length ≠ 0 := fun h => hne (List.length_eq_zero_iff.1 h)
  have hserved : s.place q true a = .mem := hmem 0 (Nat.pos_of_ne_zero hlen)
  obtain ⟨d, hd⟩ := rowTouches_setDmem s ((a % 64 + bytes.length + 63) / 64) a
  obtain ⟨t, hwrite, hstored⟩ := memWrite_of_places (z := s.setDmem d) (setDmem_place s d hq true) rfl rfl hmem hwritable
  refine ⟨s.setDmem d, t, ?_, (Keep.rfl' s).upd rfl rfl rfl rfl, hstored⟩
  unfold State.dramAccess
  rw [if_neg (by omega)]
  simp only [hserved, decide_true, if_true, hd, Bool.not_true, Bool.and_false, Bool.false_eq_true, if_false, hwrite]
  exact memRecord_ok t q []

theorem dramAccess_read {s : State} {q : Acc} {a : Nat} {bytes : List Byte} (hne : bytes ≠ []) (hlow : dramBase ≤ a)
    (hhigh : a + bytes.length ≤ dramEnd) (hq : ∀ t, q.ctx = some t → t < 16) (hmem : s.isMem q false a bytes.length)
    (hclean : s.clean a bytes.length) :
    Keep [.dmem, .bal] s (s.dramAccess q a false bytes .clean) := by
  have hlen : bytes.length ≠ 0 := fun h => hne (List.length_eq_zero_iff.1 h)
  have hserved : s.place q false a = .mem := hmem 0 (Nat.pos_of_ne_zero hlen)
  obtain ⟨d, hd⟩ := rowTouches_setDmem s ((a % 64 + bytes.length + 63) / 64) a
  obtain ⟨b, hread, -⟩ := memRead_clean q (s.setDmem d) a bytes.length (fun i hi => (setDmem_place s d hq false _).trans (hmem i hi)) hclean
  have haccess : s.dramAccess q a false bytes .clean = { s.setDmem d with bal := b } := by
    unfold State.dramAccess State.dramFind
    rw [if_neg (by omega)]
    simp only [hserved, decide_true, if_true, hd, Bool.not_false, Bool.and_self, Bool.false_eq_true, if_false, hread]
    exact memRecord_ok _ q _
  rw [haccess]
  have hrows : Keep [.dmem, .bal] s (s.setDmem d) := (Keep.rfl' s).upd rfl rfl rfl rfl
  exact hrows.upd rfl rfl rfl rfl

/-! ### Trims (R786 to R789) -/

theorem trim_facts {s : State} {ch : Nat} (hch : ch < 8) (hdue : s.trimDue ch = true) :
    (s.trim ch).rd (OD.TRIM_ARM ch) = 0 ∧ (s.trim ch).rd (OD.TRIM_STALE ch) = 0 ∧
    (s.trim ch).rd (OD.TRIM_EPOCH ch) = s.tick.epoch.toNat ∧ (s.trim ch).rd (OD.TRIM_TEMP ch) = s.rd (OD.CH_TEMP ch) ∧
    (s.trim ch).rd (OD.TRIMS ch) = min (s.rd (OD.TRIMS ch) + 1) 0xFFFFFFFF ∧
    (∀ i, i < 52 → (s.trim ch).rd (OD.LIVE_DELAY ch i) = s.rd (OD.SHADOW_DELAY ch i)) := by
  obtain ⟨hlive, hother⟩ := copyDelays_facts s ch hch
  have htick : (s.copyDelays ch).tick = s.tick := (copyDelays_keep s ch (fs := [.od]) (Keep.rfl' s)).part .tick
  have hobj (k : Nat) (hk : k < 0x808001) : (s.copyDelays ch).rd k = s.rd k :=
    hother k fun i _ => by unfold OD.LIVE_DELAY; omega
  generalize hv : s.copyDelays ch = v at *
  have htrim : s.trim ch = (((((v.wr (OD.TRIM_EPOCH ch) s.tick.epoch.toNat).wr (OD.TRIM_TEMP ch)
      ((v.wr (OD.TRIM_EPOCH ch) s.tick.epoch.toNat).rd (OD.CH_TEMP ch))).bump (OD.TRIMS ch)).wr (OD.TRIM_ARM ch) 0).wr (OD.TRIM_STALE ch) 0) := by
    unfold State.trim
    rw [hdue, hv, ← htick]
    rfl
  rw [htrim]
  have hstale : OD.TRIM_ARM ch ≠ OD.TRIM_STALE ch ∧ OD.TRIM_EPOCH ch ≠ OD.TRIM_STALE ch ∧ OD.TRIM_TEMP ch ≠ OD.TRIM_STALE ch ∧
      OD.TRIMS ch ≠ OD.TRIM_STALE ch ∧ OD.TRIM_EPOCH ch ≠ OD.TRIM_ARM ch ∧ OD.TRIM_TEMP ch ≠ OD.TRIM_ARM ch ∧
      OD.TRIMS ch ≠ OD.TRIM_ARM ch ∧ OD.TRIM_EPOCH ch ≠ OD.TRIMS ch ∧ OD.TRIM_TEMP ch ≠ OD.TRIMS ch ∧
      OD.TRIM_EPOCH ch ≠ OD.TRIM_TEMP ch ∧ OD.TRIMS ch ≠ OD.TRIM_TEMP ch ∧ OD.TRIMS ch ≠ OD.TRIM_EPOCH ch ∧
      OD.CH_TEMP ch ≠ OD.TRIM_EPOCH ch := by
    unfold OD.TRIM_ARM OD.TRIM_STALE OD.TRIM_EPOCH OD.TRIM_TEMP OD.TRIMS OD.CH_TEMP
    omega
  obtain ⟨h1, h2, h3, h4, h5, h6, h7, h8, h9, h10, h11, h12, h13⟩ := hstale
  refine ⟨?_, rd_wr_same .., ?_, ?_, ?_, fun i hi => ?_⟩
  · rw [rd_wr_ne _ h1, rd_wr_same]
  · rw [rd_wr_ne _ h2, rd_wr_ne _ h5, rd_bump_ne _ h8, rd_wr_ne _ h10, rd_wr_same]
  · rw [rd_wr_ne _ h3, rd_wr_ne _ h6, rd_bump_ne _ h9, rd_wr_same, rd_wr_ne _ h13, hobj _ (by unfold OD.CH_TEMP; omega)]
  · rw [rd_wr_ne _ h4, rd_wr_ne _ h7, rd_bump_same, rd_wr_ne _ h11, rd_wr_ne _ h12, hobj _ (by unfold OD.TRIMS; omega)]
  · have hapart (m : Nat) (hm : m < 0x808001) : OD.LIVE_DELAY ch i ≠ m := by unfold OD.LIVE_DELAY; omega
    rw [rd_wr_ne _ (hapart _ (by unfold OD.TRIM_STALE; omega)), rd_wr_ne _ (hapart _ (by unfold OD.TRIM_ARM; omega)),
      rd_bump_ne _ (hapart _ (by unfold OD.TRIMS; omega)), rd_wr_ne _ (hapart _ (by unfold OD.TRIM_TEMP; omega)),
      rd_wr_ne _ (hapart _ (by unfold OD.TRIM_EPOCH; omega)), hlive i hi]

/-- Settles O47: a bring-up, a trim, an access, and the bookkeeping of rows, idle channels, refreshes and latches in turn. -/
theorem dramChannelsServeAccesses : Obligations.DramChannelsServeAccesses := by
  unfold Obligations.DramChannelsServeAccesses
  refine ⟨?bringUp, ?trim, ?trimLater, ?access, ?rowClose, ?idle, ?refresh, ?latch⟩
  case bringUp =>
    intro ch s hinit
    have hne : ¬s.chSt ch ≠ ChSt.init := fun h => h hinit
    refine ⟨⟨_, congrArg Host.Outcome.next ((if_neg hne).trans (if_pos rfl)), ?_, ⟨fun k hk => ?_⟩, ?_⟩,
      ⟨_, congrArg Host.Outcome.next ((if_neg hne).trans (if_neg Bool.false_ne_true)), ?_, ?_, ?_⟩⟩
    · rw [powerNote_rd' _ _ (by unfold OD.CH_STATE OD.TRANSITION_US; omega), setDmem_rd, rd_wr_same]
    · simp only [List.mem_cons, List.not_mem_nil, or_false, not_or] at hk
      obtain ⟨hstate, htransition⟩ := hk
      rw [powerNote_rd' _ _ htransition, setDmem_rd, rd_wr_ne _ hstate]
    · exact powerNote_keep _ (((Keep.rfl' s).wr _ _).upd rfl rfl rfl rfl)
    · rw [powerNote_rd' _ _ (by unfold OD.CH_STATE OD.TRANSITION_US; omega),
        record_rd _ _ _ _ _ _ _ (by unfold OD.CH_STATE OD.FAULTS_LOST; omega) (by unfold OD.CH_STATE OD.CLASS_COUNTS FaultClass.device; omega), rd_wr_same]
    · rw [powerNote_rd' _ _ (by decide)]
      refine (logFault_count _ ⟨0, FaultClass.device, 0xFF, 0, 24 + ch / 4, OD.CH_STATE ch, 0xFF, 0, ch⟩
        (show OD.CLASS_COUNTS FaultClass.device ≠ OD.FAULTS_LOST by decide)).trans ?_
      rw [rd_wr_ne _ (show OD.CLASS_COUNTS FaultClass.device ≠ OD.CH_STATE ch by unfold OD.CLASS_COUNTS FaultClass.device OD.CH_STATE; omega)]
    · exact powerNote_keep _ (record_keep _ _ _ _ _ _ _ ((Keep.rfl' s).wr _ _))
  case trim =>
    intro ch s hstopped harmed hfresh hoff hself
    have hdue : s.trimDue ch = true := by
      unfold State.trimDue State.flag State.chSt
      rw [harmed, hfresh]
      simp only [decide_true, Bool.not_false, Bool.and_self, Bool.true_and, Bool.and_eq_true, decide_eq_true_eq]
      exact ⟨hoff, hself⟩
    obtain ⟨harm, hstale, hepoch, htemp, htrims, hdelays⟩ := trim_facts ch.isLt hdue
    exact ⟨_, congrArg Host.Outcome.next (if_pos hstopped), harm, hstale, hepoch, htemp, htrims, hdelays, trim_keep s ch (Keep.rfl' s)⟩
  case trimLater =>
    intro ch s hticking
    exact congrArg Host.Outcome.next (if_neg hticking)
  case access =>
    intro q a bytes find s c hne hlow hhigh
    refine ⟨fun hmem hwritable => ?_, fun hmem hclean => ?_⟩
    · obtain ⟨u, t, haccess, hkeep, hstored⟩ := dramAccess_write (find := find) hne hlow hhigh (carriedCtx_lt q) hmem hwritable
      exact ⟨u, t, congrArg Host.Outcome.next haccess, hkeep, hstored⟩
    · exact ⟨_, rfl, dramAccess_read hne hlow hhigh (carriedCtx_lt q) hmem hclean⟩
  case rowClose =>
    intro ch bank s b
    refine ⟨fun hidle => ?_, fun hused => congrArg Host.Outcome.next (if_pos hused)⟩
    refine ⟨_, congrArg Host.Outcome.next (if_neg (Nat.not_lt.2 hidle)), ?_, fun c hc => ?_, (Keep.rfl' s).upd rfl rfl rfl rfl⟩
    · exact Sparse.get_put_same (d := fun _ => 0) s.dmem.rows b 0
    · exact Sparse.get_put_ne (d := fun _ => 0) s.dmem.rows hc 0
  case idle =>
    intro ch s hactive hidle
    refine ⟨_, congrArg Host.Outcome.next (if_neg ?_), rfl, (Keep.rfl' s).upd rfl rfl rfl rfl⟩
    exact not_or.2 ⟨fun h => h hactive, Nat.not_lt.2 hidle⟩
  case refresh =>
    intro ch bank s hactive b n cause
    have hcause : cause ↔ (s.rtPanic || decide (Sparse.get (fun _ => 0) s.dmem.rows b ≠ 0)) = true := by
      rw [Bool.or_eq_true, decide_eq_true_eq]
    have hexec : exec (.refresh ch bank) s = .next (if (s.rtPanic || decide (Sparse.get (fun _ => 0) s.dmem.rows b ≠ 0)) = true ∧ n < 8 then
          s.setDmem { s.dmem with postponed := Sparse.put (fun _ => 0) s.dmem.postponed b (n + 1) }
        else if (s.rtPanic || decide (Sparse.get (fun _ => 0) s.dmem.rows b ≠ 0)) = true then
          s.setDmem { s.dmem with rows := Sparse.put (fun _ => 0) s.dmem.rows b 0 }
        else s.setDmem { s.dmem with
          rows := Sparse.put (fun _ => 0) s.dmem.rows b 0, postponed := Sparse.put (fun _ => 0) s.dmem.postponed b 0 }) :=
      congrArg Host.Outcome.next (if_neg fun h => h hactive)
    have hrow := Sparse.get_put_same (d := fun _ => 0) s.dmem.rows b 0
    refine ⟨_, hexec, fun hc hfew => ?_, fun hc hmany => ?_, fun hc => ?_, ?_⟩
    · rw [if_pos ⟨hcause.1 hc, hfew⟩]
      exact ⟨Sparse.get_put_same (d := fun _ => 0) s.dmem.postponed b (n + 1), rfl⟩
    · rw [if_neg fun h => Nat.not_lt.2 hmany h.2, if_pos (hcause.1 hc)]
      exact ⟨rfl, hrow⟩
    · rw [if_neg fun h => hc (hcause.2 h.1), if_neg fun h => hc (hcause.2 h)]
      exact ⟨Sparse.get_put_same (d := fun _ => 0) s.dmem.postponed b 0, hrow⟩
    · split_ifs <;> exact (Keep.rfl' s).upd rfl rfl rfl rfl
  case latch =>
    intro ch s hactive
    refine ⟨_, congrArg Host.Outcome.next (if_neg fun h => h hactive), ?_, (Keep.rfl' s).upd rfl rfl rfl rfl⟩
    exact Sparse.get_put_same (d := fun _ => 0) s.dmem.zq ch.val s.clk.now

end Sys2Proof.Machine
end

section
/-!
The scrubbers (R454, R771; obligation O48).
-/

set_option Elab.async false

namespace Sys2Proof.Machine

/-- A gallery scrubber that runs, pair 0 ready, and a word whose mark is neither of the two that the model gives a meaning. -/
def strayMark : State :=
  { ((State.reset.wr OD.DOMAIN_ON 2).wr OD.SCRUB_PERIOD 1).wr (OD.PAIR_READY 0) 1 with mem := { marks := [(0, 3)] } }

/-- Refutes O48: the statement lets a word carry any mark but 2, and a correctable find leaves one that is above 2 as it was,
where the statement has it put right. -/
theorem not_scrubbersPollsAndPanics : ¬ Obligations.ScrubbersPollsAndPanics := by
  rintro ⟨hgallery, -⟩
  obtain ⟨-, hfind⟩ := hgallery strayMark (by decide +kernel) (by decide +kernel)
  obtain ⟨hcorrectable, -⟩ := hfind 0#48 (by decide) (by decide +kernel)
  obtain ⟨t, hexec, -, hmark, -⟩ := hcorrectable (by decide +kernel)
  have ht : strayMark.scrubGallery (.correctable 0#48) = t := Host.Outcome.next.inj hexec
  have hzero : t.mark 0 = 0 := (hmark 0).trans (if_pos rfl)
  rw [← ht] at hzero
  exact absurd hzero (by decide +kernel)

end Sys2Proof.Machine
end

section
/-! Power domains: ramps, readiness, failure and power-down (chapter 20). -/

set_option Elab.async false

namespace Sys2Proof.Machine

/-- The first of the domains that a test holds for. -/
theorem find_domain {p : Nat → Bool} {d : Nat} (hd : d < 28) (hp : p d = true) (hfirst : ∀ e, e < d → p e = false) :
    (List.range 28).find? p = some d :=
  List.find?_range_eq_some.2 ⟨hp, List.mem_range.2 hd, fun e he => by rw [hfirst e he]; rfl⟩

/-- The last of the domains that a test holds for. -/
theorem find_domain_high {p : Nat → Bool} {d : Nat} (hd : d < 28) (hp : p d = true) (hlast : ∀ e, d < e → e < 28 → p e = false) :
    (List.range 28).reverse.find? p = some d := by
  rw [rev28, List.find?_map, find_domain (d := 27 - d) (by omega)]
  · show some (27 - (27 - d)) = some d
    rw [show 27 - (27 - d) = d by omega]
  · show p (27 - (27 - d)) = true
    rw [show 27 - (27 - d) = d by omega]
    exact hp
  · intro e he
    exact hlast (27 - e) (by omega) (by omega)

theorem domainDown_ramp (s : State) (d : Nat) : (s.domainDown d).rampOf d = none := by
  unfold State.rampOf State.domainDown
  exact Sparse.get_put_same (d := fun _ => none) _ d none

theorem domainDown_objects (s : State) {d k : Nat} (hd : 0 < d) (hk : domainOf k = d) : (s.domainDown d).rd k = odDefault k := by
  have hon : k ≠ OD.DOMAIN_ON := fun h => by
    have hzero : domainOf OD.DOMAIN_ON = 0 := by decide
    rw [h, hzero] at hk
    omega
  obtain ⟨v, hv⟩ : ∃ v, v = ((s.unitsDown d).withdrawRequests d).cutTransfers d := ⟨_, rfl⟩
  have hdown : (s.domainDown d).rd k = ((v.clearObjects (fun x => x = d) (fun _ => false)).setOdBit OD.DOMAIN_ON d false).rd k := by
    rw [hv]
    rfl
  rw [hdown, setOdBit_ne _ hon, clearObjects_rd, if_pos (by simp [hk])]

/-- Settles O49: the first domain that may ramp, the last that must fall, and what a ready, failed or fallen domain leaves. -/
theorem domainsRampAndFall : Obligations.DomainsRampAndFall := by
  unfold Obligations.DomainsRampAndFall
  refine ⟨?start, ?ready, ?fail, ?down, ?slotTable⟩
  case start =>
    intro s d hmove hvin hwait hpos hd hmay hlower
    have hfind : (List.range 28).find? (fun d => decide (d ≠ 0) && s.mayRamp d) = some d := by
      refine find_domain hd (by simp [hmay]; omega) fun e he => ?_
      by_cases hzero : e = 0
      · simp [hzero]
      · rw [hlower e (by omega) he, Bool.and_false]
    obtain ⟨v, hv⟩ : ∃ v, v = (s.setRamp d (some s.clk.now)).setPow { (s.setRamp d (some s.clk.now)).pow with lastRamp := some s.clk.now } := ⟨_, rfl⟩
    have hexec : exec .domainRampStart s = .next v.powerNote := by
      refine congrArg Host.Outcome.next ((if_neg ?_).trans ?_)
      · rw [hmove, hvin]
        cases hlast : s.pow.lastRamp with
        | none => exact Bool.false_ne_true
        | some t => exact fun h => Nat.not_lt.2 (hwait t hlast) (of_decide_eq_true h)
      · rw [hfind, hv]
        rfl
    have hramp (e : Nat) : v.powerNote.rampOf e = if e = d then some s.clk.now else s.rampOf e := by
      rw [powerNote_ramp, hv, setPow_ramp]
      exact setRamp_ramp s d e (some s.clk.now)
    obtain ⟨m, hpow⟩ := powerNote_pow v
    refine ⟨_, hexec, (hramp d).trans (if_pos rfl), fun e he => (hramp e).trans (if_neg he), ?_, ⟨fun k hk => ?_⟩, ?_⟩
    · rw [hpow, hv]
      rfl
    · rw [powerNote_rd' _ _ (List.ne_of_not_mem_cons hk), hv]
      rfl
    · rw [hv]
      exact powerNote_keep _ (setPow_keep _ _ (setRamp_keep _ _ _ (Keep.rfl' s)))
  case ready =>
    intro d s t0 hramp hneeds
    obtain ⟨v, hv⟩ : ∃ v, v = (s.setRamp d none).setOdBit OD.DOMAIN_ON d true := ⟨_, rfl⟩
    have hexec : exec (.domainReady d) s = .next (v.domainUp d).powerNote := by
      refine congrArg Host.Outcome.next ((if_neg ?_).trans (by rw [hv]))
      rw [hramp, show (domainNeeds d).all (fun r => s.powered r) = true from List.all_eq_true.2 hneeds]
      exact Bool.false_ne_true
    have hon : v.rd OD.DOMAIN_ON = setBit (s.rd OD.DOMAIN_ON) d true := hv ▸ setOdBit_same ..
    have hpowered (e : Nat) : (v.domainUp d).powerNote.powered e = if e = d then true else s.powered e := by
      unfold State.powered
      rw [powerNote_rd' _ _ (by decide), domainUp_on, hon, bit_setBit]
    refine ⟨_, hexec, (hpowered d).trans (if_pos rfl), fun e he => (hpowered e).trans (if_neg he), ?_, fun hlink => ?_, ?_⟩
    · rw [powerNote_ramp]
      unfold State.rampOf
      rw [domainUp_pow, hv]
      exact (setRamp_ramp s d d none).trans (if_pos rfl)
    · rw [powerNote_rd' _ _ (by decide), hlink, hv]
      exact rd_wr_same ..
    · rw [hv]
      exact powerNote_keep _ (domainUp_keep _ _ (setOdBit_keep _ _ _ _ (setRamp_keep _ _ _ (Keep.rfl' s))))
  case fail =>
    intro d s t0 hramp hlate
    obtain ⟨v, hv⟩ : ∃ v, v = (s.setRamp d none).setOdBit OD.DOMAIN_FAIL d true := ⟨_, rfl⟩
    have hexec : exec (.domainRampFail d) s = .next (v.record FaultClass.device 64 d OD.DOMAIN_FAIL 0 d).powerNote := by
      refine congrArg Host.Outcome.next ?_
      simp only [hramp]
      rw [if_neg (Nat.not_lt.2 hlate), hv]
    have hrd (k : Nat) (hlost : k ≠ OD.FAULTS_LOST) (hcount : k ≠ OD.CLASS_COUNTS FaultClass.device) (hnote : k ≠ OD.TRANSITION_US) :
        (v.record FaultClass.device 64 d OD.DOMAIN_FAIL 0 d).powerNote.rd k = v.rd k := by
      rw [powerNote_rd' _ _ hnote, record_rd _ _ _ _ _ _ _ hlost hcount]
    refine ⟨_, hexec, ?_, fun e => ?_, ?_, fun e => ?_, ?_⟩
    · have hpow : (v.record FaultClass.device 64 d OD.DOMAIN_FAIL 0 d).pow = v.pow :=
        (record_keep (fs := [.od, .host, .falt]) _ _ _ _ _ _ _ (Keep.rfl' v)).part .pow
      rw [powerNote_ramp]
      unfold State.rampOf
      rw [hpow, hv]
      exact (setRamp_ramp s d d none).trans (if_pos rfl)
    · rw [hrd _ (by decide) (by decide) (by decide), hv, setOdBit_same, bit_setBit]
      by_cases he : e = d.val
      · rw [if_pos he, decide_eq_true he, Bool.or_true]
      · rw [if_neg he, decide_eq_false he, Bool.or_false]
        rfl
    · rw [powerNote_rd' _ _ (by decide)]
      refine (logFault_count v ⟨0, FaultClass.device, 64, 0, d, OD.DOMAIN_FAIL, 0xFF, 0, d⟩
        (show OD.CLASS_COUNTS FaultClass.device ≠ OD.FAULTS_LOST by decide)).trans ?_
      rw [hv, setOdBit_ne _ (show OD.CLASS_COUNTS FaultClass.device ≠ OD.DOMAIN_FAIL by decide)]
      rfl
    · refine powered_of ?_ e
      rw [hrd _ (by decide) (by decide) (by decide), hv, setOdBit_ne _ (by decide)]
      rfl
    · rw [hv]
      exact powerNote_keep _ (record_keep _ _ _ _ _ _ _ (setOdBit_keep _ _ _ _ (setRamp_keep _ _ _ (Keep.rfl' s))))
  case down =>
    intro s d hmove hpos hd hpowered hunwanted hhigher hneeded
    have hfind : (List.range 28).reverse.find? (fun d => decide (d ≠ 0) && s.powered d && !bit (s.rd OD.DOMAIN_REQ) d) = some d := by
      refine find_domain_high hd (by simp [hpowered, hunwanted]; omega) fun e hde he => ?_
      cases hon : s.powered e
      · rw [Bool.and_false, Bool.false_and]
      · rw [hhigher e hde he hon, Bool.not_true, Bool.and_false]
    have hfree : (List.range 28).any (fun x => (s.rampOf x).isSome && (domainNeeds x).contains d) = false := by
      refine List.any_eq_false.2 fun x hx hbad => ?_
      obtain ⟨hramps, hneeds⟩ := (Bool.and_eq_true ..).mp hbad
      exact hneeded x (List.mem_range.1 hx) (Option.isSome_iff_ne_none.1 hramps) (List.contains_iff_mem.1 hneeds)
    obtain ⟨v, hv⟩ : ∃ v, v = if d = 23 then s.portsDeliver else s := ⟨_, rfl⟩
    have hexec : exec .domainPowerDown s = .next (v.domainDown d).powerNote := by
      refine congrArg Host.Outcome.next ((if_neg (by rw [hmove]; decide)).trans ?_)
      rw [hfind]
      dsimp only
      rw [hfree, hv]
      rfl
    refine ⟨_, hexec, ?_, fun k hk => ?_, ?_⟩
    · unfold State.powered
      rw [powerNote_rd' _ _ (by decide), domainDown_on]
    · have hnote : k ≠ OD.TRANSITION_US := fun h => by
        have hzero : domainOf OD.TRANSITION_US = 0 := by decide
        rw [h, hzero] at hk
        omega
      rw [powerNote_rd' _ _ hnote, domainDown_objects v hpos hk]
    · rw [powerNote_ramp, domainDown_ramp]
  case slotTable =>
    intro fixed i s hpowered
    have hon : ¬(!s.powered 1) = true := by rw [hpowered]; decide
    refine ⟨fun hfixed => congrArg Host.Outcome.next ((if_neg hon).trans (if_pos hfixed)), fun hfixed hfree => ?_, fun hfixed hused => ?_⟩
    · rw [hfixed]
      exact congrArg Host.Outcome.next ((if_neg hon).trans ((if_neg Bool.false_ne_true).trans (if_pos hfree)))
    · rw [hfixed]
      exact congrArg Host.Outcome.next ((if_neg hon).trans ((if_neg Bool.false_ne_true).trans (if_neg hused)))

end Sys2Proof.Machine
end

section
/-! Supplies, temperature, SYSREF and wake (chapters 20 and 23). -/

set_option Elab.async false

namespace Sys2Proof.Machine

/-! ### What the fall of domains leaves in the power controller's record -/

/-- Two records of the power controller differ at most in the ramps, the Pace and the throttling. -/
def Power.Alike (a b : Power) : Prop :=
  ∃ r p u h c, b = { a with ramp := r, paceTo := p, supply := u, hot := h, cool := c }

theorem Power.Alike.refl (a : Power) : a.Alike a := ⟨_, _, _, _, _, rfl⟩

theorem Power.Alike.trans {a b c : Power} (h : a.Alike b) (k : b.Alike c) : a.Alike c := by
  obtain ⟨r, p, u, x, y, rfl⟩ := h
  obtain ⟨r', p', u', x', y', rfl⟩ := k
  exact ⟨r', p', u', x', y', rfl⟩

theorem Power.Alike.of_eq {a b : Power} (h : b = a) : a.Alike b := h ▸ Power.Alike.refl a

theorem spineDown_pow (s : State) : s.pow.Alike s.spineDown.pow := by
  have hlost : (if s.slotsInUse = 0 then s else s.loseAll 0x11).pow = s.pow := by
    split_ifs
    · rfl
    · exact (loseAll_keep s _ (fs := [.od, .odb, .host, .flit, .falt, .ldr]) (Keep.rfl' s)).part .pow
  have hpins := (pinsDefault_keep (if s.slotsInUse = 0 then s else s.loseAll 0x11) (fs := [.od, .pins]) (Keep.rfl' _)).part .pow
  refine ⟨s.pow.ramp, none, 3, none, none, ?_⟩
  rw [← hlost, ← hpins]
  rfl

theorem pow_ite {c : Prop} [Decidable c] {a b s : State} (ha : a.pow = s.pow) (hb : b.pow = s.pow) : (if c then a else b).pow = s.pow := by
  by_cases h : c
  · rw [if_pos h, ha]
  · rw [if_neg h, hb]

/-- A domain other than the spine leaves the power controller's record as it was. -/
theorem unitsDown_pow_eq (s : State) {d : Nat} (h : d ≠ 1) : (s.unitsDown d).pow = s.pow := by
  have hsame (t : State) (hkeep : Keep [.od, .odb, .dict, .host, .hostMem, .land, .flit, .falt, .trc, .cores, .newels, .arr, .mem, .bal, .ldr,
      .clok, .ports, .ledg, .vest, .vid, .coln, .dmem, .dbg, .pins] s t) : t.pow = s.pow := hkeep.part .pow
  unfold State.unitsDown
  rw [if_neg h]
  refine pow_ite (hsame _ (hallDown_keep s _ (Keep.rfl' s))) (pow_ite (hsame _ (pairDown_keep s _ (Keep.rfl' s))) ?_)
  refine pow_ite (hsame _ (decoderDown_keep s _ (Keep.rfl' s))) (pow_ite (hsame _ (encoderDown_keep s (Keep.rfl' s))) ?_)
  have hnet : ({ s.netClear with coln := {} } : State).pow = s.pow := by
    dsimp only
    exact hsame s.netClear (netClear_keep s (Keep.rfl' s))
  have hsession : ({ s.endSession with trc := {}, dbg := {} } : State).pow = s.pow := by
    dsimp only
    exact hsame s.endSession (endSession_keep s (Keep.rfl' s))
  refine pow_ite (hsame _ (vestibuleDown_keep s (Keep.rfl' s))) (pow_ite hnet ?_)
  refine pow_ite rfl (pow_ite (hsame _ (channelsOff_keep s _ (Keep.rfl' s))) ?_)
  exact pow_ite (hsame _ (endpointDown_keep s (Keep.rfl' s))) (pow_ite hsession rfl)

theorem unitsDown_pow (s : State) (d : Nat) : s.pow.Alike (s.unitsDown d).pow := by
  by_cases h : d = 1
  · rw [h]
    exact spineDown_pow s
  · exact .of_eq (unitsDown_pow_eq s h)

theorem domainDown_pow (s : State) (d : Nat) : s.pow.Alike (s.domainDown d).pow := by
  have hunits := unitsDown_pow s d
  have hrequests := (withdrawRequests_keep (s.unitsDown d) d (fs := [.bal]) (Keep.rfl' _)).part .pow
  obtain ⟨w, hw⟩ : ∃ w, w = (s.unitsDown d).withdrawRequests d := ⟨_, rfl⟩
  have hpow : (s.domainDown d).pow = { w.pow with ramp := Sparse.put (fun _ => none) w.pow.ramp d none } := by
    rw [hw]
    rfl
  rw [hpow]
  exact hunits.trans ((Power.Alike.of_eq (hw ▸ hrequests)).trans ⟨_, _, _, _, _, rfl⟩)

theorem allDown_pow (s : State) : s.pow.Alike s.allDown.pow := by
  have hfold (l : List Nat) (t : State) : t.pow.Alike (l.foldl (fun s i => s.domainDown (27 - i)) t).pow := by
    induction l generalizing t with
    | nil => exact .refl _
    | cons i l ih => exact (domainDown_pow t (27 - i)).trans (ih _)
  exact hfold _ s

theorem lost_alike (s : State) (cause : Nat) : s.pow.Alike (s.loseAll cause).allDown.pow := by
  have hlost : Keep [.od, .odb, .host, .flit, .falt, .ldr] s (s.loseAll cause) := loseAll_keep s cause (Keep.rfl' s)
  have hpow : (s.loseAll cause).pow = s.pow := hlost.part .pow
  exact (Power.Alike.of_eq hpow).trans (allDown_pow (s.loseAll cause))

theorem lost_spine (s : State) (cause : Nat) : bit ((s.loseAll cause).allDown.rd OD.DOMAIN_ON) 1 = false := by
  obtain ⟨w, hlast⟩ := allDown_last (s.loseAll cause)
  rw [hlast]
  exact domainDown_on w 1

/-! ### Wake requests (R867, R868) -/

/-- What an order may change: the target, the failed domains and the bookkeeping of a transition. -/
structure State.Ordered (s t : State) : Prop where
  rd : ∀ k, k ∉ [OD.DOMAIN_REQ, OD.GATE, OD.DOMAIN_FAIL, OD.TRANSITION_US] → t.rd k = s.rd k
  wakeLow : t.pow.wakeLow = s.pow.wakeLow
  keeps : Keep [.od, .pow] s t

theorem State.Ordered.refl (s : State) : s.Ordered s := ⟨fun _ _ => rfl, rfl, Keep.rfl' s⟩

theorem setTarget_ordered (s : State) (r g : Nat) : s.Ordered (s.setTarget r g) := by
  obtain ⟨m, hpow⟩ := setTarget_pow s r g
  refine ⟨fun k hk => ?_, by rw [hpow], setTarget_keep s r g (Keep.rfl' s)⟩
  simp only [List.mem_cons, List.not_mem_nil, or_false, not_or] at hk
  obtain ⟨hreq, hgate, hfail, hnote⟩ := hk
  rw [setTarget_rd' s r g k hnote, if_neg hfail, if_neg hgate, if_neg hreq]

theorem ordered_ite {c : Prop} [Decidable c] {s : State} {a b : Nat × State} (ha : s.Ordered a.2) (hb : s.Ordered b.2) :
    s.Ordered (if c then a else b).2 := by
  by_cases h : c
  · rw [if_pos h]
    exact ha
  · rw [if_neg h]
    exact hb

theorem powerOrder_ordered (s : State) (v : Nat) : s.Ordered (s.powerOrder v).2 := by
  unfold State.powerOrder
  exact ordered_ite (.refl s) (ordered_ite (.refl s) (ordered_ite (.refl s) (ordered_ite (.refl s) (setTarget_ordered s _ _))))

/-- A source's bit is set, WAKE_N is driven while the link is down, and the command that the target asks for may be taken. -/
theorem wake_enabled {s : State} {b : Nat} (h : bit (s.rd OD.POWR_WAKE_ENABLE) b = true) :
    ∃ u v, u = (if s.linkUp then s.setOdBit OD.WAKE_SOURCE b true
        else { s.setOdBit OD.WAKE_SOURCE b true with pow := { s.pow with wakeLow := true } }) ∧
      u.Ordered v ∧ (u.rd OD.WAKE_TARGET < 3 → v = u) ∧ s.wake b = if v.linkUp then v.signal false 10 else v := by
  have hlink : (s.setOdBit OD.WAKE_SOURCE b true).linkUp = s.linkUp := by
    unfold State.linkUp
    rw [setOdBit_ne _ (by decide)]
  obtain ⟨u, hu⟩ : ∃ u, u = (if s.linkUp then s.setOdBit OD.WAKE_SOURCE b true
    else { s.setOdBit OD.WAKE_SOURCE b true with pow := { s.pow with wakeLow := true } }) := ⟨_, rfl⟩
  refine ⟨u, if 3 ≤ u.rd OD.WAKE_TARGET ∧ (u.powerState = 1 ∨ u.powerState = 2 ∨ u.powerState = 5) ∧ u.pow.cmdEdge ≠ some u.clk.now then
    (u.powerOrder (u.rd OD.WAKE_TARGET)).2 else u, hu, ?_, fun hlow => if_neg fun hcmd => Nat.not_le.2 hlow hcmd.1, ?_⟩
  · by_cases hcmd : 3 ≤ u.rd OD.WAKE_TARGET ∧ (u.powerState = 1 ∨ u.powerState = 2 ∨ u.powerState = 5) ∧ u.pow.cmdEdge ≠ some u.clk.now
    · rw [if_pos hcmd]
      exact powerOrder_ordered u _
    · rw [if_neg hcmd]
      exact .refl u
  · unfold State.wake
    rw [h, if_neg (by decide)]
    dsimp only
    rw [hlink, hu]
    rfl

/-- Settles O50: what each event of the board leaves in the target, the power controller's record and the Pace. -/
theorem suppliesTemperatureAndWake : Obligations.SuppliesTemperatureAndWake := by
  unfold Obligations.SuppliesTemperatureAndWake
  refine ⟨?vinLoss, ?vinValid, ?vinBand, ?sample, ?throttles, ?absent, fun s => rfl, ?wakes, ?asleep, ?pace, ?park⟩
  case vinLoss =>
    intro high mv s
    have hform := vinLoss_form high mv s
    have halike := lost_alike s 0x10
    have hon := lost_spine s 0x10
    generalize (s.loseAll 0x10).allDown = a at hform halike hon
    obtain ⟨b, hb⟩ : ∃ b, b = ((a.setPow { a.pow with
      vin := false, await := false, ramp := [], moving := none, reset := none }).wr OD.VIN_MV mv.toNat).wr OD.RESET_STATE 0 := ⟨_, rfl⟩
    obtain ⟨f, hf⟩ : ∃ f, f = b.logFault ⟨0, FaultClass.device, 64, 0, 0, OD.VIN_MV, 0xFF, mv.toNat, if high then 2 else 1⟩ := ⟨_, rfl⟩
    have hpow : f.pow = b.pow := hf ▸ (logFault_keep b _ (fs := [.od, .host, .falt]) (Keep.rfl' b)).part .pow
    have hbpow : b.pow = { a.pow with vin := false, await := false, ramp := [], moving := none, reset := none } := hb ▸ rfl
    have hrd (k : Nat) (hlog : k ≠ OD.FAULTS_LOST) (hcount : k ≠ OD.CLASS_COUNTS FaultClass.device) : f.rd k = b.rd k :=
      hf ▸ logFault_rd b _ hlog hcount
    have hform : exec (.vinLoss high mv) s = .next ((f.wr OD.DOMAIN_REQ 1).wr OD.GATE 1) := by
      rw [hform, hf, hb]
    refine ⟨_, hform, ?_, rd_wr_same .., ?_, ?_, ?_, ?_, ?_, ?_, ?_, fun d => ?_⟩
    · rw [rd_wr_ne _ (by decide), rd_wr_same]
    · rw [rd_wr_ne _ (by decide), rd_wr_ne _ (by decide), hrd _ (by decide) (by decide), hb, rd_wr_same]
    · rw [rd_wr_ne _ (by decide), rd_wr_ne _ (by decide), hrd _ (by decide) (by decide), hb, rd_wr_ne _ (by decide), rd_wr_same]
    · unfold State.powered
      rw [rd_wr_ne _ (by decide), rd_wr_ne _ (by decide), hrd _ (by decide) (by decide), hb, rd_wr_ne _ (by decide), rd_wr_ne _ (by decide),
        setPow_rd]
      exact hon
    · show f.pow.vin = false
      rw [hpow, hbpow]
    · show f.pow.await = false
      rw [hpow, hbpow]
    · show f.pow.reset = none
      rw [hpow, hbpow]
    · obtain ⟨r, p, u, h, c, hpowers⟩ := halike
      show f.pow.cold = s.pow.cold
      rw [hpow, hbpow, hpowers]
    · show Sparse.get _ f.pow.ramp d = none
      rw [hpow, hbpow]
      rfl
  case vinValid =>
    intro s
    obtain ⟨u, hu⟩ : ∃ u, u = s.setPow { s.pow with vin := true } := ⟨_, rfl⟩
    have hku : Keep [.od, .pow] s u := hu ▸ setPow_keep s _ (Keep.rfl' s)
    have hupow : u.pow = { s.pow with vin := true } := hu ▸ rfl
    have hrd (k : Nat) : u.rd k = s.rd k := hu ▸ rfl
    have hexec : exec .vinValid s = .next u.powerUp := hu ▸ rfl
    have hboot : u.boot = s.boot := hu ▸ rfl
    by_cases hup : s.pow.await = true ∧ s.boot.life ≠ 3
    · have hpowers : u.powerUp = u.setTarget (u.cmdTarget (u.rd OD.POWERUP_TARGET)).1 (u.cmdTarget (u.rd OD.POWERUP_TARGET)).2 := by
        unfold State.powerUp
        rw [if_neg]
        rw [hupow, hboot]
        simp [hup.1, hup.2]
      have hcmd : u.cmdTarget (u.rd OD.POWERUP_TARGET) = s.cmdTarget (s.rd OD.POWERUP_TARGET) := by
        unfold State.cmdTarget
        rw [hrd, hrd]
      rw [hcmd] at hpowers
      obtain ⟨hreq, hgate⟩ := setTarget_facts u (s.cmdTarget (s.rd OD.POWERUP_TARGET)).1 (s.cmdTarget (s.rd OD.POWERUP_TARGET)).2
      obtain ⟨m, hpow⟩ := setTarget_pow u (s.cmdTarget (s.rd OD.POWERUP_TARGET)).1 (s.cmdTarget (s.rd OD.POWERUP_TARGET)).2
      refine ⟨_, hexec, ?_, fun _ _ => ⟨?_, ?_, ?_⟩, fun hno => ?_, ?_⟩
      · rw [hpowers, hpow, hupow]
      · rw [hpowers, hreq]
      · rw [hpowers, hgate]
      · rw [hpowers, hpow]
      · obtain hno | hno := hno
        · exact absurd (hno.symm.trans hup.1) Bool.false_ne_true
        · exact absurd hno hup.2
      · rw [hpowers]
        exact setTarget_keep u _ _ hku
    · have hstays : u.powerUp = u := by
        unfold State.powerUp
        rw [if_pos]
        rw [hupow, hboot]
        cases hawait : s.pow.await
        · rfl
        · simpa [hawait] using hup
      refine ⟨u, hexec.trans (congrArg Host.Outcome.next hstays), by rw [hupow], fun hawait hlife => absurd ⟨hawait, hlife⟩ hup,
        fun _ => ⟨hrd _, hrd _⟩, hku⟩
  case vinBand =>
    intro mv s
    refine ⟨_, rfl, ?_, ?_, ⟨fun k hk => ?_⟩, logFault_keep _ _ ((Keep.rfl' s).wr _ _)⟩
    · rw [logFault_rd _ _ (by decide) (show OD.VIN_MV ≠ OD.CLASS_COUNTS FaultClass.corrected by decide), rd_wr_same]
    · refine (logFault_count (s.wr OD.VIN_MV mv.toNat) ⟨0, FaultClass.corrected, 64, 0, 0, OD.VIN_MV, 0xFF, mv.toNat, 0⟩
        (show OD.CLASS_COUNTS FaultClass.corrected ≠ OD.FAULTS_LOST by decide)).trans ?_
      rw [rd_wr_ne _ (show OD.CLASS_COUNTS FaultClass.corrected ≠ OD.VIN_MV by decide)]
    · simp only [List.mem_cons, List.not_mem_nil, or_false, not_or] at hk
      obtain ⟨hmv, hlost, hcount⟩ := hk
      rw [logFault_rd _ _ hlost hcount, rd_wr_ne _ hmv]
  case sample =>
    intro v s u crossed
    exact ⟨fun h => congrArg Host.Outcome.next (if_pos h), fun h => congrArg Host.Outcome.next (if_neg h)⟩
  case absent =>
    intro s
    unfold exec
    rfl
  case throttles =>
    intro s hpowered hhot hcap htoo
    obtain ⟨u, hu⟩ : ∃ u : State, u = { s with pow := { s.pow with hot := some s.clk.now, cool := none } } := ⟨_, rfl⟩
    have hrd (k : Nat) : u.rd k = s.rd k := hu ▸ rfl
    have hthrottle : s.throttle = u.capLower := by
      unfold State.throttle
      dsimp only
      rw [hpowered, if_neg (by decide), if_pos htoo, hhot, hu]
      rfl
    obtain ⟨v, hv⟩ : ∃ v, v = (u.wr OD.PACE_CAP (u.rd OD.PACE_CAP - 1)).bump OD.THROTTLE_EVENTS := ⟨_, rfl⟩
    have hlower : u.capLower = (v.record FaultClass.corrected 64 0 OD.THROTTLE_EVENTS 0 0).paceUpdate := by
      unfold State.capLower
      rw [if_neg (by rw [hrd]; exact hcap), hv]
    rw [hthrottle]
    refine ⟨by rw [hu], ?_, ?_⟩
    · rw [hlower, paceUpdate_rd _ _ (by decide) (by decide) (by decide) (by decide) (by decide),
        record_rd _ _ _ _ _ _ _ (by decide) (by decide), hv, rd_bump_ne _ (by decide), rd_wr_same, hrd]
    · rw [hlower, paceUpdate_rd _ _ (by decide) (by decide) (by decide) (by decide) (by decide),
        record_rd _ _ _ _ _ _ _ (by decide) (by decide), hv, rd_bump_same, rd_wr_ne _ (by decide), hrd]
  case wakes =>
    intro src s b henabled hpin
    have hraised : s.wakeRaised src = true := by
      cases src with
      | pin g =>
        obtain ⟨hseen, hfrom⟩ := hpin g rfl
        show (s.wakeSeen && decide (s.wakePin = some g.val)) = true
        rw [hseen, hfrom]
        exact decide_eq_true rfl
      | _ => rfl
    obtain ⟨u, v, hu, hordered, hlow, hwake⟩ := wake_enabled henabled
    have hexec : exec (.wakeRequest src) s = .next (if v.linkUp then v.signal false 10 else v) := by
      rw [← hwake]
      exact congrArg Host.Outcome.next (if_pos hraised)
    have hu_rd (k : Nat) : u.rd k = (s.setOdBit OD.WAKE_SOURCE b true).rd k := by
      rw [hu]
      split <;> rfl
    have hu_keep : Keep [.od, .pow] s u := by
      rw [hu]
      split
      · exact setOdBit_keep _ _ _ _ (Keep.rfl' s)
      · exact (setOdBit_keep _ _ _ _ (Keep.rfl' s)).upd rfl rfl rfl rfl
    have hlink : v.linkUp = s.linkUp := by
      unfold State.linkUp
      rw [hordered.rd _ (by decide), hu_rd, setOdBit_ne _ (by decide)]
    have hkv : Keep [.od, .pow] s v := hu_keep.trans hordered.keeps
    have ht_rd (k : Nat) : (if v.linkUp then v.signal false 10 else v).rd k = v.rd k := by
      split
      · exact signal_rd ..
      · rfl
    have hsource : v.rd OD.WAKE_SOURCE = setBit (s.rd OD.WAKE_SOURCE) b true := by
      rw [hordered.rd _ (by decide), hu_rd, setOdBit_same]
    refine ⟨_, hexec, ?_, fun i hi => ?_, fun hdown => ?_, fun hup => ?_, fun htarget => ?_, ?_⟩
    · rw [ht_rd, hsource, bit_setBit, if_pos rfl]
    · rw [ht_rd, hsource, bit_setBit, if_neg hi]
    · rw [hlink, hdown, if_neg Bool.false_ne_true]
      rw [hdown, if_neg Bool.false_ne_true] at hu
      exact ⟨hordered.wakeLow.trans (by rw [hu]), hkv.part .host⟩
    · rw [hlink, hup, if_pos rfl]
      rw [hup, if_pos rfl] at hu
      refine ⟨?_, signal_host s v false 10 (hkv.part .host) ?_ ?_⟩
      · rw [(signal_keep v false 10 (fs := [.host]) (Keep.rfl' v)).part .pow, hordered.wakeLow, hu]
        rfl
      · rw [hordered.rd _ (by decide), hu_rd, setOdBit_ne _ (by decide)]
      · rw [hordered.rd _ (by decide), hu_rd, setOdBit_ne _ (by decide)]
    · have hstays : v = u := hlow (by rw [hu_rd, setOdBit_ne _ (by decide)]; exact htarget)
      rw [ht_rd, hstays, hu_rd, setOdBit_ne _ (by decide)]
    · split
      · exact signal_keep v false 10 (hkv.mono (within_of (by decide)))
      · exact hkv.mono (within_of (by decide))
  case asleep =>
    intro src s hoff
    by_cases hraised : s.wakeRaised src = true
    · obtain hdisabled | ⟨g, hsrc, hpin⟩ := hoff
      · refine congrArg Host.Outcome.next ((if_pos hraised).trans ?_)
        unfold State.wake
        rw [hdisabled]
        rfl
      · rw [hsrc] at hraised
        obtain ⟨hseen, hfrom⟩ := (Bool.and_eq_true ..).mp hraised
        obtain hunseen | hother := hpin
        · exact absurd (hunseen.symm.trans hseen) Bool.false_ne_true
        · exact absurd (of_decide_eq_true hfrom) hother
    · exact congrArg Host.Outcome.next (if_neg hraised)
  case pace =>
    intro s p hto
    obtain ⟨u, hu⟩ : ∃ u : State, u = { s with pow := { s.pow with supply := p, paceTo := some (p, true) } } := ⟨_, rfl⟩
    have hexec : exec .paceRampDone s = .next (if s.tick.st = .stopped then u.paceSwitch else u) := by
      show Host.Outcome.next _ = _
      simp only [hto]
      rw [hu]
      rfl
    refine ⟨fun hticking => by rw [hexec, if_neg hticking, hu], fun hstopped => ?_⟩
    obtain ⟨hpace, hhall, hspine, hcount, hpow⟩ := (paceSwitch_facts u).2 p (by rw [hu])
    rw [if_pos hstopped] at hexec
    refine ⟨_, hexec, hpace, hhall, hspine, ?_, ?_, ?_⟩
    · rw [hcount, hu]
      rfl
    · rw [hpow]
    · rw [hpow]
  case park =>
    intro g s s0 b hsw
    obtain ⟨x, hx⟩ : ∃ x, x = if s.clk.now < s0 + 6 then some (s0, true) else none := ⟨_, rfl⟩
    have hexec : exec (.pinParkEnd g) s = .next (if s.clk.now < s0 + 4 then s
        else { s with pins := { s.pins with sw := Sparse.put (fun _ => none) s.pins.sw g x } }) := by
      show Host.Outcome.next _ = _
      simp only [hsw]
      rw [hx]
    rw [← hx]
    by_cases hearly : s.clk.now < s0 + 4
    · rw [if_pos hearly] at hexec ⊢
      exact ⟨s, hexec, hsw, fun _ _ => rfl, Keep.rfl' s⟩
    · rw [if_neg hearly] at hexec ⊢
      exact ⟨_, hexec, Sparse.get_put_same (d := fun _ => none) s.pins.sw g.val x,
        fun h hh => Sparse.get_put_ne (d := fun _ => none) s.pins.sw hh x, (Keep.rfl' s).upd rfl rfl rfl rfl⟩

end Sys2Proof.Machine
end

section
/-! What orders a full device reset (R70, R150, R151, R875). -/

set_option Elab.async false

namespace Sys2Proof.Machine

/-- The records of a flush leave the power controller and the tick unit as they were. -/
theorem flush_keep (s : State) (l : List Nat) :
    (l.foldl (fun s i => s.flushSlot i) s).pow = s.pow ∧ (l.foldl (fun s i => s.flushSlot i) s).tick = s.tick := by
  induction l generalizing s with
  | nil => exact ⟨rfl, rfl⟩
  | cons i l ih =>
    obtain ⟨hpow, htick⟩ := ih (s.flushSlot i)
    have hkeep := flushSlot_keep s i (Keep.rfl' s)
    exact ⟨hpow.trans (hkeep.part .pow), htick.trans (hkeep.part .tick)⟩

/-- Settles O51: an order by what it records and stops, the events of the link and of the pin by the order that they make. -/
theorem resetsAreOrdered : Obligations.ResetsAreOrdered := by
  unfold Obligations.ResetsAreOrdered
  refine ⟨?order, ?merged, ?lost, ?asserted, ?released, ?down, ?up, ?pin, fun s => rfl⟩
  case order =>
    intro s cause floor lost hnone t
    obtain ⟨u, hpow, htick, hflit, hform⟩ := orderReset_new s cause floor lost hnone
    have habort := abortAll_keep u (Keep.rfl' u)
    obtain ⟨hentries, hslots, hadmission⟩ := abortAll_entries u
    have ht : t = _ := hform
    have hflush := flush_keep u.abortAll (u.abortAll.lostOrder.filter (fun i => lost ≠ some i))
    clear_value t
    refine ⟨?_, ?_, fun hquiet => ?_⟩
    · rw [ht, ← hpow, ← habort.part .pow]
      split
      · exact hflush.1
      · rfl
    · rw [ht, ← htick, ← habort.part .tick]
      split
      · exact hflush.2
      · rfl
    · have hno : (s.linkUp && decide (cause ≠ 1 ∧ cause ≠ 2 ∧ cause ≠ 3)) = false := by
        obtain hdown | rfl | rfl | rfl := hquiet
        · rw [hdown, Bool.false_and]
        all_goals exact Bool.and_false _
      rw [ht, hno, if_neg Bool.false_ne_true]
      exact ⟨hentries, hadmission, hslots.trans (by rw [hflit])⟩
  case merged =>
    intro s cause floor lost r hrunning
    unfold State.orderReset
    rw [hrunning]
    rfl
  case lost =>
    intro s state cause t
    obtain ⟨hod, hpow, htick, hflit, hpf0, hpf1⟩ := linkLost_parts s state cause
    refine ⟨?_, ?_, ?_, hpf0, hpf1, hpow, htick, hflit⟩
    · rw [rd_of_od hod, rd_wr_ne _ (by decide), rd_wr_ne _ (by decide), rd_wr_same]
    · rw [rd_of_od hod, rd_wr_ne _ (by decide), rd_wr_same]
    · rw [rd_of_od hod, rd_wr_same]
  case asserted =>
    intro s hscan u
    have hexec : exec .peRstNAssert s = .next (if s.powered 26 then u.linkLost 0 1 else u) :=
      congrArg Host.Outcome.next (if_neg (by rw [hscan]; decide))
    exact ⟨fun hon => by rw [hexec, if_pos hon], fun hoff => by rw [hexec, hoff, if_neg Bool.false_ne_true]⟩
  case released =>
    intro s hscan u
    have hexec : exec .peRstNRelease s = .next (if s.powered 26 then (if s.linkUp then u else u.wr OD.LINK_STATE 1) else u.wake 1) :=
      congrArg Host.Outcome.next (if_neg (by rw [hscan]; decide))
    refine ⟨fun hon hup => by rw [hexec, if_pos hon, if_pos hup], fun hon hdown => ?_, fun hoff => ?_⟩
    · rw [hexec, if_pos hon, hdown, if_neg Bool.false_ne_true]
    · rw [hexec, hoff, if_neg Bool.false_ne_true]
  case down =>
    intro s hon hup
    have hlive : (s.powered 26 && s.linkUp) = true := by rw [hon, hup]; rfl
    exact ⟨congrArg Host.Outcome.next (if_pos hlive), congrArg Host.Outcome.next (if_pos hlive)⟩
  case up =>
    intro width speed s hon hhigh
    refine ⟨_, congrArg Host.Outcome.next (if_neg (by rw [hon, hhigh]; decide)), ?_, ?_, ?_, rfl, ⟨fun k hk => ?_⟩, ?_⟩
    · rw [setPow_rd, rd_wr_ne _ (by decide), rd_wr_ne _ (by decide), rd_wr_same]
    · rw [setPow_rd, rd_wr_ne _ (by decide), rd_wr_same]
    · rw [setPow_rd, rd_wr_same]
    · simp only [List.mem_cons, List.not_mem_nil, or_false, not_or] at hk
      obtain ⟨hstate, hwidth, hspeed⟩ := hk
      rw [setPow_rd, rd_wr_ne _ hspeed, rd_wr_ne _ hwidth, rd_wr_ne _ hstate]
    · exact setPow_keep _ _ ((((Keep.rfl' s).wr _ _).wr _ _).wr _ _)
  case pin =>
    intro s hscan
    exact ⟨congrArg Host.Outcome.next (if_neg (by rw [hscan]; decide)), congrArg Host.Outcome.next (if_neg (by rw [hscan]; decide))⟩

end Sys2Proof.Machine
end

section
/-! The steps of Table POWR-7, and a cold reset (R876, R888). -/

set_option Elab.async false

namespace Sys2Proof.Machine

/-! ### Step 1 -/

theorem loseAll_flit (s : State) (cause : Nat) :
    (s.loseAll cause).flit.slots = [] ∧ (s.loseAll cause).flit.entries = [] ∧ (s.loseAll cause).flit.admission = [] := by
  obtain ⟨u, hu⟩ : ∃ u, u = s.lostOrder.foldl (fun s i => s.loseSlot i Status.resetFlush cause) s := ⟨_, rfl⟩
  have hlose : s.loseAll cause = State.imgSettleAll { u with flit := { u.flit with slots := [], admission := [], entries := [], letting := [] } } := by
    rw [hu]
    rfl
  have hflit := (imgSettleAll_keep { u with flit := { u.flit with slots := [], admission := [], entries := [], letting := [] } }
    (fs := [.od, .odb, .host, .ldr]) (Keep.rfl' _)).part .flit
  rw [hlose]
  refine ⟨?_, ?_, ?_⟩ <;> rw [hflit]

theorem gqHold_point (s : State) : s.gqHold.gq.point = none := rfl

/-- The transfers close and the fills begin (R141, R747). -/
def State.heldDown (s : State) : State :=
  let all := s.sealRanges ++ s.ledg.fills
  State.wr { s with
    dict := { s.dict with staged := [], fresh := [], xfer := [] }
    ledg := { s.ledg with
      fills := fillPart all, resetHeld := s.ledg.resetHeld ++ galleryPart s all, tainted := s.coresSealed } } OD.RESET_STATE 2

/-! ### Step 3 -/

/-- The reset of the logic: every object but D0's, PIN_SWITCHES and those kept returns to its default, and the units' records go. -/
theorem logicReset_form (s : State) (keep : Bool) :
    ∃ v n, Keep [.od, .host, .land, .flit, .trc, .cores, .newels, .clok, .ledg, .dbg, .pins] s v ∧
      s.logicReset keep = ((v.clearObjects (fun d => d ≠ 0) (resetKeeps (keep && s.linkUp))).wr OD.PIN_SWITCHES n).recordsReset (keep && s.linkUp) := by
  refine ⟨s.endSession.pinsDefault, s.endSession.pinsDefault.rd OD.PIN_SWITCHES - s.endSession.rd OD.PIN_SWITCHES, ?_, rfl⟩
  exact pinsDefault_keep _ (endSession_keep s (Keep.rfl' s))

/-- The channels' part of step 2. -/
def State.channelsRest (s : State) : State :=
  foldN 8 (fun s ch =>
    if s.chSt ch = ChSt.active then s.wr (OD.CH_STATE ch) ChSt.selfRefresh
    else if s.chSt ch = ChSt.init then s.wr (OD.CH_STATE ch) ChSt.untrimmed else s) s

theorem channelsRest_facts (s : State) : s.channelsRest.linkUp = s.linkUp ∧ s.channelsRest.mem = s.mem := by
  have hrd : s.channelsRest.rd OD.LINK_STATE = s.rd OD.LINK_STATE := by
    refine foldN_rd _ _ (fun s ch => ?_) 8 s
    have hne : OD.LINK_STATE ≠ OD.CH_STATE ch := by unfold OD.LINK_STATE OD.CH_STATE; omega
    split
    · exact rd_wr_ne _ hne _
    · split
      · exact rd_wr_ne _ hne _
      · rfl
  have hkeep : Keep [.od] s s.channelsRest := by
    refine Keep.foldN 8 _ s (fun t ch ht => ?_) (Keep.rfl' s)
    split
    · exact ht.wr _ _
    · split
      · exact ht.wr _ _
      · exact ht
  refine ⟨?_, hkeep.part .mem⟩
  unfold State.linkUp
  rw [hrd]

theorem resetFillEnd_exec {s : State} {r : ResetRun} (hreset : s.pow.reset = some r) (hstate : s.rd OD.RESET_STATE = 2) :
    exec .resetFillEnd s = .next (((s.memClear (fun a => s.ledg.fills.any (fun x => inRange x a))).channelsRest.logicReset r.keepPcie).wr OD.RESET_STATE 3) := by
  show Host.Outcome.next _ = _
  simp only [hreset, hstate]
  rfl

/-! ### Step 4 -/

/-- The channels and pairs begin again as SYSREF runs. -/
def State.holdEnds (s : State) : State :=
  let s := foldN 8 (fun s p => s.wr (OD.PAIR_READY p) 0) s
  foldN 8 (fun s ch => if s.chSt ch = ChSt.selfRefresh then s.wr (OD.CH_STATE ch) ChSt.untrimmed else s) s

theorem holdEnds_facts (s : State) :
    (∀ p, p < 8 → s.holdEnds.rd (OD.PAIR_READY p) = 0) ∧
    (∀ ch, ch < 8 → s.holdEnds.rd (OD.CH_STATE ch) =
      if s.rd (OD.CH_STATE ch) = ChSt.selfRefresh then ChSt.untrimmed else s.rd (OD.CH_STATE ch)) ∧
    (∀ k, (∀ p, k ≠ OD.PAIR_READY p) → (∀ ch, k ≠ OD.CH_STATE ch) → s.holdEnds.rd k = s.rd k) ∧ Keep [.od] s s.holdEnds := by
  obtain ⟨u, hu⟩ : ∃ u, u = foldN 8 (fun s p => State.wr s (OD.PAIR_READY p) 0) s := ⟨_, rfl⟩
  obtain ⟨hpairs, hnot⟩ := foldN_rdIdx (fun s p => State.wr s (OD.PAIR_READY p) 0) (fun p => OD.PAIR_READY p) (fun _ _ => 0)
    (fun i j h he => h (by unfold OD.PAIR_READY at he; omega)) (fun s i => rd_wr_same ..) (fun s i k hk => rd_wr_ne s hk 0) 8 s
  obtain ⟨hchannels, hrest⟩ := foldN_rdIdx
    (fun s ch => if s.chSt ch = ChSt.selfRefresh then State.wr s (OD.CH_STATE ch) ChSt.untrimmed else s) (fun ch => OD.CH_STATE ch)
    (fun _ v => if v = ChSt.selfRefresh then ChSt.untrimmed else v)
    (fun i j h he => h (by unfold OD.CH_STATE at he; omega))
    (fun s i => by
      by_cases h : s.rd (OD.CH_STATE i) = ChSt.selfRefresh
      · rw [if_pos (show s.chSt i = _ from h), if_pos h, rd_wr_same]
      · rw [if_neg (show ¬s.chSt i = _ from h), if_neg h])
    (fun s i k hk => by
      split
      · exact rd_wr_ne _ hk _
      · rfl) 8 u
  rw [← hu] at hpairs hnot
  have hends : s.holdEnds = foldN 8 (fun s ch => if s.chSt ch = ChSt.selfRefresh then State.wr s (OD.CH_STATE ch) ChSt.untrimmed else s) u := by
    rw [hu]
    rfl
  rw [hends]
  have hku : Keep [.od] s u := hu ▸ Keep.foldN 8 _ s (fun t p ht => ht.wr _ _) (Keep.rfl' s)
  refine ⟨fun p hp => ?_, fun ch hch => ?_, fun k hpair hchannel => ?_, ?_⟩
  · rw [hrest _ (fun ch _ => by unfold OD.PAIR_READY OD.CH_STATE; omega), hpairs, if_pos hp]
  · rw [hchannels, if_pos hch, hnot _ (fun p _ => by unfold OD.PAIR_READY OD.CH_STATE; omega)]
  · rw [hrest _ (fun ch _ => hchannel ch), hnot _ (fun p _ => hpair p)]
  · refine Keep.foldN 8 _ u (fun t ch ht => ?_) hku
    split
    · exact ht.wr _ _
    · exact ht

/-- The channels' latch is looked for again. -/
def State.holdOpen (s : State) : State := s.holdEnds.setDmem { s.holdEnds.dmem with noTable := false }

/-- The rest of step 4's beginning: the link, firmware and the gate. -/
def State.holdRuns (s : State) : State :=
  let s := if s.powered 26 ∧ !s.linkUp then s.wr OD.LINK_STATE (if s.host.perstLow then 0 else 1) else s
  (((s.wr OD.FW_VERSION 0).wr OD.FW_SLOT 0).wr OD.GATE 1 |>.wr OD.RESET_STATE 4).powerNote

theorem resetHoldEnd_exec {s : State} (hreset : s.pow.reset ≠ none) (hstate : s.rd OD.RESET_STATE = 3) (hsysref : s.pow.sysref = true) :
    exec .resetHoldEnd s = .next s.holdOpen.holdRuns := by
  have hexec : exec .resetHoldEnd s =
      .next (if s.pow.reset.isNone ∨ s.rd OD.RESET_STATE ≠ 3 ∨ !s.pow.sysref then s else s.holdOpen.holdRuns) := by
    unfold exec execResetHoldEnd
    refine congrArg Host.Outcome.next (congrArg (ite _ s) ?_)
    unfold State.holdRuns State.holdOpen State.holdEnds
    with_reducible rfl
  rw [hexec, hstate, hsysref, if_neg]
  cases hr : s.pow.reset
  · exact absurd hr hreset
  · simp

/-! ### Cold reset -/

theorem powerUp_facts (s : State) :
    (∀ k, k ∉ [OD.DOMAIN_REQ, OD.GATE, OD.DOMAIN_FAIL, OD.TRANSITION_US] → s.powerUp.rd k = s.rd k) ∧
    s.powerUp.pow.cold = s.pow.cold ∧ s.powerUp.pow.reset = s.pow.reset ∧ s.powerUp.pow.lastRamp = s.pow.lastRamp ∧
    Keep [.od, .pow] s s.powerUp := by
  have hkeep : Keep [.od, .pow] s s.powerUp := powerUp_keep s (Keep.rfl' s)
  unfold State.powerUp at *
  split at hkeep
  · rename_i h
    rw [if_pos h]
    exact ⟨fun _ _ => rfl, rfl, rfl, rfl, hkeep⟩
  · rename_i h
    rw [if_neg h]
    obtain ⟨m, hpow⟩ := setTarget_pow s (s.cmdTarget (s.rd OD.POWERUP_TARGET)).1 (s.cmdTarget (s.rd OD.POWERUP_TARGET)).2
    exact ⟨(setTarget_ordered s _ _).rd, by rw [hpow], by rw [hpow], by rw [hpow], hkeep⟩

theorem clearObjects_clk (u : State) (p q : Nat → Bool) : (u.clearObjects p q).clk = u.clk := rfl

/-- The edge of a cold reset is the edge it began on: nothing on its way lets time pass. -/
theorem coldParts_now (s : State) : (s.loseAll 8).allDown.cutBurn.cutFlash.cutCommit.clk.now = s.clk.now := by
  have h1 := (loseAll_keep s 8 (Keep.rfl' s)).now
  have h2 := (allDown_keep (s.loseAll 8) (Keep.rfl' _)).now
  have h3 := (cutBurn_keep (s.loseAll 8).allDown (Keep.rfl' _)).now
  have h4 := (cutFlash_keep (s.loseAll 8).allDown.cutBurn (Keep.rfl' _)).now
  have h5 := (cutCommit_keep (s.loseAll 8).allDown.cutBurn.cutFlash (Keep.rfl' _)).now
  rw [h5, h4, h3, h2, h1]

/-- Settles O52: each step of Table POWR-7 by what it leaves, and a cold reset by the objects it clears. -/
theorem resetsRunTheirSteps : Obligations.ResetsRunTheirSteps := by
  unfold Obligations.ResetsRunTheirSteps
  refine ⟨?takesHold, ?fillEnd, ?holdEnd, ?done, ?cold⟩
  case takesHold =>
    intro s r hreset hstate
    obtain ⟨a, ha⟩ : ∃ a, a = (s.loseAll r.cause).gqHold.traceReset := ⟨_, rfl⟩
    have hkeep : Keep [.od, .host, .hostMem, .falt, .trc, .mem, .bal, .gq] (s.loseAll r.cause) a :=
      ha ▸ traceReset_keep _ (gqHold_keep _ (Keep.rfl' _))
    have hpoint : a.gq.point = none := by
      rw [ha, (traceReset_keep (s.loseAll r.cause).gqHold (fs := [.od, .host, .hostMem, .falt, .trc, .mem, .bal]) (Keep.rfl' _)).part .gq]
      exact gqHold_point _
    obtain ⟨hslots, hentries, hadmission⟩ := loseAll_flit s r.cause
    obtain ⟨b, hb⟩ : ∃ b, b = if r.floor then a.setTarget 1 1 else a := ⟨_, rfl⟩
    have hkb : Keep [.od, .pow] a b := by
      rw [hb]
      split
      · exact setTarget_keep a 1 1 (Keep.rfl' a)
      · exact Keep.rfl' a
    obtain ⟨t, ht, hod, hflit, hgq, hdict⟩ : ∃ t, exec .resetTakesHold s = .next t ∧ t.od = (b.wr OD.RESET_STATE 2).od ∧ t.flit = b.flit ∧ t.gq = b.gq ∧
        t.dict = { b.dict with staged := [], fresh := [], xfer := [] } := by
      refine ⟨b.heldDown, ?_, rfl, rfl, rfl, rfl⟩
      show Host.Outcome.next _ = _
      simp only [hreset, hstate]
      rw [hb, ha]
      rfl
    have hflit' : t.flit = (s.loseAll r.cause).flit := hflit.trans ((hkb.part .flit).trans (hkeep.part .flit))
    refine ⟨t, ht, ?_, ?_, ?_, ?_, ?_, ?_, ?_, ?_, fun hfloor => ⟨?_, ?_⟩⟩
    · rw [rd_of_od hod, rd_wr_same]
    · rw [hflit', hslots]
    · rw [hflit', hentries]
    · rw [hflit', hadmission]
    · rw [hdict]
    · rw [hdict]
    · rw [hdict]
    · rw [hgq, hkb.part .gq, hpoint]
    · rw [rd_of_od hod, rd_wr_ne _ (by decide), hb, if_pos hfloor, (setTarget_facts a 1 1).1]
    · rw [rd_of_od hod, rd_wr_ne _ (by decide), hb, if_pos hfloor, (setTarget_facts a 1 1).2]
  case fillEnd =>
    intro s r hreset hstate
    obtain ⟨u, hu⟩ : ∃ u, u = s.memClear (fun a => s.ledg.fills.any (fun x => inRange x a)) := ⟨_, rfl⟩
    have hexec := resetFillEnd_exec hreset hstate
    obtain ⟨hlink, hmem⟩ := channelsRest_facts u
    obtain ⟨v, n, hkeep, hform⟩ := logicReset_form u.channelsRest r.keepPcie
    have hup : u.channelsRest.linkUp = s.linkUp := by rw [hlink, hu]; rfl
    rw [hup] at hform
    rw [← hu, hform] at hexec
    refine ⟨_, hexec, rd_wr_same .., fun a => ?_, fun k hdomain hswitches hkeeps => ?_, rfl, rfl, rfl, rfl, rfl, rfl, rfl, rfl, rfl, rfl, rfl, rfl, rfl⟩
    · have hcells : v.mem = u.mem := (hkeep.part .mem).trans hmem
      have hbyte : u.memByte a = if s.ledg.fills.any (fun x => inRange x a) then 0#8 else s.memByte a := hu ▸ memClear_byte s _ a
      rw [← hbyte]
      unfold State.memByte
      rw [← hcells]
      rfl
    · have hstate : k ≠ OD.RESET_STATE := fun h => hdomain (by rw [h]; decide)
      rw [rd_wr_ne _ hstate]
      show (State.wr _ OD.PIN_SWITCHES n).rd k = _
      rw [rd_wr_ne _ hswitches, clearObjects_rd, if_pos]
      rw [hkeeps]
      simpa using hdomain
  case holdEnd =>
    intro s hreset hstate hsysref
    have hexec := resetHoldEnd_exec hreset hstate hsysref
    obtain ⟨u, hu⟩ : ∃ u, u = s.holdOpen := ⟨_, rfl⟩
    obtain ⟨hpairs, hchannels, hother, hkeep⟩ := holdEnds_facts s
    have hu_rd (k : Nat) : u.rd k = s.holdEnds.rd k := by
      rw [hu]
      exact setDmem_rd ..
    have hku : Keep [.od, .dmem, .pow] s u := by
      rw [hu]
      exact setDmem_keep _ _ (hkeep.mono (within_of (by decide)))
    have hlinkstate : u.rd OD.LINK_STATE = s.rd OD.LINK_STATE := by
      rw [hu_rd, hother _ (fun p => by unfold OD.LINK_STATE OD.PAIR_READY; omega) (fun ch => by unfold OD.LINK_STATE OD.CH_STATE; omega)]
    have hon : u.rd OD.DOMAIN_ON = s.rd OD.DOMAIN_ON := by
      rw [hu_rd, hother _ (fun p => by unfold OD.DOMAIN_ON OD.PAIR_READY; omega) (fun ch => by unfold OD.DOMAIN_ON OD.CH_STATE; omega)]
    have hlinkup : u.linkUp = s.linkUp := by
      unfold State.linkUp
      rw [hlinkstate]
    have hcond : (u.powered 26 = true ∧ (!u.linkUp) = true) ↔ (s.powered 26 = true ∧ s.linkUp = false) := by
      rw [powered_of hon, hlinkup, Bool.not_eq_true']
    obtain ⟨v, hv⟩ : ∃ v, v = if u.powered 26 ∧ !u.linkUp then u.wr OD.LINK_STATE (if u.host.perstLow then 0 else 1) else u := ⟨_, rfl⟩
    have hruns : s.holdOpen.holdRuns = ((((v.wr OD.FW_VERSION 0).wr OD.FW_SLOT 0).wr OD.GATE 1).wr OD.RESET_STATE 4).powerNote := by
      unfold State.holdRuns
      rw [← hu]
      dsimp only
      rw [← hv]
    rw [hruns] at hexec
    have hhost : u.host = s.host := hku.part .host
    have hv_link : v.rd OD.LINK_STATE = if s.powered 26 ∧ s.linkUp = false then (if s.host.perstLow then 0 else 1) else s.rd OD.LINK_STATE := by
      rw [hv]
      by_cases h : s.powered 26 = true ∧ s.linkUp = false
      · rw [if_pos (hcond.2 h), if_pos h, rd_wr_same, hhost]
      · rw [if_neg (fun hc => h (hcond.1 hc)), if_neg h, hlinkstate]
    have hv_rd (k : Nat) (hk : k ≠ OD.LINK_STATE) : v.rd k = s.holdEnds.rd k := by
      rw [hv, ← hu_rd]
      split
      · exact rd_wr_ne _ hk _
      · rfl
    have hkv : Keep [.od, .dmem, .pow] s v := by
      rw [hv]
      split
      · exact hku.wr _ _
      · exact hku
    have ht_rd (k : Nat) (h : k ∉ [OD.FW_VERSION, OD.FW_SLOT, OD.GATE, OD.RESET_STATE, OD.TRANSITION_US]) :
        (((((v.wr OD.FW_VERSION 0).wr OD.FW_SLOT 0).wr OD.GATE 1).wr OD.RESET_STATE 4).powerNote).rd k = v.rd k := by
      simp only [List.mem_cons, List.not_mem_nil, or_false, not_or] at h
      obtain ⟨hversion, hslot, hgate, hreset, hnote⟩ := h
      rw [powerNote_rd' _ _ hnote, rd_wr_ne _ hreset, rd_wr_ne _ hgate, rd_wr_ne _ hslot, rd_wr_ne _ hversion]
    have hout (k : Nat) (h : 0x300000 ≤ k) : k ∉ [OD.FW_VERSION, OD.FW_SLOT, OD.GATE, OD.RESET_STATE, OD.TRANSITION_US] := by
      simp only [List.mem_cons, List.not_mem_nil, or_false, not_or, OD.FW_VERSION, OD.FW_SLOT, OD.GATE, OD.RESET_STATE, OD.TRANSITION_US]
      omega
    refine ⟨_, hexec, ?_, ?_, fun p hp => ?_, fun ch hch => ?_, ?_, ?_⟩
    · rw [powerNote_rd' _ _ (by decide), rd_wr_same]
    · rw [powerNote_rd' _ _ (by decide), rd_wr_ne _ (by decide), rd_wr_same]
    · rw [ht_rd _ (hout _ (by unfold OD.PAIR_READY; omega)), hv_rd _ (by unfold OD.PAIR_READY OD.LINK_STATE; omega), hpairs p hp]
    · rw [ht_rd _ (hout _ (by unfold OD.CH_STATE; omega)), hv_rd _ (by unfold OD.CH_STATE OD.LINK_STATE; omega), hchannels ch hch]
    · rw [ht_rd _ (hout _ (by decide)), hv_link]
    · exact powerNote_keep _ ((((hkv.wr _ _).wr _ _).wr _ _).wr _ _)
  case done =>
    intro s r hreset hstate hstill
    have hexec : exec .resetDone s = .next ((((s.wr OD.RESET_STATE 0).wr OD.RESET_CAUSE r.cause).bump OD.RESETS).setPow { s.pow with reset := none }) := by
      show Host.Outcome.next _ = _
      simp only [hreset, hstate, hstill]
      rfl
    refine ⟨_, hexec, ?_, ?_, ?_, rfl, ⟨fun k hk => ?_⟩, setPow_keep _ _ (bump_keep _ _ (((Keep.rfl' s).wr _ _).wr _ _))⟩
    · rw [setPow_rd, rd_bump_ne _ (by decide), rd_wr_ne _ (by decide), rd_wr_same]
    · rw [setPow_rd, rd_bump_ne _ (by decide), rd_wr_same]
    · rw [setPow_rd, rd_bump_same, rd_wr_ne _ (by decide), rd_wr_ne _ (by decide)]
    · simp only [List.mem_cons, List.not_mem_nil, or_false, not_or] at hk
      obtain ⟨hstate, hcause, hresets⟩ := hk
      rw [setPow_rd, rd_bump_ne _ hresets, rd_wr_ne _ hcause, rd_wr_ne _ hstate]
  case cold =>
    intro s t0 hcold hdue
    have hnow := coldParts_now s
    obtain ⟨u, hu⟩ : ∃ u, u = (s.loseAll 8).allDown.cutBurn.cutFlash.cutCommit := ⟨_, rfl⟩
    obtain ⟨c, hc⟩ : ∃ c, c = u.clearObjects (fun d => d = 0) coldKeeps := ⟨_, rfl⟩
    have hexec : exec .coldReset s = .next (c.recordsCold.wr OD.RESET_CAUSE 8).powerUp := by
      rw [hc, hu, ← coldReset_form]
      show Host.Outcome.next _ = _
      simp only [hcold]
      rw [if_neg]
      rintro ⟨hearly, hmod⟩
      obtain hlate | hpin := hdue
      · exact Nat.not_lt.2 hlate hearly
      · exact hmod hpin
    obtain ⟨hpow, hdict, hgq, hod⟩ := recordsCold_parts c
    obtain ⟨hrd, hcolds, hresets, hramps, hkeep⟩ := powerUp_facts (c.recordsCold.wr OD.RESET_CAUSE 8)
    have hcnow : c.clk.now = s.clk.now := by
      rw [hc, clearObjects_clk, hu]
      exact hnow
    refine ⟨_, hexec, ?_, fun k hdomain hkeeps hk => ?_, ?_, ?_, ?_, ?_, ?_⟩
    · rw [hrd _ (by decide), rd_wr_same]
    · have hk' : k ≠ OD.RESET_CAUSE ∧ k ∉ [OD.DOMAIN_REQ, OD.GATE, OD.DOMAIN_FAIL, OD.TRANSITION_US] :=
        ⟨List.ne_of_not_mem_cons hk, List.not_mem_of_not_mem_cons hk⟩
      rw [hrd k hk'.2, rd_wr_ne _ hk'.1, rd_of_od hod, hc, clearObjects_rd, if_pos]
      rw [hkeeps, hdomain]
      rfl
    · exact (hkeep.part .dict).trans hdict
    · rw [hkeep.part .gq]
      exact hgq.trans (by rw [hcnow])
    · exact hcolds.trans (congrArg Power.cold hpow)
    · exact hresets.trans (congrArg Power.reset hpow)
    · exact hramps.trans (congrArg Power.lastRamp hpow)

end Sys2Proof.Machine
end

section
/-!
The GQ line and the master mailbox (R803 to R806, R822, R832 to R834): the line monitor's conditions and the four outcomes of a request
of the mailbox. Settles O53.
-/

set_option Elab.async false

namespace Sys2Proof.Machine

/-! ### The line monitor -/

/-- A condition that does not hold yet is detected on its way to LISTEN_ONLY. -/
theorem lineFault_detected {s : State} {c : Nat} (hc : bit (s.rd OD.LINE_NOW) c = false) :
    ∀ k, k ≠ OD.GQ_MODE → (s.lineFault c).rd k = (s.lineDetected c).rd k := by
  intro k hk
  unfold State.lineFault
  dsimp only
  rw [rd_setGq, rd_wr_ne _ hk, hc]
  rfl

/-- A condition that holds already changes the mode alone. -/
theorem lineFault_held {s : State} {c : Nat} (hc : bit (s.rd OD.LINE_NOW) c = true) :
    s.SameBut (s.lineFault c) [OD.GQ_MODE] ∧ Keep [.od, .gq] s (s.lineFault c) := by
  have hform : s.lineFault c = (s.wr OD.GQ_MODE 1).setGq
      { s.gq with clear := s.clk.now, probe := if s.rd OD.GQ_MODE = 1 then s.gq.probe else s.clk.now } := by
    unfold State.lineFault
    rw [hc]
    rfl
  rw [hform]
  exact ⟨⟨fun k hk => rd_wr_ne s (List.ne_of_not_mem_cons hk) 1⟩, ((Keep.rfl' s).wr _ _).upd rfl rfl rfl rfl⟩

/-- What a probe finds of one condition. -/
def State.probed (found : BitVec 4) (s : State) (c : Nat) : State :=
  if found.getLsbD c then (if bit (s.rd OD.LINE_NOW) c then s else s.lineDetected c) else s.setOdBit OD.LINE_NOW c false

theorem probed_bit (found : BitVec 4) (s : State) (c j : Nat) :
    bit ((s.probed found c).rd OD.LINE_NOW) j = if j = c then found.getLsbD c else bit (s.rd OD.LINE_NOW) j := by
  unfold State.probed
  cases hfound : found.getLsbD c with
  | false => rw [if_neg (by decide), setOdBit_same, bit_setBit]
  | true =>
    rw [if_pos rfl]
    cases hheld : bit (s.rd OD.LINE_NOW) c with
    | true =>
      rw [if_pos rfl]
      split
      · next h => rw [h, hheld]
      · rfl
    | false => rw [if_neg (by decide), (lineDetected_facts s c).1, bit_setBit]

theorem probed_keep (found : BitVec 4) (s : State) (c : Nat) : Keep [.od, .host, .falt] s (s.probed found c) := by
  unfold State.probed
  split
  · split
    · exact Keep.rfl' s
    · exact lineDetected_keep s c (Keep.rfl' s)
  · exact (Keep.rfl' s).wr _ _

theorem probes_keep (found : BitVec 4) (s : State) (n : Nat) : Keep [.od, .host, .falt] s (foldN n (State.probed found) s) := by
  induction n with
  | zero => exact Keep.rfl' s
  | succ n ih => rw [foldN_succ]; exact ih.trans (probed_keep found _ n)

/-- After the probe the first `n` conditions are as it found them. -/
theorem probes_bit (found : BitVec 4) (s : State) (n : Nat) :
    ∀ c, c < n → bit ((foldN n (State.probed found) s).rd OD.LINE_NOW) c = found.getLsbD c := by
  induction n with
  | zero => intro c hc; exact absurd hc (Nat.not_lt_zero c)
  | succ n ih =>
    intro c hc
    rw [foldN_succ, probed_bit]
    split
    · next h => rw [h]
    · exact ih c (by omega)

/-- A probe that finds nothing changes LINE_NOW alone. -/
theorem probes_clear (s : State) (n : Nat) : s.SameBut (foldN n (State.probed 0#4) s) [OD.LINE_NOW] := by
  refine ⟨fun k hk => foldN_rd _ k (fun u c => ?_) n s⟩
  unfold State.probed
  rw [if_neg (by simp)]
  exact rd_wr_ne _ (List.ne_of_not_mem_cons hk) _

/-! ### The master mailbox -/

/-- The mailbox's request can go out: the bus has been idle for its wait and its length. -/
theorem mailboxTx_free {m : GqMail} {s : State} (tx : TxEnd) (hm : s.gq.mail = some m) (hsent : m.sent = none)
    (hsys : s.pow.sysref = true) (hmode : s.rd OD.GQ_MODE ≠ 1)
    (hfree : s.gq.idleAt + (20 + 2 * gqNode + (if s.gq.courtesy then 64 else 0)) + (58 + 8 * m.body.length) ≤ s.clk.now ∧
      s.gq.window ≤ s.clk.now) :
    exec (.mailboxTx tx) s = .next (match tx with
      | .sent =>
        if (m.body.getD 0 0#8).toNat % 32 = 0 then (s.busIdle.gqSent m.body).mailDone []
        else (((s.busIdle.gqSent m.body).setGq
          { (s.busIdle.gqSent m.body).gq with mail := some { m with tries := m.tries + 1, sent := some s.clk.now } }).openWindow)
      | .collision => (s.busIdle.gqCount OD.COLLISIONS).mailRetry { m with tries := m.tries + 1 } GqmFail.collision
      | .lineFault c => (s.busIdle.lineFault c).mailFailed GqmFail.lineFault) := by
  have hbus : s.busFree (s.mailWait + m.times) s.clk.now = true := by
    unfold State.busFree State.mailWait requestWait GqMail.times
    rw [Bool.and_eq_true, decide_eq_true_eq, decide_eq_true_eq]
    exact ⟨by omega, hfree.2⟩
  have hmute : s.gqMute = false := decide_eq_false hmode
  show Host.Outcome.next _ = _
  simp only [hm, hsent, hsys, hmute, hbus]
  cases tx <;> rfl

/-- An attempt at a request whose bus the transmitter may not take yet leaves the machine as it was. -/
theorem mailboxTx_busy {m : GqMail} {s : State} (tx : TxEnd) (hm : s.gq.mail = some m) (hsent : m.sent = none)
    (hsys : s.pow.sysref = true) (hmode : s.rd OD.GQ_MODE ≠ 1)
    (hfree : ¬(s.gq.idleAt + (20 + 2 * gqNode + (if s.gq.courtesy then 64 else 0)) + (58 + 8 * m.body.length) ≤ s.clk.now ∧
      s.gq.window ≤ s.clk.now)) :
    exec (.mailboxTx tx) s = .next s := by
  have hbus : s.busFree (s.mailWait + m.times) s.clk.now = false := by
    unfold State.busFree State.mailWait requestWait GqMail.times
    rw [Bool.and_eq_false_iff, decide_eq_false_iff_not, decide_eq_false_iff_not]
    by_cases hwindow : s.gq.window ≤ s.clk.now
    · exact .inl fun h => hfree ⟨by omega, hwindow⟩
    · exact .inr hwindow
  have hmute : s.gqMute = false := decide_eq_false hmode
  show Host.Outcome.next _ = _
  simp only [hm, hsent, hsys, hmute, hbus]
  rfl

/-- A request that is sent counts its telegram and leaves it on the line. -/
theorem gqSent_facts (s : State) (bs : List Byte) :
    (s.gqSent bs).rd OD.TX_TELEGRAMS = min (s.rd OD.TX_TELEGRAMS + 1) 0xFFFFFFFF ∧
      (∀ k, k ≠ OD.TX_TELEGRAMS → (s.gqSent bs).rd k = s.rd k) ∧ (s.gqSent bs).gq = { s.gq with tx := withCrc bs } ∧
      Keep [.od, .gq] s (s.gqSent bs) :=
  ⟨rd_bump_same s _, fun k hk => rd_bump_ne s hk, rfl, gqSent_keep s bs (Keep.rfl' s)⟩

/-- The mailbox ends DONE with its reply. -/
theorem mailDone_facts (s : State) (reply : List Byte) : (s.mailDone reply).rd OD.GQM_STATE = 2 ∧
    (s.mailDone reply).rdBytes OD.GQM_REPLY = reply ∧ (∀ k, k ≠ OD.GQM_STATE → (s.mailDone reply).rd k = s.rd k) ∧
    (s.mailDone reply).gq = { s.gq with mail := none, courtesy := true } ∧ Keep [.od, .odb, .gq] s (s.mailDone reply) :=
  ⟨rd_wr_same s OD.GQM_STATE 2, Sparse.get_put_same (d := fun _ => []) _ _ _, fun k hk => rd_wr_ne s hk 2, rfl,
    mailDone_keep s reply (Keep.rfl' s)⟩

/-- Settles O53: the mailbox's cases are those of its transmission's end, a failed attempt being repeated by `mailRetry_facts`. -/
theorem theGqLineIsWatched : Obligations.TheGqLineIsWatched := by
  refine ⟨fun c s => ?fault, fun s => ⟨?swapHeld, ?swap⟩, ?probe, fun s => ⟨?recovery, ?noRecovery⟩, ?tx, ?noTx, ?timeout⟩
  case fault =>
    obtain ⟨hmode, hgq, -, hkeep⟩ := lineFault_facts s c
    refine ⟨_, rfl, hmode, hgq, lineFault_held, fun hnew => ?_⟩
    obtain ⟨hnow, hseen, hfaults, hclass, -, -⟩ := lineDetected_facts s c
    have hrd := lineFault_detected hnew
    exact ⟨(hrd _ (by decide)).trans hnow, (hrd _ (by decide)).trans hseen, (hrd _ (by decide)).trans hfaults,
      (hrd _ (by decide)).trans hclass, hkeep⟩
  case swapHeld => exact fun h => congrArg Host.Outcome.next (if_pos h)
  case swap =>
    intro h
    obtain ⟨hnow, hseen, hfaults, -, hrest, hkeep⟩ := lineDetected_facts s 4
    have hpolarity : (s.lineDetected 4).rd OD.POLARITY = s.rd OD.POLARITY :=
      hrest _ (by decide) (by decide) (by decide) (by decide) (by decide)
    have hswaps : (s.lineDetected 4).rd OD.POLARITY_SWAPS = s.rd OD.POLARITY_SWAPS :=
      hrest _ (by decide) (by decide) (by decide) (by decide) (by decide)
    refine ⟨_, congrArg Host.Outcome.next (if_neg (not_not.2 h)), ?_, ?_, ?_, ?_, ?_, ?_⟩
    · rw [rd_bump_ne _ (by decide), rd_wr_same, setOdBit_ne _ (by decide), hpolarity]
    · rw [rd_bump_same, rd_wr_ne _ (by decide), setOdBit_ne _ (by decide), hswaps]
    · rw [rd_bump_ne _ (by decide), rd_wr_ne _ (by decide), setOdBit_ne _ (by decide), hseen]
    · rw [rd_bump_ne _ (by decide), rd_wr_ne _ (by decide), setOdBit_same, bit_setBit, if_pos rfl]
    · rw [rd_bump_ne _ (by decide), rd_wr_ne _ (by decide), setOdBit_ne _ (by decide), hfaults]
    · exact bump_keep _ _ ((setOdBit_keep _ _ _ _ hkeep).wr _ _)
  case probe =>
    intro found s free
    have hbus : s.busFree (requestWait + 32) s.clk.now = true ↔ free := by
      unfold State.busFree requestWait
      rw [Bool.and_eq_true, decide_eq_true_eq, decide_eq_true_eq]
      constructor
      · rintro ⟨hidle, hwindow⟩
        exact ⟨by omega, hwindow⟩
      · rintro ⟨hidle, hwindow⟩
        exact ⟨by omega, hwindow⟩
    refine ⟨fun h => congrArg Host.Outcome.next (if_pos ?_), fun hmode hdue hfree => ?_⟩
    · obtain h | h | h := h
      · exact .inl h
      · exact .inr (.inl h)
      · exact .inr (.inr (by rw [Bool.not_eq_true', ← Bool.not_eq_true]; exact fun hb => h (hbus.1 hb)))
    · obtain ⟨u, hu⟩ : ∃ u, u = foldN 4 (State.probed found) s.busIdle := ⟨_, rfl⟩
      have hku := probes_keep found s.busIdle 4
      rw [← hu] at hku
      have hgq : u.gq = { s.gq with idleAt := s.clk.now } := hku.part .gq
      have hnow : u.clk = s.clk := hku.part .clk
      have hexec : exec (.probe found) s = .next (u.setGq { u.gq with
          probe := u.clk.now, clear := if decide (s.rd OD.LINE_NOW ≠ 0) || decide (found ≠ 0#4) then u.clk.now else u.gq.clear }) := by
        rw [hu]
        refine congrArg Host.Outcome.next (if_neg ?_)
        rintro (h | h | h)
        · exact hmode h
        · exact Nat.not_lt.2 hdue h
        · rw [hbus.2 hfree] at h
          exact absurd h (by decide)
      refine ⟨_, hexec, fun c hc => ?_, ?_, fun hfound => ⟨fun k hk => ?_⟩, ?_⟩
      · rw [rd_setGq, hu]
        exact probes_bit found s.busIdle 4 c hc
      · rw [gq_setGq, hgq, hnow]
        simp only [Bool.or_eq_true, decide_eq_true_eq]
        rfl
      · rw [rd_setGq, hu, hfound]
        exact (probes_clear s.busIdle 4).rd k hk
      · have hidle : Keep [.od, .host, .falt, .gq] s s.busIdle := (Keep.rfl' s).upd rfl rfl rfl rfl
        exact (hidle.trans (hku.mono (within_of (by decide)))).upd rfl rfl rfl rfl
  case recovery =>
    intro hmode hnow hclear
    refine ⟨_, congrArg Host.Outcome.next (if_neg ?_), rd_wr_same .., ⟨fun k hk => rd_wr_ne _ (List.ne_of_not_mem_cons hk) _⟩,
      (Keep.rfl' s).wr _ _⟩
    rintro (h | h | h)
    · exact hmode h
    · exact h hnow
    · exact Nat.not_lt.2 hclear h
  case noRecovery => exact fun h => congrArg Host.Outcome.next (if_pos h)
  case tx =>
    intro m s hm hsent hsys
    refine ⟨fun hmode tx => ?mute, fun hmode hbusy tx => mailboxTx_busy tx hm hsent hsys hmode hbusy,
      fun hmode hfree => ⟨?sent, ?collision, fun c => ?line⟩⟩
    case mute =>
      obtain ⟨hstate, hfail, hgq, hrest, hkeep⟩ := mailFailed_facts s GqmFail.lineFault
      refine ⟨s.mailFailed GqmFail.lineFault, ?_, hstate, hfail, hgq, ⟨fun k hk => ?_⟩, hkeep⟩
      · have hmute : s.gqMute = true := decide_eq_true hmode
        show Host.Outcome.next _ = _
        simp only [hm, hsent, hsys, hmute]
        rfl
      · simp only [List.mem_cons, List.not_mem_nil, or_false, not_or] at hk
        exact hrest k hk.1 hk.2
    case sent =>
      have hexec := mailboxTx_free .sent hm hsent hsys hmode hfree
      dsimp only at hexec
      obtain ⟨hcount, hrest, hgq, hkeep⟩ := gqSent_facts s.busIdle m.body
      have hkeep' : Keep [.od, .odb, .gq] s (s.busIdle.gqSent m.body) :=
        (show Keep [.od, .odb, .gq] s s.busIdle from (Keep.rfl' s).upd rfl rfl rfl rfl).trans (hkeep.mono (within_of (by decide)))
      by_cases hcast : (m.body.getD 0 0#8).toNat % 32 = 0
      · rw [if_pos hcast] at hexec
        obtain ⟨hstate, hreply, hother, hdone, hkd⟩ := mailDone_facts (s.busIdle.gqSent m.body) []
        refine ⟨_, hexec, ?_, ?_, ?_, ?_, hkeep'.trans hkd⟩
        · rw [hother _ (by decide)]; exact hcount
        · rw [hdone, hgq]; rfl
        · rw [hdone, hgq]; rfl
        · rw [if_pos hcast]
          exact ⟨by rw [hdone], by rw [hdone], hstate, hreply⟩
      · rw [if_neg hcast] at hexec
        refine ⟨_, hexec, hcount, rfl, rfl, ?_, ?_⟩
        · rw [if_neg hcast]
          exact ⟨rfl, rfl, hrest _ (by decide)⟩
        · exact (hkeep'.upd rfl rfl rfl rfl : Keep _ s ((s.busIdle.gqSent m.body).setGq _)).upd rfl rfl rfl rfl
    case collision =>
      have hexec := mailboxTx_free .collision hm hsent hsys hmode hfree
      dsimp only at hexec
      obtain ⟨hcount, hrest, hkc⟩ := gqCount_facts s.busIdle OD.COLLISIONS (by decide) (by decide)
      obtain ⟨htries, hother, hkr⟩ := mailRetry_facts (s.busIdle.gqCount OD.COLLISIONS) { m with tries := m.tries + 1 } GqmFail.collision
      refine ⟨_, hexec, ?_, ?_, ?_⟩
      · rw [hother _ (by decide) (by decide)]; exact hcount
      · by_cases h : m.tries < 2
        · rw [if_pos (show m.tries + 1 < 3 by omega)] at htries
          rw [if_pos h]
          exact ⟨by rw [htries.1, ← hsent], by rw [htries.2]; exact hrest _ (by decide) (by decide) (by decide)⟩
        · rw [if_neg (show ¬m.tries + 1 < 3 by omega)] at htries
          rw [if_neg h]
          exact ⟨by rw [htries.1], htries.2.1, htries.2.2⟩
      · exact (show Keep [.od, .host, .falt, .gq] s s.busIdle from (Keep.rfl' s).upd rfl rfl rfl rfl).trans
          ((hkc.mono (within_of (by decide))).trans (hkr.mono (within_of (by decide))))
    case line =>
      have hexec := mailboxTx_free (.lineFault c) hm hsent hsys hmode hfree
      dsimp only at hexec
      obtain ⟨hlisten, -, -, hkl⟩ := lineFault_facts s.busIdle c
      obtain ⟨hstate, hfail, hgq, hrest, hkf⟩ := mailFailed_facts (s.busIdle.lineFault c) GqmFail.lineFault
      refine ⟨_, hexec, ?_, hstate, hfail, by rw [hgq], ?_⟩
      · rw [hrest _ (by decide) (by decide)]; exact hlisten
      · exact (show Keep [.od, .host, .falt, .gq] s s.busIdle from (Keep.rfl' s).upd rfl rfl rfl rfl).trans
          (hkl.trans (hkf.mono (within_of (by decide))))
  case noTx =>
    intro s h tx
    show Host.Outcome.next _ = _
    obtain h | ⟨m, hm, hsent⟩ | h := h
    · simp only [h]
    · simp only [hm, hsent, true_or, if_true]
    · simp only [h, Bool.not_false, or_true, if_true]
      cases s.gq.mail <;> rfl
  case timeout =>
    intro m at_ s hm hsent
    refine ⟨fun h => ?_, fun h => ?_⟩
    · show Host.Outcome.next _ = _
      simp only [hm, hsent]
      rw [if_pos h]
    · obtain ⟨hcount, hrest, hkc⟩ := gqCount_facts s OD.TIMEOUTS (by decide) (by decide)
      obtain ⟨htries, hother, hkr⟩ := mailRetry_facts (s.gqCount OD.TIMEOUTS) m GqmFail.timeout
      refine ⟨(s.gqCount OD.TIMEOUTS).mailRetry m GqmFail.timeout, ?_, ?_, ?_, ?_⟩
      · show Host.Outcome.next _ = _
        simp only [hm, hsent]
        rw [if_neg (Nat.not_lt.2 h)]
      · rw [hother _ (by decide) (by decide)]; exact hcount
      · by_cases hlast : m.tries < 3
        · rw [if_pos hlast] at htries ⊢
          exact ⟨by rw [htries.1], by rw [htries.2]; exact hrest _ (by decide) (by decide) (by decide)⟩
        · rw [if_neg hlast] at htries ⊢
          exact ⟨by rw [htries.1], htries.2.1, htries.2.2⟩
      · exact (hkc.mono (within_of (by decide))).trans (hkr.mono (within_of (by decide)))

end Sys2Proof.Machine
end

section
/-!
GQ telegrams (R808, R811, R815, R822, R823, R826 to R831, R835 to R838, R841, R842). Settles O54.
-/

set_option Elab.async false

namespace Sys2Proof.Machine

/-! ### Reception -/

/-- What reception leaves of a telegram that R815 discards, and of one that it takes. -/
theorem gqReceive_counts (s : State) (g : Telegram) :
    (g.ok = false → (s.gqReceive g).rd OD.RX_DISCARDS = min (s.rd OD.RX_DISCARDS + 1) 0xFFFFFFFF ∧
      (s.gqReceive g).rd OD.RX_TELEGRAMS = s.rd OD.RX_TELEGRAMS) ∧
    (g.ok = true → (s.gqReceive g).rd OD.RX_TELEGRAMS = min (s.rd OD.RX_TELEGRAMS + 1) 0xFFFFFFFF ∧
      (s.gqReceive g).rd OD.RX_DISCARDS = s.rd OD.RX_DISCARDS ∧
      (s.gqReceive g).rd OD.ADDR_CLASHES =
        if gqNode ≠ 0 ∧ g.src = gqNode then min (s.rd OD.ADDR_CLASHES + 1) 0xFFFFFFFF else s.rd OD.ADDR_CLASHES) := by
  have hidle (k : Nat) : s.busIdle.rd k = s.rd k := rfl
  unfold State.gqReceive
  constructor
  · intro hbad
    obtain ⟨hcount, hrest, -⟩ := gqCount_facts s.busIdle OD.RX_DISCARDS (by decide) (by decide)
    rw [if_pos (by rw [hbad]; rfl)]
    exact ⟨hcount, hrest _ (by decide) (by decide) (by decide)⟩
  · intro hok
    rw [if_neg (by rw [hok]; decide)]
    dsimp only
    split
    · refine ⟨?_, ?_, ?_⟩
      · rw [record_rd _ _ _ _ _ _ _ (by decide) (by decide), rd_bump_ne _ (by decide), rd_bump_same, hidle]
      · rw [record_rd _ _ _ _ _ _ _ (by decide) (by decide), rd_bump_ne _ (by decide), rd_bump_ne _ (by decide), hidle]
      · rw [record_rd _ _ _ _ _ _ _ (by decide) (by decide), rd_bump_same, rd_bump_ne _ (by decide), hidle]
    · exact ⟨rd_bump_same _ _, rd_bump_ne _ (by decide), rd_bump_ne _ (by decide)⟩

/-- A telegram's reception ends the bus's traffic and changes nothing else of the GQ unit's record. -/
theorem gqReceive_gq (s : State) (g : Telegram) : (s.gqReceive g).gq = { s.gq with idleAt := s.clk.now } := by
  unfold State.gqReceive
  split
  · exact (gqCount_facts s.busIdle OD.RX_DISCARDS (by decide) (by decide)).2.2.part .gq
  · dsimp only
    split
    · exact (record_keep _ _ _ _ _ _ _ (bump_keep _ _ (bump_keep _ _ (Keep.rfl' s.busIdle))) (fs := [.od, .host, .falt])).part .gq
    · rfl

theorem gqReceive_clk (s : State) (g : Telegram) : (s.gqReceive g).clk = s.clk := (gqReceive_facts s g).2.2.part .clk

/-- The mailbox waits for a response after a reception as it did before. -/
theorem gqReceive_waits (s : State) (g : Telegram) (n : Nat) : (s.gqReceive g).endWindow.mailWaits n = s.mailWaits n := by
  unfold State.mailWaits State.endWindow State.setGq
  dsimp only
  rw [gqReceive_gq, gqReceive_clk]

/-! ### Ticks -/

/-- The waiting tick telegram goes out when the bus has been free for it. -/
theorem tickFree_iff (s : State) (g : GqTick) : ¬(s.clk.now < g.edge + 16 ∨ (!s.busFree 26 s.clk.now) = true) ↔
    (g.edge + 16 ≤ s.clk.now ∧ s.gq.idleAt + 26 ≤ s.clk.now ∧ s.gq.window ≤ s.clk.now) := by
  unfold State.busFree
  rw [not_or, Nat.not_lt, Bool.not_eq_true, Bool.not_eq_false', Bool.and_eq_true, decide_eq_true_eq, decide_eq_true_eq]

/-! ### Answers -/

/-- A replay entry is matched by its sequence and its check. -/
theorem gqReplay_some {s : State} {g : Telegram} {e : GqEntry} (hentry : Sparse.get (fun _ => none) s.gq.cache g.src = some e)
    (hseq : e.seq = g.seq) (hcrc : e.crc = g.crc) : s.gqReplay g = some e := by
  unfold State.gqReplay
  rw [hentry]
  exact if_pos ⟨hseq, hcrc⟩

theorem gqReplay_none {s : State} {g : Telegram} (hentry : Sparse.get (fun _ => none) s.gq.cache g.src = none) :
    s.gqReplay g = none := by
  unfold State.gqReplay
  rw [hentry]

/-- Settles O54: each row is one of reception's two outcomes, followed by what its own conditions say. -/
theorem gqTelegramsAreExchanged : Obligations.GqTelegramsAreExchanged := by
  refine ⟨fun g s => ?receive, fun g s => ?response, fun g s => ?tick, fun g s hemit hmode => ?send, fun g tx s => ?request,
    fun g tx s => ?unicast, fun g body s hmode => ?answer, fun g body tx s hmode => if_pos (decide_eq_true hmode)⟩
  case receive =>
    obtain ⟨hbad, hok⟩ := gqReceive_counts s g
    exact ⟨hbad, hok, gqReceive_gq s g, (gqReceive_facts s g).2.2⟩
  case response =>
    intro u
    have hu : u = (s.gqReceive g).endWindow := rfl
    have hwaits : u.mailWaits g.times = s.mailWaits g.times := gqReceive_waits s g g.times
    clear_value u
    refine ⟨?window, fun hbad hnone => ?stray, fun m hbad hm => ?bad, fun hok hty => ?good⟩
    case window =>
      rw [hu]
      show min (s.gqReceive g).gq.window (s.gqReceive g).clk.now = _
      rw [gqReceive_gq, gqReceive_clk]
    case stray =>
      show Host.Outcome.next _ = _
      dsimp only
      rw [← hu, if_pos (by rw [hbad]; rfl), hwaits, hnone]
    case bad =>
      obtain ⟨hcount, hrest, hkc⟩ := gqCount_facts u OD.TIMEOUTS (by decide) (by decide)
      obtain ⟨htries, hother, hkr⟩ := mailRetry_facts (u.gqCount OD.TIMEOUTS) m GqmFail.rxError
      refine ⟨(u.gqCount OD.TIMEOUTS).mailRetry m GqmFail.rxError, ?_, ?_, ?_, ?_⟩
      · show Host.Outcome.next _ = _
        dsimp only
        rw [← hu, if_pos (by rw [hbad]; rfl), hwaits, hm]
      · rw [hother _ (by decide) (by decide)]
        exact hcount
      · rw [show (u.gqCount OD.TIMEOUTS).gq = u.gq from hkc.part .gq] at htries
        split
        · next h =>
          rw [if_pos h] at htries
          exact htries.1
        · next h =>
          rw [if_neg h] at htries
          exact htries
      · exact (hkc.mono (within_of (by decide))).trans (hkr.mono (within_of (by decide)))
    case good =>
      have hexec : exec (.gqResponseRx g) s = .next (if g.ty ≠ 1 ∨ g.dest ≠ gqNode then u
          else match u.mailWaits g.times with
            | some m =>
              if g.seq = (m.body.getD 2 0#8).toNat ∧ g.src = (m.body.getD 0 0#8).toNat % 32 then u.mailDone g.body
              else u.bump OD.STRAY_RESPONSES
            | none => u.bump OD.STRAY_RESPONSES) := by
        rw [hu]
        exact congrArg Host.Outcome.next (if_neg (by rw [hok]; decide))
      refine ⟨_, hexec, ?_⟩
      by_cases hdest : g.dest = gqNode
      · rw [if_neg (not_not.2 hdest), if_neg (by rintro (h | h); exacts [h hty, h hdest]), hwaits]
        cases s.mailWaits g.times with
        | none => rfl
        | some m =>
          dsimp only
          by_cases hmine : g.seq = (m.body.getD 2 0#8).toNat ∧ g.src = (m.body.getD 0 0#8).toNat % 32
          · obtain ⟨hstate, hreply, -, hgq, hkeep⟩ := mailDone_facts u g.body
            rw [if_pos hmine, if_pos hmine]
            exact ⟨hstate, hreply, hgq, hkeep⟩
          · rw [if_neg hmine, if_neg hmine]
      · rw [if_pos hdest, if_pos (.inr hdest)]
  case tick =>
    intro u
    have hu : u = s.gqReceive g := rfl
    obtain ⟨-, hrd, -⟩ := gqReceive_facts s g
    have hpowered : u.powered 1 = s.powered 1 :=
      powered_of (hrd _ (by decide) (by decide) (by decide) (by decide) (by decide)) 1
    have hemit : u.flag OD.TELEGRAM_EMIT = s.flag OD.TELEGRAM_EMIT := by
      unfold State.flag
      rw [hrd _ (by decide) (by decide) (by decide) (by decide) (by decide)]
    have hsource : u.rd OD.TICK_SOURCE = s.rd OD.TICK_SOURCE :=
      hrd _ (by decide) (by decide) (by decide) (by decide) (by decide)
    have hclk : u.clk = s.clk := gqReceive_clk s g
    have hexec : exec (.tickTelegramRx g) s = .next (
        if (!g.ok) = true ∨ g.ty ≠ 2 ∨ (!u.powered 1) = true then u
        else if u.flag OD.TELEGRAM_EMIT then u.bump OD.TICK_CONFLICTS
        else if u.rd OD.TICK_SOURCE ≠ 2 then u
        else ((u.wr OD.TICK_RX_FLAGS (fieldAt g.body 4 1 % 2)).wr OD.TICK_RX_DELAY (fieldAt g.body 5 2)).setGq
          { u.gq with point := some ⟨u.clk.now + 800 - fieldAt g.body 5 2 - 138, fieldAt g.body 0 4, bit (fieldAt g.body 4 1) 0⟩ }) := rfl
    clear_value u
    rw [hpowered, hemit, hsource, hclk] at hexec
    refine ⟨fun h => ?_, fun hok hty hon hconflict => ?_, fun hok hty hon hquiet hsrc => ?_⟩
    · rw [hexec, if_pos (by rw [Bool.not_eq_true', Bool.not_eq_true']; exact h)]
    · rw [hexec, hok, hon, hty, hconflict]
      rfl
    · rw [hok, hon, hty, hquiet, hsrc] at hexec
      refine ⟨_, hexec, ?_, ?_, rfl, ⟨fun k hk => ?_⟩, (((Keep.rfl' u).wr _ _).wr _ _ : Keep [.od, .gq] u _).upd rfl rfl rfl rfl⟩
      · show ((u.wr OD.TICK_RX_FLAGS _).wr OD.TICK_RX_DELAY _).rd _ = _
        rw [rd_wr_ne _ (by decide), rd_wr_same]
      · exact rd_wr_same ..
      · simp only [List.mem_cons, List.not_mem_nil, or_false, not_or] at hk
        show ((u.wr OD.TICK_RX_FLAGS _).wr OD.TICK_RX_DELAY _).rd _ = _
        rw [rd_wr_ne _ hk.2, rd_wr_ne _ hk.1]
  case send =>
    have hmute : s.gqMute = false := decide_eq_false hmode
    have hunsent : s.tickUnsent = (s.bump OD.TICKS_UNSENT).setGq { s.gq with emit := none } := rfl
    refine ⟨fun hnode tx => ⟨s.tickUnsent, ?_, rfl, rd_bump_same s _, rd_bump_ne s (by decide), tickUnsent_keep s (Keep.rfl' s)⟩,
      fun hnode hwait tx => ?wait, fun hnode hfree hlate hsys => ?sent, fun hearly => ?early, fun hlate => ?late⟩
    · show Host.Outcome.next _ = _
      simp only [hemit]
      rw [if_pos (.inl hnode)]
    case wait =>
      show Host.Outcome.next _ = _
      simp only [hemit]
      rw [if_neg (by rw [hmute]; rintro (h | h); exacts [hnode h, absurd h (by decide)]), if_pos]
      obtain h | h := hwait
      · exact .inr (.inr (not_not.1 fun hn => h ((tickFree_iff s g).1 hn)))
      · exact .inr (.inl (by rw [h]; rfl))
    case sent =>
      have hexec : exec (.tickTelegramTx .sent) s = .next ((((s.setGq { s.gq with idleAt := s.clk.now + 138 }).gqSent
          (gqHeader 2 0 0 8 ++ tickBody g (s.clk.now - g.edge))).bump OD.TICKS_SENT).setGq
          { (((s.setGq { s.gq with idleAt := s.clk.now + 138 }).gqSent
            (gqHeader 2 0 0 8 ++ tickBody g (s.clk.now - g.edge))).bump OD.TICKS_SENT).gq with emit := none }) := by
        show Host.Outcome.next _ = _
        simp only [hemit]
        rw [if_neg (by rw [hmute]; rintro (h | h); exacts [hnode h, absurd h (by decide)]), if_neg]
        · rfl
        · rintro (h | h | h)
          · exact Nat.not_lt.2 hlate h
          · rw [hsys] at h
            exact absurd h (by decide)
          · exact (tickFree_iff s g).2 hfree h
      obtain ⟨htx, hrest, hgq, hkeep⟩ := gqSent_facts (s.setGq { s.gq with idleAt := s.clk.now + 138 })
        (gqHeader 2 0 0 8 ++ tickBody g (s.clk.now - g.edge))
      refine ⟨_, hexec, ?_, ?_, ?_, rfl, rfl, ?_⟩
      · have hidle : Keep [.od, .gq] s (s.setGq { s.gq with idleAt := s.clk.now + 138 }) := (Keep.rfl' s).upd rfl rfl rfl rfl
        exact (bump_keep _ _ (hidle.trans hkeep)).upd rfl rfl rfl rfl
      · rw [rd_setGq, rd_bump_same, hrest _ (by decide), rd_setGq]
      · rw [rd_setGq, rd_bump_ne _ (by decide), htx, rd_setGq]
      · show withCrc (gqHeader 2 0 0 8 ++ tickBody g (s.clk.now - g.edge)) = _
        unfold tickBody
        simp only [List.append_assoc]
    case early =>
      show Host.Outcome.next _ = _
      simp only [hemit, hmute, Bool.false_eq_true, or_false, Nat.not_lt.2 hearly, false_or, ← hunsent]
    case late =>
      show Host.Outcome.next _ = _
      simp only [hemit]
      rw [if_pos (.inl hlate)]
      rfl
  case request =>
    refine ⟨fun hoff => congrArg Host.Outcome.next (if_pos (by rw [hoff]; rfl)), fun hon hother => ?_, fun hon hok hty => ?_⟩
    · refine congrArg Host.Outcome.next ((if_neg (by rw [hon]; decide)).trans (if_pos ?_))
      rw [Bool.not_eq_true']
      exact hother
    · intro u
      refine congrArg Host.Outcome.next ((if_neg (by rw [hon]; decide)).trans ((if_neg ?_).trans ?_))
      · rw [hok]
        rintro (h | h)
        · exact absurd h (by decide)
        · exact h hty
      · dsimp only
        by_cases hcast : g.dest = 0
        · rw [if_pos hcast, if_pos hcast, if_pos hcast]
        · rw [if_neg hcast, if_neg hcast, if_neg hcast]
  case unicast =>
    refine ⟨fun h => if_pos ?_, fun e hreset hsys hentry hseq hcrc => ?_, fun r v hreset hsys hentry hserve => ?_⟩
    · rw [Bool.not_eq_true']
      exact h
    · unfold State.gqUnicast
      rw [if_neg (by rw [hsys]; rintro (h | h); exacts [h hreset, absurd h (by decide)]), gqReplay_some hentry hseq hcrc]
    · unfold State.gqUnicast State.gqServe
      rw [if_neg (by rw [hsys]; rintro (h | h); exacts [h hreset, absurd h (by decide)]), gqReplay_none hentry, hserve]
      rfl
  case answer =>
    intro t
    obtain ⟨htx, hrest, hgq, hkeep⟩ := gqSent_facts s (gqHeader 1 g.src g.seq body.length ++ body)
    obtain ⟨u, hu⟩ : ∃ u, u = s.gqSent (gqHeader 1 g.src g.seq body.length ++ body) := ⟨_, rfl⟩
    have ht : t = u.setGq { u.gq with
        cache := Sparse.put (fun _ => none) u.gq.cache g.src (some ⟨g.seq, g.crc, body⟩)
        idleAt := u.clk.now + 90 + 8 * body.length, window := u.clk.now } := by
      rw [hu]
      exact if_neg (by rw [show s.gqMute = false from decide_eq_false hmode]; decide)
    have hclk : u.clk = s.clk := by
      rw [hu]
      exact hkeep.part .clk
    clear_value t
    rw [← hu] at htx hrest hgq hkeep
    rw [ht, gq_setGq, hgq, hclk]
    dsimp only
    exact ⟨rfl, Sparse.get_put_same (d := fun _ => none) s.gq.cache _ _,
      fun a ha => Sparse.get_put_ne (d := fun _ => none) s.gq.cache ha _, rfl, rfl, htx,
      ⟨fun k hk => hrest k (List.ne_of_not_mem_cons hk)⟩, hkeep.upd rfl rfl rfl rfl⟩

end Sys2Proof.Machine
end

section
/-!
Boot and the persist store (R902 to R905, R908 to R911, R924, R926): D0's power-up finds again whether the off-module flash meets R993,
where O55 keeps the boot record whole.
-/

set_option Elab.async false

namespace Sys2Proof.Machine

/-- VAON comes to a board whose off-module flash answers differently from the last time. -/
def flashSwapped : State :=
  { State.reset with pow := { vaon := false }, boot := { offUsable := !offUsable Config.offFlash } }

/-- Once VAON is valid, what is known of the off-module flash is what it answers now. -/
theorem vaonValid_offUsable {s t : State} (hoff : s.pow.vaon = false) (h : exec .vaonValid s = .next t) :
    t.boot.offUsable = offUsable Config.offFlash := by
  obtain ⟨u, hu⟩ : ∃ u, u = (s.setPow { s.pow with vaon := true }).setBoot
      { (s.setPow { s.pow with vaon := true }).boot with offUsable := offUsable Config.offFlash } := ⟨_, rfl⟩
  have hexec : exec .vaonValid s = .next u.persistLoad.powerUp := by
    rw [hu]
    exact congrArg Host.Outcome.next (if_neg (by rw [hoff]; decide))
  have hboot : u.persistLoad.powerUp.boot = u.boot :=
    (powerUp_keep _ (persistLoad_keep u (Keep.rfl' u)) (fs := [.od, .odb, .host, .falt, .pow])).part .boot
  rw [← Host.Outcome.next.inj (hexec.symm.trans h), hboot, hu]
  rfl

/-- Refutes O55: VAON_VALID sets in the boot record whether the off-module flash is usable (R993), so the record is not as it was where
the board's flash answers otherwise than the record says. -/
theorem not_firmwareBootsAndPersists : ¬ Obligations.FirmwareBootsAndPersists := by
  rintro ⟨-, -, -, -, -, hvaon⟩
  obtain ⟨t, hexec, -, hboot, -⟩ := (hvaon flashSwapped).2 rfl
  have hfound := vaonValid_offUsable rfl hexec
  rw [hboot] at hfound
  exact Bool.not_ne_self _ hfound

end Sys2Proof.Machine
end

section
/-!
Flash orders, fuse burns, the calendar's second and the loss of VAON (R891, R899 to R901, R912, R914, R924, R925, R986). Settles O56.
-/

set_option Elab.async false

namespace Sys2Proof.Machine

/-! ### Flash -/

/-- What a finished flash order leaves in the flash. -/
def FlashOp.run (x : FlashOp) (s : State) : State :=
  match x with
  | .program off bs => s.flashAnd off bs
  | .erase off => s.flashErase off (off + 65536)

theorem flashRun_boot (x : FlashOp) (s : State) : ∃ f o, (x.run s).boot = { s.boot with flash := f, offFlash := o } := by
  cases x with
  | program off bs => exact flashAnd_boot bs s off
  | erase off => exact ⟨_, _, rfl⟩

theorem flashRun_rd (x : FlashOp) (s : State) (k : Nat) : (x.run s).rd k = s.rd k := by
  cases x with
  | program off bs => exact flashAnd_rd bs s off k
  | erase off => exact flashErase_rd s off (off + 65536) k

theorem flashRun_byte (x : FlashOp) (s : State) (a : Nat) : (x.run s).flashByte a = match x with
    | .program off bs => if off ≤ a ∧ a < off + bs.length then s.flashByte a &&& bs.getD (a - off) 0#8 else s.flashByte a
    | .erase off => if off ≤ a ∧ a < off + 65536 then 0xFF#8 else s.flashByte a := by
  cases x with
  | program off bs => exact flashAnd_byte bs s off a
  | erase off => exact flashErase_byte s off (off + 65536) a

/-- A key slot's fuses are stored, and no other slot's. -/
theorem setKeySlot_slot (s : State) (k : Nat) (x : KeySlot) :
    (s.setKeySlot k x).keySlot k = x ∧ ∀ j, j ≠ k → (s.setKeySlot k x).keySlot j = s.keySlot j :=
  ⟨Sparse.get_put_same (d := fun _ => ({} : KeySlot)) s.boot.keys k x,
    fun _ hj => Sparse.get_put_ne (d := fun _ => ({} : KeySlot)) s.boot.keys hj x⟩

/-! ### The loss of VAON -/

/-- What is cut off with VAON leaves its traces in the AON stores alone. -/
theorem cutOff_keep (s : State) : Keep [.boot] s s.cutBurn.cutFlash :=
  cutFlash_keep _ (cutBurn_keep s (Keep.rfl' s))

/-- Settles O56: the bytes, fuses and objects by the law of each operation, the rest by what each leaves of the boot record. -/
theorem flashFusesAndTheCalendar : Obligations.FlashFusesAndTheCalendar := by
  refine ⟨fun s => ⟨?noFlash, ?flash⟩, fun s => ⟨?noBurn, ?life, ?floor, ?key⟩, fun s => ⟨?noSecond, ?second⟩, fun s => ?loss⟩
  case noFlash =>
    intro h
    show Host.Outcome.next _ = _
    simp only [h]
  case flash =>
    intro x hop
    obtain ⟨f, o, hboot⟩ := flashRun_boot x s
    have hexec : exec .flashOpDone s = .next (((x.run s).wr OD.FLASH_STATE 0).setBoot { ((x.run s).wr OD.FLASH_STATE 0).boot with op := none }) := by
      show Host.Outcome.next _ = _
      simp only [hop]
      rfl
    obtain ⟨t, hexec', hkeep⟩ := execFlashOpDone_keep s
    have ht := Host.Outcome.next.inj (hexec'.symm.trans hexec)
    rw [ht] at hkeep
    refine ⟨_, hexec, rd_wr_same (x.run s) OD.FLASH_STATE 0, rfl, fun a => flashRun_byte x s a, ?_, ⟨fun k hk => ?_⟩, hkeep⟩
    · show ({ (x.run s).boot with op := none } : Boot) = { s.boot with op := none, flash := (x.run s).boot.flash, offFlash := (x.run s).boot.offFlash }
      rw [hboot]
    · rw [setBoot_rd, rd_wr_ne _ (List.ne_of_not_mem_cons hk), flashRun_rd]
  case noBurn =>
    intro h
    show Host.Outcome.next _ = _
    simp only [h]
  case life =>
    intro old h
    show Host.Outcome.next _ = _
    simp only [h]
  case floor =>
    intro v h
    show Host.Outcome.next _ = _
    simp only [h]
    rfl
  case key =>
    intro k x hburn
    have hexec : exec .fuseBurnDone s = .next ((s.setBoot { s.boot with burn := none }).setKeySlot k x) := by
      show Host.Outcome.next _ = _
      obtain ⟨usage, point, h, hx⟩ | ⟨h, hx⟩ := hburn
      · simp only [h, hx]
      · simp only [h, hx]
        rfl
    obtain ⟨hsame, hother⟩ := setKeySlot_slot (s.setBoot { s.boot with burn := none }) k x
    exact ⟨_, hexec, hsame, hother, rfl, (Keep.rfl' s).upd rfl rfl rfl rfl⟩
  case noSecond =>
    intro h
    refine congrArg Host.Outcome.next (if_pos ?_)
    rw [Bool.not_eq_true']
    exact h
  case second =>
    intro hon hdue
    obtain ⟨u, hu⟩ : ∃ u, u = s.setBoot { s.boot with
        secStart := s.boot.secStart + s.boot.secLen, group := (s.boot.group + 1) % 32,
        secLen := if (s.boot.group + 1) % 32 = 0 then s.trimmedSecond else 32768 } := ⟨_, rfl⟩
    have hexec : exec .calendarSecond s = .next u.nextSecond.alarmCheck := by
      rw [hu]
      refine congrArg Host.Outcome.next (if_neg ?_)
      rw [hon]
      rintro (h | h)
      · exact absurd h (by decide)
      · exact Nat.not_lt.2 hdue h
    have hu_rd (k : Nat) : u.rd k = s.rd k := by
      rw [hu]
      rfl
    obtain ⟨hnow, hstop, hrest⟩ := nextSecond_facts u
    obtain ⟨hcal, hbit, hfires, hquiet, -⟩ := alarmCheck_facts u.nextSecond
    have hnext : Keep [.od] u u.nextSecond := nextSecond_keep u (Keep.rfl' u)
    have hcheck : Keep [.od, .host, .pow] u.nextSecond u.nextSecond.alarmCheck := alarmCheck_keep _ (Keep.rfl' _)
    simp only [hu_rd] at hnow hstop hrest
    have hflag : u.nextSecond.flag OD.ALARM_ENABLE = s.flag OD.ALARM_ENABLE := by
      unfold State.flag
      rw [hrest _ (by decide) (by decide)]
    have halarm : u.nextSecond.rd OD.CAL_ALARM = s.rd OD.CAL_ALARM := hrest _ (by decide) (by decide)
    have hwakes : u.nextSecond.rd OD.POWR_WAKE_ENABLE = s.rd OD.POWR_WAKE_ENABLE := hrest _ (by decide) (by decide)
    rw [hflag, halarm, hwakes] at hfires
    rw [hflag, halarm] at hquiet
    have hboot : u.nextSecond.alarmCheck.boot = u.boot := (hcheck.part .boot).trans (hnext.part .boot)
    refine ⟨_, hexec, ?_, hcal.trans hnow, fun hruns hend => hbit.trans (hstop hruns hend), ?_, ?_⟩
    · rw [hboot, hu]
      rfl
    · rw [hcal]
      split
      · next h => exact hfires h.1 h.2
      · next h =>
        rw [hquiet h]
        refine ⟨⟨fun k hk => ?_⟩, ?_, ?_⟩
        · simp only [List.mem_cons, List.not_mem_nil, or_false, not_or] at hk
          exact hrest k hk.1 hk.2
        · rw [show u.nextSecond.pow = u.pow from hnext.part .pow, hu]
          rfl
        · rw [show u.nextSecond.host = u.host from hnext.part .host, hu]
          rfl
    · have hku : Keep [.od, .host, .pow, .boot] s u := by
        rw [hu]
        exact (Keep.rfl' s).upd rfl rfl rfl rfl
      exact (hku.trans (hnext.mono (within_of (by decide)))).trans (hcheck.mono (within_of (by decide)))
  case loss =>
    obtain ⟨hnone, hlife, hfloor, hrevoke, hkey, hop, hflash, hoff⟩ := cutBurn_facts s
    obtain ⟨clife, cfloor, ckeys, cnone⟩ := cutFlash_facts s.cutBurn
    have hkeep := cutOff_keep s
    have hpow : s.cutBurn.cutFlash.pow = s.pow := hkeep.part .pow
    have hhost : s.cutBurn.cutFlash.host = s.host := hkeep.part .host
    have hclk : s.cutBurn.cutFlash.clk = s.clk := hkeep.part .clk
    refine ⟨_, rfl, rfl, ?_, rfl, rfl, rfl, rfl, rfl, rfl, rfl, rfl, rfl, ?_, ?_, ?_, rfl, rfl, rfl, fun h => ⟨?_, ?_, ?_⟩, fun old h => ?_, fun f h => ?_, fun k h => ?_, fun k usage point h => ?_,
      fun h => ⟨?_, ?_⟩⟩
    · show s.cutBurn.cutFlash.pow.vin = _
      rw [hpow]
    · show s.cutBurn.cutFlash.host.mem = _
      rw [hhost]
    · exact hkeep.pending
    · show s.cutBurn.cutFlash.clk.now = _
      rw [hclk]
    · exact clife.trans (by rw [hnone h])
    · exact cfloor.trans (by rw [hnone h])
    · exact ckeys.trans (by rw [hnone h])
    · exact (hlife old h).imp clife.trans clife.trans
    · exact (hfloor f h).imp cfloor.trans cfloor.trans
    · have hslot : Sparse.get (fun _ => {}) s.cutBurn.cutFlash.boot.keys k = s.cutBurn.keySlot k := by rw [ckeys]; rfl
      exact (hrevoke k h).imp hslot.trans hslot.trans
    · have hslot : Sparse.get (fun _ => {}) s.cutBurn.cutFlash.boot.keys k = s.cutBurn.keySlot k := by rw [ckeys]; rfl
      show (Sparse.get (fun _ => {}) s.cutBurn.cutFlash.boot.keys k : KeySlot).defect = true ∧
        (Sparse.get (fun _ => {}) s.cutBurn.cutFlash.boot.keys k : KeySlot).valid = false
      rw [hslot]
      exact hkey k usage point h
    · show s.cutBurn.cutFlash.boot.flash = _
      rw [cnone (hop.trans h), hflash]
    · show s.cutBurn.cutFlash.boot.offFlash = _
      rw [cnone (hop.trans h), hoff]

end Sys2Proof.Machine
end

section
/-!
The fault unit's errors (R1029): an entry of the lost-item list that has just arrived leaves the count of fresh entries with it (R1026),
where O57 keeps that count.
-/

set_option Elab.async false

namespace Sys2Proof.Machine

/-- One lost-item entry waits, and it has arrived on the present edge. -/
def freshEntry : State :=
  { State.reset with falt := { lost := [⟨1, 0, 0, 0, 0, 0, 0⟩], lostFresh := 1 } }

/-- Refutes O57: the uncorrectable error of a lost-item entry that has arrived on the present edge takes it out of the fresh entries too,
so the list is not the only part of the fault unit's record that changes. -/
theorem not_theTraceIsWrittenOut : ¬ Obligations.TheTraceIsWrittenOut := by
  rintro ⟨-, -, -, -, -, -, hentry, -⟩
  obtain ⟨t, hexec, hfalt, -⟩ := hentry 0 freshEntry (by decide)
  have hleft : exec (.faultLogEccError false (.entry 0)) freshEntry =
      .next (State.bump { freshEntry with falt := { freshEntry.falt with lost := [], lostFresh := 0 } } OD.LOST_OVERFLOW) := rfl
  have hfresh : t.falt.lostFresh = 0 := by
    rw [← Host.Outcome.next.inj (hleft.symm.trans hexec)]
    rfl
  rw [hfalt] at hfresh
  exact absurd hfresh (by decide)

end Sys2Proof.Machine
end

section
/-!
The test access port (R945 to R947, R958, R963, R1002). Settles O58.
-/

set_option Elab.async false

namespace Sys2Proof.Machine

/-! ### Instructions -/

/-- The instruction that a selection puts in force, within the session's level. -/
def State.tapFor (s : State) (x : TapInstr) : TapInstr := if x.needsFull = true ∧ s.dbgLevel < 2 then .bypass else x

/-- A selection puts its instruction in force; pins that come back from boundary scan switch. -/
theorem tapSelect_effect {s : State} (hon : s.powered 27 = true) (x : TapInstr) :
    (s.tapSelect x).dbg = { s.dbg with tap := s.tapFor x } ∧
    (if s.scanning = true ∧ (s.tapSelect x).scanning = false then
        (∀ g, g < 16 → (s.tapSelect x).pinSwitch g = some (s.clk.now, false)) ∧
        (s.tapSelect x).rd OD.PIN_SWITCHES = (if s.powered 1 then min (s.rd OD.PIN_SWITCHES + 16) 0xFFFFFFFF else s.rd OD.PIN_SWITCHES) ∧
        s.SameBut (s.tapSelect x) [OD.PIN_SWITCHES]
      else (s.tapSelect x).pins = s.pins ∧ (s.tapSelect x).od = s.od) ∧
    (s.tapSelect x).powered 27 = true ∧ Keep [.od, .dbg, .pins] s (s.tapSelect x) := by
  have hform : s.tapSelect x = s.setTap (s.tapFor x) := tapSelect_facts s x hon
  obtain ⟨hdbg, hback, hrest, hstay, hkeep⟩ := setTap_facts s (s.tapFor x)
  rw [hform]
  refine ⟨hdbg, ?_, (powered_of (hrest _ (by decide)) 27).trans hon, hkeep⟩
  split
  · next h =>
    obtain ⟨hpins, hcount⟩ := hback h.1 h.2
    exact ⟨hpins, hcount, ⟨fun k hk => hrest k (List.ne_of_not_mem_cons hk)⟩⟩
  · next h => exact hstay h

/-- Settles O58: every instruction goes through `tapSelect`, and the two ends of a session through `endSession`. -/
theorem theTestPortSelectsItsInstruction : Obligations.TheTestPortSelectsItsInstruction := by
  refine ⟨fun i x s hmem => ?select, fun pins pre s => ⟨?sampleOff, ?sample⟩, fun s => ⟨?trstOff, ?trst⟩, fun s => ⟨?lock, ?lockOff, rfl⟩⟩
  case select =>
    have hexec : exec i s = .next (s.tapSelect x) := by
      simp only [List.mem_cons, Prod.mk.injEq, List.not_mem_nil, or_false] at hmem
      obtain ⟨rfl, rfl⟩ | ⟨rfl, rfl⟩ | ⟨rfl, rfl⟩ | ⟨rfl, rfl⟩ | ⟨rfl, rfl⟩ | ⟨rfl, rfl⟩ | ⟨rfl, rfl⟩ := hmem <;> rfl
    refine ⟨fun hoff => hexec.trans (congrArg Host.Outcome.next (tapSelect_off s x hoff)), fun hon => ⟨_, hexec, ?_⟩⟩
    obtain ⟨hdbg, hpins, -, hkeep⟩ := tapSelect_effect hon x
    exact ⟨hdbg, hpins, hkeep⟩
  case sampleOff =>
    intro hoff
    show Host.Outcome.next _ = _
    dsimp only
    rw [tapSelect_off s _ hoff, hoff]
    rfl
  case sample =>
    intro hon
    obtain ⟨hdbg, -, hpowered, hkeep⟩ := tapSelect_effect hon .sample
    obtain ⟨t, hexec, hkt⟩ := execSamplePreload_keep pins pre s
    have ht := Host.Outcome.next.inj hexec
    refine ⟨t, hexec, ?_, hkt⟩
    have hinforce : (s.tapSelect .sample).dbg.tap = s.tapFor .sample := congrArg Debug.tap hdbg
    rw [← ht]
    dsimp only
    rw [hpowered, hinforce]
    by_cases hlow : s.dbgLevel < 2
    · have htap : s.tapFor .sample = .bypass := if_pos ⟨rfl, hlow⟩
      rw [htap] at hdbg ⊢
      rw [if_pos hlow, if_neg (by decide)]
      exact hdbg
    · have htap : s.tapFor .sample = .sample := if_neg fun h => hlow h.2
      rw [htap] at hdbg ⊢
      rw [if_neg hlow, if_pos (by decide)]
      dsimp only
      rw [hdbg]
  case trstOff => exact fun hoff => congrArg Host.Outcome.next (if_neg (by rw [hoff]; decide))
  case trst =>
    intro hon
    obtain ⟨hlevel, hslot, hwaits, -⟩ := endSession_facts s
    obtain ⟨hdbg, -, hrest, -, hkeep⟩ := setTap_facts s.endSession .idcode
    refine ⟨s.endSession.setTap .idcode, congrArg Host.Outcome.next (if_pos hon), by rw [hdbg], by rw [hdbg]; exact hwaits,
      (hrest _ (by decide)).trans hlevel, (hrest _ (by decide)).trans hslot, ?_⟩
    exact (endSession_keep s (Keep.rfl' s)).trans (hkeep.mono (within_of (by decide)))
  case lock =>
    intro hready
    obtain ⟨hlevel, hslot, -, htap⟩ := endSession_facts s
    have hdap : s.dbg.tap = .dap := by
      unfold State.dapReady at hready
      simp only [Bool.and_eq_true, decide_eq_true_eq] at hready
      exact hready.1.2
    have hexec : exec .dapLock s = .next (s.endSession.dapResult Dap.ok 0) := congrArg Host.Outcome.next (dapOp_ready s 0 _ hready (Nat.zero_le _))
    have htap' := (htap (by rw [hdap]; rfl)).trans hdap
    generalize s.endSession = u at hexec hlevel hslot htap'
    exact ⟨_, hexec, hlevel, hslot, htap', rfl, rfl, rfl⟩
  case lockOff => exact fun hclosed => congrArg Host.Outcome.next (dapOp_closed s 0 _ hclosed)

end Sys2Proof.Machine
end

section
/-!
The debug port's operations (R115, R443, R750, R948 to R962). Settles O59.
-/

set_option Elab.async false

namespace Sys2Proof.Machine

/-! ### Reads and writes -/

section
variable {s : State} (hready : s.dapReady = true) (hlevel : 2 ≤ s.dbgLevel)
include hready hlevel

/-- A read that the port takes, before the view that holds its address is asked. -/
theorem dapRead_taken (quiet : Bool) (size : Fin 8) (a : BitVec 48) : exec (.dapRead quiet size a) s = .next (
    if 4 ≤ size.val then s.dapResult Dap.badOp 0
    else if decide (a.toNat % 2 ^ size.val ≠ 0) && !inRegView a.toNat then s.dapResult Dap.error 0
    else s.dapReadAt quiet a.toNat (2 ^ size.val)) :=
  congrArg Host.Outcome.next (dapOp_ready s _ _ hready (by cases quiet <;> simp <;> omega))

/-- A write that the port takes. -/
theorem dapWrite_taken (size : Fin 8) (a : BitVec 48) (d : Word) : exec (.dapWrite size a d) s = .next (
    if 4 ≤ size.val then s.dapResult Dap.badOp 0
    else if decide (a.toNat % 2 ^ size.val ≠ 0) && !inRegView a.toNat then s.dapResult Dap.error 0
    else s.dapWriteAt a.toNat (2 ^ size.val) d) :=
  congrArg Host.Outcome.next (dapOp_ready s _ _ hready hlevel)

/-- An access of a size that exists goes to its view, aligned or in the register view. -/
theorem dapAccess_at (quiet : Bool) {size : Fin 8} {a : BitVec 48} (d : Word) (hsize : size.val < 4)
    (hplace : a.toNat % 2 ^ size.val = 0 ∨ inRegView a.toNat = true) :
    exec (.dapRead quiet size a) s = .next (s.dapReadAt quiet a.toNat (2 ^ size.val)) ∧
    exec (.dapWrite size a d) s = .next (s.dapWriteAt a.toNat (2 ^ size.val) d) := by
  have hgood : ¬(decide (a.toNat % 2 ^ size.val ≠ 0) && !inRegView a.toNat) = true := by
    obtain h | h := hplace
    · simp [h]
    · simp [h]
  rw [dapRead_taken hready hlevel, dapWrite_taken hready hlevel, if_neg (Nat.not_le.2 hsize), if_neg (Nat.not_le.2 hsize),
    if_neg hgood, if_neg hgood]
  exact ⟨rfl, rfl⟩

end

/-- In the register view a read is an expedited read of the object there, and a write an expedited write (R115). -/
theorem dapReadAt_register (s : State) (quiet : Bool) {a : Nat} (n : Nat) (hview : inRegView a = true) :
    ∃ r u, s.expRead .dbg (regKey a) (regLen a n) (decide (a % 16 = 8)) quiet = (r, u) ∧ s.dapReadAt quiet a n = u.dapDict r := by
  rcases hread : s.expRead .dbg (regKey a) (regLen a n) (decide (a % 16 = 8)) quiet with ⟨r, u⟩
  refine ⟨r, u, rfl, ?_⟩
  unfold State.dapReadAt
  rw [if_pos hview, hread]

theorem dapWriteAt_register (s : State) {a : Nat} (n : Nat) (d : Word) (hview : inRegView a = true) :
    ∃ r u, s.expWrite .dbg (regKey a) (regLen a n) (d.toNat % 2 ^ (8 * n)) = (r, u) ∧ s.dapWriteAt a n d = u.dapDict { r with val := 0 } := by
  rcases hwrite : s.expWrite .dbg (regKey a) (regLen a n) (d.toNat % 2 ^ (8 * n)) with ⟨r, u⟩
  refine ⟨r, u, rfl, ?_⟩
  unfold State.dapWriteAt
  rw [if_pos hview, hwrite]

/-- A clean read of memory through the port, which reads zero where the sealed set holds a byte of it. -/
theorem dapMemRead_clean {s : State} {a n : Nat} (hmem : s.isMem dbgAcc false a n) (hclean : s.clean a n) :
    ∃ b, s.dapMemRead a n = if (s.firstSealed a n).isSome then (State.bump { s with bal := b } OD.SEAL_DENIALS).dapResult Dap.sealed 0
      else State.dapResult { s with bal := b } Dap.ok (ofLe (s.memBytes a n)) := by
  obtain ⟨b, hread, -⟩ := memRead_clean dbgAcc s a n hmem hclean
  have hsealed : State.firstSealed { s with bal := b } a n = s.firstSealed a n := firstSealed_same (z := { s with bal := b }) (s := s) (fun _ => rfl) n a
  refine ⟨b, ?_⟩
  unfold State.dapMemRead
  rw [hread, ← hsealed]
  rfl

/-- A write of memory through the port stores its bytes. -/
theorem dapMemWrite_stored {s : State} {a n : Nat} (d : Nat) (hmem : s.isMem dbgAcc true a n) (hsmooth : s.smooth)
    (hmark : ∀ i, i < n → s.mark (a + i) ≠ 2) :
    ∃ u, s.Stored u a (leBytes n d) ∧ s.dapMemWrite a n d = u.dapResult Dap.ok 0 := by
  have hlength : (leBytes n d).length = n := by simp
  obtain ⟨u, hwrite, hstored, -⟩ := memWrite_free (q := dbgAcc) (a := a) (bs := leBytes n d) hsmooth fun x hlo hhi => by
    rw [hlength] at hhi
    obtain ⟨i, rfl⟩ : ∃ i, x = a + i := ⟨x - a, by omega⟩
    exact ⟨hmem i (by omega), hmark i (by omega)⟩
  refine ⟨u, hstored, ?_⟩
  unfold State.dapMemWrite
  rw [hwrite]
  rfl

/-! ### Run control -/

theorem newel_setNewel_same (s : State) (k : Nat) (x : Newel) : (s.setNewel k x).newel k = x :=
  Sparse.get_put_same (d := fun _ => ({} : Newel)) s.newels k x

/-- A trace packet of an agent's instruction changes no core and no queue. -/
theorem traceInstr_core (s : State) (a off kind n : Nat) :
    (s.traceInstr a off kind).core n = s.core n ∧ (s.traceInstr a off kind).runningOn n = s.runningOn n := by
  have hkeep := traceInstr_keep s a off kind (Keep.rfl' s)
  have hcores : (s.traceInstr a off kind).cores = s.cores := hkeep.part .cores
  have hflit : (s.traceInstr a off kind).flit = s.flit := hkeep.part .flit
  constructor
  · unfold State.core
    rw [hcores]
  · unfold State.runningOn
    rw [hflit]

theorem traceInstr_newel (s : State) (a off kind k : Nat) : (s.traceInstr a off kind).newel k = s.newel k := by
  unfold State.newel
  rw [show (s.traceInstr a off kind).newels = s.newels from (traceInstr_keep s a off kind (Keep.rfl' s)).part .newels]

/-- A halted core with nothing granted goes on from its halt. -/
theorem resumeCore_of_halted {s : State} {n : Nat} (hhalted : (s.core n).st = .halted) (hstopped : (s.core n).stopped = false)
    (hgrant : (s.core n).grant = none) :
    s.resumeCore n = (s.traceInstr n ((s.core n).pc % 0x200000) 5).setCore n { s.core n with
      st := if (s.runningOn n).isNone then .idle else if (s.core n).wasParked then .parked else .running,
      wasParked := false, stepping := false } := by
  obtain ⟨hcore, hruns⟩ := traceInstr_core s n ((s.core n).pc % 0x200000) 5 n
  obtain ⟨u, hu⟩ : ∃ u, u = s.traceInstr n ((s.core n).pc % 0x200000) 5 := ⟨_, rfl⟩
  rw [← hu] at hcore hruns ⊢
  have htake : u.takeGrant n = u := by
    unfold State.takeGrant
    rw [hcore, hgrant]
  unfold State.resumeCore State.resumeCore.alcoveOffset
  rw [if_neg (not_not.2 hhalted), ← hu]
  dsimp only
  rw [htake, hcore, hruns, hstopped]
  rfl

/-! ### Authentication -/

/-- What a granted response leaves. -/
theorem authGrant_facts {s : State} {x : AuthRun} (hauth : s.dbg.auth = some x) (hgranted : s.authGranted x = true) :
    ∃ t, exec .authVerifyDone s = .next t ∧ t.dbg.auth = none ∧ t.rd OD.DBG_LEVEL = x.level ∧ t.rd OD.DBG_KEY_SLOT = x.slot ∧
      t.rd OD.DBG_SESSIONS = min (s.rd OD.DBG_SESSIONS + 1) 0xFFFFFFFF ∧
      t.rd OD.DEBUGGED = (if x.level = 2 ∧ s.boot.life = Life.secure then 1 else s.rd OD.DEBUGGED) ∧ t.dbg.status = Dap.ok ∧
      Keep [.od, .dbg] s t := by
  obtain ⟨z, hz⟩ : ∃ z : State, z = { s with dbg := { s.dbg with auth := none } } := ⟨_, rfl⟩
  obtain ⟨u, hu⟩ : ∃ u, u = ((z.wr OD.DBG_LEVEL x.level).wr OD.DBG_KEY_SLOT x.slot).bump OD.DBG_SESSIONS := ⟨_, rfl⟩
  have hz_rd (k : Nat) : z.rd k = s.rd k := by
    rw [hz]
    rfl
  have hku : Keep [.od, .dbg] s u := by
    have hkz : Keep [.od, .dbg] s z := by
      rw [hz]
      exact (Keep.rfl' s).upd rfl rfl rfl rfl
    rw [hu]
    exact bump_keep _ _ ((hkz.wr _ _).wr _ _)
  have hlife : u.boot.life = s.boot.life := by rw [show u.boot = s.boot from hku.part .boot]
  have hdbg : u.dbg.auth = none := by
    rw [hu, hz]
    rfl
  have hlevel : u.rd OD.DBG_LEVEL = x.level := by rw [hu, rd_bump_ne _ (by decide), rd_wr_ne _ (by decide), rd_wr_same]
  have hslot : u.rd OD.DBG_KEY_SLOT = x.slot := by rw [hu, rd_bump_ne _ (by decide), rd_wr_same]
  have hsessions : u.rd OD.DBG_SESSIONS = min (s.rd OD.DBG_SESSIONS + 1) 0xFFFFFFFF := by
    rw [hu, rd_bump_same, rd_wr_ne _ (by decide), rd_wr_ne _ (by decide), hz_rd]
  have hdebugged : u.rd OD.DEBUGGED = s.rd OD.DEBUGGED := by
    rw [hu, rd_bump_ne _ (by decide), rd_wr_ne _ (by decide), rd_wr_ne _ (by decide), hz_rd]
  have hexec : exec .authVerifyDone s =
      .next ((if x.level = 2 ∧ s.boot.life = Life.secure then u.wr OD.DEBUGGED 1 else u).dapResult Dap.ok 0) := by
    show Host.Outcome.next _ = _
    simp only [hauth, hgranted]
    rw [← hlife, hu, hz]
    rfl
  refine ⟨_, hexec, ?_⟩
  split
  · simp only [dapResult_rd]
    refine ⟨hdbg, ?_, ?_, ?_, rd_wr_same .., rfl, (hku.wr _ _).upd rfl rfl rfl rfl⟩
    · rw [rd_wr_ne _ (by decide), hlevel]
    · rw [rd_wr_ne _ (by decide), hslot]
    · rw [rd_wr_ne _ (by decide), hsessions]
  · exact ⟨hdbg, hlevel, hslot, hsessions, hdebugged, rfl, hku.upd rfl rfl rfl rfl⟩

/-- Settles O59: an operation that the port takes is its own action (`dapOp_ready`), by the view, the agent or the selector it names. -/
theorem theDebugPortRunsItsOperations : Obligations.TheDebugPortRunsItsOperations := by
  refine ⟨fun quiet size a d agent sel i n s hmem => ?take, fun quiet size a d s => ?access, fun agent s => ?run, fun n s hhalted hstopped hgrant => ?resume,
    fun agent s => ?halt, fun agent sel d s => ?regs, fun i s hready => ?challenge, fun d s hready => ?respond, fun s => ?auth⟩
  case take =>
    have hexec : ∃ f, exec i s = .next (s.dapOp n f) := by
      simp only [List.mem_cons, Prod.mk.injEq, List.not_mem_nil, or_false] at hmem
      obtain ⟨rfl, rfl⟩ | ⟨rfl, rfl⟩ | ⟨rfl, rfl⟩ | ⟨rfl, rfl⟩ | ⟨rfl, rfl⟩ | ⟨rfl, rfl⟩ | ⟨rfl, rfl⟩ := hmem <;> exact ⟨_, rfl⟩
    obtain ⟨f, hexec⟩ := hexec
    exact ⟨fun hclosed => hexec.trans (congrArg _ (dapOp_closed s n f hclosed)),
      fun hready hlow => hexec.trans (congrArg _ (dapOp_denied s n f hready hlow))⟩
  case access =>
    intro n hready hlevel
    refine ⟨fun hsize => ⟨?_, ?_⟩, fun hsize halign hview => ⟨?_, ?_⟩, fun hsize hview => ⟨?_, ?_⟩, fun hsize halign => ⟨?_, ?_, ?_⟩⟩
    · rw [dapRead_taken hready hlevel, if_pos hsize]
    · rw [dapWrite_taken hready hlevel, if_pos hsize]
    · rw [dapRead_taken hready hlevel, if_neg (Nat.not_le.2 hsize), if_pos (by rw [hview, decide_eq_true halign]; rfl)]
    · rw [dapWrite_taken hready hlevel, if_neg (Nat.not_le.2 hsize), if_pos (by rw [hview, decide_eq_true halign]; rfl)]
    · obtain ⟨r, u, hread, hat⟩ := dapReadAt_register s quiet (2 ^ size.val) hview
      exact ⟨r, u, hread, (dapAccess_at hready hlevel quiet d hsize (.inr hview)).1.trans (congrArg _ hat)⟩
    · obtain ⟨r, u, hwrite, hat⟩ := dapWriteAt_register s (2 ^ size.val) d hview
      exact ⟨r, u, hwrite, (dapAccess_at hready hlevel quiet d hsize (.inr hview)).2.trans (congrArg _ hat)⟩
    · intro hview hland blocks
      obtain ⟨hread, hwrite⟩ := dapAccess_at hready hlevel quiet d hsize (.inl halign)
      have hblocks : ((!quiet && decide (n = 8) && (decide (a.toNat % 0x100 = 0x28) || decide (a.toNat % 0x100 = 0x48))) = true) ↔ blocks := by
        simp only [Bool.and_eq_true, Bool.or_eq_true, Bool.not_eq_true', decide_eq_true_eq, blocks, and_assoc]
      refine ⟨fun h => hread.trans (congrArg _ ?_), fun h => hread.trans (congrArg _ ?_), hwrite.trans (congrArg _ ?_)⟩
      · unfold State.dapReadAt
        rw [if_neg (by rw [hview]; decide), if_pos hland, if_pos (hblocks.2 h)]
      · unfold State.dapReadAt
        rw [if_neg (by rw [hview]; decide), if_pos hland, if_neg (fun hb => h (hblocks.1 hb))]
      · unfold State.dapWriteAt
        rw [if_neg (by rw [hview]; decide), if_pos hland]
    · intro hview hland hmem hclean
      obtain ⟨b, hread⟩ := dapMemRead_clean hmem hclean
      refine ⟨b, ((dapAccess_at hready hlevel quiet d hsize (.inl halign)).1.trans (congrArg _ ?_))⟩
      unfold State.dapReadAt
      rw [if_neg (by rw [hview]; decide), if_neg (by rw [hland]; decide)]
      exact hread
    · intro hview hland hmem hsmooth hmark
      obtain ⟨u, hstored, hwrite⟩ := dapMemWrite_stored d.toNat hmem hsmooth hmark
      refine ⟨u, hstored, (dapAccess_at hready hlevel quiet d hsize (.inl halign)).2.trans (congrArg _ ?_)⟩
      unfold State.dapWriteAt
      rw [if_neg (by rw [hview]; decide), if_neg (by rw [hland]; decide)]
      exact hwrite
  case run =>
    intro a hready hlevel
    have htake (f : State → State) : s.dapOp 2 f = f s := dapOp_ready s 2 f hready hlevel
    refine ⟨fun hcan i hi => ?_, fun hcan => ⟨fun h => ?_, fun h hlow => ?_, fun h hhigh => ?_, ?_, fun h => ?_, fun h hlow => ?_, fun h hhigh => ?_⟩⟩
    · have hbad : (!s.canHalt agent.val) = true := by rw [hcan]; rfl
      simp only [List.mem_cons, List.not_mem_nil, or_false] at hi
      obtain rfl | rfl | rfl := hi
      all_goals exact congrArg Host.Outcome.next ((htake _).trans (if_pos hbad))
    all_goals have hgood : ¬(!s.canHalt agent.val) = true := by rw [hcan]; decide
    · exact congrArg Host.Outcome.next ((htake _).trans ((if_neg hgood).trans (if_pos h)))
    · exact congrArg Host.Outcome.next ((htake _).trans ((if_neg hgood).trans ((if_neg (by rw [h]; decide)).trans (if_pos hlow))))
    · exact congrArg Host.Outcome.next ((htake _).trans ((if_neg hgood).trans ((if_neg (by rw [h]; decide)).trans (if_neg (Nat.not_lt.2 hhigh)))))
    · exact congrArg Host.Outcome.next ((htake _).trans (if_neg hgood))
    · exact congrArg Host.Outcome.next ((htake _).trans ((if_neg hgood).trans (if_pos (by rw [h]; rfl))))
    · exact congrArg Host.Outcome.next ((htake _).trans ((if_neg hgood).trans ((if_neg (by rw [h]; decide)).trans (if_pos hlow))))
    · exact congrArg Host.Outcome.next ((htake _).trans ((if_neg hgood).trans ((if_neg (by rw [h]; decide)).trans (if_neg (Nat.not_lt.2 hhigh)))))
  case resume =>
    have hform := resumeCore_of_halted hhalted hstopped hgrant
    refine ⟨by rw [hform, core_setCore_same], fun m hm => ?_, ?_⟩
    · rw [hform, core_setCore_ne _ hm]
      exact (traceInstr_core s n _ 5 m).1
    · unfold State.stepCore
      rw [if_neg (by rw [hstopped]; decide), if_neg (by rw [hgrant]; decide)]
      simp only [Bool.or_eq_true]
  case halt =>
    intro a
    refine ⟨fun hlow hreq hmmas => ?_, fun hlow h => ?_, fun hhigh hreq => ?_, fun hhigh hreq => ?_⟩
    · have hexec : exec (.haltTakesEffect agent) s = .next ((s.setCore a { s.core a with
          st := .halted, wasParked := decide ((s.core a).st = .parked), haltReq := false, gated := true }).traceInstr a (alcoveOff (s.core a).pc) 4) := by
        refine congrArg Host.Outcome.next ((if_pos hlow).trans (if_neg ?_))
        rw [hreq, hmmas]
        decide
      have hset : Keep [.od, .host, .trc, .cores] s (s.setCore a { s.core a with
          st := .halted, wasParked := decide ((s.core a).st = .parked), haltReq := false, gated := true }) :=
        (Keep.rfl' s).upd rfl rfl rfl rfl
      refine ⟨_, hexec, ?_, fun m hm => ?_, hset.trans (traceInstr_keep _ _ _ _ (Keep.rfl' _))⟩
      · rw [(traceInstr_core _ _ _ _ _).1, core_setCore_same]
      · rw [(traceInstr_core _ _ _ _ _).1, core_setCore_ne _ hm]
    · refine congrArg Host.Outcome.next ((if_pos hlow).trans (if_pos ?_))
      rw [Bool.or_eq_true, Bool.not_eq_true', decide_eq_true_eq]
      exact h
    · obtain ⟨u, hu⟩ : ∃ u, u = (s.newelRuns (a - 32)).setNewel (a - 32)
          { (s.newelRuns (a - 32)).newel (a - 32) with halted := true, haltReq := false } := ⟨_, rfl⟩
      have hexec : exec (.haltTakesEffect agent) s = .next (u.traceInstr a (u.newel (a - 32)).pc 4) := by
        rw [hu]
        exact congrArg Host.Outcome.next ((if_neg (Nat.not_lt.2 hhigh)).trans (if_neg (by rw [hreq]; decide)))
      have hku : Keep [.od, .host, .trc, .newels] s u := by
        rw [hu]
        exact (newelRuns_keep s _ (Keep.rfl' s) (fs := [.od, .host, .trc, .newels])).upd rfl rfl rfl rfl
      have htrace := traceInstr_keep u a (u.newel (a - 32)).pc 4 (Keep.rfl' u)
      have hu_newel : u.newel (a - 32) = { (s.newelRuns (a - 32)).newel (a - 32) with halted := true, haltReq := false } := by
        rw [hu, newel_setNewel_same]
      exact ⟨_, hexec, by rw [traceInstr_newel, hu_newel], by rw [traceInstr_newel, hu_newel], hku.trans (htrace.mono (within_of (by decide)))⟩
    · exact congrArg Host.Outcome.next ((if_neg (Nat.not_lt.2 hhigh)).trans (if_pos (by rw [hreq]; rfl)))
  case regs =>
    intro a k hready hlevel hcan hhalted
    have hreg (has : Bool) (f : State → State) : s.dapReg a has f = if has then f s else s.dapResult Dap.badAgent 0 := by
      unfold State.dapReg
      rw [hcan, hhalted]
      cases has <;> rfl
    have hread : exec (.dapRegRead agent sel) s = .next (s.dapReg a (if a < 32 then coreSel k else newelSel k) fun s =>
        if s.regsSealed a then (s.bump OD.SEAL_DENIALS).dapResult Dap.sealed 0
        else s.dapResult Dap.ok (if a < 32 then s.coreSelRead a k else s.newelSelRead (a - 32) k)) :=
      congrArg Host.Outcome.next (dapOp_ready s 1 _ hready (by omega))
    have hwrite : exec (.dapRegWrite agent sel d) s = .next (s.dapReg a (if a < 32 then coreSelW k else newelSel k && decide (k ≠ 0xA01)) fun s =>
        (if a < 32 then s.setCore a { s.core a with regw := (s.core a).regw ++ [(k, d.toNat)] }
          else s.setNewel (a - 32) { s.newel (a - 32) with regw := (s.newel (a - 32)).regw ++ [(k, d.toNat)] }).dapResult Dap.ok 0) :=
      congrArg Host.Outcome.next (dapOp_ready s 2 _ hready hlevel)
    rw [hreg] at hread hwrite
    refine ⟨fun hsel => ?_, fun hlow hsel => ?_, fun hhigh hsel hne => ?_, fun hlow hsel => ?_⟩
    · rw [hread, if_pos hsel]
    · rw [hwrite, if_pos hlow, if_pos hsel, if_pos hlow]
    · rw [hwrite, if_neg (Nat.not_lt.2 hhigh), if_pos (by rw [hsel, decide_eq_true hne]; rfl), if_neg (Nat.not_lt.2 hhigh)]
    · have hro : coreSelW k = false := by
        unfold coreSelW
        obtain h | h | h | h := hsel
        · simp [h]
        · simp [h]
        · simp [h]
        · simp [Nat.not_lt.2 h]
      rw [hwrite, if_pos hlow, hro]
      rfl
  case challenge =>
    have hexec : exec (.dapChallenge i) s = .next (
        if !s.flag OD.DBG_ALLOW then s.dapResult Dap.denied 0
        else if s.lockedOut then s.dapResult Dap.busy 0
        else (if i.val = 0 then s.newNonce else s).dapResult Dap.ok ((if i.val = 0 then s.newNonce else s).dbg.nonce.getD i.val 0)) :=
      congrArg Host.Outcome.next (dapOp_ready s 0 _ hready (Nat.zero_le _))
    refine ⟨fun h => ?_, fun h hlocked => ?_, fun h hopen hi => ?_, fun h hopen hi => ?_⟩
    · rw [hexec, h]
      rfl
    · rw [hexec, h, hlocked]
      rfl
    · rw [hexec, h, hopen, if_neg hi]
      rfl
    · rw [h, hopen, if_pos hi, hi] at hexec
      obtain ⟨hlength, hwords⟩ := newNonce_facts s
      have hkeep : Keep [.dbg] s s.newNonce := newNonce_keep s (Keep.rfl' s)
      generalize s.newNonce = u at hexec hlength hwords hkeep
      exact ⟨_, hexec, hlength, hwords, rfl, rfl, hkeep.upd rfl rfl rfl rfl⟩
  case respond =>
    intro ws
    have hexec : exec (.dapRespond d) s = .next (
        if ws.length = 1 ∧ !respondHead d.toNat then s.authFails
        else if ws.length < 13 then State.dapResult { s with dbg := { s.dbg with words := ws } } Dap.ok 0
        else { s with dbg :=
          { s.dbg with words := [], nonce := [], auth := some (s.authOf ws), status := Dap.pending, data := 0, waits := none } }) :=
      congrArg Host.Outcome.next (dapOp_ready s 0 _ hready (Nat.zero_le _))
    refine ⟨fun hfirst hhead => ?_, fun hgood => ?_⟩
    · rw [hexec, if_pos ⟨hfirst, by rw [hhead]; rfl⟩]
    · have hok : ¬(ws.length = 1 ∧ (!respondHead d.toNat) = true) := by
        rintro ⟨hfirst, hhead⟩
        obtain h | h := hgood
        · exact h hfirst
        · rw [h] at hhead
          exact absurd hhead (by decide)
      rw [if_neg hok] at hexec
      exact ⟨fun hshort => hexec.trans (congrArg _ (if_pos hshort)), fun hfull => hexec.trans (congrArg _ (if_neg (Nat.not_lt.2 hfull)))⟩
  case auth =>
    refine ⟨fun hnone => ?_, fun x hauth => ?_, fun hlocked => congrArg Host.Outcome.next (if_pos hlocked),
      fun hopen => congrArg Host.Outcome.next (if_neg (by rw [hopen]; decide))⟩
    · show Host.Outcome.next _ = _
      simp only [hnone]
    · cases hgranted : s.authGranted x with
      | true =>
        obtain ⟨t, hexec, hnone, hgrant⟩ := authGrant_facts hauth hgranted
        exact ⟨t, hexec, hnone, hgrant⟩
      | false =>
        obtain ⟨⟨hnone, -⟩, hfails, -⟩ := authFails_facts s
        refine ⟨s.authFails, ?_, hnone, hfails⟩
        show Host.Outcome.next _ = _
        simp only [hauth, hgranted]
        rfl

end Sys2Proof.Machine
end

section
/-!
Forms and their effects (O60). A background stage that runs on a joined pair is found by either core of it (R281), and a stop at its
quantum names the pair's even core; O60 has it name the core by which the command found it.
-/

set_option Elab.async false

namespace Sys2Proof.Machine

/-- An item that enters RUNNING keeps every item's fault agent. -/
theorem enterRunning_faultAgent (s : State) (i j : Nat) : ((s.enterRunning i).item j).faultAgent = (s.item j).faultAgent := by
  unfold State.enterRunning
  rw [(armAll_steady _).item j]
  show ((s.setItem i { s.item i with st := .running }).item j).faultAgent = _
  by_cases h : j = i
  · rw [h, item_setItem_same s]
  · rw [item_setItem_ne s h]

theorem startBackground_faultAgent (n : Nat) (s : State) (j : Nat) :
    ((State.startBackground n s).item j).faultAgent = (s.item j).faultAgent := by
  induction n generalizing s with
  | zero => rfl
  | succ n ih =>
    unfold State.startBackground
    split
    · rfl
    · split
      · rfl
      · exact (ih _).trans (enterRunning_faultAgent s _ j)

/-- A background stage issued to the joined pair of cores 0 and 1. -/
def pairStage : Entry :=
  { slot := 0, run := 0, stage := 0, lane := 0, engine := 0, dh := true, gate := none, flight := 0, bg := true, prio := 0, seq := 0,
    mapEntry := 0, st := .issued }

/-- The pair's stage has run for longer than BG_QUANTUM. -/
def pairOverrun : State :=
  { State.reset with
    clk := { now := 2 ^ 40 }
    flit := { entries := [pairStage], slots := [(0, { st := .running, bg := true, stages := [0], runs := 1 })] } }

/-- Refutes O60: the stage of a joined pair is found by core 1 too, and its stop names core 0. -/
theorem not_formsCompleteWithTheirEffect : ¬ Obligations.FormsCompleteWithTheirEffect := by
  rintro ⟨-, -, -, -, -, -, -, -, -, hquantum, -⟩
  obtain ⟨v, hexec, -, -, -, hagent, -⟩ :=
    hquantum 1 pairOverrun pairStage (by decide +kernel) (by decide) (by decide +kernel) (by decide +kernel) (by decide +kernel)
  have hmodel : exec (.bgQuantumExpiry 1) pairOverrun = .next ((pairOverrun.bump OD.BG_OVERRUNS).stageFault pairStage 7 0 none) := by
    show Host.Outcome.next _ = _
    have hfound : pairOverrun.runningOn 1 = some pairStage := by decide +kernel
    simp only [show ((1 : Fin 70) : Nat) = 1 from rfl, hfound]
    exact congrArg Host.Outcome.next (if_neg (by decide +kernel))
  have hnamed : (((pairOverrun.bump OD.BG_OVERRUNS).stageFault pairStage 7 0 none).item 0).faultAgent = 1 := by
    rw [Host.Outcome.next.inj (hmodel.symm.trans hexec), startBackground_faultAgent]
    exact hagent
  exact absurd hnamed (by decide +kernel)

end Sys2Proof.Machine
end

section
/-!
The copy of a row by the core DMA engine (R412, R416, R419): what the count of a copy's bytes leaves of the places of memory, one access
of the copy, and the row, access by access.
-/

set_option Elab.async false

namespace Sys2Proof.Machine

/-! ### What the count of bytes copied leaves -/

theorem any_range_congr {m : Nat} {f g : Nat → Bool} (h : ∀ i, i < m → f i = g i) : (List.range m).any f = (List.range m).any g := by
  rw [Bool.eq_iff_iff, List.any_eq_true, List.any_eq_true]
  exact exists_congr fun i => and_congr_right fun hi => by rw [h i (List.mem_range.1 hi)]

section Counted

variable {n : Nat} {u s : State} (h : ∀ k, k ≠ OD.DMA_BYTES n → s.rd k = u.rd k) (hldr : s.ldr = u.ldr)
include h

theorem counted_powered (d : Nat) : s.powered d = u.powered d :=
  powered_of (h _ (by unfold OD.DOMAIN_ON OD.DMA_BYTES; omega)) d

include hldr

theorem counted_extents (i : Nat) : s.extents i = u.extents i := by
  unfold State.extents
  rw [hldr, h (OD.IMG_STATE i) (by unfold OD.IMG_STATE OD.DMA_BYTES; omega),
    h (OD.IMG_GALLERY_BASE i) (by unfold OD.IMG_GALLERY_BASE OD.DMA_BYTES; omega),
    h (OD.IMG_GALLERY_SIZE i) (by unfold OD.IMG_GALLERY_SIZE OD.DMA_BYTES; omega),
    h (OD.IMG_ALCOVE_BASE i) (by unfold OD.IMG_ALCOVE_BASE OD.DMA_BYTES; omega),
    h (OD.IMG_ALCOVE_SIZE i) (by unfold OD.IMG_ALCOVE_SIZE OD.DMA_BYTES; omega),
    h (OD.IMG_CORES i) (by unfold OD.IMG_CORES OD.DMA_BYTES; omega)]

theorem counted_gallery (i a : Nat) : s.inGalleryExtent i a = u.inGalleryExtent i a := by
  unfold State.inGalleryExtent
  rw [counted_extents h hldr]

theorem counted_alcove (i a : Nat) : s.inAlcoveExtent i a = u.inAlcoveExtent i a := by
  unfold State.inAlcoveExtent
  rw [counted_extents h hldr]

theorem counted_allows (hn : n < 32) (t a : Nat) (wr : Bool) : s.galleryAllows t a wr = u.galleryAllows t a wr := by
  have hshared : (List.range 16).any (fun i => s.inGalleryExtent i a && decide (2 ≤ s.rd (OD.IMG_STATE i)) && bit (s.rd (OD.IMG_TENANTS i)) t) =
      (List.range 16).any (fun i => u.inGalleryExtent i a && decide (2 ≤ u.rd (OD.IMG_STATE i)) && bit (u.rd (OD.IMG_TENANTS i)) t) :=
    any_range_congr fun i hi => by
      rw [counted_gallery h hldr, h (OD.IMG_STATE i) (by unfold OD.IMG_STATE OD.DMA_BYTES; omega),
        h (OD.IMG_TENANTS i) (by unfold OD.IMG_TENANTS OD.DMA_BYTES; omega)]
  unfold State.galleryAllows
  rw [hshared, h (OD.TEN_GAL_BASE t) (by unfold OD.TEN_GAL_BASE OD.DMA_BYTES; omega),
    h (OD.TEN_GAL_SIZE t) (by unfold OD.TEN_GAL_SIZE OD.DMA_BYTES; omega)]
  simp only [counted_gallery h hldr]

/-- Which bytes are memory does not hang on the count of a copy's bytes. -/
theorem counted_mem (hn : n < 32) (q : Acc) (wr : Bool) (a : Nat) : s.place q wr a = .mem ↔ u.place q wr a = .mem := by
  have hready (p : Nat) : s.flag (OD.PAIR_READY p) = u.flag (OD.PAIR_READY p) := by
    unfold State.flag
    rw [h _ (by unfold OD.PAIR_READY OD.DMA_BYTES; omega)]
  have hlat : s.rd OD.LATCHED = u.rd OD.LATCHED := h _ (by unfold OD.LATCHED OD.DMA_BYTES; omega)
  have hchannel (o : Nat) : s.dramChannel o = u.dramChannel o := by
    unfold State.dramChannel State.latGrain State.latSplit State.latHash
    rw [hlat]
  have hhole (o : Nat) : s.dramHole o = u.dramHole o := by
    unfold State.dramHole State.latEcc State.latSplit
    rw [hlat]
  have hstate (i : Nat) : s.rd (OD.CH_STATE i) = u.rd (OD.CH_STATE i) := h _ (by unfold OD.CH_STATE OD.DMA_BYTES; omega)
  have hbars : s.extentBars q wr a = u.extentBars q wr a := by
    unfold State.extentBars
    simp only [counted_alcove h hldr]
  have hwindow : s.windowPlace q wr a = .mem ↔ u.windowPlace q wr a = .mem :=
    iff_of_false (windowPlace_ne_mem s q wr a) (windowPlace_ne_mem u q wr a)
  unfold State.place
  simp only [counted_powered h, hready, counted_allows h hldr hn, hbars, hchannel, hhole, hstate]
  split_ifs <;> first | exact hwindow | exact Iff.rfl

end Counted

/-- A machine in which a row of core `n` is being copied: its accesses change memory and the count of its bytes. -/
structure State.Copying (u s : State) (n : Nat) : Prop where
  keeps : Keep [.od, .mem, .bal] u s
  numbers : ∀ k, k ≠ OD.DMA_BYTES n → s.rd k = u.rd k
  smooth : s.smooth
  marks : ∀ x, s.mark x = u.mark x ∨ s.mark x = 0

section Copying

variable {n : Nat} {u s : State} (h : u.Copying s n)
include h

theorem State.Copying.core (m : Nat) : s.core m = u.core m := by
  unfold State.core
  rw [h.keeps.part .cores]

theorem State.Copying.stageAcc (m : Nat) (e : Entry) : s.stageAcc m e = u.stageAcc m e := by
  unfold State.stageAcc State.stageTen State.item
  rw [h.keeps.part .flit]

theorem State.Copying.mem (hn : n < 32) (q : Acc) (wr : Bool) (a : Nat) : s.place q wr a = .mem ↔ u.place q wr a = .mem :=
  counted_mem h.numbers (h.keeps.part .ldr) hn q wr a

theorem State.Copying.sealedByte (hn : n < 32) (a : Nat) : s.sealedByte a = u.sealedByte a := by
  have hvest : s.vest = u.vest := h.keeps.part .vest
  refine sealed_same (fun q _ => h.numbers _ ?_) (fun q _ => h.numbers _ ?_) (fun r _ => ⟨h.numbers _ ?_, h.numbers _ ?_⟩) (h.numbers _ ?_)
    (h.keeps.part .clok) (h.keeps.part .ledg) (fun k => by unfold State.stream; rw [hvest]) a
  · unfold OD.POOL_STATE OD.DMA_BYTES
    omega
  · unfold OD.PK_STATE OD.DMA_BYTES
    omega
  · unfold OD.SEAL_BASE OD.DMA_BYTES
    omega
  · unfold OD.SEAL_SIZE OD.DMA_BYTES
    omega
  · unfold OD.CORE_SEAL OD.DMA_BYTES
    omega

theorem State.Copying.protects (m a : Nat) : s.protects m a = u.protects m a := by
  have hldr : s.ldr = u.ldr := h.keeps.part .ldr
  unfold State.protects State.inImage State.inWork
  simp only [counted_gallery h.numbers hldr, counted_alcove h.numbers hldr, h.core m]

end Copying

/-! ### One access of a copy -/

/-- A store of a stage that nothing turns away is the write of its bytes. -/
theorem stageWrite_of_memWrite {u t : State} {n : Nat} {e : Entry} {a : Nat} {bs : List Byte}
    (hfree : ∀ i, i < bs.length → u.protects n (a + i) = false)
    (hallowed : (u.core n).sealed = false ∧ (u.core n).emitter = false ∨ ∀ i, i < bs.length → u.sealedByte (a + i) = true)
    (hwrite : u.memWrite (u.stageAcc n e) a bs = ({}, t)) : u.stageWrite n e a bs = (true, t) := by
  have hparts : u.writeParts (u.stageAcc n e) [(a, bs)] = u.memWrite (u.stageAcc n e) a bs := by
    have hspan : (fun y => [(a, bs)].any (fun x => inSpan x.1 x.2.length y)) = inSpan a bs.length := by
      funext y
      simp
    unfold State.writeParts State.memWrite State.partsDone State.writeDone
    simp only [hspan, List.flatMap_cons, List.flatMap_nil, List.append_nil, List.foldl_cons, List.foldl_nil, List.map_cons, List.map_nil] <;> rfl
  have hnone : (if (u.core n).emitter then countInParts (fun x => !u.sealedByte x && u.performs (u.stageAcc n e) x) [(a, bs)] else 0) = 0 := by
    obtain ⟨-, hemitter⟩ | hsealed := hallowed
    · rw [hemitter]
      rfl
    · have hcount : countInParts (fun x => !u.sealedByte x && u.performs (u.stageAcc n e) x) [(a, bs)] = 0 := by
        simp only [countInParts, List.map_cons, List.map_nil, List.foldl_cons, List.foldl_nil, Nat.zero_add]
        rw [List.countP_eq_zero]
        intro i hi
        simp [hsealed i (List.mem_range.1 hi)]
      rw [hcount, ite_self]
  unfold State.stageWrite State.stageWriteParts
  simp only [firstInParts_one, firstByte_none bs.length a hfree]
  rw [show ({ agent := n, ctx := some (u.stageTen e) } : Acc) = u.stageAcc n e from rfl, hparts, hwrite, hnone]
  obtain ⟨hunsealed, hemitter⟩ | hsealed := hallowed
  · rw [hunsealed, hemitter]
    cases firstByte (fun x => !u.sealedByte x) a bs.length <;> rfl
  · rw [firstByte_none bs.length a fun i hi => by simp [hsealed i hi]]
    rfl

/-- What a row needs to be copied whole (R412, R416, R744, R745). -/
structure State.RowReady (u : State) (n : Nat) (e : Entry) (src dst len : Nat) : Prop where
  core : n < 32
  read : u.isMem (u.stageAcc n e) false src len
  clean : ∀ i, i < len → u.mark (src + i) = 0
  unsealed : (∀ i, i < len → u.sealedByte (src + i) = false) ∨ (u.core n).sealed = true
  free : ∀ i, i < len → u.protects n (dst + i) = false
  write : u.isMem (u.stageAcc n e) true dst len
  sound : ∀ i, i < len → u.mark (dst + i) ≠ 2
  allowed : (u.core n).sealed = false ∧ (u.core n).emitter = false ∨ ∀ i, i < len → u.sealedByte (dst + i) = true

theorem firstSealed_none_iff (s : State) (len a : Nat) : s.firstSealed a len = none ↔ ∀ i, i < len → s.sealedByte (a + i) = false := by
  induction len generalizing a with
  | zero => simp [State.firstSealed]
  | succ len ih =>
    unfold State.firstSealed
    cases hfirst : s.sealedByte a with
    | true => exact iff_of_false (by simp) fun hnone => by simp at hnone; exact absurd (hnone 0 (by omega)) (by simp [hfirst])
    | false =>
      simp only [Bool.false_eq_true, if_false, ih]
      constructor
      · rintro hrest (_ | i) hi
        · exact hfirst
        · rw [show a + (i + 1) = a + 1 + i by omega]
          exact hrest i (by omega)
      · intro hall i hi
        rw [show a + 1 + i = a + (i + 1) by omega]
        exact hall (i + 1) (by omega)

/-- One access of the copy reads `k` bytes and writes them where they go. -/
theorem copyAccess {u s : State} {n : Nat} {e : Entry} {src dst len p k : Nat} (hrow : u.RowReady n e src dst len) (hs : u.Copying s n)
    (hk : p + k ≤ len) :
    ∃ v t, s.stageLoad n e (src + p) k = (some (s.memBytes (src + p) k), v) ∧
      v.stageWrite n e (dst + p) (overlapCopy (src + p) (dst + p) (s.memBytes (src + p) k)) = (true, t) ∧
      s.Stored t (dst + p) (overlapCopy (src + p) (dst + p) (s.memBytes (src + p) k)) ∧ u.Copying t n := by
  have hn := hrow.core
  have hread : s.isMem (s.stageAcc n e) false (src + p) k := fun i hi => by
    rw [hs.stageAcc, hs.mem hn, Nat.add_assoc]
    exact hrow.read (p + i) (by omega)
  have hclean : s.clean (src + p) k := ⟨fun i hi => by
    obtain hm | hm := hs.marks (src + p + i)
    · rw [hm, Nat.add_assoc]
      exact hrow.clean (p + i) (by omega)
    · exact hm, hs.smooth⟩
  have hunsealed : s.firstSealed (src + p) k = none ∨ (s.core n).sealed = true := by
    rw [firstSealed_none_iff, hs.core]
    refine hrow.unsealed.imp_left fun hall i hi => ?_
    rw [hs.sealedByte hn, Nat.add_assoc]
    exact hall (p + i) (by omega)
  obtain ⟨b, hload, hsmooth⟩ := stageLoad_clean s n e (src + p) k hread hclean hunsealed
  obtain ⟨v, hv⟩ : ∃ v : State, v = { s with bal := b } := ⟨_, rfl⟩
  rw [← hv] at hload hsmooth
  have hcopying : u.Copying v n := by
    rw [hv]
    rw [hv] at hsmooth
    exact ⟨hs.keeps.bal b (by decide), hs.numbers, hsmooth, hs.marks⟩
  obtain ⟨bs, hbs⟩ : ∃ bs, bs = overlapCopy (src + p) (dst + p) (s.memBytes (src + p) k) := ⟨_, rfl⟩
  have hlength : bs.length = k := by rw [hbs, overlapCopy_length, memBytes_length]
  obtain ⟨t, hwrite, hstored, hsmooth', hmarks⟩ := memWrite_free (q := v.stageAcc n e) (a := dst + p) (bs := bs) hsmooth fun x hlo hhi => by
    obtain ⟨i, rfl⟩ : ∃ i, x = dst + p + i := ⟨x - (dst + p), by omega⟩
    rw [hcopying.stageAcc, hcopying.mem hn, Nat.add_assoc]
    refine ⟨hrow.write (p + i) (by omega), ?_⟩
    obtain hm | hm := hcopying.marks (dst + (p + i))
    · rw [hm]
      exact hrow.sound (p + i) (by omega)
    · rw [hm]
      decide
  have hstage : v.stageWrite n e (dst + p) bs = (true, t) := by
    refine stageWrite_of_memWrite (fun i hi => ?_) ?_ hwrite
    · rw [hcopying.protects, Nat.add_assoc]
      exact hrow.free (p + i) (by omega)
    · rw [hcopying.core]
      refine hrow.allowed.imp_right fun hall i hi => ?_
      rw [hcopying.sealedByte hn, Nat.add_assoc]
      exact hall (p + i) (by omega)
  have hkeeps : Keep [.mem, .bal] s t := by
    rw [hv] at hstored
    exact ((Keep.rfl' s).bal b (by decide)).trans hstored.keeps
  rw [← hbs]
  refine ⟨v, t, hload, hstage, ⟨hstored.bytes, fun x hx => ?_, hkeeps⟩, ⟨hcopying.keeps.trans (hstored.keeps.mono (within_of (by decide))), fun k hk => ?_, hsmooth', fun x => ?_⟩⟩
  · rw [hstored.others x hx, hv]
    rfl
  · rw [Keep.rd hstored.keeps]
    exact hcopying.numbers k hk
  · obtain hm | hm := hmarks x
    · rw [hm]
      exact hcopying.marks x
    · exact .inr hm

/-! ### The row -/

/-- The byte that a row's copy leaves at place `i` of the destination (R416). -/
def State.rowByte (u : State) (src dst len i : Nat) : Byte :=
  u.memByte (if 0 < dst - src ∧ dst - src < len then src + i % (dst - src) else src + i)

theorem memBytes_getElem (s : State) (len : Nat) : ∀ (a i : Nat) (h : i < (s.memBytes a len).length), (s.memBytes a len)[i] = s.memByte (a + i) := by
  induction len with
  | zero => intro a i h; exact absurd h (Nat.not_lt_zero i)
  | succ len ih =>
    rintro a (_ | i) h
    · rfl
    · simp only [State.memBytes, List.getElem_cons_succ]
      rw [ih (a + 1) i (by simpa [State.memBytes] using h), show a + 1 + i = a + (i + 1) by omega]

theorem memBytes_getD (s : State) {a len i : Nat} (h : i < len) : (s.memBytes a len).getD i 0#8 = s.memByte (a + i) := by
  have hlength : i < (s.memBytes a len).length := by rw [memBytes_length]; exact h
  rw [List.getD_eq_getElem _ _ hlength, memBytes_getElem]

theorem memBytes_eq_iff {s : State} {a : Nat} {bs : List Byte} : s.memBytes a bs.length = bs ↔ ∀ i, i < bs.length → s.memByte (a + i) = bs.getD i 0#8 := by
  constructor
  · intro h i hi
    rw [← memBytes_getD s hi, h]
  · intro h
    refine List.ext_getElem (memBytes_length ..) fun i hi hi' => ?_
    rw [memBytes_getElem, h i hi', List.getD_eq_getElem _ _ hi']

theorem overlapCopy_getD (src dst : Nat) {bs : List Byte} {i : Nat} (h : i < bs.length) :
    (overlapCopy src dst bs).getD i 0#8 = bs.getD (if 0 < dst - src ∧ dst - src < bs.length then i % (dst - src) else i) 0#8 := by
  unfold overlapCopy
  dsimp only
  split
  · rw [List.getD_eq_getElem _ _ (by simpa using h)]
    simp
  · rfl

/-- The copied row as a list: `overlapCopy` of its source. -/
theorem overlapCopy_row (u : State) {src dst len i : Nat} (h : i < len) :
    (overlapCopy src dst (u.memBytes src len)).getD i 0#8 = u.rowByte src dst len i := by
  have hlength := memBytes_length u len src
  rw [overlapCopy_getD _ _ (by rw [hlength]; exact h), hlength]
  unfold State.rowByte
  split
  · next hover => rw [memBytes_getD u (Nat.lt_of_lt_of_le (Nat.mod_lt _ hover.1) hover.2.le)]
  · rw [memBytes_getD u h]

/-- `p` bytes of the row are copied and the rest of memory is as it was. -/
def State.Copied (u s : State) (src dst len p : Nat) : Prop :=
  ∀ x, s.memByte x = if dst ≤ x ∧ x < dst + p then u.rowByte src dst len (x - dst) else u.memByte x

/-- The bytes that the next access writes are the row's. -/
theorem copyAccess_bytes {u s : State} {src dst len p k i : Nat} (hs : u.Copied s src dst len p) (hk : p + k ≤ len) (hi : i < k) :
    (overlapCopy (src + p) (dst + p) (s.memBytes (src + p) k)).getD i 0#8 = u.rowByte src dst len (p + i) := by
  rw [overlapCopy_row s hi]
  obtain ⟨d, hd⟩ : ∃ d, d = dst - src := ⟨_, rfl⟩
  have hrow (j : Nat) : u.rowByte src dst len j = u.memByte (if 0 < d ∧ d < len then src + j % d else src + j) := by
    rw [hd]
    rfl
  have hread (j : Nat) (hj : j < len) (hbehind : 0 < d → j < p + d) (hahead : d = 0 → p ≤ j) :
      s.memByte (src + j) = u.rowByte src dst len j := by
    rw [hs]
    by_cases hcopied : dst ≤ src + j ∧ src + j < dst + p
    · have hpos : 0 < d := by
        rw [Nat.pos_iff_ne_zero]
        intro hzero
        have := hahead hzero
        omega
      have hge : d ≤ j := by omega
      rw [if_pos hcopied, hrow, if_pos ⟨hpos, by omega⟩, hrow, if_pos ⟨hpos, by omega⟩, show src + j - dst = j - d by omega,
        Nat.mod_eq_sub_mod hge]
    · rw [if_neg hcopied, hrow]
      split
      · next hover =>
        have hlt : j < d := by
          have := hbehind hover.1
          omega
        rw [Nat.mod_eq_of_lt hlt]
      · rfl
  show s.memByte (if 0 < dst + p - (src + p) ∧ dst + p - (src + p) < k then src + p + i % (dst + p - (src + p)) else src + p + i) = _
  rw [show dst + p - (src + p) = d by omega]
  by_cases hover : 0 < d ∧ d < k
  · obtain ⟨hpos, hlt⟩ := hover
    have hmod := Nat.mod_lt i hpos
    rw [if_pos ⟨hpos, hlt⟩, Nat.add_assoc, hread (p + i % d) (by omega) (fun _ => by omega) (fun hzero => by omega), hrow, hrow,
      if_pos ⟨hpos, by omega⟩, if_pos ⟨hpos, by omega⟩, Nat.add_mod_mod]
  · rw [if_neg hover, Nat.add_assoc]
    exact hread (p + i) (by omega) (fun hpos => by omega) (fun _ => Nat.le_add_right p i)

theorem copyAccess_copied {u s t : State} {src dst len p k : Nat} (hs : u.Copied s src dst len p) (hk : p + k ≤ len)
    (hstored : s.Stored t (dst + p) (overlapCopy (src + p) (dst + p) (s.memBytes (src + p) k))) : u.Copied t src dst len (p + k) := by
  have hlength : (overlapCopy (src + p) (dst + p) (s.memBytes (src + p) k)).length = k := by rw [overlapCopy_length, memBytes_length]
  have hbytes := memBytes_eq_iff.1 hstored.bytes
  have hothers := hstored.others
  rw [hlength] at hbytes hothers
  intro x
  by_cases hnew : dst + p ≤ x ∧ x < dst + p + k
  · obtain ⟨i, rfl⟩ : ∃ i, x = dst + p + i := ⟨x - (dst + p), by omega⟩
    rw [hbytes i (by omega), copyAccess_bytes hs hk (by omega), if_pos (by omega), show dst + p + i - dst = p + i by omega]
  · rw [hothers x (by omega), hs x]
    by_cases hold : dst ≤ x ∧ x < dst + p
    · rw [if_pos hold, if_pos (by omega)]
    · rw [if_neg hold, if_neg (by omega)]

theorem dmaPiece_bounds {src dst left : Nat} (h : left ≠ 0) : 0 < dmaPiece src dst left ∧ dmaPiece src dst left ≤ left := by
  unfold dmaPiece
  have hsrc := Nat.mod_lt src (show 0 < 64 by decide)
  have hdst := Nat.mod_lt dst (show 0 < 64 by decide)
  omega

/-- The count of bytes goes on by an access's bytes. -/
theorem copying_count {u t : State} {n : Nat} (h : u.Copying t n) (k : Nat) : u.Copying (t.bump64 (OD.DMA_BYTES n) k) n :=
  ⟨h.keeps.wr _ _, fun j hj => (rd_bump64_ne t hj k).trans (h.numbers j hj), h.smooth, h.marks⟩

/-- A row that nothing turns away is copied whole, access by access. -/
theorem dmaBytes_copies {u : State} {n : Nat} {e : Entry} {src dst len : Nat} (hrow : u.RowReady n e src dst len) (fuel : Nat) :
    ∀ (p : Nat) (s : State), u.Copying s n → u.Copied s src dst len p → p ≤ len → len - p ≤ fuel →
      ∃ t, State.dmaBytes n e fuel (src + p) (dst + p) (len - p) s = (true, t) ∧ u.Copying t n ∧ u.Copied t src dst len len ∧
        t.rd (OD.DMA_BYTES n) = if len - p = 0 then s.rd (OD.DMA_BYTES n)
          else min (s.rd (OD.DMA_BYTES n) + (len - p)) 0xFFFFFFFFFFFFFFFF := by
  induction fuel with
  | zero =>
    intro p s hs hcopied hp hleft
    obtain rfl : p = len := by omega
    exact ⟨s, rfl, hs, hcopied, by rw [if_pos (by omega)]⟩
  | succ fuel ih =>
    intro p s hs hcopied hp hleft
    unfold State.dmaBytes
    by_cases hdone : len - p = 0
    · obtain rfl : p = len := by omega
      rw [if_pos hdone, if_pos hdone]
      exact ⟨s, rfl, hs, hcopied, rfl⟩
    · obtain ⟨hpos, hle⟩ := dmaPiece_bounds (src := src + p) (dst := dst + p) hdone
      obtain ⟨k, hk⟩ : ∃ k, k = dmaPiece (src + p) (dst + p) (len - p) := ⟨_, rfl⟩
      rw [← hk] at hpos hle
      obtain ⟨v, t, hload, hwrite, hstored, hcopying⟩ := copyAccess hrow hs (p := p) (k := k) (by omega)
      have hcount := rd_bump64_same t (OD.DMA_BYTES n) k
      obtain ⟨w, hrest, hw, hwhole, hbytes⟩ := ih (p + k) (t.bump64 (OD.DMA_BYTES n) k) (copying_count hcopying k)
        (fun x => copyAccess_copied hcopied (by omega) hstored x) (by omega) (by omega)
      refine ⟨w, ?_, hw, hwhole, ?_⟩
      · rw [if_neg hdone, ← hk]
        simp only [hload, hwrite]
        rw [Nat.add_assoc, Nat.add_assoc, Nat.sub_sub, hrest]
      · rw [hbytes, hcount, Keep.rd hstored.keeps, if_neg hdone]
        split
        · rw [show len - p = k by omega]
        · omega

end Sys2Proof.Machine
end

section
/-!
The core DMA engine (R414 to R419, Table CORE-6): its instructions, a descriptor's start and its end. Settles O27.
-/

set_option Elab.async false

namespace Sys2Proof.Machine

theorem flag_of_zero {s : State} {k : Nat} (h : s.rd k = 0) : s.flag k = false := by
  unfold State.flag
  rw [h]
  rfl

/-! ### The instructions -/

/-- What DMA does once it is issued. -/
def State.dmaIssued (n ra : Nat) (e : Entry) (u : State) : State :=
  let a := ((u.core n).sreg ra).toNat
  if 4 ≤ (u.core n).dmaq.length then u
  else if a < (alcoveRange n).1 ∨ (alcoveRange n).2 ≤ a then u.coreExc n e Exc.dmaParam a
  else if a % 64 ≠ 0 then u.coreExc n e Exc.misaligned a
  else
    match u.stageLoad n e a 64 with
    | (none, v) => v
    | (some bs, v) =>
      if 0x1000000 < (dmaDesc bs).rowBytes then v.coreExc n e Exc.dmaParam a
      else v.nextWith n (fun c => { c with dmaq := c.dmaq ++ [{ dmaDesc bs with pc := c.pc }] })

theorem exec_dma (n rd ra rb : Fin 32) (s : State) : exec (.dma n rd ra rb) s = .next (s.issue n (State.dmaIssued n ra)) := rfl

/-- DMA with a descriptor that it reads queues it, or raises on its row. -/
theorem dma_loaded {n ra : Nat} {e : Entry} {u v : State} {bs : List Byte} (hroom : (u.core n).dmaq.length < 4)
    (hinside : ¬(((u.core n).sreg ra).toNat < (alcoveRange n).1 ∨ (alcoveRange n).2 ≤ ((u.core n).sreg ra).toNat))
    (haligned : ((u.core n).sreg ra).toNat % 64 = 0) (hload : u.stageLoad n e ((u.core n).sreg ra).toNat 64 = (some bs, v)) :
    State.dmaIssued n ra e u = if 0x1000000 < (dmaDesc bs).rowBytes then v.coreExc n e Exc.dmaParam ((u.core n).sreg ra).toNat
      else v.nextWith n (fun c => { c with dmaq := c.dmaq ++ [{ dmaDesc bs with pc := c.pc }] }) := by
  unfold State.dmaIssued
  rw [if_neg (Nat.not_le.2 hroom), if_neg hinside, if_neg (not_not.2 haligned), hload]

/-! ### A descriptor's start -/

/-- The engine starts the oldest descriptor of a core that runs. -/
theorem dmaDescriptorRun_starts {n : Fin 32} {d : DmaDesc} {rest : List DmaDesc} {e : Entry} {s : State} (hidle : (s.core n).running = none)
    (hqueue : (s.core n).dmaq = d :: rest) (hruns : s.runningOn n = some e) (hgo : (s.core n).st ≠ .halted) (hgate : s.rd OD.GATE = 0) :
    exec (.dmaDescriptorRun n) s = .next (
      if d.rowBytes * d.rows = 0 then s.setCore n { s.core n with dmaq := rest, running := some d, emptyMark := true }
      else (State.dmaRows n e d d.rows 0 (s.setCore n { s.core n with dmaq := rest, running := some d })).2) := by
  show Host.Outcome.next _ = _
  simp only [hidle, hqueue, hruns]
  rw [if_neg]
  rintro (h | h)
  · exact hgo h
  · rw [flag_of_zero hgate] at h
    exact absurd h (by decide)

/-- A descriptor of one row that nothing turns away. -/
theorem dmaRows_one {u : State} {n : Nat} {e : Entry} {d : DmaDesc} (hrow : u.RowReady n e d.src d.dst d.rowBytes) (hone : d.rows = 1)
    (hsmooth : u.smooth) :
    ∃ t, State.dmaRows n e d d.rows 0 u = (true, t) ∧ u.Copying t n ∧ u.Copied t d.src d.dst d.rowBytes d.rowBytes ∧
      t.rd (OD.DMA_BYTES n) = if d.rowBytes = 0 then u.rd (OD.DMA_BYTES n)
        else min (u.rd (OD.DMA_BYTES n) + d.rowBytes) 0xFFFFFFFFFFFFFFFF := by
  have hstart : u.Copied u d.src d.dst d.rowBytes 0 := fun x => by rw [if_neg (by omega)]
  obtain ⟨t, hcopy, hcopying, hwhole, hbytes⟩ := dmaBytes_copies hrow d.rowBytes 0 u
    ⟨Keep.rfl' u, fun _ _ => rfl, hsmooth, fun _ => .inl rfl⟩ hstart (Nat.zero_le _) (by omega)
  refine ⟨t, ?_, hcopying, hwhole, hbytes⟩
  rw [Nat.add_zero, Nat.add_zero, Nat.sub_zero] at hcopy
  rw [hone]
  unfold State.dmaRows
  rw [Nat.zero_mul, Nat.zero_mul, Nat.add_zero, Nat.add_zero]
  dsimp only
  rw [firstByte_none d.rowBytes d.dst hrow.free]
  dsimp only
  rw [hcopy]
  rfl

/-- A descriptor of one row leaves its bytes at the destination, and nothing else but its count. -/
theorem dmaRows_copies_row {u : State} {n : Nat} {e : Entry} {d : DmaDesc} {bs : List Byte} (hrow : u.RowReady n e d.src d.dst d.rowBytes)
    (hone : d.rows = 1) (hsome : d.rowBytes ≠ 0) (hsmooth : u.smooth) (hbs : bs = overlapCopy d.src d.dst (u.memBytes d.src d.rowBytes)) :
    ∃ t, State.dmaRows n e d d.rows 0 u = (true, t) ∧ t.memBytes d.dst d.rowBytes = bs ∧
      (∀ x, (x < d.dst ∨ d.dst + d.rowBytes ≤ x) → t.memByte x = u.memByte x) ∧
      t.rd (OD.DMA_BYTES n) = min (u.rd (OD.DMA_BYTES n) + d.rowBytes) 0xFFFFFFFFFFFFFFFF ∧
      u.SameBut t [OD.DMA_BYTES n] ∧ Keep [.od, .mem, .bal] u t := by
  obtain ⟨t, hrows, hcopying, hwhole, hcount⟩ := dmaRows_one hrow hone hsmooth
  have hlength : bs.length = d.rowBytes := by rw [hbs, overlapCopy_length, memBytes_length]
  refine ⟨t, hrows, ?_, fun x hx => ?_, ?_, ⟨fun k hk => hcopying.numbers k (List.ne_of_not_mem_cons hk)⟩, hcopying.keeps⟩
  · rw [← hlength]
    refine memBytes_eq_iff.2 fun i hi => ?_
    rw [hlength] at hi
    rw [hwhole, if_pos ⟨Nat.le_add_right _ _, by omega⟩, hbs, overlapCopy_row u hi, Nat.add_sub_cancel_left]
  · rw [hwhole, if_neg (by omega)]
  · rw [hcount, if_neg hsome]

/-! ### A descriptor's end -/

/-- The running descriptor ends and applies its signal. -/
theorem dmaDescriptorDone_ends {n : Fin 32} {d : DmaDesc} {e : Entry} {s : State} (hrunning : (s.core n).running = some d)
    (hruns : s.runningOn n = some e) (hgate : s.rd OD.GATE = 0) :
    exec (.dmaDescriptorDone n) s = .next (
      if !d.signal then s.setCore n { s.core n with running := none }
      else match (s.setCore n { s.core n with running := none }).landOp
          ((s.setCore n { s.core n with running := none }).stageReq n e) d.landing (d.landOp (s.core n).sealed) 0 with
        | (none, t) => t.stageFault e 4 (landAddr d.landing (d.landOp (s.core n).sealed)) none
        | (some .error, t) => t.stageFault e 5 0 none
        | (some _, t) => t) := by
  show Host.Outcome.next _ = _
  simp only [hrunning, hruns, flag_of_zero hgate]
  rfl

/-- Settles O27: the copy of a row by induction on its accesses (`dmaBytes_copies`). -/
theorem coreDmaQueuesCopiesAndSignals : Obligations.CoreDmaQueuesCopiesAndSignals := by
  refine ⟨fun n rd ra rb e s u hissues => ?dma, fun n imm e s u hissues => ?wait, fun n d rest e s hidle hqueue hruns hgo hgate => ?start,
    fun n d e s u hrunning hruns hgate hu => ?done⟩
  case dma =>
    intro c a out
    have hexec : exec (.dma n rd ra rb) s = .next (State.dmaIssued n ra e u) :=
      (exec_dma n rd ra rb s).trans (congrArg Host.Outcome.next (issue_of hissues _))
    have hout : (a < (alcoveRange n).1 ∨ (alcoveRange n).2 ≤ a) ↔ out := Iff.rfl
    refine ⟨fun hfull => ?_, fun hroom ho => raises_of n.isLt hissues _ (exec_dma n rd ra rb s) ?_,
      fun hroom ho halign => raises_of n.isLt hissues _ (exec_dma n rd ra rb s) ?_, fun bs v hroom ho halign hload => ⟨fun hsmall => ?_, fun hlarge => ?_⟩⟩
    · exact hexec.trans (congrArg _ (if_pos hfull))
    · exact (if_neg (Nat.not_le.2 hroom)).trans (if_pos (hout.2 ho))
    · exact (if_neg (Nat.not_le.2 hroom)).trans ((if_neg (mt hout.1 ho)).trans (if_pos halign))
    · have hqueued := dma_loaded hroom (mt hout.1 ho) halign hload
      rw [if_neg (Nat.not_lt.2 hsmall)] at hqueued
      exact ⟨_, hexec.trans (congrArg _ hqueued), nextWith_retires v n _ rfl⟩
    · have hraised := dma_loaded hroom (mt hout.1 ho) halign hload
      rw [if_pos hlarge] at hraised
      exact ⟨_, hexec.trans (congrArg _ hraised), exception_excepts v n.val n.isLt e ..⟩
  case wait =>
    intro out
    have hout : out = (u.core n).dmaq.length + b2n (u.core n).running.isSome := by
      show _ + _ = _ + _
      cases (u.core n).running <;> rfl
    refine ⟨fun hmore => ?_, fun hfew => gives_next hissues _ rfl (if_neg ?_)⟩
    · refine (congrArg Host.Outcome.next (issue_of hissues _)).trans (congrArg _ (if_pos ?_))
      rw [← hout]
      exact hmore
    · rw [← hout]
      exact Nat.not_lt.2 hfew
  case start =>
    have hexec := dmaDescriptorRun_starts hidle hqueue hruns hgo hgate
    refine ⟨fun hempty => ?_, ?_⟩
    · rw [if_pos hempty] at hexec
      exact ⟨_, hexec, core_setCore_same .., fun m hm => core_setCore_ne s hm _, (Keep.rfl' s).upd rfl rfl rfl rfl⟩
    · intro bs hone hsome u hbs hread hclean hunsealed hfree hwrite hsound hallowed
      rw [if_neg (by rw [hone, Nat.mul_one]; exact hsome)] at hexec
      have hrow : u.RowReady n e d.src d.dst d.rowBytes :=
        ⟨n.isLt, hread, hclean.1, hunsealed.imp_left (firstSealed_none_iff u d.rowBytes d.src).1, hfree, hwrite, hsound, hallowed⟩
      have hcount : u.rd (OD.DMA_BYTES n) = s.rd (OD.DMA_BYTES n) := rfl
      have hrun : exec (.dmaDescriptorRun n) s = .next (State.dmaRows n e d d.rows 0 u).2 := hexec
      clear_value u
      obtain ⟨t, hrows, hcopied⟩ := dmaRows_copies_row hrow hone hsome hclean.2 hbs
      rw [← hcount]
      exact ⟨t, hrun.trans (congrArg Host.Outcome.next (congrArg Prod.snd hrows)), hcopied⟩
  case done =>
    intro op
    have hop : d.landOp (s.core n).sealed = op := rfl
    have hexec := dmaDescriptorDone_ends hrunning hruns hgate
    rw [← hu, hop] at hexec
    clear_value op
    refine ⟨fun hquiet => ?_, fun t hsignal hland => ?_, fun t hsignal hland => ?_, fun t hsignal hland => ?_⟩
    · rw [hexec, hquiet]
      rfl
    all_goals
      rw [hexec, hsignal, hland]
      exact congrArg Host.Outcome.next (if_neg (by decide))

end Sys2Proof.Machine
end
